-- ==== Sys2Proof/Word.lean ====
section
/-! DEFINITION. The machine's word types and the plain-data containers the model uses. -/

namespace Sys2Proof

/-- A 64-bit register value. -/
abbrev W := BitVec 64

/-- One byte. -/
abbrev Byte := BitVec 8

/-- A 32-bit instruction word, CSR or FP32 pattern. -/
abbrev W32 := BitVec 32

/-- A table: pairs of a key and a value, keys strictly rising, absent keys at a default the reader names. -/
abbrev Tab (α : Type) := List (Nat × α)

/-- The value of key `k`, if it is listed. -/
def Tab.find {α : Type} (k : Nat) : Tab α → Option α
  | [] => none
  | (j, v) :: r => if j = k then some v else if j < k then Tab.find k r else none

/-- The value of key `k`, or the default `d`. -/
def Tab.getD {α : Type} (t : Tab α) (k : Nat) (d : α) : α := (Tab.find k t).getD d

/-- List key `k` with value `v`. -/
def Tab.put {α : Type} (k : Nat) (v : α) : Tab α → Tab α
  | [] => [(k, v)]
  | (j, u) :: r =>
    if j = k then (k, v) :: r
    else if j < k then (j, u) :: Tab.put k v r
    else (k, v) :: (j, u) :: r

/-- Remove key `k`. -/
def Tab.del {α : Type} (k : Nat) : Tab α → Tab α
  | [] => []
  | (j, u) :: r => if j = k then r else if j < k then (j, u) :: Tab.del k r else (j, u) :: r

/-- List key `k` with value `v`, or remove it when `v` is the default `d`. -/
def Tab.set {α : Type} [DecidableEq α] (t : Tab α) (k : Nat) (v d : α) : Tab α :=
  if v = d then Tab.del k t else Tab.put k v t

/-- Every listed value changed by `f`. -/
def Tab.mapVal {α β : Type} (f : α → β) (t : Tab α) : Tab β := t.map fun e => (e.1, f e.2)

/-- Bits `hi` down to `lo` of a natural number. -/
def bits (x hi lo : Nat) : Nat := (x >>> lo) % 2 ^ (hi + 1 - lo)

/-- Bit `i` of a natural number. -/
def bit (x i : Nat) : Bool := x.testBit i

/-- A natural number of bit width `n` read as two's complement. -/
def sext (n x : Nat) : Int := if x % 2 ^ n < 2 ^ (n - 1) then (x % 2 ^ n : Int) else (x % 2 ^ n : Int) - 2 ^ n

/-- A Boolean as 0 or 1. -/
def b01 (b : Bool) : Nat := if b then 1 else 0

/-- Little-endian bytes as a number (R2). -/
def leNat : List Byte → Nat
  | [] => 0
  | b :: r => b.toNat + 256 * leNat r

/-- The low `n` bytes of a number, least significant first (R2). -/
def leBytes : Nat → Nat → List Byte
  | 0, _ => []
  | n + 1, x => BitVec.ofNat 8 x :: leBytes n (x / 256)

/-- Replace element `i` of a list; a list too short is unchanged. -/
def listSet {α : Type} (l : List α) (i : Nat) (v : α) : List α := l.set i v

end Sys2Proof
end

