-- ==== Sys2Proof/Syntax.lean ====
section
/-! DEFINITION. The instructions and events of the Plovnar 9: one constructor for each row of the opcode table.
Word constructors carry the fields of the 32-bit word (R258, R262, R265, R268) under the table's field letters;
event constructors carry the data that names the item concerned or that the outside world supplies. -/

namespace Sys2Proof

/-- One row of the opcode table: an encoded word, or an event of the machine. -/
inductive Instr where
  /-- ADD (R286): d := s1 + s2. -/
  | add (d : BitVec 5) (s : BitVec 5) (l : BitVec 1) (t : BitVec 5) (m : BitVec 1)
  /-- ADDI (R286): d := s1 + sign-extended immediate. -/
  | addi (d : BitVec 5) (s : BitVec 5) (l : BitVec 1) (i : BitVec 12)
  /-- SUB (R286): d := s1 - s2. -/
  | sub (d : BitVec 5) (s : BitVec 5) (l : BitVec 1) (t : BitVec 5) (m : BitVec 1)
  /-- MUL (R286): d := low 64 bits of s1 x s2. -/
  | mul (d : BitVec 5) (s : BitVec 5) (l : BitVec 1) (t : BitVec 5) (m : BitVec 1)
  /-- MULHS (R286): d := high 64 bits of the signed product. -/
  | mulhs (d : BitVec 5) (s : BitVec 5) (l : BitVec 1) (t : BitVec 5) (m : BitVec 1)
  /-- MULHU (R286): d := high 64 bits of the unsigned product. -/
  | mulhu (d : BitVec 5) (s : BitVec 5) (l : BitVec 1) (t : BitVec 5) (m : BitVec 1)
  /-- DIVS (R287): Signed division rounded toward zero, never trapping. -/
  | divs (d : BitVec 5) (s : BitVec 5) (l : BitVec 1) (t : BitVec 5) (m : BitVec 1)
  /-- DIVU (R287): Unsigned division, never trapping. -/
  | divu (d : BitVec 5) (s : BitVec 5) (l : BitVec 1) (t : BitVec 5) (m : BitVec 1)
  /-- REMS (R287): Signed remainder with the sign of s1. -/
  | rems (d : BitVec 5) (s : BitVec 5) (l : BitVec 1) (t : BitVec 5) (m : BitVec 1)
  /-- REMU (R287): Unsigned remainder. -/
  | remu (d : BitVec 5) (s : BitVec 5) (l : BitVec 1) (t : BitVec 5) (m : BitVec 1)
  /-- AND (R286): d := s1 and s2. -/
  | and (d : BitVec 5) (s : BitVec 5) (l : BitVec 1) (t : BitVec 5) (m : BitVec 1)
  /-- ANDI (R286): d := s1 and sign-extended immediate. -/
  | andi (d : BitVec 5) (s : BitVec 5) (l : BitVec 1) (i : BitVec 12)
  /-- OR (R286): d := s1 or s2. -/
  | or (d : BitVec 5) (s : BitVec 5) (l : BitVec 1) (t : BitVec 5) (m : BitVec 1)
  /-- ORI (R286): d := s1 or sign-extended immediate. -/
  | ori (d : BitVec 5) (s : BitVec 5) (l : BitVec 1) (i : BitVec 12)
  /-- XOR (R286): d := s1 xor s2. -/
  | xor (d : BitVec 5) (s : BitVec 5) (l : BitVec 1) (t : BitVec 5) (m : BitVec 1)
  /-- XORI (R286): d := s1 xor sign-extended immediate. -/
  | xori (d : BitVec 5) (s : BitVec 5) (l : BitVec 1) (i : BitVec 12)
  /-- SHL (R288): Left shift by s2[5:0]. -/
  | shl (d : BitVec 5) (s : BitVec 5) (l : BitVec 1) (t : BitVec 5) (m : BitVec 1)
  /-- SHLI (R288): Left shift by an unsigned immediate 0-63. -/
  | shli (d : BitVec 5) (s : BitVec 5) (l : BitVec 1) (i : BitVec 12)
  /-- SHR (R288): Logical right shift by s2[5:0]. -/
  | shr (d : BitVec 5) (s : BitVec 5) (l : BitVec 1) (t : BitVec 5) (m : BitVec 1)
  /-- SHRI (R288): Logical right shift by an immediate. -/
  | shri (d : BitVec 5) (s : BitVec 5) (l : BitVec 1) (i : BitVec 12)
  /-- SAR (R288): Arithmetic right shift by s2[5:0]. -/
  | sar (d : BitVec 5) (s : BitVec 5) (l : BitVec 1) (t : BitVec 5) (m : BitVec 1)
  /-- SARI (R288): Arithmetic right shift by an immediate. -/
  | sari (d : BitVec 5) (s : BitVec 5) (l : BitVec 1) (i : BitVec 12)
  /-- MIN (R286): Signed minimum. -/
  | min (d : BitVec 5) (s : BitVec 5) (l : BitVec 1) (t : BitVec 5) (m : BitVec 1)
  /-- MAX (R286): Signed maximum. -/
  | max (d : BitVec 5) (s : BitVec 5) (l : BitVec 1) (t : BitVec 5) (m : BitVec 1)
  /-- MINU (R286): Unsigned minimum. -/
  | minu (d : BitVec 5) (s : BitVec 5) (l : BitVec 1) (t : BitVec 5) (m : BitVec 1)
  /-- MAXU (R286): Unsigned maximum. -/
  | maxu (d : BitVec 5) (s : BitVec 5) (l : BitVec 1) (t : BitVec 5) (m : BitVec 1)
  /-- CLZ (R286): Count leading zero bits. -/
  | clz (d : BitVec 5) (s : BitVec 5) (l : BitVec 1)
  /-- CTZ (R286): Count trailing zero bits. -/
  | ctz (d : BitVec 5) (s : BitVec 5) (l : BitVec 1)
  /-- POPC (R286): Count one bits. -/
  | popc (d : BitVec 5) (s : BitVec 5) (l : BitVec 1)
  /-- LDI (R289): d := sign-extended 18-bit immediate. -/
  | ldi (d : BitVec 5) (i : BitVec 18)
  /-- LDHI (R289): Sets the upper 32 bits of d from an unsigned immediate. -/
  | ldhi (d : BitVec 5) (i : BitVec 18)
  /-- SEL (R290): d := s1 if predicate p else s2. -/
  | sel (d : BitVec 5) (s : BitVec 5) (l : BitVec 1) (t : BitVec 5) (m : BitVec 1) (p : BitVec 3)
  /-- CMP (R291): Sets predicate pd from a comparison of two registers. -/
  | cmp (p : BitVec 3) (s : BitVec 5) (l : BitVec 1) (t : BitVec 5) (m : BitVec 1) (c : BitVec 4)
  /-- CMPI (R291): Sets predicate pd from a comparison with an immediate. -/
  | cmpi (p : BitVec 3) (c : BitVec 4) (s : BitVec 5) (l : BitVec 1) (i : BitVec 10)
  /-- PSET (R292): Combines two predicates with AND, OR, XOR or ANDN. -/
  | pset (d : BitVec 3) (s : BitVec 3) (t : BitVec 3) (o : BitVec 3)
  /-- BR (R293): Conditional PC-relative branch on a predicate. -/
  | br (p : BitVec 3) (n : BitVec 1) (o : BitVec 19)
  /-- JMP (R294): Jumps to the address in s1. -/
  | jmp (s : BitVec 5) (l : BitVec 1)
  /-- CALL (R294): Writes the return address to d and branches. -/
  | call (d : BitVec 5) (o : BitVec 18)
  /-- RET (R294): Returns to the address in s1. -/
  | ret (s : BitVec 5) (l : BitVec 1)
  /-- DBNZ (R295): Decrements d and branches when it is not zero. -/
  | dbnz (d : BitVec 5) (o : BitVec 18)
  /-- LDS (R297): Scalar load through a handle on the control path. -/
  | lds (d : BitVec 5) (h : BitVec 4) (z : BitVec 2) (x : BitVec 1) (k : BitVec 1) (o : BitVec 10)
  /-- STS (R297): Scalar store into the task's version on the control path. -/
  | sts (d : BitVec 5) (h : BitVec 4) (z : BitVec 2) (k : BitVec 1) (o : BitVec 10)
  /-- XLATE (R299): Translates a virtual page into a handle with requested rights. -/
  | xlate (h : BitVec 4) (s : BitVec 5) (l : BitVec 1) (t : BitVec 5) (r : BitVec 3)
  /-- HWAIT (R300): Waits while a handle is PENDING. -/
  | hwait (h : BitVec 4)
  /-- HREL (R301): Empties a handle and advances its generation. -/
  | hrel (h : BitVec 4)
  /-- EMIT (R302): Builds one engine word from a g register and steers it. -/
  | emit (s : BitVec 5) (l : BitVec 1)
  /-- EMIT_WITH_PREFIX (R302): Builds an engine word plus a REP or EXTI prefix from two g registers. -/
  | emitWithPrefix (s : BitVec 5) (l : BitVec 1) (t : BitVec 5) (m : BitVec 1)
  /-- WAITT (R303): Waits for and takes tokens on a pair into the control sequencer. -/
  | waitt (c : BitVec 6) (p : BitVec 4)
  /-- SIGT (R304): Pushes tokens from the control sequencer to an engine. -/
  | sigt (c : BitVec 6) (p : BitVec 4)
  /-- TKCNT (R305): Reads a token count. -/
  | tkcnt (d : BitVec 5) (p : BitVec 4)
  /-- JOIN (R308): Joins a group object as one atomic step at home. -/
  | join (d : BitVec 5) (h : BitVec 4) (k : BitVec 1) (o : BitVec 10)
  /-- LEAVE (R309): Leaves a group object, committing first. -/
  | leave (h : BitVec 4) (k : BitVec 1) (o : BitVec 10)
  /-- GBAR (R310): Arrives at a group barrier and waits for the phase flip. -/
  | gbar (h : BitVec 4) (k : BitVec 1) (o : BitVec 10)
  /-- GINFO (R311): Reads phase, member count and own index of a group. -/
  | ginfo (d : BitVec 5) (h : BitVec 4) (k : BitVec 1) (o : BitVec 10)
  /-- RDCSR (R313): Reads a CSR into d. -/
  | rdcsr (d : BitVec 5) (c : BitVec 12)
  /-- WRCSR (R314): Writes a CSR from s1. -/
  | wrcsr (s : BitVec 5) (l : BitVec 1) (c : BitVec 12)
  /-- CSRS (R314): Sets RW bits of a CSR. -/
  | csrs (s : BitVec 5) (l : BitVec 1) (c : BitVec 12)
  /-- CSRC (R314): Clears RW bits of a CSR. -/
  | csrc (s : BitVec 5) (l : BitVec 1) (c : BitVec 12)
  /-- TRAP (R396): Raises cause SOFTWARE with a code, without commit. -/
  | trap (s : BitVec 5) (l : BitVec 1) (c : BitVec 7)
  /-- TRAPRET (R397): Returns from a handler to TRAP_PC. -/
  | trapret
  /-- INSTALL (R399): Installs or removes the handler table. -/
  | install (d : BitVec 5) (s : BitVec 5) (l : BitVec 1)
  /-- PHINT (R400): Pre-emption point with a liveness index. -/
  | phint (i : BitVec 16)
  /-- PFENCE (R401): Takes a CTX or CLUSTER persist point. -/
  | pfence (c : BitVec 1)
  /-- FENCE (R402): Orders accesses with given semantics and scope. -/
  | fence (k : BitVec 3) (e : BitVec 2)
  /-- QSYNC (R105): Orders the load, store and control paths without commit. -/
  | qsync
  /-- TCOMMIT (R403): Makes a commit. -/
  | tcommit
  /-- TEND (R404): Ends the thread with a commit. -/
  | tend
  /-- TABORT (R405): Ends the task, aborting the commit region. -/
  | tabort (c : BitVec 8)
  /-- PSWAP (R406): Yields the core to the thread on the shadow plane. -/
  | pswap (d : BitVec 5) (s : BitVec 5) (l : BitVec 1)
  /-- KICK (R408): Makes one instance of a node ready in the current generation. -/
  | kick (d : BitVec 5) (s : BitVec 5) (l : BitVec 1)
  /-- KICK_R (R408): Requests a replay of a launched graph. -/
  | kickR (d : BitVec 5) (s : BitVec 5) (l : BitVec 1)
  /-- NWAIT (R409): Waits for a node to complete in a generation. -/
  | nwait (d : BitVec 5) (s : BitVec 5) (l : BitVec 1) (t : BitVec 5) (m : BitVec 1)
  /-- BARINIT (R410): Initialises a barrier object. -/
  | barinit (d : BitVec 5) (h : BitVec 4) (k : BitVec 1) (o : BitVec 10)
  /-- BAREXP (R410): Sets a barrier object's expected bytes. -/
  | barexp (d : BitVec 5) (h : BitVec 4) (k : BitVec 1) (o : BitVec 10)
  /-- BARWAIT (R411): Waits until a barrier object's phase differs from the named one. -/
  | barwait (d : BitVec 5) (h : BitVec 4) (k : BitVec 1) (o : BitVec 10)
  /-- SNAPC (R412): Releases and flips a snapshot domain. -/
  | snapc (d : BitVec 5) (h : BitVec 4) (k : BitVec 1) (o : BitVec 10)
  /-- OPREQ (R414): Requests an operating-point row for the task. -/
  | opreq (d : BitVec 5) (i : BitVec 12)
  /-- CURTQ (R415): Reads the curtailment grades and budget state. -/
  | curtq (d : BitVec 5)
  /-- RDTIME (R416): Reads DEVTIME. -/
  | rdtime (d : BitVec 5)
  /-- RDENGY (R416): Reads a 64-bit counter by selector. -/
  | rdengy (d : BitVec 5) (i : BitVec 12)
  /-- DHOPS (R417): Returns the hop distance between two virtual dies. -/
  | dhops (d : BitVec 5) (s : BitVec 5) (l : BitVec 1) (t : BitVec 5) (m : BitVec 1)
  /-- VDMAP (R418): Rewrites one entry of the virtual-die table. -/
  | vdmap (d : BitVec 5) (s : BitVec 5) (l : BitVec 1) (t : BitVec 5) (m : BitVec 1)
  /-- COLL (R413): Submits a collective to the collective engine. -/
  | coll (d : BitVec 5) (h : BitVec 4) (k : BitVec 1) (o : BitVec 10)
  /-- IDLE (R407): Stops issue and gates the clock until an event or timeout. -/
  | idle (i : BitVec 12)
  /-- ECALL (R396): Commits and raises cause SOFTWARE. -/
  | ecall (s : BitVec 5) (l : BitVec 1) (c : BitVec 7)
  /-- REP (R269): Prefix that runs the next word N times with optional register stepping. -/
  | rep (n : BitVec 6) (d : BitVec 1) (s : BitVec 1) (t : BitVec 1)
  /-- PRED (R271): Prefix that predicates the next control or system word. -/
  | pred (p : BitVec 3) (v : BitVec 1)
  /-- EXTI (R270): Prefix that extends the immediate of the next word. -/
  | exti (i : BitVec 24)
  /-- LD (R323): Block load into a queue head or the scratchpad. -/
  | ld (w : BitVec 2) (e : BitVec 2) (h : BitVec 4) (x : BitVec 3) (y : BitVec 1) (t : BitVec 4) (k : BitVec 1) (z : BitVec 3) (i : BitVec 1)
  /-- LDX (R324): Gather load through queue heads. -/
  | ldx (w : BitVec 2) (e : BitVec 2) (h : BitVec 4) (x : BitVec 3) (y : BitVec 1) (t : BitVec 4) (q : BitVec 4) (c : BitVec 3)
  /-- LDSC (R332): Loads and checks one 4 KiB scale tile into the scratchpad. -/
  | ldsc (w : BitVec 2) (e : BitVec 2) (h : BitVec 4) (x : BitVec 3) (y : BitVec 1) (t : BitVec 3) (z : BitVec 3) (m : BitVec 3)
  /-- LDBD (R333): Loads a bound word into an eb register. -/
  | ldbd (w : BitVec 2) (e : BitVec 2) (h : BitVec 4) (x : BitVec 3) (y : BitVec 1) (t : BitVec 4)
  /-- LSUB (R329): Subscribes a queue head to a slot ring. -/
  | lsub (w : BitVec 2) (e : BitVec 2) (h : BitVec 4) (x : BitVec 3) (y : BitVec 1) (t : BitVec 4)
  /-- LUNSUB (R330): Ends a slot-ring subscription. -/
  | lunsub (w : BitVec 2) (e : BitVec 2) (d : BitVec 4)
  /-- QBIND (R327): Binds a queue head with depth and element size. -/
  | qbind (w : BitVec 2) (e : BitVec 2) (d : BitVec 4) (s : BitVec 3) (l : BitVec 1) (z : BitVec 2)
  /-- QFREE (R328): Unbinds a queue head, discarding elements. -/
  | qfree (w : BitVec 2) (e : BitVec 2) (d : BitVec 4)
  /-- SPLK (R326): Loads and locks a scratchpad range. -/
  | splk (w : BitVec 2) (e : BitVec 2) (h : BitVec 4) (x : BitVec 3) (y : BitVec 1) (t : BitVec 3) (z : BitVec 3) (n : BitVec 1) (i : BitVec 1)
  /-- PFETCH (R325): Prefetches lines toward the issuing die. -/
  | pfetch (w : BitVec 2) (e : BitVec 2) (h : BitVec 4) (x : BitVec 3) (y : BitVec 1) (z : BitVec 3) (m : BitVec 1)
  /-- XLATL (R334): Translates a page into a handle from the load sequencer. -/
  | xlatl (w : BitVec 2) (e : BitVec 2) (h : BitVec 4) (s : BitVec 3) (l : BitVec 1) (t : BitVec 3) (r : BitVec 3)
  /-- LMARK (R321): Appends one marker element to a queue head. -/
  | lmark (w : BitVec 2) (e : BitVec 2) (d : BitVec 4) (s : BitVec 3) (l : BitVec 1) (i : BitVec 10)
  /-- LLOOP (R320): Counted loop over load-sequencer words. -/
  | lloop (n : BitVec 6) (c : BitVec 2) (i : BitVec 11)
  /-- XMOV (R319): Moves an x register or loop ITER in the load sequencer. -/
  | xmov (w : BitVec 2) (e : BitVec 2) (d : BitVec 3) (s : BitVec 3) (l : BitVec 1) (m : BitVec 1)
  /-- XADD (R319): Adds two load x registers. -/
  | xadd (w : BitVec 2) (e : BitVec 2) (d : BitVec 3) (s : BitVec 3) (l : BitVec 1) (t : BitVec 3) (u : BitVec 1)
  /-- XADDI (R319): Adds an immediate to a load x register. -/
  | xaddi (w : BitVec 2) (e : BitVec 2) (d : BitVec 3) (s : BitVec 3) (l : BitVec 1) (i : BitVec 10)
  /-- XSHL (R319): Shifts a load x register left. -/
  | xshl (w : BitVec 2) (e : BitVec 2) (d : BitVec 3) (s : BitVec 3) (l : BitVec 1) (i : BitVec 10)
  /-- LNOP (R319): Load-sequencer no-op carrying tokens. -/
  | lnop (w : BitVec 2) (e : BitVec 2)
  /-- ST (R323): Block store from the scratchpad into the version. -/
  | st (w : BitVec 2) (e : BitVec 2) (h : BitVec 4) (x : BitVec 3) (y : BitVec 1) (t : BitVec 3) (z : BitVec 3) (i : BitVec 1)
  /-- STX (R324): Scatter store through queue heads. -/
  | stx (w : BitVec 2) (e : BitVec 2) (h : BitVec 4) (x : BitVec 3) (y : BitVec 1) (t : BitVec 4) (q : BitVec 4) (c : BitVec 3)
  /-- STBD (R333): Stores an eb register as a bound word. -/
  | stbd (w : BitVec 2) (e : BitVec 2) (h : BitVec 4) (x : BitVec 3) (y : BitVec 1) (t : BitVec 4)
  /-- SUNLK (R326): Stores and unlocks a scratchpad range. -/
  | sunlk (w : BitVec 2) (e : BitVec 2) (h : BitVec 4) (x : BitVec 3) (y : BitVec 1) (t : BitVec 3) (z : BitVec 3) (n : BitVec 1) (i : BitVec 1)
  /-- SPULL (R331): Hands a scratchpad range to the memory-side storer. -/
  | spull (w : BitVec 2) (e : BitVec 2) (h : BitVec 4) (x : BitVec 3) (y : BitVec 1) (g : BitVec 2) (b : BitVec 4) (k : BitVec 3)
  /-- CWBR (R339): Writes back a range of the issuing die. -/
  | cwbr (w : BitVec 2) (e : BitVec 2) (h : BitVec 4) (x : BitVec 3) (y : BitVec 1) (z : BitVec 3)
  /-- CINVR (R340): Writes back and drops cached copies of a range. -/
  | cinvr (w : BitVec 2) (e : BitVec 2) (h : BitVec 4) (x : BitVec 3) (y : BitVec 1) (z : BitVec 3)
  /-- XCOPY (R342): Submits a copy to a copy engine. -/
  | xcopy (w : BitVec 2) (e : BitVec 2) (h : BitVec 4) (x : BitVec 3) (y : BitVec 1) (t : BitVec 3)
  /-- BARADD (R338): Adds bytes to a barrier object as an RLX atomic. -/
  | baradd (w : BitVec 2) (e : BitVec 2) (h : BitVec 4) (x : BitVec 3) (y : BitVec 1) (c : BitVec 3)
  /-- SMARK (R322): Drains the store path, then sets an x register. -/
  | smark (w : BitVec 2) (e : BitVec 2) (d : BitVec 3) (s : BitVec 3) (l : BitVec 1) (i : BitVec 10)
  /-- SLOOP (R320): Counted loop over store-sequencer words. -/
  | sloop (n : BitVec 6) (c : BitVec 2) (i : BitVec 11)
  /-- XMOV_ST (R319): Moves an x register or loop ITER in the store sequencer. -/
  | xmovSt (w : BitVec 2) (e : BitVec 2) (d : BitVec 3) (s : BitVec 3) (l : BitVec 1) (m : BitVec 1)
  /-- XADD_ST (R319): Adds two store x registers. -/
  | xaddSt (w : BitVec 2) (e : BitVec 2) (d : BitVec 3) (s : BitVec 3) (l : BitVec 1) (t : BitVec 3) (u : BitVec 1)
  /-- XADDI_ST (R319): Adds an immediate to a store x register. -/
  | xaddiSt (w : BitVec 2) (e : BitVec 2) (d : BitVec 3) (s : BitVec 3) (l : BitVec 1) (i : BitVec 10)
  /-- XSHL_ST (R319): Shifts a store x register left. -/
  | xshlSt (w : BitVec 2) (e : BitVec 2) (d : BitVec 3) (s : BitVec 3) (l : BitVec 1) (i : BitVec 10)
  /-- SNOP (R319): Store-sequencer no-op carrying tokens. -/
  | snop (w : BitVec 2) (e : BitVec 2)
  /-- ACAS (R336): Compare and swap at home. -/
  | acas (s : BitVec 2) (w : BitVec 2) (e : BitVec 2) (h : BitVec 4) (x : BitVec 3) (y : BitVec 1) (v : BitVec 2) (q : BitVec 4) (r : BitVec 1) (k : BitVec 3)
  /-- AMO_ADD (R335): Atomic 64-bit add at home. -/
  | amoAdd (s : BitVec 2) (w : BitVec 2) (e : BitVec 2) (h : BitVec 4) (x : BitVec 3) (y : BitVec 1) (v : BitVec 3) (q : BitVec 4) (r : BitVec 1) (k : BitVec 3)
  /-- AMO_FADD (R335): Atomic add of two packed FP32 lanes at home. -/
  | amoFadd (s : BitVec 2) (w : BitVec 2) (e : BitVec 2) (h : BitVec 4) (x : BitVec 3) (y : BitVec 1) (v : BitVec 3) (q : BitVec 4) (r : BitVec 1) (k : BitVec 3)
  /-- AMO_MIN (R335): Atomic signed minimum at home. -/
  | amoMin (s : BitVec 2) (w : BitVec 2) (e : BitVec 2) (h : BitVec 4) (x : BitVec 3) (y : BitVec 1) (v : BitVec 3) (q : BitVec 4) (r : BitVec 1) (k : BitVec 3)
  /-- AMO_MAX (R335): Atomic signed maximum at home. -/
  | amoMax (s : BitVec 2) (w : BitVec 2) (e : BitVec 2) (h : BitVec 4) (x : BitVec 3) (y : BitVec 1) (v : BitVec 3) (q : BitVec 4) (r : BitVec 1) (k : BitVec 3)
  /-- AMO_AND (R335): Atomic bitwise AND at home. -/
  | amoAnd (s : BitVec 2) (w : BitVec 2) (e : BitVec 2) (h : BitVec 4) (x : BitVec 3) (y : BitVec 1) (v : BitVec 3) (q : BitVec 4) (r : BitVec 1) (k : BitVec 3)
  /-- AMO_OR (R335): Atomic bitwise OR at home. -/
  | amoOr (s : BitVec 2) (w : BitVec 2) (e : BitVec 2) (h : BitVec 4) (x : BitVec 3) (y : BitVec 1) (v : BitVec 3) (q : BitVec 4) (r : BitVec 1) (k : BitVec 3)
  /-- AMO_XOR (R335): Atomic bitwise XOR at home. -/
  | amoXor (s : BitVec 2) (w : BitVec 2) (e : BitVec 2) (h : BitVec 4) (x : BitVec 3) (y : BitVec 1) (v : BitVec 3) (q : BitVec 4) (r : BitVec 1) (k : BitVec 3)
  /-- AMO_SWAP (R335): Atomic swap at home. -/
  | amoSwap (s : BitVec 2) (w : BitVec 2) (e : BitVec 2) (h : BitVec 4) (x : BitVec 3) (y : BitVec 1) (v : BitVec 3) (q : BitVec 4) (r : BitVec 1) (k : BitVec 3)
  /-- LEASE (R344): Sets the lease claim and waits for the array lease. -/
  | lease (w : BitVec 2) (e : BitVec 2)
  /-- UNLEASE (R344): Clears the lease claim and passes the lease. -/
  | unlease (w : BitVec 2) (e : BitVec 2)
  /-- MTSTART (R349): Opens an accumulator tile with a threshold. -/
  | mtstart (w : BitVec 2) (e : BitVec 2) (d : BitVec 3) (s : BitVec 3) (l : BitVec 1)
  /-- MMA (R353): Accumulates A rows against a boarded B tile. -/
  | mma (w : BitVec 2) (e : BitVec 2) (a : BitVec 3) (g : BitVec 4) (b : BitVec 9) (f : BitVec 1) (k : BitVec 1)
  /-- MZERO (R349): Zeroes an open tile and its bound. -/
  | mzero (w : BitVec 2) (e : BitVec 2) (d : BitVec 3)
  /-- MDRAIN (R356): Drains a tile with dropout, residual and output conversion. -/
  | mdrain (w : BitVec 2) (e : BitVec 2) (a : BitVec 3) (g : BitVec 4) (r : BitVec 4) (k : BitVec 1) (j : BitVec 1) (s : BitVec 1)
  /-- MRDB (R350): Reads an ab register into a scalar. -/
  | mrdb (w : BitVec 2) (e : BitVec 2) (d : BitVec 3) (s : BitVec 3)
  /-- MSETT (R350): Sets a tile's threshold. -/
  | msett (w : BitVec 2) (e : BitVec 2) (d : BitVec 3) (s : BitVec 3) (l : BitVec 1)
  /-- MFTE (R361): Writes one format-table entry. -/
  | mfte (w : BitVec 2) (e : BitVec 2) (d : BitVec 4) (s : BitVec 3) (l : BitVec 1)
  /-- MFTB (R361): Writes FMT_BASE LCSEL and BASE. -/
  | mftb (w : BitVec 2) (e : BitVec 2) (c : BitVec 2) (b : BitVec 4)
  /-- BOARD (R363): Arms a B-store subscription to ring frames. -/
  | board (w : BitVec 2) (e : BitVec 2) (s : BitVec 3) (b : BitVec 9)
  /-- BWAIT (R364): Waits for a subscription to settle and writes its status. -/
  | bwait (w : BitVec 2) (e : BitVec 2) (s : BitVec 3) (b : BitVec 9)
  /-- BDROP (R365): Ends a B-store subscription. -/
  | bdrop (w : BitVec 2) (e : BitVec 2) (b : BitVec 9)
  /-- BQUERY (R364): Writes a subscription's status at issue. -/
  | bquery (w : BitVec 2) (e : BitVec 2) (s : BitVec 3) (b : BitVec 9)
  /-- MLOOP (R366): Counted loop over compute-sequencer words. -/
  | mloop (n : BitVec 6) (c : BitVec 2) (i : BitVec 11)
  /-- MNOP (R366): Matrix no-op carrying tokens. -/
  | mnop (w : BitVec 2) (e : BitVec 2)
  /-- MXMODE (R348): Enters or leaves extended accumulation for a tile. -/
  | mxmode (w : BitVec 2) (e : BitVec 2) (d : BitVec 3) (m : BitVec 1)
  /-- VSETC (R387): Sets the element count vc. -/
  | vsetc (w : BitVec 2) (e : BitVec 2) (i : BitVec 10)
  /-- VADD (R376): Element-wise FP32 add. -/
  | vadd (w : BitVec 2) (e : BitVec 2) (d : BitVec 4) (s : BitVec 4) (l : BitVec 1) (t : BitVec 4) (u : BitVec 1) (k : BitVec 1) (p : BitVec 1) (q : BitVec 1)
  /-- VSUB (R376): Element-wise FP32 subtract. -/
  | vsub (w : BitVec 2) (e : BitVec 2) (d : BitVec 4) (s : BitVec 4) (l : BitVec 1) (t : BitVec 4) (u : BitVec 1) (k : BitVec 1) (p : BitVec 1) (q : BitVec 1)
  /-- VMUL (R376): Element-wise FP32 multiply. -/
  | vmul (w : BitVec 2) (e : BitVec 2) (d : BitVec 4) (s : BitVec 4) (l : BitVec 1) (t : BitVec 4) (u : BitVec 1) (k : BitVec 1) (p : BitVec 1) (q : BitVec 1)
  /-- VFMA (R376): Element-wise fused multiply-add into d. -/
  | vfma (w : BitVec 2) (e : BitVec 2) (d : BitVec 4) (s : BitVec 4) (l : BitVec 1) (t : BitVec 4) (u : BitVec 1) (k : BitVec 1) (p : BitVec 1) (q : BitVec 1)
  /-- VMIN (R376): Element-wise FP32 minimum. -/
  | vmin (w : BitVec 2) (e : BitVec 2) (d : BitVec 4) (s : BitVec 4) (l : BitVec 1) (t : BitVec 4) (u : BitVec 1) (k : BitVec 1) (p : BitVec 1) (q : BitVec 1)
  /-- VMAX (R376): Element-wise FP32 maximum. -/
  | vmax (w : BitVec 2) (e : BitVec 2) (d : BitVec 4) (s : BitVec 4) (l : BitVec 1) (t : BitVec 4) (u : BitVec 1) (k : BitVec 1) (p : BitVec 1) (q : BitVec 1)
  /-- VABS (R376): Element-wise absolute value. -/
  | vabs (w : BitVec 2) (e : BitVec 2) (d : BitVec 4) (s : BitVec 4) (l : BitVec 1) (k : BitVec 1) (p : BitVec 1) (q : BitVec 1)
  /-- VNEG (R376): Element-wise negation. -/
  | vneg (w : BitVec 2) (e : BitVec 2) (d : BitVec 4) (s : BitVec 4) (l : BitVec 1) (k : BitVec 1) (p : BitVec 1) (q : BitVec 1)
  /-- VSCL (R376): Scales elements by a scalar. -/
  | vscl (w : BitVec 2) (e : BitVec 2) (d : BitVec 4) (s : BitVec 4) (l : BitVec 1) (t : BitVec 3) (u : BitVec 1) (k : BitVec 1) (p : BitVec 1) (q : BitVec 1)
  /-- VRSUM (R380): Pairwise-ordered sum reduction. -/
  | vrsum (w : BitVec 2) (e : BitVec 2) (d : BitVec 4) (s : BitVec 4) (l : BitVec 1) (k : BitVec 1) (p : BitVec 1) (q : BitVec 1) (v : BitVec 1)
  /-- VRMAX (R380): Maximum reduction. -/
  | vrmax (w : BitVec 2) (e : BitVec 2) (d : BitVec 4) (s : BitVec 4) (l : BitVec 1) (k : BitVec 1) (p : BitVec 1) (q : BitVec 1) (v : BitVec 1)
  /-- VRMIN (R380): Minimum reduction. -/
  | vrmin (w : BitVec 2) (e : BitVec 2) (d : BitVec 4) (s : BitVec 4) (l : BitVec 1) (k : BitVec 1) (p : BitVec 1) (q : BitVec 1) (v : BitVec 1)
  /-- VDOT (R380): Dot-product reduction. -/
  | vdot (w : BitVec 2) (e : BitVec 2) (d : BitVec 4) (s : BitVec 4) (l : BitVec 1) (t : BitVec 4) (u : BitVec 1) (k : BitVec 1) (p : BitVec 1) (q : BitVec 1) (v : BitVec 1)
  /-- VCMP (R378): Element-wise FP32 compare to a mask. -/
  | vcmp (w : BitVec 2) (e : BitVec 2) (d : BitVec 4) (s : BitVec 4) (l : BitVec 1) (t : BitVec 4) (u : BitVec 1) (k : BitVec 1) (p : BitVec 1) (q : BitVec 1) (v : BitVec 2)
  /-- VSELM (R379): Selects elements by a mask in d. -/
  | vselm (w : BitVec 2) (e : BitVec 2) (d : BitVec 4) (s : BitVec 4) (l : BitVec 1) (t : BitVec 4) (u : BitVec 1) (k : BitVec 1) (p : BitVec 1) (q : BitVec 1)
  /-- VIADD (R377): Element-wise integer add. -/
  | viadd (w : BitVec 2) (e : BitVec 2) (d : BitVec 4) (s : BitVec 4) (l : BitVec 1) (t : BitVec 4) (u : BitVec 1) (k : BitVec 1) (p : BitVec 1) (q : BitVec 1) (v : BitVec 2)
  /-- VISUB (R377): Element-wise integer subtract. -/
  | visub (w : BitVec 2) (e : BitVec 2) (d : BitVec 4) (s : BitVec 4) (l : BitVec 1) (t : BitVec 4) (u : BitVec 1) (k : BitVec 1) (p : BitVec 1) (q : BitVec 1) (v : BitVec 2)
  /-- VIMUL (R377): Element-wise integer multiply. -/
  | vimul (w : BitVec 2) (e : BitVec 2) (d : BitVec 4) (s : BitVec 4) (l : BitVec 1) (t : BitVec 4) (u : BitVec 1) (k : BitVec 1) (p : BitVec 1) (q : BitVec 1) (v : BitVec 2)
  /-- VIMIN (R377): Element-wise signed integer minimum. -/
  | vimin (w : BitVec 2) (e : BitVec 2) (d : BitVec 4) (s : BitVec 4) (l : BitVec 1) (t : BitVec 4) (u : BitVec 1) (k : BitVec 1) (p : BitVec 1) (q : BitVec 1) (v : BitVec 2)
  /-- VIMAX (R377): Element-wise signed integer maximum. -/
  | vimax (w : BitVec 2) (e : BitVec 2) (d : BitVec 4) (s : BitVec 4) (l : BitVec 1) (t : BitVec 4) (u : BitVec 1) (k : BitVec 1) (p : BitVec 1) (q : BitVec 1) (v : BitVec 2)
  /-- VAND (R377): Element-wise bitwise AND. -/
  | vand (w : BitVec 2) (e : BitVec 2) (d : BitVec 4) (s : BitVec 4) (l : BitVec 1) (t : BitVec 4) (u : BitVec 1) (k : BitVec 1) (p : BitVec 1) (q : BitVec 1) (v : BitVec 1)
  /-- VOR (R377): Element-wise bitwise OR. -/
  | vor (w : BitVec 2) (e : BitVec 2) (d : BitVec 4) (s : BitVec 4) (l : BitVec 1) (t : BitVec 4) (u : BitVec 1) (k : BitVec 1) (p : BitVec 1) (q : BitVec 1) (v : BitVec 1)
  /-- VXOR (R377): Element-wise bitwise XOR. -/
  | vxor (w : BitVec 2) (e : BitVec 2) (d : BitVec 4) (s : BitVec 4) (l : BitVec 1) (t : BitVec 4) (u : BitVec 1) (k : BitVec 1) (p : BitVec 1) (q : BitVec 1) (v : BitVec 1)
  /-- VSHL (R377): Element-wise left shift. -/
  | vshl (w : BitVec 2) (e : BitVec 2) (d : BitVec 4) (s : BitVec 4) (l : BitVec 1) (t : BitVec 4) (u : BitVec 1) (k : BitVec 1) (p : BitVec 1) (q : BitVec 1) (v : BitVec 1)
  /-- VSHR (R377): Element-wise logical right shift. -/
  | vshr (w : BitVec 2) (e : BitVec 2) (d : BitVec 4) (s : BitVec 4) (l : BitVec 1) (t : BitVec 4) (u : BitVec 1) (k : BitVec 1) (p : BitVec 1) (q : BitVec 1) (v : BitVec 1)
  /-- VSAR (R377): Element-wise arithmetic right shift. -/
  | vsar (w : BitVec 2) (e : BitVec 2) (d : BitVec 4) (s : BitVec 4) (l : BitVec 1) (t : BitVec 4) (u : BitVec 1) (k : BitVec 1) (p : BitVec 1) (q : BitVec 1) (v : BitVec 1)
  /-- VCVT (R381): Scaled format conversion. -/
  | vcvt (w : BitVec 2) (e : BitVec 2) (d : BitVec 4) (s : BitVec 4) (l : BitVec 1) (t : BitVec 2) (u : BitVec 1) (k : BitVec 1) (p : BitVec 1) (q : BitVec 1)
  /-- VQNT (R381): Quantisation with scale and zero point. -/
  | vqnt (w : BitVec 2) (e : BitVec 2) (d : BitVec 4) (s : BitVec 4) (l : BitVec 1) (t : BitVec 2) (u : BitVec 1) (k : BitVec 1) (p : BitVec 1) (q : BitVec 1)
  /-- VDQNT (R381): Dequantisation with zero point and scale. -/
  | vdqnt (w : BitVec 2) (e : BitVec 2) (d : BitVec 4) (s : BitVec 4) (l : BitVec 1) (t : BitVec 2) (u : BitVec 1) (k : BitVec 1) (p : BitVec 1) (q : BitVec 1)
  /-- VCOPY (R383): Copies elements as bits. -/
  | vcopy (w : BitVec 2) (e : BitVec 2) (d : BitVec 4) (s : BitVec 4) (l : BitVec 1) (k : BitVec 1) (p : BitVec 1) (q : BitVec 1) (v : BitVec 2)
  /-- VBCAST (R383): Broadcasts one element. -/
  | vbcast (w : BitVec 2) (e : BitVec 2) (d : BitVec 4) (s : BitVec 4) (l : BitVec 1) (k : BitVec 1) (p : BitVec 1) (v : BitVec 2)
  /-- VTRN (R383): Transposes an R x C matrix. -/
  | vtrn (w : BitVec 2) (e : BitVec 2) (d : BitVec 4) (s : BitVec 4) (l : BitVec 1) (t : BitVec 3) (u : BitVec 1) (k : BitVec 1) (p : BitVec 1) (v : BitVec 2)
  /-- VGATH (R383): Gathers elements by index within the scratchpad. -/
  | vgath (w : BitVec 2) (e : BitVec 2) (d : BitVec 4) (s : BitVec 4) (l : BitVec 1) (t : BitVec 4) (u : BitVec 1) (k : BitVec 1) (p : BitVec 1) (v : BitVec 2)
  /-- VSCAT (R383): Scatters elements by index within the scratchpad. -/
  | vscat (w : BitVec 2) (e : BitVec 2) (d : BitVec 4) (s : BitVec 4) (l : BitVec 1) (t : BitVec 4) (u : BitVec 1) (k : BitVec 1) (p : BitVec 1) (q : BitVec 1) (v : BitVec 2)
  /-- VRAND (R384): Fills a region from the counter-based generator. -/
  | vrand (w : BitVec 2) (e : BitVec 2) (d : BitVec 4) (t : BitVec 3) (u : BitVec 1) (k : BitVec 1) (p : BitVec 1) (v : BitVec 1)
  /-- VDROP (R385): Applies dropout to FP32 elements. -/
  | vdrop (w : BitVec 2) (e : BitVec 2) (d : BitVec 4) (s : BitVec 4) (l : BitVec 1) (t : BitVec 2) (u : BitVec 1) (k : BitVec 1) (p : BitVec 1) (q : BitVec 1)
  /-- ASET (R386): Sets a region register from a scalar. -/
  | aset (w : BitVec 2) (e : BitVec 2) (d : BitVec 4) (s : BitVec 3) (l : BitVec 1) (z : BitVec 1)
  /-- AMOD (R386): Sets a wrap-parameter register from a scalar. -/
  | amod (w : BitVec 2) (e : BitVec 2) (d : BitVec 4) (s : BitVec 3) (l : BitVec 1)
  /-- ASTEP (R386): Copies a region pair with BASE stepped by an immediate. -/
  | astep (w : BitVec 2) (e : BitVec 2) (d : BitVec 4) (s : BitVec 4) (l : BitVec 1) (i : BitVec 10)
  /-- AMOV (R386): Moves region registers or reads them into scalars. -/
  | amov (w : BitVec 2) (e : BitVec 2) (d : BitVec 4) (s : BitVec 4) (l : BitVec 1) (m : BitVec 2)
  /-- VMOVS (R386): Moves one element between a region or queue head and a scalar. -/
  | vmovs (w : BitVec 2) (e : BitVec 2) (d : BitVec 4) (s : BitVec 4) (l : BitVec 1) (q : BitVec 1) (r : BitVec 1) (z : BitVec 2)
  /-- VLOOP (R388): Counted loop over compute-sequencer words. -/
  | vloop (n : BitVec 6) (c : BitVec 2) (i : BitVec 11)
  /-- VNOP (R388): Vector no-op carrying tokens. -/
  | vnop (w : BitVec 2) (e : BitVec 2)
  /-- SEXP2 (R390): Element-wise 2^x. -/
  | sexp2 (w : BitVec 2) (e : BitVec 2) (d : BitVec 4) (s : BitVec 4) (l : BitVec 1) (k : BitVec 1) (p : BitVec 1) (q : BitVec 1)
  /-- SLOG2 (R390): Element-wise log2. -/
  | slog2 (w : BitVec 2) (e : BitVec 2) (d : BitVec 4) (s : BitVec 4) (l : BitVec 1) (k : BitVec 1) (p : BitVec 1) (q : BitVec 1)
  /-- SEXP (R390): Element-wise e^x. -/
  | sexp (w : BitVec 2) (e : BitVec 2) (d : BitVec 4) (s : BitVec 4) (l : BitVec 1) (k : BitVec 1) (p : BitVec 1) (q : BitVec 1)
  /-- SLN (R390): Element-wise natural log. -/
  | sln (w : BitVec 2) (e : BitVec 2) (d : BitVec 4) (s : BitVec 4) (l : BitVec 1) (k : BitVec 1) (p : BitVec 1) (q : BitVec 1)
  /-- SRCP (R390): Element-wise reciprocal. -/
  | srcp (w : BitVec 2) (e : BitVec 2) (d : BitVec 4) (s : BitVec 4) (l : BitVec 1) (k : BitVec 1) (p : BitVec 1) (q : BitVec 1)
  /-- SDIV (R390): Element-wise division. -/
  | sdiv (w : BitVec 2) (e : BitVec 2) (d : BitVec 4) (s : BitVec 4) (l : BitVec 1) (t : BitVec 4) (u : BitVec 1) (k : BitVec 1) (p : BitVec 1) (q : BitVec 1)
  /-- SSQRT (R390): Element-wise square root. -/
  | ssqrt (w : BitVec 2) (e : BitVec 2) (d : BitVec 4) (s : BitVec 4) (l : BitVec 1) (k : BitVec 1) (p : BitVec 1) (q : BitVec 1)
  /-- SRSQ (R390): Element-wise reciprocal square root. -/
  | srsq (w : BitVec 2) (e : BitVec 2) (d : BitVec 4) (s : BitVec 4) (l : BitVec 1) (k : BitVec 1) (p : BitVec 1) (q : BitVec 1)
  /-- STANH (R390): Element-wise tanh. -/
  | stanh (w : BitVec 2) (e : BitVec 2) (d : BitVec 4) (s : BitVec 4) (l : BitVec 1) (k : BitVec 1) (p : BitVec 1) (q : BitVec 1)
  /-- SSIGM (R390): Element-wise sigmoid. -/
  | ssigm (w : BitVec 2) (e : BitVec 2) (d : BitVec 4) (s : BitVec 4) (l : BitVec 1) (k : BitVec 1) (p : BitVec 1) (q : BitVec 1)
  /-- SSIN (R390): Element-wise sine. -/
  | ssin (w : BitVec 2) (e : BitVec 2) (d : BitVec 4) (s : BitVec 4) (l : BitVec 1) (k : BitVec 1) (p : BitVec 1) (q : BitVec 1)
  /-- SCOS (R390): Element-wise cosine. -/
  | scos (w : BitVec 2) (e : BitVec 2) (d : BitVec 4) (s : BitVec 4) (l : BitVec 1) (k : BitVec 1) (p : BitVec 1) (q : BitVec 1)
  /-- SERF (R390): Element-wise error function. -/
  | serf (w : BitVec 2) (e : BitVec 2) (d : BitVec 4) (s : BitVec 4) (l : BitVec 1) (k : BitVec 1) (p : BitVec 1) (q : BitVec 1)
  /-- SFNOP (R389): Special-function no-op carrying tokens. -/
  | sfnop (w : BitVec 2) (e : BitVec 2)
  /-- QPOP_READ (R38): RDCSR of QPOP_n waits for and pops one queue-head element. -/
  | qpopRead (d : BitVec 5) (n : BitVec 4)
  /-- XLATE_SETTLE (R28): At issue + 14 cycles the handle becomes VALID or PENDING and a walk may start. -/
  | xlateSettle (thr : Nat) (k : Nat)
  /-- WALK_COMPLETE (R28): A page walk ends and settles or discards its handle result. -/
  | walkComplete (die : Nat) (k : Nat)
  /-- MONITOR_REQUEUE_TIMEOUT (R71): With no monitor armed, the task is requeued 50 us after its abort. -/
  | monitorRequeueTimeout (task : Nat)
  /-- SHOOTDOWN (R72): Management request that invalidates TLB entries and revokes handles for a range. -/
  | shootdown
  /-- SHOOTDOWN_COMPLETION (R72): Completion is reported once every checked access has performed. -/
  | shootdownCompletion
  /-- ENGINE_WORD_FINISH (R138): An engine word finishes and pushes its TS tokens. -/
  | engineWordFinish (thr : Nat) (k : Nat)
  /-- PENDING_PERSIST_POINT (R127): A pending PFENCE point is taken when its 50 us window closes. -/
  | pendingPersistPoint (thr : Nat)
  /-- IMAGE_COMPLETE (R93): An Onyx image's last record is written and the image is complete. -/
  | imageComplete (die : Nat) (k : Nat)
  /-- COMMIT_IMAGE_COPY_DONE (R110): The save engine finishes copying the image into the commit image area. -/
  | commitImageCopyDone (die : Nat) (k : Nat)
  /-- WRITE_THROUGH_ARRIVAL (R118): A write-through reaches home and merges under its byte mask. -/
  | writeThroughArrival (die : Nat) (k : Nat)
  /-- FLUSH_MARKER_ACK (R119): A destination acknowledges once all flush markers from a source have arrived. -/
  | flushMarkerAck (thr : Nat) (dest : Nat)
  /-- BARRIER_ADDITION (R227): An engine adds bytes to a barrier object as one atomic step at home. -/
  | barrierAddition (k : Nat)
  /-- QUEUE_ELEMENT_ARRIVAL (R141): Elements of a transfer arrive in a queue head. -/
  | queueElementArrival (thr : Nat) (k : Nat)
  /-- LOADER_SLOT_DELIVERY (R145): The memory-side loader delivers a produced slot into a subscribed queue head. -/
  | loaderSlotDelivery (thr : Nat) (q : Nat)
  /-- STORER_SLOT_WRITE (R146): The storer copies a staged range into a free ring slot once room exists. -/
  | storerSlotWrite (k : Nat)
  /-- LAP_BOUNDARY (R148): Every lane finishes its last entry; LAP advances and lanes start the next lap. -/
  | lapBoundary
  /-- FRAME_HEADER_ARRIVAL (R154): A frame's header flit reaches a cluster and matching ARMED slots start FILLING. -/
  | frameHeaderArrival (lane : Nat)
  /-- FRAME_LAST_FLIT_ARRIVAL (R154): A frame's last flit arrives and its slots become FULL or POISONED. -/
  | frameLastFlitArrival (lane : Nat) (badCrc : Bool) (badRes : Bool)
  /-- LEASE_TIMEOUT (R346): A holder idle for 65,536 cycles while another core waits loses the lease. -/
  | leaseTimeout (cl : Nat)
  /-- TASK_PLACEMENT (R160): The graph engine places the chosen ready task on a core. -/
  | taskPlacement (die : Nat)
  /-- SHADOW_FILL_DONE (R436): The loader finishes filling a shadow plane. -/
  | shadowFillDone (core : Nat)
  /-- EFFECTIVE_CLASS_AGING (R159): A queued task's effective class falls by one per full 4 ms of waiting. -/
  | effectiveClassAging (task : Nat)
  /-- DEADLINE_PREEMPTION (R434): An E0 task missing its deadline makes the graph engine request pre-emption. -/
  | deadlinePreemption (die : Nat)
  /-- PREEMPT_FORCED_SAVE (R434): With no PHINT within 100 us, a forced full save is taken. -/
  | preemptForcedSave (thr : Nat)
  /-- GRAPH_REPLAY_START (R172): A pending replay starts once the generation has settled. -/
  | graphReplayStart (slot : Nat)
  /-- LAUNCH_DOORBELL (R450): A write of a launch queue's tail doorbell. -/
  | launchDoorbell (port : Nat) (queue : Nat) (tail : Nat)
  /-- LAUNCH_RECORD (R450): A launch record is taken from a launch queue. -/
  | launchRecord (queue : Nat)
  /-- CHECKER_MISMATCH (R432): The checker core finds a mismatch and the region aborts. -/
  | checkerMismatch (thr : Nat)
  /-- FETCH_FAULT (R428): An instruction fetch walk fails and the region aborts with TRANSLATION. -/
  | fetchFault (thr : Nat)
  /-- WATCHDOG (R439): A thread waiting 2^30 ns continuously raises WATCHDOG. -/
  | watchdog (thr : Nat)
  /-- IDLE_TIMEOUT (R407): An IDLE wait ends after its time limit. -/
  | idleTimeout (thr : Nat)
  /-- SECDED_FREEZE_END (R99): The 9-cycle freeze ends and buffered arrivals land. -/
  | secdedFreezeEnd (core : Nat)
  /-- BANK_REBUILD_END (R98): The rebuild of a failed bank into check bank 3 ends. -/
  | bankRebuildEnd (str : Nat) (unit : Nat)
  /-- HBM_PARITY_REREAD (R88): A burst with a parity error is re-read 40 ns later. -/
  | hbmParityReread (k : Nat) (ok : Bool)
  /-- HBM_LANE_SWAP_RESUME (R88): After the 1 us hold the pseudo-channel resumes and reads the burst again. -/
  | hbmLaneSwapResume (k : Nat) (ok : Bool)
  /-- EVENT_QUEUE_HEAD_WRITE (R165): A write of the event queue head consumes records. -/
  | eventQueueHeadWrite (val : BitVec 32)
  /-- COPY_CHUNK_DONE (R342): A copy engine finishes one 256-byte chunk. -/
  | copyChunkDone (k : Nat)
  /-- CURVE_DOORBELL (R454): A curve mailbox doorbell write makes Agate check the curve. -/
  | curveDoorbell (val : Nat)
  /-- CURVE_ENTRY (R197): An accepted curve takes force at VALIDFROM. -/
  | curveEntry
  /-- GRADE_EVENT (R206): A set-grades event replaces the four class grades. -/
  | gradeEvent
  /-- PEND_ANNOUNCE (R206): PEND shows a grade once its event falls within 10 ms. -/
  | pendAnnounce
  /-- PARK_STOP_TIMEOUT (R210): A PARK-chosen task reaching no PHINT within 50 us takes a forced gate persist. -/
  | parkStopTimeout (thr : Nat)
  /-- PARK_COPY_DONE (R210): A parked image's copy to the LP tier park area ends and frees its Onyx area. -/
  | parkCopyDone (task : Nat)
  /-- SUSPEND_EVENT (R216): A curve suspend event takes the module to suspend. -/
  | suspendEvent
  /-- RESUME_EVENT (R217): A curve resume event brings the module out of suspend. -/
  | resumeEvent
  /-- FAST_LOOP (R203): Every 10 us the scheduler scales issue-permit refill rates. -/
  | fastLoop
  /-- SLOW_LOOP (R204): Every 1 ms the scheduler chooses rows, F-codes, V-codes and rates. -/
  | slowLoop
  /-- EXEMPT_EXPIRY (R205): EXEMPT clears when its hold period and grade bound have passed. -/
  | exemptExpiry
  /-- VCODE_STEP_END (R200): A one-code V-code step completes after 10 us. -/
  | vcodeStepEnd (die : Nat)
  /-- FCODE_HOP_END (R200): A 100 ns F-code clock hop completes. -/
  | fcodeHopEnd (cl : Nat)
  /-- BIAS_SETTLE (R200): A body-bias change settles after 2 us. -/
  | biasSettle (cl : Nat)
  /-- PERMIT_REFILL (R225): Every 64 cluster cycles each permit counter is refilled. -/
  | permitRefill (cl : Nat) (hot : Bool)
  /-- DIE_GATE (R213): A fully idle die is gated, at least 2 ms after the previous one. -/
  | dieGate (die : Nat)
  /-- DIE_SWITCH_ON (R215): A gated die's shared-logic island is switched on. -/
  | dieSwitchOn (die : Nat)
  /-- CLUSTER_SWITCH_ON_ROUND (R215): One 4 us round of cluster switch-ons. -/
  | clusterSwitchOnRound (die : Nat)
  /-- PARK_LIST_COPY_DONE (R214): Copy engines finish copying a gated die's listed HBM ranges. -/
  | parkListCopyDone (die : Nat)
  /-- HBM_RETENTION_ENTRY (R214): A stack idle for 1 ms after its copies enters retention. -/
  | hbmRetentionEntry (stack : Nat)
  /-- ENERGY_SAMPLE (R220): Each microsecond the energy accumulators advance. -/
  | energySample (vals : List Nat)
  /-- ENERGY_LOW_HALF_READ (R221): A 32-bit read of an accumulator's low half latches the high half. -/
  | energyLowHalfRead (req : Nat) (n : Nat)
  /-- ENERGY_HIGH_HALF_READ (R221): A 32-bit read of a high half returns the requester's latch. -/
  | energyHighHalfRead (req : Nat) (n : Nat)
  /-- VOLTAGE_SAMPLE (R230): Every 2 ns the die samples its core rail and updates VMIN. -/
  | voltageSample (die : Nat) (mvs : List Nat)
  /-- VMIN_REARM (R59): A write of REARM resets MV and TIME. -/
  | vminRearm (die : Nat)
  /-- ERROR_COUNTER_CLEAR (R231): A window write of 0 clears an error counter. -/
  | errorCounterClear (idx : Nat) (val : BitVec 64)
  /-- ONYX_BLOCK_MOVE (R232): A worn Onyx block is moved to a spare between image writes. -/
  | onyxBlockMove (die : Nat) (block : Nat)
  /-- DROOP_TRIP (R468): A droop detector trip halves the cluster clock. -/
  | droopTrip (cl : Nat)
  /-- DROOP_RECOVERY (R468): After 32 stretched cycles above trip level the clock returns. -/
  | droopRecovery (cl : Nat)
  /-- HOP_RETRY (R469): An aborted hop is retried after 1 us above trip level. -/
  | hopRetry (cl : Nat)
  /-- VCORE_FAULT (R471): A VCORE rail under 0.50 V for 1 us or losing power-good switches off its die. -/
  | vcoreFault (die : Nat)
  /-- CLUSTER_POWER_LOSS (R437): Unplanned loss of a cluster island requeues its tasks. -/
  | clusterPowerLoss (cl : Nat)
  /-- MODULE_POWER_LOSS (R437): Loss of the module input or VAUX loses all running work. -/
  | modulePowerLoss
  /-- VAUX_POWER_GOOD (R474): VAUX reaches power-good and Agate's ROM starts the boot. -/
  | vauxPowerGood
  /-- BOOT_TIMEOUT (R474): A start not reaching STAGE 4 within 60 s fails. -/
  | bootTimeout
  /-- RAIL_POWER_GOOD_TIMEOUT (R475): A rail failing to reach power-good within 10 ms fails the start. -/
  | railPowerGoodTimeout (rail : Nat)
  /-- RECOVERY_DOORBELL (R477): In minimal mode a recovery image is verified and written to flash. -/
  | recoveryDoorbell (val : Nat)
  /-- HOST_WRITE (R445): A host write to device memory performs at home as an engine write. -/
  | hostWrite (port : Nat) (pa : Nat) (data : List Byte)
  /-- HOST_READ (R445): A host read of device memory reads home. -/
  | hostRead (port : Nat) (pa : Nat) (len : Nat)
  /-- FLR (R443): Function-level reset ends every task launched through that port. -/
  | flr (port : Nat)
  /-- REGISTER_WRITE (R44): A write to a window register without behaviour of its own. -/
  | registerWrite (req : Nat) (ofs : Nat) (val : BitVec 64)
  /-- CREATE_CONTEXT (R449): Request 0x01 creates a context from a descriptor. -/
  | createContext
  /-- DESTROY_CONTEXT (R447): Request 0x02 destroys an idle context. -/
  | destroyContext
  /-- INSTALL_LAP_TABLE (R150): Request 0x04 installs a lap table or refuses it. -/
  | installLapTable
  /-- PARK_LIST (R214): Request 0x05 registers a park list. -/
  | parkList
  /-- TELEMETRY_BUFFER (R166): Request 0x06 names a telemetry buffer. -/
  | telemetryBuffer
  /-- WRITE_SLOT_TABLE (R183): Request 0x07 writes a shared-port slot table. -/
  | writeSlotTable
  /-- SAVE_POOL (R435): Request 0x08 names a context's save pool. -/
  | savePool
  /-- PRE_EMPT_TASK (R434): Request 0x09 requests pre-emption of a task. -/
  | preEmptTask
  /-- CLEAR_DEGRADED_CORE (R432): Request 0x0A clears a core's degraded mark. -/
  | clearDegradedCore
  /-- RESTORE_SNAPSHOT_DOMAIN (R451): Request 0x0B restores a snapshot domain. -/
  | restoreSnapshotDomain
  /-- SET_UP_COMMUNICATOR (R459): Request 0x0C sets up a communicator. -/
  | setUpCommunicator
  /-- CANCEL_COLLECTIVE (R461): Request 0x0D cancels a stalled collective. -/
  | cancelCollective
  /-- SUSPEND_REQUEST (R216): Request 0x0E with argument 0 suspends the module. -/
  | suspendRequest
  /-- RESUME_REQUEST (R217): Request 0x0E with argument 1 resumes the module. -/
  | resumeRequest
  /-- WRITE_CORE_OWNERSHIP (R448): Request 0x0F writes the core ownership table. -/
  | writeCoreOwnership
  /-- REGISTER_PARK_AREA (R211): Request 0x10 registers or unregisters the park area. -/
  | registerParkArea
  /-- PEER_ACCESS_ARRIVAL (R455): A load, write-through, atomic or engine write from a peer arrives. -/
  | peerAccessArrival (peer : Nat) (kind : Nat) (pa : Nat) (mask : Nat) (data : List Byte)
  /-- PEER_RESPONSE (R455): A peer's home returns a load or atomic result. -/
  | peerResponse (k : Nat) (data : List Byte)
  /-- PEER_TIMEOUT (R455): An access unanswered for 1 ms is poisoned or dropped and reported. -/
  | peerTimeout (k : Nat)
  /-- PEER_REFUSAL (R455): A peer refuses an access to an unbacked byte. -/
  | peerRefusal (k : Nat)
  /-- ETH_PACKET_ARRIVAL (R456): A collective packet arrives and is placed by its offset. -/
  | ethPacketArrival (port : Nat) (msg : Nat) (pkt : Nat) (ofs : Nat) (data : List Byte)
  /-- ETH_ACK_ARRIVAL (R456): A selective acknowledgement arrives at the sender. -/
  | ethAckArrival (msg : Nat) (pkts : List Nat)
  /-- ETH_RETRANSMIT_TIMEOUT (R456): An unacknowledged packet is resent after 40 us. -/
  | ethRetransmitTimeout (msg : Nat) (pkt : Nat)
  /-- COLLECTIVE_CHUNK_DONE (R460): The collective engine completes one 64 KiB chunk. -/
  | collectiveChunkDone (k : Nat)
  /-- COLLECTIVE_STALL (R461): A peer rank silent for 1 s posts a stall event. -/
  | collectiveStall (k : Nat) (rank : Nat)
  /-- GET_VERSION (R464): SPDM GET_VERSION answered with VERSION, starting new transcripts. -/
  | getVersion (path : Nat) (req : List Byte)
  /-- GET_CAPABILITIES (R464): SPDM GET_CAPABILITIES answered in S1. -/
  | getCapabilities (path : Nat) (req : List Byte)
  /-- NEGOTIATE_ALGORITHMS (R464): SPDM NEGOTIATE_ALGORITHMS answered in S2. -/
  | negotiateAlgorithms (path : Nat) (req : List Byte)
  /-- GET_DIGESTS (R464): SPDM GET_DIGESTS answered in S3. -/
  | getDigests (path : Nat) (req : List Byte)
  /-- GET_CERTIFICATE (R464): SPDM GET_CERTIFICATE returns a portion of the chain. -/
  | getCertificate (path : Nat) (req : List Byte)
  /-- CHALLENGE (R464): SPDM CHALLENGE answered with a signed CHALLENGE_AUTH. -/
  | challenge (path : Nat) (req : List Byte)
  /-- GET_MEASUREMENTS (R464): SPDM GET_MEASUREMENTS returns measurement blocks, optionally signed. -/
  | getMeasurements (path : Nat) (req : List Byte)
  /-- SPDM_UNSUPPORTED_REQUEST (R464): Any other request code draws ERROR UnsupportedRequest. -/
  | spdmUnsupportedRequest (path : Nat) (req : List Byte)
  /-- MBOX_SEND (R465): Sends the response buffer on the request's path and clears REQ. -/
  | mboxSend (len : BitVec 13)
  /-- INIT (R465): ENG_CMD OP 1 resets a hash context. -/
  | engInit (cx : BitVec 4)
  /-- ABSORB (R465): ENG_CMD OP 2 absorbs bytes into a hash context. -/
  | engAbsorb (cx : BitVec 4) (len : BitVec 13)
  /-- DIGEST (R465): ENG_CMD OP 3 writes a context's digest. -/
  | engDigest (cx : BitVec 4)
  /-- CLONE (R465): ENG_CMD OP 4 copies one hash context to another. -/
  | engClone (cx : BitVec 4) (cy : BitVec 4)
  /-- EXTEND (R463): ENG_CMD OP 5 extends a measurement slot. -/
  | engExtend (cx : BitVec 4)
  /-- SIGN (R465): ENG_CMD OP 6 writes an ML-DSA-44 signature. -/
  | engSign (cy : BitVec 4)
  /-- RAND (R465): ENG_CMD OP 7 writes DRBG bytes. -/
  | engRand (len : BitVec 13)
  /-- MBLOCK (R465): ENG_CMD OP 8 writes a measurement block. -/
  | engMblock (cx : BitVec 4)
  /-- MOVE (R465): ENG_CMD OP 9 copies SRAM bytes. -/
  | engMove (len : BitVec 13)
  /-- CONTROL_PATH_ACCESS_PERFORMS (R298): An LDS, STS or the home step of JOIN, LEAVE, GBAR or GINFO performs, and its result reaches the control sequencer. -/
  | controlPathAccessPerforms (thr : Nat) (k : Nat)
  /-- HOST_COMPLETION (R116): The host's completion for a device read or write to the host window arrives at a host port. -/
  | hostCompletion (port : Nat)
  /-- BIRSP_ARRIVAL (R444): The host's BIRsp arrives, and a write-through or engine write waiting on its BISnp may perform. -/
  | birspArrival (port : Nat) (line : Nat)
  /-- HBM_SCRUB (R89): The stack's scrub finds and corrects a cell error, and writes a cell-log record of CLASS 2. -/
  | hbmScrub (stack : Nat) (pch : Nat) (bank : Nat) (row : Nat) (col : Nat)
  /-- VERSION_OVERFLOW_REQUEUE (R427): A task aborted by VERSION_OVERFLOW SUB 1 is requeued 50 us after its abort. -/
  | versionOverflowRequeue (task : Nat)
  /-- MODULE_RESET (R475): A module reset zeroes the ring and event-queue counters and interrupts or restarts the start. -/
  | moduleReset
  /-- RAIL_POWER_GOOD (R474): A rail's power-good signal rises during start-up, and the start proceeds to its next step. -/
  | railPowerGood (rail : Nat)
  deriving DecidableEq, Repr

end Sys2Proof
end

