-- ==== Sys2Proof/WellFormed.lean ====
section
/-! DEFINITION. The values a word's fields may hold beyond the fixed bits of its row (R25, R41, R260, R262, R265). -/

namespace Sys2Proof

/-- A last-use bit on a g field: g0 is never freed (R41). -/
def lg (l : BitVec 1) (s : BitVec 5) : Bool := l == 0#1 || s != 0#5

/-- The offset field of C-M: with IX = 1 it names gi and LI, and bits [3:0] are reserved (R262). -/
def cm (k : BitVec 1) (o : BitVec 10) : Bool :=
  k == 0#1 || (o.extractLsb' 0 4 == 0#4 && lg (o.extractLsb' 4 1) (o.extractLsb' 5 5))

/-- A scratchpad or queue-head field of E-M: with TK = 1 it names an x register (R25, R316). -/
def tk (k : BitVec 1) (t : BitVec 4) : Bool := k == 0#1 || t.toNat < 8

/-- Last use and post-increment of one x register exclude each other (R316). -/
def li (y i : BitVec 1) : Bool := y == 0#1 || i == 0#1

/-- The scope and the returned-value fields of E-A (R101, R335). -/
def ea (r : BitVec 1) (q : BitVec 4) (k : BitVec 3) : Bool := (r == 1#1 || q == 0#4) && k.toNat < 6

/-- A queue head as s1 takes no last-use bit (R41). -/
def lq (q l : BitVec 1) : Bool := q == 0#1 || l == 0#1


/-- The checks of R260 that depend on a field's value. An event has none: what it names is looked up where it acts. -/
def Instr.wf : Instr → Bool
  | .add _ s l t m => lg l s && lg m t
  | .addi _ s l _ => lg l s
  | .sub _ s l t m => lg l s && lg m t
  | .mul _ s l t m => lg l s && lg m t
  | .mulhs _ s l t m => lg l s && lg m t
  | .mulhu _ s l t m => lg l s && lg m t
  | .divs _ s l t m => lg l s && lg m t
  | .divu _ s l t m => lg l s && lg m t
  | .rems _ s l t m => lg l s && lg m t
  | .remu _ s l t m => lg l s && lg m t
  | .and _ s l t m => lg l s && lg m t
  | .andi _ s l _ => lg l s
  | .or _ s l t m => lg l s && lg m t
  | .ori _ s l _ => lg l s
  | .xor _ s l t m => lg l s && lg m t
  | .xori _ s l _ => lg l s
  | .shl _ s l t m => lg l s && lg m t
  | .shli _ s l i => lg l s && i.toNat < 64
  | .shr _ s l t m => lg l s && lg m t
  | .shri _ s l i => lg l s && i.toNat < 64
  | .sar _ s l t m => lg l s && lg m t
  | .sari _ s l i => lg l s && i.toNat < 64
  | .min _ s l t m => lg l s && lg m t
  | .max _ s l t m => lg l s && lg m t
  | .minu _ s l t m => lg l s && lg m t
  | .maxu _ s l t m => lg l s && lg m t
  | .clz _ s l => lg l s
  | .ctz _ s l => lg l s
  | .popc _ s l => lg l s
  | .ldi _ _ => true
  | .ldhi _ _ => true
  | .sel _ s l t m _ => lg l s && lg m t
  | .cmp _ s l t m c => lg l s && lg m t && c.toNat < 10
  | .cmpi _ c s l _ => lg l s && c.toNat < 10
  | .pset _ _ _ o => o.toNat < 4
  | .br _ _ _ => true
  | .jmp s l => lg l s
  | .call _ _ => true
  | .ret s l => lg l s
  | .dbnz d _ => d != 0#5
  | .lds _ _ z x k o => cm k o && (x == 0#1 || z != 3#2)
  | .sts _ _ _ k o => cm k o
  | .xlate _ s l _ r => lg l s && r != 0#3
  | .hwait _ => true
  | .hrel _ => true
  | .emit s l => lg l s
  | .emitWithPrefix s l t m => lg l s && lg m t
  | .waitt c p => c != 0#6 && 6 ≤ p.toNat && p.toNat ≤ 8
  | .sigt c p => c != 0#6 && 3 ≤ p.toNat && p.toNat ≤ 5
  | .tkcnt _ p => p.toNat ≤ 8
  | .join _ _ k o => cm k o
  | .leave _ k o => cm k o
  | .gbar _ k o => cm k o
  | .ginfo _ _ k o => cm k o
  | .rdcsr _ _ => true
  | .wrcsr s l _ => lg l s
  | .csrs s l _ => lg l s
  | .csrc s l _ => lg l s
  | .trap s l _ => lg l s
  | .trapret => true
  | .install _ s l => lg l s
  | .phint _ => true
  | .pfence _ => true
  | .fence k e => e != 0#2 && k.toNat < 6
  | .qsync => true
  | .tcommit => true
  | .tend => true
  | .tabort _ => true
  | .pswap _ s l => lg l s
  | .kick _ s l => lg l s
  | .kickR _ s l => lg l s
  | .nwait _ s l t m => lg l s && lg m t
  | .barinit _ _ k o => cm k o
  | .barexp _ _ k o => cm k o
  | .barwait _ _ k o => cm k o
  | .snapc _ _ k o => cm k o
  | .opreq _ _ => true
  | .curtq _ => true
  | .rdtime _ => true
  | .rdengy _ _ => true
  | .dhops _ s l t m => lg l s && lg m t
  | .vdmap _ s l t m => lg l s && lg m t
  | .coll _ _ k o => cm k o
  | .idle _ => true
  | .ecall s l _ => lg l s
  | .rep _ _ _ _ => true
  | .pred _ _ => true
  | .exti _ => true
  | .ld _ _ _ _ y t k _ i => tk k t && li y i
  | .ldx _ _ _ _ _ _ _ _ => true
  | .ldsc _ _ _ _ y _ _ m => m != 0#3 && m != 7#3 && li y (m.extractLsb' 0 1)
  | .ldbd _ _ _ _ _ _ => true
  | .lsub _ _ _ _ _ _ => true
  | .lunsub _ _ _ => true
  | .qbind _ _ _ _ _ _ => true
  | .qfree _ _ _ => true
  | .splk _ _ _ _ y _ _ _ i => li y i
  | .pfetch _ _ _ _ y _ m => li y m
  | .xlatl _ _ _ _ _ _ r => r != 0#3
  | .lmark _ _ _ _ _ _ => true
  | .lloop _ _ _ => true
  | .xmov _ _ _ s l m => m == 0#1 || (s.toNat < 4 && l == 0#1)
  | .xadd _ _ _ _ _ _ _ => true
  | .xaddi _ _ _ _ _ _ => true
  | .xshl _ _ _ _ _ i => i.toNat < 64
  | .lnop _ _ => true
  | .st _ _ _ _ y _ _ i => li y i
  | .stx _ _ _ _ _ _ _ _ => true
  | .stbd _ _ _ _ _ _ => true
  | .sunlk _ _ _ _ y _ _ _ i => li y i
  | .spull _ _ _ _ _ _ _ _ => true
  | .cwbr _ _ _ _ _ _ => true
  | .cinvr _ _ _ _ _ _ => true
  | .xcopy _ _ _ _ _ _ => true
  | .baradd _ _ _ _ _ _ => true
  | .smark _ _ _ _ _ _ => true
  | .sloop _ _ _ => true
  | .xmovSt _ _ _ s l m => m == 0#1 || (s.toNat < 4 && l == 0#1)
  | .xaddSt _ _ _ _ _ _ _ => true
  | .xaddiSt _ _ _ _ _ _ => true
  | .xshlSt _ _ _ _ _ i => i.toNat < 64
  | .snop _ _ => true
  | .acas _ _ _ _ _ _ _ q r k => ea r q k
  | .amoAdd _ _ _ _ _ _ _ q r k => ea r q k
  | .amoFadd _ _ _ _ _ _ _ q r k => ea r q k
  | .amoMin _ _ _ _ _ _ _ q r k => ea r q k
  | .amoMax _ _ _ _ _ _ _ q r k => ea r q k
  | .amoAnd _ _ _ _ _ _ _ q r k => ea r q k
  | .amoOr _ _ _ _ _ _ _ q r k => ea r q k
  | .amoXor _ _ _ _ _ _ _ q r k => ea r q k
  | .amoSwap _ _ _ _ _ _ _ q r k => ea r q k
  | .lease _ _ => true
  | .unlease _ _ => true
  | .mtstart _ _ _ _ _ => true
  | .mma _ _ _ _ _ _ _ => true
  | .mzero _ _ _ => true
  | .mdrain _ _ _ _ r k _ _ => k == 1#1 || r == 0#4
  | .mrdb _ _ _ _ => true
  | .msett _ _ _ _ _ => true
  | .mfte _ _ _ _ _ => true
  | .mftb _ _ _ _ => true
  | .board _ _ _ _ => true
  | .bwait _ _ _ _ => true
  | .bdrop _ _ _ => true
  | .bquery _ _ _ _ => true
  | .mloop _ _ _ => true
  | .mnop _ _ => true
  | .mxmode _ _ _ _ => true
  | .vsetc _ _ _ => true
  | .vadd _ _ _ _ l _ _ _ _ q => lq q l
  | .vsub _ _ _ _ l _ _ _ _ q => lq q l
  | .vmul _ _ _ _ l _ _ _ _ q => lq q l
  | .vfma _ _ _ _ l _ _ _ _ q => lq q l
  | .vmin _ _ _ _ l _ _ _ _ q => lq q l
  | .vmax _ _ _ _ l _ _ _ _ q => lq q l
  | .vabs _ _ _ _ l _ _ q => lq q l
  | .vneg _ _ _ _ l _ _ q => lq q l
  | .vscl _ _ _ _ l _ _ _ _ q => lq q l
  | .vrsum _ _ d _ l k _ q v => lq q l && (v == 1#1 || (d.toNat < 8 && k == 0#1))
  | .vrmax _ _ d _ l k _ q v => lq q l && (v == 1#1 || (d.toNat < 8 && k == 0#1))
  | .vrmin _ _ d _ l k _ q v => lq q l && (v == 1#1 || (d.toNat < 8 && k == 0#1))
  | .vdot _ _ d _ l _ _ k _ q v => lq q l && (v == 1#1 || (d.toNat < 8 && k == 0#1))
  | .vcmp _ _ _ _ l _ _ _ _ q _ => lq q l
  | .vselm _ _ _ _ l _ _ _ _ q => lq q l
  | .viadd _ _ _ _ l _ _ _ _ q _ => lq q l
  | .visub _ _ _ _ l _ _ _ _ q _ => lq q l
  | .vimul _ _ _ _ l _ _ _ _ q _ => lq q l
  | .vimin _ _ _ _ l _ _ _ _ q _ => lq q l
  | .vimax _ _ _ _ l _ _ _ _ q _ => lq q l
  | .vand _ _ _ _ l _ _ _ _ q _ => lq q l
  | .vor _ _ _ _ l _ _ _ _ q _ => lq q l
  | .vxor _ _ _ _ l _ _ _ _ q _ => lq q l
  | .vshl _ _ _ _ l _ _ _ _ q _ => lq q l
  | .vshr _ _ _ _ l _ _ _ _ q _ => lq q l
  | .vsar _ _ _ _ l _ _ _ _ q _ => lq q l
  | .vcvt _ _ _ _ l _ _ _ _ q => lq q l
  | .vqnt _ _ _ _ l _ _ _ _ q => lq q l
  | .vdqnt _ _ _ _ l _ _ _ _ q => lq q l
  | .vcopy _ _ _ _ l _ _ q _ => lq q l
  | .vbcast _ _ _ _ _ _ _ _ => true
  | .vtrn _ _ _ _ _ _ _ _ _ _ => true
  | .vgath _ _ _ _ _ _ _ _ _ _ => true
  | .vscat _ _ _ _ l _ _ _ _ q _ => lq q l
  | .vrand _ _ _ _ _ _ _ _ => true
  | .vdrop _ _ _ _ l _ _ _ _ q => lq q l
  | .aset _ _ _ _ _ _ => true
  | .amod _ _ _ _ _ => true
  | .astep _ _ _ _ _ _ => true
  | .amov _ _ d _ _ m => m != 3#2 && (m == 0#2 || d.toNat < 8)
  | .vmovs _ _ d s l q r _ => lq q l && (if r == 0#1 then decide (d.toNat < 8) else decide (s.toNat < 8) && q == 0#1)
  | .vloop _ _ _ => true
  | .vnop _ _ => true
  | .sexp2 _ _ _ _ l _ _ q => lq q l
  | .slog2 _ _ _ _ l _ _ q => lq q l
  | .sexp _ _ _ _ l _ _ q => lq q l
  | .sln _ _ _ _ l _ _ q => lq q l
  | .srcp _ _ _ _ l _ _ q => lq q l
  | .sdiv _ _ _ _ l _ _ _ _ q => lq q l
  | .ssqrt _ _ _ _ l _ _ q => lq q l
  | .srsq _ _ _ _ l _ _ q => lq q l
  | .stanh _ _ _ _ l _ _ q => lq q l
  | .ssigm _ _ _ _ l _ _ q => lq q l
  | .ssin _ _ _ _ l _ _ q => lq q l
  | .scos _ _ _ _ l _ _ q => lq q l
  | .serf _ _ _ _ l _ _ q => lq q l
  | .sfnop _ _ => true
  | .qpopRead _ _ => true
  | .xlateSettle _ _ => true
  | .walkComplete _ _ => true
  | .monitorRequeueTimeout _ => true
  | .shootdown => true
  | .shootdownCompletion => true
  | .engineWordFinish _ _ => true
  | .pendingPersistPoint _ => true
  | .imageComplete _ _ => true
  | .commitImageCopyDone _ _ => true
  | .writeThroughArrival _ _ => true
  | .flushMarkerAck _ _ => true
  | .barrierAddition _ => true
  | .queueElementArrival _ _ => true
  | .loaderSlotDelivery _ _ => true
  | .storerSlotWrite _ => true
  | .lapBoundary => true
  | .frameHeaderArrival _ => true
  | .frameLastFlitArrival _ _ _ => true
  | .leaseTimeout _ => true
  | .taskPlacement _ => true
  | .shadowFillDone _ => true
  | .effectiveClassAging _ => true
  | .deadlinePreemption _ => true
  | .preemptForcedSave _ => true
  | .graphReplayStart _ => true
  | .launchDoorbell _ _ _ => true
  | .launchRecord _ => true
  | .checkerMismatch _ => true
  | .fetchFault _ => true
  | .watchdog _ => true
  | .idleTimeout _ => true
  | .secdedFreezeEnd _ => true
  | .bankRebuildEnd _ _ => true
  | .hbmParityReread _ _ => true
  | .hbmLaneSwapResume _ _ => true
  | .eventQueueHeadWrite _ => true
  | .copyChunkDone _ => true
  | .curveDoorbell _ => true
  | .curveEntry => true
  | .gradeEvent => true
  | .pendAnnounce => true
  | .parkStopTimeout _ => true
  | .parkCopyDone _ => true
  | .suspendEvent => true
  | .resumeEvent => true
  | .fastLoop => true
  | .slowLoop => true
  | .exemptExpiry => true
  | .vcodeStepEnd _ => true
  | .fcodeHopEnd _ => true
  | .biasSettle _ => true
  | .permitRefill _ _ => true
  | .dieGate _ => true
  | .dieSwitchOn _ => true
  | .clusterSwitchOnRound _ => true
  | .parkListCopyDone _ => true
  | .hbmRetentionEntry _ => true
  | .energySample _ => true
  | .energyLowHalfRead _ _ => true
  | .energyHighHalfRead _ _ => true
  | .voltageSample _ _ => true
  | .vminRearm _ => true
  | .errorCounterClear _ _ => true
  | .onyxBlockMove _ _ => true
  | .droopTrip _ => true
  | .droopRecovery _ => true
  | .hopRetry _ => true
  | .vcoreFault _ => true
  | .clusterPowerLoss _ => true
  | .modulePowerLoss => true
  | .vauxPowerGood => true
  | .bootTimeout => true
  | .railPowerGoodTimeout _ => true
  | .recoveryDoorbell _ => true
  | .hostWrite _ _ _ => true
  | .hostRead _ _ _ => true
  | .flr _ => true
  | .registerWrite _ _ _ => true
  | .createContext => true
  | .destroyContext => true
  | .installLapTable => true
  | .parkList => true
  | .telemetryBuffer => true
  | .writeSlotTable => true
  | .savePool => true
  | .preEmptTask => true
  | .clearDegradedCore => true
  | .restoreSnapshotDomain => true
  | .setUpCommunicator => true
  | .cancelCollective => true
  | .suspendRequest => true
  | .resumeRequest => true
  | .writeCoreOwnership => true
  | .registerParkArea => true
  | .peerAccessArrival _ _ _ _ _ => true
  | .peerResponse _ _ => true
  | .peerTimeout _ => true
  | .peerRefusal _ => true
  | .ethPacketArrival _ _ _ _ _ => true
  | .ethAckArrival _ _ => true
  | .ethRetransmitTimeout _ _ => true
  | .collectiveChunkDone _ => true
  | .collectiveStall _ _ => true
  | .getVersion _ _ => true
  | .getCapabilities _ _ => true
  | .negotiateAlgorithms _ _ => true
  | .getDigests _ _ => true
  | .getCertificate _ _ => true
  | .challenge _ _ => true
  | .getMeasurements _ _ => true
  | .spdmUnsupportedRequest _ _ => true
  | .mboxSend _ => true
  | .engInit _ => true
  | .engAbsorb _ _ => true
  | .engDigest _ => true
  | .engClone _ _ => true
  | .engExtend _ => true
  | .engSign _ => true
  | .engRand _ => true
  | .engMblock _ => true
  | .engMove _ => true
  | .controlPathAccessPerforms _ _ => true
  | .hostCompletion _ => true
  | .birspArrival _ _ => true
  | .hbmScrub _ _ _ _ _ => true
  | .versionOverflowRequeue _ => true
  | .moduleReset => true
  | .railPowerGood _ => true

end Sys2Proof
end

