-- ==== Sys2Proof/Decode.lean ====
section
/-! DEFINITION. The decoder of the 32-bit words, total and rejecting by name (R258 to R273), and after it the encoder. -/

namespace Sys2Proof

/-- Why a word is an illegal encoding (R260). -/
inductive DecodeError where
  /-- The ENG and OP pair is unassigned. -/
  | unassigned
  /-- A reserved or unused bit of the format is set. -/
  | reservedBit
  /-- A field holds a value outside its listed codes, or names a register outside its file. -/
  | badField
  deriving DecidableEq, Repr

/-- The instruction `i`, when the fixed bits of its row (mask, match) agree with the word. -/
def fixed (w : W32) (mask mtch : Nat) (i : Instr) : Except DecodeError Instr :=
  if w &&& BitVec.ofNat 32 mask = BitVec.ofNat 32 mtch then .ok i else .error .reservedBit

/-- The opcode map of the control words, ENG 000 (R268, R273). -/
def decodeControl (w : W32) : Nat → Except DecodeError Instr
  | 0x00 => fixed w 0xFF80003F 0x00000000 (.add (w.extractLsb' 18 5) (w.extractLsb' 13 5) (w.extractLsb' 12 1) (w.extractLsb' 7 5) (w.extractLsb' 6 1))
  | 0x01 => fixed w 0xFF800000 0x00800000 (.addi (w.extractLsb' 18 5) (w.extractLsb' 13 5) (w.extractLsb' 12 1) (w.extractLsb' 0 12))
  | 0x02 => fixed w 0xFF80003F 0x01000000 (.sub (w.extractLsb' 18 5) (w.extractLsb' 13 5) (w.extractLsb' 12 1) (w.extractLsb' 7 5) (w.extractLsb' 6 1))
  | 0x03 => fixed w 0xFF80003F 0x01800000 (.mul (w.extractLsb' 18 5) (w.extractLsb' 13 5) (w.extractLsb' 12 1) (w.extractLsb' 7 5) (w.extractLsb' 6 1))
  | 0x04 => fixed w 0xFF80003F 0x02000000 (.mulhs (w.extractLsb' 18 5) (w.extractLsb' 13 5) (w.extractLsb' 12 1) (w.extractLsb' 7 5) (w.extractLsb' 6 1))
  | 0x05 => fixed w 0xFF80003F 0x02800000 (.mulhu (w.extractLsb' 18 5) (w.extractLsb' 13 5) (w.extractLsb' 12 1) (w.extractLsb' 7 5) (w.extractLsb' 6 1))
  | 0x06 => fixed w 0xFF80003F 0x03000000 (.divs (w.extractLsb' 18 5) (w.extractLsb' 13 5) (w.extractLsb' 12 1) (w.extractLsb' 7 5) (w.extractLsb' 6 1))
  | 0x07 => fixed w 0xFF80003F 0x03800000 (.divu (w.extractLsb' 18 5) (w.extractLsb' 13 5) (w.extractLsb' 12 1) (w.extractLsb' 7 5) (w.extractLsb' 6 1))
  | 0x08 => fixed w 0xFF80003F 0x04000000 (.rems (w.extractLsb' 18 5) (w.extractLsb' 13 5) (w.extractLsb' 12 1) (w.extractLsb' 7 5) (w.extractLsb' 6 1))
  | 0x09 => fixed w 0xFF80003F 0x04800000 (.remu (w.extractLsb' 18 5) (w.extractLsb' 13 5) (w.extractLsb' 12 1) (w.extractLsb' 7 5) (w.extractLsb' 6 1))
  | 0x0A => fixed w 0xFF80003F 0x05000000 (.and (w.extractLsb' 18 5) (w.extractLsb' 13 5) (w.extractLsb' 12 1) (w.extractLsb' 7 5) (w.extractLsb' 6 1))
  | 0x0B => fixed w 0xFF800000 0x05800000 (.andi (w.extractLsb' 18 5) (w.extractLsb' 13 5) (w.extractLsb' 12 1) (w.extractLsb' 0 12))
  | 0x0C => fixed w 0xFF80003F 0x06000000 (.or (w.extractLsb' 18 5) (w.extractLsb' 13 5) (w.extractLsb' 12 1) (w.extractLsb' 7 5) (w.extractLsb' 6 1))
  | 0x0D => fixed w 0xFF800000 0x06800000 (.ori (w.extractLsb' 18 5) (w.extractLsb' 13 5) (w.extractLsb' 12 1) (w.extractLsb' 0 12))
  | 0x0E => fixed w 0xFF80003F 0x07000000 (.xor (w.extractLsb' 18 5) (w.extractLsb' 13 5) (w.extractLsb' 12 1) (w.extractLsb' 7 5) (w.extractLsb' 6 1))
  | 0x0F => fixed w 0xFF800000 0x07800000 (.xori (w.extractLsb' 18 5) (w.extractLsb' 13 5) (w.extractLsb' 12 1) (w.extractLsb' 0 12))
  | 0x10 => fixed w 0xFF80003F 0x08000000 (.shl (w.extractLsb' 18 5) (w.extractLsb' 13 5) (w.extractLsb' 12 1) (w.extractLsb' 7 5) (w.extractLsb' 6 1))
  | 0x11 => fixed w 0xFF800000 0x08800000 (.shli (w.extractLsb' 18 5) (w.extractLsb' 13 5) (w.extractLsb' 12 1) (w.extractLsb' 0 12))
  | 0x12 => fixed w 0xFF80003F 0x09000000 (.shr (w.extractLsb' 18 5) (w.extractLsb' 13 5) (w.extractLsb' 12 1) (w.extractLsb' 7 5) (w.extractLsb' 6 1))
  | 0x13 => fixed w 0xFF800000 0x09800000 (.shri (w.extractLsb' 18 5) (w.extractLsb' 13 5) (w.extractLsb' 12 1) (w.extractLsb' 0 12))
  | 0x14 => fixed w 0xFF80003F 0x0A000000 (.sar (w.extractLsb' 18 5) (w.extractLsb' 13 5) (w.extractLsb' 12 1) (w.extractLsb' 7 5) (w.extractLsb' 6 1))
  | 0x15 => fixed w 0xFF800000 0x0A800000 (.sari (w.extractLsb' 18 5) (w.extractLsb' 13 5) (w.extractLsb' 12 1) (w.extractLsb' 0 12))
  | 0x16 => fixed w 0xFF80003F 0x0B000000 (.min (w.extractLsb' 18 5) (w.extractLsb' 13 5) (w.extractLsb' 12 1) (w.extractLsb' 7 5) (w.extractLsb' 6 1))
  | 0x17 => fixed w 0xFF80003F 0x0B800000 (.max (w.extractLsb' 18 5) (w.extractLsb' 13 5) (w.extractLsb' 12 1) (w.extractLsb' 7 5) (w.extractLsb' 6 1))
  | 0x18 => fixed w 0xFF80003F 0x0C000000 (.minu (w.extractLsb' 18 5) (w.extractLsb' 13 5) (w.extractLsb' 12 1) (w.extractLsb' 7 5) (w.extractLsb' 6 1))
  | 0x19 => fixed w 0xFF80003F 0x0C800000 (.maxu (w.extractLsb' 18 5) (w.extractLsb' 13 5) (w.extractLsb' 12 1) (w.extractLsb' 7 5) (w.extractLsb' 6 1))
  | 0x1A => fixed w 0xFF800FFF 0x0D000000 (.clz (w.extractLsb' 18 5) (w.extractLsb' 13 5) (w.extractLsb' 12 1))
  | 0x1B => fixed w 0xFF800FFF 0x0D800000 (.ctz (w.extractLsb' 18 5) (w.extractLsb' 13 5) (w.extractLsb' 12 1))
  | 0x1C => fixed w 0xFF800FFF 0x0E000000 (.popc (w.extractLsb' 18 5) (w.extractLsb' 13 5) (w.extractLsb' 12 1))
  | 0x1D => fixed w 0xFF800000 0x0E800000 (.ldi (w.extractLsb' 18 5) (w.extractLsb' 0 18))
  | 0x1E => fixed w 0xFF800000 0x0F000000 (.ldhi (w.extractLsb' 18 5) (w.extractLsb' 0 18))
  | 0x1F => fixed w 0xFF800038 0x0F800000 (.sel (w.extractLsb' 18 5) (w.extractLsb' 13 5) (w.extractLsb' 12 1) (w.extractLsb' 7 5) (w.extractLsb' 6 1) (w.extractLsb' 0 3))
  | 0x20 => fixed w 0xFFE00030 0x10000000 (.cmp (w.extractLsb' 18 3) (w.extractLsb' 13 5) (w.extractLsb' 12 1) (w.extractLsb' 7 5) (w.extractLsb' 6 1) (w.extractLsb' 0 4))
  | 0x21 => fixed w 0xFF800000 0x10800000 (.cmpi (w.extractLsb' 20 3) (w.extractLsb' 16 4) (w.extractLsb' 11 5) (w.extractLsb' 10 1) (w.extractLsb' 0 10))
  | 0x22 => fixed w 0xFFE31C78 0x11000000 (.pset (w.extractLsb' 18 3) (w.extractLsb' 13 3) (w.extractLsb' 7 3) (w.extractLsb' 0 3))
  | 0x23 => fixed w 0xFF800000 0x11800000 (.br (w.extractLsb' 20 3) (w.extractLsb' 19 1) (w.extractLsb' 0 19))
  | 0x24 => fixed w 0xFFFC0FFF 0x12000000 (.jmp (w.extractLsb' 13 5) (w.extractLsb' 12 1))
  | 0x25 => fixed w 0xFF800000 0x12800000 (.call (w.extractLsb' 18 5) (w.extractLsb' 0 18))
  | 0x26 => fixed w 0xFFFC0FFF 0x13000000 (.ret (w.extractLsb' 13 5) (w.extractLsb' 12 1))
  | 0x27 => fixed w 0xFF800000 0x13800000 (.dbnz (w.extractLsb' 18 5) (w.extractLsb' 0 18))
  | 0x28 => fixed w 0xFF800000 0x14000000 (.lds (w.extractLsb' 18 5) (w.extractLsb' 14 4) (w.extractLsb' 12 2) (w.extractLsb' 11 1) (w.extractLsb' 10 1) (w.extractLsb' 0 10))
  | 0x29 => fixed w 0xFF800800 0x14800000 (.sts (w.extractLsb' 18 5) (w.extractLsb' 14 4) (w.extractLsb' 12 2) (w.extractLsb' 10 1) (w.extractLsb' 0 10))
  | 0x2A => fixed w 0xFFC00078 0x15000000 (.xlate (w.extractLsb' 18 4) (w.extractLsb' 13 5) (w.extractLsb' 12 1) (w.extractLsb' 7 5) (w.extractLsb' 0 3))
  | 0x2B => fixed w 0xFFC3FFFF 0x15800000 (.hwait (w.extractLsb' 18 4))
  | 0x2C => fixed w 0xFFC3FFFF 0x16000000 (.hrel (w.extractLsb' 18 4))
  | 0x2D => if w.getLsbD 0 then fixed w 0xFFFC003F 0x16800001 (.emitWithPrefix (w.extractLsb' 13 5) (w.extractLsb' 12 1) (w.extractLsb' 7 5) (w.extractLsb' 6 1))
            else fixed w 0xFFFC0FFF 0x16800000 (.emit (w.extractLsb' 13 5) (w.extractLsb' 12 1))
  | 0x2E => fixed w 0xFFFFFC00 0x17000000 (.waitt (w.extractLsb' 4 6) (w.extractLsb' 0 4))
  | 0x2F => fixed w 0xFFFFFC00 0x17800000 (.sigt (w.extractLsb' 4 6) (w.extractLsb' 0 4))
  | 0x30 => fixed w 0xFF83FFF0 0x18000000 (.tkcnt (w.extractLsb' 18 5) (w.extractLsb' 0 4))
  | 0x31 => fixed w 0xFF803800 0x18800000 (.join (w.extractLsb' 18 5) (w.extractLsb' 14 4) (w.extractLsb' 10 1) (w.extractLsb' 0 10))
  | 0x32 => fixed w 0xFFFC3800 0x19000000 (.leave (w.extractLsb' 14 4) (w.extractLsb' 10 1) (w.extractLsb' 0 10))
  | 0x33 => fixed w 0xFFFC3800 0x19800000 (.gbar (w.extractLsb' 14 4) (w.extractLsb' 10 1) (w.extractLsb' 0 10))
  | 0x34 => fixed w 0xFF803800 0x1A000000 (.ginfo (w.extractLsb' 18 5) (w.extractLsb' 14 4) (w.extractLsb' 10 1) (w.extractLsb' 0 10))
  | 0x35 => fixed w 0xFF83F000 0x1A800000 (.rdcsr (w.extractLsb' 18 5) (w.extractLsb' 0 12))
  | 0x36 => fixed w 0xFFFC0000 0x1B000000 (.wrcsr (w.extractLsb' 13 5) (w.extractLsb' 12 1) (w.extractLsb' 0 12))
  | 0x37 => fixed w 0xFFFC0000 0x1B800000 (.csrs (w.extractLsb' 13 5) (w.extractLsb' 12 1) (w.extractLsb' 0 12))
  | 0x38 => fixed w 0xFFFC0000 0x1C000000 (.csrc (w.extractLsb' 13 5) (w.extractLsb' 12 1) (w.extractLsb' 0 12))
  | _ => .error .unassigned

/-- The opcode map of the load words, ENG 001 (R268, R273). -/
def decodeLoad (w : W32) : Nat → Except DecodeError Instr
  | 0x00 => fixed w 0xFF800006 0x20000000 (.ld (w.extractLsb' 21 2) (w.extractLsb' 19 2) (w.extractLsb' 15 4) (w.extractLsb' 12 3) (w.extractLsb' 11 1) (w.extractLsb' 7 4) (w.extractLsb' 6 1) (w.extractLsb' 3 3) (w.extractLsb' 0 1))
  | 0x01 => fixed w 0xFF800000 0x20800000 (.ldx (w.extractLsb' 21 2) (w.extractLsb' 19 2) (w.extractLsb' 15 4) (w.extractLsb' 12 3) (w.extractLsb' 11 1) (w.extractLsb' 7 4) (w.extractLsb' 3 4) (w.extractLsb' 0 3))
  | 0x02 => fixed w 0xFF800440 0x21000040 (.ldsc (w.extractLsb' 21 2) (w.extractLsb' 19 2) (w.extractLsb' 15 4) (w.extractLsb' 12 3) (w.extractLsb' 11 1) (w.extractLsb' 7 3) (w.extractLsb' 3 3) (w.extractLsb' 0 3))
  | 0x03 => fixed w 0xFF80007F 0x21800000 (.ldbd (w.extractLsb' 21 2) (w.extractLsb' 19 2) (w.extractLsb' 15 4) (w.extractLsb' 12 3) (w.extractLsb' 11 1) (w.extractLsb' 7 4))
  | 0x04 => fixed w 0xFF80007F 0x22000000 (.lsub (w.extractLsb' 21 2) (w.extractLsb' 19 2) (w.extractLsb' 15 4) (w.extractLsb' 12 3) (w.extractLsb' 11 1) (w.extractLsb' 7 4))
  | 0x05 => fixed w 0xFF807FFF 0x22800000 (.lunsub (w.extractLsb' 21 2) (w.extractLsb' 19 2) (w.extractLsb' 15 4))
  | 0x06 => fixed w 0xFF8043FC 0x23000000 (.qbind (w.extractLsb' 21 2) (w.extractLsb' 19 2) (w.extractLsb' 15 4) (w.extractLsb' 11 3) (w.extractLsb' 10 1) (w.extractLsb' 0 2))
  | 0x07 => fixed w 0xFF807FFF 0x23800000 (.qfree (w.extractLsb' 21 2) (w.extractLsb' 19 2) (w.extractLsb' 15 4))
  | 0x08 => fixed w 0xFF800444 0x24000040 (.splk (w.extractLsb' 21 2) (w.extractLsb' 19 2) (w.extractLsb' 15 4) (w.extractLsb' 12 3) (w.extractLsb' 11 1) (w.extractLsb' 7 3) (w.extractLsb' 3 3) (w.extractLsb' 1 1) (w.extractLsb' 0 1))
  | 0x09 => fixed w 0xFF8007C6 0x24800000 (.pfetch (w.extractLsb' 21 2) (w.extractLsb' 19 2) (w.extractLsb' 15 4) (w.extractLsb' 12 3) (w.extractLsb' 11 1) (w.extractLsb' 3 3) (w.extractLsb' 0 1))
  | 0x0A => fixed w 0xFF804238 0x25000000 (.xlatl (w.extractLsb' 21 2) (w.extractLsb' 19 2) (w.extractLsb' 15 4) (w.extractLsb' 11 3) (w.extractLsb' 10 1) (w.extractLsb' 6 3) (w.extractLsb' 0 3))
  | 0x0B => fixed w 0xFF804000 0x25800000 (.lmark (w.extractLsb' 21 2) (w.extractLsb' 19 2) (w.extractLsb' 15 4) (w.extractLsb' 11 3) (w.extractLsb' 10 1) (w.extractLsb' 0 10))
  | 0x0C => fixed w 0xFFF80000 0x26000000 (.lloop (w.extractLsb' 13 6) (w.extractLsb' 11 2) (w.extractLsb' 0 11))
  | 0x0D => fixed w 0xFF8443FE 0x26800000 (.xmov (w.extractLsb' 21 2) (w.extractLsb' 19 2) (w.extractLsb' 15 3) (w.extractLsb' 11 3) (w.extractLsb' 10 1) (w.extractLsb' 0 1))
  | 0x0E => fixed w 0xFF84421F 0x27000000 (.xadd (w.extractLsb' 21 2) (w.extractLsb' 19 2) (w.extractLsb' 15 3) (w.extractLsb' 11 3) (w.extractLsb' 10 1) (w.extractLsb' 6 3) (w.extractLsb' 5 1))
  | 0x0F => fixed w 0xFF844000 0x27800000 (.xaddi (w.extractLsb' 21 2) (w.extractLsb' 19 2) (w.extractLsb' 15 3) (w.extractLsb' 11 3) (w.extractLsb' 10 1) (w.extractLsb' 0 10))
  | 0x10 => fixed w 0xFF844000 0x28000000 (.xshl (w.extractLsb' 21 2) (w.extractLsb' 19 2) (w.extractLsb' 15 3) (w.extractLsb' 11 3) (w.extractLsb' 10 1) (w.extractLsb' 0 10))
  | 0x11 => fixed w 0xFF87FFFF 0x28800000 (.lnop (w.extractLsb' 21 2) (w.extractLsb' 19 2))
  | _ => .error .unassigned

/-- The opcode map of the store words, ENG 010 (R268, R273). -/
def decodeStore (w : W32) : Nat → Except DecodeError Instr
  | 0x00 => fixed w 0xFF800446 0x40000040 (.st (w.extractLsb' 21 2) (w.extractLsb' 19 2) (w.extractLsb' 15 4) (w.extractLsb' 12 3) (w.extractLsb' 11 1) (w.extractLsb' 7 3) (w.extractLsb' 3 3) (w.extractLsb' 0 1))
  | 0x01 => fixed w 0xFF800000 0x40800000 (.stx (w.extractLsb' 21 2) (w.extractLsb' 19 2) (w.extractLsb' 15 4) (w.extractLsb' 12 3) (w.extractLsb' 11 1) (w.extractLsb' 7 4) (w.extractLsb' 3 4) (w.extractLsb' 0 3))
  | 0x02 => fixed w 0xFF80007F 0x41000000 (.stbd (w.extractLsb' 21 2) (w.extractLsb' 19 2) (w.extractLsb' 15 4) (w.extractLsb' 12 3) (w.extractLsb' 11 1) (w.extractLsb' 7 4))
  | 0x03 => fixed w 0xFF800444 0x41800040 (.sunlk (w.extractLsb' 21 2) (w.extractLsb' 19 2) (w.extractLsb' 15 4) (w.extractLsb' 12 3) (w.extractLsb' 11 1) (w.extractLsb' 7 3) (w.extractLsb' 3 3) (w.extractLsb' 1 1) (w.extractLsb' 0 1))
  | 0x04 => fixed w 0xFF800101 0x42000000 (.spull (w.extractLsb' 21 2) (w.extractLsb' 19 2) (w.extractLsb' 15 4) (w.extractLsb' 12 3) (w.extractLsb' 11 1) (w.extractLsb' 9 2) (w.extractLsb' 4 4) (w.extractLsb' 1 3))
  | 0x05 => fixed w 0xFF8007C7 0x42800000 (.cwbr (w.extractLsb' 21 2) (w.extractLsb' 19 2) (w.extractLsb' 15 4) (w.extractLsb' 12 3) (w.extractLsb' 11 1) (w.extractLsb' 3 3))
  | 0x06 => fixed w 0xFF8007C7 0x43000000 (.cinvr (w.extractLsb' 21 2) (w.extractLsb' 19 2) (w.extractLsb' 15 4) (w.extractLsb' 12 3) (w.extractLsb' 11 1) (w.extractLsb' 3 3))
  | 0x07 => fixed w 0xFF80047F 0x43800040 (.xcopy (w.extractLsb' 21 2) (w.extractLsb' 19 2) (w.extractLsb' 15 4) (w.extractLsb' 12 3) (w.extractLsb' 11 1) (w.extractLsb' 7 3))
  | 0x08 => fixed w 0xFF80047F 0x44000000 (.baradd (w.extractLsb' 21 2) (w.extractLsb' 19 2) (w.extractLsb' 15 4) (w.extractLsb' 12 3) (w.extractLsb' 11 1) (w.extractLsb' 7 3))
  | 0x09 => fixed w 0xFF844000 0x44800000 (.smark (w.extractLsb' 21 2) (w.extractLsb' 19 2) (w.extractLsb' 15 3) (w.extractLsb' 11 3) (w.extractLsb' 10 1) (w.extractLsb' 0 10))
  | 0x0A => fixed w 0xFFF80000 0x45000000 (.sloop (w.extractLsb' 13 6) (w.extractLsb' 11 2) (w.extractLsb' 0 11))
  | 0x0B => fixed w 0xFF8443FE 0x45800000 (.xmovSt (w.extractLsb' 21 2) (w.extractLsb' 19 2) (w.extractLsb' 15 3) (w.extractLsb' 11 3) (w.extractLsb' 10 1) (w.extractLsb' 0 1))
  | 0x0C => fixed w 0xFF84421F 0x46000000 (.xaddSt (w.extractLsb' 21 2) (w.extractLsb' 19 2) (w.extractLsb' 15 3) (w.extractLsb' 11 3) (w.extractLsb' 10 1) (w.extractLsb' 6 3) (w.extractLsb' 5 1))
  | 0x0D => fixed w 0xFF844000 0x46800000 (.xaddiSt (w.extractLsb' 21 2) (w.extractLsb' 19 2) (w.extractLsb' 15 3) (w.extractLsb' 11 3) (w.extractLsb' 10 1) (w.extractLsb' 0 10))
  | 0x0E => fixed w 0xFF844000 0x47000000 (.xshlSt (w.extractLsb' 21 2) (w.extractLsb' 19 2) (w.extractLsb' 15 3) (w.extractLsb' 11 3) (w.extractLsb' 10 1) (w.extractLsb' 0 10))
  | 0x0F => fixed w 0xFF87FFFF 0x47800000 (.snop (w.extractLsb' 21 2) (w.extractLsb' 19 2))
  | 0x1C => fixed w 0xFE000100 0x4E000000 (.acas (w.extractLsb' 23 2) (w.extractLsb' 21 2) (w.extractLsb' 19 2) (w.extractLsb' 15 4) (w.extractLsb' 12 3) (w.extractLsb' 11 1) (w.extractLsb' 9 2) (w.extractLsb' 4 4) (w.extractLsb' 3 1) (w.extractLsb' 0 3))
  | 0x1D => fixed w 0xFE000100 0x4E000000 (.acas (w.extractLsb' 23 2) (w.extractLsb' 21 2) (w.extractLsb' 19 2) (w.extractLsb' 15 4) (w.extractLsb' 12 3) (w.extractLsb' 11 1) (w.extractLsb' 9 2) (w.extractLsb' 4 4) (w.extractLsb' 3 1) (w.extractLsb' 0 3))
  | 0x1E => fixed w 0xFE000100 0x4E000000 (.acas (w.extractLsb' 23 2) (w.extractLsb' 21 2) (w.extractLsb' 19 2) (w.extractLsb' 15 4) (w.extractLsb' 12 3) (w.extractLsb' 11 1) (w.extractLsb' 9 2) (w.extractLsb' 4 4) (w.extractLsb' 3 1) (w.extractLsb' 0 3))
  | 0x1F => fixed w 0xFE000100 0x4E000000 (.acas (w.extractLsb' 23 2) (w.extractLsb' 21 2) (w.extractLsb' 19 2) (w.extractLsb' 15 4) (w.extractLsb' 12 3) (w.extractLsb' 11 1) (w.extractLsb' 9 2) (w.extractLsb' 4 4) (w.extractLsb' 3 1) (w.extractLsb' 0 3))
  | 0x20 => fixed w 0xF3800000 0x50000000 (.amoAdd (w.extractLsb' 26 2) (w.extractLsb' 21 2) (w.extractLsb' 19 2) (w.extractLsb' 15 4) (w.extractLsb' 12 3) (w.extractLsb' 11 1) (w.extractLsb' 8 3) (w.extractLsb' 4 4) (w.extractLsb' 3 1) (w.extractLsb' 0 3))
  | 0x21 => fixed w 0xF3800000 0x50800000 (.amoFadd (w.extractLsb' 26 2) (w.extractLsb' 21 2) (w.extractLsb' 19 2) (w.extractLsb' 15 4) (w.extractLsb' 12 3) (w.extractLsb' 11 1) (w.extractLsb' 8 3) (w.extractLsb' 4 4) (w.extractLsb' 3 1) (w.extractLsb' 0 3))
  | 0x22 => fixed w 0xF3800000 0x51000000 (.amoMin (w.extractLsb' 26 2) (w.extractLsb' 21 2) (w.extractLsb' 19 2) (w.extractLsb' 15 4) (w.extractLsb' 12 3) (w.extractLsb' 11 1) (w.extractLsb' 8 3) (w.extractLsb' 4 4) (w.extractLsb' 3 1) (w.extractLsb' 0 3))
  | 0x23 => fixed w 0xF3800000 0x51800000 (.amoMax (w.extractLsb' 26 2) (w.extractLsb' 21 2) (w.extractLsb' 19 2) (w.extractLsb' 15 4) (w.extractLsb' 12 3) (w.extractLsb' 11 1) (w.extractLsb' 8 3) (w.extractLsb' 4 4) (w.extractLsb' 3 1) (w.extractLsb' 0 3))
  | 0x24 => fixed w 0xF3800000 0x52000000 (.amoAnd (w.extractLsb' 26 2) (w.extractLsb' 21 2) (w.extractLsb' 19 2) (w.extractLsb' 15 4) (w.extractLsb' 12 3) (w.extractLsb' 11 1) (w.extractLsb' 8 3) (w.extractLsb' 4 4) (w.extractLsb' 3 1) (w.extractLsb' 0 3))
  | 0x25 => fixed w 0xF3800000 0x52800000 (.amoOr (w.extractLsb' 26 2) (w.extractLsb' 21 2) (w.extractLsb' 19 2) (w.extractLsb' 15 4) (w.extractLsb' 12 3) (w.extractLsb' 11 1) (w.extractLsb' 8 3) (w.extractLsb' 4 4) (w.extractLsb' 3 1) (w.extractLsb' 0 3))
  | 0x26 => fixed w 0xF3800000 0x53000000 (.amoXor (w.extractLsb' 26 2) (w.extractLsb' 21 2) (w.extractLsb' 19 2) (w.extractLsb' 15 4) (w.extractLsb' 12 3) (w.extractLsb' 11 1) (w.extractLsb' 8 3) (w.extractLsb' 4 4) (w.extractLsb' 3 1) (w.extractLsb' 0 3))
  | 0x27 => fixed w 0xF3800000 0x53800000 (.amoSwap (w.extractLsb' 26 2) (w.extractLsb' 21 2) (w.extractLsb' 19 2) (w.extractLsb' 15 4) (w.extractLsb' 12 3) (w.extractLsb' 11 1) (w.extractLsb' 8 3) (w.extractLsb' 4 4) (w.extractLsb' 3 1) (w.extractLsb' 0 3))
  | 0x28 => fixed w 0xF3800000 0x50000000 (.amoAdd (w.extractLsb' 26 2) (w.extractLsb' 21 2) (w.extractLsb' 19 2) (w.extractLsb' 15 4) (w.extractLsb' 12 3) (w.extractLsb' 11 1) (w.extractLsb' 8 3) (w.extractLsb' 4 4) (w.extractLsb' 3 1) (w.extractLsb' 0 3))
  | 0x29 => fixed w 0xF3800000 0x50800000 (.amoFadd (w.extractLsb' 26 2) (w.extractLsb' 21 2) (w.extractLsb' 19 2) (w.extractLsb' 15 4) (w.extractLsb' 12 3) (w.extractLsb' 11 1) (w.extractLsb' 8 3) (w.extractLsb' 4 4) (w.extractLsb' 3 1) (w.extractLsb' 0 3))
  | 0x2A => fixed w 0xF3800000 0x51000000 (.amoMin (w.extractLsb' 26 2) (w.extractLsb' 21 2) (w.extractLsb' 19 2) (w.extractLsb' 15 4) (w.extractLsb' 12 3) (w.extractLsb' 11 1) (w.extractLsb' 8 3) (w.extractLsb' 4 4) (w.extractLsb' 3 1) (w.extractLsb' 0 3))
  | 0x2B => fixed w 0xF3800000 0x51800000 (.amoMax (w.extractLsb' 26 2) (w.extractLsb' 21 2) (w.extractLsb' 19 2) (w.extractLsb' 15 4) (w.extractLsb' 12 3) (w.extractLsb' 11 1) (w.extractLsb' 8 3) (w.extractLsb' 4 4) (w.extractLsb' 3 1) (w.extractLsb' 0 3))
  | 0x2C => fixed w 0xF3800000 0x52000000 (.amoAnd (w.extractLsb' 26 2) (w.extractLsb' 21 2) (w.extractLsb' 19 2) (w.extractLsb' 15 4) (w.extractLsb' 12 3) (w.extractLsb' 11 1) (w.extractLsb' 8 3) (w.extractLsb' 4 4) (w.extractLsb' 3 1) (w.extractLsb' 0 3))
  | 0x2D => fixed w 0xF3800000 0x52800000 (.amoOr (w.extractLsb' 26 2) (w.extractLsb' 21 2) (w.extractLsb' 19 2) (w.extractLsb' 15 4) (w.extractLsb' 12 3) (w.extractLsb' 11 1) (w.extractLsb' 8 3) (w.extractLsb' 4 4) (w.extractLsb' 3 1) (w.extractLsb' 0 3))
  | 0x2E => fixed w 0xF3800000 0x53000000 (.amoXor (w.extractLsb' 26 2) (w.extractLsb' 21 2) (w.extractLsb' 19 2) (w.extractLsb' 15 4) (w.extractLsb' 12 3) (w.extractLsb' 11 1) (w.extractLsb' 8 3) (w.extractLsb' 4 4) (w.extractLsb' 3 1) (w.extractLsb' 0 3))
  | 0x2F => fixed w 0xF3800000 0x53800000 (.amoSwap (w.extractLsb' 26 2) (w.extractLsb' 21 2) (w.extractLsb' 19 2) (w.extractLsb' 15 4) (w.extractLsb' 12 3) (w.extractLsb' 11 1) (w.extractLsb' 8 3) (w.extractLsb' 4 4) (w.extractLsb' 3 1) (w.extractLsb' 0 3))
  | 0x30 => fixed w 0xF3800000 0x50000000 (.amoAdd (w.extractLsb' 26 2) (w.extractLsb' 21 2) (w.extractLsb' 19 2) (w.extractLsb' 15 4) (w.extractLsb' 12 3) (w.extractLsb' 11 1) (w.extractLsb' 8 3) (w.extractLsb' 4 4) (w.extractLsb' 3 1) (w.extractLsb' 0 3))
  | 0x31 => fixed w 0xF3800000 0x50800000 (.amoFadd (w.extractLsb' 26 2) (w.extractLsb' 21 2) (w.extractLsb' 19 2) (w.extractLsb' 15 4) (w.extractLsb' 12 3) (w.extractLsb' 11 1) (w.extractLsb' 8 3) (w.extractLsb' 4 4) (w.extractLsb' 3 1) (w.extractLsb' 0 3))
  | 0x32 => fixed w 0xF3800000 0x51000000 (.amoMin (w.extractLsb' 26 2) (w.extractLsb' 21 2) (w.extractLsb' 19 2) (w.extractLsb' 15 4) (w.extractLsb' 12 3) (w.extractLsb' 11 1) (w.extractLsb' 8 3) (w.extractLsb' 4 4) (w.extractLsb' 3 1) (w.extractLsb' 0 3))
  | 0x33 => fixed w 0xF3800000 0x51800000 (.amoMax (w.extractLsb' 26 2) (w.extractLsb' 21 2) (w.extractLsb' 19 2) (w.extractLsb' 15 4) (w.extractLsb' 12 3) (w.extractLsb' 11 1) (w.extractLsb' 8 3) (w.extractLsb' 4 4) (w.extractLsb' 3 1) (w.extractLsb' 0 3))
  | 0x34 => fixed w 0xF3800000 0x52000000 (.amoAnd (w.extractLsb' 26 2) (w.extractLsb' 21 2) (w.extractLsb' 19 2) (w.extractLsb' 15 4) (w.extractLsb' 12 3) (w.extractLsb' 11 1) (w.extractLsb' 8 3) (w.extractLsb' 4 4) (w.extractLsb' 3 1) (w.extractLsb' 0 3))
  | 0x35 => fixed w 0xF3800000 0x52800000 (.amoOr (w.extractLsb' 26 2) (w.extractLsb' 21 2) (w.extractLsb' 19 2) (w.extractLsb' 15 4) (w.extractLsb' 12 3) (w.extractLsb' 11 1) (w.extractLsb' 8 3) (w.extractLsb' 4 4) (w.extractLsb' 3 1) (w.extractLsb' 0 3))
  | 0x36 => fixed w 0xF3800000 0x53000000 (.amoXor (w.extractLsb' 26 2) (w.extractLsb' 21 2) (w.extractLsb' 19 2) (w.extractLsb' 15 4) (w.extractLsb' 12 3) (w.extractLsb' 11 1) (w.extractLsb' 8 3) (w.extractLsb' 4 4) (w.extractLsb' 3 1) (w.extractLsb' 0 3))
  | 0x37 => fixed w 0xF3800000 0x53800000 (.amoSwap (w.extractLsb' 26 2) (w.extractLsb' 21 2) (w.extractLsb' 19 2) (w.extractLsb' 15 4) (w.extractLsb' 12 3) (w.extractLsb' 11 1) (w.extractLsb' 8 3) (w.extractLsb' 4 4) (w.extractLsb' 3 1) (w.extractLsb' 0 3))
  | 0x38 => fixed w 0xF3800000 0x50000000 (.amoAdd (w.extractLsb' 26 2) (w.extractLsb' 21 2) (w.extractLsb' 19 2) (w.extractLsb' 15 4) (w.extractLsb' 12 3) (w.extractLsb' 11 1) (w.extractLsb' 8 3) (w.extractLsb' 4 4) (w.extractLsb' 3 1) (w.extractLsb' 0 3))
  | 0x39 => fixed w 0xF3800000 0x50800000 (.amoFadd (w.extractLsb' 26 2) (w.extractLsb' 21 2) (w.extractLsb' 19 2) (w.extractLsb' 15 4) (w.extractLsb' 12 3) (w.extractLsb' 11 1) (w.extractLsb' 8 3) (w.extractLsb' 4 4) (w.extractLsb' 3 1) (w.extractLsb' 0 3))
  | 0x3A => fixed w 0xF3800000 0x51000000 (.amoMin (w.extractLsb' 26 2) (w.extractLsb' 21 2) (w.extractLsb' 19 2) (w.extractLsb' 15 4) (w.extractLsb' 12 3) (w.extractLsb' 11 1) (w.extractLsb' 8 3) (w.extractLsb' 4 4) (w.extractLsb' 3 1) (w.extractLsb' 0 3))
  | 0x3B => fixed w 0xF3800000 0x51800000 (.amoMax (w.extractLsb' 26 2) (w.extractLsb' 21 2) (w.extractLsb' 19 2) (w.extractLsb' 15 4) (w.extractLsb' 12 3) (w.extractLsb' 11 1) (w.extractLsb' 8 3) (w.extractLsb' 4 4) (w.extractLsb' 3 1) (w.extractLsb' 0 3))
  | 0x3C => fixed w 0xF3800000 0x52000000 (.amoAnd (w.extractLsb' 26 2) (w.extractLsb' 21 2) (w.extractLsb' 19 2) (w.extractLsb' 15 4) (w.extractLsb' 12 3) (w.extractLsb' 11 1) (w.extractLsb' 8 3) (w.extractLsb' 4 4) (w.extractLsb' 3 1) (w.extractLsb' 0 3))
  | 0x3D => fixed w 0xF3800000 0x52800000 (.amoOr (w.extractLsb' 26 2) (w.extractLsb' 21 2) (w.extractLsb' 19 2) (w.extractLsb' 15 4) (w.extractLsb' 12 3) (w.extractLsb' 11 1) (w.extractLsb' 8 3) (w.extractLsb' 4 4) (w.extractLsb' 3 1) (w.extractLsb' 0 3))
  | 0x3E => fixed w 0xF3800000 0x53000000 (.amoXor (w.extractLsb' 26 2) (w.extractLsb' 21 2) (w.extractLsb' 19 2) (w.extractLsb' 15 4) (w.extractLsb' 12 3) (w.extractLsb' 11 1) (w.extractLsb' 8 3) (w.extractLsb' 4 4) (w.extractLsb' 3 1) (w.extractLsb' 0 3))
  | 0x3F => fixed w 0xF3800000 0x53800000 (.amoSwap (w.extractLsb' 26 2) (w.extractLsb' 21 2) (w.extractLsb' 19 2) (w.extractLsb' 15 4) (w.extractLsb' 12 3) (w.extractLsb' 11 1) (w.extractLsb' 8 3) (w.extractLsb' 4 4) (w.extractLsb' 3 1) (w.extractLsb' 0 3))
  | _ => .error .unassigned

/-- The opcode map of the matrix words, ENG 011 (R268, R273). -/
def decodeMatrix (w : W32) : Nat → Except DecodeError Instr
  | 0x00 => fixed w 0xFF87FFFF 0x60000000 (.lease (w.extractLsb' 21 2) (w.extractLsb' 19 2))
  | 0x01 => fixed w 0xFF87FFFF 0x60800000 (.unlease (w.extractLsb' 21 2) (w.extractLsb' 19 2))
  | 0x02 => fixed w 0xFF8443FF 0x61000000 (.mtstart (w.extractLsb' 21 2) (w.extractLsb' 19 2) (w.extractLsb' 15 3) (w.extractLsb' 11 3) (w.extractLsb' 10 1))
  | 0x03 => fixed w 0xFF800001 0x61800000 (.mma (w.extractLsb' 21 2) (w.extractLsb' 19 2) (w.extractLsb' 16 3) (w.extractLsb' 12 4) (w.extractLsb' 3 9) (w.extractLsb' 2 1) (w.extractLsb' 1 1))
  | 0x04 => fixed w 0xFF847FFF 0x62000000 (.mzero (w.extractLsb' 21 2) (w.extractLsb' 19 2) (w.extractLsb' 15 3))
  | 0x05 => fixed w 0xFF80001F 0x62800000 (.mdrain (w.extractLsb' 21 2) (w.extractLsb' 19 2) (w.extractLsb' 16 3) (w.extractLsb' 12 4) (w.extractLsb' 8 4) (w.extractLsb' 7 1) (w.extractLsb' 6 1) (w.extractLsb' 5 1))
  | 0x06 => fixed w 0xFF8447FF 0x63000000 (.mrdb (w.extractLsb' 21 2) (w.extractLsb' 19 2) (w.extractLsb' 15 3) (w.extractLsb' 11 3))
  | 0x07 => fixed w 0xFF8443FF 0x63800000 (.msett (w.extractLsb' 21 2) (w.extractLsb' 19 2) (w.extractLsb' 15 3) (w.extractLsb' 11 3) (w.extractLsb' 10 1))
  | 0x08 => fixed w 0xFF8043FF 0x64000000 (.mfte (w.extractLsb' 21 2) (w.extractLsb' 19 2) (w.extractLsb' 15 4) (w.extractLsb' 11 3) (w.extractLsb' 10 1))
  | 0x09 => fixed w 0xFF87FFC0 0x64800000 (.mftb (w.extractLsb' 21 2) (w.extractLsb' 19 2) (w.extractLsb' 4 2) (w.extractLsb' 0 4))
  | 0x0A => fixed w 0xFF80007F 0x65000000 (.board (w.extractLsb' 21 2) (w.extractLsb' 19 2) (w.extractLsb' 16 3) (w.extractLsb' 7 9))
  | 0x0B => fixed w 0xFF80007F 0x65800000 (.bwait (w.extractLsb' 21 2) (w.extractLsb' 19 2) (w.extractLsb' 16 3) (w.extractLsb' 7 9))
  | 0x0C => fixed w 0xFF87007F 0x66000000 (.bdrop (w.extractLsb' 21 2) (w.extractLsb' 19 2) (w.extractLsb' 7 9))
  | 0x0D => fixed w 0xFF80007F 0x66800000 (.bquery (w.extractLsb' 21 2) (w.extractLsb' 19 2) (w.extractLsb' 16 3) (w.extractLsb' 7 9))
  | 0x0E => fixed w 0xFFF80000 0x67000000 (.mloop (w.extractLsb' 13 6) (w.extractLsb' 11 2) (w.extractLsb' 0 11))
  | 0x0F => fixed w 0xFF87FFFF 0x67800000 (.mnop (w.extractLsb' 21 2) (w.extractLsb' 19 2))
  | 0x10 => fixed w 0xFF847FFE 0x68000000 (.mxmode (w.extractLsb' 21 2) (w.extractLsb' 19 2) (w.extractLsb' 15 3) (w.extractLsb' 0 1))
  | _ => .error .unassigned

/-- The opcode map of the vector words, ENG 100 (R268, R273). -/
def decodeVector (w : W32) : Nat → Except DecodeError Instr
  | 0x00 => fixed w 0xFF87FC00 0x80000000 (.vsetc (w.extractLsb' 21 2) (w.extractLsb' 19 2) (w.extractLsb' 0 10))
  | 0x01 => fixed w 0xFF800003 0x80800000 (.vadd (w.extractLsb' 21 2) (w.extractLsb' 19 2) (w.extractLsb' 15 4) (w.extractLsb' 11 4) (w.extractLsb' 10 1) (w.extractLsb' 6 4) (w.extractLsb' 5 1) (w.extractLsb' 4 1) (w.extractLsb' 3 1) (w.extractLsb' 2 1))
  | 0x02 => fixed w 0xFF800003 0x81000000 (.vsub (w.extractLsb' 21 2) (w.extractLsb' 19 2) (w.extractLsb' 15 4) (w.extractLsb' 11 4) (w.extractLsb' 10 1) (w.extractLsb' 6 4) (w.extractLsb' 5 1) (w.extractLsb' 4 1) (w.extractLsb' 3 1) (w.extractLsb' 2 1))
  | 0x03 => fixed w 0xFF800003 0x81800000 (.vmul (w.extractLsb' 21 2) (w.extractLsb' 19 2) (w.extractLsb' 15 4) (w.extractLsb' 11 4) (w.extractLsb' 10 1) (w.extractLsb' 6 4) (w.extractLsb' 5 1) (w.extractLsb' 4 1) (w.extractLsb' 3 1) (w.extractLsb' 2 1))
  | 0x04 => fixed w 0xFF800003 0x82000000 (.vfma (w.extractLsb' 21 2) (w.extractLsb' 19 2) (w.extractLsb' 15 4) (w.extractLsb' 11 4) (w.extractLsb' 10 1) (w.extractLsb' 6 4) (w.extractLsb' 5 1) (w.extractLsb' 4 1) (w.extractLsb' 3 1) (w.extractLsb' 2 1))
  | 0x05 => fixed w 0xFF800003 0x82800000 (.vmin (w.extractLsb' 21 2) (w.extractLsb' 19 2) (w.extractLsb' 15 4) (w.extractLsb' 11 4) (w.extractLsb' 10 1) (w.extractLsb' 6 4) (w.extractLsb' 5 1) (w.extractLsb' 4 1) (w.extractLsb' 3 1) (w.extractLsb' 2 1))
  | 0x06 => fixed w 0xFF800003 0x83000000 (.vmax (w.extractLsb' 21 2) (w.extractLsb' 19 2) (w.extractLsb' 15 4) (w.extractLsb' 11 4) (w.extractLsb' 10 1) (w.extractLsb' 6 4) (w.extractLsb' 5 1) (w.extractLsb' 4 1) (w.extractLsb' 3 1) (w.extractLsb' 2 1))
  | 0x07 => fixed w 0xFF8003E3 0x83800000 (.vabs (w.extractLsb' 21 2) (w.extractLsb' 19 2) (w.extractLsb' 15 4) (w.extractLsb' 11 4) (w.extractLsb' 10 1) (w.extractLsb' 4 1) (w.extractLsb' 3 1) (w.extractLsb' 2 1))
  | 0x08 => fixed w 0xFF8003E3 0x84000000 (.vneg (w.extractLsb' 21 2) (w.extractLsb' 19 2) (w.extractLsb' 15 4) (w.extractLsb' 11 4) (w.extractLsb' 10 1) (w.extractLsb' 4 1) (w.extractLsb' 3 1) (w.extractLsb' 2 1))
  | 0x09 => fixed w 0xFF800203 0x84800000 (.vscl (w.extractLsb' 21 2) (w.extractLsb' 19 2) (w.extractLsb' 15 4) (w.extractLsb' 11 4) (w.extractLsb' 10 1) (w.extractLsb' 6 3) (w.extractLsb' 5 1) (w.extractLsb' 4 1) (w.extractLsb' 3 1) (w.extractLsb' 2 1))
  | 0x0A => fixed w 0xFF8003E2 0x85000000 (.vrsum (w.extractLsb' 21 2) (w.extractLsb' 19 2) (w.extractLsb' 15 4) (w.extractLsb' 11 4) (w.extractLsb' 10 1) (w.extractLsb' 4 1) (w.extractLsb' 3 1) (w.extractLsb' 2 1) (w.extractLsb' 0 1))
  | 0x0B => fixed w 0xFF8003E2 0x85800000 (.vrmax (w.extractLsb' 21 2) (w.extractLsb' 19 2) (w.extractLsb' 15 4) (w.extractLsb' 11 4) (w.extractLsb' 10 1) (w.extractLsb' 4 1) (w.extractLsb' 3 1) (w.extractLsb' 2 1) (w.extractLsb' 0 1))
  | 0x0C => fixed w 0xFF8003E2 0x86000000 (.vrmin (w.extractLsb' 21 2) (w.extractLsb' 19 2) (w.extractLsb' 15 4) (w.extractLsb' 11 4) (w.extractLsb' 10 1) (w.extractLsb' 4 1) (w.extractLsb' 3 1) (w.extractLsb' 2 1) (w.extractLsb' 0 1))
  | 0x0D => fixed w 0xFF800002 0x86800000 (.vdot (w.extractLsb' 21 2) (w.extractLsb' 19 2) (w.extractLsb' 15 4) (w.extractLsb' 11 4) (w.extractLsb' 10 1) (w.extractLsb' 6 4) (w.extractLsb' 5 1) (w.extractLsb' 4 1) (w.extractLsb' 3 1) (w.extractLsb' 2 1) (w.extractLsb' 0 1))
  | 0x0E => fixed w 0xFF800000 0x87000000 (.vcmp (w.extractLsb' 21 2) (w.extractLsb' 19 2) (w.extractLsb' 15 4) (w.extractLsb' 11 4) (w.extractLsb' 10 1) (w.extractLsb' 6 4) (w.extractLsb' 5 1) (w.extractLsb' 4 1) (w.extractLsb' 3 1) (w.extractLsb' 2 1) (w.extractLsb' 0 2))
  | 0x0F => fixed w 0xFF800003 0x87800000 (.vselm (w.extractLsb' 21 2) (w.extractLsb' 19 2) (w.extractLsb' 15 4) (w.extractLsb' 11 4) (w.extractLsb' 10 1) (w.extractLsb' 6 4) (w.extractLsb' 5 1) (w.extractLsb' 4 1) (w.extractLsb' 3 1) (w.extractLsb' 2 1))
  | 0x10 => fixed w 0xFF800000 0x88000000 (.viadd (w.extractLsb' 21 2) (w.extractLsb' 19 2) (w.extractLsb' 15 4) (w.extractLsb' 11 4) (w.extractLsb' 10 1) (w.extractLsb' 6 4) (w.extractLsb' 5 1) (w.extractLsb' 4 1) (w.extractLsb' 3 1) (w.extractLsb' 2 1) (w.extractLsb' 0 2))
  | 0x11 => fixed w 0xFF800000 0x88800000 (.visub (w.extractLsb' 21 2) (w.extractLsb' 19 2) (w.extractLsb' 15 4) (w.extractLsb' 11 4) (w.extractLsb' 10 1) (w.extractLsb' 6 4) (w.extractLsb' 5 1) (w.extractLsb' 4 1) (w.extractLsb' 3 1) (w.extractLsb' 2 1) (w.extractLsb' 0 2))
  | 0x12 => fixed w 0xFF800000 0x89000000 (.vimul (w.extractLsb' 21 2) (w.extractLsb' 19 2) (w.extractLsb' 15 4) (w.extractLsb' 11 4) (w.extractLsb' 10 1) (w.extractLsb' 6 4) (w.extractLsb' 5 1) (w.extractLsb' 4 1) (w.extractLsb' 3 1) (w.extractLsb' 2 1) (w.extractLsb' 0 2))
  | 0x13 => fixed w 0xFF800000 0x89800000 (.vimin (w.extractLsb' 21 2) (w.extractLsb' 19 2) (w.extractLsb' 15 4) (w.extractLsb' 11 4) (w.extractLsb' 10 1) (w.extractLsb' 6 4) (w.extractLsb' 5 1) (w.extractLsb' 4 1) (w.extractLsb' 3 1) (w.extractLsb' 2 1) (w.extractLsb' 0 2))
  | 0x14 => fixed w 0xFF800000 0x8A000000 (.vimax (w.extractLsb' 21 2) (w.extractLsb' 19 2) (w.extractLsb' 15 4) (w.extractLsb' 11 4) (w.extractLsb' 10 1) (w.extractLsb' 6 4) (w.extractLsb' 5 1) (w.extractLsb' 4 1) (w.extractLsb' 3 1) (w.extractLsb' 2 1) (w.extractLsb' 0 2))
  | 0x15 => fixed w 0xFF800001 0x8A800000 (.vand (w.extractLsb' 21 2) (w.extractLsb' 19 2) (w.extractLsb' 15 4) (w.extractLsb' 11 4) (w.extractLsb' 10 1) (w.extractLsb' 6 4) (w.extractLsb' 5 1) (w.extractLsb' 4 1) (w.extractLsb' 3 1) (w.extractLsb' 2 1) (w.extractLsb' 1 1))
  | 0x16 => fixed w 0xFF800001 0x8B000000 (.vor (w.extractLsb' 21 2) (w.extractLsb' 19 2) (w.extractLsb' 15 4) (w.extractLsb' 11 4) (w.extractLsb' 10 1) (w.extractLsb' 6 4) (w.extractLsb' 5 1) (w.extractLsb' 4 1) (w.extractLsb' 3 1) (w.extractLsb' 2 1) (w.extractLsb' 1 1))
  | 0x17 => fixed w 0xFF800001 0x8B800000 (.vxor (w.extractLsb' 21 2) (w.extractLsb' 19 2) (w.extractLsb' 15 4) (w.extractLsb' 11 4) (w.extractLsb' 10 1) (w.extractLsb' 6 4) (w.extractLsb' 5 1) (w.extractLsb' 4 1) (w.extractLsb' 3 1) (w.extractLsb' 2 1) (w.extractLsb' 1 1))
  | 0x18 => fixed w 0xFF800001 0x8C000000 (.vshl (w.extractLsb' 21 2) (w.extractLsb' 19 2) (w.extractLsb' 15 4) (w.extractLsb' 11 4) (w.extractLsb' 10 1) (w.extractLsb' 6 4) (w.extractLsb' 5 1) (w.extractLsb' 4 1) (w.extractLsb' 3 1) (w.extractLsb' 2 1) (w.extractLsb' 1 1))
  | 0x19 => fixed w 0xFF800001 0x8C800000 (.vshr (w.extractLsb' 21 2) (w.extractLsb' 19 2) (w.extractLsb' 15 4) (w.extractLsb' 11 4) (w.extractLsb' 10 1) (w.extractLsb' 6 4) (w.extractLsb' 5 1) (w.extractLsb' 4 1) (w.extractLsb' 3 1) (w.extractLsb' 2 1) (w.extractLsb' 1 1))
  | 0x1A => fixed w 0xFF800001 0x8D000000 (.vsar (w.extractLsb' 21 2) (w.extractLsb' 19 2) (w.extractLsb' 15 4) (w.extractLsb' 11 4) (w.extractLsb' 10 1) (w.extractLsb' 6 4) (w.extractLsb' 5 1) (w.extractLsb' 4 1) (w.extractLsb' 3 1) (w.extractLsb' 2 1) (w.extractLsb' 1 1))
  | 0x1B => fixed w 0xFF800243 0x8D800000 (.vcvt (w.extractLsb' 21 2) (w.extractLsb' 19 2) (w.extractLsb' 15 4) (w.extractLsb' 11 4) (w.extractLsb' 10 1) (w.extractLsb' 7 2) (w.extractLsb' 5 1) (w.extractLsb' 4 1) (w.extractLsb' 3 1) (w.extractLsb' 2 1))
  | 0x1C => fixed w 0xFF800243 0x8E000000 (.vqnt (w.extractLsb' 21 2) (w.extractLsb' 19 2) (w.extractLsb' 15 4) (w.extractLsb' 11 4) (w.extractLsb' 10 1) (w.extractLsb' 7 2) (w.extractLsb' 5 1) (w.extractLsb' 4 1) (w.extractLsb' 3 1) (w.extractLsb' 2 1))
  | 0x1D => fixed w 0xFF800243 0x8E800000 (.vdqnt (w.extractLsb' 21 2) (w.extractLsb' 19 2) (w.extractLsb' 15 4) (w.extractLsb' 11 4) (w.extractLsb' 10 1) (w.extractLsb' 7 2) (w.extractLsb' 5 1) (w.extractLsb' 4 1) (w.extractLsb' 3 1) (w.extractLsb' 2 1))
  | 0x1E => fixed w 0xFF8003E0 0x8F000000 (.vcopy (w.extractLsb' 21 2) (w.extractLsb' 19 2) (w.extractLsb' 15 4) (w.extractLsb' 11 4) (w.extractLsb' 10 1) (w.extractLsb' 4 1) (w.extractLsb' 3 1) (w.extractLsb' 2 1) (w.extractLsb' 0 2))
  | 0x1F => fixed w 0xFF8003E4 0x8F800000 (.vbcast (w.extractLsb' 21 2) (w.extractLsb' 19 2) (w.extractLsb' 15 4) (w.extractLsb' 11 4) (w.extractLsb' 10 1) (w.extractLsb' 4 1) (w.extractLsb' 3 1) (w.extractLsb' 0 2))
  | 0x20 => fixed w 0xFF800204 0x90000000 (.vtrn (w.extractLsb' 21 2) (w.extractLsb' 19 2) (w.extractLsb' 15 4) (w.extractLsb' 11 4) (w.extractLsb' 10 1) (w.extractLsb' 6 3) (w.extractLsb' 5 1) (w.extractLsb' 4 1) (w.extractLsb' 3 1) (w.extractLsb' 0 2))
  | 0x21 => fixed w 0xFF800004 0x90800000 (.vgath (w.extractLsb' 21 2) (w.extractLsb' 19 2) (w.extractLsb' 15 4) (w.extractLsb' 11 4) (w.extractLsb' 10 1) (w.extractLsb' 6 4) (w.extractLsb' 5 1) (w.extractLsb' 4 1) (w.extractLsb' 3 1) (w.extractLsb' 0 2))
  | 0x22 => fixed w 0xFF800000 0x91000000 (.vscat (w.extractLsb' 21 2) (w.extractLsb' 19 2) (w.extractLsb' 15 4) (w.extractLsb' 11 4) (w.extractLsb' 10 1) (w.extractLsb' 6 4) (w.extractLsb' 5 1) (w.extractLsb' 4 1) (w.extractLsb' 3 1) (w.extractLsb' 2 1) (w.extractLsb' 0 2))
  | 0x23 => fixed w 0xFF807E06 0x91800000 (.vrand (w.extractLsb' 21 2) (w.extractLsb' 19 2) (w.extractLsb' 15 4) (w.extractLsb' 6 3) (w.extractLsb' 5 1) (w.extractLsb' 4 1) (w.extractLsb' 3 1) (w.extractLsb' 0 1))
  | 0x24 => fixed w 0xFF800243 0x92000000 (.vdrop (w.extractLsb' 21 2) (w.extractLsb' 19 2) (w.extractLsb' 15 4) (w.extractLsb' 11 4) (w.extractLsb' 10 1) (w.extractLsb' 7 2) (w.extractLsb' 5 1) (w.extractLsb' 4 1) (w.extractLsb' 3 1) (w.extractLsb' 2 1))
  | 0x25 => fixed w 0xFF8043FE 0x92800000 (.aset (w.extractLsb' 21 2) (w.extractLsb' 19 2) (w.extractLsb' 15 4) (w.extractLsb' 11 3) (w.extractLsb' 10 1) (w.extractLsb' 0 1))
  | 0x26 => fixed w 0xFF8043FF 0x93000000 (.amod (w.extractLsb' 21 2) (w.extractLsb' 19 2) (w.extractLsb' 15 4) (w.extractLsb' 11 3) (w.extractLsb' 10 1))
  | 0x27 => fixed w 0xFF800000 0x93800000 (.astep (w.extractLsb' 21 2) (w.extractLsb' 19 2) (w.extractLsb' 15 4) (w.extractLsb' 11 4) (w.extractLsb' 10 1) (w.extractLsb' 0 10))
  | 0x28 => fixed w 0xFF8003FC 0x94000000 (.amov (w.extractLsb' 21 2) (w.extractLsb' 19 2) (w.extractLsb' 15 4) (w.extractLsb' 11 4) (w.extractLsb' 10 1) (w.extractLsb' 0 2))
  | 0x29 => fixed w 0xFF8003F0 0x94800000 (.vmovs (w.extractLsb' 21 2) (w.extractLsb' 19 2) (w.extractLsb' 15 4) (w.extractLsb' 11 4) (w.extractLsb' 10 1) (w.extractLsb' 3 1) (w.extractLsb' 2 1) (w.extractLsb' 0 2))
  | 0x2A => fixed w 0xFFF80000 0x95000000 (.vloop (w.extractLsb' 13 6) (w.extractLsb' 11 2) (w.extractLsb' 0 11))
  | 0x2B => fixed w 0xFF87FFFF 0x95800000 (.vnop (w.extractLsb' 21 2) (w.extractLsb' 19 2))
  | _ => .error .unassigned

/-- The opcode map of the special-function words, ENG 101 (R268, R273). -/
def decodeSpecial (w : W32) : Nat → Except DecodeError Instr
  | 0x00 => fixed w 0xFF8003E3 0xA0000000 (.sexp2 (w.extractLsb' 21 2) (w.extractLsb' 19 2) (w.extractLsb' 15 4) (w.extractLsb' 11 4) (w.extractLsb' 10 1) (w.extractLsb' 4 1) (w.extractLsb' 3 1) (w.extractLsb' 2 1))
  | 0x01 => fixed w 0xFF8003E3 0xA0800000 (.slog2 (w.extractLsb' 21 2) (w.extractLsb' 19 2) (w.extractLsb' 15 4) (w.extractLsb' 11 4) (w.extractLsb' 10 1) (w.extractLsb' 4 1) (w.extractLsb' 3 1) (w.extractLsb' 2 1))
  | 0x02 => fixed w 0xFF8003E3 0xA1000000 (.sexp (w.extractLsb' 21 2) (w.extractLsb' 19 2) (w.extractLsb' 15 4) (w.extractLsb' 11 4) (w.extractLsb' 10 1) (w.extractLsb' 4 1) (w.extractLsb' 3 1) (w.extractLsb' 2 1))
  | 0x03 => fixed w 0xFF8003E3 0xA1800000 (.sln (w.extractLsb' 21 2) (w.extractLsb' 19 2) (w.extractLsb' 15 4) (w.extractLsb' 11 4) (w.extractLsb' 10 1) (w.extractLsb' 4 1) (w.extractLsb' 3 1) (w.extractLsb' 2 1))
  | 0x04 => fixed w 0xFF8003E3 0xA2000000 (.srcp (w.extractLsb' 21 2) (w.extractLsb' 19 2) (w.extractLsb' 15 4) (w.extractLsb' 11 4) (w.extractLsb' 10 1) (w.extractLsb' 4 1) (w.extractLsb' 3 1) (w.extractLsb' 2 1))
  | 0x05 => fixed w 0xFF800003 0xA2800000 (.sdiv (w.extractLsb' 21 2) (w.extractLsb' 19 2) (w.extractLsb' 15 4) (w.extractLsb' 11 4) (w.extractLsb' 10 1) (w.extractLsb' 6 4) (w.extractLsb' 5 1) (w.extractLsb' 4 1) (w.extractLsb' 3 1) (w.extractLsb' 2 1))
  | 0x06 => fixed w 0xFF8003E3 0xA3000000 (.ssqrt (w.extractLsb' 21 2) (w.extractLsb' 19 2) (w.extractLsb' 15 4) (w.extractLsb' 11 4) (w.extractLsb' 10 1) (w.extractLsb' 4 1) (w.extractLsb' 3 1) (w.extractLsb' 2 1))
  | 0x07 => fixed w 0xFF8003E3 0xA3800000 (.srsq (w.extractLsb' 21 2) (w.extractLsb' 19 2) (w.extractLsb' 15 4) (w.extractLsb' 11 4) (w.extractLsb' 10 1) (w.extractLsb' 4 1) (w.extractLsb' 3 1) (w.extractLsb' 2 1))
  | 0x08 => fixed w 0xFF8003E3 0xA4000000 (.stanh (w.extractLsb' 21 2) (w.extractLsb' 19 2) (w.extractLsb' 15 4) (w.extractLsb' 11 4) (w.extractLsb' 10 1) (w.extractLsb' 4 1) (w.extractLsb' 3 1) (w.extractLsb' 2 1))
  | 0x09 => fixed w 0xFF8003E3 0xA4800000 (.ssigm (w.extractLsb' 21 2) (w.extractLsb' 19 2) (w.extractLsb' 15 4) (w.extractLsb' 11 4) (w.extractLsb' 10 1) (w.extractLsb' 4 1) (w.extractLsb' 3 1) (w.extractLsb' 2 1))
  | 0x0A => fixed w 0xFF8003E3 0xA5000000 (.ssin (w.extractLsb' 21 2) (w.extractLsb' 19 2) (w.extractLsb' 15 4) (w.extractLsb' 11 4) (w.extractLsb' 10 1) (w.extractLsb' 4 1) (w.extractLsb' 3 1) (w.extractLsb' 2 1))
  | 0x0B => fixed w 0xFF8003E3 0xA5800000 (.scos (w.extractLsb' 21 2) (w.extractLsb' 19 2) (w.extractLsb' 15 4) (w.extractLsb' 11 4) (w.extractLsb' 10 1) (w.extractLsb' 4 1) (w.extractLsb' 3 1) (w.extractLsb' 2 1))
  | 0x0C => fixed w 0xFF8003E3 0xA6000000 (.serf (w.extractLsb' 21 2) (w.extractLsb' 19 2) (w.extractLsb' 15 4) (w.extractLsb' 11 4) (w.extractLsb' 10 1) (w.extractLsb' 4 1) (w.extractLsb' 3 1) (w.extractLsb' 2 1))
  | 0x0D => fixed w 0xFF87FFFF 0xA6800000 (.sfnop (w.extractLsb' 21 2) (w.extractLsb' 19 2))
  | _ => .error .unassigned

/-- The opcode map of the system words, ENG 110 (R268, R273). -/
def decodeSystem (w : W32) : Nat → Except DecodeError Instr
  | 0x00 => fixed w 0xFFFC0F80 0xC0000000 (.trap (w.extractLsb' 13 5) (w.extractLsb' 12 1) (w.extractLsb' 0 7))
  | 0x01 => fixed w 0xFFFFFFFF 0xC0800000 .trapret
  | 0x02 => fixed w 0xFF800FFF 0xC1000000 (.install (w.extractLsb' 18 5) (w.extractLsb' 13 5) (w.extractLsb' 12 1))
  | 0x03 => fixed w 0xFFFF0000 0xC1800000 (.phint (w.extractLsb' 0 16))
  | 0x04 => fixed w 0xFFFFFFFE 0xC2000000 (.pfence (w.extractLsb' 0 1))
  | 0x05 => fixed w 0xFFFFFFE0 0xC2800000 (.fence (w.extractLsb' 2 3) (w.extractLsb' 0 2))
  | 0x06 => fixed w 0xFFFFFFFF 0xC3000000 .qsync
  | 0x07 => fixed w 0xFFFFFFFF 0xC3800000 .tcommit
  | 0x08 => fixed w 0xFFFFFFFF 0xC4000000 .tend
  | 0x09 => fixed w 0xFFFFFF00 0xC4800000 (.tabort (w.extractLsb' 0 8))
  | 0x0A => fixed w 0xFF800FFF 0xC5000000 (.pswap (w.extractLsb' 18 5) (w.extractLsb' 13 5) (w.extractLsb' 12 1))
  | 0x0B => if w.getLsbD 0 then fixed w 0xFF800FFF 0xC5800001 (.kickR (w.extractLsb' 18 5) (w.extractLsb' 13 5) (w.extractLsb' 12 1))
            else fixed w 0xFF800FFF 0xC5800000 (.kick (w.extractLsb' 18 5) (w.extractLsb' 13 5) (w.extractLsb' 12 1))
  | 0x0C => fixed w 0xFF80003F 0xC6000000 (.nwait (w.extractLsb' 18 5) (w.extractLsb' 13 5) (w.extractLsb' 12 1) (w.extractLsb' 7 5) (w.extractLsb' 6 1))
  | 0x0D => fixed w 0xFF803800 0xC6800000 (.barinit (w.extractLsb' 18 5) (w.extractLsb' 14 4) (w.extractLsb' 10 1) (w.extractLsb' 0 10))
  | 0x0E => fixed w 0xFF803800 0xC7000000 (.barexp (w.extractLsb' 18 5) (w.extractLsb' 14 4) (w.extractLsb' 10 1) (w.extractLsb' 0 10))
  | 0x0F => fixed w 0xFF803800 0xC7800000 (.barwait (w.extractLsb' 18 5) (w.extractLsb' 14 4) (w.extractLsb' 10 1) (w.extractLsb' 0 10))
  | 0x10 => fixed w 0xFF803800 0xC8000000 (.snapc (w.extractLsb' 18 5) (w.extractLsb' 14 4) (w.extractLsb' 10 1) (w.extractLsb' 0 10))
  | 0x11 => fixed w 0xFF83F000 0xC8800000 (.opreq (w.extractLsb' 18 5) (w.extractLsb' 0 12))
  | 0x12 => fixed w 0xFF83FFFF 0xC9000000 (.curtq (w.extractLsb' 18 5))
  | 0x13 => fixed w 0xFF83FFFF 0xC9800000 (.rdtime (w.extractLsb' 18 5))
  | 0x14 => fixed w 0xFF83F000 0xCA000000 (.rdengy (w.extractLsb' 18 5) (w.extractLsb' 0 12))
  | 0x15 => fixed w 0xFF80003F 0xCA800000 (.dhops (w.extractLsb' 18 5) (w.extractLsb' 13 5) (w.extractLsb' 12 1) (w.extractLsb' 7 5) (w.extractLsb' 6 1))
  | 0x16 => fixed w 0xFF80003F 0xCB000000 (.vdmap (w.extractLsb' 18 5) (w.extractLsb' 13 5) (w.extractLsb' 12 1) (w.extractLsb' 7 5) (w.extractLsb' 6 1))
  | 0x17 => fixed w 0xFF803800 0xCB800000 (.coll (w.extractLsb' 18 5) (w.extractLsb' 14 4) (w.extractLsb' 10 1) (w.extractLsb' 0 10))
  | 0x18 => fixed w 0xFFFFF000 0xCC000000 (.idle (w.extractLsb' 0 12))
  | 0x19 => fixed w 0xFFFC0F80 0xCC800000 (.ecall (w.extractLsb' 13 5) (w.extractLsb' 12 1) (w.extractLsb' 0 7))
  | _ => .error .unassigned

/-- The opcode map of the prefix words, ENG 111 with bit 28 clear (R268, R273). -/
def decodePrefixWord (w : W32) : Nat → Except DecodeError Instr
  | 0x00 => fixed w 0xFF803FFF 0xE0000000 (.rep (w.extractLsb' 17 6) (w.extractLsb' 16 1) (w.extractLsb' 15 1) (w.extractLsb' 14 1))
  | 0x01 => fixed w 0xFF87FFFF 0xE0800000 (.pred (w.extractLsb' 20 3) (w.extractLsb' 19 1))
  | _ => .error .unassigned

/-- The row that the engine and opcode fields select, with its fixed bits checked. -/
def decodeRow (w : W32) : Except DecodeError Instr :=
  let op := (w.extractLsb' 23 6).toNat
  match (w.extractLsb' 29 3).toNat with
  | 0 => decodeControl w op
  | 1 => decodeLoad w op
  | 2 => decodeStore w op
  | 3 => decodeMatrix w op
  | 4 => decodeVector w op
  | 5 => decodeSpecial w op
  | 6 => decodeSystem w op
  | _ => if w.getLsbD 28 then fixed w 0xFF000000 0xF0000000 (.exti (w.extractLsb' 0 24)) else decodePrefixWord w op

/-- The decoder: the row of the word, with the values of its fields checked (R260). -/
def decode (w : W32) : Except DecodeError Instr :=
  match decodeRow w with
  | .error e => .error e
  | .ok i => if i.wf then .ok i else .error .badField

/-- The word that four little-endian bytes hold (R258). -/
def wordOfBytes (l : List Byte) : W32 := BitVec.ofNat 32 (leNat l)

/-- The instruction that the decoder reads from a row's bits, laid out as its word in memory; rows without bits have none. -/
def decodeTableWord (nbits w : Nat) : Option Instr :=
  if nbits = 32 then
    match decode (wordOfBytes (leBytes 4 w)) with
    | .ok i => some i
    | .error _ => none
  else none

/-- The word of an instruction, from the formats and the opcode map; an event has none. -/
def encode : Instr → Option W32
  | .add d s l t m => some (BitVec.ofNat 32 (0x00000000 + d.toNat * 0x40000 + s.toNat * 0x2000 + l.toNat * 0x1000 + t.toNat * 0x80 + m.toNat * 0x40))
  | .addi d s l i => some (BitVec.ofNat 32 (0x00800000 + d.toNat * 0x40000 + s.toNat * 0x2000 + l.toNat * 0x1000 + i.toNat))
  | .sub d s l t m => some (BitVec.ofNat 32 (0x01000000 + d.toNat * 0x40000 + s.toNat * 0x2000 + l.toNat * 0x1000 + t.toNat * 0x80 + m.toNat * 0x40))
  | .mul d s l t m => some (BitVec.ofNat 32 (0x01800000 + d.toNat * 0x40000 + s.toNat * 0x2000 + l.toNat * 0x1000 + t.toNat * 0x80 + m.toNat * 0x40))
  | .mulhs d s l t m => some (BitVec.ofNat 32 (0x02000000 + d.toNat * 0x40000 + s.toNat * 0x2000 + l.toNat * 0x1000 + t.toNat * 0x80 + m.toNat * 0x40))
  | .mulhu d s l t m => some (BitVec.ofNat 32 (0x02800000 + d.toNat * 0x40000 + s.toNat * 0x2000 + l.toNat * 0x1000 + t.toNat * 0x80 + m.toNat * 0x40))
  | .divs d s l t m => some (BitVec.ofNat 32 (0x03000000 + d.toNat * 0x40000 + s.toNat * 0x2000 + l.toNat * 0x1000 + t.toNat * 0x80 + m.toNat * 0x40))
  | .divu d s l t m => some (BitVec.ofNat 32 (0x03800000 + d.toNat * 0x40000 + s.toNat * 0x2000 + l.toNat * 0x1000 + t.toNat * 0x80 + m.toNat * 0x40))
  | .rems d s l t m => some (BitVec.ofNat 32 (0x04000000 + d.toNat * 0x40000 + s.toNat * 0x2000 + l.toNat * 0x1000 + t.toNat * 0x80 + m.toNat * 0x40))
  | .remu d s l t m => some (BitVec.ofNat 32 (0x04800000 + d.toNat * 0x40000 + s.toNat * 0x2000 + l.toNat * 0x1000 + t.toNat * 0x80 + m.toNat * 0x40))
  | .and d s l t m => some (BitVec.ofNat 32 (0x05000000 + d.toNat * 0x40000 + s.toNat * 0x2000 + l.toNat * 0x1000 + t.toNat * 0x80 + m.toNat * 0x40))
  | .andi d s l i => some (BitVec.ofNat 32 (0x05800000 + d.toNat * 0x40000 + s.toNat * 0x2000 + l.toNat * 0x1000 + i.toNat))
  | .or d s l t m => some (BitVec.ofNat 32 (0x06000000 + d.toNat * 0x40000 + s.toNat * 0x2000 + l.toNat * 0x1000 + t.toNat * 0x80 + m.toNat * 0x40))
  | .ori d s l i => some (BitVec.ofNat 32 (0x06800000 + d.toNat * 0x40000 + s.toNat * 0x2000 + l.toNat * 0x1000 + i.toNat))
  | .xor d s l t m => some (BitVec.ofNat 32 (0x07000000 + d.toNat * 0x40000 + s.toNat * 0x2000 + l.toNat * 0x1000 + t.toNat * 0x80 + m.toNat * 0x40))
  | .xori d s l i => some (BitVec.ofNat 32 (0x07800000 + d.toNat * 0x40000 + s.toNat * 0x2000 + l.toNat * 0x1000 + i.toNat))
  | .shl d s l t m => some (BitVec.ofNat 32 (0x08000000 + d.toNat * 0x40000 + s.toNat * 0x2000 + l.toNat * 0x1000 + t.toNat * 0x80 + m.toNat * 0x40))
  | .shli d s l i => some (BitVec.ofNat 32 (0x08800000 + d.toNat * 0x40000 + s.toNat * 0x2000 + l.toNat * 0x1000 + i.toNat))
  | .shr d s l t m => some (BitVec.ofNat 32 (0x09000000 + d.toNat * 0x40000 + s.toNat * 0x2000 + l.toNat * 0x1000 + t.toNat * 0x80 + m.toNat * 0x40))
  | .shri d s l i => some (BitVec.ofNat 32 (0x09800000 + d.toNat * 0x40000 + s.toNat * 0x2000 + l.toNat * 0x1000 + i.toNat))
  | .sar d s l t m => some (BitVec.ofNat 32 (0x0A000000 + d.toNat * 0x40000 + s.toNat * 0x2000 + l.toNat * 0x1000 + t.toNat * 0x80 + m.toNat * 0x40))
  | .sari d s l i => some (BitVec.ofNat 32 (0x0A800000 + d.toNat * 0x40000 + s.toNat * 0x2000 + l.toNat * 0x1000 + i.toNat))
  | .min d s l t m => some (BitVec.ofNat 32 (0x0B000000 + d.toNat * 0x40000 + s.toNat * 0x2000 + l.toNat * 0x1000 + t.toNat * 0x80 + m.toNat * 0x40))
  | .max d s l t m => some (BitVec.ofNat 32 (0x0B800000 + d.toNat * 0x40000 + s.toNat * 0x2000 + l.toNat * 0x1000 + t.toNat * 0x80 + m.toNat * 0x40))
  | .minu d s l t m => some (BitVec.ofNat 32 (0x0C000000 + d.toNat * 0x40000 + s.toNat * 0x2000 + l.toNat * 0x1000 + t.toNat * 0x80 + m.toNat * 0x40))
  | .maxu d s l t m => some (BitVec.ofNat 32 (0x0C800000 + d.toNat * 0x40000 + s.toNat * 0x2000 + l.toNat * 0x1000 + t.toNat * 0x80 + m.toNat * 0x40))
  | .clz d s l => some (BitVec.ofNat 32 (0x0D000000 + d.toNat * 0x40000 + s.toNat * 0x2000 + l.toNat * 0x1000))
  | .ctz d s l => some (BitVec.ofNat 32 (0x0D800000 + d.toNat * 0x40000 + s.toNat * 0x2000 + l.toNat * 0x1000))
  | .popc d s l => some (BitVec.ofNat 32 (0x0E000000 + d.toNat * 0x40000 + s.toNat * 0x2000 + l.toNat * 0x1000))
  | .ldi d i => some (BitVec.ofNat 32 (0x0E800000 + d.toNat * 0x40000 + i.toNat))
  | .ldhi d i => some (BitVec.ofNat 32 (0x0F000000 + d.toNat * 0x40000 + i.toNat))
  | .sel d s l t m p => some (BitVec.ofNat 32 (0x0F800000 + d.toNat * 0x40000 + s.toNat * 0x2000 + l.toNat * 0x1000 + t.toNat * 0x80 + m.toNat * 0x40 + p.toNat))
  | .cmp p s l t m c => some (BitVec.ofNat 32 (0x10000000 + p.toNat * 0x40000 + s.toNat * 0x2000 + l.toNat * 0x1000 + t.toNat * 0x80 + m.toNat * 0x40 + c.toNat))
  | .cmpi p c s l i => some (BitVec.ofNat 32 (0x10800000 + p.toNat * 0x100000 + c.toNat * 0x10000 + s.toNat * 0x800 + l.toNat * 0x400 + i.toNat))
  | .pset d s t o => some (BitVec.ofNat 32 (0x11000000 + d.toNat * 0x40000 + s.toNat * 0x2000 + t.toNat * 0x80 + o.toNat))
  | .br p n o => some (BitVec.ofNat 32 (0x11800000 + p.toNat * 0x100000 + n.toNat * 0x80000 + o.toNat))
  | .jmp s l => some (BitVec.ofNat 32 (0x12000000 + s.toNat * 0x2000 + l.toNat * 0x1000))
  | .call d o => some (BitVec.ofNat 32 (0x12800000 + d.toNat * 0x40000 + o.toNat))
  | .ret s l => some (BitVec.ofNat 32 (0x13000000 + s.toNat * 0x2000 + l.toNat * 0x1000))
  | .dbnz d o => some (BitVec.ofNat 32 (0x13800000 + d.toNat * 0x40000 + o.toNat))
  | .lds d h z x k o => some (BitVec.ofNat 32 (0x14000000 + d.toNat * 0x40000 + h.toNat * 0x4000 + z.toNat * 0x1000 + x.toNat * 0x800 + k.toNat * 0x400 + o.toNat))
  | .sts d h z k o => some (BitVec.ofNat 32 (0x14800000 + d.toNat * 0x40000 + h.toNat * 0x4000 + z.toNat * 0x1000 + k.toNat * 0x400 + o.toNat))
  | .xlate h s l t r => some (BitVec.ofNat 32 (0x15000000 + h.toNat * 0x40000 + s.toNat * 0x2000 + l.toNat * 0x1000 + t.toNat * 0x80 + r.toNat))
  | .hwait h => some (BitVec.ofNat 32 (0x15800000 + h.toNat * 0x40000))
  | .hrel h => some (BitVec.ofNat 32 (0x16000000 + h.toNat * 0x40000))
  | .emit s l => some (BitVec.ofNat 32 (0x16800000 + s.toNat * 0x2000 + l.toNat * 0x1000))
  | .emitWithPrefix s l t m => some (BitVec.ofNat 32 (0x16800001 + s.toNat * 0x2000 + l.toNat * 0x1000 + t.toNat * 0x80 + m.toNat * 0x40))
  | .waitt c p => some (BitVec.ofNat 32 (0x17000000 + c.toNat * 0x10 + p.toNat))
  | .sigt c p => some (BitVec.ofNat 32 (0x17800000 + c.toNat * 0x10 + p.toNat))
  | .tkcnt d p => some (BitVec.ofNat 32 (0x18000000 + d.toNat * 0x40000 + p.toNat))
  | .join d h k o => some (BitVec.ofNat 32 (0x18800000 + d.toNat * 0x40000 + h.toNat * 0x4000 + k.toNat * 0x400 + o.toNat))
  | .leave h k o => some (BitVec.ofNat 32 (0x19000000 + h.toNat * 0x4000 + k.toNat * 0x400 + o.toNat))
  | .gbar h k o => some (BitVec.ofNat 32 (0x19800000 + h.toNat * 0x4000 + k.toNat * 0x400 + o.toNat))
  | .ginfo d h k o => some (BitVec.ofNat 32 (0x1A000000 + d.toNat * 0x40000 + h.toNat * 0x4000 + k.toNat * 0x400 + o.toNat))
  | .rdcsr d c => some (BitVec.ofNat 32 (0x1A800000 + d.toNat * 0x40000 + c.toNat))
  | .wrcsr s l c => some (BitVec.ofNat 32 (0x1B000000 + s.toNat * 0x2000 + l.toNat * 0x1000 + c.toNat))
  | .csrs s l c => some (BitVec.ofNat 32 (0x1B800000 + s.toNat * 0x2000 + l.toNat * 0x1000 + c.toNat))
  | .csrc s l c => some (BitVec.ofNat 32 (0x1C000000 + s.toNat * 0x2000 + l.toNat * 0x1000 + c.toNat))
  | .trap s l c => some (BitVec.ofNat 32 (0xC0000000 + s.toNat * 0x2000 + l.toNat * 0x1000 + c.toNat))
  | .trapret => some (BitVec.ofNat 32 (0xC0800000))
  | .install d s l => some (BitVec.ofNat 32 (0xC1000000 + d.toNat * 0x40000 + s.toNat * 0x2000 + l.toNat * 0x1000))
  | .phint i => some (BitVec.ofNat 32 (0xC1800000 + i.toNat))
  | .pfence c => some (BitVec.ofNat 32 (0xC2000000 + c.toNat))
  | .fence k e => some (BitVec.ofNat 32 (0xC2800000 + k.toNat * 0x4 + e.toNat))
  | .qsync => some (BitVec.ofNat 32 (0xC3000000))
  | .tcommit => some (BitVec.ofNat 32 (0xC3800000))
  | .tend => some (BitVec.ofNat 32 (0xC4000000))
  | .tabort c => some (BitVec.ofNat 32 (0xC4800000 + c.toNat))
  | .pswap d s l => some (BitVec.ofNat 32 (0xC5000000 + d.toNat * 0x40000 + s.toNat * 0x2000 + l.toNat * 0x1000))
  | .kick d s l => some (BitVec.ofNat 32 (0xC5800000 + d.toNat * 0x40000 + s.toNat * 0x2000 + l.toNat * 0x1000))
  | .kickR d s l => some (BitVec.ofNat 32 (0xC5800001 + d.toNat * 0x40000 + s.toNat * 0x2000 + l.toNat * 0x1000))
  | .nwait d s l t m => some (BitVec.ofNat 32 (0xC6000000 + d.toNat * 0x40000 + s.toNat * 0x2000 + l.toNat * 0x1000 + t.toNat * 0x80 + m.toNat * 0x40))
  | .barinit d h k o => some (BitVec.ofNat 32 (0xC6800000 + d.toNat * 0x40000 + h.toNat * 0x4000 + k.toNat * 0x400 + o.toNat))
  | .barexp d h k o => some (BitVec.ofNat 32 (0xC7000000 + d.toNat * 0x40000 + h.toNat * 0x4000 + k.toNat * 0x400 + o.toNat))
  | .barwait d h k o => some (BitVec.ofNat 32 (0xC7800000 + d.toNat * 0x40000 + h.toNat * 0x4000 + k.toNat * 0x400 + o.toNat))
  | .snapc d h k o => some (BitVec.ofNat 32 (0xC8000000 + d.toNat * 0x40000 + h.toNat * 0x4000 + k.toNat * 0x400 + o.toNat))
  | .opreq d i => some (BitVec.ofNat 32 (0xC8800000 + d.toNat * 0x40000 + i.toNat))
  | .curtq d => some (BitVec.ofNat 32 (0xC9000000 + d.toNat * 0x40000))
  | .rdtime d => some (BitVec.ofNat 32 (0xC9800000 + d.toNat * 0x40000))
  | .rdengy d i => some (BitVec.ofNat 32 (0xCA000000 + d.toNat * 0x40000 + i.toNat))
  | .dhops d s l t m => some (BitVec.ofNat 32 (0xCA800000 + d.toNat * 0x40000 + s.toNat * 0x2000 + l.toNat * 0x1000 + t.toNat * 0x80 + m.toNat * 0x40))
  | .vdmap d s l t m => some (BitVec.ofNat 32 (0xCB000000 + d.toNat * 0x40000 + s.toNat * 0x2000 + l.toNat * 0x1000 + t.toNat * 0x80 + m.toNat * 0x40))
  | .coll d h k o => some (BitVec.ofNat 32 (0xCB800000 + d.toNat * 0x40000 + h.toNat * 0x4000 + k.toNat * 0x400 + o.toNat))
  | .idle i => some (BitVec.ofNat 32 (0xCC000000 + i.toNat))
  | .ecall s l c => some (BitVec.ofNat 32 (0xCC800000 + s.toNat * 0x2000 + l.toNat * 0x1000 + c.toNat))
  | .rep n d s t => some (BitVec.ofNat 32 (0xE0000000 + n.toNat * 0x20000 + d.toNat * 0x10000 + s.toNat * 0x8000 + t.toNat * 0x4000))
  | .pred p v => some (BitVec.ofNat 32 (0xE0800000 + p.toNat * 0x100000 + v.toNat * 0x80000))
  | .exti i => some (BitVec.ofNat 32 (0xF0000000 + i.toNat))
  | .ld w e h x y t k z i => some (BitVec.ofNat 32 (0x20000000 + w.toNat * 0x200000 + e.toNat * 0x80000 + h.toNat * 0x8000 + x.toNat * 0x1000 + y.toNat * 0x800 + t.toNat * 0x80 + k.toNat * 0x40 + z.toNat * 0x8 + i.toNat))
  | .ldx w e h x y t q c => some (BitVec.ofNat 32 (0x20800000 + w.toNat * 0x200000 + e.toNat * 0x80000 + h.toNat * 0x8000 + x.toNat * 0x1000 + y.toNat * 0x800 + t.toNat * 0x80 + q.toNat * 0x8 + c.toNat))
  | .ldsc w e h x y t z m => some (BitVec.ofNat 32 (0x21000040 + w.toNat * 0x200000 + e.toNat * 0x80000 + h.toNat * 0x8000 + x.toNat * 0x1000 + y.toNat * 0x800 + t.toNat * 0x80 + z.toNat * 0x8 + m.toNat))
  | .ldbd w e h x y t => some (BitVec.ofNat 32 (0x21800000 + w.toNat * 0x200000 + e.toNat * 0x80000 + h.toNat * 0x8000 + x.toNat * 0x1000 + y.toNat * 0x800 + t.toNat * 0x80))
  | .lsub w e h x y t => some (BitVec.ofNat 32 (0x22000000 + w.toNat * 0x200000 + e.toNat * 0x80000 + h.toNat * 0x8000 + x.toNat * 0x1000 + y.toNat * 0x800 + t.toNat * 0x80))
  | .lunsub w e d => some (BitVec.ofNat 32 (0x22800000 + w.toNat * 0x200000 + e.toNat * 0x80000 + d.toNat * 0x8000))
  | .qbind w e d s l z => some (BitVec.ofNat 32 (0x23000000 + w.toNat * 0x200000 + e.toNat * 0x80000 + d.toNat * 0x8000 + s.toNat * 0x800 + l.toNat * 0x400 + z.toNat))
  | .qfree w e d => some (BitVec.ofNat 32 (0x23800000 + w.toNat * 0x200000 + e.toNat * 0x80000 + d.toNat * 0x8000))
  | .splk w e h x y t z n i => some (BitVec.ofNat 32 (0x24000040 + w.toNat * 0x200000 + e.toNat * 0x80000 + h.toNat * 0x8000 + x.toNat * 0x1000 + y.toNat * 0x800 + t.toNat * 0x80 + z.toNat * 0x8 + n.toNat * 0x2 + i.toNat))
  | .pfetch w e h x y z m => some (BitVec.ofNat 32 (0x24800000 + w.toNat * 0x200000 + e.toNat * 0x80000 + h.toNat * 0x8000 + x.toNat * 0x1000 + y.toNat * 0x800 + z.toNat * 0x8 + m.toNat))
  | .xlatl w e h s l t r => some (BitVec.ofNat 32 (0x25000000 + w.toNat * 0x200000 + e.toNat * 0x80000 + h.toNat * 0x8000 + s.toNat * 0x800 + l.toNat * 0x400 + t.toNat * 0x40 + r.toNat))
  | .lmark w e d s l i => some (BitVec.ofNat 32 (0x25800000 + w.toNat * 0x200000 + e.toNat * 0x80000 + d.toNat * 0x8000 + s.toNat * 0x800 + l.toNat * 0x400 + i.toNat))
  | .lloop n c i => some (BitVec.ofNat 32 (0x26000000 + n.toNat * 0x2000 + c.toNat * 0x800 + i.toNat))
  | .xmov w e d s l m => some (BitVec.ofNat 32 (0x26800000 + w.toNat * 0x200000 + e.toNat * 0x80000 + d.toNat * 0x8000 + s.toNat * 0x800 + l.toNat * 0x400 + m.toNat))
  | .xadd w e d s l t u => some (BitVec.ofNat 32 (0x27000000 + w.toNat * 0x200000 + e.toNat * 0x80000 + d.toNat * 0x8000 + s.toNat * 0x800 + l.toNat * 0x400 + t.toNat * 0x40 + u.toNat * 0x20))
  | .xaddi w e d s l i => some (BitVec.ofNat 32 (0x27800000 + w.toNat * 0x200000 + e.toNat * 0x80000 + d.toNat * 0x8000 + s.toNat * 0x800 + l.toNat * 0x400 + i.toNat))
  | .xshl w e d s l i => some (BitVec.ofNat 32 (0x28000000 + w.toNat * 0x200000 + e.toNat * 0x80000 + d.toNat * 0x8000 + s.toNat * 0x800 + l.toNat * 0x400 + i.toNat))
  | .lnop w e => some (BitVec.ofNat 32 (0x28800000 + w.toNat * 0x200000 + e.toNat * 0x80000))
  | .st w e h x y t z i => some (BitVec.ofNat 32 (0x40000040 + w.toNat * 0x200000 + e.toNat * 0x80000 + h.toNat * 0x8000 + x.toNat * 0x1000 + y.toNat * 0x800 + t.toNat * 0x80 + z.toNat * 0x8 + i.toNat))
  | .stx w e h x y t q c => some (BitVec.ofNat 32 (0x40800000 + w.toNat * 0x200000 + e.toNat * 0x80000 + h.toNat * 0x8000 + x.toNat * 0x1000 + y.toNat * 0x800 + t.toNat * 0x80 + q.toNat * 0x8 + c.toNat))
  | .stbd w e h x y t => some (BitVec.ofNat 32 (0x41000000 + w.toNat * 0x200000 + e.toNat * 0x80000 + h.toNat * 0x8000 + x.toNat * 0x1000 + y.toNat * 0x800 + t.toNat * 0x80))
  | .sunlk w e h x y t z n i => some (BitVec.ofNat 32 (0x41800040 + w.toNat * 0x200000 + e.toNat * 0x80000 + h.toNat * 0x8000 + x.toNat * 0x1000 + y.toNat * 0x800 + t.toNat * 0x80 + z.toNat * 0x8 + n.toNat * 0x2 + i.toNat))
  | .spull w e h x y g b k => some (BitVec.ofNat 32 (0x42000000 + w.toNat * 0x200000 + e.toNat * 0x80000 + h.toNat * 0x8000 + x.toNat * 0x1000 + y.toNat * 0x800 + g.toNat * 0x200 + b.toNat * 0x10 + k.toNat * 0x2))
  | .cwbr w e h x y z => some (BitVec.ofNat 32 (0x42800000 + w.toNat * 0x200000 + e.toNat * 0x80000 + h.toNat * 0x8000 + x.toNat * 0x1000 + y.toNat * 0x800 + z.toNat * 0x8))
  | .cinvr w e h x y z => some (BitVec.ofNat 32 (0x43000000 + w.toNat * 0x200000 + e.toNat * 0x80000 + h.toNat * 0x8000 + x.toNat * 0x1000 + y.toNat * 0x800 + z.toNat * 0x8))
  | .xcopy w e h x y t => some (BitVec.ofNat 32 (0x43800040 + w.toNat * 0x200000 + e.toNat * 0x80000 + h.toNat * 0x8000 + x.toNat * 0x1000 + y.toNat * 0x800 + t.toNat * 0x80))
  | .baradd w e h x y c => some (BitVec.ofNat 32 (0x44000000 + w.toNat * 0x200000 + e.toNat * 0x80000 + h.toNat * 0x8000 + x.toNat * 0x1000 + y.toNat * 0x800 + c.toNat * 0x80))
  | .smark w e d s l i => some (BitVec.ofNat 32 (0x44800000 + w.toNat * 0x200000 + e.toNat * 0x80000 + d.toNat * 0x8000 + s.toNat * 0x800 + l.toNat * 0x400 + i.toNat))
  | .sloop n c i => some (BitVec.ofNat 32 (0x45000000 + n.toNat * 0x2000 + c.toNat * 0x800 + i.toNat))
  | .xmovSt w e d s l m => some (BitVec.ofNat 32 (0x45800000 + w.toNat * 0x200000 + e.toNat * 0x80000 + d.toNat * 0x8000 + s.toNat * 0x800 + l.toNat * 0x400 + m.toNat))
  | .xaddSt w e d s l t u => some (BitVec.ofNat 32 (0x46000000 + w.toNat * 0x200000 + e.toNat * 0x80000 + d.toNat * 0x8000 + s.toNat * 0x800 + l.toNat * 0x400 + t.toNat * 0x40 + u.toNat * 0x20))
  | .xaddiSt w e d s l i => some (BitVec.ofNat 32 (0x46800000 + w.toNat * 0x200000 + e.toNat * 0x80000 + d.toNat * 0x8000 + s.toNat * 0x800 + l.toNat * 0x400 + i.toNat))
  | .xshlSt w e d s l i => some (BitVec.ofNat 32 (0x47000000 + w.toNat * 0x200000 + e.toNat * 0x80000 + d.toNat * 0x8000 + s.toNat * 0x800 + l.toNat * 0x400 + i.toNat))
  | .snop w e => some (BitVec.ofNat 32 (0x47800000 + w.toNat * 0x200000 + e.toNat * 0x80000))
  | .acas s w e h x y v q r k => some (BitVec.ofNat 32 (0x4E000000 + s.toNat * 0x800000 + w.toNat * 0x200000 + e.toNat * 0x80000 + h.toNat * 0x8000 + x.toNat * 0x1000 + y.toNat * 0x800 + v.toNat * 0x200 + q.toNat * 0x10 + r.toNat * 0x8 + k.toNat))
  | .amoAdd s w e h x y v q r k => some (BitVec.ofNat 32 (0x50000000 + s.toNat * 0x4000000 + w.toNat * 0x200000 + e.toNat * 0x80000 + h.toNat * 0x8000 + x.toNat * 0x1000 + y.toNat * 0x800 + v.toNat * 0x100 + q.toNat * 0x10 + r.toNat * 0x8 + k.toNat))
  | .amoFadd s w e h x y v q r k => some (BitVec.ofNat 32 (0x50800000 + s.toNat * 0x4000000 + w.toNat * 0x200000 + e.toNat * 0x80000 + h.toNat * 0x8000 + x.toNat * 0x1000 + y.toNat * 0x800 + v.toNat * 0x100 + q.toNat * 0x10 + r.toNat * 0x8 + k.toNat))
  | .amoMin s w e h x y v q r k => some (BitVec.ofNat 32 (0x51000000 + s.toNat * 0x4000000 + w.toNat * 0x200000 + e.toNat * 0x80000 + h.toNat * 0x8000 + x.toNat * 0x1000 + y.toNat * 0x800 + v.toNat * 0x100 + q.toNat * 0x10 + r.toNat * 0x8 + k.toNat))
  | .amoMax s w e h x y v q r k => some (BitVec.ofNat 32 (0x51800000 + s.toNat * 0x4000000 + w.toNat * 0x200000 + e.toNat * 0x80000 + h.toNat * 0x8000 + x.toNat * 0x1000 + y.toNat * 0x800 + v.toNat * 0x100 + q.toNat * 0x10 + r.toNat * 0x8 + k.toNat))
  | .amoAnd s w e h x y v q r k => some (BitVec.ofNat 32 (0x52000000 + s.toNat * 0x4000000 + w.toNat * 0x200000 + e.toNat * 0x80000 + h.toNat * 0x8000 + x.toNat * 0x1000 + y.toNat * 0x800 + v.toNat * 0x100 + q.toNat * 0x10 + r.toNat * 0x8 + k.toNat))
  | .amoOr s w e h x y v q r k => some (BitVec.ofNat 32 (0x52800000 + s.toNat * 0x4000000 + w.toNat * 0x200000 + e.toNat * 0x80000 + h.toNat * 0x8000 + x.toNat * 0x1000 + y.toNat * 0x800 + v.toNat * 0x100 + q.toNat * 0x10 + r.toNat * 0x8 + k.toNat))
  | .amoXor s w e h x y v q r k => some (BitVec.ofNat 32 (0x53000000 + s.toNat * 0x4000000 + w.toNat * 0x200000 + e.toNat * 0x80000 + h.toNat * 0x8000 + x.toNat * 0x1000 + y.toNat * 0x800 + v.toNat * 0x100 + q.toNat * 0x10 + r.toNat * 0x8 + k.toNat))
  | .amoSwap s w e h x y v q r k => some (BitVec.ofNat 32 (0x53800000 + s.toNat * 0x4000000 + w.toNat * 0x200000 + e.toNat * 0x80000 + h.toNat * 0x8000 + x.toNat * 0x1000 + y.toNat * 0x800 + v.toNat * 0x100 + q.toNat * 0x10 + r.toNat * 0x8 + k.toNat))
  | .lease w e => some (BitVec.ofNat 32 (0x60000000 + w.toNat * 0x200000 + e.toNat * 0x80000))
  | .unlease w e => some (BitVec.ofNat 32 (0x60800000 + w.toNat * 0x200000 + e.toNat * 0x80000))
  | .mtstart w e d s l => some (BitVec.ofNat 32 (0x61000000 + w.toNat * 0x200000 + e.toNat * 0x80000 + d.toNat * 0x8000 + s.toNat * 0x800 + l.toNat * 0x400))
  | .mma w e a g b f k => some (BitVec.ofNat 32 (0x61800000 + w.toNat * 0x200000 + e.toNat * 0x80000 + a.toNat * 0x10000 + g.toNat * 0x1000 + b.toNat * 0x8 + f.toNat * 0x4 + k.toNat * 0x2))
  | .mzero w e d => some (BitVec.ofNat 32 (0x62000000 + w.toNat * 0x200000 + e.toNat * 0x80000 + d.toNat * 0x8000))
  | .mdrain w e a g r k j s => some (BitVec.ofNat 32 (0x62800000 + w.toNat * 0x200000 + e.toNat * 0x80000 + a.toNat * 0x10000 + g.toNat * 0x1000 + r.toNat * 0x100 + k.toNat * 0x80 + j.toNat * 0x40 + s.toNat * 0x20))
  | .mrdb w e d s => some (BitVec.ofNat 32 (0x63000000 + w.toNat * 0x200000 + e.toNat * 0x80000 + d.toNat * 0x8000 + s.toNat * 0x800))
  | .msett w e d s l => some (BitVec.ofNat 32 (0x63800000 + w.toNat * 0x200000 + e.toNat * 0x80000 + d.toNat * 0x8000 + s.toNat * 0x800 + l.toNat * 0x400))
  | .mfte w e d s l => some (BitVec.ofNat 32 (0x64000000 + w.toNat * 0x200000 + e.toNat * 0x80000 + d.toNat * 0x8000 + s.toNat * 0x800 + l.toNat * 0x400))
  | .mftb w e c b => some (BitVec.ofNat 32 (0x64800000 + w.toNat * 0x200000 + e.toNat * 0x80000 + c.toNat * 0x10 + b.toNat))
  | .board w e s b => some (BitVec.ofNat 32 (0x65000000 + w.toNat * 0x200000 + e.toNat * 0x80000 + s.toNat * 0x10000 + b.toNat * 0x80))
  | .bwait w e s b => some (BitVec.ofNat 32 (0x65800000 + w.toNat * 0x200000 + e.toNat * 0x80000 + s.toNat * 0x10000 + b.toNat * 0x80))
  | .bdrop w e b => some (BitVec.ofNat 32 (0x66000000 + w.toNat * 0x200000 + e.toNat * 0x80000 + b.toNat * 0x80))
  | .bquery w e s b => some (BitVec.ofNat 32 (0x66800000 + w.toNat * 0x200000 + e.toNat * 0x80000 + s.toNat * 0x10000 + b.toNat * 0x80))
  | .mloop n c i => some (BitVec.ofNat 32 (0x67000000 + n.toNat * 0x2000 + c.toNat * 0x800 + i.toNat))
  | .mnop w e => some (BitVec.ofNat 32 (0x67800000 + w.toNat * 0x200000 + e.toNat * 0x80000))
  | .mxmode w e d m => some (BitVec.ofNat 32 (0x68000000 + w.toNat * 0x200000 + e.toNat * 0x80000 + d.toNat * 0x8000 + m.toNat))
  | .vsetc w e i => some (BitVec.ofNat 32 (0x80000000 + w.toNat * 0x200000 + e.toNat * 0x80000 + i.toNat))
  | .vadd w e d s l t u k p q => some (BitVec.ofNat 32 (0x80800000 + w.toNat * 0x200000 + e.toNat * 0x80000 + d.toNat * 0x8000 + s.toNat * 0x800 + l.toNat * 0x400 + t.toNat * 0x40 + u.toNat * 0x20 + k.toNat * 0x10 + p.toNat * 0x8 + q.toNat * 0x4))
  | .vsub w e d s l t u k p q => some (BitVec.ofNat 32 (0x81000000 + w.toNat * 0x200000 + e.toNat * 0x80000 + d.toNat * 0x8000 + s.toNat * 0x800 + l.toNat * 0x400 + t.toNat * 0x40 + u.toNat * 0x20 + k.toNat * 0x10 + p.toNat * 0x8 + q.toNat * 0x4))
  | .vmul w e d s l t u k p q => some (BitVec.ofNat 32 (0x81800000 + w.toNat * 0x200000 + e.toNat * 0x80000 + d.toNat * 0x8000 + s.toNat * 0x800 + l.toNat * 0x400 + t.toNat * 0x40 + u.toNat * 0x20 + k.toNat * 0x10 + p.toNat * 0x8 + q.toNat * 0x4))
  | .vfma w e d s l t u k p q => some (BitVec.ofNat 32 (0x82000000 + w.toNat * 0x200000 + e.toNat * 0x80000 + d.toNat * 0x8000 + s.toNat * 0x800 + l.toNat * 0x400 + t.toNat * 0x40 + u.toNat * 0x20 + k.toNat * 0x10 + p.toNat * 0x8 + q.toNat * 0x4))
  | .vmin w e d s l t u k p q => some (BitVec.ofNat 32 (0x82800000 + w.toNat * 0x200000 + e.toNat * 0x80000 + d.toNat * 0x8000 + s.toNat * 0x800 + l.toNat * 0x400 + t.toNat * 0x40 + u.toNat * 0x20 + k.toNat * 0x10 + p.toNat * 0x8 + q.toNat * 0x4))
  | .vmax w e d s l t u k p q => some (BitVec.ofNat 32 (0x83000000 + w.toNat * 0x200000 + e.toNat * 0x80000 + d.toNat * 0x8000 + s.toNat * 0x800 + l.toNat * 0x400 + t.toNat * 0x40 + u.toNat * 0x20 + k.toNat * 0x10 + p.toNat * 0x8 + q.toNat * 0x4))
  | .vabs w e d s l k p q => some (BitVec.ofNat 32 (0x83800000 + w.toNat * 0x200000 + e.toNat * 0x80000 + d.toNat * 0x8000 + s.toNat * 0x800 + l.toNat * 0x400 + k.toNat * 0x10 + p.toNat * 0x8 + q.toNat * 0x4))
  | .vneg w e d s l k p q => some (BitVec.ofNat 32 (0x84000000 + w.toNat * 0x200000 + e.toNat * 0x80000 + d.toNat * 0x8000 + s.toNat * 0x800 + l.toNat * 0x400 + k.toNat * 0x10 + p.toNat * 0x8 + q.toNat * 0x4))
  | .vscl w e d s l t u k p q => some (BitVec.ofNat 32 (0x84800000 + w.toNat * 0x200000 + e.toNat * 0x80000 + d.toNat * 0x8000 + s.toNat * 0x800 + l.toNat * 0x400 + t.toNat * 0x40 + u.toNat * 0x20 + k.toNat * 0x10 + p.toNat * 0x8 + q.toNat * 0x4))
  | .vrsum w e d s l k p q v => some (BitVec.ofNat 32 (0x85000000 + w.toNat * 0x200000 + e.toNat * 0x80000 + d.toNat * 0x8000 + s.toNat * 0x800 + l.toNat * 0x400 + k.toNat * 0x10 + p.toNat * 0x8 + q.toNat * 0x4 + v.toNat))
  | .vrmax w e d s l k p q v => some (BitVec.ofNat 32 (0x85800000 + w.toNat * 0x200000 + e.toNat * 0x80000 + d.toNat * 0x8000 + s.toNat * 0x800 + l.toNat * 0x400 + k.toNat * 0x10 + p.toNat * 0x8 + q.toNat * 0x4 + v.toNat))
  | .vrmin w e d s l k p q v => some (BitVec.ofNat 32 (0x86000000 + w.toNat * 0x200000 + e.toNat * 0x80000 + d.toNat * 0x8000 + s.toNat * 0x800 + l.toNat * 0x400 + k.toNat * 0x10 + p.toNat * 0x8 + q.toNat * 0x4 + v.toNat))
  | .vdot w e d s l t u k p q v => some (BitVec.ofNat 32 (0x86800000 + w.toNat * 0x200000 + e.toNat * 0x80000 + d.toNat * 0x8000 + s.toNat * 0x800 + l.toNat * 0x400 + t.toNat * 0x40 + u.toNat * 0x20 + k.toNat * 0x10 + p.toNat * 0x8 + q.toNat * 0x4 + v.toNat))
  | .vcmp w e d s l t u k p q v => some (BitVec.ofNat 32 (0x87000000 + w.toNat * 0x200000 + e.toNat * 0x80000 + d.toNat * 0x8000 + s.toNat * 0x800 + l.toNat * 0x400 + t.toNat * 0x40 + u.toNat * 0x20 + k.toNat * 0x10 + p.toNat * 0x8 + q.toNat * 0x4 + v.toNat))
  | .vselm w e d s l t u k p q => some (BitVec.ofNat 32 (0x87800000 + w.toNat * 0x200000 + e.toNat * 0x80000 + d.toNat * 0x8000 + s.toNat * 0x800 + l.toNat * 0x400 + t.toNat * 0x40 + u.toNat * 0x20 + k.toNat * 0x10 + p.toNat * 0x8 + q.toNat * 0x4))
  | .viadd w e d s l t u k p q v => some (BitVec.ofNat 32 (0x88000000 + w.toNat * 0x200000 + e.toNat * 0x80000 + d.toNat * 0x8000 + s.toNat * 0x800 + l.toNat * 0x400 + t.toNat * 0x40 + u.toNat * 0x20 + k.toNat * 0x10 + p.toNat * 0x8 + q.toNat * 0x4 + v.toNat))
  | .visub w e d s l t u k p q v => some (BitVec.ofNat 32 (0x88800000 + w.toNat * 0x200000 + e.toNat * 0x80000 + d.toNat * 0x8000 + s.toNat * 0x800 + l.toNat * 0x400 + t.toNat * 0x40 + u.toNat * 0x20 + k.toNat * 0x10 + p.toNat * 0x8 + q.toNat * 0x4 + v.toNat))
  | .vimul w e d s l t u k p q v => some (BitVec.ofNat 32 (0x89000000 + w.toNat * 0x200000 + e.toNat * 0x80000 + d.toNat * 0x8000 + s.toNat * 0x800 + l.toNat * 0x400 + t.toNat * 0x40 + u.toNat * 0x20 + k.toNat * 0x10 + p.toNat * 0x8 + q.toNat * 0x4 + v.toNat))
  | .vimin w e d s l t u k p q v => some (BitVec.ofNat 32 (0x89800000 + w.toNat * 0x200000 + e.toNat * 0x80000 + d.toNat * 0x8000 + s.toNat * 0x800 + l.toNat * 0x400 + t.toNat * 0x40 + u.toNat * 0x20 + k.toNat * 0x10 + p.toNat * 0x8 + q.toNat * 0x4 + v.toNat))
  | .vimax w e d s l t u k p q v => some (BitVec.ofNat 32 (0x8A000000 + w.toNat * 0x200000 + e.toNat * 0x80000 + d.toNat * 0x8000 + s.toNat * 0x800 + l.toNat * 0x400 + t.toNat * 0x40 + u.toNat * 0x20 + k.toNat * 0x10 + p.toNat * 0x8 + q.toNat * 0x4 + v.toNat))
  | .vand w e d s l t u k p q v => some (BitVec.ofNat 32 (0x8A800000 + w.toNat * 0x200000 + e.toNat * 0x80000 + d.toNat * 0x8000 + s.toNat * 0x800 + l.toNat * 0x400 + t.toNat * 0x40 + u.toNat * 0x20 + k.toNat * 0x10 + p.toNat * 0x8 + q.toNat * 0x4 + v.toNat * 0x2))
  | .vor w e d s l t u k p q v => some (BitVec.ofNat 32 (0x8B000000 + w.toNat * 0x200000 + e.toNat * 0x80000 + d.toNat * 0x8000 + s.toNat * 0x800 + l.toNat * 0x400 + t.toNat * 0x40 + u.toNat * 0x20 + k.toNat * 0x10 + p.toNat * 0x8 + q.toNat * 0x4 + v.toNat * 0x2))
  | .vxor w e d s l t u k p q v => some (BitVec.ofNat 32 (0x8B800000 + w.toNat * 0x200000 + e.toNat * 0x80000 + d.toNat * 0x8000 + s.toNat * 0x800 + l.toNat * 0x400 + t.toNat * 0x40 + u.toNat * 0x20 + k.toNat * 0x10 + p.toNat * 0x8 + q.toNat * 0x4 + v.toNat * 0x2))
  | .vshl w e d s l t u k p q v => some (BitVec.ofNat 32 (0x8C000000 + w.toNat * 0x200000 + e.toNat * 0x80000 + d.toNat * 0x8000 + s.toNat * 0x800 + l.toNat * 0x400 + t.toNat * 0x40 + u.toNat * 0x20 + k.toNat * 0x10 + p.toNat * 0x8 + q.toNat * 0x4 + v.toNat * 0x2))
  | .vshr w e d s l t u k p q v => some (BitVec.ofNat 32 (0x8C800000 + w.toNat * 0x200000 + e.toNat * 0x80000 + d.toNat * 0x8000 + s.toNat * 0x800 + l.toNat * 0x400 + t.toNat * 0x40 + u.toNat * 0x20 + k.toNat * 0x10 + p.toNat * 0x8 + q.toNat * 0x4 + v.toNat * 0x2))
  | .vsar w e d s l t u k p q v => some (BitVec.ofNat 32 (0x8D000000 + w.toNat * 0x200000 + e.toNat * 0x80000 + d.toNat * 0x8000 + s.toNat * 0x800 + l.toNat * 0x400 + t.toNat * 0x40 + u.toNat * 0x20 + k.toNat * 0x10 + p.toNat * 0x8 + q.toNat * 0x4 + v.toNat * 0x2))
  | .vcvt w e d s l t u k p q => some (BitVec.ofNat 32 (0x8D800000 + w.toNat * 0x200000 + e.toNat * 0x80000 + d.toNat * 0x8000 + s.toNat * 0x800 + l.toNat * 0x400 + t.toNat * 0x80 + u.toNat * 0x20 + k.toNat * 0x10 + p.toNat * 0x8 + q.toNat * 0x4))
  | .vqnt w e d s l t u k p q => some (BitVec.ofNat 32 (0x8E000000 + w.toNat * 0x200000 + e.toNat * 0x80000 + d.toNat * 0x8000 + s.toNat * 0x800 + l.toNat * 0x400 + t.toNat * 0x80 + u.toNat * 0x20 + k.toNat * 0x10 + p.toNat * 0x8 + q.toNat * 0x4))
  | .vdqnt w e d s l t u k p q => some (BitVec.ofNat 32 (0x8E800000 + w.toNat * 0x200000 + e.toNat * 0x80000 + d.toNat * 0x8000 + s.toNat * 0x800 + l.toNat * 0x400 + t.toNat * 0x80 + u.toNat * 0x20 + k.toNat * 0x10 + p.toNat * 0x8 + q.toNat * 0x4))
  | .vcopy w e d s l k p q v => some (BitVec.ofNat 32 (0x8F000000 + w.toNat * 0x200000 + e.toNat * 0x80000 + d.toNat * 0x8000 + s.toNat * 0x800 + l.toNat * 0x400 + k.toNat * 0x10 + p.toNat * 0x8 + q.toNat * 0x4 + v.toNat))
  | .vbcast w e d s l k p v => some (BitVec.ofNat 32 (0x8F800000 + w.toNat * 0x200000 + e.toNat * 0x80000 + d.toNat * 0x8000 + s.toNat * 0x800 + l.toNat * 0x400 + k.toNat * 0x10 + p.toNat * 0x8 + v.toNat))
  | .vtrn w e d s l t u k p v => some (BitVec.ofNat 32 (0x90000000 + w.toNat * 0x200000 + e.toNat * 0x80000 + d.toNat * 0x8000 + s.toNat * 0x800 + l.toNat * 0x400 + t.toNat * 0x40 + u.toNat * 0x20 + k.toNat * 0x10 + p.toNat * 0x8 + v.toNat))
  | .vgath w e d s l t u k p v => some (BitVec.ofNat 32 (0x90800000 + w.toNat * 0x200000 + e.toNat * 0x80000 + d.toNat * 0x8000 + s.toNat * 0x800 + l.toNat * 0x400 + t.toNat * 0x40 + u.toNat * 0x20 + k.toNat * 0x10 + p.toNat * 0x8 + v.toNat))
  | .vscat w e d s l t u k p q v => some (BitVec.ofNat 32 (0x91000000 + w.toNat * 0x200000 + e.toNat * 0x80000 + d.toNat * 0x8000 + s.toNat * 0x800 + l.toNat * 0x400 + t.toNat * 0x40 + u.toNat * 0x20 + k.toNat * 0x10 + p.toNat * 0x8 + q.toNat * 0x4 + v.toNat))
  | .vrand w e d t u k p v => some (BitVec.ofNat 32 (0x91800000 + w.toNat * 0x200000 + e.toNat * 0x80000 + d.toNat * 0x8000 + t.toNat * 0x40 + u.toNat * 0x20 + k.toNat * 0x10 + p.toNat * 0x8 + v.toNat))
  | .vdrop w e d s l t u k p q => some (BitVec.ofNat 32 (0x92000000 + w.toNat * 0x200000 + e.toNat * 0x80000 + d.toNat * 0x8000 + s.toNat * 0x800 + l.toNat * 0x400 + t.toNat * 0x80 + u.toNat * 0x20 + k.toNat * 0x10 + p.toNat * 0x8 + q.toNat * 0x4))
  | .aset w e d s l z => some (BitVec.ofNat 32 (0x92800000 + w.toNat * 0x200000 + e.toNat * 0x80000 + d.toNat * 0x8000 + s.toNat * 0x800 + l.toNat * 0x400 + z.toNat))
  | .amod w e d s l => some (BitVec.ofNat 32 (0x93000000 + w.toNat * 0x200000 + e.toNat * 0x80000 + d.toNat * 0x8000 + s.toNat * 0x800 + l.toNat * 0x400))
  | .astep w e d s l i => some (BitVec.ofNat 32 (0x93800000 + w.toNat * 0x200000 + e.toNat * 0x80000 + d.toNat * 0x8000 + s.toNat * 0x800 + l.toNat * 0x400 + i.toNat))
  | .amov w e d s l m => some (BitVec.ofNat 32 (0x94000000 + w.toNat * 0x200000 + e.toNat * 0x80000 + d.toNat * 0x8000 + s.toNat * 0x800 + l.toNat * 0x400 + m.toNat))
  | .vmovs w e d s l q r z => some (BitVec.ofNat 32 (0x94800000 + w.toNat * 0x200000 + e.toNat * 0x80000 + d.toNat * 0x8000 + s.toNat * 0x800 + l.toNat * 0x400 + q.toNat * 0x8 + r.toNat * 0x4 + z.toNat))
  | .vloop n c i => some (BitVec.ofNat 32 (0x95000000 + n.toNat * 0x2000 + c.toNat * 0x800 + i.toNat))
  | .vnop w e => some (BitVec.ofNat 32 (0x95800000 + w.toNat * 0x200000 + e.toNat * 0x80000))
  | .sexp2 w e d s l k p q => some (BitVec.ofNat 32 (0xA0000000 + w.toNat * 0x200000 + e.toNat * 0x80000 + d.toNat * 0x8000 + s.toNat * 0x800 + l.toNat * 0x400 + k.toNat * 0x10 + p.toNat * 0x8 + q.toNat * 0x4))
  | .slog2 w e d s l k p q => some (BitVec.ofNat 32 (0xA0800000 + w.toNat * 0x200000 + e.toNat * 0x80000 + d.toNat * 0x8000 + s.toNat * 0x800 + l.toNat * 0x400 + k.toNat * 0x10 + p.toNat * 0x8 + q.toNat * 0x4))
  | .sexp w e d s l k p q => some (BitVec.ofNat 32 (0xA1000000 + w.toNat * 0x200000 + e.toNat * 0x80000 + d.toNat * 0x8000 + s.toNat * 0x800 + l.toNat * 0x400 + k.toNat * 0x10 + p.toNat * 0x8 + q.toNat * 0x4))
  | .sln w e d s l k p q => some (BitVec.ofNat 32 (0xA1800000 + w.toNat * 0x200000 + e.toNat * 0x80000 + d.toNat * 0x8000 + s.toNat * 0x800 + l.toNat * 0x400 + k.toNat * 0x10 + p.toNat * 0x8 + q.toNat * 0x4))
  | .srcp w e d s l k p q => some (BitVec.ofNat 32 (0xA2000000 + w.toNat * 0x200000 + e.toNat * 0x80000 + d.toNat * 0x8000 + s.toNat * 0x800 + l.toNat * 0x400 + k.toNat * 0x10 + p.toNat * 0x8 + q.toNat * 0x4))
  | .sdiv w e d s l t u k p q => some (BitVec.ofNat 32 (0xA2800000 + w.toNat * 0x200000 + e.toNat * 0x80000 + d.toNat * 0x8000 + s.toNat * 0x800 + l.toNat * 0x400 + t.toNat * 0x40 + u.toNat * 0x20 + k.toNat * 0x10 + p.toNat * 0x8 + q.toNat * 0x4))
  | .ssqrt w e d s l k p q => some (BitVec.ofNat 32 (0xA3000000 + w.toNat * 0x200000 + e.toNat * 0x80000 + d.toNat * 0x8000 + s.toNat * 0x800 + l.toNat * 0x400 + k.toNat * 0x10 + p.toNat * 0x8 + q.toNat * 0x4))
  | .srsq w e d s l k p q => some (BitVec.ofNat 32 (0xA3800000 + w.toNat * 0x200000 + e.toNat * 0x80000 + d.toNat * 0x8000 + s.toNat * 0x800 + l.toNat * 0x400 + k.toNat * 0x10 + p.toNat * 0x8 + q.toNat * 0x4))
  | .stanh w e d s l k p q => some (BitVec.ofNat 32 (0xA4000000 + w.toNat * 0x200000 + e.toNat * 0x80000 + d.toNat * 0x8000 + s.toNat * 0x800 + l.toNat * 0x400 + k.toNat * 0x10 + p.toNat * 0x8 + q.toNat * 0x4))
  | .ssigm w e d s l k p q => some (BitVec.ofNat 32 (0xA4800000 + w.toNat * 0x200000 + e.toNat * 0x80000 + d.toNat * 0x8000 + s.toNat * 0x800 + l.toNat * 0x400 + k.toNat * 0x10 + p.toNat * 0x8 + q.toNat * 0x4))
  | .ssin w e d s l k p q => some (BitVec.ofNat 32 (0xA5000000 + w.toNat * 0x200000 + e.toNat * 0x80000 + d.toNat * 0x8000 + s.toNat * 0x800 + l.toNat * 0x400 + k.toNat * 0x10 + p.toNat * 0x8 + q.toNat * 0x4))
  | .scos w e d s l k p q => some (BitVec.ofNat 32 (0xA5800000 + w.toNat * 0x200000 + e.toNat * 0x80000 + d.toNat * 0x8000 + s.toNat * 0x800 + l.toNat * 0x400 + k.toNat * 0x10 + p.toNat * 0x8 + q.toNat * 0x4))
  | .serf w e d s l k p q => some (BitVec.ofNat 32 (0xA6000000 + w.toNat * 0x200000 + e.toNat * 0x80000 + d.toNat * 0x8000 + s.toNat * 0x800 + l.toNat * 0x400 + k.toNat * 0x10 + p.toNat * 0x8 + q.toNat * 0x4))
  | .sfnop w e => some (BitVec.ofNat 32 (0xA6800000 + w.toNat * 0x200000 + e.toNat * 0x80000))
  | .qpopRead _ _ => none
  | .xlateSettle _ _ => none
  | .walkComplete _ _ => none
  | .monitorRequeueTimeout _ => none
  | .shootdown => none
  | .shootdownCompletion => none
  | .engineWordFinish _ _ => none
  | .pendingPersistPoint _ => none
  | .imageComplete _ _ => none
  | .commitImageCopyDone _ _ => none
  | .writeThroughArrival _ _ => none
  | .flushMarkerAck _ _ => none
  | .barrierAddition _ => none
  | .queueElementArrival _ _ => none
  | .loaderSlotDelivery _ _ => none
  | .storerSlotWrite _ => none
  | .lapBoundary => none
  | .frameHeaderArrival _ => none
  | .frameLastFlitArrival _ _ _ => none
  | .leaseTimeout _ => none
  | .taskPlacement _ => none
  | .shadowFillDone _ => none
  | .effectiveClassAging _ => none
  | .deadlinePreemption _ => none
  | .preemptForcedSave _ => none
  | .graphReplayStart _ => none
  | .launchDoorbell _ _ _ => none
  | .launchRecord _ => none
  | .checkerMismatch _ => none
  | .fetchFault _ => none
  | .watchdog _ => none
  | .idleTimeout _ => none
  | .secdedFreezeEnd _ => none
  | .bankRebuildEnd _ _ => none
  | .hbmParityReread _ _ => none
  | .hbmLaneSwapResume _ _ => none
  | .eventQueueHeadWrite _ => none
  | .copyChunkDone _ => none
  | .curveDoorbell _ => none
  | .curveEntry => none
  | .gradeEvent => none
  | .pendAnnounce => none
  | .parkStopTimeout _ => none
  | .parkCopyDone _ => none
  | .suspendEvent => none
  | .resumeEvent => none
  | .fastLoop => none
  | .slowLoop => none
  | .exemptExpiry => none
  | .vcodeStepEnd _ => none
  | .fcodeHopEnd _ => none
  | .biasSettle _ => none
  | .permitRefill _ _ => none
  | .dieGate _ => none
  | .dieSwitchOn _ => none
  | .clusterSwitchOnRound _ => none
  | .parkListCopyDone _ => none
  | .hbmRetentionEntry _ => none
  | .energySample _ => none
  | .energyLowHalfRead _ _ => none
  | .energyHighHalfRead _ _ => none
  | .voltageSample _ _ => none
  | .vminRearm _ => none
  | .errorCounterClear _ _ => none
  | .onyxBlockMove _ _ => none
  | .droopTrip _ => none
  | .droopRecovery _ => none
  | .hopRetry _ => none
  | .vcoreFault _ => none
  | .clusterPowerLoss _ => none
  | .modulePowerLoss => none
  | .vauxPowerGood => none
  | .bootTimeout => none
  | .railPowerGoodTimeout _ => none
  | .recoveryDoorbell _ => none
  | .hostWrite _ _ _ => none
  | .hostRead _ _ _ => none
  | .flr _ => none
  | .registerWrite _ _ _ => none
  | .createContext => none
  | .destroyContext => none
  | .installLapTable => none
  | .parkList => none
  | .telemetryBuffer => none
  | .writeSlotTable => none
  | .savePool => none
  | .preEmptTask => none
  | .clearDegradedCore => none
  | .restoreSnapshotDomain => none
  | .setUpCommunicator => none
  | .cancelCollective => none
  | .suspendRequest => none
  | .resumeRequest => none
  | .writeCoreOwnership => none
  | .registerParkArea => none
  | .peerAccessArrival _ _ _ _ _ => none
  | .peerResponse _ _ => none
  | .peerTimeout _ => none
  | .peerRefusal _ => none
  | .ethPacketArrival _ _ _ _ _ => none
  | .ethAckArrival _ _ => none
  | .ethRetransmitTimeout _ _ => none
  | .collectiveChunkDone _ => none
  | .collectiveStall _ _ => none
  | .getVersion _ _ => none
  | .getCapabilities _ _ => none
  | .negotiateAlgorithms _ _ => none
  | .getDigests _ _ => none
  | .getCertificate _ _ => none
  | .challenge _ _ => none
  | .getMeasurements _ _ => none
  | .spdmUnsupportedRequest _ _ => none
  | .mboxSend _ => none
  | .engInit _ => none
  | .engAbsorb _ _ => none
  | .engDigest _ => none
  | .engClone _ _ => none
  | .engExtend _ => none
  | .engSign _ => none
  | .engRand _ => none
  | .engMblock _ => none
  | .engMove _ => none
  | .controlPathAccessPerforms _ _ => none
  | .hostCompletion _ => none
  | .birspArrival _ _ => none
  | .hbmScrub _ _ _ _ _ => none
  | .versionOverflowRequeue _ => none
  | .moduleReset => none
  | .railPowerGood _ => none

end Sys2Proof
end

