-- ==== Sys2Proof/Config.lean ====
section
/-! DEFINITION. What an implementation fixes and the spec leaves open. The opaque constants have no known value:
a statement holds whatever they are. -/

namespace Sys2Proof

/-- Free values: an unspecified value of the spec, one for each draw (log 4). -/
opaque Config.freeValue : Nat → BitVec 64

/-- The hash that picks a line's LLC slice (R83: not part of the architecture). -/
opaque Config.sliceHash : Nat → Nat

/-- The bytes of an image's records whose layout the spec keeps to the save engine (R93): image sequence number, record, position. -/
opaque Config.recordByte : Nat → Nat → Nat → BitVec 8

/-- Bytes of the random generator of Agate, by draw and position (R465). -/
opaque Config.drbg : Nat → Nat → BitVec 8

/-- Bytes of an ML-DSA-44 signature: key, context string, signed digest, position (R462, R465). -/
opaque Config.signByte : List (BitVec 8) → Nat → List (BitVec 8) → Nat → BitVec 8

/-- The attestation key derived from an identity seed (R462, R474). -/
opaque Config.attKey : Nat → List (BitVec 8)

/-- What the slow loop chooses of the means that SLOW leaves it, by draw and cluster; cluster 128 stands for the ring (R204). -/
opaque Config.slowChoice : Nat → Nat → BitVec 64

/-- What a byte of an HBM4 stack holds that has been off, by draw and address (R214). -/
opaque Config.lostByte : Nat → Nat → BitVec 8

/-- The vendor key in Agate's ROM (R472). -/
opaque Config.vendorKey : List (BitVec 8)

/-- The slot-0 certificate chain in module flash (R462). -/
opaque Config.certChain : List (BitVec 8)


/-- Digest of the ROM and of the microcode that start-up measures (R463, R474). -/
opaque Config.romDigest : Nat → BitVec 256

/-- Device time, in ns, that a step takes when no turn says otherwise (log 4). -/
def Config.tick : Nat := 1

end Sys2Proof
end

