-- ==== Sys2Proof/Machine/State.lean ====
section
/-! DEFINITION. The state of the module as plain data, the reasons a step can stop, and the state after reset. -/

namespace Sys2Proof.Machine

open Sys2Proof

/-- What stops the machine with a fault. -/
inductive Fault where
  /-- Raised by HOST_READ and HOST_WRITE at an address that no part of the map backs (R66, R445). Safe: the spec says that no access
  reaches such an address (R69) and gives a host access to it no effect. -/
  | unbackedAddress
  deriving DecidableEq, Repr

/-- Why a step has no meaning. -/
inductive Refusal where
  /-- Raised by an arm of exec that has no meaning yet. Safe: nothing is claimed of it. -/
  | notModelled (mnemonic : String)
  deriving DecidableEq, Repr

/-- The engine of a unit (R258, R419). -/
inductive Eng where
  | control | load | store | matrix | vector | special | system
  deriving DecidableEq, Repr

/-- The ENG code (R258). -/
def Eng.code : Eng → Nat
  | .control => 0 | .load => 1 | .store => 2 | .matrix => 3 | .vector => 4 | .special => 5 | .system => 6

/-- The four sequencers of a plane (R12, R132). -/
inductive Sq where
  | ctl | load | comp | store
  deriving DecidableEq, Repr

/-- What a sequencer waits for. The first seven are the waits of R439; the others wait on the machine itself. -/
inductive WaitKind where
  | token | queueHead | group | barrier | handle | nwait | boardAbsent
  | boarding | queueSpace | cmdQueue | slots | permit | lease | horizon | lock | performed | drain | idle | commit | ack | image | memory
  deriving DecidableEq, Repr

/-- A wait in progress and the device time at which it began. -/
structure Wait where
  kind : WaitKind
  since : Nat
  deriving DecidableEq, Repr

/-- A recorded cause: TRAP_CAUSE fields and TRAP_INFO (R48, R49, R419). -/
structure Cause where
  code : Nat
  sub : Nat
  info : Nat
  deriving DecidableEq, Repr

/-- A slot-ring subscription of a queue head (R144, R145, R147). -/
structure RingSub where
  pa : Nat            -- physical address of the descriptor
  slots : Nat
  ssize : Nat
  next : Nat          -- number of the slot being delivered, counted as PROD and CONS count, modulo 2^64
  ofs : Nat           -- bytes delivered of that slot
  done : Nat          -- number of the oldest slot not wholly consumed
  eaten : Nat         -- elements consumed of it
  deriving DecidableEq, Repr

/-- A queue head: its binding and its arrived elements (R37, R141). KIND 0 is unbound. -/
structure QHead where
  kind : Nat
  esz : Nat           -- log2 of the element bytes
  depth : Nat
  elems : List W
  flight : Nat        -- elements issued and not yet arrived
  sub : Option RingSub
  deriving DecidableEq, Repr

/-- The unbound queue head. -/
def QHead.unbound : QHead := { kind := 0, esz := 0, depth := 0, elems := [], flight := 0, sub := none }

/-- The last-use bits of a thread (R41, R42). -/
structure Freed where
  g : BitVec 32
  xl : BitVec 8
  xs : BitVec 8
  a : BitVec 16
  m : BitVec 16
  s : BitVec 8
  deriving DecidableEq, Repr

/-- The control state that a squash returns to its value at the faulting unit (R421). -/
structure Snap where
  g : Vector W 32
  p : BitVec 8
  h : Vector W 16
  hPoison : BitVec 16
  hLine : Vector Nat 16
  hSwm : BitVec 16
  hRq : Vector (BitVec 3) 16
  hVa : Vector W 16
  freed : Freed
  deriving DecidableEq, Repr

/-- An entry of an engine command queue: a unit with its prefix words, or a marker (R132). -/
structure QUnit where
  seq : Nat           -- steering order, over all engines of the thread
  pc : Nat            -- fetch address of its first word
  next : Nat          -- fetch address of the unit that follows it in fetch order
  pfx : List W32      -- prefix words, first one first
  word : W32
  marker : Bool       -- a QSYNC or atomic marker, not a word (R132)
  snap : Snap         -- control state at its place in fetch order
  snapN : Snap        -- control state at the unit that follows it
  rep : Nat           -- repeats run
  n : Nat             -- repeats in all, 1 without REP
  mask : Nat          -- step mask of REP: d 4, s1 2, s2 1
  begun : Bool        -- its present issue has started: its tokens are taken (R138)
  deriving DecidableEq, Repr

/-- An open loop of an engine sequencer (R36, R134, R320). -/
structure LoopRec where
  first : Nat         -- index of its first body word in the loop buffer
  len : Nat
  lc : Nat
  trip : Nat
  deriving DecidableEq, Repr

/-- A sequencer's loop buffer and open loops, outermost first (R134). -/
structure LoopBuf where
  buf : List QUnit
  need : Nat          -- body words still to capture
  opened : List LoopRec
  pos : Nat           -- index of the next body word
  seq : Nat           -- steering order of the outermost loop word
  deriving DecidableEq, Repr

/-- No loop open. -/
def LoopBuf.none : LoopBuf := { buf := [], need := 0, opened := [], pos := 0, seq := 0 }

/-- An entry of a retained window (R135): the word as issued, the register values it read, its performed bit and its recorded result. -/
structure WinEntry where
  seq : Nat
  pfx : List W32
  word : W32
  vals : List Nat
  performed : Bool
  res : List Nat      -- the result of a once-only effect that has performed
  deriving DecidableEq, Repr

/-- A tile replay under way (R358, R359): the slot, whether it is an AUTO re-issue, and the window entries still to re-issue. -/
structure TileReplay where
  acc : Nat
  auto : Bool
  left : List WinEntry
  deriving DecidableEq, Repr

/-- A word that has passed its handle check and waits for memory: its steering order and sequencer, and the handles as they were (R72). -/
structure Passed where
  seq : Nat
  sq : Sq
  h : Vector W 16
  deriving DecidableEq, Repr

/-- An engine word that has issued and not finished (R138, R317). -/
structure Flight where
  seq : Nat
  eng : Eng
  word : W32
  ts : Nat            -- TS bits to push when it finishes
  pfx : List W32
  next : Nat
  snap : Snap
  late : Option Cause -- a late fault to take when it finishes (R422)
  locks : List Nat    -- scratchpad lines whose lock drops when it finishes (R326)
  lines : Nat         -- its outstanding line requests (R140)
  flags : W32         -- the flags that it raises when it finishes (R376)
  writes : List (Nat × Nat) -- the byte ranges that it holds of the region interlock: first and last byte (R375)
  regs : List (Nat × Nat) -- the compute registers that it writes: 0 a, 1 m, 2 s, 3 eb, 4 vc, with the number (R440)
  deriving DecidableEq, Repr

/-- Elements travelling to a queue head (R141). -/
structure QFlight where
  q : Nat
  vals : List W
  seq : Nat
  deriving DecidableEq, Repr

/-- An outstanding access of the control path, which has passed its checks (R298). -/
structure CtlAcc where
  store : Bool
  d : Nat             -- destination register of a load
  pa : Nat
  n : Nat             -- bytes
  sx : Bool           -- the value of a load is sign-extended
  dat : Nat           -- what a store stores
  swm : Bool
  pc : Nat            -- fetch address of its unit
  seq : Nat           -- steering order of its word (R421)
  dead : Option Nat   -- steering order of a later word that has written d already (R282)
  deriving DecidableEq, Repr

/-- A handle write that settles 14 cycles after issue (R28, R299, R334). -/
structure Settle where
  h : Nat
  load : Bool         -- XLATL: the status goes to a load index register
  st : Nat            -- status register
  va : Nat
  rights : Nat
  hit : Option (Nat × Nat × Nat)  -- frame, page-size code, rights of the TLB entry found
  cancelled : Bool
  seq : Nat           -- steering order of the word that started it (R421)
  dead : Option Nat   -- steering order of a later word that has written the status register already (R282)
  deriving DecidableEq, Repr

/-- A membership entry (R307). -/
structure Member where
  pa : Nat
  idx : Nat
  eff : Nat
  last : Option Nat
  deriving DecidableEq, Repr

/-- The run-ahead record of one engine (R421). -/
structure RunAhead where
  count : Nat
  crc : BitVec 32
  crcNow : BitVec 32  -- the CRC of the units consumed so far
  words : List (List W32) -- the units still to consume, for a record formed anew
  deriving DecidableEq, Repr

/-- An empty run-ahead record. -/
def RunAhead.none : RunAhead := { count := 0, crc := 0#32, crcNow := 0xFFFFFFFF#32, words := [] }

/-- A loop resume: the kept loop and its engine, the PC that resumes it, the fetch address after the captured body (R478). -/
structure LoopResume where
  sq : Sq
  lp : LoopBuf
  pc : Nat
  after : Nat
  deriving DecidableEq, Repr

/-- A trap whose trap point is being formed (R421, R422). -/
structure TrapPend where
  seq : Nat           -- steering order of the unit F; units below it issue and finish first
  eng : Eng
  cause : Cause
  pc : Nat
  rep : Option (Nat × Nat × Nat) -- repeats remaining, step mask, repeats done (R50)
  snap : Snap
  keep : Option Sq    -- F issues from this sequencer's loop buffer (R478)
  after : Nat
  late : Bool         -- the cause is one after effects: F is the unit that follows (R422)
  deriving DecidableEq, Repr

/-- How a control word that takes several steps stands (R110, R310, R396, R404, R412). -/
structure Phase where
  stage : Nat
  arg : Nat
  arg2 : Nat
  acks : List Nat     -- flush-marker destinations still to acknowledge (R119)
  deriving DecidableEq, Repr

/-- No multi-step control word in progress. -/
def Phase.none : Phase := { stage := 0, arg := 0, arg2 := 0, acks := [] }

/-- The registers and the sequencer state of one plane (R24 to R56, R132 to R147, R421). -/
structure Thread where
  g : Vector W 32
  p : BitVec 8
  h : Vector W 16
  hPoison : BitVec 16 -- FAULTED handles marked as poisoned (R28, R70)
  hLine : Vector Nat 16 -- the line of the poisoned entry that each such handle's walk met (R419)
  hSwm : BitVec 16    -- handles whose page is software-managed (R120)
  hRq : Vector (BitVec 3) 16 -- the rights that each handle's translation asked for
  hVa : Vector W 16   -- the virtual address that each handle's walk translated (R419)
  xl : Vector W 8
  xs : Vector W 8
  a : Vector W 16
  m : Vector W 16
  s : Vector W 8
  vc : BitVec 16
  lcl : Vector W32 4
  lcc : Vector W32 4
  lcs : Vector W32 4
  q : Vector QHead 16
  eb : Vector W32 16
  freed : Freed
  status : W32
  trapCause : W
  trapPc : W
  trapTask : W
  trapInfo : W
  repState : W32
  handlerBase : W
  handlerRanges : List (Nat × Nat)
  flags : W32
  roundMode : W32
  boundCtl : W32
  dropSeed : W32
  fmtBase : W32
  ft : Vector W32 16
  pc : Nat
  pfx : List W32      -- prefix words collected for the next unit
  pfxPc : Nat
  repDone : Nat       -- repeats done of the control unit at pc
  repPc : Option Nat  -- address of the interrupted unit that REP_STATE is about (R50)
  seq : Nat           -- steering order of the next unit
  ldQ : List QUnit
  cpQ : List QUnit
  stQ : List QUnit
  lpL : LoopBuf
  lpC : LoopBuf
  lpS : LoopBuf
  winL : List WinEntry
  winC : List WinEntry
  winS : List WinEntry
  lostL : Bool        -- a retained window marked lost (R430)
  lostC : Bool
  lostS : Bool
  tok : Vector Nat 9
  flights : List Flight
  qflights : List QFlight
  ctlAcc : List CtlAcc
  settles : List Settle
  waitK : Option Wait
  waitL : Option Wait
  waitC : Option Wait
  waitS : Option Wait
  ph : Phase          -- of the control sequencer
  phS : Phase         -- of the store sequencer's word: a commit or a release before an effect (R113, R337)
  members : List Member
  hist : List (Nat × Sq × List W32) -- units issued while older ones wait, for the run-ahead record (R421)
  runL : RunAhead
  runC : RunAhead
  runS : RunAhead
  stopped : List (QUnit × Nat) -- transfers stopped at an element boundary, with the count delivered
  loopRes : List LoopResume -- the loops kept at the trap point (R478)
  trapPend : Option TrapPend
  async : List Cause
  locks : List Nat    -- held lock bits, as bank * 8 + H (R77, R78)
  claim : Bool        -- the thread claims the array lease (R344)
  task : Nat          -- uid of its task; 0 for none
  gangPos : Nat
  pendPersist : Option Nat -- a persist point awaits its window; its scope (R127)
  persistAt : Nat     -- start of the last persist point
  preempt : Option Nat -- a pre-emption request, and when it came (R434)
  parkStop : Option Nat -- a PARK stop, and when it came (R210)
  liveIdx : Option Nat -- liveness index of the PHINT at which the thread stands
  idleUntil : Option Nat
  permits : Nat       -- permits consumed in the present microsecond (R222)
  halted : Bool
  running : Bool      -- a thread holds the plane
  spadSave : List (Nat × Nat × List Host.Cell) -- scratchpad ranges to restore when the thread becomes active (R79, R406)
  spadBad : List Nat  -- the poisoned lines of those ranges (R100)
  ran : Option Nat    -- the cluster on which the thread last ran (R107)
  mtHold : Option Nat -- an MTSTART is held: the lease's passes across tenants when the hold began (R345)
  passed : List Passed
  tileRep : Option TileReplay
  deriving DecidableEq, Repr

/-- A line of the task's version (R84). -/
structure VLine where
  line : Nat
  mark : Nat
  dat : BitVec 512
  mask : BitVec 64
  swm : Bool
  wb : Bool           -- flagged by CWBR (R339)
  deriving DecidableEq, Repr

/-- An entry of the once-only log (R113). Kinds are those of REPLAY_MISMATCH (R419). -/
structure OnceEntry where
  kind : Nat
  pa : Nat
  ops : List Nat
  ret : Nat
  mark : Nat
  deriving DecidableEq, Repr

/-- A slot staged by SPULL and not published (R146, R331). -/
structure Staged where
  ring : Nat
  bar : Nat
  len : Nat
  dat : List Byte
  mark : Nat
  written : Bool
  pub : Bool          -- a commit instant has come: published once it is written
  slots : Nat         -- SLOTS and SSIZE as SPULL read them (R144)
  ssize : Nat
  pos : Nat           -- the gang position of the thread that issued it
  deriving DecidableEq, Repr

/-- A B-store subscription (R154, R363). -/
structure BSub where
  task : Nat
  pos : Nat
  layer : Nat
  kind : Nat
  tile : Nat
  n : Nat
  slot : Nat
  pitch : Nat
  fmt : Nat
  mseen : Bool        -- some slot has been MISSED since BOARD (R364)
  deriving DecidableEq, Repr

/-- An accumulator slot with its tile record (R80, R347). State 0 is CLOSED, 1 OPEN, 2 PARTNER; the low parts of an
extended tile are the tile of its partner slot. -/
structure AccSlot where
  st : Nat
  task : Nat
  pos : Nat           -- the gang position of the thread whose tile it is
  ext : Bool
  emax : Int
  ec : Int            -- checksum exponent (R255)
  kofs : Nat          -- k steps since MTSTART, modulo 2^32
  whole : Bool
  since : Nat         -- compute words issued since MTSTART (R136)
  guard : List (Nat × Nat × Nat) -- core, first and last byte of each scratchpad range read (R353)
  bread : List Nat    -- B-store slots read (R354)
  lastft : Nat
  tile : Tab W32      -- element (m, n) under key 256 m + n
  chk : Tab W32       -- checksum column, by row
  poison : Bool
  deriving DecidableEq, Repr

/-- A saved accumulator slot in an image, with its ab register (R63, R93). -/
structure AccImg where
  slot : Nat
  acc : AccSlot
  ab : W
  deriving DecidableEq, Repr

/-- A record of an image (R93): its KIND, its payload bytes, and whether what was written has its CRC still. IDX is its place in the list
and COUNT the list's length; SEQ and MARK are the image's. -/
structure ImgRec where
  kind : Nat
  len : Nat
  good : Bool
  deriving DecidableEq, Repr

/-- An image of a thread: what R63 carries, its sequence number, mark and records (R93). -/
structure Image where
  task : Nat
  id : Nat            -- the task's identifier (R437)
  seq : Nat
  mark : Nat
  cidx : Nat
  ref : Bool          -- a reference record: the launch itself (R92)
  done : Bool         -- every record has been written; false is torn or still being written
  core : Nat          -- the core in whose area, or from which, it was written
  recs : List ImgRec
  vers : Option (Nat × Nat) -- offset and count of its version records (KIND 6, R86)
  run : Option (Nat × Nat)  -- its bytes in the save pool: offset and length (R435)
  accLoc : Option Nat -- the location of the cluster area that takes its accumulator slots
  t : Option Thread
  spad : List (Nat × Nat × List Host.Cell) -- base, length and bytes of each range carried
  spadBad : List Nat  -- the poisoned lines among those ranges (R100)
  acc : List AccImg
  subs : List BSub
  deriving DecidableEq, Repr

/-- An operating-point row (R201). -/
structure OpRow where
  energy : Nat
  time : Nat
  vcode : Nat
  fcode : Nat
  bias : Int
  ftbase : Option Nat
  tiles : Option Nat
  key : Nat × Nat × Nat × Nat -- FB, FTBASE, TB and TILES as they stand (R202)
  ok : Bool
  deriving DecidableEq, Repr

/-- A task that a graph made ready (R172 to R176), with what its threads share. -/
structure Task where
  uid : Nat           -- the model's own number, one for each task made ready (log 15)
  id : Nat
  kicked : Bool       -- made ready by KICK: it completes nothing (R408)
  gen : Nat
  ctx : Nat
  die : Nat
  cls : Nat
  aged : Nat          -- classes by which waiting has lowered its class (R159)
  deadline : Nat      -- µs from readiness, 2^32 for none
  readyAt : Nat
  waitAt : Nat        -- when it last entered the ready queue, or its class last fell there (R159)
  image : Nat
  args : Nat
  gang : Bool
  gangGroup : Nat
  gangN : Nat
  state : Nat         -- 0 ready, 1 running, 2 parking, 3 parked, 4 shed, 5 requeue pending, 6 filling
  threads : List Nat
  started : Bool      -- it has begun; the threads of a gang issue only from then on (R178)
  vbudget : Nat
  lines : List VLine
  openMark : Nat
  sealedMarks : List Nat
  nextSeq : Nat
  cidx : Nat
  log : List OnceEntry
  replay : List OnceEntry
  wAborts : Nat
  staged : List Staged
  uj : Nat
  ujSat : Bool
  ujRem : Nat
  done : List Nat     -- gang positions whose threads have ended (R404)
  asyncOut : Nat      -- asynchronous operations that have not added their count (R124)
  flags : Tab W32     -- flags raised for its threads that hold no plane, by gang position (R52)
  async : List (Nat × Cause) -- asynchronous causes of its threads that hold no plane (R423)
  requeueAt : Option Nat
  monitored : Bool    -- requeued when a monitor fires
  avoid : Option Nat  -- core to avoid at the next placement (R427)
  rows : List Nat     -- operating-point rows open to the task (R202)
  row : Nat
  opreq : Nat         -- operating point asked for by OPREQ, one above its row; 0 for none (R414)
  pointAt : Tab Nat   -- start of the last persist point of each thread, by gang position, while it holds no plane (R127)
  saved : List Image  -- saved context records (R435)
  origins : List Image -- the launch or saved record from which each thread was made active (R92)
  away : List VLine   -- its version records in the park area (R210)
  kept : List (Nat × Image) -- images of its threads that hold no plane: 0 persist A, 1 persist B, 2 commit image
  parkRun : Option (Nat × Nat) -- its run in the park area, which holds copies of `kept` (R210, R211)
  onyxCores : List (Nat × Nat) -- the core that each gang position is to have: the one whose area is reserved to it, or the one it had (R210, R432)
  port : Nat          -- host port of the launch (R443)
  ending : Option (List Nat) -- how the task ends once its asynchronous operations have: KIND, CAUSE, SUB, PC, INFO
  opTab : List OpRow  -- the operating-point rows of its node, as its placement has read them (R201, R202)
  deriving DecidableEq, Repr

/-- A TLB entry (R70). -/
structure TlbE where
  ctx : Nat
  va : Nat            -- page base
  psz : Nat
  frame : Nat
  rights : Nat        -- bit 0 RD, bit 1 WR, bit 2 AT
  swm : Bool
  pin : Bool
  deriving DecidableEq, Repr

/-- A core (R12, R73, R70, R92). -/
structure Core where
  spad : List Host.Cell
  spadPoison : List Nat
  active : Nat        -- which plane is active
  tlb : List TlbE     -- most recently used first
  imgA : Option Image
  imgB : Option Image
  imgC : Option Image
  reserved : Option Nat -- a parked task keeps the area (R210)
  owner : Nat
  pendOwner : Option Nat
  lastTenant : Nat
  degraded : Bool
  off : Bool
  freezes : Nat       -- 9-cycle freezes still to end (R99)
  fill : Option Nat   -- task whose image the loader is filling or has filled into the shadow plane
  filled : Bool
  mismatch : Nat      -- checker mismatches in a row, with no commit between (R432)
  deriving DecidableEq, Repr

/-- A B-store slot (R81, R154). -/
structure BSlot where
  st : Nat            -- 0 FREE, 1 ARMED, 2 MISSED, 3 FILLING, 4 FULL, 5 POISONED
  task : Nat
  pos : Nat
  tenant : Nat
  layer : Nat
  kind : Nat
  tile : Nat
  fmt : Nat
  dat : List Host.Cell
  reboards : Nat
  lapArmed : Nat      -- number of the first full lap after the arm
  second : Bool       -- the upper slot of a two-slot tile
  scaleBad : Nat      -- result of the scale check of R242, 0 when it passed
  deriving DecidableEq, Repr

/-- A permit counter (R224). -/
structure Permit where
  cap : Nat
  rate : Nat
  count : Nat
  deriving DecidableEq, Repr

/-- An image in a cluster area (R91, R125): whose it is, and whether it is complete. -/
structure AccArea where
  task : Nat
  pos : Nat
  seq : Nat
  done : Bool
  deriving DecidableEq, Repr

/-- A line of a cluster's L1 (R82). -/
structure L1Line where
  line : Nat
  dat : BitVec 512
  swm : Bool          -- of a software-managed page: no acquire drops it (R120)
  poison : Bool       -- a copy of a poisoned line (R100)
  deriving DecidableEq, Repr

/-- A cluster (R12, R40, R57, R58, R80 to R82, R154, R161, R224). -/
structure Cluster where
  acc : Vector AccSlot 8
  ab : Vector W 8
  leaseHeld : Bool
  holder : Nat
  waitq : BitVec 4
  words : Nat
  leaseDue : Bool     -- a tile was closed under the lease while no core waited (R161)
  leaseAt : Nat       -- the cluster's cycles at the holder's last matrix word
  leasePasses : Nat   -- grants across tenants so far (R345)
  leaseTenant : Nat
  leaseTab : List Nat
  leaseNext : Option (List Nat)
  leaseSlot : Nat
  cyc : Nat           -- cycles run up to `cycAt`, in 160ths (R5)
  cycAt : Nat
  tileOpen : Bool     -- LEASE_STATE.OPEN and SLOT (R57, R349, R356)
  tileSlot : Nat
  bst : Tab BSlot
  subs : List BSub
  l1 : List L1Line    -- most recently used first
  tlb2 : List TlbE
  perm : Vector Permit 4
  permLast : Vector Nat 4 -- the sequencer of the cluster served last, of each class (R225)
  permAt : Nat        -- the cluster's cycles at the last period boundary (R225)
  rowRate : Vector Nat 4
  oprow : Nat
  rowTo : Option Nat  -- the row that OPPOINT shows once the changes under way are complete (R200)
  fcode : Nat
  bias : Int
  hopTo : Option Nat
  hopAborted : Bool
  biasTo : Option Int
  slow : Option (Nat × Int) -- the F-code and bias to which SLOW lowers the cluster below its rows (R204)
  stretch : Bool
  tripAt : Nat        -- device time, and the cluster's cycles, at the last trip of its droop detector (R468, R469)
  tripCyc : Nat
  hopAt : Nat         -- device time at which the hop under way began (R200, R469)
  on : Bool
  gateDue : Bool      -- to be gated once no thread is left on it (R209, R210)
  accArea : Vector (Option AccArea) 2 -- the two alternating images of the cluster area (R91, R125)
  deriving DecidableEq, Repr

/-- A copy of a line in an LLC (R83, R111, R120). -/
structure LlcLine where
  line : Nat
  dat : BitVec 512
  valid : BitVec 64
  dirty : BitVec 64   -- uncommitted to home: software-managed pages only
  swm : Bool
  held : Bool         -- held under R111 until home acknowledges
  home : Bool         -- a home copy: its bytes are those at home, and `dat` is not used
  task : Nat          -- the task that last committed bytes into it (R107)
  poison : Bool       -- a copy of a poisoned line (R100)
  deriving DecidableEq, Repr

/-- A write-through on its way home (R110, R118). -/
structure WriteThrough where
  line : Nat
  dat : BitVec 512
  mask : BitVec 64
  task : Nat
  peer : Bool
  sent : Bool         -- a peer has it, and has not acknowledged it (R111, R455)
  poison : Bool       -- the line was poisoned in the LLC that sends it (R100)
  deriving DecidableEq, Repr

/-- A write that has reached home and does not perform yet: its stack is in retention, the LP tier in self-refresh, POOL empty, its copies
are not acknowledged (R87, R90, R103, R192, R451). Kinds: 0 eviction or write-back, 1 write-through, 2 atomic, 3 engine write. -/
structure HeldWrite where
  kind : Nat
  line : Nat
  dat : BitVec 512
  mask : BitVec 64
  poison : Bool
  msi : Option Nat    -- the host port whose MSI-X vector 0 is raised once it has performed (R452)
  port : Option Nat   -- the host port that posted it (R445)
  deriving DecidableEq, Repr

/-- An image being written by the save engine (R93, R110, R126). -/
structure ImgJob where
  core : Nat
  slot : Nat          -- 0 persist image A, 1 persist image B, 2 commit image, 3 saved context record
  purpose : Nat       -- 0 persist point, 1 commit, 2 commit-image copy, 3 save, 4 park, 5 reference record
  thr : Nat
  img : Image
  begun : Bool        -- it is being written: the save engine writes one image per core at a time (R435)
  deriving DecidableEq, Repr

/-- A walk in progress (R70). -/
structure Walk where
  thr : Nat
  seq : Nat           -- steering order of the word that started it (R421)
  h : Option Nat      -- none for an instruction fetch
  gen : Nat
  va : Nat
  rights : Nat
  ctx : Nat
  deriving DecidableEq, Repr

/-- A valid-bit monitor (R71). -/
structure Monitor where
  line : Nat
  task : Nat
  deriving DecidableEq, Repr

/-- The version records of a parked task in a die's Onyx: the number of the first one, the lines, and those whose CRC is bad (R86). -/
structure VersRecs where
  task : Nat
  first : Nat
  lines : List VLine
  bad : List Nat
  deriving DecidableEq, Repr

/-- A compute die (R12, R83, R91). -/
structure Die where
  present : Bool
  on : Bool
  vcode : Nat
  vTo : Option Nat
  llc : List LlcLine  -- most recently used first
  dirtyHome : Tab (BitVec 512) -- lines newer in the LLC than in HBM, with what HBM holds
  wts : List WriteThrough
  imgs : List ImgJob
  walks : List Walk
  waitWalks : List Walk
  mons : List Monitor
  ready : List Nat
  vminMv : Nat
  vminTime : Nat
  wear : Tab (Nat × Option Nat) -- WRITES and SPARE of each moved or written 1 MiB block
  spares : Nat        -- spare blocks used
  worn : Bool
  bootCount : Nat
  bootReason : Nat
  minSvn : Vector Nat 3
  curveSeq : Nat
  identity : Nat
  vrecs : List VersRecs -- version records of parked tasks (R86)
  switchRound : Option Nat
  waitOn : BitVec 16  -- clusters waiting for switch-on
  offAt : Nat         -- device time at which the shared logic last went off or on
  powerFault : Bool
  deriving DecidableEq, Repr

/-- An HBM4 stack (R87 to R89, R214). -/
structure Stack where
  present : Bool
  st : Nat            -- 0 off, 1 on, 2 retention
  cell : List W       -- cell log by entry, each record's time before its upper half (R89)
  xfer : List W       -- transfer log
  cellN : Nat         -- records written to the cell log so far; the next goes to entry cellN mod 256
  xferN : Nat
  spare : BitVec 64   -- pseudo-channels whose spare lane is in use
  offFlag : Bool      -- switched off under a park list: its accesses are delivered poisoned (R214)
  lastAccess : Nat
  copied : Bool       -- the park list's copies of the stack are done
  deriving DecidableEq, Repr

/-- A burst whose read meets parity errors (R88). -/
structure Burst where
  stack : Nat
  pa : Nat
  pch : Nat
  beat : Nat
  lane : Nat
  tries : Nat
  swapped : Bool
  deriving DecidableEq, Repr

/-- A lap-table entry (R149). -/
structure LapEntry where
  layer : Nat
  tile : Nat
  fmt : Nat
  kind : Nat
  nflit : Nat
  pa : Nat
  deriving DecidableEq, Repr

/-- The weight ring (R61, R148 to R152). -/
structure Ring where
  lap : Nat
  layer : Nat
  speed : Nat         -- RING_STATE.SPEED
  speedWant : Nat     -- the speed that the energy scheduler asks for, taken at frame boundaries (R61, R152)
  speedTo : Vector Nat 8 -- the speed of each lane
  table : Option (List LapEntry)
  waiting : Option (List LapEntry)
  lanes : Vector Nat 8 -- entries each lane has finished in the lap
  flying : Vector Bool 8 -- the lane's header has been sent and its frame has not ended
  lapStart : Nat
  opened : List Nat   -- layers whose boarding window has opened in the lap (R153)
  bad : Vector Bool 8 -- the lane's frame carries POISON (R151)
  deriving DecidableEq, Repr

/-- A budget curve (R193, R194): sequence, valid-from, points and events. -/
structure Curve where
  seq : Nat
  from_ : Nat
  pts : List (Nat × Nat)
  evts : List (Nat × Nat × Nat) -- offset, grades byte, action
  deriving DecidableEq, Repr

/-- The energy scheduler on IO0 (R60, R197 to R217). -/
structure Sched where
  exempt : Bool
  inband : Bool
  seq : Nat
  refused : Nat
  result : Nat
  cur : Option Curve
  wait : Option Curve
  evDone : Nat        -- events of the curve in force applied or skipped
  grades : Vector Nat 4 -- in force: PARK for every class while suspended
  want : Vector Nat 4 -- as the events of the curves set them, applied when a suspend ends (R217)
  pend : Vector Nat 4
  evseq : Nat
  exemptUntil : Nat
  mNum : Nat          -- the factor m of R203, as a fraction
  mDen : Nat
  suspended : Bool
  parkArea : Option (Nat × Nat)
  parkList : List (Nat × Nat × Nat × Bool) -- source, length, destination, OFF
  unheld : Bool       -- so far in the period no ready task was held out of placement and no cluster was below its row's F-code (R205)
  stopped : Bool      -- so far in the period every task was parked or shed and every die gated (R205)
  fastAt : Nat
  fastEnergy : Nat
  slowAt : Nat
  slowEnergy : List Nat
  lastPower : List Nat -- mean powers of the last period of the slow loop, in mW, in the order of the accumulators (R204)
  held : List (Nat × Nat) -- tasks held, with the time
  lastGate : Option Nat -- when the last die went off, and when the last one was switched on (R213)
  lastOn : Option Nat
  wake : BitVec 8     -- gated dies to be switched on (R182, R213, R217)
  deriving DecidableEq, Repr

/-- Energy accumulators and their carries (R220, R221), in the order MOD, DIE 0-7, IOD 0-1, HBM 0-7, LPT, BRD. -/
structure Energy where
  acc : Vector W 21
  rem : Vector Nat 21
  hiLatch : Vector W32 4
  at_ : Nat           -- device time of the last advance (R220)
  deriving DecidableEq, Repr

/-- An event record (R164). -/
structure EvRec where
  time : Nat
  kind : Nat
  src : Nat
  unit : Nat
  detail : Nat
  deriving DecidableEq, Repr

/-- The package event queue (R164, R165). -/
structure EvQueue where
  recs : Tab EvRec    -- entry i mod 4,096
  head : W32
  tail : W32
  lost : W32
  deriving DecidableEq, Repr

/-- A context (R449, R179, R435). -/
structure Ctx where
  root : Nat
  sys : Bool
  tenant : Nat
  vdt : Vector (BitVec 8) 8
  pool : Option (Nat × Nat)
  deriving DecidableEq, Repr

/-- The captured words and the state words of a node (R169, R171). -/
structure Node where
  image : Nat
  kind : Nat
  cls : Nat
  gang : Bool
  npred : Nat
  succ : List Nat
  oprows : Nat
  opidx : Nat
  deadline : Nat
  args : Nat
  pred : Nat
  tgen : Nat
  arrived : Nat
  done : Nat
  cgen : Nat
  count : Nat         -- instances of the generation (R174)
  blocked : Bool      -- it cannot complete in the generation
  pend : Bool         -- it has all its arrivals, and the read of its PRED word or its placement-map entry waits for the memory devices (R87, R173)
  deriving DecidableEq, Repr

/-- A launch slot (R171, R172, R450, R452). -/
structure Slot where
  ctx : Nat
  graph : Nat
  die : Nat
  gen : Nat
  opt : Nat
  pmap : Nat
  nodes : List Node
  cring : Nat
  clen : Nat
  seq : Nat
  release : Bool
  replayWait : Option (Option Nat) -- a replay requested; the completion ring of a host launch stays
  port : Nat
  uids : List Nat     -- the tasks whose committed stores a PRED word's load is to see (R173)
  deriving DecidableEq, Repr

/-- A copy-engine transfer (R342). -/
structure Copy where
  iod : Nat
  src : Nat
  dst : Nat
  len : Nat
  left : List Nat     -- numbers of the 256-byte chunks still to move, in any order
  bar : Nat
  tenant : Nat
  task : Nat
  pos : Nat           -- the gang position of the thread that issued it
  shoot : Bool        -- a shootdown in progress waits for it (R72)
  deriving DecidableEq, Repr

/-- An addition on its way to a barrier object (R122, R227). -/
structure BarAdd where
  pa : Nat
  n : Nat
  task : Option Nat   -- the asynchronous operation's task, if it still counts
  pos : Nat           -- the gang position of the thread that issued it
  flags : W32
  deriving DecidableEq, Repr

/-- A collective (R413, R457 to R461). -/
structure Coll where
  desc : Nat
  comm : Nat
  op : Nat
  fmt : Nat
  root : Nat
  count : Nat
  src : Nat
  dst : Nat
  bar : Nat
  task : Nat
  pos : Nat           -- the gang position of the thread that issued it (R52)
  ord : Nat           -- which collective of its communicator it is
  done : List (Nat × Nat) -- the done bits of its chunk record: chunk and stage, 0 its own input sent, 1 its output written (R460)
  inputs : List (Nat × Nat × List Byte) -- rank, offset and bytes received
  heads : List (Nat × Nat × Nat × Nat)  -- rank, OP, FMT, COUNT received
  since : Nat         -- when it was submitted
  heard : Tab Nat     -- when a packet of each rank last came
  stalled : Option Nat -- the silent rank that event 0x12 has named (R461)
  flags : W32
  stopped : Bool
  deriving DecidableEq, Repr

/-- A communicator (R459). -/
structure Comm where
  num : Nat
  tenant : Nat
  n : Nat
  rank : Nat
  map : List Nat
  subs : Nat          -- collectives submitted over it
  deriving DecidableEq, Repr

/-- An access waiting for a peer (R455). Kinds: 0 load, 1 write-through, 2 atomic, 3 engine write. -/
structure PeerAcc where
  peer : Nat
  kind : Nat
  pa : Nat
  len : Nat
  thr : Nat
  seq : Nat
  d : Nat             -- destination: queue head, register or scratchpad offset
  dest : Nat          -- 0 none, 1 a unit, 6 a read at home that is answered, 7 one that is not, 8 an atomic without its unit, 9 one answered
  issued : Nat
  once : Option (Nat × Nat × List Nat) -- of an atomic: its task, and the kind and operands under which it is logged (R113)
  line : BitVec 512   -- the line that has been returned to an engine or to a read at home
  deriving DecidableEq, Repr

/-- A packet that has been sent and is not acknowledged, with the time at which it last went out (R456). -/
structure EthPkt where
  pkt : Nat
  ofs : Nat
  data : List Byte
  sentAt : Nat
  deriving DecidableEq, Repr

/-- An Ethernet message (R456), which a collective sends to a rank or takes from one: the rank, the communicator and the collective in its number. -/
structure EthMsg where
  num : Nat
  inc : Bool          -- it comes in
  next : Nat          -- packets numbered so far
  out : List EthPkt
  got : List Nat      -- packets received, each acknowledged
  missing : List Nat  -- packets reported as missing
  deriving DecidableEq, Repr

/-- A host port (R443 to R445). -/
structure Port where
  up : Bool
  cxl : Bool
  out : Nat           -- writes to host memory without the host's completion
  held : List Nat     -- device lines the host may hold (CXL mode, R444)
  snoop : List Nat    -- lines for which BISnp has gone and BIRsp has not come
  msix : List Nat     -- vectors raised, oldest first
  rd : List Byte      -- the bytes that its last read returned (R445, R446)
  deriving DecidableEq, Repr

/-- A hash context of Agate: the bytes absorbed (R465). -/
abbrev HashCtx := List Byte

/-- Agate (R462 to R465, R426). -/
structure Agate where
  sram : List Host.Cell
  req : Bool
  path : Nat
  len : Nat
  waiting : List (Nat × List Byte)
  sent : List (Nat × List Byte)
  src : Nat
  dst : Nat
  fail : Bool
  hash : Vector HashCtx 12
  key : List Byte     -- the attestation key that the ROM derives from the identity seed (R462, R474)
  ms : Vector (BitVec 256) 8
  locked : Bool
  doubles : List (Nat × List W) -- thread; TRAP_CAUSE, TRAP_PC, TRAP_INFO of both traps (R426)
  idLock : Bool       -- the identity region's write lock, set by the ROM (R95)
  refusals : Nat      -- refused writes of the identity region (R95)
  harvest : List (Nat × Nat) -- structures reported as degraded for the next configuration image: code and unit (R98)
  curveDoor : Bool    -- the doorbell of the curve mailbox reads 1: a curve waits for its check (R454)
  rd : Vector (List Byte) 2 -- the bytes that the last read of the window returned to the BMC and to Agate (R446)
  deriving DecidableEq, Repr

/-- Start-up (R62, R466, R472 to R477). -/
structure Boot where
  step : Nat          -- step of R474 under way, 0 before VAUX
  stage : Nat
  minimal : Bool
  attempts : Nat
  reason : Nat
  rails : BitVec 21   -- VAUX, VIO 0-1, VHBM 0-7, VLPT 0-1, VCORE 0-7
  railWait : BitVec 21 -- rails brought up and not yet good
  railAt : Nat        -- device time at which they were brought up
  startAt : Nat
  flash : Tab (List Byte) -- kind * 2 + copy
  rec_ : List Byte    -- image area of the recovery mailbox
  recDoor : Nat
  recLen : Nat
  facKey : Option (List Byte)
  module : Nat
  portCxl : BitVec 2
  eth : List Nat
  trim : List Int
  harvestDie : BitVec 8
  harvestCl : BitVec 128
  harvestCore : BitVec 512
  harvestStack : BitVec 8
  identityFail : Bool
  answers : BitVec 8  -- compute dies that answer on the package fabric: data of the environment
  trainBad : BitVec 10 -- stacks 0-7 and the LP tier (8) whose training fails, clusters that fail to switch on (9): of the environment
  deriving DecidableEq, Repr

/-- Error counters of R231, by index. -/
abbrev ErrCounters := Tab W32

/-- A latent hardware error, as data of the environment: what the next access of the place meets (R88, R96 to R98). -/
structure Latent where
  str : Nat           -- structure code of R164
  unit : Nat          -- core, cluster, slice or stack
  loc : Nat
  kind : Nat          -- 0 corrected, 1 uncorrectable, 2 parity
  arg : Nat
  deriving DecidableEq, Repr

/-- A bank of a symbol-code structure (R98): recent corrected rows and its state. -/
structure Bank where
  str : Nat
  unit : Nat
  bank : Nat
  rows : List (Nat × Nat)
  failed : Bool
  rebuilding : Bool
  second : Bool       -- it failed after another bank of its structure, and is not rebuilt
  deriving DecidableEq, Repr

/-- A shootdown in progress (R72): what must still perform. -/
structure Shoot where
  ctx : Nat
  lo : Nat
  hi : Nat
  waitFlights : List (Nat × Nat) -- thread and steering number of each word issued before
  deriving DecidableEq, Repr

/-- Who moves next: a sequencer of a thread, the fetch of a thread, or an event. -/
inductive Turn where
  | fetch (thr : Nat) (dt : Nat)
  | seq (thr : Nat) (sq : Sq) (dt : Nat)
  | event (i : Instr) (dt : Nat)
  deriving DecidableEq, Repr

/-- The unit being issued: where it comes from and which repeat it is. -/
structure Cur where
  sq : Sq
  loop : Bool         -- it comes from a loop buffer
  unit : QUnit
  deriving DecidableEq, Repr

/-- The whole machine. -/
structure State where
  mem : List Host.Cell          -- home memory (R66), canonical
  poison : List Nat             -- poisoned lines at home
  now : Nat                     -- DEVTIME (R219), in ns
  thr : Tab Thread              -- by core * 2 + plane
  cores : Tab Core
  clusters : Tab Cluster
  dies : Vector Die 8
  hbm : Vector Stack 8
  lpOn : Bool
  lpRefresh : Bool
  bursts : List Burst
  heldWrites : List HeldWrite   -- in the order they reached home
  tasks : List Task
  slots : Tab Slot
  slotSeq : Tab Nat             -- the SEQ of the next record of a launch slot that is free (R452)
  ctxs : Tab Ctx
  ring : Ring
  sched : Sched
  energy : Energy
  evq : EvQueue
  errs : ErrCounters
  banks : List Bank
  latent : List Latent
  copies : List Copy
  copySlot : Vector Nat 2
  slotTabs : Tab (List Nat)     -- copy 0-1, stacks 16-23, feeders 32-39
  slotNext : Tab (List Nat)
  portSlot : Tab Nat            -- slot of its round at which a port of a stack or a feeder stands
  barAdds : List BarAdd
  colls : List Coll
  comms : List Comm
  peers : List PeerAcc
  collRecs : List Coll          -- chunk records in the LP tier (R460)
  peerWrote : Tab Nat           -- when each peer was last written
  sysRel : Tab Nat              -- when each context last made a SYS release (R455)
  eth : List EthMsg
  ports : Vector Port 2
  win : List Host.Cell          -- SRAM of the management window, by offset
  qBound : Tab Nat              -- context of each launch queue
  qPort : Tab Nat               -- host port that last wrote each launch queue's doorbell
  shoots : List Shoot
  snapRoots : List (Nat × List Nat) -- snapshot domains: root, and the frames that translations name
  telem : Option (Nat × Nat × Nat) -- base, records, SEQ
  agate : Agate
  boot : Boot
  parkedList : List Nat         -- tasks listed after a module loss (R437)
  turns : List Turn             -- the model's own: who moves next
  focus : Option Nat            -- the model's own: the thread that acts
  cur : Option Cur              -- the model's own: the unit being issued
  uids : Nat                    -- the model's own: tasks numbered so far (log 15)
  fresh : Nat                   -- the model's own: free values drawn so far
  deriving DecidableEq, Repr

/-- No register freed (R42). -/
def Freed.none : Freed := { g := 0#32, xl := 0#8, xs := 0#8, a := 0#16, m := 0#16, s := 0#8 }

/-- The registers of a plane at launch (R24), before the launch record's values are put in. -/
def Thread.blank : Thread :=
  { g := Vector.replicate 32 0#64, p := 1#8, h := Vector.replicate 16 0#64, hPoison := 0#16, hLine := Vector.replicate 16 0, hSwm := 0#16,
    hRq := Vector.replicate 16 0#3,
    hVa := Vector.replicate 16 0#64, xl := Vector.replicate 8 0#64, xs := Vector.replicate 8 0#64,
    a := Vector.replicate 16 0#64, m := Vector.replicate 16 0#64, s := Vector.replicate 8 0#64, vc := 1#16,
    lcl := Vector.replicate 4 0#32, lcc := Vector.replicate 4 0#32, lcs := Vector.replicate 4 0#32,
    q := Vector.replicate 16 QHead.unbound, eb := Vector.replicate 16 0#32, freed := Freed.none,
    status := 0#32, trapCause := 0#64, trapPc := 0#64, trapTask := 0#64, trapInfo := 0#64, repState := 0#32,
    handlerBase := 0#64, handlerRanges := [], flags := 0#32, roundMode := 0#32, boundCtl := 1#32, dropSeed := 0#32,
    fmtBase := 0#32, ft := Vector.replicate 16 0#32, pc := 0, pfx := [], pfxPc := 0, repDone := 0, repPc := none, seq := 0,
    ldQ := [], cpQ := [], stQ := [], lpL := LoopBuf.none, lpC := LoopBuf.none, lpS := LoopBuf.none,
    winL := [], winC := [], winS := [], lostL := false, lostC := false, lostS := false,
    tok := Vector.replicate 9 0, flights := [], qflights := [], ctlAcc := [], settles := [],
    waitK := none, waitL := none, waitC := none, waitS := none, ph := Phase.none, phS := Phase.none, members := [], hist := [],
    runL := RunAhead.none, runC := RunAhead.none, runS := RunAhead.none, stopped := [], loopRes := [],
    trapPend := none, async := [], locks := [], claim := false, task := 0, gangPos := 0, pendPersist := none,
    persistAt := 0, preempt := none, parkStop := none, liveIdx := none, idleUntil := none, permits := 0,
    halted := false, running := false, spadSave := [], spadBad := [], ran := none, mtHold := none, passed := [], tileRep := none }

/-- A core after reset: nothing held, switched off, owned by no tenant. -/
def Core.blank : Core :=
  { spad := [], spadPoison := [], active := 0, tlb := [], imgA := none, imgB := none, imgC := none, reserved := none,
    owner := 0xFF, pendOwner := none, lastTenant := 0xFF, degraded := false, off := true, freezes := 0, fill := none,
    filled := false, mismatch := 0 }

/-- An accumulator slot at cluster reset: all zero, closed (R24, R80). -/
def AccSlot.blank : AccSlot :=
  { st := 0, task := 0, pos := 0, ext := false, emax := -150, ec := -150, kofs := 0, whole := false, since := 0, guard := [],
    bread := [], lastft := 0, tile := [], chk := [], poison := false }

/-- A free B-store slot (R154). -/
def BSlot.free : BSlot :=
  { st := 0, task := 0, pos := 0, tenant := 0, layer := 0, kind := 0, tile := 0, fmt := 0, dat := [], reboards := 0,
    lapArmed := 0, second := false, scaleBad := 0 }

/-- A permit counter at its reset values (R224). -/
def Permit.full : Permit := { cap := 4095, rate := 4095, count := 4095 }

/-- A cluster after cluster reset (R40, R57, R58, R224). -/
def Cluster.blank : Cluster :=
  { acc := Vector.replicate 8 AccSlot.blank, ab := Vector.replicate 8 0x7F80000000000000#64, leaseHeld := false,
    holder := 0, waitq := 0#4, words := 0, leaseDue := false, leaseAt := 0, leasePasses := 0, cyc := 0, cycAt := 0, leaseTenant := 0xFF, leaseTab := List.replicate 64 0xFF,
    leaseNext := none, leaseSlot := 0, tileOpen := false, tileSlot := 0, bst := [], subs := [], l1 := [], tlb2 := [],
    perm := Vector.replicate 4 Permit.full, permLast := Vector.replicate 4 0, permAt := 0, rowRate := Vector.replicate 4 4095, oprow := 0, rowTo := none, fcode := 0, bias := 0,
    hopTo := none, hopAborted := false, biasTo := none, slow := none, stretch := false, tripAt := 0, tripCyc := 0, hopAt := 0, on := false, gateDue := false, accArea := Vector.replicate 2 none }

/-- A compute die after reset: shared logic off (R62, R59, R232). -/
def Die.blank : Die :=
  { present := true, on := false, vcode := 0, vTo := none, llc := [], dirtyHome := [], wts := [], imgs := [], walks := [],
    waitWalks := [], mons := [], ready := [], vminMv := 0xFFF, vminTime := 0, wear := [], spares := 0, worn := false,
    bootCount := 0, bootReason := 0, minSvn := Vector.replicate 3 0, curveSeq := 0, identity := 0, vrecs := [],
    switchRound := none, waitOn := 0#16, offAt := 0, powerFault := false }

/-- An HBM4 stack after reset. -/
def Stack.blank : Stack :=
  { present := true, st := 0, cell := [], xfer := [], cellN := 0, xferN := 0, spare := 0#64, offFlag := false, lastAccess := 0, copied := false }

/-- The ring after reset: held, no table (R61, R152). -/
def Ring.blank : Ring :=
  { lap := 0, layer := 0, speed := 5, speedWant := 5, speedTo := Vector.replicate 8 5, table := none, waiting := none,
    lanes := Vector.replicate 8 0, flying := Vector.replicate 8 false, lapStart := 0,
    opened := [], bad := Vector.replicate 8 false }

/-- The energy scheduler after reset: no curve, no grade, m = 1 (R60, R198, R203). -/
def Sched.blank : Sched :=
  { exempt := false, inband := true, seq := 0, refused := 0, result := 0, cur := none,
    wait := none, evDone := 0, grades := Vector.replicate 4 0, want := Vector.replicate 4 0, pend := Vector.replicate 4 0,
    evseq := 0, exemptUntil := 0, mNum := 1, mDen := 1, suspended := false, parkArea := none, parkList := [], unheld := true, stopped := true, fastAt := 0,
    fastEnergy := 0, slowAt := 0, slowEnergy := [], lastPower := [], held := [], lastGate := none, lastOn := none, wake := 0#8 }

/-- The accumulators at power-on (R220, R221). -/
def Energy.blank : Energy :=
  { acc := Vector.replicate 21 0#64, rem := Vector.replicate 21 0, hiLatch := Vector.replicate 4 0#32, at_ := 0 }

/-- The empty event queue (R165). -/
def EvQueue.blank : EvQueue := { recs := [], head := 0#32, tail := 0#32, lost := 0#32 }

/-- A host port before link-up. -/
def Port.blank : Port := { up := false, cxl := false, out := 0, held := [], snoop := [], msix := [], rd := [] }

/-- Agate at reset (R463, R465). -/
def Agate.blank : Agate :=
  { sram := [], req := false, path := 0, len := 0, waiting := [], sent := [], src := 0, dst := 0, fail := false,
    hash := Vector.replicate 12 [], ms := Vector.replicate 8 0#256, locked := false, doubles := [], idLock := false, refusals := 0, harvest := [],
    key := [], curveDoor := false, rd := Vector.replicate 2 [] }

/-- Start-up state before VAUX reaches power-good (R62, R474). -/
def Boot.blank : Boot :=
  { step := 0, stage := 0, minimal := false, attempts := 0, reason := 0, rails := 0#21, railWait := 0#21, railAt := 0, startAt := 0,
    flash := [], rec_ := [], recDoor := 0, recLen := 0, facKey := none, module := 0, portCxl := 0#2, eth := [], trim := [],
    harvestDie := 0#8, harvestCl := 0#128, harvestCore := 0#512, harvestStack := 0#8, identityFail := false,
    answers := 0xFF#8, trainBad := 0#10 }

/-- The module right after reset: powered, start-up not begun, every register at the value the spec or the log gives. -/
def State.reset : State :=
  { mem := [], poison := [], now := 0, thr := [], cores := [], clusters := [], dies := Vector.replicate 8 Die.blank,
    hbm := Vector.replicate 8 Stack.blank, lpOn := false, lpRefresh := false, bursts := [], heldWrites := [], tasks := [], slots := [], slotSeq := [],
    ctxs := [], ring := Ring.blank, sched := Sched.blank, energy := Energy.blank, evq := EvQueue.blank, errs := [],
    banks := [], latent := [], copies := [], copySlot := Vector.replicate 2 0, slotTabs := [], slotNext := [], portSlot := [],
    barAdds := [], colls := [], comms := [], peers := [], collRecs := [], peerWrote := [], sysRel := [], eth := [],
    ports := Vector.replicate 2 Port.blank, win := [], qBound := [], qPort := [], shoots := [], snapRoots := [],
    telem := none, agate := Agate.blank, boot := Boot.blank, parkedList := [], turns := [], focus := none, cur := none,
    uids := 1, fresh := 0 }

end Sys2Proof.Machine
end

