-- ==== Sys2Proof/Machine/Flags.lean ====
section
/-! DEFINITION. Number formats, exact values, the one rounding, and every flag computation (R52, R234 to R239, R252). -/

namespace Sys2Proof.Machine

open Sys2Proof

/-! ## Flags (R52) -/

/-- A set of FLAGS bits. -/
abbrev Fl := BitVec 7

def flNV : Fl := 1#7
def flDZ : Fl := 2#7
def flOF : Fl := 4#7
def flUF : Fl := 8#7
def flNX : Fl := 16#7
def flSAT : Fl := 32#7
def flBND : Fl := 64#7

/-- The flag `f` when `c` holds. -/
def flIf (c : Bool) (f : Fl) : Fl := if c then f else 0#7

/-- FLAGS with the flags of `f` set: they are sticky (R52). -/
def orFlags (w : W32) (f : Fl) : W32 := w ||| BitVec.ofNat 32 f.toNat

/-! ## Exact values -/

/-- An exact value: a NaN, an infinity, or sign, significand and exponent of `m * 2 ^ e`; a zero keeps its sign. -/
inductive Val where
  | nan (sig : Bool)
  | inf (neg : Bool)
  | fin (neg : Bool) (m : Nat) (e : Int)
  deriving DecidableEq, Repr

/-- The significand's sign applied. -/
def signed (neg : Bool) (m : Nat) : Int := if neg then -(m : Int) else m

/-- Exponent of the top bit: Floor(Log2 (m * 2 ^ e)) for m above 0. -/
def topExp (m : Nat) (e : Int) : Int := e + Nat.log2 m

/-- Is the value a NaN. -/
def Val.isNan : Val → Bool
  | .nan _ => true
  | _ => false

/-- Is the value a signalling NaN (R236). -/
def Val.isSig : Val → Bool
  | .nan s => s
  | _ => false

/-- Is the value finite. -/
def Val.isFin : Val → Bool
  | .fin _ _ _ => true
  | _ => false

/-- Is the value a zero of either sign. -/
def Val.isZero : Val → Bool
  | .fin _ m _ => m == 0
  | _ => false

/-- The sign of a value; a NaN counts as positive (R236). -/
def Val.neg : Val → Bool
  | .nan _ => false
  | .inf n => n
  | .fin n _ _ => n

/-- The negated value. -/
def Val.negate : Val → Val
  | .nan s => .nan s
  | .inf n => .inf (!n)
  | .fin n m e => .fin (!n) m e

/-- The absolute value. -/
def Val.abs : Val → Val
  | .nan s => .nan s
  | .inf _ => .inf false
  | .fin _ m e => .fin false m e

/-- The value of an integer. -/
def Val.ofInt (x : Int) : Val := .fin (decide (x < 0)) x.natAbs 0

/-- The value one. -/
def Val.one : Val := .fin false 1 0

/-- Significands of two finite values at a common exponent. -/
def align (m1 : Nat) (e1 : Int) (m2 : Nat) (e2 : Int) : Nat × Nat × Int :=
  if e1 ≤ e2 then (m1, m2 <<< (e2 - e1).toNat, e1) else (m1 <<< (e1 - e2).toNat, m2, e2)

/-- Exact comparison of two finite values. -/
def cmpFin (n1 : Bool) (m1 : Nat) (e1 : Int) (n2 : Bool) (m2 : Nat) (e2 : Int) : Ordering :=
  let (a, b, _) := align m1 e1 m2 e2
  compare (signed n1 a) (signed n2 b)

/-- Order of two values that are not NaN; zeros of either sign are equal. -/
def Val.cmp : Val → Val → Ordering
  | .fin n1 m1 e1, .fin n2 m2 e2 => cmpFin n1 m1 e1 n2 m2 e2
  | .inf n1, .inf n2 => if n1 = n2 then .eq else if n1 then .lt else .gt
  | .inf n1, _ => if n1 then .lt else .gt
  | _, .inf n2 => if n2 then .gt else .lt
  | _, _ => .eq

/-- Exact sum (R252). A zero sum of opposite signs is −0 only when `rdn` (the mode rounds down). NV when infinities cancel or a
NaN is signalling. -/
def Val.add (rdn : Bool) (x y : Val) : Val × Fl :=
  match x, y with
  | .nan s, .nan t => (.nan false, flIf (s || t) flNV)
  | .nan s, _ => (.nan false, flIf s flNV)
  | _, .nan t => (.nan false, flIf t flNV)
  | .inf a, .inf b => if a = b then (.inf a, 0#7) else (.nan false, flNV)
  | .inf a, _ => (.inf a, 0#7)
  | _, .inf b => (.inf b, 0#7)
  | .fin n1 m1 e1, .fin n2 m2 e2 =>
    let (a, b, e) := align m1 e1 m2 e2
    let s := signed n1 a + signed n2 b
    if s = 0 then (.fin (if n1 = n2 then n1 else rdn) 0 e, 0#7)
    else (.fin (decide (s < 0)) s.natAbs e, 0#7)

/-- Exact product (R252). NV for zero times infinity or a signalling NaN. -/
def Val.mul (x y : Val) : Val × Fl :=
  match x, y with
  | .nan s, .nan t => (.nan false, flIf (s || t) flNV)
  | .nan s, _ => (.nan false, flIf s flNV)
  | _, .nan t => (.nan false, flIf t flNV)
  | .inf a, .inf b => (.inf (a != b), 0#7)
  | .inf a, .fin n m _ => if m = 0 then (.nan false, flNV) else (.inf (a != n), 0#7)
  | .fin n m _, .inf b => if m = 0 then (.nan false, flNV) else (.inf (n != b), 0#7)
  | .fin n1 m1 e1, .fin n2 m2 e2 => (.fin (n1 != n2) (m1 * m2) (e1 + e2), 0#7)

/-! ## Formats (R234) -/

/-- A float format: exponent and mantissa widths, bias, largest finite code, and whether it has infinities. -/
structure FloatFmt where
  ew : Nat
  mw : Nat
  bias : Int
  top : Nat           -- code of the largest finite magnitude
  infs : Bool
  nan : Nat           -- canonical NaN (R236)
  deriving DecidableEq, Repr

def fmtFP32 : FloatFmt := { ew := 8, mw := 23, bias := 127, top := 0x7F7FFFFF, infs := true, nan := 0x7FC00000 }
def fmtFP16 : FloatFmt := { ew := 5, mw := 10, bias := 15, top := 0x7BFF, infs := true, nan := 0x7E00 }
def fmtBF16 : FloatFmt := { ew := 8, mw := 7, bias := 127, top := 0x7F7F, infs := true, nan := 0x7FC0 }
def fmtE4M3 : FloatFmt := { ew := 4, mw := 3, bias := 7, top := 0x7E, infs := false, nan := 0x7F }
def fmtE5M2 : FloatFmt := { ew := 5, mw := 2, bias := 15, top := 0x7B, infs := true, nan := 0x7E }

/-- The float format of a code of R54, if it is one. -/
def floatFmt : Nat → Option FloatFmt
  | 0 => some fmtFP32
  | 1 => some fmtFP16
  | 2 => some fmtBF16
  | 3 => some fmtE4M3
  | 4 => some fmtE5M2
  | _ => none

/-- Width in bits of a format code (R234). -/
def fmtBits : Nat → Nat
  | 0 => 32
  | 1 => 16
  | 2 => 16
  | 6 => 4
  | 8 => 4
  | _ => 8

/-- Smallest and largest value of an integer format (R234). -/
def intRange : Nat → Int × Int
  | 5 => (-128, 127)
  | 6 => (-8, 7)
  | 7 => (0, 255)
  | _ => (0, 15)

/-- Is the code an integer format. -/
def isIntFmt (f : Nat) : Bool := decide (5 ≤ f ∧ f ≤ 8)

/-- Exponent of the smallest normal value. -/
def FloatFmt.emin (f : FloatFmt) : Int := 1 - f.bias

/-- Significand bits P (R249). -/
def FloatFmt.prec (f : FloatFmt) : Nat := f.mw + 1

/-- The exact value of a code of a float format (R234 to R236). -/
def FloatFmt.decode (f : FloatFmt) (x : Nat) : Val :=
  let m := x % 2 ^ f.mw
  let e := (x >>> f.mw) % 2 ^ f.ew
  let s := bit x (f.ew + f.mw)
  let mag := x % 2 ^ (f.ew + f.mw)
  if mag ≤ f.top then
    if e = 0 then .fin s m (f.emin - f.mw) else .fin s (m + 2 ^ f.mw) ((e : Int) - f.bias - f.mw)
  else if f.infs && m == 0 then .inf s
  else .nan (f.infs && !bit m (f.mw - 1) && decide (f.mw ≥ 7))

/-- The exact value of a code of a format (R54, R234). -/
def decodeFmt (c x : Nat) : Val :=
  match floatFmt c with
  | some f => f.decode x
  | none =>
    if c = 5 then .ofInt (sext 8 x) else if c = 6 then .ofInt (sext 4 x)
    else if c = 7 then .ofInt (x % 256 : Nat) else .ofInt (x % 16 : Nat)

/-- The value of an E8M0 scale (R234). -/
def decodeE8M0 (x : Nat) : Val := if x % 256 = 255 then .nan true else .fin false 1 ((x % 256 : Nat) - 127)

/-- The value of an FP32 pattern. -/
def f32 (x : W32) : Val := fmtFP32.decode x.toNat

/-! ## The rounding (R237, R238) -/

/-- A rounding mode (R237): codes 0 to 4; `r16` is the draw of RSR. -/
structure RMode where
  code : Nat
  r16 : Nat
  deriving DecidableEq, Repr

def rne : RMode := { code := 0, r16 := 0 }
def rup : RMode := { code := 2, r16 := 0 }

/-- A mode by its code, RSR taken as RNE (R239, R53). -/
def modeNoRsr (c : Nat) : RMode := { code := if c = 4 then 0 else c, r16 := 0 }

/-- Does the mode round the magnitude up, for the part `rem` of `2 ^ sh` that lies beyond the kept significand `k` (R237). -/
def roundsUp (md : RMode) (neg : Bool) (k rem sh : Nat) : Bool :=
  if rem = 0 then false
  else match md.code with
  | 0 => if 2 * rem = 2 ^ sh then k % 2 == 1 else decide (2 * rem > 2 ^ sh)
  | 1 => false
  | 2 => !neg
  | 3 => neg
  | _ =>
    if neg then !decide (((2 ^ sh - rem) * 65536) / 2 ^ sh + md.r16 ≥ 65536)
    else decide ((rem * 65536) / 2 ^ sh + md.r16 ≥ 65536)

/-- `m * 2 ^ e` kept to a multiple of `2 ^ q`: the multiple, and whether anything was lost. -/
def keep (md : RMode) (neg : Bool) (m : Nat) (e q : Int) : Nat × Bool :=
  if q ≤ e then (m <<< (e - q).toNat, false)
  else
    let sh := (q - e).toNat
    let k := m >>> sh
    let rem := m % 2 ^ sh
    (if roundsUp md neg k rem sh then k + 1 else k, rem != 0)

/-- The code of the magnitude `k * 2 ^ q` in a float format, possibly beyond its largest. -/
def FloatFmt.code (f : FloatFmt) (k : Nat) (q : Int) : Nat :=
  if k < 2 ^ f.mw then k
  else
    let x := Nat.log2 k - f.mw
    let e := q + x + f.mw + f.bias
    (e.toNat <<< f.mw) + (k >>> x) % 2 ^ f.mw

/-- The result of overflow (R238). -/
def FloatFmt.overflow (f : FloatFmt) (md : RMode) (neg : Bool) : Nat × Fl :=
  if !f.infs then (f.top, flOF ||| flNX ||| flSAT)
  else
    let toInf := match md.code with
      | 1 => false
      | 2 => !neg
      | 3 => neg
      | _ => true
    (if toInf then f.top + 1 else f.top, flOF ||| flNX)

/-- The sign bit put above a magnitude code. -/
def FloatFmt.withSign (f : FloatFmt) (neg : Bool) (mag : Nat) : Nat := mag + b01 neg * 2 ^ (f.ew + f.mw)

/-- An exact value rounded to a float format, with its flags (R237, R238). -/
def FloatFmt.round (f : FloatFmt) (md : RMode) : Val → Nat × Fl
  | .nan s => (f.nan, flIf s flNV)
  | .inf n =>
    if f.infs then (f.withSign n (f.top + 1), 0#7) else (f.withSign n f.top, flSAT ||| flNX)
  | .fin n m e =>
    if m = 0 then (f.withSign n 0, 0#7)
    else
      let te := topExp m e
      let q := max te f.emin - f.mw
      let (k, lost) := keep md n m e q
      let c := f.code k q
      if c > f.top then
        let (o, fl) := f.overflow md n
        (f.withSign n o, fl)
      else (f.withSign n c, flIf lost flNX ||| flIf (lost && decide (te < f.emin)) flUF)

/-- An exact value rounded to an integer format, saturating (R238). The result is the code's bits. -/
def roundInt (c : Nat) (md : RMode) : Val → Nat × Fl
  | .nan _ => (0, flNV)
  | .inf n =>
    let (lo, hi) := intRange c
    ((if n then lo else hi).toNat % 2 ^ fmtBits c + (if n && decide (lo < 0) then 2 ^ (fmtBits c - 1) else 0), flSAT ||| flNX)
  | .fin n m e =>
    let (lo, hi) := intRange c
    let (k, lost) := keep md n m e 0
    let x := signed n k
    let y := if x < lo then lo else if x > hi then hi else x
    ((y % (2 ^ fmtBits c : Nat)).toNat, flIf (lost || y != x) flNX ||| flIf (y != x) flSAT)

/-- An exact value rounded to a format code, with its flags. -/
def roundFmt (c : Nat) (md : RMode) (x : Val) : Nat × Fl :=
  match floatFmt c with
  | some f => f.round md x
  | none => roundInt c md x

/-- An exact value rounded to FP32. -/
def round32 (md : RMode) (x : Val) : W32 × Fl :=
  let (c, fl) := fmtFP32.round md x
  (BitVec.ofNat 32 c, fl)

/-! ## FP32 operations -/

/-- Is the mode round-down, for the sign of an exact zero sum. -/
def isRdn (md : RMode) : Bool := md.code == 3

/-- FP32 sum, one rounding (R252). -/
def add32 (md : RMode) (x y : W32) : W32 × Fl :=
  let (v, f) := (f32 x).add (isRdn md) (f32 y)
  let (r, g) := round32 md v
  (r, f ||| g)

/-- FP32 difference, one rounding. -/
def sub32 (md : RMode) (x y : W32) : W32 × Fl :=
  let (v, f) := (f32 x).add (isRdn md) (f32 y).negate
  let (r, g) := round32 md v
  (r, f ||| g)

/-- FP32 product, one rounding. -/
def mul32 (md : RMode) (x y : W32) : W32 × Fl :=
  let (v, f) := (f32 x).mul (f32 y)
  let (r, g) := round32 md v
  (r, f ||| g)

/-- FP32 product and sum, the product exact (R252). -/
def fma32 (md : RMode) (x y z : W32) : W32 × Fl :=
  let (p, f) := (f32 x).mul (f32 y)
  let (v, h) := p.add (isRdn md) (f32 z)
  let (r, g) := round32 md v
  (r, f ||| h ||| g ||| flIf (f32 z).isSig flNV)

/-- Smaller (`lt`) or larger of two FP32 values; −0 below +0; NaN if either is NaN (R252). -/
def minmax32 (isMin : Bool) (x y : W32) : W32 × Fl :=
  let a := f32 x
  let b := f32 y
  if a.isNan || b.isNan then (0x7FC00000#32, flIf (a.isSig || b.isSig) flNV)
  else
    let less := match a.cmp b with
      | .lt => true
      | .eq => a.neg && !b.neg
      | .gt => false
    (if less == isMin then x else y, 0#7)

/-- Absolute value of an FP32 pattern: exact, a NaN becomes the canonical NaN (R376). -/
def abs32 (x : W32) : W32 × Fl :=
  let a := f32 x
  if a.isNan then (0x7FC00000#32, flIf a.isSig flNV) else (x &&& 0x7FFFFFFF#32, 0#7)

/-- Negation of an FP32 pattern: exact, a NaN becomes the canonical NaN (R376). -/
def neg32 (x : W32) : W32 × Fl :=
  let a := f32 x
  if a.isNan then (0x7FC00000#32, flIf a.isSig flNV) else (x ^^^ 0x80000000#32, 0#7)

/-- FADD of AMO: one FP32 lane added, rounded RNE (R335). -/
def faddLane (x y : W32) : W32 × Fl := add32 rne x y

/-! ## Generator (R256) -/

/-- One round of Rand32. -/
def randRound (v k : BitVec 64) : BitVec 64 × BitVec 64 :=
  let v := v ^^^ k
  let v := v * 0xD6E8FEB86659FD93#64
  (v ^^^ (v >>> 29), k + 0x9E3779B97F4A7C15#64)

/-- The counter-based generator (R256). -/
def rand32 (seed tid row col : Nat) : Nat :=
  let v := BitVec.ofNat 64 ((row % 2 ^ 32) <<< 32 ||| col % 2 ^ 32)
  let k := BitVec.ofNat 64 ((seed % 2 ^ 32) <<< 32 ||| tid % 2 ^ 32)
  let r := (List.range 6).foldl (fun (p : BitVec 64 × BitVec 64) _ => randRound p.1 p.2) (v, k)
  (r.1 >>> 32).toNat

/-- The 16-bit draw of RSR (R257). -/
def rsrDraw (seed tid row col : Nat) : Nat := rand32 seed (tid ^^^ 0x80000000) row col >>> 16

/-- A conversion's mode with its RSR draw (R257). -/
def modeRsr (code seed tid row col : Nat) : RMode :=
  { code := code, r16 := if code = 4 then rsrDraw seed tid row col else 0 }

end Sys2Proof.Machine
end

