-- ==== Sys2Proof/Machine/Special.lean ====
section
/-! DEFINITION. The special functions: exact values enclosed in 320-bit fixed point and rounded once (R254, R389, R390). -/

namespace Sys2Proof.Machine

open Sys2Proof

/-- Fraction bits of the fixed-point enclosures. -/
def fxBits : Nat := 320

/-- ln 2 in units of 2^-320. -/
def fxLn2 : Int := 0xB17217F7D1CF79ABC9E3B39803F2F6AF40F343267298B62D8A0D175B8BAAFA2BE7B876206DEBAC98

/-- The circle constant in units of 2^-512. -/
def fxPi512 : Int := 0x3243F6A8885A308D313198A2E03707344A4093822299F31D0082EFA98EC4E6C89452821E638D01377BE5466CF34E90C6CC0AC29B7C97C50DD3F84D5B5B5470917

/-- 2 over the root of the circle constant, in units of 2^-320. -/
def fxTwoSqrtPi : Int := 0x120DD750429B6D11AE3A914FED7FD8688281341D7587CEA2E7342B06199CC416180EB39F0B24E1E23

/-- Fixed-point product, truncated down. -/
def fxMul (a b : Int) : Int := (a * b) >>> fxBits

/-- One in fixed point. -/
def fxOne : Int := 2 ^ fxBits

/-- A finite value in fixed point; exact when its exponent is at least -320. -/
def fxOf (neg : Bool) (m : Nat) (e : Int) : Int :=
  let k := e + fxBits
  signed neg (if 0 ≤ k then m <<< k.toNat else m >>> (-k).toNat)

/-- The sum of a Taylor series: each term is made from the last by `next n term`, for `fuel` terms. -/
def fxSeries (nextTerm : Nat → Int → Int) : Nat → Nat → Int → Int → Int
  | 0, _, _, s => s
  | fuel + 1, n, t, s => fxSeries nextTerm fuel (n + 1) (nextTerm n t) (s + t)

/-- e^r for 0 ≤ r < 1 in fixed point. -/
def fxExp (r : Int) : Int := fxSeries (fun n t => fxMul t r / ((n : Int) + 1)) 90 0 fxOne 0

/-- Sum of z^(2n+1)/(2n+1), for the area tangent of z. -/
def fxAtanh (z : Int) : Int :=
  let z2 := fxMul z z
  let rec go : Nat → Nat → Int → Int → Int
    | 0, _, _, s => s
    | fuel + 1, n, t, s => go fuel (n + 1) (fxMul t z2) (s + t / (2 * (n : Int) + 1))
  go 110 0 z 0

/-- ln of m / 2^b, where 2^b ≤ m < 2^(b+1), in fixed point. -/
def fxLnMant (m b : Nat) : Int :=
  let one : Int := 2 ^ b
  2 * fxAtanh ((((m : Int) - one) * fxOne) / ((m : Int) + one))

/-- sin r and cos r for a small r in fixed point. -/
def fxSin (r : Int) : Int := fxSeries (fun n t => -(fxMul (fxMul t r) r) / ((2 * (n : Int) + 2) * (2 * n + 3))) 60 0 r 0
def fxCos (r : Int) : Int := fxSeries (fun n t => -(fxMul (fxMul t r) r) / ((2 * (n : Int) + 1) * (2 * n + 2))) 60 0 fxOne 0

/-- erf x for 0 ≤ x < 6 in fixed point. -/
def fxErf (x : Int) : Int :=
  let x2 := fxMul x x
  let s := fxSeries (fun n t => 2 * fxMul t x2 / (2 * (n : Int) + 3)) 320 0 x 0
  let k := x2 / fxLn2
  let e := fxExp (x2 - k * fxLn2)
  let inv := (fxOne * fxOne / e) >>> k.toNat
  fxMul fxTwoSqrtPi (fxMul inv s)

/-- An enclosure of an exact value: between `lo` and `hi` times 2^ex, never exact. -/
structure Encl where
  lo : Int
  hi : Int
  ex : Int
  deriving DecidableEq, Repr

/-- An enclosure around a fixed-point approximation, its error far below 2^24 units. -/
def around (v ex : Int) : Encl := { lo := v - 16777216, hi := v + 16777216, ex := ex - fxBits }

/-- A value just below one. -/
def belowOne : Encl := { lo := fxOne - 2, hi := fxOne - 1, ex := -(fxBits : Int) }

/-- A positive value far below the smallest subnormal. -/
def tiny : Encl := { lo := 1, hi := 2, ex := -(fxBits : Int) }

/-- The negated enclosure. -/
def Encl.negate (x : Encl) : Encl := { lo := -x.hi, hi := -x.lo, ex := x.ex }

/-- An enclosure negated when `neg`. -/
def Encl.negIf (neg : Bool) (x : Encl) : Encl := if neg then x.negate else x

/-- The one FP32 value to which an enclosed, inexact value rounds. Both ends round alike at this precision, but for values that
lie just inside an FP32 value in magnitude (sin, tanh and cos of tiny arguments): the end of smaller magnitude decides. -/
def Encl.round (x : Encl) (md : RMode) : W32 × Fl :=
  let m := min x.lo.natAbs x.hi.natAbs
  round32 md (.fin (decide (x.lo < 0)) (m * 2 + 1) (x.ex - 1))

/-- The upper end as an exact value. -/
def Encl.upper (x : Encl) : Val := .fin (decide (x.hi < 0)) x.hi.natAbs x.ex

/-- 2^(k + r) from e^(r ln 2), for a fixed-point exponent x. -/
def encExp2 (x : Int) : Encl :=
  let k := x >>> fxBits
  around (fxExp (fxMul (x - k * fxOne) fxLn2)) k

/-- e^x for a fixed-point x. -/
def encExp (x : Int) : Encl :=
  let k := x / fxLn2
  around (fxExp (x - k * fxLn2)) k

/-- ln of a positive value. -/
def encLn (m : Nat) (e : Int) : Encl :=
  let b := Nat.log2 m
  around (fxLnMant m b + (e + b) * fxLn2) 0

/-- log2 of a positive value. -/
def encLog2 (m : Nat) (e : Int) : Encl :=
  let b := Nat.log2 m
  around ((fxLnMant m b * fxOne) / fxLn2 + (e + b) * fxOne) 0

/-- Hyperbolic tangent of a positive fixed-point x. -/
def encTanh (x : Int) : Encl :=
  if x > 128 * fxOne then belowOne
  else
    let y := 2 * x
    let k := y / fxLn2
    let e := fxExp (y - k * fxLn2) <<< k.toNat
    around (((e - fxOne) * fxOne) / (e + fxOne)) 0

/-- Logistic function of a fixed-point x. -/
def encSigm (x : Int) : Encl :=
  if x > 200 * fxOne then belowOne
  else if x < -200 * fxOne then tiny
  else
    let a := if x < 0 then -x else x
    let k := a / fxLn2
    let e := fxExp (a - k * fxLn2) <<< k.toNat
    if x < 0 then around ((fxOne * fxOne) / (e + fxOne)) 0
    else around ((e * fxOne) / (e + fxOne)) 0

/-- The quadrant and the reduced argument of a finite value in radians, exact to far below an FP32 unit (R390). -/
def trigReduce (neg : Bool) (m : Nat) (e : Int) : Int × Int :=
  let x : Int := signed neg (if 0 ≤ e + 512 then m <<< (e + 512).toNat else 0)
  let half := fxPi512 / 2
  let n := (2 * x + half) / (2 * half)
  (n, (x - n * half) >>> (512 - fxBits))

/-- sin of a finite non-zero value, shifted by `q` quadrants. -/
def encTrig (neg : Bool) (m : Nat) (e q : Int) : Encl :=
  let (n, r) := trigReduce neg m e
  match ((n + q) % 4).toNat with
  | 0 => around (fxSin r) 0
  | 1 => around (fxCos r) 0
  | 2 => around (-(fxSin r)) 0
  | _ => around (-(fxCos r)) 0

/-- erf of a positive fixed-point x. -/
def encErf (x : Int) : Encl :=
  if x ≥ 6 * fxOne then { lo := fxOne - 2 ^ 270, hi := fxOne - 1, ex := -(fxBits : Int) } else around (fxErf x) 0

/-- The special functions by opcode (R389). -/
inductive SFn where
  | exp2 | log2 | exp | ln | rcp | sqrt | rsq | tanh | sigm | sin | cos | erf
  deriving DecidableEq, Repr

/-- A quotient of finite values with enough bits to round once: significand with a sticky bit, and exponent. -/
def quotient (m1 : Nat) (e1 : Int) (m2 : Nat) (e2 : Int) : Nat × Int :=
  let n := m1 <<< 96
  let q := n / m2
  (q * 2 + b01 (n % m2 != 0), e1 - e2 - 97)

/-- A square root of a positive finite value with a sticky bit: significand and exponent. -/
def squareRoot (m : Nat) (e : Int) : Nat × Int :=
  let sh := if e % 2 = 0 then 128 else 129
  let n := m <<< sh
  let r := Nat.sqrt n
  (r * 2 + b01 (r * r != n), (e - sh) / 2 - 1)

/-- A quotient of two FP32 values, rounded once; a divisor of zero raises DZ for every dividend but 0 and a NaN (R254, R389). -/
def div32 (md : RMode) (x y : Val) : W32 × Fl :=
  match x, y with
  | .nan s, .nan t => (0x7FC00000#32, flIf (s || t) flNV)
  | .nan s, _ => (0x7FC00000#32, flIf s flNV)
  | _, .nan t => (0x7FC00000#32, flIf t flNV)
  | .inf _, .inf _ => (0x7FC00000#32, flNV)
  | .inf a, .fin n m _ => let (r, f) := round32 md (.inf (a != n)); (r, f ||| flIf (m == 0) flDZ)
  | .fin n _ _, .inf b => round32 md (.fin (n != b) 0 0)
  | .fin n1 m1 e1, .fin n2 m2 e2 =>
    if m2 = 0 then
      if m1 = 0 then (0x7FC00000#32, flNV)
      else let (r, f) := round32 md (.inf (n1 != n2)); (r, f ||| flDZ)
    else
      let (q, e) := quotient m1 e1 m2 e2
      round32 md (.fin (n1 != n2) q e)

/-- A special function of an FP32 value: special inputs, exact results, one rounding, flags (R254, R390). -/
def sfn32 (f : SFn) (md : RMode) (x : Val) : W32 × Fl :=
  match x with
  | .nan s => (0x7FC00000#32, flIf s flNV)
  | .inf n =>
    match f with
    | .exp2 | .exp => if n then (0#32, 0#7) else (0x7F800000#32, 0#7)
    | .log2 | .ln | .sqrt => if n then (0x7FC00000#32, flNV) else (0x7F800000#32, 0#7)
    | .rcp => (if n then 0x80000000#32 else 0#32, 0#7)
    | .rsq => if n then (0x7FC00000#32, flNV) else (0#32, 0#7)
    | .tanh | .erf => (if n then 0xBF800000#32 else 0x3F800000#32, 0#7)
    | .sigm => (if n then 0#32 else 0x3F800000#32, 0#7)
    | .sin | .cos => (0x7FC00000#32, flNV)
  | .fin n m e =>
    let fx := fxOf n m e
    let big := decide (topExp m e ≥ 9) && m != 0
    match f with
    | .exp2 =>
      if m = 0 then (0x3F800000#32, 0#7)
      else if big then
        if n then tiny.round md else round32 md (.fin false 1 400)
      else if (fx % fxOne) = 0 then round32 md (.fin false 1 (fx >>> fxBits))
      else (encExp2 fx).round md
    | .exp =>
      if m = 0 then (0x3F800000#32, 0#7)
      else if big then
        if n then tiny.round md else round32 md (.fin false 1 400)
      else (encExp fx).round md
    | .log2 =>
      if m = 0 then (0xFF800000#32, flDZ)
      else if n then (0x7FC00000#32, flNV)
      else if m = 2 ^ Nat.log2 m then round32 md (.ofInt (topExp m e))
      else (encLog2 m e).round md
    | .ln =>
      if m = 0 then (0xFF800000#32, flDZ)
      else if n then (0x7FC00000#32, flNV)
      else if m = 2 ^ Nat.log2 m && topExp m e == 0 then (0#32, 0#7)
      else (encLn m e).round md
    | .rcp => div32 md .one x
    | .sqrt =>
      if m = 0 then (if n then 0x80000000#32 else 0#32, 0#7)
      else if n then (0x7FC00000#32, flNV)
      else let (r, q) := squareRoot m e; round32 md (.fin false r q)
    | .rsq =>
      if m = 0 then (if n then 0xFF800000#32 else 0x7F800000#32, flDZ)
      else if n then (0x7FC00000#32, flNV)
      else
        -- 1 over the root of x is the root of (1 over x): round the root of an exact power of two over m
        let sh := if e % 2 = 0 then 256 else 257
        let num := (1 <<< sh) / m
        let r := Nat.sqrt num
        round32 md (.fin false (r * 2 + b01 (r * r * m != 1 <<< sh)) ((-e - sh) / 2 - 1))
    | .tanh => if m = 0 then (if n then 0x80000000#32 else 0#32, 0#7) else ((encTanh (if n then -fx else fx)).negIf n).round md
    | .sigm => if m = 0 then (0x3F000000#32, 0#7) else (encSigm (if topExp m e ≥ 20 then (if n then -300 * fxOne else 300 * fxOne) else fx)).round md
    | .sin => if m = 0 then (if n then 0x80000000#32 else 0#32, 0#7) else (encTrig n m e 0).round md
    | .cos => if m = 0 then (0x3F800000#32, 0#7) else (encTrig n m e 1).round md
    | .erf => if m = 0 then (if n then 0x80000000#32 else 0#32, 0#7) else ((encErf (if n then -fx else fx)).negIf n).round md

end Sys2Proof.Machine
end

