-- ==== Sys2Proof/Machine/Bounds.lean ====
section
/-! DEFINITION. Error bounds: every operation on a bound rounds up to FP32 (R247 to R251, R254). -/

namespace Sys2Proof.Machine

open Sys2Proof

/-- The bound +inf. -/
def bInf : W32 := 0x7F800000#32

/-- An exact value rounded up to a bound; a NaN is +inf. -/
def bUp (x : Val) : W32 :=
  match x with
  | .nan _ => bInf
  | _ => if x.neg && !x.isZero then 0#32 else (round32 rup x.abs).1

/-- BoundAdd (R247). -/
def bAdd (x y : W32) : W32 :=
  if x = bInf || y = bInf then bInf else bUp ((f32 x).add false (f32 y)).1

/-- A product of a bound and an exact non-negative value, rounded up; zero times +inf is +inf. -/
def bMul (x : W32) (v : Val) : W32 := if x = bInf then bInf else bUp ((f32 x).mul v.abs).1

/-- The larger of two bounds. -/
def bMax (x y : W32) : W32 := if (f32 x).cmp (f32 y) = .lt then y else x

/-- The bound 2^e. -/
def bPow (e : Int) : W32 := bUp (.fin false 1 e)

/-- Half(f, e) as an exponent of two (R249). -/
def halfExp (f : FloatFmt) (e : Int) : Int := max e f.emin + 1 - f.prec

/-- Half(f, e). -/
def bHalf (f : FloatFmt) (e : Int) : W32 := bPow (halfExp f e)

/-- The integer step of R249: 0.5 under RNE and 1 otherwise. -/
def quantStep (mode : Nat) : W32 := if mode = 0 then bPow (-1) else bPow 0

/-- Step(format code, mode, e) of R249. -/
def bStep (c mode : Nat) (e : Int) : W32 :=
  match floatFmt c with
  | some f => bPow (halfExp f e + (if mode = 0 then 0 else 1))
  | none => quantStep mode

/-- Exponent of a finite non-zero value, -1000 for zero. -/
def magExp : Val → Int
  | .fin _ m e => if m = 0 then -1000 else topExp m e
  | _ => 1000

/-- Exponent of the largest magnitude of a list of values. -/
def maxExp (l : List Val) : Int := l.foldl (fun a v => max a (magExp v)) (-1000)

/-- Exponent of the least power of two not below a finite value's magnitude; none for zero. -/
def ceilExp : Val → Option Int
  | .fin _ m e => if m = 0 then none else some (if m = 2 ^ Nat.log2 m then topExp m e else topExp m e + 1)
  | _ => some 1000

/-- The largest of two optional exponents. -/
def maxOpt (a b : Option Int) : Option Int :=
  match a, b with
  | none, x => x
  | x, none => x
  | some x, some y => some (max x y)

/-- Exponent of the least power of two not below the largest magnitude of a list. -/
def maxCeil (l : List Val) : Option Int := l.foldl (fun a v => maxOpt a (ceilExp v)) none

/-- A bound scaled by 2^e; nothing when every source element is zero. -/
def bScale (e : Option Int) (x : W32) : W32 :=
  match e with
  | none => 0#32
  | some e => bMul x (.fin false 1 e)

/-- The product term 2^e1 ε2 + 2^e2 ε1 + ε1 ε2 (R248, R251). -/
def bMulTerm (e1 e2 : Option Int) (x1 x2 : W32) : W32 :=
  if x1 = bInf || x2 = bInf then bInf
  else bAdd (bAdd (bScale e1 x2) (bScale e2 x1)) (bMul x1 (f32 x2))

/-- A bound times a count. -/
def bTimes (n : Nat) (x : W32) : W32 := if n = 0 then 0#32 else bMul x (.ofInt n)

/-- Growth of a tile bound in one step (R247). -/
def stepGrowth (ext int : Bool) (emax : Int) : W32 :=
  if ext then bPow (max (emax - 47) (-150))
  else if int then bPow (max (emax - 24) (-150) + 1)
  else bPow (max (emax - 24) (-150))

/-- ULP(e) of R254. -/
def bUlp (e : Int) : W32 := bPow (max e (-126) - 23)

/-- An exact difference of a value and a bound, none when it is not positive, and none at an infinite value, where the rule states no D (R254;
log 164). -/
def posDiff (mu : Val) (eps : W32) : Option Val :=
  let d := (mu.add false (f32 eps).negate).1
  if d.isZero || d.neg || !d.isFin then none else some d

/-- 1 over a positive value, rounded up to a bound. -/
def bRecip (v : Val) : W32 :=
  match v with
  | .fin _ m e => if m = 0 then bInf else let (q, x) := quotient (2 ^ m.log2) (-(m.log2 : Int)) m e; bUp (.fin false q x)
  | _ => bInf

/-- The root of a positive value, rounded up to a bound. -/
def bRoot (v : Val) : W32 :=
  match v with
  | .fin _ m e => if m = 0 then 0#32 else let (r, q) := squareRoot m e; bUp (.fin false r q)
  | _ => bInf

/-- The factor D of R254, from the largest and the smallest magnitude of the source. -/
def sfnD (f : SFn) (big small : Val) (eps : W32) : W32 :=
  let up := fun (g : Int → Encl) (c : Val) =>
    match (big.add false (f32 eps)).1 with
    | .fin _ m e => if topExp m e ≥ 9 && m != 0 then bInf else bUp ((g (fxOf false m e)).upper.mul c).1
    | _ => bInf
  match f with
  | .exp2 => up encExp2 (.fin false (fxLn2.toNat + 1) (-320))
  | .exp => up encExp (.fin false 1 0)
  | .log2 => match posDiff small eps with
    | none => bInf
    | some d => bRecip (d.mul (.fin false (fxLn2.toNat - 1) (-320))).1
  | .ln => match posDiff small eps with
    | none => bInf
    | some d => bRecip d
  | .rcp => match posDiff small eps with
    | none => bInf
    | some d => bRecip (d.mul d).1
  | .sqrt => match posDiff small eps with
    | none => bInf
    | some d => match d with
      | .fin _ m e => let (r, q) := squareRoot m e; bRecip (.fin false (r / 2) (q + 2))
      | _ => bInf
  | .rsq => match posDiff small eps with
    | none => bInf
    | some d => match ((d.mul d).1.mul d).1 with
      | .fin _ m e => let (r, q) := squareRoot m e; bRecip (.fin false (r / 2) (q + 2))
      | _ => bInf
  | .tanh => bPow 0
  | .sigm => bPow (-2)
  | .sin => bPow 0
  | .cos => bPow 0
  | .erf => bUp (.fin false (fxTwoSqrtPi.toNat + 1) (-320))

end Sys2Proof.Machine
end

