-- ==== Sys2Proof/Machine/Ops.lean ====
section
/-! DEFINITION. The named operations over the state: registers, memories, the physical map, events and counters, and the entry to
a trap handler with its return. -/

namespace Sys2Proof.Machine

open Sys2Proof

/-- What exec and a step answer. -/
abbrev Out := Host.Outcome State Fault Refusal

/-- Why a meaning does not complete: a cause is raised, the word waits, or the machine stops. -/
inductive Stop where
  | cause (c : Cause)
  | illegal           -- ILLEGAL_OP with the word and its position in TRAP_INFO (R260)
  | wait (k : WaitKind)
  | peer (kind pa : Nat) -- an access of a peer's memory has to be sent, or its answer is awaited (R455)
  | device (line : Nat) -- a burst of an HBM4 line is read again (R88)
  deriving DecidableEq, Repr

/-- A computation that may stop. -/
abbrev M (α : Type) := Except Stop α

/-- Raise a cause (R419). -/
def raise {α : Type} (code sub info : Nat) : M α := .error (.cause { code := code, sub := sub, info := info })

/-- Raise ILLEGAL_OP with the word and its position in TRAP_INFO (R260). -/
def illegal {α : Type} : M α := .error .illegal

/-- Go on only when `c` holds; otherwise ILLEGAL_OP. -/
def requireLegal (c : Bool) : M PUnit := if c then .ok ⟨⟩ else .error .illegal

/-- Wait. -/
def waitFor {α : Type} (k : WaitKind) : M α := .error (.wait k)

/-- Go on only when `c` holds; otherwise raise the cause. -/
def require (c : Bool) (code sub info : Nat) : M PUnit := if c then .ok ⟨⟩ else raise code sub info

/-! ## Cause codes (R419) -/

def cIllegalOp : Nat := 0x01
def cIllegalContext : Nat := 0x02
def cDeadRegister : Nat := 0x03
def cTranslation : Nat := 0x04
def cHandleRevoked : Nat := 0x05
def cProtection : Nat := 0x06
def cMisaligned : Nat := 0x07
def cRegionBounds : Nat := 0x08
def cScaleLayout : Nat := 0x09
def cCorruptTile : Nat := 0x0A
def cBoundExceeded : Nat := 0x0B
def cNumeric : Nat := 0x0C
def cTokenOverflow : Nat := 0x0D
def cVersionOverflow : Nat := 0x0E
def cLeaseTimeout : Nat := 0x0F
def cWatchdog : Nat := 0x10
def cSoftware : Nat := 0x11
def cSdcDetected : Nat := 0x12
def cUncorrectable : Nat := 0x13
def cBadReturn : Nat := 0x14
def cReplayMismatch : Nat := 0x15
def cNoImage : Nat := 0x16

/-! ## Vectors -/

/-- Element `i`, or `d` outside the vector. -/
def vget {α : Type} {n : Nat} (v : Vector α n) (i : Nat) (d : α) : α := v[i]?.getD d

/-- The vector with element `i` replaced. -/
def vset {α : Type} {n : Nat} (v : Vector α n) (i : Nat) (x : α) : Vector α n := v.setIfInBounds i x

/-- A 57-bit address as its 64-bit register holds it: bit 56 extended (R68). -/
def sext57 (a : Nat) : Nat := if bit a 56 then a % 2 ^ 57 + 127 * 2 ^ 57 else a % 2 ^ 57

/-- Low `n` bits of a 64-bit value kept. -/
def lowBits (n : Nat) (x : W) : W := BitVec.ofNat 64 (x.toNat % 2 ^ n)

/-! ## Parts of the machine by number (R19) -/

/-- The number of Agate's thread among the threads (R465; the model's own). -/
def agateThr : Nat := 1026

def State.thread (s : State) (k : Nat) : Thread := Tab.getD s.thr k Thread.blank
def State.setThread (s : State) (k : Nat) (t : Thread) : State := { s with thr := Tab.put k t s.thr }
def State.core (s : State) (k : Nat) : Core := Tab.getD s.cores k Core.blank
def State.setCore (s : State) (k : Nat) (c : Core) : State := { s with cores := Tab.put k c s.cores }
def State.cluster (s : State) (k : Nat) : Cluster := Tab.getD s.clusters k Cluster.blank
def State.setCluster (s : State) (k : Nat) (c : Cluster) : State := { s with clusters := Tab.put k c s.clusters }
def State.die (s : State) (d : Nat) : Die := vget s.dies d Die.blank
def State.setDie (s : State) (d : Nat) (x : Die) : State := { s with dies := vset s.dies d x }
def State.stack (s : State) (d : Nat) : Stack := vget s.hbm d Stack.blank
def State.setStack (s : State) (d : Nat) (x : Stack) : State := { s with hbm := vset s.hbm d x }
def State.port (s : State) (p : Nat) : Port := vget s.ports p Port.blank
def State.setPort (s : State) (p : Nat) (x : Port) : State := { s with ports := vset s.ports p x }

/-- Core of a thread key. -/
def thrCore (k : Nat) : Nat := k / 2
/-- Global cluster of a thread key. -/
def thrCluster (k : Nat) : Nat := k / 8
/-- Compute die of a thread key. -/
def thrDie (k : Nat) : Nat := k / 128
/-- Global cluster of a core. -/
def coreCluster (c : Nat) : Nat := c / 4
/-- Compute die of a core. -/
def coreDie (c : Nat) : Nat := c / 64

/-- The thread that acts. -/
def State.me (s : State) : Nat := s.focus.getD 0
/-- The registers of the thread that acts. -/
def State.th (s : State) : Thread := s.thread s.me
/-- Write the registers of the thread that acts. -/
def State.setTh (s : State) (t : Thread) : State := s.setThread s.me t

/-- Is the plane of a thread key the active one of its core (R19, R21). -/
def State.isActive (s : State) (k : Nat) : Bool := decide ((s.core (thrCore k)).active = k % 2)

/-- The physical thread number (R19). -/
def State.physNumber (s : State) (k : Nat) : Nat := thrCore k * 2 + b01 (!s.isActive k)

/-- The task with a uid. -/
def State.taskOf (s : State) (uid : Nat) : Option Task := s.tasks.find? fun t => t.uid == uid

/-- Replace a task. -/
def State.setTask (s : State) (t : Task) : State :=
  { s with tasks := s.tasks.map fun u => if u.uid = t.uid then t else u }

/-- Change the task with a uid. -/
def State.modTask (s : State) (uid : Nat) (f : Task → Task) : State :=
  { s with tasks := s.tasks.map fun u => if u.uid = uid then f u else u }

/-- Change a thread. -/
def State.modThread (s : State) (k : Nat) (f : Thread → Thread) : State := s.setThread k (f (s.thread k))
/-- Change a core. -/
def State.modCore (s : State) (k : Nat) (f : Core → Core) : State := s.setCore k (f (s.core k))
/-- Change a cluster. -/
def State.modCluster (s : State) (k : Nat) (f : Cluster → Cluster) : State := s.setCluster k (f (s.cluster k))
/-- Change a die. -/
def State.modDie (s : State) (k : Nat) (f : Die → Die) : State := s.setDie k (f (s.die k))
/-- Change a stack. -/
def State.modStack (s : State) (k : Nat) (f : Stack → Stack) : State := s.setStack k (f (s.stack k))

/-- A free value: draw `k` of this step (log 4). -/
def State.free (s : State) (k : Nat) : W := Config.freeValue (s.fresh + k)

/-! ## THREAD_STATUS fields (R47) -/

def Thread.inh (t : Thread) : Bool := t.status.getLsbD 25
def Thread.sys (t : Thread) : Bool := t.status.getLsbD 24
def Thread.hreq (t : Thread) : Bool := t.status.getLsbD 23
def Thread.lutrap (t : Thread) : Bool := t.status.getLsbD 22
def Thread.eclass (t : Thread) : Nat := bits t.status.toNat 21 20
def Thread.tenant (t : Thread) : Nat := bits t.status.toNat 15 8
/-- Bit `i` of a 32-bit register set to `b`. -/
def setBit32 (w : W32) (i : Nat) (b : Bool) : W32 := if b then w ||| (1#32 <<< i) else w &&& ~~~(1#32 <<< i)

/-! ## The event queue and the error counters (R164, R165, R231) -/

/-- Append an event record, or count it lost when the queue is full (R165). -/
def State.post (s : State) (kind src unit detail : Nat) : State :=
  let q := s.evq
  if q.tail - q.head = 4096#32 then
    { s with evq := { q with lost := if q.lost = 0xFFFFFFFF#32 then q.lost else q.lost + 1#32 } }
  else
    { s with evq := { q with
      recs := Tab.put (q.tail.toNat % 4096) { time := s.now, kind := kind, src := src, unit := unit, detail := detail } q.recs,
      tail := q.tail + 1#32 } }

/-- Indices of the error counters (R231; the order within the window is the model's, log 12). -/
def errSecded (core : Nat) : Nat := core
def errSym (str unit : Nat) : Nat := 1000 + str * 1000 + unit
def errBank (str unit : Nat) : Nat := 10000 + str * 1000 + unit
def errCellCorr (st : Nat) : Nat := 20000 + st
def errCellUnc (st : Nat) : Nat := 20010 + st
def errXfer (st : Nat) : Nat := 20020 + st
def errLane (st : Nat) : Nat := 20030 + st
def errLpt (io : Nat) : Nat := 20040 + io
def errPoison (u : Nat) : Nat := 20050 + u
def errFrame : Nat := 20070

/-- Advance an error counter, saturating (R231). -/
def State.countErr (s : State) (i : Nat) : State :=
  let v := Tab.getD s.errs i 0#32
  { s with errs := Tab.put i (if v = 0xFFFFFFFF#32 then v else v + 1#32) s.errs }

/-- UNIT of an event of a core (R164). -/
def unitOfCore (core : Nat) : Nat := ((core / 4) % 16) <<< 8 ||| (core % 4)

/-! ## Home memory: canonical cells, unlisted bytes read 0 (log 2) -/

/-- The byte at a home address. -/
def memByte (m : List Host.Cell) (a : Nat) : Byte := Tab.getD m a 0#8

/-- Write one byte, keeping the canonical form. -/
def memSet (m : List Host.Cell) (a : Nat) (v : Byte) : List Host.Cell := Tab.set m a v 0#8

/-- The canonical form: addresses strictly rising, no byte equal to an unlisted one. -/
def Memory.wf : List Host.Cell → Bool
  | [] => true
  | (_, v) :: [] => v != 0#8
  | (a, v) :: (b, w) :: r => v != 0#8 && decide (a < b) && Memory.wf ((b, w) :: r)

/-- `n` bytes from an address. -/
def memBytes (m : List Host.Cell) : Nat → Nat → List Byte
  | _, 0 => []
  | a, n + 1 => memByte m a :: memBytes m (a + 1) n

/-- Write bytes from an address on. -/
def memPut (m : List Host.Cell) : Nat → List Byte → List Host.Cell
  | _, [] => m
  | a, b :: r => memPut (memSet m a b) (a + 1) r

/-- A little-endian number of `n` bytes. -/
def memNat (m : List Host.Cell) (a n : Nat) : Nat := leNat (memBytes m a n)

/-! ## Lines (R83, R84) -/

/-- Byte `i` of a line. -/
def lineByte (d : BitVec 512) (i : Nat) : Byte := d.extractLsb' (8 * i) 8

/-- A line from its bytes. -/
def lineOf (l : List Byte) : BitVec 512 := BitVec.ofNat 512 (leNat l)

/-- The bytes of a line. -/
def lineBytes (d : BitVec 512) : List Byte := leBytes 64 d.toNat

/-- A byte mask with bits `lo` to `lo + n - 1`. -/
def maskRange (lo n : Nat) : BitVec 64 := BitVec.ofNat 64 ((2 ^ n - 1) <<< lo)

/-- Every byte. -/
def maskAll : BitVec 64 := BitVec.allOnes 64

/-- The bit mask of a byte mask. -/
def expandMask (m : BitVec 64) : BitVec 512 :=
  BitVec.ofNat 512 ((List.range 64).foldl (fun a i => if m.getLsbD i then a ||| (255 <<< (8 * i)) else a) 0)

/-- A line with the masked bytes of another (R118). -/
def mergeLine (old new : BitVec 512) (m : BitVec 64) : BitVec 512 :=
  let x := expandMask m
  (old &&& ~~~x) ||| (new &&& x)

/-! ## The physical map (R66, R67, R69) -/

/-- Where a line has its home (R83). -/
inductive Home where
  | die (d : Nat)
  | lp (io : Nat)
  | hostWin (port : Nat)
  | peer (m : Nat)
  | mgmt
  | unbacked
  deriving DecidableEq, Repr

/-- A physical address with the module's own peer window folded onto the local map (R66). -/
def State.localPa (s : State) (pa : Nat) : Nat :=
  if pa ≥ 2 ^ 51 ∧ (pa - 2 ^ 51) / 2 ^ 43 = s.boot.module then (pa - 2 ^ 51) % 2 ^ 43 else pa

/-- A line named through the module's own peer window is its local line (R66). -/
def State.localLine (s : State) (line : Nat) : Nat := s.localPa (line * 64) / 64

/-- The home of a physical address, after folding (R66, R67, R83). -/
def State.homeOf (s : State) (pa : Nat) : Home :=
  let a := s.localPa pa
  if a < 2 ^ 40 then
    if a % 2 ^ 37 < 0x1800000000 ∧ (s.stack (a / 2 ^ 37)).present = true then .die (a / 2 ^ 37) else .unbacked
  else if a < 0x70000000000 then .lp (if ((a - 2 ^ 40) / 4096) % 48 < 24 then 0 else 1)
  else if a < 0x80000000000 then .mgmt
  else if a < 0x100000000000 then .unbacked
  else if a < 0x200000000000 then .hostWin (b01 (bit a 43))
  else if a < 2 ^ 51 then .unbacked
  else if a < 2 ^ 52 then .peer ((a - 2 ^ 51) / 2 ^ 43)
  else .unbacked

/-- Is a byte backed (R69). -/
def State.backed (s : State) (pa : Nat) : Bool :=
  match s.homeOf pa with
  | .unbacked => false
  | _ => true

/-- Is a page of bytes wholly backed: the map's parts are aligned to far more than any gap a page can straddle, so its ends decide
but for the end of a stack's 96 GB, which is a multiple of 4 GiB. -/
def State.backedPage (s : State) (pa n : Nat) : Bool := s.backed pa && s.backed (pa + n - 1)

/-- Bytes of a page-size code (R27). -/
def pageBytes : Nat → Nat
  | 0 => 2 ^ 12
  | 1 => 2 ^ 14
  | 2 => 2 ^ 16
  | 3 => 2 ^ 18
  | 4 => 2 ^ 20
  | 5 => 2 ^ 21
  | 6 => 2 ^ 22
  | 7 => 2 ^ 24
  | 8 => 2 ^ 26
  | 9 => 2 ^ 28
  | 10 => 2 ^ 30
  | _ => 2 ^ 32

/-! ## Registers with last use (R41, R42) -/

/-- Has an earlier LDS, or the status of an earlier XLATE, still to be written into a g register (R282). -/
def Thread.gPending (t : Thread) (r : Nat) : Bool :=
  t.ctlAcc.any (fun a => !a.store && a.d == r && a.dead.isNone) ||
    t.settles.any (fun x => !x.load && !x.cancelled && x.st == r && x.dead.isNone)

/-- The value of a g register; g0 reads 0, one still to be written is waited for (R282), a freed one is a free value or raises
DEAD_REGISTER. -/
def rdG (s : State) (t : Thread) (r k : Nat) : M W :=
  if r = 0 then .ok 0#64
  else if t.gPending r then waitFor .performed
  else if t.freed.g.getLsbD r then
    if t.lutrap then raise cDeadRegister 0 r else .ok (s.free k)
  else .ok (vget t.g r 0#64)

/-- Earlier words' pending writes of a register come to nothing: the word at the PC has written it (R282). -/
def Thread.dropPending (t : Thread) (r : Nat) : Thread :=
  { t with
    ctlAcc := t.ctlAcc.map fun a => if !a.store && a.d == r && a.dead.isNone then { a with dead := some t.seq } else a
    settles := t.settles.map fun x => if !x.load && x.st == r && x.dead.isNone then { x with dead := some t.seq } else x }

/-- Write a g register: g0 discards, and a write redefines a freed register (R26, R41). -/
def wrG (t : Thread) (r : Nat) (v : W) : Thread :=
  if r = 0 then t
  else { t.dropPending r with g := vset t.g r v, freed := { t.freed with g := t.freed.g &&& ~~~(1#32 <<< r) } }

/-- Free a g register when its last-use bit is set. -/
def freeG (t : Thread) (l : BitVec 1) (r : Nat) : Thread :=
  if l = 1#1 then { t with freed := { t.freed with g := t.freed.g ||| (1#32 <<< r) } } else t

/-- The value of a predicate; p0 reads 1 (R26). -/
def rdP (t : Thread) (r : Nat) : Bool := r == 0 || t.p.getLsbD r

/-- Write a predicate; p0 discards. -/
def wrP (t : Thread) (r : Nat) (b : Bool) : Thread :=
  if r = 0 then t
  else { t with p := if b then t.p ||| (1#8 <<< r) else t.p &&& ~~~(1#8 <<< r) }

/-- The value of an index register of the load (`ld`) or the store sequencer. -/
def rdX (s : State) (t : Thread) (ld : Bool) (r k : Nat) : M W :=
  if (if ld then t.freed.xl else t.freed.xs).getLsbD r then
    if t.lutrap then raise cDeadRegister 0 (0x100 + r) else .ok (s.free k)
  else .ok (vget (if ld then t.xl else t.xs) r 0#64)

/-- Write an index register. -/
def wrX (t : Thread) (ld : Bool) (r : Nat) (v : W) : Thread :=
  if ld then { t with xl := vset t.xl r v, freed := { t.freed with xl := t.freed.xl &&& ~~~(1#8 <<< r) } }
  else { t with xs := vset t.xs r v, freed := { t.freed with xs := t.freed.xs &&& ~~~(1#8 <<< r) } }

/-- Free an index register when its last-use bit is set. -/
def freeX (t : Thread) (ld : Bool) (l : BitVec 1) (r : Nat) : Thread :=
  if l = 1#1 then
    if ld then { t with freed := { t.freed with xl := t.freed.xl ||| (1#8 <<< r) } }
    else { t with freed := { t.freed with xs := t.freed.xs ||| (1#8 <<< r) } }
  else t

/-- Is a compute register one that a word which has issued and not finished writes: a compute word that reads it waits for that (R440). -/
def Thread.regBusy (t : Thread) (file r : Nat) : Bool := t.flights.any fun f => f.regs.contains (file, r)

/-- The value of a region register. -/
def rdA (s : State) (t : Thread) (r k : Nat) : M W :=
  if t.regBusy 0 r then waitFor .performed
  else if t.freed.a.getLsbD r then
    if t.lutrap then raise cDeadRegister 0 (0x200 + r) else .ok (s.free k)
  else .ok (vget t.a r 0#64)

/-- The value of a wrap register. -/
def rdM (s : State) (t : Thread) (r k : Nat) : M W :=
  if t.regBusy 1 r then waitFor .performed
  else if t.freed.m.getLsbD r then
    if t.lutrap then raise cDeadRegister 0 (0x400 + r) else .ok (s.free k)
  else .ok (vget t.m r 0#64)

/-- Write a region register alone. -/
def wrA (t : Thread) (r : Nat) (v : W) : Thread :=
  { t with a := vset t.a r v, freed := { t.freed with a := t.freed.a &&& ~~~(1#16 <<< r) } }

/-- Write a wrap register alone. -/
def wrM (t : Thread) (r : Nat) (v : W) : Thread :=
  { t with m := vset t.m r v, freed := { t.freed with m := t.freed.m &&& ~~~(1#16 <<< r) } }

/-- Free a region register and its wrap register. -/
def freeA (t : Thread) (l : BitVec 1) (r : Nat) : Thread :=
  if l = 1#1 then
    { t with freed := { t.freed with a := t.freed.a ||| (1#16 <<< r), m := t.freed.m ||| (1#16 <<< r) } }
  else t

/-- The value of a scalar. -/
def rdS (s : State) (t : Thread) (r k : Nat) : M W :=
  if t.regBusy 2 r then waitFor .performed
  else if t.freed.s.getLsbD r then
    if t.lutrap then raise cDeadRegister 0 (0x300 + r) else .ok (s.free k)
  else .ok (vget t.s r 0#64)

/-- Write a scalar. -/
def wrS (t : Thread) (r : Nat) (v : W) : Thread :=
  { t with s := vset t.s r v, freed := { t.freed with s := t.freed.s &&& ~~~(1#8 <<< r) } }

/-- Free a scalar when its last-use bit is set. -/
def freeS (t : Thread) (l : BitVec 1) (r : Nat) : Thread :=
  if l = 1#1 then { t with freed := { t.freed with s := t.freed.s ||| (1#8 <<< r) } } else t

/-! ## Handles (R27) -/

def hState (h : W) : Nat := bits h.toNat 4 2
def hGen (h : W) : Nat := bits h.toNat 63 52
def hFrame (h : W) : Nat := bits h.toNat 51 12
def hPsz (h : W) : Nat := bits h.toNat 11 8
def hRights (h : W) : Nat := b01 (h.getLsbD 7) + 2 * b01 (h.getLsbD 6) + 4 * b01 (h.getLsbD 5)

/-- A handle register from its fields; rights have RD in bit 0, WR in bit 1, AT in bit 2. -/
def mkHandle (gen frame psz rights st : Nat) : W :=
  BitVec.ofNat 64 ((gen % 4096) <<< 52 ||| (frame % 2 ^ 40) <<< 12 ||| (psz % 16) <<< 8 ||| (b01 (bit rights 0)) <<< 7
    ||| (b01 (bit rights 1)) <<< 6 ||| (b01 (bit rights 2)) <<< 5 ||| (st % 8) <<< 2)

/-- Physical base of the page of a handle. -/
def hBase (h : W) : Nat := hFrame h * 4096

/-! ## Tokens (R137 to R139) -/

/-- Push `n` tokens on a pair; true when the count would pass 63. -/
def pushTok (t : Thread) (pair n : Nat) : Thread × Bool :=
  let c := vget t.tok pair 0 + n
  ({ t with tok := vset t.tok pair (min c 63) }, decide (c > 63))

/-- Pop `n` tokens of a pair. -/
def popTok (t : Thread) (pair n : Nat) : Thread := { t with tok := vset t.tok pair (vget t.tok pair 0 - n) }

/-! ## The snapshot of the control state (R421) -/

/-- The control state as it stands. -/
def Thread.snap (t : Thread) : Snap :=
  { g := t.g, p := t.p, h := t.h, hPoison := t.hPoison, hLine := t.hLine, hSwm := t.hSwm, hRq := t.hRq, hVa := t.hVa, freed := t.freed }

/-- The control state returned to a snapshot. Of the freed bits these are those of the g file: control words free nothing else, and what an
engine word that has issued has freed or redefined stays so (R41, R421). -/
def Thread.restoreSnap (t : Thread) (n : Snap) : Thread :=
  { t with
    g := n.g, p := n.p, h := n.h, hPoison := n.hPoison, hLine := n.hLine, hSwm := n.hSwm, hRq := n.hRq, hVa := n.hVa
    freed := { t.freed with g := n.freed.g } }

/-- A change of the control state as it stands. -/
def Thread.onSnap (t : Thread) (f : Snap → Snap) : Thread := t.restoreSnap (f t.snap)

/-- Every snapshot of a thread changed, with the steering order of the unit at whose place it was taken. -/
def Thread.mapSnaps (t : Thread) (f : Nat → Snap → Snap) : Thread :=
  let unit (u : QUnit) : QUnit := { u with snap := f u.seq u.snap, snapN := f (u.seq + 1) u.snapN }
  let loop (l : LoopBuf) : LoopBuf := { l with buf := l.buf.map unit }
  { t with
    ldQ := t.ldQ.map unit, cpQ := t.cpQ.map unit, stQ := t.stQ.map unit, lpL := loop t.lpL, lpC := loop t.lpC, lpS := loop t.lpS
    flights := t.flights.map fun (x : Flight) => { x with snap := f (x.seq + 1) x.snap }
    trapPend := t.trapPend.map fun (p : TrapPend) => { p with snap := f p.seq p.snap } }

/-- Does a pending write of a register reach the control state at the place of unit `f`: no word before `f` has written it since. -/
def aliveAt (dead : Option Nat) (f : Nat) : Bool :=
  match dead with
  | none => true
  | some w => decide (f ≤ w)

/-- A g register of the control state written by a word whose result came late. -/
def Snap.lateG (n : Snap) (r : Nat) (v : W) : Snap :=
  if r = 0 then n
  else { n with g := vset n.g r v, freed := { n.freed with g := n.freed.g &&& ~~~(1#32 <<< r) } }

/-- The late write of a g register by the word of steering order `q`: in the control state, unless a later word has written the register,
and in every snapshot taken after the word (R282, R421). -/
def Thread.lateG (t : Thread) (q : Nat) (dead : Option Nat) (r : Nat) (v : W) : Thread :=
  let t := if dead.isNone then t.onSnap fun n => n.lateG r v else t
  t.mapSnaps fun f n => if decide (q < f) && aliveAt dead f then n.lateG r v else n

/-- VALID handles whose page overlaps a range become REVOKED (R28, R72). -/
def Snap.revoke (n : Snap) (lo hi : Nat) : Snap :=
  { n with h := n.h.mapIdx fun i (v : W) =>
    let base := (vget n.hVa i 0#64).toNat / pageBytes (hPsz v) * pageBytes (hPsz v)
    if hState v = 2 ∧ base < hi ∧ lo < base + pageBytes (hPsz v) then mkHandle (hGen v) (hFrame v) (hPsz v) (hRights v) 4 else v }

/-! ## Taking an exception, and the return (R48, R49, R424, R397) -/

/-- TRAP_CAUSE from the status and the cause (R48). -/
def mkTrapCause (status : W32) (eng : Nat) (c : Cause) : W :=
  BitVec.ofNat 64 (status.toNat <<< 32 ||| (eng % 8) <<< 16 ||| (c.sub % 256) <<< 8 ||| c.code % 256)

/-- REP_STATE of a REP unit with `done` repeats run (R50). ACT says that it was interrupted between two of them: before repeat 0 it is 0
(log 168). -/
def mkRepState (remain mask done : Nat) : W32 :=
  BitVec.ofNat 32 ((if done = 0 then 0 else 1) <<< 31 ||| (remain % 64) <<< 16 ||| (mask % 8) <<< 8 ||| done % 64)

/-- The entry to a handler, in one step (R424): the trap registers are written, INH is set, fetch goes to the handler. -/
def enterHandler (t : Thread) (tid cidx : Nat) (eng : Eng) (c : Cause) (pc : Nat) (rep : Option (Nat × Nat × Nat))
    (target : Nat) : Thread :=
  { t with
    trapCause := mkTrapCause t.status eng.code c
    trapPc := BitVec.ofNat 64 (pc % 2 ^ 57)
    trapTask := BitVec.ofNat 64 ((tid % 2 ^ 40) <<< 24 ||| cidx % 2 ^ 24)
    trapInfo := BitVec.ofNat 64 c.info
    repState := match rep with
      | none => t.repState
      | some (remain, mask, done) => mkRepState remain mask done
    repPc := rep.map fun _ => pc
    status := setBit32 t.status 25 true
    pc := target
    pfx := []
    repDone := 0 }

/-- Reserved bits of THREAD_STATUS (R47). -/
def statusReserved : W32 := 0xFC0700FF#32

/-- May TRAPRET return: no reserved bit of SSTAT is set, and SYS, ECLASS and TENANT are the thread's (R48). -/
def canReturn (t : Thread) : Bool :=
  let ss := BitVec.ofNat 32 (t.trapCause.toNat >>> 32)
  decide (ss &&& statusReserved = 0#32) && decide (ss &&& 0x0130FF00#32 = t.status &&& 0x0130FF00#32)

/-- The return from a handler (R48, R50, R397): SSTAT becomes THREAD_STATUS with INH 0 and PLANE kept, fetch goes to TRAP_PC;
a REP that was interrupted resumes at repeat DONE, where TRAP_PC still names it. -/
def leaveHandler (t : Thread) : Thread :=
  let ss := BitVec.ofNat 32 (t.trapCause.toNat >>> 32)
  let pc := sext57 (bits t.trapPc.toNat 56 2 * 4)
  let again := t.repState.getLsbD 31 && t.repPc == some pc
  { t with
    status := setBit32 (setBit32 ss 25 false) 19 (t.status.getLsbD 19)
    pc := pc
    pfx := []
    repDone := if again then bits t.repState.toNat 5 0 else 0
    repPc := if again then some pc else none }

end Sys2Proof.Machine
end

