-- ==== Sys2Proof/Machine/Sha3.lean ====
section
/-! DEFINITION. The Keccak sponge of FIPS 202: SHA3-256, by which curves, images, transcripts and measurement slots are digested (R195, R463,
R465, R472), and the two extendable outputs that ML-DSA uses. Lane (x, y) of the state is entry x + 5 y of a list. -/

namespace Sys2Proof.Machine

open Sys2Proof

/-- One step of the 8-bit register whose low bit feeds the round constants. -/
def lfsrNext (r : Nat) : Nat := if r ≥ 128 then (2 * r) ^^^ 0x171 else 2 * r

/-- Seven steps of the register, collected into bits 0, 1, 3, 7, 15, 31 and 63 of a lane. -/
def lfsrLane : Nat → Nat → Nat → Nat × Nat
  | 0, r, acc => (r, acc)
  | n + 1, r, acc => lfsrLane n (lfsrNext r) (acc + r % 2 * 2 ^ (2 ^ (6 - n) - 1))

/-- Mix every column's parity into its two neighbour columns. -/
def mixColumns (a : List W) : List W :=
  let parity (x : Nat) : W := ((a.drop (x % 5)).zipIdx.filter fun e => e.2 % 5 == 0).foldl (fun p e => p ^^^ e.1) 0#64
  let turn := [0, 1, 2, 3, 4].map fun x => parity (x + 4) ^^^ (parity (x + 1)).rotateLeft 1
  a.zipWith (· ^^^ ·) (turn ++ turn ++ turn ++ turn ++ turn)

/-- Turn and move the lanes along the walk that takes (x, y) to (y, 2 x + 3 y): the lane left at its step `t` turns by the `t`-th triangular
number. -/
def walkLanes (a : List W) : Nat → Nat → Nat → Nat → List W → List W
  | 0, _, _, _, b => b
  | n + 1, t, x, y, b =>
    let z := (2 * x + 3 * y) % 5
    walkLanes a n (t + 1) y z (b.set (y + 5 * z) ((a.getD (x + 5 * y) 0#64).rotateLeft (t * (t + 1) / 2 % 64)))

/-- Combine each lane of a row of five with the two that follow it. -/
def mixRow : List W → List W
  | [p, q, r, s, t] => [p ^^^ (~~~q &&& r), q ^^^ (~~~r &&& s), r ^^^ (~~~s &&& t), s ^^^ (~~~t &&& p), t ^^^ (~~~p &&& q)]
  | l => l

/-- Every row of five. -/
def mixRows : Nat → List W → List W
  | 0, l => l
  | n + 1, l => mixRow (l.take 5) ++ mixRows n (l.drop 5)

/-- Rounds of the permutation; the register goes on from round to round. -/
def keccakFrom : Nat → Nat → List W → List W
  | 0, _, a => a
  | n + 1, r, a =>
    let m := mixColumns a
    let b := mixRows 5 (walkLanes m 24 1 1 0 m)
    let (r, rc) := lfsrLane 7 r 0
    keccakFrom n r (b.set 0 (b.headD 0#64 ^^^ BitVec.ofNat 64 rc))

/-- The permutation: 24 rounds. -/
def keccak (a : List W) : List W := keccakFrom 24 1 a

/-- A message with a domain suffix, padded to whole blocks of `rate` bytes. -/
def spongePad (rate suffix : Nat) (m : List Byte) : List Byte :=
  match rate - m.length % rate with
  | 1 => m ++ leBytes 1 (suffix + 128)
  | n => m ++ leBytes 1 suffix ++ List.replicate (n - 2) 0#8 ++ [0x80#8]

/-- The lanes of a block. -/
def blockLanes : Nat → List Byte → List W
  | 0, _ => []
  | n + 1, l => BitVec.ofNat 64 (leNat (l.take 8)) :: blockLanes n (l.drop 8)

/-- A state with a block of lanes added. -/
def addLanes : List W → List W → List W
  | v :: a, x :: b => (v ^^^ x) :: addLanes a b
  | a, _ => a

/-- Absorb blocks of a padded message. -/
def spongeIn (rate : Nat) : Nat → List W → List Byte → List W
  | 0, a, _ => a
  | n + 1, a, l => spongeIn rate n (keccak (addLanes a (blockLanes (rate / 8) l))) (l.drop rate)

/-- Squeeze blocks. -/
def spongeOut (rate : Nat) : Nat → List W → List Byte
  | 0, _ => []
  | n + 1, a => ((a.take (rate / 8)).flatMap fun v => leBytes 8 v.toNat) ++ spongeOut rate n (keccak a)

/-- `n` bytes of a sponge over a message. -/
def sponge (rate suffix n : Nat) (m : List Byte) : List Byte :=
  let p := spongePad rate suffix m
  (spongeOut rate ((n + rate - 1) / rate) (spongeIn rate (p.length / rate) (List.replicate 25 0#64) p)).take n

/-- SHA3-256. -/
def sha3 (m : List Byte) : List Byte := sponge 136 0x06 32 m

/-- `n` bytes of SHAKE128 and of SHAKE256. -/
def shake128 (n : Nat) (m : List Byte) : List Byte := sponge 168 0x1F n m
def shake256 (n : Nat) (m : List Byte) : List Byte := sponge 136 0x1F n m

end Sys2Proof.Machine
end

