-- ==== Sys2Proof/Machine/Agate.lean ====
section
/-! DEFINITION. Agate: its SRAM, its registers and operations, and the words of its thread, the responder's routine (R462 to R465). -/

namespace Sys2Proof.Machine

open Sys2Proof

/-! ## The SRAM and the registers (R465) -/

/-- Bytes of the SRAM; addresses wrap at 256 KiB. -/
def Agate.get (a : Agate) (o n : Nat) : List Byte := (List.range n).map fun i => memByte a.sram ((o + i) % 2 ^ 18)

/-- Write bytes of the SRAM. -/
def Agate.put (a : Agate) (o : Nat) (l : List Byte) : Agate :=
  { a with sram := (List.range l.length).foldl (fun m i => memSet m ((o + i) % 2 ^ 18) (l.getD i 0#8)) a.sram }

/-- Offsets of the request and the response buffer, and of the routine's scratch. -/
def reqBuf : Nat := 0x3E000
def repBuf : Nat := 0x3F000
def scrBuf : Nat := 0x8000
def scrBuf2 : Nat := 0x9000

/-- MBOX_STAT (R465). -/
def Agate.mboxStat (a : Agate) : Nat := b01 a.req <<< 31 ||| (a.path % 4) <<< 16 ||| a.len % 8192

/-- A request enters the request buffer. -/
def Agate.enter (a : Agate) (path : Nat) (l : List Byte) : Agate := { a.put reqBuf l with req := true, path := path, len := l.length }

/-- A write of MBOX_SEND: the reply goes out on PATH, REQ clears, the oldest waiting request enters the buffer. -/
def Agate.send (a : Agate) (n : Nat) : Agate :=
  let a := { a with sent := a.sent ++ [(a.path, a.get repBuf n)], req := false }
  match a.waiting with
  | [] => a
  | (p, l) :: r => { a with waiting := r }.enter p l

/-- The management window's mailbox of the BMC path: its first 4 KiB hold the request, its second 4 KiB the reply (R446; log 91). -/
def bmcMbox : Nat := 0x310000

/-- The replies that have gone out on the BMC path since `a` stand in its mailbox, the last one last. -/
def State.bmcReply (s : State) (a : Agate) : State :=
  match ((s.agate.sent.drop a.sent.length).filter fun x => x.1 == 2).getLast? with
  | none => s
  | some x => { s with win := memPut s.win (bmcMbox + 0x1000) x.2 }

/-! ## Measurements (R463) -/

/-- The 32 bytes of a digest as a number, and back. -/
def digestNat (l : List Byte) : BitVec 256 := BitVec.ofNat 256 (leNat l)
def digestBytes (d : BitVec 256) : List Byte := leBytes 32 d.toNat

/-- Extend a measurement slot by a digest; refused once the measurement lock is set. -/
def Agate.extend (a : Agate) (n : Nat) (d : List Byte) : Agate :=
  if a.locked then a else { a with ms := vset a.ms n (digestNat (sha3 (digestBytes (vget a.ms n 0#256) ++ d))) }

/-- Extend a slot of the module. -/
def State.measure (s : State) (n : Nat) (d : List Byte) : State := { s with agate := s.agate.extend n d }

/-! ## The operations of ENG_CMD (R465) -/

/-- A hash context. -/
def Agate.ctx (a : Agate) (c : Nat) : List Byte := vget a.hash c []

/-- An operation on a hash context, or on a slot, that exists; any other is refused. -/
def Agate.eng (a : Agate) (ok : Bool) (f : Agate → Agate) : Agate := if ok then { f a with fail := false } else { a with fail := true }

/-- The absorbed bytes of a context replaced. -/
def Agate.setCtx (a : Agate) (c : Nat) (l : List Byte) : Agate := { a with hash := vset a.hash c l }

/-- The DMTF value types of the measurement slots (R463). -/
def msTypes : List Nat := [0, 1, 1, 3, 2, 3, 1, 3]

/-- The measurement block of a slot (R465). -/
def Agate.block (a : Agate) (n : Nat) : List Byte :=
  leBytes 1 (n + 1) ++ leBytes 1 1 ++ leBytes 2 35 ++ leBytes 1 (msTypes.getD n 0) ++ leBytes 2 32 ++ digestBytes (vget a.ms n 0#256)

/-- A signature by Agate's key over a prefix and a digest (R462). -/
def signature (key : List Byte) (sel : Nat) (digest : List Byte) : List Byte := (List.range 2420).map (Config.signByte key sel digest)

/-- Bytes of the random generator; the draw is numbered by the free values drawn so far. -/
def drbgBytes (draw n : Nat) : List Byte := (List.range n).map (Config.drbg draw)

/-- An operation, by its fields OP, CTX, CTX2 and LEN. EXTEND is refused once the measurement lock is set (R463); another OP code is refused. -/
def Agate.operate (a : Agate) (draw op cx cy len : Nat) : Agate :=
  let hash := decide (cx < 12)
  match op with
  | 1 => a.eng hash fun a => a.setCtx cx []
  | 2 => a.eng hash fun a => a.setCtx cx (a.ctx cx ++ a.get a.src len)
  | 3 => a.eng hash fun a => a.put a.dst (sha3 (a.ctx cx))
  | 4 => a.eng (hash && decide (cy < 12)) fun a => a.setCtx cx (a.ctx cy)
  | 5 => a.eng (decide (cx < 8) && !a.locked) fun a => a.extend cx (a.get a.src 32)
  | 6 => a.eng (decide (cy < 2)) fun a => a.put a.dst (signature a.key cy (a.get a.src 32))
  | 7 => a.eng true fun a => a.put a.dst (drbgBytes draw len)
  | 8 => a.eng (decide (cx < 8)) fun a => a.put a.dst (a.block cx)
  | 9 => a.eng true fun a => a.put a.dst (a.get a.src len)
  | _ => { a with fail := true }

/-! ## The CSRs of Agate (R465) -/

/-- Is a number one of Agate's own CSRs. -/
def isAgateCsr (n : Nat) : Bool := decide (0x500 ≤ n ∧ n ≤ 0x505)

/-- The value of a CSR of Agate; fields of access WO read 0. -/
def Agate.csr (a : Agate) (n : Nat) : Nat :=
  if n = 0x500 then a.mboxStat else if n = 0x502 then a.src else if n = 0x503 then a.dst else if n = 0x505 then b01 a.fail else 0

/-- A write of a CSR of Agate; none for a register without a field that software writes. -/
def Agate.csrWrite (a : Agate) (draw n v : Nat) : Option Agate :=
  if n = 0x501 then some (a.send (v % 2 ^ 13))
  else if n = 0x502 then some { a with src := v % 2 ^ 18 }
  else if n = 0x503 then some { a with dst := v % 2 ^ 18 }
  else if n = 0x504 then some (a.operate draw (bits v 31 28) (bits v 27 24) (bits v 23 20) (bits v 12 0))
  else none

/-! ## The routine (R465)

The listing of R465, one list for each of its labels, as camas puts it: an EXTI stands before a word whose immediate does not fit (R279), and a
transfer carries its offset in words. -/

/-- The words at start. -/
def rtStart : List Instr := [
  .exti 0x0, .ldi 16 0x3e000, .exti 0x0, .ldi 17 0x3f000, .exti 0x40, .ldi 28 0x0, .sts 0 1 3 0 0x0, .sts 0 1 3 0 0x8, .sts 0 1 3 0 0x10]

/-- The words at wait. -/
def rtWait : List Instr := [
  .rdcsr 5 0x500, .shri 6 5 0 31, .cmpi 1 1 6 0 0x0, .br 1 0 3, .idle 0, .br 0 0 524283]

/-- The words at req. -/
def rtReq : List Instr := [
  .shri 20 5 0 16, .andi 20 20 0 0x3, .exti 0x1, .andi 24 5 0 0xfff, .shli 21 20 0 3, .lds 22 1 3 0 1 0x2a0, .shli 27 20 0 26,
  .lds 11 1 2 0 1 0x200, .andi 12 11 0 0xff, .shri 23 11 0 8, .andi 23 23 0 0xff, .shri 13 11 0 16, .andi 13 13 0 0xff, .shri 14 11 0 24,
  .cmpi 2 0 23 0 0x84, .br 2 0 31, .cmpi 1 1 12 0 0x14, .br 1 0 249, .ldi 15 0x1, .cmpi 2 0 23 0 0xe1, .br 2 0 13, .ldi 15 0x2,
  .cmpi 2 0 23 0 0xe3, .br 2 0 10, .ldi 15 0x3, .cmpi 2 0 23 0 0x81, .cmpi 3 0 23 0 0x82, .pset 2 2 3 1, .cmpi 3 0 23 0 0x83,
  .pset 2 2 3 1, .cmpi 3 0 23 0 0xe0, .pset 2 2 3 1, .br 2 1 237]

/-- The words at need. -/
def rtNeed : List Instr := [
  .cmp 1 22 0 15 0 1, .br 1 0 227, .cmpi 2 0 23 0 0xe1, .br 2 0 24, .cmpi 2 0 23 0 0xe3, .br 2 0 30, .cmpi 2 0 23 0 0x81, .br 2 0 49,
  .cmpi 2 0 23 0 0x82, .br 2 0 54, .cmpi 2 0 23 0 0x83, .br 2 0 86, .br 0 0 143]

/-- The words at getver. -/
def rtGetver : List Instr := [
  .cmpi 1 1 12 0 0x10, .br 1 0 219, .cmpi 1 1 24 0 0x4, .br 1 0 215, .exti 0x400, .ldi 9 0x0, .or 4 27 0 9 0, .call 30 225, .ldi 2 0x100,
  .call 29 227, .add 8 27 0 0 0, .call 29 233, .ldi 22 0x1, .br 0 0 216]

/-- The words at getcap. -/
def rtGetcap : List Instr := [
  .cmpi 1 1 24 0 0x14, .br 1 0 203, .ldi 2 0x180, .call 29 219, .add 8 27 0 0 0, .call 29 225, .ldi 22 0x2, .br 0 0 208]

/-- The words at negalg. -/
def rtNegalg : List Instr := [
  .cmpi 1 4 24 0 0x20, .br 1 0 195, .addi 2 16 0 0x4, .lds 5 1 1 0 1 0x40, .cmp 1 5 0 24 0 1, .br 1 0 191, .ldi 2 0x200, .call 29 207,
  .add 8 27 0 0 0, .call 29 213, .shli 7 20 0 22, .exti 0x1000, .ldi 9 0x0, .or 9 9 0 7 0, .add 4 9 0 27 0, .add 4 4 0 28 0, .call 30 194,
  .add 4 4 0 28 0, .call 30 192, .ldi 22 0x3, .br 0 0 187]

/-- The words at getdig. -/
def rtGetdig : List Instr := [
  .cmpi 1 1 24 0 0x4, .br 1 0 174, .ldi 2 0x300, .call 29 190, .add 8 27 0 28 0, .call 29 196, .br 0 0 180]

/-- The words at getcert. -/
def rtGetcert : List Instr := [
  .cmpi 1 1 13 0 0x0, .br 1 0 167, .cmpi 1 1 24 0 0x8, .br 1 0 165, .addi 2 16 0 0x4, .lds 5 1 1 0 1 0x40, .addi 2 16 0 0x6,
  .lds 6 1 1 0 1 0x40, .ldi 2 0x1000, .lds 7 1 3 0 1 0x40, .cmp 1 5 0 7 0 5, .br 1 0 157, .sub 7 7 0 5 0, .minu 6 6 0 7 0, .ldi 9 0xfa0,
  .minu 6 6 0 9 0, .sub 7 7 0 6 0, .shli 9 7 0 16, .or 9 9 0 6 0, .addi 3 17 0 0x4, .sts 9 1 2 1 0x60, .ldi 9 0x214, .sts 9 1 2 1 0x220,
  .addi 2 2 0 0x8, .add 2 2 0 5 0, .addi 3 17 0 0x8, .exti 0x2400, .ldi 4 0x0, .or 4 4 0 6 0, .call 30 153, .addi 25 6 0 0x8,
  .add 8 27 0 28 0, .call 29 162, .br 0 0 146]

/-- The words at chal. -/
def rtChal : List Instr := [
  .cmpi 1 1 13 0 0x0, .br 1 0 133, .cmpi 1 1 24 0 0x2c, .br 1 0 131, .cmpi 2 0 14 0 0x0, .cmpi 3 0 14 0 0x1, .pset 2 2 3 1,
  .cmpi 3 0 14 0 0xff, .pset 3 2 3 1, .br 3 1 125, .exti 0x40, .ldi 9 0x314, .sts 9 1 2 1 0x220, .ldi 2 0x30c, .addi 3 17 0 0x4,
  .exti 0x2400, .ldi 4 0x20, .call 30 131, .addi 3 17 0 0x24, .exti 0x1c00, .ldi 4 0x20, .call 30 127, .addi 6 0 0 0x44,
  .cmpi 2 0 14 0 0x0, .br 2 0 21, .ldi 3 0x8000, .call 29 145, .exti 0xc0, .ldi 9 0x0, .add 8 27 0 9 0, .exti 0x400, .ldi 9 0x0,
  .or 4 8 0 9 0, .call 30 115, .ldi 2 0x8000, .exti 0x800, .ldi 9 0x138, .or 4 8 0 9 0, .call 30 110, .addi 3 17 0 0x44, .exti 0xc00,
  .ldi 9 0x0, .or 4 8 0 9 0, .call 30 105, .addi 6 0 0 0x64]

/-- The words at chop. -/
def rtChop : List Instr := [
  .add 3 17 0 6 0, .sts 0 1 1 1 0x60, .addi 3 3 0 0x2, .addi 2 16 0 0x24, .exti 0x2400, .ldi 4 0x8, .call 30 97, .addi 25 6 0 0xa,
  .add 8 27 0 28 0, .call 29 106, .add 15 0 0 0 0, .call 29 124, .br 0 0 88]

/-- The words at getmeas. -/
def rtGetmeas : List Instr := [
  .andi 5 13 0 0x1, .addi 6 0 0 0xc, .cmpi 2 0 5 0 0x0, .br 2 0 6, .addi 6 0 0 0x2d, .addi 2 16 0 0x24, .lds 7 1 0 0 1 0x40,
  .cmpi 1 1 7 0 0x0, .br 1 0 68]

/-- The words at gm1. -/
def rtGm1 : List Instr := [
  .cmp 1 24 0 6 0 1, .br 1 0 66, .andi 7 13 0 0xfe, .cmpi 1 1 7 0 0x0, .br 1 0 63, .add 12 0 0 0 0, .addi 3 17 0 0x8, .cmpi 2 0 14 0 0x0,
  .br 2 0 14, .cmpi 2 0 14 0 0xff, .br 2 0 17, .addi 7 14 0 0xfff, .cmpi 1 5 7 0 0x8, .br 1 0 54, .shli 4 7 0 24, .exti 0x2000, .ldi 9 0x0,
  .or 4 4 0 9 0, .call 30 63, .ldi 10 0x2701, .addi 11 0 0 0x27, .br 0 0 9]

/-- The words at gm0. -/
def rtGm0 : List Instr := [
  .exti 0x2, .ldi 12 0x0, .add 10 0 0 0 0, .add 11 0 0 0 0, .br 0 0 4]

/-- The words at gmall. -/
def rtGmall : List Instr := [
  .call 29 77, .ldi 10 0x13808, .addi 11 0 0 0x138]

/-- The words at gmh. -/
def rtGmh : List Instr := [
  .ldi 9 0x6014, .or 9 9 0 12 0, .sts 9 1 2 1 0x220, .addi 3 17 0 0x4, .sts 10 1 2 1 0x60, .addi 3 11 0 0x8, .add 3 3 0 17 0, .exti 0x1c00,
  .ldi 4 0x20, .call 30 42, .addi 3 3 0 0x20, .ldi 2 0x40, .exti 0x2400, .ldi 4 0x2, .call 30 37, .addi 3 3 0 0x2, .addi 2 16 0 0x4,
  .cmpi 2 0 5 0 0x0, .br 2 0 2, .addi 2 16 0 0x25]

/-- The words at gm2. -/
def rtGm2 : List Instr := [
  .exti 0x2400, .ldi 4 0x8, .call 30 29, .addi 25 11 0 0x32, .exti 0x80, .ldi 9 0x0, .add 8 27 0 9 0, .call 29 36, .cmpi 2 0 5 0 0x0,
  .br 2 0 19, .exti 0x4, .ldi 15 0x0, .call 29 51, .br 0 0 15]

/-- The words at eunx. -/
def rtEunx : List Instr := [
  .exti 0x1, .ldi 10 0x7f14, .br 0 0 10]

/-- The words at einv. -/
def rtEinv : List Instr := [
  .ldi 10 0x17f14, .br 0 0 8]

/-- The words at ever. -/
def rtEver : List Instr := [
  .exti 0x10, .ldi 10 0x17f14, .br 0 0 5]

/-- The words at eunsup. -/
def rtEunsup : List Instr := [
  .shli 10 23 0 24, .exti 0x1, .ldi 9 0x37f14, .or 10 10 0 9 0]

/-- The words at err. -/
def rtErr : List Instr := [
  .sts 10 1 2 1 0x220, .addi 25 0 0 0x4]

/-- The words at done. -/
def rtDone : List Instr := [
  .sts 22 1 3 1 0x2a0, .wrcsr 25 0 0x501, .br 0 0 524005]

/-- The words at eng. -/
def rtEng : List Instr := [
  .wrcsr 2 0 0x502, .wrcsr 3 0 0x503, .wrcsr 4 0 0x504, .ret 30 0]

/-- The words at tmpl. -/
def rtTmpl : List Instr := [
  .lds 25 1 3 0 1 0x40, .addi 2 2 0 0x8, .add 3 17 0 0 0, .exti 0x2400, .ldi 9 0x0, .or 4 9 0 25 0, .call 30 262134, .ret 29 0]

/-- The words at absb. -/
def rtAbsb : List Instr := [
  .add 2 16 0 0 0, .exti 0x800, .ldi 9 0x0, .or 4 8 0 9 0, .or 4 4 0 24 0, .call 30 262127, .add 2 17 0 0 0, .or 4 8 0 9 0, .or 4 4 0 25 0,
  .call 30 262123, .ret 29 0]

/-- The words at blks. -/
def rtBlks : List Instr := [
  .exti 0x2000, .ldi 9 0x0, .ldi 7 0x8]

/-- The words at bl. -/
def rtBl : List Instr := [
  .add 4 9 0 0 0, .call 30 262117, .add 9 9 0 28 0, .addi 3 3 0 0x27, .dbnz 7 262140, .ret 29 0]

/-- The words at sign. -/
def rtSign : List Instr := [
  .ldi 3 0x9000, .exti 0xc00, .ldi 9 0x0, .or 4 8 0 9 0, .call 30 262108, .ldi 2 0x9000, .add 3 17 0 25 0, .exti 0x1800, .ldi 9 0x0,
  .or 4 9 0 15 0, .call 30 262102, .exti 0x0, .addi 25 25 0 0x974, .shli 7 20 0 22, .exti 0x1000, .ldi 9 0x0, .or 9 9 0 7 0, .or 4 9 0 8 0,
  .call 30 262094, .ret 29 0]

/-- The routine. -/
def responder : List Instr :=
  rtStart ++ rtWait ++ rtReq ++ rtNeed ++ rtGetver ++ rtGetcap ++ rtNegalg ++ rtGetdig ++ rtGetcert ++ rtChal ++ rtChop ++ rtGetmeas ++
  rtGm1 ++ rtGm0 ++ rtGmall ++ rtGmh ++ rtGm2 ++ rtEunx ++ rtEinv ++ rtEver ++ rtEunsup ++ rtErr ++ rtDone ++ rtEng ++ rtTmpl ++ rtAbsb ++
  rtBlks ++ rtBl ++ rtSign

/-- Where its wait begins, and where it ends (labels wait and req), in words. -/
def rtWaitAt : Nat := 9
def rtReqAt : Nat := 15

/-! ## Agate's thread (R465) -/

/-- The word at an address of the routine, whose text begins at address 0. -/
def agateFetch (pc : Nat) : Option W32 := if pc % 4 = 0 then (responder[pc / 4]?).bind encode else none

/-- Agate's thread where STAGE 4 finds it: at its wait, with h1 naming the SRAM. -/
def agateStart : Thread :=
  let t := Thread.blank
  { t with
    g := vset (vset (vset t.g 16 (BitVec.ofNat 64 reqBuf)) 17 (BitVec.ofNat 64 repBuf)) 28 0x1000000#64
    h := vset t.h 1 (mkHandle 0 0 3 3 2), running := true, pc := 4 * rtWaitAt }

/-- Does the responder wait for a request: its thread stands between the words at wait and those at req, and none is in the buffer. -/
def State.agateWaits (s : State) : Bool :=
  let t := s.thread agateThr
  t.running && t.pfx.isEmpty && decide (4 * rtWaitAt ≤ t.pc ∧ t.pc < 4 * rtReqAt) && !s.agate.req

end Sys2Proof.Machine
end

