-- ==== Sys2Proof/Machine/Home.lean ====
section
/-! DEFINITION. Home memory and the caches: copies, least recently used order, snapshot copies, monitors, poison, HBM errors, loads
of a line, engine writes and atomics at home (R82 to R89, R100, R103, R107, R111, R118, R120, R192, R441). -/

namespace Sys2Proof.Machine

open Sys2Proof

/-! ## Snapshot domains (R191, R192) -/

/-- The fields of a snapshot root that the home agent uses: MAP0, MAP1, EPOCH, SNAP, POOL, NPAGES, PSZ (R191). -/
structure SnapRoot where
  map0 : Nat
  map1 : Nat
  epoch : Nat
  snap : Nat
  pool : Nat
  npages : Nat
  psz : Nat
  deriving DecidableEq, Repr

def readSnapRoot (m : List Host.Cell) (root : Nat) : SnapRoot :=
  let w2 := memNat m (root + 16) 8
  let w4 := memNat m (root + 32) 8
  { map0 := memNat m root 8, map1 := memNat m (root + 8) 8, epoch := bits w2 63 40, snap := w2 % 2,
    pool := memNat m (root + 24) 8, npages := bits w4 63 32, psz := bits w4 31 28 }

/-- Address of the working (`w`) or the snapshot map. -/
def SnapRoot.mapOf (r : SnapRoot) (w : Bool) : Nat :=
  if (r.snap == 1) == w then r.map0 else r.map1

/-- A map entry: epoch and frame. -/
def mapEntry (m : List Host.Cell) (base i : Nat) : Nat × Nat :=
  let e := memNat m (base + 8 * i) 8
  (bits e 63 40, bits e 39 0)

/-- Write a map entry. -/
def putMapEntry (m : List Host.Cell) (base i epoch frame : Nat) : List Host.Cell :=
  memPut m (base + 8 * i) (leBytes 8 ((epoch % 2 ^ 24) <<< 40 ||| frame % 2 ^ 40))

/-- Push a frame on the free-frame stack: a count and then entries (layout: log 14). -/
def poolPush (m : List Host.Cell) (pool frame : Nat) : List Host.Cell :=
  let n := memNat m pool 8
  memPut (memPut m (pool + 8 + 8 * n) (leBytes 8 frame)) pool (leBytes 8 (n + 1))

/-- Pop a frame. -/
def poolPop (m : List Host.Cell) (pool : Nat) : Option (List Host.Cell × Nat) :=
  let n := memNat m pool 8
  if n = 0 then none else some (memPut m pool (leBytes 8 (n - 1)), memNat m (pool + 8 * n) 8)

/-- The domain and the page that a physical address lies in, by the frames that translations name. -/
def State.snapPage (s : State) (pa : Nat) : Option (Nat × Nat × Nat) :=
  s.snapRoots.findSome? fun (root, frames) =>
    let r := readSnapRoot s.mem root
    let n := pageBytes r.psz
    (frames.findIdx? fun f => decide (f * 4096 ≤ pa ∧ pa < f * 4096 + n)).map fun i =>
      (root, i, pa - (frames.getD i 0) * 4096)

/-- The address at home that holds the working set's byte (R130). -/
def State.homeAddr (s : State) (pa0 : Nat) : Nat :=
  let pa := s.localPa pa0
  match s.snapPage pa with
  | none => pa
  | some (root, i, o) =>
    let r := readSnapRoot s.mem root
    let (e, f) := mapEntry s.mem (r.mapOf true) i
    if e = r.epoch then f * 4096 + o else (mapEntry s.mem (r.mapOf false) i).2 * 4096 + o

/-- Do the devices of a physical address accept an access now: a stack in retention and the LP tier in self-refresh do not (R87, R90). -/
def State.deviceReady (s : State) (pa : Nat) : Bool :=
  match s.homeOf pa with
  | .die d => (s.stack d).st != 2
  | .lp _ => !s.lpRefresh
  | _ => true

/-- The lines of `n` bytes from `src` on that are poisoned are poisoned in their copy at `dst`, and no other line of the copy is (R100). -/
def poisonMoved (l : List Nat) (src dst n : Nat) : List Nat :=
  (l.filter fun x => !decide (dst / 64 ≤ x ∧ x < dst / 64 + n / 64)) ++
    (l.filter fun x => decide (src / 64 ≤ x ∧ x < src / 64 + n / 64)).map fun x => x - src / 64 + dst / 64

/-- The address at home to which a write lands, with the page copied first when its working entry is stale; none while the devices
accept no access, while POOL is empty or while the domain is being restored (R87, R90, R192, R451). -/
def State.writeAddr (s : State) (pa0 : Nat) : Option (State × Nat) :=
  let pa := s.localPa pa0
  if !s.deviceReady pa || !s.deviceReady (s.homeAddr pa) then none
  else
  match s.snapPage pa with
  | none => some (s, pa)
  | some (root, i, o) =>
      let r := readSnapRoot s.mem root
      let (e, f) := mapEntry s.mem (r.mapOf true) i
      if e = r.epoch then some (s, f * 4096 + o)
      else
        match poolPop s.mem r.pool with
        | none => none
        | some (m1, nf) =>
          let sf := (mapEntry s.mem (r.mapOf false) i).2
          let n := pageBytes r.psz
          let m2 := memPut m1 (nf * 4096) (memBytes m1 (sf * 4096) n)
          let m3 := if f = sf then m2 else poolPush m2 r.pool f
          let m4 := putMapEntry m3 (r.mapOf true) i r.epoch nf
          some ({ s with mem := m4, poison := poisonMoved s.poison (sf * 4096) (nf * 4096) n }, nf * 4096 + o)

/-! ## Poison (R100) -/

/-- The line at home that holds a named line's bytes (R83, R130). -/
def State.homeLineNo (s : State) (line : Nat) : Nat := s.homeAddr (line * 64) / 64

/-- Is a home line delivered poisoned: it is poisoned, or its stack is switched off (R100, R214). -/
def State.isPoison (s : State) (line : Nat) : Bool :=
  s.poison.contains (s.homeLineNo line) || (match s.homeOf (s.homeAddr (line * 64)) with
    | .die d => (s.stack d).offFlag
    | _ => false)

/-- Poison a home line. -/
def State.setPoison (s : State) (line : Nat) : State :=
  if s.poison.contains (s.homeLineNo line) then s else { s with poison := s.homeLineNo line :: s.poison }

/-- Clear the poison of a home line overwritten whole. -/
def State.clearPoison (s : State) (line : Nat) : State :=
  let a := s.homeLineNo line
  { s with poison := s.poison.filter (· != a) }

/-! ## The symbol code (R96 to R98) -/

/-- SRC and UNIT of an event about a structure of a core, a cluster or a slice (R164). -/
def eventPlace (str unit : Nat) : Nat × Nat :=
  match str with
  | 1 | 2 | 3 => (unit / 16, (unit % 16) <<< 8)
  | 5 => (unit / 16, 2 ^ 15 ||| (unit % 16) <<< 8)
  | _ => (unit / 64, unitOfCore unit)

/-- The codeword of a location: a row and a byte position of the banks; for an LLC slice, whose location is a line, the line (R73, R97). -/
def codeword (str loc : Nat) : Nat := if str = 5 then loc / 64 else loc / 2048 * 64 + loc % 64

/-- Is a bank lost to the code: it has failed and is not rebuilt, because its rebuild runs or because it is a structure's second (R98). -/
def State.lostBanks (s : State) (str unit : Nat) : List Nat :=
  (s.banks.filter fun b => b.str == str && b.unit == unit && b.failed && (b.rebuilding || b.second)).map (·.bank)

/-- The error that a read of some bytes cannot correct: one that the environment says is uncorrectable, one of a codeword that another bank
spoils too, or one beside a bank that is lost (R97, R98). -/
def State.symBad (s : State) (str unit : Nat) (inside : Latent → Bool) : Option Latent :=
  let all := s.latent.filter fun l => l.str == str && l.unit == unit
  let lost := s.lostBanks str unit
  (all.filter inside).find? fun l => l.kind != 0 || (all.any fun m => codeword str m.loc == codeword str l.loc && m.arg != l.arg) ||
    lost.any fun b => b != l.arg

/-- A codeword corrected in one bank (R97): counted, posted, and the bank declared failed at its 16th row within 1 ms (R98). A structure's
second failed bank is corrected on every read and not rebuilt, and Agate reports the structure as degraded. -/
def State.symCorrect (s : State) (str unit bank loc : Nat) : State :=
  let (src, u) := eventPlace str unit
  let s := (s.countErr (errSym str unit)).post 0x02 src u (str <<< 120 ||| (bank % 256) <<< 104 ||| loc % 2 ^ 64)
  let same (b : Bank) : Bool := b.str == str && b.unit == unit
  let old := (s.banks.find? fun b => same b && b.bank == bank).getD ⟨str, unit, bank, [], false, false, false⟩
  if old.failed then s
  else
    let row := loc / 2048
    let rows := (old.rows.filter fun r => r.1 != row && decide (s.now < r.2 + 1000000)) ++ [(row, s.now)]
    let others := s.banks.filter fun b => !(same b && b.bank == bank)
    if rows.length < 16 then { s with banks := others ++ [{ old with rows := rows }] }
    else
      let first := !(others.any fun b => same b && b.failed)
      let s := { s with banks := others ++ [{ old with rows := [], failed := true, rebuilding := first, second := !first }] }
      let s := if first then s else
        { s with agate := { s.agate with harvest := (s.agate.harvest.filter (· != (str, unit))) ++ [(str, unit)] } }
      (s.countErr (errBank str unit)).post 0x03 src u (str <<< 120 ||| (bank % 256) <<< 104)

/-- The correctable errors that a read meets are corrected, and are gone. -/
def State.symFix (s : State) (str unit : Nat) (inside : Latent → Bool) : State :=
  let mine (l : Latent) : Bool := l.str == str && l.unit == unit && inside l
  let hits := s.latent.filter mine
  hits.foldl (fun s l => s.symCorrect str unit l.arg l.loc) { s with latent := s.latent.filter fun l => !mine l }

/-! ## HBM4 errors met by a read (R88, R89) -/

/-- Record `n` of a log of 256 goes over its oldest one. -/
def logPut (l : List W) (n time hi : Nat) : List W :=
  if l.length < 512 then l ++ [BitVec.ofNat 64 time, BitVec.ofNat 64 hi]
  else (l.set (2 * (n % 256)) (BitVec.ofNat 64 time)).set (2 * (n % 256) + 1) (BitVec.ofNat 64 hi)

/-- Append a cell-log record, count it and post it (R89, R164, R231). -/
def State.cellLog (s : State) (st cls pch info : Nat) : State :=
  let hi := (cls <<< 62 ||| (pch % 64) <<< 56 ||| (info % 2 ^ 27) <<< 29) % 2 ^ 64
  let x := s.stack st
  let s := s.setStack st { x with cell := logPut x.cell x.cellN s.now hi, cellN := x.cellN + 1 }
  let s := s.countErr (if cls = 1 then errCellUnc st else errCellCorr st)
  s.post 0x05 (10 + st) (pch % 64) hi

/-- Append a transfer-log record, count it and post it. -/
def State.xferLog (s : State) (st action pch beat lane tries : Nat) : State :=
  let hi := (action <<< 62 ||| (pch % 64) <<< 56 ||| (beat % 8) <<< 53 ||| (lane % 64) <<< 47 ||| (tries % 4) <<< 45) % 2 ^ 64
  let x := s.stack st
  let s := s.setStack st { x with xfer := logPut x.xfer x.xferN s.now hi, xferN := x.xferN + 1 }
  let s := s.countErr (errXfer st)
  let s := if action = 1 then s.countErr (errLane st) else s
  s.post 0x06 (10 + st) (pch % 64) hi

/-- Post and count a line or burst found poisoned (R164 event 0x04; SRC by the structure). -/
def State.postPoison (s : State) (src unit str loc : Nat) : State :=
  s.post 0x04 src unit (str <<< 120 ||| loc % 2 ^ 64)

/-- The latent errors of a home line that its read ends: corrected and uncorrectable ones of a kind that is not parity. -/
def State.latentHere (s : State) (str line : Nat) (parity : Bool) : List Latent :=
  let a := s.homeAddr (line * 64)
  s.latent.filter fun l => l.str == str && decide (l.loc / 64 = a / 64) && (l.kind == 2) == parity

/-- Forget latent errors. -/
def State.dropLatent (s : State) (l : List Latent) : State := { s with latent := s.latent.filter fun x => !l.contains x }

/-- The corrected and the uncorrectable errors that a read of a home line meets in the memory devices are logged, counted and posted,
and poison the line (R88, R89, R96). -/
def State.meetLine (s : State) (line : Nat) : State :=
  if s.latent.isEmpty then s
  else
    match s.homeOf (s.homeAddr (line * 64)) with
    | .die d =>
      let hit := s.latentHere 11 line false
      hit.foldl (fun s l =>
        let pch := bits l.loc 13 8
        if l.kind = 0 then s.cellLog d 0 pch l.arg
        else ((s.cellLog d 1 pch l.arg).setPoison line).postPoison (10 + d) pch 11 (l.loc / 32 * 32)) (s.dropLatent hit)
    | .lp io =>
      let hit := s.latentHere 12 line false
      hit.foldl (fun s l =>
        if l.kind = 0 then (s.countErr (errLpt io)).post 0x02 (8 + io) 0 (12 <<< 120 ||| (l.arg % 256) <<< 104 ||| line * 64 % 2 ^ 64)
        else (s.setPoison line).postPoison (8 + io) 0 12 (line * 64)) (s.dropLatent hit)
    | _ => s

/-- A burst of a home line whose read meets a parity error is read again (R88). -/
def State.meetBursts (s : State) (line : Nat) : State :=
  match s.homeOf (s.homeAddr (line * 64)) with
  | .die d =>
    let hit := s.latentHere 11 line true
    hit.foldl (fun s l => { s with bursts := s.bursts ++ [⟨d, l.loc, bits l.loc 13 8, bits l.arg 2 0, bits l.arg 8 3, 0, false⟩] }) (s.dropLatent hit)
  | _ => s

/-- Is a burst of the line being re-read, or about to be, or does its pseudo-channel hold its traffic for a lane swap (R88). -/
def State.burstPending (s : State) (line : Nat) : Bool :=
  if s.bursts.isEmpty && s.latent.isEmpty then false
  else
    let a := s.homeAddr (line * 64)
    s.bursts.any (fun b => decide (b.pa / 64 = a / 64) || (b.swapped && decide (b.stack = a / 2 ^ 37) && b.pch == bits a 13 8)) || !(s.latentHere 11 line true).isEmpty

/-- A port of a stack (`key` 16 to 23) or of a ring feeder (32 to 39) serves `n` accesses in turn: a table that waits takes force where a round
of 64 slots starts (R183). The spec does not say whether the slots of an idle port go by: they do not (log 143). -/
def State.portUse (s : State) (key n : Nat) : State :=
  let p := Tab.getD s.portSlot key 0
  let s := { s with portSlot := Tab.put key ((p + n) % 64) s.portSlot }
  match (if p = 0 ∨ 64 < p + n then Tab.find key s.slotNext else none) with
  | none => s
  | some tab => { s with slotTabs := Tab.put key tab s.slotTabs, slotNext := Tab.del key s.slotNext }

/-- A read of a home line in the memory devices: it waits while they accept no access and while one of its bursts is re-read. -/
def State.deviceRead (s : State) (line : Nat) : M State :=
  let a := s.homeAddr (line * 64)
  if !s.deviceReady a then waitFor .memory
  else
    match s.homeOf a with
    | .die d =>
      if s.burstPending line then .error (.device line)
      else .ok (((s.modStack d fun x => { x with lastAccess := s.now }).portUse (16 + d) 1).meetLine line)
    | .lp _ => .ok (s.meetLine line)
    | _ => .ok s

/-! ## The bytes of a line at home -/

/-- The bytes of a named line with the writes that home holds laid over: those that are no engine writes (R103). -/
def State.overHeld (s : State) (line : Nat) (d : BitVec 512) : BitVec 512 :=
  s.heldWrites.foldl (fun d w => if w.kind != 3 && w.line == s.localLine line then mergeLine d w.dat w.mask else d) d

/-- The bytes of a line as home gives them. -/
def State.homeLine (s : State) (line : Nat) : BitVec 512 :=
  s.overHeld line (lineOf (memBytes s.mem (s.homeAddr (line * 64)) 64))

/-- A byte as home gives it. -/
def State.homeByte (s : State) (pa : Nat) : Byte :=
  if s.heldWrites.isEmpty then memByte s.mem (s.homeAddr pa) else lineByte (s.homeLine (pa / 64)) (pa % 64)

/-- Write masked bytes of a line into memory, from its address at home. -/
def putMasked (m : List Host.Cell) (a : Nat) (d : BitVec 512) (mask : BitVec 64) : List Host.Cell :=
  (List.range 64).foldl (fun m i => if mask.getLsbD i then memSet m (a + i) (lineByte d i) else m) m

/-! ## Valid-bit monitors (R71) -/

/-- Tasks in state "ready" of a die move into its queue of 4,096 as entries free, and wait there from then on (R159). -/
def State.refillReady (s : State) (d : Nat) : State :=
  let x := s.die d
  let cand := ((s.tasks.filter fun t => t.die == d && t.state == 0 && !x.ready.contains t.uid).map (·.uid)).take (4096 - x.ready.length)
  (cand.foldl (fun s u => s.modTask u fun t => { t with waitAt := s.now }) s).setDie d { x with ready := x.ready ++ cand }

/-- A task requeued: it waits in its ready queue again (R427). -/
def State.requeue (s : State) (uid : Nat) : State :=
  match s.taskOf uid with
  | none => s
  | some t =>
    if t.state = 5 then
      (s.modTask uid fun t => { t with state := 0, requeueAt := none, monitored := false, waitAt := s.now }).refillReady t.die
    else s

/-- The monitors of a line fire: their tasks are requeued (R71). -/
def State.fireMonitors (s : State) (line : Nat) : State :=
  let hit := (List.range 8).flatMap fun d => (s.die d).mons.filter fun m => m.line == line
  if hit.isEmpty then s
  else
    let s := { s with dies := s.dies.map fun d => { d with mons := d.mons.filter fun m => m.line != line } }
    hit.foldl (fun s m => s.requeue m.task) s

/-! ## LLC and L1 order (R441) -/

/-- The set of a line within an LLC slice, and within an L1. -/
def llcSet (line : Nat) : Nat := line % 4096
def l1Set (line : Nat) : Nat := line % 256

/-- Number of lines of a list in the slice and set of `line`. -/
def sameSet (line x : Nat) : Bool := decide (llcSet x = llcSet line)
def sameSlice (line x : Nat) : Bool := decide (Config.sliceHash x % 16 = Config.sliceHash line % 16)

/-- Version lines held on a die (R84). -/
def State.versionLines (s : State) (d : Nat) : List Nat :=
  (s.tasks.filter fun t => t.die == d).flatMap fun t => t.lines.map (·.line)

/-- A copy leaves a die's LLC: a home copy's line is written to HBM, and a dirty copy's bytes go home under their mask (R120, R441). -/
def State.llcLeaves (s : State) (d : Nat) (v : LlcLine) : State :=
  let x := s.die d
  let s := s.setDie d { x with
    llc := x.llc.filter fun e => !(e.line == v.line && e.home == v.home)
    dirtyHome := if v.home then Tab.del v.line x.dirtyHome else x.dirtyHome }
  let s := if v.home ∧ (Tab.find v.line x.dirtyHome).isSome = true then s.portUse (16 + d) 1 else s
  if v.dirty = 0#64 then s else { s with heldWrites := s.heldWrites ++ [⟨0, s.localLine v.line, v.dat, v.dirty, v.poison, none, none⟩] }

/-- Make room for a line in its set: the least recently used copy that may leave does; false when version lines and copies held under R111
have every way (R84, R111, R120, R441). -/
def State.llcRoom (s : State) (d line : Nat) : State × Bool :=
  let inSet := (s.die d).llc.filter fun e => sameSet line e.line
  let vers := (s.versionLines d).filter fun e => sameSet line e
  if inSet.length + vers.length < 24 then (s, true)
  else
    let ways := (inSet.filter fun e => sameSlice line e.line).length + (vers.filter fun e => sameSlice line e).length
    if ways < 24 then (s, true)
    else
      match (inSet.filter fun e => sameSlice line e.line && !e.held).getLast? with
      | none => (s, false)
      | some v => (s.llcLeaves d v, true)

/-- Put a line first; a fill that finds no way for it is not cached (R441). -/
def State.llcInsert (s : State) (d : Nat) (l : LlcLine) : State :=
  let s := s.modDie d fun x => { x with llc := x.llc.filter fun e => !(e.line == l.line && e.home == l.home) }
  let r := s.llcRoom d l.line
  if r.2 then r.1.modDie d fun x => { x with llc := l :: x.llc } else r.1

/-- Put a line first in a cluster's L1; the least recently used line of a full set leaves. -/
def l1Insert (l : List L1Line) (e : L1Line) : List L1Line :=
  let rest := l.filter fun x => x.line != e.line
  let inSet := rest.filter fun x => decide (l1Set x.line = l1Set e.line)
  if inSet.length < 16 then e :: rest
  else
    match inSet.getLast? with
    | none => e :: rest
    | some v => e :: rest.filter fun x => x.line != v.line

/-- Does a die's LLC hold a home copy of a line. -/
def State.hasHome (s : State) (n line : Nat) : Bool := (s.die n).llc.any fun e => e.home && e.line == line

/-- The home slice of a live die takes a line, or makes it its most recently used (R83). -/
def State.homeTake (s : State) (n line : Nat) : State :=
  if (s.die n).on then s.llcInsert n ⟨line, 0#512, maskAll, 0#64, false, false, true, 0, false⟩ else s

/-- A write makes the home line dirty: it remembers what HBM holds, until the line is written back. -/
def State.homeDirty (s : State) (n line : Nat) : State :=
  let old := lineOf (memBytes s.mem (line * 64) 64)
  let had := (Tab.find line (s.die n).dirtyHome).getD old
  let s := s.homeTake n line
  if s.hasHome n line then s.modDie n fun x => { x with dirtyHome := Tab.put line had x.dirtyHome } else s

/-! ## Errors of an LLC slice met by a read (R96, R97) -/

/-- A read of a line in a die's LLC: a correctable error is corrected; true when an uncorrectable one has struck it. -/
def State.llcMeet (s : State) (d line : Nat) : State × Bool :=
  if s.latent.isEmpty then (s, false)
  else
    let unit := 16 * d + Config.sliceHash line % 16
    let here (l : Latent) : Bool := decide (l.loc / 64 = line)
    match s.symBad 5 unit here with
    | none => (s.symFix 5 unit here, false)
    | some l =>
      let (src, u) := eventPlace 5 unit
      (({ s with latent := s.latent.filter fun m => !(m.str == 5 && m.unit == unit && here m) } : State).post 0x04 src u
        (5 <<< 120 ||| l.loc % 2 ^ 64), true)

/-- A read of a line at its home: the home slice answers, and takes the line from its stack when it does not hold it (R83). An uncorrectable
error of the slice poisons the line. -/
def State.homeRead (s : State) (line : Nat) : M State :=
  let a := s.homeLineNo line
  match s.homeOf (a * 64) with
  | .die n =>
    if s.hasHome n a then
      let (s, bad) := s.llcMeet n a
      let s := s.homeTake n a
      .ok (if bad then s.setPoison line else s)
    else do
      let s ← s.deviceRead line
      .ok (s.homeTake n a)
  | _ => s.deviceRead line

/-! ## Writes at home -/

/-- A write of masked bytes performs at home: the snapshot copy first, then the bytes, the dirty home line, the poison, the
monitors. A write to a peer's window goes out over the Wotil links and a write to host memory through its port (R83, R455); `kind` is the
access kind of R455. None while the write is held at home (R87, R90, R192, R451). -/
def State.homeWriteK (s : State) (kind line : Nat) (d : BitVec 512) (mask : BitVec 64) : Option State :=
  match s.homeOf (line * 64) with
  | .peer m =>
    some { s with peers := s.peers ++ [⟨m, kind, line * 64, 64, s.me, 0, 0, 0, s.now, none, 0#512⟩], peerWrote := Tab.put m s.now s.peerWrote }
  | _ =>
    match s.writeAddr (line * 64) with
    | none => none
    | some (s, a) =>
      let s := match s.homeOf a with
        | .die n => s.homeDirty n (a / 64)
        | .hostWin p => s.setPort p { s.port p with out := (s.port p).out + 1 }
        | _ => s
      let s := { s with mem := putMasked s.mem a d mask }
      let s := if mask = maskAll then s.clearPoison line else s
      some (s.fireMonitors (s.localLine line))

/-- Has home a write of a line that it holds. -/
def State.holds (s : State) (line : Nat) : Bool := s.heldWrites.any fun w => w.line == s.localLine line

/-- Has home a write of a line that it holds for another reason than a copy which the line's write-through still has to update (R111). -/
def State.holdsBefore (s : State) (line : Nat) : Bool :=
  s.heldWrites.any fun w => w.kind != 3 && w.line == s.localLine line

/-- A write-through at home, after the writes of its line that home holds, but for an engine write that waits for it: the bytes of both are
those of the one that reached home later, the write-through (R103, R118). -/
def State.homeWrite (s : State) (line : Nat) (d : BitVec 512) (mask : BitVec 64) : Option State :=
  if s.holdsBefore line then none
  else
    (s.homeWriteK 1 line d mask).map fun s =>
      if s.heldWrites.isEmpty then s
      else { s with heldWrites := s.heldWrites.map fun (w : HeldWrite) =>
        if w.kind = 3 ∧ w.line = s.localLine line then { w with mask := w.mask &&& ~~~mask } else w }

/-- May the host hold a copy of a line (R444). -/
def State.hostHolds (s : State) (line : Nat) : Bool := (List.range 2).any fun p => (s.port p).held.contains line

/-- Home holds a write. -/
def State.hold (s : State) (w : HeldWrite) : State := { s with heldWrites := s.heldWrites ++ [w] }

/-- A write that has reached home performs, or home holds it; a line that its sender has poisoned is poisoned at home (R100). -/
def State.homePut (s : State) (kind line : Nat) (d : BitVec 512) (mask : BitVec 64) (bad : Bool := false) : State :=
  let w : HeldWrite := ⟨kind, s.localLine line, d, mask, bad, none, none⟩
  if s.holds line || decide (kind < 2) && s.hostHolds line then s.hold w
  else ((s.homeWriteK (if kind = 0 then 1 else kind) line d mask).map fun s => if bad then s.setPoison line else s).getD (s.hold w)

/-- Copies of a line dropped from every L1 and LLC; dirty bytes of a software-managed page are written back first (R103, R120). -/
def State.dropCopies (s : State) (line : Nat) : State :=
  let s := (List.range 8).foldl (fun s d =>
    match (s.die d).llc.find? fun e => e.line == line && !e.home && e.dirty != 0#64 with
    | none => s
    | some e => s.homePut 0 line e.dat e.dirty e.poison) s
  { s with
    clusters := Tab.mapVal (fun c => { c with l1 := c.l1.filter fun e => e.line != line }) s.clusters
    dies := s.dies.map fun d => { d with llc := d.llc.filter fun e => e.line != line || e.home } }

/-- May an engine write of a line perform now: no copy is held under R111, the host holds no copy, and home accepts the write. -/
def State.canEngineWrite (s : State) (line : Nat) : Bool :=
  ((List.range 8).all fun d => ((s.die d).wts.all fun w => w.line != line) && ((s.die d).llc.all fun e => !(e.line == line && e.held)))
  && !s.hostHolds line && !s.holds line && (s.writeAddr (line * 64)).isSome

/-- An engine write performs at home (R103): other agents' copies are dropped, then the bytes land. -/
def State.engineWriteLine (s : State) (line : Nat) (d : BitVec 512) (mask : BitVec 64) : Option State :=
  let s := s.dropCopies line
  if s.holds line then none else s.homeWriteK 3 line d mask

/-- The lines of a byte range, with the masks and the bytes put in place. -/
def splitLines (pa : Nat) (data : List Byte) : List (Nat × BitVec 512 × BitVec 64) :=
  let n := data.length
  let first := pa / 64
  let last := (pa + n - 1) / 64
  if n = 0 then []
  else (List.range (last + 1 - first)).map fun k =>
    let line := first + k
    let lo := max pa (line * 64)
    let hi := min (pa + n) (line * 64 + 64)
    (line, BitVec.ofNat 512 (leNat ((data.drop (lo - pa)).take (hi - lo)) <<< (8 * (lo - line * 64))),
      maskRange (lo - line * 64) (hi - lo))

/-- May an engine write of a range perform. -/
def State.canEngineWriteRange (s : State) (pa : Nat) (data : List Byte) : Bool :=
  (splitLines pa data).all fun l => s.canEngineWrite l.1

/-- Send BISnp for a line that a host port in CXL mode may hold (R444). -/
def State.snoopLine (s : State) (line : Nat) : State :=
  if s.hostHolds line then
    { s with ports := s.ports.map fun p =>
      if p.cxl && p.held.contains line && !p.snoop.contains line then { p with snoop := p.snoop ++ [line] } else p }
  else s

/-- Send BISnp for the lines of a range (R444). -/
def State.snoopRange (s : State) (pa : Nat) (data : List Byte) : State :=
  (splitLines pa data).foldl (fun s l => s.snoopLine l.1) s

/-- An engine write of a line that has reached home: it performs, or it waits there for the copies, the host and the frame (R103, R192,
R444). -/
def State.enginePut (s : State) (line : Nat) (d : BitVec 512) (mask : BitVec 64) (port : Option Nat := none) : State :=
  let w : HeldWrite := ⟨3, s.localLine line, d, mask, false, none, port⟩
  if s.canEngineWrite line then (s.engineWriteLine line d mask).getD (s.hold w) else (s.snoopLine line).hold w

/-- An engine write of a range, line by line, which a host port may have posted (R445). The module's own peer window is its local map (R66). -/
def State.engineWriteBy (s : State) (port : Option Nat) (pa : Nat) (data : List Byte) : State :=
  (splitLines (s.localPa pa) data).foldl (fun s l => s.enginePut l.1 l.2.1 l.2.2 port) s

/-- An engine write of a range. -/
def State.engineWrite (s : State) (pa : Nat) (data : List Byte) : State := s.engineWriteBy none pa data

/-- A record written by a unit of the module: an engine write, and one of the lines that home holds keep the order of their units (R103). -/
def State.recordWrite (s : State) (pa : Nat) (data : List Byte) : State := s.engineWrite pa data

/-- Raise an MSI-X vector at a host port (R443). -/
def State.msix (s : State) (p v : Nat) : State := s.setPort p { s.port p with msix := (s.port p).msix ++ [v] }

/-- A record of one line is written, and then MSI-X vector 0 is raised: once home has performed the write (R452). -/
def State.recordMsi (s : State) (pa : Nat) (data : List Byte) (port : Nat) : State :=
  let s1 := s.recordWrite pa data
  match s1.heldWrites.getLast? with
  | some w =>
    if s1.heldWrites.length ≤ s.heldWrites.length then s1.msix port 0
    else { s1 with heldWrites := s1.heldWrites.dropLast ++ [{ w with msi := some port }] }
  | none => s1.msix port 0

/-- An atomic's write of its location at home: no copy is dropped (R103, R117). -/
def State.atomicWrite (s : State) (pa : Nat) (data : List Byte) : State :=
  (splitLines (s.localPa pa) data).foldl (fun s l => s.homePut 2 l.1 l.2.1 l.2.2) s

/-- A write that home holds performs when it can. -/
def State.landOne (s : State) (w : HeldWrite) : Option State :=
  let r :=
    if w.kind = 3 then if s.canEngineWrite w.line then s.engineWriteLine w.line w.dat w.mask else none
    else if decide (w.kind < 2) && s.hostHolds w.line then none
    else s.homeWriteK (if w.kind = 0 then 1 else w.kind) w.line w.dat w.mask
  r.map fun s =>
    let s := if w.poison then s.setPoison w.line else s
    match w.msi with
    | some p => s.msix p 0
    | none => s

/-- The writes that home holds perform in the order in which they came to their lines, those that can (R118, R192). -/
def State.landHeld (s : State) : State :=
  if s.heldWrites.isEmpty then s
  else
    let r := s.heldWrites.foldl (fun (a : State × List HeldWrite) w =>
      if a.2.any fun v => v.line == w.line then (a.1, a.2 ++ [w])
      else
        match a.1.landOne w with
        | some s => (s, a.2)
        | none => (a.1.snoopLine w.line, a.2 ++ [w])) ({ s with heldWrites := [] }, [])
    { r.1 with heldWrites := r.2 ++ r.1.heldWrites }

/-! ## Loads (R82, R107, R111) -/

/-- Has a line its home at a peer (R83). -/
def State.atPeer (s : State) (line : Nat) : Bool :=
  match s.homeOf (line * 64) with
  | .peer _ => true
  | _ => false

/-- The line as a die's LLC and home give it, with the lines pending write-through laid over, and whether it is delivered poisoned.
The LLC keeps a copy, marked when the page is software-managed; a copy's missing bytes are filled from home. -/
def State.llcRead (s : State) (d line0 : Nat) (swm : Bool) : M (State × BitVec 512 × Bool) :=
  let line := s.localLine line0
  match (s.die d).llc.find? fun e => e.line == line && !e.home with
  | some e =>
    let (s, struck) := s.llcMeet d line
    let e := { e with swm := e.swm || swm, poison := e.poison || struck }
    if e.valid = maskAll then .ok (s.llcInsert d e, e.dat, e.poison)
    else if s.atPeer line then .error (.peer 0 (line * 64))
    else do
      let s ← s.homeRead line
      let dat := mergeLine (s.homeLine line) e.dat e.valid
      let bad := e.poison || s.isPoison line
      .ok (s.llcInsert d { e with dat := dat, valid := maskAll, poison := bad }, dat, bad)
  | none =>
    if s.atPeer line then .error (.peer 0 (line * 64))
    else do
    let s ← s.homeRead line
    let dat := (s.die d).wts.foldl (fun a w => if w.line = line then mergeLine a w.dat w.mask else a) (s.homeLine line)
    let bad := s.isPoison line
    if s.homeOf (s.homeAddr (line * 64)) = .die d then .ok (s, dat, bad)
    else .ok (s.llcInsert d ⟨line, dat, maskAll, 0#64, swm, false, false, 0, bad⟩, dat, bad)

/-- The version bytes of a task laid over a line, older marks first (R84, R107). -/
def overlayVersion (t : Task) (line : Nat) (d : BitVec 512) : BitVec 512 :=
  t.lines.foldl (fun a v => if v.line = line then mergeLine a v.dat v.mask else a) d

/-- Does a task's version hold bytes of a line. -/
def hasVersion (t : Task) (line : Nat) : Bool := t.lines.any fun v => v.line == line

/-- A task's own committed stores that are still in another die, on their way home or in a dirty copy of a software-managed line (R107): they
are newer than what the task's cluster and die have of the line. -/
def State.overlaySent (s : State) (uid die line : Nat) (d : BitVec 512) : BitVec 512 :=
  (List.range 8).foldl (fun d n =>
    if n = die then d
    else
      let d := (s.die n).llc.foldl (fun a e =>
        if !e.home ∧ e.task = uid ∧ e.line = line ∧ e.dirty ≠ 0#64 then mergeLine a e.dat e.dirty else a) d
      (s.die n).wts.foldl (fun a w => if w.task = uid ∧ w.line = line then mergeLine a w.dat w.mask else a) d) d

/-- The bytes of a line that a task's version holds. -/
def versionMask (t : Task) (line : Nat) : BitVec 64 := t.lines.foldl (fun a v => if v.line = line then a ||| v.mask else a) 0#64

/-- A line as a load of a thread sees it: the task's version over the L1, the LLC and home (R82, R107). An error of the LLC slice that
strikes a version line poisons what is read (R96). -/
def State.loadLine (s : State) (k line0 : Nat) (swm : Bool) : M (State × BitVec 512 × Bool) := do
  let line := s.localLine line0
  let c := thrCluster k
  let (s, base, bad) ← (match (s.cluster c).l1.find? fun e => e.line == line with
    | some e => .ok (s.modCluster c fun x => { x with l1 := l1Insert x.l1 { e with swm := e.swm || swm } }, e.dat, e.poison)
    | none => do
      let (s, d, bad) ← s.llcRead (thrDie k) line swm
      .ok (s.modCluster c fun x => { x with l1 := l1Insert x.l1 ⟨line, d, swm, bad⟩ }, d, bad) : M _)
  match s.taskOf (s.thread k).task with
  | none => .ok (s, base, bad)
  | some t =>
    let base := s.overlaySent t.uid (thrDie k) line base
    if hasVersion t line then
      let (s, struck) := s.llcMeet (thrDie k) line
      .ok (s, overlayVersion t line base, (bad && versionMask t line != maskAll) || struck)
    else .ok (s, base, bad)

/-- Bytes as a load of a thread sees them; true when any line read is poisoned. -/
def State.loadBytes (s : State) (k pa n : Nat) (swm : Bool) : M (State × List Byte × Bool) :=
  (splitLines pa (List.replicate n 0#8)).foldlM (fun (acc : State × List Byte × Bool) l => do
    let (s, d, bad) ← acc.1.loadLine k l.1 swm
    let lo := max pa (l.1 * 64)
    let hi := min (pa + n) (l.1 * 64 + 64)
    .ok (s, acc.2.1 ++ ((lineBytes d).drop (lo - l.1 * 64)).take (hi - lo), acc.2.2 || bad)) (s, [], false)

/-- Who reads at home: the acting thread, for the unit or the word that it issues; and an engine. -/
def State.reader (s : State) : Nat × Nat := (s.me, match s.cur with | some c => c.unit.seq | none => s.th.seq)
def engineReader : Nat × Nat := (2 ^ 20, 0)

/-- A line read at its home; one that a peer homes is asked for, and its answer serves this read alone (R83, R455). -/
def State.lineAt (s : State) (who : Nat × Nat) (line : Nat) : M (State × BitVec 512) :=
  if s.atPeer line then
    match s.peers.find? fun p => p.thr == who.1 && p.seq == who.2 && p.dest == 6 && p.pa == line * 64 with
    | none => .error (.peer 4 (line * 64))
    | some p => .ok ({ s with peers := s.peers.erase p }, p.line)
  else do
    let s ← s.homeRead line
    .ok (s, s.homeLine line)

/-- Bytes read at home; true when any line is poisoned. -/
def State.homeBytesFor (s : State) (who : Nat × Nat) (pa n : Nat) : M (State × List Byte × Bool) :=
  (splitLines pa (List.replicate n 0#8)).foldlM (fun (acc : State × List Byte × Bool) l => do
    let (s, d) ← acc.1.lineAt who l.1
    let lo := max pa (l.1 * 64)
    let hi := min (pa + n) (l.1 * 64 + 64)
    .ok (s, acc.2.1 ++ ((lineBytes d).drop (lo - l.1 * 64)).take (hi - lo), acc.2.2 || s.isPoison l.1))
    (s, [], false)

/-- Bytes read at home as the engines read (R70, R342), and as a unit or a word reads. -/
def State.homeBytes (s : State) (pa n : Nat) : M (State × List Byte × Bool) := s.homeBytesFor engineReader pa n
def State.unitBytes (s : State) (pa n : Nat) : M (State × List Byte × Bool) := s.homeBytesFor s.reader pa n

/-- A little-endian number as home holds it, without an access of its own: what tables and objects are read with (R117, R167). -/
def State.homeNat (s : State) (pa n : Nat) : Nat := leNat ((List.range n).map fun i => s.homeByte (pa + i))

/-! ## Copies brought up to date (R107) -/

/-- A line as a die sees it beside its copies: home's bytes under its lines pending write-through. -/
def State.lineNow (s : State) (d line : Nat) : BitVec 512 :=
  (s.die d).wts.foldl (fun a w => if w.line = line then mergeLine a w.dat w.mask else a) (s.homeLine line)

/-- A copy with its clean bytes as home has them now; none for a line that a peer homes, whose bytes are not at hand. -/
def State.llcRenew (s : State) (d : Nat) (e : LlcLine) : Option LlcLine :=
  if e.home then some e
  else if s.atPeer e.line then if e.held || e.dirty != 0#64 then some e else none
  else some { e with dat := mergeLine (s.lineNow d e.line) e.dat e.dirty, poison := if e.dirty = 0#64 ∧ !e.held then s.isPoison e.line else e.poison }

/-- A line of an L1 with the bytes that its die has of it now. -/
def State.l1Renew (s : State) (d : Nat) (e : L1Line) : Option L1Line :=
  match (s.die d).llc.find? fun x => x.line == e.line && !x.home with
  | some x => some { e with dat := mergeLine (if s.atPeer e.line then e.dat else s.lineNow d e.line) x.dat x.valid, poison := x.poison }
  | none => if s.atPeer e.line then none else some { e with dat := s.lineNow d e.line, poison := s.isPoison e.line }

/-- The copies of a line that a thread reads, in its die's LLC and its cluster's L1, hold what home has now: a thread that has read the line at
home reads nothing older from them (R107). No copy leaves for it (R441), but that of a line homed at a peer (log 119). -/
def State.renewLine (s : State) (k line0 : Nat) : State :=
  let line := s.localLine line0
  let d := thrDie k
  let s := s.modDie d fun x => { x with llc := x.llc.filterMap fun e => if e.line = line then s.llcRenew d e else some e }
  s.modCluster (thrCluster k) fun c => { c with l1 := c.l1.filterMap fun e => if e.line = line then s.l1Renew d e else some e }

/-- Bytes that a thread's atomic has written at a peer, in the copies of their line that the thread reads (R107, R117). -/
def State.patchLine (s : State) (k pa : Nat) (data : List Byte) : State :=
  (splitLines pa data).foldl (fun s l =>
    let s := s.modDie (thrDie k) fun x => { x with llc := x.llc.map fun e =>
      if e.line = l.1 ∧ !e.home then { e with dat := mergeLine e.dat l.2.1 (l.2.2 &&& ~~~e.dirty) } else e }
    s.modCluster (thrCluster k) fun c => { c with l1 := c.l1.map fun e => if e.line = l.1 then { e with dat := mergeLine e.dat l.2.1 l.2.2 } else e }) s

/-- The copies of a die, and those of its clusters that `here` names, hold what home has now, as far as `lines` names them. -/
def State.renewAll (s : State) (d : Nat) (die : Bool) (here : Nat → Bool) (lines : Nat → Bool) : State :=
  let s := if die then s.modDie d fun x => { x with llc := x.llc.filterMap fun e => if lines e.line then s.llcRenew d e else some e } else s
  ((List.range 16).filter here).foldl (fun s c => s.modCluster (16 * d + c) fun y => { y with
    l1 := y.l1.filterMap fun e => if lines e.line then s.l1Renew d e else some e }) s

/-! ## Invalidation at acquires (R115) -/

/-- The copies that an acquire of a scope drops. -/
def State.acquire (s : State) (k scope : Nat) : State :=
  if scope < 3 then s
  else
    let c := thrCluster k
    let d := thrDie k
    let s1 := s.modCluster c fun x => { x with l1 := x.l1.filter (·.swm) }
    if scope < 4 then s1
    else
      s1.modDie d fun x => { x with llc := x.llc.filter fun e =>
        e.swm || e.held || match s.homeOf (e.line * 64) with
          | .die n => n == d
          | .lp _ => false
          | .hostWin _ => scope < 5
          | .peer _ => scope < 5
          | _ => true }

end Sys2Proof.Machine
end

