-- ==== Sys2Proof/Machine/Xlate.lean ====
section
/-! DEFINITION. Translation: the page tree, the TLBs, walks, monitors, handle settles and the checks of an access through a handle
(R28 to R30, R68 to R72, R188 to R190, R299, R316, R428). -/

namespace Sys2Proof.Machine

open Sys2Proof

/-! ## The page tree (R188 to R190) -/

/-- How a walk ends: a valid leaf; an entry it treats as invalid, with its line; a poisoned entry, with its line. A translation that
reads no entry at all (a non-canonical address) is invalid with no line. -/
inductive WalkEnd where
  | leaf (e : TlbE) (line : Nat)
  | invalid (line : Option Nat)
  | poisoned (line : Nat)
  deriving DecidableEq, Repr

/-- Bytes that an entry of a level covers. -/
def levelCover (level : Nat) : Nat := 2 ^ (12 + 9 * level)

/-- Does a page-size code belong to a level (R188). -/
def pszAtLevel (level psz : Nat) : Bool :=
  match level with
  | 0 => decide (psz ≤ 4)
  | 1 => decide (5 ≤ psz ∧ psz ≤ 9)
  | 2 => decide (psz = 10 ∨ psz = 11)
  | _ => false

/-- Is an address canonical (R68). -/
def canonical (va : Nat) : Bool := decide (bits va 63 57 = if bit va 56 then 127 else 0)

/-- Is a leaf or table frame acceptable: aligned to `n` bytes and wholly backed (R69). -/
def State.frameOk (s : State) (pa n : Nat) : Bool := decide (pa % n = 0) && s.backedPage pa n

/-- One level of a walk: the table at `tab`, entry by entry (R190). -/
def State.walkFrom (s : State) (ctx va : Nat) : Nat → Nat → WalkEnd
  | level, tab =>
    let cover := levelCover level
    let pa := tab + 8 * (va / cover % 512)
    let line := pa / 64
    if s.isPoison line then .poisoned line
    else
      let e := s.homeNat pa 8
      let psz := bits e 61 58
      if !bit e 63 || bit e 52 || bits e 11 0 != 0 then .invalid (some line)
      else if bit e 62 then
        if !pszAtLevel level psz then .invalid (some line)
        else
          let n := pageBytes psz
          let group := max 1 (n / cover)
          let i0 := (va / cover % 512) / group * group
          let others := (List.range group).map fun j => tab + 8 * (i0 + j)
          match others.find? fun q => s.isPoison (q / 64) with
          | some q => .poisoned (q / 64)
          | none =>
            if others.any (fun q => s.homeNat q 8 != e) || !s.frameOk (bits e 51 12 * 4096) n then .invalid (some line)
            else
              .leaf ⟨ctx, va / n * n, psz, bits e 51 12, b01 (bit e 57) + 2 * b01 (bit e 56) + 4 * b01 (bit e 55),
                bit e 54, bit e 53⟩ line
      else if bits e 61 54 != 0 || !s.frameOk (bits e 51 12 * 4096) 4096 then .invalid (some line)
      else
        match level with
        | 0 => .invalid (some line)
        | l + 1 => s.walkFrom ctx va l (bits e 51 12 * 4096)

/-- The lines of the entries that a walk reads from a table on, in order: the entry that the address indexes, with its group when it is a leaf
of a replicated size, and then the next level's (R190). -/
def State.walkReads (s : State) (va : Nat) : Nat → Nat → List Nat
  | level, tab =>
    let cover := levelCover level
    let pa := tab + 8 * (va / cover % 512)
    let e := s.homeNat pa 8
    let psz := bits e 61 58
    if !bit e 63 || bit e 52 || bits e 11 0 != 0 then [pa / 64]
    else if bit e 62 then
      if !pszAtLevel level psz then [pa / 64]
      else
        let group := max 1 (pageBytes psz / cover)
        let i0 := (va / cover % 512) / group * group
        (pa / 64 :: (List.range group).map fun j => (tab + 8 * (i0 + j)) / 64).eraseDups
    else
      match level with
      | 0 => [pa / 64]
      | l + 1 => pa / 64 :: if s.frameOk (bits e 51 12 * 4096) 4096 then s.walkReads va l (bits e 51 12 * 4096) else []

/-- The context whose identifier a thread runs under. -/
def State.thrCtx (s : State) (k : Nat) : Nat := ((s.taskOf (s.thread k).task).map (·.ctx)).getD 0

/-- The root table of a context (R188, R449). -/
def State.rootOf (s : State) (ctx : Nat) : Nat := (Tab.getD s.ctxs ctx ⟨0, false, 0, Vector.replicate 8 0#8, none⟩).root

/-- What a whole walk from a context's root comes to (R188). -/
def State.walk (s : State) (ctx va : Nat) : WalkEnd :=
  if !canonical va then .invalid none else s.walkFrom ctx va 4 (s.rootOf ctx)

/-- The reads of a walk, each an ordinary load at home (R70): it waits for a stack or a burst as a load does, meets the errors of the lines it
reads, and ends at a poisoned one. -/
def State.walkMeet (s : State) (ctx va : Nat) : M State :=
  if !canonical va then .ok s
  else
    ((s.walkReads va 4 (s.rootOf ctx)).foldlM (fun (a : State × Bool) l =>
      if a.2 then .ok a else do
        let s ← a.1.homeRead l
        .ok (s, s.isPoison l)) (s, false) : M (State × Bool)).map (·.1)

/-- What a read that waits for its device leaves: a burst of the line is read again (R88). -/
def State.readWaits (s : State) (e : Stop) : State :=
  match e with
  | .device line => (s.meetLine line).meetBursts line
  | _ => s
/-- Does a translation give the rights asked: the leaf has them all, and the upper half needs SYS (R68, R190). -/
def rightsOk (e : TlbE) (rights : Nat) (sys : Bool) (va : Nat) : Bool :=
  decide (e.rights &&& rights = rights) && (sys || !bit va 56)

/-! ## The TLBs (R70) -/

/-- Does an entry translate an address of a context. -/
def TlbE.covers (e : TlbE) (ctx va : Nat) : Bool :=
  e.ctx == ctx && decide (e.va ≤ va ∧ va < e.va + pageBytes e.psz)

/-- Set of an entry in the L2 TLB. -/
def TlbE.set (e : TlbE) : Nat := e.va / pageBytes e.psz % 256

/-- Put an entry first in a core's L1 TLB. -/
def tlb1Put (l : List TlbE) (e : TlbE) : List TlbE := (e :: l.filter fun x => x != e).take 256

/-- Put an entry first in a cluster's L2 TLB; the least recently used of a full set leaves. -/
def tlb2Put (l : List TlbE) (e : TlbE) : List TlbE :=
  let rest := l.filter fun x => x != e
  let inSet := rest.filter fun x => x.set == e.set
  if inSet.length < 16 then e :: rest
  else
    match inSet.getLast? with
    | none => e :: rest
    | some v => e :: rest.filter fun x => x != v

/-- The TLB entry for an address, in the core's L1 or the cluster's L2 (R70). -/
def State.tlbFind (s : State) (core ctx va : Nat) : Option TlbE :=
  match (s.core core).tlb.find? fun e => e.covers ctx va with
  | some e => some e
  | none => (s.cluster (coreCluster core)).tlb2.find? fun e => e.covers ctx va

/-- Both TLBs filled with an entry, or the entry made the most recently used. -/
def State.tlbFill (s : State) (core : Nat) (e : TlbE) : State :=
  (s.modCore core fun c => { c with tlb := tlb1Put c.tlb e }).modCluster (coreCluster core) fun c =>
    { c with tlb2 := tlb2Put c.tlb2 e }

/-- The page that a hit or a miss gives now: canonical, in a TLB, with every right asked. -/
def State.tlbHit (s : State) (k va rights : Nat) : Option TlbE :=
  if !canonical va then none
  else
    match s.tlbFind (thrCore k) (s.thrCtx k) va with
    | none => none
    | some e => if rightsOk e rights (s.thread k).sys va then some e else none

/-- The error of a poisoned page-table entry, counted and posted (R70, R231). -/
def State.walkPoison (s : State) (die line : Nat) : State :=
  (s.countErr (errPoison die)).postPoison die 0 5 (line * 64)

/-- Arm a valid-bit monitor on a line for a task: the line has one already, or one of the die's 256 is free; an exhausted set is posted
(R71). -/
def State.armMonitor (s : State) (die line0 task : Nat) : State :=
  let line := s.localLine line0
  let d := s.die die
  let lines := (d.mons.map (·.line)).eraseDups
  if d.mons.any fun m => m.line == line && m.task == task then s
  else if lines.contains line || decide (lines.length < 256) then s.setDie die { d with mons := d.mons ++ [⟨line, task⟩] }
  else s.post 0x0F die 0 die

/-- A translation of the context's own for the machine's reads: through the TLBs and the walker, without waiting (R398, R399, R428). -/
def State.translate (s : State) (k va rights : Nat) : State × Option TlbE × Bool :=
  match s.tlbHit k va rights with
  | some e => (s.tlbFill (thrCore k) e, some e, false)
  | none =>
    match s.walk (s.thrCtx k) va with
    | .leaf e _ =>
      let s := s.tlbFill (thrCore k) e
      if rightsOk e rights (s.thread k).sys va then (s, some e, false) else (s, none, false)
    | .invalid _ => (s, none, false)
    | .poisoned line => (s.walkPoison (thrDie k) line, none, true)

/-! ## Settles and walks (R28, R70, R299, R334) -/

/-- Start the settle of an XLATE (`load` false) or XLATL: the TLBs are looked up now, the handle is written by XLATE_SETTLE. -/
def State.startSettle (s : State) (k seq h : Nat) (load : Bool) (st va rights : Nat) : State :=
  let hit := s.tlbHit k va rights
  let s := match hit with
    | some e => s.tlbFill (thrCore k) e
    | none => s
  s.modThread k fun t =>
    { t with settles := t.settles ++ [⟨h, load, st, va, rights, hit.map fun e => (e.frame, e.psz, e.rights), false, seq, none⟩] }

/-- Does the TLB entry of a settled page mark a software-managed page (R120). -/
def State.pageSwm (s : State) (k va : Nat) : Bool :=
  ((s.tlbFind (thrCore k) (s.thrCtx k) va).map (·.swm)).getD false

/-- Queue a walk on the thread's die: 64 run at a time, in arrival order (R70). -/
def State.startWalk (s : State) (die : Nat) (w : Walk) : State :=
  s.modDie die fun d =>
    if d.walks.length < 64 then { d with walks := d.walks ++ [w] } else { d with waitWalks := d.waitWalks ++ [w] }

/-- Write a handle register, advancing GEN. -/
def Thread.writeHandle (t : Thread) (h frame psz rights st : Nat) : Thread :=
  { t with h := vset t.h h (mkHandle (hGen (vget t.h h 0#64) + 1) frame psz rights st) }

/-- A settle writes its handle, with what the model keeps about it. -/
def Snap.settle (n : Snap) (x : Settle) (swm : Bool) : Snap :=
  let b : BitVec 16 := 1#16 <<< x.h
  let gen := hGen (vget n.h x.h 0#64) + 1
  let n := match x.hit with
    | some (frame, psz, rights) =>
      { n with h := vset n.h x.h (mkHandle gen frame psz rights 2), hSwm := if swm then n.hSwm ||| b else n.hSwm &&& ~~~b }
    | none => { n with h := vset n.h x.h (mkHandle gen 0 0 0 1) }
  { n with
    hPoison := n.hPoison &&& ~~~b
    hVa := vset n.hVa x.h (BitVec.ofNat 64 x.va)
    hRq := vset n.hRq x.h (BitVec.ofNat 3 x.rights) }

/-- The status that a settle reports (R299). -/
def Settle.status (x : Settle) : Nat :=
  match x.hit with
  | some (_, psz, _) => 2 + psz * 256
  | none => 1

/-- The settle of an XLATE or XLATL takes effect (R28, R299): the handle and the status register are written together, and a miss
starts a walk with the new GEN. That of an XLATL is an engine word's: no squash undoes it, so every kept control state has it (R421). -/
def State.doSettle (s : State) (k i : Nat) : State :=
  let t := s.thread k
  match t.settles[i]? with
  | none => s
  | some x =>
    let early := (t.settles.take i).any fun y => y.h == x.h
    let t := { t with settles := t.settles.eraseIdx i }
    if early then s
    else if x.cancelled then s.setThread k t
    else
      let swm := s.pageSwm k x.va
      let t := (t.onSnap fun n => n.settle x swm).mapSnaps fun f n => if x.load || decide (x.seq < f) then n.settle x swm else n
      let v := BitVec.ofNat 64 x.status
      let t := if x.load then wrX t true x.st v else t.lateG x.seq x.dead x.st v
      let s := s.setThread k t
      match x.hit with
      | some _ => s
      | none =>
        s.startWalk (thrDie k) ⟨k, x.seq, some x.h, hGen (vget t.h x.h 0#64), x.va, x.rights, s.thrCtx k⟩

/-- A walk settles its handle where that is still PENDING with the walk's GEN; one that meets poison keeps the line. -/
def Snap.walked (n : Snap) (w : Walk) (h frame psz rights st : Nat) (poison : Option Nat) (swm : Bool) : Snap :=
  let v := vget n.h h 0#64
  let b : BitVec 16 := 1#16 <<< h
  if hGen v = w.gen ∧ hState v = 1 then
    { n with
      h := vset n.h h (mkHandle w.gen frame psz rights st)
      hPoison := if poison.isSome then n.hPoison ||| b else n.hPoison &&& ~~~b
      hLine := poison.elim n.hLine (vset n.hLine h)
      hSwm := if swm then n.hSwm ||| b else n.hSwm &&& ~~~b }
  else n

/-- A walk completes, or waits for what it reads (R28, R70, R71): the handle settles when its GEN is still the walk's; the next waiting walk starts. -/
def State.doWalkComplete (s : State) (die i : Nat) : State :=
  let d := s.die die
  match d.walks[i]? with
  | none => s
  | some w =>
  match s.walkMeet w.ctx w.va with
  | .error e => s.readWaits e
  | .ok s =>
    let d := s.die die
    let rest := d.walks.eraseIdx i
    let s := s.setDie die (match d.waitWalks with
      | [] => { d with walks := rest }
      | x :: r => { d with walks := rest ++ [x], waitWalks := r })
    match w.h with
    | none => s
    | some h =>
      let t := s.thread w.thr
      let hv := vget t.h h 0#64
      let live := decide (hGen hv = w.gen ∧ hState hv = 1 ∧ t.running = true)
      let put (s : State) (frame psz rights st : Nat) (poison : Option Nat) (swm : Bool) : State :=
        if t.running then
          s.modThread w.thr fun t =>
            (t.onSnap fun n => n.walked w h frame psz rights st poison swm).mapSnaps fun _ n => n.walked w h frame psz rights st poison swm
        else s
      let fail (s : State) (line : Option Nat) : State :=
        let s := put s 0 0 0 3 none false
        match line with
        | none => s
        | some l => if live then s.armMonitor die l t.task else s
      match s.walk w.ctx w.va with
      | .poisoned line => put (s.walkPoison die line) 0 0 0 3 (some line) false
      | .invalid line => fail s line
      | .leaf e line =>
        let s := s.tlbFill (thrCore w.thr) e
        if rightsOk e w.rights t.sys w.va then put s e.frame e.psz e.rights 2 none e.swm
        else fail s (some line)

/-! ## The checks of an access (R29, R316) -/

/-- Does a control word have to wait for the settle of a handle (R282). -/
def Thread.handleBusy (t : Thread) (h : Nat) : Bool := t.settles.any fun x => x.h == h && !x.load && !x.cancelled

/-- CheckHandle of R29: EMPTY is PROTECTION; PENDING stalls; FAULTED and REVOKED raise their causes. The value of TRAP_INFO of
PROTECTION is the offset. -/
def checkHandle (t : Thread) (h ofs : Nat) : M W :=
  let v := vget t.h h 0#64
  match hState v with
  | 0 => raise cProtection 0 ofs
  | 1 => waitFor .handle
  | 2 => .ok v
  | 3 =>
    if t.hPoison.getLsbD h then raise cUncorrectable 5 (vget t.hLine h 0 * 64)
    else raise cTranslation 0 (h * 2 ^ 60 + (vget t.hVa h 0#64).toNat % 2 ^ 57)
  | _ => raise cHandleRevoked 0 (h * 2 ^ 60 + hBase v)

/-- The right codes of CheckMem. -/
def rightRD : Nat := 1
def rightWR : Nat := 2
def rightAT : Nat := 4

/-- CheckMem of R316; the physical address of the access. -/
def checkMem (t : Thread) (h ofs n right align : Nat) : M Nat := do
  let v ← checkHandle t h ofs
  require (ofs % align == 0) cMisaligned 0 ofs
  require (hRights v &&& right == right && decide (ofs + n ≤ pageBytes (hPsz v))) cProtection 0 ofs
  .ok (hBase v + ofs)

/-- CheckSpad of R316. -/
def checkSpad (o n align : Nat) : M PUnit := do
  require (o % align == 0) cMisaligned 0 o
  require (decide (o + n ≤ 2 ^ 21)) cRegionBounds 0 o

/-- CheckQ of R316; the binding. -/
def checkQ (t : Thread) (q kind : Nat) : M QHead := do
  let b := vget t.q q QHead.unbound
  requireLegal (b.kind != 0)
  require (b.kind == kind) cIllegalContext 0 q
  .ok b

end Sys2Proof.Machine
end

