-- ==== Sys2Proof/Machine/Errors.lean ====
section
/-! DEFINITION. Hardware errors as the running work meets them: the symbol code and its banks, SECDED freezes, and poison consumed
by an engine (R96 to R100, R231, R430). What errors there are is data of the environment (`latent`). -/

namespace Sys2Proof.Machine

open Sys2Proof

/-- A read of bytes `lo` to `hi - 1` of a structure under the symbol code (R96, R97): corrected codewords are counted, an uncorrectable one
raises UNCORRECTABLE with its structure and location. -/
def State.symRead (s : State) (str unit lo hi : Nat) : M State :=
  let inside (l : Latent) : Bool := decide (lo ≤ l.loc ∧ l.loc < hi)
  match s.symBad str unit inside with
  | some l => raise cUncorrectable str l.loc
  | none => .ok (s.symFix str unit inside)

/-- A write of whole lines ends the latent errors there. -/
def State.symWrite (s : State) (str unit lo hi : Nat) : State :=
  { s with latent := s.latent.filter fun l => !(l.str == str && l.unit == unit && decide (lo ≤ l.loc ∧ l.loc < hi)) }

/-- The cause of a poisoned line of memory that an engine consumes (R100, R164). Lines of the host window and of peers have no
structure code of their own: the LLC's is taken (log 18). -/
def State.poisonCause (s : State) (line : Nat) : Cause :=
  match s.homeOf (line * 64) with
  | .die _ => ⟨cUncorrectable, 11, line * 64⟩
  | .lp _ => ⟨cUncorrectable, 12, line * 64⟩
  | _ => ⟨cUncorrectable, 3, line * 64⟩

/-- An uncorrectable error consumed by an engine is counted and posted (R100, R231); a walk has already posted its own (R70). -/
def State.noteConsumed (s : State) (k : Nat) (c : Cause) : State :=
  if c.code = cUncorrectable ∧ c.sub ≠ 5 then
    let s := if c.sub = 11 ∨ c.sub = 12 then s.meetLine (c.info / 64) else s
    let d := thrDie k
    let (src, unit) :=
      if c.sub = 11 then (10 + c.info / 2 ^ 37 % 8, bits c.info 13 8) else if c.sub = 12 then
        (match s.homeOf (s.homeAddr c.info) with
          | .lp io => (8 + io, 0)
          | _ => (8, 0))
      else (d, unitOfCore (thrCore k))
    (s.countErr (errPoison d)).postPoison src unit c.sub c.info
  else s

/-- The freeze of a core after a SECDED correction: nine cycles, one more for each correction during a freeze (R99). -/
def State.freeze (s : State) (core str loc : Nat) : State :=
  let s := s.modCore core fun c => { c with freezes := c.freezes + 1 }
  (s.countErr (errSecded core)).post 0x01 (coreDie core) (unitOfCore core) (str <<< 120 ||| loc % 2 ^ 64)

end Sys2Proof.Machine
end

