-- ==== Sys2Proof/Machine/Lease.lean ====
section
/-! DEFINITION. The array lease and the accumulator tiles as the rest of the machine acts on them, and the group objects
(R80, R161, R306 to R312, R344 to R347). -/

namespace Sys2Proof.Machine

open Sys2Proof

/-! ## The cluster clock (R5, R16, R468) -/

/-- What a cluster's clock runs in a nanosecond, in 160ths of a cycle: 2.7 GHz × (8 − F) / 8, half of it under a stretch, nothing while the
cluster is off. -/
def Cluster.cycRate (c : Cluster) : Nat :=
  if !c.on then 0 else if c.stretch then 27 * (8 - c.fcode) else 54 * (8 - c.fcode)

/-- The cycles that a cluster has run up to a device time, those of each F-code in turn, in 160ths (R5). -/
def Cluster.cycles (c : Cluster) (now : Nat) : Nat := c.cyc + c.cycRate * (now - c.cycAt)

/-- The count brought up to a device time, before the rate changes. -/
def Cluster.tick (c : Cluster) (now : Nat) : Cluster := { c with cyc := c.cycles now, cycAt := now }

/-! ## Tiles (R347) -/

/-- An accumulator slot of a cluster. -/
def Cluster.slotAt (c : Cluster) (n : Nat) : AccSlot := vget c.acc n AccSlot.blank

/-- ab.BOUND set, THRESH kept. -/
def abSetBound (ab : W) (b : W32) : W := (ab &&& 0xFFFFFFFF00000000#64) ||| b.zeroExtend 64

/-- A tile discarded: its slot and any partner close, and ab.BOUND becomes 0.0 (R347). A closed slot's values are read by no word. LEASE_STATE.OPEN ends when it names the slot (R57). -/
def Cluster.discardTile (c : Cluster) (n : Nat) : Cluster :=
  let x := c.slotAt n
  let a1 := vset c.acc n { AccSlot.blank with st := 0 }
  let a2 := if x.ext then vset a1 (n ^^^ 1) { AccSlot.blank with st := 0 } else a1
  { c with acc := a2, ab := vset c.ab n (abSetBound (vget c.ab n 0#64) 0#32), tileOpen := c.tileOpen && c.tileSlot != n }

/-- Is an open tile a task's, and of one of its threads when that is named. -/
def AccSlot.isOf (x : AccSlot) (uid : Nat) (pos : Option Nat) : Bool := x.st == 1 && x.task == uid && pos.all fun p => x.pos == p

/-- Every open tile of a task, or of one of its threads, discarded. -/
def Cluster.discardTiles (c : Cluster) (uid : Nat) (pos : Option Nat) : Cluster :=
  (List.range 8).foldl (fun c n => if (c.slotAt n).isOf uid pos then c.discardTile n else c) c

/-- Has a thread of a task an open tile in a cluster. -/
def Cluster.hasTile (c : Cluster) (uid pos : Nat) : Bool := (List.range 8).any fun n => (c.slotAt n).isOf uid (some pos)

/-- Slots of the B-store leave FULL: the tiles that have read one lose their whole mark (R354). -/
def Cluster.slotsLeft (c : Cluster) (l : List Nat) : Cluster :=
  { c with acc := c.acc.map fun a => if a.bread.any fun n => l.contains n then { a with whole := false } else a }

/-! ## Subscriptions (R154, R158, R362, R363) -/

/-- Slots of one tile (R81, R362). -/
def tileSlots (kind fmt : Nat) : Nat := if kind = 0 ∧ (fmt = 1 ∨ fmt = 2) then 2 else 1

/-- The slots of a subscription: tile index, slot, and whether it is the upper slot of its tile. -/
def BSub.slots (b : BSub) : List (Nat × Nat × Bool) :=
  (List.range b.n).flatMap fun t => (List.range (tileSlots b.kind b.fmt)).map fun j => (b.tile + t, b.slot + t * b.pitch + j, j == 1)

/-- A subscription arms: its slots become MISSED when its layer's window has opened in the lap, ARMED otherwise (R153, R154). -/
def State.armSub (s : State) (cl tenant : Nat) (b : BSub) : State :=
  s.modCluster cl fun c =>
    let missed := s.ring.opened.contains b.layer
    let bst := b.slots.foldl (fun (x : Tab BSlot) (e : Nat × Nat × Bool) =>
      Tab.put e.2.1 {
        st := if missed then 2 else 1, task := b.task, pos := b.pos, tenant := tenant, layer := b.layer, kind := b.kind
        tile := e.1, fmt := b.fmt, dat := [], reboards := 0, lapArmed := (s.ring.lap + 1) % 2 ^ 32, second := e.2.2
        scaleBad := 0 } x) c.bst
    { c with bst := bst, subs := c.subs ++ [{ b with mseen := missed }] }

/-! ## The lease (R161, R344, R345) -/

/-- The thread on the active plane of a core of a cluster. -/
def State.coreThr (s : State) (cl core : Nat) : Nat :=
  let g := cl * 4 + core
  2 * g + (s.core g).active

/-- Tenant of the thread on the active plane of a core. -/
def State.coreTenant (s : State) (cl core : Nat) : Nat := (s.thread (s.coreThr cl core)).tenant

/-- The waiting cores in rotation, from the core after the holder. -/
def Cluster.rotation (c : Cluster) : List Nat :=
  ((List.range 4).map fun j => (c.holder + 1 + j) % 4).filter fun i => c.waitq.getLsbD i

/-- The core that the next grant serves, by the slot table (R162, R345). -/
def State.leaseNextCore (s : State) (cl : Nat) : Option Nat :=
  let c := s.cluster cl
  let rot := c.rotation
  let tenants := ((List.range 64).map fun j => c.leaseTab.getD ((c.leaseSlot + j) % 64) 0xFF).filter fun t => t != 0xFF
  match tenants.findSome? fun t => rot.find? fun i => s.coreTenant cl i == t with
  | some i => some i
  | none => rot.head?

/-- Has a tenant an open tile in the cluster. -/
def State.tenantTile (s : State) (cl tenant : Nat) : Bool :=
  (List.range 8).any fun n =>
    let x := (s.cluster cl).slotAt n
    x.st == 1 && decide (((s.taskOf x.task).bind fun t => t.threads.head?).map (fun k => (s.thread k).tenant) = some tenant)

/-- Grant the lease to a core (R80, R345): a new tenant finds all eight slots and their ab registers cleared, and the lines of the L1 gone
(R441) but for those of a software-managed page, which leave in no such way (R120; log 171). The grant takes the next slot of the lease slot
table when `take` says so. -/
def State.leaseGrant (s : State) (cl core : Nat) (take : Bool) : State :=
  let c := s.cluster cl
  let tenant := s.coreTenant cl core
  let c := if c.leaseTenant = 0xFF ∨ c.leaseTenant = tenant then c
    else { c with
      acc := Vector.replicate 8 AccSlot.blank, ab := Vector.replicate 8 0#64, tileOpen := false, leasePasses := c.leasePasses + 1
      l1 := c.l1.filter (·.swm) }
  let slot := if take then (c.leaseSlot + 1) % 64 else c.leaseSlot
  let c := if take && slot == 0 then { c with leaseTab := c.leaseNext.getD c.leaseTab, leaseNext := none } else c
  s.setCluster cl { c with
    leaseHeld := true, holder := core, waitq := c.waitq &&& ~~~(1#4 <<< core), words := 0, leaseDue := false,
    leaseAt := c.cycles s.now, leaseTenant := tenant, leaseSlot := slot }

/-- The core that the next grant goes to, and whether the grant takes the table's next slot: the core that the slot serves; across tenants
only when the last tenant has no open tile, and until then a waiting core of that tenant, which takes no slot, so that the slot goes on to
serve the tenant that waits for it (R345, log 131). -/
def State.leaseTarget (s : State) (cl : Nat) : Option (Nat × Bool) :=
  let c := s.cluster cl
  match s.leaseNextCore cl with
  | none => none
  | some i =>
    if s.coreTenant cl i = c.leaseTenant ∨ c.leaseTenant = 0xFF ∨ s.tenantTile cl c.leaseTenant = false then some (i, true)
    else (c.rotation.find? fun j => s.coreTenant cl j == c.leaseTenant).map fun j => (j, false)

/-- Does the slot that will serve the next grant go to another tenant than a given one (R345). -/
def State.leaseElsewhere (s : State) (cl tenant : Nat) : Bool :=
  ((s.leaseNextCore cl).map fun i => s.coreTenant cl i != tenant).getD false

/-- Does an MTSTART of a thread wait (R345): the slot that will serve the next grant goes to another tenant, and from then on until the lease
has passed and come back, or no other tenant waits any more (log 131). -/
def State.mtstartHeld (s : State) (k : Nat) : Bool :=
  let c := s.cluster (thrCluster k)
  let tenant := (s.thread k).tenant
  match (s.thread k).mtHold with
  | none => s.leaseElsewhere (thrCluster k) tenant
  | some n => c.leasePasses == n && c.rotation.any fun i => s.coreTenant (thrCluster k) i != tenant

/-- A free lease is granted, when a core waits that it can go to. -/
def State.leasePass (s : State) (cl : Nat) : State :=
  if (s.cluster cl).leaseHeld then s
  else
    match s.leaseTarget cl with
    | none => s
    | some (i, take) => s.leaseGrant cl i take

/-- Does the holder have to give the lease up to a waiting core: 64 words, a closed tile, or no claim (R161), and not before the end of a
replay (R358). -/
def State.leaseDueNow (s : State) (cl : Nat) : Bool :=
  let c := s.cluster cl
  c.leaseHeld && c.waitq != 0#4 && (s.thread (s.coreThr cl c.holder)).tileRep.isNone &&
    (decide (c.words ≥ 64) || c.leaseDue || !(s.thread (s.coreThr cl c.holder)).claim)

/-- Take the lease from its holder when it is due and can pass; a claiming holder waits again at once (R344). -/
def State.leaseRotate (s : State) (cl : Nat) : State :=
  if s.leaseDueNow cl && (s.leaseTarget cl).isNone then s
  else if s.leaseDueNow cl then
    let c := s.cluster cl
    let again := (s.thread (s.coreThr cl c.holder)).claim
    let s := (s.setCluster cl { c with leaseHeld := false }).leasePass cl
    if again then s.modCluster cl fun x => { x with waitq := x.waitq ||| (1#4 <<< c.holder) } else s
  else s.leasePass cl

/-- A core with a claim waits for the lease (R344). -/
def State.leaseWait (s : State) (cl core : Nat) : State :=
  let c := s.cluster cl
  if c.leaseHeld ∧ c.holder = core then s
  else (s.setCluster cl { c with waitq := c.waitq ||| (1#4 <<< core) }).leaseRotate cl

/-- Does a core hold its cluster's lease. -/
def State.holdsLease (s : State) (k : Nat) : Bool :=
  let c := s.cluster (thrCluster k)
  c.leaseHeld && c.holder == thrCore k % 4 && s.isActive k

/-- A thread leaves the active plane: its core's lease is released and passes (R161). -/
def State.leaseLeave (s : State) (k : Nat) : State :=
  let cl := thrCluster k
  let c := s.cluster cl
  let core := thrCore k % 4
  let c := { c with waitq := c.waitq &&& ~~~(1#4 <<< core) }
  if c.leaseHeld ∧ c.holder = core then (s.setCluster cl { c with leaseHeld := false }).leasePass cl
  else s.setCluster cl c

/-- A swap makes another thread active: the lease stays with the core when that thread holds a claim (R161, R406). -/
def State.leaseSwap (s : State) (out inc : Nat) : State :=
  let cl := thrCluster out
  let c := s.cluster cl
  let core := thrCore out % 4
  if (s.thread inc).claim then
    if c.leaseHeld ∧ c.holder = core then s
    else s.setCluster cl { c with waitq := c.waitq ||| (1#4 <<< core) }
  else s.leaseLeave out

/-! ## Group objects (R306 to R311) -/

/-- The fields of a group object. -/
structure Grp where
  nmem : Nat
  arr : Nat
  pjoin : Nat
  pleave : Nat
  phase : Nat
  nextidx : Nat
  deriving DecidableEq, Repr

/-- Read a group object at home; none when a reserved bit is set (R312). -/
def State.readGrp (s : State) (pa : Nat) : Option Grp :=
  let w0 := s.homeNat pa 8
  let w1 := s.homeNat (pa + 8) 8
  if bits w1 15 0 ≠ 0 ∨ s.homeNat (pa + 16) 48 ≠ 0 then none
  else some ⟨bits w0 63 48, bits w0 47 32, bits w0 31 16, bits w0 15 0, bits w1 63 32, bits w1 31 16⟩

/-- The 16 bytes of a group object's fields. -/
def Grp.bytes (g : Grp) : List Byte :=
  leBytes 8 ((g.nmem % 65536) <<< 48 ||| (g.arr % 65536) <<< 32 ||| (g.pjoin % 65536) <<< 16 ||| g.pleave % 65536)
    ++ leBytes 8 ((g.phase % 2 ^ 32) <<< 32 ||| (g.nextidx % 65536) <<< 16)

/-- The flip (R306). -/
def Grp.flip (g : Grp) : Grp :=
  { g with phase := (g.phase + 1) % 2 ^ 32, arr := 0, nmem := (g.nmem + g.pjoin - g.pleave) % 65536, pjoin := 0, pleave := 0 }

/-- One arrival (R310). -/
def Grp.arrive (g : Grp) : Grp :=
  let g := { g with arr := g.arr + 1 }
  if g.arr = g.nmem then g.flip else g

/-- Has the object's PHASE reached EFF, modulo 2^32 within 2^31 (R307). -/
def phaseReached (phase eff : Nat) : Bool := decide ((phase + 2 ^ 32 - eff) % 2 ^ 32 < 2 ^ 31)

/-- The LEAVE step of a membership entry (R309). -/
def Grp.leave (g : Grp) (e : Member) : Grp :=
  if !phaseReached g.phase e.eff then { g with pjoin := (g.pjoin + 65535) % 65536 }
  else if e.last = some g.phase then { g with pleave := g.pleave + 1 }
  else { g with pleave := g.pleave + 1 }.arrive

/-- The LEAVE of one entry at home; an object with a reserved bit set changes nothing (R309, R312). -/
def State.leaveObj (s : State) (e : Member) : State :=
  match s.readGrp e.pa with
  | none => s
  | some g => s.atomicWrite e.pa (g.leave e).bytes

/-- The LEAVEs of task end, in table order (R307). -/
def State.leaveAll (s : State) (k : Nat) : State :=
  let s := (s.thread k).members.foldl (fun s e => s.leaveObj e) s
  s.modThread k fun t => { t with members := [] }

end Sys2Proof.Machine
end

