-- ==== Sys2Proof/Machine/Graph.lean ====
section
/-! DEFINITION. The graph engines: records to the host, readiness, completion and the choice of a die (R159, R171 to R176, R182,
R452). -/

namespace Sys2Proof.Machine

open Sys2Proof

/-- The physical address that a context's translation gives, without the TLBs; none without a valid leaf. -/
def State.ctxPa (s : State) (ctx va : Nat) : Option Nat :=
  match s.walk ctx va with
  | .leaf e _ => some (e.frame * 4096 + va % pageBytes e.psz)
  | _ => none

/-- Can the machine read a virtual address of a context now: the memory devices of the walk's entries and of the byte accept an access (R87,
R90). -/
def State.ctxReady (s : State) (ctx va : Nat) : Bool :=
  let ready (pa : Nat) : Bool := s.deviceReady (s.homeAddr pa)
  !canonical va || ((s.walkReads va 4 (s.rootOf ctx)).all (fun l => ready (l * 64)) && ((s.ctxPa ctx va).map ready).getD true)

/-- A context by number. -/
def State.ctx (s : State) (n : Nat) : Ctx := Tab.getD s.ctxs n ⟨0, false, 0, Vector.replicate 8 0#8, none⟩

/-- A launch slot. -/
def State.slot (s : State) (n : Nat) : Option Slot := Tab.find n s.slots
def State.setSlot (s : State) (n : Nat) (x : Slot) : State := { s with slots := Tab.put n x s.slots }

/-- The empty node. -/
def Node.blank : Node :=
  { image := 0, kind := 0, cls := 0, gang := false, npred := 0, succ := [], oprows := 0, opidx := 0, deadline := 0, args := 0,
    pred := 0, tgen := 0, arrived := 0, done := 0, cgen := 0, count := 0, blocked := false, pend := false }

def Slot.node (x : Slot) (n : Nat) : Node := x.nodes.getD n Node.blank
def Slot.setNode (x : Slot) (n : Nat) (v : Node) : Slot := { x with nodes := x.nodes.set n v }

/-- A task identifier (R176). -/
def taskIdent (slot node inst : Nat) : Nat := slot * 2 ^ 32 + node * 65536 + inst

/-- The 64 bytes of a completion record (R452). -/
def completionBytes (seq task kind gen cause sub cidx uj sat pc info : Nat) : List Byte :=
  leBytes 8 seq ++ leBytes 5 task ++ leBytes 1 kind ++ leBytes 2 gen ++ leBytes 1 cause ++ leBytes 1 sub ++ leBytes 3 cidx
    ++ leBytes 3 0 ++ leBytes 4 uj ++ leBytes 4 sat ++ leBytes 8 pc ++ leBytes 8 info ++ leBytes 16 0

/-- Write a completion record of a slot and raise MSI-X vector 0 (R452). -/
def State.completion (s : State) (slot task kind gen cause sub cidx uj sat pc info port : Nat) : State :=
  match s.slot slot with
  | none => s
  | some x =>
    (s.recordMsi (x.cring + 64 * (x.seq % x.clen)) (completionBytes x.seq task kind gen cause sub cidx uj sat pc info) port).setSlot slot
      { x with seq := x.seq + 1 }

/-- The completion record of a task that ends or is shed. -/
def State.taskRecord (s : State) (t : Task) (kind cause sub pc info : Nat) : State :=
  s.completion (t.id / 2 ^ 32) t.id kind t.gen cause sub t.cidx t.uj (b01 t.ujSat) pc info t.port

/-- Event 0x0D: a task fault record (R164). -/
def State.faultEvent (s : State) (die unit id cidx gen sub cause : Nat) : State :=
  s.post 0x0D die unit (id % 2 ^ 40 * 2 ^ 88 + cidx % 2 ^ 24 * 2 ^ 64 + gen % 65536 * 2 ^ 48 + sub % 256 * 256 + cause % 256)

/-- The state words of a node written back to memory (R171). -/
def State.nodeBack (s : State) (slot n : Nat) : State :=
  match s.slot slot with
  | none => s
  | some x =>
    let v := x.node n
    match s.ctxPa x.ctx (x.graph + 64 + 64 * n + 48) with
    | none => s
    | some pa => s.recordWrite pa (leBytes 2 v.cgen ++ leBytes 2 v.done ++ leBytes 2 v.arrived ++ leBytes 2 v.tgen)

/-- The header's GEN written back to memory. -/
def State.genBack (s : State) (slot : Nat) : State :=
  match s.slot slot with
  | none => s
  | some x =>
    match s.ctxPa x.ctx (x.graph + 3) with
    | none => s
    | some pa => s.recordWrite pa (leBytes 2 x.gen)

/-! ## The choice of a die (R179, R182) -/

/-- The bound virtual dies of a context, with their physical dies. -/
def Ctx.vdies (c : Ctx) : List (Nat × Nat) :=
  (List.range 8).filterMap fun v =>
    let e := (vget c.vdt v 0#8).toNat
    if e ≥ 128 then some (v, e % 8) else none

/-- Is a physical die live: present and switched on (R182). -/
def State.dieLive (s : State) (d : Nat) : Bool := (s.die d).present && (s.die d).on

/-- Has a core no thread of either plane. -/
def State.planeFree (s : State) (core plane : Nat) : Bool := !(s.thread (2 * core + plane)).running

/-- Could a tenant's task be placed on a core now: owned, on, not degraded, not kept for a parked task, with a plane free (R160). -/
def State.coreQualifies (s : State) (core tenant : Nat) : Bool :=
  let c := s.core core
  c.owner == tenant && !c.off && !c.degraded && c.reserved.isNone && s.planeFree core (1 - c.active)

/-- Does some core of a die qualify. -/
def State.dieQualifies (s : State) (d tenant : Nat) : Bool := (List.range 64).any fun k => s.coreQualifies (64 * d + k) tenant

/-- The placement-map entry of a node: the counts, PIN and VDIE (R181). An entry that has lost its translation since the launch counts as no
map (log 132). -/
def State.pmapEntry (s : State) (x : Slot) (n : Nat) : Option (List Nat × Bool × Nat) :=
  if x.pmap = 0 then none
  else
    (s.ctxPa x.ctx (x.pmap + 32 * n)).map fun pa =>
      let b := s.homeNat (pa + 16) 1
      ((List.range 8).map fun v => s.homeNat (pa + 2 * v) 2, bit b 7, b % 8)

/-- Can the placement-map entry of a node be read now (R87, R90). -/
def State.mapReady (s : State) (x : Slot) (n : Nat) : Bool := x.pmap == 0 || s.ctxReady x.ctx (x.pmap + 32 * n)

/-- Steps 1 to 3 of R182 over the virtual dies whose physical die passes `ok`. The launch die of step 3 is the physical die to which it was
bound at launch (log 133). -/
def chooseAmong (vd : List (Nat × Nat)) (e : Option (List Nat × Bool × Nat)) (launch : Nat) (ok : Nat → Bool) : Option Nat :=
  let live := vd.filter fun v => ok v.2
  let byLaunch := (live.find? fun v => v.2 == launch).orElse fun _ => live.head?
  match e with
  | none => byLaunch.map (·.2)
  | some (cnt, pin, v) =>
    match (if pin then live.find? fun x => x.1 == v else none) with
    | some x => some x.2
    | none =>
      let best := live.foldl (fun (a : Option (Nat × Nat × Nat)) x =>
        let c := cnt.getD x.1 0
        match a with
        | none => some (c, x)
        | some (c0, y) => if c > c0 then some (c, x) else some (c0, y)) none
      match best with
      | none => none
      | some (c, x) => if c = 0 then byLaunch.map (·.2) else some x.2

/-- No grade SHED or PARK is in force for any class, and the module is not suspended (R182, R213). -/
def Sched.quiet (x : Sched) : Bool := !x.suspended && (List.range 4).all fun k => vget x.grades k 0 ≤ 1

/-- The die at readiness (R182). When no die is live, the die that would be chosen with gated dies taken in holds the task. -/
def State.chooseDie (s : State) (x : Slot) (n : Nat) : Nat :=
  let vd := (s.ctx x.ctx).vdies
  let e := s.pmapEntry x n
  let tenant := (s.ctx x.ctx).tenant
  let live := chooseAmong vd e x.die s.dieLive
  let all := chooseAmong vd e x.die fun d => (s.die d).present
  match live, all with
  | some d, some g => if !s.dieLive g && s.sched.quiet && !s.dieQualifies d tenant then g else d
  | some d, none => d
  | none, some g => g
  | none, none => x.die

/-- A gated die that step 4 of R182 has chosen is to be switched on (R213). -/
def State.wakeChosen (s : State) (d : Nat) : State :=
  if s.dieLive d || !s.sched.quiet then s
  else { s with sched := { s.sched with wake := s.sched.wake ||| (1#8 <<< d) } }

/-! ## Readiness (R159, R172 to R174) -/

/-- A fresh task. -/
def State.newTask (s : State) (slot : Nat) (x : Slot) (n inst : Nat) (kicked : Bool) : Task :=
  let v := x.node n
  { uid := s.uids, id := taskIdent slot n inst, kicked := kicked, gen := x.gen, ctx := x.ctx, die := s.chooseDie x n, cls := v.cls,
    aged := 0, deadline := if v.deadline = 0 then 2 ^ 32 else v.deadline, readyAt := s.now, waitAt := s.now, image := v.image,
    args := v.args, gang := v.gang, gangGroup := 0, gangN := 1, state := 0, threads := [], started := false, vbudget := 0,
    lines := [], openMark := 0, sealedMarks := [], nextSeq := 0, cidx := 0, log := [], replay := [], wAborts := 0, staged := [],
    uj := 0, ujSat := false, ujRem := 0, done := [], asyncOut := 0, flags := [], async := [], requeueAt := none, monitored := false,
    avoid := none, rows := [], row := 0, opTab := [], opreq := 0, pointAt := [], saved := [], origins := [], away := [], kept := [], parkRun := none, onyxCores := [], port := x.port, ending := none }

/-- Make one task ready. -/
def State.addTask (s : State) (slot n inst : Nat) (kicked : Bool) : State :=
  match s.slot slot with
  | none => s
  | some x =>
    let t := s.newTask slot x n inst kicked
    let s := s.setSlot slot { x with uids := x.uids ++ [t.uid] }
    (({ s with tasks := s.tasks ++ [t], uids := s.uids + 1 }).wakeChosen t.die).refillReady t.die

/-- A number in one line as home has it, with the committed stores of some tasks that have not reached home laid over in the order of their
tasks: the dirty bytes of software-managed copies and the write-throughs on their way. -/
def State.committedNat (s : State) (uids : List Nat) (pa n : Nat) : Nat :=
  let line := s.localPa pa / 64
  let d := uids.foldl (fun d u => (List.range 8).foldl (fun d i =>
    let d := (s.die i).llc.foldl (fun d e => if e.line = line ∧ e.home = false ∧ e.task = u then mergeLine d e.dat e.dirty else d) d
    (s.die i).wts.foldl (fun d w => if w.line = line ∧ w.task = u then mergeLine d w.dat w.mask else d) d) d) (s.homeLine line)
  leNat (((lineBytes d).drop (pa % 64)).take n)

/-- The value of a node's PRED word, as one load at PKG scope that sees what its predecessors have committed, and of other writers what has
reached home; none when it cannot be read (R173). The tasks of the slot stand for its predecessors: of one that is none, either value may be
seen (log 172). -/
def State.predValue (s : State) (x : Slot) (n : Nat) : Option Nat :=
  (s.ctxPa x.ctx (x.node n).pred).bind fun pa => if s.isPoison (pa / 64) then none else some (s.committedNat x.uids pa 8)

/-- What a slot's next generation keeps of the tasks before it: those whose write-throughs are on their way still. -/
def State.sending (s : State) (uids : List Nat) : List Nat :=
  uids.filter fun u => (List.range 8).any fun d => (s.die d).wts.any fun w => w.task == u

/-- MakeReady: the tasks it makes, and whether the node completes at once (R173, R174). A PRED word that cannot be read is an event and
blocks the node (log 16). A read that has to wait, of its PRED word or its placement-map entry, leaves the node pending (R87). -/
def State.makeReady (s : State) (slot n : Nat) : State × Bool :=
  match s.slot slot with
  | none => (s, false)
  | some x =>
    let v := x.node n
    let block (s : State) (cause : Nat) : State :=
      ((s.setSlot slot (x.setNode n { v with blocked := true })).faultEvent x.die 0 (taskIdent slot n 0) 0 x.gen 0 cause)
    let count (s : State) (c : Nat) : State :=
      let s := s.setSlot slot (x.setNode n { v with count := c })
      (List.range c).foldl (fun s i => s.addTask slot n i false) s
    if !s.mapReady x n || v.kind != 0 && !s.ctxReady x.ctx v.pred then (s.setSlot slot (x.setNode n { v with pend := true }), false)
    else if v.kind = 0 then (count s 1, false)
    else
      match s.predValue x n with
      | none => (block s cTranslation, false)
      | some p =>
        if v.kind = 1 then if p = 0 then (s, true) else (count s 1, false)
        else if p = 0 then (s, true)
        else if p ≤ 65535 then (count s p, false)
        else (block s ((s.free 50).toNat % 256), false)

/-- One arrival at a successor (R172); true when it has all its arrivals. -/
def State.arrive (s : State) (slot m : Nat) : State × Bool :=
  match s.slot slot with
  | none => (s, false)
  | some x =>
    let v := x.node m
    let v := if v.tgen = x.gen then v else { v with tgen := x.gen, arrived := 0, done := 0, count := 0, blocked := false, pend := false }
    let v := { v with arrived := v.arrived + 1 }
    ((s.setSlot slot (x.setNode m v)).nodeBack slot m, v.arrived == v.npred)

/-- Nodes that complete one after another: CGEN := TGEN, and their successors receive arrivals (R172, R175). -/
def State.completeNodes (s : State) (slot : Nat) : Nat → List Nat → State
  | _, [] => s
  | 0, _ => s
  | fuel + 1, n :: rest =>
    match s.slot slot with
    | none => s
    | some x =>
      let v := x.node n
      let s := (s.setSlot slot (x.setNode n { v with cgen := v.tgen })).nodeBack slot n
      let (s, more) := v.succ.foldl (fun (a : State × List Nat) m =>
        let (s, full) := a.1.arrive slot m
        if full then
          let (s, now) := s.makeReady slot m
          (s, if now then a.2 ++ [m] else a.2)
        else (s, a.2)) (s, [])
      s.completeNodes slot fuel (rest ++ more)

/-- The nodes whose PRED word or placement-map entry could not be read yet are made ready, once the memory devices accept accesses again (R87, R173). -/
def State.retryPreds (s : State) : State :=
  s.slots.foldl (fun s e =>
    match s.slot e.1 with
    | none => s
    | some x =>
      ((List.range x.nodes.length).filter fun n => (x.node n).pend).foldl (fun s n =>
        match s.slot e.1 with
        | none => s
        | some y =>
          let s := s.setSlot e.1 (y.setNode n { y.node n with pend := false })
          let (s, now) := s.makeReady e.1 n
          if now then s.completeNodes e.1 (x.nodes.length + 1) [n] else s) s) s

/-- Nodes unable to complete: the blocked ones and what follows them, found by spreading along the edges. -/
def Slot.stuck (x : Slot) : List Nat :=
  let seed := (List.range x.nodes.length).filter fun n => (x.node n).blocked && (x.node n).tgen == x.gen
  (List.range x.nodes.length).foldl (fun (a : List Nat) _ =>
    a.foldl (fun b n => (x.node n).succ.foldl (fun b m => if b.contains m then b else b ++ [m]) b) a) seed

/-- Has the generation ended: every node has completed or cannot, and no task of it is ready or running (R172). -/
def State.genDone (s : State) (slot : Nat) (x : Slot) : Bool :=
  let stuck := if x.nodes.any (fun v => v.blocked && v.tgen == x.gen) then x.stuck else []
  ((List.range x.nodes.length).all fun n => (x.node n).cgen == x.gen || stuck.contains n) &&
    !(s.tasks.any fun t => t.id / 2 ^ 32 == slot && t.gen == x.gen)

/-- Start a generation: GEN moves on, skipping 0, and every node with NPRED 0 becomes ready (R172). Such a node receives no arrival that
could reset its state words: TGEN, ARRIVED and DONE are reset here (log 134). -/
def State.startGen (s : State) (slot gen : Nat) : State :=
  match s.slot slot with
  | none => s
  | some x =>
    let s := (s.setSlot slot { x with gen := gen, uids := s.sending x.uids }).genBack slot
    let roots := (List.range x.nodes.length).filter fun n => (x.node n).npred == 0
    let (s, now) := roots.foldl (fun (a : State × List Nat) n =>
      let s := match a.1.slot slot with
        | none => a.1
        | some y =>
          (a.1.setSlot slot (y.setNode n { y.node n with tgen := gen, arrived := 0, done := 0, count := 0, blocked := false, pend := false })).nodeBack slot n
      let (s, c) := s.makeReady slot n
      (s, if c then a.2 ++ [n] else a.2)) (s, [])
    s.completeNodes slot (x.nodes.length + 1) now

/-- The generation that follows. -/
def nextGen (g : Nat) : Nat := if g ≥ 65535 then 1 else g + 1

/-- A slot whose generation has ended is freed when its launch asked for that (R450). -/
def State.slotCheck (s : State) (slot : Nat) : State :=
  match s.slot slot with
  | none => s
  | some x => if x.release && x.replayWait.isNone && s.genDone slot x then { s with slots := Tab.del slot s.slots } else s

/-- A task has ended: one instance is completed, and its record leaves the machine (R175). -/
def State.instanceDone (s : State) (t : Task) : State :=
  let slot := t.id / 2 ^ 32
  let n := t.id / 65536 % 65536
  let s := { s with tasks := s.tasks.filter fun u => u.uid != t.uid }
  let s := s.modDie t.die fun d => { d with ready := d.ready.filter fun u => u != t.uid }
  let s := s.refillReady t.die
  if t.kicked then s.slotCheck slot
  else
    match s.slot slot with
    | none => s
    | some x =>
      let v := x.node n
      if v.tgen ≠ t.gen then s.slotCheck slot
      else
        let v := { v with done := v.done + 1 }
        let s := (s.setSlot slot (x.setNode n v)).nodeBack slot n
        let s := if v.done = v.count then s.completeNodes slot (x.nodes.length + 1) [n] else s
        s.slotCheck slot

end Sys2Proof.Machine
end

