-- ==== Sys2Proof/Machine/Images.lean ====
section
/-! DEFINITION. Images: the liveness table, what each kind carries, its records, and where Onyx, the save pool and the park area hold them
(R63, R86, R91 to R94, R125, R186, R187, R211, R232, R435). -/

namespace Sys2Proof.Machine

open Sys2Proof

/-! ## CRC-32C -/

/-- One bit of CRC-32C, reflected. -/
def crcBit (c : BitVec 32) : BitVec 32 := if c.getLsbD 0 then (c >>> 1) ^^^ 0x82F63B78#32 else c >>> 1

/-- One byte of CRC-32C. -/
def crcByte (c : BitVec 32) (b : Byte) : BitVec 32 :=
  (List.range 8).foldl (fun c _ => crcBit c) (c ^^^ b.zeroExtend 32)

/-- The running CRC over bytes, from a running value. -/
def crcRun (c : BitVec 32) (l : List Byte) : BitVec 32 := l.foldl crcByte c

/-- CRC-32C of bytes. -/
def crc32c (l : List Byte) : BitVec 32 := ~~~(crcRun 0xFFFFFFFF#32 l)

/-! ## Liveness (R186, R187) -/

/-- A used liveness entry. -/
structure LiveEntry where
  g : BitVec 32
  p : BitVec 8
  h : BitVec 16
  a : BitVec 16
  q : BitVec 16
  eb : BitVec 16
  s : BitVec 8
  ranges : List (Nat × Nat)
  deriving DecidableEq, Repr

/-- The liveness table of a task's image, its address in the context's space; none without a table. -/
def State.liveTable (s : State) (t : Task) : Option Nat :=
  (s.ctxPa t.ctx t.image).bind fun pa =>
    let o := s.homeNat (pa + 56) 8
    if o = 0 then none else some (t.image + o)

/-- COUNT of a task's liveness table (R186). The header's reserved bits have no effect (log 127). -/
def State.liveCount (s : State) (t : Task) : Nat :=
  match s.liveTable t with
  | none => 0
  | some va => ((s.ctxPa t.ctx va).map fun pa => s.homeNat pa 2).getD 0

/-- A number of eight-byte words in a context's space, each through its own translation; none where one has none. What a word on a page
without RD, outside HBM4 and the LP tier, or poisoned does to a save is left open: it is read (log 156). -/
def State.ctxWords (s : State) (ctx va n : Nat) : Option (List Nat) :=
  (List.range n).foldr (fun i a => a.bind fun l => (s.ctxPa ctx (va + 8 * i)).map fun pa => s.homeNat pa 8 :: l) (some [])

/-- Can the liveness table and its entry `i` be read now (R87, R90). -/
def State.liveReady (s : State) (t : Task) (i : Nat) : Bool :=
  s.ctxReady t.ctx t.image && ((s.liveTable t).map fun va =>
    s.ctxReady t.ctx va && (List.range 16).all fun j => s.ctxReady t.ctx (va + 64 + 128 * i + 8 * j)).getD true

/-- Entry `i`, when R187 lets it be used; otherwise the save is taken as a full one. -/
def State.liveEntry (s : State) (t : Task) (i : Nat) : Option LiveEntry :=
  match s.liveTable t with
  | none => none
  | some va =>
    if i ≥ s.liveCount t then none
    else
      match s.ctxWords t.ctx (va + 64 + 128 * i) 16 with
      | none => none
      | some l =>
        let w := l.getD 0 0 + l.getD 1 0 * 2 ^ 64
        let n := bits w 3 0
        let all := (l.drop 2).take 8
        let rs := all.take n
        if bits w 15 4 ≠ 0 ∨ n > 8 ∨ (l.drop 10).any (· != 0) ∨ all.any (fun r => bits r 41 21 != 0) ∨
            rs.any (fun r => decide (bits r 20 0 + bits r 63 42 > 2 ^ 21)) then none
        else
          some ⟨BitVec.ofNat 32 (w >>> 96), BitVec.ofNat 8 (w >>> 88), BitVec.ofNat 16 (w >>> 72), BitVec.ofNat 16 (w >>> 56),
            BitVec.ofNat 16 (w >>> 40), BitVec.ofNat 16 (w >>> 24), BitVec.ofNat 8 (w >>> 16),
            rs.map fun r => (bits r 20 0, bits r 63 42)⟩

/-! ## The scratchpad as bytes -/

/-- The cells of a range. -/
def cellsIn (l : List Host.Cell) (base len : Nat) : List Host.Cell :=
  l.filter fun c => decide (base ≤ c.1 ∧ c.1 < base + len)

/-- The cells with a range replaced. -/
def cellsPut (l : List Host.Cell) (r : Nat × Nat × List Host.Cell) : List Host.Cell :=
  (l.filter fun c => decide (c.1 < r.1)) ++ (r.2.2.filter fun c => decide (r.1 ≤ c.1 ∧ c.1 < r.1 + r.2.1))
    ++ l.filter fun c => decide (r.1 + r.2.1 ≤ c.1)

/-! ## Images (R63, R93) -/

/-- The kinds of image of R63. -/
inductive ImgKind where
  | phint (e : LiveEntry) | full | ctx | cluster | commit
  deriving DecidableEq, Repr

/-- Keep the elements of a vector whose mask bit is set. -/
def maskVec {α : Type} {n : Nat} (v : Vector α n) (m : Nat) (z : α) : Vector α n :=
  v.mapIdx fun i x => if bit m i then x else z

/-- Freed registers read 0 in every image (R42). -/
def Thread.zeroFreed (t : Thread) : Thread :=
  { t with
    g := maskVec t.g (~~~t.freed.g).toNat 0#64, xl := maskVec t.xl (~~~t.freed.xl).toNat 0#64,
    xs := maskVec t.xs (~~~t.freed.xs).toNat 0#64, a := maskVec t.a (~~~t.freed.a).toNat 0#64,
    m := maskVec t.m (~~~t.freed.m).toNat 0#64, s := maskVec t.s (~~~t.freed.s).toNat 0#64 }

/-- The registers a PHINT save carries; the freed bits of the others are clear after restore. -/
def Thread.keepLive (t : Thread) (e : LiveEntry) : Thread :=
  { t with
    g := maskVec t.g e.g.toNat 0#64, p := (t.p &&& e.p) ||| 1#8, h := maskVec t.h e.h.toNat 0#64,
    a := maskVec t.a e.a.toNat 0#64, m := maskVec t.m e.a.toNat 0#64, s := maskVec t.s e.s.toNat 0#64,
    eb := maskVec t.eb e.eb.toNat 0#32,
    q := t.q.mapIdx fun i x => if e.q.getLsbD i then x else { x with elems := [] },
    freed := { t.freed with g := t.freed.g &&& e.g, a := t.freed.a &&& e.a, m := t.freed.m &&& e.a, s := t.freed.s &&& e.s } }

/-- What no image carries: accesses and waits in progress, the windows, requests, the permits of the microsecond (R222). A GBAR that has
arrived keeps its wait for the flip (R285), and a cause that is pending stays so, with what its trap point is formed from (R438). -/
def Thread.atRest (t : Thread) : Thread :=
  { t with
    winL := [], winC := [], winS := [], lostL := false, lostC := false, lostS := false, flights := [], qflights := [],
    ctlAcc := [], settles := [], waitK := none, waitL := none, waitC := none, waitS := none,
    ph := if t.ph.stage = 60 then t.ph else Phase.none, phS := Phase.none, mtHold := none, passed := [],
    permits := 0, preempt := none, parkStop := none, liveIdx := none, idleUntil := none, halted := false }

/-- No trap point is being formed, and no replay is under way. -/
def Thread.untrapped (t : Thread) : Thread := { t with trapPend := none, hist := [], tileRep := none }

/-- Is a thread drained: every access performed, every arrival landed, every settle done (R318, R285). -/
def Thread.drained (t : Thread) : Bool :=
  t.flights.isEmpty && t.qflights.isEmpty && t.ctlAcc.isEmpty && t.settles.all (·.cancelled)

/-- The open tiles of a thread in a cluster, both halves, with their ab registers (R63, R367). -/
def Cluster.tilesOf (c : Cluster) (uid pos : Nat) : List AccImg :=
  (List.range 8).flatMap fun (n : Nat) =>
    let x := c.slotAt n
    if x.isOf uid (some pos) then
      let lo : List AccImg := if x.ext then [AccImg.mk (n ^^^ 1) (c.slotAt (n ^^^ 1)) (vget c.ab (n ^^^ 1) 0#64)] else []
      AccImg.mk n x (vget c.ab n 0#64) :: lo
    else []

/-! ## Records (R93) -/

/-- Bits set among the low 32 of a number. -/
def ones (x : Nat) : Nat := ((List.range 32).filter fun i => bit x i).length

/-- The registers that an image of a thread carries: all of them, or those that a liveness entry names, whose bit for g0 is ignored, with the
files of "always", and in either case none that is freed (R42, R63, R186). -/
def Thread.carried (t : Thread) (e : Option LiveEntry) : Nat :=
  let live (f : LiveEntry → Nat) (n : Nat) : Nat := (e.map f).getD (2 ^ n - 1)
  let file (l freed n : Nat) : Nat := ones (l &&& (2 ^ n - 1 - freed))
  file (live (fun e => e.g.toNat / 2 * 2) 32) t.freed.g.toNat 32 + 1 + ones (live (·.h.toNat) 16) + file 255 t.freed.xl.toNat 8 + file 255 t.freed.xs.toNat 8
    + file (live (·.a.toNat) 16) t.freed.a.toNat 16 + file (live (·.a.toNat) 16) t.freed.m.toNat 16
    + file (live (·.s.toNat) 8) t.freed.s.toNat 8 + ones (live (·.eb.toNat) 16) + 12 + 1

/-- Bytes of queue RAM that a thread's elements take. -/
def Thread.queueBytes (t : Thread) : Nat := (t.q.toList.map fun b => b.elems.length * 2 ^ b.esz).sum

/-- The records of an image, in order: KIND and payload bytes. -/
def imageRecs (regs queue : Nat) (spad : List (Nat × Nat × List Host.Cell)) (acc : Nat) : List ImgRec :=
  [⟨0, 64, true⟩, ⟨1, 32 + 8 * regs, true⟩, ⟨2, 1024, true⟩, ⟨3, 8192 + queue, true⟩]
    ++ spad.map (fun r => ⟨4, 8 + r.2.1, true⟩) ++ List.replicate acc ⟨5, 132096, true⟩

/-- Is an image complete: every record is there, with a correct CRC (R93). -/
def Image.complete (i : Image) : Bool := i.done && i.recs.all (·.good)

/-- The header of record `idx` of an image, with a CRC (R93). -/
def recHeader (i : Image) (idx : Nat) (r : ImgRec) (crc : Nat) : List Byte :=
  leBytes 32 (i.seq % 2 ^ 64 * 2 ^ 192 + i.mark % 2 ^ 32 * 2 ^ 160 + r.kind * 2 ^ 144 + idx * 2 ^ 128 + i.recs.length * 2 ^ 112
    + r.len * 2 ^ 64 + crc)

/-- The payload of record `idx`: base, length and bytes of a scratchpad range; tile, checksum column, ab register and tile record of an
accumulator slot. What the spec keeps to the save engine is free (R93, log 128). -/
def Image.payload (i : Image) (idx : Nat) (r : ImgRec) : List Byte :=
  let own (n : Nat) : List Byte := (List.range n).map fun j => Config.recordByte i.seq idx j
  let spads := (i.recs.take idx).countP fun x => x.kind == 4
  let accs := (i.recs.take idx).countP fun x => x.kind == 5
  if r.kind = 4 then
    match i.spad[spads]? with
    | some x => leBytes 8 (x.2.1 * 2 ^ 42 + x.1) ++ memBytes x.2.2 x.1 x.2.1
    | none => own r.len
  else if r.kind = 5 then
    match i.acc[accs]? with
    | some x =>
      (List.range 32768).flatMap (fun j => leBytes 4 (Tab.getD x.acc.tile j 0#32).toNat)
        ++ (List.range 128).flatMap (fun j => leBytes 4 (Tab.getD x.acc.chk j 0#32).toNat) ++ leBytes 8 x.ab.toNat ++ own 504
    | none => own r.len
  else own r.len

/-- The bytes of an image: its records one after another, each with the CRC-32C over its header, with CRC taken as 0, and its payload. -/
def Image.bytes (i : Image) : List Byte :=
  (i.recs.mapIdx fun idx r => (idx, r)).flatMap fun e =>
    let p := i.payload e.1 e.2
    recHeader i e.1 e.2 (crc32c (recHeader i e.1 e.2 0 ++ p)).toNat ++ p

/-- Bytes that the records of an image take. -/
def Image.size (i : Image) : Nat := (i.recs.map fun r => 32 + r.len).sum

/-- An image of a thread (R63). The liveness entry whose ranges a PFENCE image and a commit image carry is not given by the spec: it
is a free choice among the entries (log 17). -/
def State.capture (s : State) (k : Nat) (kind : ImgKind) (mark : Nat) : Image :=
  let t := s.thread k
  let core := s.core (thrCore k)
  let cl := s.cluster (thrCluster k)
  let task := s.taskOf t.task
  let seq := (task.map (·.nextSeq)).getD 0
  let whole : List (Nat × Nat × List Host.Cell) := [(0, 2 ^ 21, core.spad)]
  let pick (e : Option LiveEntry) := match e with
    | none => whole
    | some e => e.ranges.map fun r => (r.1, r.2, cellsIn core.spad r.1 r.2)
  let anyEntry := task.bind fun x =>
    let n := s.liveCount x
    if n = 0 then none else s.liveEntry x ((s.free 40).toNat % n)
  let base := t.zeroFreed.atRest
  let subs := cl.subs.filter fun b => b.task == t.task && b.pos == t.gangPos
  let img (t : Thread) (sp : List (Nat × Nat × List Host.Cell)) (acc : List AccImg) (subs : List BSub) : Image :=
    let live := match kind with
      | .phint e => some e
      | _ => none
    { task := t.task, id := (task.map (·.id)).getD 0, seq := seq, mark := mark, cidx := (task.map (·.cidx)).getD 0, ref := false, done := false, core := thrCore k
      recs := imageRecs ((s.thread k).carried live) t.queueBytes sp acc.length, vers := none, run := none, accLoc := none, t := some t
      spad := sp, spadBad := core.spadPoison.filter fun l => sp.any fun r => decide (r.1 < l * 64 + 64 ∧ l * 64 < r.1 + r.2.1)
      acc := acc, subs := subs }
  match kind with
  | .phint e => img (base.keepLive e) (pick (some e)) [] subs
  | .full => img base whole (cl.tilesOf t.task t.gangPos) subs
  | .ctx => img { base.untrapped with claim := false } (pick anyEntry) [] []
  | .cluster => img base.untrapped (pick anyEntry) (cl.tilesOf t.task t.gangPos) []
  | .commit => img { base.untrapped with claim := false } (pick anyEntry) [] []

/-! ## Onyx: the map and its wear (R91, R92, R232) -/

/-- Offset of a location of a core area: persist image A, B, the commit image. -/
def coreArea (core slot : Nat) : Nat := 0x100000 + core % 64 * 0x640000 + slot * 0x210000

/-- Offset of a location of a cluster area. -/
def clusterArea (cl loc : Nat) : Nat := 0x19100000 + cl % 16 * 0x210000 + loc * 0x108000

/-- Offset of a version record, and how many the area holds (R86). -/
def versArea (n : Nat) : Nat := 0x1B200000 + 96 * n
def versMax : Nat := 699050

/-- The records of an image that lie in its core area, or in the cluster area, each with its place in the list and its offset. -/
def Image.placed (i : Image) (acc : Bool) (base : Nat) : List (Nat × Nat × Nat) :=
  ((i.recs.mapIdx fun n r => (n, r)).foldl (fun (a : List (Nat × Nat × Nat) × Nat) e =>
    if (e.2.kind == 5) == acc then (a.1 ++ [(e.1, a.2, 32 + e.2.len)], a.2 + 32 + e.2.len) else a) ([], base)).1

/-- Record writes at offsets of a die's Onyx: WRITES of each block that a record touches advances, saturating (R232). -/
def Die.wearWrites (d : Die) (l : List (Nat × Nat)) : Die :=
  l.foldl (fun (x : Die) r =>
    ((List.range ((r.1 + r.2 - 1) / 2 ^ 20 + 1 - r.1 / 2 ^ 20)).map (r.1 / 2 ^ 20 + ·)).foldl (fun (x : Die) b =>
      let e := Tab.getD x.wear b (0, none)
      { x with wear := Tab.put b (min (e.1 + 1) (2 ^ 48 - 1), e.2) x.wear }) x) d

/-- Where an image job's records go in Onyx: those of a save go to memory instead, and those of a job that has not begun nowhere. -/
def ImgJob.writes (j : ImgJob) : List (Nat × Nat) :=
  if j.slot ≥ 3 ∨ !j.begun then []
  else
    let core := j.img.placed false (coreArea j.core j.slot)
    let acc := match j.img.accLoc with
      | some n => j.img.placed true (clusterArea (coreCluster j.core) n)
      | none => []
    (core ++ acc).map fun e => (e.2.1, e.2.2)

/-- The record writes of a complete image (R232). -/
def State.wearImage (s : State) (j : ImgJob) : State := s.modDie (coreDie j.core) fun d => d.wearWrites j.writes

/-! ## Images in Onyx (R92, R93, R110, R125) -/

/-- The persist location that does not hold the newest complete image: 0 for A, 1 for B (R92, R110). -/
def Core.persistSlot (c : Core) (uid : Nat) : Nat :=
  let rank (i : Option Image) : Nat := match i with
    | some x => if x.complete && x.task == uid then x.seq + 1 else 0
    | none => 0
  if rank c.imgA > rank c.imgB then 1 else 0

/-- The location of a cluster area that does not hold the newest complete image (R125). -/
def Cluster.accSlotLoc (c : Cluster) : Nat :=
  let rank (n : Nat) : Nat := match vget c.accArea n none with
    | some x => if x.done then x.seq + 1 else 0
    | none => 0
  if rank 0 > rank 1 then 1 else 0

/-- Position of an image's thread in its gang. -/
def Image.pos (i : Image) : Nat := (i.t.map (·.gangPos)).getD 0

/-- Put an image into a location of a core area. -/
def Core.putImage (c : Core) (slot : Nat) (i : Image) : Core :=
  if slot = 0 then { c with imgA := some i } else if slot = 1 then { c with imgB := some i }
  else if slot = 2 then { c with imgC := some i } else c

/-- The save engine begins the image of a job (R93, R126): the persist location, and that of the cluster area which takes the accumulator
slots, are those that do not hold the newest complete image then; until the image is complete its location is torn. -/
def State.beginJob (s : State) (d : Nat) (j : ImgJob) : State × ImgJob :=
  let cl := coreCluster j.core
  let slot := if j.slot ≥ 2 then j.slot else (s.core j.core).persistSlot j.img.task
  let loc := if j.img.acc.isEmpty || slot ≥ 2 then none else some (s.cluster cl).accSlotLoc
  let img := { j.img with accLoc := loc }
  let s := s.modCore j.core fun c => c.putImage slot img
  let s := match loc with
    | none => s
    | some n => s.modCluster cl fun c => { c with accArea := vset c.accArea n (some ⟨img.task, img.pos, img.seq, false⟩) }
  let j1 := { j with slot := slot, img := img, begun := true }
  (s.modDie d fun x => { x with imgs := x.imgs.map fun y => if y = j then j1 else y }, j1)

/-- The save engine of a core begins the next image that waits there, when it writes none (R435). -/
def State.nextImage (s : State) (core : Nat) : State :=
  match (s.die (coreDie core)).imgs.find? fun j => j.core == core with
  | none => s
  | some j => if j.begun then s else (s.beginJob (coreDie core) j).1

/-- An image of a thread is to be written (R93): the save engine begins it when the core's earlier images are complete. Slot 0 stands for
either persist location; a commit image and a saved context record have places of their own. -/
def State.startImage (s : State) (k slot purpose : Nat) (img : Image) : State :=
  let s := if slot = 2 then s.modCore (thrCore k) fun c => c.putImage 2 img else s
  let s := s.modTask img.task fun t => { t with nextSeq := t.nextSeq + 1 }
  (s.modDie (thrDie k) fun d => { d with imgs := d.imgs ++ [⟨thrCore k, slot, purpose, k, img, false⟩] }).nextImage (thrCore k)

/-- Image jobs that are cut: their locations stay torn, and the records that had been written by then, a free number of them, have worn
their blocks (R93, R232). The images that waited behind them begin. -/
def State.cutImages (s : State) (d : Nat) (cut : ImgJob → Bool) : State :=
  let gone := (s.die d).imgs.filter cut
  let s := s.modDie d fun x => { x with imgs := x.imgs.filter fun j => !cut j }
  let s := gone.foldl (fun s j =>
    let w := j.writes
    s.modDie d fun x => x.wearWrites (w.take ((s.free 61).toNat % (w.length + 1)))) s
  ((gone.map (·.core)).eraseDups).foldl (fun s c => s.nextImage c) s

/-- The record directory of a core area: the offset of each record of the images that lie there, by location and place in the image. R92
gives its place, 0x63_0000 in the area, and no format (log 128). -/
def Core.directory (c : Core) (core : Nat) : List (Nat × Nat × Nat) :=
  ([c.imgA, c.imgB, c.imgC].mapIdx fun slot i => (i.map fun x => (x.placed false (coreArea core slot)).map fun e => (slot, e.1, e.2.1)).getD []).flatten

/-- Mark the image of a job complete where it lies, in its core's area or with the task that has left the plane. -/
def State.imageDone (s : State) (j : ImgJob) : State :=
  let fin (i : Option Image) : Option Image := i.map fun x => if x.seq = j.img.seq ∧ x.task = j.img.task then { x with done := true } else x
  let s := s.modCore j.core fun c =>
    if j.slot = 0 then { c with imgA := fin c.imgA } else if j.slot = 1 then { c with imgB := fin c.imgB }
    else if j.slot = 2 then { c with imgC := fin c.imgC } else c
  let s := s.modTask j.img.task fun t => { t with kept := t.kept.map fun e => if e.1 = j.slot then ((fin (some e.2)).map fun x => (e.1, x)).getD e else e }
  match j.img.accLoc with
  | none => s
  | some n => s.modCluster (coreCluster j.core) fun c => { c with
      accArea := vset c.accArea n ((vget c.accArea n none).map fun x => { x with done := true }) }

/-- The image that a launch itself stands for, and the reference to a record in memory, have a header and a reference record (R92). -/
def refRecs : List ImgRec := [⟨0, 64, true⟩, ⟨7, 16, true⟩]

/-! ## Errors of Onyx (R86, R93, R96) -/

/-- What the reading of an image of a die's Onyx finds: an uncorrectable error in a record, or in a version record that it names, breaks that
record's CRC; the device corrects the others. -/
def State.onyxBad (s : State) (die lo n : Nat) : Bool :=
  s.latent.any fun l => l.str == 13 && l.unit == die && l.kind != 0 && decide (lo ≤ l.loc ∧ l.loc < lo + n)

/-- An image as its reading finds it, at its location. -/
def State.readImage (s : State) (slot : Nat) (i : Image) : Image :=
  let die := coreDie i.core
  let struck := ((i.placed false (coreArea i.core slot)) ++ (match i.accLoc with
    | some n => i.placed true (clusterArea (coreCluster i.core) n)
    | none => [])).filter fun e => s.onyxBad die e.2.1 e.2.2
  let vers := match i.vers with
    | none => false
    | some (o, n) => (List.range n).any fun j => s.onyxBad die (versArea (o + j)) 96
  { i with recs := i.recs.mapIdx fun n r =>
    if struck.any (fun e => e.1 == n) || (vers && r.kind == 6) then { r with good := false } else r }

/-- The images of a task in Onyx are read: each uncorrectable error met is posted (R96, R100, R164). -/
def State.readOnyx (s : State) (uid : Nat) : State :=
  match s.taskOf uid with
  | none => s
  | some t =>
    if s.latent.all fun l => l.str != 13 then s
    else
      let dies := (t.kept.map fun e => coreDie e.2.core).eraseDups
      let met := s.latent.filter fun l => l.str == 13 && dies.contains l.unit
      let s1 := s.modTask uid fun x => { x with kept := x.kept.map fun e => (e.1, s.readImage e.1 e.2) }
      (met.filter fun l => l.kind != 0).foldl (fun s l => s.post 0x04 l.unit 0 (13 <<< 120 ||| l.loc % 2 ^ 64)) s1

/-! ## Version records (R86) -/

/-- The first free run of `n` bytes of an area. -/
def freeRun (used : List (Nat × Nat)) (size n : Nat) : Option Nat :=
  let starts := 0 :: used.map fun r => r.1 + r.2
  let ok := starts.filter fun o => decide (o + n ≤ size) && used.all fun r => decide (o + n ≤ r.1 ∨ r.1 + r.2 ≤ o)
  match ok with
  | [] => none
  | a :: r => some (r.foldl min a)

/-- The part of a die's area that version records use, in records. -/
def Die.versUsed (d : Die) : List (Nat × Nat) := d.vrecs.map fun v => (v.first, v.lines.length)

/-- The version records of tasks that no longer are, which a loss of the module leaves, give their part of the area back (R86, R437). -/
def State.versDead (s : State) (d : Nat) : State :=
  s.modDie d fun x => { x with vrecs := x.vrecs.filter fun v => (s.taskOf v.task).isSome }

/-- The version lines of a parked task become version records, and its newest persist image names them in a record of KIND 6 (R86 step 3).
Where they go in the area is the model's choice: the first run that holds them (log 129). -/
def State.versOut (s0 : State) (d : Nat) (t : Task) : State :=
  let s := s0.versDead d
  let n := t.lines.length
  match freeRun (s.die d).versUsed versMax n with
  | none => s
  | some o =>
    let top := (t.kept.filter fun e => e.1 != 2 && e.2.complete).foldl (fun m e => max m (e.2.seq + 1)) 0
    let names (e : Nat × Image) : Bool := e.1 != 2 && e.2.complete && e.2.seq + 1 == top
    let kept := t.kept.map fun e => if names e then (e.1, { e.2 with vers := some (o, n), recs := e.2.recs ++ [⟨6, 16, true⟩] }) else e
    let writes := (List.range n).map (fun j => (versArea (o + j), 96)) ++ (kept.filter fun e => e.2.vers == some (o, n)).filterMap fun e =>
      ((e.2.placed false (coreArea e.2.core e.1)).getLast?).map fun x => (x.2.1, x.2.2)
    let s := s.modTask t.uid fun x => { x with lines := [], kept := kept }
    s.modDie d fun x => ({ x with vrecs := x.vrecs ++ [⟨t.uid, o, t.lines, []⟩] } : Die).wearWrites writes

/-- The version records of a task leave Onyx: the lines, and the dies without them. -/
def State.versTake (s : State) (uid : Nat) : State × List VLine :=
  ({ s with dies := s.dies.map fun (d : Die) => ({ d with vrecs := d.vrecs.filter fun v => v.task != uid } : Die) },
    ((List.range 8).flatMap fun d => (s.die d).vrecs.filter fun v => v.task == uid).flatMap (·.lines))

/-! ## Images in memory (R211, R435) -/

/-- A saved context record is written into its context's save pool, where the first free run holds it (R435, log 130). -/
def State.writeSaved (s : State) (ctx : Nat) (img : Image) : State × Image :=
  match (s.ctx ctx).pool with
  | none => (s, img)
  | some (base, size) =>
    let used := (s.tasks.filter fun t => t.ctx == ctx).flatMap fun t => (t.saved ++ t.origins).filterMap (·.run)
    match freeRun used size img.size with
    | none => (s, img)
    | some o => (s.engineWrite (base + o) img.bytes, { img with run := some (o, img.size) })

end Sys2Proof.Machine
end

