-- ==== Sys2Proof/Machine/Region.lean ====
section
/-! DEFINITION. Commit regions and images: capture and restore, marks, the commit instant, aborts, the end of a task and the release
of a plane (R63, R64, R79, R84, R109 to R114, R126, R128, R404, R405, R427). -/

namespace Sys2Proof.Machine

open Sys2Proof

/-! ## Marks (R84) -/

/-- Is mark `m` newer than mark `x`. -/
def markNewer (m x : Nat) : Bool := decide (1 ≤ (m + 2 ^ 32 - x % 2 ^ 32) % 2 ^ 32 ∧ (m + 2 ^ 32 - x % 2 ^ 32) % 2 ^ 32 < 2 ^ 31)

/-- The mark after `m`. -/
def markNext (m : Nat) : Nat := (m + 1) % 2 ^ 32

/-- The newest mark that a task has drawn and not retired. -/
def Task.lastMark (t : Task) : Nat := t.sealedMarks.foldl (fun a m => if markNewer m a then m else a) t.openMark

/-- The mark that a task draws next: marks are drawn in increasing order. -/
def Task.drawn (t : Task) : Nat := markNext t.lastMark

/-- Seal the open mark and open the next (R126). -/
def Task.seal (t : Task) : Task :=
  { t with sealedMarks := t.sealedMarks ++ [t.openMark], openMark := t.drawn }

/-- A commit draws a mark and seals it at once; the open mark stays open until the commit instant (R110 step 2). -/
def Task.sealCommit (t : Task) : Task := { t with sealedMarks := t.sealedMarks ++ [t.drawn] }

/-! ## The commit instant (R110 steps 4 and 6, R111, R113, R120, R136, R146) -/

/-- The version bytes of retired marks, merged line by line, the newer over the older. -/
def mergeRetired (l : List VLine) : List VLine :=
  l.foldl (fun a v =>
    match a.find? fun w => w.line == v.line with
    | none => a ++ [v]
    | some _ => a.map fun w =>
      if w.line = v.line then { w with dat := mergeLine w.dat v.dat v.mask, mask := w.mask ||| v.mask, wb := w.wb || v.wb } else w) []

/-- A committed line becomes pending write-through, with its copy under R111, or a dirty copy of a software-managed page. A copy that the
die has of the line takes the bytes in any case (R107). An error of the slice that strikes the version line poisons what is sent and kept
(R96, R100). -/
def State.retireLine (s0 : State) (die uid : Nat) (v : VLine) : State :=
  let (s, struck) := s0.llcMeet die v.line
  let old := (s.die die).llc.find? fun e => e.line == v.line && !e.home
  if v.swm && !v.wb then
    match old with
    | some e => s.llcInsert die { e with
        dat := mergeLine e.dat v.dat v.mask, valid := e.valid ||| v.mask, dirty := e.dirty ||| v.mask, swm := true, task := uid
        poison := (e.poison && v.mask != maskAll) || struck }
    | none => s.llcInsert die ⟨v.line, v.dat, v.mask, v.mask, true, false, false, uid, struck⟩
  else
    let home := s.homeOf (v.line * 64)
    let peer := match home with
      | .peer _ => true
      | _ => false
    let own := decide (home = .die die)
    let s := s.modDie die fun d => { d with wts := d.wts ++ [⟨v.line, v.dat, v.mask, uid, peer, false, struck⟩] }
    match old with
    | some e => s.llcInsert die { e with
        dat := mergeLine e.dat v.dat v.mask, valid := e.valid ||| v.mask, dirty := e.dirty &&& ~~~v.mask, held := e.held || !own
        swm := v.swm, task := uid, poison := (e.poison && v.mask != maskAll) || struck }
    | none => if own then s else s.llcInsert die ⟨v.line, v.dat, v.mask, 0#64, v.swm, true, false, uid, struck⟩

/-- L1 copies of a line take the committed bytes, so that the task's own later loads return them (R107). -/
def State.refreshL1 (s : State) (cl : Nat) (v : VLine) : State :=
  s.modCluster cl fun c => { c with
    l1 := c.l1.map fun e =>
      if e.line = v.line then { e with dat := mergeLine e.dat v.dat v.mask, poison := e.poison && v.mask != maskAll } else e }

/-- The first staged slot whose time has come: one that is not yet published or written holds back those after it on its ring (R146). -/
def nextStaged (l : List Staged) : Option Nat :=
  (List.range l.length).find? fun i =>
    (l[i]?).any fun x => x.pub && x.written && (l.take i).all fun y => y.ring != x.ring

/-- Publish staged slots whose time has come, in SPULL order on each ring: PROD advances, then the barrier object gets the bytes (R146). -/
def State.publish (s : State) (uid : Nat) : Nat → State
  | 0 => s
  | fuel + 1 =>
    match s.taskOf uid with
    | none => s
    | some t =>
      match (nextStaged t.staged).bind fun i => (t.staged[i]?).map fun x => (i, x) with
      | none => s
      | some (i, x) =>
        let prod := s.homeNat x.ring 8
        let s := s.atomicWrite x.ring (leBytes 8 ((prod + 1) % 2 ^ 64))
        let s := { s with barAdds := s.barAdds ++ [BarAdd.mk x.bar x.len (some uid) x.pos 0#32] }
        (s.modTask uid fun t => { t with staged := t.staged.eraseIdx i, asyncOut := t.asyncOut + 1 }).publish uid fuel

/-- Is an access an atomic of a task that an abort has cut off from its unit, with its answer still to come (R427). -/
def PeerAcc.orphan (p : PeerAcc) (uid : Nat) : Bool := p.dest == 8 && (p.once.map (·.1)) == some uid

/-- The atomics of a task that are cut off are forgotten with its replay entries: their answers change nothing (R114). -/
def State.dropOrphans (s : State) (uid : Nat) : State :=
  { s with peers := s.peers.map fun (p : PeerAcc) => if p.orphan uid then { p with once := none } else p }

/-- The commit instant of a task for the sealed mark. -/
def State.commitInstant (s : State) (k mark : Nat) : State :=
  let uid := (s.thread k).task
  match s.taskOf uid with
  | none => s
  | some t =>
    let gone := mergeRetired (t.lines.filter fun v => !markNewer v.mark mark)
    let s := s.modTask uid fun t => { t with
      lines := t.lines.filter fun v => markNewer v.mark mark
      openMark := if markNewer t.openMark mark then t.openMark else markNext mark
      sealedMarks := t.sealedMarks.filter fun m => markNewer m mark
      log := t.log.filter fun e => markNewer e.mark mark
      replay := []
      cidx := (t.cidx + 1) % 2 ^ 24
      wAborts := 0
      staged := t.staged.map fun x => if markNewer x.mark mark then x else { x with pub := true } }
    let s := s.dropOrphans uid
    let s := gone.foldl (fun s v => s.retireLine t.die uid v) s
    let s := t.threads.foldl (fun s j =>
      let s := gone.foldl (fun s v => s.refreshL1 (thrCluster j) v) s
      let s := s.modCore (thrCore j) fun c => { c with mismatch := 0 }
      let s := s.modThread j fun x => { x with winL := [], winC := [], winS := [], lostL := false, lostC := false, lostS := false }
      s.modCluster (thrCluster j) fun c => { c with
        acc := c.acc.map fun a => if a.st = 1 ∧ a.task = uid then { a with whole := false } else a }) s
    s.publish uid (t.staged.length + 1)

/-! ## Abort of a region (R112, R114, R427) -/

/-- Entries of the once-only log newer than a mark become replay entries, before the ones still to match (R114). -/
def Task.toReplay (t : Task) (mark : Nat) : Task :=
  let newer := t.log.filter fun e => markNewer e.mark mark
  { t with log := t.log.filter (fun e => !markNewer e.mark mark), replay := newer ++ t.replay }

/-- An image without the run-ahead record, the loop resumes and a trap point in the making, which a restart discards (R421, R478). -/
def Image.noRecord (i : Image) : Image :=
  { i with t := i.t.map fun x => { x with
      runL := RunAhead.none, runC := RunAhead.none, runS := RunAhead.none, stopped := [], loopRes := [], trapPend := none, hist := [], tileRep := none } }

/-- The version of the region discarded, with its unpublished slots; the log entries become replay entries (R112, R114, R146). -/
def Task.dropRegion (t : Task) : Task :=
  { t with
    kept := t.kept.map fun e => (e.1, e.2.noRecord)
    lines := [], sealedMarks := [], openMark := t.lastMark, staged := t.staged.filter (·.pub), log := [], replay := t.log ++ t.replay }

/-- A thread's B-store subscriptions and slots become FREE (R154). -/
def Cluster.dropSubs (c : Cluster) (uid pos : Nat) : Cluster :=
  let own (b : BSlot) : Bool := b.task == uid && b.pos == pos
  let c := c.slotsLeft ((c.bst.filter fun e => own e.2).map (·.1))
  { c with
    subs := c.subs.filter fun b => !(b.task == uid && b.pos == pos)
    bst := c.bst.filter fun e => !own e.2 }

/-- Walks of a thread are forgotten: their results are discarded. -/
def State.dropWalks (s : State) (k : Nat) : State :=
  s.modDie (thrDie k) fun d => { d with walks := d.walks.filter fun w => w.thr != k, waitWalks := d.waitWalks.filter fun w => w.thr != k }

/-- The tenant of the outgoing thread is remembered; a change of tenant zeroes what the incoming thread does not restore (R79). -/
def State.enterCore (s : State) (core tenant : Nat) : State :=
  s.modCore core fun c =>
    if c.lastTenant = tenant then c
    else { c with lastTenant := tenant, spad := [], spadPoison := [] }

/-- A pending change of a core's owner takes effect once no thread of another tenant runs on it (R448). -/
def State.applyOwner (s : State) (core : Nat) : State :=
  match (s.core core).pendOwner with
  | none => s
  | some o =>
    if (List.range 2).all fun p => !(s.thread (2 * core + p)).running || (s.thread (2 * core + p)).tenant == o then
      s.modCore core fun c => { c with owner := o, pendOwner := none }
    else s

/-- PLANE of THREAD_STATUS as the planes stand. -/
def State.fixPlanes (s : State) (core : Nat) : State :=
  (List.range 2).foldl (fun s p =>
    let k := 2 * core + p
    if (s.thread k).running then s.modThread k fun t => { t with status := setBit32 t.status 19 (!s.isActive k) } else s) s

/-- Does the save engine still write the commit image of a job's kind: a copy of a commit's image, or a reference record (R92, R110). -/
def ImgJob.commitArea (j : ImgJob) : Bool := j.purpose == 2 || j.purpose == 5

/-- The images of a thread in its core's area, those complete and the commit image that is still being written, are kept with its task when
the thread leaves the active plane: the area serves another thread from then on. -/
def State.keepImages (s : State) (k : Nat) : State :=
  let core := thrCore k
  let t := s.thread k
  let c := s.core core
  let own (i : Option Image) : Bool := (i.map fun x => x.task == t.task && x.pos == t.gangPos).getD false
  let l := [(0, c.imgA), (1, c.imgB), (2, c.imgC)].filter fun e => own e.2
  let coming (x : Image) : Bool := (s.die (thrDie k)).imgs.any fun j => j.commitArea && j.img.task == x.task && j.img.seq == x.seq
  let done := l.filterMap fun e => e.2.bind fun x => if x.done || coming x then some (e.1, x) else none
  if l.isEmpty then s
  else
    let s := s.modTask t.task fun x => { x with kept := (x.kept.filter fun e => e.2.pos != t.gangPos) ++ done }
    s.setCore core { c with
      imgA := if own c.imgA then none else c.imgA, imgB := if own c.imgB then none else c.imgB, imgC := if own c.imgC then none else c.imgC }

/-- Does a gang start: every one of its threads is active (R178). -/
def State.gangStart (s : State) (uid : Nat) : State :=
  match s.taskOf uid with
  | none => s
  | some t => if t.started || !(t.threads.all s.isActive) then s else s.modTask uid fun x => { x with started := true }

/-- Saved ranges put back into a core's scratchpad: their lines lose the poison and the errors of what they overwrite, and have those of the
image (R79, R97, R100). -/
def State.spadRestore (s : State) (core : Nat) (ranges : List (Nat × Nat × List Host.Cell)) (bad : List Nat) : State :=
  let whole (l : Nat) : Bool := ranges.any fun r => decide (r.1 ≤ l * 64 ∧ l * 64 + 64 ≤ r.1 + r.2.1)
  let s := s.modCore core fun c => { c with
    spad := ranges.foldl cellsPut c.spad, spadPoison := (c.spadPoison.filter fun l => !whole l && !bad.contains l) ++ bad }
  if s.latent.isEmpty then s
  else { s with latent := s.latent.filter fun l => !(l.str == 0 && l.unit == core && whole (l.loc / 64)) }

/-- A thread that last ran on another cluster reads nothing older than it has read there: the copies of its new cluster, and those of its die
when that is new too, hold what home has now. Its own committed stores that another die still has lie over what it reads (R107; log 119). -/
def State.migrate (s : State) (k : Nat) : State :=
  let cl := thrCluster k
  match (s.thread k).ran with
  | none => s
  | some c0 => if c0 = cl then s else s.renewAll (cl / 16) (c0 / 16 != cl / 16) (fun c => 16 * (cl / 16) + c == cl) fun _ => true

/-- The thread of a plane becomes active: its saved ranges are restored, and its own images lie in the core's area from then on. A commit
image that refers to the record from which the thread is made active is written as a reference record (R79, R92, R406). -/
def State.activate (s : State) (core plane : Nat) : State :=
  let k := 2 * core + plane
  let t := s.thread k
  let task := s.taskOf t.task
  let own := (task.map fun x => x.kept.filter fun e => e.2.pos == t.gangPos).getD []
  let img (n : Nat) : Option Image := (own.find? fun e => e.1 == n).map (·.2)
  let s := s.modCore core fun c => { c with active := plane }
  let s := s.enterCore core t.tenant
  let s := s.spadRestore core t.spadSave t.spadBad
  let s := s.modCore core fun c => { c with imgA := img 0 <|> c.imgA, imgB := img 1 <|> c.imgB, imgC := img 2 <|> c.imgC }
  let s := s.modTask t.task fun x => { x with kept := x.kept.filter fun e => e.2.pos != t.gangPos }
  let s := match img 2, task with
    | some i, some x => if i.ref then s.startImage k 2 5 { i with done := false, seq := x.nextSeq, core := core, recs := refRecs, accLoc := none } else s
    | _, _ => s
  let s := (s.migrate k).modThread k fun t => { t with spadSave := [], spadBad := [], ran := some (thrCluster k) }
  (s.fixPlanes core).gangStart t.task

/-- A cluster island goes off: what its memories and registers hold is lost; its images in Onyx and its slot table stay. A lost scratchpad
byte reads as one that nothing has written: the rule says no more than that it is lost (R65, log 155). -/
def State.clusterOff (s : State) (cl : Nat) : State :=
  let s := s.modCluster cl fun c => { Cluster.blank with
    leaseTab := c.leaseTab, leaseNext := c.leaseNext, leaseSlot := c.leaseSlot, rowRate := c.rowRate, fcode := c.fcode, bias := c.bias, accArea := c.accArea }
  (List.range 4).foldl (fun s i => s.modCore (4 * cl + i) fun c => { c with
    off := true, spad := [], spadPoison := [], tlb := [], fill := none, filled := false, freezes := 0 }) s

/-- A cluster that a grade gates goes off once no thread is left on it (R209, R210). -/
def State.gateIdle (s : State) (cl : Nat) : State :=
  if (s.cluster cl).gateDue && (List.range 8).all fun i => !(s.thread (8 * cl + i)).running then s.clusterOff cl else s

/-- Lock bits of a thread that leave with it (R78) are in its register set. A plane is released: subscriptions, lease, registers; the
thread of the other plane, if one holds it and is filled, becomes active (R21, R79, R404). -/
def State.releasePlane (s : State) (k : Nat) : State :=
  let core := thrCore k
  let t := s.thread k
  let s := (s.dropWalks k).keepImages k
  let s := s.modTask t.task fun x => { x with pointAt := Tab.put t.gangPos t.persistAt x.pointAt }
  let s := s.modCluster (thrCluster k) fun c => c.dropSubs t.task t.gangPos
  let was := s.isActive k
  let other := 2 * core + (1 - k % 2)
  let next := was && (s.thread other).running && !((s.core core).fill.isSome && !(s.core core).filled)
  let s := if was then if next then s.leaseSwap k other else s.leaseLeave k else s
  let s := s.setThread k Thread.blank
  let s := if next then s.activate core (other % 2) else s
  (s.applyOwner core).gateIdle (thrCluster k)

/-- Every thread of a task stops and leaves its plane (R427 steps 1 and 3). -/
def State.releaseThreads (s : State) (t : Task) : State :=
  t.threads.foldl (fun s k => if (s.thread k).running && (s.thread k).task == t.uid then s.releasePlane k else s) s

/-- Open tiles of a task discarded on every cluster it runs on (R346, R347). -/
def State.dropTiles (s : State) (t : Task) : State :=
  t.threads.foldl (fun s k => s.modCluster (thrCluster k) fun c => c.discardTiles t.uid none) s

/-- The accesses at peers of a task's threads at an abort. A load is forgotten. An atomic that the peer has answered has performed, and is logged;
one that has no answer yet stands for itself from then on, until the answer says that it has performed (R427 step 1, R433). -/
def State.cutPeers (s : State) (t : Task) : State :=
  let mine (p : PeerAcc) : Bool := t.threads.contains p.thr && (p.kind == 0 || (p.kind == 2 && p.once.isSome))
  let done := s.peers.filterMap fun p => if mine p && p.dest == 9 then p.once.map fun o => (OnceEntry.mk o.2.1 p.pa o.2.2 p.d t.openMark) else none
  let s := s.modTask t.uid fun x => { x with log := x.log ++ done }
  { s with peers := (s.peers.filter fun p => !(mine p && (p.kind == 0 || p.dest == 9))).map fun (p : PeerAcc) =>
    if mine p then { p with thr := 1024, dest := 8 } else p }

/-- Transfers, settles, images in progress of a task's threads are cut (R427 step 1); a commit image that the save engine still writes is
not: the commit has come. -/
def State.cutJobs (s : State) (t : Task) : State :=
  let s := s.cutPeers t
  ((t.threads.map thrDie).eraseDups).foldl (fun s d => s.cutImages d fun j => j.img.task == t.uid && !j.commitArea) s

/-- A region abort: the version, the tiles, the subscriptions and the claim go, the planes are released, the task is requeued at its
original ready time (R427). `due` is 0 for at once, 1 for the monitor or the 50 µs when none is armed, 2 for 50 µs. -/
def State.abortRegion (s : State) (uid due : Nat) (armed : Bool) (avoid : Option Nat) : State :=
  match s.taskOf uid with
  | none => s
  | some t =>
    let s := s.dropTiles t
    let s := s.cutJobs t
    let async := t.async ++ t.threads.flatMap fun k => (s.thread k).async.map fun c => ((s.thread k).gangPos, c)
    let s := s.releaseThreads t
    let now := s.now
    let s := s.modTask uid fun y => { y.dropRegion with
      threads := [], state := if due = 0 then 0 else 5,
      requeueAt := if due = 0 then none else if due = 1 ∧ armed then none else some (now + 50000),
      monitored := decide (due = 1) && armed, avoid := avoid, waitAt := now, async := async }
    s.refillReady t.die

/-! ## The end of a task (R175, R404, R405, R425) -/

/-- Release what a thread holds at the end of its task: memberships, tiles, subscriptions, queue heads, locks, its plane. -/
def State.endThread (s : State) (k : Nat) (lastTiles : Bool) : State :=
  let s := s.leaveAll k
  let uid := (s.thread k).task
  let s := if lastTiles then s.modCluster (thrCluster k) fun c => c.discardTiles uid (some (s.thread k).gangPos) else s
  s.releasePlane k

/-- Do committed lines of a die still have to reach their homes in the package, while a thread of an ending task has a LEAVE to make: it is a
release at PKG scope (R116, R309, R310). -/
def State.leavesWait (s : State) (t : Task) : Bool :=
  ((s.die t.die).wts.any fun w => !w.peer) && t.threads.any fun k => (s.thread k).members != []

/-- The task's record goes to the host and its instance counts as completed (R175, R405), once its asynchronous operations have ended and its
LEAVEs may be made. -/
def State.finishTask (s : State) (uid : Nat) : State :=
  match s.taskOf uid with
  | none => s
  | some t =>
    match t.ending with
    | none => s
    | some e =>
      if t.asyncOut ≠ 0 ∨ t.staged ≠ [] ∨ s.leavesWait t = true then s
      else
        let kind := e.getD 0 0
        let cause := e.getD 1 0
        let sub := e.getD 2 0
        let s := t.threads.foldl (fun s k => if (s.thread k).task == uid then s.endThread k true else s) s
        let s := if kind = 0 then s else s.faultEvent t.die 0 t.id t.cidx t.gen sub cause
        let s := s.taskRecord t kind (if kind = 0 then 0 else cause) sub (e.getD 3 0) (e.getD 4 0)
        s.instanceDone t

/-- The threads of a gang other than the one that runs TABORT stop, none of them to commit: a commit image still being written is cut (R405). -/
def State.stopMates (s : State) (k : Nat) : State :=
  let mates := (((s.taskOf (s.thread k).task).map (·.threads)).getD []).filter (· != k)
  let s := mates.foldl (fun s j => s.modThread j fun t => { t with halted := true }) s
  ((mates.map thrDie).eraseDups).foldl (fun s d => s.cutImages d fun j => mates.contains j.thr && j.purpose == 1) s

/-- The threads of a task stop, its region is aborted, and it ends with a record once its asynchronous operations have ended (R405,
R425, R426). KIND 1 is TABORT, 2 a fault. -/
def State.endTask (s : State) (uid kind cause sub pc info : Nat) : State :=
  match s.taskOf uid with
  | none => s
  | some t =>
    let s := s.cutJobs t
    let s := t.threads.foldl (fun s k => s.modThread k fun x => { x.atRest.untrapped with
      halted := true, ldQ := [], cpQ := [], stQ := [], lpL := LoopBuf.none, lpC := LoopBuf.none, lpS := LoopBuf.none, pfx := [] }) s
    let s := t.threads.foldl (fun s k => s.dropWalks k) s
    let s := s.setTask { t.dropRegion with ending := some [kind, cause, sub, pc, info], state := 7 }
    s.finishTask uid

/-! ## Restore (R64, R79, R128, R158, R367) -/

/-- Every handle that was VALID becomes PENDING with its GEN (R64). -/
def Snap.unwalked (n : Snap) : Snap :=
  { n with h := n.h.map fun v => if hState v = 2 then mkHandle (hGen v) 0 0 0 1 else v }

/-- Every handle of a thread that is PENDING with no walk under way is walked. -/
def State.walkPending (s : State) (k : Nat) : State :=
  let die := thrDie k
  (List.range 16).foldl (fun s h =>
    let t := s.thread k
    let v := vget t.h h 0#64
    let under (w : Walk) : Bool := w.thr == k && w.h == some h && w.gen == hGen v
    if hState v ≠ 1 ∨ (s.die die).walks.any under ∨ (s.die die).waitWalks.any under then s
    else s.startWalk die ⟨k, 0, some h, hGen v, (vget t.hVa h 0#64).toNat, (vget t.hRq h 0#3).toNat, s.thrCtx k⟩) s

/-- The handles of a restored thread are walked again, and so are those of the control state that its queued units keep, once a trap puts
that state back (R64). -/
def State.rewalk (s : State) (k : Nat) : State :=
  (s.modThread k fun t => (t.onSnap Snap.unwalked).mapSnaps fun _ n => n.unwalked).walkPending k

/-- Put an image's thread on a plane: registers, scratchpad ranges, tiles, subscriptions armed again into their slots (R57, R64, R79, R158,
R367). A grant of the lease to the thread clears the tiles again when the lease was last another tenant's (R80; log 170). -/
def State.restoreImage (s : State) (k : Nat) (img : Image) (status : W32) : State :=
  match img.t with
  | none => s
  | some t0 =>
    let core := thrCore k
    let at_ := ((s.taskOf t0.task).map fun x => Tab.getD x.pointAt t0.gangPos 0).getD 0
    let t := { t0 with running := true, status := status, halted := false, async := [], persistAt := max t0.persistAt at_ }
    let s := s.setThread k t
    let s := if s.isActive k then s.spadRestore core img.spad img.spadBad
      else s.modThread k fun t => { t with spadSave := img.spad, spadBad := img.spadBad }
    let s := s.modCluster (thrCluster k) fun c => img.acc.foldl (fun c x =>
      let c := { c with acc := vset c.acc x.slot { x.acc with whole := false }, ab := vset c.ab x.slot x.ab }
      if x.acc.st = 1 then { c with tileOpen := true, tileSlot := x.slot } else c) c
    let s := img.subs.foldl (fun s b => s.armSub (thrCluster k) t.tenant { b with task := t.task, pos := t.gangPos }) s
    let s := if t.claim && s.isActive k then s.leaseWait (thrCluster k) (thrCore k % 4) else s
    s.rewalk k

end Sys2Proof.Machine
end

