-- ==== Sys2Proof/Machine/Trap.lean ====
section
/-! DEFINITION. The trap point and what each class of cause does there: the handler, a region abort, the end of the task
(R419 to R430, R478). -/

namespace Sys2Proof.Machine

open Sys2Proof

/-- The running CRC over the words of a unit, as issued (R421). -/
def crcWords (c : BitVec 32) (l : List W32) : BitVec 32 := l.foldl (fun c w => crcRun c (leBytes 4 w.toNat)) c

/-! ## Sequencers -/

/-- Command queue of an engine sequencer. -/
def Thread.queue (t : Thread) : Sq → List QUnit
  | .ctl => []
  | .load => t.ldQ
  | .comp => t.cpQ
  | .store => t.stQ

/-- Replace the command queue. -/
def Thread.setQueue (t : Thread) (q : Sq) (l : List QUnit) : Thread :=
  match q with
  | .ctl => t
  | .load => { t with ldQ := l }
  | .comp => { t with cpQ := l }
  | .store => { t with stQ := l }

/-- Loop buffer of an engine sequencer. -/
def Thread.loop (t : Thread) : Sq → LoopBuf
  | .ctl => LoopBuf.none
  | .load => t.lpL
  | .comp => t.lpC
  | .store => t.lpS

/-- Replace the loop buffer. -/
def Thread.setLoop (t : Thread) (q : Sq) (l : LoopBuf) : Thread :=
  match q with
  | .ctl => t
  | .load => { t with lpL := l }
  | .comp => { t with lpC := l }
  | .store => { t with lpS := l }

/-- Run-ahead record of an engine sequencer. -/
def Thread.runAhead (t : Thread) : Sq → RunAhead
  | .ctl => RunAhead.none
  | .load => t.runL
  | .comp => t.runC
  | .store => t.runS

/-- Replace the run-ahead record. -/
def Thread.setRunAhead (t : Thread) (q : Sq) (r : RunAhead) : Thread :=
  match q with
  | .ctl => t
  | .load => { t with runL := r }
  | .comp => { t with runC := r }
  | .store => { t with runS := r }

/-- The wait of a sequencer. -/
def Thread.wait (t : Thread) : Sq → Option Wait
  | .ctl => t.waitK
  | .load => t.waitL
  | .comp => t.waitC
  | .store => t.waitS

/-- Replace the wait of a sequencer. -/
def Thread.setWait (t : Thread) (q : Sq) (w : Option Wait) : Thread :=
  match q with
  | .ctl => { t with waitK := w }
  | .load => { t with waitL := w }
  | .comp => { t with waitC := w }
  | .store => { t with waitS := w }

/-- The word in several steps of a sequencer. -/
def Thread.phase (t : Thread) : Sq → Phase
  | .store => t.phS
  | _ => t.ph

/-- Replace the phase of a sequencer. -/
def Thread.setPhase (t : Thread) (q : Sq) (p : Phase) : Thread :=
  match q with
  | .store => { t with phS := p }
  | _ => { t with ph := p }

/-- Does a commit that another sequencer makes keep this one from issuing (R110 step 1). -/
def Thread.heldByCommit (t : Thread) (q : Sq) : Bool :=
  let busy (p : Phase) : Bool := p.stage == 1 || p.stage == 2
  (q != .store && busy t.phS) || (q != .ctl && busy t.ph)

/-- The engine sequencers. -/
def engSqs : List Sq := [.load, .comp, .store]

/-- Is a loop open. -/
def LoopBuf.isOpen (l : LoopBuf) : Bool := !l.opened.isEmpty

/-- The sequencer of an engine. -/
def Eng.sq : Eng → Sq
  | .control => .ctl
  | .system => .ctl
  | .load => .load
  | .store => .store
  | _ => .comp

/-! ## The trap point (R421, R422, R478) -/

/-- Does a queued unit still issue while a trap point is being formed: it comes before F, or it has issued in part and is not the unit whose
fault F is (R421 steps 2 and 5). -/
def TrapPend.lets (p : TrapPend) (u : QUnit) : Bool :=
  decide (u.seq < p.seq) || ((u.rep != 0 || u.begun) && (decide (p.seq < u.seq) || p.late))

/-- Does a transfer stand at an element boundary where it waits for a queue head: it stops there (R421 step 6, log 162). -/
def Thread.atElement (t : Thread) (q : Sq) : Bool := (t.wait q).any fun w => w.kind == .queueSpace || w.kind == .queueHead

/-- Does a sequencer's unit go on while a trap point is being formed. -/
def Thread.runsOn (t : Thread) (p : TrapPend) (q : Sq) (u : QUnit) : Bool := p.lets u && (decide (u.seq < p.seq) || !t.atElement q)

/-- Is a replay of a tile under way that can go on now: the slots it reads are there (R358, R360). -/
def Thread.replaying (t : Thread) : Bool :=
  t.tileRep.any (fun r => !r.left.isEmpty) && !(t.waitC.any fun w => w.kind == .boarding || w.kind == .boardAbsent)

/-- May a sequencer issue the unit at the head of its queue, or the next body word of its loop, while a trap point is being formed. A replay
that the unit has begun goes on to its end. -/
def Thread.mayIssue (t : Thread) (q : Sq) (u : QUnit) (fromLoop : Bool) : Bool :=
  match t.trapPend with
  | none => true
  | some p => (if fromLoop then p.keep != some q else t.runsOn p q u) || (q == .comp && t.replaying && u.seq != p.seq)

/-- Does a loop wait for body words that it has not captured. -/
def LoopBuf.starved (l : LoopBuf) : Bool := l.isOpen && l.need != 0 && l.pos == l.buf.length

/-- Has the loop of a sequencer come as far as it can: it waits for body words at F or after it, or its next word, which comes after F, waits
for a queue head. -/
def Thread.loopStands (t : Thread) (p : TrapPend) (q : Sq) : Bool :=
  let l := t.loop q
  !l.isOpen || l.starved || (t.atElement q && (l.buf[l.pos]?).any fun u => decide (p.seq ≤ u.seq))

/-- Has every unit before F issued and finished, and every issued unit after it run to its end. -/
def Thread.trapReady (t : Thread) (p : TrapPend) : Bool :=
  t.flights.isEmpty && t.qflights.isEmpty && (!t.replaying || (t.cpQ ++ t.lpC.buf).any fun u => u.seq == p.seq) && engSqs.all fun q =>
    ((t.queue q).all fun u => u.marker || !t.runsOn p q u) && (p.keep == some q || t.loopStands p q)

/-- The run-ahead record of an engine at the trap point: the units after F that have issued, then those an older record still names. -/
def Thread.formRun (t : Thread) (p : TrapPend) (q : Sq) : RunAhead :=
  let issued := (t.hist.filter fun h => h.2.1 == q && decide (p.seq ≤ h.1)).map fun h => h.2.2
  let all := issued ++ (t.runAhead q).words
  { count := all.length, crc := ~~~(all.foldl crcWords 0xFFFFFFFF#32), crcNow := 0xFFFFFFFF#32, words := all }

/-- The units of the queues that have stopped between their repeats, each with none of its next repeat done: those of which elements have been
delivered are kept already (R421 step 6). -/
def Thread.stoppedReps (t : Thread) (p : TrapPend) : List (QUnit × Nat) :=
  ((t.ldQ ++ t.cpQ ++ t.stQ).filter fun u => !u.marker && u.rep != 0 && p.lets u && !(t.stopped.any fun x => x.1.seq == u.seq)).map fun u => (u, 0)

/-- The thread at the trap point: control words after F squashed, units that have not issued discarded, the records formed. -/
def Thread.atTrapPoint (t : Thread) (p : TrapPend) : Thread :=
  let t := t.restoreSnap p.snap
  let runs := engSqs.map fun q => (q, t.formRun p q)
  let t := runs.foldl (fun t r => t.setRunAhead r.1 r.2) t
  let keep := (engSqs.filter fun q => (t.loop q).isOpen).map fun q => LoopResume.mk q (t.loop q) p.pc p.after
  let reborn (d : Option Nat) : Option Nat := d.filter fun w => decide (w < p.seq)
  { t with
    settles := (t.settles.filter fun x => x.load || !decide (p.seq ≤ x.seq)).map fun (x : Settle) => { x with dead := reborn x.dead }
    ctlAcc := (t.ctlAcc.filter fun x => x.store || !decide (p.seq ≤ x.seq)).map fun (x : CtlAcc) => { x with dead := reborn x.dead }
    stopped := t.stopped ++ t.stoppedReps p,
    ldQ := [], cpQ := [], stQ := [], lpL := LoopBuf.none, lpC := LoopBuf.none, lpS := LoopBuf.none, hist := [],
    mtHold := none, passed := [], tileRep := t.tileRep.filter fun r => !r.left.isEmpty, loopRes := keep, trapPend := none, ph := Phase.none, phS := Phase.none, waitK := none, waitL := none, waitC := none, waitS := none,
    pfx := [], seq := t.seq + 1 }

/-- Walks that squashed words started are forgotten (R421 step 3). -/
def State.squashWalks (s : State) (k seq : Nat) : State :=
  s.modDie (thrDie k) fun d => { d with
    walks := d.walks.filter fun w => !(w.thr == k && decide (seq ≤ w.seq))
    waitWalks := d.waitWalks.filter fun w => !(w.thr == k && decide (seq ≤ w.seq)) }

/-! ## Classes and delivery (R419, R424 to R430) -/

/-- The class of a cause. -/
inductive CauseClass where
  | handler | abort | hardware | escalate | ends
  deriving DecidableEq, Repr

/-- The class that R419 gives a cause. -/
def Cause.cls (c : Cause) : CauseClass :=
  if c.code = cTranslation ∨ c.code = cHandleRevoked then .abort
  else if c.code = cVersionOverflow then if c.sub = 0 then .handler else .abort
  else if c.code = cSdcDetected ∨ c.code = cUncorrectable then .hardware
  else if c.code = cBadReturn then .escalate
  else if c.code = cReplayMismatch ∨ c.code = cNoImage then .ends
  else .handler

/-- Is a handler table installed (R51). -/
def Thread.handlerValid (t : Thread) : Bool := t.handlerBase.getLsbD 0

/-- The virtual address of a cause's entry in the installed table (R398). -/
def Thread.handlerSlot (t : Thread) (code : Nat) : Nat := sext57 (bits t.handlerBase.toNat 56 12 * 4096) + 64 + 8 * code

/-- The handler entry of a cause: its address when V is set and it can be read (R398, R424). -/
def State.handlerEntry (s : State) (k code : Nat) : State × Option Nat :=
  let t := s.thread k
  if !t.handlerValid then (s, none)
  else
    let va := t.handlerSlot code
    let (s, e, _) := s.translate k va rightRD
    match e with
    | none => (s, none)
    | some e =>
      let pa := e.frame * 4096 + va % pageBytes e.psz
      if s.isPoison (pa / 64) then (s.countErr (errPoison (thrDie k)), none)
      else
        let v := s.homeNat pa 8
        (s, if bit v 0 then some (sext57 (bits v 56 2 * 4)) else none)

/-- A double fault halts the thread and ends its task (R426). -/
def State.doubleFault (s : State) (k : Nat) (eng : Eng) (c : Cause) (pc : Nat) : State :=
  let t := s.thread k
  let second : List W := [mkTrapCause t.status eng.code c, BitVec.ofNat 64 pc, BitVec.ofNat 64 c.info]
  let s := s.post 0x0E (thrDie k) (unitOfCore (thrCore k)) (s.physNumber k)
  let s := { s with agate := { s.agate with
    doubles := s.agate.doubles ++ [(s.physNumber k, [t.trapCause, t.trapPc, t.trapInfo] ++ second)] } }
  s.endTask t.task 2 c.code c.sub pc c.info

/-- The identifier and the commit index of a thread's task (R49). -/
def State.tidOf (s : State) (k : Nat) : Nat := ((s.taskOf (s.thread k).task).map (·.id)).getD 0
def State.cidxOf (s : State) (k : Nat) : Nat := ((s.taskOf (s.thread k).task).map (·.cidx)).getD 0

/-- Does the translation that a TRANSLATION cause names succeed now; if not, the line of the entry at which it fails (R71, R419). -/
def State.failLine (s : State) (k : Nat) (c : Cause) : Bool × Option Nat :=
  let va := sext57 c.info
  let rights := if c.sub = 1 then rightRD else (vget (s.thread k).hRq (c.info / 2 ^ 60) 0#3).toNat
  match s.walk (s.thrCtx k) va with
  | .leaf e line => if rightsOk e rights (s.thread k).sys va then (true, none) else (false, some line)
  | .invalid l => (false, l)
  | .poisoned _ => (false, none)

/-- When a task that a TRANSLATION cause aborts is requeued: by the monitor that its walk has armed; after 50 µs when none is armed (R71); at
once when the entry has been written since, so that the monitor has fired already. -/
def State.monitorDue (s : State) (k : Nat) (c : Cause) : Nat × Bool :=
  match s.failLine k c with
  | (true, _) => (0, false)
  | (false, none) => (1, false)
  | (false, some l) => (1, (s.die (thrDie k)).mons.any fun m => m.line == l && m.task == (s.thread k).task)

/-- An abort of the W path: the third in a row without a commit ends the task (R429). -/
def State.wAbort (s : State) (k : Nat) (c : Cause) (pc : Nat) (avoid : Option Nat) (counts : Bool) : State :=
  let uid := (s.thread k).task
  match s.taskOf uid with
  | none => s
  | some t =>
    if counts && decide (t.wAborts ≥ 2) then s.endTask uid 2 c.code c.sub pc c.info
    else
      let s := s.modTask uid fun t => { t with wAborts := if counts then t.wAborts + 1 else t.wAborts }
      s.abortRegion uid 0 false avoid

/-- A cause is taken: the error that it consumes is counted, and an asynchronous one is pending no more (R100, R423). -/
def State.taken (s : State) (k : Nat) (c : Cause) : State :=
  (s.noteConsumed k c).modThread k fun t => if t.async.head? = some c then { t with async := t.async.tail } else t

/-- Deliver a cause at the trap point. A checker mismatch restarts the task on the cores it had (R432).
Agate's thread, which has no handler, stops (log 174). -/
def State.deliver (s : State) (k : Nat) (eng : Eng) (c : Cause) (pc : Nat) (rep : Option (Nat × Nat × Nat)) : State :=
  if k = agateThr then s.modThread k fun t => { t with running := false }
  else
  let t := s.thread k
  let uid := t.task
  let s := s.taken k c
  let s := if c.code = cCorruptTile ∧ c.sub = 0 then
      s.post 0x08 (thrDie k) (unitOfCore (thrCore k)) (s.tidOf k <<< 88 ||| c.info % 512)
    else if c.code = cSdcDetected ∧ c.sub ≠ 2 then
      s.post 0x10 (thrDie k) (unitOfCore (thrCore k)) (s.tidOf k <<< 88 ||| s.cidxOf k <<< 64 ||| (thrCluster k % 128) <<< 56
        ||| (thrCore k % 4) <<< 48 ||| (c.sub % 4) <<< 32 ||| c.info % 2 ^ 32)
    else s
  if t.inh then s.doubleFault k eng c pc
  else
    let enter (s : State) (a : Nat) : State :=
      s.modThread k fun t => enterHandler t (s.tidOf k) (s.cidxOf k) eng c pc rep a
    match c.cls with
    | .handler =>
      let (s, e) := s.handlerEntry k c.code
      match e with
      | some a => enter s a
      | none => s.endTask uid 2 c.code c.sub pc c.info
    | .abort =>
      let (s, e) := if t.hreq then s.handlerEntry k c.code else (s, none)
      match e with
      | some a => enter s a
      | none =>
        let (due, armed) :=
          if c.code = cHandleRevoked then (0, false) else if c.code = cTranslation then s.monitorDue k c else (2, false)
        s.abortRegion uid due armed none
    | .hardware =>
      let checker := c.code == cSdcDetected && c.sub == 1
      let avoid := if checker then none else some (thrCore k)
      let cores := (((s.taskOf uid).map (·.threads)).getD []).map fun j => ((s.thread j).gangPos, thrCore j)
      let s := if checker then s.modTask uid fun y => { y with onyxCores := cores } else s
      s.wAbort k c pc avoid (!(c.code == cSdcDetected && c.sub == 2))
    | .escalate => s.doubleFault k eng c pc
    | .ends => s.endTask uid 2 c.code c.sub pc c.info

/-- The state at the trap point: the thread as it stands there, and the walks of squashed words forgotten; a handle that the control state
puts back PENDING, because a restore has come in between, is walked (R64). -/
def State.atPoint (s : State) (k : Nat) (p : TrapPend) : State :=
  ((s.setThread k ((s.thread k).atTrapPoint p)).squashWalks k p.seq).walkPending k

/-- The reads that finding a handler makes: the walk of the table's page and the cause's entry, which may have to wait (R70, R424). -/
def State.handlerReads (s : State) (k : Nat) (c : Cause) : Except State State :=
  let t := s.thread k
  if t.inh || !t.handlerValid || !(c.cls == .handler || (c.cls == .abort && t.hreq)) then .ok s
  else
    let va := t.handlerSlot c.code
    let reads : M State :=
      match s.tlbHit k va rightRD with
      | some e => s.homeRead ((e.frame * 4096 + va % pageBytes e.psz) / 64)
      | none => do
        let s ← s.walkMeet (s.thrCtx k) va
        match s.walk (s.thrCtx k) va with
        | .leaf e _ => s.homeRead ((e.frame * 4096 + va % pageBytes e.psz) / 64)
        | _ => .ok s
    match reads with
    | .ok s => .ok s
    | .error e => .error (s.readWaits e)

/-- Form the trap point once everything before F has finished, and take the trap (R421). -/
def State.settleTrap (s : State) (k : Nat) : State :=
  let t := s.thread k
  match t.trapPend with
  | none => s
  | some p =>
    if t.trapReady p then
      match s.handlerReads k p.cause with
      | .error s => s
      | .ok s => (s.atPoint k p).deliver k p.eng p.cause p.pc p.rep
    else s

/-- A fault is raised at a unit; an older one replaces a younger one (R421 step 2). -/
def State.raiseAt (s : State) (k : Nat) (p : TrapPend) : State :=
  let s := s.modThread k fun t =>
    match t.trapPend with
    | none => { t with trapPend := some p }
    | some q => if p.seq < q.seq then { t with trapPend := some p } else t
  s.settleTrap k

/-- Put a kept loop back, its units in the control state of the return. -/
def Thread.reloop (t : Thread) (r : LoopResume) : Thread :=
  t.setLoop r.sq { r.lp with buf := r.lp.buf.map fun (u : QUnit) => { u with snap := t.snap, snapN := t.snap } }

/-- The return from a handler, with the kept loops (R397, R478): resumed when TRAP_PC still names them, discarded otherwise. Where F comes
from a loop buffer, fetch goes on after the captured body. -/
def Thread.returnFrom (t : Thread) : Thread :=
  let pc := sext57 (bits t.trapPc.toNat 56 2 * 4)
  let t1 := { leaveHandler t with loopRes := [] }
  t.loopRes.foldl (fun t1 r =>
    if r.pc = pc then
      let t1 := t1.reloop r
      if r.after = pc then t1 else { t1 with pc := r.after, repDone := 0, repPc := none }
    else t1) t1

end Sys2Proof.Machine
end

