-- ==== Sys2Proof/Machine/Issue.lean ====
section
/-! DEFINITION. How a unit issues: prefixes, steering into the command queues, loops, repeats, tokens, permits, the horizon, and how an
issue ends: done, waiting, or faulting (R132 to R139, R225, R258 to R274, R282 to R285, R420). -/

namespace Sys2Proof.Machine

open Sys2Proof

/-! ## Prefixes (R267 to R271) -/

/-- The prefix words of a unit by kind, in the only order allowed. -/
structure Pfx where
  pred : Option (Nat × Bool)       -- p and sense
  rep : Option (Nat × Nat)         -- N and the step mask: d 4, s1 2, s2 1
  ext : Option Nat                 -- payload of EXTI
  deriving DecidableEq, Repr

/-- Is a word a prefix (R258). -/
def isPrefix (w : W32) : Bool := w.extractLsb' 29 3 == 7#3

/-- Read a unit's prefix words; none when they break R267. -/
def readPfx : List W32 → Option Pfx
  | [] => some ⟨none, none, none⟩
  | w :: r =>
    match readPfx r with
    | none => none
    | some p =>
      match decode w with
      | .ok (.exti i) => if p.ext.isNone ∧ p.rep.isNone ∧ p.pred.isNone then some { p with ext := some i.toNat } else none
      | .ok (.rep n d s t) =>
        if p.rep.isNone ∧ p.pred.isNone then some { p with rep := some (n.toNat + 1, d.toNat * 4 + s.toNat * 2 + t.toNat) } else none
      | .ok (.pred v n) => if p.pred.isNone then some { p with pred := some (v.toNat, n == 1#1) } else none
      | _ => none

/-- The payload of a unit's EXTI. -/
def extOf (l : List W32) : Option Nat := (readPfx l).bind (·.ext)

/-- A signed immediate of width `w`, extended under R270. -/
def immS (l : List W32) (w field : Nat) : Int :=
  match extOf l with
  | none => sext w field
  | some p => sext (w + 24) (p * 2 ^ w + field)

/-- An unsigned immediate of width `w`, extended under R270. -/
def immU (l : List W32) (w field : Nat) : Nat :=
  match extOf l with
  | none => field
  | some p => p * 2 ^ w + field

/-- A signed immediate as a 64-bit value. -/
def immW (l : List W32) (w field : Nat) : W := BitVec.ofInt 64 (immS l w field)

/-! ## What prefixes apply to (R268 to R271) -/

/-- The engine of a word. -/
def wordEng (w : W32) : Option Eng :=
  match (w.extractLsb' 29 3).toNat with
  | 0 => some .control
  | 1 => some .load
  | 2 => some .store
  | 3 => some .matrix
  | 4 => some .vector
  | 5 => some .special
  | 6 => some .system
  | _ => none

/-- Opcode of a word (R258). -/
def wordOp (w : W32) : Nat := (w.extractLsb' 23 6).toNat

/-- The files that the d, s1 and s2 fields of an instruction name, as file sizes; 0 where the field is absent or names no register
(R269). -/
def stepSizes : Instr → Nat × Nat × Nat
  | .add .. | .sub .. | .mul .. | .mulhs .. | .mulhu .. | .divs .. | .divu .. | .rems .. | .remu .. | .and .. | .or .. | .xor ..
  | .shl .. | .shr .. | .sar .. | .min .. | .max .. | .minu .. | .maxu .. => (32, 32, 32)
  | .addi .. | .andi .. | .ori .. | .xori .. | .shli .. | .shri .. | .sari .. | .clz .. | .ctz .. | .popc .. => (32, 32, 0)
  | .lunsub .. | .qfree .. => (16, 0, 0)
  | .qbind .. | .lmark .. => (16, 8, 0)
  | .xlatl .. => (16, 8, 8)
  | .xmov _ _ _ _ _ m | .xmovSt _ _ _ _ _ m => (8, if m = 1#1 then 4 else 8, 0)
  | .xadd .. | .xaddSt .. => (8, 8, 8)
  | .xaddi .. | .xaddiSt .. | .xshl .. | .xshlSt .. | .smark .. => (8, 8, 0)
  | .mtstart .. | .mrdb .. | .msett .. => (8, 8, 0)
  | .mzero .. | .mxmode .. => (8, 0, 0)
  | .mfte .. => (16, 8, 0)
  | .vadd .. | .vsub .. | .vmul .. | .vfma .. | .vmin .. | .vmax .. | .vcmp .. | .vselm .. | .viadd .. | .visub .. | .vimul ..
  | .vimin .. | .vimax .. | .vand .. | .vor .. | .vxor .. | .vshl .. | .vshr .. | .vsar .. | .vgath .. | .vscat .. | .sdiv .. =>
    (16, 16, 16)
  | .vabs .. | .vneg .. | .vcopy .. | .vbcast .. | .sexp2 .. | .slog2 .. | .sexp .. | .sln .. | .srcp .. | .ssqrt .. | .srsq ..
  | .stanh .. | .ssigm .. | .ssin .. | .scos .. | .serf .. => (16, 16, 0)
  | .vscl .. | .vcvt .. | .vqnt .. | .vdqnt .. | .vtrn .. | .vdrop .. => (16, 16, 8)
  | .vrand .. => (16, 0, 8)
  | .vrsum _ _ _ _ _ _ _ _ v | .vrmax _ _ _ _ _ _ _ _ v | .vrmin _ _ _ _ _ _ _ _ v => (if v = 1#1 then 16 else 8, 16, 0)
  | .vdot _ _ _ _ _ _ _ _ _ _ v => (if v = 1#1 then 16 else 8, 16, 16)
  | .aset .. | .amod .. => (16, 8, 0)
  | .astep .. => (16, 16, 0)
  | .amov _ _ _ _ _ m => (if m = 0#2 then 16 else 8, 16, 0)
  | .vmovs _ _ _ _ _ _ r _ => if r = 1#1 then (16, 8, 0) else (8, 16, 0)
  | _ => (0, 0, 0)

/-- Is an instruction one of the loop words. -/
def isLoopWord : Instr → Bool
  | .lloop .. | .sloop .. | .mloop .. | .vloop .. => true
  | _ => false

/-- May REP stand before a word: the engine words but for the loops, and the control opcodes 0x00 to 0x1C (R269). -/
def repAllowed (w : W32) (i : Instr) : Bool :=
  match wordEng w with
  | none => false
  | some .system => false
  | some .control => decide (wordOp w ≤ 0x1C)
  | some _ => !isLoopWord i

/-- Does a word have an immediate or offset field that EXTI extends (R270). -/
def extAllowed (i : Instr) : Bool :=
  match i with
  | .addi .. | .andi .. | .ori .. | .xori .. | .shli .. | .shri .. | .sari .. | .ldi .. | .ldhi .. | .cmpi .. | .br .. | .call ..
  | .dbnz .. | .tkcnt .. | .rdcsr .. | .wrcsr .. | .csrs .. | .csrc .. | .trap .. | .phint .. | .pfence ..
  | .fence .. | .tabort .. | .opreq .. | .rdengy .. | .idle .. | .ecall .. | .lmark .. | .xaddi .. | .xshl .. | .smark ..
  | .xaddiSt .. | .xshlSt .. | .lloop .. | .sloop .. | .mloop .. | .vloop .. | .mftb .. | .vsetc .. | .astep .. => true
  | .lds _ _ _ _ k _ | .sts _ _ _ k _ | .join _ _ k _ | .leave _ k _ | .gbar _ k _ | .ginfo _ _ k _ | .barinit _ _ k _
  | .barexp _ _ k _ | .barwait _ _ k _ | .snapc _ _ k _ | .coll _ _ k _ => k == 0#1
  | _ => false

/-- Does an immediate whose row gives it fewer bits than its field stay within the row: no EXTI may widen it (R393, R303 to R314). -/
def extNarrow (i : Instr) : Bool :=
  match i with
  | .tkcnt .. | .trap .. | .phint .. | .pfence .. | .fence .. | .tabort .. | .ecall .. | .mftb .. => true
  | _ => false

/-- The d, s1 and s2 fields of a word with `i` added where the mask says (formats C-R, C-I, E-R, E-V, E-I). -/
def addStep (w : W32) (mask i : Nat) : W32 :=
  let ctl := w.extractLsb' 29 3 == 0#3
  let dPos := if ctl then 18 else 15
  let sPos := if ctl then 13 else 11
  let tPos := if ctl then 7 else 6
  BitVec.ofNat 32 (w.toNat + (if bit mask 2 then i * 2 ^ dPos else 0) + (if bit mask 1 then i * 2 ^ sPos else 0)
    + (if bit mask 0 then i * 2 ^ tPos else 0))

/-- The values of the d, s1 and s2 fields. -/
def stepFields (w : W32) : Nat × Nat × Nat :=
  if w.extractLsb' 29 3 = 0#3 then ((w.extractLsb' 18 5).toNat, (w.extractLsb' 13 5).toNat, (w.extractLsb' 7 5).toNat)
  else ((w.extractLsb' 15 4).toNat, (w.extractLsb' 11 4).toNat, (w.extractLsb' 6 4).toNat)

/-- Is a REP legal before a word: every step bit set on a register field, and no stepped field leaves its file (R269). -/
def repOk (w : W32) (i : Instr) (n mask : Nat) : Bool :=
  let sz := stepSizes i
  let f := stepFields w
  let ok (b : Bool) (size v : Nat) : Bool := !b || (size != 0 && decide (v + (n - 1) < size))
  repAllowed w i && ok (bit mask 2) sz.1 f.1 && ok (bit mask 1) sz.2.1 f.2.1 && ok (bit mask 0) sz.2.2 f.2.2

/-- The whole unit checked by the splitter (R260, R267 to R271): its instruction, its prefixes, or the position of the offending word. Which
word that is where a prefix does not apply is the model's choice: the prefix, but the word itself where EXTI widens a narrow immediate (log 165). -/
def checkUnit (pfx : List W32) (w : W32) : Except Nat (Instr × Pfx) :=
  match readPfx pfx with
  | none => .error pfx.length
  | some p =>
    match decode w with
    | .error _ => .error pfx.length
    | .ok i =>
      let predOk := match p.pred, wordEng w with
        | none, _ => true
        | some _, some .control => !(match i with
          | .br .. => true
          | _ => false)
        | some _, some .system => true
        | some _, _ => false
      let repOk := match p.rep with
        | none => true
        | some (n, m) => repOk w i n m
      let extOk := p.ext.isNone || extAllowed i
      if !predOk then .error 0
      else if !repOk then .error (if p.pred.isSome then 1 else 0)
      else if !extOk then .error (pfx.length - 1)
      else if p.ext.isSome && extNarrow i && p.ext != some 0 then .error pfx.length
      else .ok (i, p)

/-- Has an instruction's format the last-use bit LX of its index register (formats E-M, E-G, E-P, E-A of R265). -/
def hasLx : Instr → Bool
  | .ld .. | .ldx .. | .ldsc .. | .ldbd .. | .lsub .. | .splk .. | .pfetch .. | .st .. | .stx .. | .stbd .. | .sunlk .. | .spull ..
  | .cwbr .. | .cinvr .. | .xcopy .. | .baradd .. | .acas .. | .amoAdd .. | .amoFadd .. | .amoMin .. | .amoMax .. | .amoAnd ..
  | .amoOr .. | .amoXor .. | .amoSwap .. => true
  | _ => false

/-- The word of repeat `j` of `n`: the stepped fields advanced, TW in the first repeat only, TS in the last only, and the L bits of
unstepped fields, LX among them, in the last only (R269). -/
def repWord (w : W32) (n mask j : Nat) : W32 :=
  if n ≤ 1 then w
  else
    let last := decide (j + 1 = n)
    let ctl := w.extractLsb' 29 3 == 0#3
    let l1 : W32 := if ctl then 1#32 <<< 12 else 1#32 <<< 10
    let l2 : W32 := if ctl then 1#32 <<< 6 else 1#32 <<< 5
    let (sz, lx) := match decode w with
      | .ok i => (stepSizes i, hasLx i)
      | .error _ => ((0, 0, 0), false)
    let w := addStep w mask j
    let w := if last ∨ lx = false then w else w &&& ~~~(1#32 <<< 11)
    let w := if last ∨ bit mask 1 ∨ sz.2.1 = 0 then w else w &&& ~~~l1
    let w := if last ∨ bit mask 0 ∨ sz.2.2 = 0 then w else w &&& ~~~l2
    if ctl then w
    else
      let w := if j = 0 then w else w &&& ~~~(3#32 <<< 21)
      if last then w else w &&& ~~~(3#32 <<< 19)

/-! ## The unit at the PC -/

/-- Fetch address of the unit being collected. -/
def Thread.unitPc (t : Thread) : Nat := if t.pfx.isEmpty then t.pc else t.pfxPc

/-- Does REP_STATE say how the unit at the PC goes on: TRAPRET or a restore has come back to the address at which it was interrupted (R50). -/
def Thread.resumes (t : Thread) : Bool := t.repPc == some t.unitPc && t.repState.getLsbD 31 && !t.inh

/-- Repeats run, repeats in all and the step mask of the unit at the PC; a unit resumed by TRAPRET or a restore takes them from REP_STATE
(R50). -/
def Thread.repNow (t : Thread) : Nat × Nat × Nat :=
  match (readPfx t.pfx).bind (·.rep) with
  | none => (0, 1, 0)
  | some (n, m) =>
    if t.resumes then (t.repDone, bits t.repState.toNat 5 0 + bits t.repState.toNat 21 16, bits t.repState.toNat 10 8)
    else (t.repDone, n, m)

/-- Has a unit that resumes no repeat left to run: fetch goes on past it. -/
def Thread.repOver (t : Thread) : Bool := ((readPfx t.pfx).bind (·.rep)).isSome && decide (t.repNow.2.1 ≤ t.repNow.1)

/-- REP_STATE once the last repeat of a REP unit has run outside a handler (R50). -/
def Thread.repEnd (t : Thread) (pfx : List W32) : W32 :=
  if ((readPfx pfx).bind (·.rep)).isSome && !t.inh then t.repState &&& 0x7FFFFFFF#32 else t.repState

/-- What a fault of a REP unit puts into REP_STATE: repeats remaining, step mask, repeats done (R50, R269, R424). -/
def repOf (pfx : List W32) (n mask done : Nat) : Option (Nat × Nat × Nat) :=
  ((readPfx pfx).bind (·.rep)).map fun _ => (n - done, mask, done)

/-- Does the predicate of a control unit fail (R263, R271). -/
def Thread.predFails (t : Thread) : Bool :=
  match (readPfx t.pfx).bind (·.pred) with
  | none => false
  | some (p, sense) => rdP t p == sense

/-! ## Markers and ordered atomics (R105, R132, R337) -/

/-- Is an instruction an atomic with .ACQ, .REL or .AR. -/
def orderedAtomic (i : Instr) : Bool :=
  match i with
  | .acas s .. | .amoAdd s .. | .amoFadd s .. | .amoMin s .. | .amoMax s .. | .amoAnd s .. | .amoOr s .. | .amoXor s ..
  | .amoSwap s .. => s != 0#2
  | _ => false

/-- Is the word of a unit an ordered atomic. -/
def QUnit.ordered (u : QUnit) : Bool :=
  !u.marker && match decode u.word with
    | .ok i => orderedAtomic i
    | .error _ => false

/-- Does an access of the load or the store path of a place in fetch order up to `n` still have to perform. -/
def Thread.pathsBefore (t : Thread) (n : Nat) : Bool :=
  ([Sq.load, Sq.store].any fun q =>
    ((t.queue q).any fun u => !u.marker && decide (u.seq ≤ n)) || ((t.loop q).isOpen && decide ((t.loop q).seq ≤ n))) ||
  (t.flights.any fun f => (f.eng == .load || f.eng == .store) && decide (f.seq ≤ n)) || t.qflights.any fun f => decide (f.seq ≤ n)

/-- May the marker at the head of a queue pass: every access of a load or store word before it has performed (R105). -/
def Thread.markerReady (t : Thread) (q : Sq) : Bool :=
  match (t.queue q).head? with
  | none => false
  | some u => u.marker && !(t.loop q).isOpen && !t.pathsBefore u.seq

/-- A marker at a place in fetch order. -/
def QUnit.mark (u : QUnit) : QUnit := { u with marker := true }

/-- Do markers or ordered atomics keep the control sequencer from issuing (R105, R337). -/
def Thread.orderPending (t : Thread) : Bool :=
  ((t.ldQ ++ t.stQ).any (·.marker)) || (t.stQ.any (·.ordered)) || ((t.loop .store).isOpen && t.lpS.buf.any (·.ordered))

/-! ## The horizon (R420) -/

/-- Has every engine unit steered so far issued, and finished where it can still raise a late fault. A loop that is still capturing has
issued what it has captured. -/
def Thread.atHorizon (t : Thread) : Bool :=
  (t.flights.all fun f => f.ts == 0 && f.late.isNone) && engSqs.all fun q =>
    ((t.queue q).all (·.marker)) &&
      (!(t.loop q).isOpen || ((t.loop q).need != 0 && (t.loop q).pos == (t.loop q).buf.length))

/-! ## Run-ahead (R421) -/

/-- The oldest place in fetch order that a fault can still name. -/
def Thread.oldest (t : Thread) : Option Nat :=
  let qs := engSqs.flatMap fun q =>
    ((t.queue q).filter fun u => !u.marker).map (·.seq) ++ (if (t.loop q).isOpen then [(t.loop q).seq] else [])
  (qs ++ t.flights.map (·.seq)).min?

/-- Forget issued units that no fault can come before. -/
def Thread.pruneHist (t : Thread) : Thread :=
  match t.oldest with
  | none => { t with hist := [] }
  | some m => { t with hist := t.hist.filter fun h => decide (m ≤ h.1) }

/-- Depth of a command queue (R132). -/
def queueDepth : Sq → Nat
  | .ctl => 32
  | _ => 64

/-- Steer a unit into a command queue (R132), or consume it while the run-ahead record is armed (R421): the state, whether it was
consumed, and whether the record's CRC failed; a unit that was stopped goes on at its repeat. None when the queue is full. -/
def Thread.steer (t : Thread) (q : Sq) (u : QUnit) : Option (Thread × Bool × Bool) :=
  let r := t.runAhead q
  let old := t.stopped.find? fun x => x.1.pc == u.pc && x.1.word == u.word && x.1.pfx == u.pfx
  let u : QUnit := match old with
    | some x => { u with rep := x.1.rep, n := x.1.n, mask := x.1.mask }
    | none => u
  let pair := q == .store && u.ordered
  if r.count ≠ 0 ∧ !t.inh ∧ !u.marker ∧ old.isNone then
    let crc := crcWords r.crcNow (u.pfx ++ [u.word])
    let r1 : RunAhead := { r with count := r.count - 1, crcNow := crc, words := r.words.drop 1 }
    let t1 := { t with hist := t.hist ++ [(u.seq, q, u.pfx ++ [u.word])] }
    if r1.count = 0 then some (t1.setRunAhead q RunAhead.none, true, ~~~crc != r.crc)
    else some (t1.setRunAhead q r1, true, false)
  else if (t.queue q).length ≥ queueDepth q ∨ (pair ∧ t.ldQ.length ≥ queueDepth .load) then none
  else
    let t := t.setQueue q (t.queue q ++ [u])
    some (if pair then { t with ldQ := t.ldQ ++ [u.mark] } else t, false, false)

/-- The unit at the PC as an entry of a command queue. -/
def Thread.unitHere (t : Thread) (w : W32) : QUnit :=
  let r := t.repNow
  { seq := t.seq, pc := t.unitPc, next := t.pc + 4, pfx := t.pfx, word := w, marker := false, snap := t.snap, snapN := t.snap,
    rep := r.1, n := r.2.1, mask := r.2.2, begun := false }

/-- Fetch goes on past the unit at the PC. -/
def Thread.pastUnit (t : Thread) : Thread :=
  { t with pc := t.pc + 4, pfx := [], repDone := 0, repPc := none, seq := t.seq + 1, waitK := none }

/-! ## Waits and the watchdog (R439) -/

/-- SUB of WATCHDOG for a wait. -/
def WaitKind.watch : WaitKind → Option Nat
  | .token => some 0
  | .queueHead => some 1
  | .queueSpace => some 1
  | .group => some 2
  | .barrier => some 3
  | .handle => some 4
  | .nwait => some 5
  | .boardAbsent => some 6
  | _ => none

/-- A sequencer stands in a wait: the time at which a wait of one kind began is kept. -/
def Thread.standIn (t : Thread) (q : Sq) (k : WaitKind) (now : Nat) : Thread :=
  match t.wait q with
  | some w => if w.kind = k then t else t.setWait q (some ⟨k, now⟩)
  | none => t.setWait q (some ⟨k, now⟩)

/-- Has a sequencer stood in its wait for 2^30 ns (R439). -/
def Thread.watchdogDue (t : Thread) (q : Sq) (k : WaitKind) (now : Nat) : Option Cause :=
  match t.wait q, k.watch with
  | some w, some sub =>
    if w.kind = k ∧ now ≥ w.since + 2 ^ 30 then some ⟨cWatchdog, sub, (now - w.since) / 1000⟩ else none
  | _, _ => none

/-! ## Accesses of a peer's memory (R455) -/

/-- Code of a sequencer in an access of a peer. -/
def Sq.code : Sq → Nat
  | .ctl => 0
  | .load => 1
  | .comp => 2
  | .store => 3

/-- An access of a peer's memory is sent for a unit or an engine, once: kinds as in R455, and 4 for a load whose line comes back to the
reader alone. -/
def State.askPeer (s : State) (k seq : Nat) (q : Sq) (kind pa : Nat) : State :=
  let kd := if kind = 4 then 0 else kind
  if s.peers.any fun p => p.thr == k && p.seq == seq && p.kind == kd && p.pa == pa then s
  else
    let m := (pa - 2 ^ 51) / 2 ^ 43
    let s := if kind = 2 then { s with peerWrote := Tab.put m s.now s.peerWrote } else s
    { s with peers := s.peers ++ [⟨m, kd, pa, 64, k, seq, q.code, if kind = 4 then 7 else 1, s.now, none, 0#512⟩] }

/-! ## Accesses that have passed their check (R72) -/

/-- A word waits for memory: the handles as they are now are the ones that its check has passed. -/
def Thread.pass (t : Thread) (seq : Nat) (q : Sq) : Thread :=
  if t.passed.any fun p => p.seq == seq && p.sq == q then t else { t with passed := t.passed ++ [⟨seq, q, t.h⟩] }

/-- The handles that a waiting word goes on with: one that was VALID at its check stands as it was, whatever has become of it since (R72, R301). -/
def Passed.over (p : Passed) (h : Vector W 16) : Vector W 16 :=
  h.mapIdx fun i v =>
    let o := vget p.h i 0#64
    if hState o = 2 then o else v

/-- The state in which a word that has waited for memory is tried again. -/
def State.borrow (s : State) (k seq : Nat) (q : Sq) : State :=
  match (s.thread k).passed.find? fun p => p.seq == seq && p.sq == q with
  | none => s
  | some p => s.modThread k fun t => { t with h := p.over t.h }

/-- The handles of `s0` put back after the word has run, with its record of them gone unless it still waits for memory. -/
def State.giveBack (s s0 : State) (k seq : Nat) (q : Sq) (waits : Bool) : State :=
  if (s0.thread k).passed.any fun p => p.seq == seq && p.sq == q then
    s.modThread k fun t => { t with
      h := (s0.thread k).h, passed := if waits then t.passed else t.passed.filter fun p => !(p.seq == seq && p.sq == q) }
  else s

/-! ## Control and system words -/

/-- What a control word's meaning answers: the state, the address that fetch goes to when the word transfers control, a late cause, and
whether the thread has left its plane. -/
structure CtlRes where
  s : State
  pc : Option Nat := none
  late : Option Cause := none
  gone : Bool := false

/-- The trap record of the control unit at the PC. -/
def Thread.ctlFault (t : Thread) (eng : Eng) (c : Cause) : TrapPend :=
  let r := t.repNow
  { seq := t.seq, eng := eng, cause := c, pc := t.unitPc,
    rep := repOf t.pfx r.2.1 r.2.2 r.1, snap := t.snap, keep := none, after := t.unitPc, late := false }

/-- One repeat of the control unit at the PC is done. -/
def Thread.ctlDone (t : Thread) (pc : Option Nat) : Thread :=
  let r := t.repNow
  if r.1 + 1 < r.2.1 then { t with repDone := r.1 + 1, waitK := none, ph := Phase.none }
  else
    { t with
      pc := pc.getD (t.pc + 4), pfx := [], repDone := 0, repPc := none, seq := t.seq + 1, waitK := none, ph := Phase.none, repState := t.repEnd t.pfx }

/-- The asynchronous cause that the unit at the PC is to meet before any effect of it: the oldest, unless the word has begun or a handler runs
(R421, R423). -/
def Thread.asyncDue (t : Thread) : Option Cause := if t.inh || t.ph.stage != 0 then none else t.async.head?

/-- What a control or system word of the thread that acts comes to, when no asynchronous cause is in its way: the predicate (R271), the horizon
(R420), and its own effect. The flag says that it raises a cause of its own. -/
def ctlOwn (eng : Eng) (horizon : Bool) (w : W32) (body : State → M CtlRes) (s : State) : Out × Bool :=
  let k := s.me
  let t := s.th
  if t.predFails then (.next (s.setTh (t.ctlDone none)), false)
  else
    let stand (kd : WaitKind) : Out × Bool :=
      match t.watchdogDue .ctl kd s.now with
      | some c => (.next ((s.setTh { t with waitK := none, ph := Phase.none }).raiseAt k (t.ctlFault eng c)), true)
      | none => (.next (s.setTh (t.standIn .ctl kd s.now)), false)
    if t.orderPending && t.ph == Phase.none then stand .performed
    else if horizon && !t.atHorizon then stand .horizon
    else
      match body (s.borrow k t.seq .ctl) with
      | .ok r =>
        if r.gone then (.next (r.s.giveBack s k t.seq .ctl true), false)
        else
          let s := (r.s.giveBack s k t.seq .ctl false).modThread k fun t => t.ctlDone r.pc
          match r.late with
          | none => (.next s, false)
          | some c =>
            let t1 := s.thread k
            (.next (s.raiseAt k { t.ctlFault eng c with seq := t1.seq, pc := t1.pc, rep := none, snap := t1.snap, after := t1.pc, late := true }), false)
      | .error (.wait .memory) => (.next (s.setTh ((t.pass t.seq .ctl).standIn .ctl .memory s.now)), false)
      | .error (.wait kd) => stand kd
      | .error (.peer kind pa) => (.next ((s.askPeer k t.seq .ctl kind pa).setTh ((t.pass t.seq .ctl).standIn .ctl .performed s.now)), false)
      | .error (.device line) =>
        (.next (((s.meetLine line).meetBursts line).setTh ((t.pass t.seq .ctl).standIn .ctl .performed s.now)), false)
      | .error (.cause c) => (.next (s.raiseAt k (t.ctlFault eng c)), true)
      | .error .illegal => (.next (s.raiseAt k (t.ctlFault eng ⟨cIllegalOp, 0, t.pfx.length * 2 ^ 32 + w.toNat⟩)), true)

/-- A control or system word of the thread that acts: a synchronous fault of its own is taken first, then a pending asynchronous cause, which
stays pending until it is delivered (R423). -/
def ctl (eng : Eng) (horizon : Bool) (w : W32) (body : State → M CtlRes) (s : State) : Out :=
  let own := ctlOwn eng horizon w body s
  match s.th.asyncDue with
  | some c => if own.2 then own.1 else .next (s.raiseAt s.me (s.th.ctlFault eng c))
  | none => own.1

/-! ## Loops (R36, R134, R320) -/

/-- Loop counters of an engine sequencer. -/
def Thread.lc (t : Thread) : Sq → Vector W32 4
  | .load => t.lcl
  | .store => t.lcs
  | _ => t.lcc

/-- Write a loop counter. -/
def Thread.setLc (t : Thread) (q : Sq) (i : Nat) (v : W32) : Thread :=
  match q with
  | .load => { t with lcl := vset t.lcl i v }
  | .store => { t with lcs := vset t.lcs i v }
  | .comp => { t with lcc := vset t.lcc i v }
  | .ctl => t

/-- A loop counter's value: COUNT and ITER. -/
def mkLc (count iter : Nat) : W32 := BitVec.ofNat 32 ((count % 65536) <<< 16 ||| iter % 65536)

/-- End iterations and loops whose last body word has run, innermost first; a loop of TRIP 0 skips the words it has captured. -/
def Thread.loopNorm (t : Thread) (q : Sq) : Nat → Thread
  | 0 => t
  | fuel + 1 =>
    let l := t.loop q
    match l.opened.getLast? with
    | none => t.setLoop q LoopBuf.none
    | some r =>
      let stop := r.first + r.len
      if r.trip = 0 ∧ l.pos < stop then
        let p := min stop l.buf.length
        if p = l.pos then t else (t.setLoop q { l with pos := p }).loopNorm q fuel
      else if l.pos < stop then t
      else
        let c := vget (t.lc q) r.lc 0#32
        let count := bits c.toNat 31 16
        let iter := bits c.toNat 15 0
        if count > 1 then (t.setLc q r.lc (mkLc (count - 1) (iter + 1))).setLoop q { l with pos := r.first }
        else ((t.setLc q r.lc (mkLc 0 iter)).setLoop q { l with opened := l.opened.dropLast }).loopNorm q fuel

/-- The next unit of an engine sequencer: from its loop buffer, or from the head of its queue past the markers that a capture leaves
there. The flag says that it comes from the loop buffer. -/
def Thread.nextUnit (t : Thread) (q : Sq) : Option (QUnit × Bool) :=
  let l := t.loop q
  if l.isOpen then
    match l.buf[l.pos]? with
    | some u => some (u, true)
    | none => if l.need = 0 then none else ((t.queue q).find? fun u => !u.marker).map fun u => (u, false)
  else
    match (t.queue q).head? with
    | some u => if u.marker then none else some (u, false)
    | none => none

/-- Remove the first unit that is not a marker. -/
def dropUnit : List QUnit → List QUnit
  | [] => []
  | u :: r => if u.marker then u :: dropUnit r else r

/-- Change the unit that is issuing, where it stands. -/
def Thread.putUnit (t : Thread) (q : Sq) (loop : Bool) (u : QUnit) : Thread :=
  if loop then t.setLoop q { t.loop q with buf := (t.loop q).buf.set (t.loop q).pos u }
  else t.setQueue q ((t.queue q).map fun v => if v.seq = u.seq ∧ !v.marker then u else v)

/-- The unit has run its last repeat: it leaves its queue, and is captured when a loop is open. A loop word opens its loop. -/
def Thread.retire (t : Thread) (q : Sq) (loop : Bool) (u : QUnit) (new : Option LoopRec) : Thread :=
  let u0 := { u with rep := 0, begun := false }
  let l := t.loop q
  if loop then
    let l1 := { l with buf := l.buf.set l.pos u0, pos := l.pos + 1 }
    let l2 := match new with
      | none => l1
      | some r => { l1 with opened := l1.opened ++ [{ r with first := l1.pos }] }
    (t.setLoop q l2).loopNorm q 200
  else
    let t := t.setQueue q (dropUnit (t.queue q))
    if l.isOpen then
      let l1 := { l with buf := l.buf ++ [u0], need := l.need - 1, pos := l.pos + 1 }
      let l2 := match new with
        | none => l1
        | some r => { l1 with opened := l1.opened ++ [{ r with first := l1.pos }] }
      (t.setLoop q l2).loopNorm q 200
    else
      match new with
      | none => t
      | some r => (t.setLoop q { buf := [], need := r.len, opened := [{ r with first := 0 }], pos := 0, seq := u.seq }).loopNorm q 200

/-- A loop of TRIP 0 that still captures takes the next word of its queue without issuing it. -/
def Thread.skipCapture (t : Thread) (q : Sq) : Option Thread :=
  let l := t.loop q
  match l.opened.getLast? with
  | none => none
  | some r =>
    if r.trip = 0 ∧ l.pos = l.buf.length ∧ l.need ≠ 0 then
      ((t.queue q).find? fun u => !u.marker && t.mayIssue q u false).map fun u =>
        ((t.setQueue q (dropUnit (t.queue q))).setLoop q { l with buf := l.buf ++ [u], need := l.need - 1, pos := l.pos + 1 }).loopNorm q 200
    else none

/-! ## Tokens (R137 to R139, R266) -/

/-- The pairs that TW and TS name, by sequencer: bit 0 upstream, bit 1 control. -/
def upPair : Sq → Nat
  | .load => 2
  | .comp => 0
  | _ => 1
def ctlUp : Sq → Nat
  | .load => 3
  | .comp => 4
  | _ => 5
def downPair : Sq → Nat
  | .load => 0
  | .comp => 1
  | _ => 2
def ctlDown : Sq → Nat
  | .load => 6
  | .comp => 7
  | _ => 8

/-- Are the tokens that TW names all there. -/
def Thread.hasTokens (t : Thread) (q : Sq) (tw : Nat) : Bool :=
  (!bit tw 0 || decide (vget t.tok (upPair q) 0 ≠ 0)) && (!bit tw 1 || decide (vget t.tok (ctlUp q) 0 ≠ 0))

/-- Pop the tokens that TW names. -/
def Thread.popTokens (t : Thread) (q : Sq) (tw : Nat) : Thread :=
  let t := if bit tw 0 then popTok t (upPair q) 1 else t
  if bit tw 1 then popTok t (ctlUp q) 1 else t

/-- Push the tokens that TS names, with those of circular wraps counted from bit 2 on (R32); the pair that overflows, if one does;
where both do, the downstream pair is named, which the spec leaves open (R139, log 139). A push to the control sequencer ends an IDLE (R407). -/
def Thread.pushTokens (t : Thread) (q : Sq) (ts : Nat) : Thread × Option Nat :=
  let (t, o1) := if bit ts 0 then pushTok t (downPair q) 1 else (t, false)
  let n := b01 (bit ts 1) + ts / 4
  let (t, o2) := if n ≠ 0 then pushTok t (ctlDown q) n else (t, false)
  let t := if n ≠ 0 then { t with idleUntil := none } else t
  (t, if o1 then some (downPair q) else if o2 then some (ctlDown q) else none)

/-! ## Permits (R224, R225) -/

/-- The permit class of an engine: M, V, S, L. -/
def permitClass : Eng → Nat
  | .matrix => 0
  | .vector => 1
  | .special => 2
  | _ => 3

/-- A sequencer's number in its cluster: a core's load and store sequencers count as two (R225). -/
def permitSeat (k : Nat) (q : Sq) : Nat := 2 * (thrCore k % 4) + (if q = .store then 1 else 0)

/-- Does an engine sequencer stand waiting for a permit of a class. -/
def State.seeks (s : State) (k : Nat) (q : Sq) (cls : Nat) : Bool :=
  let t := s.thread k
  t.running && s.isActive k && (t.wait q).any (fun w => w.kind == .permit) &&
    (t.nextUnit q).any fun u => ((wordEng u.1.word).map permitClass) == some cls

/-- Is a permit of a class there for a sequencer. When COUNT does not serve every sequencer of the cluster that seeks one, the permits go in
rotation from the one after the one served last (R225). -/
def State.hasPermit (s : State) (k : Nat) (q : Sq) (cls : Nat) : Bool :=
  let c := s.cluster (thrCluster k)
  let n := (vget c.perm cls Permit.full).count
  let turn (seat : Nat) : Nat := (seat + 7 - vget c.permLast cls 0) % 8
  if n ≥ 8 then true
  else n != 0 && decide ((((List.range 4).flatMap fun i => engSqs.map fun p => (s.coreThr (thrCluster k) i, p)).countP fun x =>
    decide (turn (permitSeat x.1 x.2) < turn (permitSeat k q)) && s.seeks x.1 x.2 cls) < n)

/-- Take one permit, counted for the thread's share of energy (R222). -/
def State.takePermit (s : State) (k : Nat) (q : Sq) (cls : Nat) : State :=
  let s := s.modCluster (thrCluster k) fun c =>
    let p := vget c.perm cls Permit.full
    { c with perm := vset c.perm cls { p with count := p.count - 1 }, permLast := vset c.permLast cls (permitSeat k q) }
  s.modThread k fun t => { t with permits := t.permits + 1 }

/-! ## Engine words -/

/-- What an engine word's meaning answers. -/
structure EngRes where
  s : State
  /-- The word finishes later, by ENGINE_WORD_FINISH (R138, R317). -/
  later : Bool := true
  /-- An access of it waits for a peer (R455). -/
  hold : Bool := false
  /-- A late cause (R422). -/
  late : Option Cause := none
  /-- Lock bits that drop when it finishes (R326). -/
  locks : List Nat := []
  /-- Register values for the retained window (R135). -/
  vals : List Nat := []
  /-- A loop that it opens. -/
  loop : Option LoopRec := none
  /-- It has made progress and waits for more (R142, R324). -/
  more : Option WaitKind := none
  /-- What has been done of a word that waits for more is part of its transfer: the word has started (R138). -/
  started : Bool := false
  /-- Its once-only effect, or its delivery into a queue head, is done: the performed bit and the recorded result of its entry (R135). -/
  performed : Bool := false
  res : List Nat := []
  /-- Line requests that it has outstanding until it finishes (R140). -/
  lines : Nat := 0
  /-- Flags that it raises when it finishes (R376). -/
  flags : W32 := 0#32
  /-- The scratchpad bytes that a compute word reads and writes, as first and last byte of each run, and the ranges that it holds until it
  finishes (R375). -/
  reads : List (Nat × Nat) := []
  writes : List (Nat × Nat) := []
  /-- The compute registers that it writes (R440). -/
  regs : List (Nat × Nat) := []
  /-- Circular wraps that push a token to the control sequencer (R33). -/
  wcb : Nat := 0

/-- The last unit that a loop buffer has captured. -/
def LoopBuf.last (l : LoopBuf) : Option QUnit := l.buf.getLast?

/-- The trap record of an engine unit. One that issues from a loop buffer stands, in fetch order, after the captured body: fetch goes on
there (R478). -/
def Thread.engFault (t : Thread) (eng : Eng) (q : Sq) (loop : Bool) (u : QUnit) (c : Cause) : TrapPend :=
  let rep := repOf u.pfx u.n u.mask u.rep
  match if loop then (t.loop q).last else none with
  | some e => { seq := e.seq + 1, eng := eng, cause := c, pc := u.pc, rep := rep, snap := e.snapN, keep := some q, after := e.next, late := false }
  | none => { seq := u.seq, eng := eng, cause := c, pc := u.pc, rep := rep, snap := u.snap, keep := none, after := u.pc, late := false }

/-- The trap record of a late fault: F is the unit that follows (R422, R478). -/
def Thread.lateFault (t : Thread) (eng : Eng) (q : Sq) (u : QUnit) (c : Cause) : TrapPend :=
  let l := t.loop q
  match if l.isOpen && l.buf.any (fun v => v.seq == u.seq) then l.buf[l.pos]? else none, l.last with
  | some f, some e => { seq := e.seq + 1, eng := eng, cause := c, pc := f.pc, rep := none, snap := e.snapN, keep := some q, after := e.next, late := true }
  | _, _ => { seq := u.seq + 1, eng := eng, cause := c, pc := u.next, rep := none, snap := u.snapN, keep := none, after := u.next, late := true }

/-- An issue enters the retained window, 256 entries deep (R135). -/
def Thread.record (t : Thread) (q : Sq) (e : WinEntry) : Thread :=
  let cut (l : List WinEntry) := if l.length ≥ 256 then l.drop 1 ++ [e] else l ++ [e]
  match q with
  | .ctl => t
  | .load => { t with winL := cut t.winL }
  | .comp => { t with winC := cut t.winC }
  | .store => { t with winS := cut t.winS }

/-- Each issue of a thread's compute sequencer counts against the whole mark of that thread's open tiles: the 257th after the MTSTART, which is
itself the first that is counted, clears it (R135, R136). -/
def State.countWhole (s : State) (k : Nat) (q : Sq) : State :=
  if q ≠ .comp then s
  else
    let t := s.thread k
    s.modCluster (thrCluster k) fun c => { c with
      acc := c.acc.map fun a =>
        if a.isOf t.task (some t.gangPos) then { a with since := a.since + 1, whole := a.whole && decide (a.since ≤ 256) } else a }

/-- A matrix word of the lease's holder issues (R161). -/
def State.touchLease (s : State) (k : Nat) : State :=
  if s.holdsLease k then s.modCluster (thrCluster k) fun c => { c with leaseAt := c.cycles s.now } else s

/-- Finish a word now: its tokens are pushed and a late cause is raised. -/
def State.finishWord (s : State) (k : Nat) (eng : Eng) (q : Sq) (u : QUnit) (ts : Nat) (late : Option Cause) : State :=
  let pushed := if late.isSome then (s.thread k, none) else (s.thread k).pushTokens q ts
  let t := pushed.1
  let ovf := pushed.2
  let s := s.setThread k t
  match late, ovf with
  | some c, _ => s.raiseAt k (t.lateFault eng q u c)
  | none, some p => s.raiseAt k (t.lateFault eng q u ⟨cTokenOverflow, 0, p⟩)
  | none, none => s

/-- The TW bits that an issue waits for: those of the first repeat, and none of a loop word (R266, R269, R274). -/
def QUnit.tw (u : QUnit) (w : W32) : Nat :=
  match decode w with
  | .ok i => if isLoopWord i || u.rep != 0 then 0 else (w.extractLsb' 21 2).toNat
  | .error _ => 0

/-- The TS bits that an issue pushes when it finishes: those of the last repeat, and none of a loop word. -/
def QUnit.ts (u : QUnit) (w : W32) : Nat :=
  match decode w with
  | .ok i => if isLoopWord i || decide (u.rep + 1 < u.n) then 0 else (w.extractLsb' 19 2).toNat
  | .error _ => 0

/-- Are two entries of a queue the same unit of the program. -/
def QUnit.same (u v : QUnit) : Bool := u.pc == v.pc && u.word == v.word && u.pfx == v.pfx

/-- Has a unit's present issue started, in this queue entry or before the trap from which it comes back (R138, R421). -/
def Thread.begunOf (t : Thread) (u : QUnit) : Bool := u.begun || t.stopped.any fun x => x.1.same u && x.1.begun

/-- The TW bits that a unit still waits for. -/
def Thread.owed (t : Thread) (u : QUnit) (w : W32) : Nat := if t.begunOf u then 0 else u.tw w

/-- A unit starts, with part of its transfer still to do: its tokens are taken with the start (R138). -/
def Thread.beginUnit (t : Thread) (cur : Cur) (w : W32) : Thread :=
  let u := cur.unit
  let t := (t.popTokens cur.sq (t.owed u w)).putUnit cur.sq cur.loop { u with begun := true }
  { t with stopped := t.stopped.map fun x => if x.1.same u then ({ x.1 with begun := true }, x.2) else x }

/-- The line requests of a thread that an engine queue has outstanding (R140). A marker counts while it stands at the head of
its queue, where no word behind it issues. -/
def Thread.outstanding (t : Thread) (q : Sq) : Nat :=
  ((t.flights.filter fun f => f.eng.sq == q).map (·.lines)).sum

/-- Do two byte ranges share a byte. -/
def rangesMeet (a b : Nat × Nat) : Bool := decide (a.1 ≤ b.2 ∧ b.1 ≤ a.2)

/-- May a word issue beside what the thread has issued and not finished: its line requests fit into its queue (R140), no byte that it reads
or writes lies in a range that the region interlock holds, and a range is free for what it writes (R375). -/
def Thread.fits (t : Thread) (q : Sq) (r : EngRes) : Bool :=
  let held := t.flights.flatMap (·.writes)
  (r.lines == 0 || decide (t.outstanding q + r.lines ≤ 128)) &&
    (held.isEmpty || (!(r.reads.any fun a => held.any (rangesMeet a)) && decide (held.length + r.writes.length ≤ 8)))

/-- The thread after an issue: its tokens popped, the issue in the retained window, the unit gone from its queue or on to its next repeat
(R135, R138, R269). -/
def Thread.issuedUnit (t : Thread) (cur : Cur) (w : W32) (r : EngRes) : Thread :=
  let q := cur.sq
  let u := cur.unit
  let t := t.popTokens q (t.owed u w)
  let t := (t.setWait q none).setPhase q (if q = .store then Phase.none else t.ph)
  let t := t.record q ⟨u.seq, u.pfx, w, r.vals, r.performed, r.res⟩
  let lastRep := !decide (u.rep + 1 < u.n)
  let t := if lastRep ∧ !cur.loop then { t with hist := t.hist ++ [(u.seq, q, u.pfx ++ [u.word])] } else t
  let t := if lastRep then t.retire q cur.loop u r.loop else t.putUnit q cur.loop { u with rep := u.rep + 1, begun := false }
  if lastRep then { t with repState := t.repEnd u.pfx } else t

/-- The state after an issue: what the word did, its permit taken, and its finish, at once or later (R138, R225, R317). -/
def EngRes.issued (r : EngRes) (k : Nat) (eng : Eng) (cur : Cur) (w : W32) : State :=
  let q := cur.sq
  let u := cur.unit
  let ts := u.ts w + 4 * r.wcb
  let s := r.s.takePermit k q (permitClass eng)
  let s := s.countWhole k q
  let s := if eng = .matrix then s.touchLease k else s
  let t := (s.thread k).issuedUnit cur w r
  if r.later && (ts != 0 || r.late.isSome || !r.locks.isEmpty || r.hold) then
    let t := { t with flights := t.flights ++ [Flight.mk u.seq eng w ts u.pfx u.next u.snapN r.late r.locks r.lines r.flags r.writes r.regs] }
    (s.setThread k t.pruneHist).settleTrap k
  else
    let s := (s.setThread k { t with flags := t.flags ||| r.flags }).finishWord k eng q u ts r.late
    (s.modThread k Thread.pruneHist).settleTrap k

/-- The state in which an engine word runs: the unit that issues is the one that reads (R455). -/
def State.issuing (s : State) (c : Cur) : State := { s with cur := some c }

/-- The compute registers in which two states of a thread differ, with the codes of `Flight.regs`. -/
def Thread.changedRegs (t u : Thread) : List (Nat × Nat) :=
  let diff (file n : Nat) (same : Nat → Bool) : List (Nat × Nat) := ((List.range n).filter fun i => !same i).map fun i => (file, i)
  diff 0 16 (fun i => vget t.a i 0#64 == vget u.a i 0#64) ++ diff 1 16 (fun i => vget t.m i 0#64 == vget u.m i 0#64)
    ++ diff 2 8 (fun i => vget t.s i 0#64 == vget u.s i 0#64) ++ diff 3 16 (fun i => vget t.eb i 0#32 == vget u.eb i 0#32)
    ++ diff 4 1 fun _ => t.vc == u.vc

/-- What a compute word has written since `t` is held until it finishes (R440). -/
def EngRes.holding (r : EngRes) (q : Sq) (t : Thread) : EngRes := if q = .comp then { r with regs := t.changedRegs r.s.th } else r

/-- The issue of an engine word from a queue or a loop buffer. -/
def issueUnit (eng : Eng) (cur : Cur) (w : W32) (body : QUnit → State → M EngRes) (s : State) : Out :=
  let k := s.me
  let t := s.th
  let q := cur.sq
  let u := cur.unit
  let s := s.issuing cur
  let stand (kd : WaitKind) : Out :=
    match t.watchdogDue q kd s.now with
    | some c => .next ((s.setTh (t.setWait q none)).raiseAt k (t.engFault eng q cur.loop u c))
    | none => .next (s.setTh (t.standIn q kd s.now))
  if !t.hasTokens q (t.owed u w) then stand .token
  else if !s.hasPermit k q (permitClass eng) then stand .permit
  else
    match body u (s.borrow k u.seq q) with
    | .ok r0 =>
      let waits := r0.started && (r0.more == some .memory || r0.more == some .performed)
      let r := { r0 with s := r0.s.giveBack s k u.seq q waits }
      if !t.fits q r then stand .slots
      else
        match r.more with
        | some kd => .next (r.s.modThread k fun t =>
          let t := if r.started then t.beginUnit cur w else t
          ((if waits then t.pass u.seq q else t).setWait q none).standIn q kd s.now)
        | none => .next ((r.holding q t).issued k eng cur w)
    | .error (.wait .memory) => .next (s.setTh ((t.pass u.seq q).standIn q .memory s.now))
    | .error (.wait kd) => stand kd
    | .error (.peer kind pa) => .next ((s.askPeer k u.seq q kind pa).setTh ((t.pass u.seq q).standIn q .performed s.now))
    | .error (.device line) => .next (((s.meetLine line).meetBursts line).setTh ((t.pass u.seq q).standIn q .performed s.now))
    | .error (.cause c) => .next (s.raiseAt k (t.engFault eng q cur.loop u c))
    | .error .illegal =>
      .next (s.raiseAt k (t.engFault eng q cur.loop u ⟨cIllegalOp, 0, u.pfx.length * 2 ^ 32 + w.toNat⟩))

/-- The run-ahead record of an engine does not match: the region aborts with SDC_DETECTED SUB 2 in the fault record, which counts toward no
limit (R421). -/
def State.resteerMismatch (s : State) (k : Nat) (w : W32) (pc : Nat) : State :=
  let s := s.faultEvent (thrDie k) (unitOfCore (thrCore k)) (s.tidOf k) (s.cidxOf k) (((s.taskOf (s.thread k).task).map (·.gen)).getD 0) 2 cSdcDetected
  s.deliver k .control ⟨cSdcDetected, 2, w.toNat⟩ pc none

/-- An engine word of the thread that acts. With a unit named by `cur` it issues; otherwise it is the unit at the PC: it is steered, and
issues at once when its sequencer has nothing before it. -/
def engWord (eng : Eng) (w : W32) (body : QUnit → State → M EngRes) (s : State) : Out :=
  match s.cur with
  | some c => issueUnit eng c w body s
  | none =>
    let k := s.me
    let t := s.th
    let q := eng.sq
    let u := t.unitHere w
    match t.steer q u with
    | none => .next (s.setTh (t.standIn .ctl .cmdQueue s.now))
    | some (t1, consumed, bad) =>
      let alone := (t.queue q).isEmpty && !(t.loop q).isOpen
      let s1 := s.setTh t1.pastUnit
      if bad then .next (s1.resteerMismatch k w u.pc)
      else if consumed then .next s1
      else if alone && u.n = 1 && t1.mayIssue q u false then issueUnit eng ⟨q, false, u⟩ w body s1
      else .next s1

/-! ## Prefix words -/

/-- A prefix word is fetched: it joins the unit being collected. A fourth prefix, a repeated one or one out of order is an illegal
encoding (R267); the splitter raises it once every earlier unit has issued (R261). -/
def collectPrefix (w : W32) (s : State) : Out :=
  let t := s.th
  let l := t.pfx ++ [w]
  match readPfx l with
  | none => .next (s.raiseAt s.me (t.ctlFault .control ⟨cIllegalOp, 0, t.pfx.length * 2 ^ 32 + w.toNat⟩))
  | some _ => .next (s.setTh { t with pfx := l, pfxPc := t.unitPc, pc := t.pc + 4 })

end Sys2Proof.Machine
end

