-- ==== Sys2Proof/Machine/Arrive.lean ====
section
/-! DEFINITION. What completes later than the word that started it: accesses of the control path, queue-head elements, engine words,
write-throughs, images and saves (R103, R110, R111, R116, R118, R119, R127, R138, R141, R143, R297, R298, R317, R434 to R436). -/

namespace Sys2Proof.Machine

open Sys2Proof

/-! ## Freezes (R99) -/

/-- Is the core of a thread frozen: no token moves there, nothing arrives, and the save engine does not reach it (R99). -/
def State.frozen (s : State) (k : Nat) : Bool := (s.core (thrCore k)).freezes != 0

/-! ## Queue heads (R141, R143) -/

/-- The elements of a delivery land in queue RAM, in the order of issue into their head; those of an unbound head are discarded. -/
def State.queueArrive (s : State) (k i : Nat) : State :=
  let t := s.thread k
  match t.qflights[i]? with
  | none => s
  | some f =>
    if s.frozen k || (t.qflights.take i).any fun x => x.q == f.q then s
    else
      let b := vget t.q f.q QHead.unbound
      let b := if b.kind = 0 then b else { b with elems := b.elems ++ f.vals, flight := b.flight - f.vals.length }
      (s.setThread k { t with q := vset t.q f.q b, qflights := t.qflights.eraseIdx i, idleUntil := none }).settleTrap k

/-- Send elements toward a queue head of a thread; those of one word travel together. -/
def Thread.sendQ (t : Thread) (q : Nat) (vals : List W) (seq : Nat) : Thread :=
  let b := vget t.q q QHead.unbound
  let fl := match t.qflights.getLast? with
    | some f => if f.q = q ∧ f.seq = seq then t.qflights.dropLast ++ [⟨q, f.vals ++ vals, seq⟩] else t.qflights ++ [⟨q, vals, seq⟩]
    | none => [⟨q, vals, seq⟩]
  { t with q := vset t.q q { b with flight := b.flight + vals.length }, qflights := fl }

/-- Free elements of a binding, counting those in flight (R142). -/
def QHead.space (b : QHead) : Nat := b.depth - b.elems.length - b.flight

/-! ## Engine words (R138, R317) -/

/-- An engine word finishes once its elements are in queue RAM and its accesses have performed: it drops its locks, pushes its tokens,
and its late fault, if it has one, is taken. -/
def State.wordFinish (s : State) (k i : Nat) : State :=
  let t := s.thread k
  match t.flights[i]? with
  | none => s
  | some f =>
    if s.frozen k || t.qflights.any (fun x => x.seq == f.seq) || s.peers.any (fun p => p.thr == k && p.seq == f.seq && p.dest != 0) then s
    else
      let t := { t with flights := t.flights.eraseIdx i, locks := t.locks.filter (fun l => !f.locks.contains l), flags := t.flags ||| f.flags }
      let u : QUnit := { seq := f.seq, pc := 0, next := f.next, pfx := f.pfx, word := f.word, marker := false, snap := f.snap, snapN := f.snap, rep := 0, n := 1, mask := 0, begun := false }
      let s := (s.setThread k t).finishWord k f.eng f.eng.sq u f.ts f.late
      (s.modThread k Thread.pruneHist).settleTrap k

/-! ## Write-throughs (R110, R111, R118, R444) -/

/-- Home acknowledges a write-through: it is pending no more, and the copy is held no longer once none of its line is (R111). A task that ends
may have waited for it to make its LEAVEs (R309). -/
def State.wtAcked (s : State) (d i line : Nat) : State :=
  let rest := (s.die d).wts.eraseIdx i
  let s := s.modDie d fun y => { y with
    wts := rest
    llc := if rest.any fun v => v.line == line then y.llc else y.llc.map fun e => if e.line = line then { e with held := false } else e }
  (s.tasks.filter fun t => t.ending.isSome && t.die == d).foldl (fun s t => s.finishTask t.uid) s

/-- A pending line reaches its home under its mask, in the order of its line; a line the host may hold is snooped first (R444), and one that
home does not take yet stays (R87, R90, R192); one that a peer homes stays until the peer has acknowledged it (R455). A line that the LLC
sends poisoned is poisoned at home (R100). -/
def State.writeThrough (s : State) (d i : Nat) : State :=
  let x := s.die d
  match x.wts[i]? with
  | none => s
  | some w =>
    if w.sent || (x.wts.take i).any fun v => v.line == w.line then s
    else if s.hostHolds w.line then s.snoopLine w.line
    else
      match s.homeWrite w.line w.dat w.mask with
      | none => s
      | some s =>
        if w.peer then s.modDie d fun y => { y with wts := y.wts.set i { w with sent := true } }
        else (if w.poison then s.setPoison w.line else s).wtAcked d i w.line

/-- The nine destinations of flush markers: the other compute dies, then IO0 and IO1 as 8 and 9 (R119). -/
def flushDests (die : Nat) : List Nat := (List.range 10).filter fun d => d != die

/-- The number of a peer among the destinations of markers, and that of an entropy value towards a rank outside the domain (R455, R456). -/
def peerDest (m : Nat) : Nat := 16 + m
def ethDest (num entropy : Nat) : Nat := 2 ^ 32 + num % 2 ^ 28 * 64 + entropy

/-- The entropy value of a packet: a message's packets go round the 64 of its destination (log 173). -/
def entropyOf (pkt : Nat) : Nat := pkt % 64

/-- The destinations of a SYS release's markers beyond the package: each peer written since the context's previous SYS release, and every
entropy value in use towards a rank (R116, R455, R456). -/
def State.sysDests (s : State) (k : Nat) : List Nat :=
  let d := thrDie k
  let from_ := Tab.getD s.sysRel (((s.taskOf (s.thread k).task).map (·.ctx)).getD 0) 0
  let due := (s.die d).wts.filterMap fun w => match s.homeOf (w.line * 64) with | .peer m => some m | _ => none
  ((((s.peerWrote.filter fun e => decide (from_ ≤ e.2)).map (·.1)) ++ due).eraseDups.map peerDest) ++
    ((s.eth.filter fun e => !e.inc).flatMap fun e => (List.range (min e.next 64)).map (ethDest e.num)).eraseDups

/-- Is a home at a flush destination. -/
def Home.isAt (h : Home) (dest : Nat) : Bool :=
  match h with
  | .die n => n == dest
  | .lp io => dest == 8 + io
  | .hostWin p => dest == 8 + p
  | .peer m => peerDest m == dest
  | .mgmt => dest == 8
  | .unbacked => false

/-- Is a packet of a message on its way under an entropy value. -/
def EthMsg.under (e : EthMsg) (dest : Nat) : Bool := !e.inc && e.out.any fun p => ethDest e.num (entropyOf p.pkt) == dest

/-- A destination acknowledges the markers of a thread's release: everything sent to it before them has reached it (R119, R455, R456). -/
def State.flushAck (s : State) (k dest : Nat) : State :=
  if ((s.die (thrDie k)).wts.any fun w => (s.homeOf (w.line * 64)).isAt dest) ||
      (s.peers.any fun p => (p.kind == 1 || p.kind == 3) && peerDest p.peer == dest) || s.eth.any (·.under dest) then s
  else s.modThread k fun t => { t with
    ph := { t.ph with acks := t.ph.acks.filter (· != dest) }, phS := { t.phS with acks := t.phS.acks.filter (· != dest) } }

/-- Do write-throughs of a die to homes on the die itself remain (R116, DIE scope). -/
def State.localPending (s : State) (d : Nat) : Bool :=
  (s.die d).wts.any fun w => decide (s.homeOf (w.line * 64) = .die d)

/-- Do write-throughs of a die remain that reach a home of the package (R116, PKG scope). -/
def State.pkgPending (s : State) (d : Nat) : Bool := (s.die d).wts.any fun w => !w.peer

/-- Do writes to peers or to host memory, or collective messages, remain (R116, SYS scope). -/
def State.sysPending (s : State) (d : Nat) : Bool :=
  (s.die d).wts.any (·.peer) || s.peers.any (fun p => p.kind == 1 || p.kind == 3) || s.eth.any (fun m => !m.out.isEmpty) ||
    (List.range 2).any fun p => (s.port p).out != 0

/-! ## Images (R93, R110, R126) -/

/-- Flags raised for the thread at a gang position of a task, which holds no plane (R52). -/
def Task.orFlags (t : Task) (pos : Nat) (f : W32) : Task :=
  { t with flags := Tab.put pos (Tab.getD t.flags pos 0#32 ||| f) t.flags }

/-- A saved thread leaves its plane, with its own tiles: `state` is 0 to wait in its ready queue at its original ready time, 3 when it is parked. What its FLAGS
have gathered since the image was captured stays with the task (R52). -/
def State.leaveSaved (s : State) (k state : Nat) : State :=
  let t := s.thread k
  match s.taskOf t.task with
  | none => s
  | some x =>
    let s := s.modTask t.task fun y => { y.orFlags t.gangPos t.flags with
      async := y.async ++ t.async.map fun c => (t.gangPos, c), threads := y.threads.filter (· != k), waitAt := s.now }
    let s := s.modCluster (thrCluster k) fun c => c.discardTiles t.task (some t.gangPos)
    let s := s.releasePlane k
    if x.threads.length ≤ 1 then (s.modTask x.uid fun y => { y with state := state }).refillReady x.die else s

/-- What follows on the completion of an image (R93): a commit's image brings the commit instant and, before any later image of the core, the
copy into the commit image, which is torn until the copy ends (R110); a save's image lets the thread leave its plane. -/
def State.imageEnds (s : State) (d i : Nat) (j : ImgJob) : State :=
  let img := { j.img with done := true }
  match j.purpose with
  | 0 => s.imageDone j
  | 1 =>
    let s := (s.imageDone j).commitInstant j.thr j.img.mark
    let s := s.modThread j.thr fun t =>
      let t := if t.ph.stage = 2 then { t with ph := { t.ph with stage := 3 } } else t
      if t.phS.stage = 2 then { t with phS := { t.phS with stage := 3 } } else t
    let s := s.modCore j.core fun c => { c with imgC := some j.img }
    s.modDie d fun y => { y with imgs := y.imgs.take i ++ { j with slot := 2, purpose := 2 } :: y.imgs.drop i }
  | 3 =>
    let (s, img) := s.writeSaved (((s.taskOf img.task).map (·.ctx)).getD 0) img
    let s := s.modTask img.task fun t => { t with saved := (t.saved.filter fun o => o.pos != img.pos) ++ [img] }
    s.leaveSaved j.thr 0
  | 4 =>
    let cls := (s.thread j.thr).eclass
    let stays := s.sched.suspended || decide (vget s.sched.grades cls 0 ≥ 2)
    let s := (s.imageDone j).leaveSaved j.thr (if stays then 3 else 0)
    let s := s.modTask img.task fun t => { t with onyxCores := t.onyxCores ++ [(img.pos, j.core)] }
    s.modCore j.core fun c => { c with reserved := some img.task }
  | _ => s.imageDone j

/-- The save engine completes the image that it writes on a core (R93). -/
def State.imageComplete (s : State) (d i : Nat) : State :=
  let x := s.die d
  match x.imgs[i]? with
  | none => s
  | some j =>
    if (s.core j.core).freezes != 0 || !j.begun then s
    else (((s.setDie d { x with imgs := x.imgs.eraseIdx i }).wearImage j).imageEnds d i j).nextImage j.core

/-- The commit-image copy ends (R110 step 7). -/
def State.copyDone (s : State) (d i : Nat) : State :=
  match (s.die d).imgs[i]? with
  | none => s
  | some j => if j.purpose = 2 then s.imageComplete d i else s

/-! ## Commits (R109, R110) -/

/-- How a word of several steps stands: it has more to wait for, or it may go on. -/
inductive Going where
  | busy (s : State) (k : WaitKind)
  | done (s : State)
  deriving DecidableEq, Repr

/-- The outstanding stores of the other threads of a thread's task, each with its steering number: those of the scalar path, and those of the
store sequencer that have not finished (R110 step 1). -/
def State.mateStores (s : State) (k : Nat) : List Nat :=
  let mates := ((s.taskOf (s.thread k).task).map (·.threads)).getD []
  (mates.filter (· != k)).flatMap fun j =>
    (((s.thread j).ctlAcc.filter (·.store)).map (·.seq) ++ ((s.thread j).flights.filter fun f => f.eng == .store).map (·.seq)).map (j * 2 ^ 64 + ·)

/-- An image of a commit stands at the commit point: the word that makes the commit goes on from there, so that a restart neither commits
nor performs what follows again (R110 step 2, R114). -/
def Image.atCommit (i : Image) (q : Sq) (ph : Phase) : Image :=
  { i with t := i.t.map fun x => x.setPhase q { ph with stage := 3 } }

/-- Carry a commit of the acting thread on (R110): the thread drains, and so do the stores that its task's other threads had issued (stage 1),
its image is captured under a mark drawn and sealed for it and written (stage 2), and the commit instant comes with the image's completion
(stage 3). -/
def State.commitGo (s : State) (q : Sq) : Going :=
  let k := s.me
  let t := s.th
  let ph := t.phase q
  if ph.stage = 0 ∨ ph.stage = 1 then
    let mates := if ph.stage = 0 then s.mateStores k else ph.acks.filter (s.mateStores k).contains
    if !t.drained || !mates.isEmpty then .busy (s.setTh (t.setPhase q { ph with stage := 1, acks := mates })) .drain
    else
      let ph := { ph with acks := [] }
      match s.taskOf t.task with
      | none => .done (s.setTh (t.setPhase q { ph with stage := 3 }))
      | some x =>
        let mark := x.drawn
        let s := s.modTask x.uid Task.sealCommit
        let s := s.modThread k fun t => { t with persistAt := s.now }
        let img := (s.capture k .commit mark).atCommit q ph
        let s := s.startImage k 0 1 { img with cidx := (x.cidx + 1) % 2 ^ 24 }
        .busy (s.modThread k fun t => t.setPhase q { ph with stage := 2 }) .commit
  else if ph.stage = 2 then .busy s .commit
  else .done s

/-- Carry a release of a scope on (R109, R116, R119): below DIE every access has performed; from DIE on a commit is made first and its
write-throughs to the die's own homes are waited for; at PKG the flush markers go out (stage 4) and are acknowledged; at SYS markers go to the
peers and the ranks written too, and what is on its way to host memory has arrived. -/
def State.releaseGo (s : State) (q : Sq) (scope : Nat) : Going :=
  let k := s.me
  if scope < 3 then if s.th.drained then .done s else .busy s .performed
  else
    match s.commitGo q with
    | .busy s kd => .busy s kd
    | .done s =>
      let ph := s.th.phase q
      let d := thrDie k
      if s.localPending d then .busy s .performed
      else if scope = 3 then .done s
      else if ph.stage = 3 then
        .busy (s.modThread k fun t => t.setPhase q { ph with stage := 4, acks := flushDests d ++ if scope = 5 then s.sysDests k else [] }) .ack
      else if ph.stage = 4 ∧ (ph.acks ≠ [] ∨ s.pkgPending d = true) then .busy s .ack
      else if scope ≠ 5 ∨ ph.stage ≠ 4 then .done s
      else if s.sysPending d = true then .busy s .ack
      else .done { s with sysRel := Tab.put (((s.taskOf s.th.task).map (·.ctx)).getD 0) s.now s.sysRel }

/-! ## Persist points (R84, R125 to R127) -/

/-- Marks from the oldest live mark of a task to its next one (R84). -/
def Task.markSpan (t : Task) : Nat :=
  ((t.openMark :: t.sealedMarks).map fun m => (t.drawn + 2 ^ 32 - m % 2 ^ 32) % 2 ^ 32).foldl max 0

/-- Does a PFENCE of a thread have to make a commit first: it would open a mark 2^31 - 1 or more after the oldest live one (R84). -/
def State.pointCommits (s : State) (k : Nat) : Bool := (s.taskOf (s.thread k).task).any fun t => decide (t.markSpan ≥ 2 ^ 31 - 1)

/-- Take a persist point of a scope: 0 CTX, 1 CLUSTER. -/
def State.persistPoint (s : State) (k scope : Nat) : State :=
  match s.taskOf (s.thread k).task with
  | none => s
  | some x =>
    let mark := x.openMark
    let s := s.modTask x.uid Task.seal
    let s := s.modThread k fun t => { t with persistAt := s.now, pendPersist := none }
    s.startImage k 0 0 (s.capture k (if scope = 1 then .cluster else .ctx) mark)

/-- May a thread take a persist point now (R127). -/
def Thread.persistOpen (t : Thread) (now : Nat) : Bool := t.persistAt == 0 || decide (t.persistAt + 50000 ≤ now)

/-- What the waits of a control word's steps are, in `arg2` of its phase: those of a FENCE for completion are instruction boundaries; the
steps of TEND and TABORT are split by no save (R394); and a commit that a pending persist point makes belongs to no word. -/
def fenceWaits : Nat := 1
def endWaits : Nat := 2
def pointWaits : Nat := 3

/-- Does a thread stand at a control sequencer's instruction boundary: no unit begun, or only the commit of a pending point under way. -/
def Thread.atBoundary (t : Thread) : Bool :=
  t.running && !t.halted && t.pfx.isEmpty && t.repDone == 0 && t.trapPend.isNone && (t.ph == Phase.none || t.ph.arg2 == pointWaits)

/-- Is the first boundary after the window there, with a persist point pending: the thread stops issuing (R127). -/
def Thread.pointDue (t : Thread) (now : Nat) : Bool :=
  t.pendPersist.isSome && t.atBoundary && (t.persistOpen now || t.ph.arg2 == pointWaits)

/-- Is an engine unit in the middle of its transfer or of its repeats. -/
def QUnit.midWord (u : QUnit) : Bool := !u.marker && (u.rep != 0 || u.begun)

/-- Is no engine unit of a thread in the middle, in its queues and its loop buffers, and no replay of a tile under way (R318, R367, R401). One
that a handler finds interrupted goes on after it, and travels in the image of a save that the handler meets (R426, R438). -/
def Thread.wordsWhole (t : Thread) : Bool :=
  (t.tileRep.isNone || t.inh) && engSqs.all fun q => ((t.queue q) ++ (t.loop q).buf).all fun u => !u.midWord

/-- A pending persist point is taken at the boundary once the thread has drained: CLUSTER when one was asked for and the thread still holds
the lease (R127), after a commit where the marks ask for one (R84). -/
def State.takePending (s0 : State) (k : Nat) : State :=
  let s := { s0 with focus := some k }
  let t := s.thread k
  match t.pendPersist with
  | none => s0
  | some scope =>
    if !t.pointDue s.now then s0
    else
      let take (s : State) : State := (s.modThread k fun t => { t with ph := Phase.none }).persistPoint k (if scope = 1 ∧ s.holdsLease k = true then 1 else 0)
      if t.ph.stage != 0 || s.pointCommits k then
        match (s.setThread k (t.setPhase .ctl { t.ph with arg2 := pointWaits })).commitGo .ctl with
        | .busy s _ => s
        | .done s => take s
      else if t.drained && t.wordsWhole then take s
      else s0

/-! ## Saves (R285, R318, R367, R394, R400, R434, R435) -/

/-- Stages of a control word's wait that a restore finds again from its start: from here on (R285). -/
def boundaryStage : Nat := 5

/-- Has the unit at the PC come back from a trap or a restore between its repeats, with none run since. While it is not known to be a control
unit it may be an engine unit, between whose repeats no save falls (R269). -/
def Thread.repReturned (t : Thread) : Bool := t.resumes && t.repDone == bits t.repState.toNat 5 0

/-- Does the control sequencer stand at an instruction boundary: between units, between the repeats of one, at a wait, or where a trap is about
to be taken; and not in the steps of a commit, a release or an end (R267, R269, R285, R394, R438). A ready queue or a collective engine that is
full keeps its word at a boundary after the commit that a full log asked for. -/
def Thread.ctlBoundary (t : Thread) : Bool :=
  ((!t.repReturned && (t.pfx.isEmpty || t.repDone != 0)) || t.trapPend.isSome
      || t.waitK.any fun w => !t.repReturned || (w.kind != .cmdQueue && w.kind != .queueSpace)) &&
    (t.ph.stage == 0 || decide (t.ph.stage ≥ boundaryStage) || (t.ph.arg2 == fenceWaits && decide (t.ph.stage ≥ 3))
      || (t.ph.stage == 3 && t.waitK.any fun w => w.kind == .slots))

/-- May a save of a thread be taken now: it is drained, at a boundary of its control sequencer or at a wait that is one, and no engine word,
no replay, no commit and no end of a task is split; an ordered atomic that waits has not issued. -/
def Thread.canSave (t : Thread) : Bool :=
  t.drained && t.wordsWhole && t.phS.stage != 1 && t.phS.stage != 2 && t.ph.arg2 != endWaits && t.ctlBoundary

/-- Is nothing of a thread outstanding at a peer (R318). -/
def State.peersDone (s : State) (k : Nat) : Bool := !(s.peers.any fun p => p.thr == k && decide (p.kind = 0) && p.dest != 6)

/-- May a save of a thread be taken now: its accesses at peers have performed too, and no freeze keeps the save engine from its core (R99, R318). -/
def State.saveReady (s : State) (k : Nat) : Bool := (s.thread k).canSave && s.peersDone k && !s.frozen k

/-- Is a save pending for a thread: a pre-emption, a PARK stop or a forced save. -/
def Thread.savePending (t : Thread) : Bool := t.preempt.isSome || t.parkStop.isSome

/-- The save that a pending request asks for: to the saved context record, or to a persist image under a PARK stop. -/
def Thread.savePurpose (t : Thread) : Nat := if t.parkStop.isSome then 4 else 3

/-- Has the limit run out after which a request is served by a forced save: 100 µs for a pre-emption, 50 µs for a PARK stop (R210, R434). -/
def Thread.saveDue (t : Thread) (now : Nat) : Bool :=
  t.preempt.any (fun u => decide (u + 100000 ≤ now)) || t.parkStop.any fun u => decide (u + 50000 ≤ now)

/-- Does a thread issue nothing new because its forced save is due: it stands at the boundary at which the save is taken. -/
def Thread.saveStop (t : Thread) (now : Nat) : Bool := !t.halted && t.saveDue now && t.ctlBoundary && t.ph.arg2 != endWaits

/-- REP_STATE of a control unit that a forced save interrupts between repeats, and its address (R50). A unit that has come back between its
repeats has them already; in a handler REP_STATE is that of the interrupted unit, and the count alone travels (log 168). -/
def Thread.keepRepeat (t : Thread) : Thread :=
  let r := t.repNow
  if t.inh || t.repReturned || t.repDone == 0 || ((readPfx t.pfx).bind (·.rep)).isNone then t
  else { t with repState := mkRepState (r.2.1 - r.1) r.2.2 r.1, repPc := some t.unitPc }

/-- Take a save: the image is captured and written, and the thread stops (R435). A pre-emption save goes to the saved context record,
a park or gate save to a persist image. `next` is the address at which the thread resumes. -/
def State.beginSave (s : State) (k purpose : Nat) (kind : ImgKind) (next : Thread → Thread) : State :=
  match s.taskOf (s.thread k).task with
  | none => s
  | some x =>
    let s := s.modThread k fun t => { next t with persistAt := s.now }
    let mark := x.openMark
    let s := s.modTask x.uid Task.seal
    let s := s.startImage k (if purpose = 3 then 3 else 0) purpose (s.capture k kind mark)
    s.modThread k fun t => { t with halted := true, preempt := none, parkStop := none }

/-- The forced full save of a thread on its core's active plane (R434). -/
def State.takeSave (s : State) (k : Nat) : State := s.beginSave k (s.thread k).savePurpose .full Thread.keepRepeat

end Sys2Proof.Machine
end

