-- ==== Sys2Proof/Machine/Version.lean ====
section
/-! DEFINITION. Stores into the task's version, the control path, the once-only log, barrier objects, the scratchpad and the queue heads, as
the words use them (R73 to R79, R82, R84, R85, R104, R113, R114, R122, R126, R142, R145, R227, R298). -/

namespace Sys2Proof.Machine

open Sys2Proof

/-! ## The version (R84, R85, R126) -/

/-- The lines that a byte range touches. -/
def linesOf (pa n : Nat) : List Nat :=
  if n = 0 then [] else (List.range ((pa + n - 1) / 64 + 1 - pa / 64)).map fun i => pa / 64 + i

/-- Does the version hold a line under the open mark. -/
def Task.hasOpen (t : Task) (line : Nat) : Bool := t.lines.any fun v => v.line == line && v.mark == t.openMark

/-- Version lines of a die (R85). -/
def State.poolUsed (s : State) (d : Nat) : Nat := ((s.tasks.filter fun t => t.die == d).map fun t => t.lines.length).sum

/-- The lines that the STS of a thread which have not performed yet are to add to its task's version. -/
def State.sentLines (s : State) (t : Task) (k : Nat) : List Nat :=
  ((((s.thread k).ctlAcc.filter (·.store)).flatMap fun a => (linesOf a.pa a.n).map s.localLine).filter fun l => !t.hasOpen l).eraseDups

/-- May stores to these lines enter the version of a thread's task: its budget and the die's pool hold every line they add, with those that
the task's STS on their way add (R85). -/
def State.versionRoom (s : State) (k : Nat) (lines : List Nat) : M PUnit :=
  match s.taskOf (s.thread k).task with
  | none => .ok ⟨⟩
  | some t => do
    let coming := (t.threads.flatMap fun j => s.sentLines t j).eraseDups
    let n := ((lines.map s.localLine).eraseDups.filter fun l => !t.hasOpen l && !coming.contains l).length
    let held := t.lines.length + coming.length
    require (decide (n = 0 ∨ held + n ≤ t.vbudget)) cVersionOverflow 0 held
    require (decide (n = 0 ∨ s.poolUsed t.die + coming.length + n ≤ 393216)) cVersionOverflow 1 (s.poolUsed t.die + coming.length)

/-- Masked bytes put into the version under the open mark; a line held under a sealed mark is copied first (R126). -/
def Task.putLine (t : Task) (line : Nat) (dat : BitVec 512) (mask : BitVec 64) (swm : Bool) : Task :=
  if t.hasOpen line then
    { t with lines := t.lines.map fun v =>
      if v.line = line ∧ v.mark = t.openMark then { v with dat := mergeLine v.dat dat mask, mask := v.mask ||| mask } else v }
  else
    let old := (t.lines.filter fun v => v.line == line).getLast?
    let base := match old with
      | some v => (v.dat, v.mask)
      | none => (0#512, 0#64)
    { t with lines := t.lines ++ [⟨line, t.openMark, mergeLine base.1 dat mask, base.2 ||| mask, swm, false⟩] }

/-- An ordinary store of a thread performs (R82, R84, R103). -/
def State.versionWrite (s : State) (k : Nat) (swm : Bool) (pa : Nat) (data : List Byte) : State :=
  (splitLines (s.localPa pa) data).foldl (fun s l =>
    let uid := (s.thread k).task
    let s := if ((s.taskOf uid).map fun t => t.hasOpen l.1).getD true then s else (s.llcRoom (thrDie k) l.1).1
    let s := s.modTask uid fun t => t.putLine l.1 l.2.1 l.2.2 swm
    s.modCluster (thrCluster k) fun c => { c with l1 := c.l1.filter fun e => e.line != l.1 }) s

/-- Is the page of a handle software-managed (R120). -/
def Thread.swmOf (t : Thread) (h : Nat) : Bool := t.hSwm.getLsbD h

/-! ## The control path (R104, R298) -/

/-- The value that an LDS returns (R297). -/
def CtlAcc.value (a : CtlAcc) (l : List Byte) : W :=
  if a.sx then BitVec.ofInt 64 (sext (8 * a.n) (leNat l)) else BitVec.ofNat 64 (leNat l)

/-- The trap record of an access that performs: that of its own unit. -/
def Thread.accFault (t : Thread) (a : CtlAcc) (c : Cause) : TrapPend :=
  { t.ctlFault .control c with seq := a.seq, pc := a.pc, rep := none, after := a.pc }

/-- The oldest access of the control path performs: an STS writes the version, an LDS reads and delivers its value, unless it has to wait.
An access of no bytes is the step at home of a group word, performed already: its result is on its way (R308, R311). -/
def State.ctlPerform (s : State) (k i : Nat) : State :=
  let t := s.thread k
  if i ≠ 0 ∨ s.frozen k then s
  else
    match t.ctlAcc with
    | [] => s
    | a :: r =>
      let gone (s : State) : State := s.modThread k fun t => { t with ctlAcc := r }
      let ends (s : State) (v : W) : State := (gone s).modThread k fun t => t.lateG a.seq a.dead a.d v
      if a.store then (gone s).versionWrite k a.swm a.pa (leBytes a.n a.dat)
      else if a.n = 0 then ends s (BitVec.ofNat 64 a.dat)
      else
        match s.loadBytes k a.pa a.n a.swm with
        | .ok (s, l, bad) =>
          if bad then (gone s).raiseAt k (t.accFault a (s.poisonCause (a.pa / 64))) else ends s (a.value l)
        | .error (.peer kind pa) => s.askPeer k a.seq .ctl kind pa
        | .error (.device line) => (s.meetLine line).meetBursts line
        | .error _ => s

/-! ## The once-only log (R113, R114) -/

/-- How a once-only effect stands against the log: it has been performed already and its result is returned, it performs now, or the log
is full and a commit comes first. -/
inductive OnceAt where
  | replayed (s : State) (ret : Nat)
  | fresh
  | full
  deriving DecidableEq, Repr

/-- An effect entered in the log of a thread's task. -/
def State.onceLog (s : State) (k kind pa : Nat) (ops : List Nat) (ret : Nat) : State :=
  s.modTask (s.thread k).task fun t => { t with log := t.log ++ [⟨kind, pa, ops, ret, t.openMark⟩] }

/-- Match an effect against the oldest replay entry. A matched effect is entered in the log again, under the open mark (log 19). With no entry left
it waits while an atomic of the task that an abort has cut off may still have performed at a peer: its entry is to come (R427, R433). -/
def State.onceAt (s : State) (k kind pa : Nat) (ops : List Nat) : M OnceAt :=
  match s.taskOf (s.thread k).task with
  | none => .ok .fresh
  | some t =>
    match t.replay with
    | e :: rest =>
      if e.kind = kind ∧ e.pa = pa ∧ e.ops = ops then
        .ok (.replayed ((s.modTask t.uid fun t => { t with replay := rest }).onceLog k kind pa ops e.ret) e.ret)
      else raise cReplayMismatch 0 (e.kind * 2 ^ 56 + e.pa % 2 ^ 52)
    | [] =>
      if s.peers.any (·.orphan t.uid) then waitFor .performed
      else .ok (if t.log.length ≥ 256 then .full else .fresh)

/-! ## Atomic steps at home (R103, R117) -/

/-- The bytes that an atomic step reads at home: it waits while home holds the write back (R192), and poison is an error of the unit that
asked (R100, R337). What the thread reads from copies of the line is as new from then on (R107). -/
def State.atomicRead (s : State) (pa n : Nat) : M (State × Nat) := do
  if (s.writeAddr pa).isNone then waitFor .performed
  else
    let (s, l, bad) ← s.unitBytes pa n
    if bad then .error (.cause (s.poisonCause (pa / 64))) else .ok (s.renewLine s.me (pa / 64), leNat l)

/-! ## Barrier objects (R122, R227) -/

/-- Word 0 of a barrier object after an addition of `n`. -/
def barStep (w0 w1 n : Nat) : Nat :=
  let ph := w0 / 2 ^ 63 % 2
  let a := w0 % 2 ^ 63 + n
  let e := w1 % 2 ^ 63
  if e = 0 then (1 - ph) * 2 ^ 63
  else if a ≥ e then (1 - ph) * 2 ^ 63 + min (a - e) (2 ^ 63 - 1)
  else ph * 2 ^ 63 + min a (2 ^ 63 - 1)

/-- The addition at home, as one atomic step; the reserved bit of the second word is left as it is. -/
def State.barAddAt (s : State) (pa n : Nat) : State :=
  s.atomicWrite pa (leBytes 8 (barStep (s.homeNat pa 8) (s.homeNat (pa + 8) 8) n))

/-- An engine's addition: a poisoned object is left as it is, counted and posted, for a stack with its pseudo-channel (R122, R164). -/
def State.barrierAdd (s : State) (pa n : Nat) : State :=
  if s.isPoison (pa / 64) then
    match s.homeOf pa with
    | .lp io => (s.countErr (errPoison (8 + io))).postPoison (8 + io) 0 12 (pa / 64 * 64)
    | .die d => (s.countErr (errPoison d)).postPoison (10 + d) (bits (s.homeAddr pa) 13 8) 11 (pa / 64 * 64)
    | _ => (s.countErr (errPoison 8)).postPoison 8 0 3 (pa / 64 * 64)
  else s.barAddAt pa n

/-! ## The scratchpad (R73 to R79) -/

/-- Bytes of a core's scratchpad as a word reads them; a poisoned line is an uncorrectable error (R96, R100). -/
def State.spadRead (s : State) (k o n : Nat) : M (State × List Byte) := do
  let core := thrCore k
  match (linesOf o n).find? fun l => (s.core core).spadPoison.contains l with
  | some l => raise cUncorrectable 0 (l * 64)
  | none =>
    let s ← (if s.latent.isEmpty then .ok s else s.symRead 0 core o (o + n) : M State)
    .ok (s, memBytes (s.core core).spad o n)

/-- Bytes of the scratchpad as they stand, without an access. -/
def State.spadPeek (s : State) (k o n : Nat) : List Byte := memBytes (s.core (thrCore k)).spad o n

/-- A write into the guard span of a tile clears its whole mark (R354). -/
def State.touchGuard (s : State) (core o n : Nat) : State :=
  let hit (a : AccSlot) : Bool := a.whole && a.guard.any fun g => g.1 == core && decide (o < g.2.2 + 1 ∧ g.2.1 < o + n)
  let cl := s.cluster (coreCluster core)
  if (List.range 8).any fun n => hit (cl.slotAt n) then
    s.setCluster (coreCluster core) { cl with acc := cl.acc.map fun a => if hit a then { a with whole := false } else a }
  else s

/-- Bytes written into a core's scratchpad; a line overwritten whole loses its poison (R100). -/
def State.spadWrite (s : State) (k o : Nat) (data : List Byte) : State :=
  let core := thrCore k
  let whole := (linesOf o data.length).filter fun l => decide (o ≤ l * 64 ∧ l * 64 + 64 ≤ o + data.length)
  let s := s.modCore core fun c => { c with
    spad := memPut c.spad o data
    spadPoison := if c.spadPoison.isEmpty then [] else c.spadPoison.filter fun l => !whole.contains l }
  let s := if s.latent.isEmpty then s else whole.foldl (fun s l => s.symWrite 0 core (l * 64) (l * 64 + 64)) s
  s.touchGuard core o data.length

/-- The lock bit of the line at an offset: bank and H (R77). -/
def lockBit (o : Nat) : Nat :=
  let h := bits o 13 11 ^^^ bits o 16 14 ^^^ bits o 19 17 ^^^ bits o 20 20
  bits o 10 6 * 8 + h

/-- The lock bits of a range of lines. -/
def lockBits (o n : Nat) : List Nat := (linesOf o n).map fun l => lockBit (l * 64)

/-- May the fifth port write a range: no lock bit of it is held (R77). -/
def Thread.mayFill (t : Thread) (o n : Nat) : Bool := t.locks.isEmpty || (lockBits o n).all fun b => !t.locks.contains b

/-! ## Queue heads (R37, R142, R145) -/

/-- Bytes of an element. -/
def QHead.ebytes (b : QHead) : Nat := 2 ^ b.esz

/-- A slot-ring consumer's progress: every slot wholly consumed adds 1 to CONS at home (R145 step 3). -/
def State.consAdvance (s : State) (k q : Nat) : Nat → State
  | 0 => s
  | fuel + 1 =>
    let b := vget (s.thread k).q q QHead.unbound
    match b.sub with
    | none => s
    | some r =>
      let per := r.ssize * 64 / b.ebytes
      if per = 0 ∨ r.eaten < per ∨ r.done = r.next then s
      else
        let cons := s.homeNat (r.pa + 8) 8
        let s := s.atomicWrite (r.pa + 8) (leBytes 8 ((cons + 1) % 2 ^ 64))
        let b1 := { b with sub := some { r with done := (r.done + 1) % 2 ^ 64, eaten := r.eaten - per } }
        (s.modThread k fun t => { t with q := vset t.q q b1 }).consAdvance k q fuel

/-- Elements popped from a queue head, in order; the reader waits until they have arrived. An unbound queue head is illegal (R37). -/
def State.popQ (s : State) (k q n : Nat) : M (State × List W) := do
  let b := vget (s.thread k).q q QHead.unbound
  requireLegal (b.kind != 0)
  if b.elems.length < n then waitFor .queueHead
  else
    let b1 := { b with elems := b.elems.drop n, sub := b.sub.map fun r => { r with eaten := r.eaten + n } }
    let s := s.modThread k fun t => { t with q := vset t.q q b1 }
    .ok (s.consAdvance k q (n + 1), b.elems.take n)

/-- QSTAT of a binding (R37). -/
def QHead.stat (b : QHead) : W :=
  BitVec.ofNat 64 (b.kind * 2 ^ 60 ||| b.esz * 2 ^ 58 ||| min b.elems.length 65535 * 2 ^ 32 ||| (b.depth % 65536) * 2 ^ 16)

/-- Elements of a byte list. -/
def toElems (esz : Nat) : Nat → List Byte → List W
  | 0, _ => []
  | n + 1, l => BitVec.ofNat 64 (leNat (l.take (2 ^ esz))) :: toElems esz n (l.drop (2 ^ esz))

end Sys2Proof.Machine
end

