-- ==== Sys2Proof/Machine/Fetch.lean ====
section
/-! DEFINITION. What a step does around the meaning of an instruction: whose turn it is, fetch, the splitter's checks, the heads of the
command queues, and the passing of time (R21, R99, R132 to R134, R200, R259, R261, R428, R439). -/

namespace Sys2Proof.Machine

open Sys2Proof

/-! ## Time -/

/-- May a thread's sequencers act: it holds the active plane of a powered core, is not halted, and neither a freeze (R99), nor a clock
hop (R200), nor a fill of the shadow plane by itself (R21) holds it. Agate's thread runs at STAGE 4. -/
def State.canAct (s : State) (k : Nat) : Bool :=
  let t := s.thread k
  let c := s.core (thrCore k)
  let cl := s.cluster (thrCluster k)
  if k = agateThr then t.running && !t.halted && s.boot.stage == 4
  else t.running && !t.halted && s.isActive k && !c.off && c.freezes == 0 && (cl.hopTo.isNone || cl.hopAborted)
    && (s.taskOf t.task).all (·.started)

/-- Does watchdog time stand still for a thread (R439). -/
def State.waitPaused (s : State) (k : Nat) : Bool :=
  let t := s.thread k
  s.ring.speed == 5 || s.sched.suspended || t.idleUntil.isSome || decide (vget s.sched.grades t.eclass 0 ≥ 2)

/-- A wait begun later by `dt`. -/
def Wait.shift (dt : Nat) (w : Wait) : Wait := { w with since := w.since + dt }

/-- Time passes: what home holds performs when it can (R192), paused waits move with it (R439), and the step's turn and its free values are spent (log 4). -/
def State.elapse (dt : Nat) (s0 : State) : State :=
  let s := s0.landHeld
  let shift (k : Nat) (t : Thread) : Thread :=
    if s.waitPaused k then
      { t with
        waitK := t.waitK.map (Wait.shift dt), waitL := t.waitL.map (Wait.shift dt)
        waitC := t.waitC.map (Wait.shift dt), waitS := t.waitS.map (Wait.shift dt) }
    else t
  { s with now := s.now + dt, fresh := s.fresh + 64, cur := none, thr := s.thr.map fun e => (e.1, shift e.1 e.2) }

/-! ## Fetch (R259, R428) -/

/-- What a fetch answers. -/
inductive Fetched where
  | word (w : W32)
  | peer (pa : Nat)
  | waits
  | fails (c : Cause)
  deriving DecidableEq, Repr

/-- The word at a physical address as fetch reads it: at home, where it waits for the memory devices as every read does (R87, R88, R90), or
from the copy of a peer's line once the die holds one. -/
def State.fetchAt (s : State) (k pa0 : Nat) : State × Fetched :=
  let pa := s.localPa pa0
  let line := pa / 64
  if s.atPeer line then
    match (s.die (thrDie k)).llc.find? fun e => e.line == line && !e.home with
    | some e => (s, if e.poison then .fails (s.poisonCause line)
        else .word (BitVec.ofNat 32 (leNat (((lineBytes e.dat).drop (pa % 64)).take 4))))
    | none => (s, .peer (line * 64))
  else
    match s.deviceRead line with
    | .error e => (s.readWaits e, .waits)
    | .ok s => (s, if s.isPoison line then .fails (s.poisonCause line) else .word (BitVec.ofNat 32 (s.homeNat pa 4)))

/-- Fetch a word for a thread through its context's translation, with the RD right; a failing walk arms its monitor. Agate's
thread fetches its routine. -/
def State.fetch (s : State) (k : Nat) : State × Fetched :=
  let va := (s.thread k).pc
  let c : Cause := ⟨cTranslation, 1, va % 2 ^ 57⟩
  if k = agateThr then (s, match agateFetch va with | some w => .word w | none => .fails c)
  else
  match s.tlbHit k va rightRD with
  | some e => (s.tlbFill (thrCore k) e).fetchAt k (e.frame * 4096 + va % pageBytes e.psz)
  | none =>
    match s.walkMeet (s.thrCtx k) va with
    | .error e => (s.readWaits e, .waits)
    | .ok s =>
    match s.walk (s.thrCtx k) va with
    | .leaf e line =>
      let s := s.tlbFill (thrCore k) e
      if rightsOk e rightRD (s.thread k).sys va then s.fetchAt k (e.frame * 4096 + va % pageBytes e.psz)
      else (s.armMonitor (thrDie k) line (s.thread k).task, .fails c)
    | .invalid none => (s, .fails c)
    | .invalid (some line) => (s.armMonitor (thrDie k) line (s.thread k).task, .fails c)
    | .poisoned line => (s.walkPoison (thrDie k) line, .fails ⟨cUncorrectable, 5, line * 64⟩)

/-! ## Errors of the core's own memories (R96, R99, R430) -/

/-- A latent error of the register files, the queue RAM, the token counters, the loop buffers or the retained windows is met when the core
next issues: a correction freezes it, an uncorrectable error takes its path; a lost window is marked. -/
def State.secdedHit (s : State) (k : Nat) : Option State :=
  let core := thrCore k
  let mine (l : Latent) : Bool := decide (6 ≤ l.str ∧ l.str ≤ 10) && l.unit == core
  match s.latent.find? mine with
  | none => none
  | some l =>
    let s := { s with latent := s.latent.erase l }
    if l.kind = 0 then some (s.freeze core l.str l.loc)
    else if l.str = 10 then
      some (s.modThread k fun t =>
        match bits l.loc 9 8 with
        | 0 => { t with lostL := true }
        | 1 => { t with lostC := true }
        | _ => { t with lostS := true })
    else some (s.raiseAt k ((s.thread k).ctlFault .control ⟨cUncorrectable, l.str, l.loc⟩))

/-! ## What a turn comes to -/

/-- What a step does before it executes: nothing further, or an instruction. -/
inductive Prep where
  | move (s : State)
  | run (i : Instr) (s : State)
  deriving DecidableEq, Repr

/-- A correction that is found while a core is frozen: it adds a freeze to those still to end (R99). -/
def State.frozenHit (s : State) (k : Nat) : State :=
  match (if s.frozen k then s.latent.find? fun l => l.kind == 0 && decide (6 ≤ l.str ∧ l.str ≤ 10) && l.unit == thrCore k else none) with
  | none => s
  | some l => { s with latent := s.latent.erase l }.freeze (thrCore k) l.str l.loc

/-- The words that Agate executes: the control words but for XLATE, and five system words. -/
def agateWord (i : Instr) (w : W32) : Bool :=
  match i with
  | .xlate _ _ _ _ _ => false
  | .rdtime _ => true
  | .fence _ _ => true
  | .idle _ => true
  | .trap _ _ _ => true
  | .trapret => true
  | _ => wordEng w == some .control

/-- The splitter's checks of a unit (R267); Agate executes its own words alone (R465). -/
def unitOf (k : Nat) (pfx : List W32) (w : W32) : Except Nat (Instr × Pfx) :=
  match checkUnit pfx w with
  | .error p => .error p
  | .ok r => if k = agateThr ∧ agateWord r.1 w = false then .error pfx.length else .ok r

/-- The splitter takes the next word of a thread (R132, R261); at a boundary with a forced save or a persist point due it takes that first
(R127, R434), and so it does before a trap that falls at the same instant (R438). A REP unit that comes back with no repeat left is over. -/
def prepFetch (k : Nat) (s : State) : Prep :=
  let t := s.thread k
  if s.canAct k && t.saveStop s.now && s.saveReady k then .move (s.takeSave k)
  else if s.canAct k && t.trapPend.isSome then .move (s.settleTrap k)
  else if s.canAct k && t.pointDue s.now then .move (s.takePending k)
  else if !s.canAct k || t.heldByCommit .ctl || t.idleUntil.isSome && t.ph.stage = 0 || t.saveStop s.now then .move (s.frozenHit k)
  else
  match s.secdedHit k with
  | some s => .move s
  | none =>
    match s.fetch k with
    | (s, .waits) => .move s
    | (s, .peer pa) => .move (s.askPeer k t.seq .ctl 0 pa)
    | (s, .fails c) => .move ({ s with focus := some k }.raiseAt k (t.ctlFault .control c))
    | (s, .word w) =>
      let s := { s with focus := some k, cur := none }
      if isPrefix w then
        match decode w with
        | .ok i => .run i s
        | .error _ => .move (s.raiseAt k (t.ctlFault .control ⟨cIllegalOp, 0, t.pfx.length * 2 ^ 32 + w.toNat⟩))
      else
        match unitOf k t.pfx w with
        | .error p =>
          .move (s.raiseAt k (t.ctlFault .control ⟨cIllegalOp, 0, p * 2 ^ 32 + ((t.pfx ++ [w]).getD p w).toNat⟩))
        | .ok (i, _) =>
          if t.repOver then .move (s.setThread k { t.pastUnit with repState := t.repEnd t.pfx })
          else
          match wordEng w with
          | some .control | some .system =>
            let r := t.repNow
            match decode (repWord w r.2.1 r.2.2 r.1) with
            | .ok j => .run j s
            | .error _ => .move (s.raiseAt k (t.ctlFault .control ⟨cIllegalOp, 0, t.pfx.length * 2 ^ 32 + w.toNat⟩))
          | _ => .run i s

/-- May a sequencer take its next unit: no commit of another sequencer holds it, and no persist point or forced save that is due, unless a word
or a replay is in the middle, which comes to its end first (R110, R127, R318). -/
def Thread.mayGo (t : Thread) (q : Sq) (now : Nat) : Bool :=
  !t.heldByCommit q && (!(t.pointDue now || t.saveStop now) || !t.wordsWhole)

/-- An engine sequencer of a thread takes its next unit: a marker passes once the accesses of its path have performed (R105), a loop of
TRIP 0 captures, a unit issues. A thread that stops for a persist point or a save issues only until no word is in the middle (R127, R318).
A REP that steps an even-only field runs until a repeat breaks the field's rule (R269; log 166). -/
def prepSeq (k : Nat) (q : Sq) (s : State) : Prep :=
  let t := s.thread k
  if k = agateThr || !s.canAct k || !t.mayGo q s.now then .move s
  else
    match t.skipCapture q with
    | some t1 => .move (s.setThread k t1)
    | none =>
      match t.nextUnit q with
      | some (u, loop) =>
        if t.mayIssue q u loop then
          match decode (repWord u.word u.n u.mask u.rep) with
          | .ok i => .run i { s with focus := some k, cur := some ⟨q, loop, u⟩ }
          | .error _ =>
            .move (s.raiseAt k (t.engFault ((wordEng u.word).getD .load) q loop u ⟨cIllegalOp, 0, u.pfx.length * 2 ^ 32 + u.word.toNat⟩))
        else .move (s.settleTrap k)
      | none =>
        match (t.queue q).head? with
        | some u =>
          if u.marker && t.markerReady q then
            .move (s.setThread k (t.setQueue q ((t.queue q).drop 1)))
          else .move s
        | none => .move (s.settleTrap k)

/-- Does a sequencer have something to issue and no wait on record. -/
def Thread.eager (t : Thread) (now : Nat) (q : Sq) : Bool :=
  (t.wait q).isNone && t.mayGo q now && ((t.nextUnit q).isSome || (t.skipCapture q).isSome || t.markerReady q)

/-- What the acting thread has in flight ends, one thing at a time, when no turn is listed; none when nothing is in flight or a sequencer
can go on. -/
def State.defaultEnd (s : State) (k : Nat) : Option State :=
  let t := s.thread k
  let d := thrDie k
  if !t.ctlAcc.isEmpty then some (s.ctlPerform k 0)
  else if !t.settles.isEmpty then some (s.doSettle k 0)
  else if !(s.die d).walks.isEmpty then some (s.doWalkComplete d 0)
  else if !t.qflights.isEmpty then some (s.queueArrive k 0)
  else if !t.flights.isEmpty then some (s.wordFinish k 0)
  else none

/-- Write-throughs and images of the acting thread's die, when its sequencers have nothing to issue. -/
def State.defaultLate (s : State) (k : Nat) : Option State :=
  let d := thrDie k
  if !(s.die d).wts.isEmpty then some (s.writeThrough d 0)
  else if !(s.die d).imgs.isEmpty then some (s.imageComplete d 0)
  else
    match (s.thread k).ph.acks ++ (s.thread k).phS.acks with
    | a :: _ => some (s.flushAck k a)
    | [] => none

/-- What a step comes to when no turn is listed: what is in flight ends first, then an engine sequencer that does not wait issues, then
what the die has pending, then the splitter goes on; a control word that waits lets the waiting engines try again in between. -/
def prepDefault (s : State) : Prep :=
  match s.focus with
  | none => .move s
  | some k =>
    let t := s.thread k
    match s.defaultEnd k with
    | some s => .move s
    | none =>
      match (if k = agateThr then none else engSqs.find? fun q => t.eager s.now q) with
      | some q => prepSeq k q s
      | none =>
        let still := t.waitK.isSome || t.phS.stage != 0
        match (if still then s.defaultLate k else none) with
        | some s => .move s
        | none =>
          match (if still && s.now % 2 == 0 then engSqs.find? fun q => (t.wait q).isSome else none) with
          | some q => prepSeq k q s
          | none => prepFetch k s

/-- What the head of the turns comes to, and the device time it takes. -/
def prepare (s : State) : Prep × Nat :=
  match s.turns with
  | [] => (prepDefault s, Config.tick)
  | x :: r =>
    let s := { s with turns := r }
    match x with
    | .fetch k dt => (prepFetch k s, dt)
    | .seq k q dt => (prepSeq k q s, dt)
    | .event i dt => (.run i { s with cur := none }, dt)

/-! ## Placing an instruction where the next step fetches it -/

/-- The registers of thread 0 of a module on which nothing has been launched, as its launch leaves them, with a page at address 0. -/
def State.withThread (s : State) : State :=
  let e : TlbE := ⟨0, 0, 0, 0, 7, false, false⟩
  let task : Task :=
    { (s.newTask 0 ⟨0, 0, 0, 1, 0, 0, [], 0, 16, 0, false, none, 0, []⟩ 0 0 false) with state := 1, threads := [0], started := true, vbudget := 65536 }
  let s := { s with focus := some 0, tasks := s.tasks ++ [task], uids := s.uids + 1 }
  let s := s.modCore 0 fun c => { c with off := false, active := 0, tlb := [e] }
  let s := s.modCluster 0 fun c => { c with on := true }
  let s := s.modDie 0 fun d => { d with on := true }
  s.setThread 0 { Thread.blank with running := true, task := task.uid }

/-- Is a thread there whose next word can be fetched. -/
def State.fetchable (s : State) : Bool :=
  match s.focus with
  | none => false
  | some k => s.canAct k && (s.tlbHit k (s.thread k).pc rightRD).isSome

/-- Store a word where the thread that acts fetches its next one, with nothing before it. -/
def State.placeWord (s : State) (w : W32) : State :=
  let s := if s.fetchable then s else s.withThread
  let k := s.me
  let t := s.thread k
  match s.tlbHit k t.pc rightRD with
  | none => s
  | some e =>
    let pa := e.frame * 4096 + t.pc % pageBytes e.psz
    let s := { s with mem := memPut s.mem (s.homeAddr pa) (leBytes 4 w.toNat), turns := [.fetch k Config.tick], cur := none }
    s.setThread k { t with pfx := [], repDone := 0, trapPend := none, idleUntil := none, waitK := none }

end Sys2Proof.Machine
end

