-- ==== Sys2Proof/Machine/Operands.lean ====
section
/-! DEFINITION. The operand forms: memory operands of control and engine words, index registers, regions and element accesses of the
scratchpad (R31 to R33, R74, R262, R265, R316). -/

namespace Sys2Proof.Machine

open Sys2Proof

/-- The word that encodes an instruction. -/
def wordOf (i : Instr) : W32 := (encode i).getD 0#32

/-! ## Control words -/

/-- A control word that names a handle waits until every earlier XLATE of it has settled (R282). -/
def ctlHandle (t : Thread) (h : Nat) : M Thread := if t.handleBusy h then waitFor .performed else .ok t

/-- The offset of a C-M operand (R262, R297), with the index register freed when its last-use bit is set. -/
def cmOfs (s : State) (t : Thread) (k : BitVec 1) (o : BitVec 10) : M (Nat × Thread) :=
  if k = 0#1 then .ok (immU t.pfx 10 o.toNat, t)
  else do
    let gi := bits o.toNat 9 5
    let v ← rdG s t gi 2
    .ok (v.toNat, freeG t (o.extractLsb' 4 1) gi)

/-! ## Engine words -/

/-- The x register of an engine memory operand, and the thread with it freed when LX is set (R265, R316). -/
def memX (s : State) (t : Thread) (ld : Bool) (x : BitVec 3) (y : BitVec 1) (k : Nat) : M (Nat × Thread) := do
  let v ← rdX s t ld x.toNat k
  .ok (v.toNat, freeX t ld y x.toNat)

/-- Bytes of a block transfer (R265). -/
def blockBytes (z : BitVec 3) : Nat := 64 * 2 ^ z.toNat

/-! ## Scale tiles (R241, R242) -/

/-- Is an entry of a scale tile legal for a scale kind and an element format. -/
def scaleEntryOk (sck fmt v : Nat) : Bool :=
  if sck = 2 then v / 256 == 0
  else
    let zp := bits v 23 16
    v / 2 ^ 24 == 0 &&
      if sck = 3 then zp == 0
      else if fmt = 6 then decide (zp ≤ 7 ∨ 248 ≤ zp)
      else if fmt = 8 then decide (zp ≤ 15)
      else true

/-- The first failing entry of a scale tile given as bytes. -/
def scaleFail (sck fmt : Nat) (l : List Byte) : Option Nat :=
  let rec go : Nat → Nat → List Byte → Option Nat
    | 0, _, _ => none
    | fuel + 1, e, l => if scaleEntryOk sck fmt (leNat (l.take 4)) then go fuel (e + 1) (l.drop 4) else some e
  go 1024 0 l

/-- Scale kind and element format that LDSC's MOD names (R332). -/
def ldscKind : Nat → Option (Nat × Nat)
  | 1 => some (1, 5)
  | 2 => some (1, 6)
  | 3 => some (1, 7)
  | 4 => some (1, 8)
  | 5 => some (2, 0)
  | 6 => some (3, 0)
  | _ => none

/-! ## Elements of queue heads, and ranges of the scratchpad, as engine words move them (R141, R142, R316) -/

/-- Elements that a transfer stopped at an element boundary has delivered already (R142, R421). -/
def Thread.doneOf (t : Thread) (u : QUnit) : Nat :=
  ((t.stopped.find? fun x => x.1.pc == u.pc && x.1.word == u.word && x.1.pfx == u.pfx).map (·.2)).getD 0

/-- Record how many elements a unit has delivered; 0 forgets it. -/
def Thread.setDone (t : Thread) (u : QUnit) (n : Nat) : Thread :=
  let rest := t.stopped.filter fun x => !(x.1.pc == u.pc && x.1.word == u.word && x.1.pfx == u.pfx)
  { t with stopped := if n = 0 then rest else rest ++ [(u, n)] }

/-- Deliver the elements of a word as space allows; `done` is what the word answers once the last of them is on its way. -/
def deliver (s : State) (u : QUnit) (q : Nat) (vals : List W) (done : State → EngRes) : M EngRes :=
  let t := s.th
  let n0 := t.doneOf u
  let b := vget t.q q QHead.unbound
  let rest := vals.drop n0
  if rest.length ≤ b.space then .ok (done (s.setTh ((t.sendQ q rest u.seq).setDone u 0)))
  else if b.space = 0 then waitFor .queueSpace
  else
    .ok { s := s.setTh ((t.sendQ q (rest.take b.space) u.seq).setDone u (n0 + b.space)), more := some .queueSpace, started := true }

/-- The first poisoned home line of a range. -/
def State.firstPoison (s : State) (pa n : Nat) : Nat := ((linesOf pa n).find? s.isPoison).getD (pa / 64)

/-- Bytes that an engine word loads; a poisoned line is an uncorrectable error that the engine consumes (R100). -/
def State.loadData (s : State) (pa n : Nat) (swm : Bool) : M (State × List Byte) := do
  let (s, l, bad) ← s.loadBytes s.me pa n swm
  if bad then .error (.cause (s.poisonCause (s.firstPoison pa n))) else .ok (s, l)

/-- A word of the load sequencer waits while lock bits that the thread holds cover the range that it fills (R77, R326). -/
def lockWait (t : Thread) (o n : Nat) : M PUnit := if t.mayFill o n then .ok ⟨⟩ else waitFor .lock

/-- The register of a post-increment, when the word asks for one (R323). -/
def postInc (t : Thread) (ld : Bool) (i : BitVec 1) (x : BitVec 3) (o n : Nat) : Thread :=
  if i = 1#1 then wrX t ld x.toNat (BitVec.ofNat 64 (o + n)) else t

/-! ## Words that go on element by element (R324) -/

/-- What one element answers: the state after it, with a cause that stops the word there. -/
abbrev Elem := M (State × Option Cause)

/-- Run the elements from `i` on; a wait after some progress keeps what has been done, under the word's count. -/
def runElems (u : QUnit) (one : Nat → State → Elem) (fin : State → EngRes) : Nat → Nat → Bool → State → M EngRes
  | 0, _, _, s => .ok (fin (s.setTh (s.th.setDone u 0)))
  | fuel + 1, i, some_, s =>
    match one i s with
    | .ok (s, none) => runElems u one fin fuel (i + 1) true s
    | .ok (s, some c) => .ok { fin (s.setTh (s.th.setDone u 0)) with late := some c }
    | .error (.wait kd) => if some_ then .ok { s := s.setTh (s.th.setDone u i), more := some kd, started := true } else waitFor kd
    | .error (.device line) =>
      if some_ then .ok { s := s.setTh (s.th.setDone u i), more := some .performed, started := true } else .error (.device line)
    | .error (.peer kind pa) =>
      if some_ then .ok { s := s.setTh (s.th.setDone u i), more := some .performed, started := true } else .error (.peer kind pa)
    | .error e => .error e

/-- TRAP_INFO of a check that failed at element `i` (R324). -/
def atElem (c : Cause) (i : Nat) : Cause := { c with info := c.info % 2 ^ 32 + i * 2 ^ 32 + c.info / 2 ^ 48 * 2 ^ 48 }

/-! ## Slot-ring descriptors (R144) -/

/-- SLOTS and SSIZE of a descriptor whose ring lies in one page of HBM4; `room` is what the page holds from the descriptor on. -/
def State.ringDesc (s : State) (pa room : Nat) : Option (Nat × Nat) :=
  let w := s.homeNat (pa + 16) 8
  let slots := bits w 27 16
  let ssize := bits w 9 0
  let inHbm := match s.homeOf pa with
    | .die _ => true
    | _ => false
  if inHbm && bits w 63 28 == 0 && bits w 15 10 == 0 && s.homeNat (pa + 24) 40 == 0 && slots != 0 && ssize != 0
      && decide (64 + slots * ssize * 64 ≤ room) then some (slots, ssize)
  else none

/-- The subscriptions of every context: those of running threads and those that images hold (R145, R147). -/
def State.allSubs (s : State) : List RingSub :=
  let of (t : Thread) : List RingSub := t.q.toList.filterMap (·.sub)
  (s.thr.flatMap fun e => if e.2.running then of e.2 else [])
    ++ s.tasks.flatMap fun t => if t.threads.isEmpty then (t.saved ++ t.kept.map (·.2)).flatMap fun i => (i.t.map of).getD [] else []

/-! ## Regions (R32, R33, R74, R235, R371) -/

/-- A region: its base, element stride, post-update step and mode. -/
structure Rgn where
  base : Nat
  stride : Int
  step : Int
  mode : Nat
  deriving DecidableEq, Repr

/-- The fields of a region register. -/
def Rgn.of (a : W) : Rgn :=
  let x := a.toNat
  { base := bits x 20 0, stride := sext 22 (bits x 45 24), step := sext 16 (bits x 61 46), mode := bits x 63 62 }

/-- What a word takes from a region: a count of elements, their bytes, and whether two share a byte. -/
structure Span where
  n : Nat
  e : Nat
  nib : Bool
  deriving DecidableEq, Repr

/-- The span of `n` elements of a format (R235). -/
def Span.ofFmt (n fmt : Nat) : Span := { n := n, e := if fmtBits fmt = 4 then 1 else fmtBits fmt / 8, nib := fmtBits fmt == 4 }

/-- Byte offsets of the elements of a region; of the bytes that elements share. -/
def Rgn.offs (r : Rgn) (p : Span) : List Int :=
  (List.range (if p.nib then (p.n + 1) / 2 else p.n)).map fun (i : Nat) => (r.base : Int) + (i : Int) * r.stride

/-- An integer as TRAP_INFO holds it. -/
def infoOf (x : Int) : Nat := (x % (2 ^ 64 : Int)).toNat

/-- Every element aligned, then every byte within the scratchpad (R33, R74, R372). -/
def checkOffs (l : List Int) (e : Nat) : M PUnit :=
  match l.find? fun o => o % (e : Int) != 0 with
  | some o => raise cMisaligned 0 (infoOf o)
  | none =>
    match l.find? fun o => decide (o < 0 ∨ o + (e : Int) > 2 ^ 21) with
    | some o => raise cRegionBounds 0 (infoOf o)
    | none => .ok ⟨⟩

/-- A region operand's register, checked; the region. -/
def regionOf (s : State) (t : Thread) (r k : Nat) : M Rgn := do
  let a ← rdA s t r k
  .ok (Rgn.of a)

/-- The values of elements as bytes of `e` at given offsets. -/
def State.readElems (s : State) (offs : List Int) (p : Span) : M (State × List Nat) := do
  let k := s.me
  let s ← (if s.latent.isEmpty && (s.core (thrCore k)).spadPoison.isEmpty then .ok s
    else offs.foldlM (fun s o => do
      let (s, _) ← s.spadRead k o.toNat p.e
      .ok s) s : M State)
  let sp := (s.core (thrCore k)).spad
  let v := offs.map fun o => memNat sp o.toNat p.e
  .ok (s, if p.nib then (v.flatMap fun b => [b % 16, b / 16]).take p.n else v)

/-- Write elements at given offsets in ascending order; the high nibble of a last odd byte stays (R371). -/
def State.writeElems (s : State) (p : Span) : List Int → List Nat → State
  | [], _ => s
  | _, [] => s
  | o :: offs, v :: r =>
    if p.nib then
      match r with
      | [] =>
        let old := memNat (s.core (thrCore s.me)).spad o.toNat 1
        s.spadWrite s.me o.toNat (leBytes 1 (old / 16 * 16 + v % 16))
      | w :: r => (s.spadWrite s.me o.toNat (leBytes 1 (w % 16 * 16 + v % 16))).writeElems p offs r
    else (s.spadWrite s.me o.toNat (leBytes p.e v)).writeElems p offs r

/-- What a post-update gives: the new BASE, or the offending value (R33; which value that is: log 20), and whether the window wrapped, which
comes before the last test. -/
inductive PostUp where
  | ok (base : Nat) (wrap : Bool)
  | bad (v : Int) (wrap : Bool)
  deriving DecidableEq, Repr

/-- The low `w` bits of a number in reverse order. -/
def revBits (w x : Nat) : Nat := (List.range w).foldl (fun a i => a + (if bit x i then 2 ^ (w - 1 - i) else 0)) 0

/-- The post-update of a region register. -/
def postUp (a m : W) : PostUp :=
  let r := Rgn.of a
  let len := bits m.toNat 21 0
  let brw := bits m.toNat 26 22
  let fin (b : Int) (w : Bool) : PostUp := if 0 ≤ b ∧ b < 2 ^ 21 then .ok b.toNat w else .bad b w
  match r.mode with
  | 0 => fin (r.base + r.step) false
  | 2 =>
    let n := r.step.natAbs
    let e := Nat.log2 n
    if n = 0 ∨ 2 ^ e ≠ n then .bad r.step false
    else if brw = 0 ∨ e + brw > 21 then .bad brw false
    else
      let k := revBits brw (bits r.base (e + brw - 1) e)
      let v := revBits brw ((k + 1) % 2 ^ brw)
      .ok (r.base - bits r.base (e + brw - 1) e * 2 ^ e + v * 2 ^ e) false
  | _ =>
    if len = 0 ∨ len > 2 ^ 21 then .bad len false
    else
      let start := r.base - r.base % len
      let t : Int := (r.base : Int) - start + r.step
      fin (start + t % len) (r.mode == 3 && decide (t < 0 ∨ (len : Int) ≤ t))

/-- A circular wrap: WRAPS counts it, and WCB asks for a token to the control sequencer (R33). -/
def Thread.wrapOf (t : Thread) (r : Nat) (m : W) (wrap : Bool) : Thread × Nat :=
  if wrap then
    let w := min (bits m.toNat 63 48 + 1) 0xFFFF
    (wrM t r ((m &&& 0x0000FFFFFFFFFFFF#64) ||| BitVec.ofNat 64 (w * 2 ^ 48)), b01 (bit m.toNat 31))
  else (t, 0)

/-- A region register post-updated, which redefines it (R41): the thread, the tokens of a circular wrap, and a late cause, which leaves BASE
as it was. -/
def Thread.postUpdate (t : Thread) (r : Nat) (a m : W) : Thread × Nat × Option Cause :=
  match postUp a m with
  | .bad v wrap =>
    let (t, n) := t.wrapOf r m wrap
    (t, n, some ⟨cRegionBounds, 0, infoOf v⟩)
  | .ok b wrap =>
    let (t, n) := (wrA t r ((a &&& ~~~0x1FFFFF#64) ||| BitVec.ofNat 64 b)).wrapOf r m wrap
    (t, n, none)

/-- Post-update the regions of a word, each once; the registers are those read at issue. -/
def Thread.postAll (t : Thread) (l : List (Nat × W × W)) : Thread × Nat × Option Cause :=
  let r := l.foldl (fun (x : List Nat × Thread × Nat × Option Cause) e =>
    if x.1.contains e.1 then x
    else
      let (t, n, c) := x.2.1.postUpdate e.1 e.2.1 e.2.2
      (e.1 :: x.1, t, x.2.2.1 + n, x.2.2.2 <|> c)) ([], t, 0, none)
  r.2

/-! ## Loops (R274, R320, R366, R388) -/

/-- A loop word: its limits are checked at its issue, and its counter is set. -/
def loopBody (q : Sq) (n : BitVec 6) (c : BitVec 2) (i : BitVec 11) (u : QUnit) (st : State) : M EngRes := do
  let t := st.th
  let l := t.loop q
  let trip := immU u.pfx 11 i.toNat
  let opened := if l.isOpen then l.opened else []
  requireLegal (n != 0#6 && decide (trip ≤ 65535) && decide (opened.length < 4) && opened.all (fun r => r.lc != c.toNat)
    && opened.all (fun r => decide (n.toNat + (l.pos + 1) ≤ r.first + r.len)))
  .ok { s := st.setTh (t.setLc q c.toNat (mkLc trip 0)), later := false, loop := some ⟨0, n.toNat, c.toNat, trip⟩ }

end Sys2Proof.Machine
end

