-- ==== Sys2Proof/Machine/Csr.lean ====
section
/-! DEFINITION. The control and status registers: their values, their writes, and the words that read and write them (R38, R43 to R62,
R218 to R226, R313, R314). -/

namespace Sys2Proof.Machine

open Sys2Proof

/-! ## Values -/

/-- CURT_GRADE of a thread (R55). -/
def State.curtGrade (s : State) (t : Thread) : Nat :=
  (s.sched.evseq % 256) <<< 8 ||| (vget s.sched.pend t.eclass 0 % 4) <<< 2 ||| vget s.sched.grades t.eclass 0 % 4

/-- PREDS (R56): bit 0 reads 1. -/
def Thread.preds (t : Thread) : Nat := (t.p ||| 1#8).toNat

/-- LEASE_STATE of a cluster (R57). -/
def Cluster.leaseState (c : Cluster) : Nat :=
  c.waitq.toNat <<< 16 ||| b01 c.leaseHeld <<< 15 ||| (c.holder % 4) <<< 13 ||| b01 c.tileOpen <<< 12 ||| (c.tileSlot % 8) <<< 9
    ||| min c.words 64

/-- OPPOINT of a cluster (R58). -/
def Cluster.oppoint (c : Cluster) (vcode : Nat) : Nat :=
  (c.oprow % 256) <<< 12 ||| (vcode % 8) <<< 9 ||| (c.fcode % 8) <<< 6 ||| (c.bias % 8).toNat <<< 3

/-- VMIN of a die (R59). -/
def Die.vmin (d : Die) : Nat := (d.vminTime % 2 ^ 48) <<< 16 ||| d.vminMv % 4096

/-- The largest power cap, in mW (R198). -/
def capMax : Nat := 3400000

/-- The cap of a curve at device time `now`, and the index of its segment (R198). -/
def Curve.capAt (c : Curve) (now : Nat) : Nat × Nat :=
  let t := now - c.from_
  let i := ((List.range c.pts.length).filter fun i => decide ((c.pts.getD i (0, 0)).1 * 1000 ≤ t)).getLastD 0
  let a := c.pts.getD i (0, 0)
  match c.pts[i + 1]? with
  | none => (min a.2 capMax, i)
  | some b =>
    let w := (b.1 - a.1) * 1000
    let x := ((a.2 : Int) * w + ((b.2 : Int) - a.2) * (t - a.1 * 1000)) / w
    (min x.toNat capMax, i)

/-- The cap in force and its segment; the largest cap with no curve (R198). -/
def Sched.capNow (x : Sched) (now : Nat) : Nat × Nat :=
  match x.cur with
  | none => (capMax, 0)
  | some c => c.capAt now

/-- The cap that will be in force at a coming device time: a curve that waits and enters by then gives it (R197, R204). -/
def Sched.capAhead (x : Sched) (at_ : Nat) : Nat :=
  match x.wait with
  | some c => if c.from_ ≤ at_ then (c.capAt at_).1 else (x.capNow at_).1
  | none => (x.capNow at_).1

/-- BUDGET_STATE and CURVE_STATUS (R60). -/
def Sched.budgetState (x : Sched) (now : Nat) : Nat :=
  let c := x.capNow now
  (c.1 % 2 ^ 22) <<< 42 ||| b01 x.exempt <<< 41 ||| b01 x.inband <<< 40 ||| (c.2 % 256) <<< 32 ||| x.seq % 2 ^ 32
def Sched.curveStatus (x : Sched) : Nat :=
  (min x.refused 255) <<< 24 ||| (x.result % 256) <<< 8 ||| b01 x.wait.isSome <<< 1 ||| b01 x.cur.isSome

/-- RING_STATE (R61). -/
def Ring.state (r : Ring) : Nat :=
  (r.lap % 2 ^ 32) <<< 32 ||| (r.layer % 256) <<< 24 ||| b01 r.waiting.isSome <<< 16 ||| (r.speed % 8) <<< 13

/-- BOOT_STATUS (R62). -/
def Boot.status (b : Boot) : Nat :=
  (b.reason % 256) <<< 16 ||| (b.attempts % 256) <<< 8 ||| b01 b.minimal <<< 3 ||| b.stage % 8

/-- A permit counter's value (R224). -/
def Permit.value (p : Permit) : Nat := (p.cap % 4096) <<< 40 ||| (p.rate % 4096) <<< 16 ||| p.count % 4096

/-- Index of an energy accumulator by its counter number less 0x400 (R218). -/
def energyIndex (n : Nat) : Option Nat :=
  if n = 2 then some 0
  else if 0x10 ≤ n ∧ n ≤ 0x17 then some (1 + (n - 0x10))
  else if 0x18 ≤ n ∧ n ≤ 0x19 then some (9 + (n - 0x18))
  else if 0x20 ≤ n ∧ n ≤ 0x27 then some (11 + (n - 0x20))
  else if n = 0x28 then some 19
  else if n = 0x29 then some 20
  else none

/-- TASK_ENERGY of a task (R222). -/
def Task.energy (t : Task) : Nat := b01 t.ujSat <<< 63 ||| t.uj % 2 ^ 32

/-- A counter by selector, its number less 0x400 (R218); none for an unassigned number. -/
def State.counter (s : State) (k n : Nat) : Option W :=
  match energyIndex n with
  | some i => some (vget s.energy.acc i 0#64)
  | none =>
    if n = 0 then some (BitVec.ofNat 64 s.now)
    else if n = 1 then some (BitVec.ofNat 64 (((s.taskOf (s.thread k).task).map Task.energy).getD 0))
    else if 0x30 ≤ n ∧ n ≤ 0x33 then
      some (BitVec.ofNat 64 (vget (s.cluster (thrCluster k)).perm (n - 0x30) Permit.full).value)
    else none

/-- The value of a CSR as a thread reads it, Agate's own for its thread alone (R465); none for an unassigned number and for QPOP_n, whose read is an access (R38, R43). -/
def State.csrValue (s : State) (k n : Nat) : Option W :=
  let t := s.thread k
  let cl := s.cluster (thrCluster k)
  let d := s.die (thrDie k)
  let num (x : Nat) : Option W := some (BitVec.ofNat 64 x)
  if n = 0x000 then some (t.status.setWidth 64)
  else if n = 0x001 then some t.trapCause
  else if n = 0x002 then some t.trapPc
  else if n = 0x003 then some t.trapTask
  else if n = 0x004 then some t.trapInfo
  else if n = 0x005 then some (t.repState.setWidth 64)
  else if n = 0x006 then some t.handlerBase
  else if n = 0x008 then some (t.flags.setWidth 64)
  else if n = 0x009 then some (t.roundMode.setWidth 64)
  else if n = 0x00A then some (t.boundCtl.setWidth 64)
  else if n = 0x00B then some (t.dropSeed.setWidth 64)
  else if n = 0x00C then some (t.fmtBase.setWidth 64)
  else if n = 0x00D then num (s.curtGrade t)
  else if n = 0x00E then num t.preds
  else if 0x010 ≤ n ∧ n ≤ 0x01F then some ((vget t.ft (n - 0x010) 0#32).setWidth 64)
  else if 0x020 ≤ n ∧ n ≤ 0x02F then some (vget t.h (n - 0x020) 0#64)
  else if 0x030 ≤ n ∧ n ≤ 0x03F then some (vget t.q (n - 0x030) QHead.unbound).stat
  else if n = 0x100 then num cl.leaseState
  else if n = 0x101 then num (cl.oppoint d.vcode)
  else if n = 0x200 then num d.vmin
  else if n = 0x300 then num (s.sched.budgetState s.now)
  else if n = 0x301 then num s.sched.curveStatus
  else if n = 0x302 then num s.ring.state
  else if n = 0x303 then num s.boot.status
  else if 0x310 ≤ n ∧ n ≤ 0x317 then num (s.die (n - 0x310)).vmin
  else if 0x400 ≤ n ∧ n ≤ 0x4FF then s.counter k (n - 0x400)
  else if k = agateThr ∧ isAgateCsr n = true then num (s.agate.csr n)
  else none

/-- Is a number a QPOP_n. -/
def isQpop (n : Nat) : Bool := decide (0x040 ≤ n ∧ n ≤ 0x04F)

/-! ## Reads (R38, R313) -/

/-- The next element of a queue head, zero-extended into d (R38). -/
def qpopBody (d : BitVec 5) (q : Nat) (st : State) : M CtlRes := do
  let b := vget st.th.q q QHead.unbound
  require (b.kind != 0) cIllegalOp 0 (0x040 + q)
  let (s, l) ← st.popQ st.me q 1
  .ok { s := s.setTh (wrG s.th d.toNat (l.headD 0#64)) }

/-- RDCSR. -/
def rdcsrBody (d : BitVec 5) (c : BitVec 12) (st : State) : M CtlRes :=
  let n := immU st.th.pfx 12 c.toNat
  if isQpop n then qpopBody d (n - 0x040) st
  else
    match st.csrValue st.me n with
    | none => raise cIllegalOp 0 (n % 2 ^ 32)
    | some v => .ok { s := st.setTh (wrG st.th d.toNat v) }

/-- RDCSR (R313). -/
def execRdcsr (d : BitVec 5) (c : BitVec 12) (st : State) : Out :=
  ctl .control (isQpop (immU st.th.pfx 12 c.toNat)) (wordOf (.rdcsr d c)) (rdcsrBody d c) st

/-- RDCSR of QPOP_n (R38). -/
def execQpopRead (d : BitVec 5) (n : BitVec 4) (st : State) : Out :=
  ctl .control true (wordOf (.rdcsr d (BitVec.ofNat 12 (0x040 + n.toNat)))) (qpopBody d n.toNat) st

/-! ## Writes (R44, R314) -/

/-- Is a 32-bit FT entry free of reserved encodings (R54). -/
def ftLegal (v : Nat) : Bool :=
  decide (bits v 31 28 ≤ 8 ∧ bits v 27 24 ≤ 8 ∧ bits v 23 22 ≠ 3 ∧ bits v 18 16 ≤ 4 ∧ bits v 15 12 ≤ 8)
    && !(bits v 21 20 == 2 && bits v 23 22 != 0)

/-- The writable CSRs of a thread: the RW bits, and whether the register may be written at INH = 1 only. None for a register without an
RW field. -/
def csrMask (n : Nat) : Option (W × Bool) :=
  if n = 0x000 then some (0x0000000000C00000#64, false)
  else if n = 0x001 then some (0xFFFFFFFF00000000#64, true)
  else if n = 0x002 then some (0x01FFFFFFFFFFFFFC#64, true)
  else if n = 0x005 then some (0x00000000803F073F#64, true)
  else if n = 0x008 then some (0x000000000000007F#64, false)
  else if n = 0x009 then some (0x0000000000000007#64, false)
  else if n = 0x00A then some (0x0000000000000007#64, false)
  else if n = 0x00B then some (0x00000000FFFFFFFF#64, false)
  else if n = 0x00C then some (0x000000000000003F#64, false)
  else if n = 0x00E then some (0x00000000000000FE#64, false)
  else if 0x010 ≤ n ∧ n ≤ 0x01F then some (0x00000000FFFFF000#64, false)
  else none

/-- Does a value place no reserved encoding in an RW field. -/
def csrLegal (n : Nat) (v : W) : Bool :=
  if n = 0x009 then decide (v.toNat % 8 ≤ 4)
  else if n = 0x00A then decide (v.toNat % 4 ≠ 3)
  else if 0x010 ≤ n ∧ n ≤ 0x01F then ftLegal (v.toNat % 2 ^ 32)
  else true

/-- A thread-scope CSR replaced. -/
def Thread.putCsr (t : Thread) (n : Nat) (v : W) : Thread :=
  let w : W32 := v.setWidth 32
  if n = 0x000 then { t with status := w }
  else if n = 0x001 then { t with trapCause := v }
  else if n = 0x002 then { t with trapPc := v }
  else if n = 0x005 then { t with repState := w }
  else if n = 0x008 then { t with flags := w }
  else if n = 0x009 then { t with roundMode := w }
  else if n = 0x00A then { t with boundCtl := w }
  else if n = 0x00B then { t with dropSeed := w }
  else if n = 0x00C then { t with fmtBase := w }
  else if n = 0x00E then { t with p := (v.setWidth 8 ||| 1#8) }
  else if 0x010 ≤ n ∧ n ≤ 0x01F then { t with ft := vset t.ft (n - 0x010) w }
  else t

/-- How a word forms the new value from the old one and s1. -/
inductive CsrOp where
  | write | set | clear
  deriving DecidableEq, Repr

def CsrOp.apply : CsrOp → W → W → W
  | .write, _, v => v
  | .set, old, v => old ||| v
  | .clear, old, v => old &&& ~~~v

/-- WRCSR, CSRS, CSRC. A write of ENG_CMD stands until its operation has ended, here in the word's own step (R465). -/
def csrBody (op : CsrOp) (s : BitVec 5) (l : BitVec 1) (c : BitVec 12) (st : State) : M CtlRes := do
  let t := st.th
  let n := immU t.pfx 12 c.toNat
  let v ← rdG st t s.toNat 0
  match st.csrValue st.me n with
  | none => raise cIllegalOp 0 (n % 2 ^ 32)
  | some old =>
    if isAgateCsr n then
      match st.agate.csrWrite st.fresh n (op.apply old v).toNat with
      | none => raise cIllegalOp 0 n
      | some a => .ok { s := ({ st with agate := a }.bmcReply st.agate).setTh (freeG t l s.toNat) }
    else do
    require (decide (n < 0x100)) cIllegalContext 0 (st.free 3).toNat
    match csrMask n with
    | none => raise cIllegalOp 0 n
    | some (mask, inh) =>
      require (!inh || t.inh) cIllegalContext 0 (st.free 3).toNat
      let new := op.apply old v
      require (csrLegal n new) cIllegalOp 0 (n + new.toNat % 2 ^ 32 * 2 ^ 32)
      .ok { s := st.setTh ((freeG t l s.toNat).putCsr n ((old &&& ~~~mask) ||| (new &&& mask))) }

/-- WRCSR (R314). -/
def execWrcsr (s : BitVec 5) (l : BitVec 1) (c : BitVec 12) (st : State) : Out :=
  ctl .control true (wordOf (.wrcsr s l c)) (csrBody .write s l c) st
/-- CSRS (R314). -/
def execCsrs (s : BitVec 5) (l : BitVec 1) (c : BitVec 12) (st : State) : Out :=
  ctl .control true (wordOf (.csrs s l c)) (csrBody .set s l c) st
/-- CSRC (R314). -/
def execCsrc (s : BitVec 5) (l : BitVec 1) (c : BitVec 12) (st : State) : Out :=
  ctl .control true (wordOf (.csrc s l c)) (csrBody .clear s l c) st

end Sys2Proof.Machine
end

