-- ==== Sys2Proof/Machine/Vector.lean ====
section
/-! DEFINITION. The vector words (R370 to R388). -/

namespace Sys2Proof.Machine

open Sys2Proof

/-! ## The course of a vector or special-function word (R370 to R374) -/

/-- A source operand: a region with its last-use bit, or a queue head. -/
inductive VSrc where
  | none
  | region (r : Nat) (l : BitVec 1) (p : Span)
  | queue (q : Nat) (p : Span)
  deriving DecidableEq, Repr

/-- The s1 field (R370). -/
def src1 (s : BitVec 4) (q l : BitVec 1) (p : Span) : VSrc := if q = 1#1 then .queue s.toNat p else .region s.toNat l p

/-- What a word reads and writes. -/
structure VWord where
  d : Nat
  dp : Span
  /-- The destination is scalar s[d]. -/
  scalar : Bool := false
  /-- The destination's elements are read first (VFMA, VSELM). -/
  readD : Bool := false
  s1 : VSrc
  s2 : VSrc := .none
  b : BitVec 1
  u : BitVec 1
  /-- The last use of a scalar source. -/
  post : Thread → Thread := id
  /-- The scalars that it reads. -/
  sv : List Nat := []

/-- The elements read and the bounds of their regions. -/
structure VIn where
  x1 : List Nat
  x2 : List Nat
  xd : List Nat
  e1 : W32
  e2 : W32
  e3 : W32

/-- A region operand as read at issue: its number, its register, its wrap register when a post-update uses it (R41), its span. -/
structure VReg where
  r : Nat
  a : W
  m : W
  p : Span

/-- Read and check a region operand (R372 step 3). -/
def readReg (s : State) (t : Thread) (r : Nat) (p : Span) (u : BitVec 1) (k : Nat) : M VReg := do
  let a ← rdA s t r k
  let m ← (if u = 1#1 ∧ (Rgn.of a).mode ≠ 0 then rdM s t r (k + 1) else .ok 0#64 : M W)
  checkOffs ((Rgn.of a).offs p) p.e
  .ok ⟨r, a, m, p⟩

/-- The region of an operand. -/
def VReg.offs (v : VReg) : List Int := (Rgn.of v.a).offs v.p

/-- The bytes of elements of `e` bytes at given offsets: first and last byte of each. -/
def elemBytes (offs : List Int) (e : Nat) : List (Nat × Nat) := offs.map fun o => (o.toNat, o.toNat + e - 1)

/-- The range from the lowest to the highest of those bytes (R375). -/
def hullBytes (offs : List Int) (e : Nat) : List (Nat × Nat) :=
  match elemBytes offs e with
  | [] => []
  | x :: r => [r.foldl (fun a b => (min a.1 b.1, max a.2 b.2)) x]

/-- The bytes of an operand's region. -/
def VReg.bytes (v : VReg) : List (Nat × Nat) := elemBytes v.offs v.p.e

/-- The registers of an operand that its word reads. -/
def VReg.vals (v : VReg) (u : BitVec 1) : List Nat :=
  if u = 1#1 ∧ (Rgn.of v.a).mode ≠ 0 then [v.a.toNat, v.m.toNat] else [v.a.toNat]

/-- Region operand of a source; none for a queue head. -/
def VSrc.reg (v : VSrc) (s : State) (t : Thread) (u : BitVec 1) (k : Nat) : M (Option VReg) :=
  match v with
  | .region r _ p => do
    let x ← readReg s t r p u k
    .ok (some x)
  | _ => .ok Option.none

/-- The check of a queue-head source (R37, R372 step 2). -/
def checkVQ (t : Thread) (q n e : Nat) : M PUnit := do
  let b := vget t.q q QHead.unbound
  requireLegal (b.kind != 0)
  require (b.ebytes == e && decide (n ≤ b.depth)) cIllegalContext 0 q

/-- Free the region of a source. -/
def VSrc.free (v : VSrc) (t : Thread) : Thread :=
  match v with
  | .region r l _ => freeA t l r
  | _ => t

/-- The elements of a source: those of a queue head are popped in one step. -/
def VSrc.read (v : VSrc) (s : State) (r : Option VReg) : M (State × List Nat) :=
  match v, r with
  | .queue q p, _ => do
    let (s, l) ← s.popQ s.me q p.n
    .ok (s, l.map (·.toNat))
  | _, some r => s.readElems r.offs r.p
  | _, Option.none => .ok (s, [])

/-- Bound of a source's region; a queue head's is 0 (R251). -/
def VSrc.bound (v : VSrc) (t : Thread) : W32 :=
  match v with
  | .region r _ _ => vget t.eb r bInf
  | _ => 0#32

/-- The regions of a word as read and checked. -/
structure VOps where
  rd : Option VReg
  r1 : Option VReg
  r2 : Option VReg

/-- A word that reads vc, and the bounds of the regions named, waits for the words that still have to write them (R440). -/
def holdFor (t : Thread) (ebs : List Nat) : M PUnit :=
  if t.regBusy 4 0 || ebs.any (t.regBusy 3) then waitFor .performed else .ok ⟨⟩

/-- The operands of a word: checks in the order d, s1, s2, then the wait for a queue head (R372). -/
def VWord.operands (v : VWord) (st : State) : M VOps := do
  let t := st.th
  match v.s1 with
  | .queue q p => checkVQ t q p.n p.e
  | _ => .ok ⟨⟩
  let rd ← (if v.scalar then .ok Option.none else do
    let x ← readReg st t v.d v.dp v.u 0
    .ok (some x) : M (Option VReg))
  let r1 ← v.s1.reg st t v.u 2
  let r2 ← v.s2.reg st t v.u 4
  holdFor t (if v.b = 1#1 then ([rd, r1, r2].filterMap id).map (·.r) else [])
  match v.s1 with
  | .queue q p => if (vget t.q q QHead.unbound).elems.length < p.n then waitFor .queueHead else .ok ⟨⟩
  | _ => .ok ⟨⟩
  .ok ⟨rd, r1, r2⟩

/-- The elements of a word, with the bounds of their regions. -/
def VWord.reads (v : VWord) (o : VOps) (st : State) : M (State × VIn) := do
  let t := st.th
  let (s, x2) ← v.s2.read st o.r2
  let (s, xd) ← (match o.rd with
    | some r => if v.readD then s.readElems r.offs r.p else .ok (s, [])
    | Option.none => .ok (s, []) : M (State × List Nat))
  let (s, x1) ← v.s1.read s o.r1
  .ok (s, ⟨x1, x2, xd, v.s1.bound t, v.s2.bound t, vget t.eb v.d bInf⟩)

/-- The end of a word: the results written, the last uses, and then what it writes: the destination's bound, the post-updates; the flags that it raises when it
finishes, and what the region interlock and the retained window take of it (R135, R375, R376). -/
def VWord.finish (v : VWord) (o : VOps) (res : List Nat) (fl : Fl) (b : W32) (s : State) : EngRes :=
  let s := match o.rd with
    | some r => s.writeElems v.dp r.offs res
    | Option.none => s
  let t := v.s2.free (v.s1.free s.th)
  let t := match o.rd with
    | some r => { t with eb := vset t.eb r.r (if v.b = 1#1 then b else bInf) }
    | Option.none => wrS t v.d (BitVec.ofNat 64 (res.head?.getD 0))
  let regs := [o.rd, o.r1, o.r2].filterMap id
  let (t, n, late) := if v.u = 1#1 then t.postAll (regs.map fun r => (r.r, r.a, r.m)) else (t, 0, Option.none)
  let t := v.post t
  { s := s.setTh t, late := late, wcb := n, vals := t.vc.toNat :: (regs.flatMap fun r => r.vals v.u) ++ v.sv, flags := orFlags 0#32 fl,
    reads := regs.flatMap (·.bytes), writes := (o.rd.map fun r => hullBytes r.offs r.p.e).getD [] }

/-- The elements that a word has popped from its queue head: its entry in the retained window keeps them (R392). -/
def VSrc.kept (v : VSrc) (x : List Nat) : List Nat :=
  match v with
  | .queue _ _ => x
  | _ => []

/-- The shared course of a word: the operands, the elements, and the results with their flags and their bound. -/
def vecRun (v : VWord) (f : VIn → List Nat × Fl) (bnd : VIn → List Nat → Fl → W32) (st : State) : M EngRes := do
  let o ← v.operands st
  let (s, i) ← v.reads o st
  let r := f i
  let e := v.finish o r.1 r.2 (bnd i r.1 r.2) s
  .ok { e with vals := e.vals ++ v.s1.kept i.x1 }

/-! ## Elements -/

/-- ROUND_MODE for words other than conversions and drains (R53, R239). -/
def Thread.rmode (t : Thread) : RMode := modeNoRsr (t.roundMode.toNat % 8)

/-- vc as a count. -/
def Thread.n (t : Thread) : Nat := t.vc.toNat

/-- Span of vc elements of `e` bytes. -/
def Thread.span (t : Thread) (e : Nat) : Span := { n := t.n, e := e, nib := false }

/-- The pattern of an FP32 element. -/
def w32 (x : Nat) : W32 := BitVec.ofNat 32 x

/-- Results of elements with their flags together. -/
def collect (l : List (Nat × Fl)) : List Nat × Fl := (l.map (·.1), l.foldl (fun a x => a ||| x.2) 0#7)

/-- A word of two FP32 sources. -/
def zip32 (f : W32 → W32 → W32 × Fl) (x y : List Nat) : List Nat × Fl :=
  collect (List.zipWith (fun a b => let r := f (w32 a) (w32 b); (r.1.toNat, r.2)) x y)

/-- A word of one FP32 source. -/
def map32 (f : W32 → W32 × Fl) (x : List Nat) : List Nat × Fl := collect (x.map fun a => let r := f (w32 a); (r.1.toNat, r.2))

/-- Values of FP32 elements. -/
def vals32 (l : List Nat) : List Val := l.map fun x => f32 (w32 x)

/-- A bound, +∞ when a destination value is a NaN or an infinity (R251). -/
def unlessNaN (l : List Nat) (b : W32) : W32 := if (vals32 l).all Val.isFin then b else bInf

/-- u of R251. -/
def uOf (md : RMode) (res : List Nat) : W32 := bStep 0 md.code (maxExp (vals32 res))

/-- The VMUL term of R251. -/
def mulTerm (i : VIn) : W32 := bMulTerm (maxCeil (vals32 i.x1)) (maxCeil (vals32 i.x2)) i.e1 i.e2

/-! ## Set-up (R35, R386, R387, R388) -/

/-- VSETC: the count is unsigned. -/
def vsetcBody (i : BitVec 10) (u : QUnit) (st : State) : M EngRes := do
  let n := immU u.pfx 10 i.toNat
  require (n != 0 && decide (n ≤ 65535)) cIllegalOp 0 n
  .ok { s := st.setTh { st.th with vc := BitVec.ofNat 16 n } }

/-- VSETC (R35, R387). -/
def execVsetc (w e : BitVec 2) (i : BitVec 10) (st : State) : Out := engWord .vector (wordOf (.vsetc w e i)) (vsetcBody i) st

/-- ASET: reserved bits of a region register are refused. -/
def asetBody (d : BitVec 4) (s : BitVec 3) (l z : BitVec 1) (_u : QUnit) (st : State) : M EngRes := do
  let t := st.th
  let v ← rdS st t s.toNat 0
  require (bits v.toNat 23 21 == 0) cIllegalOp 0 v.toNat
  let t := wrA (freeS t l s.toNat) d.toNat v
  .ok { s := st.setTh { t with eb := vset t.eb d.toNat (if z = 1#1 then 0#32 else bInf) }, vals := [v.toNat] }

/-- ASET (R386). -/
def execAset (w e : BitVec 2) (d : BitVec 4) (s : BitVec 3) (l z : BitVec 1) (st : State) : Out :=
  engWord .vector (wordOf (.aset w e d s l z)) (asetBody d s l z) st

/-- AMOD: WRAPS becomes 0. -/
def amodBody (d : BitVec 4) (s : BitVec 3) (l : BitVec 1) (_u : QUnit) (st : State) : M EngRes := do
  let t := st.th
  let v ← rdS st t s.toNat 0
  require (bits v.toNat 47 32 == 0 && bits v.toNat 30 27 == 0) cIllegalOp 0 v.toNat
  .ok { s := st.setTh (wrM (freeS t l s.toNat) d.toNat (v &&& 0x87FFFFFF#64)), vals := [v.toNat] }

/-- AMOD (R386). -/
def execAmod (w e : BitVec 2) (d : BitVec 4) (s : BitVec 3) (l : BitVec 1) (st : State) : Out :=
  engWord .vector (wordOf (.amod w e d s l)) (amodBody d s l) st

/-- A region pair copied, with BASE moved by `n` (ASTEP, AMOV mode 0). -/
def copyPair (d s : Nat) (l : BitVec 1) (n : Int) (st : State) : M EngRes := do
  let t := st.th
  let a ← rdA st t s 0
  let m ← rdM st t s 1
  let b : Int := ((Rgn.of a).base : Int) + n
  require (decide (0 ≤ b ∧ b < 2 ^ 21)) cRegionBounds 0 (infoOf b)
  let t := freeA t l s
  let t := wrM (wrA t d ((a &&& ~~~0x1FFFFF#64) ||| BitVec.ofNat 64 b.toNat)) d m
  let t := if d = s then t else { t with eb := vset t.eb d bInf }
  .ok { s := st.setTh t, vals := [a.toNat, m.toNat] }

/-- ASTEP (R386). -/
def execAstep (w e : BitVec 2) (d s : BitVec 4) (l : BitVec 1) (i : BitVec 10) (st : State) : Out :=
  engWord .vector (wordOf (.astep w e d s l i)) (fun u st => copyPair d.toNat s.toNat l (immS u.pfx 10 i.toNat) st) st

/-- AMOV: a region pair moved, or one of its registers read into a scalar. -/
def amovBody (d s : BitVec 4) (l : BitVec 1) (m : BitVec 2) (_u : QUnit) (st : State) : M EngRes := do
  if m = 0#2 then copyPair d.toNat s.toNat l 0 st
  else
    let t := st.th
    let v ← (if m = 1#2 then rdA st t s.toNat 0 else rdM st t s.toNat 0 : M W)
    .ok { s := st.setTh (wrS (freeA t l s.toNat) d.toNat v), vals := [v.toNat] }

/-- AMOV (R386). -/
def execAmov (w e : BitVec 2) (d s : BitVec 4) (l : BitVec 1) (m : BitVec 2) (st : State) : Out :=
  engWord .vector (wordOf (.amov w e d s l m)) (amovBody d s l m) st

/-- Element bytes of a size code (R371). -/
def sizeBytes (z : BitVec 2) : Nat :=
  match z.toNat with
  | 0 => 4
  | 1 => 2
  | 2 => 1
  | _ => 8

/-- VMOVS: one element between a region or a queue head and a scalar. -/
def vmovsBody (d s : BitVec 4) (l q r : BitVec 1) (z : BitVec 2) (_u : QUnit) (st : State) : M EngRes := do
  let t := st.th
  let p : Span := { n := 1, e := sizeBytes z, nib := false }
  if r = 1#1 then
    let v ← rdS st t s.toNat 0
    let x ← readReg st t d.toNat p 0#1 1
    let s1 := st.writeElems p x.offs [v.toNat]
    let t := freeS s1.th l s.toNat
    .ok { s := s1.setTh { t with eb := vset t.eb d.toNat bInf }, vals := [v.toNat, x.a.toNat], reads := x.bytes, writes := hullBytes x.offs p.e }
  else if q = 1#1 then
    checkVQ t s.toNat 1 p.e
    let (s1, v) ← st.popQ st.me s.toNat 1
    .ok { s := s1.setTh (wrS s1.th d.toNat (v.head?.getD 0#64)), vals := v.map (·.toNat) }
  else
    let x ← readReg st t s.toNat p 0#1 1
    let (s1, v) ← st.readElems x.offs p
    .ok { s := s1.setTh (wrS (freeA s1.th l s.toNat) d.toNat (BitVec.ofNat 64 (v.head?.getD 0))), vals := [x.a.toNat], reads := x.bytes }

/-- VMOVS (R386). -/
def execVmovs (w e : BitVec 2) (d s : BitVec 4) (l q r : BitVec 1) (z : BitVec 2) (st : State) : Out :=
  engWord .vector (wordOf (.vmovs w e d s l q r z)) (vmovsBody d s l q r z) st

/-- VLOOP (R388). -/
def execVloop (n : BitVec 6) (c : BitVec 2) (i : BitVec 11) (st : State) : Out :=
  engWord .vector (wordOf (.vloop n c i)) (loopBody .comp n c i) st

/-- VNOP (R388). -/
def execVnop (w e : BitVec 2) (st : State) : Out := engWord .vector (wordOf (.vnop w e)) (fun _ s => .ok { s := s }) st

/-! ## Floating-point words (R376, R378, R379) -/

/-- A word of two FP32 region sources. -/
def vec2 (d s : BitVec 4) (l : BitVec 1) (t : BitVec 4) (m k p q : BitVec 1) (rd : Bool) (f : RMode → VIn → List Nat × Fl)
    (bnd : RMode → VIn → List Nat → W32) (_u : QUnit) (st : State) : M EngRes :=
  let th := st.th
  let sp := th.span 4
  vecRun { d := d.toNat, dp := sp, readD := rd, s1 := src1 s q l sp, s2 := .region t.toNat m sp, b := k, u := p } (f th.rmode)
    (fun i r _ => bnd th.rmode i r) st

/-- A word of one FP32 source. -/
def vec1 (d s : BitVec 4) (l k p q : BitVec 1) (f : RMode → VIn → List Nat × Fl) (bnd : RMode → VIn → List Nat → W32)
    (_u : QUnit) (st : State) : M EngRes :=
  let th := st.th
  let sp := th.span 4
  vecRun { d := d.toNat, dp := sp, s1 := src1 s q l sp, b := k, u := p } (f th.rmode) (fun i r _ => bnd th.rmode i r) st

/-- The bound of a sum (R251). -/
def sumBound (md : RMode) (i : VIn) (r : List Nat) : W32 := unlessNaN r (bAdd (bAdd i.e1 i.e2) (uOf md r))

/-- The bound of a product (R251). -/
def mulBound (md : RMode) (i : VIn) (r : List Nat) : W32 := unlessNaN r (bAdd (mulTerm i) (uOf md r))

/-- The bound of a fused product and sum (R251). -/
def fmaBound (md : RMode) (i : VIn) (r : List Nat) : W32 := unlessNaN r (bAdd (bAdd (mulTerm i) i.e3) (uOf md r))

/-- The larger source bound (R251). -/
def maxBound (_md : RMode) (i : VIn) (r : List Nat) : W32 := unlessNaN r (bMax i.e1 i.e2)

/-- The bound of the first source (R251). -/
def sameBound (_md : RMode) (i : VIn) (r : List Nat) : W32 := unlessNaN r i.e1

/-- Every element of VFMA. -/
def fmaElems (md : RMode) (i : VIn) : List Nat × Fl :=
  collect ((List.zip i.x1 (List.zip i.x2 i.xd)).map fun x => let r := fma32 md (w32 x.1) (w32 x.2.1) (w32 x.2.2); (r.1.toNat, r.2))

/-- Every element of VSELM: bits move unchanged. -/
def selElems (i : VIn) : List Nat × Fl :=
  ((List.zip i.xd (List.zip i.x1 i.x2)).map fun x => if x.1 != 0 then x.2.1 else x.2.2, 0#7)

/-- The conditions of VCMP (R378). -/
def cmpElem (c : Nat) (x y : W32) : W32 × Fl :=
  let a := f32 x
  let b := f32 y
  let nan := a.isNan || b.isNan
  let o := a.cmp b
  let h : Bool := match c with
    | 0 => !nan && o == .eq
    | 1 => nan || o != .eq
    | 2 => !nan && o == .lt
    | _ => !nan && o != .gt
  (if h then 0xFFFFFFFF#32 else 0#32, flIf (if c < 2 then a.isSig || b.isSig else nan) flNV)

/-- 0 when both source bounds are 0, else +∞ (R251). -/
def zeroBound (i : VIn) : W32 := if i.e1 = 0#32 ∧ i.e2 = 0#32 then 0#32 else bInf

/-- VSCL: each element times an FP32 scalar. -/
def vsclBody (d s : BitVec 4) (l : BitVec 1) (t : BitVec 3) (m k p q : BitVec 1) (_u : QUnit) (st : State) : M EngRes := do
  let th := st.th
  let c ← rdS st th t.toNat 6
  let c := c.extractLsb' 0 32
  let sp := th.span 4
  vecRun { d := d.toNat, dp := sp, s1 := src1 s q l sp, b := k, u := p, post := fun x => freeS x m t.toNat, sv := [c.toNat] }
    (fun i => map32 (fun x => mul32 th.rmode x c) i.x1)
    (fun i r _ => unlessNaN r (bAdd (bMul i.e1 (f32 c).abs) (uOf th.rmode r))) st

/-- VADD (R376). -/
def execVadd (w e : BitVec 2) (d s : BitVec 4) (l : BitVec 1) (t : BitVec 4) (u k p q : BitVec 1) (st : State) : Out :=
  engWord .vector (wordOf (.vadd w e d s l t u k p q)) (vec2 d s l t u k p q false (fun md i => zip32 (add32 md) i.x1 i.x2) sumBound) st
/-- VSUB (R376). -/
def execVsub (w e : BitVec 2) (d s : BitVec 4) (l : BitVec 1) (t : BitVec 4) (u k p q : BitVec 1) (st : State) : Out :=
  engWord .vector (wordOf (.vsub w e d s l t u k p q)) (vec2 d s l t u k p q false (fun md i => zip32 (sub32 md) i.x1 i.x2) sumBound) st
/-- VMUL (R376). -/
def execVmul (w e : BitVec 2) (d s : BitVec 4) (l : BitVec 1) (t : BitVec 4) (u k p q : BitVec 1) (st : State) : Out :=
  engWord .vector (wordOf (.vmul w e d s l t u k p q)) (vec2 d s l t u k p q false (fun md i => zip32 (mul32 md) i.x1 i.x2) mulBound) st
/-- VFMA (R376). -/
def execVfma (w e : BitVec 2) (d s : BitVec 4) (l : BitVec 1) (t : BitVec 4) (u k p q : BitVec 1) (st : State) : Out :=
  engWord .vector (wordOf (.vfma w e d s l t u k p q)) (vec2 d s l t u k p q true fmaElems fmaBound) st
/-- VMIN (R376). -/
def execVmin (w e : BitVec 2) (d s : BitVec 4) (l : BitVec 1) (t : BitVec 4) (u k p q : BitVec 1) (st : State) : Out :=
  engWord .vector (wordOf (.vmin w e d s l t u k p q)) (vec2 d s l t u k p q false (fun _ i => zip32 (minmax32 true) i.x1 i.x2) maxBound) st
/-- VMAX (R376). -/
def execVmax (w e : BitVec 2) (d s : BitVec 4) (l : BitVec 1) (t : BitVec 4) (u k p q : BitVec 1) (st : State) : Out :=
  engWord .vector (wordOf (.vmax w e d s l t u k p q)) (vec2 d s l t u k p q false (fun _ i => zip32 (minmax32 false) i.x1 i.x2) maxBound) st
/-- VABS (R376). -/
def execVabs (w e : BitVec 2) (d s : BitVec 4) (l k p q : BitVec 1) (st : State) : Out :=
  engWord .vector (wordOf (.vabs w e d s l k p q)) (vec1 d s l k p q (fun _ i => map32 abs32 i.x1) sameBound) st
/-- VNEG (R376). -/
def execVneg (w e : BitVec 2) (d s : BitVec 4) (l k p q : BitVec 1) (st : State) : Out :=
  engWord .vector (wordOf (.vneg w e d s l k p q)) (vec1 d s l k p q (fun _ i => map32 neg32 i.x1) sameBound) st
/-- VSCL (R376). -/
def execVscl (w e : BitVec 2) (d s : BitVec 4) (l : BitVec 1) (t : BitVec 3) (u k p q : BitVec 1) (st : State) : Out :=
  engWord .vector (wordOf (.vscl w e d s l t u k p q)) (vsclBody d s l t u k p q) st
/-- VCMP (R378). -/
def execVcmp (w e : BitVec 2) (d s : BitVec 4) (l : BitVec 1) (t : BitVec 4) (u k p q : BitVec 1) (v : BitVec 2) (st : State) : Out :=
  engWord .vector (wordOf (.vcmp w e d s l t u k p q v)) (vec2 d s l t u k p q false (fun _ i => zip32 (cmpElem v.toNat) i.x1 i.x2) (fun _ i _ => zeroBound i)) st
/-- VSELM (R379). -/
def execVselm (w e : BitVec 2) (d s : BitVec 4) (l : BitVec 1) (t : BitVec 4) (u k p q : BitVec 1) (st : State) : Out :=
  engWord .vector (wordOf (.vselm w e d s l t u k p q)) (vec2 d s l t u k p q true (fun _ i => selElems i) maxBound) st

/-! ## Integer and bitwise words (R377) -/

/-- The integer operations. -/
inductive VInt where
  | add | sub | mul | min | max | and | or | xor | shl | shr | sar
  deriving DecidableEq, Repr

/-- One element of width `w`; the flag SAT when a .S word saturates. -/
def VInt.run (op : VInt) (w : Nat) (sat : Bool) (x y : Nat) : Nat × Fl :=
  let a := sext w x
  let b := sext w y
  let wrap (v : Int) : Nat := (v % (2 ^ w : Int)).toNat
  let arith (v : Int) : Nat × Fl :=
    if sat ∧ v < -(2 ^ (w - 1) : Int) then (2 ^ (w - 1), flSAT)
    else if sat ∧ (2 ^ (w - 1) : Int) ≤ v then (2 ^ (w - 1) - 1, flSAT)
    else (wrap v, 0#7)
  match op with
  | .add => arith (a + b)
  | .sub => arith (a - b)
  | .mul => arith (a * b)
  | .min => (wrap (if a ≤ b then a else b), 0#7)
  | .max => (wrap (if a ≤ b then b else a), 0#7)
  | .and => (x &&& y, 0#7)
  | .or => (x ||| y, 0#7)
  | .xor => (x ^^^ y, 0#7)
  | .shl => (if y ≥ w then 0 else (x <<< y) % 2 ^ w, 0#7)
  | .shr => (if y ≥ w then 0 else x >>> y, 0#7)
  | .sar => (wrap (a >>> (if y ≤ w then y else w)), 0#7)

/-- The bound of an integer word (R251). -/
def VInt.bound (op : VInt) (w : Nat) (i : VIn) (fl : Fl) : W32 :=
  let big (l : List Nat) : Option Int := maxCeil (l.map fun x => Val.ofInt (sext w x))
  match op with
  | .add | .sub => if fl = flSAT then bInf else bAdd i.e1 i.e2
  | .mul => if fl = flSAT then bInf else bMulTerm (big i.x1) (big i.x2) i.e1 i.e2
  | .min | .max => bMax i.e1 i.e2
  | _ => zeroBound i

/-- An integer or bitwise word. -/
def vintBody (op : VInt) (d s : BitVec 4) (l : BitVec 1) (t : BitVec 4) (m k p q byte : BitVec 1) (sat : Bool) (_u : QUnit) (st : State) :
    M EngRes :=
  let e := if byte = 1#1 then 1 else 4
  let sp := st.th.span e
  vecRun { d := d.toNat, dp := sp, s1 := src1 s q l sp, s2 := .region t.toNat m sp, b := k, u := p }
    (fun i => collect (List.zipWith (op.run (8 * e) sat) i.x1 i.x2)) (fun i _ fl => op.bound (8 * e) i fl) st

/-- VIADD (R377). -/
def execViadd (w e : BitVec 2) (d s : BitVec 4) (l : BitVec 1) (t : BitVec 4) (u k p q : BitVec 1) (v : BitVec 2) (st : State) : Out :=
  engWord .vector (wordOf (.viadd w e d s l t u k p q v)) (vintBody .add d s l t u k p q (v.extractLsb' 1 1) (v.getLsbD 0)) st
/-- VISUB (R377). -/
def execVisub (w e : BitVec 2) (d s : BitVec 4) (l : BitVec 1) (t : BitVec 4) (u k p q : BitVec 1) (v : BitVec 2) (st : State) : Out :=
  engWord .vector (wordOf (.visub w e d s l t u k p q v)) (vintBody .sub d s l t u k p q (v.extractLsb' 1 1) (v.getLsbD 0)) st
/-- VIMUL (R377). -/
def execVimul (w e : BitVec 2) (d s : BitVec 4) (l : BitVec 1) (t : BitVec 4) (u k p q : BitVec 1) (v : BitVec 2) (st : State) : Out :=
  engWord .vector (wordOf (.vimul w e d s l t u k p q v)) (vintBody .mul d s l t u k p q (v.extractLsb' 1 1) (v.getLsbD 0)) st
/-- VIMIN (R377). -/
def execVimin (w e : BitVec 2) (d s : BitVec 4) (l : BitVec 1) (t : BitVec 4) (u k p q : BitVec 1) (v : BitVec 2) (st : State) : Out :=
  engWord .vector (wordOf (.vimin w e d s l t u k p q v)) (vintBody .min d s l t u k p q (v.extractLsb' 1 1) (v.getLsbD 0)) st
/-- VIMAX (R377). -/
def execVimax (w e : BitVec 2) (d s : BitVec 4) (l : BitVec 1) (t : BitVec 4) (u k p q : BitVec 1) (v : BitVec 2) (st : State) : Out :=
  engWord .vector (wordOf (.vimax w e d s l t u k p q v)) (vintBody .max d s l t u k p q (v.extractLsb' 1 1) (v.getLsbD 0)) st
/-- VAND (R377). -/
def execVand (w e : BitVec 2) (d s : BitVec 4) (l : BitVec 1) (t : BitVec 4) (u k p q : BitVec 1) (v : BitVec 1) (st : State) : Out :=
  engWord .vector (wordOf (.vand w e d s l t u k p q v)) (vintBody .and d s l t u k p q v false) st
/-- VOR (R377). -/
def execVor (w e : BitVec 2) (d s : BitVec 4) (l : BitVec 1) (t : BitVec 4) (u k p q : BitVec 1) (v : BitVec 1) (st : State) : Out :=
  engWord .vector (wordOf (.vor w e d s l t u k p q v)) (vintBody .or d s l t u k p q v false) st
/-- VXOR (R377). -/
def execVxor (w e : BitVec 2) (d s : BitVec 4) (l : BitVec 1) (t : BitVec 4) (u k p q : BitVec 1) (v : BitVec 1) (st : State) : Out :=
  engWord .vector (wordOf (.vxor w e d s l t u k p q v)) (vintBody .xor d s l t u k p q v false) st
/-- VSHL (R377). -/
def execVshl (w e : BitVec 2) (d s : BitVec 4) (l : BitVec 1) (t : BitVec 4) (u k p q : BitVec 1) (v : BitVec 1) (st : State) : Out :=
  engWord .vector (wordOf (.vshl w e d s l t u k p q v)) (vintBody .shl d s l t u k p q v false) st
/-- VSHR (R377). -/
def execVshr (w e : BitVec 2) (d s : BitVec 4) (l : BitVec 1) (t : BitVec 4) (u k p q : BitVec 1) (v : BitVec 1) (st : State) : Out :=
  engWord .vector (wordOf (.vshr w e d s l t u k p q v)) (vintBody .shr d s l t u k p q v false) st
/-- VSAR (R377). -/
def execVsar (w e : BitVec 2) (d s : BitVec 4) (l : BitVec 1) (t : BitVec 4) (u k p q : BitVec 1) (v : BitVec 1) (st : State) : Out :=
  engWord .vector (wordOf (.vsar w e d s l t u k p q v)) (vintBody .sar d s l t u k p q v false) st

/-! ## Reductions (R253, R380) -/

/-- One level of pairwise combination; a value without a partner passes on. -/
def pairLevel (f : Val → Val → Val × Fl) : List Val → List Val × Fl
  | a :: b :: r =>
    let (x, g) := f a b
    let (l, h) := pairLevel f r
    (x :: l, g ||| h)
  | l => (l, 0#7)

/-- A chunk reduced by six levels. -/
def chunkReduce (f : Val → Val → Val × Fl) (l : List Val) : List Val × Fl :=
  (List.range 6).foldl (fun (x : List Val × Fl) _ => let (l, g) := pairLevel f x.1; (l, x.2 ||| g)) (l, 0#7)

/-- Chunks of 64 reduced, and their results combined in chunk order. -/
def reduceAll (f : Val → Val → Val × Fl) : Nat → Option Val → List Val → Option Val × Fl
  | 0, acc, _ => (acc, 0#7)
  | fuel + 1, acc, l =>
    match l with
    | [] => (acc, 0#7)
    | _ =>
      let (c, g) := chunkReduce f (l.take 64)
      let x := c.head?.getD (.fin false 0 0)
      let (y, h) := match acc with
        | none => (x, 0#7)
        | some a => f a x
      let (z, k) := reduceAll f fuel (some y) (l.drop 64)
      (z, g ||| h ||| k)

/-- A reduction's result as an FP32 pattern: a value that no step has rounded is rounded here. -/
def reduce32 (md : RMode) (f : Val → Val → Val × Fl) (l : List Val) : Nat × Fl :=
  let (v, g) := reduceAll f (l.length / 64 + 1) none l
  let (r, h) := round32 md (v.getD (.fin false 0 0))
  (r.toNat, g ||| h)

/-- One addition of a reduction, rounded once. -/
def sumStep (md : RMode) (x y : Val) : Val × Fl :=
  let (v, f) := x.add (isRdn md) y
  let (r, g) := round32 md v
  (f32 r, f ||| g)

/-- One comparison of a reduction. -/
def minmaxStep (isMin : Bool) (x y : Val) : Val × Fl :=
  if x.isNan || y.isNan then (.nan false, flIf (x.isSig || y.isSig) flNV)
  else
    let less := match x.cmp y with
      | .lt => true
      | .eq => x.neg && !y.neg
      | .gt => false
    (if less == isMin then x else y, 0#7)

/-- The exact products of VDOT, with their flags. -/
def products (i : VIn) : List Val × Fl :=
  let l := List.zipWith Val.mul (vals32 i.x1) (vals32 i.x2)
  (l.map (·.1), l.foldl (fun a x => a ||| x.2) 0#7)

/-- The rounding share of a sum's bound: n - 1 steps of an exponent not below that of the sum of magnitudes (R251). -/
def sumShare (md : RMode) (n : Nat) (l : List Val) : W32 :=
  let tot := l.foldl (fun a v => (a.add false v.abs).1) (Val.fin false 0 0)
  bTimes (n - 1) (bStep 0 md.code ((ceilExp tot).getD (-1000)))

/-- A reduction into a scalar (V[0] = 0) or into element 0 of a region. -/
def reduceBody (d : BitVec 4) (s1 s2 : Nat → VSrc) (k p v : BitVec 1) (f : RMode → VIn → Nat × Fl) (bnd : RMode → VIn → W32)
    (_u : QUnit) (st : State) : M EngRes :=
  let th := st.th
  vecRun { d := d.toNat, dp := { n := 1, e := 4, nib := false }, scalar := v == 0#1, s1 := s1 th.n, s2 := s2 th.n, b := k, u := p }
    (fun i => let r := f th.rmode i; ([r.1], r.2)) (fun i r _ => unlessNaN r (bnd th.rmode i)) st

/-- The span of `n` FP32 elements. -/
def span32 (n : Nat) : Span := { n := n, e := 4, nib := false }

/-- VRSUM (R380). -/
def execVrsum (w e : BitVec 2) (d s : BitVec 4) (l k p q v : BitVec 1) (st : State) : Out :=
  engWord .vector (wordOf (.vrsum w e d s l k p q v)) (reduceBody d (fun n => src1 s q l (span32 n)) (fun _ => .none) k p v (fun md i => reduce32 md (sumStep md) (vals32 i.x1))
    (fun md i => bAdd (bTimes i.x1.length i.e1) (sumShare md i.x1.length (vals32 i.x1)))) st
/-- VRMAX (R380). -/
def execVrmax (w e : BitVec 2) (d s : BitVec 4) (l k p q v : BitVec 1) (st : State) : Out :=
  engWord .vector (wordOf (.vrmax w e d s l k p q v)) (reduceBody d (fun n => src1 s q l (span32 n)) (fun _ => .none) k p v (fun md i => reduce32 md (minmaxStep false) (vals32 i.x1)) (fun _ i => i.e1)) st
/-- VRMIN (R380). -/
def execVrmin (w e : BitVec 2) (d s : BitVec 4) (l k p q v : BitVec 1) (st : State) : Out :=
  engWord .vector (wordOf (.vrmin w e d s l k p q v)) (reduceBody d (fun n => src1 s q l (span32 n)) (fun _ => .none) k p v (fun md i => reduce32 md (minmaxStep true) (vals32 i.x1)) (fun _ i => i.e1)) st
/-- VDOT: the products are exact. -/
def vdotRes (md : RMode) (i : VIn) : Nat × Fl :=
  let (l, g) := products i
  let (r, h) := reduce32 md (sumStep md) l
  (r, g ||| h)
/-- VDOT (R380). -/
def execVdot (w e : BitVec 2) (d s : BitVec 4) (l : BitVec 1) (t : BitVec 4) (u k p q v : BitVec 1) (st : State) : Out :=
  engWord .vector (wordOf (.vdot w e d s l t u k p q v)) (reduceBody d (fun n => src1 s q l (span32 n)) (fun n => .region t.toNat u (span32 n)) k p v vdotRes
    (fun md i => bAdd (bTimes i.x1.length (mulTerm i)) (sumShare md i.x1.length (products i).1))) st

/-! ## Conversions (R381, R382) -/

/-- The conversion words. -/
inductive VCv where
  | cvt | qnt | dqnt
  deriving DecidableEq, Repr

/-- The parameters of a conversion. -/
structure CvPar where
  scale : W32
  zp : Int
  sf : Nat
  df : Nat
  rm : Nat
  tid : Nat
  row : Nat
  deriving DecidableEq, Repr

/-- The zero point of a format, when it lies in the format's code range (R240). -/
def zeroPoint (fmt z : Nat) : Option Int :=
  let v : Int := if fmt = 5 ∨ fmt = 6 then sext 8 z else (z : Int)
  if isIntFmt fmt then if (intRange fmt).1 ≤ v ∧ v ≤ (intRange fmt).2 then some v else none
  else if z = 0 then some 0 else none

/-- The parameters that a scalar pair gives a word; none when they break R381. -/
def VCv.par (op : VCv) (p0 p1 rmode : Nat) (q : Bool) : Option CvPar :=
  let sf := bits p0 23 20
  let df := bits p0 19 16
  let rm := bits p0 15 13
  let z := bits p0 31 24
  let ok := match op with
    | .cvt => decide (sf ≤ 8 ∧ df ≤ 8)
    | .qnt => decide (sf ≤ 2 ∧ 3 ≤ df ∧ df ≤ 8)
    | .dqnt => decide (3 ≤ sf ∧ sf ≤ 8 ∧ df ≤ 2)
  let zp := match op with
    | .cvt => if z = 0 then some 0 else none
    | .qnt => zeroPoint df z
    | .dqnt => zeroPoint sf z
  match zp with
  | none => none
  | some zp =>
    if ok && bits p0 12 0 == 0 && rm != 5 && rm != 6 && !(q && fmtBits sf == 4) then
      some ⟨BitVec.ofNat 32 (bits p0 63 32), zp, sf, df, if rm = 7 then rmode else rm, bits p1 63 32, bits p1 31 0⟩
    else none

/-- The exact value of an element before its rounding, with the flags of forming it. -/
def VCv.exact (op : VCv) (p : CvPar) (x : Nat) : Val × Fl :=
  let v := decodeFmt p.sf x
  match op with
  | .cvt => v.mul (f32 p.scale)
  | .qnt =>
    let (y, f) := v.mul (f32 p.scale)
    let (z, g) := y.add false (Val.ofInt p.zp)
    (z, f ||| g)
  | .dqnt =>
    let (y, f) := v.add false (Val.ofInt p.zp).negate
    let (z, g) := y.mul (f32 p.scale)
    (z, f ||| g)

/-- Every element converted. -/
def VCv.elems (op : VCv) (p : CvPar) (seed : Nat) (x : List Nat) : List Nat × Fl :=
  collect (x.zipIdx.map fun e =>
    let (y, f) := op.exact p e.1
    let (r, g) := roundFmt p.df (modeRsr p.rm seed p.tid p.row e.2) y
    (r, f ||| g))

/-- Does a format hold every value of another one exactly (R249). -/
def embeds (sf df : Nat) : Bool :=
  sf == df || match df with
    | 0 => true
    | 1 => decide (3 ≤ sf)
    | 2 => decide (3 ≤ sf)
    | 3 => sf == 6 || sf == 8
    | 4 => sf == 6
    | 5 => sf == 6 || sf == 8
    | 7 => sf == 8
    | _ => false

/-- The step that a conversion's rounding adds: 0 where the target holds every value of the source and nothing scales it (R249). -/
def CvPar.step (p : CvPar) (ys : List Val) : W32 :=
  if p.scale = 0x3F800000#32 ∧ p.zp = 0 ∧ embeds p.sf p.df = true then 0#32 else bStep p.df p.rm (maxExp ys)

/-- The bound of a conversion; a saturated element, a NaN or an infinity makes it +∞ (R249, R382). A quantisation takes the integer step of
R249 whatever its target, as R382 words it (log 136). -/
def VCv.bound (op : VCv) (p : CvPar) (x : List Nat) (e1 : W32) (fl : Fl) : W32 :=
  let ys := x.map fun v => (op.exact p v).1
  let sc := (f32 p.scale).abs
  if fl &&& (flSAT ||| flOF) != 0#7 || !ys.all Val.isFin then bInf
  else
    match op with
    | .cvt => bAdd (bMul e1 sc) (p.step ys)
    | .dqnt => bAdd e1 (p.step ys)
    | .qnt =>
      match sc, f32 (quantStep p.rm) with
      | .fin _ m e, .fin _ n x =>
        if m = 0 then bInf
        else
          let (q, y) := quotient n x m e
          bAdd e1 (bUp (.fin false q y))
      | _, _ => bInf

/-- VCVT, VQNT and VDQNT: the parameters lie in a scalar pair. -/
def cvBody (op : VCv) (d s : BitVec 4) (l : BitVec 1) (t : BitVec 2) (m k p q : BitVec 1) (_u : QUnit) (st : State) : M EngRes := do
  let th := st.th
  let p0 ← rdS st th (2 * t.toNat) 6
  let p1 ← rdS st th (2 * t.toNat + 1) 7
  match op.par p0.toNat p1.toNat (th.roundMode.toNat % 8) (q == 1#1) with
  | none => raise cIllegalOp 0 p0.toNat
  | some c =>
    vecRun { d := d.toNat, dp := Span.ofFmt th.n c.df, s1 := src1 s q l (Span.ofFmt th.n c.sf), b := k, u := p,
             post := fun x => freeS x m (2 * t.toNat), sv := [p0.toNat, p1.toNat] }
      (fun i => op.elems c th.dropSeed.toNat i.x1) (fun i _ fl => op.bound c i.x1 i.e1 fl) st

/-- VCVT (R381). -/
def execVcvt (w e : BitVec 2) (d s : BitVec 4) (l : BitVec 1) (t : BitVec 2) (u k p q : BitVec 1) (st : State) : Out :=
  engWord .vector (wordOf (.vcvt w e d s l t u k p q)) (cvBody .cvt d s l t u k p q) st
/-- VQNT (R381). -/
def execVqnt (w e : BitVec 2) (d s : BitVec 4) (l : BitVec 1) (t : BitVec 2) (u k p q : BitVec 1) (st : State) : Out :=
  engWord .vector (wordOf (.vqnt w e d s l t u k p q)) (cvBody .qnt d s l t u k p q) st
/-- VDQNT (R381). -/
def execVdqnt (w e : BitVec 2) (d s : BitVec 4) (l : BitVec 1) (t : BitVec 2) (u k p q : BitVec 1) (st : State) : Out :=
  engWord .vector (wordOf (.vdqnt w e d s l t u k p q)) (cvBody .dqnt d s l t u k p q) st

/-! ## Data movement (R383) -/

/-- The bound of moved elements: +∞ for a NaN or an infinity among elements of 32 bits, which are FP32 values (R251, log 37). -/
def moveBound (e : Nat) (x : List Nat) (b : W32) : W32 := if e = 4 then unlessNaN x b else b

/-- VCOPY (R383). -/
def execVcopy (w e : BitVec 2) (d s : BitVec 4) (l k p q : BitVec 1) (v : BitVec 2) (st : State) : Out :=
  engWord .vector (wordOf (.vcopy w e d s l k p q v)) (fun _ st =>
    let sp := st.th.span (sizeBytes v)
    vecRun { d := d.toNat, dp := sp, s1 := src1 s q l sp, b := k, u := p } (fun i => (i.x1, 0#7)) (fun i r _ => moveBound sp.e r i.e1) st) st

/-- VBCAST (R383). -/
def execVbcast (w e : BitVec 2) (d s : BitVec 4) (l k p : BitVec 1) (v : BitVec 2) (st : State) : Out :=
  engWord .vector (wordOf (.vbcast w e d s l k p v)) (fun _ st =>
    let sp := st.th.span (sizeBytes v)
    vecRun { d := d.toNat, dp := sp, s1 := .region s.toNat l { sp with n := 1 }, b := k, u := p }
      (fun i => (List.replicate st.th.n (i.x1.head?.getD 0), 0#7)) (fun i r _ => moveBound sp.e r i.e1) st) st

/-- A region's register with its wrap register, when a post-update uses it. -/
def rawReg (s : State) (t : Thread) (r : Nat) (u : BitVec 1) (k : Nat) : M (W × W) := do
  let a ← rdA s t r k
  let m ← (if u = 1#1 ∧ (Rgn.of a).mode ≠ 0 then rdM s t r (k + 1) else .ok 0#64 : M W)
  .ok (a, m)

/-- The end of a data-movement word: the last uses, the bound of the destination, the post-updates. -/
def moveEnd (s : State) (d : Nat) (k u : BitVec 1) (e1 : W32) (regs : List (Nat × W × W)) (free : Thread → Thread) : EngRes :=
  let t := free s.th
  let t := { t with eb := vset t.eb d (if k = 1#1 then e1 else bInf) }
  let (t, n, late) := if u = 1#1 then t.postAll regs else (t, 0, Option.none)
  { s := s.setTh t, late := late, wcb := n, vals := t.vc.toNat :: regs.flatMap fun r => [r.2.1.toNat, r.2.2.toNat] }

/-- What the region interlock takes of a data-movement word: the elements read and written, and the range from the lowest to the highest byte
written (R375). -/
def EngRes.moved (r : EngRes) (src dst : List Int) (e : Nat) : EngRes :=
  { r with reads := r.reads ++ elemBytes (src ++ dst) e, writes := hullBytes dst e }

/-- Offsets of a matrix of `r` rows and `c` columns of elements of `e` bytes, row by row; STRIDE is the row pitch. -/
def matOffs (g : Rgn) (r c e : Nat) : List (List Int) :=
  (List.range r).map fun (i : Nat) => (List.range c).map fun (j : Nat) => (g.base : Int) + (i : Int) * g.stride + (j : Int) * (e : Int)

/-- VTRN: an R by C matrix transposed. -/
def vtrnBody (d s : BitVec 4) (l : BitVec 1) (t : BitVec 3) (m k p : BitVec 1) (v : BitVec 2) (_u : QUnit) (st : State) : M EngRes := do
  let th := st.th
  holdFor th (if k = 1#1 then [s.toNat] else [])
  let par ← rdS st th t.toNat 6
  let r := bits par.toNat 15 0
  let c := bits par.toNat 31 16
  require (par.toNat / 2 ^ 32 == 0 && r != 0 && c != 0 && r * c == th.n) cIllegalOp 0 par.toNat
  let e := sizeBytes v
  let sp : Span := { n := 1, e := e, nib := false }
  let (da, dm) ← rawReg st th d.toNat p 0
  let dst := matOffs (Rgn.of da) c r e
  checkOffs dst.flatten e
  let (sa, sm) ← rawReg st th s.toNat p 2
  let src := matOffs (Rgn.of sa) r c e
  checkOffs src.flatten e
  let (s1, x) ← st.readElems src.flatten sp
  let res := (List.range c).flatMap fun j => (List.range r).map fun i => x.getD (i * c + j) 0
  let s1 := s1.writeElems sp dst.flatten res
  let r := moveEnd s1 d.toNat k p (moveBound e res (vget th.eb s.toNat bInf)) [(d.toNat, da, dm), (s.toNat, sa, sm)]
    fun x => freeS (freeA x l s.toNat) m t.toNat
  .ok ({ r with vals := r.vals ++ [par.toNat] }.moved src.flatten dst.flatten e)

/-- VTRN (R383). -/
def execVtrn (w e : BitVec 2) (d s : BitVec 4) (l : BitVec 1) (t : BitVec 3) (u k p : BitVec 1) (v : BitVec 2) (st : State) : Out :=
  engWord .vector (wordOf (.vtrn w e d s l t u k p v)) (vtrnBody d s l t u k p v) st

/-- BASE and STRIDE of an indexed operand are multiples of the element size (R383). -/
def checkIndexed (g : Rgn) (e : Nat) : M PUnit := do
  require (g.base % e == 0) cMisaligned 0 g.base
  require (g.stride % (e : Int) == 0) cMisaligned 0 (infoOf g.stride)

/-- The offsets that indices give, checked in ascending order (R383). -/
def indexedOffs (g : Rgn) (e : Nat) (ix : List Nat) : M (List Int) :=
  let l := ix.map fun (i : Nat) => (g.base : Int) + (i : Int) * g.stride
  match l.findIdx? fun o => decide (o < 0 ∨ o + (e : Int) > 2 ^ 21) with
  | some i => raise cRegionBounds 0 (i * 2 ^ 32 + infoOf (l.getD i 0) % 2 ^ 32)
  | none => .ok l

/-- VGATH: elements gathered by index. -/
def vgathBody (d s : BitVec 4) (l : BitVec 1) (t : BitVec 4) (m k p : BitVec 1) (v : BitVec 2) (_u : QUnit) (st : State) : M EngRes := do
  let th := st.th
  let e := sizeBytes v
  let sp := th.span e
  holdFor th (if k = 1#1 then [s.toNat] else [])
  let rd ← readReg st th d.toNat sp p 0
  let (sa, sm) ← rawReg st th s.toNat p 2
  checkIndexed (Rgn.of sa) e
  let r2 ← readReg st th t.toNat (th.span 4) p 4
  let (s1, ix) ← st.readElems r2.offs r2.p
  let src ← indexedOffs (Rgn.of sa) e ix
  let (s1, x) ← s1.readElems src sp
  let s1 := s1.writeElems sp rd.offs x
  let r := moveEnd s1 d.toNat k p (moveBound e x (vget th.eb s.toNat bInf)) [(d.toNat, rd.a, rd.m), (s.toNat, sa, sm), (t.toNat, r2.a, r2.m)]
    fun x => freeA (freeA x l s.toNat) m t.toNat
  .ok ({ r with reads := r2.bytes }.moved src rd.offs e)

/-- VGATH (R383). -/
def execVgath (w e : BitVec 2) (d s : BitVec 4) (l : BitVec 1) (t : BitVec 4) (u k p : BitVec 1) (v : BitVec 2) (st : State) : Out :=
  engWord .vector (wordOf (.vgath w e d s l t u k p v)) (vgathBody d s l t u k p v) st

/-- VSCAT: elements scattered by index, in ascending order. -/
def vscatBody (d s : BitVec 4) (l : BitVec 1) (t : BitVec 4) (m k p q : BitVec 1) (v : BitVec 2) (_u : QUnit) (st : State) : M EngRes := do
  let th := st.th
  let e := sizeBytes v
  let sp := th.span e
  let src := src1 s q l sp
  match src with
  | .queue q p => checkVQ th q p.n p.e
  | _ => .ok ⟨⟩
  let (da, dm) ← rawReg st th d.toNat p 0
  checkIndexed (Rgn.of da) e
  let r1 ← src.reg st th p 2
  holdFor th (if k = 1#1 then r1.toList.map (·.r) else [])
  let r2 ← readReg st th t.toNat (th.span 4) p 4
  let (s1, ix) ← st.readElems r2.offs r2.p
  let dst ← indexedOffs (Rgn.of da) e ix
  let (s1, x) ← src.read s1 r1
  let s1 := s1.writeElems sp dst x
  let regs := (d.toNat, da, dm) :: ((r1.toList.map fun r => (r.r, r.a, r.m)) ++ [(t.toNat, r2.a, r2.m)])
  let r := moveEnd s1 d.toNat k p (moveBound e x (src.bound th)) regs fun x => freeA (src.free x) m t.toNat
  .ok ({ r with vals := r.vals ++ src.kept x, reads := r2.bytes ++ r1.toList.flatMap VReg.bytes }.moved [] dst e)

/-- VSCAT (R383). -/
def execVscat (w e : BitVec 2) (d s : BitVec 4) (l : BitVec 1) (t : BitVec 4) (u k p q : BitVec 1) (v : BitVec 2) (st : State) : Out :=
  engWord .vector (wordOf (.vscat w e d s l t u k p q v)) (vscatBody d s l t u k p q v) st

/-! ## Random numbers and dropout (R256, R257, R384, R385) -/

/-- 24 random bits as an FP32 value in [0, 1), exact. -/
def unitRand (v : Nat) : Nat := (round32 rne (.fin false (v / 256) (-24))).1.toNat

/-- VRAND: elements from the generator, as integers or as FP32. -/
def vrandBody (d : BitVec 4) (t : BitVec 3) (m k p v : BitVec 1) (_u : QUnit) (st : State) : M EngRes := do
  let th := st.th
  let par ← rdS st th t.toNat 6
  let draw (i : Nat) : Nat := rand32 th.dropSeed.toNat (bits par.toNat 63 32) (bits par.toNat 31 0) i
  vecRun { d := d.toNat, dp := th.span 4, s1 := .none, b := k, u := p, post := fun x => freeS x m t.toNat, sv := [par.toNat] }
    (fun _ => ((List.range th.n).map fun i => if v = 1#1 then unitRand (draw i) else draw i, 0#7)) (fun _ _ _ => 0#32) st

/-- VRAND (R384). -/
def execVrand (w e : BitVec 2) (d : BitVec 4) (t : BitVec 3) (u k p v : BitVec 1) (st : State) : Out :=
  engWord .vector (wordOf (.vrand w e d t u k p v)) (vrandBody d t u k p v) st

/-- One element of dropout: kept and scaled, or +0 (R257). -/
def dropElem (seed tid row col keep : Nat) (ks x : W32) : W32 × Fl :=
  if rand32 seed tid row col < keep then mul32 rne x ks else (0#32, 0#7)

/-- VDROP: the parameters lie in a scalar pair. -/
def vdropBody (d s : BitVec 4) (l : BitVec 1) (t : BitVec 2) (m k p q : BitVec 1) (_u : QUnit) (st : State) : M EngRes := do
  let th := st.th
  let p0 ← rdS st th (2 * t.toNat) 6
  let p1 ← rdS st th (2 * t.toNat + 1) 7
  let ks := p0.extractLsb' 0 32
  let sp := th.span 4
  vecRun { d := d.toNat, dp := sp, s1 := src1 s q l sp, b := k, u := p, post := fun x => freeS x m (2 * t.toNat), sv := [p0.toNat, p1.toNat] }
    (fun i => collect (i.x1.zipIdx.map fun x =>
      let r := dropElem th.dropSeed.toNat (bits p1.toNat 63 32) (bits p1.toNat 31 0) x.2 (bits p0.toNat 63 32) ks (w32 x.1)
      (r.1.toNat, r.2)))
    (fun i r _ => unlessNaN r (bAdd (bMul i.e1 (f32 ks).abs) (uOf rne r))) st

/-- VDROP (R385). -/
def execVdrop (w e : BitVec 2) (d s : BitVec 4) (l : BitVec 1) (t : BitVec 2) (u k p q : BitVec 1) (st : State) : Out :=
  engWord .vector (wordOf (.vdrop w e d s l t u k p q)) (vdropBody d s l t u k p q) st

end Sys2Proof.Machine
end

