-- ==== Sys2Proof/Machine/Tile.lean ====
section
/-! DEFINITION. The arithmetic of accumulator tiles: steps, bounds, the checksum column, the drained values (R240 to R250, R255, R257,
R351, R356). -/

namespace Sys2Proof.Machine

open Sys2Proof

/-! ## Tables as full lists -/

/-- The values of keys `k` to `k + n - 1`, absent keys at `d`; every key listed is at least `k`. -/
def denseFrom {α : Type} (d : α) : Nat → Nat → Tab α → List α
  | 0, _, _ => []
  | n + 1, k, [] => d :: denseFrom d n (k + 1) []
  | n + 1, k, (j, v) :: r => if j = k then v :: denseFrom d n (k + 1) r else d :: denseFrom d n (k + 1) ((j, v) :: r)

/-- The values of keys `k` to `k + n - 1`. -/
def dense {α : Type} (d : α) (n k : Nat) (t : Tab α) : List α := denseFrom d n k (t.dropWhile fun e => decide (e.1 < k))

/-- The table of a list whose first key is `k`, entries equal to `d` left out. -/
def sparse {α : Type} [DecidableEq α] (d : α) : Nat → List α → Tab α
  | _, [] => []
  | k, v :: r => if v = d then sparse d (k + 1) r else (k, v) :: sparse d (k + 1) r

/-! ## Format-table entries (R54, R351) -/

/-- The fields of an entry. -/
structure FtE where
  afmt : Nat
  bfmt : Nat
  grp : Nat
  sck : Nat
  acc : Bool
  ornd : Nat
  ofmt : Nat
  deriving DecidableEq, Repr

def FtE.of (w : W32) : FtE :=
  let x := w.toNat
  { afmt := bits x 31 28, bfmt := bits x 27 24, grp := bits x 23 22, sck := bits x 21 20, acc := bit x 19, ornd := bits x 18 16,
    ofmt := bits x 15 12 }

/-- Is the entry an integer pairing. -/
def FtE.int (f : FtE) : Bool := isIntFmt f.afmt

/-- Group length along K (R240, R351). -/
def FtE.g (f : FtE) : Nat := if f.sck = 2 then 32 else 32 * 2 ^ f.grp

/-- Is the pairing one of R351. -/
def FtE.pairing (f : FtE) : Bool :=
  let fp8 (x : Nat) : Bool := x == 3 || x == 4
  let ok :=
    if fp8 f.afmt && fp8 f.bfmt then f.sck == 0 || f.sck == 2
    else if isIntFmt f.afmt && isIntFmt f.bfmt then f.sck == 0 || f.sck == 1 || f.sck == 3
    else if f.afmt == f.bfmt && (f.afmt == 1 || f.afmt == 2) then f.sck == 0 || f.sck == 3
    else false
  ok && f.ofmt != 6 && f.ofmt != 8 && decide (f.ofmt ≤ 8 ∧ f.grp ≤ 2)

/-- Does the kind that a scale frame's FMT implies agree with SCK (R242). -/
def impliesSck (fmt sck : Nat) : Bool :=
  if fmt = 3 ∨ fmt = 4 then sck == 2 else if isIntFmt fmt then sck == 1 || sck == 3 else sck == 3

/-- The scale kind under which a scale frame is checked at its fill (R242). -/
def fillSck (fmt : Nat) : Nat := if fmt = 3 ∨ fmt = 4 then 2 else if isIntFmt fmt then 1 else 3

/-- Index of the entry of a scale tile for (n, j) (R241). -/
def scaleIndex (n j : Nat) : Nat := n % 16 + 16 * j + 64 * ((n / 16) ^^^ (j * 5))

/-- The scale of an entry. -/
def scaleOf (sck v : Nat) : Val :=
  if sck = 0 then Val.one else if sck = 2 then decodeE8M0 (v % 256) else fmtFP16.decode (v % 65536)

/-- The zero point of an entry: two's complement for the INT formats (R241). -/
def zeroOf (sck fmt v : Nat) : Int :=
  if sck = 1 then if fmt = 5 ∨ fmt = 6 then sext 8 (bits v 23 16) else (bits v 23 16 : Nat) else 0

/-! ## Steps (R243 to R247) -/

/-- A step's addend: its exact value, its flags, whether it makes the bound +∞, whether it lies below the normal range. -/
structure Addend where
  v : Val
  fl : Fl
  inf : Bool
  uf : Bool

/-- The largest finite FP32 value. -/
def maxFinite (n : Bool) : Val := .fin n 16777215 104

/-- ScaledRange (R246). -/
def scaledRange (x : Val) (fl : Fl) : Addend :=
  match x with
  | .nan _ => ⟨.nan false, fl, true, false⟩
  | .inf _ => ⟨x, fl, true, false⟩
  | .fin n m e =>
    if m = 0 then ⟨x, fl, false, false⟩
    else if cmpFin false m e false 16777215 104 = .gt then ⟨maxFinite n, fl ||| flSAT, true, false⟩
    else ⟨x, fl, false, decide (topExp m e < -126)⟩

/-- What the elements of a step give together: the running exponent, flags, an infinite bound, an underflow. -/
structure StepSum where
  emax : Int
  fl : Fl
  inf : Bool
  uf : Bool

/-- Exponent of a finite non-zero value for R245; others count for nothing. -/
def runExp (v : Val) : Int := if v.isFin then magExp v else -1000

/-- One addend and the values before and after it taken into account. -/
def StepSum.see (o : StepSum) (p : Addend) (fl : Fl) (before after : Val) : StepSum :=
  { emax := max o.emax (max (runExp before) (max (runExp after) (runExp p.v)))
    fl := o.fl ||| ((p.fl ||| fl) &&& (flNV ||| flSAT))
    inf := o.inf || p.inf || !after.isFin
    uf := o.uf || p.uf }

/-- RoundNE(x + y, FP32), with the flags of the sum. -/
def addNe (x y : Val) : W32 × Fl :=
  let (s, f) := x.add false y
  ((round32 rne s).1, f)

/-- A normal step over a list of values (R243). -/
def stepNormal : List Addend → List W32 → StepSum → List W32 × StepSum
  | p :: ps, a :: as, o =>
    let r := addNe (f32 a) p.v
    let (rs, o) := stepNormal ps as (o.see p r.2 (f32 a) (f32 r.1))
    (r.1 :: rs, o)
  | _, _, o => ([], o)

/-- The value of a pair. -/
def pairVal (hi lo : W32) : Val := ((f32 hi).add false (f32 lo)).1

/-- One pair after an addend (R244). A sum that is no finite value leaves no rest to carry: the pair is then that value and +0. -/
def extStep (hi lo : W32) (v : Val) : W32 × W32 × Fl :=
  let (x, f) := (f32 hi).add false v
  let s := (round32 rne x).1
  if !(f32 s).isFin then (s, 0#32, f)
  else
    let e := (x.add false (f32 s).negate).1
    let lo1 := (addNe (f32 lo) e).1
    let hi2 := (addNe (f32 s) (f32 lo1)).1
    if !(f32 hi2).isFin then (hi2, 0#32, f)
    else (hi2, (addNe (((f32 s).add false (f32 hi2).negate).1) (f32 lo1)).1, f)

/-- An extended step over lists of pairs. -/
def stepExt : List Addend → List W32 → List W32 → StepSum → List W32 × List W32 × StepSum
  | p :: ps, h :: hs, l :: ls, o =>
    let (h1, l1, f) := extStep h l p.v
    let (rh, rl, o) := stepExt ps hs ls (o.see p f (pairVal h l) (pairVal h1 l1))
    (h1 :: rh, l1 :: rl, o)
  | _, _, _, o => ([], [], o)

/-- A tile while an MMA works on it: values, low parts, the checksum column, exponents, bound, flags. -/
structure TileW where
  hi : List W32
  lo : List W32
  chi : List W32
  clo : List W32
  emax : Int
  ec : Int
  bound : W32
  fl : Fl

/-- One step of every element and of the checksum column, and the growth of the bound (R245, R246, R247, R255). -/
def TileW.step (ext int : Bool) (t : TileW) (x : List Addend × List Addend) : TileW :=
  let o0 : StepSum := ⟨t.emax, 0#7, false, false⟩
  let c0 : StepSum := ⟨t.ec, 0#7, false, false⟩
  let (hi, lo, o) := if ext then stepExt x.1 t.hi t.lo o0 else let (h, o) := stepNormal x.1 t.hi o0; (h, t.lo, o)
  let (chi, clo, c) := if ext then stepExt x.2 t.chi t.clo c0 else let (h, c) := stepNormal x.2 t.chi c0; (h, t.clo, c)
  let b := bAdd t.bound (stepGrowth ext int o.emax)
  let b := if o.uf then bAdd b (bPow (-150)) else b
  { hi := hi, lo := lo, chi := chi, clo := clo, emax := o.emax, ec := c.emax, bound := if o.inf then bInf else b,
    fl := t.fl ||| o.fl }

/-! ## The operands of an MMA (R243, R352) -/

/-- What an MMA reads: codes of the A rows and of the B rows, entries of the scale tiles. -/
structure MmaData where
  a : List (List Nat)
  b : List (List Nat)
  sa : Array Nat
  sb : Array Nat

/-- Group slot of step k (R352). -/
def groupSlot (f : FtE) (kofs k : Nat) : Nat := (kofs + k) / f.g % 4

/-- A scale of A or B. -/
def scaleAt (f : FtE) (t : Array Nat) (n j : Nat) : Val := if f.sck = 0 then Val.one else scaleOf f.sck (t.getD (scaleIndex n j) 0)

/-- A zero point of A or B, for an element format. -/
def zeroAt (f : FtE) (fmt : Nat) (t : Array Nat) (n j : Nat) : Int := zeroOf f.sck fmt (t.getD (scaleIndex n j) 0)

/-- A product with the flags gathered so far. -/
def mulFl (x y : Val × Fl) : Val × Fl :=
  let (v, f) := x.1.mul y.1
  (v, x.2 ||| y.2 ||| f)

/-- Elements times their scales: each row of codes at one k, under the scale of its index. -/
def scaledFloats (f : FtE) (fmt : Nat) (t : Array Nat) (j : Nat) : Nat → List Nat → List (Val × Fl)
  | _, [] => []
  | n, c :: r => mulFl (decodeFmt fmt c, 0#7) (scaleAt f t n j, 0#7) :: scaledFloats f fmt t j (n + 1) r

/-- An exact sum of values. -/
def sumVals (l : List Val) : Val := l.foldl (fun a v => (a.add false v).1) (.fin false 0 0)

/-- RoundNE of an exact sum (R255). -/
def bsumOf (l : List Val) : Val := f32 (round32 rne (sumVals l)).1

/-- The addends of float step k. -/
def floatStep (f : FtE) (kofs : Nat) (d : MmaData) (k : Nat) : List Addend × List Addend :=
  let j := groupSlot f kofs k
  let av := scaledFloats f f.afmt d.sa j 0 (d.a.map fun r => r.getD k 0)
  let bv := scaledFloats f f.bfmt d.sb j 0 (d.b.getD k [])
  let bs := bsumOf (bv.map (·.1))
  (av.flatMap fun x => bv.map fun y => let (v, g) := mulFl x y; scaledRange v g,
    av.map fun x => let (v, g) := mulFl x (bs, 0#7); scaledRange v g)

/-- Exact integer product of two vectors. -/
def dotInt : List Int → List Int → Int
  | x :: xs, y :: ys => x * y + dotInt xs ys
  | _, _ => 0

/-- Columns of `n` rows. -/
def transpose (n : Nat) (rows : List (List Int)) : List (List Int) :=
  rows.foldr (fun r cols => List.zipWith (fun x c => x :: c) r cols) (List.replicate n [])

/-- The addend of an integer step: in normal mode u is rounded, in extended mode the exact product is carried (R243, R244). -/
def intAddend (ext : Bool) (sum : Val) (t : Val × Fl) : Addend :=
  let (v, g) := mulFl (sum, 0#7) t
  let u := if ext then v else f32 (round32 rne v).1
  ⟨u, g, !u.isFin, false⟩

/-- The addends of integer group step g. -/
def intStep (f : FtE) (ext : Bool) (kofs : Nat) (d : MmaData) (g : Nat) : List Addend × List Addend :=
  let k0 := g * f.g
  let j := groupSlot f kofs k0
  let qa := (d.a.zipIdx).map fun (r : List Nat × Nat) =>
    ((r.1.drop k0).take f.g).map fun c => (match decodeFmt f.afmt c with
      | .fin n m _ => signed n m
      | _ => 0) - zeroAt f f.afmt d.sa r.2 j
  let zb := (List.range 256).map fun n => zeroAt f f.bfmt d.sb n j
  let qb := ((d.b.drop k0).take f.g).map fun r => List.zipWith (fun (c : Nat) (z : Int) => (match decodeFmt f.bfmt c with
      | .fin n m _ => signed n m
      | _ => 0) - z) r zb
  let sb := (List.range 256).map fun n => (scaleAt f d.sb n j, (0#7 : Fl))
  let cols := (transpose 256 qb).zip sb
  let bs := qb.map fun r => bsumOf (List.zipWith (fun (q : Int) (s : Val × Fl) => ((Val.ofInt q).mul s.1).1) r sb)
  let rows := (qa.zipIdx).map fun (r : List Int × Nat) => (r.1, (scaleAt f d.sa r.2 j, (0#7 : Fl)))
  (rows.flatMap fun x => cols.map fun y => intAddend ext (Val.ofInt (dotInt x.1 y.1)) (mulFl x.2 y.2),
    rows.map fun x => intAddend ext (sumVals (List.zipWith (fun (q : Int) (b : Val) => ((Val.ofInt q).mul b).1) x.1 bs)) x.2)

/-- Exponent of the least power of two not below the largest |b| × ScaleB of an MMA (R248). -/
def maxB (f : FtE) (kofs K : Nat) (d : MmaData) : Option Int :=
  maxCeil ((List.range K).flatMap fun k =>
    let j := groupSlot f kofs k
    ((d.b.getD k []).zipIdx).map fun (c : Nat × Nat) =>
      let q := if f.int then (match decodeFmt f.bfmt c.1 with
        | .fin n m _ => Val.ofInt (signed n m - zeroAt f f.bfmt d.sb c.2 j)
        | x => x) else decodeFmt f.bfmt c.1
      (q.mul (scaleAt f d.sb c.2 j)).1.abs)

/-- The input term of R248 with εB 0. -/
def inputTerm (K : Nat) (eb : Option Int) (epsA : W32) : W32 := if epsA = bInf then bInf else bTimes K (bScale eb epsA)

/-- An MMA over K steps, its input term added when asked for. -/
def TileW.mma (f : FtE) (ext : Bool) (kofs K : Nat) (d : MmaData) (eps : Option W32) (t : TileW) : TileW :=
  let t := if f.int then (List.range (K / f.g)).foldl (fun t g => t.step ext true (intStep f ext kofs d g)) t
    else (List.range K).foldl (fun t k => t.step ext false (floatStep f kofs d k)) t
  match eps with
  | none => t
  | some e => { t with bound := bAdd t.bound (inputTerm K (maxB f kofs K d) e) }

/-! ## Tiles of a cluster -/

/-- Values of a tile (R80). -/
def tileSize : Nat := 32768

/-- A tile with its low parts and its bound. -/
def Cluster.tileW (c : Cluster) (n : Nat) : TileW :=
  let x := c.slotAt n
  let y := c.slotAt (n ^^^ 1)
  { hi := dense 0#32 tileSize 0 x.tile, lo := if x.ext then dense 0#32 tileSize 0 y.tile else [],
    chi := dense 0#32 128 0 x.chk, clo := if x.ext then dense 0#32 128 0 y.chk else [],
    emax := x.emax, ec := x.ec, bound := BitVec.ofNat 32 (vget c.ab n 0#64).toNat, fl := 0#7 }

/-- Put a tile back. -/
def Cluster.putTile (c : Cluster) (n : Nat) (t : TileW) : Cluster :=
  let x := c.slotAt n
  let a := vset c.acc n { x with tile := sparse 0#32 0 t.hi, chk := sparse 0#32 0 t.chi, emax := t.emax, ec := t.ec }
  let a := if x.ext then
      vset a (n ^^^ 1) { c.slotAt (n ^^^ 1) with tile := sparse 0#32 0 t.lo, chk := sparse 0#32 0 t.clo }
    else a
  { c with acc := a, ab := vset c.ab n (abSetBound (vget c.ab n 0#64) t.bound) }

/-- A slot replaced. -/
def Cluster.setSlot (c : Cluster) (n : Nat) (x : AccSlot) : Cluster := { c with acc := vset c.acc n x }

/-- Is the partner of a slot CLOSED. -/
def Cluster.partnerFree (c : Cluster) (n : Nat) : Bool := (c.slotAt (n ^^^ 1)).st == 0

/-- A tile enters extended mode; its partner is CLOSED (R348). -/
def Cluster.enterExt (c : Cluster) (n : Nat) : Cluster :=
  let c := c.setSlot n { c.slotAt n with ext := true }
  let c := c.setSlot (n ^^^ 1) { AccSlot.blank with st := 2 }
  { c with ab := vset c.ab (n ^^^ 1) 0x7F80000000000000#64 }

/-- A tile leaves extended mode (R348). -/
def Cluster.leaveExt (c : Cluster) (n : Nat) : Cluster :=
  let t := c.tileW n
  let join (h l : W32) : W32 := (round32 rne (pairVal h l)).1
  let c := c.setSlot (n ^^^ 1) { c.slotAt (n ^^^ 1) with st := 0 }
  let c := c.setSlot n { c.slotAt n with ext := false }
  c.putTile n { t with
    hi := List.zipWith join t.hi t.lo, lo := [], chi := List.zipWith join t.chi t.clo, clo := []
    bound := bAdd t.bound (bHalf fmtFP32 t.emax) }

/-- MXMODE on an open tile; the partner of one that enters extended mode is CLOSED (R349). -/
def Cluster.setMode (c : Cluster) (n : Nat) (ext : Bool) : Cluster :=
  if (c.slotAt n).ext = ext then c else if ext then c.enterExt n else c.leaveExt n

/-- MZERO on an open tile (R349). -/
def Cluster.zeroTile (c : Cluster) (n : Nat) : Cluster :=
  let x := c.slotAt n
  let c := c.setSlot n { x with tile := [], chk := [], emax := -150, ec := -150, kofs := 0 }
  let c := if x.ext then c.setSlot (n ^^^ 1) { c.slotAt (n ^^^ 1) with tile := [], chk := [] } else c
  { c with ab := vset c.ab n (abSetBound (vget c.ab n 0#64) 0#32) }

/-- A tile opens in a CLOSED slot: normal mode, all +0, whole (R349). -/
def Cluster.openTile (c : Cluster) (n uid pos base : Nat) (thr : W32) : Cluster :=
  { (c.setSlot n { AccSlot.blank with st := 1, task := uid, pos := pos, whole := true, lastft := base }) with
    ab := vset c.ab n (BitVec.ofNat 64 (thr.toNat % 2 ^ 31 * 2 ^ 32)), tileOpen := true, tileSlot := n }

/-- A drained tile closes with its partner; its values and its ab register stay (R356). -/
def Cluster.closeTile (c : Cluster) (n : Nat) : Cluster :=
  let x := c.slotAt n
  let c := c.setSlot n { x with st := 0 }
  let c := if x.ext then c.setSlot (n ^^^ 1) { c.slotAt (n ^^^ 1) with st := 0 } else c
  { c with tileOpen := c.tileOpen && c.tileSlot != n, leaseDue := true }

/-! ## The checksum at drain (R255) -/

/-- Values of the tile, exactly. -/
def Cluster.tileVals (c : Cluster) (n : Nat) : List Val :=
  let t := c.tileW n
  if (c.slotAt n).ext then List.zipWith pairVal t.hi t.lo else t.hi.map f32

/-- Values of the checksum column. -/
def Cluster.chkVals (c : Cluster) (n : Nat) : List Val :=
  let t := c.tileW n
  if (c.slotAt n).ext then List.zipWith pairVal t.chi t.clo else t.chi.map f32

/-- Rows of 256. -/
def rows256 : Nat → List Val → List (List Val)
  | 0, _ => []
  | m + 1, l => l.take 256 :: rows256 m (l.drop 256)

/-- The tolerance of R255. -/
def chkTol (beta : W32) (kofs : Nat) (ec : Int) (es : Option Int) : W32 :=
  let t := ((f32 beta).mul (.fin false 256 0)).1
  let t := (t.add false (.fin false kofs (ec - 22))).1
  bUp (match es with
    | none => t
    | some e => (t.add false (.fin false 1 (e - 16))).1)

/-- The first row whose sum differs from its checksum by more than the tolerance. -/
def Cluster.chkMismatch (c : Cluster) (n : Nat) : Option Nat :=
  let x := c.slotAt n
  let beta : W32 := BitVec.ofNat 32 (vget c.ab n 0#64).toNat
  let vals := c.tileVals n
  if beta = bInf ∨ vals.any (fun v => !v.isFin) = true then none
  else
    let rows := rows256 128 vals
    let es := maxCeil (rows.map fun r => sumVals (r.map Val.abs))
    let tol := f32 (chkTol beta x.kofs x.ec es)
    let bad (r : List Val) (k : Val) : Bool :=
      let s := f32 (BitVec.ofNat 32 (reduce32 rne (sumStep rne) r).1)
      ((s.add false k.negate).1.abs.cmp tol) == .gt
    (List.zipWith bad rows (c.chkVals n)).findIdx? id

/-! ## The drained values (R250, R257, R356) -/

/-- The parameters of a drain. -/
structure DrainP where
  drop : Bool
  keep : Nat
  ks : W32
  rowo : Nat
  colo : Nat
  tid : Nat
  res : Bool
  rfmt : Nat
  seed : Nat
  ofmt : Nat
  ornd : Nat

/-- What the elements of a drain give together: flags, exponents after each step, a saturated or infinite result. -/
structure DrainSum where
  fl : Fl
  e1 : Int
  e2 : Int
  e3 : Int
  sat : Bool

/-- One element: dropout, residual, conversion. -/
def drainElem (p : DrainP) (i : Nat) (x : Val) (r : Nat) (o : DrainSum) : Nat × DrainSum :=
  let row := p.rowo + i / 256
  let col := p.colo + i % 256
  let (x1, f1) := if p.drop then
      if rand32 p.seed p.tid row col < p.keep then
        let (v, g) := x.mul (f32 p.ks)
        let (c, h) := round32 rne v
        (f32 c, g ||| h)
      else (.fin false 0 0, 0#7)
    else (x, 0#7)
  let (x2, f2) := if p.res then
      let y := decodeFmt p.rfmt r
      let (v, g) := x1.add false y
      let (c, h) := round32 rne v
      (f32 c, g ||| h)
    else (x1, 0#7)
  let (c, f3) := roundFmt p.ofmt (modeRsr p.ornd p.seed p.tid row col) x2
  let y := decodeFmt p.ofmt c
  let f3 := f3 ||| flIf x2.isSig flNV
  (c, { fl := o.fl ||| f1 ||| f2 ||| f3, e1 := max o.e1 (magExp x1), e2 := max o.e2 (magExp x2), e3 := max o.e3 (magExp y),
        sat := o.sat || !y.isFin || (f3 &&& (flSAT ||| flOF)) != 0#7 })

/-- Every element of a drain. -/
def drainAll (p : DrainP) : Nat → List Val → List Nat → DrainSum → List Nat × DrainSum
  | _, [], _, o => ([], o)
  | i, x :: xs, rs, o =>
    let (c, o) := drainElem p i x (rs.headD 0) o
    let (cs, o) := drainAll p (i + 1) xs rs.tail o
    (c :: cs, o)

/-- Does the output format hold every value that is converted: FP32 for values that are FP32 already, which those of an extended tile are
only after dropout or a residual (R249, R250). -/
def DrainP.embeds (p : DrainP) (ext : Bool) : Bool := p.ofmt == 0 && (!ext || p.drop || p.res)

/-- The drained bound (R250). -/
def drainBound (p : DrainP) (ext : Bool) (b epsR : W32) (o : DrainSum) : W32 :=
  let b := if p.drop then bAdd (bMul b (f32 p.ks)) (bStep 0 0 o.e1) else b
  let b := if p.res then bAdd (bAdd b epsR) (bStep 0 0 o.e2) else b
  if o.sat then bInf else if p.embeds ext then b else bAdd b (bStep p.ofmt p.ornd o.e3)

/-- A NaN, or a negative value but for −0: no threshold (R349). -/
def badThreshold (v : W32) : Bool := (f32 v).isNan || ((f32 v).neg && !(f32 v).isZero)

end Sys2Proof.Machine
end

