-- ==== Sys2Proof/Machine/Matrix.lean ====
section
/-! DEFINITION. The matrix words (R343 to R361, R366). -/

namespace Sys2Proof.Machine

open Sys2Proof

/-! ## The lease (R344, R345) -/

/-- A word that needs the array: it waits for the lease, and counts as a word issued under it (R344). -/
def arrayBody (f : QUnit → State → M EngRes) (u : QUnit) (s : State) : M EngRes := do
  let k := s.me
  let cl := thrCluster k
  require s.th.claim cIllegalContext 0 (s.free 3).toNat
  if !s.holdsLease k then .ok { s := s.leaseWait cl (thrCore k % 4), more := some .lease }
  else do
    let r ← f u s
    if r.more.isSome then .ok r
    else
      .ok { r with s := (r.s.modCluster cl fun c => { c with words := min (c.words + 1) 64 }).leaseRotate cl }

/-- LEASE: the claim is set, and the word waits until the core holds the lease. -/
def leaseBody (u : QUnit) (s : State) : M EngRes :=
  let k := s.me
  let t := s.th
  if t.claim && t.doneOf u = 0 then .ok { s := s }
  else
    let s := (s.setTh { t with claim := true }).leaseWait (thrCluster k) (thrCore k % 4)
    if s.holdsLease k then .ok { s := s.setTh (s.th.setDone u 0) }
    else .ok { s := s.setTh (s.th.setDone u 1), more := some .lease }

/-- UNLEASE: the claim is cleared, and a held lease passes under R161. -/
def unleaseBody (_u : QUnit) (s : State) : M EngRes :=
  let k := s.me
  let cl := thrCluster k
  if !s.th.claim then .ok { s := s }
  else
    let s := s.setTh { s.th with claim := false }
    let s := s.modCluster cl fun c => { c with waitq := c.waitq &&& ~~~(1#4 <<< (thrCore k % 4)) }
    .ok { s := s.leaseRotate cl }

/-- LEASE (R344). -/
def execLease (w e : BitVec 2) (st : State) : Out := engWord .matrix (wordOf (.lease w e)) leaseBody st
/-- UNLEASE (R344). -/
def execUnlease (w e : BitVec 2) (st : State) : Out := engWord .matrix (wordOf (.unlease w e)) unleaseBody st

/-! ## Errors of the accumulator memory and the B-store (R360, R430) -/

/-- The uncorrectable error that an access of a range of a structure meets. -/
def State.latentAt (s : State) (str unit lo hi : Nat) : Option Latent :=
  s.latent.find? fun l => l.str == str && l.unit == unit && l.kind != 0 && decide (lo ≤ l.loc ∧ l.loc < hi)

/-- An uncorrectable error that the thread sees as time only: counted, posted, gone. -/
def State.absorbLatent (s : State) (l : Latent) (die : Nat) : State :=
  let (src, u) := eventPlace l.str l.unit
  { (s.countErr (errPoison die)).postPoison src u l.str l.loc with latent := s.latent.erase l }

/-! ## What an MMA does (R353) -/

/-- What an MMA takes at its issue; the retained window keeps it (R135, R358). -/
structure MmaArgs where
  acc : Nat
  bs : Nat
  inBound : Bool
  a : W
  a2 : W
  vc : Nat
  fe : W32
  fi : Nat
  eps : W32

/-- The register values of an MMA in the retained window. -/
def MmaArgs.vals (p : MmaArgs) : List Nat := [p.a.toNat, p.a2.toNat, p.vc, p.fe.toNat, p.fi, p.eps.toNat]

/-- An MMA's arguments from its window entry. -/
def MmaArgs.ofVals (acc bs : Nat) (inBound : Bool) (l : List Nat) : MmaArgs :=
  let x (i : Nat) : Nat := l.getD i 0
  { acc := acc, bs := bs, inBound := inBound, a := BitVec.ofNat 64 (x 0), a2 := BitVec.ofNat 64 (x 1), vc := x 2,
    fe := BitVec.ofNat 32 (x 3), fi := x 4, eps := BitVec.ofNat 32 (x 5) }

/-- Slots of the weight tile. -/
def FtE.w (f : FtE) : Nat := if f.bfmt = 1 ∨ f.bfmt = 2 then 2 else 1

/-- Bytes of a row of K elements. -/
def rowBytes (K fmt : Nat) : Nat := (K * fmtBits fmt + 7) / 8

/-- Little-endian numbers of two bytes. -/
def halves : Nat → List Nat → List Nat
  | 0, _ => []
  | n + 1, l => (l.getD 0 0 + 256 * l.getD 1 0) :: halves n (l.drop 2)

/-- Codes of K elements packed in bytes (R235). -/
def unpack (fmt K : Nat) (l : List Nat) : List Nat :=
  match fmtBits fmt with
  | 4 => (l.flatMap fun b => [b % 16, b / 16]).take K
  | 8 => l.take K
  | _ => halves K l

/-- Entries of a scale tile. -/
def scaleEntries : Nat → List Nat → List Nat
  | 0, _ => []
  | n + 1, l => (l.getD 0 0 + 256 * (l.getD 1 0) + 65536 * (l.getD 2 0) + 16777216 * (l.getD 3 0)) :: scaleEntries n (l.drop 4)

/-- Bytes of the scratchpad from a place on, as numbers. -/
def spadNums (sp : List Host.Cell) (o n : Nat) : List Nat := (dense 0#8 n o sp).map (·.toNat)

/-- A B-store slot. -/
def Cluster.bslot (c : Cluster) (n : Nat) : BSlot := Tab.getD c.bst n BSlot.free

/-- The payload of a weight tile. -/
def Cluster.payload (c : Cluster) (bs w : Nat) : List Nat :=
  (List.range w).flatMap fun j => spadNums (c.bslot (bs + j)).dat 0 32768

/-- Rows of B: row k of payload elements k × 256 to k × 256 + 255 (R352). -/
def bRows (fmt : Nat) : Nat → List Nat → List (List Nat)
  | 0, _ => []
  | k + 1, l => unpack fmt 256 (l.take (32 * fmtBits fmt)) :: bRows fmt k (l.drop (32 * fmtBits fmt))

/-- The operands of an MMA as they stand. -/
def State.mmaData (s : State) (k : Nat) (p : MmaArgs) : MmaData :=
  let f := FtE.of p.fe
  let sp := (s.core (thrCore k)).spad
  let c := s.cluster (thrCluster k)
  let r := Rgn.of p.a
  { a := (List.range 128).map fun (m : Nat) => unpack f.afmt p.vc (spadNums sp ((r.base : Int) + (m : Int) * r.stride).toNat (rowBytes p.vc f.afmt))
    b := bRows f.bfmt p.vc (c.payload p.bs f.w)
    sa := if f.sck = 0 then #[] else (scaleEntries 1024 (spadNums sp (Rgn.of p.a2).base 4096)).toArray
    sb := if f.sck = 0 then #[] else (scaleEntries 1024 (spadNums (c.bslot (p.bs + f.w)).dat 0 4096)).toArray }

/-- The bytes of A and of its scale tile that an MMA reads, as guard ranges: its rows exactly, without the gaps between them, and
the whole scale tile (R353; log 167). -/
def MmaArgs.guard (p : MmaArgs) (core : Nat) : List (Nat × Nat × Nat) :=
  let f := FtE.of p.fe
  let r := Rgn.of p.a
  let n := rowBytes p.vc f.afmt
  let rows := if r.stride = n ∧ n ≠ 0 then [(core, r.base, r.base + 128 * n - 1)]
    else (List.range 128).map fun (m : Nat) => let o := ((r.base : Int) + (m : Int) * r.stride).toNat; (core, o, o + n - 1)
  rows ++ if f.sck = 0 then [] else [(core, (Rgn.of p.a2).base, (Rgn.of p.a2).base + 4095)]

/-- The steps of an MMA on its tile, with everything that R353 leaves in the tile's record. -/
def State.mmaApply (s : State) (k : Nat) (p : MmaArgs) : State :=
  let cl := thrCluster k
  let f := FtE.of p.fe
  let d := s.mmaData k p
  let c := s.cluster cl
  let c := if f.acc then c.setMode p.acc true else c
  let x := c.slotAt p.acc
  let t := (c.tileW p.acc).mma f x.ext x.kofs p.vc d (if p.inBound then some p.eps else none)
  let c := c.putTile p.acc t
  let y := c.slotAt p.acc
  let reads := (List.range (f.w + b01 (f.sck != 0))).map fun j => p.bs + j
  let c := c.setSlot p.acc { y with
    kofs := (y.kofs + p.vc) % 2 ^ 32, lastft := p.fi, guard := (p.guard (thrCore k) ++ y.guard).eraseDups,
    bread := (reads ++ y.bread).eraseDups }
  (s.setCluster cl c).modThread k fun th => { th with flags := orFlags th.flags t.fl }

/-! ## Tile replay and AUTO re-issue (R358, R359) -/

/-- The window entries after the MTSTART that opened a tile. -/
def sinceStart (acc : Nat) (l : List WinEntry) : List WinEntry :=
  l.foldl (fun a e =>
    match decode e.word with
    | .ok (.mtstart _ _ d _ _) => if d.toNat = acc then [] else a ++ [e]
    | _ => a ++ [e]) []

/-- Does a replay of a tile re-issue an entry: the MXMODE, MZERO and MMA that name its slot; an AUTO re-issue skips MXMODE. -/
def WinEntry.replays (acc : Nat) (auto : Bool) (e : WinEntry) : Bool :=
  match decode e.word with
  | .ok (.mxmode _ _ d _) => d.toNat == acc && !auto
  | .ok (.mzero _ _ d) => d.toNat == acc
  | .ok (.mma _ _ a _ _ _ _) => a.toNat == acc
  | _ => false

/-- Does an entry take its tile into extended mode (R348). -/
def WinEntry.extends (e : WinEntry) : Bool :=
  match decode e.word with
  | .ok (.mxmode _ _ _ m) => m == 1#1
  | .ok (.mma _ _ a _ b _ x) => (FtE.of (MmaArgs.ofVals a.toNat b.toNat (x == 1#1) e.vals).fe).acc
  | _ => false

/-- One entry re-issued on its tile. -/
def State.reissue (s : State) (k acc : Nat) (e : WinEntry) : State :=
  let cl := thrCluster k
  match decode e.word with
  | .ok (.mxmode _ _ _ m) => s.modCluster cl fun c => c.setMode acc (m == 1#1)
  | .ok (.mzero ..) => s.modCluster cl fun c => c.zeroTile acc
  | .ok (.mma _ _ _ _ b _ x) => s.mmaApply k (MmaArgs.ofVals acc b.toNat (x == 1#1) e.vals)
  | _ => s

/-- A tile as a replay resets it: as MTSTART does, with THRESH, LASTFT, the whole mark and what the tile has read kept; extended for AUTO. -/
def State.resetTile (s : State) (k acc : Nat) (auto : Bool) : State :=
  s.modCluster (thrCluster k) fun c =>
    let x := c.slotAt acc
    let c := if x.ext then c.setSlot (acc ^^^ 1) AccSlot.blank else c
    let c := c.setSlot acc { AccSlot.blank with
      st := 1, task := x.task, pos := x.pos, whole := true, since := x.since, lastft := x.lastft, guard := x.guard, bread := x.bread }
    let c := { c with ab := vset c.ab acc (abSetBound (vget c.ab acc 0#64) 0#32) }
    if auto then c.enterExt acc else c

/-- A word that needs a tile replay after the retained window is lost takes the region abort (R430). -/
def needWindow (s : State) : M PUnit := require (!s.th.lostC) cUncorrectable 10 (0x100 + (s.free 3).toNat % 256)

/-- A replay of a tile begins: the tile is reset, and the entries to re-issue are noted. One that enters extended mode finds the partner of a
tile that is normal now CLOSED, or the word raises ILLEGAL_CONTEXT before any effect (R348). -/
def State.startReplay (s : State) (k acc : Nat) (auto : Bool) : M State := do
  needWindow s
  let es := (sinceStart acc (s.thread k).winC).filter (WinEntry.replays acc auto)
  let c := s.cluster (thrCluster k)
  require (auto || !(es.any WinEntry.extends) || (c.slotAt acc).ext || c.partnerFree acc) cIllegalContext 1 (acc ^^^ 1)
  .ok ((s.resetTile k acc auto).modThread k fun t => { t with tileRep := some ⟨acc, auto, es⟩ })

/-- One try of the word that replays a tile: the next entry is re-issued with its permit (R225), none when the replay has ended. A tile whose
operands have changed meanwhile cannot be rebuilt (R136, R354). -/
def State.replayNext (s : State) (k : Nat) : M (Option State) :=
  match (s.thread k).tileRep with
  | none => .ok none
  | some r =>
    match r.left with
    | [] => .ok none
    | e :: es => do
      require ((s.cluster (thrCluster k)).slotAt r.acc).whole cUncorrectable 1 (r.acc * 131072)
      let s := (s.reissue k r.acc e).takePermit k .comp 0
      .ok (some (s.modThread k fun t => { t with tileRep := some { r with left := es } }))

/-- The word that has replayed its tile goes on. -/
def State.replayOver (s : State) (k : Nat) : State := s.modThread k fun t => { t with tileRep := none }

/-- The accumulator memory of a tile is read. An uncorrectable error discards the tile: a whole one is rebuilt by a replay, which then has
begun, and otherwise the region aborts (R430). -/
def State.accRead (s : State) (k n : Nat) : M (State × Bool) := do
  if s.latent.isEmpty then .ok (s, false)
  else
    let cl := thrCluster k
    let x := (s.cluster cl).slotAt n
    let halves := if x.ext then [n, n ^^^ 1] else [n]
    match halves.findSome? fun j => s.latentAt 1 cl (j * 131072) (j * 131072 + 131072) with
    | some l =>
      require (x.whole && !s.th.lostC) cUncorrectable 1 l.loc
      let s ← (s.absorbLatent l (thrDie k)).startReplay k n false
      .ok (s, true)
    | none => do
      let s ← halves.foldlM (fun s j => s.symRead 1 cl (j * 131072) (j * 131072 + 131072)) s
      .ok (s, false)

/-! ## Tiles (R347 to R350) -/

/-- An OPEN slot of the own task (R347). -/
def ownOpenTile (s : State) (k n : Nat) : M PUnit :=
  let x := (s.cluster (thrCluster k)).slotAt n
  require (x.st == 1 && x.task == (s.thread k).task) cIllegalContext 1 n

/-- The tile that MTSTART opens, and the last use of its scalar. A replay of the tile that it takes the place of is over. -/
def mtstartOpen (d s : BitVec 3) (l : BitVec 1) (cl : Nat) (thr : W32) (st : State) : State :=
  let s1 := st.modCluster cl fun c =>
    let c := if (c.slotAt d.toNat).st = 1 then c.discardTile d.toNat else c
    c.openTile d.toNat st.th.task st.th.gangPos (st.th.fmtBase.toNat % 16) thr
  s1.setTh { freeS s1.th l s.toNat with tileRep := s1.th.tileRep.filter fun r => r.acc != d.toNat }

/-- MTSTART: the threshold, the slot, the wait of R345, then the tile. -/
def mtstartBody (d s : BitVec 3) (l : BitVec 1) (_u : QUnit) (st : State) : M EngRes := do
  let k := st.me
  let cl := thrCluster k
  let v ← rdS st st.th s.toNat 0
  let thr : W32 := v.setWidth 32
  require (!badThreshold thr) cIllegalOp 0 thr.toNat
  let x := (st.cluster cl).slotAt d.toNat
  require (x.st == 0 || (x.st == 1 && x.task == st.th.task)) cIllegalContext 1 d.toNat
  if st.mtstartHeld k then
    let s1 := st.setTh { st.th with mtHold := some (st.th.mtHold.getD (st.cluster cl).leasePasses) }
    .ok { s := (s1.modCluster cl fun c => { c with leaseDue := true }).leaseRotate cl, more := some .lease }
  else .ok { s := mtstartOpen d s l cl thr (st.setTh { st.th with mtHold := none }), vals := [v.toNat] }

/-- MTSTART (R349). -/
def execMtstart (w e : BitVec 2) (d s : BitVec 3) (l : BitVec 1) (st : State) : Out :=
  engWord .matrix (wordOf (.mtstart w e d s l)) (arrayBody (mtstartBody d s l)) st

/-- MZERO. -/
def mzeroBody (d : BitVec 3) (_u : QUnit) (s : State) : M EngRes := do
  ownOpenTile s s.me d.toNat
  .ok { s := s.modCluster (thrCluster s.me) fun c => c.zeroTile d.toNat }

/-- MZERO (R349). -/
def execMzero (w e : BitVec 2) (d : BitVec 3) (st : State) : Out :=
  engWord .matrix (wordOf (.mzero w e d)) (arrayBody (mzeroBody d)) st

/-- MXMODE. -/
def mxmodeBody (d : BitVec 3) (m : BitVec 1) (_u : QUnit) (s : State) : M EngRes := do
  let k := s.me
  ownOpenTile s k d.toNat
  let c := s.cluster (thrCluster k)
  require (m == 0#1 || (c.slotAt d.toNat).ext || c.partnerFree d.toNat) cIllegalContext 1 (d.toNat ^^^ 1)
  match ← s.replayNext k with
  | some s => .ok { s := s, more := some .permit }
  | none => do
    let (s, again) ← (if m = 0#1 ∧ (c.slotAt d.toNat).ext = true then s.accRead k d.toNat else .ok (s, false) : M (State × Bool))
    if again then .ok { s := s, more := some .permit }
    else .ok { s := (s.replayOver k).modCluster (thrCluster k) fun c => c.setMode d.toNat (m == 1#1) }

/-- MXMODE (R349). -/
def execMxmode (w e : BitVec 2) (d : BitVec 3) (m : BitVec 1) (st : State) : Out :=
  engWord .matrix (wordOf (.mxmode w e d m)) (arrayBody (mxmodeBody d m)) st

/-- MSETT: THRESH of a slot in any state. -/
def msettBody (d s : BitVec 3) (l : BitVec 1) (_u : QUnit) (st : State) : M EngRes := do
  let v ← rdS st st.th s.toNat 0
  let thr : W32 := v.setWidth 32
  require (!badThreshold thr) cIllegalOp 0 thr.toNat
  let s1 := st.modCluster (thrCluster st.me) fun c => { c with
    ab := vset c.ab d.toNat ((vget c.ab d.toNat 0#64 &&& 0xFFFFFFFF#64) ||| BitVec.ofNat 64 (thr.toNat % 2 ^ 31 * 2 ^ 32)) }
  .ok { s := s1.setTh (freeS s1.th l s.toNat), vals := [v.toNat] }

/-- MSETT (R350). -/
def execMsett (w e : BitVec 2) (d s : BitVec 3) (l : BitVec 1) (st : State) : Out :=
  engWord .matrix (wordOf (.msett w e d s l)) (arrayBody (msettBody d s l)) st

/-- MRDB. -/
def mrdbBody (d s : BitVec 3) (_u : QUnit) (st : State) : M EngRes :=
  let v := vget (st.cluster (thrCluster st.me)).ab s.toNat 0#64
  .ok { s := st.setTh (wrS st.th d.toNat v), vals := [v.toNat] }

/-- MRDB (R350). -/
def execMrdb (w e : BitVec 2) (d s : BitVec 3) (st : State) : Out :=
  engWord .matrix (wordOf (.mrdb w e d s)) (arrayBody (mrdbBody d s)) st

/-! ## MMA (R351 to R354) -/

/-- The operands checked (R352). -/
def checkOperands (t : Thread) (p : MmaArgs) (ra2 : Bool) : M PUnit := do
  let f := FtE.of p.fe
  require (decide (1 ≤ p.vc ∧ p.vc ≤ 128) && (!f.int || p.vc % f.g == 0)) cIllegalOp 0 t.vc.toNat
  let r := Rgn.of p.a
  require (r.base % 64 == 0) cMisaligned 0 r.base
  require (r.stride % 64 == 0) cMisaligned 0 (infoOf r.stride)
  let n := rowBytes p.vc f.afmt
  let rows := (List.range 128).map fun (m : Nat) => (r.base : Int) + (m : Int) * r.stride
  match rows.find? fun o => decide (o < 0 ∨ o + (n : Int) > 2 ^ 21) with
  | some o => raise cRegionBounds 0 (infoOf o)
  | none => .ok ⟨⟩
  require (!ra2 || (Rgn.of p.a2).base % 4096 == 0) cScaleLayout 0 0x400
  require (p.bs % f.w == 0) cIllegalOp 0 p.bs
  requireLegal (decide (p.bs + f.w + b01 (f.sck != 0) ≤ 512))

/-- How a slot stands to an MMA that reads it (R155, R360). -/
inductive SlotAt where
  | full
  | wait (k : WaitKind)
  | reboard           -- to be armed again
  deriving DecidableEq, Repr

/-- Is a slot still ARMED after a full lap of the table in force (R155, R157). -/
def State.slotAbsent (s : State) (b : BSlot) : Bool :=
  b.st == 1 && s.ring.table.isSome && decide (1 ≤ (s.ring.lap + 2 ^ 32 - b.lapArmed) % 2 ^ 32 ∧ (s.ring.lap + 2 ^ 32 - b.lapArmed) % 2 ^ 32 < 2 ^ 31)

/-- A slot that is to be read: its state, or the cause of R155 and R360. -/
def State.slotStand (s : State) (cl n : Nat) : M SlotAt :=
  let b := (s.cluster cl).bslot n
  if b.st = 0 then raise cCorruptTile 1 n
  else if b.st = 4 then .ok .full
  else if b.st = 5 then if b.reboards < 2 then .ok .reboard else raise cCorruptTile 0 n
  else .ok (.wait (if s.slotAbsent b then .boardAbsent else .boarding))

/-- A slot armed again for the next lap by the CORRUPT_TILE path (R154, R360). -/
def State.reboard (s : State) (cl n : Nat) : State :=
  s.modCluster cl fun c =>
    let b := c.bslot n
    { c.slotsLeft [n] with bst := Tab.put n { b with
        st := 1, reboards := b.reboards + 1, lapArmed := (s.ring.lap + 1) % 2 ^ 32, dat := [], scaleBad := 0 } c.bst }

/-- What the checks of the slots answer: the word goes on, or it waits with a state. -/
abbrev SlotRes := M (State × Option WaitKind)

/-- One slot that an MMA of a tile names, in the order of R353. An uncorrectable error in it resets the tile and boards the slot again, under
the count that it shares with the poisoned slots; with no re-board left the slot is POISONED, which its next reading finds (R154, R360). -/
def State.checkSlot (s : State) (k acc n : Nat) (scale : Bool) (f : FtE) (whole : Bool) : SlotRes := do
  let cl := thrCluster k
  let st ← s.slotStand cl n
  match st with
  | .wait kd => .ok (s, some kd)
  | .reboard => .ok (s.reboard cl n, some .boarding)
  | .full =>
    let b := (s.cluster cl).bslot n
    require (b.tenant == (s.thread k).tenant) cProtection 0 n
    require (b.kind == b01 scale && b.fmt == f.bfmt) cIllegalContext 2 n
    if scale then
      require (b.scaleBad == 0) cScaleLayout 0 (b.scaleBad - 1)
      require (impliesSck b.fmt f.sck) cScaleLayout 0 0
      match (if f.sck = 3 then scaleFail 3 b.fmt ((dense 0#8 4096 0 b.dat)) else none) with
      | some e => raise cScaleLayout 0 e
      | none => .ok ⟨⟩
    else .ok ⟨⟩
    if s.latent.isEmpty then .ok (s, none)
    else
      match s.latentAt 2 cl (n * 32768) (n * 32768 + 32768) with
      | some l => do
        require whole cUncorrectable 2 l.loc
        let s := s.absorbLatent l (thrDie k)
        let s := if b.reboards < 2 then s.reboard cl n else s.modCluster cl fun c => { c with bst := Tab.put n { b with st := 5 } c.bst }
        let s ← s.startReplay k acc false
        .ok (s, some .boarding)
      | none => do
        let s ← s.symRead 2 cl (n * 32768) (n * 32768 + 32768)
        .ok (s, none)

/-- Every slot that an MMA names. -/
def State.checkSlots (s : State) (k acc : Nat) (f : FtE) (whole : Bool) : List (Nat × Bool) → SlotRes
  | [] => .ok (s, none)
  | (n, sc) :: r => do
    let (s, w) ← s.checkSlot k acc n sc f whole
    match w with
    | some kd => .ok (s, some kd)
    | none => s.checkSlots k acc f whole r

/-- The A scale entries that an MMA uses (R242, R353). -/
def checkAScale (f : FtE) (kofs K : Nat) (t : Array Nat) : M PUnit :=
  if f.sck = 0 then .ok ⟨⟩
  else
    let js := ((List.range K).map fun k => groupSlot f kofs k).eraseDups
    let es := js.flatMap fun j => (List.range 128).filterMap fun n =>
      let e := scaleIndex n j
      if scaleEntryOk f.sck f.afmt (t.getD e 0) then none else some e
    match es.min? with
    | none => .ok ⟨⟩
    | some e => raise cScaleLayout 0 e

/-- Bytes of the scratchpad that a word reads, checked for errors (R96, R100). -/
def State.spadCheck (s : State) (k : Nat) (l : List (Nat × Nat)) : M State :=
  if s.latent.isEmpty && (s.core (thrCore k)).spadPoison.isEmpty then .ok s
  else l.foldlM (fun s e => do
    let (s, _) ← s.spadRead k e.1 e.2
    .ok s) s

/-- The entry that an MMA selects: its index (R185, R351). -/
def Thread.mmaIndex (t : Thread) (ft : Bool) : Nat :=
  let b := t.fmtBase.toNat
  let base := b % 16
  if ft then (base + bits (vget t.lcc (bits b 5 4) 0#32).toNat 15 0) % 16 else base

/-- MMA. -/
def mmaBody (acc : BitVec 3) (g : BitVec 4) (b : BitVec 9) (f k : BitVec 1) (u : QUnit) (st : State) : M EngRes := do
  let me := st.me
  let t := st.th
  let c := st.cluster (thrCluster me)
  ownOpenTile st me acc.toNat
  let fi := t.mmaIndex (f == 1#1)
  let fe := vget t.ft fi 0#32
  let e := FtE.of fe
  require e.pairing cIllegalOp 0 (u.word.toNat + fe.toNat * 2 ^ 32)
  let a ← rdA st t g.toNat 0
  let a2 ← (if e.sck = 0 then .ok 0#64 else rdA st t ((g.toNat + 1) % 16) 1 : M W)
  holdFor t (if k = 1#1 then [g.toNat] else [])
  let p : MmaArgs := ⟨acc.toNat, b.toNat, k == 1#1, a, a2, t.vc.toNat, fe, fi, vget t.eb g.toNat bInf⟩
  checkOperands t p (e.sck != 0)
  let x := c.slotAt acc.toNat
  let slots := (List.range e.w).map (fun j => (b.toNat + j, false)) ++ if e.sck = 0 then [] else [(b.toNat + e.w, true)]
  let (s, w) ← st.checkSlots me acc.toNat e (x.whole && !t.lostC) slots
  match w with
  | some kd => if s = st then waitFor kd else .ok { s := s, more := some kd }
  | none => do
    match ← s.replayNext me with
    | some s => .ok { s := s, more := some .permit }
    | none => do
      let s ← s.spadCheck me ((p.guard (thrCore me)).map fun r => (r.2.1, r.2.2 + 1 - r.2.1))
      checkAScale e x.kofs p.vc (s.mmaData me p).sa
      require (!e.acc || x.ext || c.partnerFree acc.toNat) cIllegalContext 1 (acc.toNat ^^^ 1)
      let (s, again) ← s.accRead me acc.toNat
      if again then .ok { s := s, more := some .permit }
      else .ok { s := (s.replayOver me).mmaApply me p, vals := p.vals, reads := (p.guard (thrCore me)).map fun r => r.2 }

/-- MMA (R353). -/
def execMma (w e : BitVec 2) (a : BitVec 3) (g : BitVec 4) (b : BitVec 9) (f k : BitVec 1) (st : State) : Out :=
  engWord .matrix (wordOf (.mma w e a g b f k)) (arrayBody (mmaBody a g b f k)) st

/-! ## MDRAIN (R355 to R357) -/

/-- What the bound test of R357 decides. -/
inductive BoundTest where
  | goOn (bnd : Bool)
  | reissue
  | trap (sub : Nat)
  deriving DecidableEq, Repr

/-- The bound test. -/
def boundTest (ctl : W32) (x : AccSlot) (partnerFree : Bool) (ab : W) : BoundTest :=
  let thr : W32 := BitVec.ofNat 32 (ab.toNat / 2 ^ 32)
  let bnd : W32 := BitVec.ofNat 32 ab.toNat
  if (f32 bnd).cmp (f32 thr) ≠ .gt then .goOn false
  else
    match ctl.toNat % 4 with
    | 0 => .goOn true
    | 2 => .trap 0
    | _ =>
      if x.ext then if bit ctl.toNat 2 then .trap 2 else .goOn true
      else if !x.whole then .trap 1
      else if !partnerFree then .trap 3
      else .reissue

/-- The parameters of a drain from its scalars (R355). -/
def DrainP.of (d r : BitVec 1) (p0 p1 p2 : W) (seed : W32) (f : FtE) : DrainP :=
  let x := p0.toNat
  let y := p1.toNat
  let z := p2.toNat
  { drop := d == 1#1, keep := bits x 63 32, ks := BitVec.ofNat 32 x, rowo := bits y 63 32, colo := bits y 31 0, tid := bits z 63 32,
    res := r == 1#1, rfmt := bits z 31 28, seed := seed.toNat, ofmt := f.ofmt, ornd := f.ornd }

/-- Registers of the drain's regions as read at issue: the destination, and the residual when it is used. -/
def drainRegion (s : State) (t : Thread) (r fmt k : Nat) : M VReg := do
  let a ← rdA s t r k
  let p := Span.ofFmt tileSize fmt
  checkOffs ((Rgn.of a).offs p) p.e
  .ok ⟨r, a, 0#64, p⟩

/-- The output of a drain, after every test. -/
def drainOut (s : State) (k acc : Nat) (p : DrainP) (rd : VReg) (rr : Option VReg) (sw : Bool) (side : Nat) (bnd : Bool) : M State := do
  let (s, res) ← (match rr with
    | some r => s.readElems r.offs r.p
    | none => .ok (s, []) : M (State × List Nat))
  let cl := thrCluster k
  let c := s.cluster cl
  let (out, o) := drainAll p 0 (c.tileVals acc) res ⟨flIf bnd flBND, -1000, -1000, -1000, false⟩
  let b := drainBound p (c.slotAt acc).ext (BitVec.ofNat 32 (vget c.ab acc 0#64).toNat) ((rr.map fun r => vget s.th.eb r.r bInf).getD 0#32) o
  let s := s.writeElems rd.p rd.offs out
  let s := if sw then s.spadWrite k side (leBytes 4 b.toNat) else s
  let s := s.setTh { s.th with flags := orFlags s.th.flags o.fl }
  .ok (s.modCluster cl fun c => c.closeTile acc)

/-- The register values of an MDRAIN in the retained window. -/
def drainVals (p0 p1 p2 : W) (rd : VReg) (rr : Option VReg) : List Nat :=
  [p0.toNat, p1.toNat, p2.toNat, rd.a.toNat] ++ (rr.map fun r => [r.a.toNat]).getD []

/-- The bytes of a sidecar. -/
def sideBytes (sw : Bool) (side : Nat) : List (Nat × Nat) := if sw then [(side, side + 3)] else []

/-- MDRAIN. -/
def mdrainBody (acc : BitVec 3) (ad ar : BitVec 4) (r d sb : BitVec 1) (u : QUnit) (st : State) : M EngRes := do
  let k := st.me
  let t := st.th
  let n := acc.toNat
  ownOpenTile st k n
  let c := st.cluster (thrCluster k)
  let x := c.slotAt n
  let s0 := sb.toNat * 4
  let p0 ← rdS st t s0 0
  let p1 ← rdS st t (s0 + 1) 1
  let p2 ← rdS st t (s0 + 2) 2
  let p := DrainP.of d r p0 p1 p2 t.dropSeed (FtE.of (vget t.ft x.lastft 0#32))
  requireLegal (bits p2.toNat 26 21 == 0)
  requireLegal (!p.res || decide (p.rfmt ≤ 5 ∨ p.rfmt = 7))
  let rd ← drainRegion st t ad.toNat p.ofmt 4
  let rr ← (if p.res then do
    let v ← drainRegion st t ar.toNat p.rfmt 5
    holdFor t [ar.toNat]
    .ok (some v) else .ok none : M (Option VReg))
  let sw := bit p2.toNat 27
  let side := bits p2.toNat 20 0
  if sw then checkSpad side 4 4 else .ok ⟨⟩
  match ← st.replayNext k with
  | some s => .ok { s := s, more := some .permit }
  | none => do
    let (s, again) ← st.accRead k n
    if again then .ok { s := s, more := some .permit }
    else
      match c.chkMismatch n with
      | some m => do
        require (x.whole && t.doneOf u != 1) cSdcDetected 0 m
        if t.doneOf u = 2 then needWindow s else .ok ⟨⟩
        let s := s.post 0x10 (thrDie k) (unitOfCore (thrCore k)) (s.tidOf k <<< 88 ||| s.cidxOf k <<< 64 ||| (thrCluster k % 128) <<< 56
          ||| (thrCore k % 4) <<< 48 ||| m)
        if t.lostC then .ok { s := s.setTh (s.th.setDone u 2), more := some .permit }
        else
          let s ← s.startReplay k n false
          .ok { s := s.setTh (s.th.setDone u 1), more := some .permit }
      | none =>
        let ab := vget c.ab n 0#64
        match boundTest t.boundCtl x (c.partnerFree n) ab with
        | .trap sub => raise cBoundExceeded sub (ab.toNat % 2 ^ 32 + n * 2 ^ 32)
        | .reissue => do
          let s ← s.startReplay k n true
          .ok { s := s, more := some .permit }
        | .goOn bnd => do
          let s ← drainOut ((s.replayOver k).setTh ((s.replayOver k).th.setDone u 0)) k n p rd rr sw side bnd
          .ok { s := s, vals := drainVals p0 p1 p2 rd rr, reads := rd.bytes ++ sideBytes sw side ++ (rr.map VReg.bytes).getD []
                writes := hullBytes rd.offs rd.p.e ++ sideBytes sw side }

/-- MDRAIN (R356). -/
def execMdrain (w e : BitVec 2) (a : BitVec 3) (g r : BitVec 4) (k j s : BitVec 1) (st : State) : Out :=
  engWord .matrix (wordOf (.mdrain w e a g r k j s)) (arrayBody (mdrainBody a g r k j s)) st

/-! ## Format-table words (R361) -/

/-- MFTE. -/
def mfteBody (d : BitVec 4) (s : BitVec 3) (l : BitVec 1) (_u : QUnit) (st : State) : M EngRes := do
  let v ← rdS st st.th s.toNat 0
  let x := v.toNat % 2 ^ 32
  require (ftLegal x) cIllegalOp 0 (0x010 + d.toNat + x * 2 ^ 32)
  .ok { s := st.setTh (freeS { st.th with ft := vset st.th.ft d.toNat (BitVec.ofNat 32 (x / 4096 * 4096)) } l s.toNat), vals := [v.toNat] }

/-- MFTE (R361). -/
def execMfte (w e : BitVec 2) (d : BitVec 4) (s : BitVec 3) (l : BitVec 1) (st : State) : Out :=
  engWord .matrix (wordOf (.mfte w e d s l)) (mfteBody d s l) st

/-- MFTB. -/
def mftbBody (c : BitVec 2) (b : BitVec 4) (_u : QUnit) (st : State) : M EngRes :=
  .ok { s := st.setTh { st.th with fmtBase := BitVec.ofNat 32 (c.toNat * 16 + b.toNat) } }

/-- MFTB (R361). -/
def execMftb (w e : BitVec 2) (c : BitVec 2) (b : BitVec 4) (st : State) : Out :=
  engWord .matrix (wordOf (.mftb w e c b)) (mftbBody c b) st

/-! ## Loop and no-operation (R366) -/

/-- MLOOP (R366). -/
def execMloop (n : BitVec 6) (c : BitVec 2) (i : BitVec 11) (st : State) : Out :=
  engWord .matrix (wordOf (.mloop n c i)) (loopBody .comp n c i) st

/-- MNOP (R366). -/
def execMnop (w e : BitVec 2) (st : State) : Out := engWord .matrix (wordOf (.mnop w e)) (fun _ s => .ok { s := s }) st

end Sys2Proof.Machine
end

