-- ==== Sys2Proof/Machine/Boarding.lean ====
section
/-! DEFINITION. The boarding words (R362 to R365). -/

namespace Sys2Proof.Machine

open Sys2Proof

/-- A subscription as BOARD reads it from a scalar. -/
def BSub.of (v : W) (bs task pos : Nat) : BSub :=
  let x := v.toNat
  { task := task, pos := pos, layer := bits x 63 48, kind := bits x 18 18, tile := bits x 47 32, n := bits x 31 22, slot := bs,
    pitch := bits x 21 19, fmt := bits x 15 12, mseen := false }

/-- The ranges of R362 and step 1 of R363. -/
def BSub.legal (b : BSub) (v : W) : Bool :=
  let x := v.toNat
  let w := tileSlots b.kind b.fmt
  bits x 17 16 == 0 && bits x 11 0 == 0 && decide (1 ≤ b.n ∧ b.n ≤ 512 ∧ 1 ≤ b.pitch ∧ b.pitch ≤ 4 ∧ b.fmt ≤ 8)
    && (b.kind == 1 || b.fmt != 0) && decide (w ≤ b.pitch)
    && (List.range b.n).all fun t => (b.slot + t * b.pitch) % w == 0 && decide (b.slot + t * b.pitch + w ≤ 512)

/-- BOARD. -/
def boardBody (s : BitVec 3) (bs : BitVec 9) (_u : QUnit) (st : State) : M EngRes := do
  let t := st.th
  let cl := thrCluster st.me
  let c := st.cluster cl
  let v ← rdS st t s.toNat 0
  let b := BSub.of v bs.toNat t.task t.gangPos
  require (b.legal v) cIllegalOp 0 v.toNat
  match b.slots.find? fun e => (c.bslot e.2.1).st != 0 with
  | some e => raise cIllegalContext 2 e.2.1
  | none =>
    require (decide (c.subs.length < 64)) cIllegalContext 3 (st.free 3).toNat
    .ok { s := st.armSub cl t.tenant b, vals := [v.toNat] }

/-- BOARD (R363). -/
def execBoard (w e : BitVec 2) (s : BitVec 3) (b : BitVec 9) (st : State) : Out :=
  engWord .matrix (wordOf (.board w e s b)) (boardBody s b) st

/-- The state of a tile of a subscription: POISONED when either of its slots is, and that of its lower slot otherwise (R364; log 169). -/
def Cluster.tileState (c : Cluster) (b : BSub) (t : Nat) : Nat :=
  let l := (List.range (tileSlots b.kind b.fmt)).map fun j => (c.bslot (b.slot + t * b.pitch + j)).st
  if l.contains 5 then 5 else l.headD 0

/-- The subscription of a tenant at a slot. -/
def Cluster.subAt (c : Cluster) (tenant bs : Nat) : Option BSub :=
  c.subs.find? fun b => b.slot == bs && (c.bslot bs).tenant == tenant

/-- The status of R364. -/
structure BStat where
  valid : Bool
  mseen : Bool
  absent : Bool
  nt : Nat
  full : Nat
  fill : Nat
  arm : Nat
  miss : Nat
  pois : Nat
  deriving DecidableEq, Repr

/-- The status of the subscription of a tenant at a slot. -/
def State.boardStat (s : State) (cl tenant bs : Nat) : BStat :=
  let c := s.cluster cl
  match c.subAt tenant bs with
  | none => ⟨false, false, false, 0, 0, 0, 0, 0, 0⟩
  | some b =>
    let l := (List.range b.n).map (c.tileState b)
    ⟨true, b.mseen, b.slots.any fun e => s.slotAbsent (c.bslot e.2.1), b.n, l.count 4, l.count 3, l.count 1, l.count 2, l.count 5⟩

/-- The status as a word. -/
def BStat.word (x : BStat) : W :=
  BitVec.ofNat 64 (b01 x.valid <<< 63 ||| b01 x.mseen <<< 62 ||| b01 x.absent <<< 61 ||| (x.full % 1024) <<< 50 ||| (x.fill % 1024) <<< 40
    ||| (x.arm % 1024) <<< 30 ||| (x.miss % 1024) <<< 20 ||| (x.pois % 1024) <<< 10)

/-- BQUERY and BWAIT: the status, after the wait when there is one. -/
def boardStatBody (wait : Bool) (s : BitVec 3) (bs : BitVec 9) (_u : QUnit) (st : State) : M EngRes :=
  let x := st.boardStat (thrCluster st.me) st.th.tenant bs.toNat
  if wait && x.valid && x.full + x.pois != x.nt && !x.absent then waitFor .boarding
  else .ok { s := st.setTh (wrS st.th s.toNat x.word) }

/-- BWAIT (R364). -/
def execBwait (w e : BitVec 2) (s : BitVec 3) (b : BitVec 9) (st : State) : Out :=
  engWord .matrix (wordOf (.bwait w e s b)) (boardStatBody true s b) st

/-- BQUERY (R364). -/
def execBquery (w e : BitVec 2) (s : BitVec 3) (b : BitVec 9) (st : State) : Out :=
  engWord .matrix (wordOf (.bquery w e s b)) (boardStatBody false s b) st

/-- BDROP: the issuing context's subscription at a slot ends. -/
def bdropBody (bs : BitVec 9) (_u : QUnit) (st : State) : M EngRes :=
  let t := st.th
  let cl := thrCluster st.me
  match (st.cluster cl).subs.find? fun b => b.slot == bs.toNat with
  | none => .ok { s := st }
  | some b => do
    require (b.task == t.task && b.pos == t.gangPos) cIllegalContext 2 (st.free 3).toNat
    let slots := b.slots.map fun e => e.2.1
    .ok { s := st.modCluster cl fun c => { c.slotsLeft slots with
      subs := c.subs.filter fun x => x.slot != b.slot
      bst := c.bst.filter fun e => !slots.contains e.1 } }

/-- BDROP (R365). -/
def execBdrop (w e : BitVec 2) (b : BitVec 9) (st : State) : Out :=
  engWord .matrix (wordOf (.bdrop w e b)) (bdropBody b) st

end Sys2Proof.Machine
end

