-- ==== Sys2Proof/Machine/Load.lean ====
section
/-! DEFINITION. The load sequencer's words (R315 to R330, R332 to R334), with the index and loop words of both memory sequencers. -/

namespace Sys2Proof.Machine

open Sys2Proof

/-! ## Index words (R319) -/

/-- A word that finishes at issue. -/
def atIssue (s : State) (vals : List Nat := []) : M EngRes := .ok { s := s, later := false, vals := vals }

/-- XMOV: an x register, or the ITER of a loop counter. -/
def xmovBody (ld : Bool) (d s : BitVec 3) (l m : BitVec 1) (_u : QUnit) (st : State) : M EngRes := do
  let t := st.th
  if m = 1#1 then
    let c := vget (t.lc (if ld then .load else .store)) s.toNat 0#32
    atIssue (st.setTh (wrX t ld d.toNat (BitVec.ofNat 64 (c.toNat % 65536))))
  else
    let a ← rdX st t ld s.toNat 0
    atIssue (st.setTh (wrX (freeX t ld l s.toNat) ld d.toNat a)) [a.toNat]

/-- XADD. -/
def xaddBody (ld : Bool) (d s : BitVec 3) (l : BitVec 1) (t : BitVec 3) (m : BitVec 1) (_u : QUnit) (st : State) : M EngRes := do
  let r := st.th
  let a ← rdX st r ld s.toNat 0
  let b ← rdX st r ld t.toNat 1
  atIssue (st.setTh (wrX (freeX (freeX r ld l s.toNat) ld m t.toNat) ld d.toNat (a + b))) [a.toNat, b.toNat]

/-- XADDI. -/
def xaddiBody (ld : Bool) (d s : BitVec 3) (l : BitVec 1) (i : BitVec 10) (u : QUnit) (st : State) : M EngRes := do
  let r := st.th
  let a ← rdX st r ld s.toNat 0
  atIssue (st.setTh (wrX (freeX r ld l s.toNat) ld d.toNat (a + immW u.pfx 10 i.toNat))) [a.toNat]

/-- XSHL: the shift count is unsigned, 0 to 63. -/
def xshlBody (ld : Bool) (d s : BitVec 3) (l : BitVec 1) (i : BitVec 10) (u : QUnit) (st : State) : M EngRes := do
  let r := st.th
  let n := immU u.pfx 10 i.toNat
  requireLegal (decide (n ≤ 63))
  let a ← rdX st r ld s.toNat 0
  atIssue (st.setTh (wrX (freeX r ld l s.toNat) ld d.toNat (a <<< n))) [a.toNat]

/-- XMOV (R319). -/
def execXmov (w e : BitVec 2) (d s : BitVec 3) (l m : BitVec 1) (st : State) : Out :=
  engWord .load (wordOf (.xmov w e d s l m)) (xmovBody true d s l m) st
/-- XADD (R319). -/
def execXadd (w e : BitVec 2) (d s : BitVec 3) (l : BitVec 1) (t : BitVec 3) (u : BitVec 1) (st : State) : Out :=
  engWord .load (wordOf (.xadd w e d s l t u)) (xaddBody true d s l t u) st
/-- XADDI (R319). -/
def execXaddi (w e : BitVec 2) (d s : BitVec 3) (l : BitVec 1) (i : BitVec 10) (st : State) : Out :=
  engWord .load (wordOf (.xaddi w e d s l i)) (xaddiBody true d s l i) st
/-- XSHL (R319). -/
def execXshl (w e : BitVec 2) (d s : BitVec 3) (l : BitVec 1) (i : BitVec 10) (st : State) : Out :=
  engWord .load (wordOf (.xshl w e d s l i)) (xshlBody true d s l i) st
/-- LNOP (R319). -/
def execLnop (w e : BitVec 2) (st : State) : Out := engWord .load (wordOf (.lnop w e)) (fun _ s => atIssue s) st
/-- XMOV of the store sequencer (R319). -/
def execXmovSt (w e : BitVec 2) (d s : BitVec 3) (l m : BitVec 1) (st : State) : Out :=
  engWord .store (wordOf (.xmovSt w e d s l m)) (xmovBody false d s l m) st
/-- XADD of the store sequencer (R319). -/
def execXaddSt (w e : BitVec 2) (d s : BitVec 3) (l : BitVec 1) (t : BitVec 3) (u : BitVec 1) (st : State) : Out :=
  engWord .store (wordOf (.xaddSt w e d s l t u)) (xaddBody false d s l t u) st
/-- XADDI of the store sequencer (R319). -/
def execXaddiSt (w e : BitVec 2) (d s : BitVec 3) (l : BitVec 1) (i : BitVec 10) (st : State) : Out :=
  engWord .store (wordOf (.xaddiSt w e d s l i)) (xaddiBody false d s l i) st
/-- XSHL of the store sequencer (R319). -/
def execXshlSt (w e : BitVec 2) (d s : BitVec 3) (l : BitVec 1) (i : BitVec 10) (st : State) : Out :=
  engWord .store (wordOf (.xshlSt w e d s l i)) (xshlBody false d s l i) st
/-- SNOP (R319). -/
def execSnop (w e : BitVec 2) (st : State) : Out := engWord .store (wordOf (.snop w e)) (fun _ s => atIssue s) st

/-! ## Loops (R274, R320, R366, R388) -/

/-- LLOOP (R320). -/
def execLloop (n : BitVec 6) (c : BitVec 2) (i : BitVec 11) (st : State) : Out :=
  engWord .load (wordOf (.lloop n c i)) (loopBody .load n c i) st
/-- SLOOP (R320). -/
def execSloop (n : BitVec 6) (c : BitVec 2) (i : BitVec 11) (st : State) : Out :=
  engWord .store (wordOf (.sloop n c i)) (loopBody .store n c i) st

/-- LMARK: one element made from an index register. -/
def lmarkBody (d : BitVec 4) (s : BitVec 3) (l : BitVec 1) (i : BitVec 10) (u : QUnit) (st : State) : M EngRes := do
  let t := st.th
  let a ← rdX st t true s.toNat 0
  let b ← checkQ t d.toNat 1
  let v := lowBits (8 * b.ebytes) (a + immW u.pfx 10 i.toNat)
  deliver st u d.toNat [v] fun s1 => { s := s1.setTh (freeX s1.th true l s.toNat), vals := [a.toNat], performed := true }

/-- LMARK (R321). -/
def execLmark (w e : BitVec 2) (d : BitVec 4) (s : BitVec 3) (l : BitVec 1) (i : BitVec 10) (st : State) : Out :=
  engWord .load (wordOf (.lmark w e d s l i)) (lmarkBody d s l i) st

/-! ## Block loads (R323, R325, R326) -/

/-- LD: a block into a queue head, or into the scratchpad through the fifth port. -/
def ldBody (h : BitVec 4) (x : BitVec 3) (y : BitVec 1) (t : BitVec 4) (k : BitVec 1) (z : BitVec 3) (i : BitVec 1) (u : QUnit)
    (st : State) : M EngRes := do
  let th := st.th
  let n := blockBytes z
  let (o, _) ← memX st th true x y 0
  let pa ← checkMem th h.toNat o n rightRD 64
  let step (r : Thread) : Thread := postInc (freeX r true y x.toNat) true i x o n
  if k = 0#1 then
    let b ← checkQ th t.toNat 1
    let (s, l) ← st.loadData pa n (th.swmOf h.toNat)
    deliver s u t.toNat (toElems b.esz (n / b.ebytes) l) fun s =>
      { s := s.setTh (step s.th), vals := [o], performed := true, lines := n / 64 }
  else
    let so ← rdX st th true t.toNat 1
    checkSpad so.toNat n 64
    lockWait th so.toNat n
    let (s, l) ← st.loadData pa n (th.swmOf h.toNat)
    let s := s.spadWrite s.me so.toNat l
    .ok { s := s.setTh (step s.th), vals := [o, so.toNat], lines := n / 64 }

/-- LD (R323). -/
def execLd (w e : BitVec 2) (h : BitVec 4) (x : BitVec 3) (y : BitVec 1) (t : BitVec 4) (k : BitVec 1) (z : BitVec 3) (i : BitVec 1)
    (st : State) : Out :=
  engWord .load (wordOf (.ld w e h x y t k z i)) (ldBody h x y t k z i) st

/-- PFETCH: lines of the range copied toward the issuing die where they can be read at once; nothing otherwise. -/
def pfetchBody (h : BitVec 4) (x : BitVec 3) (y : BitVec 1) (z : BitVec 3) (m : BitVec 1) (_u : QUnit) (st : State) : M EngRes :=
  let th := st.th
  let o := match rdX st th true x.toNat 0 with
    | .ok v => v.toNat
    | .error _ => (st.free 0).toNat
  let n := blockBytes z
  let hv := vget th.h h.toNat 0#64
  let s := st.setTh (freeX th true y x.toNat)
  let s := if hState hv ≠ 2 ∨ o + n > pageBytes (hPsz hv) then s
    else (linesOf (hBase hv + o) n).foldl (fun s l =>
      if m = 0#1 then
        match s.loadLine s.me l (th.swmOf h.toNat) with
        | .ok r => r.1
        | .error _ => s
      else
        match s.llcRead (thrDie s.me) l (th.swmOf h.toNat) with
        | .ok r => r.1
        | .error _ => s) s
  .ok { s := s, later := false, vals := [o] }

/-- PFETCH (R325). -/
def execPfetch (w e : BitVec 2) (h : BitVec 4) (x : BitVec 3) (y : BitVec 1) (z : BitVec 3) (m : BitVec 1) (st : State) : Out :=
  engWord .load (wordOf (.pfetch w e h x y z m)) (pfetchBody h x y z m) st

/-- SPLK: the lock bits of the lines of a scratchpad range taken, and with NL = 0 the range loaded. -/
def splkBody (h : BitVec 4) (x : BitVec 3) (y : BitVec 1) (t : BitVec 3) (z : BitVec 3) (nl i : BitVec 1) (_u : QUnit) (st : State) :
    M EngRes := do
  let th := st.th
  let n := blockBytes z
  let (o, _) ← memX st th true x y 0
  let pa ← checkMem th h.toNat o n rightRD 64
  let so ← rdX st th true t.toNat 1
  checkSpad so.toNat n 64
  let s ← (if nl = 1#1 then .ok st else do
    let (s, l) ← st.loadData pa n (th.swmOf h.toNat)
    .ok (s.spadWrite s.me so.toNat l) : M State)
  let r := s.th
  let r := { r with locks := r.locks ++ (lockBits so.toNat n).filter fun b => !r.locks.contains b }
  .ok { s := s.setTh (postInc (freeX r true y x.toNat) true i x o n), vals := [o, so.toNat], lines := if nl = 1#1 then 0 else n / 64 }

/-- SPLK (R326). -/
def execSplk (w e : BitVec 2) (h : BitVec 4) (x : BitVec 3) (y : BitVec 1) (t : BitVec 3) (z : BitVec 3) (n i : BitVec 1) (st : State) :
    Out :=
  engWord .load (wordOf (.splk w e h x y t z n i)) (splkBody h x y t z n i) st

/-! ## Gathers (R324) -/

/-- ESZ of the queue head of offsets must be 4 or 8. -/
def checkOfsQ (t : Thread) (q : Nat) : M QHead := do
  let b ← checkQ t q 1
  require (b.esz == 2 || b.esz == 3) cIllegalContext 0 q
  .ok b

/-- One element of LDX: its offset is popped, its check runs, and its bytes are sent to the queue head once there is space. -/
def ldxElem (h q qi : Nat) (x : W) (u : QUnit) (i : Nat) (s : State) : Elem := do
  let t := s.th
  let b := vget t.q q QHead.unbound
  match (vget t.q qi QHead.unbound).elems with
  | [] => waitFor .queueHead
  | off :: _ =>
    let o := (x + off).toNat
    match checkMem t h o b.ebytes rightRD b.ebytes with
    | .error (.cause c) => do
      let (s, _) ← s.popQ s.me qi 1
      .ok (s, some (atElem c i))
    | .error e => .error e
    | .ok pa => do
      let (s, _) ← s.popQ s.me qi 1
      if (vget s.th.q q QHead.unbound).space = 0 then waitFor .queueSpace
      else do
        let (s, l) ← s.loadData pa b.ebytes (t.swmOf h)
        .ok (s.setTh (s.th.sendQ q (toElems b.esz 1 l) u.seq), none)

/-- LDX. -/
def ldxBody (h : BitVec 4) (x : BitVec 3) (y : BitVec 1) (t q : BitVec 4) (c : BitVec 3) (u : QUnit) (st : State) : M EngRes := do
  let th := st.th
  let a ← rdX st th true x.toNat 0
  let _ ← checkQ th t.toNat 1
  let _ ← checkOfsQ th q.toNat
  let n := 2 ^ c.toNat
  let i0 := th.doneOf u
  runElems u (ldxElem h.toNat t.toNat q.toNat a u)
    (fun s => { s := s.setTh (freeX s.th true y x.toNat), vals := [a.toNat], performed := true, lines := n }) (n - i0) i0 false st

/-- LDX (R324). -/
def execLdx (w e : BitVec 2) (h : BitVec 4) (x : BitVec 3) (y : BitVec 1) (t q : BitVec 4) (c : BitVec 3) (st : State) : Out :=
  engWord .load (wordOf (.ldx w e h x y t q c)) (ldxBody h x y t q c) st

/-! ## Scale tiles and bound words (R332, R333) -/

/-- LDSC: a scale tile checked and then written into the scratchpad. -/
def ldscBody (h : BitVec 4) (x : BitVec 3) (y : BitVec 1) (t z m : BitVec 3) (_u : QUnit) (st : State) : M EngRes := do
  let th := st.th
  let (o, _) ← memX st th true x y 0
  let so ← rdX st th true t.toNat 1
  match ldscKind m.toNat with
  | none => illegal
  | some (sck, fmt) =>
    let hv ← checkHandle th h.toNat o
    require (z == 6#3 && o % 4096 == 0 && so.toNat % 4096 == 0) cScaleLayout 0 0x400
    require (hRights hv &&& rightRD == rightRD && decide (o + 4096 ≤ pageBytes (hPsz hv))) cProtection 0 o
    checkSpad so.toNat 4096 64
    lockWait th so.toNat 4096
    let (s, l) ← st.loadData (hBase hv + o) 4096 (th.swmOf h.toNat)
    match scaleFail sck fmt l with
    | some e => raise cScaleLayout 0 e
    | none =>
      let s := s.spadWrite s.me so.toNat l
      .ok { s := s.setTh (freeX s.th true y x.toNat), vals := [o, so.toNat], lines := 64 }

/-- LDSC (R332). -/
def execLdsc (w e : BitVec 2) (h : BitVec 4) (x : BitVec 3) (y : BitVec 1) (t z m : BitVec 3) (st : State) : Out :=
  engWord .load (wordOf (.ldsc w e h x y t z m)) (ldscBody h x y t z m) st

/-- The bound that a loaded word stands for (R333). -/
def boundOfWord (v : W32) : W32 :=
  let a := f32 v
  if a.isZero then 0#32 else if a.isNan || a.neg then bInf else v

/-- LDBD. -/
def ldbdBody (h : BitVec 4) (x : BitVec 3) (y : BitVec 1) (t : BitVec 4) (_u : QUnit) (st : State) : M EngRes := do
  let th := st.th
  let (o, _) ← memX st th true x y 0
  let pa ← checkMem th h.toNat o 4 rightRD 4
  let (s, l) ← st.loadData pa 4 (th.swmOf h.toNat)
  let r := freeX s.th true y x.toNat
  .ok { s := s.setTh { r with eb := vset r.eb t.toNat (boundOfWord (BitVec.ofNat 32 (leNat l))) }, vals := [o], lines := 1 }

/-- LDBD (R333). -/
def execLdbd (w e : BitVec 2) (h : BitVec 4) (x : BitVec 3) (y : BitVec 1) (t : BitVec 4) (st : State) : Out :=
  engWord .load (wordOf (.ldbd w e h x y t)) (ldbdBody h x y t) st

/-! ## Queue heads and slot rings (R327 to R330) -/

/-- LSUB: the descriptor is read at home, and the loader of the ring's stack serves the queue head from the slot after CONS. -/
def lsubBody (h : BitVec 4) (x : BitVec 3) (y : BitVec 1) (t : BitVec 4) (_u : QUnit) (st : State) : M EngRes := do
  let th := st.th
  let (o, _) ← memX st th true x y 0
  let pa ← checkMem th h.toNat o 64 (rightRD + rightAT) 64
  let b ← checkQ th t.toNat 1
  require (b.elems.isEmpty && b.flight == 0) cIllegalContext 0 (st.free 3).toNat
  let (s, _, bad) ← st.unitBytes pa 64
  if bad then .error (.cause (s.poisonCause (pa / 64)))
  else
    match s.ringDesc pa (pageBytes (hPsz (vget th.h h.toNat 0#64)) - o) with
    | none => raise cProtection 0 o
    | some (slots, ssize) =>
      let subs := s.allSubs
      if subs.any fun r => r.pa == pa then raise cProtection 1 o
      else if (subs.filter fun r => r.pa / 2 ^ 37 == pa / 2 ^ 37).length ≥ 64 then waitFor .slots
      else
        let r := freeX s.th true y x.toNat
        let cons := s.homeNat (pa + 8) 8
        let b1 := { b with kind := 2, sub := some ⟨pa, slots, ssize, cons, 0, cons, 0⟩ }
        .ok { s := s.setTh { r with q := vset r.q t.toNat b1 }, later := false, vals := [o] }

/-- LSUB (R329). -/
def execLsub (w e : BitVec 2) (h : BitVec 4) (x : BitVec 3) (y : BitVec 1) (t : BitVec 4) (st : State) : Out :=
  engWord .load (wordOf (.lsub w e h x y t)) (lsubBody h x y t) st

/-- Elements in flight to a queue head are to be discarded on arrival: they are sent to no head. -/
def Thread.dropFlights (t : Thread) (q : Nat) : Thread :=
  { t with qflights := t.qflights.map fun f => if f.q = q then { f with q := 16 } else f }

/-- End a subscription: what the queue head holds or awaits is discarded, and its KIND returns to 1 (R330). -/
def Thread.endSub (t : Thread) (q : Nat) : Thread :=
  let b := vget t.q q QHead.unbound
  if b.kind = 2 then
    let t := t.dropFlights q
    { t with q := vset t.q q { b with kind := 1, elems := [], flight := 0, sub := none } }
  else t

/-- LUNSUB. -/
def lunsubBody (d : BitVec 4) (_u : QUnit) (st : State) : M EngRes := atIssue (st.setTh (st.th.endSub d.toNat))

/-- LUNSUB (R330). -/
def execLunsub (w e : BitVec 2) (d : BitVec 4) (st : State) : Out :=
  engWord .load (wordOf (.lunsub w e d)) (lunsubBody d) st

/-- Queue RAM that the bindings of a plane leave (R141). -/
def Thread.queueRam (t : Thread) : Nat := 32768 - (t.q.toList.map fun b => if b.kind = 0 then 0 else b.depth * b.ebytes).sum

/-- QBIND. -/
def qbindBody (d : BitVec 4) (s : BitVec 3) (l : BitVec 1) (z : BitVec 2) (_u : QUnit) (st : State) : M EngRes := do
  let t := st.th
  let v ← rdX st t true s.toNat 0
  let depth := v.toNat
  require ((vget t.q d.toNat QHead.unbound).kind == 0) cIllegalContext 0 (st.free 3).toNat
  require (depth != 0 && decide (depth ≤ 32768)) cIllegalOp 0 depth
  require (decide (depth * 2 ^ z.toNat ≤ t.queueRam)) cIllegalOp 1 t.queueRam
  let t := freeX t true l s.toNat
  let b : QHead := { kind := 1, esz := z.toNat, depth := depth, elems := [], flight := 0, sub := none }
  atIssue (st.setTh { t with q := vset t.q d.toNat b }) [depth]

/-- QBIND (R327). -/
def execQbind (w e : BitVec 2) (d : BitVec 4) (s : BitVec 3) (l : BitVec 1) (z : BitVec 2) (st : State) : Out :=
  engWord .load (wordOf (.qbind w e d s l z)) (qbindBody d s l z) st

/-- QFREE: elements held are discarded, those in flight on arrival. -/
def qfreeBody (d : BitVec 4) (_u : QUnit) (st : State) : M EngRes :=
  let t := (st.th.endSub d.toNat).dropFlights d.toNat
  atIssue (st.setTh { t with q := vset t.q d.toNat QHead.unbound })

/-- QFREE (R143, R328). -/
def execQfree (w e : BitVec 2) (d : BitVec 4) (st : State) : Out :=
  engWord .load (wordOf (.qfree w e d)) (qfreeBody d) st

/-! ## Translation from the load sequencer (R334) -/

/-- XLATL. -/
def xlatlBody (h : BitVec 4) (s : BitVec 3) (l : BitVec 1) (t r : BitVec 3) (u : QUnit) (st : State) : M EngRes := do
  requireLegal (r != 0#3)
  let th := st.th
  let va ← rdX st th true s.toNat 0
  atIssue ((st.setTh (freeX th true l s.toNat)).startSettle st.me u.seq h.toNat true t.toNat va.toNat r.toNat) [va.toNat]

/-- XLATL (R334). -/
def execXlatl (w e : BitVec 2) (h : BitVec 4) (s : BitVec 3) (l : BitVec 1) (t r : BitVec 3) (st : State) : Out :=
  engWord .load (wordOf (.xlatl w e h s l t r)) (xlatlBody h s l t r) st

end Sys2Proof.Machine
end

