-- ==== Sys2Proof/Machine/Store.lean ====
section
/-! DEFINITION. The store sequencer's words: block and scatter stores, atomics at home, barrier additions, slot staging, cache range
control and copy submissions (R322 to R326, R331, R333, R335 to R342). -/

namespace Sys2Proof.Machine

open Sys2Proof

/-! ## Stores into the version (R323, R324, R326, R333) -/

/-- A range of the scratchpad stored into the version at a physical address, after the limits of R85. -/
def State.storeRange (s : State) (h so pa n : Nat) : M State := do
  s.versionRoom s.me (linesOf pa n)
  let (s, l) ← s.spadRead s.me so n
  .ok (s.versionWrite s.me (s.th.swmOf h) pa l)

/-- ST. -/
def stBody (h : BitVec 4) (x : BitVec 3) (y : BitVec 1) (t z : BitVec 3) (i : BitVec 1) (_u : QUnit) (st : State) : M EngRes := do
  let th := st.th
  let n := blockBytes z
  let (o, _) ← memX st th false x y 0
  let pa ← checkMem th h.toNat o n rightWR 64
  let so ← rdX st th false t.toNat 1
  checkSpad so.toNat n 64
  let s ← st.storeRange h.toNat so.toNat pa n
  .ok { s := s.setTh (postInc (freeX s.th false y x.toNat) false i x o n), vals := [o, so.toNat], lines := n / 64 }

/-- ST (R323). -/
def execSt (w e : BitVec 2) (h : BitVec 4) (x : BitVec 3) (y : BitVec 1) (t z : BitVec 3) (i : BitVec 1) (st : State) : Out :=
  engWord .store (wordOf (.st w e h x y t z i)) (stBody h x y t z i) st

/-- SUNLK: with NS = 0 the range is stored; its lock bits drop when the word finishes. -/
def sunlkBody (h : BitVec 4) (x : BitVec 3) (y : BitVec 1) (t z : BitVec 3) (ns i : BitVec 1) (_u : QUnit) (st : State) : M EngRes := do
  let th := st.th
  let n := blockBytes z
  let (o, _) ← memX st th false x y 0
  let pa ← checkMem th h.toNat o n rightWR 64
  let so ← rdX st th false t.toNat 1
  checkSpad so.toNat n 64
  let s ← (if ns = 1#1 then .ok st else st.storeRange h.toNat so.toNat pa n : M State)
  .ok { s := s.setTh (postInc (freeX s.th false y x.toNat) false i x o n), vals := [o, so.toNat], locks := lockBits so.toNat n,
        lines := if ns = 1#1 then 0 else n / 64 }

/-- SUNLK (R326). -/
def execSunlk (w e : BitVec 2) (h : BitVec 4) (x : BitVec 3) (y : BitVec 1) (t z : BitVec 3) (n i : BitVec 1) (st : State) : Out :=
  engWord .store (wordOf (.sunlk w e h x y t z n i)) (sunlkBody h x y t z n i) st

/-- STBD. -/
def stbdBody (h : BitVec 4) (x : BitVec 3) (y : BitVec 1) (t : BitVec 4) (_u : QUnit) (st : State) : M EngRes := do
  let th := st.th
  let (o, _) ← memX st th false x y 0
  let pa ← checkMem th h.toNat o 4 rightWR 4
  st.versionRoom st.me (linesOf pa 4)
  let v := vget th.eb t.toNat 0#32
  let s := st.versionWrite st.me (th.swmOf h.toNat) pa (leBytes 4 v.toNat)
  .ok { s := s.setTh (freeX s.th false y x.toNat), vals := [o, v.toNat], lines := 1 }

/-- STBD (R333). -/
def execStbd (w e : BitVec 2) (h : BitVec 4) (x : BitVec 3) (y : BitVec 1) (t : BitVec 4) (st : State) : Out :=
  engWord .store (wordOf (.stbd w e h x y t)) (stbdBody h x y t) st

/-- The lines that the stores of a scatter touch, up to the first element whose check fails. -/
def stxLines (t : Thread) (h eb : Nat) (x : W) : List W → List Nat
  | [] => []
  | off :: r =>
    match checkMem t h (x + off).toNat eb rightWR eb with
    | .ok pa => linesOf pa eb ++ stxLines t h eb x r
    | .error _ => []

/-- The first `n` offsets of a scatter among the elements that have arrived; where offsets and data share the queue head, an offset and its
element take turns. -/
def stxOffs (same : Bool) (n : Nat) (l : List W) : List W :=
  if same then (l.mapIdx fun i v => (i, v)).filterMap fun e => if e.1 % 2 = 0 ∧ e.1 < 2 * n then some e.2 else none else l.take n

/-- One element of STX: its offset is popped, its check runs, and the element is popped and stored. -/
def stxElem (h q qi : Nat) (x : W) (i : Nat) (s : State) : Elem := do
  let t := s.th
  let b := vget t.q q QHead.unbound
  match (vget t.q qi QHead.unbound).elems with
  | [] => waitFor .queueHead
  | off :: _ =>
    let o := (x + off).toNat
    match checkMem t h o b.ebytes rightWR b.ebytes with
    | .error (.cause c) => do
      let (s, _) ← s.popQ s.me qi 1
      .ok (s, some (atElem c i))
    | .error e => .error e
    | .ok pa => do
      let (s, _) ← s.popQ s.me qi 1
      let (s, l) ← s.popQ s.me q 1
      let v := (l.head?.getD 0#64).toNat
      .ok (s.versionWrite s.me (t.swmOf h) pa (leBytes b.ebytes v), none)

/-- STX: every offset is there and every line has room before the first store. Where offsets and data share the queue head its first 2n elements
hold the n offsets. -/
def stxBody (h : BitVec 4) (x : BitVec 3) (y : BitVec 1) (t q : BitVec 4) (c : BitVec 3) (u : QUnit) (st : State) : M EngRes := do
  let th := st.th
  let a ← rdX st th false x.toNat 0
  let b ← checkQ th t.toNat 1
  let bi ← checkQ th q.toNat 1
  let n := 2 ^ c.toNat
  require (bi.esz == 2 || bi.esz == 3) cIllegalContext 0 q.toNat
  require (decide (n ≤ bi.depth)) cIllegalContext 0 q.toNat
  let i0 := th.doneOf u
  if i0 = 0 ∧ bi.elems.length < (if t = q then 2 * n else n) then waitFor .queueHead
  else if i0 = 0 ∧ hState (vget th.h h.toNat 0#64) = 1 then waitFor .handle
  else do
    (if i0 = 0 then st.versionRoom st.me (stxLines th h.toNat b.ebytes a (stxOffs (t == q) n bi.elems)) else .ok ⟨⟩)
    runElems u (stxElem h.toNat t.toNat q.toNat a)
      (fun s => { s := s.setTh (freeX s.th false y x.toNat), vals := [a.toNat], lines := n }) (n - i0) i0 false st

/-- STX (R324). -/
def execStx (w e : BitVec 2) (h : BitVec 4) (x : BitVec 3) (y : BitVec 1) (t q : BitVec 4) (c : BitVec 3) (st : State) : Out :=
  engWord .store (wordOf (.stx w e h x y t q c)) (stxBody h x y t q c) st

/-! ## The drain (R322) -/

/-- SMARK: every access of the store path before it has performed; then the index register is set. -/
def smarkBody (d s : BitVec 3) (l : BitVec 1) (i : BitVec 10) (u : QUnit) (st : State) : M EngRes := do
  let t := st.th
  let a ← rdX st t false s.toNat 0
  if t.flights.any fun f => f.eng == .store then waitFor .performed
  else .ok { s := st.setTh (wrX (freeX t false l s.toNat) false d.toNat (a + immW u.pfx 10 i.toNat)), later := false, vals := [a.toNat] }

/-- SMARK (R322). -/
def execSmark (w e : BitVec 2) (d s : BitVec 3) (l : BitVec 1) (i : BitVec 10) (st : State) : Out :=
  engWord .store (wordOf (.smark w e d s l i)) (smarkBody d s l i) st

/-! ## Atomics (R113, R117, R335 to R337) -/

/-- The operations of AMO. -/
inductive AmoOp where
  | add | fadd | min | max | and | or | xor | swap
  deriving DecidableEq, Repr

/-- The code under which the once-only log names an operation. -/
def AmoOp.code : AmoOp → Nat
  | .add => 0
  | .fadd => 1
  | .min => 2
  | .max => 3
  | .and => 4
  | .or => 5
  | .xor => 6
  | .swap => 7

/-- The new value of the location, and the flags of FADD (R335). -/
def AmoOp.run (op : AmoOp) (old v : W) : W × Fl :=
  match op with
  | .add => (old + v, 0#7)
  | .min => (if old.toInt ≤ v.toInt then old else v, 0#7)
  | .max => (if old.toInt ≤ v.toInt then v else old, 0#7)
  | .and => (old &&& v, 0#7)
  | .or => (old ||| v, 0#7)
  | .xor => (old ^^^ v, 0#7)
  | .swap => (v, 0#7)
  | .fadd =>
    let (a, f) := faddLane (old.extractLsb' 0 32) (v.extractLsb' 0 32)
    let (b, g) := faddLane (old.extractLsb' 32 32) (v.extractLsb' 32 32)
    (b ++ a, f ||| g)

/-- The old value that a peer has answered to an atomic of a unit, and the state without the access (R455). -/
def State.peerOld (s : State) (k seq pa : Nat) : Option (State × Nat) :=
  let is (p : PeerAcc) : Bool := p.thr == k && p.seq == seq && p.kind == 2 && p.pa == pa && p.dest == 9
  (s.peers.find? is).map fun p => ({ s with peers := s.peers.filter fun x => !is x }, p.d)

/-- One atomic step on 8 bytes at home: the state after it with the new value in place, the old value and the flags; a peer's home
makes the step itself. -/
def State.atomic8 (s : State) (k seq pa : Nat) (f : W → W × Fl) : M (State × W × Fl) := do
  if s.atPeer (pa / 64) then
    match s.peerOld k seq pa with
    | some (s, old) =>
      let (v, fl) := f (BitVec.ofNat 64 old)
      .ok (s.patchLine k pa (leBytes 8 v.toNat), BitVec.ofNat 64 old, fl)
    | none => .error (.peer 2 pa)
  else do
    let (s, old) ← s.atomicRead pa 8
    let (v, fl) := f (BitVec.ofNat 64 old)
    .ok ((s.atomicWrite pa (leBytes 8 v.toNat)).renewLine k (pa / 64), BitVec.ofNat 64 old, fl)

/-- An atomic goes to a peer, where it performs: with its request go the task, and the kind and operands under which it is logged (R455). -/
def State.askAtomic (s : State) (k seq kind a : Nat) (ops : List Nat) : State :=
  let s := s.askPeer k seq .store 2 a
  { s with peers := s.peers.map fun (p : PeerAcc) =>
    if p.thr = k ∧ p.seq = seq ∧ p.kind = 2 ∧ p.pa = a then { p with once := some ((s.thread k).task, kind, ops) } else p }

/-- A once-only effect performs and is logged. One that a peer makes has issued with its request: the unit has begun, and waits for the answer
(R433). -/
def onceNow (st : State) (seq kind pa : Nat) (ops : List Nat) (fin : State → W → EngRes) (now : State → M (State × W)) : M EngRes :=
  match now st with
  | .ok (s, old) => .ok (fin (s.onceLog s.me kind pa ops old.toNat) old)
  | .error (.peer 2 a) => .ok { s := st.askAtomic st.me seq kind a ops, more := some .performed, started := true }
  | .error e => .error e

/-- A once-only effect of a store word: one the log holds already returns its value; a full log is emptied by a commit first (R113). -/
def onceStore (st : State) (seq kind pa : Nat) (ops : List Nat) (fin : State → W → EngRes) (now : State → M (State × W)) : M EngRes := do
  match ← st.onceAt st.me kind pa ops with
  | .replayed s ret => .ok (fin s (BitVec.ofNat 64 ret))
  | .fresh => onceNow st seq kind pa ops fin now
  | .full =>
    match st.commitGo .store with
    | .busy s kd => .ok { s := s, more := some kd }
    | .done s => onceNow s seq kind pa ops fin now

/-- May an ordered atomic perform: every access of the three paths before it has performed (R105, R337). -/
def Thread.orderedReady (t : Thread) (seq : Nat) : Bool :=
  (t.ldQ.all fun u => u.marker || decide (seq < u.seq)) && !(t.lpL.isOpen && decide (t.lpL.seq < seq)) &&
    (t.flights.all fun f => f.eng != .load && f.eng != .store) && t.qflights.isEmpty && t.ctlAcc.isEmpty

/-- An atomic: its checks, the release of .REL and .AR, the atomic step, the delivery of the old value, the acquire of .ACQ and .AR. -/
def atomicBody (sem : BitVec 2) (h : BitVec 4) (x : BitVec 3) (y : BitVec 1) (q : BitVec 4) (rv : BitVec 1) (k : BitVec 3)
    (ops : List Nat) (f : W → W × Fl) (u : QUnit) (st : State) : M EngRes := do
  let th := st.th
  let (o, _) ← memX st th false x y 0
  let pa ← checkMem th h.toNat o 8 rightAT 8
  let b ← (if rv = 1#1 then checkQ th q.toNat 1 else .ok QHead.unbound : M QHead)
  requireLegal (rv == 0#1 || b.esz == 3)
  if rv = 1#1 ∧ b.space = 0 then waitFor .queueSpace
  else if sem ≠ 0#2 ∧ th.orderedReady u.seq = false then waitFor .performed
  else
    match (if sem = 2#2 ∨ sem = 3#2 then st.releaseGo .store k.toNat else .done st) with
    | .busy s kd => .ok { s := s, more := some kd }
    | .done s =>
      let fin (s : State) (old : W) : EngRes :=
        let s := s.modThread s.me fun t =>
          let t := freeX t false y x.toNat
          if rv = 1#1 then t.sendQ q.toNat [old] u.seq else t
        let s := if sem = 1#2 ∨ sem = 3#2 then s.acquire s.me k.toNat else s
        { s := s, vals := o :: ops, performed := true, res := [old.toNat], lines := 1 }
      onceStore s u.seq 0 pa ops fin fun s => do
        let (s, old, fl) ← s.atomic8 s.me u.seq pa f
        .ok (s.modThread s.me fun t => { t with flags := orFlags t.flags fl }, old)

/-- AMO. -/
def amoBody (op : AmoOp) (sem : BitVec 2) (h : BitVec 4) (x : BitVec 3) (y : BitVec 1) (v : BitVec 3) (q : BitVec 4) (rv : BitVec 1)
    (k : BitVec 3) (u : QUnit) (st : State) : M EngRes := do
  let a ← rdX st st.th false v.toNat 1
  atomicBody sem h x y q rv k [op.code, a.toNat] (fun old => op.run old a) u st

/-- ACAS: the location takes x[xv + 1] when it equals x[xv]. -/
def acasBody (sem : BitVec 2) (h : BitVec 4) (x : BitVec 3) (y : BitVec 1) (v : BitVec 2) (q : BitVec 4) (rv : BitVec 1)
    (k : BitVec 3) (u : QUnit) (st : State) : M EngRes := do
  let a ← rdX st st.th false (2 * v.toNat) 1
  let n ← rdX st st.th false (2 * v.toNat + 1) 2
  atomicBody sem h x y q rv k [9, a.toNat, n.toNat] (fun old => (if old = a then n else old, 0#7)) u st

/-- ACAS (R336). -/
def execAcas (s w e : BitVec 2) (h : BitVec 4) (x : BitVec 3) (y : BitVec 1) (v : BitVec 2) (q : BitVec 4) (r : BitVec 1) (k : BitVec 3)
    (st : State) : Out :=
  engWord .store (wordOf (.acas s w e h x y v q r k)) (acasBody s h x y v q r k) st
/-- AMO.ADD (R335). -/
def execAmoAdd (s w e : BitVec 2) (h : BitVec 4) (x : BitVec 3) (y : BitVec 1) (v : BitVec 3) (q : BitVec 4) (r : BitVec 1) (k : BitVec 3)
    (st : State) : Out :=
  engWord .store (wordOf (.amoAdd s w e h x y v q r k)) (amoBody .add s h x y v q r k) st
/-- AMO.FADD (R335). -/
def execAmoFadd (s w e : BitVec 2) (h : BitVec 4) (x : BitVec 3) (y : BitVec 1) (v : BitVec 3) (q : BitVec 4) (r : BitVec 1) (k : BitVec 3)
    (st : State) : Out :=
  engWord .store (wordOf (.amoFadd s w e h x y v q r k)) (amoBody .fadd s h x y v q r k) st
/-- AMO.MIN (R335). -/
def execAmoMin (s w e : BitVec 2) (h : BitVec 4) (x : BitVec 3) (y : BitVec 1) (v : BitVec 3) (q : BitVec 4) (r : BitVec 1) (k : BitVec 3)
    (st : State) : Out :=
  engWord .store (wordOf (.amoMin s w e h x y v q r k)) (amoBody .min s h x y v q r k) st
/-- AMO.MAX (R335). -/
def execAmoMax (s w e : BitVec 2) (h : BitVec 4) (x : BitVec 3) (y : BitVec 1) (v : BitVec 3) (q : BitVec 4) (r : BitVec 1) (k : BitVec 3)
    (st : State) : Out :=
  engWord .store (wordOf (.amoMax s w e h x y v q r k)) (amoBody .max s h x y v q r k) st
/-- AMO.AND (R335). -/
def execAmoAnd (s w e : BitVec 2) (h : BitVec 4) (x : BitVec 3) (y : BitVec 1) (v : BitVec 3) (q : BitVec 4) (r : BitVec 1) (k : BitVec 3)
    (st : State) : Out :=
  engWord .store (wordOf (.amoAnd s w e h x y v q r k)) (amoBody .and s h x y v q r k) st
/-- AMO.OR (R335). -/
def execAmoOr (s w e : BitVec 2) (h : BitVec 4) (x : BitVec 3) (y : BitVec 1) (v : BitVec 3) (q : BitVec 4) (r : BitVec 1) (k : BitVec 3)
    (st : State) : Out :=
  engWord .store (wordOf (.amoOr s w e h x y v q r k)) (amoBody .or s h x y v q r k) st
/-- AMO.XOR (R335). -/
def execAmoXor (s w e : BitVec 2) (h : BitVec 4) (x : BitVec 3) (y : BitVec 1) (v : BitVec 3) (q : BitVec 4) (r : BitVec 1) (k : BitVec 3)
    (st : State) : Out :=
  engWord .store (wordOf (.amoXor s w e h x y v q r k)) (amoBody .xor s h x y v q r k) st
/-- AMO.SWAP (R335). -/
def execAmoSwap (s w e : BitVec 2) (h : BitVec 4) (x : BitVec 3) (y : BitVec 1) (v : BitVec 3) (q : BitVec 4) (r : BitVec 1) (k : BitVec 3)
    (st : State) : Out :=
  engWord .store (wordOf (.amoSwap s w e h x y v q r k)) (amoBody .swap s h x y v q r k) st

/-! ## Barrier additions (R338) -/

/-- BARADD: an RLX atomic on a barrier object. -/
def baraddBody (h : BitVec 4) (x : BitVec 3) (y : BitVec 1) (c : BitVec 3) (u : QUnit) (st : State) : M EngRes := do
  let th := st.th
  let (o, _) ← memX st th false x y 0
  let n ← rdX st th false c.toNat 1
  let pa ← checkMem th h.toNat o 16 rightAT 16
  requireLegal (!n.getLsbD 63)
  let fin (s : State) (_ : W) : EngRes := { s := s.modThread s.me fun t => freeX t false y x.toNat, vals := [o, n.toNat], performed := true, lines := 1 }
  onceStore st u.seq 1 pa [n.toNat] fin fun s => do
    if s.atPeer (pa / 64) then
      match s.peerOld s.me u.seq pa with
      | some (s, _) => .ok (s, 0#64)
      | none => .error (.peer 2 pa)
    else do
      let (s, _) ← s.atomicRead pa 16
      .ok (s.barAddAt pa n.toNat, 0#64)

/-- BARADD (R338). -/
def execBaradd (w e : BitVec 2) (h : BitVec 4) (x : BitVec 3) (y : BitVec 1) (c : BitVec 3) (st : State) : Out :=
  engWord .store (wordOf (.baradd w e h x y c)) (baraddBody h x y c) st

/-! ## Slot staging (R331) -/

/-- Bytes of the staging buffer of a stack's storer that hold ranges not yet written into their slots. -/
def State.stagedBytes (s : State) (stack : Nat) : Nat :=
  (s.tasks.flatMap fun t => t.staged.map fun x => if !x.written && x.ring / 2 ^ 37 == stack then x.len else 0).sum

/-- SPULL. -/
def spullBody (h : BitVec 4) (x : BitVec 3) (y : BitVec 1) (g : BitVec 2) (b : BitVec 4) (k : BitVec 3) (_u : QUnit) (st : State) :
    M EngRes := do
  let th := st.th
  let (o, _) ← memX st th false x y 0
  let so ← rdX st th false (2 * g.toNat) 1
  let len ← rdX st th false (2 * g.toNat + 1) 2
  let bo ← rdX st th false k.toNat 3
  let pa ← checkMem th h.toNat o 64 (rightWR + rightAT) 64
  let (s, _, bad) ← st.unitBytes pa 64
  if bad then .error (.cause (s.poisonCause (pa / 64)))
  else
    match s.ringDesc pa (pageBytes (hPsz (vget th.h h.toNat 0#64)) - o) with
    | none => raise cProtection 0 o
    | some (slots, ssize) => do
      let bar ← checkMem th b.toNat bo.toNat 16 rightAT 16
      require (len.toNat % 64 == 0 && len != 0#64 && decide (len.toNat ≤ ssize * 64)) cProtection 0 len.toNat
      checkSpad so.toNat len.toNat 64
      if s.stagedBytes (pa / 2 ^ 37) + len.toNat > 2 ^ 20 then waitFor .slots
      else do
        let (s, l) ← s.spadRead s.me so.toNat len.toNat
        let s := s.modTask s.th.task fun t => { t with
          staged := t.staged ++ [Staged.mk pa bar len.toNat l t.openMark false false slots ssize th.gangPos] }
        .ok { s := s.setTh (freeX s.th false y x.toNat), vals := [o, so.toNat, len.toNat, bo.toNat] }

/-- SPULL (R331). -/
def execSpull (w e : BitVec 2) (h : BitVec 4) (x : BitVec 3) (y : BitVec 1) (g : BitVec 2) (b : BitVec 4) (k : BitVec 3) (st : State) :
    Out :=
  engWord .store (wordOf (.spull w e h x y g b k)) (spullBody h x y g b k) st

/-! ## Cache range control (R339, R340) -/

/-- The committed dirty copies of a line list leave for home under their masks, and stay as clean copies held under R111. -/
def State.writeBack (s : State) (die uid : Nat) (lines : List Nat) : State :=
  let x := s.die die
  let hit (e : LlcLine) : Bool := !e.home && e.dirty != 0#64 && lines.contains e.line
  if x.llc.any hit then
    s.setDie die { x with
      wts := x.wts ++ ((x.llc.filter hit).map fun e => WriteThrough.mk e.line e.dat e.dirty uid (s.atPeer e.line) false e.poison)
      llc := x.llc.map fun e => if hit e then { e with dirty := 0#64, held := true } else e }
  else s

/-- Is a line of a list on its way home from a die, or held until home acknowledges it. -/
def Die.onWay (d : Die) (lines : List Nat) : Bool :=
  d.wts.any (fun w => lines.contains w.line) || d.llc.any fun e => e.held && lines.contains e.line

/-- The memory operand of CWBR and CINVR: the lines, and the offset. -/
def rangeOperand (h : BitVec 4) (x : BitVec 3) (y : BitVec 1) (z : BitVec 3) (st : State) : M (List Nat × Nat) := do
  let (o, _) ← memX st st.th false x y 0
  let n := blockBytes z
  let pa ← checkMem st.th h.toNat o n rightWR 64
  .ok ((linesOf pa n).map st.localLine, o)

/-- CWBR: on a software-managed page, dirty copies are written back and open version lines are flagged. -/
def cwbrBody (h : BitVec 4) (x : BitVec 3) (y : BitVec 1) (z : BitVec 3) (_u : QUnit) (st : State) : M EngRes := do
  let (lines, o) ← rangeOperand h x y z st
  let th := st.th
  let die := thrDie st.me
  let fin (s : State) : EngRes := { s := s.modThread s.me fun t => freeX t false y x.toNat, vals := [o] }
  if !th.swmOf h.toNat then .ok (fin st)
  else
    let s := st.modTask th.task fun t => { t with
      lines := t.lines.map fun v => if v.mark = t.openMark ∧ lines.contains v.line then { v with wb := true } else v }
    let s := s.writeBack die th.task lines
    if (s.die die).onWay lines then .ok { s := s, more := some .performed, started := true } else .ok (fin s)

/-- CWBR (R339). -/
def execCwbr (w e : BitVec 2) (h : BitVec 4) (x : BitVec 3) (y : BitVec 1) (z : BitVec 3) (st : State) : Out :=
  engWord .store (wordOf (.cwbr w e h x y z)) (cwbrBody h x y z) st

/-- Copies of lines dropped from every L1 of a die and from its LLC; home copies stay. -/
def State.dropRange (s : State) (die : Nat) (lines : List Nat) : State :=
  let s := { s with clusters := s.clusters.map fun (e : Nat × Cluster) =>
    if e.1 / 16 = die then (e.1, { e.2 with l1 := e.2.l1.filter fun l => !lines.contains l.line }) else e }
  s.modDie die fun d => { d with llc := d.llc.filter fun e => e.home || !lines.contains e.line }

/-- CINVR: dirty bytes written back, every acknowledgement waited for, then the copies dropped. -/
def cinvrBody (h : BitVec 4) (x : BitVec 3) (y : BitVec 1) (z : BitVec 3) (_u : QUnit) (st : State) : M EngRes := do
  let (lines, o) ← rangeOperand h x y z st
  let die := thrDie st.me
  let s := st.writeBack die st.th.task lines
  if (s.die die).onWay lines then .ok { s := s, more := some .performed, started := true }
  else
    let s := s.dropRange die lines
    .ok { s := s.modThread s.me fun t => freeX t false y x.toNat, vals := [o] }

/-- CINVR (R340). -/
def execCinvr (w e : BitVec 2) (h : BitVec 4) (x : BitVec 3) (y : BitVec 1) (z : BitVec 3) (st : State) : Out :=
  engWord .store (wordOf (.cinvr w e h x y z)) (cinvrBody h x y z) st

/-! ## Copy submission (R341, R342) -/

/-- The I/O die that an automatic submission takes. -/
def State.autoIod (s : State) (dst : Nat) : Nat :=
  let load (i : Nat) : Nat := (s.copies.filter fun c => c.iod == i).length
  match s.homeOf dst with
  | .lp io => io
  | .hostWin p => p
  | _ => if load 1 < load 0 then 1 else 0

/-- XCOPY: the descriptor and both ranges are checked, and the copy is submitted once. -/
def xcopyBody (h : BitVec 4) (x : BitVec 3) (y : BitVec 1) (t : BitVec 3) (u : QUnit) (st : State) : M EngRes := do
  let th := st.th
  let (o, _) ← memX st th false x y 0
  let so ← rdX st th false t.toNat 1
  checkSpad so.toNat 32 32
  let bar ← checkMem th h.toNat o 16 rightAT 16
  let (s, l) ← st.spadRead st.me so.toNat 32
  let sofs := leNat (l.take 8)
  let dofs := leNat ((l.drop 8).take 8)
  let len := leNat ((l.drop 16).take 8)
  let w := leNat (l.drop 24)
  let iod := bits w 55 54
  require (bits w 53 0 == 0 && iod != 3 && len != 0) cProtection 0 so.toNat
  let src ← checkMem th (bits w 63 60) sofs len rightRD 1
  let dst ← checkMem th (bits w 59 56) dofs len rightWR 1
  let io := if iod = 0 then s.autoIod dst else iod - 1
  if (s.copies.filter fun c => c.iod == io).length ≥ 1024 then waitFor .slots
  else
    let fin (s : State) (_ : W) : EngRes := { s := s.modThread s.me fun t => freeX t false y x.toNat, vals := [o, so.toNat], performed := true }
    onceStore s u.seq 2 bar [iod, src, dst, len] fin fun s =>
      let s := { s with copies := s.copies ++ [Copy.mk io src dst len (List.range ((len + 255) / 256)) bar th.tenant th.task th.gangPos false] }
      .ok (s.modTask th.task fun t => { t with asyncOut := t.asyncOut + 1 }, 0#64)

/-- XCOPY (R342). -/
def execXcopy (w e : BitVec 2) (h : BitVec 4) (x : BitVec 3) (y : BitVec 1) (t : BitVec 3) (st : State) : Out :=
  engWord .store (wordOf (.xcopy w e h x y t)) (xcopyBody h x y t) st

end Sys2Proof.Machine
end

