-- ==== Sys2Proof/Machine/Groups.lean ====
section
/-! DEFINITION. The group words JOIN, LEAVE, GBAR and GINFO (R306 to R312). -/

namespace Sys2Proof.Machine

open Sys2Proof

/-- A word in several steps that still waits: the state it has reached stays, and the control sequencer stands. -/
def stay (s : State) (kd : WaitKind) : CtlRes := { s := s.modThread s.me fun t => t.standIn .ctl kd s.now, gone := true }

/-- The address of a group object after the checks of R312, with the operand's register freed. -/
def groupOperand (h : BitVec 4) (k : BitVec 1) (o : BitVec 10) (right : Nat) (st : State) : M (Nat × Nat × Thread) := do
  let t ← ctlHandle st.th h.toNat
  let (ofs, t1) ← cmOfs st t k o
  let pa ← checkMem t h.toNat ofs 64 right 64
  .ok (pa, ofs, t1)

/-- The object as home holds it: poison is an error of the control sequencer, and a reserved bit set raises PROTECTION (R312). -/
def State.groupAt (s : State) (pa ofs : Nat) : M (State × Grp) := do
  let (s, _) ← s.atomicRead pa 64
  match s.readGrp pa with
  | none => raise cProtection 0 ofs
  | some g => .ok (s, g)

/-- Kind of a group step in the once-only log (R419). -/
def onceGroup : Nat := 7

/-- The result of a group word's step at home, on its way to d by the control path (R298, R308, R311). -/
def Thread.sendCtl (t : Thread) (d v : Nat) : Thread :=
  let t := t.dropPending d
  { t with ctlAcc := t.ctlAcc ++ [{ store := false, d := d, pa := 0, n := 0, sx := false, dat := v, swm := false, pc := t.unitPc, seq := t.seq, dead := none }] }

/-- A membership entry put into the thread's table. -/
def Thread.addMember (t : Thread) (e : Member) : Thread := { t with members := t.members ++ [e] }

/-- The result of JOIN at home: the object afterwards and d (R308). -/
def joinStep (t : Thread) (pa : Nat) (g : Grp) : Grp × Nat :=
  if t.members.any (fun e => e.pa == pa) || t.members.length ≥ 4 || g.nmem + g.pjoin == 65535 || g.nextidx == 0xFFFF then
    (g, 2 ^ 64 - 1)
  else
    let idx := g.nextidx
    let g := { g with nextidx := g.nextidx + 1 }
    if g.nmem = 0 then ({ g with nmem := 1 }, g.phase * 2 ^ 32 + idx)
    else ({ g with pjoin := g.pjoin + 1 }, (g.phase + 1) % 2 ^ 32 * 2 ^ 32 + idx)

/-- JOIN's result reaches the table and, by the control path, d (R298, R308). -/
def Thread.joined (t : Thread) (d pa ret : Nat) : Thread :=
  (if ret = 2 ^ 64 - 1 then t else t.addMember ⟨pa, ret % 2 ^ 32, ret / 2 ^ 32, none⟩).sendCtl d ret

/-- A once-only effect of a control word: a full log is emptied by a commit first (R113). -/
def onceCtl (st : State) (kind pa : Nat) (ops : List Nat) (again : State → Nat → M CtlRes) (now : State → M CtlRes) : M CtlRes := do
  match ← st.onceAt st.me kind pa ops with
  | .replayed s ret => again s ret
  | .fresh => now st
  | .full =>
    match st.commitGo .ctl with
    | .busy s kd => .ok (stay s kd)
    | .done s => now s

/-- JOIN: one atomic step at home. -/
def joinBody (d : BitVec 5) (h : BitVec 4) (k : BitVec 1) (o : BitVec 10) (st : State) : M CtlRes := do
  let (pa, ofs, t1) ← groupOperand h k o rightAT st
  if t1.ctlAcc.length ≥ 8 then waitFor .performed
  else
    onceCtl st onceGroup pa [0]
      (fun s ret => .ok { s := s.setTh (t1.joined d.toNat pa ret) })
      (fun s => do
        let (s, g) ← s.groupAt pa ofs
        let (g1, ret) := joinStep t1 pa g
        let s := if g1 = g then s else s.atomicWrite pa g1.bytes
        let s := s.setTh ({ t1 with ph := s.th.ph }.joined d.toNat pa ret)
        .ok { s := s.onceLog s.me onceGroup pa [0] ret })

/-- JOIN (R308). -/
def execJoin (d : BitVec 5) (h : BitVec 4) (k : BitVec 1) (o : BitVec 10) (st : State) : Out :=
  ctl .control true (wordOf (.join d h k o)) (joinBody d h k o) st

/-- LEAVE: a release at PKG scope, then one atomic step at home; none without an entry for the object. -/
def leaveBody (h : BitVec 4) (k : BitVec 1) (o : BitVec 10) (st : State) : M CtlRes := do
  let (pa, ofs, t1) ← groupOperand h k o rightAT st
  match st.releaseGo .ctl 4 with
  | .busy s kd => .ok (stay s kd)
  | .done s =>
    let gone (s : State) : State := s.setTh { t1 with ph := s.th.ph, members := t1.members.filter fun e => e.pa != pa }
    match t1.members.find? fun e => e.pa == pa with
    | none => .ok { s := gone s }
    | some e =>
      match ← s.onceAt s.me onceGroup pa [1] with
      | .replayed s _ => .ok { s := gone s }
      | _ => do
        let (s, g) ← s.groupAt pa ofs
        let s := s.atomicWrite pa (g.leave e).bytes
        .ok { s := (gone s).onceLog s.me onceGroup pa [1] 0 }

/-- LEAVE (R309). -/
def execLeave (h : BitVec 4) (k : BitVec 1) (o : BitVec 10) (st : State) : Out :=
  ctl .control true (wordOf (.leave h k o)) (leaveBody h k o) st

/-- Stage of a GBAR that has arrived and waits for the flip; images keep it (R285, R312). -/
def gbarWaits : Nat := 60

/-- Stage of a GBAR that has released and waits for its entry to be in force: a restore issues it again from its start (R285, R310). -/
def gbarJoins : Nat := 61

/-- The entry's last arrival recorded, and the GBAR left waiting for the flip of that phase. -/
def Thread.arrived (t : Thread) (pa p : Nat) : Thread :=
  { t with
    members := t.members.map fun e => if e.pa = pa then { e with last := some p } else e
    ph := { Phase.none with stage := gbarWaits, arg := p } }

/-- GBAR: release, wait for the membership, arrive, wait for the flip, acquire. -/
def gbarBody (h : BitVec 4) (k : BitVec 1) (o : BitVec 10) (st : State) : M CtlRes := do
  let (pa, ofs, t1) ← groupOperand h k o rightAT st
  if st.th.ph.stage = gbarWaits then
    let (s, g) ← st.groupAt pa ofs
    if g.phase = s.th.ph.arg then waitFor .group
    else .ok { s := (s.setTh t1).acquire s.me 4 }
  else
    match t1.members.find? fun e => e.pa == pa with
    | none => raise cIllegalContext 0 (st.free 3).toNat
    | some e =>
      match (if st.th.ph.stage = gbarJoins then .done st else st.releaseGo .ctl 4) with
      | .busy s kd => .ok (stay s kd)
      | .done s =>
        match ← s.onceAt s.me onceGroup pa [2] with
        | .replayed s ret => .ok (stay (s.setTh (s.th.arrived pa ret)) .group)
        | _ => do
          let (s, g) ← s.groupAt pa ofs
          if !phaseReached g.phase e.eff then
            if st.th.ph.stage = gbarJoins then waitFor .group
            else .ok (stay (s.modThread s.me fun t => { t with ph := { Phase.none with stage := gbarJoins } }) .group)
          else
            let s := s.atomicWrite pa g.arrive.bytes
            let s := s.onceLog s.me onceGroup pa [2] g.phase
            .ok (stay (s.setTh (s.th.arrived pa g.phase)) .group)

/-- GBAR (R310). -/
def execGbar (h : BitVec 4) (k : BitVec 1) (o : BitVec 10) (st : State) : Out :=
  ctl .control true (wordOf (.gbar h k o)) (gbarBody h k o) st

/-- GINFO: an RLX load of the object at home. -/
def ginfoBody (d : BitVec 5) (h : BitVec 4) (k : BitVec 1) (o : BitVec 10) (st : State) : M CtlRes := do
  let (pa, ofs, t1) ← groupOperand h k o rightRD st
  if t1.ctlAcc.length ≥ 8 then waitFor .performed
  else do
    let (s, g) ← st.groupAt pa ofs
    let idx := ((t1.members.find? fun e => e.pa == pa).map (·.idx)).getD 0xFFFF
    .ok { s := s.setTh (t1.sendCtl d.toNat (g.phase * 2 ^ 32 + g.nmem * 65536 + idx)) }

/-- GINFO (R311). -/
def execGinfo (d : BitVec 5) (h : BitVec 4) (k : BitVec 1) (o : BitVec 10) (st : State) : Out :=
  ctl .control false (wordOf (.ginfo d h k o)) (ginfoBody d h k o) st

end Sys2Proof.Machine
end

