-- ==== Sys2Proof/Machine/System.lean ====
section
/-! DEFINITION. The system words (R393 to R418), and the prefix words (R267 to R271). -/

namespace Sys2Proof.Machine

open Sys2Proof

/-! ## Traps and handlers (R396 to R399) -/

/-- TRAP: the cause is taken at the boundary that follows the word. -/
def trapBody (s : BitVec 5) (l : BitVec 1) (c : BitVec 7) (st : State) : M CtlRes := do
  let v ← rdG st st.th s.toNat 0
  .ok { s := st.setTh (freeG st.th l s.toNat), late := some ⟨cSoftware, c.toNat, v.toNat⟩ }

/-- TRAP (R396). -/
def execTrap (s : BitVec 5) (l : BitVec 1) (c : BitVec 7) (st : State) : Out :=
  ctl .system true (wordOf (.trap s l c)) (trapBody s l c) st

/-- A word that carries a commit on before its own effect. -/
def afterCommit (st : State) (f : State → M CtlRes) : M CtlRes :=
  match st.commitGo .ctl with
  | .busy s kd => .ok (stay s kd)
  | .done s => f s

/-- A word that carries a release on before its own effect. -/
def afterRelease (scope : Nat) (st : State) (f : State → M CtlRes) : M CtlRes :=
  match st.releaseGo .ctl scope with
  | .busy s kd => .ok (stay s kd)
  | .done s => f s

/-- ECALL: a commit, then the trap. -/
def ecallBody (s : BitVec 5) (l : BitVec 1) (c : BitVec 7) (st : State) : M CtlRes := do
  let v ← rdG st st.th s.toNat 0
  afterCommit st fun st => .ok { s := st.setTh (freeG st.th l s.toNat), late := some ⟨cSoftware, 128 + c.toNat, v.toNat⟩ }

/-- ECALL (R396). -/
def execEcall (s : BitVec 5) (l : BitVec 1) (c : BitVec 7) (st : State) : Out :=
  ctl .system true (wordOf (.ecall s l c)) (ecallBody s l c) st

/-- TRAPRET. -/
def trapretBody (st : State) : M CtlRes := do
  let t := st.th
  require t.inh cIllegalContext 0 (st.free 3).toNat
  require (canReturn t) cBadReturn 0 (t.trapCause.toNat / 2 ^ 32)
  .ok { s := st.setTh { t.returnFrom with seq := t.seq + 1, waitK := none, ph := Phase.none }, gone := true }

/-- TRAPRET (R397). -/
def execTrapret (st : State) : Out := ctl .system true (wordOf .trapret) trapretBody st

/-- The page of an address, its base and its length, when it has a valid leaf with PIN = 1 and the rights asked. -/
def State.pinned (s : State) (ctx va rights : Nat) (sys : Bool) : M (State × Option (Nat × Nat)) := do
  let s ← s.walkMeet ctx va
  match s.walk ctx va with
  | .leaf e _ => .ok (s, if e.pin && rightsOk e rights sys va then some (e.va, pageBytes e.psz) else none)
  | _ => .ok (s, none)

/-- The pages of a range, when they are all pinned with the rights asked. -/
def State.pinnedRange (s : State) (ctx rights : Nat) (sys : Bool) (stop : Nat) : Nat → Nat → M (State × Option (List (Nat × Nat)))
  | 0, _ => .ok (s, some [])
  | fuel + 1, va =>
    if va ≥ stop then .ok (s, some [])
    else do
      let (s, page) ← s.pinned ctx va rights sys
      match page with
      | none => .ok (s, none)
      | some p => do
        let (s, rest) ← s.pinnedRange ctx rights sys stop fuel (p.1 + p.2)
        .ok (s, rest.map (p :: ·))

/-- The contents of a handler table, as numbers of 8 bytes (R398). -/
structure HandlerTab where
  code : Nat
  clen : Nat
  data : Nat
  dlen : Nat
  pad : Nat
  entries : List Nat
  deriving DecidableEq, Repr

/-- Words of 8 bytes. -/
def words8 : Nat → List Byte → List Nat
  | 0, _ => []
  | n + 1, l => leNat (l.take 8) :: words8 n (l.drop 8)

def HandlerTab.of (l : List Byte) : HandlerTab :=
  let w := words8 264 l
  { code := w.getD 0 0, clen := w.getD 1 0, data := w.getD 2 0, dlen := w.getD 3 0, pad := leNat ((l.drop 32).take 32), entries := w.drop 8 }

/-- The checks of code 2 (R399). -/
def HandlerTab.ok (h : HandlerTab) : Bool :=
  h.pad == 0 && h.clen != 0 && h.code % 4 == 0 && h.entries.all fun e =>
    bits e 63 57 == 0 && !bit e 1 &&
      (!bit e 0 || decide ((bits e 56 2 * 4 + 2 ^ 57 - h.code % 2 ^ 57) % 2 ^ 57 < h.clen))

/-- INSTALL's status code, and when it is 0 the pages of the table and of its code and data ranges; the state after the reads. -/
def State.installCheck (s : State) (k va : Nat) : M (State × Nat × Option (List (Nat × Nat))) := do
  if !canonical va || va % 4096 != 0 then .ok (s, 3, none)
  else
    let ctx := s.thrCtx k
    let sys := (s.thread k).sys
    let s ← (s.acquire k 4).walkMeet ctx va
    match s.walk ctx va with
    | .leaf e _ =>
      if !(e.pin && rightsOk e rightRD sys va) then .ok (s, 1, none)
      else do
        let pa := e.frame * 4096 + va % pageBytes e.psz
        let (s, l, bad) ← s.loadBytes k pa 2112 e.swm
        if bad then .error (.cause (s.poisonCause ((linesOf pa 2112).find? s.isPoison |>.getD (pa / 64))))
        else
          let h := HandlerTab.of l
          if !h.ok then .ok (s, 2, none)
          else do
            let (s, code) ← s.pinnedRange ctx rightRD sys (h.code + h.clen) (h.clen / 4096 + 2) h.code
            let (s, data) ← s.pinnedRange ctx (rightRD + rightWR) sys (h.data + h.dlen) (h.dlen / 4096 + 2) h.data
            .ok (match code, data with
              | some c, some d => (s, 0, some ((e.va, pageBytes e.psz) :: c ++ d))
              | _, _ => (s, 1, none))
    | _ => .ok (s, 1, none)

/-- INSTALL. -/
def installBody (d s : BitVec 5) (l : BitVec 1) (st : State) : M CtlRes := do
  require (!st.th.inh) cIllegalContext 0 (st.free 3).toNat
  let v ← rdG st st.th s.toNat 0
  let fin (st : State) (code : Nat) (f : Thread → Thread) : CtlRes :=
    { s := st.setTh (wrG (f (freeG st.th l s.toNat)) d.toNat (BitVec.ofNat 64 code)) }
  if v = 0#64 then .ok (fin st 0 fun t => { t with handlerBase := t.handlerBase &&& ~~~1#64, handlerRanges := [] })
  else do
    let (st, code, pages) ← st.installCheck st.me v.toNat
    match pages with
    | none => .ok (fin st code id)
    | some l => .ok (fin st 0 fun t => { t with
        handlerBase := BitVec.ofNat 64 (bits v.toNat 56 12 * 4096 + 1), handlerRanges := l })

/-- INSTALL (R399). -/
def execInstall (d s : BitVec 5) (l : BitVec 1) (st : State) : Out :=
  ctl .system true (wordOf (.install d s l)) (installBody d s l) st

/-! ## Hints, persistence, fences and commit (R400 to R403) -/

/-- Has a thread an open tile in its cluster. -/
def State.openTile (s : State) (k : Nat) : Bool := (s.cluster (thrCluster k)).hasTile (s.thread k).task (s.thread k).gangPos

/-- The save of a PHINT with a liveness entry: a full one with an open tile, or when the entry cannot be used (R187, R367, R400). -/
def State.hintKind (s : State) (k i : Nat) : ImgKind :=
  if s.openTile k then .full
  else
    match (s.taskOf (s.thread k).task).bind fun x => s.liveEntry x i with
    | some e => .phint e
    | none => .full

/-- PHINT. -/
def phintBody (i : BitVec 16) (st : State) : M CtlRes :=
  let t := st.th
  if !t.savePending then .ok { s := st }
  else if !st.saveReady st.me then waitFor .drain
  else if !st.openTile st.me && !((st.taskOf t.task).map fun x => st.liveReady x i.toNat).getD true then waitFor .memory
  else .ok { s := st.beginSave st.me t.savePurpose (st.hintKind st.me i.toNat) Thread.pastUnit, gone := true }

/-- PHINT (R400). -/
def execPhint (i : BitVec 16) (st : State) : Out := ctl .system true (wordOf (.phint i)) (phintBody i) st

/-- PFENCE: within the window it sets or joins the pending point; otherwise it takes the point, with one that still pends, after a commit where
the marks ask for one (R84). -/
def pfenceBody (c : BitVec 1) (st : State) : M CtlRes := do
  let t := st.th
  require (c == 0#1 || st.holdsLease st.me) cIllegalContext 0 (st.free 3).toNat
  let scope := max (t.pendPersist.getD 0) c.toNat
  let take (st : State) : M CtlRes := .ok { s := st.persistPoint st.me (if st.holdsLease st.me then scope else 0) }
  if t.ph.stage = 0 ∧ t.persistOpen st.now = false then .ok { s := st.setTh { t with pendPersist := some scope } }
  else if t.ph.stage ≠ 0 ∨ st.pointCommits st.me = true then afterCommit st take
  else if !(t.drained && t.wordsWhole) then waitFor .drain
  else take st

/-- PFENCE (R401). -/
def execPfence (c : BitVec 1) (st : State) : Out := ctl .system true (wordOf (.pfence c)) (pfenceBody c) st

/-- Has every access before the word at the PC performed, on all three paths (R105). -/
def Thread.allBefore (t : Thread) : Bool := t.ctlAcc.isEmpty && !t.pathsBefore t.seq

/-- FENCE: the ordering of a QSYNC, then the release part, whose waits for completion are boundaries (R394), then the acquire part. Agate's has
nothing to order: it has no versions, and its stores have performed (R465). -/
def fenceBody (k : BitVec 3) (e : BitVec 2) (st : State) : M CtlRes :=
  if st.me = agateThr then .ok { s := st }
  else if st.th.ph.stage = 0 ∧ st.th.allBefore = false then waitFor .performed
  else
    let acq (st : State) : M CtlRes := .ok { s := if e.getLsbD 0 then st.acquire st.me k.toNat else st }
    let waits (t : Thread) : Thread := { t with ph := { t.ph with arg2 := fenceWaits } }
    if e.getLsbD 1 then afterRelease k.toNat (st.modThread st.me waits) acq else acq st

/-- FENCE (R402). -/
def execFence (k : BitVec 3) (e : BitVec 2) (st : State) : Out := ctl .system true (wordOf (.fence k e)) (fenceBody k e) st

/-- QSYNC: the markers go into the load and the store command queue once the control path has performed (R105). -/
def qsyncBody (st : State) : M CtlRes :=
  let t := st.th
  if !t.ctlAcc.isEmpty then waitFor .performed
  else if t.ldQ.length ≥ queueDepth .load ∨ t.stQ.length ≥ queueDepth .store then waitFor .cmdQueue
  else
    let m := (t.unitHere (wordOf .qsync)).mark
    .ok { s := st.setTh { t with ldQ := t.ldQ ++ [m], stQ := t.stQ ++ [m] } }

/-- QSYNC (R402). -/
def execQsync (st : State) : Out := ctl .system true (wordOf .qsync) qsyncBody st

/-- TCOMMIT (R403). -/
def execTcommit (st : State) : Out :=
  ctl .system true (wordOf .tcommit) (fun st => afterCommit st fun st => .ok { s := st }) st

/-! ## Ending a task (R404, R405) -/

/-- Has a thread an asynchronous operation that has not added its count: a copy, a collective, or an addition on its way (R124). -/
def State.asyncOf (s : State) (k : Nat) : Bool :=
  let t := s.thread k
  (s.copies.any fun c => c.task == t.task && c.pos == t.gangPos) || (s.colls.any fun c => c.task == t.task && c.pos == t.gangPos) ||
    s.barAdds.any fun b => b.task == some t.task && b.pos == t.gangPos

/-- Has everything that a thread has issued ended: its words, its accesses, its asynchronous operations (R404 steps 1 and 2). -/
def State.ended (s : State) (k : Nat) : Bool := (s.thread k).drained && !s.asyncOf k

/-- A thread ends after its commit: the last one of its task ends the task (R404 steps 4 to 6). A gang whose other threads have all been saved
out waits to be placed again. -/
def State.threadEnds (s : State) (k : Nat) : State :=
  let uid := (s.thread k).task
  let pos := (s.thread k).gangPos
  match s.taskOf uid with
  | none => s.endThread k true
  | some x =>
    if (List.range x.gangN).all fun p => p == pos || x.done.contains p then
      let s := s.modThread k fun t => { t with halted := true }
      (s.modTask uid fun y => { y with ending := some [0, 0, 0, 0, 0], state := 7 }).finishTask uid
    else
      let left := x.threads.filter (· != k)
      let s := s.modTask uid fun y => { y with threads := left, done := y.done ++ [pos] }
      let s := s.endThread k true
      if left.isEmpty then (s.modTask uid fun y => { y with state := if y.onyxCores.isEmpty then 0 else 3, waitAt := s.now }).refillReady x.die else s

/-- A TEND or TABORT waits for what its thread has issued: no save splits it (R394). -/
def endStays (st : State) : CtlRes := stay (st.modThread st.me fun t => { t with ph := { t.ph with arg2 := endWaits } }) .drain

/-- TEND: the commit, and for a thread that has LEAVEs to make the release at PKG scope that they are (R309, R404). -/
def tendBody (st : State) : M CtlRes :=
  if st.th.ph.stage = 0 ∧ st.ended st.me = false then .ok (endStays st)
  else
    let st := st.modThread st.me fun t => { t with ph := { t.ph with arg2 := endWaits } }
    let ends (st : State) : M CtlRes := .ok { s := st.threadEnds st.me, gone := true }
    if st.th.members = [] then afterCommit st ends else afterRelease 4 st ends

/-- TEND (R404). -/
def execTend (st : State) : Out := ctl .system true (wordOf .tend) tendBody st

/-- Have the words that the threads of a task have issued all ended. -/
def State.matesDrained (s : State) (k : Nat) : Bool :=
  (((s.taskOf (s.thread k).task).map (·.threads)).getD []).all fun j => (s.thread j).drained

/-- TABORT: the other threads of a gang stop at once, and what all have issued comes to its end; the record's PC holds the code (R405, R452). -/
def tabortBody (c : BitVec 8) (st : State) : M CtlRes :=
  let st := st.stopMates st.me
  .ok (if st.ended st.me && st.matesDrained st.me then { s := st.endTask st.th.task 1 cSoftware c.toNat c.toNat 0, gone := true } else endStays st)

/-- TABORT (R405). -/
def execTabort (c : BitVec 8) (st : State) : Out := ctl .system true (wordOf (.tabort c)) (tabortBody c) st

/-! ## Planes (R406, R407) -/

/-- Does the shadow plane hold a thread that the loader has filled. -/
def State.shadowReady (s : State) (k : Nat) : Bool :=
  let c := s.core (thrCore k)
  (s.thread (2 * thrCore k + (1 - k % 2))).running && !(c.fill.isSome && !c.filled)

/-- The planes flip: the outgoing thread's ranges are saved, and its images are kept until it is made active again (R92, R406 steps 3 to
6). -/
def State.swapOut (s : State) (k i : Nat) : State :=
  let core := thrCore k
  let c := s.core core
  let ranges := match s.hintKind k i with
    | .phint e => e.ranges.map fun r => (r.1, r.2, cellsIn c.spad r.1 r.2)
    | _ => [(0, 2 ^ 21, c.spad)]
  let bad := c.spadPoison.filter fun l => ranges.any fun r => decide (r.1 < l * 64 + 64 ∧ l * 64 < r.1 + r.2.1)
  let s := s.modThread k fun t => { t with spadSave := ranges, spadBad := bad }
  let s := s.keepImages k
  (s.leaseSwap k (2 * core + (1 - k % 2))).activate core (1 - k % 2)

/-- PSWAP: d is written when the thread is next made active, which is when it can be read. -/
def pswapBody (d s : BitVec 5) (l : BitVec 1) (st : State) : M CtlRes := do
  let k := st.me
  let v ← rdG st st.th s.toNat 0
  let fin (t : Thread) (x : Nat) : Thread := wrG (freeG t l s.toNat) d.toNat (BitVec.ofNat 64 x)
  if !st.shadowReady k then .ok { s := st.setTh (fin st.th 0) }
  else if !st.th.drained then waitFor .drain
  else
    let st := st.setTh (fin st.th 1)
    .ok { s := st.swapOut k (v.toNat % 65536) }

/-- PSWAP (R406). -/
def execPswap (d s : BitVec 5) (l : BitVec 1) (st : State) : Out := ctl .system true (wordOf (.pswap d s l)) (pswapBody d s l) st

/-- Stage of an IDLE that has drained and waits. -/
def idleWaits : Nat := 5

/-- The end of an IDLE without a time limit: device time never reaches it. -/
def idleNever : Nat := 2 ^ 64

/-- IDLE: after the drain it waits for its time, a token, an arrival, a grade change or a pending save; Agate's ends
with a request too, at once when one is there (R465). -/
def idleBody (i : BitVec 12) (st : State) : M CtlRes :=
  let t := st.th
  let us := immU t.pfx 12 i.toNat
  let called := decide (st.me = agateThr) && st.agate.req
  if t.ph.stage ≠ idleWaits then
    if called then .ok { s := st }
    else if !t.drained then waitFor .drain
    else
      .ok (stay (st.setTh { t with
        idleUntil := some (if us = 0 then idleNever else st.now + us * 1000), ph := { Phase.none with stage := idleWaits, arg := st.curtGrade t } }) .idle)
  else if t.savePending then
    if !st.saveReady st.me then waitFor .drain
    else .ok { s := st.beginSave st.me t.savePurpose .full id, gone := true }
  else
    match t.idleUntil with
    | none => .ok { s := st }
    | some u =>
      if decide (u ≤ st.now) || st.curtGrade t != t.ph.arg || called then .ok { s := st.setTh { t with idleUntil := none } }
      else waitFor .idle

/-- IDLE (R407). -/
def execIdle (i : BitVec 12) (st : State) : Out := ctl .system true (wordOf (.idle i)) (idleBody i) st

/-! ## Graphs (R408, R409) -/

/-- The slot that a g register names, when it holds a launched graph of the tenant (R408). -/
def State.graphSlot (s : State) (tenant : Nat) (v : W) : Option (Nat × Slot) :=
  let n := bits v.toNat 39 32
  if bits v.toNat 63 40 ≠ 0 then none
  else (s.slot n).bind fun x => if (s.ctx x.ctx).tenant = tenant then some (n, x) else none

/-- All ones. -/
def allOnes : Nat := 2 ^ 64 - 1

/-- Kind of KICK in the once-only log (R419). -/
def onceKick : Nat := 4

/-- What KICK does at the graph engine: the state and d, or a wait for the placement map (R87) or an entry of the ready queue (R159). -/
def State.kickAt (s : State) (replay : Bool) (v : W) : M (State × Nat) :=
  match s.graphSlot s.th.tenant v with
  | none => .ok (s, allOnes)
  | some (n, x) =>
    let node := bits v.toNat 31 16
    if replay then
      if node ≠ 0 then .ok (s, allOnes)
      else .ok (s.setSlot n { x with replayWait := some (x.replayWait.getD none) }, nextGen x.gen)
    else if node ≥ x.nodes.length then .ok (s, allOnes)
    else if !s.mapReady x node then waitFor .memory
    else if (s.die (s.chooseDie x node)).ready.length ≥ 4096 then waitFor .slots
    else .ok (s.addTask n node (bits v.toNat 15 0) true, x.gen)

/-- KICK and KICK.R. -/
def kickBody (replay : Bool) (d s : BitVec 5) (l : BitVec 1) (st : State) : M CtlRes := do
  let v ← rdG st st.th s.toNat 0
  let fin (st : State) (x : Nat) : CtlRes := { s := st.setTh (wrG (freeG st.th l s.toNat) d.toNat (BitVec.ofNat 64 x)) }
  let ops := [b01 replay, v.toNat]
  onceCtl st onceKick 0 ops (fun st ret => .ok (fin st ret)) fun st => do
    let (st, ret) ← st.kickAt replay v
    .ok (fin (st.onceLog st.me onceKick 0 ops ret) ret)

/-- KICK (R408). -/
def execKick (d s : BitVec 5) (l : BitVec 1) (st : State) : Out := ctl .system true (wordOf (.kick d s l)) (kickBody false d s l) st
/-- KICK.R (R408). -/
def execKickR (d s : BitVec 5) (l : BitVec 1) (st : State) : Out := ctl .system true (wordOf (.kickR d s l)) (kickBody true d s l) st

/-- Ahead(G) of R409. -/
def genAhead (g gen : Nat) : Bool :=
  let x := (g + 65536 - gen % 65536) % 65536
  decide (1 ≤ x ∧ x ≤ 32767)

/-- NWAIT. -/
def nwaitBody (d s : BitVec 5) (l : BitVec 1) (t : BitVec 5) (m : BitVec 1) (st : State) : M CtlRes := do
  let a ← rdG st st.th s.toNat 0
  let b ← rdG st st.th t.toNat 1
  let g := b.toNat % 65536
  let fin (st : State) (x : Nat) : CtlRes :=
    { s := st.setTh (wrG (freeG (freeG st.th l s.toNat) m t.toNat) d.toNat (BitVec.ofNat 64 x)) }
  match st.graphSlot st.th.tenant a with
  | none => .ok (fin st allOnes)
  | some (_, x) =>
    let n := bits a.toNat 31 16
    if n ≥ x.nodes.length ∨ g = 0 then .ok (fin st allOnes)
    else
      let cgen := (x.node n).cgen
      if cgen = g then .ok (fin (st.acquire st.me 4) 0)
      else if g ≠ x.gen ∧ genAhead g x.gen = false then .ok (fin (st.acquire st.me 4) 1)
      else waitFor .nwait

/-- NWAIT (R409). -/
def execNwait (d s : BitVec 5) (l : BitVec 1) (t : BitVec 5) (m : BitVec 1) (st : State) : Out :=
  ctl .system true (wordOf (.nwait d s l t m)) (nwaitBody d s l t m) st

/-! ## Barrier objects (R227, R410, R411) -/

/-- Kind of BARINIT and BAREXP in the once-only log (R419). -/
def onceBar : Nat := 6

/-- The two words of a barrier object after BARINIT or BAREXP with a value below 2^63; the reserved bit stays. -/
def barSet (keep : Bool) (w0 w1 v : Nat) : Nat × Nat :=
  let w1' := w1 / 2 ^ 63 * 2 ^ 63 + v
  if !keep then (0, w1')
  else
    let ph := w0 / 2 ^ 63 % 2
    let a := w0 % 2 ^ 63
    if v ≠ 0 ∧ a ≥ v then ((1 - ph) * 2 ^ 63 + (a - v), w1') else (w0, w1')

/-- BARINIT and BAREXP. -/
def barSetBody (keep : Bool) (d : BitVec 5) (h : BitVec 4) (k : BitVec 1) (o : BitVec 10) (st : State) : M CtlRes := do
  let t ← ctlHandle st.th h.toNat
  let (ofs, t1) ← cmOfs st t k o
  let v ← rdG st t d.toNat 0
  let pa ← checkMem t h.toNat ofs 16 rightAT 16
  requireLegal (!v.getLsbD 63)
  let ops := [b01 keep, v.toNat]
  let fin (st : State) : CtlRes := { s := st.setTh { t1 with ph := st.th.ph } }
  onceCtl st onceBar pa ops (fun st _ => .ok (fin st)) fun st => do
    let (st, x) ← st.atomicRead pa 16
    let w := barSet keep (x % 2 ^ 64) (x / 2 ^ 64) v.toNat
    let st := st.atomicWrite pa (leBytes 8 w.1 ++ leBytes 8 w.2)
    .ok (fin (st.onceLog st.me onceBar pa ops 0))

/-- BARINIT (R410). -/
def execBarinit (d : BitVec 5) (h : BitVec 4) (k : BitVec 1) (o : BitVec 10) (st : State) : Out :=
  ctl .system true (wordOf (.barinit d h k o)) (barSetBody false d h k o) st
/-- BAREXP (R410). -/
def execBarexp (d : BitVec 5) (h : BitVec 4) (k : BitVec 1) (o : BitVec 10) (st : State) : Out :=
  ctl .system true (wordOf (.barexp d h k o)) (barSetBody true d h k o) st

/-- Bytes of a line that the control sequencer reads at home; poison is an error that it consumes (R100). What the thread reads from copies of
the line is as new from then on (R107). -/
def State.homeData (s : State) (pa n : Nat) : M (State × Nat) := do
  let (s, l, bad) ← s.unitBytes pa n
  if bad then .error (.cause (s.poisonCause (s.firstPoison pa n))) else .ok (s.renewLine s.me (pa / 64), leNat l)

/-- BARWAIT. -/
def barwaitBody (d : BitVec 5) (h : BitVec 4) (k : BitVec 1) (o : BitVec 10) (st : State) : M CtlRes := do
  let t ← ctlHandle st.th h.toNat
  let (ofs, t1) ← cmOfs st t k o
  let v ← rdG st t d.toNat 0
  let pa ← checkMem t h.toNat ofs 16 rightRD 16
  let (st, x) ← st.homeData pa 8
  if bit x 63 == v.getLsbD 0 then waitFor .barrier else .ok { s := st.setTh t1 }

/-- BARWAIT (R411). -/
def execBarwait (d : BitVec 5) (h : BitVec 4) (k : BitVec 1) (o : BitVec 10) (st : State) : Out :=
  ctl .system true (wordOf (.barwait d h k o)) (barwaitBody d h k o) st

/-! ## Snapshots and collectives (R412, R413) -/

/-- Kinds of SNAPC and COLL in the once-only log (R419). -/
def onceSnap : Nat := 5
def onceColl : Nat := 3

/-- Is a reserved bit of a snapshot root set (R191); the root as a number of 64 bytes. -/
def snapReserved (x : Nat) : Bool :=
  bits (x / 2 ^ 128) 39 1 != 0 || bits (x / 2 ^ 256) 27 0 != 0 || x / 2 ^ 384 != 0

/-- The home agent knows a domain from its first flip on: the frames that the translations of its pages name in the issuing context, or
those of the working map where there is no translation (log 14). -/
def State.snapRegister (s : State) (ctx root : Nat) : State :=
  if s.snapRoots.any fun x => x.1 == root then s
  else
    let r := readSnapRoot s.mem root
    let base := memNat s.mem (root + 40) 8
    let frames := (List.range r.npages).map fun i =>
      ((s.ctxPa ctx (base + i * pageBytes r.psz)).map (· / 4096)).getD (mapEntry s.mem (r.mapOf true) i).2
    { s with snapRoots := s.snapRoots ++ [(root, frames)] }

/-- SNAPC. -/
def snapcBody (d : BitVec 5) (h : BitVec 4) (k : BitVec 1) (o : BitVec 10) (st : State) : M CtlRes := do
  let t ← ctlHandle st.th h.toNat
  let (ofs, t1) ← cmOfs st t k o
  let pa ← checkMem t h.toNat ofs 64 rightAT 64
  let (st, x0) ← st.homeData pa 64
  require (!snapReserved x0) cProtection 0 ofs
  afterRelease 4 st fun st => do
    let fin (st : State) (x : Nat) : CtlRes := { s := st.setTh (wrG { t1 with ph := st.th.ph } d.toNat (BitVec.ofNat 64 x)) }
    match ← st.onceAt st.me onceSnap pa [] with
    | .replayed st ret => .ok (fin st ret)
    | _ => do
      let (st, x) ← st.atomicRead pa 64
      let w := x / 2 ^ 128 % 2 ^ 64
      let epoch := bits w 63 40
      if epoch = 0xFFFFFF then .ok (fin (st.onceLog st.me onceSnap pa [] allOnes) allOnes)
      else
        let st := st.snapRegister (st.thrCtx st.me) (st.localPa pa)
        let w' := (epoch + 1) * 2 ^ 40 + w % 2 ^ 40 / 2 * 2 + (1 - w % 2)
        let st := st.atomicWrite (pa + 16) (leBytes 8 w')
        .ok (fin (st.onceLog st.me onceSnap pa [] (epoch + 1)) (epoch + 1))

/-- SNAPC (R412). -/
def execSnapc (d : BitVec 5) (h : BitVec 4) (k : BitVec 1) (o : BitVec 10) (st : State) : Out :=
  ctl .system true (wordOf (.snapc d h k o)) (snapcBody d h k o) st

/-- The byte offset of the first field of a collective's descriptor that is not acceptable (R413); the descriptor is given as 8 words. -/
def collBad (w : Nat → Nat) (commOk : Nat → Bool) : Option Nat :=
  if bits (w 3) 47 0 = 0 then some 24
  else if commOk (bits (w 4) 63 48) = false then some 38
  else if bits (w 4) 47 40 > 5 then some 37
  else if bits (w 4) 39 36 > 2 then some 36
  else if bits (w 4) 35 0 ≠ 0 then some 32
  else if w 5 ≠ 0 ∨ w 6 ≠ 0 ∨ w 7 ≠ 0 then some 40
  else none

/-- The ranks of a communicator outside the domain (R459). -/
def Comm.outside (m : Comm) : List Nat := (List.range m.n).filter fun r => r != m.rank && (m.map.getD r 0) % 256 == 0xFF

/-- The number of a message: the collective's place among those of its communicator, the communicator, and the rank (the layout is the model's). -/
def ethNum (ord comm rank : Nat) : Nat := ord * 2 ^ 28 + comm % 2 ^ 16 * 2 ^ 12 + rank

/-- A collective reaches the engine: it is the next one of its communicator, and its header, with OP, FMT and COUNT, sets out to the other
ranks first, to those outside the domain as packet 0 of a message (R456, R458). -/
def State.collSubmit (s : State) (c0 : Coll) : State :=
  let m := s.comms.find? fun x => x.num == c0.comm
  let c := { c0 with ord := (m.map (·.subs)).getD 0, since := s.now }
  let head : EthPkt := ⟨0, 0, leBytes 1 c.op ++ leBytes 1 c.fmt ++ leBytes 6 0 ++ leBytes 8 c.count, s.now⟩
  { s with
    colls := s.colls ++ [c]
    comms := s.comms.map fun x => if x.num = c.comm then { x with subs := x.subs + 1 } else x
    eth := s.eth ++ ((m.map Comm.outside).getD []).map fun r => EthMsg.mk (ethNum c.ord c.comm r) false 1 [head] [] [] }

/-- COLL. -/
def collBody (d : BitVec 5) (h : BitVec 4) (k : BitVec 1) (o : BitVec 10) (st : State) : M CtlRes := do
  let t ← ctlHandle st.th h.toNat
  let (ofs, t1) ← cmOfs st t k o
  let pa ← checkMem t h.toNat ofs 64 rightRD 64
  let st := st.acquire st.me 4
  let (st, l) ← st.loadData pa 64 (t.swmOf h.toNat)
  let ws := words8 8 l
  let w (i : Nat) : Nat := ws.getD i 0
  match collBad w fun c => st.comms.any fun x => x.num == c && x.tenant == t.tenant with
  | some f => raise cProtection 0 f
  | none =>
    let fin (st : State) : CtlRes := { s := st.setTh (wrG { t1 with ph := st.th.ph } d.toNat 0#64) }
    onceCtl st onceColl pa ws (fun st _ => .ok (fin st)) fun st => do
      if st.colls.length ≥ 256 then waitFor .slots
      else
        let c : Coll := {
          desc := pa, comm := bits (w 4) 63 48, op := bits (w 4) 47 40, fmt := bits (w 4) 39 36, root := bits (w 3) 63 48
          count := bits (w 3) 47 0, src := w 0, dst := w 1, bar := w 2, task := t.task, pos := t.gangPos, ord := 0, done := [], inputs := []
          heads := [], since := 0, heard := [], stalled := none, flags := 0#32, stopped := false }
        let st := (st.collSubmit c).modTask t.task fun x => { x with asyncOut := x.asyncOut + 1 }
        .ok (fin (st.onceLog st.me onceColl pa ws 0))

/-- COLL (R413). -/
def execColl (d : BitVec 5) (h : BitVec 4) (k : BitVec 1) (o : BitVec 10) (st : State) : Out :=
  ctl .system true (wordOf (.coll d h k o)) (collBody d h k o) st

/-! ## Energy, time and dies (R414 to R418) -/

/-- OPREQ: the task keeps the request as j + 1, and 0 for none; it stays until a later OPREQ or the task's end. -/
def opreqBody (d : BitVec 5) (i : BitVec 12) (st : State) : M CtlRes :=
  let t := st.th
  let j := immU t.pfx 12 i.toNat
  let x := st.taskOf t.task
  let ask (st : State) (v : Nat) : State := st.modTask t.task fun y => { y with opreq := v }
  let fin (st : State) (v : W) : CtlRes := { s := st.setTh (wrG st.th d.toNat v) }
  if j = 0xFFF then .ok (fin (ask st 0) 0#64)
  else if (x.map fun y => y.rows.contains j).getD false then .ok (fin (ask st (j + 1)) 0#64)
  else .ok (fin st 1#64)

/-- OPREQ (R414). -/
def execOpreq (d : BitVec 5) (i : BitVec 12) (st : State) : Out := ctl .system true (wordOf (.opreq d i)) (opreqBody d i) st

/-- CURTQ's value (R415). -/
def Sched.curtq (x : Sched) : Nat :=
  let two (v : Vector Nat 4) : Nat := (List.range 4).foldl (fun a i => a + (vget v i 0 % 4) * 4 ^ i) 0
  b01 x.inband <<< 25 ||| b01 x.exempt <<< 24 ||| (x.evseq % 256) <<< 16 ||| two x.pend <<< 8 ||| two x.grades

/-- CURTQ (R415). -/
def execCurtq (d : BitVec 5) (st : State) : Out :=
  ctl .system true (wordOf (.curtq d)) (fun st => .ok { s := st.setTh (wrG st.th d.toNat (BitVec.ofNat 64 st.sched.curtq)) }) st

/-- RDTIME (R416). -/
def execRdtime (d : BitVec 5) (st : State) : Out :=
  ctl .system true (wordOf (.rdtime d)) (fun st => .ok { s := st.setTh (wrG st.th d.toNat (BitVec.ofNat 64 st.now)) }) st

/-- RDENGY. -/
def rdengyBody (d : BitVec 5) (i : BitVec 12) (st : State) : M CtlRes :=
  match st.counter st.me (immU st.th.pfx 12 i.toNat) with
  | none => illegal
  | some v => .ok { s := st.setTh (wrG st.th d.toNat v) }

/-- RDENGY (R416). -/
def execRdengy (d : BitVec 5) (i : BitVec 12) (st : State) : Out := ctl .system true (wordOf (.rdengy d i)) (rdengyBody d i) st

/-- The physical die bound to a virtual one. -/
def Ctx.pdie (c : Ctx) (v : Nat) : Option Nat :=
  if v > 7 then none
  else
    let e := (vget c.vdt v 0#8).toNat
    if e ≥ 128 then some (e % 8) else none

/-- The hop distance of R180. -/
def hops (a b : Nat) : Nat := ((a % 4 : Int) - (b % 4 : Int)).natAbs + ((a / 4 : Int) - (b / 4 : Int)).natAbs

/-- DHOPS. -/
def dhopsBody (d s : BitVec 5) (l : BitVec 1) (t : BitVec 5) (m : BitVec 1) (st : State) : M CtlRes := do
  let a ← rdG st st.th s.toNat 0
  let b ← rdG st st.th t.toNat 1
  let c := st.ctx (st.thrCtx st.me)
  let v := match c.pdie a.toNat, c.pdie b.toNat with
    | some x, some y => hops x y
    | _, _ => allOnes
  .ok { s := st.setTh (wrG (freeG (freeG st.th l s.toNat) m t.toNat) d.toNat (BitVec.ofNat 64 v)) }

/-- DHOPS (R417). -/
def execDhops (d s : BitVec 5) (l : BitVec 1) (t : BitVec 5) (m : BitVec 1) (st : State) : Out :=
  ctl .system true (wordOf (.dhops d s l t m)) (dhopsBody d s l t m) st

/-- Does a virtual-die table keep R179: no reserved bit, no gap, distinct present dies. -/
def State.vdtOk (s : State) (v : Vector (BitVec 8) 8) : Bool :=
  let l := v.toList.map (·.toNat)
  let valid := l.filter fun e => decide (e ≥ 128)
  (l.all fun e => bits e 6 3 == 0) && decide (l.takeWhile (fun e => decide (e ≥ 128)) = valid) &&
    decide (valid.Nodup) && valid.all fun e => (s.die (e % 8)).present

/-- VDMAP. -/
def vdmapBody (d s : BitVec 5) (l : BitVec 1) (t : BitVec 5) (m : BitVec 1) (st : State) : M CtlRes := do
  require st.th.sys cIllegalContext 0 (st.free 3).toNat
  let a ← rdG st st.th s.toNat 0
  let b ← rdG st st.th t.toNat 1
  let n := st.thrCtx st.me
  let c := st.ctx n
  let new := vset c.vdt a.toNat (BitVec.ofNat 8 b.toNat)
  let ok := decide (a.toNat ≤ 7) && st.vdtOk new
  let st := if ok then { st with ctxs := Tab.put n { c with vdt := new } st.ctxs } else st
  .ok { s := st.setTh (wrG (freeG (freeG st.th l s.toNat) m t.toNat) d.toNat (if ok then 0#64 else 1#64)) }

/-- VDMAP (R418). -/
def execVdmap (d s : BitVec 5) (l : BitVec 1) (t : BitVec 5) (m : BitVec 1) (st : State) : Out :=
  ctl .system true (wordOf (.vdmap d s l t m)) (vdmapBody d s l t m) st

/-! ## Prefix words (R267 to R271) -/

/-- REP as a fetched word (R269). -/
def execRep (n : BitVec 6) (d s t : BitVec 1) (st : State) : Out := collectPrefix (wordOf (.rep n d s t)) st
/-- PRED as a fetched word (R271). -/
def execPred (p : BitVec 3) (v : BitVec 1) (st : State) : Out := collectPrefix (wordOf (.pred p v)) st
/-- EXTI as a fetched word (R270). -/
def execExti (i : BitVec 24) (st : State) : Out := collectPrefix (wordOf (.exti i)) st

end Sys2Proof.Machine
end

