-- ==== Sys2Proof/Machine/EvCore.lean ====
section
/-! DEFINITION. The events of a thread's own machinery: settles, walks, finishing words, persist points, images, write-throughs, markers,
barrier additions, queue heads, slot rings, waits and the checker (R28, R70, R71, R93, R110, R118, R119, R122, R127, R138, R141, R145,
R146, R298, R407, R428, R432, R439). An event that cannot apply leaves the state as it is. -/

namespace Sys2Proof.Machine

open Sys2Proof

/-! ## Translation (R28, R70, R71) -/

/-- XLATE_SETTLE: the `k`-th settle of a thread takes effect. -/
def execXlateSettle (thr k : Nat) (s : State) : Out := .next (s.doSettle thr k)

/-- WALK_COMPLETE: the `k`-th walk of a die ends. -/
def execWalkComplete (die k : Nat) (s : State) : Out := .next (s.doWalkComplete die k)

/-- A task whose requeue time has come waits in its ready queue again (R427). -/
def State.requeueDue (s : State) (uid : Nat) : State :=
  match s.taskOf uid with
  | none => s
  | some t =>
    match t.requeueAt with
    | none => s
    | some u => if t.state = 5 ∧ u ≤ s.now then s.requeue uid else s

/-- MONITOR_REQUEUE_TIMEOUT: no monitor was armed, and 50 µs have passed since the abort (R71, R427). -/
def execMonitorRequeueTimeout (task : Nat) (s : State) : Out := .next (s.requeueDue task)

/-- VERSION_OVERFLOW_REQUEUE: 50 µs have passed since the abort (R85, R427). -/
def execVersionOverflowRequeue (task : Nat) (s : State) : Out := .next (s.requeueDue task)

/-! ## Words, images and lines on their way -/

/-- ENGINE_WORD_FINISH (R138). -/
def execEngineWordFinish (thr k : Nat) (s : State) : Out := .next (s.wordFinish thr k)

/-- PENDING_PERSIST_POINT (R127). -/
def execPendingPersistPoint (thr : Nat) (s : State) : Out := .next (s.takePending thr)

/-- IMAGE_COMPLETE: the last record of an image is written (R93). -/
def execImageComplete (die k : Nat) (s : State) : Out :=
  match (s.die die).imgs[k]? with
  | none => .next s
  | some j => .next (if j.purpose = 2 then s else s.imageComplete die k)

/-- COMMIT_IMAGE_COPY_DONE (R110 step 7). -/
def execCommitImageCopyDone (die k : Nat) (s : State) : Out := .next (s.copyDone die k)

/-- WRITE_THROUGH_ARRIVAL (R118). -/
def execWriteThroughArrival (die k : Nat) (s : State) : Out := .next (s.writeThrough die k)

/-- FLUSH_MARKER_ACK (R119). -/
def execFlushMarkerAck (thr dest : Nat) (s : State) : Out := .next (s.flushAck thr dest)

/-- CONTROL_PATH_ACCESS_PERFORMS (R298). -/
def execControlPathAccessPerforms (thr k : Nat) (s : State) : Out := .next (s.ctlPerform thr k)

/-! ## Barrier additions (R122, R124, R227) -/

/-- The plane that the thread of a task at a gang position holds. -/
def State.threadAt (s : State) (uid pos : Nat) : Option Nat :=
  (s.taskOf uid).bind fun t => t.threads.find? fun k => (s.thread k).gangPos == pos

/-- Flags raised by an asynchronous operation: into the FLAGS of the thread that issued it, or into its record while it is switched out
(R52, R124). -/
def State.mergeFlags (s : State) (uid pos : Nat) (f : W32) : State :=
  match s.threadAt uid pos with
  | some k => s.modThread k fun x => { x with flags := x.flags ||| f }
  | none => if f = 0#32 then s else s.modTask uid fun x => x.orFlags pos f

/-- An asynchronous operation of a task has added its count (R124). -/
def State.asyncDone (s : State) (uid : Nat) : State := (s.modTask uid fun x => { x with asyncOut := x.asyncOut - 1 }).finishTask uid

/-- An addition on its way reaches its object: those to one object in the order in which they were sent, one held at home waits (R192). -/
def State.barrierArrives (s : State) (k : Nat) : State :=
  match s.barAdds[k]? with
  | none => s
  | some a =>
    if (s.barAdds.take k).any (fun b => b.pa == a.pa) || (s.writeAddr a.pa).isNone then s
    else
      let s := { s with barAdds := s.barAdds.eraseIdx k }
      match a.task with
      | none => s.barrierAdd a.pa a.n
      | some uid => ((s.mergeFlags uid a.pos a.flags).barrierAdd a.pa a.n).asyncDone uid

/-- BARRIER_ADDITION (R227). -/
def execBarrierAddition (k : Nat) (s : State) : Out := .next (s.barrierArrives k)

/-! ## Queue heads and slot rings (R141, R144 to R147) -/

/-- QUEUE_ELEMENT_ARRIVAL (R141). -/
def execQueueElementArrival (thr k : Nat) (s : State) : Out := .next (s.queueArrive thr k)

/-- A read at home by a unit of the module: a burst that is read again delays it, other waits too, and a peer's
line is asked for (R455). -/
def State.tryHome (s : State) (r : M (State × List Byte × Bool)) : Except State (State × List Byte × Bool) :=
  match r with
  | .ok x => .ok x
  | .error (.device line) => .error ((s.meetLine line).meetBursts line)
  | .error (.peer kind pa) => .error (s.askPeer engineReader.1 engineReader.2 .ctl kind pa)
  | .error _ => .error s

/-- The loader delivers what fits of the next slot, or of the slot being delivered, into a subscribed queue head: it begins a slot only once
PROD has passed it (R145, R147), and delivers nothing into a frozen core (R99). -/
def State.loaderDeliver (s : State) (k q : Nat) : State :=
  let t := s.thread k
  let b := vget t.q q QHead.unbound
  match b.sub with
  | none => s
  | some r =>
    let ahead := (s.homeNat r.pa 8 + 2 ^ 64 - r.next) % 2 ^ 64
    let ready := r.ofs != 0 || (ahead != 0 && decide (ahead < 2 ^ 63))
    if !t.running || t.halted || s.frozen k || b.kind != 2 || s.isPoison (r.pa / 64) || !ready then s
    else
      let src := r.pa + 64 + r.next % r.slots * r.ssize * 64 + r.ofs
      let n := min b.space ((r.ssize * 64 - r.ofs) / b.ebytes)
      if n = 0 then s
      else
        match s.tryHome (s.homeBytes src (n * b.ebytes)) with
        | .error s => s
        | .ok (s, l, bad) =>
          if bad then s.raiseAt k (t.ctlFault .load (s.poisonCause (s.firstPoison src (n * b.ebytes))))
          else
            let ofs := r.ofs + n * b.ebytes
            let r1 := if ofs = r.ssize * 64 then { r with next := (r.next + 1) % 2 ^ 64, ofs := 0 } else { r with ofs := ofs }
            let b1 := { b with elems := b.elems ++ toElems b.esz n l, sub := some r1 }
            s.setThread k { t with q := vset t.q q b1, idleUntil := none }

/-- LOADER_SLOT_DELIVERY (R145). -/
def execLoaderSlotDelivery (thr q : Nat) (s : State) : Out := .next (s.loaderDeliver thr q)

/-- Every staged slot of the package: the task and the place in its list. -/
def State.allStaged (s : State) : List (Nat × Nat × Staged) :=
  s.tasks.flatMap fun t => t.staged.mapIdx fun i x => (t.uid, i, x)

/-- The storer writes a staged range into its ring's next free slot, in SPULL order of the ring (R146). -/
def State.storerWrite (s : State) (k : Nat) : State :=
  match s.allStaged[k]? with
  | none => s
  | some (uid, i, x) =>
    let ring := s.allStaged.filter fun y => y.2.2.ring == x.ring
    let p := (ring.filter fun y => y.2.2.written).length
    let prod := s.homeNat x.ring 8
    let cons := s.homeNat (x.ring + 8) 8
    if x.written || (s.allStaged.take k).any (fun y => y.2.2.ring == x.ring && !y.2.2.written) || s.isPoison (x.ring / 64)
        || !decide ((prod + p + 2 ^ 64 - cons) % 2 ^ 64 < x.slots) then s
    else
      let pa := x.ring + 64 + (prod + p) % 2 ^ 64 % x.slots * x.ssize * 64
      if !s.canEngineWriteRange pa x.dat then s.snoopRange pa x.dat
      else
        let s := s.engineWrite pa x.dat
        let s := s.modTask uid fun t => { t with staged := t.staged.set i { x with written := true } }
        s.publish uid ((s.taskOf uid).map (·.staged.length + 1) |>.getD 0)

/-- STORER_SLOT_WRITE (R146): `k` counts the staged slots of all tasks. -/
def execStorerSlotWrite (k : Nat) (s : State) : Out := .next (s.storerWrite k)

/-! ## Fetch faults, the checker, waits (R407, R428, R432, R439) -/

/-- The word at the PC of a thread, when fetch gives one. -/
def State.wordAtPc (s : State) (k : Nat) : Option W32 :=
  match (s.fetch k).2 with
  | .word w => some w
  | _ => none

/-- FETCH_FAULT: the fetch of the next word fails (R428). -/
def execFetchFault (thr : Nat) (s : State) : Out :=
  let t := s.thread thr
  if !s.canAct thr || t.trapPend.isSome then .next s
  else
    match s.fetch thr with
    | (s1, .fails c) => .next (s1.raiseAt thr (t.ctlFault .control c))
    | _ => .next s

/-- The words that the checker core has before it: the control or system word at the PC, and the engine unit at the head of each queue, with
its PC (R133, R432). -/
def State.checkerWords (s : State) (k : Nat) : List (W32 × Nat) :=
  let t := s.thread k
  let ctl := ((s.wordAtPc k).filter fun w => wordEng w == some .control || wordEng w == some .system).toList.map fun w => (w, t.unitPc)
  ctl ++ engSqs.filterMap fun q => (t.nextUnit q).map fun u => (u.1.word, u.1.pc)

/-- A checker mismatch: no effect of the word is visible, and the region aborts; the third in a row on a core marks it degraded (R432). Which
of the words before the checker mismatches is a free choice (log 65). -/
def State.checkerMiss (s : State) (k : Nat) : State :=
  let l := s.checkerWords k
  match l[(s.free 5).toNat % l.length]? with
  | none => s
  | some (w, pc) =>
    if !s.canAct k then s
    else
      let core := thrCore k
      let n := (s.core core).mismatch + 1
      let s := s.modCore core fun c => { c with mismatch := n, degraded := c.degraded || decide (n ≥ 3) }
      s.deliver k ((wordEng w).getD .control) ⟨cSdcDetected, 1, w.toNat⟩ pc none

/-- CHECKER_MISMATCH (R432). -/
def execCheckerMismatch (thr : Nat) (s : State) : Out := .next (s.checkerMiss thr)

/-- The sequencer of a thread whose wait has lasted 2^30 ns raises WATCHDOG at its word (R439). -/
def State.watchdogFire (s : State) (k : Nat) : State :=
  let t := s.thread k
  if !s.canAct k || s.waitPaused k then s
  else
    let due (q : Sq) : Option Cause := (t.wait q).bind fun w => t.watchdogDue q w.kind s.now
    match due .ctl with
    | some c =>
      let eng := ((s.wordAtPc k).bind wordEng).getD .control
      (s.setThread k { t with waitK := none, ph := Phase.none }).raiseAt k (t.ctlFault eng c)
    | none =>
      match engSqs.find? fun q => (due q).isSome && (t.nextUnit q).isSome with
      | none => s
      | some q =>
        match due q, t.nextUnit q with
        | some c, some (u, loop) =>
          (s.setThread k (t.setWait q none)).raiseAt k (t.engFault ((wordEng u.word).getD .load) q loop u c)
        | _, _ => s

/-- WATCHDOG (R439). -/
def execWatchdog (thr : Nat) (s : State) : Out := .next (s.watchdogFire thr)

/-- IDLE_TIMEOUT: the time of an IDLE has passed (R407). -/
def execIdleTimeout (thr : Nat) (s : State) : Out :=
  let t := s.thread thr
  match t.idleUntil with
  | none => .next s
  | some u => .next (if u ≤ s.now then s.setThread thr { t with idleUntil := none } else s)

end Sys2Proof.Machine
end

