-- ==== Sys2Proof/Machine/EvRing.lean ====
section
/-! DEFINITION. The weight ring, and the lease timeout (R148 to R157, R161, R229, R242, R346). -/

namespace Sys2Proof.Machine

open Sys2Proof

/-! ## Lanes (R148) -/

/-- Entries that lane `l` of a table of `n` entries sends in a lap. -/
def laneCount (n l : Nat) : Nat := (n + 7 - l) / 8

/-- The entry that a lane sends next, or is sending. -/
def Ring.entry (r : Ring) (lane : Nat) : Option LapEntry := r.table.bind fun t => t[lane + 8 * vget r.lanes lane 0]?

/-- Has every lane finished its last entry of the lap. -/
def Ring.lapEnded (r : Ring) : Bool :=
  match r.table with
  | none => false
  | some t => (List.range 8).all fun l => !vget r.flying l false && decide (vget r.lanes l 0 = laneCount t.length l)

/-- Bytes of a frame's payload in HBM4 (R149). -/
def LapEntry.bytes (e : LapEntry) : Nat := if e.kind = 1 then 4096 else e.nflit * 512

/-- Every B-store slot of the package changed. -/
def State.mapSlots (s : State) (f : Nat → BSlot → BSlot) : State :=
  { s with clusters := Tab.mapVal (fun (c : Cluster) => { c with bst := c.bst.map fun e => (e.1, f e.1 e.2) }) s.clusters }

/-- Does a slot wait for, or take, a frame of an entry (R154, R363). -/
def BSlot.matches (b : BSlot) (e : LapEntry) : Bool := b.layer == e.layer && b.kind == e.kind && b.tile == e.tile && b.fmt == e.fmt

/-! ## Lap boundaries (R148, R150, R154, R157, R229) -/

/-- A table takes force: event 0x0B (R164). -/
def State.lapForce (s : State) : State := s.post 0x0B 8 0 1

/-- The next lap begins: LAP advances, a waiting table takes force, MISSED slots arm, every lane starts from its first entry. -/
def State.nextLap (s : State) : State :=
  let r := s.ring
  let lap := (r.lap + 1) % 2 ^ 32
  let new := r.waiting.isSome
  let s := { s with ring := { r with
    lap := lap, table := r.waiting <|> r.table, waiting := none, lanes := Vector.replicate 8 0, lapStart := s.now, opened := [] } }
  let s := s.mapSlots fun _ b =>
    if b.st = 2 then { b with st := 1, lapArmed := lap } else if b.st = 1 ∧ new = true then { b with lapArmed := lap } else b
  if new then s.lapForce else s

/-- The speed that the energy scheduler asks for takes effect at frame boundaries: at once when no lane has a frame flying, and otherwise on
each lane as its frame ends; RING_STATE shows it from the first of these on (R61, R152). -/
def Ring.ask (r : Ring) (v : Nat) : Ring :=
  if (List.range 8).any fun l => vget r.flying l false then { r with speedWant := v }
  else { r with speedWant := v, speed := v, speedTo := Vector.replicate 8 v }

/-- A lane stands at a frame boundary. -/
def Ring.atFrame (r : Ring) (lane : Nat) : Ring := { r with speed := r.speedWant, speedTo := vset r.speedTo lane r.speedWant }

/-- LAP_BOUNDARY (R148): not while the ring is held (R229). -/
def execLapBoundary (s : State) : Out := .next (if s.ring.lapEnded && s.ring.speed != 5 then s.nextLap else s)

/-! ## Frames (R151 to R154) -/

/-- The listed cells of a list of bytes. -/
def cellsOf (l : List Byte) : List Host.Cell := (l.mapIdx fun i b => (i, b)).filter fun c => c.2 != 0#8

/-- A slot that a frame starts to fill: its bytes, and the result of the scale check (R242). -/
def BSlot.fill (b : BSlot) (e : LapEntry) (l : List Byte) : BSlot :=
  let part := if b.second then (l.drop 32768).take 32768 else l.take 32768
  { b with
    st := 3, dat := cellsOf part
    scaleBad := if e.kind = 1 then ((scaleFail (fillSck e.fmt) e.fmt l).map (· + 1)).getD 0 else 0 }

/-- A lane sends the header of its next frame; the slots that wait for the frame start to fill. A slot armed again by the CORRUPT_TILE
path waits for the next lap. -/
def State.frameHeader (s : State) (lane : Nat) : State :=
  let r := s.ring
  if vget r.flying lane true then s
  else
    let r := r.atFrame lane
    match r.entry lane with
    | none => { s with ring := r }
    | some e =>
      if vget r.speedTo lane 5 = 5 then { s with ring := r }
      else
        match s.tryHome (s.homeBytes e.pa e.bytes) with
        | .error s => s
        | .ok (s, l, bad) =>
          let r := { r with
            flying := vset r.flying lane true, bad := vset r.bad lane bad, layer := e.layer % 256
            opened := if r.opened.contains e.layer then r.opened else e.layer :: r.opened }
          let s := s.portUse (32 + e.pa / 2 ^ 37) (e.bytes / 512)
          { s with ring := r }.mapSlots fun _ b =>
            if b.st = 1 ∧ b.matches e = true ∧ (b.reboards = 0 ∨ (r.lap + 2 ^ 32 - b.lapArmed) % 2 ^ 32 < 2 ^ 31) then b.fill e l else b

/-- FRAME_HEADER_ARRIVAL (R153, R154). -/
def execFrameHeaderArrival (lane : Nat) (s : State) : Out := .next (s.frameHeader lane)

/-- A frame failed: event 0x07 and its counter (R164, R231). -/
def State.frameFailed (s : State) (e : LapEntry) (reason : Nat) : State :=
  (s.countErr errFrame).post 0x07 (10 + e.pa / 2 ^ 37) 0
    (s.ring.lap <<< 96 ||| e.layer <<< 80 ||| e.tile <<< 64 ||| e.kind <<< 60 ||| e.fmt <<< 56 ||| reason)

/-- The last flit of a lane's frame arrives: the slots it fills become FULL, or POISONED when the frame fails. Where several reasons hold, the
event gives the CRC first, then POISON, then the reserved fields: the spec names no order (R151, log 140). -/
def State.frameEnd (s : State) (lane : Nat) (badCrc badRes : Bool) : State :=
  let r := s.ring
  match (if vget r.flying lane false then r.entry lane else none) with
  | none => s
  | some e =>
    let poison := vget r.bad lane false
    let fails := badCrc || poison || badRes
    let s := s.mapSlots fun _ b =>
      if b.st = 3 ∧ b.matches e = true then
        if fails then { b with st := 5, dat := [], scaleBad := 0 } else { b with st := 4 }
      else b
    let s := { s with ring := { r with flying := vset r.flying lane false, lanes := vset r.lanes lane (vget r.lanes lane 0 + 1) }.atFrame lane }
    if fails then s.frameFailed e (if badCrc then 0 else if poison then 1 else 2) else s

/-- FRAME_LAST_FLIT_ARRIVAL (R151, R154). -/
def execFrameLastFlitArrival (lane : Nat) (badCrc badRes : Bool) (s : State) : Out := .next (s.frameEnd lane badCrc badRes)

/-! ## The lease timeout (R161, R346) -/

/-- A holder that has issued no matrix word for 65,536 cycles of its cluster, as they have run (R5), while another core waits loses its claim
and the lease, but not during a tile replay (R358); the cause is held pending in its context. -/
def State.leaseTimeout (s : State) (cl : Nat) : State :=
  let c := s.cluster cl
  if !c.leaseHeld || c.waitq == 0#4 || decide (c.cycles s.now < c.leaseAt + 160 * 65536)
      || (s.thread (s.coreThr cl c.holder)).tileRep.isSome then s
  else
    let k := s.coreThr cl c.holder
    let info := (cl % 16) <<< 4 ||| c.holder
    let s := s.modThread k fun t => { t with claim := false, async := t.async ++ [⟨cLeaseTimeout, 0, info⟩] }
    let s := s.post 0x0C (cl / 16) ((cl % 16) <<< 8 ||| c.holder) info
    (s.modCluster cl fun c => { c with leaseHeld := false }).leasePass cl

/-- LEASE_TIMEOUT (R346). -/
def execLeaseTimeout (cl : Nat) (s : State) : Out := .next (s.leaseTimeout cl)

end Sys2Proof.Machine
end

