-- ==== Sys2Proof/Machine/Mldsa.lean ====
section
/-! DEFINITION. Verification of an ML-DSA-44 signature, in its pure form with an empty context string, as FIPS 204 defines it (R195, log 9). A
polynomial is the list of its 256 coefficients, from 0 to q - 1. -/

namespace Sys2Proof.Machine

open Sys2Proof

/-- The modulus, and the numbers that ML-DSA-44 takes: γ1, 2 γ2, τ, β, ω; four rows and four columns. -/
def mlQ : Nat := 8380417
def mlGamma : Nat := 131072
def mlAlpha : Nat := 190464
def mlTau : Nat := 39
def mlBeta : Nat := 78
def mlOmega : Nat := 80

/-- A power modulo q. -/
def mlPow (b : Nat) : Nat → Nat
  | 0 => 1
  | n + 1 => mlPow b n * b % mlQ

/-- The eight bits of a number in reverse. -/
def bitRev8 (n : Nat) : Nat := (List.range 8).foldl (fun a i => 2 * a + n / 2 ^ i % 2) 0

/-- The odd power of the root 1753 at which entry `i` of a transform is the polynomial's value, as an exponent. -/
def mlPoint (i : Nat) : Nat := 2 * bitRev8 i + 1

/-- The transform: the values at the 256 points. -/
def mlNtt (w : List Nat) : List Nat :=
  (List.range 256).map fun i =>
    let r := mlPow 1753 (mlPoint i)
    w.foldr (fun x a => (x + r * a) % mlQ) 0

/-- Sums of a list of terms, each multiplied by its own factor from one sum to the next. -/
def mlSums : Nat → List (Nat × Nat) → List Nat
  | 0, _ => []
  | n + 1, l => (l.map (·.1)).sum % mlQ :: mlSums n (l.map fun e => (e.1 * e.2 % mlQ, e.2))

/-- The polynomial of a transform; 8347681 is the inverse of 256. -/
def mlInv (v : List Nat) : List Nat :=
  (mlSums 256 (v.zipIdx.map fun e => (e.1, mlPow 1753 (512 - mlPoint e.2)))).map fun x => x * 8347681 % mlQ

/-- Entry by entry. -/
def mlMul (a b : List Nat) : List Nat := List.zipWith (fun x y => x * y % mlQ) a b
def mlAdd (a b : List Nat) : List Nat := List.zipWith (fun x y => (x + y) % mlQ) a b
def mlSub (a b : List Nat) : List Nat := List.zipWith (fun x y => (x + mlQ - y) % mlQ) a b

/-- `n` fields of `b` bits, the lowest first. -/
def bitFields (b : Nat) : Nat → Nat → List Nat
  | 0, _ => []
  | n + 1, x => x % 2 ^ b :: bitFields b n (x / 2 ^ b)

/-- Fields of `b` bits put together, the lowest first. -/
def fieldsNat (b : Nat) (l : List Nat) : Nat := l.foldr (fun x a => x + a * 2 ^ b) 0

/-- The numbers below q among the 23-bit numbers of three bytes each. -/
def mlReject : Nat → List Byte → List Nat
  | 0, _ => []
  | n + 1, l =>
    let x := leNat (l.take 3) % 2 ^ 23
    if x < mlQ then x :: mlReject n (l.drop 3) else mlReject n (l.drop 3)

/-- Entry (row, column) of the public matrix, as a transform. -/
def mlMatrix (rho : List Byte) (row col : Nat) : List Nat :=
  (mlReject 336 (shake128 1008 (rho ++ leBytes 1 col ++ leBytes 1 row))).take 256

/-- Place the signs of the challenge: entries `i` up to 255 in turn, each at the next byte that is not above it. -/
def mlPlace (signs : Nat) : Nat → Nat → List Byte → List Nat → List Nat
  | 0, _, _, c => c
  | fuel + 1, i, l, c =>
    match l with
    | [] => c
    | j :: r =>
      if i > 255 then c
      else if j.toNat > i then mlPlace signs fuel i r c
      else
        let c := c.set i (c.getD j.toNat 0)
        mlPlace signs fuel (i + 1) r (c.set j.toNat (if bit signs (i + mlTau - 256) then mlQ - 1 else 1))

/-- The challenge polynomial of a seed. -/
def mlBall (seed : List Byte) : List Nat :=
  let l := shake256 272 seed
  mlPlace (leNat (l.take 8)) 264 (256 - mlTau) (l.drop 8) (List.replicate 256 0)

/-- The places of the hints of each row; none when they are not in the one form that is allowed. -/
def mlHints (y : List Byte) : Option (List (List Nat)) :=
  let at_ (i : Nat) : Nat := (y.getD i 0#8).toNat
  let ends := (List.range 4).map fun i => at_ (mlOmega + i)
  let spans := (0 :: ends).zip ends
  let rising (a b : Nat) : Bool := (List.range (b - a)).all fun j => j == 0 || decide (at_ (a + j - 1) < at_ (a + j))
  if spans.all (fun e => decide (e.1 ≤ e.2 ∧ e.2 ≤ mlOmega) && rising e.1 e.2) &&
      (List.range mlOmega).all (fun i => decide (i < ends.getLastD 0) || at_ i == 0) then
    some (spans.map fun e => (List.range (e.2 - e.1)).map fun j => at_ (e.1 + j))
  else none

/-- The high part of a coefficient, 0 to 43, corrected by its hint. -/
def mlHigh (r : Nat) (hint : Bool) : Nat :=
  let low := r % mlAlpha
  let above := decide (low > mlAlpha / 2)
  let top := if above then r / mlAlpha + 1 else r / mlAlpha
  let wraps := top == 44
  let r1 := if wraps then 0 else top
  let positive := !above && low != 0
  if !hint then r1 else if positive then (r1 + 1) % 44 else (r1 + 43) % 44

/-- Does a public key accept a signature over a message. -/
def mldsaVerify (pk msg sig : List Byte) : Bool :=
  if pk.length = 1312 ∧ sig.length = 2420 then
    match mlHints (sig.drop 2336) with
    | none => false
    | some hints =>
      let rho := pk.take 32
      let t1 := (List.range 4).map fun i => bitFields 10 256 (leNat ((pk.drop (32 + 320 * i)).take 320))
      let raw := (List.range 4).map fun i => bitFields 18 256 (leNat ((sig.drop (32 + 576 * i)).take 576))
      let small := raw.all fun p => p.all fun x => decide (mlBeta < x ∧ x < 2 * mlGamma - mlBeta)
      let z := raw.map fun p => mlNtt (p.map fun x => (mlGamma + mlQ - x) % mlQ)
      let c := mlNtt (mlBall (sig.take 32))
      let mu := shake256 64 (shake256 64 pk ++ [0#8, 0#8] ++ msg)
      let w := (List.range 4).map fun i =>
        let az := (List.range 4).foldl (fun a j => mlAdd a (mlMul (mlMatrix rho i j) (z.getD j []))) (List.replicate 256 0)
        let ct := mlMul c (mlNtt ((t1.getD i []).map fun x => x * 2 ^ 13 % mlQ))
        (mlInv (mlSub az ct)).zipIdx.map fun e => mlHigh e.1 ((hints.getD i []).contains e.2)
      small && shake256 32 (mu ++ w.flatMap fun p => leBytes 192 (fieldsNat 6 p)) == sig.take 32
  else false

end Sys2Proof.Machine
end

