-- ==== Sys2Proof/Machine/Launch.lean ====
section
/-! DEFINITION. Launches: the tables that a launch reads and checks, launch records, replays (R167 to R172, R184, R199, R201, R281, R450,
R452). -/

namespace Sys2Proof.Machine

open Sys2Proof

/-! ## The SRAM of the management window (R446) -/

/-- A little-endian number in the window. -/
def State.winNat (s : State) (o n : Nat) : Nat := memNat s.win o n

/-- Bytes of the window. -/
def State.winBytes (s : State) (o n : Nat) : List Byte := memBytes s.win o n

/-- Write bytes of the window. -/
def State.winPut (s : State) (o : Nat) (l : List Byte) : State := { s with win := memPut s.win o l }

/-! ## Reading the tables (R167) -/

/-- The lines of a range of virtual addresses, with the part of each. -/
def vaParts (va n : Nat) : List (Nat × Nat) :=
  if n = 0 then []
  else (List.range ((va + n - 1) / 64 + 1 - va / 64)).map fun i =>
    let lo := max va ((va / 64 + i) * 64)
    (lo, min (va + n) ((va / 64 + i) * 64 + 64) - lo)

/-- The physical address of a table's byte: a valid leaf with RD, in HBM4 or the LP tier, not poisoned. -/
def State.tablePa (s : State) (ctx va : Nat) : Option Nat :=
  match s.walk ctx va with
  | .leaf e _ =>
    let pa := e.frame * 4096 + va % pageBytes e.psz
    let inside := match s.homeOf pa with
      | .die _ => true
      | .lp _ => true
      | _ => false
    if rightsOk e rightRD (s.ctx ctx).sys va && inside && !s.isPoison (pa / 64) then some pa else none
  | _ => none

/-- No address: what stands for it where a table's read has to wait for the memory devices (R87, R90). -/
def notReady : Nat := 2 ^ 64

/-- Bytes of a table, or the virtual address that cannot be read. -/
def State.tableBytes (s : State) (ctx va n : Nat) : Except Nat (List Byte) :=
  (vaParts va n).foldlM (fun (acc : List Byte) p =>
    if !s.ctxReady ctx p.1 then .error notReady else
    match s.tablePa ctx p.1 with
    | none => .error p.1
    | some pa => .ok (acc ++ leBytes p.2 (s.homeNat pa p.2))) []

/-- A number of a list of bytes. -/
def field (l : List Byte) (o n : Nat) : Nat := leNat ((l.drop o).take n)

/-! ## Operating-point rows (R199, R201) -/

/-- May a cluster run at an F-code and a body-bias code under a V-code (R199). -/
def opAllowed (v f : Nat) (bias : Int) : Bool :=
  (match v with
    | 0 => true
    | 1 => decide (1 ≤ f)
    | 2 => decide (2 ≤ f)
    | 3 => decide (3 ≤ f)
    | 4 => decide (5 ≤ f)
    | 5 => decide (6 ≤ f)
    | _ => false) && decide (f ≤ 7) && (decide (bias ≤ 0) || (decide (2 ≤ v) && decide (v ≤ 5)))

/-- A row from its 32 bytes. -/
def OpRow.of (l : List Byte) : OpRow :=
  let w0 := field l 0 8
  let w1 := field l 8 8
  let v := bits w1 63 61
  let f := bits w1 60 58
  let b := sext 3 (bits w1 57 55)
  { energy := bits w0 63 32, time := bits w0 31 0, vcode := v, fcode := f, bias := b
    ftbase := if bit w1 54 then some (bits w1 47 44) else none
    tiles := if bit w1 53 then some (bits w1 31 0) else none
    key := (bits w1 54 54, bits w1 47 44, bits w1 53 53, bits w1 31 0)
    ok := bits w1 52 48 == 0 && bits w1 43 32 == 0 && field l 16 16 == 0 && b != -4 && bits w0 31 0 != 0 && opAllowed v f b }

/-- The rows of a node, or the virtual address that cannot be read. -/
def State.opRows (s : State) (ctx opt idx n : Nat) : Except Nat (List OpRow) :=
  (List.range n).foldlM (fun (acc : List OpRow) j =>
    match s.tableBytes ctx (opt + 32 * (idx + j)) 32 with
    | .error va => .error va
    | .ok l => .ok (acc ++ [OpRow.of l])) []

/-! ## Image headers (R281) -/

/-- Do a header's fixed fields hold: MAGIC, VERSION, reserved bits. -/
def headerOk (l : List Byte) : Bool :=
  field l 0 4 == 0x51434D31 && field l 4 2 == 1 && field l 6 2 / 2 == 0 && field l 140 4 == 0 && field l 160 96 == 0

/-- Slots that a tenant holds in a table: its own, and those of 0xFF, which serve any tenant that waits (R183); the spec does not say whether a
slot of 0xFF counts as held (log 138). A table never written serves any tenant (log 5). -/
def tenantSlots (tab : Option (List Nat)) (tenant : Nat) : Nat :=
  match tab with
  | none => 64
  | some l => (l.filter fun b => b == tenant || b == 0xFF).length

/-- Does the tenant of a context hold the slots that a header declares, in every table that its launch can use: those of the copy engines, of
the stacks of the dies to which the context is bound, and of their clusters with a core that the tenant owns (R184, log 138). -/
def State.slotsHeld (s : State) (ctx need : Nat) : Bool :=
  let tenant := (s.ctx ctx).tenant
  let dies := (((s.ctx ctx).vdies.map (·.2)).eraseDups).filter fun d => (s.die d).present
  let hbms := dies.filter fun d => (s.stack d).present
  let owns (d c : Nat) : Bool := !s.boot.harvestCl.getLsbD (16 * d + c) && (List.range 4).any fun i =>
    (s.core (64 * d + 4 * c + i)).owner == tenant && !s.boot.harvestCore.getLsbD (64 * d + 4 * c + i)
  ((List.range 2).all fun i => decide (bits need 7 0 ≤ tenantSlots (Tab.find i s.slotTabs) tenant)) &&
  (hbms.all fun i => decide (bits need 15 8 ≤ tenantSlots (Tab.find (16 + i) s.slotTabs) tenant)
    && decide (bits need 23 16 ≤ tenantSlots (Tab.find (32 + i) s.slotTabs) tenant)) &&
  dies.all fun d => (List.range 16).all fun c => !owns d c || decide (bits need 31 24 ≤ tenantSlots (some (s.cluster (16 * d + c)).leaseTab) tenant)

/-! ## The graph table (R168 to R171) -/

/-- A refusal: its code (R452) and INFO. -/
abbrev Refused := Nat × Nat

/-- The successors of a node. -/
def State.readSucc (s : State) (ctx succ idx n : Nat) : Except Nat (List Nat) :=
  (List.range n).foldlM (fun (acc : List Nat) j =>
    match s.tableBytes ctx (succ + 4 * (idx + j)) 4 with
    | .error va => .error va
    | .ok l => .ok (acc ++ [leNat l])) []

/-- A node from bytes 0 to 47 of its entry. -/
def Node.of (l : List Byte) (succ : List Nat) : Node :=
  let w1 := field l 8 8
  let w2 := field l 16 8
  { Node.blank with
    image := field l 0 8, kind := bits w1 63 62, cls := bits w1 61 60, gang := bit w1 59, npred := bits w1 47 32, succ := succ
    oprows := bits w2 47 32, opidx := bits w2 31 0, deadline := field l 24 4, args := field l 32 8, pred := field l 40 8 }

/-- Is a reserved field of a node's entry set. KIND 3 is no reserved field, and no code is given for it: it is refused as one (R169, log
137). -/
def nodeReserved (l : List Byte) : Bool :=
  bits (field l 8 8) 63 62 == 3 || bits (field l 8 8) 58 48 != 0 || field l 28 4 != 0 || field l 56 8 != 0

/-- Capture a node. -/
def State.readNode (s : State) (ctx graph succ i : Nat) : Except Refused Node :=
  match s.tableBytes ctx (graph + 64 + 64 * i) 64 with
  | .error va => .error (8, va)
  | .ok l =>
    if nodeReserved l then .error (1, 0)
    else
      let w1 := field l 8 8
      let w2 := field l 16 8
      match s.readSucc ctx succ (bits w1 31 0) (bits w2 63 48) with
      | .error va => .error (8, va)
      | .ok es => if es.any fun e => decide (e ≥ 65536) then .error (1, 0) else .ok (Node.of l es)

/-- The header's fields: NNODES, SUCC, OPT, PMAP. NNODES of 0 lies outside its range, and no code is given for it: it is refused as a graph
check (R168, log 137). -/
def State.readGraphHead (s : State) (ctx graph : Nat) : Except Refused (Nat × Nat × Nat × Nat) :=
  match s.tableBytes ctx graph 64 with
  | .error va => .error (8, va)
  | .ok l =>
    let w := field l 0 8
    if bits w 63 40 ≠ 0 ∨ bits w 23 16 ≠ 0 ∨ field l 32 32 ≠ 0 then .error (1, 0)
    else if bits w 15 0 = 0 then .error (2, 0)
    else .ok (bits w 15 0, field l 8 8, field l 16 8, field l 24 8)

/-- One round of removing nodes all of whose predecessors are gone. -/
def peel (nodes : List Node) (left : List Nat) : List Nat :=
  left.filter fun n => left.any fun m => ((nodes.getD m Node.blank).succ).contains n

/-- Do the edges form a cycle: something is left after as many rounds as there are nodes. -/
def hasCycle (nodes : List Node) : Bool :=
  !((List.range nodes.length).foldl (fun left _ => if left.isEmpty then left else peel nodes left) (List.range nodes.length)).isEmpty

/-- The graph checks of R170. -/
def graphOk (nodes : List Node) : Bool :=
  let n := nodes.length
  let edges := nodes.flatMap (·.succ)
  (edges.all fun m => decide (m < n)) &&
    ((List.range n).all fun m => (nodes.getD m Node.blank).npred == (edges.filter (· == m)).length) &&
    !hasCycle nodes && nodes.all fun v => v.kind == 0 || v.pred != 0

/-- Capture a graph, with its nodes checked (R170, R171). -/
def State.captureGraph (s : State) (ctx graph : Nat) : Except Refused (List Node × Nat × Nat) := do
  let (n, succ, opt, pmap) ← s.readGraphHead ctx graph
  let nodes ← (List.range n).foldlM (fun (acc : List Node) i => do
    let v ← s.readNode ctx graph succ i
    .ok (acc ++ [v])) []
  if graphOk nodes then .ok (nodes, opt, pmap) else .error (2, 0)

/-- The checks of a node's image header and slots (R184, R281). -/
def State.imageCheck (s : State) (ctx : Nat) (v : Node) : Except Refused PUnit :=
  match s.tableBytes ctx v.image 256 with
  | .error va => .error (8, va)
  | .ok l =>
    if !headerOk l then .error (3, 0)
    else if !s.slotsHeld ctx (field l 136 4) then .error (4, 0)
    else .ok ⟨⟩

/-- The checks of a node's operating-point rows (R201). -/
def State.rowCheck (s : State) (ctx opt : Nat) (v : Node) : Except Refused PUnit :=
  if v.oprows = 0 ∨ v.oprows > 255 then .error (5, 0)
  else
    match s.opRows ctx opt v.opidx v.oprows with
    | .error va => .error (8, va)
    | .ok rs => if rs.all (·.ok) then .ok ⟨⟩ else .error (5, 0)

/-- The check of a node's entry in the data-placement map (R167, R181). -/
def State.pmapCheck (s : State) (ctx pmap i : Nat) : Except Refused PUnit :=
  if pmap = 0 then .ok ⟨⟩
  else
    match s.tableBytes ctx (pmap + 32 * i) 32 with
    | .error va => .error (8, va)
    | .ok l => if bits (field l 16 1) 6 3 ≠ 0 ∨ field l 17 15 ≠ 0 then .error (1, 0) else .ok ⟨⟩

/-- Everything a launch checks: the captured graph, or the refusal. -/
def State.launchCheck (s : State) (ctx graph : Nat) : Except Refused (List Node × Nat × Nat) := do
  let g ← s.captureGraph ctx graph
  let _ ← (List.range g.1.length).foldlM (fun (_ : PUnit) i => s.pmapCheck ctx g.2.2 i) ⟨⟩
  let _ ← g.1.foldlM (fun (_ : PUnit) v => s.imageCheck ctx v) ⟨⟩
  let _ ← g.1.foldlM (fun (_ : PUnit) v => s.rowCheck ctx g.2.1 v) ⟨⟩
  .ok g

/-! ## Launch records (R450, R452) -/

/-- A launch record. -/
structure LaunchRec where
  graph : Nat
  ctx : Nat
  slot : Nat
  vdie : Nat
  release : Bool
  replay : Bool
  cring : Nat
  clen : Nat
  reserved : Bool
  deriving DecidableEq, Repr

/-- A launch record from its 64 bytes. -/
def LaunchRec.of (l : List Byte) : LaunchRec :=
  let b := field l 11 1
  { graph := field l 0 8, ctx := field l 8 2, slot := field l 10 1, vdie := bits b 4 2, release := bit b 1, replay := bit b 0
    cring := field l 16 8, clen := field l 24 4, reserved := bits b 7 5 != 0 || field l 12 4 != 0 || field l 28 36 != 0 }

/-- May a completion ring be used. -/
def LaunchRec.ringOk (r : LaunchRec) : Bool :=
  r.cring % 64 == 0 && (List.range 13).any fun i => r.clen == 2 ^ (i + 4)

/-- TASK of a launch's own record: node bits 0xFFFF. -/
def launchIdent (slot : Nat) : Nat := taskIdent slot 0xFFFF 0

/-- A record of a refused launch on a free slot: the slot's next one, in the ring that the launch names, if that can be used. -/
def State.refuseFree (s : State) (r : LaunchRec) (code info port : Nat) : State :=
  if !r.ringOk then s
  else
    let n := Tab.getD s.slotSeq r.slot 0
    { s with slotSeq := Tab.put r.slot (n + 1) s.slotSeq }.recordMsi (r.cring + 64 * (n % r.clen))
      (completionBytes n (launchIdent r.slot) 5 0 code 0 0 0 0 0 info) port

/-- A launch is refused: the record is the slot's next one, in the slot's ring when it is bound, and in the ring named otherwise. -/
def State.refuseLaunch (s : State) (r : LaunchRec) (code info port : Nat) : State :=
  match s.slot r.slot with
  | some x => s.completion r.slot (launchIdent r.slot) 5 x.gen code 0 0 0 0 0 info port
  | none => s.refuseFree r code info port

/-- A graph is bound to a slot and starts (R172, R450). -/
def State.firstLaunch (s : State) (r : LaunchRec) (port die : Nat) (g : List Node × Nat × Nat) : State :=
  let x : Slot := {
    ctx := r.ctx, graph := r.graph, die := die, gen := 0, opt := g.2.1, pmap := g.2.2, nodes := g.1, cring := r.cring, clen := r.clen
    seq := Tab.getD s.slotSeq r.slot 0, release := r.release, replayWait := none, port := port, uids := [] }
  let s := ({ s with slotSeq := Tab.del r.slot s.slotSeq }.setSlot r.slot x).completion r.slot (launchIdent r.slot) 4 1 0 0 0 0 0 0 0 port
  (s.startGen r.slot 1).slotCheck r.slot

/-- A launch record is carried out. -/
def State.launch (s : State) (port : Nat) (known : Bool) (r : LaunchRec) : State :=
  if r.reserved then s.refuseLaunch r 1 0 port
  else if !known then s.refuseLaunch r 7 0 port
  else if r.replay then
    match s.slot r.slot with
    | none => s.refuseLaunch r 6 0 port
    | some x =>
      if x.ctx ≠ r.ctx then s.refuseLaunch r 6 0 port
      else
        let s := s.setSlot r.slot { x with replayWait := some (x.replayWait.getD none), release := x.release || r.release, port := port }
        s.completion r.slot (launchIdent r.slot) 4 (nextGen x.gen) 0 0 0 0 0 0 0 port
  else if (s.slot r.slot).isSome || !r.ringOk then s.refuseLaunch r 6 0 port
  else
    match (s.ctx r.ctx).pdie r.vdie with
    | none => s.refuseLaunch r ((s.free 52).toNat % 256) 0 port
    | some d =>
      match s.launchCheck r.ctx r.graph with
      | .error (code, info) => s.refuseLaunch r code info port
      | .ok g => s.firstLaunch r port d g

/-- Offset of a launch queue in the window. -/
def queueBase (q : Nat) : Nat := 0x100000 + 0x10000 * q

/-- The die whose graph engine a launch goes to. -/
def State.launchDie (s : State) (r : LaunchRec) : Option Nat :=
  if r.replay then (s.slot r.slot).map (·.die) else (s.ctx r.ctx).pdie r.vdie

/-- Does a captured graph, or its refusal, stand for a read that waits. -/
def capWaits {α : Type} (g : Except Refused α) : Bool :=
  match g with
  | .error (_, i) => i == notReady
  | .ok _ => false

/-- Does a launch find the ready queue of its graph engine full (R159), or a table that it reads in devices that accept no access now (R87). -/
def State.launchWaits (s : State) (r : LaunchRec) : Bool :=
  (s.launchDie r).any (fun d => decide ((s.die d).ready.length ≥ 4096)) ||
    (!r.replay && !r.reserved && r.ringOk && (s.slot r.slot).isNone && (Tab.find r.ctx s.ctxs).isSome && capWaits (s.launchCheck r.ctx r.graph))

/-- The oldest record of a launch queue is taken: the head advances, and the first record binds the queue to its context. It waits while the
ready queue is full (R159). -/
def State.takeLaunch (s : State) (q : Nat) : State :=
  let b := queueBase q
  let head := s.winNat (b + 0xFFF0) 8 % 1023
  let tail := s.winNat (b + 0xFFF8) 8 % 1023
  let r := LaunchRec.of (s.winBytes (b + 64 * head) 64)
  if q ≥ 16 ∨ head = tail ∨ s.launchWaits r = true then s
  else
    let s := s.winPut (b + 0xFFF0) (leBytes 8 ((head + 1) % 1023))
    let there := (Tab.find r.ctx s.ctxs).isSome
    let s := if there && (Tab.find q s.qBound).isNone then { s with qBound := Tab.put q r.ctx s.qBound } else s
    let known := there && Tab.find q s.qBound == some r.ctx
    s.launch (Tab.getD s.qPort q 0) known r

/-- LAUNCH_RECORD (R450). -/
def execLaunchRecord (queue : Nat) (s : State) : Out := .next (s.takeLaunch queue)

/-- LAUNCH_DOORBELL: a port writes the tail of a launch queue (R450). -/
def State.launchBell (s : State) (port q tail : Nat) : State :=
  if q ≥ 16 then s
  else { s with qPort := Tab.put q port s.qPort }.winPut (queueBase q + 0xFFF8) (leBytes 8 (tail % 1023))

/-- LAUNCH_DOORBELL (R450). -/
def execLaunchDoorbell (port queue tail : Nat) (s : State) : Out := .next (s.launchBell port queue tail)

/-! ## Replays (R171, R172) -/

/-- The entries captured again, with the state words kept; a table that can no longer be captured leaves the last capture in force. -/
def Slot.recapture (x : Slot) (g : Except Refused (List Node × Nat × Nat)) : Slot :=
  match g with
  | .error _ => x
  | .ok (nodes, opt, pmap) =>
    { x with
      opt := opt, pmap := pmap
      nodes := nodes.mapIdx fun i v =>
        let o := x.node i
        { v with tgen := o.tgen, arrived := o.arrived, done := o.done, cgen := o.cgen, count := o.count, blocked := o.blocked, pend := o.pend } }

/-- A pending replay starts once the generation has settled. -/
def State.replayStart (s : State) (n : Nat) : State :=
  match s.slot n with
  | none => s
  | some x =>
    let g := s.captureGraph x.ctx x.graph
    if x.replayWait.isNone || !s.genDone n x || capWaits g then s
    else
      let y := { x with replayWait := none }.recapture g
      ((s.setSlot n y).startGen n (nextGen x.gen)).slotCheck n

/-- GRAPH_REPLAY_START (R172). -/
def execGraphReplayStart (slot : Nat) (s : State) : Out := .next (s.replayStart slot)

end Sys2Proof.Machine
end

