-- ==== Sys2Proof/Machine/Place.lean ====
section
/-! DEFINITION. Placement of ready tasks, the choice of an image at resume, gangs, aging, pre-emption and the fill of a shadow plane
(R22, R24, R79, R128, R158 to R160, R177, R178, R185, R202, R434 to R436). -/

namespace Sys2Proof.Machine

open Sys2Proof

/-! ## The order of the ready queue (R159) -/

/-- Lexicographic order on lists of numbers. -/
def lexLt : List Nat → List Nat → Bool
  | [], [] => false
  | [], _ :: _ => true
  | _ :: _, [] => false
  | a :: r, b :: t => decide (a < b) || (a == b && lexLt r t)

/-- Effective class of a task. -/
def Task.effClass (t : Task) : Nat := t.cls - t.aged

/-- Device time of a task's deadline. -/
def Task.due (t : Task) : Nat := t.readyAt + t.deadline * 1000

/-- The key by which R159 orders tasks. -/
def Task.rank (t : Task) : List Nat := [t.effClass, t.due, t.readyAt, t.id / 65536 % 65536]

/-- Insert a task behind those that come no later. -/
def rankInsert (t : Task) : List Task → List Task
  | [] => [t]
  | u :: r => if lexLt t.rank u.rank then t :: u :: r else u :: rankInsert t r

/-- Tasks in the order of R159. -/
def rankSort (l : List Task) : List Task := l.foldl (fun a t => rankInsert t a) []

/-- Does a grade hold a task out of placement (R207). -/
def State.heldBack (s : State) (t : Task) : Bool := decide (vget s.sched.grades t.cls 0 ≥ 2) || s.sched.suspended

/-- EFFECTIVE_CLASS_AGING: one class for each full 4 ms that the task waits in the queue (R159). -/
def State.ageTask (s : State) (uid : Nat) : State :=
  match s.taskOf uid with
  | none => s
  | some t =>
    if t.state = 0 ∧ (s.die t.die).ready.contains uid = true ∧ t.effClass ≠ 0 ∧ t.waitAt + 4000000 ≤ s.now then
      s.modTask uid fun x => { x with aged := x.aged + 1, waitAt := x.waitAt + 4000000 }
    else s

/-- EFFECTIVE_CLASS_AGING (R159). -/
def execEffectiveClassAging (task : Nat) (s : State) : Out := .next (s.ageTask task)

/-! ## What a launch puts on a plane (R24, R177, R185, R202) -/

/-- Why a task cannot start: cause, SUB and INFO of its fault record. -/
abbrev StartFault := Nat × Nat × Nat

/-- The gang launch record: NTHR, GROUP, ARGS; a record that breaks R177 ends the task. -/
def State.gangRecord (s : State) (t : Task) : Except StartFault (Nat × Nat × Nat) :=
  match s.tableBytes t.ctx t.args 64 with
  | .error va => .error (cTranslation, 0, va)
  | .ok l =>
    let n := field l 0 8
    if n < 2 ∨ n > 16 ∨ field l 24 40 ≠ 0 then .error ((s.free 53).toNat % 256, 0, t.args) else .ok (n, field l 8 8, field l 16 8)

/-- Row `j` of the rows that a placement has read: one that a store has made break R201 since the launch counts as none (R16, R201, log
157). -/
def rowAt (rs : List OpRow) (j : Nat) : Option OpRow := rs[j]?.filter (·.ok)

/-- The row chosen for a task. -/
def Task.opRow (t : Task) : Option OpRow := rowAt t.opTab t.row

/-- ENERGY ÷ TIME of a row: is that of `a` below that of `b`. -/
def rowBelow (a b : OpRow) : Bool := decide (a.energy * b.time < b.energy * a.time)

/-- The row of a task's set with the next lower ENERGY ÷ TIME, within the deadline when `strict`. -/
def State.lowerRow (s : State) (strict : Bool) (t : Task) (rs : List OpRow) : Option Nat :=
  match rowAt rs t.row with
  | none => none
  | some cur =>
    let ok := t.rows.filter fun j => ((rowAt rs j).map fun r => rowBelow r cur && (!strict || decide (s.now + r.time * 1000 ≤ t.due))).getD false
    (ok.foldl (fun (a : Option (Nat × OpRow)) j =>
      match rowAt rs j, a with
      | none, a => a
      | some r, none => some (j, r)
      | some r, some (i, q) => if rowBelow q r then some (j, r) else some (i, q)) none).map (·.1)

/-- Is a cluster one whose rates step 4 may lower: it runs a task of a class under SLOW. -/
def State.slowCluster (s : State) (cl : Nat) : Bool :=
  s.tasks.any fun t => t.state == 1 && vget s.sched.grades t.cls 0 == 1 && t.threads.any fun k => thrCluster k == cl

/-- Does the predicted power meet a cap in mW: the chosen rows' ENERGY ÷ TIME, those of SLOW clusters shared by 2^sh, and the rest as
measured; summed as a fraction. -/
def State.meetsCap (s : State) (tasks : List (Task × List OpRow)) (cap rest sh : Nat) : Bool :=
  let x := tasks.foldl (fun (a : Nat × Nat) e =>
    match rowAt e.2 e.1.row with
    | none => a
    | some r =>
      let d := max 1 r.time * 2 ^ (if e.1.threads.any fun k => s.slowCluster (thrCluster k) then sh else 0)
      (a.1 * d + r.energy * 1000 * a.2, a.2 * d)) (0, 1)
  decide (x.1 + rest * x.2 ≤ cap * x.2)

/-- The measured power of the I/O dies, HBM4, LP tier and board, from mean powers in the order of the accumulators (R204). -/
def restPower (p : List Nat) : Nat := (p.drop 9).sum

/-- The row of a task that is placed while a curve is in force (R202, R204, log 61): its own row moves down its set while the predicted power
exceeds the cap at the end of the coming period. -/
def State.placeRow (s : State) (rs : List OpRow) : Nat → Task → Nat
  | 0, t => t.row
  | fuel + 1, t =>
    let run := (s.tasks.filter fun u => u.state == 1).map fun u => (u, u.opTab)
    if s.sched.cur.isNone || s.meetsCap ((t, rs) :: run) (s.sched.capAhead (s.now + 1000000)) (restPower s.sched.lastPower) 0 then t.row
    else
      match s.lowerRow true t rs <|> s.lowerRow false t rs with
      | none => t.row
      | some j => s.placeRow rs fuel { t with row := j }

/-- The chosen row: the least TIME, the lowest j on a tie; with the compatible set. Under a curve too the set is that row's, and the row that the
cap admits is then sought within it (`placeRow`, R202, R204; log 61). -/
def chooseRow (rs : List OpRow) : Nat × List Nat :=
  let best := (List.range rs.length).foldl (fun (a : Option (Nat × OpRow)) j =>
    match rowAt rs j, a with
    | none, a => a
    | some r, none => some (j, r)
    | some r, some (i, q) => if r.time < q.time then some (j, r) else some (i, q)) none
  match best with
  | none => (0, [])
  | some (j, r) => (j, (List.range rs.length).filter fun i =>
      ((rowAt rs i).map fun q => decide (q.key = r.key)).getD false)

/-- The registers of a thread at launch: arguments, instance index, format block, row. Reserved bits of the format block read as 0 from the
registers (R7). -/
def launchThread (t : Task) (c : Ctx) (pos : Nat) (h args : List Byte) (row : Option OpRow) (members : List Member) : Thread :=
  let g := (List.range 8).foldl (fun (g : Vector W 32) i => vset g (i + 1) (BitVec.ofNat 64 (field args (8 * i) 8))) (Vector.replicate 32 0#64)
  let g := vset g 8 (BitVec.ofNat 64 (t.id % 65536))
  let g := match row.bind (·.tiles) with
    | some n => vset g 7 (BitVec.ofNat 64 n)
    | none => g
  let fb := field h 128 4
  let fb := match row.bind (·.ftbase) with
    | some n => fb / 16 * 16 + n
    | none => fb
  { Thread.blank with
    g := g, running := true, task := t.uid, gangPos := pos, members := members
    pc := sext57 (t.image + field h 8 8 + field h 24 8)
    status := BitVec.ofNat 32 (b01 c.sys <<< 24 ||| (t.cls % 4) <<< 20 ||| (c.tenant % 256) <<< 8)
    ft := (List.range 16).foldl (fun (v : Vector W32 16) i => vset v i (BitVec.ofNat 32 (field h (64 + 4 * i) 4 / 4096 * 4096))) (Vector.replicate 16 0#32)
    fmtBase := BitVec.ofNat 32 (fb % 64) }

/-- The image that a launch itself stands for. -/
def launchImage (t : Task) (x : Thread) : Image :=
  { task := t.uid, id := t.id, seq := 0, mark := 0, cidx := 0, ref := false, done := true, core := 0, recs := refRecs, vers := none, run := none,
    accLoc := none, t := some x, spad := [], spadBad := [], acc := [], subs := [] }

/-- A group object made to hold a gang: every thread is a member from barrier phase 0 (R178, R306). -/
def State.gangGroup (s : State) (t : Task) (n group : Nat) : Except StartFault (State × List Member) :=
  match s.ctxPa t.ctx group with
  | none => .error (cTranslation, 0, group)
  | some pa =>
    match s.readGrp pa with
    | none => .error ((s.free 53).toNat % 256, 0, group)
    | some g =>
      if g.nmem ≠ 0 ∨ g.arr ≠ 0 ∨ g.pjoin ≠ 0 ∨ g.pleave ≠ 0 then .error ((s.free 53).toNat % 256, 0, group)
      else
        .ok (s.atomicWrite pa { g with nmem := n, phase := 0, nextidx := n }.bytes, (List.range n).map fun i => ⟨pa, i, 0, none⟩)

/-- A task's first start: the state, its record and the images its threads start from. -/
def State.startImages (s : State) (t : Task) (n : Nat) (gang : Option (Nat × Nat)) : Except StartFault (State × Task × List Image) :=
  let args := (gang.map (·.2)).getD t.args
  match s.tableBytes t.ctx t.image 256, s.tableBytes t.ctx args 64 with
  | .error va, _ => .error (cTranslation, 1, va)
  | _, .error va => .error (cTranslation, 0, va)
  | .ok h, .ok a => do
    let v := ((s.slot (t.id / 2 ^ 32)).map fun x => (x.opt, x.node (t.id / 65536 % 65536))).getD (0, Node.blank)
    let (rs, waits) := match s.opRows t.ctx v.1 v.2.opidx v.2.oprows with
      | .ok l => (l, false)
      | .error va => ([], va == notReady)
    if waits then .error (cTranslation, 0, notReady) else
    let (j, set) := chooseRow rs
    let (s, mem) ← (match gang with
      | none => .ok (s, [])
      | some (group, _) => s.gangGroup t n group : Except StartFault (State × List Member))
    let t := { t with vbudget := field h 132 4, row := j, rows := set, opTab := rs, gangN := n }
    let t := { t with row := s.placeRow rs rs.length t }
    let c := s.ctx t.ctx
    .ok (s, t, (List.range n).map fun p => launchImage t (launchThread t c p h a (rowAt rs t.row) ((mem.drop p).take 1)))

/-! ## The image at resume (R128, R435) -/

/-- The newest of a list of images. -/
def newest (l : List Image) : Option Image :=
  l.foldl (fun a i => match a with
    | none => some i
    | some b => if i.seq > b.seq then some i else some b) none

/-- The image that a thread of a task resumes from: the newest complete persist image or saved record whose mark is still held, else the
commit image, which may be a reference; none when that is not complete either (NO_IMAGE). -/
def Task.chooseImage (t : Task) (pos : Nat) : Option Image :=
  let own := t.kept.filter fun e => e.2.pos == pos && e.2.complete
  let held := ((own.filter fun e => e.1 != 2).map (·.2) ++ t.saved.filter fun i => i.pos == pos && i.complete).filter fun i => t.sealedMarks.contains i.mark
  match newest held with
  | some i => some i
  | none => (own.find? fun e => e.1 == 2).map (·.2)

/-- The gang positions of a task whose threads have not ended (R404). -/
def Task.livePos (t : Task) : List Nat := (List.range t.gangN).filter fun p => !t.done.contains p

/-- The LLC discards the marks newer than a chosen image's, with the slots staged under them, and opens a new one (R128, R331); once-only
entries newer than it are to be replayed. -/
def Task.resumeFrom (t : Task) (m : Nat) : Task :=
  { t.toReplay m with
    lines := t.lines.filter fun v => !markNewer v.mark m
    sealedMarks := t.sealedMarks.filter fun x => !markNewer x m
    staged := t.staged.filter fun x => x.pub || !markNewer x.mark m
    openMark := t.drawn }

/-! ## Cores (R158, R160, R367, R427) -/

/-- Are the B-store slots and the accumulator slots that images name free on a cluster. -/
def State.slotsFree (s : State) (cl : Nat) (l : List Image) : Bool :=
  let c := s.cluster cl
  l.all fun i => (i.subs.all fun b => b.slots.all fun e => (c.bslot e.2.1).st == 0) && i.acc.all fun a => (c.slotAt a.slot).st == 0

/-- Does a core take a task's thread: by R160, with the slots its image names free; a reserved core takes its own task alone. -/
def State.coreTakes (s : State) (core tenant uid : Nat) (l : List Image) : Bool :=
  let c := s.core core
  let s1 := if c.reserved = some uid then s.setCore core { c with reserved := none } else s
  s1.coreQualifies core tenant && s.slotsFree (coreCluster core) l

/-- Has a core both planes free. -/
def State.bothFree (s : State) (core : Nat) : Bool := s.planeFree core 0 && s.planeFree core 1

/-- Has a core's shadow plane been filled with a task's image ahead of its placement. -/
def State.prefilled (s : State) (core uid : Nat) : Bool := (s.core core).fill == some uid && (s.core core).filled

/-- The core for a task of one thread, in the order of R160. -/
def State.pickCore (s : State) (t : Task) (tenant : Nat) (l : List Image) : Option Nat :=
  let all := ((List.range 64).map fun i => 64 * t.die + i).filter fun k => s.coreTakes k tenant t.uid l
  let all := match t.onyxCores with
    | [] => all
    | own => all.filter fun k => own.any fun e => e.2 == k
  let order (l : List Nat) : Option Nat :=
    (l.find? fun k => s.prefilled k t.uid) <|> (l.find? fun k => s.bothFree k) <|> l.head?
  match t.avoid with
  | none => order all
  | some a => order (all.filter (· != a)) <|> order all

/-- The first core of the lowest run that takes a gang; one without the core to avoid goes first (R427). -/
def State.pickRun (s : State) (t : Task) (tenant n : Nat) (img : Nat → List Image) : Option Nat :=
  let fits (k : Nat) : Bool := decide (k + n ≤ 64) && (List.range n).all fun p => t.done.contains p || s.coreTakes (64 * t.die + k + p) tenant t.uid (img p)
  let starts := match t.onyxCores.head? with
    | some e => [e.2 % 64 - e.1]
    | none => List.range 64
  let apart (k : Nat) : Bool := t.avoid.all fun a => decide (a < 64 * t.die + k ∨ 64 * t.die + k + n ≤ a)
  ((starts.find? fun k => fits k && apart k) <|> starts.find? fits).map fun k => 64 * t.die + k

/-- Put a thread on a core from its image: on the active plane when both are free, on the shadow plane otherwise, where the loader fills
it (R160, R436). -/
def State.seat (s : State) (uid core : Nat) (img : Image) : State :=
  let c := s.core core
  let both := s.bothFree core
  let plane := if both then c.active else 1 - c.active
  let k := 2 * core + plane
  let tenant := (img.t.map Thread.tenant).getD 0
  let status := (img.t.map fun t => setBit32 t.status 19 (!both)).getD 0#32
  let pre := s.prefilled core uid
  let s := s.modTask uid fun x => { x with threads := x.threads ++ [k] }
  let s := s.modCore core fun c => { c with reserved := none, fill := if both then none else some uid, filled := pre }
  if both then ((s.enterCore core tenant).restoreImage k img status).activate core plane
  else s.restoreImage k img status

/-! ## Placing a task -/

/-- What is pending for the threads of a task while they hold no plane goes to each (R52, R423). -/
def State.handOver (s : State) (uid : Nat) : State :=
  match s.taskOf uid with
  | none => s
  | some t =>
    let s := t.threads.foldl (fun s k => s.modThread k fun x => { x with
      flags := x.flags ||| Tab.getD t.flags x.gangPos 0#32
      async := x.async ++ (t.async.filter fun c => c.1 == x.gangPos).map (·.2) }) s
    s.modTask uid fun x => { x with flags := [], async := [] }

/-- The images of a task when its threads have started from the launch or from records in memory: the commit image of each of those is a
reference to what it started from, and its core area holds no other (R92). -/
def Task.keptFrom (t : Task) (memory : List Image) : List (Nat × Image) :=
  (t.kept.filter fun e => !(memory.any fun i => i.pos == e.2.pos)) ++ memory.map fun i => (2, { i with ref := true, done := true, recs := refRecs })

/-- A version line of a task comes into the LLC of its die: a copy leaves for it where its set has no way left (R86, R441). -/
def State.takeVersion (t : Task) (s : State) (l : VLine) : State :=
  (s.llcRoom t.die l.line).1.modTask t.uid fun x => { x with lines := x.lines ++ [l] }

/-- A task whose images are at hand starts on cores. Its version records are back in the LLC before the marks newer than the images' are
discarded (R86, R128). -/
def State.seatAll (s : State) (t : Task) (first : Nat) (imgs : List Image) : State :=
  let memory := imgs.filter fun i => t.parkRun.isSome || t.saved.any (fun x => x.pos == i.pos && x.seq == i.seq) || t.origins == []
  let (s, vers) := s.versTake t.uid
  let s := (t.away ++ vers).foldl (State.takeVersion t) s
  let t1 := imgs.foldl (fun (t : Task) i => t.resumeFrom i.mark) { t with lines := t.lines ++ t.away ++ vers }
  let s := s.setTask { t1 with
    state := 1, started := false, threads := [], avoid := none, requeueAt := none, monitored := false, saved := [], parkRun := none
    onyxCores := [], away := [], kept := t.keptFrom memory
    origins := memory ++ t.origins.filter fun (o : Image) => !(memory.any fun i => i.pos == o.pos) }
  let s := (List.range 8).foldl (fun s d => s.modDie d fun x => { x with ready := x.ready.filter (· != t.uid) }) s
  let s := imgs.foldl (fun s i => s.seat t.uid (first + i.pos) i) s
  ((s.handOver t.uid).gangStart t.uid).refillReady t.die

/-- What a try to place a task comes to: it is placed or has ended; none when no core qualifies, or while a table that its start reads lies in
devices that accept no access (R87). -/
def State.tryPlace (s : State) (t : Task) : Option State :=
  let tenant := (s.ctx t.ctx).tenant
  let fail (f : StartFault) : Option State := if f.2.2 = notReady then none else some (s.endTask t.uid 2 f.1 f.2.1 0 f.2.2)
  let core (n : Nat) (img : Nat → List Image) : Option Nat := if n = 1 then s.pickCore t tenant (img 0) else s.pickRun t tenant n img
  if t.origins = [] then
    match (if t.gang then (s.gangRecord t).map some else .ok none : Except StartFault (Option (Nat × Nat × Nat))) with
    | .error f => fail f
    | .ok g =>
      let n := (g.map (·.1)).getD 1
      match core n fun _ => [] with
      | none => none
      | some k =>
        match s.startImages t n (g.map (·.2)) with
        | .error f => fail f
        | .ok (s, t, imgs) => some (s.seatAll t k imgs)
  else
    let s := s.readOnyx t.uid
    let t := (s.taskOf t.uid).getD t
    let imgs := t.livePos.map t.chooseImage
    if imgs.any (·.isNone) then fail (cNoImage, 0, 0)
    else
      let l := imgs.filterMap id
      (core t.gangN fun p => l.filter fun i => i.pos == p).map fun k => s.seatAll t k l

/-- Would a core take a tenant's task if its cluster were switched on. -/
def State.coreWould (s : State) (core tenant uid : Nat) : Bool :=
  let c := s.core core
  c.owner == tenant && !c.degraded && (c.reserved.isNone || c.reserved == some uid) && s.planeFree core (1 - c.active)
    && !s.boot.harvestCore.getLsbD core && !s.boot.harvestCl.getLsbD (coreCluster core)

/-- Do two clusters of a die share an edge of its 4 × 4 grid. -/
def clusterEdge (a b : Nat) : Bool :=
  (a / 4 == b / 4 && (a % 4 == b % 4 + 1 || b % 4 == a % 4 + 1)) || (a % 4 == b % 4 && (a / 4 == b / 4 + 1 || b / 4 == a / 4 + 1))

/-- The round in which a cluster is switched on (R215). -/
def switchRoundOf (c : Nat) : Nat := (c / 4 + 2 * (c % 4)) % 4

/-- Does a neighbour of a cluster switch on now. -/
def Die.switchingNear (d : Die) (c : Nat) : Bool :=
  match d.switchRound with
  | none => false
  | some j => (List.range 16).any fun b => d.waitOn.getLsbD b && switchRoundOf b == j && clusterEdge b c

/-- Clusters of a live die are to be switched on: the rounds begin with the first that has a cluster waiting (R215). -/
def Die.switchOn (d : Die) (need : List Nat) : Die :=
  let w := need.foldl (fun a c => a ||| (1#16 <<< c)) d.waitOn
  { d with
    waitOn := w
    switchRound := d.switchRound <|> (List.range 4).find? fun j => (List.range 16).any fun c => w.getLsbD c && switchRoundOf c == j }

/-- A task that finds no core on its live die has the gated clusters of the lowest run of cores that would take it switched on (R215); one
whose images lie in Onyx, those of the cores that hold them (R210, R217). -/
def State.askSwitchOn (s : State) (t : Task) : State :=
  let tenant := (s.ctx t.ctx).tenant
  let n := max 1 t.gangN
  let fits (k : Nat) : Bool := decide (k + n ≤ 64) && t.livePos.all fun p => s.coreWould (64 * t.die + k + p) tenant t.uid
  let starts := match t.onyxCores.head? with
    | some e => [e.2 % 64 - e.1]
    | none => List.range 64
  match starts.find? fits with
  | none => s
  | some k =>
    let need := ((t.livePos.map fun p => (k + p) / 4).filter fun c => !(s.cluster (16 * t.die + c)).on).eraseDups
    s.modDie t.die fun d => d.switchOn need

/-- The tasks of a die's ready queue are tried in order; one that finds no core holds back those of its own tenant behind it (R160). -/
def State.placeFirst (s : State) (blocked : List Nat) : List Task → State
  | [] => s
  | t :: r =>
    let tenant := (s.ctx t.ctx).tenant
    if blocked.contains tenant || s.heldBack t then s.placeFirst blocked r
    else
      match s.tryPlace t with
      | some s => s
      | none => (s.askSwitchOn t).placeFirst (tenant :: blocked) r

/-- The die's graph engine places one task (R160). -/
def State.placeOn (s : State) (d : Nat) : State :=
  let s := s.refillReady d
  if !s.dieLive d then s
  else s.placeFirst [] (rankSort ((s.die d).ready.filterMap s.taskOf))

/-- TASK_PLACEMENT (R160). -/
def execTaskPlacement (die : Nat) (s : State) : Out := .next (s.placeOn die)

/-! ## The shadow plane (R160, R436) -/

/-- The loader finishes filling a shadow plane: the thread waiting there can be made active, and is when the active plane holds none. A
plane that holds no thread is filled with the image of the die's first ready task of the core's tenant, ahead of its placement. -/
def State.fillDone (s : State) (core : Nat) : State :=
  let c := s.core core
  let k := 2 * core + (1 - c.active)
  if (s.thread k).running then
    if c.fill.isNone || c.filled then s
    else
      let s := s.setCore core { c with filled := true }
      if s.planeFree core c.active then s.activate core (1 - c.active) else s
  else
    let ready := rankSort ((s.die (coreDie core)).ready.filterMap s.taskOf)
    match ready.find? fun t => (s.ctx t.ctx).tenant == c.owner && !s.heldBack t with
    | none => s
    | some t => s.setCore core { c with fill := some t.uid, filled := true }

/-- SHADOW_FILL_DONE (R436). -/
def execShadowFillDone (core : Nat) (s : State) : Out := .next (s.fillDone core)

/-! ## Pre-emption (R434) -/

/-- A pre-emption request reaches every thread of a task. -/
def State.askPreempt (s : State) (t : Task) : State :=
  t.threads.foldl (fun s k => s.modThread k fun x => { x with preempt := x.preempt <|> some s.now }) s

/-- For a ready task of class E0 the running task of its tenant that is latest in the order is asked to stop, when its effective class is
numerically higher. -/
def State.preemptFor (s : State) (d : Nat) (t : Task) : State :=
  let tenant := (s.ctx t.ctx).tenant
  let run := s.tasks.filter fun u => u.die == d && u.state == 1 && (s.ctx u.ctx).tenant == tenant
  match (rankSort run).getLast? with
  | none => s
  | some u => if u.effClass > t.effClass then s.askPreempt u else s

/-- The ready tasks of class E0 that have missed their deadlines have their requests made, each among the tasks of its tenant. -/
def State.deadlinePreempt (s : State) (d : Nat) : State :=
  let late := ((s.die d).ready.filterMap s.taskOf).filter fun t => t.cls == 0 && !s.heldBack t && decide (t.due ≤ s.now)
  (rankSort late).foldl (fun s t => s.preemptFor d t) s

/-- DEADLINE_PREEMPTION (R434). -/
def execDeadlinePreemption (die : Nat) (s : State) : Out := .next (s.deadlinePreempt die)

/-- A save of a thread that holds the shadow plane: its register set and its saved ranges are the image, which is kept with its task. A core
area serves the active plane's thread (R92) and R435 names no other place in Onyx: the image is written at once, where persist image A lies,
and its records count as writes there (R232, log 158). -/
def State.saveShadow (s : State) (k purpose : Nat) : State :=
  let t := s.thread k
  match s.taskOf t.task with
  | none => s
  | some x =>
    let s := (s.modTask x.uid Task.seal).modThread k fun t => { t.keepRepeat with persistAt := s.now }
    let img := { s.capture k .full x.openMark with spad := t.spadSave, spadBad := t.spadBad, done := true }
    let img := { img with recs := imageRecs (t.carried none) t.queueBytes t.spadSave img.acc.length }
    let s := s.modTask x.uid fun y => { y with nextSeq := y.nextSeq + 1 }
    if purpose = 3 then
      let (s, img) := s.writeSaved x.ctx img
      (s.modTask x.uid fun y => { y with saved := (y.saved.filter fun (o : Image) => o.pos != img.pos) ++ [img] }).leaveSaved k 0
    else
      let s := s.wearImage ⟨thrCore k, 0, purpose, k, img, true⟩
      (s.modTask x.uid fun y => { y with kept := (y.kept.filter fun e => !(e.2.pos == img.pos && e.1 == 0)) ++ [(0, img)] }).leaveSaved k 3

/-- A forced full save, when its limit has passed and the thread stands between words (R318, R434). -/
def State.forceSave (s : State) (k : Nat) (since : Option Nat) (limit : Nat) : State :=
  let t := s.thread k
  match since with
  | none => s
  | some u =>
    if decide (u + limit ≤ s.now) && t.running && !t.halted && s.saveReady k then
      if s.isActive k then s.takeSave k else s.saveShadow k t.savePurpose
    else s

/-- PREEMPT_FORCED_SAVE (R434). -/
def execPreemptForcedSave (thr : Nat) (s : State) : Out := .next (s.forceSave thr (s.thread thr).preempt 100000)

/-- PARK_STOP_TIMEOUT (R210). -/
def execParkStopTimeout (thr : Nat) (s : State) : Out := .next (s.forceSave thr (s.thread thr).parkStop 50000)

end Sys2Proof.Machine
end

