-- ==== Sys2Proof/Machine/Grades.lean ====
section
/-! DEFINITION. Budget curves and grades: the checks of a curve, its entry, its events, SLOW, SHED and PARK, suspend and resume, the park
area (R193 to R198, R205 to R217, R438, R442, R454, R460). -/

namespace Sys2Proof.Machine

open Sys2Proof

/-! ## Tasks held for a gated die (R182, R213) -/

/-- A task that waits for a die that is not live is placed again under R182; one whose image lies in Onyx stays, and so does one whose placement-map
entry cannot be read yet. -/
def State.rehomeTask (s : State) (t : Task) : State :=
  if t.state ≠ 0 ∨ s.dieLive t.die = true ∨ t.onyxCores ≠ [] then s
  else
    match s.slot (t.id / 2 ^ 32) with
    | none => s
    | some x =>
      if !s.mapReady x (t.id / 65536 % 65536) then s else
      let d := s.chooseDie x (t.id / 65536 % 65536)
      let s := s.wakeChosen d
      if d = t.die then s
      else
        let s := s.modDie t.die fun y => { y with ready := y.ready.filter (· != t.uid) }
        (s.modTask t.uid fun y => { y with die := d }).refillReady d

/-- The energy scheduler places again what it holds. -/
def State.rehome (s : State) : State := s.tasks.foldl (fun s t => s.rehomeTask t) s

/-! ## Grades (R206 to R212) -/

/-- The four grades of a byte, E0 in the low bits (R194). -/
def gradesOf (b : Nat) : Vector Nat 4 := #v[b % 4, b / 4 % 4, b / 16 % 4, b / 64 % 4]

/-- PARK for every class. -/
def allPark : Vector Nat 4 := Vector.replicate 4 3

/-- Device time of an event of a curve. -/
def Curve.eventAt (c : Curve) (e : Nat × Nat × Nat) : Nat := c.from_ + e.1 * 1000

/-- The event of the curve in force that comes next. -/
def Sched.nextEvent (x : Sched) : Option (Curve × Nat × Nat × Nat) := x.cur.bind fun c => (c.evts[x.evDone]?).map fun e => (c, e)

/-- PEND: what the next event gives each class when it falls within 10 ms; the grades otherwise (R206). -/
def Sched.pendNow (x : Sched) (now : Nat) : Vector Nat 4 :=
  match x.nextEvent with
  | none => x.grades
  | some (c, e) =>
    if c.eventAt e ≤ now + 10000000 then
      if e.2.2 = 0 then gradesOf e.2.1 else if e.2.2 = 1 then allPark else x.want
    else x.grades

/-- PEND brought up to date. -/
def State.refreshPend (s : State) : State := { s with sched := { s.sched with pend := s.sched.pendNow s.now } }

/-- PEND_ANNOUNCE (R206). -/
def execPendAnnounce (s : State) : Out := .next s.refreshPend

/-- The response bound of a grade, in ns (R207). -/
def gradeBound : Nat → Nat
  | 1 => 1000000
  | 2 => 10000000
  | 3 => 150000000
  | _ => 0

/-- Is a task parked, or shed: it waits, and the grade SHED or PARK of its class holds it. -/
def State.putAway (s : State) (t : Task) : Bool := t.state == 3 || ((t.state == 0 || t.state == 5) && decide (vget s.sched.grades t.cls 0 ≥ 2))

/-- What the monitor of R205 takes down for the period, whenever the fast loop runs and grades, dies or F-codes change: whether no ready task
is held out of placement, by a grade or for a gated die (R213), and no cluster is slower than its row, and whether every task is parked or
shed and every die gated (log 141). -/
def State.noteBand (s : State) (low : Bool) : State :=
  let unheld := !(s.tasks.any fun t => t.state == 0 && (s.heldBack t || !s.dieLive t.die)) && !low
  let stopped := s.tasks.all s.putAway && (List.range 8).all fun d => !(s.die d).on
  { s with sched := { s.sched with unheld := s.sched.unheld && unheld, stopped := s.sched.stopped && stopped } }

/-- The clusters on which a task runs are to be gated. -/
def State.gateClusters (s : State) (t : Task) : State :=
  t.threads.foldl (fun s k => s.modCluster (thrCluster k) fun c => { c with gateDue := true }) s

/-- SHED of a running task: its region aborts, its cores are gated without a persist, the host gets a shed record, and it waits in its
ready queue (R209). -/
def State.shedTask (s : State) (t : Task) : State :=
  let s := (s.gateClusters t).abortRegion t.uid 0 false none
  match s.taskOf t.uid with
  | none => s
  | some x => s.taskRecord x 3 0 0 0 0

/-- PARK of a running task: each of its threads is asked to stop (R210). -/
def State.parkTask (s : State) (t : Task) : State :=
  t.threads.foldl (fun s k => s.modThread k fun x => { x with parkStop := x.parkStop <|> some s.now }) (s.gateClusters t)

/-- PARK and SHED leave a class: its parked tasks return to their ready queues; a task that has not yet stopped runs on (R210, R212). -/
def State.freeTask (s : State) (t : Task) : State :=
  if t.state = 3 then (s.modTask t.uid fun x => { x with state := 0, waitAt := s.now }).refillReady t.die
  else if t.state = 1 then t.threads.foldl (fun s k => s.modThread k fun x => if x.halted then x else { x with parkStop := none }) s
  else s

/-- What a class's new grade does to a task of it. -/
def State.gradeTask (s : State) (g : Nat) (t : Task) : State :=
  if g = 2 then if t.state = 1 then s.shedTask t else s
  else if g = 3 then if t.state = 1 then s.parkTask t else s
  else s.freeTask t

/-- One class takes a new grade: EVSEQ advances, event 0x09 is posted (R164, R206). -/
def State.gradeClass (s : State) (k g : Nat) : State :=
  let x := s.sched
  let s := { s with sched := { x with grades := vset x.grades k g, evseq := x.evseq + 1 } }
  s.post 0x09 8 0 (((x.evseq + 1) % 256) <<< 16 ||| 1 <<< (8 + k) ||| g % 4)

/-- A collective goes on from its chunk record: the first chunk that is not done starts again (R460). -/
def Coll.resumed (recs : List Coll) (c : Coll) : Coll :=
  let r := (recs.find? fun x => x.comm == c.comm && x.ord == c.ord).getD c
  { c with stopped := false, done := r.done.filter fun x => x.2 == 1 }

/-- Collectives stop at a chunk boundary under a PARK of every class, as a suspend brings it, their chunk records written to the LP tier; they go
on from these after it (R216, R217, R460). -/
def State.collStops (s : State) : State :=
  if (List.range 4).all fun k => vget s.sched.grades k 0 == 3 then
    let l := s.colls.map fun (c : Coll) => { c with stopped := true }
    { s with colls := l, collRecs := l }
  else { s with colls := s.colls.map fun (c : Coll) => if c.stopped then c.resumed s.collRecs else c }

/-- The four grades in force are replaced in one step (R206, R442). -/
def State.setGrades (s : State) (g : Vector Nat 4) : State :=
  let old := s.sched.grades
  let changed := (List.range 4).filter fun k => vget g k 0 != vget old k 0
  if changed = [] then s.refreshPend
  else
    let bound := (changed.map fun k => gradeBound (vget g k 0)).foldl max 5000000
    let s := changed.foldl (fun s k => s.gradeClass k (vget g k 0)) s
    let s := ({ s with sched := { s.sched with exempt := true, exemptUntil := s.now + bound } }).noteBand false
    let s := s.tasks.foldl (fun s t => if changed.contains t.cls then s.gradeTask (vget g t.cls 0) t else s) s
    (s.collStops.refreshPend).rehome

/-! ## Suspend and resume (R216, R217) -/

/-- Suspend: every class takes PARK, the ring is held from its frame boundaries on, and no die is to be switched on any more. Dies, stacks and
the LP tier follow by events of their own. -/
def State.suspend (s : State) : State :=
  if s.sched.suspended then s
  else
    let s := { s with sched := { s.sched with suspended := true, wake := 0#8 }, ring := s.ring.ask 5 }
    s.setGrades allPark

/-- Resume: stacks leave retention, the LP tier leaves self-refresh, the gated dies are to be switched on, and the grades of the curves
are applied. -/
def State.resume (s : State) : State :=
  if !s.sched.suspended then s
  else
    let gated := (List.range 8).foldl (fun (a : BitVec 8) d => if (s.die d).present && !(s.die d).on then a ||| (1#8 <<< d) else a) s.sched.wake
    let s : State := { s with
      hbm := s.hbm.map fun (x : Stack) => if x.st = 2 then { x with st := 1, lastAccess := s.now } else x
      lpRefresh := false
      sched := { s.sched with suspended := false, wake := gated } }
    (s.setGrades s.sched.want).retryPreds

/-- An event of a curve acts (R194, R206, R216, R217). -/
def State.curveAct (s : State) (e : Nat × Nat × Nat) : State :=
  if e.2.2 = 0 then
    let s := { s with sched := { s.sched with want := gradesOf e.2.1 } }
    if s.sched.suspended then s.refreshPend else s.setGrades (gradesOf e.2.1)
  else if e.2.2 = 1 then s.suspend
  else s.resume

/-- The next event of the curve in force, when it is due and of action `act`. -/
def State.dueEvent (s : State) (act : Nat) : State :=
  match s.sched.nextEvent with
  | none => s
  | some (c, e) =>
    if e.2.2 = act ∧ c.eventAt e ≤ s.now then { s with sched := { s.sched with evDone := s.sched.evDone + 1 } }.curveAct e else s

/-- GRADE_EVENT (R206). -/
def execGradeEvent (s : State) : Out := .next (s.dueEvent 0)
/-- SUSPEND_EVENT (R216). -/
def execSuspendEvent (s : State) : Out := .next (s.dueEvent 1)
/-- RESUME_EVENT (R217). -/
def execResumeEvent (s : State) : Out := .next (s.dueEvent 2)

/-- EXEMPT_EXPIRY (R205, R442). -/
def execExemptExpiry (s : State) : Out :=
  .next (if s.sched.exempt ∧ s.sched.exemptUntil ≤ s.now then { s with sched := { s.sched with exempt := false } } else s)

/-! ## Curves (R193 to R198, R454) -/

/-- The largest curve image (R193). -/
def curveMax : Nat := 7604

/-- Numbers of points and of events in an image. -/
def curveCounts (l : List Byte) : Nat × Nat := (field l 4 2, field l 6 2)

/-- Step 2 of R196. -/
def curveShape (l : List Byte) : Bool :=
  let (p, e) := curveCounts l
  l.length ≥ 64 && field l 0 4 == 0x51435256 && decide (1 ≤ p ∧ p ≤ 256 ∧ e ≤ 64) && l.length == 64 + 16 * (p + e) + 2420
    && decide (l.length ≤ curveMax)

/-- The curve of an image. -/
def curveOf (l : List Byte) : Curve :=
  let (p, e) := curveCounts l
  { seq := field l 8 8, from_ := field l 16 8
    pts := (List.range p).map fun i => (field l (64 + 16 * i) 4, field l (68 + 16 * i) 4)
    evts := (List.range e).map fun i =>
      let o := 64 + 16 * (p + i)
      (field l o 4, field l (o + 4) 1, field l (o + 5) 1 % 4) }

/-- Step 5 of R196. -/
def curveSound (l : List Byte) (c : Curve) : Bool :=
  let (p, e) := curveCounts l
  let o := c.pts.map (·.1)
  let v := c.evts.map (·.1)
  field l 24 40 == 0 && ((List.range p).all fun i => field l (72 + 16 * i) 8 == 0) &&
    ((List.range e).all fun i =>
      let b := 64 + 16 * (p + i)
      field l (b + 5) 1 / 4 == 0 && field l (b + 6) 10 == 0) &&
    (c.evts.all fun x => x.2.2 != 3) && o.headD 1 == 0 && ((o.zip (o.drop 1)).all fun x => decide (x.1 ≤ x.2)) &&
    ((o.zip (o.drop 2)).all fun x => x.1 != x.2) && (v.zip (v.drop 1)).all fun x => decide (x.1 < x.2)

/-- The last accepted sequence number (R196). Before any curve has been accepted it is 0, a start that the rule does not give (log 159). -/
def State.lastCurve (s : State) : Nat := (List.range 8).foldl (fun a d => max a (s.die d).curveSeq) 0

/-- RESULT of a curve image, by the checks of R196 in order. -/
def State.curveResult (s : State) (l : List Byte) : Nat :=
  match s.boot.facKey with
  | none => 4
  | some key =>
    if !curveShape l then 3
    else if !mldsaVerify key (sha3 (l.take (l.length - 2420))) (l.drop (l.length - 2420)) then 1
    else if field l 8 8 ≤ s.lastCurve then 2
    else if !curveSound l (curveOf l) then 3
    else 0

/-- A waiting curve takes force (R197, R203, R205). -/
def State.enterCurve (s : State) (c : Curve) : State :=
  let x := s.sched
  let past := c.evts.filter fun e => decide (c.eventAt e ≤ s.now)
  let new : Sched := { x with cur := some c, wait := none, seq := c.seq % 2 ^ 32, evDone := past.length, mNum := 1, mDen := 1 }
  let changes := (x.capNow s.now).1 != (new.capNow s.now).1
  let new := if changes then { new with exempt := true, exemptUntil := max x.exemptUntil (s.now + 5000000) } else new
  let s := { s with sched := new }
  match past.getLast? with
  | none => s.refreshPend
  | some e => (s.curveAct e).refreshPend

/-- CURVE_ENTRY (R197). -/
def execCurveEntry (s : State) : Out :=
  .next (match s.sched.wait with
    | none => s
    | some c => if c.from_ ≤ s.now then s.enterCurve c else s)

/-- The doorbell of the curve mailbox reads 1 from the write of a 1 on, until the check of its curve ends; a write while it reads 1 is ignored
(R454). -/
def State.curveBell (s : State) (v : Nat) : State := if v = 1 then { s with agate := { s.agate with curveDoor := true } } else s

/-- The curve mailbox is checked: a refused curve changes RESULT and REFUSED alone; an accepted one waits for its time, or takes force
(R60, R196, R197, R454). -/
def State.checkCurve (s : State) : State :=
  let l := s.winBytes 0x300000 (min (s.winNat 0x301E00 8) 7680)
  let seq := s.winNat 0x300008 8
  let r := s.curveResult l
  let s := s.post 0x0A 8 0 (seq <<< 64 ||| r)
  if r ≠ 0 then { s with sched := { s.sched with result := r, refused := min 255 (s.sched.refused + 1) } }
  else
    let c := curveOf l
    let s : State := { s with
      dies := s.dies.map fun (d : Die) => if d.present then { d with curveSeq := c.seq } else d
      sched := { s.sched with result := 0, wait := some c } }
    if c.from_ ≤ s.now then s.enterCurve c else s

/-- CURVE_DOORBELL (R454): Agate serves the mailbox from STAGE 4 on (R474) and checks the curve whose doorbell write waits, or that of this
write; the doorbell then reads 0. Another value rings nothing. -/
def execCurveDoorbell (val : Nat) (s : State) : Out :=
  .next (if s.boot.stage ≠ 4 then s
    else
      let s := s.curveBell val
      if s.agate.curveDoor then { s with agate := { s.agate with curveDoor := false } }.checkCurve else s)

/-! ## The park area (R210, R211) -/

/-- Granules of the park area. -/
def granule : Nat := 4096

/-- The images from which the threads of a parked task resume. -/
def Task.resumeImages (t : Task) : List Image := t.livePos.filterMap t.chooseImage

/-- The 96 bytes of a version record (R86). -/
def VLine.bytes (v : VLine) : List Byte :=
  let b := lineBytes v.dat ++ leBytes 8 v.mask.toNat ++ leBytes 8 v.line ++ leBytes 4 v.mark
  b ++ leBytes 4 (crc32c b).toNat ++ leBytes 8 0

/-- The bytes of a parked task: its images, and its version records behind them (R210, R211). -/
def parkBytes (imgs : List Image) (lines : List VLine) : List Byte := imgs.flatMap Image.bytes ++ lines.flatMap VLine.bytes

/-- The copy of a parked task into the park area, with its version records: its Onyx core areas and its part of the version-record area are
free then. No copy is made under suspend, or without room. -/
def State.parkCopy (s : State) (uid : Nat) : State :=
  match s.taskOf uid, s.sched.parkArea with
  | some t, some (base, size) =>
    let imgs := t.resumeImages
    let (s1, vers) := s.versTake uid
    let lines := t.lines ++ vers
    let n := ((imgs.map Image.size).sum + 96 * lines.length + granule - 1) / granule * granule
    if t.state ≠ 3 ∨ t.parkRun.isSome = true ∨ s.sched.suspended = true ∨ imgs.length ≠ t.livePos.length then s
    else
      match freeRun (s.tasks.filterMap (·.parkRun)) size n with
      | none => s
      | some o =>
        let s := t.onyxCores.foldl (fun s e => s.modCore e.2 fun c => if c.reserved = some uid then { c with reserved := none } else c) s1
        let s := s.modTask uid fun x => { x with
          parkRun := some (o, n), onyxCores := [], kept := imgs.map (fun i => (2, i)), lines := [], away := lines }
        s.engineWrite (base + o) (parkBytes imgs lines)
  | _, _ => s

/-- PARK_COPY_DONE (R210 step 5). -/
def execParkCopyDone (task : Nat) (s : State) : Out := .next (s.parkCopy task)

end Sys2Proof.Machine
end

