-- ==== Sys2Proof/Machine/Points.lean ====
section
/-! DEFINITION. Energy counters and the loops of the energy scheduler: accumulators and attribution, permits, operating points, the fast
and the slow loop, telemetry, voltage records, droops (R152, R166, R199 to R205, R213, R220 to R226, R230, R468, R469). -/

namespace Sys2Proof.Machine

open Sys2Proof

/-! ## Energy accumulators (R220 to R223) -/

/-- Advance an accumulator by an energy in pJ: a unit is 2^-20 J, and the remainder is carried. -/
def accAdvance (acc : W) (rem pj : Nat) : W × Nat :=
  let x := rem + pj * 2 ^ 20
  (acc + BitVec.ofNat 64 (x / 10 ^ 12), x % 10 ^ 12)

/-- The accumulators after a microsecond. -/
def Energy.advance (e : Energy) (pj : List Nat) : Energy :=
  let r (i : Nat) : W × Nat := accAdvance (vget e.acc i 0#64) (vget e.rem i 0) (pj.getD i 0)
  { e with acc := e.acc.mapIdx fun i _ => (r i).1, rem := e.rem.mapIdx fun i _ => (r i).2 }

/-- A whole divided by weights: what entry `i` gets, so that the entries together get the whole. -/
def splitWhole (total : Nat) (w : List Nat) (i : Nat) : Nat :=
  let all := w.sum
  if all = 0 then 0
  else
    let upTo (k : Nat) : Nat := (w.take k).sum
    total * upTo (i + 1) / all - total * upTo i / all

/-- The tasks with an active thread on a cluster's cores, with the permits that each consumed there. -/
def State.clusterTasks (s : State) (cl : Nat) : List (Nat × Nat) :=
  (List.range 4).foldl (fun a i =>
    let k := s.coreThr cl i
    let t := s.thread k
    if !t.running then a
    else if a.any fun e => e.1 == t.task then a.map fun e => if e.1 = t.task then (e.1, e.2 + t.permits) else e
    else a ++ [(t.task, t.permits)]) []

/-- Energy attributed to a task, in 1/16384 µJ; UJ saturates and SAT stays (R222). -/
def Task.charge (t : Task) (x : Nat) : Task :=
  let y := t.ujRem + x
  let uj := t.uj + y / 16384
  { t with uj := min uj 0xFFFFFFFF, ujRem := y % 16384, ujSat := t.ujSat || decide (uj > 0xFFFFFFFF) }

/-- A cluster's share of energy goes to its tasks. -/
def State.chargeCluster (s : State) (cl share : Nat) : State :=
  let l := s.clusterTasks cl
  let p : List Nat := l.map (·.2)
  let w : List Nat := if p.sum = 0 then p.map fun _ => 1 else p
  (List.range l.length).foldl (fun s i => s.modTask (l.getD i (0, 0)).1 fun t => t.charge (splitWhole share w i)) s

/-- A die's increment goes to its clusters and its shared logic by the estimates `w`, sixteen and one; one unit is 15625/16384 µJ. -/
def State.chargeDie (s : State) (d units : Nat) (w : List Nat) : State :=
  (List.range 16).foldl (fun s c => s.chargeCluster (16 * d + c) (splitWhole (units * 15625) w c)) s

/-- ENERGY_SAMPLE, once in each microsecond of device time: its measured energies in pJ, in the order of the accumulators, and then the
estimates of each die's clusters and shared logic. -/
def State.energySample (s : State) (vals : List Nat) : State :=
  let old := s.energy
  if s.now < old.at_ + 1000 then s
  else
    let e := { old.advance (vals.take 21) with at_ := old.at_ + 1000 }
    let s := { s with energy := e }
    let s := (List.range 8).foldl (fun s d =>
      s.chargeDie d (vget e.acc (1 + d) 0#64 - vget old.acc (1 + d) 0#64).toNat ((vals.drop (21 + 17 * d)).take 17)) s
    { s with thr := s.thr.map fun e => (e.1, { e.2 with permits := 0 }) }

/-- ENERGY_SAMPLE (R220, R222). -/
def execEnergySample (vals : List Nat) (s : State) : Out := .next (s.energySample vals)

/-- What a read returns to its requester: a host port, the BMC or Agate (R445, R446). -/
def State.returns (s : State) (req : Nat) (l : List Byte) : State :=
  if req < 2 then s.setPort req { s.port req with rd := l } else { s with agate := { s.agate with rd := vset s.agate.rd (req - 2) l } }

/-- ENERGY_LOW_HALF_READ: bits [31:0] of accumulator `n`, its counter number less 0x400, are returned, and its high half goes to the
requester's latch (R221). -/
def execEnergyLowHalfRead (req n : Nat) (s : State) : Out :=
  .next (match (if s.boot.minimal then none else energyIndex n) with
    | none => s
    | some i =>
      let v := (vget s.energy.acc i 0#64).toNat
      { s with energy := { s.energy with hiLatch := vset s.energy.hiLatch req (BitVec.ofNat 32 (v / 2 ^ 32)) } }.returns req (leBytes 4 v))

/-- ENERGY_HIGH_HALF_READ: the latch is returned and stays, whichever accumulator is addressed (R221). -/
def execEnergyHighHalfRead (req n : Nat) (s : State) : Out :=
  .next (match (if s.boot.minimal then none else energyIndex n) with
    | none => s
    | some _ => s.returns req (leBytes 4 (vget s.energy.hiLatch req 0#32).toNat))

/-! ## Permits (R203, R215, R224 to R226) -/

/-- A refill rate from a row rate and the factor m: rounded down, and at least 1 (R203, R226). -/
def Sched.rate (x : Sched) (row : Nat) : Nat := max 1 (row * x.mNum / x.mDen)

/-- PERMIT_REFILL: at a boundary of the period of 64 cycles the rates are written and the counts advance; `hot` tells that the cluster draws
above 85 % of its rating, which halves its rates while a neighbour switches on. -/
def State.refill (s : State) (cl : Nat) (hot : Bool) : State :=
  let half := hot && (s.die (cl / 16)).switchingNear (cl % 16)
  if (s.cluster cl).cycles s.now < (s.cluster cl).permAt + 64 * 160 then s
  else s.modCluster cl fun c => { c with
    permAt := c.permAt + 64 * 160
    perm := c.perm.mapIdx fun i p =>
      let r := min 4095 (s.sched.rate (vget c.rowRate i 4095))
      let r := if half then max 1 (r / 2) else r
      { p with rate := r, count := min (p.count + r) p.cap } }

/-- PERMIT_REFILL (R225, R226). -/
def execPermitRefill (cl : Nat) (hot : Bool) (s : State) : Out := .next (s.refill cl hot)

/-! ## The fast loop (R203) -/

/-- Mean power in mW over `dt` ns, from an accumulator's advance in units. -/
def powerMw (units dt : Nat) : Nat := if dt = 0 then 0 else units * 10 ^ 12 / (2 ^ 20 * dt)

/-- m := Clamp(m * CapNow / Pmeasured, 1/16, 1), as a fraction in lowest terms; without measured power it is 1. -/
def Sched.newM (x : Sched) (cap units dt : Nat) : Nat × Nat :=
  let n := x.mNum * cap * (2 ^ 20 * dt)
  let d := x.mDen * (units * 10 ^ 12)
  if n ≥ d then (1, 1)
  else if 16 * n ≤ d then (1, 16)
  else
    let g := Nat.gcd n d
    (n / g, d / g)

/-- Has the curve in force a step between two device times (R198). -/
def Sched.stepIn (x : Sched) (lo hi : Nat) : Option Nat :=
  x.cur.bind fun c =>
    ((c.pts.zip (c.pts.drop 1)).filter fun p => p.1.1 == p.2.1 && decide (lo < c.from_ + p.1.1 * 1000 ∧ c.from_ + p.1.1 * 1000 ≤ hi)).getLast?.map
      fun p => c.from_ + p.1.1 * 1000

/-- EXEMPT after a step of the curve (R205). -/
def Sched.noteStep (x : Sched) (lo hi : Nat) : Sched :=
  match x.stepIn lo hi with
  | none => x
  | some u => { x with exempt := true, exemptUntil := max x.exemptUntil (u + 5000000) }

/-! ## Operating points (R199, R200, R204 step 3) -/

/-- The lowest F-code that a V-code permits. -/
def fcodeMin : Nat → Nat
  | 0 => 0
  | 1 => 1
  | 2 => 2
  | 3 => 3
  | 4 => 5
  | _ => 6

/-- The highest V-code that permits an F-code. -/
def vcodeMax (f : Nat) : Nat := ((List.range 6).filter fun v => decide (fcodeMin v ≤ f)).getLastD 0

/-- The chosen rows of the running tasks of a cluster. -/
def State.clusterRows (s : State) (cl : Nat) : List (Task × OpRow) :=
  (s.tasks.filter fun t => t.state == 1 && t.threads.any fun k => thrCluster k == cl).filterMap fun t => t.opRow.map fun r => (t, r)

/-- What a cluster is to run at: F-code, bias and row, by the row of lowest F-code; none without a task. -/
def State.clusterTarget (s : State) (cl : Nat) : Option (Nat × Int × Nat) :=
  (s.clusterRows cl).foldl (fun (a : Option (Nat × Int × Nat)) e =>
    match a with
    | none => some (e.2.fcode, e.2.bias, e.1.row)
    | some b => if e.2.fcode < b.1 then some (e.2.fcode, e.2.bias, e.1.row) else some b) none

/-- What a cluster is to run at with SLOW taken in, which may lower its F-code and bias below any row (R204 step 4). -/
def State.clusterGoal (s : State) (cl : Nat) : Option (Nat × Int × Nat) :=
  (s.clusterTarget cl).map fun x => match (s.cluster cl).slow with
    | some (f, b) => (max x.1 f, min x.2.1 b, x.2.2)
    | none => x

/-- Is a cluster slower than its row: below the row's F-code (R205). -/
def State.clusterLow (s : State) (cl : Nat) : Bool := (s.clusterTarget cl).any fun x => decide (x.1 < (s.cluster cl).fcode)

/-- Is some cluster slower than its row. -/
def State.anyLow (s : State) : Bool := (List.range 128).any s.clusterLow

/-- The V-code that a die is to run at: the highest that permits every cluster's F-code and is not above the VCODE of a chosen row; none
without a task. -/
def State.dieTarget (s : State) (d : Nat) : Option Nat :=
  let rows := (List.range 16).flatMap fun c => s.clusterRows (16 * d + c)
  let codes := rows.map (·.2.vcode) ++ (List.range 16).filterMap fun c => (s.clusterGoal (16 * d + c)).map fun x => vcodeMax x.1
  match codes with
  | [] => none
  | a :: r => some (r.foldl min a)

/-- Start the changes of a cluster that its die's V-code lets start: a hop to its F-code, a body-bias change. A cluster without a task
follows the V-code. -/
def State.retuneCluster (s : State) (d cl v : Nat) : State :=
  let die := s.die d
  let low := fcodeMin (max die.vcode (die.vTo.getD die.vcode))
  s.modCluster cl fun c =>
    let (f, b, row) := (s.clusterGoal cl).getD (max c.fcode (fcodeMin v), c.bias, c.oprow)
    let b := if (v < 2 ∨ die.vcode < 2 ∨ die.vTo.getD 2 < 2) ∧ b > 0 then 0 else b
    let c := { c with rowTo := some row }
    let c := if c.on ∧ f ≠ c.fcode ∧ f ≥ low ∧ c.hopTo = none then { c with hopTo := some f, hopAborted := false, hopAt := s.now } else c
    if c.on ∧ b ≠ c.bias then { c with biasTo := some b } else c

/-- Is a V-code permitted by the bias of every cluster of a die that is on, and by the bias to which it goes (R199). -/
def State.biasReady (s : State) (d v : Nat) : Bool :=
  (List.range 16).all fun c =>
    let x := s.cluster (16 * d + c)
    !x.on || decide (2 ≤ v) || decide (x.bias ≤ 0 ∧ x.biasTo.getD 0 ≤ 0)

/-- Do a die's clusters permit a step up to a V-code: no hop is under way, and every F-code and bias is permitted. A cluster that is off comes
on at codes that the V-code permits then. -/
def State.stepReady (s : State) (d v : Nat) : Bool :=
  s.biasReady d v && (List.range 16).all fun c =>
    let x := s.cluster (16 * d + c)
    !x.on || (x.hopTo.isNone && decide (fcodeMin v ≤ x.fcode))

/-- OPPOINT shows the row of each cluster of a die whose changes, and the die's own, are complete (R200). -/
def State.showRows (s : State) (d : Nat) : State :=
  if (s.die d).vTo.isSome then s
  else (List.range 16).foldl (fun s c => s.modCluster (16 * d + c) fun c =>
    if c.hopTo.isSome ∨ c.biasTo.isSome then c else { c with oprow := c.rowTo.getD c.oprow, rowTo := none }) s

/-- Start what changes of a die's operating point can start (R200): hops first, then a step of the V-code. -/
def State.retune (s : State) (d : Nat) : State :=
  if !s.dieLive d then s
  else
    match s.dieTarget d with
    | none => s
    | some v =>
      let s := (List.range 16).foldl (fun s c => s.retuneCluster d (16 * d + c) v) s
      let x := s.die d
      if x.vTo.isSome then s
      else if x.vcode < v ∧ s.stepReady d (x.vcode + 1) = true then s.setDie d { x with vTo := some (x.vcode + 1) }
      else if v < x.vcode ∧ s.biasReady d (x.vcode - 1) = true then s.setDie d { x with vTo := some (x.vcode - 1) }
      else s.showRows d

/-- VCODE_STEP_END (R200). -/
def execVcodeStepEnd (die : Nat) (s : State) : Out :=
  .next (match (s.die die).vTo with
    | none => s
    | some v => (s.modDie die fun x => { x with vcode := v, vTo := none }).retune die)

/-- FCODE_HOP_END (R200): 100 ns after the hop began, and not of a hop that a droop has aborted. -/
def execFcodeHopEnd (cl : Nat) (s : State) : Out :=
  let c := s.cluster cl
  .next (match c.hopTo with
    | none => s
    | some f => if c.hopAborted || decide (s.now < c.hopAt + 100) then s
      else
        let s := (s.setCluster cl { c.tick s.now with fcode := f, hopTo := none }).retune (cl / 16)
        s.noteBand s.anyLow)

/-- BIAS_SETTLE (R200). -/
def execBiasSettle (cl : Nat) (s : State) : Out :=
  let c := s.cluster cl
  .next (match c.biasTo with
    | none => s
    | some b => (s.setCluster cl { c with bias := b, biasTo := none }).retune (cl / 16))

/-! ## Droops (R468, R469) -/

/-- DROOP_TRIP: the clock of a cluster is stretched, from this trip on, and a hop under way is aborted. -/
def execDroopTrip (cl : Nat) (s : State) : Out :=
  .next (s.modCluster cl fun c =>
    let c := c.tick s.now
    { c with stretch := true, hopAborted := c.hopTo.isSome, tripAt := s.now, tripCyc := c.cyc })

/-- DROOP_RECOVERY: the clock returns to its F-code, 32 cycles of the stretched clock after the last trip. -/
def execDroopRecovery (cl : Nat) (s : State) : Out :=
  .next (s.modCluster cl fun c =>
    let c1 := c.tick s.now
    if c.tripCyc + 32 * 160 ≤ c1.cyc then { c1 with stretch := false } else c)

/-- HOP_RETRY: an aborted hop begins again, once the rail has stayed above the trip level for 1 µs. -/
def execHopRetry (cl : Nat) (s : State) : Out :=
  .next (s.modCluster cl fun c =>
    if c.hopAborted && !c.stretch && decide (c.tripAt + 1000 ≤ s.now) then { c with hopAborted := false, hopAt := s.now } else c)

/-! ## The fast loop runs (R203) -/

/-- FAST_LOOP, every 10 µs. -/
def State.fastLoop (s : State) : State :=
  let x := s.sched
  if s.now < x.fastAt + 10000 then s
  else
    let e := (vget s.energy.acc 0 0#64).toNat
    let units := (e + 2 ^ 64 - x.fastEnergy) % 2 ^ 64
    let x := x.noteStep x.fastAt s.now
    let m := x.newM (x.capNow s.now).1 units (s.now - x.fastAt)
    { s with sched := { x with mNum := m.1, mDen := m.2, fastAt := s.now, fastEnergy := e } }.noteBand s.anyLow

/-- FAST_LOOP (R203). -/
def execFastLoop (s : State) : Out := .next s.fastLoop

/-! ## The slow loop (R152, R166, R204, R205, R213) -/

/-- The row that step 1 takes: the one that OPREQ asks for, or the one of least TIME in the task's set. -/
def firstRow (t : Task) (rs : List OpRow) : Nat :=
  if t.opreq ≠ 0 then t.opreq - 1
  else
    (t.rows.foldl (fun (a : Option (Nat × Nat)) j =>
      match rowAt rs j, a with
      | none, a => a
      | some r, none => some (j, r.time)
      | some r, some (i, tm) => if r.time < tm then some (j, r.time) else some (i, tm)) none).elim t.row (·.1)

/-- Step 2: rows are lowered until the cap is met or no row is left, the task latest in EDF order first. -/
def State.lowerRows (s : State) (cap rest : Nat) : Nat → List (Task × List OpRow) → List (Task × List OpRow)
  | 0, l => l
  | fuel + 1, l =>
    if s.meetsCap l cap rest 0 then l
    else
      let order := (rankSort (l.map (·.1))).reverse
      let find (strict : Bool) : Option (Nat × Nat) := order.findSome? fun t =>
        (l.find? fun e => e.1.uid == t.uid).bind fun e => (s.lowerRow strict e.1 e.2).map fun j => (t.uid, j)
      match find true <|> find false with
      | none => l
      | some (u, j) => s.lowerRows cap rest fuel (l.map fun e => if e.1.uid = u then ({ e.1 with row := j }, e.2) else e)

/-- Mean powers of the period just ended, in mW, in the order of the accumulators. -/
def State.periodPower (s : State) : List Nat :=
  let dt := s.now - s.sched.slowAt
  (List.range 21).map fun i => powerMw (((vget s.energy.acc i 0#64).toNat + 2 ^ 64 - s.sched.slowEnergy.getD i 0) % 2 ^ 64) dt

/-- INBAND of the period just ended (R205), with what the monitor has taken down in it. -/
def State.bandOf (s : State) (mean : Nat) : Bool :=
  let cap := (s.sched.capNow s.now).1
  let tol := max (cap * 15) 20000000   -- µW: 1.5 % of the cap, or 20 W
  if (mean : Int) * 1000 - cap * 1000 > tol then s.sched.stopped
  else if (cap : Int) * 1000 - mean * 1000 > tol then s.sched.unheld
  else true

/-- A telemetry record (R166): how a die's V-code and its power share their four bytes is the model's. -/
def State.telemetry (s : State) (p : List Nat) : State :=
  match s.telem with
  | none => s
  | some (pa, n, seq) =>
    let x := s.sched
    let g := (List.range 4).foldl (fun a k => a + (vget x.grades k 0 % 4) * 4 ^ k) 0
    let dies := (List.range 8).flatMap fun d => leBytes 1 (s.die d).vcode ++ leBytes 3 (p.getD (1 + d) 0)
    let rec_ := leBytes 8 seq ++ leBytes 8 s.now ++ leBytes 4 (p.getD 0 0) ++ leBytes 4 (x.capNow s.now).1
      ++ leBytes 2 (g + 256 * b01 x.inband + 512 * b01 x.exempt) ++ leBytes 1 s.ring.speed ++ dies ++ leBytes 5 0
    { s.recordWrite (pa + 64 * (seq % n)) rec_ with telem := some (pa, n, seq + 1) }

/-- The speed that the slow loop gives the ring: held until a table is in force, under suspend and under PARK of every class; where SLOW
holds and the cap is not met otherwise, a free choice down to one eighth (R204, log 52). -/
def State.ringSpeed (s : State) (short : Bool) : Nat :=
  if s.ring.table.isNone || s.sched.suspended || (List.range 4).all fun k => vget s.sched.grades k 0 == 3 then 5
  else if short && (List.range 128).any s.slowCluster then (Config.slowChoice s.fresh 128).toNat % 5
  else 0

/-- Which of the means of step 4 the loop takes for a cluster under SLOW is a free choice: whether its rates are lowered, and how far its
F-code and bias are (R204, log 52). -/
def State.slowMeans (s : State) (cl : Nat) : Bool × Option (Nat × Int) :=
  let x := (Config.slowChoice s.fresh cl).toNat
  (bit x 0, if bit x 1 then some (bits x 4 2, max (-3) (sext 3 (bits x 7 5))) else none)

/-- Tasks held for a gated die: one that has waited a full period, with no live die able to take it, has its die switched on when no grade
SHED or PARK is in force (R213). -/
def State.wakeHeld (s : State) : State :=
  let ready := s.tasks.filter fun t => t.state == 0 && !s.dieLive t.die
  let wake := ready.filter fun t => s.sched.quiet && s.sched.held.any fun h => h.1 == t.uid && decide (h.2 + 1000000 ≤ s.now)
  let held := ready.map fun t => (t.uid, ((s.sched.held.find? fun h => h.1 == t.uid).map (·.2)).getD s.now)
  { s with sched := { s.sched with held := held, wake := wake.foldl (fun a t => a ||| (1#8 <<< t.die)) s.sched.wake } }

/-- The rows of every running task, the rates of the clusters under SLOW, and the ring's speed (R204). -/
def State.slowRows (s : State) (p : List Nat) : State :=
  let tasks := (s.tasks.filter fun t => t.state == 1).map fun t => ({ t with row := firstRow t t.opTab }, t.opTab)
  let rest := restPower p
  let cap := s.sched.capAhead (s.now + 1000000)
  let tasks := s.lowerRows cap rest ((tasks.map fun e => e.2.length).sum) tasks
  let s := tasks.foldl (fun s e => s.modTask e.1.uid fun t => { t with row := e.1.row }) s
  let fits (k : Nat) : Bool := s.meetsCap tasks cap rest k
  let sh := if fits 0 then none else some (((List.range 9).find? fits).getD 8)
  let s := (List.range 128).foldl (fun s c =>
    let (rates, codes) := s.slowMeans c
    let (r, slow) := match sh with
      | some k => if s.slowCluster c then (if rates then 256 / 2 ^ k else 4095, codes) else (4095, none)
      | none => (4095, none)
    s.modCluster c fun x => { x with rowRate := Vector.replicate 4 r, slow := slow }) s
  let s := (List.range 8).foldl (fun s d => s.retune d) s
  { s with ring := s.ring.ask (s.ringSpeed sh.isSome) }

/-- SLOW_LOOP, every 1 ms. -/
def State.slowLoop (s : State) : State :=
  let x := s.sched
  if s.now < x.slowAt + 1000000 then s
  else
    let p := s.periodPower
    let s := s.noteBand s.anyLow
    let s := if x.exemptUntil ≤ x.slowAt then { s with sched := { s.sched with inband := s.bandOf (p.getD 0 0) } } else s
    let s := ((s.telemetry p).slowRows p).refreshPend
    let s := (s.wakeHeld).rehome
    let s := { s with sched := { s.sched with unheld := true, stopped := true } }.noteBand s.anyLow
    { s with sched := { s.sched with slowAt := s.now, slowEnergy := s.energy.acc.toList.map (·.toNat), lastPower := p } }

/-- SLOW_LOOP (R204). -/
def execSlowLoop (s : State) : Out := .next s.slowLoop

/-! ## Voltage records (R59, R230) -/

/-- VOLTAGE_SAMPLE: the lowest of a die's sense points replaces MV and TIME when it is strictly below. -/
def execVoltageSample (die : Nat) (mvs : List Nat) (s : State) : Out :=
  .next (match mvs with
    | [] => s
    | a :: r =>
      let v := r.foldl min a
      s.modDie die fun d => if v < d.vminMv then { d with vminMv := v, vminTime := s.now % 2 ^ 48 } else d)

/-- VMIN_REARM (R59); minimal mode serves no such write (R477). -/
def execVminRearm (die : Nat) (s : State) : Out :=
  .next (if s.boot.minimal then s else s.modDie die fun d => { d with vminMv := 0xFFF, vminTime := 0 })

end Sys2Proof.Machine
end

