-- ==== Sys2Proof/Machine/Power.lean ====
section
/-! DEFINITION. Gating and switch-on of islands and stacks, the park list, and unplanned losses of power (R86, R87, R129, R213 to R217,
R437, R471). -/

namespace Sys2Proof.Machine

open Sys2Proof

/-! ## Gating a die (R86, R213) -/

/-- Is an event at least 2 ms after the last of its kind. -/
def apart (last : Option Nat) (now : Nat) : Bool :=
  match last with
  | none => true
  | some u => decide (u + 2000000 ≤ now)

/-- The tasks that run on a die. -/
def State.runsOn (s : State) (d : Nat) : Bool :=
  s.tasks.any fun t => t.die == d && (t.state == 1 || t.state == 7)

/-- May a die be gated now: its clusters are off, no task runs on it, no write-through, no held copy and no image is under way. -/
def State.canGate (s : State) (d : Nat) : Bool :=
  let x := s.die d
  x.present && x.on && ((List.range 16).all fun c => !(s.cluster (16 * d + c)).on) && x.waitOn == 0#16 && !s.runsOn d
    && apart s.sched.lastGate s.now && x.wts.isEmpty && x.imgs.isEmpty && x.llc.all fun e => !e.held

/-- Step 2 of R86: the dirty bytes of software-managed copies are written home; none while a home holds a write. -/
def State.writeBackAll (s : State) (d : Nat) : Option State :=
  (s.die d).llc.foldl (fun (a : Option State) e =>
    a.bind fun s =>
      if e.home || e.dirty == 0#64 then some s
      else (s.homeWrite e.line e.dat e.dirty).map fun s => if e.poison then s.setPoison e.line else s) (some s)

/-- Step 3 of R86: the version lines of the tasks that wait for the die become version records in its Onyx; those of a task whose image
lies in the park area went there with it, and those of a shed task went with its region (R209). -/
def State.versionsOut (s : State) (d : Nat) : State :=
  (s.tasks.filter fun t => t.die == d && t.parkRun.isNone && t.lines != []).foldl (fun s t => s.versOut d t) s

/-- Does a grade PARK or a suspend have dies without a running task gated (R207, R216). -/
def Sched.parks (x : Sched) : Bool := x.suspended || (List.range 4).any fun k => vget x.grades k 0 == 3

/-- The clusters of a die without a running task that hold no thread go off, so that the die can be gated (R207, R213, R216). -/
def State.idleOff (s : State) (d : Nat) : State :=
  if !s.sched.parks || s.runsOn d || !(s.die d).imgs.isEmpty then s
  else
    (List.range 16).foldl (fun s c =>
      let cl := 16 * d + c
      if (s.cluster cl).on && (List.range 8).all fun i => !(s.thread (8 * cl + i)).running then s.clusterOff cl else s) s

/-- The shared logic of a die goes off. -/
def Die.goesOff (x : Die) (now : Nat) : Die :=
  { x with on := false, llc := [], dirtyHome := [], walks := [], waitWalks := [], vTo := none, switchRound := none, waitOn := 0#16, offAt := now }

/-- DIE_GATE: a fully idle die is gated, and what waited for it is placed again. -/
def State.dieGate (s0 : State) (d : Nat) : State :=
  let s := s0.idleOff d
  if !s.canGate d then s
  else
    match s.writeBackAll d with
    | none => s
    | some s =>
      let s := (s.versionsOut d).modDie d fun x => x.goesOff s.now
      let s := s.modStack d fun x => { x with copied := false }
      (({ s with sched := { s.sched with lastGate := some s.now } }).rehome).noteBand s.anyLow

/-- DIE_GATE (R213). -/
def execDieGate (die : Nat) (s : State) : Out := .next (s.dieGate die)

/-! ## The park list and the stacks (R87, R214, R216) -/

/-- The entries of the park list whose range lies in a stack. -/
def State.parkEntries (s : State) (d : Nat) : List (Nat × Nat × Nat × Bool) :=
  s.sched.parkList.filter fun e => s.homeOf e.1 == .die d

/-- Copy a range of memory, as engine writes of 64 bytes. -/
def State.copyRange (s : State) (src dst n : Nat) : State :=
  (List.range (n / 64)).foldl (fun s i =>
    let s1 := s.engineWrite (dst + 64 * i) (lineBytes (s.homeLine ((src + 64 * i) / 64)))
    if s.isPoison ((src + 64 * i) / 64) then s1.setPoison ((dst + 64 * i) / 64) else s1) s

/-- PARK_LIST_COPY_DONE: the listed ranges of a gated die's stack are at their destinations; an entry with OFF switches the stack off. -/
def State.parkListCopy (s : State) (d : Nat) : State :=
  let x := s.stack d
  let l := s.parkEntries d
  if (s.die d).on || !x.present || x.st != 1 || x.copied || s.sched.suspended || l.isEmpty then s
  else
    let s := l.foldl (fun s e => s.copyRange e.1 e.2.2.1 e.2.1) s
    let off := l.any fun e => e.2.2.2
    s.modStack d fun x => { x with copied := true, st := if off then 0 else 1, offFlag := off, lastAccess := s.now }

/-- PARK_LIST_COPY_DONE (R214). -/
def execParkListCopyDone (die : Nat) (s : State) : Out := .next (s.parkListCopy die)

/-- May a stack enter retention: its die is gated, its copies are done and nothing has reached it for 1 ms; or the module is suspended with
every die gated. -/
def State.canRetain (s : State) (d : Nat) : Bool :=
  let x := s.stack d
  x.present && x.st == 1 &&
    (if s.sched.suspended then (List.range 8).all fun i => !(s.die i).on
     else (s.die d).present && !(s.die d).on && (x.copied || (s.parkEntries d).isEmpty) && decide (x.lastAccess + 1000000 ≤ s.now))

/-- HBM_RETENTION_ENTRY: under suspend, with every die gated and no stack left on, the LP tier goes to self-refresh. -/
def State.retain (s : State) (d : Nat) : State :=
  let s := if s.canRetain d then s.modStack d fun x => { x with st := 2 } else s
  let all := (List.range 8).all fun i => !(s.die i).on && (!(s.stack i).present || (s.stack i).st != 1)
  { s with lpRefresh := s.lpRefresh || (s.sched.suspended && all) }

/-- HBM_RETENTION_ENTRY (R214, R216). -/
def execHbmRetentionEntry (stack : Nat) (s : State) : Out := .next (s.retain stack)

/-- Every byte of a stack that has been off holds a value that nothing gives: each is free (R214). -/
def State.loseStack (s : State) (d : Nat) : State :=
  { s with
    mem := (List.range (2 ^ 37)).foldl (fun m i => memPut m (d * 2 ^ 37 + i) [Config.lostByte s.fresh (d * 2 ^ 37 + i)]) s.mem
    poison := s.poison.filter fun l => decide (l * 64 / 2 ^ 37 ≠ d) }

/-- A stack is powered again: one that was off holds its listed ranges alone, copied back. -/
def State.stackOn (s : State) (d : Nat) : State :=
  let x := s.stack d
  if !x.present then s
  else if x.offFlag then
    let s := (s.loseStack d).modStack d fun x => { x with st := 1, offFlag := false, copied := false, lastAccess := s.now }
    (s.parkEntries d).foldl (fun s e => s.copyRange e.2.2.1 e.1 e.2.1) s
  else s.modStack d fun x => { x with st := 1, copied := false, lastAccess := s.now }

/-! ## Switching on (R213, R215) -/

/-- The clusters of a die that the harvest record leaves present. -/
def State.presentClusters (s : State) (d : Nat) : BitVec 16 :=
  (List.range 16).foldl (fun (a : BitVec 16) c => if s.boot.harvestCl.getLsbD (16 * d + c) then a else a ||| (1#16 <<< c)) 0#16

/-- DIE_SWITCH_ON: a gated die that is to be switched on, at least 2 ms after the last one, with its stack, whose waiting reads perform (R87); its clusters follow.
None is switched on under suspend (R216). VMIN stays as it is: a switch-on of the shared logic is taken as no die reset (R59, log 142). -/
def State.dieOn (s : State) (d : Nat) : State :=
  let x := s.die d
  if !x.present || x.on || s.sched.suspended || !s.sched.wake.getLsbD d || !apart s.sched.lastOn s.now then s
  else
    let s := s.stackOn d
    let s := s.modDie d fun y => { y with on := true, waitOn := s.presentClusters d, switchRound := some 0, offAt := s.now, powerFault := false }
    let band := s.noteBand s.anyLow
    { band with sched := { band.sched with lastOn := some s.now, wake := s.sched.wake &&& ~~~(1#8 <<< d) } }.retryPreds

/-- DIE_SWITCH_ON (R213). -/
def execDieSwitchOn (die : Nat) (s : State) : Out := .next (s.dieOn die)

/-- A cluster island is on, at an F-code and a bias that its die's V-code permits (R16, R199, R200). -/
def State.clusterOn (s : State) (cl : Nat) : State :=
  let x := s.die (cl / 16)
  let v := max x.vcode (x.vTo.getD x.vcode)
  let s := s.modCluster cl fun c => { c.tick s.now with
    on := true, fcode := max c.fcode (fcodeMin v), bias := if x.vcode < 2 ∨ (x.vTo.getD 2) < 2 then min c.bias 0 else c.bias }
  (List.range 4).foldl (fun s i =>
    if s.boot.harvestCore.getLsbD (4 * cl + i) then s else s.modCore (4 * cl + i) fun c => { c with off := false }) s

/-- CLUSTER_SWITCH_ON_ROUND: the waiting clusters of the round go on, and the next round follows. -/
def State.switchRoundEnd (s : State) (d : Nat) : State :=
  let x := s.die d
  if !x.on || x.waitOn == 0#16 then s
  else
    let j := x.switchRound.getD 0
    let now := (List.range 16).filter fun c => x.waitOn.getLsbD c && switchRoundOf c == j
    let left := now.foldl (fun (a : BitVec 16) c => a &&& ~~~(1#16 <<< c)) x.waitOn
    let s := now.foldl (fun s c => s.clusterOn (16 * d + c)) s
    let s := s.modDie d fun y => { y with waitOn := left, switchRound := if left = 0#16 then none else some ((j + 1) % 4) }
    s.rehome

/-! ## Unplanned losses (R129, R437, R471) -/

/-- A task of a cluster that has lost its power: event 0x0D, and it is requeued to resume from its newest complete image. -/
def State.loseThreads (s : State) (cl : Nat) (t : Task) : State :=
  let unit := unitOfCore ((t.threads.find? fun k => thrCluster k == cl).elim (4 * cl) thrCore)
  let s := s.faultEvent t.die unit t.id t.cidx t.gen 0 ((s.free 54).toNat % 256)
  let s := (s.dropTiles t).cutJobs t
  let async := t.async ++ t.threads.flatMap fun k => (s.thread k).async.map fun c => ((s.thread k).gangPos, c)
  let s := s.releaseThreads t
  let s := s.modTask t.uid fun y => { y with threads := [], state := 0, waitAt := s.now, async := async, staged := y.staged.filter (·.pub) }
  s.refillReady t.die

/-- CLUSTER_POWER_LOSS: images being written are torn; the tasks on the cluster are requeued. -/
def State.clusterLoss (s : State) (cl : Nat) : State :=
  let s := s.cutImages (cl / 16) fun j => coreCluster j.core == cl
  let own := s.tasks.filter fun t => t.state == 1 && t.threads.any fun k => thrCluster k == cl
  (own.foldl (fun s t => s.loseThreads cl t) s).clusterOff cl

/-- CLUSTER_POWER_LOSS (R437). -/
def execClusterPowerLoss (cl : Nat) (s : State) : Out := .next (s.clusterLoss cl)

/-- Home lines that were newer in a lost LLC read as HBM4 holds them. -/
def State.loseDirty (s : State) (d : Nat) : State :=
  { s with mem := (s.die d).dirtyHome.foldl (fun m e => putMasked m (e.1 * 64) e.2 maskAll) s.mem }

/-- The loss of a die's shared logic and of all its clusters: every task with state there ends with a fault record, whose cause the spec
does not name. -/
def State.dieLoss (s : State) (d : Nat) : State :=
  let x := s.die d
  if !x.on then s
  else
    let s := (s.loseDirty d).cutImages d fun _ => true
    let s := s.modDie d fun y => { y.goesOff s.now with wts := [], imgs := [], mons := [], powerFault := true }
    let own := s.tasks.filter fun t => t.die == d && t.origins != [] && t.parkRun.isNone
    let s := own.foldl (fun s t => s.endTask t.uid 2 ((s.free 55).toNat % 256) 0 0 0) s
    let s := (List.range 16).foldl (fun s c => s.clusterOff (16 * d + c)) s
    s.rehome

/-- VCORE_FAULT: the core rail of a die has failed (R471). -/
def execVcoreFault (die : Nat) (s : State) : Out :=
  .next ({ s with boot := { s.boot with rails := s.boot.rails &&& ~~~(1#21 <<< (13 + die)) } }.dieLoss die)

/-- What a die keeps in Onyx through a loss of power. -/
def Die.kept (d : Die) : Die :=
  { Die.blank with
    wear := d.wear, spares := d.spares, worn := d.worn, bootCount := d.bootCount, bootReason := d.bootReason, minSvn := d.minSvn
    curveSeq := d.curveSeq, identity := d.identity, vrecs := d.vrecs }

/-- The images of the core areas, those of threads that hold no plane among them (R65, R92). -/
def State.onyxCores (s : State) : Tab Core :=
  let put (c : Core) (e : Nat × Image) : Core :=
    if (if e.1 = 0 then c.imgA else if e.1 = 1 then c.imgB else c.imgC).isSome then c else c.putImage e.1 e.2
  let base := s.cores.map fun e => (e.1, { Core.blank with imgA := e.2.imgA, imgB := e.2.imgB, imgC := e.2.imgC })
  ((s.tasks.filter fun t => t.parkRun.isNone).flatMap (·.kept)).foldl (fun (a : Tab Core) e =>
    if e.2.ref then a else Tab.put e.2.core (put (Tab.getD a e.2.core Core.blank) e) a) base

/-- The tasks with a complete image in Onyx (R437). -/
def State.onyxTasks (s : State) : List Nat :=
  ((s.onyxCores.flatMap fun e => [e.2.imgA, e.2.imgB, e.2.imgC].filterMap id).filterMap fun i =>
    if i.complete ∧ !i.ref then some i.id else none).eraseDups

/-- What Onyx holds of the module, which stays through a loss of power and through any reset (R65). -/
def State.onyx (s : State) : State :=
  { State.reset with
    dies := s.dies.map Die.kept, cores := s.onyxCores
    clusters := s.clusters.map fun e => (e.1, { Cluster.blank with accArea := e.2.accArea }) }

/-- MODULE_POWER_LOSS: the module is as at power-on, but for Onyx with the lock of its identity region (R95), module flash, and the tasks whose
images Onyx holds. -/
def State.moduleLoss (s : State) : State :=
  { s.onyx with
    agate := { Agate.blank with idLock := s.agate.idLock, refusals := s.agate.refusals }, parkedList := s.onyxTasks, latent := s.latent, turns := s.turns, uids := s.uids, fresh := s.fresh
    boot := { Boot.blank with flash := s.boot.flash, answers := s.boot.answers, trainBad := s.boot.trainBad } }

/-- MODULE_POWER_LOSS (R437). -/
def execModulePowerLoss (s : State) : Out := .next s.moduleLoss

end Sys2Proof.Machine
end

