-- ==== Sys2Proof/Machine/Requests.lean ====
section
/-! DEFINITION. The management requests of the request ring (R72, R150, R166, R183, R211, R214, R216, R217, R432, R434, R435, R447 to R449,
R451, R459, R461). An event acts only when the oldest request is its own; a request that its rule refuses changes nothing. -/

namespace Sys2Proof.Machine

open Sys2Proof

/-! ## The request ring (R447) -/

/-- Offset of the request ring in the window, of its head and of its tail. -/
def reqBase : Nat := 0x200000
def reqHead : Nat := 0x204000
def reqTail : Nat := 0x204008

/-- The 64 bytes of the oldest request. -/
def State.oldestReq (s : State) : Option (List Byte) :=
  let h := s.winNat reqHead 8 % 256
  if h = s.winNat reqTail 8 % 256 then none else some (s.winBytes (reqBase + 64 * h) 64)

/-- A request finishes: its STATUS is written, the head advances, MSI-X vector 1 is raised. -/
def State.reqFinish (s : State) (status : Nat) : State :=
  let h := s.winNat reqHead 8 % 256
  let s := s.winPut (reqBase + 64 * h + 1) (leBytes 1 status)
  let s := s.winPut reqHead (leBytes 8 ((h + 1) % 256))
  (s.msix 0 1).msix 1 1

/-- The oldest request is served when it carries the code `op`: `f` answers the state and the STATUS, or no STATUS while the request goes on.
A request with an unknown code or a reserved bit set is refused, whichever event finds it; a lap table so refused posts its event (R150). -/
def State.serve (s : State) (op : Nat) (f : List Byte → State → State × Option Nat) : State :=
  match s.oldestReq with
  | none => s
  | some l =>
    if !s.shoots.isEmpty then s
    else if field l 0 1 = 4 ∧ field l 4 4 ≠ 0 then (s.post 0x0B 8 0 (4 <<< 8 ||| 2)).reqFinish 1
    else if field l 0 1 = 0 ∨ field l 0 1 > 16 ∨ field l 4 4 ≠ 0 then s.reqFinish 1
    else if field l 0 1 ≠ op then s
    else
      match f l s with
      | (s1, none) => s1
      | (s1, some st) => s1.reqFinish st

/-- The context number of a request. -/
def reqCtx (l : List Byte) : Nat := field l 2 2

/-- A request is refused. -/
def refused (s : State) : State × Option Nat := (s, some 1)

/-- A request is done. -/
def done (s : State) : State × Option Nat := (s, some 0)

/-- Memory that a request names is read at home; poisoned bytes refuse the request, a device that is busy makes it wait. -/
def State.reqRead (s : State) (pa n : Nat) (f : List Byte → State → State × Option Nat) : State × Option Nat :=
  match s.tryHome (s.homeBytes pa n) with
  | .error s => (s, none)
  | .ok (s1, l, bad) => if bad then refused s else f l s1

/-! ## Ranges of the map -/

/-- A range that lies in one present HBM4 stack. -/
def State.inHbm (s : State) (pa n : Nat) : Bool :=
  match s.homeOf pa with
  | .die _ => decide (s.localPa pa % 2 ^ 37 + n ≤ 0x1800000000)
  | _ => false

/-- A range that lies in the LP tier. -/
def State.inLp (s : State) (pa n : Nat) : Bool := decide (2 ^ 40 ≤ s.localPa pa ∧ s.localPa pa + n ≤ 0x70000000000)

/-- A range that lies in the host window. -/
def State.inHost (s : State) (pa n : Nat) : Bool := decide (0x100000000000 ≤ s.localPa pa ∧ s.localPa pa + n ≤ 0x200000000000)

/-- A range of memory that a request's argument may name. -/
def State.inMemory (s : State) (pa n : Nat) : Bool := s.inHbm pa n || s.inLp pa n

/-! ## Contexts (R179, R447, R449) -/

/-- 0x01, the descriptor of R449. -/
def reqCreate (l : List Byte) (s : State) : State × Option Nat :=
  let w := field l 8 8
  let vdt : Vector (BitVec 8) 8 := Vector.ofFn fun v => BitVec.ofNat 8 (field l (16 + v.val) 1)
  let n := reqCtx l
  if bits w 63 52 ≠ 0 ∨ bits w 11 9 ≠ 0 ∨ field l 24 40 ≠ 0 ∨ (Tab.find n s.ctxs).isSome ∨ bits w 7 0 = 0xFF ∨ !s.vdtOk vdt then refused s
  else
    let c : Ctx := { root := bits w 51 12 * 4096, sys := bit w 8, tenant := bits w 7 0, vdt := vdt, pool := none }
    done { s with ctxs := Tab.put n c s.ctxs }

/-- CREATE_CONTEXT. -/
def execCreateContext (s : State) : Out := .next (s.serve 0x01 reqCreate)

/-- 0x02, refused while a task of the context runs: launch queues bound to the context are bound again by their next record (log 69). -/
def reqDestroy (l : List Byte) (s : State) : State × Option Nat :=
  let n := reqCtx l
  if (Tab.find n s.ctxs).isNone ∨ s.tasks.any (fun t => t.ctx == n && t.state == 1) then refused s
  else done { s with ctxs := Tab.del n s.ctxs, qBound := s.qBound.filter fun e => e.2 != n }

/-- DESTROY_CONTEXT. -/
def execDestroyContext (s : State) : Out := .next (s.serve 0x02 reqDestroy)

/-! ## Shootdown (R28, R51, R72) -/

/-- Does a page of `psz` at `va` overlap a range. -/
def pageHit (va psz lo hi : Nat) : Bool :=
  let n := pageBytes psz
  decide (va / n * n < hi ∧ lo < va / n * n + n)

/-- Does any of a list of ranges (base and length) overlap a range; the ranges of a handler table are whole pages, as INSTALL found them (R399). -/
def rangesHit (l : List (Nat × Nat)) (lo hi : Nat) : Bool := l.any fun r => decide (r.1 < hi ∧ lo < r.1 + r.2)

/-- A handler table is no longer valid when a shootdown touches a page of it or of its ranges (R51, R399). -/
def Thread.shotTable (t : Thread) (lo hi : Nat) : Thread :=
  if rangesHit t.handlerRanges lo hi then { t with handlerBase := t.handlerBase &&& ~~~1#64 } else t

/-- What a shootdown changes in a thread of the context: its handles, a pending settle of a page in the range misses, and its handler table. -/
def Thread.shot (t : Thread) (lo hi : Nat) : Thread :=
  let t := (t.onSnap fun n => n.revoke lo hi).mapSnaps fun _ n => n.revoke lo hi
  let settles := t.settles.map fun (x : Settle) =>
    match x.hit with
    | some (_, psz, _) => if pageHit x.va psz lo hi then { x with hit := none } else x
    | none => x
  { t with settles := settles }.shotTable lo hi

/-- An image keeps its thread's handler table in the same way: its handles are walked again at a restore, but its HANDLER_BASE comes back as it
stands. The spec does not say whether a shootdown reaches images; it does here (log 135). -/
def Image.shot (lo hi : Nat) (i : Image) : Image := { i with t := i.t.map fun t => t.shotTable lo hi }

/-- The threads of a context. -/
def State.ctxThreads (s : State) (ctx : Nat) : List Nat := (s.tasks.filter fun t => t.ctx == ctx).flatMap (·.threads)

/-- The images of a context's tasks: those kept with the task, in the areas of the cores, and being written. -/
def State.shootImages (s : State) (ctx lo hi : Nat) : State :=
  let own (i : Image) : Bool := ((s.taskOf i.task).map fun t => t.ctx == ctx).getD false
  let f (i : Image) : Image := if own i then i.shot lo hi else i
  { s with
    tasks := s.tasks.map fun t =>
      if t.ctx = ctx then { t with saved := t.saved.map (·.shot lo hi), origins := t.origins.map (·.shot lo hi), kept := t.kept.map fun e => (e.1, e.2.shot lo hi) }
      else t
    cores := Tab.mapVal (fun c => { c with imgA := c.imgA.map f, imgB := c.imgB.map f, imgC := c.imgC.map f }) s.cores
    dies := s.dies.map fun (d : Die) => ({ d with imgs := d.imgs.map fun (j : ImgJob) => ({ j with img := f j.img } : ImgJob) } : Die) }

/-- TLB entries of a context that overlap a range are dropped. -/
def State.shootTlbs (s : State) (ctx lo hi : Nat) : State :=
  let keep (e : TlbE) : Bool := !(e.ctx == ctx && pageHit e.va e.psz lo hi)
  { s with
    cores := Tab.mapVal (fun (c : Core) => ({ c with tlb := c.tlb.filter keep } : Core)) s.cores
    clusters := Tab.mapVal (fun (c : Cluster) => ({ c with tlb2 := c.tlb2.filter keep } : Cluster)) s.clusters }

/-- Words of a thread that have passed their check and not performed: those that have issued, and those that wait for memory (R72). -/
def State.underWay (s : State) (k : Nat) : List (Nat × Nat) :=
  let t := s.thread k
  (t.flights.map fun f => (k, f.seq)) ++ (t.ctlAcc.map fun a => (k, a.seq)) ++ t.passed.map fun p => (k, p.seq)

/-- 0x03, steps 1 and 2: what has passed its check before is then waited for. An atomic that waits for its peer goes first.
Images off every plane are reached too, on which the spec is silent (R51, log 135). -/
def reqShootdown (l : List Byte) (s : State) : State × Option Nat :=
  let n := reqCtx l
  let lo := field l 8 8
  let hi := lo + field l 16 8
  let thrs := s.ctxThreads n
  if (Tab.find n s.ctxs).isNone then refused s
  else if s.peers.any fun p => p.kind == 2 && thrs.contains p.thr then (s, none)
  else
    let s := s.shootTlbs n lo hi
    let s := (thrs.foldl (fun s k => s.modThread k fun t => t.shot lo hi) s).shootImages n lo hi
    let own (uid : Nat) : Bool := ((s.taskOf uid).map fun t => t.ctx == n).getD false
    let s : State := { s with
      copies := s.copies.map fun (c : Copy) => if own c.task then { c with shoot := true } else c
      shoots := [Shoot.mk n lo hi (thrs.flatMap s.underWay)] }
    (s, none)

/-- SHOOTDOWN. -/
def execShootdown (s : State) : Out := .next (s.serve 0x03 reqShootdown)

/-- SHOOTDOWN_COMPLETION: everything that passed its check before the shootdown has performed. -/
def State.shootDone (s : State) : State :=
  match s.shoots with
  | [] => s
  | x :: _ =>
    if x.waitFlights.any (fun f => (s.underWay f.1).contains f) || s.copies.any (·.shoot) then s
    else { s with shoots := [] }.reqFinish 0

/-- SHOOTDOWN_COMPLETION (R72). -/
def execShootdownCompletion (s : State) : Out := .next s.shootDone

/-! ## The lap table (R149, R150) -/

/-- A lap-table entry from its 16 bytes, and whether a reserved bit is set. -/
def LapEntry.of (l : List Byte) : LapEntry × Bool :=
  let x := leNat l
  ({ layer := bits x 127 112, tile := bits x 111 96, fmt := bits x 95 92, kind := bits x 91 91, nflit := bits x 90 83, pa := bits x 51 9 * 512 },
    bits x 82 52 != 0 || bits x 8 0 != 0)

/-- The payload flits that FMT and KIND ask for: 32 for every scale tile, FP32 ones among them (R242, R362); none for a format that no tile has. -/
def payloadFlits (kind fmt : Nat) : Option Nat :=
  if fmt > 8 then none
  else if kind = 1 then some 32
  else if fmt = 0 then none
  else if fmt = 1 ∨ fmt = 2 then some 128
  else if fmt = 6 ∨ fmt = 8 then some 32
  else some 64

/-- The reason for which an entry is refused, 0 for none. -/
def State.lapReason (s : State) (last : Nat) (seen : List (Nat × Nat × Nat)) (e : LapEntry) (res : Bool) : Nat :=
  if e.layer < last then 1
  else if payloadFlits e.kind e.fmt ≠ some e.nflit then 2
  else if !s.inHbm e.pa e.bytes then 3
  else if res then 4
  else if seen.contains (e.layer, e.kind, e.tile) then 5
  else 0

/-- The entries of a table; the index and the reason of the first one that fails. -/
def State.readLap (s : State) : List Byte → Nat → Nat → Nat → List LapEntry → Except (Nat × Nat) (List LapEntry)
  | _, _, 0, _, acc => .ok acc.reverse
  | l, i, n + 1, last, acc =>
    let (e, res) := LapEntry.of (l.take 16)
    match s.lapReason last (acc.map fun x => (x.layer, x.kind, x.tile)) e res with
    | 0 => s.readLap (l.drop 16) (i + 1) n e.layer (e :: acc)
    | r => .error (i, r)

/-- A refused table posts event 0x0B. -/
def State.lapRefused (s : State) (index reason : Nat) : State × Option Nat :=
  refused (s.post 0x0B 8 0 (index <<< 32 ||| (reason % 256) <<< 8 ||| 2))

/-- An accepted table waits for the next lap boundary; with none in force it takes force at once, with LAP 0. -/
def State.lapAccept (s : State) (t : List LapEntry) : State :=
  match s.ring.table with
  | some _ => { s with ring := { s.ring with waiting := some t } }.post 0x0B 8 0 0
  | none =>
    let s := { s with ring := { s.ring with
      lap := 0, table := some t, waiting := none, lanes := Vector.replicate 8 0, lapStart := s.now, opened := [] } }
    (s.mapSlots fun _ b => if b.st = 1 then { b with lapArmed := 0 } else b).lapForce

/-- 0x04. -/
def reqLap (l : List Byte) (s : State) : State × Option Nat :=
  let pa := field l 8 8
  let unread := (s.free 57).toNat
  if !s.inHbm pa 64 then s.lapRefused 0 unread
  else
    match s.tryHome (s.homeBytes pa 64) with
    | .error s => (s, none)
    | .ok (_, _, true) => s.lapRefused 0 unread
    | .ok (s, h, false) =>
      let n := leNat h % 2 ^ 20
      if leNat h / 2 ^ 20 ≠ 0 then s.lapRefused 0 4
      else if n = 0 ∨ !s.inHbm (pa + 64) (16 * n) then s.lapRefused 0 unread
      else
        match s.tryHome (s.homeBytes (pa + 64) (16 * n)) with
        | .error s => (s, none)
        | .ok (_, _, true) => s.lapRefused 0 unread
        | .ok (s, b, false) =>
          match s.readLap b 0 n 0 [] with
          | .error (i, r) => s.lapRefused i r
          | .ok t => done (s.lapAccept t)

/-- INSTALL_LAP_TABLE (R150). -/
def execInstallLapTable (s : State) : Out := .next (s.serve 0x04 reqLap)

/-! ## The park list, the park area, the telemetry buffer (R166, R211, R214) -/

/-- An entry of a park list from its 32 bytes: source, bytes, destination, OFF (the layout within the entry is the model's). -/
def parkEntry (l : List Byte) : Nat × Nat × Nat × Bool := (field l 0 8, field l 8 8, field l 16 8, bit (field l 24 8) 0)

/-- May an entry stand in a park list: both ends and the length 4 KiB aligned, in HBM4 and in the LP tier, no reserved bit. -/
def State.parkEntryOk (s : State) (l : List Byte) : Bool :=
  let e := parkEntry l
  e.1 % 4096 == 0 && e.2.1 % 4096 == 0 && e.2.2.1 % 4096 == 0 && s.inHbm e.1 e.2.1 && s.inLp e.2.2.1 e.2.1 && field l 24 8 / 2 == 0

/-- 0x05. -/
def reqParkList (l : List Byte) (s : State) : State × Option Nat :=
  let pa := field l 8 8
  let n := field l 16 8
  if n > 1024 ∨ !s.inMemory pa (32 * n) then refused s
  else s.reqRead pa (32 * n) fun b s =>
    let es := (List.range n).map fun i => (b.drop (32 * i)).take 32
    if es.all s.parkEntryOk then done { s with sched := { s.sched with parkList := es.map parkEntry } } else refused s

/-- PARK_LIST (R214). -/
def execParkList (s : State) : Out := .next (s.serve 0x05 reqParkList)

/-- 0x06. -/
def reqTelemetry (l : List Byte) (s : State) : State × Option Nat :=
  let pa := field l 8 8
  let n := field l 16 8
  if n < 256 ∨ n > 1048576 ∨ !(s.inHbm pa (64 * n) || s.inHost pa (64 * n)) then refused s
  else done { s with telem := some (pa, n, 0) }

/-- TELEMETRY_BUFFER (R166). -/
def execTelemetryBuffer (s : State) : Out := .next (s.serve 0x06 reqTelemetry)

/-- 0x10: a new area takes effect only while no run of the old one is in use. -/
def reqParkArea (l : List Byte) (s : State) : State × Option Nat :=
  let pa := field l 8 8
  let n := field l 16 8
  if n % 4096 ≠ 0 ∨ (n ≠ 0 ∧ (pa % 4096 ≠ 0 ∨ !s.inLp pa n)) then refused s
  else if s.tasks.any fun t => t.parkRun.isSome then (s, some 2)
  else done { s with sched := { s.sched with parkArea := if n = 0 then none else some (pa, n) } }

/-- REGISTER_PARK_AREA (R211). -/
def execRegisterParkArea (s : State) : Out := .next (s.serve 0x10 reqParkArea)

/-! ## Slot tables, ownership, save pools (R183, R435, R448) -/

/-- A slot table waits for the port's next round (`copySlotDone`, `portUse`, `leaseGrant`). The number of a stack or a cluster that the
harvest record marks absent is refused (R20). -/
def State.putSlotTable (s : State) (kind index : Nat) (tab : List Nat) : Option State :=
  if kind = 0 ∧ index < 2 then some { s with slotNext := Tab.put index tab s.slotNext }
  else if (kind = 1 ∨ kind = 2) ∧ index < 8 ∧ (s.stack index).present = true then some { s with slotNext := Tab.put (16 * kind + index) tab s.slotNext }
  else if kind = 3 ∧ index < 128 ∧ (s.die (index / 16)).present = true ∧ s.boot.harvestCl.getLsbD index = false then some (s.modCluster index fun c => { c with leaseNext := some tab })
  else none

/-- 0x07. -/
def reqSlotTable (l : List Byte) (s : State) : State × Option Nat :=
  let pa := field l 16 8
  if (s.putSlotTable (field l 8 1) (field l 9 1) []).isNone ∨ !s.inMemory pa 64 then refused s
  else s.reqRead pa 64 fun b s =>
    match s.putSlotTable (field l 8 1) (field l 9 1) (b.map (·.toNat)) with
    | none => refused s
    | some s => done s

/-- WRITE_SLOT_TABLE (R183). -/
def execWriteSlotTable (s : State) : Out := .next (s.serve 0x07 reqSlotTable)

/-- 0x08. -/
def reqSavePool (l : List Byte) (s : State) : State × Option Nat :=
  let n := reqCtx l
  let pa := field l 8 8
  let len := field l 16 8
  match Tab.find n s.ctxs with
  | none => refused s
  | some c => if !s.inHbm pa len then refused s else done { s with ctxs := Tab.put n { c with pool := some (pa, len) } s.ctxs }

/-- SAVE_POOL (R435). -/
def execSavePool (s : State) : Out := .next (s.serve 0x08 reqSavePool)

/-- The new owners of all cores, each in force once the core has no running thread of another tenant. -/
def State.setOwners (s : State) (b : List Byte) : State :=
  (List.range 512).foldl (fun s k => (s.modCore k fun c => { c with pendOwner := some (field b k 1) }).applyOwner k) s

/-- 0x0F. -/
def reqOwners (l : List Byte) (s : State) : State × Option Nat :=
  let pa := field l 8 8
  if !s.inMemory pa 512 then refused s else s.reqRead pa 512 fun b s => done (s.setOwners b)

/-- WRITE_CORE_OWNERSHIP (R448). -/
def execWriteCoreOwnership (s : State) : Out := .next (s.serve 0x0F reqOwners)

/-! ## Tasks and cores (R432, R434) -/

/-- 0x09. -/
def reqPreempt (l : List Byte) (s : State) : State × Option Nat :=
  match s.tasks.find? fun t => t.id == field l 8 5 && t.state == 1 with
  | none => refused s
  | some t => done (s.askPreempt t)

/-- PRE_EMPT_TASK (R434). -/
def execPreEmptTask (s : State) : Out := .next (s.serve 0x09 reqPreempt)

/-- Is a number that of a core the harvest record leaves present (R20). -/
def State.corePresent (s : State) (k : Nat) : Bool :=
  decide (k < 512) && (s.die (k / 64)).present && !s.boot.harvestCl.getLsbD (coreCluster k) && !s.boot.harvestCore.getLsbD k

/-- 0x0A. A vacant number names no core and is refused. -/
def reqClearDegraded (l : List Byte) (s : State) : State × Option Nat :=
  let k := field l 8 8
  if !s.corePresent k then refused s else done (s.modCore k fun c => { c with degraded := false })

/-- CLEAR_DEGRADED_CORE (R432). -/
def execClearDegradedCore (s : State) : Out := .next (s.serve 0x0A reqClearDegraded)

/-! ## Snapshot domains (R191, R451) -/

/-- A page of a domain is restored: its working frame goes back to POOL when it is not the snapshot's, and its entry names the snapshot frame
with a stale EPOCH. -/
def restorePage (r : SnapRoot) (m : List Host.Cell) (i : Nat) : List Host.Cell :=
  let f := (mapEntry m (r.mapOf true) i).2
  let sf := (mapEntry m (r.mapOf false) i).2
  let m := if f = sf then m else poolPush m r.pool f
  putMapEntry m (r.mapOf true) i ((r.epoch + 2 ^ 24 - 1) % 2 ^ 24) sf

/-- Lines of a domain held in the caches. -/
def State.snapCached (s : State) (root : Nat) : List Nat :=
  let held := (s.dies.toList.flatMap fun d => d.llc.map (·.line)) ++ s.clusters.flatMap fun c => c.2.l1.map (·.line)
  (held.map s.localLine).eraseDups.filter fun l => ((s.snapPage (s.localPa (l * 64))).map fun x => x.1 == root).getD false

/-- 0x0B, in one step: writes to the domain come before it or after it. The copies of the domain's lines stand and hold the snapshot's
bytes from then on (R441, R451). -/
def reqRestore (l : List Byte) (s : State) : State × Option Nat :=
  let root := s.localPa (field l 8 8)
  if root % 64 ≠ 0 ∨ !s.inMemory root 64 then refused s
  else s.reqRead root 64 fun b s =>
    if snapReserved (leNat b) then refused s
    else
      let r := readSnapRoot s.mem root
      let frames := (List.range r.npages).map fun i => (mapEntry s.mem (r.mapOf true) i).2
      let s := if s.snapRoots.any fun x => x.1 == root then s else { s with snapRoots := s.snapRoots ++ [(root, frames)] }
      let lines := s.snapCached root
      let s := { s with mem := (List.range r.npages).foldl (restorePage r) s.mem }
      done ((List.range 8).foldl (fun s d => s.renewAll d true (fun _ => true) fun x => lines.contains (s.localLine x)) s)

/-- RESTORE_SNAPSHOT_DOMAIN (R451). -/
def execRestoreSnapshotDomain (s : State) : Out := .next (s.serve 0x0B reqRestore)

/-! ## Communicators and collectives (R457, R459, R461) -/

/-- 0x0C: a record names its map of ranks, which is read with it. -/
def reqComm (l : List Byte) (s : State) : State × Option Nat :=
  let pa := field l 8 8
  if !s.inHbm pa 64 then refused s
  else s.reqRead pa 64 fun b s =>
    let n := field b 4 2
    let map := field b 8 8
    if n < 2 ∨ n > 4096 ∨ field b 6 2 ≥ n ∨ !(s.ctxs.any fun c => c.2.tenant == field b 2 1) ∨ !s.inMemory map (8 * n) then refused s
    else s.reqRead map (8 * n) fun m s =>
      let c : Comm := {
        num := field b 0 2, tenant := field b 2 1, n := n, rank := field b 6 2, map := (List.range n).map fun i => field m (8 * i) 8
        subs := 0 }
      done { s with comms := (s.comms.filter fun x => x.num != c.num) ++ [c] }

/-- SET_UP_COMMUNICATOR (R459). -/
def execSetUpCommunicator (s : State) : Out := .next (s.serve 0x0C reqComm)

/-- Bytes of an element of a collective (R54, R413). -/
def Coll.esize (c : Coll) : Nat := if c.fmt = 0 then 4 else 2

/-- The physical address of a virtual address of a collective, in the context of the task that submitted it. -/
def State.collPa (s : State) (c : Coll) (va : Nat) : Option Nat := (s.taskOf c.task).bind fun t => s.ctxPa t.ctx va

/-- The addition of a collective's count to its barrier object sets out, with its flags (R122, R124). -/
def State.collCount (s : State) (c : Coll) : State :=
  match s.collPa c c.bar with
  | none => (s.mergeFlags c.task c.pos c.flags).asyncDone c.task
  | some pa => { s with barAdds := s.barAdds ++ [BarAdd.mk pa (c.count * c.esize) (some c.task) c.pos c.flags] }

/-- Event 0x12. -/
def State.collEvent (s : State) (c : Coll) (rank kind : Nat) : State :=
  s.post 0x12 9 0 ((c.comm % 65536) <<< 112 ||| (rank % 4096) <<< 96 ||| kind <<< 64 ||| c.desc % 2 ^ 52)

/-- Bytes of one chunk (R460). -/
def chunkBytes : Nat := 65536

/-- Chunks whose output is written. -/
def Coll.chunks (c : Coll) : Nat := (c.done.filter fun x => x.2 == 1).length

/-- Where the bytes `lo` to `lo + n − 1` of rank `dest`'s output ask for bytes of rank `src`'s input: offset and length (R458). -/
def Coll.share (c : Coll) (m : Comm) (src dest lo n : Nat) : Nat × Nat :=
  if c.op < 3 then (lo, n)
  else if c.op = 3 then (dest * c.count * c.esize + lo, n)
  else if c.op = 5 then if src = c.root then (lo, n) else (0, 0)
  else
    let per := c.count / m.n * c.esize
    let x := max lo (src * per)
    (x - src * per, min (lo + n) (src * per + per) - x)

/-- The bytes of the output that the next chunk writes. -/
def Coll.chunk (c : Coll) : Nat × Nat := (c.chunks * chunkBytes, min chunkBytes (c.count * c.esize - c.chunks * chunkBytes))

/-- Bytes of a rank's input as they have been received; none when one is missing. -/
def Coll.received (c : Coll) (rank ofs n : Nat) : Option (List Byte) :=
  (List.range n).foldr (fun i acc =>
    let o := ofs + i
    match c.inputs.find? fun x => x.1 == rank && decide (x.2.1 ≤ o ∧ o < x.2.1 + x.2.2.length) with
    | none => none
    | some x => acc.map fun l => x.2.2.getD (o - x.2.1) 0#8 :: l) (some [])

/-- Does another rank still owe its header, or input of the next chunk (R458, R461). -/
def Coll.owes (c : Coll) (m : Comm) (rank : Nat) : Bool :=
  let x := c.share m rank m.rank c.chunk.1 c.chunk.2
  decide (rank < m.n) && rank != m.rank && (!(c.heads.any fun h => h.1 == rank) || (c.received rank x.1 x.2).isNone)

/-- The communicator of a collective. -/
def State.commOf (s : State) (c : Coll) : Option Comm := s.comms.find? fun x => x.num == c.comm

/-- The silent rank of a collective: the one that event 0x12 has named, or the first one that owes something. -/
def State.silentRank (s : State) (c : Coll) : Nat :=
  c.stalled.getD (((s.commOf c).bind fun m => (List.range m.n).find? (c.owes m)).getD 0)

/-- Bytes of free values, from draw `k` on. -/
def State.freeBytes (s : State) (k : Nat) : Nat → List Byte
  | 0 => []
  | n + 1 => (s.free k).truncate 8 :: s.freeBytes (k + 1) n

/-- Write bytes at a virtual address of a collective, page by page; a byte with no translation is not written. -/
def State.collWrite (s : State) (c : Coll) (va : Nat) (l : List Byte) : State :=
  (vaParts va l.length).foldl (fun s p =>
    match s.collPa c p.1 with
    | none => s
    | some pa => s.engineWrite pa ((l.drop (p.1 - va)).take p.2)) s

/-- 0x0D: the elements that are not finished hold unspecified values. -/
def reqCancel (l : List Byte) (s : State) : State × Option Nat :=
  match s.colls.find? fun c => c.desc == field l 8 8 with
  | none => refused s
  | some c =>
    let from_ := c.chunks * chunkBytes
    let n := c.count * c.esize - from_
    let s := s.collWrite c (c.dst + from_) (s.freeBytes 64 n)
    let s := { s with fresh := s.fresh + n, colls := s.colls.filter fun x => x != c }
    done ((s.collCount c).collEvent c (s.silentRank c) 1)

/-- CANCEL_COLLECTIVE (R461). -/
def execCancelCollective (s : State) : Out := .next (s.serve 0x0D reqCancel)

/-! ## Suspend and resume (R216, R217) -/

/-- 0x0E with byte 8 = 0. -/
def reqSuspend (l : List Byte) (s : State) : State × Option Nat :=
  match field l 8 1 with
  | 0 => done s.suspend
  | 1 => (s, none)
  | _ => refused s

/-- SUSPEND_REQUEST (R216). -/
def execSuspendRequest (s : State) : Out := .next (s.serve 0x0E reqSuspend)

/-- 0x0E with byte 8 = 1. -/
def reqResume (l : List Byte) (s : State) : State × Option Nat :=
  match field l 8 1 with
  | 0 => (s, none)
  | 1 => done s.resume
  | _ => refused s

/-- RESUME_REQUEST (R217). -/
def execResumeRequest (s : State) : Out := .next (s.serve 0x0E reqResume)

end Sys2Proof.Machine
end

