-- ==== Sys2Proof/Machine/EvErr.lean ====
section
/-! DEFINITION. Events of the error machinery: SECDED freezes, bank rebuilds, HBM4 re-reads, lane swaps and scrub, error counters, the
event queue's head, Onyx block moves, and the copy engines (R88, R89, R98, R99, R165, R183, R231, R232, R342). -/

namespace Sys2Proof.Machine

open Sys2Proof

/-! ## Freezes and rebuilds (R98, R99) -/

/-- SECDED_FREEZE_END (R99): one nine-cycle freeze of a core ends. -/
def execSecdedFreezeEnd (core : Nat) (s : State) : Out := .next (s.modCore core fun c => { c with freezes := c.freezes - 1 })

/-- A bank's contents are rebuilt into check bank 3: event 0x03 with bit 96. -/
def State.rebuildEnd (s : State) (str unit : Nat) : State :=
  match s.banks.find? fun b => b.str == str && b.unit == unit && b.rebuilding with
  | none => s
  | some b =>
    let s := { s with banks := s.banks.map fun (x : Bank) => if x = b then { x with rebuilding := false } else x }
    let (src, u) := eventPlace str unit
    s.post 0x03 src u (str <<< 120 ||| (b.bank % 256) <<< 104 ||| 1 <<< 96)

/-- BANK_REBUILD_END (R98). -/
def execBankRebuildEnd (str unit : Nat) (s : State) : Out := .next (s.rebuildEnd str unit)

/-! ## HBM4 transfers (R88, R89) -/

/-- A burst that stays unreadable is delivered poisoned: ACTION 2, and event 0x04. -/
def State.burstPoison (s : State) (b : Burst) : State :=
  ((s.xferLog b.stack 2 b.pch b.beat b.lane b.tries).setPoison (b.pa / 64)).postPoison (10 + b.stack) b.pch 11 (b.pa / 32 * 32)

/-- A re-read of a burst ends: good, bad and read again, or bad for the third time, which swaps the spare lane in when it is unused. -/
def State.reread (s : State) (k : Nat) (ok : Bool) : State :=
  match s.bursts[k]? with
  | none => s
  | some b0 =>
    if b0.swapped then s
    else
      let b := { b0 with tries := b0.tries + 1 }
      let gone := { s with bursts := s.bursts.eraseIdx k }
      if ok then gone.xferLog b.stack 0 b.pch b.beat b.lane b.tries
      else if b.tries < 3 then { s with bursts := s.bursts.set k b }
      else
        let x := s.stack b.stack
        if x.spare.getLsbD b.pch then gone.burstPoison b
        else
          ({ s with bursts := s.bursts.set k { b with swapped := true } }).setStack b.stack { x with spare := x.spare ||| (1#64 <<< b.pch) }

/-- HBM_PARITY_REREAD (R88). -/
def execHbmParityReread (k : Nat) (ok : Bool) (s : State) : Out := .next (s.reread k ok)

/-- The read after a lane swap. -/
def State.laneSwapRead (s : State) (k : Nat) (ok : Bool) : State :=
  match s.bursts[k]? with
  | none => s
  | some b =>
    if !b.swapped then s
    else
      let s := { s with bursts := s.bursts.eraseIdx k }
      if ok then s.xferLog b.stack 1 b.pch b.beat b.lane b.tries else s.burstPoison b

/-- HBM_LANE_SWAP_RESUME (R88). -/
def execHbmLaneSwapResume (k : Nat) (ok : Bool) (s : State) : Out := .next (s.laneSwapRead k ok)

/-- HBM_SCRUB (R89): a cell-log record of CLASS 2. -/
def execHbmScrub (stack pch bank row col : Nat) (s : State) : Out :=
  .next (if (s.stack stack).present && (s.stack stack).st == 1 then
      s.cellLog stack 2 pch ((bank % 16) <<< 23 ||| (row % 2 ^ 18) <<< 5 ||| col % 32)
    else s)

/-! ## Error counters and the event queue (R165, R231) -/

/-- Structures under the symbol code and the number of each (R97, R164). -/
def symStructures : List (Nat × Nat) := [(0, 512), (1, 128), (2, 128), (5, 128)]

/-- The counters in the order of the window (log 12). -/
def errOrder : List Nat :=
  [errFrame] ++ (List.range 10).map errPoison ++ (List.range 8).map errCellCorr ++ (List.range 8).map errCellUnc ++ (List.range 8).map errXfer
    ++ (List.range 8).map errLane ++ (List.range 2).map errLpt ++ (List.range 512).map errSecded
    ++ (symStructures.flatMap fun p => (List.range p.2).map (errSym p.1)) ++ symStructures.flatMap fun p => (List.range p.2).map (errBank p.1)

/-- A window write of 0 clears a counter; any other value is ignored. -/
def State.clearErr (s : State) (idx val : Nat) : State :=
  match (if val = 0 then errOrder[idx]? else none) with
  | none => s
  | some i => { s with errs := Tab.del i s.errs }

/-- ERROR_COUNTER_CLEAR (R231). -/
def execErrorCounterClear (idx : Nat) (val : BitVec 64) (s : State) : Out := .next (if s.boot.minimal then s else s.clearErr idx val.toNat)

/-- A write of the event queue's head: a value from the head to the tail sets it. -/
def EvQueue.setHead (q : EvQueue) (v : W32) : EvQueue :=
  if (v - q.head).toNat ≤ (q.tail - q.head).toNat then { q with head := v } else q

/-- EVENT_QUEUE_HEAD_WRITE (R165). -/
def execEventQueueHeadWrite (val : BitVec 32) (s : State) : Out := .next (if s.boot.minimal then s else { s with evq := s.evq.setHead val })

/-! ## Onyx wear (R232) -/

/-- Spare blocks of a die. -/
def spareBlocks : Nat := 64

/-- A block whose WRITES has passed its threshold moves to a free spare; with none free it stays, and the die's Onyx is worn. -/
def Die.moveBlock (d : Die) (b : Nat) : Die :=
  let e := Tab.getD d.wear b (0, none)
  if e.1 ≤ 5 * 10 ^ 13 then d
  else if d.spares < spareBlocks then { d with wear := Tab.put b (0, some d.spares) d.wear, spares := d.spares + 1 }
  else { d with worn := true }

/-- ONYX_BLOCK_MOVE (R232): between two image writes. -/
def execOnyxBlockMove (die block : Nat) (s : State) : Out :=
  .next (if (s.die die).imgs.isEmpty && decide (block < 512) then s.modDie die fun d => d.moveBlock block else s)

/-! ## The copy engines (R183, R342) -/

/-- The slot table of a copy engine's round: a waiting one takes over where a round starts. -/
def State.copyTable (s : State) (iod : Nat) : Option (List Nat) :=
  (if vget s.copySlot iod 0 = 0 then Tab.find iod s.slotNext else none) <|> Tab.find iod s.slotTabs

/-- The tenants with a transfer pending at a copy engine. -/
def State.copyTenants (s : State) (iod : Nat) : List Nat := (s.copies.filter fun c => c.iod == iod).map (·.tenant)

/-- The tenant that a slot of a copy table serves: the first with a transfer pending among those that the slot and the ones after it name, in
table order; where they name none of them, a table with a slot of 0xFF, which any tenant may have, serves the tenant of the oldest transfer (R162,
R183, log 143). -/
def slotServes (tab : List Nat) (slot : Nat) (pending : List Nat) : Option Nat :=
  let order := (List.range 64).map fun i => tab.getD ((slot + i) % 64) 0xFF
  (order.find? fun x => x != 0xFF && pending.contains x) <|> (if order.contains 0xFF then pending.head? else none)

/-- May a tenant's transfer go now: it is the one that the copy engine's next slot serves, or no table has been written. -/
def State.copyEligible (s : State) (c : Copy) : Bool :=
  match s.copyTable c.iod with
  | none => true
  | some tab => slotServes tab (vget s.copySlot c.iod 0) (s.copyTenants c.iod) == some c.tenant

/-- The slot that a copy engine has used is over; a waiting table has taken over when it was the first of a round (R183). -/
def State.copySlotDone (s : State) (iod : Nat) : State :=
  let i := vget s.copySlot iod 0
  let s := { s with copySlot := vset s.copySlot iod ((i + 1) % 64) }
  match (if i = 0 then Tab.find iod s.slotNext else none) with
  | none => s
  | some tab => { s with slotTabs := Tab.put iod tab s.slotTabs, slotNext := Tab.del iod s.slotNext }

/-- The poisoned lines among those of a range. -/
def State.poisonLines (s : State) (pa n : Nat) : List Nat := (linesOf pa n).filter s.isPoison

/-- The destination lines that poisoned source lines of a copy reach. -/
def State.copyTaint (s : State) (src dst n : Nat) : List Nat :=
  (linesOf dst n).filter fun l =>
    let lo := max dst (l * 64)
    let hi := min (dst + n) (l * 64 + 64)
    s.poisonLines (src + (lo - dst)) (hi - lo) != []

/-- Poison that a copy engine meets in a line: counted and posted. -/
def State.copyMeets (s : State) (iod line : Nat) : State :=
  let c := s.poisonCause line
  let s := s.countErr (errPoison (8 + iod))
  match s.homeOf c.info with
  | .die d => s.postPoison (10 + d) (bits c.info 13 8) c.sub c.info
  | _ => s.postPoison (8 + iod) 0 c.sub c.info

/-- A chunk of 256 bytes of a transfer, in any order (the choice is free), read at home and written as an engine write: the poison
of its source lines goes to the destination lines, each poisoned line counted. After the last chunk, LEN sets out to the barrier object. -/
def State.copyChunk (s : State) (k : Nat) : State :=
  match s.copies[k]? with
  | none => s
  | some c =>
    let i := (s.free 59).toNat % c.left.length
    let o := c.left.getD i 0 * 256
    let n := min 256 (c.len - o)
    if !s.copyEligible c then s
    else
      match s.tryHome (s.homeBytes (c.src + o) n) with
      | .error s => s
      | .ok (s1, l, bad) =>
        if !s1.canEngineWriteRange (c.dst + o) l then s1.snoopRange (c.dst + o) l
        else
          let s2 := s1.engineWrite (c.dst + o) l
          let s2 := if bad then
              (s1.poisonLines (c.src + o) n).foldl (fun a x => a.copyMeets c.iod x)
                ((s1.copyTaint (c.src + o) (c.dst + o) n).foldl (fun (a : State) x => a.setPoison x) s2)
            else s2
          let s2 := s2.copySlotDone c.iod
          let rest := c.left.eraseIdx i
          if rest != [] then { s2 with copies := s2.copies.set k { c with left := rest } }
          else { s2 with copies := s2.copies.eraseIdx k, barAdds := s2.barAdds ++ [BarAdd.mk c.bar c.len (some c.task) c.pos 0#32] }

/-- COPY_CHUNK_DONE (R342). -/
def execCopyChunkDone (k : Nat) (s : State) : Out := .next (s.copyChunk k)

end Sys2Proof.Machine
end

