-- ==== Sys2Proof/Machine/Boot.lean ====
section
/-! DEFINITION. Start-up, its failures, minimal mode and module resets (R20, R62, R95, R195, R215, R233, R463, R466, R472 to R477). -/

namespace Sys2Proof.Machine

open Sys2Proof

/-! ## Rails (R466) -/

/-- Bits of the rails. -/
def railVaux : BitVec 21 := 0x1#21
def railVio : BitVec 21 := 0x6#21
def railVlpt : BitVec 21 := 0x1800#21
def railVcore : BitVec 21 := 0x1FE000#21

/-- The rails of the present stacks. -/
def State.railVhbm (s : State) : BitVec 21 :=
  (List.range 8).foldl (fun (a : BitVec 21) d => if (s.stack d).present then a ||| (1#21 <<< (3 + d)) else a) 0#21

/-- Bring rails up. -/
def State.railsUp (s : State) (r : BitVec 21) (step : Nat) : State :=
  { s with boot := { s.boot with railWait := r, railAt := s.now, step := step } }

/-! ## Boot records (R233, R475, R476) -/

/-- The dies that answer on the package fabric. -/
def State.answering (s : State) : List Nat := (List.range 8).filter fun d => s.boot.answers.getLsbD d

/-- Every boot record that answers changed. The spec does not say whether these writes count as record writes of the wear map: none is counted
(R232, log 160). -/
def State.modRecords (s : State) (f : Die → Die) : State := s.answering.foldl (fun s d => s.modDie d f) s

/-- The highest count among the boot records, and the reason of the first record that holds it. -/
def State.bootRecord (s : State) : Nat × Nat :=
  s.answering.foldl (fun (a : Nat × Nat) d => if (s.die d).bootCount > a.1 then ((s.die d).bootCount, (s.die d).bootReason) else a)
    (0, ((s.answering.head?).map fun d => (s.die d).bootReason).getD 0)

/-! ## A start begins, and fails (R474 step 1, R476) -/

/-- The module as before a start: what runs on rails other than VAUX is gone; Onyx, flash, the measurement slots, the device time, the
energy accumulators and Agate's queues of records stay. -/
def State.powerBase (s : State) : State :=
  { s.onyx with
    now := s.now, energy := s.energy, evq := s.evq, errs := s.errs, latent := s.latent
    agate := { Agate.blank with ms := s.agate.ms, locked := s.agate.locked, idLock := s.agate.idLock, refusals := s.agate.refusals }
    parkedList := s.parkedList, turns := s.turns, uids := s.uids, fresh := s.fresh
    boot := { Boot.blank with
      flash := s.boot.flash, answers := s.boot.answers, trainBad := s.boot.trainBad, reason := s.boot.reason, attempts := s.boot.attempts
      rails := railVaux, startAt := s.boot.startAt } }

/-- Step 1: the ROM extends MS_0 and brings up the I/O rails. -/
def State.startBoot (s : State) : State :=
  let s := s.powerBase
  let s := { s with boot := { s.boot with startAt := s.now } }
  (s.measure 0 (digestBytes (Config.romDigest 0))).railsUp railVio 2

/-- A failure is written to every boot record; the rails go off and the start begins again. -/
def State.bootFail (s : State) (code : Nat) : State := (s.modRecords fun d => { d with bootReason := code }).startBoot

/-! ## Images in flash (R472, R473) -/

/-- MAGIC of the three kinds. -/
def imageMagic : Nat → Nat
  | 0 => 0x51434146
  | 1 => 0x51434946
  | _ => 0x51434346

/-- The header and payload of an image, and its signature. -/
def imageBody (l : List Byte) : List Byte := l.take (64 + field l 8 4)
def imageSig (l : List Byte) : List Byte := (l.drop (64 + field l 8 4)).take 2420

/-- The minimum SVN of a kind in the boot records. -/
def State.minSvn (s : State) (kind : Nat) : Nat := s.answering.foldl (fun a d => max a (vget (s.die d).minSvn kind 0)) 0

/-- Does an image of a kind pass. -/
def State.imagePasses (s : State) (kind : Nat) (l : List Byte) : Bool :=
  field l 0 4 == imageMagic kind && field l 12 52 == 0 && decide (64 + field l 8 4 + 2420 ≤ l.length) &&
    mldsaVerify Config.vendorKey (sha3 (imageBody l)) (imageSig l) && decide (s.minSvn kind ≤ field l 4 4)

/-- The records of a configuration payload; none when a record runs past its end. -/
def configRecords : Nat → List Byte → Option (List (Nat × List Byte))
  | _, [] => some []
  | 0, _ => none
  | fuel + 1, l =>
    let n := field l 2 2
    if l.length < 4 + n then none else (configRecords fuel (l.drop (4 + n))).map fun r => (field l 0 2, (l.drop 4).take n) :: r

/-- The records of a configuration image: types 1 to 5 only, none repeated, 1, 3 and 4 there. -/
def imageConfig (l : List Byte) : Option (List (Nat × List Byte)) :=
  let p := (imageBody l).drop 64
  (configRecords p.length p).filter fun rs =>
    let ts : List Nat := rs.map (·.1)
    (ts.all fun t => decide (1 ≤ t ∧ t ≤ 5)) && decide ts.Nodup && ts.contains 1 && ts.contains 3 && ts.contains 4

/-- The copy of a kind that passes: A first, then B. A configuration image has to hold its records too. -/
def State.goodImage (s : State) (kind : Nat) : Option (List Byte) :=
  ([0, 1].filterMap fun c => Tab.find (2 * kind + c) s.boot.flash).find? fun l =>
    s.imagePasses kind l && (decide (kind ≠ 2) || (imageConfig l).isSome)

/-- The bytes of a record of a type. -/
def recordOf (rs : List (Nat × List Byte)) (t : Nat) : Option (List Byte) := (rs.find? fun r => r.1 == t).map (·.2)

/-! ## The configuration applied (R20, R473, R474 step 5) -/

/-- The fields of the configuration in the start-up state. The places of the bits within records 1, 3, 4 and 5 are the model's. -/
def Boot.configure (b : Boot) (rs : List (Nat × List Byte)) : Boot :=
  let h := leNat ((recordOf rs 1).getD [])
  let die (d : Nat) : Nat := bits h (81 * d + 80) (81 * d)
  let net := (recordOf rs 4).getD []
  let mode := (recordOf rs 3).getD []
  { b with
    harvestDie := (List.range 8).foldl (fun (a : BitVec 8) d => if bit (die d) 0 then a ||| (1#8 <<< d) else a) 0#8
    harvestCl := (List.range 8).foldl (fun (a : BitVec 128) d => a ||| (BitVec.ofNat 128 (bits (die d) 16 1) <<< (16 * d))) 0#128
    harvestCore := (List.range 8).foldl (fun (a : BitVec 512) d => a ||| (BitVec.ofNat 512 (bits (die d) 80 17) <<< (64 * d))) 0#512
    harvestStack := BitVec.ofNat 8 (bits h 655 648)
    facKey := recordOf rs 2
    portCxl := BitVec.ofNat 2 (field mode 0 1 % 2 + 2 * (field mode 1 1 % 2))
    module := field net 0 1
    eth := (List.range 8).map fun p => field net (1 + 6 * p) 6
    trim := ((recordOf rs 5).getD []).map fun x => 5 * x.toInt }

/-- The presence of dies and stacks as the harvest record gives it. -/
def State.applyHarvest (s : State) : State :=
  { s with
    dies := s.dies.mapIdx fun i (d : Die) => { d with present := !s.boot.harvestDie.getLsbD i }
    hbm := s.hbm.mapIdx fun i (x : Stack) => { x with present := !s.boot.harvestStack.getLsbD i } }

/-- The ROM sets the write lock of the identity regions before Agate's firmware runs; nothing clears it (R95). -/
def State.lockIdentity (s : State) : State := { s with agate := { s.agate with idLock := true } }

/-- Agate writes a byte range of a die's identity region: once the lock is set the write is refused, and counted as a protection event in
Agate's log; before, at manufacture, the region takes it (R95). -/
def State.writeIdentity (s : State) (d o v : Nat) : State :=
  if s.agate.idLock then { s with agate := { s.agate with refusals := s.agate.refusals + 1 } }
  else s.modDie d fun x => { x with identity := x.identity - bits x.identity (8 * o + 63) (8 * o) * 2 ^ (8 * o) + v * 2 ^ (8 * o) }

/-- Steps 4 and 5: the firmware, the I/O die firmware and the configuration image are verified, measured and applied; step 6 begins. -/
def State.verifyAll (s : State) : State :=
  match s.goodImage 0 with
  | none => s.bootFail 0x01
  | some fw =>
    let s := s.lockIdentity
    let s := s.measure 1 (sha3 (imageBody fw ++ imageSig fw))
    let s := { s with boot := { s.boot with stage := 1 } }
    match s.goodImage 1, (s.goodImage 2).bind fun l => (imageConfig l).map fun rs => (l, rs) with
    | none, _ => s.bootFail 0x03
    | _, none => s.bootFail 0x02
    | some io, some (cfg, rs) =>
      let s := (s.measure 2 (sha3 (imageBody io ++ imageSig io))).measure 3 (sha3 (imageBody cfg ++ imageSig cfg))
      let s := (s.measure 4 (sha3 ((recordOf rs 1).getD []))).measure 5 (sha3 ((recordOf rs 2).getD []))
      let s := s.measure 6 (digestBytes (Config.romDigest 6))
      let s := { s with agate := { s.agate with locked := true }, boot := { s.boot.configure rs with stage := 2 } }
      let s := s.applyHarvest
      let dark := (List.range 8).foldl (fun (a : BitVec 21) d => if (s.die d).present then a else a ||| (1#21 <<< (13 + d))) 0#21
      let s := { s with
        dies := s.dies.map fun (d : Die) => if d.present then d else { d with on := false }
        boot := { s.boot with rails := s.boot.rails &&& ~~~dark } }
      if (List.range 8).any fun d => (s.die d).present && !(s.die d).on then s.bootFail 0x06 else s.railsUp railVlpt 6

/-- Minimal mode (R476, R477): VAUX and VIO_0 alone stay on; host port 0 runs in PCI Express mode. -/
def State.minimalMode (s : State) : State :=
  let attempts := s.boot.attempts
  let reason := s.boot.reason
  let s := s.powerBase
  { s with
    boot := { s.boot with rails := 0x3#21, minimal := true, stage := 0, step := 3, attempts := attempts, reason := reason }
    ports := vset s.ports 0 { Port.blank with up := true } }

/-- The rest of step 2 and step 3: the dies that answer go on, the boot records count the attempt, the identity copies are compared, and the
attestation key is derived from the seed. -/
def State.romChecks (s : State) : State :=
  let l := s.answering
  if l.isEmpty then s.bootFail 0x0A
  else
    let s := s.modRecords fun d => { d with on := true, vcode := 0, offAt := s.now }
    let (n, r) := s.bootRecord
    let s := { s with boot := { s.boot with step := 3, attempts := min n 3, reason := if n > 0 then r else 0 } }
    let s := s.modRecords fun d => { d with bootCount := min (n + 1) 255, bootReason := 0x0F }
    if n ≥ 3 then s.minimalMode
    else
      let s := { s with agate := { s.agate with key := Config.attKey (s.die (l.headD 0)).identity } }
      match l with
      | a :: b :: _ =>
        if (s.die a).identity ≠ (s.die b).identity then { s with boot := { s.boot with identityFail := true } }.bootFail 0x04
        else s.verifyAll
      | _ => s.verifyAll

/-! ## The end of a start (R474 steps 6 and 7) -/

/-- The ALGORITHMS template: the one selection of R462, DMTF, SHA3-256 for both hashes and ML-DSA-44, at the places where SPDM 1.4 codes them
(log 175). -/
def algTemplate : List Byte :=
  leBytes 4 0x6314 ++ leBytes 2 36 ++ leBytes 2 1 ++ leBytes 4 0x10 ++ leBytes 4 0 ++ leBytes 4 0x08 ++ leBytes 4 1 ++ leBytes 12 0

/-- What Agate's firmware writes into its SRAM before the responder starts (R465): templates, each a length word and its bytes, and the
certificate chain; every path is in S0. -/
def responderSram : List Host.Cell :=
  let put (m : List Host.Cell) (o : Nat) (l : List Byte) : List Host.Cell := memPut m o (leBytes 8 l.length ++ l)
  let ver := [0x10, 0x04, 0x00, 0x00, 0x00, 0x01, 0x00, 0x14].map (BitVec.ofNat 8)
  let cap := leBytes 4 0x6114 ++ leBytes 1 0 ++ leBytes 1 20 ++ leBytes 2 0 ++ leBytes 4 0x16 ++ leBytes 4 4096 ++ leBytes 4 4096
  let dig := leBytes 4 0x01010114 ++ sha3 Config.certChain
  put (put (put (put (put [] 0x0100 ver) 0x0180 cap) 0x0200 algTemplate) 0x0300 dig) 0x1000 Config.certChain

/-- STAGE 4: the counters of failed starts and their reasons are cleared, the minimum SVNs are raised, and Agate's thread stands at its wait. -/
def State.bootDone (s : State) : State :=
  let svn (k : Nat) : Nat := ((s.goodImage k).map fun l => field l 4 4).getD 0
  let s := s.modRecords fun d => { d with
    bootCount := 0, bootReason := 0
    minSvn := d.minSvn.mapIdx fun k m => max m (svn k) }
  { s with
    boot := { s.boot with step := 7, stage := 4 }
    agate := { s.agate with sram := responderSram }
    thr := Tab.put agateThr agateStart s.thr
    ports := s.ports.mapIdx fun i (p : Port) => { p with up := true, cxl := s.boot.portCxl.getLsbD i } }

/-- The voltage to which a die's VCORE is set, in mV: that of its V-code, with the trim of the configuration image from step 6 on (R16, R466,
R473, R474). A trim record holds 6 codes for each die. -/
def State.railMv (s : State) (d : Nat) : Int :=
  let v := (s.die d).vcode
  850 - 50 * (v : Int) + (if s.boot.step ≥ 6 then s.boot.trim.getD (6 * d + v) 0 else 0)

/-- The memories are trained; then the present clusters go on in the rounds of R215. A present die that has gone off fails to switch on. -/
def State.trainAll (s : State) : State :=
  let bad (i : Nat) : Bool := s.boot.trainBad.getLsbD i
  if (List.range 8).any fun d => (s.die d).present && !(s.die d).on then s.bootFail 0x06
  else if bad 8 then s.bootFail 0x08
  else if (List.range 8).any fun d => (s.stack d).present && bad d then s.bootFail 0x07
  else
    { s with
      lpOn := true
      hbm := s.hbm.map fun (x : Stack) => if x.present then { x with st := 1, lastAccess := s.now } else x
      dies := s.dies.mapIdx fun i (d : Die) => if d.present then d.switchOn ((List.range 16).filter fun c => (s.presentClusters i).getLsbD c) else d }

/-- The rounds of a start's clusters have ended on every die: STAGE 3, and the start ends, or a cluster has failed to switch on. -/
def State.clustersGood (s : State) : State :=
  if s.boot.step ≠ 6 ∨ !s.lpOn ∨ (List.range 8).any fun d => (s.die d).waitOn != 0#16 then s
  else if s.boot.trainBad.getLsbD 9 then s.bootFail 0x06
  else { s with boot := { s.boot with stage := 3 } }.bootDone

/-- CLUSTER_SWITCH_ON_ROUND (R215, R474). -/
def execClusterSwitchOnRound (die : Nat) (s : State) : Out := .next (s.switchRoundEnd die).clustersGood

/-- Every rail that was brought up is good: the start goes on. -/
def State.railsGood (s : State) : State :=
  if s.boot.step = 2 then
    if s.boot.rails &&& railVcore = 0#21 then s.railsUp railVcore 2 else s.romChecks
  else if s.boot.step = 6 then
    if s.boot.rails &&& s.railVhbm = s.railVhbm then s.trainAll.clustersGood else s.railsUp s.railVhbm 6
  else s

/-- RAIL_POWER_GOOD: a rail's power-good signal rises. -/
def State.railGood (s : State) (rail : Nat) : State :=
  if !s.boot.railWait.getLsbD rail then s
  else
    let b : BitVec 21 := 1#21 <<< rail
    let w := s.boot.railWait &&& ~~~b
    let s := { s with boot := { s.boot with rails := s.boot.rails ||| b, railWait := w } }
    if w = 0#21 then s.railsGood else s

/-- RAIL_POWER_GOOD (R474). -/
def execRailPowerGood (rail : Nat) (s : State) : Out := .next (s.railGood rail)

/-- RAIL_POWER_GOOD_TIMEOUT (R475): a rail has not reached power-good within 10 ms. -/
def execRailPowerGoodTimeout (rail : Nat) (s : State) : Out :=
  .next (if s.boot.railWait.getLsbD rail && decide (s.boot.railAt + 10000000 ≤ s.now) then s.bootFail 0x05 else s)

/-- VAUX_POWER_GOOD (R474 step 1). -/
def execVauxPowerGood (s : State) : Out :=
  .next (if s.boot.rails.getLsbD 0 then s else { s with boot := { s.boot with rails := railVaux } }.startBoot)

/-- BOOT_TIMEOUT (R474): STAGE 4 not reached within 60 s of VAUX power-good. -/
def execBootTimeout (s : State) : Out :=
  .next (if s.boot.rails.getLsbD 0 && !s.boot.minimal && decide (s.boot.stage < 4) && decide (s.boot.startAt + 60000000000 ≤ s.now)
    then s.bootFail 0x09 else s)

/-! ## Minimal mode (R477) -/

/-- The recovery doorbell: the image is verified and written into flash copy A of its kind, the counters are cleared and the start begins
again; a failing image leaves 2 in the doorbell. -/
def State.recover (s : State) : State :=
  if !s.boot.minimal then s
  else
    let l := s.boot.rec_.take s.boot.recLen
    match [0, 1, 2].find? fun k => s.imagePasses k l with
    | none => { s with boot := { s.boot with recDoor := 2 } }
    | some k =>
      let s := { s with boot := { s.boot with flash := Tab.put (2 * k) l s.boot.flash } }
      (s.modRecords fun d => { d with bootCount := 0 }).startBoot

/-- RECOVERY_DOORBELL (R477): any value rings it. -/
def execRecoveryDoorbell (_val : Nat) (s : State) : Out := .next s.recover

/-! ## Module reset (R165, R219, R220, R229, R463, R475) -/

/-- MODULE_RESET: the ring, the event queue and everything that runs are as at reset; Onyx, flash, the device time, the energy accumulators
and the measurement slots stay, and a start begins. -/
def State.moduleReset (s : State) : State :=
  let base := { s.powerBase with evq := EvQueue.blank, errs := [], parkedList := s.onyxTasks, energy := { s.energy with hiLatch := Vector.replicate 4 0#32 } }
  if s.boot.rails.getLsbD 0 then base.startBoot else { base with boot := { base.boot with rails := 0#21 } }

/-- MODULE_RESET (R475). -/
def execModuleReset (s : State) : Out := .next s.moduleReset

end Sys2Proof.Machine
end

