-- ==== Sys2Proof/Machine/Window.lean ====
section
/-! DEFINITION. The management window and the host ports (R44, R71, R100, R103, R165, R218, R221, R231, R443 to R447, R450, R454, R477). -/

namespace Sys2Proof.Machine

open Sys2Proof

/-! ## What the window reads (R446) -/

/-- Byte `i` of a number. -/
def byteOf (x i : Nat) : Byte := BitVec.ofNat 8 (x / 256 ^ i)

/-- The harvest record as a number: 81 bits for each die, then the byte of absent stacks. -/
def Boot.harvest (b : Boot) : Nat :=
  ((List.range 8).map fun d =>
    (b01 (b.harvestDie.getLsbD d) + 2 * bits b.harvestCl.toNat (16 * d + 15) (16 * d) + 2 ^ 17 * bits b.harvestCore.toNat (64 * d + 63) (64 * d))
      * 2 ^ (81 * d)).sum + b.harvestStack.toNat * 2 ^ 648

/-- Eight flags as a byte. -/
def flagsByte (f : Nat → Bool) : Byte := BitVec.ofNat 8 ((List.range 8).map fun i => b01 (f i) * 2 ^ i).sum

/-- The first 4 KiB of the window. -/
def State.winFirst (s : State) (o : Nat) : Byte :=
  if o = 0 then byteOf s.boot.module 0
  else if 8 ≤ o ∧ o < 12 then byteOf s.boot.status (o - 8)
  else if 0x100 ≤ o ∧ o < 0x152 then byteOf s.boot.harvest (o - 0x100)
  else if 0x800 ≤ o ∧ o < 0x840 then flagsByte fun i => (s.core (8 * (o - 0x800) + i)).degraded
  else if o = 0x840 then flagsByte fun d => (s.die d).worn
  else if 0x900 ≤ o then byteOf (s.parkedList.getD ((o - 0x900) / 8) 0) (o % 8)
  else 0#8

/-- A counter as a window requester reads it, by its number less 0x400; a counter of a task or a cluster has no reader here. -/
def State.winCounter (s : State) (n : Nat) : Nat :=
  match energyIndex n with
  | some i => (vget s.energy.acc i 0#64).toNat
  | none => if n = 0 then s.now else 0

/-- An event record as 256 bits (R164). -/
def EvRec.nat (r : EvRec) : Nat :=
  r.time % 2 ^ 64 * 2 ^ 192 + r.kind % 256 * 2 ^ 184 + r.src % 256 * 2 ^ 176 + r.unit % 65536 * 2 ^ 160 + r.detail % 2 ^ 128

/-- The event queue's area. -/
def State.winEvents (s : State) (o : Nat) : Byte :=
  if o < 8 then byteOf s.evq.head.toNat o
  else if o < 16 then byteOf s.evq.tail.toNat (o - 8)
  else if o < 24 then byteOf s.evq.lost.toNat (o - 16)
  else if 0x1000 ≤ o ∧ o < 0x21000 then byteOf (((Tab.find ((o - 0x1000) / 32) s.evq.recs).map EvRec.nat).getD 0) (o % 32)
  else 0#8

/-- The CSR area: clusters, dies, the package. -/
def State.winCsr (s : State) (o : Nat) : Nat :=
  let value (k n : Nat) : Nat := ((s.csrValue k n).map (·.toNat)).getD 0
  let c := o % 0x800 / 8
  if o < 0x40000 then if c < 2 then value (8 * (o / 0x800)) (0x100 + c) else 0
  else if o < 0x44000 then if c = 0 then value (128 * ((o - 0x40000) / 0x800)) 0x200 else 0
  else if o < 0x44800 then value 0 (0x300 + (o - 0x44000) / 8)
  else 0

/-- Is an offset in memory of the window that software writes: launch records, requests but for their STATUS (R6, R447), and their tail, the
curve image and its length, the SPDM mailbox. -/
def winSram (o : Nat) : Bool :=
  decide (0x100000 ≤ o ∧ o < 0x200000 ∧ o % 0x10000 < 0xFFC0) || decide (0x200000 ≤ o ∧ o < 0x204000 ∧ o % 64 ≠ 1) || decide (0x204008 ≤ o ∧ o < 0x204010)
    || decide (0x300000 ≤ o ∧ o < 0x301E08) || decide (0x310000 ≤ o ∧ o < 0x312000)

/-- Is an offset a word that the device keeps in the window's memory: heads and tails of launch queues, the head of the request ring, the STATUS
of a request. -/
def winIndex (o : Nat) : Bool :=
  decide (0x200000 ≤ o ∧ o < 0x204000 ∧ o % 64 = 1) || decide (0x100000 ≤ o ∧ o < 0x200000 ∧ 0xFFF0 ≤ o % 0x10000) || decide (0x204000 ≤ o ∧ o < 0x204008)

/-- Byte `o` of the recovery mailbox. -/
def Boot.recovery (b : Boot) (o : Nat) : Byte :=
  if o < 0x4000000 then b.rec_.getD o 0#8
  else if o < 0x4000008 then byteOf b.recLen (o - 0x4000000)
  else if o < 0x4000010 then byteOf b.recDoor (o - 0x4000008)
  else 0#8

/-- Where the error counters end: 8 bytes apart from 0x1800, the 2,349 counters of R231 reach past the 4 KiB that the table of R446 gives
them, and all of them are read and cleared here (log 12). -/
def errEnd : Nat := 0x1800 + 8 * 2349

/-- A byte of the window; unlisted offsets read 0. In minimal mode only its first 4 KiB and the recovery mailbox are served. -/
def State.winByte (s : State) (o : Nat) : Byte :=
  if s.boot.minimal then
    if o < 0x1000 then s.winFirst o else if 0x320000 ≤ o then s.boot.recovery (o - 0x320000) else 0#8
  else if o < 0x1000 then s.winFirst o
  else if o < 0x1800 then byteOf (s.winCounter ((o - 0x1000) / 8)) (o % 8)
  else if o < errEnd then byteOf (((errOrder[(o - 0x1800) / 8]?).map fun i => (Tab.getD s.errs i 0#32).toNat).getD 0) (o % 8)
  else if 0x10000 ≤ o ∧ o < 0x40000 then s.winEvents (o - 0x10000)
  else if 0x40000 ≤ o ∧ o < 0x50000 then
    let x := s.stack ((o - 0x40000) / 0x2000)
    let l := if o % 0x2000 < 0x1000 then x.cell else x.xfer
    byteOf (l.getD (o % 0x1000 / 8) 0#64).toNat (o % 8)
  else if winSram o || winIndex o then memByte s.win o
  else if 0x301E08 ≤ o ∧ o < 0x301E10 then byteOf (b01 s.agate.curveDoor) (o - 0x301E08)
  else if 0x208000 ≤ o ∧ o < 0x208200 then byteOf (s.core (o - 0x208000)).owner 0
  else if 0x1000000 ≤ o ∧ o < 0x1080000 then byteOf (s.winCsr (o - 0x1000000)) (o % 8)
  else 0#8

/-- The parts that the BMC may read, and write (R446). Requesters 0 and 1 are the host ports, 2 is the BMC, 3 is Agate. -/
def winAllowed (req o : Nat) (write : Bool) : Bool :=
  if req ≠ 2 then true
  else if write then decide (0x300000 ≤ o ∧ o < 0x302000) || decide (0x310000 ≤ o ∧ o < 0x312000)
  else decide (o < errEnd) || decide (0x10000 ≤ o ∧ o < 0x50000) || decide (0x208000 ≤ o ∧ o < 0x208200)
    || decide (0x310000 ≤ o ∧ o < 0x312000) || decide (0x1000000 ≤ o ∧ o < 0x1080000)

/-- A read of the window: the bytes, and the state with the latch of a 32-bit read of an accumulator's low half (R221). -/
def State.winRead (s : State) (req o n : Nat) : State × List Byte :=
  let plain := (List.range n).map fun i => if winAllowed req (o + i) false then s.winByte (o + i) else 0#8
  let acc := if 0x1000 ≤ o ∧ o < 0x1800 ∧ n = 4 ∧ !s.boot.minimal then energyIndex ((o - 0x1000) / 8) else none
  match acc with
  | none => (s, plain)
  | some i =>
    if o % 8 = 0 then
      ({ s with energy := { s.energy with
          hiLatch := vset s.energy.hiLatch req (BitVec.ofNat 32 ((vget s.energy.acc i 0#64).toNat / 2 ^ 32)) } }, plain)
    else (s, leBytes 4 (vget s.energy.hiLatch req 0#32).toNat)

/-! ## What a write of the window does (R446) -/

/-- Bytes written over a list from a place on. -/
def putList (l : List Byte) (o : Nat) (d : List Byte) : List Byte :=
  (l ++ List.replicate (o + d.length - l.length) 0#8).mapIdx fun i b => if o ≤ i ∧ i < o + d.length then d.getD (i - o) 0#8 else b

/-- The value that a write of bytes at `o` gives the 8-byte register at `a`, when it covers its first byte. -/
def writtenAt (o : Nat) (d : List Byte) (a : Nat) : Option Nat :=
  if o ≤ a ∧ a < o + d.length then some (leNat ((d.drop (a - o)).take 8)) else none

/-- A write of the recovery mailbox in minimal mode. -/
def State.winRecovery (s : State) (o : Nat) (d : List Byte) : State :=
  if o < 0x320000 then s
  else
    let r := o - 0x320000
    let s := if r < 0x4000000 then { s with boot := { s.boot with rec_ := putList s.boot.rec_ r (d.take (0x4000000 - r)) } } else s
    let s := match writtenAt r d 0x4000000 with
      | some v => { s with boot := { s.boot with recLen := v } }
      | none => s
    if (writtenAt r d 0x4000008).isSome then s.recover else s

/-- The registers of the window that do something when they are written. -/
def State.winTrigger (s : State) (req o : Nat) (d : List Byte) : State :=
  let s := (List.range 16).foldl (fun s q =>
    match writtenAt o d (queueBase q + 0xFFF8) with
    | some v => s.launchBell req q v
    | none => s) s
  let s := match writtenAt o d 0x10000 with
    | some v => { s with evq := s.evq.setHead (BitVec.ofNat 32 v) }
    | none => s
  let s := match writtenAt o d 0x301E08 with
    | some v => s.curveBell v
    | none => s
  let s := (if o < errEnd ∧ 0x1800 < o + d.length then List.range (d.length / 8 + 1) else []).foldl (fun s j =>
    let i := (o + 7 - 0x1800) / 8 + j
    match writtenAt o d (0x1800 + 8 * i) with
    | some v => s.clearErr i v
    | none => s) s
  (List.range 8).foldl (fun s n =>
    let rearm (a : Nat) : Bool := ((writtenAt o d a).map fun v => bit v 15).getD false
    if rearm (0x1040000 + 0x800 * n) || rearm (0x1044080 + 8 * n) then s.modDie n fun x => { x with vminMv := 0xFFF, vminTime := 0 } else s) s

/-- A write of the window: its memory takes the bytes, its registers act, every other byte is ignored. -/
def State.winWrite (s : State) (req o : Nat) (d : List Byte) : State :=
  if s.boot.minimal then if req = 0 then s.winRecovery o d else s
  else if !((List.range d.length).all fun i => winAllowed req (o + i) true) then s
  else
    let s := (List.range d.length).foldl (fun s i => if winSram (o + i) then s.winPut (o + i) [d.getD i 0#8] else s) s
    s.winTrigger req o d

/-- REGISTER_WRITE (R7, R44): a register of the window without behaviour of its own ignores the write. Agate's own CSRs
(R465), which are no window registers, are named by their numbers above 2^32, and the identity regions of the dies, which Agate reaches in
their Onyx (R91, R95), by die and offset above 2^33 (log 91). -/
def execRegisterWrite (req ofs : Nat) (val : BitVec 64) (s : State) : Out :=
  .next (if ofs ≥ 2 ^ 33 then
      let o := ofs - 2 ^ 33
      if req = 3 ∧ o / 0x10000 < 8 ∧ o % 0x10000 ≤ 0xFFF8 then s.writeIdentity (o / 0x10000) (o % 0x10000) val.toNat else s
    else if ofs ≥ 2 ^ 32 then
      match (if req = 3 then s.agate.csrWrite s.fresh (ofs - 2 ^ 32) val.toNat else none) with
      | some a => { s with agate := a }
      | none => s
    else s.winWrite req ofs (leBytes 8 val.toNat))

/-! ## Host accesses (R443 to R445) -/

/-- Base of the window, and the end of what BAR0 reaches. -/
def winBase : Nat := 0x70000000000
def barEnd : Nat := 0x80000000000

/-- Does a range name a byte that no part of the map backs (R66). -/
def State.touchesUnbacked (s : State) (pa n : Nat) : Bool := !s.backed pa || !s.backed (pa + n - 1)

/-- Lines of a range leave what a port holds: the host itself writes them. -/
def State.hostDrops (s : State) (port pa : Nat) (d : List Byte) : State :=
  let l := (splitLines pa d).map (·.1)
  s.setPort port { s.port port with held := (s.port port).held.filter fun x => !l.contains x }

/-- Where a host address leads: BAR0 gives the device's own addresses; a port in CXL mode also presents decoder 0, the present stacks one after
another at 96 GiB each, and decoder 1, the LP tier. The host places the decoders; here they begin at 2^52 and 2^53 (R444, log 161). -/
def State.hostPa (s : State) (port pa : Nat) : Option Nat :=
  let there := (List.range 8).filter fun d => (s.stack d).present
  if pa < barEnd then some pa
  else if !(s.port port).cxl || s.boot.minimal then none
  else if 2 ^ 52 ≤ pa ∧ pa < 2 ^ 53 then (there[(pa - 2 ^ 52) / (96 * 2 ^ 30)]?).map fun d => d * 2 ^ 37 + (pa - 2 ^ 52) % (96 * 2 ^ 30)
  else if 2 ^ 53 ≤ pa ∧ pa < 2 ^ 53 + 6144 * 2 ^ 30 then some (2 ^ 40 + (pa - 2 ^ 53))
  else none

/-- A host write to memory, as an engine write at home: it waits at home while another holder of a line has to give it up (R103, R445). -/
def State.hostStore (s : State) (port pa : Nat) (d : List Byte) : State := (s.hostDrops port pa d).engineWriteBy (some port) pa d

/-- HOST_WRITE (R445). -/
def execHostWrite (port pa : Nat) (data : List Byte) (s : State) : Out :=
  match s.hostPa port pa with
  | none => .next s
  | some pa =>
  if !(s.port port).up || data.isEmpty || decide (pa + data.length > barEnd) then .next s
  else if pa ≥ winBase then .next (s.winWrite port (pa - winBase) data)
  else if s.boot.minimal then .next s
  else if s.touchesUnbacked pa data.length then .fault .unbackedAddress
  else .next (s.hostStore port pa data)

/-- A host read of memory, as a load of home, which waits for the port's earlier posted writes; in CXL mode the host may then hold the
lines. -/
def State.hostLoad (s : State) (port pa n : Nat) : State :=
  match s.tryHome (s.homeBytes pa n) with
  | .error s => s
  | .ok (s1, l, _) =>
    if s.heldWrites.any fun w => w.port == some port then s
    else
    let s := s1
    let p := s.port port
    let lines := (splitLines pa l).map (·.1)
    s.setPort port { p with rd := l, held := if p.cxl then p.held ++ lines.filter fun x => !p.held.contains x else p.held }

/-- HOST_READ (R445, R446). Ports 2 and 3 stand for the BMC and Agate, which read the window alone (log 91). -/
def execHostRead (port pa len : Nat) (s : State) : Out :=
  if port = 2 ∨ port = 3 then
    if winBase ≤ pa ∧ pa + len ≤ barEnd then
      let (s, l) := s.winRead port (pa - winBase) len
      .next (s.returns port l)
    else .next s
  else
  match s.hostPa port pa with
  | none => .next s
  | some pa =>
  if !(s.port port).up || len = 0 || decide (pa + len > barEnd) then .next s
  else if pa ≥ winBase then
    let (s, l) := s.winRead port (pa - winBase) len
    .next (s.setPort port { s.port port with rd := l })
  else if s.boot.minimal then .next s
  else if s.touchesUnbacked pa len then .fault .unbackedAddress
  else .next (s.hostLoad port pa len)

/-- FLR: every task launched through the port ends with a fault record, whose cause the spec does not name (R443). -/
def State.portReset (s : State) (port : Nat) : State :=
  (s.tasks.filter fun t => t.port == port && t.state != 7).foldl (fun s t => s.endTask t.uid 2 ((s.free 58).toNat % 256) 0 0 0) s

/-- FLR (R443). -/
def execFlr (port : Nat) (s : State) : Out := .next (s.portReset port)

/-- HOST_COMPLETION: the host's completion of the oldest write to the host window (R116). -/
def execHostCompletion (port : Nat) (s : State) : Out := .next (s.setPort port { s.port port with out := (s.port port).out - 1 })

/-- BIRSP_ARRIVAL: the host has given a line up (R444). -/
def execBirspArrival (port line : Nat) (s : State) : Out :=
  let p := s.port port
  .next (if p.snoop.contains line then
      s.setPort port { p with snoop := p.snoop.filter (· != line), held := p.held.filter (· != line) }
    else s)

end Sys2Proof.Machine
end

