-- ==== Sys2Proof/Machine/Peers.lean ====
section
/-! DEFINITION. The Wotil links, the Ethernet transport and the collective engine (R100, R103, R253, R413, R419, R455 to R461). -/

namespace Sys2Proof.Machine

open Sys2Proof

/-! ## Accesses from a peer (R455) -/

/-- The new value of an atomic from a peer, by its code: those of AMO, and 9 for ACAS, whose new value is the second operand. -/
def peerAtomic (code : Nat) (old a b : W) : W :=
  if code = 9 then if old = a then b else old
  else
    match [AmoOp.add, AmoOp.fadd, AmoOp.min, AmoOp.max, AmoOp.and, AmoOp.or, AmoOp.xor, AmoOp.swap][code]? with
    | some op => (op.run old a).1
    | none => old

/-- An access from a peer performs at home, under this module's own rules. Kinds as in R455: 0 load, 1 write-through with a byte mask, 2 atomic
with its code in `mask` (10 is BARADD), 3 engine write with a byte mask. A byte that has no memory is refused, and nothing happens. -/
def State.peerArrives (s : State) (kind pa0 mask : Nat) (d : List Byte) : State :=
  let pa := pa0 % 2 ^ 43
  let line := pa / 64
  let data := lineOf ((d ++ List.replicate (64 - d.length) 0#8).take 64)
  let m := BitVec.ofNat 64 mask
  if !(s.inHbm (line * 64) 64 || s.inLp (line * 64) 64) then s
  else if kind = 0 then
    match s.tryHome (s.homeBytes (line * 64) 64) with
    | .error s => s
    | .ok (s, _, _) => s
  else if kind = 1 then
    s.enginePut line data m
  else if kind = 2 then
    if pa % 8 ≠ 0 then s
    else
      match s.tryHome (s.homeBytes pa 8) with
      | .error s => s
      | .ok (s1, l, bad) =>
        if bad || (s1.writeAddr pa).isNone then s1
        else if mask = 10 then if pa % 16 = 0 then s1.barAddAt pa (field d 0 8) else s1
        else
          let v := peerAtomic mask (BitVec.ofNat 64 (leNat l)) (BitVec.ofNat 64 (field d 0 8)) (BitVec.ofNat 64 (field d 8 8))
          s1.atomicWrite pa (leBytes 8 v.toNat)
  else if kind = 3 then
    s.enginePut line data m
  else s

/-- PEER_ACCESS_ARRIVAL (R455). -/
def execPeerAccessArrival (_peer kind pa mask : Nat) (data : List Byte) (s : State) : Out := .next (s.peerArrives kind pa mask data)

/-! ## Answers from a peer (R455) -/

/-- A die's LLC takes a line that its peer home has sent: a copy held under R111 keeps the bytes of its mask, and writes still on their way to
the peer are laid over (R107, R111). -/
def State.peerFill (s : State) (d line : Nat) (dat : BitVec 512) : State :=
  match (s.die d).llc.find? fun e => e.line == line && !e.home with
  | some e => s.llcInsert d { e with dat := mergeLine dat e.dat e.valid, valid := maskAll }
  | none =>
    let dat := (s.die d).wts.foldl (fun a w => if w.line = line then mergeLine a w.dat w.mask else a) dat
    s.llcInsert d ⟨line, dat, maskAll, 0#64, false, false, false, 0, false⟩

/-- The oldest write-through of a line that a peer has is acknowledged. -/
def State.peerAcked (s : State) (line : Nat) : State :=
  match (List.range 8).findSome? fun d => ((s.die d).wts.findIdx? fun w => w.sent && w.line == line).map fun i => (d, i) with
  | none => s
  | some (d, i) => s.wtAcked d i line

/-- A line comes back to the read at home that asked for it, poisoned or not. -/
def State.homeAnswer (s : State) (k : Nat) (d : BitVec 512) (bad : Bool) : State :=
  match s.peers[k]? with
  | none => s
  | some p =>
    let s := { s with peers := s.peers.set k { p with dest := 6, line := d } }
    if bad then s.setPoison (p.pa / 64) else s.clearPoison (p.pa / 64)

/-- A peer's home answers: a load's line is kept as a copy in the die's LLC; an atomic's old value waits for its unit, or becomes
a replay entry when an abort has taken the unit; a write is acknowledged. -/
def State.peerAnswers (s : State) (k : Nat) (d : List Byte) : State :=
  match s.peers[k]? with
  | none => s
  | some p =>
    let gone := { s with peers := s.peers.eraseIdx k }
    if p.dest = 6 then s
    else if p.dest = 7 then s.homeAnswer k (lineOf (d.take 64)) false
    else if p.kind = 0 then gone.peerFill (thrDie p.thr) (p.pa / 64) (lineOf (d.take 64))
    else if p.kind = 2 then
      if p.dest = 9 then s
      else if p.dest = 8 then
        match p.once with
        | none => gone
        | some (uid, kind, ops) => gone.modTask uid fun t => { t with replay := t.replay ++ [⟨kind, p.pa, ops, leNat (d.take 8), t.openMark⟩] }
      else { s with peers := s.peers.set k { p with dest := 9, d := leNat (d.take 8) } }
    else if p.kind = 1 then gone.peerAcked (p.pa / 64)
    else gone

/-- PEER_RESPONSE (R455). -/
def execPeerResponse (k : Nat) (data : List Byte) (s : State) : Out := .next (s.peerAnswers k data)

/-- Event 0x11 (R164). -/
def State.peerEvent (s : State) (p : PeerAcc) (refused : Bool) : State :=
  s.post 0x11 8 0 ((p.peer % 256) <<< 120 ||| b01 refused <<< 116 ||| (p.kind % 4) <<< 112 ||| p.pa % 2 ^ 52)

/-- The unit that waits for a peer meets poison: an uncorrectable error of its engine, raised before any effect. -/
def State.peerPoison (s : State) (p : PeerAcc) : State :=
  let k := p.thr
  let t := s.thread k
  let c : Cause := ⟨cUncorrectable, 3, p.pa⟩
  if !t.running || t.halted then s
  else if p.d = 0 then
    if t.seq = p.seq then s.raiseAt k (t.ctlFault (((s.wordAtPc k).bind wordEng).getD .control) c) else s
  else
    match engSqs.find? fun q => q.code == p.d with
    | none => s
    | some q =>
      match t.nextUnit q with
      | some (u, loop) =>
        if u.seq = p.seq then
          (s.setThread k (t.putUnit q loop { u with begun := false })).raiseAt k (t.engFault ((wordEng u.word).getD .load) q loop u c)
        else s
      | none => s

/-- An access that its peer does not answer or refuses: a load or an atomic is delivered poisoned, a write is dropped. -/
def State.peerFails (s : State) (k : Nat) (refused : Bool) : State :=
  match s.peers[k]? with
  | none => s
  | some p =>
    if p.dest = 9 ∨ p.dest = 6 then s
    else
      let s1 := s
      let s := ({ s with peers := s.peers.eraseIdx k }).peerEvent p refused
      if p.thr = engineReader.1 ∧ p.dest = 7 then (s1.peerEvent p refused).homeAnswer k 0#512 true
      else if p.dest = 8 then s else if p.kind = 0 ∨ p.kind = 2 then s.peerPoison p else if p.kind = 1 then s.peerAcked (p.pa / 64) else s

/-- PEER_TIMEOUT: 1 ms without an answer (R455). -/
def execPeerTimeout (k : Nat) (s : State) : Out :=
  .next (if ((s.peers[k]?).map fun p => decide (p.issued + 1000000 ≤ s.now)).getD false then s.peerFails k false else s)

/-- PEER_REFUSAL (R69, R455). -/
def execPeerRefusal (k : Nat) (s : State) : Out := .next (s.peerFails k true)

/-! ## Collectives: what a rank contributes (R457, R458) -/

/-- An asynchronous cause of a task's thread, by its gang position: it is pended in the thread, or kept with the task while the thread holds no
plane (R419, R423). -/
def State.postAsync (s : State) (uid pos : Nat) (c : Cause) : State :=
  match s.threadAt uid pos with
  | some k => s.modThread k fun t => { t with async := t.async ++ [c] }
  | none => s.modTask uid fun t => { t with async := t.async ++ [(pos, c)] }

/-- The poisoned lines that a collective reads in a range of memory at offset `ofs` of its input: where the bytes of each stand in the input,
how many they are, and the line. -/
def State.collTaint (s : State) (ofs pa n : Nat) : List (Nat × Nat × Nat) :=
  (s.poisonLines pa n).map fun l => (ofs + (max pa (l * 64) - pa), min (pa + n) (l * 64 + 64) - max pa (l * 64), l)

/-- Bytes at a virtual address of a collective, read at home; those with no translation are free values. With them go the poisoned lines. -/
def State.collRead (s : State) (c : Coll) (va n : Nat) : Except State (State × List Byte × List (Nat × Nat × Nat)) :=
  (vaParts va n).foldlM (fun (a : State × List Byte × List (Nat × Nat × Nat)) p =>
    match a.1.collPa c p.1 with
    | none => .ok (a.1, a.2.1 ++ a.1.freeBytes (64 + (p.1 - va)) p.2, a.2.2)
    | some pa =>
      match a.1.tryHome (a.1.homeBytes pa p.2) with
      | .error s => .error s
      | .ok (s, l, bad) => .ok (s, a.2.1 ++ l, if bad then a.2.2 ++ s.collTaint (p.1 - va) pa p.2 else a.2.2)) (s, [], [])

/-- Bytes of a rank's input: this module's own from SRC, another's as received; none when they have not all come. -/
def State.collInput (s : State) (c : Coll) (m : Comm) (rank ofs n : Nat) : Except State (State × Option (List Byte) × List (Nat × Nat × Nat)) :=
  if rank = m.rank then (s.collRead c (c.src + ofs) n).map fun r => (r.1, some r.2.1, r.2.2)
  else .ok (s, c.received rank ofs n, [])

/-- The inputs of every rank for a range of a reduction's elements. -/
def State.collInputs (s : State) (c : Coll) (m : Comm) (ofs n : Nat) : Except State (State × Option (List (List Byte)) × List (Nat × Nat × Nat)) :=
  (List.range m.n).foldlM (fun (a : State × Option (List (List Byte)) × List (Nat × Nat × Nat)) r => do
    let (s, l, bad) ← a.1.collInput c m r ofs n
    .ok (s, a.2.1.bind fun ls => l.map fun x => ls ++ [x], a.2.2 ++ bad)) (s, some [], [])

/-- A converted input: the conversion to FP32 is exact, and raises no flag. -/
def collVal (fmt x : Nat) : Val :=
  match decodeFmt fmt x with
  | .nan _ => .nan (decide (fmt = 0) && (decodeFmt fmt x).isSig)
  | v => v

/-- One element of a reduction over the ranks, with its flags: the pairwise levels over rank number, and one last rounding. -/
def collReduce (op fmt : Nat) (xs : List Nat) : Nat × Fl :=
  let step := if op = 1 then minmaxStep false else if op = 2 then minmaxStep true else sumStep rne
  let (v, f) := reduceAll step (xs.length / 64 + 1) none (xs.map (collVal fmt))
  let (r, g) := roundFmt fmt rne (v.getD (.fin false 0 0))
  (r, f ||| g)

/-- The result of a reduction for a range of elements. -/
def collReduceAll (op fmt es n : Nat) (ins : List (List Byte)) : List Byte × Fl :=
  (List.range (n / es)).foldl (fun (a : List Byte × Fl) i =>
    let (r, f) := collReduce op fmt (ins.map fun l => field l (es * i) es)
    (a.1 ++ leBytes es r, a.2 ||| f)) ([], 0#7)

/-- The output bytes `lo` to `lo + n − 1` at this rank, with flags; none while an input is missing. A count that the number of ranks does not
divide leaves an ALLGATHER's output unstated: free values. -/
def State.collOutput (s : State) (c : Coll) (m : Comm) (lo n : Nat) : Except State (State × Option (List Byte × Fl) × List (Nat × Nat × Nat)) :=
  let es := c.esize
  if c.op ≤ 3 then do
    let base := if c.op = 3 then m.rank * c.count * es else 0
    let (s, ins, bad) ← s.collInputs c m (base + lo) n
    .ok (s, ins.map (collReduceAll (if c.op = 3 then 0 else c.op) c.fmt es n), bad)
  else if c.op = 5 then do
    let (s, l, bad) ← s.collInput c m c.root lo n
    .ok (s, l.map fun x => (x, 0#7), bad)
  else
    let per := c.count / m.n * es
    if c.count % m.n ≠ 0 then .ok (s, some (s.freeBytes 64 n, 0#7), [])
    else
      (List.range m.n).foldlM (fun (a : State × Option (List Byte × Fl) × List (Nat × Nat × Nat)) r => do
        let x := max lo (r * per)
        let y := min (lo + n) (r * per + per)
        if y ≤ x then .ok a
        else
          let (s, l, bad) ← a.1.collInput c m r (x - r * per) (y - x)
          .ok (s, a.2.1.bind fun acc => l.map fun z => (acc.1 ++ z, 0#7), a.2.2 ++ bad.map fun e => (e.1 + (x - lo), e.2))) (s, some ([], 0#7), [])

/-! ## Chunks (R458, R460, R461) -/

/-- A collective leaves the engine: its count and flags set out to its barrier object, and its messages that have been delivered are forgotten. -/
def State.collEnds (s : State) (c : Coll) : State :=
  let s := { s with
    colls := s.colls.filter fun x => x != c
    eth := s.eth.filter fun (e : EthMsg) => !(e.num / 4096 == c.ord * 2 ^ 16 + c.comm % 2 ^ 16 && (e.inc || e.out.isEmpty)) }
  s.collCount c

/-- Bytes of this rank's input join a message, in packets of up to 4,096 bytes (R456). -/
def EthMsg.load (e : EthMsg) (ofs : Nat) (l : List Byte) (now : Nat) : EthMsg :=
  let n := (l.length + 4095) / 4096
  { e with
    next := e.next + n
    out := e.out ++ (List.range n).map fun j => ⟨e.next + j, ofs + 4096 * j, (l.drop (4096 * j)).take 4096, now⟩ }

/-- The first stage of a chunk: what the other ranks outside the domain need of this rank's input for it is read from SRC and sent (R456, R458,
R460). -/
def State.collSend (s : State) (c : Coll) (m : Comm) : Except State State :=
  m.outside.foldlM (fun (s : State) r => do
    let x := c.share m m.rank r c.chunk.1 c.chunk.2
    let (s, l, _) ← s.collRead c (c.src + x.1) x.2
    .ok { s with eth := s.eth.map fun (e : EthMsg) => if e.num = ethNum c.ord c.comm r ∧ !e.inc then e.load x.1 l s.now else e }) s

/-- May a range of a collective's output be written now. -/
def State.collMayWrite (s : State) (c : Coll) (va : Nat) (l : List Byte) : Bool :=
  (vaParts va l.length).all fun p =>
    match s.collPa c p.1 with
    | none => true
    | some pa => s.canEngineWriteRange pa ((l.drop (p.1 - va)).take p.2)

/-- BISnp goes out for the lines of a range of a collective's output (R444). -/
def State.collSnoop (s : State) (c : Coll) (va : Nat) (l : List Byte) : State :=
  (vaParts va l.length).foldl (fun s p =>
    match s.collPa c p.1 with
    | none => s
    | some pa => s.snoopRange pa ((l.drop (p.1 - va)).take p.2)) s

/-- Poisoned inputs poison the lines of the output that they enter, and each is counted and posted (R100, R231). -/
def State.collPoison (s : State) (c : Coll) (va : Nat) (bad : List (Nat × Nat × Nat)) : State :=
  bad.foldl (fun s e =>
    (vaParts (va + e.1) e.2.1).foldl (fun s p =>
      match s.collPa c p.1 with
      | none => s
      | some pa => (linesOf pa p.2).foldl (fun s l => s.setPoison l) s) (s.copyMeets 1 e.2.2)) s

/-- The second stage of a chunk: its inputs are all there, its output is written; after the last one the collective ends. -/
def State.collOut (s : State) (k : Nat) (c : Coll) (m : Comm) : State :=
  let (lo, n) := c.chunk
  if !((List.range m.n).all fun r => r == m.rank || c.heads.any fun h => h.1 == r) then s
  else
    match s.collOutput c m lo n with
    | .error s => s
    | .ok (_, none, _) => s
    | .ok (s1, some (l, f), bad) =>
      if !s1.collMayWrite c (c.dst + lo) l then s1.collSnoop c (c.dst + lo) l
      else
        let s2 := (s1.collWrite c (c.dst + lo) l).collPoison c (c.dst + lo) bad
        let c1 := { c with done := c.done ++ [(c.chunks, 1)], flags := orFlags c.flags f }
        let s2 := { s2 with fresh := s2.fresh + n, colls := s2.colls.set k c1 }
        if lo + n < c.count * c.esize then s2 else s2.collEnds c1

/-- The next chunk of a collective: what this rank gives to it is sent once, and its output follows when it can. -/
def State.collChunk (s : State) (k : Nat) : State :=
  match s.colls[k]? with
  | none => s
  | some c =>
    match s.commOf c with
    | none => s
    | some m =>
      if c.stopped then s
      else if c.done.contains (c.chunks, 0) then s.collOut k c m
      else
        match s.collSend c m with
        | .error s => s
        | .ok s1 =>
          let c1 := { c with done := c.done ++ [(c.chunks, 0)] }
          ({ s1 with colls := s1.colls.set k c1 } : State).collOut k c1 m

/-- COLLECTIVE_CHUNK_DONE (R457, R458, R460). -/
def execCollectiveChunkDone (k : Nat) (s : State) : Out := .next (s.collChunk k)

/-- COLLECTIVE_STALL: a rank that owes something has been silent for 1 s; the event is posted once (R461). -/
def execCollectiveStall (k rank : Nat) (s : State) : Out :=
  .next (match s.colls[k]? with
    | none => s
    | some c =>
      let due := ((s.commOf c).map fun m => c.owes m rank).getD false && decide (Tab.getD c.heard rank c.since + 1000000000 ≤ s.now)
      if c.stalled.isSome || !due then s else { s with colls := s.colls.set k { c with stalled := some rank } }.collEvent c rank 0)

/-! ## Ethernet (R456, R458) -/

/-- The ranks disagree: nothing is written, the count is added, NUMERIC goes to the issuing context (R419). -/
def State.collDisagree (s : State) (c : Coll) : State := (s.collEnds c).postAsync c.task c.pos ⟨cNumeric, 0, c.desc⟩

/-- A packet of a message is placed: packet 0 is the header of a rank, the others its input at their offsets. It is acknowledged, and packets
before it that have not come are reported as missing (R456). The collective is the one that the message's number names. -/
def State.ethPlace (s : State) (msg pkt ofs : Nat) (d : List Byte) : State :=
  let rank := msg % 4096
  match s.colls.find? fun c => decide (c.comm % 2 ^ 16 = msg / 4096 % 2 ^ 16 ∧ c.ord = msg / 2 ^ 28) with
  | none => s
  | some c =>
    let old := (s.eth.find? fun e => e.num == msg && e.inc).getD ⟨msg, true, 0, [], [], []⟩
    if old.got.contains pkt then s
    else
      let late := (List.range pkt).filter fun p => !(old.got.contains p || old.missing.contains p)
      let new := { old with got := old.got ++ [pkt], missing := old.missing.filter (· != pkt) ++ late }
      let s := { s with eth := (s.eth.filter fun (e : EthMsg) => !(e.num == msg && e.inc)) ++ [new] }
      let c0 := { c with heard := Tab.put rank s.now c.heard }
      let c1 := if pkt = 0 then { c0 with heads := c.heads ++ [(rank, field d 0 1, field d 1 1, field d 8 8)] }
        else { c0 with inputs := c.inputs ++ [(rank, ofs, d)] }
      let s := { s with colls := s.colls.map fun x => if x = c then c1 else x }
      if pkt = 0 ∧ (field d 0 1 ≠ c.op ∨ field d 1 1 ≠ c.fmt ∨ field d 8 8 ≠ c.count) then s.collDisagree c1 else s

/-- ETH_PACKET_ARRIVAL (R456): a duplicate is discarded by its packet number. -/
def execEthPacketArrival (_port msg pkt ofs : Nat) (data : List Byte) (s : State) : Out :=
  .next (if data.length ≤ 4096 then s.ethPlace msg pkt ofs data else s)

/-- Is a collective pending whose message this is. -/
def State.ethOpen (s : State) (e : EthMsg) : Bool := s.colls.any fun c => e.num / 4096 == c.ord * 2 ^ 16 + c.comm % 2 ^ 16

/-- ETH_ACK_ARRIVAL (R456): a message is delivered when every packet is acknowledged. -/
def execEthAckArrival (msg : Nat) (pkts : List Nat) (s : State) : Out :=
  let l := s.eth.map fun (e : EthMsg) => if e.num = msg ∧ !e.inc then { e with out := e.out.filter fun p => !pkts.contains p.pkt } else e
  .next { s with eth := l.filter fun (e : EthMsg) => e.num != msg || e.inc || !e.out.isEmpty || s.ethOpen e }

/-- A packet goes out again when it has not been acknowledged for 40 µs. -/
def EthPkt.again (now pkt : Nat) (p : EthPkt) : EthPkt := if p.pkt = pkt ∧ p.sentAt + 40000 ≤ now then { p with sentAt := now } else p

/-- ETH_RETRANSMIT_TIMEOUT (R456): a packet that is not acknowledged is sent again. -/
def execEthRetransmitTimeout (msg pkt : Nat) (s : State) : Out :=
  .next { s with eth := s.eth.map fun (e : EthMsg) => if e.num = msg ∧ !e.inc then { e with out := e.out.map (EthPkt.again s.now pkt) } else e }

end Sys2Proof.Machine
end

