-- ==== Sys2Proof/Machine/AgateEv.lean ====
section
/-! DEFINITION. Agate: its mailbox, its operations, and the SPDM responder (R95, R462 to R465). The request events run the responder's routine
to its reply, as its words would (Agate). -/

namespace Sys2Proof.Machine

open Sys2Proof

/-! ## Agate's own accesses (R465) -/

/-- MBOX_SEND. -/
def execMboxSend (len : BitVec 13) (s : State) : Out := .next { s with agate := s.agate.send len.toNat }

/-- An operation of ENG_CMD. -/
def State.engDo (s : State) (op cx cy len : Nat) : Out := .next { s with agate := s.agate.operate s.fresh op cx cy len }

/-- INIT. -/
def execEngInit (cx : BitVec 4) (s : State) : Out := s.engDo 1 cx.toNat 0 0
/-- ABSORB. -/
def execEngAbsorb (cx : BitVec 4) (len : BitVec 13) (s : State) : Out := s.engDo 2 cx.toNat 0 len.toNat
/-- DIGEST. -/
def execEngDigest (cx : BitVec 4) (s : State) : Out := s.engDo 3 cx.toNat 0 0
/-- CLONE. -/
def execEngClone (cx cy : BitVec 4) (s : State) : Out := s.engDo 4 cx.toNat cy.toNat 0
/-- EXTEND. -/
def execEngExtend (cx : BitVec 4) (s : State) : Out := s.engDo 5 cx.toNat 0 0
/-- SIGN. -/
def execEngSign (cy : BitVec 4) (s : State) : Out := s.engDo 6 0 cy.toNat 0
/-- RAND. -/
def execEngRand (len : BitVec 13) (s : State) : Out := s.engDo 7 0 0 len.toNat
/-- MBLOCK. -/
def execEngMblock (cx : BitVec 4) (s : State) : Out := s.engDo 8 cx.toNat 0 0
/-- MOVE. -/
def execEngMove (len : BitVec 13) (s : State) : Out := s.engDo 9 0 0 len.toNat

/-! ## The responder (R462, R464, R465) -/

/-- Offsets of the templates. -/
def tVer : Nat := 0x0100
def tCap : Nat := 0x0180
def tAlg : Nat := 0x0200
def tDig : Nat := 0x0300
def tCert : Nat := 0x1000

/-- A template: a length word and its bytes. -/
def Agate.template (a : Agate) (o : Nat) : List Byte := a.get (o + 8) (leNat (a.get o 8))

/-- The state of a path, S0 to S3. -/
def Agate.pathState (a : Agate) (p : Nat) : Nat := leNat (a.get (8 * p) 8)
def Agate.setPath (a : Agate) (p st : Nat) : Agate := a.put (8 * p) (leBytes 8 st)

/-- A request and its reply absorbed into a context. -/
def Agate.both (a : Agate) (c : Nat) (req rep : List Byte) : Agate := a.setCtx c (a.ctx c ++ req ++ rep)

/-- An ERROR reply. -/
def spdmError (code param : Nat) : List Byte := leBytes 1 0x14 ++ leBytes 1 0x7F ++ leBytes 1 code ++ leBytes 1 param

/-- What the routine leaves in ENG_SRC, ENG_DST and ENG_STAT: those of its last operation. -/
def Agate.leaves (a : Agate) (src dst : Nat) : Agate := { a with src := src, dst := dst, fail := false }

/-- The scratch of the eight measurement blocks. -/
def Agate.scratch (a : Agate) (p : Nat) : Agate :=
  let b := (List.range 8).flatMap a.block
  (a.put scrBuf b).setCtx (4 * p + 3) b

/-- A reply signed over the digest of its transcript, which becomes VCA again. -/
def Agate.signed (a : Agate) (p c sel : Nat) (rep : List Byte) : Agate × List Byte :=
  let d := sha3 (a.ctx c)
  (((a.put scrBuf2 d).setCtx c (a.ctx (4 * p))).leaves scrBuf2 (repBuf + rep.length), rep ++ signature a.key sel d)

/-- GET_VERSION. -/
def Agate.getVersion (a : Agate) (p : Nat) (req : List Byte) : Agate × List Byte :=
  if field req 0 1 ≠ 0x10 then (a, spdmError 0x41 0)
  else if req.length ≠ 4 then (a, spdmError 0x01 0)
  else
    let rep := a.template tVer
    ((((a.setCtx (4 * p) []).both (4 * p) req rep).setPath p 1).leaves repBuf repBuf, rep)

/-- A request that needs a state, of this version. -/
def Agate.guarded (a : Agate) (p need : Nat) (req : List Byte) (ok : Bool) (f : Agate → Agate × List Byte) : Agate × List Byte :=
  if field req 0 1 ≠ 0x14 then (a, spdmError 0x41 0)
  else if a.pathState p ≠ need then (a, spdmError 0x04 0)
  else if !ok then (a, spdmError 0x01 0)
  else f a

/-- GET_CAPABILITIES. -/
def Agate.getCaps (a : Agate) (p : Nat) (req : List Byte) : Agate × List Byte :=
  a.guarded p 1 req (req.length == 20) fun a =>
    let rep := a.template tCap
    (((a.both (4 * p) req rep).setPath p 2).leaves repBuf repBuf, rep)

/-- NEGOTIATE_ALGORITHMS. -/
def Agate.negAlg (a : Agate) (p : Nat) (req : List Byte) : Agate × List Byte :=
  a.guarded p 2 req (decide (32 ≤ req.length) && field req 4 2 == req.length) fun a =>
    let rep := a.template tAlg
    let a := a.both (4 * p) req rep
    let v := a.ctx (4 * p)
    ((((a.setCtx (4 * p + 1) v).setCtx (4 * p + 2) v).setPath p 3).leaves repBuf repBuf, rep)

/-- GET_DIGESTS. -/
def Agate.getDigests (a : Agate) (p : Nat) (req : List Byte) : Agate × List Byte :=
  a.guarded p 3 req (req.length == 4) fun a =>
    let rep := a.template tDig
    ((a.both (4 * p + 1) req rep).leaves repBuf repBuf, rep)

/-- GET_CERTIFICATE. -/
def Agate.getCert (a : Agate) (p : Nat) (req : List Byte) : Agate × List Byte :=
  let chain := leNat (a.get tCert 8)
  let ofs := field req 4 2
  a.guarded p 3 req (field req 2 1 == 0 && req.length == 8 && decide (ofs < chain)) fun a =>
    let n := min (min (field req 6 2) (chain - ofs)) 4000
    let rep := leBytes 4 0x0214 ++ leBytes 2 n ++ leBytes 2 (chain - ofs - n) ++ a.get (tCert + 8 + ofs) n
    ((a.both (4 * p + 1) req rep).leaves repBuf (repBuf + 8), rep)

/-- CHALLENGE. -/
def Agate.challenge (a : Agate) (draw p : Nat) (req : List Byte) : Agate × List Byte :=
  let p2 := field req 3 1
  a.guarded p 3 req (field req 2 1 == 0 && req.length == 44 && (p2 == 0 || p2 == 1 || p2 == 0xFF)) fun a =>
    let sum := if p2 = 0 then [] else sha3 ((List.range 8).flatMap a.block)
    let rep := leBytes 4 0x01000314 ++ a.get (tDig + 12) 32 ++ drbgBytes draw 32 ++ sum ++ leBytes 2 0 ++ (req.drop 36).take 8
    ((if p2 = 0 then a else a.scratch p).both (4 * p + 1) req rep).signed p (4 * p + 1) 0 rep

/-- GET_MEASUREMENTS: L goes on through unsigned requests, as the routine has it, until a signed one covers it. -/
def Agate.getMeas (a : Agate) (draw p : Nat) (req : List Byte) : Agate × List Byte :=
  let p1 := field req 2 1
  let p2 := field req 3 1
  let sig := p1 % 2 == 1
  let ok := (if sig then field req 36 1 == 0 && req.length == 45 else req.length == 12) && p1 / 2 == 0
    && (p2 == 0 || p2 == 0xFF || decide (p2 ≤ 8))
  a.guarded p 3 req ok fun a =>
    let blocks := if p2 = 0 then [] else if p2 = 0xFF then (List.range 8).flatMap a.block else a.block (p2 - 1)
    let num := if p2 = 0 then 0 else if p2 = 0xFF then 8 else 1
    let rep := leBytes 4 (0x6014 + if p2 = 0 then 0x80000 else 0) ++ leBytes 1 num ++ leBytes 3 blocks.length ++ blocks ++ drbgBytes draw 32
      ++ leBytes 2 0 ++ (req.drop (if sig then 37 else 4)).take 8
    let a := a.both (4 * p + 2) req rep
    if sig then a.signed p (4 * p + 2) 1 rep else (a.leaves repBuf (repBuf + 42 + blocks.length), rep)

/-- Any other code. -/
def Agate.unsupported (a : Agate) (req : List Byte) : Agate × List Byte :=
  if field req 0 1 ≠ 0x14 then (a, spdmError 0x41 0) else (a, spdmError 0x07 (field req 1 1))

/-- The request code. -/
def reqCode (req : List Byte) : Nat := field req 1 1

/-- The routine's answer to a request, by its code. -/
def Agate.reply (a : Agate) (draw p : Nat) (req : List Byte) : Agate × List Byte :=
  match reqCode req with
  | 0x84 => a.getVersion p req
  | 0xE1 => a.getCaps p req
  | 0xE3 => a.negAlg p req
  | 0x81 => a.getDigests p req
  | 0x82 => a.getCert p req
  | 0x83 => a.challenge draw p req
  | 0xE0 => a.getMeas draw p req
  | _ => a.unsupported req

/-- The routine answers the request in the buffer. -/
def Agate.answer (a : Agate) (draw : Nat) : Agate :=
  let r := a.reply draw a.path (a.get reqBuf a.len)
  (r.1.put repBuf r.2).send r.2.length

/-- The routine answers the requests that enter the buffer, until none waits. -/
def Agate.answerAll (draw : Nat) : Nat → Agate → Agate
  | 0, a => a
  | n + 1, a => if a.req then Agate.answerAll (draw + 1) n (a.answer draw) else a

/-- A request arrives on a path: it waits while another one is in the buffer. When the responder stands at its wait the routine runs, to its
replies; otherwise its thread goes on word by word. The event applies to requests of its own code, once start-up serves the responder. -/
def State.spdm (s : State) (path : Nat) (req : List Byte) (own : Bool) : Out :=
  if path > 2 ∨ req.length < 4 ∨ req.length > 4096 ∨ !own ∨ s.boot.stage ≠ 4 then .next s
  else
    let s := if path = 2 then s.winPut bmcMbox req else s
    let a := if s.agate.req then { s.agate with waiting := s.agate.waiting ++ [(path, req)] } else s.agate.enter path req
    let s1 := { s with agate := if s.agateWaits then Agate.answerAll s.fresh (a.waiting.length + 1) a else a }
    .next (s1.bmcReply s.agate)

/-- GET_VERSION (R464). -/
def execGetVersion (path : Nat) (req : List Byte) (s : State) : Out := s.spdm path req (reqCode req == 0x84)
/-- GET_CAPABILITIES (R464). -/
def execGetCapabilities (path : Nat) (req : List Byte) (s : State) : Out := s.spdm path req (reqCode req == 0xE1)
/-- NEGOTIATE_ALGORITHMS (R464). -/
def execNegotiateAlgorithms (path : Nat) (req : List Byte) (s : State) : Out := s.spdm path req (reqCode req == 0xE3)
/-- GET_DIGESTS (R464). -/
def execGetDigests (path : Nat) (req : List Byte) (s : State) : Out := s.spdm path req (reqCode req == 0x81)
/-- GET_CERTIFICATE (R464). -/
def execGetCertificate (path : Nat) (req : List Byte) (s : State) : Out := s.spdm path req (reqCode req == 0x82)
/-- CHALLENGE (R464). -/
def execChallenge (path : Nat) (req : List Byte) (s : State) : Out := s.spdm path req (reqCode req == 0x83)
/-- GET_MEASUREMENTS (R464). -/
def execGetMeasurements (path : Nat) (req : List Byte) (s : State) : Out := s.spdm path req (reqCode req == 0xE0)

/-- The codes that the responder knows. -/
def spdmCodes : List Nat := [0x84, 0xE1, 0xE3, 0x81, 0x82, 0x83, 0xE0]

/-- SPDM_UNSUPPORTED_REQUEST (R464). -/
def execSpdmUnsupportedRequest (path : Nat) (req : List Byte) (s : State) : Out := s.spdm path req (!spdmCodes.contains (reqCode req))

end Sys2Proof.Machine
end

