-- ==== Sys2Proof/Machine/Control.lean ====
section
/-! DEFINITION. The control words: integer arithmetic, constants, predicates, control transfer, scalar accesses, handles, built engine
words and tokens (R282 to R305). -/

namespace Sys2Proof.Machine

open Sys2Proof

/-! ## Integer arithmetic and logic (R286 to R288) -/

/-- d computed from s1 and s2. -/
def aluRR (f : W → W → W) (d s : BitVec 5) (l : BitVec 1) (t : BitVec 5) (m : BitVec 1) (st : State) : M CtlRes := do
  let r := st.th
  let a ← rdG st r s.toNat 0
  let b ← rdG st r t.toNat 1
  .ok { s := st.setTh (wrG (freeG (freeG r l s.toNat) m t.toNat) d.toNat (f a b)) }

/-- d computed from s1 alone. -/
def aluR (f : W → W) (d s : BitVec 5) (l : BitVec 1) (st : State) : M CtlRes := do
  let r := st.th
  let a ← rdG st r s.toNat 0
  .ok { s := st.setTh (wrG (freeG r l s.toNat) d.toNat (f a)) }

/-- d computed from s1 and the sign-extended immediate (R283). -/
def aluRI (f : W → W → W) (d s : BitVec 5) (l : BitVec 1) (i : BitVec 12) (st : State) : M CtlRes :=
  aluR (fun a => f a (immW st.th.pfx 12 i.toNat)) d s l st

/-- d computed from s1 shifted by an unsigned immediate from 0 to 63 (R288). -/
def aluShiftI (f : W → Nat → W) (d s : BitVec 5) (l : BitVec 1) (i : BitVec 12) (st : State) : M CtlRes := do
  let n := immU st.th.pfx 12 i.toNat
  requireLegal (decide (n ≤ 63))
  aluR (fun a => f a n) d s l st

/-- High 64 bits of the signed and of the unsigned product. -/
def mulHiS (a b : W) : W := BitVec.ofInt 64 (a.toInt * b.toInt / 2 ^ 64)
def mulHiU (a b : W) : W := BitVec.ofNat 64 (a.toNat * b.toNat / 2 ^ 64)

/-- Division that never traps (R287): by zero the quotient is all ones and the remainder is the dividend. -/
def divS (a b : W) : W := if b = 0#64 then BitVec.allOnes 64 else BitVec.ofInt 64 (a.toInt.tdiv b.toInt)
def divU (a b : W) : W := if b = 0#64 then BitVec.allOnes 64 else BitVec.ofNat 64 (a.toNat / b.toNat)
def remS (a b : W) : W := if b = 0#64 then a else BitVec.ofInt 64 (a.toInt.tmod b.toInt)
def remU (a b : W) : W := if b = 0#64 then a else BitVec.ofNat 64 (a.toNat % b.toNat)

/-- Shift count of a register: its low six bits. -/
def shiftBy (f : W → Nat → W) (a b : W) : W := f a (b.toNat % 64)

/-- Leading zero bits, trailing zero bits, one bits. -/
def clz64 (a : W) : W := BitVec.ofNat 64 (if a = 0#64 then 64 else 63 - Nat.log2 a.toNat)
def ctz64 (a : W) : W := BitVec.ofNat 64 (((List.range 64).find? fun i => a.getLsbD i).getD 64)
def popc64 (a : W) : W := BitVec.ofNat 64 ((List.range 64).countP fun i => a.getLsbD i)

/-- Signed and unsigned smaller and larger. -/
def minS (a b : W) : W := if a.slt b then a else b
def maxS (a b : W) : W := if a.slt b then b else a
def minU (a b : W) : W := if a.ult b then a else b
def maxU (a b : W) : W := if a.ult b then b else a

/-- ADD (R286). -/
def execAdd (d s : BitVec 5) (l : BitVec 1) (t : BitVec 5) (m : BitVec 1) (st : State) : Out :=
  ctl .control false (wordOf (.add d s l t m)) (aluRR (fun a b => a + b) d s l t m) st
/-- ADDI (R286). -/
def execAddi (d s : BitVec 5) (l : BitVec 1) (i : BitVec 12) (st : State) : Out :=
  ctl .control false (wordOf (.addi d s l i)) (aluRI (fun a b => a + b) d s l i) st
/-- SUB (R286). -/
def execSub (d s : BitVec 5) (l : BitVec 1) (t : BitVec 5) (m : BitVec 1) (st : State) : Out :=
  ctl .control false (wordOf (.sub d s l t m)) (aluRR (fun a b => a - b) d s l t m) st
/-- MUL (R286). -/
def execMul (d s : BitVec 5) (l : BitVec 1) (t : BitVec 5) (m : BitVec 1) (st : State) : Out :=
  ctl .control false (wordOf (.mul d s l t m)) (aluRR (fun a b => a * b) d s l t m) st
/-- MULHS (R286). -/
def execMulhs (d s : BitVec 5) (l : BitVec 1) (t : BitVec 5) (m : BitVec 1) (st : State) : Out :=
  ctl .control false (wordOf (.mulhs d s l t m)) (aluRR mulHiS d s l t m) st
/-- MULHU (R286). -/
def execMulhu (d s : BitVec 5) (l : BitVec 1) (t : BitVec 5) (m : BitVec 1) (st : State) : Out :=
  ctl .control false (wordOf (.mulhu d s l t m)) (aluRR mulHiU d s l t m) st
/-- DIVS (R286, R287). -/
def execDivs (d s : BitVec 5) (l : BitVec 1) (t : BitVec 5) (m : BitVec 1) (st : State) : Out :=
  ctl .control false (wordOf (.divs d s l t m)) (aluRR divS d s l t m) st
/-- DIVU (R286, R287). -/
def execDivu (d s : BitVec 5) (l : BitVec 1) (t : BitVec 5) (m : BitVec 1) (st : State) : Out :=
  ctl .control false (wordOf (.divu d s l t m)) (aluRR divU d s l t m) st
/-- REMS (R286, R287). -/
def execRems (d s : BitVec 5) (l : BitVec 1) (t : BitVec 5) (m : BitVec 1) (st : State) : Out :=
  ctl .control false (wordOf (.rems d s l t m)) (aluRR remS d s l t m) st
/-- REMU (R286, R287). -/
def execRemu (d s : BitVec 5) (l : BitVec 1) (t : BitVec 5) (m : BitVec 1) (st : State) : Out :=
  ctl .control false (wordOf (.remu d s l t m)) (aluRR remU d s l t m) st
/-- AND (R286). -/
def execAnd (d s : BitVec 5) (l : BitVec 1) (t : BitVec 5) (m : BitVec 1) (st : State) : Out :=
  ctl .control false (wordOf (.and d s l t m)) (aluRR (fun a b => a &&& b) d s l t m) st
/-- ANDI (R286). -/
def execAndi (d s : BitVec 5) (l : BitVec 1) (i : BitVec 12) (st : State) : Out :=
  ctl .control false (wordOf (.andi d s l i)) (aluRI (fun a b => a &&& b) d s l i) st
/-- OR (R286). -/
def execOr (d s : BitVec 5) (l : BitVec 1) (t : BitVec 5) (m : BitVec 1) (st : State) : Out :=
  ctl .control false (wordOf (.or d s l t m)) (aluRR (fun a b => a ||| b) d s l t m) st
/-- ORI (R286). -/
def execOri (d s : BitVec 5) (l : BitVec 1) (i : BitVec 12) (st : State) : Out :=
  ctl .control false (wordOf (.ori d s l i)) (aluRI (fun a b => a ||| b) d s l i) st
/-- XOR (R286). -/
def execXor (d s : BitVec 5) (l : BitVec 1) (t : BitVec 5) (m : BitVec 1) (st : State) : Out :=
  ctl .control false (wordOf (.xor d s l t m)) (aluRR (fun a b => a ^^^ b) d s l t m) st
/-- XORI (R286). -/
def execXori (d s : BitVec 5) (l : BitVec 1) (i : BitVec 12) (st : State) : Out :=
  ctl .control false (wordOf (.xori d s l i)) (aluRI (fun a b => a ^^^ b) d s l i) st
/-- SHL (R286, R288). -/
def execShl (d s : BitVec 5) (l : BitVec 1) (t : BitVec 5) (m : BitVec 1) (st : State) : Out :=
  ctl .control false (wordOf (.shl d s l t m)) (aluRR (shiftBy fun a n => a <<< n) d s l t m) st
/-- SHLI (R286, R288). -/
def execShli (d s : BitVec 5) (l : BitVec 1) (i : BitVec 12) (st : State) : Out :=
  ctl .control false (wordOf (.shli d s l i)) (aluShiftI (fun a n => a <<< n) d s l i) st
/-- SHR (R286, R288). -/
def execShr (d s : BitVec 5) (l : BitVec 1) (t : BitVec 5) (m : BitVec 1) (st : State) : Out :=
  ctl .control false (wordOf (.shr d s l t m)) (aluRR (shiftBy fun a n => a >>> n) d s l t m) st
/-- SHRI (R286, R288). -/
def execShri (d s : BitVec 5) (l : BitVec 1) (i : BitVec 12) (st : State) : Out :=
  ctl .control false (wordOf (.shri d s l i)) (aluShiftI (fun a n => a >>> n) d s l i) st
/-- SAR (R286, R288). -/
def execSar (d s : BitVec 5) (l : BitVec 1) (t : BitVec 5) (m : BitVec 1) (st : State) : Out :=
  ctl .control false (wordOf (.sar d s l t m)) (aluRR (shiftBy fun a n => a.sshiftRight n) d s l t m) st
/-- SARI (R286, R288). -/
def execSari (d s : BitVec 5) (l : BitVec 1) (i : BitVec 12) (st : State) : Out :=
  ctl .control false (wordOf (.sari d s l i)) (aluShiftI (fun a n => a.sshiftRight n) d s l i) st
/-- MIN (R286). -/
def execMin (d s : BitVec 5) (l : BitVec 1) (t : BitVec 5) (m : BitVec 1) (st : State) : Out :=
  ctl .control false (wordOf (.min d s l t m)) (aluRR minS d s l t m) st
/-- MAX (R286). -/
def execMax (d s : BitVec 5) (l : BitVec 1) (t : BitVec 5) (m : BitVec 1) (st : State) : Out :=
  ctl .control false (wordOf (.max d s l t m)) (aluRR maxS d s l t m) st
/-- MINU (R286). -/
def execMinu (d s : BitVec 5) (l : BitVec 1) (t : BitVec 5) (m : BitVec 1) (st : State) : Out :=
  ctl .control false (wordOf (.minu d s l t m)) (aluRR minU d s l t m) st
/-- MAXU (R286). -/
def execMaxu (d s : BitVec 5) (l : BitVec 1) (t : BitVec 5) (m : BitVec 1) (st : State) : Out :=
  ctl .control false (wordOf (.maxu d s l t m)) (aluRR maxU d s l t m) st
/-- CLZ (R286). -/
def execClz (d s : BitVec 5) (l : BitVec 1) (st : State) : Out :=
  ctl .control false (wordOf (.clz d s l)) (aluR clz64 d s l) st
/-- CTZ (R286). -/
def execCtz (d s : BitVec 5) (l : BitVec 1) (st : State) : Out :=
  ctl .control false (wordOf (.ctz d s l)) (aluR ctz64 d s l) st
/-- POPC (R286). -/
def execPopc (d s : BitVec 5) (l : BitVec 1) (st : State) : Out :=
  ctl .control false (wordOf (.popc d s l)) (aluR popc64 d s l) st

/-! ## Constants, select, compare and predicates (R289 to R292) -/

/-- LDI (R289). -/
def execLdi (d : BitVec 5) (i : BitVec 18) (st : State) : Out :=
  ctl .control false (wordOf (.ldi d i)) (fun st => .ok { s := st.setTh (wrG st.th d.toNat (immW st.th.pfx 18 i.toNat)) }) st

/-- LDHI reads d, keeps its low half and sets its high half. -/
def ldhiBody (d : BitVec 5) (i : BitVec 18) (st : State) : M CtlRes := do
  let n := immU st.th.pfx 18 i.toNat
  requireLegal (decide (n < 2 ^ 32))
  let a ← rdG st st.th d.toNat 0
  .ok { s := st.setTh (wrG st.th d.toNat (BitVec.ofNat 64 (n <<< 32 ||| a.toNat % 2 ^ 32))) }

/-- LDHI (R289). -/
def execLdhi (d : BitVec 5) (i : BitVec 18) (st : State) : Out :=
  ctl .control false (wordOf (.ldhi d i)) (ldhiBody d i) st

/-- SEL (R290): both sources are read and freed. -/
def execSel (d s : BitVec 5) (l : BitVec 1) (t : BitVec 5) (m : BitVec 1) (p : BitVec 3) (st : State) : Out :=
  ctl .control false (wordOf (.sel d s l t m p))
    (fun st => aluRR (fun a b => if rdP st.th p.toNat then a else b) d s l t m st) st

/-- The conditions of R263; none for a reserved code. -/
def condHolds (c : Nat) (a b : W) : Option Bool :=
  match c with
  | 0 => some (a == b)
  | 1 => some (a != b)
  | 2 => some (a.slt b)
  | 3 => some (!a.slt b)
  | 4 => some (a.ult b)
  | 5 => some (!a.ult b)
  | 6 => some (!b.slt a)
  | 7 => some (b.slt a)
  | 8 => some (!b.ult a)
  | 9 => some (b.ult a)
  | _ => none

/-- CMP: pd from two registers. -/
def cmpBody (p : BitVec 3) (s : BitVec 5) (l : BitVec 1) (t : BitVec 5) (m : BitVec 1) (c : BitVec 4) (st : State) : M CtlRes := do
  let r := st.th
  let a ← rdG st r s.toNat 0
  let b ← rdG st r t.toNat 1
  match condHolds c.toNat a b with
  | none => illegal
  | some v => .ok { s := st.setTh (wrP (freeG (freeG r l s.toNat) m t.toNat) p.toNat v) }

/-- CMP (R291). -/
def execCmp (p : BitVec 3) (s : BitVec 5) (l : BitVec 1) (t : BitVec 5) (m : BitVec 1) (c : BitVec 4) (st : State) : Out :=
  ctl .control false (wordOf (.cmp p s l t m c)) (cmpBody p s l t m c) st

/-- CMPI: pd from a register and the sign-extended immediate. -/
def cmpiBody (p : BitVec 3) (c : BitVec 4) (s : BitVec 5) (l : BitVec 1) (i : BitVec 10) (st : State) : M CtlRes := do
  let r := st.th
  let a ← rdG st r s.toNat 0
  match condHolds c.toNat a (immW r.pfx 10 i.toNat) with
  | none => illegal
  | some v => .ok { s := st.setTh (wrP (freeG r l s.toNat) p.toNat v) }

/-- CMPI (R291). -/
def execCmpi (p : BitVec 3) (c : BitVec 4) (s : BitVec 5) (l : BitVec 1) (i : BitVec 10) (st : State) : Out :=
  ctl .control false (wordOf (.cmpi p c s l i)) (cmpiBody p c s l i) st

/-- PSET: pd from two predicates. -/
def psetBody (d s t o : BitVec 3) (st : State) : M CtlRes := do
  let a := rdP st.th s.toNat
  let b := rdP st.th t.toNat
  requireLegal (decide (o.toNat ≤ 3))
  let v := match o.toNat with
    | 0 => a && b
    | 1 => a || b
    | 2 => a != b
    | _ => a && !b
  .ok { s := st.setTh (wrP st.th d.toNat v) }

/-- PSET (R292). -/
def execPset (d s t o : BitVec 3) (st : State) : Out :=
  ctl .control false (wordOf (.pset d s t o)) (psetBody d s t o) st

/-! ## Control transfer (R293 to R295) -/

/-- A word address plus four times a signed word offset, on 64 bits. -/
def branchTarget (pc : Nat) (o : Int) : Nat := (((pc : Int) + 4 * o) % 2 ^ 64).toNat

/-- BR (R293): the address of the word itself is the base. -/
def execBr (p : BitVec 3) (n : BitVec 1) (o : BitVec 19) (st : State) : Out :=
  ctl .control false (wordOf (.br p n o)) (fun st =>
    .ok { s := st, pc := if rdP st.th p.toNat == (n == 0#1) then some (branchTarget st.th.pc (immS st.th.pfx 19 o.toNat)) else none }) st

/-- A transfer to the address in a register (R259, R294). -/
def jumpReg (s : BitVec 5) (l : BitVec 1) (st : State) : M CtlRes := do
  let a ← rdG st st.th s.toNat 0
  require (a.toNat % 4 == 0) cMisaligned 0 a.toNat
  .ok { s := st.setTh (freeG st.th l s.toNat), pc := some a.toNat }

/-- JMP (R294). -/
def execJmp (s : BitVec 5) (l : BitVec 1) (st : State) : Out := ctl .control false (wordOf (.jmp s l)) (jumpReg s l) st
/-- RET (R294). -/
def execRet (s : BitVec 5) (l : BitVec 1) (st : State) : Out := ctl .control false (wordOf (.ret s l)) (jumpReg s l) st

/-- CALL (R294). -/
def execCall (d : BitVec 5) (o : BitVec 18) (st : State) : Out :=
  ctl .control false (wordOf (.call d o)) (fun st =>
    .ok { s := st.setTh (wrG st.th d.toNat (BitVec.ofNat 64 (st.th.pc + 4)))
          pc := some (branchTarget st.th.pc (immS st.th.pfx 18 o.toNat)) }) st

/-- DBNZ counts d down and branches while it is not zero. -/
def dbnzBody (d : BitVec 5) (o : BitVec 18) (st : State) : M CtlRes := do
  requireLegal (d != 0#5)
  let a ← rdG st st.th d.toNat 0
  let v := a - 1#64
  .ok { s := st.setTh (wrG st.th d.toNat v)
        pc := if v = 0#64 then none else some (branchTarget st.th.pc (immS st.th.pfx 18 o.toNat)) }

/-- DBNZ (R295). -/
def execDbnz (d : BitVec 5) (o : BitVec 18) (st : State) : Out :=
  ctl .control false (wordOf (.dbnz d o)) (dbnzBody d o) st

/-! ## Scalar memory access (R297, R298) -/

/-- Room for one more access on the control path (R140). -/
def ctlRoom (t : Thread) : M PUnit := if t.ctlAcc.length < 8 then .ok ⟨⟩ else waitFor .performed

/-- LDS: the access is on its way, and its value reaches d when it performs; Agate's reads its SRAM at once (R465). -/
def ldsBody (d : BitVec 5) (h : BitVec 4) (z : BitVec 2) (x k : BitVec 1) (o : BitVec 10) (st : State) : M CtlRes := do
  let t ← ctlHandle st.th h.toNat
  let (ofs, t1) ← cmOfs st t k o
  let n := 2 ^ z.toNat
  let pa ← checkMem t h.toNat ofs n rightRD n
  if st.me = agateThr then
    let v := leNat (st.agate.get pa n)
    .ok { s := st.setTh (wrG t1 d.toNat (if x = 1#1 then BitVec.ofInt 64 (sext (8 * n) v) else BitVec.ofNat 64 v)) }
  else do
  ctlRoom t
  let t2 := t1.dropPending d.toNat
  let acc : CtlAcc :=
    { store := false, d := d.toNat, pa := pa, n := n, sx := x == 1#1, dat := 0, swm := t.swmOf h.toNat, pc := t.unitPc, seq := t.seq, dead := none }
  .ok { s := st.setTh { t2 with ctlAcc := t2.ctlAcc ++ [acc] } }

/-- LDS (R297). -/
def execLds (d : BitVec 5) (h : BitVec 4) (z : BitVec 2) (x k : BitVec 1) (o : BitVec 10) (st : State) : Out :=
  ctl .control false (wordOf (.lds d h z x k o)) (ldsBody d h z x k o) st

/-- STS: the bytes enter the task's version when the access performs; the version has room for them from the issue on (R85). That an access of
another path may pass it until then, and when it performs, are the model's choice under R104 (log 104). Agate's writes its SRAM at once (R465). -/
def stsBody (d : BitVec 5) (h : BitVec 4) (z : BitVec 2) (k : BitVec 1) (o : BitVec 10) (st : State) : M CtlRes := do
  let t ← ctlHandle st.th h.toNat
  let (ofs, t1) ← cmOfs st t k o
  let v ← rdG st t d.toNat 0
  let n := 2 ^ z.toNat
  let pa ← checkMem t h.toNat ofs n rightWR n
  if st.me = agateThr then .ok { s := { st with agate := st.agate.put pa (leBytes n v.toNat) }.setTh t1 }
  else do
  ctlRoom t
  st.versionRoom st.me (linesOf pa n)
  let acc : CtlAcc :=
    { store := true, d := 0, pa := pa, n := n, sx := false, dat := v.toNat, swm := t.swmOf h.toNat, pc := t.unitPc, seq := t.seq, dead := none }
  .ok { s := st.setTh { t1 with ctlAcc := t1.ctlAcc ++ [acc] } }

/-- STS (R297). -/
def execSts (d : BitVec 5) (h : BitVec 4) (z : BitVec 2) (k : BitVec 1) (o : BitVec 10) (st : State) : Out :=
  ctl .control true (wordOf (.sts d h z k o)) (stsBody d h z k o) st

/-! ## Handles (R299 to R301) -/

/-- XLATE: the TLBs are looked up, and the settle follows. -/
def xlateBody (h : BitVec 4) (s : BitVec 5) (l : BitVec 1) (t : BitVec 5) (r : BitVec 3) (st : State) : M CtlRes := do
  requireLegal (r != 0#3)
  let th := st.th
  let va ← rdG st th s.toNat 0
  let th1 := (freeG th l s.toNat).dropPending t.toNat
  .ok { s := (st.setTh th1).startSettle st.me th.seq h.toNat false t.toNat va.toNat r.toNat }

/-- XLATE (R299). -/
def execXlate (h : BitVec 4) (s : BitVec 5) (l : BitVec 1) (t : BitVec 5) (r : BitVec 3) (st : State) : Out :=
  ctl .control false (wordOf (.xlate h s l t r)) (xlateBody h s l t r) st

/-- HWAIT waits while the handle is PENDING. -/
def hwaitBody (h : BitVec 4) (st : State) : M CtlRes := do
  let t ← ctlHandle st.th h.toNat
  if hState (vget t.h h.toNat 0#64) = 1 then waitFor .handle else .ok { s := st }

/-- HWAIT (R300). -/
def execHwait (h : BitVec 4) (st : State) : Out := ctl .control false (wordOf (.hwait h)) (hwaitBody h) st

/-- HREL empties the handle and advances GEN. -/
def hrelBody (h : BitVec 4) (st : State) : M CtlRes := do
  let t ← ctlHandle st.th h.toNat
  let b : BitVec 16 := 1#16 <<< h.toNat
  .ok { s := st.setTh { (t.writeHandle h.toNat 0 0 0 0) with hPoison := t.hPoison &&& ~~~b, hSwm := t.hSwm &&& ~~~b } }

/-- HREL (R301). -/
def execHrel (h : BitVec 4) (st : State) : Out := ctl .control false (wordOf (.hrel h)) (hrelBody h) st

/-! ## Building engine words, and tokens (R272, R302 to R305) -/

/-- The unit that EMIT builds, checked under R272. A second register that holds no prefix word fails at position 0 (R302). -/
def emitUnit (pfx : List W32) (w : W32) : Except Cause (Instr × Pfx × Eng) :=
  let bad (p : Nat) : Cause := ⟨cIllegalOp, 0, p * 2 ^ 32 + ((pfx ++ [w]).getD p w).toNat⟩
  match checkUnit pfx w with
  | .error p => .error (bad (if (readPfx pfx).isNone then 0 else p))
  | .ok (i, p) =>
    if p.pred.isSome then .error (bad 0)
    else
      match wordEng w with
      | some .control | some .system | none => .error (bad pfx.length)
      | some e => .ok (i, p, e)

/-- EMIT: the unit enters its queue at the EMIT's place; a full queue is waited for. -/
def emitBody (pfx : List W32) (w : W32) (freed : Thread → Thread) (st : State) : M CtlRes :=
  match emitUnit pfx w with
  | .error c => .error (.cause c)
  | .ok (_, p, e) =>
    let t := st.th
    let t1 := freed t
    let r := p.rep.getD (1, 0)
    let u : QUnit :=
      { seq := t.seq, pc := t.unitPc, next := t.pc + 4, pfx := pfx, word := w, marker := false, snap := t.snap, snapN := t1.snap,
        rep := 0, n := r.1, mask := r.2, begun := false }
    match t1.steer e.sq u with
    | none => waitFor .cmdQueue
    | some (t2, _, bad) =>
      if bad then .ok { s := (st.setTh t2).resteerMismatch st.me w t.unitPc, gone := true }
      else .ok { s := st.setTh t2 }

/-- EMIT s1 (R302). -/
def execEmit (s : BitVec 5) (l : BitVec 1) (st : State) : Out :=
  ctl .control false (wordOf (.emit s l)) (fun st => do
    let a ← rdG st st.th s.toNat 0
    emitBody [] (a.setWidth 32) (fun t => freeG t l s.toNat) st) st

/-- EMIT s1, s2 (R302). -/
def execEmitWithPrefix (s : BitVec 5) (l : BitVec 1) (t : BitVec 5) (m : BitVec 1) (st : State) : Out :=
  ctl .control false (wordOf (.emitWithPrefix s l t m)) (fun st => do
    let a ← rdG st st.th s.toNat 0
    let b ← rdG st st.th t.toNat 1
    emitBody [b.setWidth 32] (a.setWidth 32) (fun r => freeG (freeG r l s.toNat) m t.toNat) st) st

/-- WAITT takes its tokens in one step once they are all there. -/
def waittBody (c : BitVec 6) (p : BitVec 4) (st : State) : M CtlRes := do
  requireLegal (decide (6 ≤ p.toNat ∧ p.toNat ≤ 8) && c != 0#6)
  if vget st.th.tok p.toNat 0 < c.toNat then waitFor .token
  else .ok { s := st.setTh (popTok st.th p.toNat c.toNat) }

/-- WAITT (R303). -/
def execWaitt (c : BitVec 6) (p : BitVec 4) (st : State) : Out := ctl .control true (wordOf (.waitt c p)) (waittBody c p) st

/-- SIGT pushes tokens; a count past 63 is cut and raised after the push. -/
def sigtBody (c : BitVec 6) (p : BitVec 4) (st : State) : M CtlRes := do
  requireLegal (decide (3 ≤ p.toNat ∧ p.toNat ≤ 5) && c != 0#6)
  let r := pushTok st.th p.toNat c.toNat
  .ok { s := st.setTh r.1, late := if r.2 then some ⟨cTokenOverflow, 0, p.toNat⟩ else none }

/-- SIGT (R304). -/
def execSigt (c : BitVec 6) (p : BitVec 4) (st : State) : Out := ctl .control true (wordOf (.sigt c p)) (sigtBody c p) st

/-- TKCNT reads a token count. -/
def tkcntBody (d : BitVec 5) (p : BitVec 4) (st : State) : M CtlRes := do
  requireLegal (decide (p.toNat ≤ 8))
  .ok { s := st.setTh (wrG st.th d.toNat (BitVec.ofNat 64 (vget st.th.tok p.toNat 0))) }

/-- TKCNT (R305). -/
def execTkcnt (d : BitVec 5) (p : BitVec 4) (st : State) : Out := ctl .control false (wordOf (.tkcnt d p)) (tkcntBody d p) st

end Sys2Proof.Machine
end

