-- ==== Sys2Proof/Machine/SpecialWords.lean ====
section
/-! DEFINITION. The special-function words (R254, R389, R390). -/

namespace Sys2Proof.Machine

open Sys2Proof

/-- The largest and the smallest magnitude of a list of values. -/
def magEnds (l : List Val) : Val × Val :=
  match l with
  | [] => (.fin false 0 0, .fin false 0 0)
  | a :: r => r.foldl (fun (x : Val × Val) v =>
      (if x.1.cmp v.abs = .lt then v.abs else x.1, if v.abs.cmp x.2 = .lt then v.abs else x.2)) (a.abs, a.abs)

/-- ULP of the largest result (R254). -/
def ulpOf (r : List Nat) : W32 := bUlp (maxExp (vals32 r))

/-- The bound of a special function: ULP(e) + D times the source's bound (R254). -/
def sfnBound (f : SFn) (i : VIn) (r : List Nat) : W32 :=
  let (big, small) := magEnds (vals32 i.x1)
  unlessNaN r (if i.e1 = bInf then bInf else bAdd (ulpOf r) (bMul (sfnD f big small i.e1) (f32 i.e1)))

/-- The bound of a division: the rule of VMUL for x and 1/y, with the term of SRCP for y (R254). The rounding term is ULP(e) in every
rounding mode (log 163). -/
def divBound (i : VIn) (r : List Nat) : W32 :=
  let (_, small) := magEnds (vals32 i.x2)
  let d := sfnD .rcp small small i.e2
  let inv := match small with
    | .fin _ m e => if m = 0 then some 1000 else let (q, x) := quotient 1 0 m e; ceilExp (.fin false q x)
    | _ => none
  unlessNaN r (if d = bInf ∨ i.e2 = bInf then bInf
    else bAdd (ulpOf r) (bMulTerm (maxCeil (vals32 i.x1)) inv i.e1 (bMul d (f32 i.e2))))

/-- A special-function word of one source. -/
def sfnBody (f : SFn) (d s : BitVec 4) (l k p q : BitVec 1) (u : QUnit) (st : State) : M EngRes :=
  vec1 d s l k p q (fun md i => map32 (fun x => sfn32 f md (f32 x)) i.x1) (fun _ i r => sfnBound f i r) u st

/-- SEXP2 (R390). -/
def execSexp2 (w e : BitVec 2) (d s : BitVec 4) (l k p q : BitVec 1) (st : State) : Out :=
  engWord .special (wordOf (.sexp2 w e d s l k p q)) (sfnBody .exp2 d s l k p q) st
/-- SLOG2 (R390). -/
def execSlog2 (w e : BitVec 2) (d s : BitVec 4) (l k p q : BitVec 1) (st : State) : Out :=
  engWord .special (wordOf (.slog2 w e d s l k p q)) (sfnBody .log2 d s l k p q) st
/-- SEXP (R390). -/
def execSexp (w e : BitVec 2) (d s : BitVec 4) (l k p q : BitVec 1) (st : State) : Out :=
  engWord .special (wordOf (.sexp w e d s l k p q)) (sfnBody .exp d s l k p q) st
/-- SLN (R390). -/
def execSln (w e : BitVec 2) (d s : BitVec 4) (l k p q : BitVec 1) (st : State) : Out :=
  engWord .special (wordOf (.sln w e d s l k p q)) (sfnBody .ln d s l k p q) st
/-- SRCP (R390). -/
def execSrcp (w e : BitVec 2) (d s : BitVec 4) (l k p q : BitVec 1) (st : State) : Out :=
  engWord .special (wordOf (.srcp w e d s l k p q)) (sfnBody .rcp d s l k p q) st
/-- SSQRT (R390). -/
def execSsqrt (w e : BitVec 2) (d s : BitVec 4) (l k p q : BitVec 1) (st : State) : Out :=
  engWord .special (wordOf (.ssqrt w e d s l k p q)) (sfnBody .sqrt d s l k p q) st
/-- SRSQ (R390). -/
def execSrsq (w e : BitVec 2) (d s : BitVec 4) (l k p q : BitVec 1) (st : State) : Out :=
  engWord .special (wordOf (.srsq w e d s l k p q)) (sfnBody .rsq d s l k p q) st
/-- STANH (R390). -/
def execStanh (w e : BitVec 2) (d s : BitVec 4) (l k p q : BitVec 1) (st : State) : Out :=
  engWord .special (wordOf (.stanh w e d s l k p q)) (sfnBody .tanh d s l k p q) st
/-- SSIGM (R390). -/
def execSsigm (w e : BitVec 2) (d s : BitVec 4) (l k p q : BitVec 1) (st : State) : Out :=
  engWord .special (wordOf (.ssigm w e d s l k p q)) (sfnBody .sigm d s l k p q) st
/-- SSIN (R390). -/
def execSsin (w e : BitVec 2) (d s : BitVec 4) (l k p q : BitVec 1) (st : State) : Out :=
  engWord .special (wordOf (.ssin w e d s l k p q)) (sfnBody .sin d s l k p q) st
/-- SCOS (R390). -/
def execScos (w e : BitVec 2) (d s : BitVec 4) (l k p q : BitVec 1) (st : State) : Out :=
  engWord .special (wordOf (.scos w e d s l k p q)) (sfnBody .cos d s l k p q) st
/-- SERF (R390). -/
def execSerf (w e : BitVec 2) (d s : BitVec 4) (l k p q : BitVec 1) (st : State) : Out :=
  engWord .special (wordOf (.serf w e d s l k p q)) (sfnBody .erf d s l k p q) st
/-- SDIV (R390). -/
def execSdiv (w e : BitVec 2) (d s : BitVec 4) (l : BitVec 1) (t : BitVec 4) (u k p q : BitVec 1) (st : State) : Out :=
  engWord .special (wordOf (.sdiv w e d s l t u k p q)) (vec2 d s l t u k p q false (fun md i => zip32 (fun x y => div32 md (f32 x) (f32 y)) i.x1 i.x2) (fun _ i r => divBound i r)) st
/-- SFNOP (R389). -/
def execSfnop (w e : BitVec 2) (st : State) : Out := engWord .special (wordOf (.sfnop w e)) (fun _ s => .ok { s := s }) st

end Sys2Proof.Machine
end

