-- ==== Sys2Proof/Machine/Dispatch.lean ====
section
/-! DEFINITION. The meaning of each instruction, one arm per constructor. -/

namespace Sys2Proof.Machine

open Sys2Proof

def exec (i : Instr) (s : State) : Host.Outcome State Fault Refusal :=
  match i with
  | .add a b c d e => Sys2Proof.Machine.execAdd a b c d e s
  | .addi a b c d => Sys2Proof.Machine.execAddi a b c d s
  | .sub a b c d e => Sys2Proof.Machine.execSub a b c d e s
  | .mul a b c d e => Sys2Proof.Machine.execMul a b c d e s
  | .mulhs a b c d e => Sys2Proof.Machine.execMulhs a b c d e s
  | .mulhu a b c d e => Sys2Proof.Machine.execMulhu a b c d e s
  | .divs a b c d e => Sys2Proof.Machine.execDivs a b c d e s
  | .divu a b c d e => Sys2Proof.Machine.execDivu a b c d e s
  | .rems a b c d e => Sys2Proof.Machine.execRems a b c d e s
  | .remu a b c d e => Sys2Proof.Machine.execRemu a b c d e s
  | .and a b c d e => Sys2Proof.Machine.execAnd a b c d e s
  | .andi a b c d => Sys2Proof.Machine.execAndi a b c d s
  | .or a b c d e => Sys2Proof.Machine.execOr a b c d e s
  | .ori a b c d => Sys2Proof.Machine.execOri a b c d s
  | .xor a b c d e => Sys2Proof.Machine.execXor a b c d e s
  | .xori a b c d => Sys2Proof.Machine.execXori a b c d s
  | .shl a b c d e => Sys2Proof.Machine.execShl a b c d e s
  | .shli a b c d => Sys2Proof.Machine.execShli a b c d s
  | .shr a b c d e => Sys2Proof.Machine.execShr a b c d e s
  | .shri a b c d => Sys2Proof.Machine.execShri a b c d s
  | .sar a b c d e => Sys2Proof.Machine.execSar a b c d e s
  | .sari a b c d => Sys2Proof.Machine.execSari a b c d s
  | .min a b c d e => Sys2Proof.Machine.execMin a b c d e s
  | .max a b c d e => Sys2Proof.Machine.execMax a b c d e s
  | .minu a b c d e => Sys2Proof.Machine.execMinu a b c d e s
  | .maxu a b c d e => Sys2Proof.Machine.execMaxu a b c d e s
  | .clz a b c => Sys2Proof.Machine.execClz a b c s
  | .ctz a b c => Sys2Proof.Machine.execCtz a b c s
  | .popc a b c => Sys2Proof.Machine.execPopc a b c s
  | .ldi a b => Sys2Proof.Machine.execLdi a b s
  | .ldhi a b => Sys2Proof.Machine.execLdhi a b s
  | .sel a b c d e f => Sys2Proof.Machine.execSel a b c d e f s
  | .cmp a b c d e f => Sys2Proof.Machine.execCmp a b c d e f s
  | .cmpi a b c d e => Sys2Proof.Machine.execCmpi a b c d e s
  | .pset a b c d => Sys2Proof.Machine.execPset a b c d s
  | .br a b c => Sys2Proof.Machine.execBr a b c s
  | .jmp a b => Sys2Proof.Machine.execJmp a b s
  | .call a b => Sys2Proof.Machine.execCall a b s
  | .ret a b => Sys2Proof.Machine.execRet a b s
  | .dbnz a b => Sys2Proof.Machine.execDbnz a b s
  | .lds a b c d e f => Sys2Proof.Machine.execLds a b c d e f s
  | .sts a b c d e => Sys2Proof.Machine.execSts a b c d e s
  | .xlate a b c d e => Sys2Proof.Machine.execXlate a b c d e s
  | .hwait a => Sys2Proof.Machine.execHwait a s
  | .hrel a => Sys2Proof.Machine.execHrel a s
  | .emit a b => Sys2Proof.Machine.execEmit a b s
  | .emitWithPrefix a b c d => Sys2Proof.Machine.execEmitWithPrefix a b c d s
  | .waitt a b => Sys2Proof.Machine.execWaitt a b s
  | .sigt a b => Sys2Proof.Machine.execSigt a b s
  | .tkcnt a b => Sys2Proof.Machine.execTkcnt a b s
  | .join a b c d => Sys2Proof.Machine.execJoin a b c d s
  | .leave a b c => Sys2Proof.Machine.execLeave a b c s
  | .gbar a b c => Sys2Proof.Machine.execGbar a b c s
  | .ginfo a b c d => Sys2Proof.Machine.execGinfo a b c d s
  | .rdcsr a b => Sys2Proof.Machine.execRdcsr a b s
  | .wrcsr a b c => Sys2Proof.Machine.execWrcsr a b c s
  | .csrs a b c => Sys2Proof.Machine.execCsrs a b c s
  | .csrc a b c => Sys2Proof.Machine.execCsrc a b c s
  | .trap a b c => Sys2Proof.Machine.execTrap a b c s
  | .trapret => Sys2Proof.Machine.execTrapret s
  | .install a b c => Sys2Proof.Machine.execInstall a b c s
  | .phint a => Sys2Proof.Machine.execPhint a s
  | .pfence a => Sys2Proof.Machine.execPfence a s
  | .fence a b => Sys2Proof.Machine.execFence a b s
  | .qsync => Sys2Proof.Machine.execQsync s
  | .tcommit => Sys2Proof.Machine.execTcommit s
  | .tend => Sys2Proof.Machine.execTend s
  | .tabort a => Sys2Proof.Machine.execTabort a s
  | .pswap a b c => Sys2Proof.Machine.execPswap a b c s
  | .kick a b c => Sys2Proof.Machine.execKick a b c s
  | .kickR a b c => Sys2Proof.Machine.execKickR a b c s
  | .nwait a b c d e => Sys2Proof.Machine.execNwait a b c d e s
  | .barinit a b c d => Sys2Proof.Machine.execBarinit a b c d s
  | .barexp a b c d => Sys2Proof.Machine.execBarexp a b c d s
  | .barwait a b c d => Sys2Proof.Machine.execBarwait a b c d s
  | .snapc a b c d => Sys2Proof.Machine.execSnapc a b c d s
  | .opreq a b => Sys2Proof.Machine.execOpreq a b s
  | .curtq a => Sys2Proof.Machine.execCurtq a s
  | .rdtime a => Sys2Proof.Machine.execRdtime a s
  | .rdengy a b => Sys2Proof.Machine.execRdengy a b s
  | .dhops a b c d e => Sys2Proof.Machine.execDhops a b c d e s
  | .vdmap a b c d e => Sys2Proof.Machine.execVdmap a b c d e s
  | .coll a b c d => Sys2Proof.Machine.execColl a b c d s
  | .idle a => Sys2Proof.Machine.execIdle a s
  | .ecall a b c => Sys2Proof.Machine.execEcall a b c s
  | .rep a b c d => Sys2Proof.Machine.execRep a b c d s
  | .pred a b => Sys2Proof.Machine.execPred a b s
  | .exti a => Sys2Proof.Machine.execExti a s
  | .ld a b c d e f g h j => Sys2Proof.Machine.execLd a b c d e f g h j s
  | .ldx a b c d e f g h => Sys2Proof.Machine.execLdx a b c d e f g h s
  | .ldsc a b c d e f g h => Sys2Proof.Machine.execLdsc a b c d e f g h s
  | .ldbd a b c d e f => Sys2Proof.Machine.execLdbd a b c d e f s
  | .lsub a b c d e f => Sys2Proof.Machine.execLsub a b c d e f s
  | .lunsub a b c => Sys2Proof.Machine.execLunsub a b c s
  | .qbind a b c d e f => Sys2Proof.Machine.execQbind a b c d e f s
  | .qfree a b c => Sys2Proof.Machine.execQfree a b c s
  | .splk a b c d e f g h j => Sys2Proof.Machine.execSplk a b c d e f g h j s
  | .pfetch a b c d e f g => Sys2Proof.Machine.execPfetch a b c d e f g s
  | .xlatl a b c d e f g => Sys2Proof.Machine.execXlatl a b c d e f g s
  | .lmark a b c d e f => Sys2Proof.Machine.execLmark a b c d e f s
  | .lloop a b c => Sys2Proof.Machine.execLloop a b c s
  | .xmov a b c d e f => Sys2Proof.Machine.execXmov a b c d e f s
  | .xadd a b c d e f g => Sys2Proof.Machine.execXadd a b c d e f g s
  | .xaddi a b c d e f => Sys2Proof.Machine.execXaddi a b c d e f s
  | .xshl a b c d e f => Sys2Proof.Machine.execXshl a b c d e f s
  | .lnop a b => Sys2Proof.Machine.execLnop a b s
  | .st a b c d e f g h => Sys2Proof.Machine.execSt a b c d e f g h s
  | .stx a b c d e f g h => Sys2Proof.Machine.execStx a b c d e f g h s
  | .stbd a b c d e f => Sys2Proof.Machine.execStbd a b c d e f s
  | .sunlk a b c d e f g h j => Sys2Proof.Machine.execSunlk a b c d e f g h j s
  | .spull a b c d e f g h => Sys2Proof.Machine.execSpull a b c d e f g h s
  | .cwbr a b c d e f => Sys2Proof.Machine.execCwbr a b c d e f s
  | .cinvr a b c d e f => Sys2Proof.Machine.execCinvr a b c d e f s
  | .xcopy a b c d e f => Sys2Proof.Machine.execXcopy a b c d e f s
  | .baradd a b c d e f => Sys2Proof.Machine.execBaradd a b c d e f s
  | .smark a b c d e f => Sys2Proof.Machine.execSmark a b c d e f s
  | .sloop a b c => Sys2Proof.Machine.execSloop a b c s
  | .xmovSt a b c d e f => Sys2Proof.Machine.execXmovSt a b c d e f s
  | .xaddSt a b c d e f g => Sys2Proof.Machine.execXaddSt a b c d e f g s
  | .xaddiSt a b c d e f => Sys2Proof.Machine.execXaddiSt a b c d e f s
  | .xshlSt a b c d e f => Sys2Proof.Machine.execXshlSt a b c d e f s
  | .snop a b => Sys2Proof.Machine.execSnop a b s
  | .acas a b c d e f g h j k => Sys2Proof.Machine.execAcas a b c d e f g h j k s
  | .amoAdd a b c d e f g h j k => Sys2Proof.Machine.execAmoAdd a b c d e f g h j k s
  | .amoFadd a b c d e f g h j k => Sys2Proof.Machine.execAmoFadd a b c d e f g h j k s
  | .amoMin a b c d e f g h j k => Sys2Proof.Machine.execAmoMin a b c d e f g h j k s
  | .amoMax a b c d e f g h j k => Sys2Proof.Machine.execAmoMax a b c d e f g h j k s
  | .amoAnd a b c d e f g h j k => Sys2Proof.Machine.execAmoAnd a b c d e f g h j k s
  | .amoOr a b c d e f g h j k => Sys2Proof.Machine.execAmoOr a b c d e f g h j k s
  | .amoXor a b c d e f g h j k => Sys2Proof.Machine.execAmoXor a b c d e f g h j k s
  | .amoSwap a b c d e f g h j k => Sys2Proof.Machine.execAmoSwap a b c d e f g h j k s
  | .lease a b => Sys2Proof.Machine.execLease a b s
  | .unlease a b => Sys2Proof.Machine.execUnlease a b s
  | .mtstart a b c d e => Sys2Proof.Machine.execMtstart a b c d e s
  | .mma a b c d e f g => Sys2Proof.Machine.execMma a b c d e f g s
  | .mzero a b c => Sys2Proof.Machine.execMzero a b c s
  | .mdrain a b c d e f g h => Sys2Proof.Machine.execMdrain a b c d e f g h s
  | .mrdb a b c d => Sys2Proof.Machine.execMrdb a b c d s
  | .msett a b c d e => Sys2Proof.Machine.execMsett a b c d e s
  | .mfte a b c d e => Sys2Proof.Machine.execMfte a b c d e s
  | .mftb a b c d => Sys2Proof.Machine.execMftb a b c d s
  | .board a b c d => Sys2Proof.Machine.execBoard a b c d s
  | .bwait a b c d => Sys2Proof.Machine.execBwait a b c d s
  | .bdrop a b c => Sys2Proof.Machine.execBdrop a b c s
  | .bquery a b c d => Sys2Proof.Machine.execBquery a b c d s
  | .mloop a b c => Sys2Proof.Machine.execMloop a b c s
  | .mnop a b => Sys2Proof.Machine.execMnop a b s
  | .mxmode a b c d => Sys2Proof.Machine.execMxmode a b c d s
  | .vsetc a b c => Sys2Proof.Machine.execVsetc a b c s
  | .vadd a b c d e f g h j k => Sys2Proof.Machine.execVadd a b c d e f g h j k s
  | .vsub a b c d e f g h j k => Sys2Proof.Machine.execVsub a b c d e f g h j k s
  | .vmul a b c d e f g h j k => Sys2Proof.Machine.execVmul a b c d e f g h j k s
  | .vfma a b c d e f g h j k => Sys2Proof.Machine.execVfma a b c d e f g h j k s
  | .vmin a b c d e f g h j k => Sys2Proof.Machine.execVmin a b c d e f g h j k s
  | .vmax a b c d e f g h j k => Sys2Proof.Machine.execVmax a b c d e f g h j k s
  | .vabs a b c d e f g h => Sys2Proof.Machine.execVabs a b c d e f g h s
  | .vneg a b c d e f g h => Sys2Proof.Machine.execVneg a b c d e f g h s
  | .vscl a b c d e f g h j k => Sys2Proof.Machine.execVscl a b c d e f g h j k s
  | .vrsum a b c d e f g h j => Sys2Proof.Machine.execVrsum a b c d e f g h j s
  | .vrmax a b c d e f g h j => Sys2Proof.Machine.execVrmax a b c d e f g h j s
  | .vrmin a b c d e f g h j => Sys2Proof.Machine.execVrmin a b c d e f g h j s
  | .vdot a b c d e f g h j k l => Sys2Proof.Machine.execVdot a b c d e f g h j k l s
  | .vcmp a b c d e f g h j k l => Sys2Proof.Machine.execVcmp a b c d e f g h j k l s
  | .vselm a b c d e f g h j k => Sys2Proof.Machine.execVselm a b c d e f g h j k s
  | .viadd a b c d e f g h j k l => Sys2Proof.Machine.execViadd a b c d e f g h j k l s
  | .visub a b c d e f g h j k l => Sys2Proof.Machine.execVisub a b c d e f g h j k l s
  | .vimul a b c d e f g h j k l => Sys2Proof.Machine.execVimul a b c d e f g h j k l s
  | .vimin a b c d e f g h j k l => Sys2Proof.Machine.execVimin a b c d e f g h j k l s
  | .vimax a b c d e f g h j k l => Sys2Proof.Machine.execVimax a b c d e f g h j k l s
  | .vand a b c d e f g h j k l => Sys2Proof.Machine.execVand a b c d e f g h j k l s
  | .vor a b c d e f g h j k l => Sys2Proof.Machine.execVor a b c d e f g h j k l s
  | .vxor a b c d e f g h j k l => Sys2Proof.Machine.execVxor a b c d e f g h j k l s
  | .vshl a b c d e f g h j k l => Sys2Proof.Machine.execVshl a b c d e f g h j k l s
  | .vshr a b c d e f g h j k l => Sys2Proof.Machine.execVshr a b c d e f g h j k l s
  | .vsar a b c d e f g h j k l => Sys2Proof.Machine.execVsar a b c d e f g h j k l s
  | .vcvt a b c d e f g h j k => Sys2Proof.Machine.execVcvt a b c d e f g h j k s
  | .vqnt a b c d e f g h j k => Sys2Proof.Machine.execVqnt a b c d e f g h j k s
  | .vdqnt a b c d e f g h j k => Sys2Proof.Machine.execVdqnt a b c d e f g h j k s
  | .vcopy a b c d e f g h j => Sys2Proof.Machine.execVcopy a b c d e f g h j s
  | .vbcast a b c d e f g h => Sys2Proof.Machine.execVbcast a b c d e f g h s
  | .vtrn a b c d e f g h j k => Sys2Proof.Machine.execVtrn a b c d e f g h j k s
  | .vgath a b c d e f g h j k => Sys2Proof.Machine.execVgath a b c d e f g h j k s
  | .vscat a b c d e f g h j k l => Sys2Proof.Machine.execVscat a b c d e f g h j k l s
  | .vrand a b c d e f g h => Sys2Proof.Machine.execVrand a b c d e f g h s
  | .vdrop a b c d e f g h j k => Sys2Proof.Machine.execVdrop a b c d e f g h j k s
  | .aset a b c d e f => Sys2Proof.Machine.execAset a b c d e f s
  | .amod a b c d e => Sys2Proof.Machine.execAmod a b c d e s
  | .astep a b c d e f => Sys2Proof.Machine.execAstep a b c d e f s
  | .amov a b c d e f => Sys2Proof.Machine.execAmov a b c d e f s
  | .vmovs a b c d e f g h => Sys2Proof.Machine.execVmovs a b c d e f g h s
  | .vloop a b c => Sys2Proof.Machine.execVloop a b c s
  | .vnop a b => Sys2Proof.Machine.execVnop a b s
  | .sexp2 a b c d e f g h => Sys2Proof.Machine.execSexp2 a b c d e f g h s
  | .slog2 a b c d e f g h => Sys2Proof.Machine.execSlog2 a b c d e f g h s
  | .sexp a b c d e f g h => Sys2Proof.Machine.execSexp a b c d e f g h s
  | .sln a b c d e f g h => Sys2Proof.Machine.execSln a b c d e f g h s
  | .srcp a b c d e f g h => Sys2Proof.Machine.execSrcp a b c d e f g h s
  | .sdiv a b c d e f g h j k => Sys2Proof.Machine.execSdiv a b c d e f g h j k s
  | .ssqrt a b c d e f g h => Sys2Proof.Machine.execSsqrt a b c d e f g h s
  | .srsq a b c d e f g h => Sys2Proof.Machine.execSrsq a b c d e f g h s
  | .stanh a b c d e f g h => Sys2Proof.Machine.execStanh a b c d e f g h s
  | .ssigm a b c d e f g h => Sys2Proof.Machine.execSsigm a b c d e f g h s
  | .ssin a b c d e f g h => Sys2Proof.Machine.execSsin a b c d e f g h s
  | .scos a b c d e f g h => Sys2Proof.Machine.execScos a b c d e f g h s
  | .serf a b c d e f g h => Sys2Proof.Machine.execSerf a b c d e f g h s
  | .sfnop a b => Sys2Proof.Machine.execSfnop a b s
  | .qpopRead a b => Sys2Proof.Machine.execQpopRead a b s
  | .xlateSettle a b => Sys2Proof.Machine.execXlateSettle a b s
  | .walkComplete a b => Sys2Proof.Machine.execWalkComplete a b s
  | .monitorRequeueTimeout a => Sys2Proof.Machine.execMonitorRequeueTimeout a s
  | .shootdown => Sys2Proof.Machine.execShootdown s
  | .shootdownCompletion => Sys2Proof.Machine.execShootdownCompletion s
  | .engineWordFinish a b => Sys2Proof.Machine.execEngineWordFinish a b s
  | .pendingPersistPoint a => Sys2Proof.Machine.execPendingPersistPoint a s
  | .imageComplete a b => Sys2Proof.Machine.execImageComplete a b s
  | .commitImageCopyDone a b => Sys2Proof.Machine.execCommitImageCopyDone a b s
  | .writeThroughArrival a b => Sys2Proof.Machine.execWriteThroughArrival a b s
  | .flushMarkerAck a b => Sys2Proof.Machine.execFlushMarkerAck a b s
  | .barrierAddition a => Sys2Proof.Machine.execBarrierAddition a s
  | .queueElementArrival a b => Sys2Proof.Machine.execQueueElementArrival a b s
  | .loaderSlotDelivery a b => Sys2Proof.Machine.execLoaderSlotDelivery a b s
  | .storerSlotWrite a => Sys2Proof.Machine.execStorerSlotWrite a s
  | .lapBoundary => Sys2Proof.Machine.execLapBoundary s
  | .frameHeaderArrival a => Sys2Proof.Machine.execFrameHeaderArrival a s
  | .frameLastFlitArrival a b c => Sys2Proof.Machine.execFrameLastFlitArrival a b c s
  | .leaseTimeout a => Sys2Proof.Machine.execLeaseTimeout a s
  | .taskPlacement a => Sys2Proof.Machine.execTaskPlacement a s
  | .shadowFillDone a => Sys2Proof.Machine.execShadowFillDone a s
  | .effectiveClassAging a => Sys2Proof.Machine.execEffectiveClassAging a s
  | .deadlinePreemption a => Sys2Proof.Machine.execDeadlinePreemption a s
  | .preemptForcedSave a => Sys2Proof.Machine.execPreemptForcedSave a s
  | .graphReplayStart a => Sys2Proof.Machine.execGraphReplayStart a s
  | .launchDoorbell a b c => Sys2Proof.Machine.execLaunchDoorbell a b c s
  | .launchRecord a => Sys2Proof.Machine.execLaunchRecord a s
  | .checkerMismatch a => Sys2Proof.Machine.execCheckerMismatch a s
  | .fetchFault a => Sys2Proof.Machine.execFetchFault a s
  | .watchdog a => Sys2Proof.Machine.execWatchdog a s
  | .idleTimeout a => Sys2Proof.Machine.execIdleTimeout a s
  | .secdedFreezeEnd a => Sys2Proof.Machine.execSecdedFreezeEnd a s
  | .bankRebuildEnd a b => Sys2Proof.Machine.execBankRebuildEnd a b s
  | .hbmParityReread a b => Sys2Proof.Machine.execHbmParityReread a b s
  | .hbmLaneSwapResume a b => Sys2Proof.Machine.execHbmLaneSwapResume a b s
  | .eventQueueHeadWrite a => Sys2Proof.Machine.execEventQueueHeadWrite a s
  | .copyChunkDone a => Sys2Proof.Machine.execCopyChunkDone a s
  | .curveDoorbell a => Sys2Proof.Machine.execCurveDoorbell a s
  | .curveEntry => Sys2Proof.Machine.execCurveEntry s
  | .gradeEvent => Sys2Proof.Machine.execGradeEvent s
  | .pendAnnounce => Sys2Proof.Machine.execPendAnnounce s
  | .parkStopTimeout a => Sys2Proof.Machine.execParkStopTimeout a s
  | .parkCopyDone a => Sys2Proof.Machine.execParkCopyDone a s
  | .suspendEvent => Sys2Proof.Machine.execSuspendEvent s
  | .resumeEvent => Sys2Proof.Machine.execResumeEvent s
  | .fastLoop => Sys2Proof.Machine.execFastLoop s
  | .slowLoop => Sys2Proof.Machine.execSlowLoop s
  | .exemptExpiry => Sys2Proof.Machine.execExemptExpiry s
  | .vcodeStepEnd a => Sys2Proof.Machine.execVcodeStepEnd a s
  | .fcodeHopEnd a => Sys2Proof.Machine.execFcodeHopEnd a s
  | .biasSettle a => Sys2Proof.Machine.execBiasSettle a s
  | .permitRefill a b => Sys2Proof.Machine.execPermitRefill a b s
  | .dieGate a => Sys2Proof.Machine.execDieGate a s
  | .dieSwitchOn a => Sys2Proof.Machine.execDieSwitchOn a s
  | .clusterSwitchOnRound a => Sys2Proof.Machine.execClusterSwitchOnRound a s
  | .parkListCopyDone a => Sys2Proof.Machine.execParkListCopyDone a s
  | .hbmRetentionEntry a => Sys2Proof.Machine.execHbmRetentionEntry a s
  | .energySample a => Sys2Proof.Machine.execEnergySample a s
  | .energyLowHalfRead a b => Sys2Proof.Machine.execEnergyLowHalfRead a b s
  | .energyHighHalfRead a b => Sys2Proof.Machine.execEnergyHighHalfRead a b s
  | .voltageSample a b => Sys2Proof.Machine.execVoltageSample a b s
  | .vminRearm a => Sys2Proof.Machine.execVminRearm a s
  | .errorCounterClear a b => Sys2Proof.Machine.execErrorCounterClear a b s
  | .onyxBlockMove a b => Sys2Proof.Machine.execOnyxBlockMove a b s
  | .droopTrip a => Sys2Proof.Machine.execDroopTrip a s
  | .droopRecovery a => Sys2Proof.Machine.execDroopRecovery a s
  | .hopRetry a => Sys2Proof.Machine.execHopRetry a s
  | .vcoreFault a => Sys2Proof.Machine.execVcoreFault a s
  | .clusterPowerLoss a => Sys2Proof.Machine.execClusterPowerLoss a s
  | .modulePowerLoss => Sys2Proof.Machine.execModulePowerLoss s
  | .vauxPowerGood => Sys2Proof.Machine.execVauxPowerGood s
  | .bootTimeout => Sys2Proof.Machine.execBootTimeout s
  | .railPowerGoodTimeout a => Sys2Proof.Machine.execRailPowerGoodTimeout a s
  | .recoveryDoorbell a => Sys2Proof.Machine.execRecoveryDoorbell a s
  | .hostWrite a b c => Sys2Proof.Machine.execHostWrite a b c s
  | .hostRead a b c => Sys2Proof.Machine.execHostRead a b c s
  | .flr a => Sys2Proof.Machine.execFlr a s
  | .registerWrite a b c => Sys2Proof.Machine.execRegisterWrite a b c s
  | .createContext => Sys2Proof.Machine.execCreateContext s
  | .destroyContext => Sys2Proof.Machine.execDestroyContext s
  | .installLapTable => Sys2Proof.Machine.execInstallLapTable s
  | .parkList => Sys2Proof.Machine.execParkList s
  | .telemetryBuffer => Sys2Proof.Machine.execTelemetryBuffer s
  | .writeSlotTable => Sys2Proof.Machine.execWriteSlotTable s
  | .savePool => Sys2Proof.Machine.execSavePool s
  | .preEmptTask => Sys2Proof.Machine.execPreEmptTask s
  | .clearDegradedCore => Sys2Proof.Machine.execClearDegradedCore s
  | .restoreSnapshotDomain => Sys2Proof.Machine.execRestoreSnapshotDomain s
  | .setUpCommunicator => Sys2Proof.Machine.execSetUpCommunicator s
  | .cancelCollective => Sys2Proof.Machine.execCancelCollective s
  | .suspendRequest => Sys2Proof.Machine.execSuspendRequest s
  | .resumeRequest => Sys2Proof.Machine.execResumeRequest s
  | .writeCoreOwnership => Sys2Proof.Machine.execWriteCoreOwnership s
  | .registerParkArea => Sys2Proof.Machine.execRegisterParkArea s
  | .peerAccessArrival a b c d e => Sys2Proof.Machine.execPeerAccessArrival a b c d e s
  | .peerResponse a b => Sys2Proof.Machine.execPeerResponse a b s
  | .peerTimeout a => Sys2Proof.Machine.execPeerTimeout a s
  | .peerRefusal a => Sys2Proof.Machine.execPeerRefusal a s
  | .ethPacketArrival a b c d e => Sys2Proof.Machine.execEthPacketArrival a b c d e s
  | .ethAckArrival a b => Sys2Proof.Machine.execEthAckArrival a b s
  | .ethRetransmitTimeout a b => Sys2Proof.Machine.execEthRetransmitTimeout a b s
  | .collectiveChunkDone a => Sys2Proof.Machine.execCollectiveChunkDone a s
  | .collectiveStall a b => Sys2Proof.Machine.execCollectiveStall a b s
  | .getVersion a b => Sys2Proof.Machine.execGetVersion a b s
  | .getCapabilities a b => Sys2Proof.Machine.execGetCapabilities a b s
  | .negotiateAlgorithms a b => Sys2Proof.Machine.execNegotiateAlgorithms a b s
  | .getDigests a b => Sys2Proof.Machine.execGetDigests a b s
  | .getCertificate a b => Sys2Proof.Machine.execGetCertificate a b s
  | .challenge a b => Sys2Proof.Machine.execChallenge a b s
  | .getMeasurements a b => Sys2Proof.Machine.execGetMeasurements a b s
  | .spdmUnsupportedRequest a b => Sys2Proof.Machine.execSpdmUnsupportedRequest a b s
  | .mboxSend a => Sys2Proof.Machine.execMboxSend a s
  | .engInit a => Sys2Proof.Machine.execEngInit a s
  | .engAbsorb a b => Sys2Proof.Machine.execEngAbsorb a b s
  | .engDigest a => Sys2Proof.Machine.execEngDigest a s
  | .engClone a b => Sys2Proof.Machine.execEngClone a b s
  | .engExtend a => Sys2Proof.Machine.execEngExtend a s
  | .engSign a => Sys2Proof.Machine.execEngSign a s
  | .engRand a => Sys2Proof.Machine.execEngRand a s
  | .engMblock a => Sys2Proof.Machine.execEngMblock a s
  | .engMove a => Sys2Proof.Machine.execEngMove a s
  | .controlPathAccessPerforms a b => Sys2Proof.Machine.execControlPathAccessPerforms a b s
  | .hostCompletion a => Sys2Proof.Machine.execHostCompletion a s
  | .birspArrival a b => Sys2Proof.Machine.execBirspArrival a b s
  | .hbmScrub a b c d e => Sys2Proof.Machine.execHbmScrub a b c d e s
  | .versionOverflowRequeue a => Sys2Proof.Machine.execVersionOverflowRequeue a s
  | .moduleReset => Sys2Proof.Machine.execModuleReset s
  | .railPowerGood a => Sys2Proof.Machine.execRailPowerGood a s

end Sys2Proof.Machine
end

