-- ==== Sys2Proof/Machine/Step.lean ====
section
/-! DEFINITION. One step of the machine, and an instruction placed where the next step fetches it. -/

namespace Sys2Proof.Machine

open Sys2Proof

/-- One step: the turn is prepared, its instruction runs, and device time passes. -/
def step (s : State) : Host.Outcome State Fault Refusal :=
  match prepare s with
  | (.move s', dt) => .next (s'.elapse dt)
  | (.run i s', dt) =>
    match exec i s' with
    | .next s'' => .next (s''.elapse dt)
    | .fault f => .fault f
    | .refused r => .refused r

/-- The state with an instruction stored where the next step fetches its next one. -/
def State.withFetchWord (s : State) (_nbits w : Nat) : State := s.placeWord (BitVec.ofNat 32 w)

end Sys2Proof.Machine
end

