-- ==== Sys2Proof/Safety.lean ====
section
/-! DEFINITION. What counts as a safe run, and the terms in which the statements speak of a word that runs: when a control word executes,
when an engine word issues, and what the state is afterwards. -/

namespace Sys2Proof

/-- `n` steps from a state, all of them answering a next state. -/
def Machine.runs : Nat → Machine.State → Option Machine.State
  | 0, s => some s
  | n + 1, s =>
    match Machine.step s with
    | .next t => Machine.runs n t
    | .fault _ => none
    | .refused _ => none

/-- A run of `n` steps is safe when none of them stops. -/
def Safe (n : Nat) (s : Machine.State) : Prop := (Machine.runs n s).isSome = true

namespace Machine

/-- A control or system word of the acting thread executes now: no asynchronous cause is taken before it (R423), its predicate holds
(R271), no marker or ordered atomic holds the control sequencer (R105, R337), the word has not waited for memory before (R72), and one
that waits for its horizon is at it (R420). -/
def CtlGo (s : State) (horizon : Bool) : Prop :=
  (s.th.inh = true ∨ s.th.ph.stage ≠ 0 ∨ s.th.async = []) ∧ s.th.predFails = false ∧
  (s.th.passed.any fun p => p.seq == s.th.seq && p.sq == .ctl) = false ∧
  (s.th.orderPending = false ∨ s.th.ph ≠ Phase.none) ∧ (horizon = true → s.th.atHorizon = true)

/-- A control word completes: its effect gives `t`, and the thread goes on after the word, or at `pc` (R283, R293). -/
def Does (i : Instr) (s t : State) (pc : Option Nat) : Prop :=
  exec i s = .next (t.modThread s.me fun th => th.ctlDone pc)

/-- An instruction, or an event, answers the state `t`. -/
def Leaves (i : Instr) (s t : State) : Prop := exec i s = .next t

/-- An engine word issues now: `c` names it, the tokens it still waits for are there, and so is a permit of its engine (R138, R225, R266); it
has not waited for memory before (R72). -/
def IssueGo (s : State) (eng : Eng) (c : Cur) (i : Instr) : Prop :=
  s.cur = some c ∧ s.th.hasTokens c.sq (s.th.owed c.unit (wordOf i)) = true ∧ s.hasPermit s.me c.sq (permitClass eng) = true ∧
    (s.th.passed.any fun p => p.seq == c.unit.seq && p.sq == c.sq) = false

/-- An engine word issues with the result `r`, when its lines fit into the queue of line requests and its bytes lie in no held range (R140,
R375): the state is that of `r`, with the permit taken, the tokens moved, the unit retired, and what a compute word has written held until it
finishes (R440). -/
def Issues (i : Instr) (eng : Eng) (c : Cur) (s : State) (r : EngRes) : Prop :=
  s.th.fits c.sq r = true → exec i s = .next ((r.holding c.sq s.th).issued s.me eng c (wordOf i))

/-- A vector or special-function word whose operands can be read issues: the elements `f` of the operands go to the destination, with
the flags and the bound that belong to them (R372). -/
def VecRuns (i : Instr) (eng : Eng) (c : Cur) (s : State) (v : VWord) (f : VIn → List Nat × Fl) (bnd : VIn → List Nat → Fl → W32) : Prop :=
  ∀ (o : VOps) (t : State) (x : VIn), IssueGo s eng c i → v.operands (s.issuing c) = .ok o → v.reads o (s.issuing c) = .ok (t, x) →
    let r := v.finish o (f x).1 (f x).2 (bnd x (f x).1 (f x).2) t
    Issues i eng c s { r with vals := r.vals ++ v.s1.kept x.x1 }

/-- A word that needs the array, executed by the holder of the lease: its result, counted as a word of the lease (R344). -/
def ArrayRuns (i : Instr) (c : Cur) (s : State) (r : EngRes) : Prop :=
  IssueGo s .matrix c i → s.th.claim = true → s.holdsLease s.me = true →
    let t : State := r.s.modCluster (thrCluster s.me) fun x => { x with words := min (x.words + 1) 64 }
    Issues i .matrix c s { r with s := t.leaseRotate (thrCluster s.me) }

/-- The oldest request of the ring carries the code `op`, with no reserved bit set, and no shootdown is under way (R72, R447). -/
def ReqGo (s : State) (op : Nat) (l : List Byte) : Prop := s.oldestReq = some l ∧ s.shoots = [] ∧ field l 0 1 = op ∧ field l 4 4 = 0

/-- A request finishes with a STATUS in the state that its effect gives. -/
def Serves (i : Instr) (s t : State) (status : Nat) : Prop := exec i s = .next (t.reqFinish status)

/-- A request on a path reaches the SPDM responder now: start-up is at STAGE 4, Agate's thread stands at its wait with no request in the buffer,
and none waits. -/
def SpdmGo (s : State) (path : Nat) (req : List Byte) : Prop :=
  path ≤ 2 ∧ 4 ≤ req.length ∧ req.length ≤ 4096 ∧ s.boot.stage = 4 ∧ s.agateWaits = true ∧ s.agate.waiting = []

/-- The responder answers a request on a path: its registers are those of `r`, and its reply goes out; on the BMC's path both stand in the
window's mailbox (log 91). -/
def Replies (i : Instr) (s : State) (path : Nat) (req : List Byte) (r : Agate × List Byte) : Prop :=
  let s0 := if path = 2 then s.winPut bmcMbox req else s
  let s1 : State := { s0 with agate := (r.1.put repBuf r.2).send r.2.length }
  exec i s = .next (s1.bmcReply s.agate)

/-- Nothing of a thread is queued, open or in flight: its engines are at rest. -/
def EnginesIdle (t : Thread) : Prop :=
  t.ldQ = [] ∧ t.cpQ = [] ∧ t.stQ = [] ∧ t.lpL.isOpen = false ∧ t.lpC.isOpen = false ∧ t.lpS.isOpen = false ∧ t.flights = [] ∧
    t.qflights = [] ∧ t.trapPend = none ∧ t.replaying = false

/-- Two states differ at most in the registers of the thread `k`. -/
def OnlyThread (k : Nat) (s t : State) : Prop := t = { s with thr := t.thr } ∧ ∀ j, j ≠ k → t.thread j = s.thread j

/-- The byte that a thread reads at an address of the local map whose home, or whose copy of it, holds `b`: its task's version lies over it (R66,
R84, R107). -/
def State.versionByte (s : State) (k a : Nat) (b : Byte) : Byte :=
  match s.taskOf (s.thread k).task with
  | none => b
  | some t => (overlayVersion t (a / 64) (b.setWidth 512 <<< (8 * (a % 64)))).extractLsb' (8 * (a % 64)) 8

/-- The registers of a thread hold no value outside their ranges: no token counter above 63 (R137), a count in vc (R35), no reserved bit set in
THREAD_STATUS, TRAP_CAUSE, TRAP_PC, REP_STATE, HANDLER_BASE and the format table, no reserved code in ROUND_MODE, BOUND_CTL and FMT_BASE (R47 to R54). -/
def Thread.RegsOk (t : Thread) : Prop :=
  (∀ i, vget t.tok i 0 ≤ 63) ∧ t.vc ≠ 0#16 ∧ t.status &&& statusReserved = 0#32 ∧ bits t.trapCause.toNat 31 19 = 0 ∧
    t.trapPc.toNat < 2 ^ 57 ∧ t.repState &&& 0x7FC0F8C0#32 = 0#32 ∧ t.handlerBase &&& 0xFE00000000000FFE#64 = 0#64 ∧
    t.roundMode.toNat ≤ 4 ∧ t.boundCtl.toNat < 8 ∧ t.boundCtl.toNat % 4 ≠ 3 ∧ t.fmtBase.toNat < 64 ∧
    ∀ i, bits (vget t.ft i 0#32).toNat 11 0 = 0

/-- The registers that an image holds are in their ranges. -/
def Image.RegsOk (i : Image) : Prop := ∀ t, i.t = some t → t.RegsOk

/-- The registers of every thread are in their ranges, and so are those that the images of tasks, cores and save engines hold. -/
def State.RegsOk (s : State) : Prop :=
  (∀ e ∈ s.thr, e.2.RegsOk) ∧
  (∀ x ∈ s.tasks, ∀ i, (i ∈ x.saved ∨ i ∈ x.origins ∨ ∃ n, (n, i) ∈ x.kept) → i.RegsOk) ∧
  (∀ e ∈ s.cores, ∀ i, (e.2.imgA = some i ∨ e.2.imgB = some i ∨ e.2.imgC = some i) → i.RegsOk) ∧
  (∀ d, ∀ j ∈ (s.die d).imgs, j.img.RegsOk)

/-- Every byte of home memory reads as before. -/
def SameMemory (s t : State) : Prop := ∀ a, memByte t.mem a = memByte s.mem a

end Machine

end Sys2Proof
end

