-- ==== Sys2Proof/Certificates/Slice0/Obligations.lean ====
section
/-! DEFINITION. The statements: what the rules of the spec say of this model. A title or docstring that names a log entry says that the
clause in question is the model's own choice or reading. -/

open Sys2Proof Sys2Proof.Machine

/-- R132, R261, R428, R465: a step runs what its turn names. An event runs as it stands. At a thread's fetch turn, with its page in the TLB,
nothing before the fetch and a memory that answers, the word at the PC is read at home, and Agate's from its routine: a prefix word and a word
for an engine run as decoded, a control or system word as decoded for the repeat it stands at. At a sequencer's turn the unit it may issue
runs. After each, time passes.
The model's own choices and readings that it rests on: log 4, 31, 91. -/
def Obligations.StepRunsTheDecodedInstruction : Prop :=
  ∀ (s : State) (r : List Turn) (dt : Nat),
    let after (o : Out) : Out := match o with
      | .next t => .next (t.elapse dt)
      | .fault f => .fault f
      | .refused x => .refused x
    (∀ i, s.turns = .event i dt :: r → step s = after (exec i { s with turns := r, cur := none })) ∧
    (∀ k i s0 w, s.turns = .fetch k dt :: r → s.canAct k = true → (s.thread k).saveStop s.now = false → (s.thread k).trapPend = none →
      (s.thread k).pointDue s.now = false → (s.thread k).heldByCommit .ctl = false →
      ((s.thread k).idleUntil = none ∨ (s.thread k).ph.stage ≠ 0) → s.secdedHit k = none →
      (k = agateThr ∧ agateFetch (s.thread k).pc = some w ∧ s0 = { s with turns := r } ∨
        k ≠ agateThr ∧ ∃ e, s.tlbHit k (s.thread k).pc rightRD = some e ∧
          (let pa := s.localPa (e.frame * 4096 + (s.thread k).pc % pageBytes e.psz)
           s.atPeer (pa / 64) = false ∧ (({ s with turns := r } : State).tlbFill (thrCore k) e).deviceRead (pa / 64) = .ok s0 ∧
             s0.isPoison (pa / 64) = false ∧ w = BitVec.ofNat 32 (s0.homeNat pa 4))) →
      let s1 : State := { s0 with focus := some k, cur := none }
      (isPrefix w = true → decode w = .ok i → step s = after (exec i s1)) ∧
      (∀ j p, isPrefix w = false → unitOf k (s.thread k).pfx w = .ok (j, p) → (s.thread k).repOver = false →
        (wordEng w ≠ some .control → wordEng w ≠ some .system → step s = after (exec j s1)) ∧
        (wordEng w = some .control ∨ wordEng w = some .system →
          decode (repWord w (s.thread k).repNow.2.1 (s.thread k).repNow.2.2 (s.thread k).repNow.1) = .ok i → step s = after (exec i s1)))) ∧
    (∀ k q u loop i, s.turns = .seq k q dt :: r → k ≠ agateThr → s.canAct k = true → (s.thread k).mayGo q s.now = true →
      (s.thread k).skipCapture q = none → (s.thread k).nextUnit q = some (u, loop) → (s.thread k).mayIssue q u loop = true →
      decode (repWord u.word u.n u.mask u.rep) = .ok i →
      step s = after (exec i { s with turns := r, focus := some k, cur := some ⟨q, loop, u⟩ }))

/-- Every instruction has a meaning in every state, and so has every step: the one stop there is is a host access of an address that no
part of the map backs (R66, R69), at a port that is up.
The model's own choices and readings that it rests on: log 88; log 11, by which an event that cannot apply leaves the state as it is; and
log 4, by which a step with no turn listed takes the turn that falls to it. -/
def Obligations.OnlyUnbackedHostAccessesStop : Prop :=
  (∀ (i : Instr) (s : State), (∃ t, exec i s = .next t) ∨
    (exec i s = .fault .unbackedAddress ∧ ∃ port at_ pa n, (s.port port).up = true ∧ s.hostPa port at_ = some pa ∧
      s.touchesUnbacked pa n = true ∧ ((∃ d, i = .hostWrite port at_ d ∧ n = d.length) ∨ i = .hostRead port at_ n))) ∧
  (∀ s : State, (∃ t, step s = .next t) ∨ (step s = .fault .unbackedAddress ∧
    ∃ port pa, (∃ d dt r, s.turns = .event (.hostWrite port pa d) dt :: r) ∨ (∃ n dt r, s.turns = .event (.hostRead port pa n) dt :: r))) ∧
  (∀ s : State, s.turns = [] → ∃ t, step s = .next t)

/-- R258, R262, R265, R266, R268, R273: the decoder gives every well-formed instruction back from its word, with every operand at every value; each
word has one instruction.
The model's own choices and readings that it rests on: log 33. -/
def Obligations.EncodedWordsDecodeBack : Prop :=
  (∀ (i : Instr) (w : W32), i.wf = true → encode i = some w → decode w = .ok i) ∧
  (∀ (i j : Instr) (w : W32), i.wf = true → j.wf = true → encode i = some w → encode j = some w → i = j)

/-- The words of the example after R305, as the spec writes them out, decode to the instructions of its listing; so does a word of the
examples of R331, R369, R392 and R402, of the table of R390 and of the programs, one for each other engine. -/
def Obligations.WordsOfTheSpecDecode : Prop :=
  decode 0x1410B040#32 = .ok (.lds 4#5 2#4 3#2 0#1 0#1 0x40#10) ∧
  decode 0x059081FF#32 = .ok (.andi 4#5 4#5 0#1 511#12) ∧
  decode 0x0614C240#32 = .ok (.or 5#5 6#5 0#1 4#5 1#1) ∧
  decode 0x1680B000#32 = .ok (.emit 5#5 1#1) ∧
  decode 0x17000016#32 = .ok (.waitt 1#6 6#4) ∧
  decode 0xF00009E4#32 = .ok (.exti 0x9E4#24) ∧
  decode 0x0E991000#32 = .ok (.ldi 6#5 0x11000#18) ∧
  decode 0x20011080#32 = .ok (.ld 0#2 0#2 2#4 1#3 0#1 1#4 0#1 0#3 0#1) ∧
  decode 0x400090F9#32 = .ok (.st 0#2 0#2 1#4 1#3 0#1 1#3 7#3 1#1) ∧
  decode 0x61A02000#32 = .ok (.mma 1#2 0#2 0#3 2#4 0#9 0#1 0#1) ∧
  decode 0x85118800#32 = .ok (.vrsum 0#2 2#2 3#4 1#4 0#1 0#1 0#1 0#1 0#1) ∧
  decode 0xA0000000#32 = .ok (.sexp2 0#2 0#2 0#4 0#4 0#1 0#1 0#1 0#1) ∧
  decode 0xC2800012#32 = .ok (.fence 4#3 2#2) ∧
  decode 0x80000004#32 = .ok (.vsetc 0#2 0#2 4#10)

/-- The memory's canonical form (R66; log 2) is an invariant: it holds at reset, and every step keeps it, from every state that has it. So does
every operation that writes the home memory: the writes of masked lines at home, engine writes, atomic and record writes, the copies that
leave a cache, the copying of park-list ranges, what a die and a stack lose with their power, the restore of a snapshot page and the placing of
a word. A masked write to an ordinary line puts its bytes and no others.
The model's own choices and readings that it rests on: log 2, 14. -/
def Obligations.MemoryOperationsKeepTheCanonicalForm : Prop :=
  Memory.wf State.reset.mem = true ∧ (∀ s t : State, Memory.wf s.mem = true → step s = .next t → Memory.wf t.mem = true) ∧
  ∀ s : State, Memory.wf s.mem = true →
    (∀ line d m t, s.homeWrite line d m = some t → Memory.wf t.mem = true) ∧
    (∀ line d m t, s.engineWriteLine line d m = some t → Memory.wf t.mem = true) ∧
    (∀ pa l, Memory.wf (s.engineWrite pa l).mem = true ∧ Memory.wf (s.atomicWrite pa l).mem = true ∧
      Memory.wf (s.recordWrite pa l).mem = true) ∧
    (∀ pa t a, s.writeAddr pa = some (t, a) → Memory.wf t.mem = true) ∧
    (∀ line, Memory.wf (s.dropCopies line).mem = true) ∧
    (∀ d line, Memory.wf (s.llcRoom d line).1.mem = true) ∧
    (∀ d e, Memory.wf (s.llcInsert d e).mem = true) ∧
    (∀ src dst n, Memory.wf (s.copyRange src dst n).mem = true) ∧
    (∀ d, Memory.wf (s.loseDirty d).mem = true ∧ Memory.wf (s.stackOn d).mem = true) ∧
    (∀ r n, Memory.wf ((List.range n).foldl (restorePage r) s.mem) = true) ∧
    (∀ w, Memory.wf (s.placeWord w).mem = true) ∧
    (∀ line d m t, s.atPeer line = false → s.snapPage (s.localPa (line * 64)) = none → s.homeWrite line d m = some t →
      ∀ a, memByte t.mem a =
        if s.localPa (line * 64) ≤ a ∧ a < s.localPa (line * 64) + 64 ∧ m.getLsbD (a - s.localPa (line * 64)) = true
        then d.extractLsb' (8 * (a - s.localPa (line * 64))) 8 else memByte s.mem a)

/-- After reset no task runs and nothing is queued; the rails are off and STAGE is 0; the event queue, the counters and the energy
accumulators are 0; no measurement lock is set. A plane without a thread reads as at launch with no arguments (R24, R26), and memory that
nothing has written reads 0: both are the model's choices (log 1, log 2), and so are the values of the model's own fields, among them the list
of turns, which starts empty (log 4).
The model's own choices and readings that it rests on: log 1, 2, 4. -/
def Obligations.ResetState : Prop :=
  let s := State.reset
  s.tasks = [] ∧ s.slots = [] ∧ s.ctxs = [] ∧ s.turns = [] ∧ s.focus = none ∧ s.now = 0 ∧
  s.boot.rails = 0#21 ∧ s.boot.stage = 0 ∧ s.boot.minimal = false ∧ s.agate.locked = false ∧
  s.evq.head = 0#32 ∧ s.evq.tail = 0#32 ∧ s.errs = [] ∧ (∀ i, vget s.energy.acc i 0#64 = 0#64) ∧
  (∀ d, (s.die d).on = false) ∧ (∀ p, (s.port p).up = false) ∧
  (∀ k r, (s.thread k).running = false ∧ vget (s.thread k).g r 0#64 = 0#64 ∧ rdP (s.thread k) 0 = true ∧
    (0 < r → rdP (s.thread k) r = false) ∧ vget (s.thread k).h r 0#64 = 0#64 ∧ vget (s.thread k).a r 0#64 = 0#64 ∧
    (s.thread k).vc = 1#16 ∧ (vget (s.thread k).q r QHead.unbound).kind = 0 ∧ (s.thread k).status = 0#32) ∧
  Memory.wf s.mem = true ∧ ∀ a, memByte s.mem a = 0#8

/-- R286, R287, R288: every integer word of two registers completes on readable operands, d takes the result, and the sources marked as
last used are freed.
R286: the counts of zero and one bits. CLZ of x is the number of zero bits above its highest one bit, CTZ that below its lowest, 64
for zero; POPC is the number of one bits. -/
def Obligations.IntegerThreeRegisterWords : Prop :=
  (
    ∀ (s : State) (d a : BitVec 5) (l : BitVec 1) (b : BitVec 5) (m : BitVec 1) (x y : W),
      CtlGo s false → rdG s s.th a.toNat 0 = .ok x → rdG s s.th b.toNat 1 = .ok y →
      let res (v : W) : State := s.setTh (wrG (freeG (freeG s.th l a.toNat) m b.toNat) d.toNat v)
      Does (.add d a l b m) s (res (x + y)) none ∧
      Does (.sub d a l b m) s (res (x - y)) none ∧
      Does (.mul d a l b m) s (res (x * y)) none ∧
      Does (.mulhs d a l b m) s (res (BitVec.ofInt 64 (x.toInt * y.toInt / 2 ^ 64))) none ∧
      Does (.mulhu d a l b m) s (res (BitVec.ofNat 64 (x.toNat * y.toNat / 2 ^ 64))) none ∧
      Does (.divs d a l b m) s (res (if y = 0#64 then BitVec.allOnes 64 else BitVec.ofInt 64 (x.toInt.tdiv y.toInt))) none ∧
      Does (.divu d a l b m) s (res (if y = 0#64 then BitVec.allOnes 64 else BitVec.ofNat 64 (x.toNat / y.toNat))) none ∧
      Does (.rems d a l b m) s (res (if y = 0#64 then x else BitVec.ofInt 64 (x.toInt.tmod y.toInt))) none ∧
      Does (.remu d a l b m) s (res (if y = 0#64 then x else BitVec.ofNat 64 (x.toNat % y.toNat))) none ∧
      Does (.and d a l b m) s (res (x &&& y)) none ∧
      Does (.or d a l b m) s (res (x ||| y)) none ∧
      Does (.xor d a l b m) s (res (x ^^^ y)) none ∧
      Does (.shl d a l b m) s (res (x <<< (y.toNat % 64))) none ∧
      Does (.shr d a l b m) s (res (x >>> (y.toNat % 64))) none ∧
      Does (.sar d a l b m) s (res (x.sshiftRight (y.toNat % 64))) none ∧
      Does (.min d a l b m) s (res (if x.slt y then x else y)) none ∧
      Does (.max d a l b m) s (res (if x.slt y then y else x)) none ∧
      Does (.minu d a l b m) s (res (if x.ult y then x else y)) none ∧
      Does (.maxu d a l b m) s (res (if x.ult y then y else x)) none) ∧
  (
    clz64 0#64 = 64#64 ∧ ctz64 0#64 = 64#64 ∧
    ∀ x : W, x ≠ 0#64 →
      ((clz64 x).toNat < 64 ∧ x.getLsbD (63 - (clz64 x).toNat) = true ∧
        ∀ i, 63 - (clz64 x).toNat < i → x.getLsbD i = false) ∧
      ((ctz64 x).toNat < 64 ∧ x.getLsbD (ctz64 x).toNat = true ∧ ∀ i, i < (ctz64 x).toNat → x.getLsbD i = false) ∧
      (popc64 x).toNat = ((List.range 64).filter fun i => x.getLsbD i).length)

/-- R286, R288, R289, R290: every integer word of one register, the constants and the select complete, with the immediate that EXTI
extends (R270).
R289: LDI is the C-W word 0x0E80_0000 and sets d to its sign-extended imm18; LDHI is 0x0F00_0000, takes its immediate unsigned and sets the high
half of d, keeping the low half, for which it reads d as a source. An EXTI before either extends the immediate to 42 bits (R270). An immediate
of LDHI above 0xFFFF_FFFF raises ILLEGAL_OP (R260, R419).
The model's own choices and readings that it rests on: log 27, the prefix count and the word in TRAP_INFO of that ILLEGAL_OP, as for a word
that the splitter refuses. -/
def Obligations.IntegerImmediateWords : Prop :=
  (
    ∀ (s : State) (d a : BitVec 5) (l : BitVec 1) (b : BitVec 5) (m : BitVec 1) (i : BitVec 12) (j : BitVec 18) (p : BitVec 3) (x y : W),
      CtlGo s false →
      Does (.ldi d j) s (s.setTh (wrG s.th d.toNat (immW s.th.pfx 18 j.toNat))) none ∧
      (rdG s s.th d.toNat 0 = .ok y → immU s.th.pfx 18 j.toNat < 2 ^ 32 →
        Does (.ldhi d j) s (s.setTh (wrG s.th d.toNat (BitVec.ofNat 64 (immU s.th.pfx 18 j.toNat <<< 32 ||| y.toNat % 2 ^ 32)))) none) ∧
      (rdG s s.th a.toNat 0 = .ok x →
        let res (v : W) : State := s.setTh (wrG (freeG s.th l a.toNat) d.toNat v)
        Does (.addi d a l i) s (res (x + immW s.th.pfx 12 i.toNat)) none ∧
        Does (.andi d a l i) s (res (x &&& immW s.th.pfx 12 i.toNat)) none ∧
        Does (.ori d a l i) s (res (x ||| immW s.th.pfx 12 i.toNat)) none ∧
        Does (.xori d a l i) s (res (x ^^^ immW s.th.pfx 12 i.toNat)) none ∧
        (immU s.th.pfx 12 i.toNat ≤ 63 →
          Does (.shli d a l i) s (res (x <<< immU s.th.pfx 12 i.toNat)) none ∧
          Does (.shri d a l i) s (res (x >>> immU s.th.pfx 12 i.toNat)) none ∧
          Does (.sari d a l i) s (res (x.sshiftRight (immU s.th.pfx 12 i.toNat))) none) ∧
        Does (.clz d a l) s (res (clz64 x)) none ∧
        Does (.ctz d a l) s (res (ctz64 x)) none ∧
        Does (.popc d a l) s (res (popc64 x)) none ∧
        (rdG s s.th b.toNat 1 = .ok y →
          Does (.sel d a l b m p) s
            (s.setTh (wrG (freeG (freeG s.th l a.toNat) m b.toNat) d.toNat (if rdP s.th p.toNat then x else y))) none))) ∧
  (
    ∀ (s : State) (d : BitVec 5) (j : BitVec 18) (q : BitVec 24) (y : W) (c : Cause),
      encode (.ldi d j) = some (BitVec.ofNat 32 (0x0E800000 + d.toNat * 2 ^ 18 + j.toNat)) ∧
      encode (.ldhi d j) = some (BitVec.ofNat 32 (0x0F000000 + d.toNat * 2 ^ 18 + j.toNat)) ∧
      (CtlGo s false →
        let sets (i : Instr) (v : W) : Prop := Does i s (s.setTh (wrG s.th d.toNat v)) none
        let high (n : Nat) : Prop :=
          (n ≤ 0xFFFFFFFF → rdG s s.th d.toNat 0 = .ok y → sets (.ldhi d j) (BitVec.ofNat 32 n ++ y.extractLsb' 0 32)) ∧
          (n ≤ 0xFFFFFFFF → rdG s s.th d.toNat 0 = .error (.cause c) → Leaves (.ldhi d j) s (s.raiseAt s.me (s.th.ctlFault .control c))) ∧
          (0xFFFFFFFF < n → Leaves (.ldhi d j) s (s.raiseAt s.me (s.th.ctlFault .control
            ⟨cIllegalOp, 0, s.th.pfx.length * 2 ^ 32 + (wordOf (.ldhi d j)).toNat⟩)))
        (s.th.pfx = [] → sets (.ldi d j) (j.signExtend 64) ∧ high j.toNat) ∧
        (s.th.pfx = [wordOf (.exti q)] → sets (.ldi d j) ((q ++ j).signExtend 64) ∧ high (q ++ j).toNat)))

/-- R263, R291, R292: the compares and PSET complete and write one predicate.
R293, R294, R295: the control transfers. A branch goes to the word's own address plus four times the offset when its predicate
matches; JMP and RET go to an aligned address; CALL writes the return address; DBNZ counts down and branches while the count is not 0.
R295: DBNZ is the C-J word 0x1380_0000; it sets d to d − 1, modulo 2^64, and branches to its own address plus four times its offset while the
new d is not 0. A d field of 0 raises ILLEGAL_OP (R260, R419).
The model's own choices and readings that it rests on: log 101, that the g0 form is found when the word executes; log 27, what TRAP_INFO then
holds. -/
def Obligations.PredicateAndTransferWords : Prop :=
  (
    ∀ (s : State) (d e f o : BitVec 3) (a : BitVec 5) (l : BitVec 1) (b : BitVec 5) (m : BitVec 1) (c : BitVec 4) (i : BitVec 10) (x y : W),
      CtlGo s false →
      (rdG s s.th a.toNat 0 = .ok x → rdG s s.th b.toNat 1 = .ok y → ∀ v, condHolds c.toNat x y = some v →
        Does (.cmp d a l b m c) s (s.setTh (wrP (freeG (freeG s.th l a.toNat) m b.toNat) d.toNat v)) none) ∧
      (rdG s s.th a.toNat 0 = .ok x → ∀ v, condHolds c.toNat x (immW s.th.pfx 10 i.toNat) = some v →
        Does (.cmpi d c a l i) s (s.setTh (wrP (freeG s.th l a.toNat) d.toNat v)) none) ∧
      (o.toNat ≤ 3 → Does (.pset d e f o) s (s.setTh (wrP s.th d.toNat (match o.toNat with
        | 0 => rdP s.th e.toNat && rdP s.th f.toNat
        | 1 => rdP s.th e.toNat || rdP s.th f.toNat
        | 2 => rdP s.th e.toNat != rdP s.th f.toNat
        | _ => rdP s.th e.toNat && !rdP s.th f.toNat))) none)) ∧
  (
    ∀ (s : State) (p : BitVec 3) (n : BitVec 1) (o : BitVec 19) (a d : BitVec 5) (l : BitVec 1) (j : BitVec 18) (x : W),
      CtlGo s false →
      Does (.br p n o) s s
        (if rdP s.th p.toNat == (n == 0#1) then some (branchTarget s.th.pc (immS s.th.pfx 19 o.toNat)) else none) ∧
      (rdG s s.th a.toNat 0 = .ok x → x.toNat % 4 = 0 →
        Does (.jmp a l) s (s.setTh (freeG s.th l a.toNat)) (some x.toNat) ∧
        Does (.ret a l) s (s.setTh (freeG s.th l a.toNat)) (some x.toNat)) ∧
      Does (.call d j) s (s.setTh (wrG s.th d.toNat (BitVec.ofNat 64 (s.th.pc + 4))))
        (some (branchTarget s.th.pc (immS s.th.pfx 18 j.toNat))) ∧
      (d ≠ 0#5 → rdG s s.th d.toNat 0 = .ok x →
        Does (.dbnz d j) s (s.setTh (wrG s.th d.toNat (x - 1#64)))
          (if x = 1#64 then none else some (branchTarget s.th.pc (immS s.th.pfx 18 j.toNat))))) ∧
  (
    ∀ (s : State) (d : BitVec 5) (j : BitVec 18) (x : W),
      encode (.dbnz d j) = some (BitVec.ofNat 32 (0x13800000 + d.toNat * 2 ^ 18 + j.toNat)) ∧
      (CtlGo s false →
        (d ≠ 0#5 → rdG s s.th d.toNat 0 = .ok x → s.th.repNow = (0, 1, 0) →
          ∃ t, exec (.dbnz d j) s = .next t ∧ vget (t.thread s.me).g d.toNat 0#64 = x - 1#64 ∧
            (t.thread s.me).pc = if x - 1#64 = 0#64 then s.th.pc + 4
              else (((s.th.pc : Int) + 4 * immS s.th.pfx 18 j.toNat) % 2 ^ 64).toNat) ∧
        (d = 0#5 → Leaves (.dbnz d j) s (s.raiseAt s.me (s.th.ctlFault .control
          ⟨cIllegalOp, 0, s.th.pfx.length * 2 ^ 32 + (wordOf (.dbnz d j)).toNat⟩)))))

/-- R297, R298: a scalar load and a scalar store whose checks pass leave an access of the control path with their address, their size and,
for a store, their value; the access itself performs later (ArrivalEvents).
Those of Agate's thread act on its SRAM at once (R465).
R299, R300, R301: XLATE starts a settle; HWAIT passes once its handle is not PENDING; HREL leaves the handle EMPTY with the next
GEN.
The model's own choices and readings that it rests on: log 21, 91, 104. -/
def Obligations.MemoryAndHandleWords : Prop :=
  (
    ∀ (s : State) (d : BitVec 5) (h : BitVec 4) (z : BitVec 2) (x k : BitVec 1) (o : BitVec 10) (ofs pa : Nat) (t1 : Thread),
      ctlHandle s.th h.toNat = .ok s.th → cmOfs s s.th k o = .ok (ofs, t1) →
      let acc (store sx : Bool) (d dat : Nat) : CtlAcc :=
        ⟨store, d, pa, 2 ^ z.toNat, sx, dat, s.th.swmOf h.toNat, s.th.unitPc, s.th.seq, none⟩
      (s.me = agateThr →
        (CtlGo s false → checkMem s.th h.toNat ofs (2 ^ z.toNat) rightRD (2 ^ z.toNat) = .ok pa →
          Does (.lds d h z x k o) s (s.setTh (wrG t1 d.toNat
            (if x = 1#1 then BitVec.ofInt 64 (sext (8 * 2 ^ z.toNat) (leNat (s.agate.get pa (2 ^ z.toNat))))
             else BitVec.ofNat 64 (leNat (s.agate.get pa (2 ^ z.toNat)))))) none) ∧
        (CtlGo s true → checkMem s.th h.toNat ofs (2 ^ z.toNat) rightWR (2 ^ z.toNat) = .ok pa → ∀ v, rdG s s.th d.toNat 0 = .ok v →
          Does (.sts d h z k o) s (({ s with agate := s.agate.put pa (leBytes (2 ^ z.toNat) v.toNat) } : State).setTh t1) none)) ∧
      (s.me ≠ agateThr → s.th.ctlAcc.length < 8 → CtlGo s false → checkMem s.th h.toNat ofs (2 ^ z.toNat) rightRD (2 ^ z.toNat) = .ok pa →
        Does (.lds d h z x k o) s (s.setTh { (t1.dropPending d.toNat) with
          ctlAcc := (t1.dropPending d.toNat).ctlAcc ++ [acc false (x == 1#1) d.toNat 0] }) none) ∧
      (s.me ≠ agateThr → s.th.ctlAcc.length < 8 → CtlGo s true → checkMem s.th h.toNat ofs (2 ^ z.toNat) rightWR (2 ^ z.toNat) = .ok pa →
        s.versionRoom s.me (linesOf pa (2 ^ z.toNat)) = .ok ⟨⟩ → ∀ v, rdG s s.th d.toNat 0 = .ok v →
          Does (.sts d h z k o) s (s.setTh { t1 with ctlAcc := t1.ctlAcc ++ [acc true false 0 v.toNat] }) none)) ∧
  (
    ∀ (s : State) (h : BitVec 4) (a : BitVec 5) (l : BitVec 1) (t : BitVec 5) (r : BitVec 3) (x : W),
      CtlGo s false →
      (r ≠ 0#3 → rdG s s.th a.toNat 0 = .ok x →
        Does (.xlate h a l t r) s ((s.setTh ((freeG s.th l a.toNat).dropPending t.toNat)).startSettle s.me s.th.seq h.toNat false t.toNat
          x.toNat r.toNat) none) ∧
      (s.th.handleBusy h.toNat = false → hState (vget s.th.h h.toNat 0#64) ≠ 1 → Does (.hwait h) s s none) ∧
      (s.th.handleBusy h.toNat = false →
        Does (.hrel h) s (s.setTh { (s.th.writeHandle h.toNat 0 0 0 0) with
          hPoison := s.th.hPoison &&& ~~~(1#16 <<< h.toNat), hSwm := s.th.hSwm &&& ~~~(1#16 <<< h.toNat) }) none))

/-- R272, R302: EMIT puts the engine unit it builds into that engine's command queue, when the queue has room and no run-ahead record is
armed.
R303, R304, R305: WAITT takes its tokens in one step, SIGT pushes them up to 63, TKCNT reads a count.
The model's own choices and readings that it rests on: log 21. -/
def Obligations.EmitAndTokenWords : Prop :=
  (
    ∀ (s : State) (a : BitVec 5) (l : BitVec 1) (b : BitVec 5) (m : BitVec 1) (x y : W) (i : Instr) (p : Pfx) (e : Eng),
      CtlGo s false → rdG s s.th a.toNat 0 = .ok x →
      let unit (t1 : Thread) (pfx : List W32) : QUnit :=
        { seq := s.th.seq, pc := s.th.unitPc, next := s.th.pc + 4, pfx := pfx, word := x.setWidth 32, marker := false,
          snap := s.th.snap, snapN := t1.snap, rep := 0, n := (p.rep.getD (1, 0)).1, mask := (p.rep.getD (1, 0)).2, begun := false }
      (emitUnit [] (x.setWidth 32) = .ok (i, p, e) →
        ∀ t2, (freeG s.th l a.toNat).steer e.sq (unit (freeG s.th l a.toNat) []) = some (t2, false, false) →
          Does (.emit a l) s (s.setTh t2) none) ∧
      (rdG s s.th b.toNat 1 = .ok y → emitUnit [y.setWidth 32] (x.setWidth 32) = .ok (i, p, e) →
        ∀ t2, (freeG (freeG s.th l a.toNat) m b.toNat).steer e.sq
            (unit (freeG (freeG s.th l a.toNat) m b.toNat) [y.setWidth 32]) = some (t2, false, false) →
          Does (.emitWithPrefix a l b m) s (s.setTh t2) none)) ∧
  (
    ∀ (s : State) (c : BitVec 6) (p : BitVec 4) (d : BitVec 5),
      (CtlGo s true → 6 ≤ p.toNat → p.toNat ≤ 8 → c ≠ 0#6 → c.toNat ≤ vget s.th.tok p.toNat 0 →
        Does (.waitt c p) s (s.setTh { s.th with tok := vset s.th.tok p.toNat (vget s.th.tok p.toNat 0 - c.toNat) }) none) ∧
      (CtlGo s true → 3 ≤ p.toNat → p.toNat ≤ 5 → c ≠ 0#6 → vget s.th.tok p.toNat 0 + c.toNat ≤ 63 →
        Does (.sigt c p) s (s.setTh { s.th with tok := vset s.th.tok p.toNat (vget s.th.tok p.toNat 0 + c.toNat) }) none) ∧
      (CtlGo s false → p.toNat ≤ 8 →
        Does (.tkcnt d p) s (s.setTh (wrG s.th d.toNat (BitVec.ofNat 64 (vget s.th.tok p.toNat 0)))) none))

/-- R306, R308, R309, R310, R311: the group words, each at the step that completes it: JOIN and GINFO when the object can be read and their
result travels, LEAVE after its release, GBAR once the phase it arrived in has passed.
A LEAVE by a thread that is no member changes nothing at the object. A GBAR whose membership is in force arrives after its release, in one
atomic step: ARR + 1, with the flip when ARR reaches NMEM, and PHASE kept as the entry's last arrival; a pending member waits, and so does one
that has arrived, while PHASE stands.
The model's own choices and readings that it rests on: log 21. -/
def Obligations.GroupWords : Prop :=
  ∀ (s : State) (d : BitVec 5) (h : BitVec 4) (k : BitVec 1) (o : BitVec 10) (pa ofs : Nat) (t1 : Thread),
    (CtlGo s true → groupOperand h k o rightAT s = .ok (pa, ofs, t1) →
      (t1.ctlAcc.length < 8 → s.onceAt s.me onceGroup pa [0] = .ok .fresh → ∀ s1 g, s.groupAt pa ofs = .ok (s1, g) →
        Does (.join d h k o) s
          (let j := joinStep t1 pa g
           let s2 := (if j.1 = g then s1 else s1.atomicWrite pa j.1.bytes)
           let s3 := s2.setTh ({ t1 with ph := s2.th.ph }.joined d.toNat pa j.2)
           s3.onceLog s3.me onceGroup pa [0] j.2) none) ∧
      (∀ s1, s.releaseGo .ctl 4 = .done s1 →
        let gone (u : State) : State := u.setTh { t1 with ph := u.th.ph, members := t1.members.filter fun e => e.pa != pa }
        (t1.members.find? (fun e => e.pa == pa) = none → Does (.leave h k o) s (gone s1) none) ∧
        (∀ e s2 g, t1.members.find? (fun e => e.pa == pa) = some e → s1.onceAt s1.me onceGroup pa [1] = .ok .fresh →
          s1.groupAt pa ofs = .ok (s2, g) →
          Does (.leave h k o) s
            (let s3 := s2.atomicWrite pa (g.leave e).bytes
             (gone s3).onceLog s3.me onceGroup pa [1] 0) none)) ∧
      (s.th.ph.stage = gbarWaits → ∀ s1 g, s.groupAt pa ofs = .ok (s1, g) → g.phase ≠ s1.th.ph.arg →
        Does (.gbar h k o) s ((s1.setTh t1).acquire s1.me 4) none) ∧
      (s.th.ph.stage = gbarWaits → ∀ s1 g, s.groupAt pa ofs = .ok (s1, g) → g.phase = s1.th.ph.arg →
        s.th.watchdogDue .ctl .group s.now = none → Leaves (.gbar h k o) s (s.setTh (s.th.standIn .ctl .group s.now))) ∧
      (∀ e s1 s2 g, s.th.ph.stage ≠ gbarWaits → t1.members.find? (fun x => x.pa == pa) = some e →
        (s.th.ph.stage = gbarJoins ∧ s1 = s ∨ s.th.ph.stage ≠ gbarJoins ∧ s.releaseGo .ctl 4 = .done s1) →
        s1.onceAt s1.me onceGroup pa [2] = .ok .fresh → s1.groupAt pa ofs = .ok (s2, g) →
        (phaseReached g.phase e.eff = true → Leaves (.gbar h k o) s
          (let s3 := s2.atomicWrite pa (if g.arr + 1 = g.nmem then (Grp.flip { g with arr := g.arr + 1 }).bytes
            else ({ g with arr := g.arr + 1 } : Grp).bytes)
           let s4 := s3.onceLog s3.me onceGroup pa [2] g.phase
           let s5 := s4.setTh { s4.th with
             members := s4.th.members.map fun x => if x.pa = pa then { x with last := some g.phase } else x
             ph := { Phase.none with stage := gbarWaits, arg := g.phase } }
           s5.modThread s5.me fun t => t.standIn .ctl .group s5.now)) ∧
        (phaseReached g.phase e.eff = false → s.th.ph.stage = gbarJoins → s.th.watchdogDue .ctl .group s.now = none →
          Leaves (.gbar h k o) s (s.setTh (s.th.standIn .ctl .group s.now))))) ∧
    (CtlGo s false → groupOperand h k o rightRD s = .ok (pa, ofs, t1) → t1.ctlAcc.length < 8 → ∀ s1 g, s.groupAt pa ofs = .ok (s1, g) →
      Does (.ginfo d h k o) s (s1.setTh { (t1.dropPending d.toNat) with
        ctlAcc := (t1.dropPending d.toNat).ctlAcc ++ [⟨false, d.toNat, 0, 0, false,
          g.phase * 2 ^ 32 + g.nmem * 65536 + ((t1.members.find? fun e => e.pa == pa).map (·.idx)).getD 0xFFFF,
          false, (t1.dropPending d.toNat).unitPc, (t1.dropPending d.toNat).seq, none⟩] }) none)

/-- R38, R313, R314: RDCSR reads an assigned register, a read of QPOP_n pops one element, and WRCSR, CSRS and CSRC change the RW bits of
a writable register alone. Agate's thread writes its own CSRs, and a write of ENG_CMD performs the operation (R465).
The model's own choices and readings that it rests on: log 21, 28, 91. -/
def Obligations.CsrWords : Prop :=
  ∀ (s : State) (d : BitVec 5) (a : BitVec 5) (l : BitVec 1) (c : BitVec 12) (q : BitVec 4),
    let n := immU s.th.pfx 12 c.toNat
    (CtlGo s (isQpop n) → isQpop n = false → ∀ v, s.csrValue s.me n = some v →
      Does (.rdcsr d c) s (s.setTh (wrG s.th d.toNat v)) none) ∧
    (CtlGo s true → (vget s.th.q q.toNat QHead.unbound).kind ≠ 0 → ∀ s1 w r, s.popQ s.me q.toNat 1 = .ok (s1, w :: r) →
      Does (.qpopRead d q) s (s1.setTh (wrG s1.th d.toNat w)) none) ∧
    (CtlGo s true → ∀ v old mask inh, rdG s s.th a.toNat 0 = .ok v → s.csrValue s.me n = some old → n < 0x100 →
      csrMask n = some (mask, inh) → (inh = true → s.th.inh = true) →
      (csrLegal n v = true →
        Does (.wrcsr a l c) s (s.setTh ((freeG s.th l a.toNat).putCsr n ((old &&& ~~~mask) ||| (v &&& mask)))) none) ∧
      (csrLegal n (old ||| v) = true →
        Does (.csrs a l c) s (s.setTh ((freeG s.th l a.toNat).putCsr n ((old &&& ~~~mask) ||| ((old ||| v) &&& mask)))) none) ∧
      (csrLegal n (old &&& ~~~v) = true →
        Does (.csrc a l c) s (s.setTh ((freeG s.th l a.toNat).putCsr n ((old &&& ~~~mask) ||| ((old &&& ~~~v) &&& mask)))) none)) ∧
    (CtlGo s true → ∀ v old g, rdG s s.th a.toNat 0 = .ok v → s.csrValue s.me n = some old → isAgateCsr n = true →
      s.agate.csrWrite s.fresh n v.toNat = some g →
      Does (.wrcsr a l c) s ((({ s with agate := g } : State).bmcReply s.agate).setTh (freeG s.th l a.toNat)) none)

/-- R33, R35, R43, R44, R48, R74, R260, R288, R291, R292, R313, R314, R372, R387, R416: what a word past a limit of its operands raises, at its own
unit and with no effect: a shift count above 63, a condition above 9, an operation of PSET above 3 and a selector of no counter raise ILLEGAL_OP
with the word, and so does XSHL above 63; an access to an unassigned CSR, a pop of an unbound head, a write that no field takes and one that
places a reserved encoding raise ILLEGAL_OP with the number; a write of another scope's CSR, and of a trap register outside a handler,
ILLEGAL_CONTEXT; VSETC of 0 or above 65,535 ILLEGAL_OP with the value; a vector word MISALIGNED or REGION_BOUNDS at the first element of its
first operand that is not aligned or not in the scratchpad.
The model's own choices and readings that it rests on: log 27, the form of R260 where a meaning refuses a value; log 7, the free TRAP_INFO of
ILLEGAL_CONTEXT. -/
def Obligations.LimitFaultWords : Prop :=
  (
    ∀ (s : State) (d a : BitVec 5) (l : BitVec 1) (b : BitVec 5) (m : BitVec 1) (i : BitVec 12) (q : BitVec 10) (c : BitVec 4)
      (p e f o : BitVec 3) (x y : W),
      let trap (eng : Eng) (code info : Nat) : State := s.raiseAt s.me (s.th.ctlFault eng ⟨code, 0, info⟩)
      let bad (eng : Eng) (j : Instr) : Prop := Leaves j s (trap eng cIllegalOp (s.th.pfx.length * 2 ^ 32 + (wordOf j).toNat))
      let n := immU s.th.pfx 12 i.toNat
      (CtlGo s false → 63 < n → bad .control (.shli d a l i) ∧ bad .control (.shri d a l i) ∧ bad .control (.sari d a l i)) ∧
      (CtlGo s false → 9 < c.toNat → rdG s s.th a.toNat 0 = .ok x →
        bad .control (.cmpi p c a l q) ∧ (rdG s s.th b.toNat 1 = .ok y → bad .control (.cmp p a l b m c))) ∧
      (CtlGo s false → 3 < o.toNat → bad .control (.pset p e f o)) ∧
      (CtlGo s true → s.counter s.me n = none → bad .system (.rdengy d i)) ∧
      (CtlGo s (isQpop n) →
        (isQpop n = false → s.csrValue s.me n = none → Leaves (.rdcsr d i) s (trap .control cIllegalOp (n % 2 ^ 32))) ∧
        (isQpop n = true → (vget s.th.q (n - 0x040) QHead.unbound).kind = 0 → Leaves (.rdcsr d i) s (trap .control cIllegalOp n))) ∧
      (CtlGo s true → rdG s s.th a.toNat 0 = .ok x →
        let writes (new : W → W) (j : Instr) : Prop :=
          (s.csrValue s.me n = none → Leaves j s (trap .control cIllegalOp (n % 2 ^ 32))) ∧
          (∀ old, s.csrValue s.me n = some old → isAgateCsr n = false →
            (0x100 ≤ n → Leaves j s (trap .control cIllegalContext (s.free 3).toNat)) ∧
            (n < 0x100 → csrMask n = none → Leaves j s (trap .control cIllegalOp n)) ∧
            (∀ mask inh, n < 0x100 → csrMask n = some (mask, inh) →
              (inh = true → s.th.inh = false → Leaves j s (trap .control cIllegalContext (s.free 3).toNat)) ∧
              ((inh = true → s.th.inh = true) → csrLegal n (new old) = false →
                Leaves j s (trap .control cIllegalOp (n + (new old).toNat % 2 ^ 32 * 2 ^ 32)))))
        writes (fun _ => x) (.wrcsr a l i) ∧ writes (fun old => old ||| x) (.csrs a l i) ∧ writes (fun old => old &&& ~~~x) (.csrc a l i))) ∧
  (
    ∀ (s : State) (u : Cur) (w e : BitVec 2) (x y : BitVec 3) (l : BitVec 1) (i : BitVec 10) (d a b : BitVec 4) (m k : BitVec 1) (v : W)
      (z : Cause),
      let trap (eng : Eng) (c : Cause) : State := (s.issuing u).raiseAt s.me (s.th.engFault eng u.sq u.loop u.unit c)
      let n := immU u.unit.pfx 10 i.toNat
      let bad (j : Instr) : Cause := ⟨cIllegalOp, 0, u.unit.pfx.length * 2 ^ 32 + (wordOf j).toNat⟩
      (IssueGo s .vector u (.vsetc w e i) → (n = 0 ∨ 65535 < n) → Leaves (.vsetc w e i) s (trap .vector ⟨cIllegalOp, 0, n⟩)) ∧
      (IssueGo s .load u (.xshl w e x y l i) → 63 < n → Leaves (.xshl w e x y l i) s (trap .load (bad (.xshl w e x y l i)))) ∧
      (IssueGo s .store u (.xshlSt w e x y l i) → 63 < n → Leaves (.xshlSt w e x y l i) s (trap .store (bad (.xshlSt w e x y l i)))) ∧
      (IssueGo s .vector u (.vadd w e d a l b m k 0#1 0#1) →
        let st := s.issuing u
        let sp := s.th.span 4
        let fails (r : BitVec 4) (at_ : Nat) : Prop := rdA st s.th r.toNat at_ = .ok v ∧
          ((∃ o, (((Rgn.of v).offs sp).find? fun o => o % 4 != 0) = some o ∧ z = ⟨cMisaligned, 0, (o % 2 ^ 64).toNat⟩) ∨
            (((Rgn.of v).offs sp).find? fun o => o % 4 != 0) = none ∧
              ∃ o, (((Rgn.of v).offs sp).find? fun o => decide (o < 0 ∨ o + 4 > 2 ^ 21)) = some o ∧
                z = ⟨cRegionBounds, 0, (o % 2 ^ 64).toNat⟩)
        let good (r : BitVec 4) (at_ : Nat) : Prop := ∃ g, readReg st s.th r.toNat sp 0#1 at_ = .ok g
        (fails d 0 ∨ good d 0 ∧ fails a 2 ∨ good d 0 ∧ good a 2 ∧ fails b 4) →
          Leaves (.vadd w e d a l b m k 0#1 0#1) s (trap .vector z)))

/-- R35, R47 to R54, R137, R139: the ranges of a thread's registers are an invariant of the step, from every state that has them: no
token counter stands above 63, vc holds a count, the reserved bits of THREAD_STATUS, TRAP_CAUSE, TRAP_PC, REP_STATE, HANDLER_BASE and of the
format table stay 0, and ROUND_MODE, BOUND_CTL and FMT_BASE hold no reserved code. It holds of the machine after reset, of every thread in the machine and of
every thread that an image holds.
The model's own choices and readings that it rests on: log 1, the registers of a plane without a thread. -/
def Obligations.RegistersKeepTheirRanges : Prop :=
  State.reset.RegsOk ∧ ∀ s t : State, s.RegsOk → step s = .next t → t.RegsOk

/-- R287: division never traps and sets no flag: on readable sources it completes for every value, changes neither FLAGS nor the trap
registers, and gives the edge cases the results of the table. -/
def Obligations.DivisionEdgeCases : Prop :=
  ∀ (s : State) (d a : BitVec 5) (l : BitVec 1) (b : BitVec 5) (m : BitVec 1) (x y : W),
    CtlGo s false → s.th.repNow = (0, 1, 0) → rdG s s.th a.toNat 0 = .ok x → rdG s s.th b.toNat 1 = .ok y →
    let gives (i : Instr) (v : Option W) : Prop := ∃ t, exec i s = .next t ∧ (t.thread s.me).pc = s.th.pc + 4 ∧
      (t.thread s.me).flags = s.th.flags ∧ (t.thread s.me).trapPend = s.th.trapPend ∧ (t.thread s.me).trapCause = s.th.trapCause ∧
      ∀ q, v = some q → vget (t.thread s.me).g d.toNat 0#64 = if d = 0#5 then vget s.th.g 0 0#64 else q
    gives (.divs d a l b m) (if y = 0#64 then some 0xFFFFFFFFFFFFFFFF#64
      else if x = 0x8000000000000000#64 ∧ y = BitVec.allOnes 64 then some 0x8000000000000000#64 else none) ∧
    gives (.divu d a l b m) (if y = 0#64 then some 0xFFFFFFFFFFFFFFFF#64
      else if x = 0x8000000000000000#64 ∧ y = BitVec.allOnes 64 then some 0#64 else none) ∧
    gives (.rems d a l b m) (if y = 0#64 then some x
      else if x = 0x8000000000000000#64 ∧ y = BitVec.allOnes 64 then some 0#64 else none) ∧
    gives (.remu d a l b m) (if y = 0#64 then some x
      else if x = 0x8000000000000000#64 ∧ y = BitVec.allOnes 64 then some x else none)

/-- R290: SEL is the C-R word 0x0F80_0000 with p in fn[2:0]; it sets d to s1 when p is 1 and to s2 otherwise, reads both sources (a cause of
either is raised whichever is chosen), and its L bits free both. -/
def Obligations.SelectWord : Prop :=
  ∀ (s : State) (d a : BitVec 5) (l : BitVec 1) (b : BitVec 5) (m : BitVec 1) (p : BitVec 3) (x y : W) (c : Cause),
    encode (.sel d a l b m p) = some (BitVec.ofNat 32 (0x0F800000 + d.toNat * 2 ^ 18 + a.toNat * 2 ^ 13 + l.toNat * 2 ^ 12 +
      b.toNat * 2 ^ 7 + m.toNat * 2 ^ 6 + p.toNat)) ∧
    (CtlGo s false → rdG s s.th a.toNat 0 = .ok x → rdG s s.th b.toNat 1 = .ok y →
      let u := freeG (freeG s.th l a.toNat) m b.toNat
      Does (.sel d a l b m p) s (s.setTh (wrG u d.toNat (if rdP s.th p.toNat then x else y))) none ∧
      (l = 1#1 → u.freed.g.getLsbD a.toNat = true) ∧ (m = 1#1 → u.freed.g.getLsbD b.toNat = true)) ∧
    (CtlGo s false → (rdG s s.th a.toNat 0 = .error (.cause c) ∨ rdG s s.th a.toNat 0 = .ok x ∧ rdG s s.th b.toNat 1 = .error (.cause c)) →
      Leaves (.sel d a l b m p) s (s.raiseAt s.me (s.th.ctlFault .control c)))

/-- R26, R286 to R292, R305: an integer word that completes changes the one register it names and the marks of the sources it frees, and
nothing else but its thread's place in the stream: no other g register, no predicate, no handle, index, region or trap register, no
queue, no token, no other thread, no byte of memory. g0 keeps reading 0. A compare and PSET change one predicate alone, and none where it is
p0. -/
def Obligations.IntegerWordFrame : Prop :=
  ∀ (s t : State) (d a : BitVec 5) (l : BitVec 1) (b : BitVec 5) (m : BitVec 1) (n : BitVec 12) (j : BitVec 18) (p e f o : BitVec 3)
    (c k : BitVec 4) (q : BitVec 10) (x y z : W) (i : Instr),
    CtlGo s false → rdG s s.th a.toNat 0 = .ok x → rdG s s.th b.toNat 1 = .ok y →
    let toG : Prop := i ∈ ([.add d a l b m, .sub d a l b m, .mul d a l b m, .mulhs d a l b m, .mulhu d a l b m, .divs d a l b m, .divu d a l b m,
      .rems d a l b m, .remu d a l b m, .and d a l b m, .or d a l b m, .xor d a l b m, .shl d a l b m, .shr d a l b m, .sar d a l b m,
      .min d a l b m, .max d a l b m, .minu d a l b m, .maxu d a l b m, .addi d a l n, .andi d a l n, .ori d a l n, .xori d a l n,
      .clz d a l, .ctz d a l, .popc d a l, .ldi d j, .sel d a l b m p] : List Instr) ∨
      i ∈ ([.shli d a l n, .shri d a l n, .sari d a l n] : List Instr) ∧ immU s.th.pfx 12 n.toNat ≤ 63 ∨
      i = .ldhi d j ∧ rdG s s.th d.toNat 0 = .ok z ∧ immU s.th.pfx 18 j.toNat < 2 ^ 32 ∨ i = .tkcnt d k ∧ k.toNat ≤ 8
    let toP : Prop := (i = .cmp p a l b m c ∨ i = .cmpi p c a l q) ∧ c.toNat ≤ 9 ∨ i = .pset p e f o ∧ o.toNat ≤ 3
    (toG ∨ toP) → exec i s = .next t →
    let u := s.th
    let v := t.thread s.me
    OnlyThread s.me s t ∧ SameMemory s t ∧
    (toG → (∀ r, r ≠ d.toNat → vget v.g r 0#64 = vget u.g r 0#64) ∧ (d = 0#5 → v.g = u.g) ∧ v.p = u.p) ∧
    (toP → (∀ r, r ≠ p.toNat → v.p.getLsbD r = u.p.getLsbD r) ∧ (p = 0#3 → v.p = u.p) ∧ v.g = u.g) ∧
    v.h = u.h ∧ v.xl = u.xl ∧ v.xs = u.xs ∧ v.a = u.a ∧ v.m = u.m ∧ v.s = u.s ∧ v.eb = u.eb ∧ v.q = u.q ∧ v.tok = u.tok ∧
    v.flags = u.flags ∧ v.status = u.status ∧ v.trapCause = u.trapCause ∧ v.trapPc = u.trapPc ∧ v.trapTask = u.trapTask ∧
    v.trapInfo = u.trapInfo ∧ v.handlerBase = u.handlerBase ∧ v.ldQ = u.ldQ ∧ v.cpQ = u.cpQ ∧ v.stQ = u.stQ

/-- R135, R136, R138, R161, R225, R269, R283: what the machine does around a word that completes. A control word's completion moves its thread on
in the stream alone; an engine word's issue, with no late cause, no trap pending and no token counter past its limit, takes a permit and
changes its own thread's tokens, queues and records, the flags that it raises when it finishes (R376), and no register file, no other
thread, no byte of memory and no other cluster. In its own cluster it changes the permits, the count of issues and the whole mark of the tiles
of its thread, and, when it is a matrix word of the lease's holder, the time from which the lease counts. -/
def Obligations.CompletionFrame : Prop :=
  (∀ (t : State) (k : Nat) (pc : Option Nat),
    let u := t.modThread k fun th => th.ctlDone pc
    let a := t.thread k
    let b := u.thread k
    OnlyThread k t u ∧ SameMemory t u ∧ b.g = a.g ∧ b.p = a.p ∧ b.h = a.h ∧ b.xl = a.xl ∧ b.xs = a.xs ∧ b.a = a.a ∧ b.m = a.m ∧ b.s = a.s ∧
    b.eb = a.eb ∧ b.q = a.q ∧ b.tok = a.tok ∧ b.status = a.status ∧ b.trapCause = a.trapCause ∧ b.trapPc = a.trapPc ∧
    (a.repNow.2.1 ≤ 1 → b.pc = pc.getD (a.pc + 4) ∧ b.pfx = [] ∧ b.seq = a.seq + 1)) ∧
  (∀ (r : EngRes) (k : Nat) (eng : Eng) (c : Cur) (w : W32), r.late = none → (r.s.thread k).trapPend = none →
    ((((r.s.takePermit k c.sq (permitClass eng)).countWhole k c.sq).thread k).issuedUnit c w r |>.pushTokens c.sq (c.unit.ts w + 4 * r.wcb)).2 = none →
    let u := r.issued k eng c w
    let x := r.s.cluster (thrCluster k)
    let y := u.cluster (thrCluster k)
    let a := r.s.thread k
    let b := u.thread k
    SameMemory r.s u ∧ (∀ j, j ≠ k → u.thread j = r.s.thread j) ∧ b.g = a.g ∧ b.p = a.p ∧ b.h = a.h ∧ b.xl = a.xl ∧ b.xs = a.xs ∧
    b.a = a.a ∧ b.m = a.m ∧ b.s = a.s ∧ b.eb = a.eb ∧ b.q = a.q ∧ (b.flags = a.flags ∨ b.flags = a.flags ||| r.flags) ∧
    b.status = a.status ∧ b.trapCause = a.trapCause ∧ b.trapPc = a.trapPc ∧ b.pc = a.pc ∧
    u = { r.s with thr := u.thr, clusters := u.clusters } ∧ (∀ j, j ≠ thrCluster k → u.cluster j = r.s.cluster j) ∧
    y = { x with perm := y.perm, permLast := y.permLast, acc := y.acc, leaseAt := y.leaseAt } ∧
    y.leaseAt = (if eng = .matrix ∧ r.s.holdsLease k = true then x.cycles r.s.now else x.leaseAt) ∧
    ∀ i, let v := y.slotAt i
      v = { x.slotAt i with since := v.since, whole := v.whole } ∧
        (c.sq ≠ .comp ∨ (x.slotAt i).isOf a.task (some a.gangPos) = false → v = x.slotAt i))

/-- R82, R84, R107, R126, R297, R323: a store changes, in what its own task reads, the bytes it stores to and no others, whether they lie
under the open mark or a sealed one; it changes no register of any thread and no other task's version. An address of the module's own
peer window is that of the local map behind it (R66). STS leaves a store of its bytes at
the address that its own check gives, and the oldest store of the control path changes, when it performs, the bytes it stores to and no
others. With no line under a sealed mark the task reads the stored bytes back.
The model's own choices and readings that it rests on: log 21, 104. -/
def Obligations.StoreFrame : Prop :=
  (∀ (s : State) (k pa : Nat) (swm : Bool) (l : List Byte),
    let t := s.versionWrite k swm pa l
    t.thr = s.thr ∧ (∀ uid, uid ≠ (s.thread k).task → t.taskOf uid = s.taskOf uid) ∧
    (∀ a b, (a < s.localPa pa ∨ s.localPa pa + l.length ≤ a) → t.versionByte k a b = s.versionByte k a b) ∧
    (∀ x, s.taskOf (s.thread k).task = some x → (∀ v ∈ x.lines, v.mark = x.openMark) →
      ∀ i b, i < l.length → t.versionByte k (s.localPa pa + i) b = l.getD i 0#8)) ∧
  (∀ (s : State) (d : BitVec 5) (h : BitVec 4) (z : BitVec 2) (k : BitVec 1) (o : BitVec 10) (ofs pa : Nat) (t1 : Thread) (v : W),
    CtlGo s true → s.me ≠ agateThr → ctlHandle s.th h.toNat = .ok s.th → cmOfs s s.th k o = .ok (ofs, t1) → s.th.ctlAcc.length < 8 →
    checkMem s.th h.toNat ofs (2 ^ z.toNat) rightWR (2 ^ z.toNat) = .ok pa → s.versionRoom s.me (linesOf pa (2 ^ z.toNat)) = .ok ⟨⟩ →
    rdG s s.th d.toNat 0 = .ok v →
    ∃ t, exec (.sts d h z k o) s = .next t ∧ (∀ j, j ≠ s.me → t.thread j = s.thread j) ∧ (∀ a b, t.versionByte s.me a b = s.versionByte s.me a b) ∧
      (let u := t.thread s.me
       u.g = s.th.g ∧ u.p = s.th.p ∧ u.h = s.th.h ∧ u.status = s.th.status ∧
         ∃ x : CtlAcc, u.ctlAcc = t1.ctlAcc ++ [x] ∧ x.store = true ∧ x.pa = pa ∧ x.n = 2 ^ z.toNat ∧ x.dat = v.toNat)) ∧
  (∀ (s : State) (k : Nat) (x : CtlAcc) (r : List CtlAcc), (s.thread k).ctlAcc = x :: r → x.store = true → s.frozen k = false →
    ∃ t, exec (.controlPathAccessPerforms k 0) s = .next t ∧ (∀ j, j ≠ k → t.thread j = s.thread j) ∧
      t.thread k = { s.thread k with ctlAcc := r } ∧
      (∀ uid, uid ≠ (s.thread k).task → t.taskOf uid = s.taskOf uid) ∧
      ∀ a b, (a < s.localPa x.pa ∨ s.localPa x.pa + x.n ≤ a) → t.versionByte k a b = s.versionByte k a b)

/-- R41, R259, R294, R295, R297, R303, R304, R316, R397, R399: control and system words that trap: an address that is not aligned, DBNZ of g0, a
source that is dead, a load without its right, past its page or not aligned, a token pair out of range, a count past 63, TRAPRET outside a
handler and INSTALL inside one. Each raises its cause at its own unit; SIGT after its effect.
The model's own choices and readings that it rests on: log 7, 27, 101. -/
def Obligations.ControlWordTraps : Prop :=
  ∀ (s : State) (a d : BitVec 5) (l : BitVec 1) (j : BitVec 18) (n : BitVec 12) (h : BitVec 4) (z : BitVec 2) (x k : BitVec 1) (o : BitVec 10)
    (c : BitVec 6) (p : BitVec 4) (v : W) (ofs : Nat) (t1 : Thread),
    let trap (eng : Eng) (code sub info : Nat) : State := s.raiseAt s.me (s.th.ctlFault eng ⟨code, sub, info⟩)
    let bad (i : Instr) : State := trap .control cIllegalOp 0 (s.th.pfx.length * 2 ^ 32 + (wordOf i).toNat)
    (CtlGo s false → rdG s s.th a.toNat 0 = .ok v → v.toNat % 4 ≠ 0 →
      Leaves (.jmp a l) s (trap .control cMisaligned 0 v.toNat) ∧ Leaves (.ret a l) s (trap .control cMisaligned 0 v.toNat)) ∧
    (CtlGo s false → Leaves (.dbnz 0#5 j) s (bad (.dbnz 0#5 j))) ∧
    (CtlGo s false → a ≠ 0#5 → s.th.gPending a.toNat = false → s.th.freed.g.getLsbD a.toNat = true → s.th.lutrap = true →
      Leaves (.addi d a l n) s (trap .control cDeadRegister 0 a.toNat)) ∧
    (CtlGo s false → ctlHandle s.th h.toNat = .ok s.th → cmOfs s s.th k o = .ok (ofs, t1) →
      (hState (vget s.th.h h.toNat 0#64) = 0 → Leaves (.lds d h z x k o) s (trap .control cProtection 0 ofs)) ∧
      (hState (vget s.th.h h.toNat 0#64) = 2 →
        (ofs % 2 ^ z.toNat ≠ 0 → Leaves (.lds d h z x k o) s (trap .control cMisaligned 0 ofs)) ∧
        (ofs % 2 ^ z.toNat = 0 → (hRights (vget s.th.h h.toNat 0#64) &&& rightRD ≠ rightRD ∨
            pageBytes (hPsz (vget s.th.h h.toNat 0#64)) < ofs + 2 ^ z.toNat) →
          Leaves (.lds d h z x k o) s (trap .control cProtection 0 ofs)))) ∧
    (CtlGo s true → (p.toNat < 6 ∨ 8 < p.toNat ∨ c = 0#6) → Leaves (.waitt c p) s (bad (.waitt c p))) ∧
    (CtlGo s true → (p.toNat < 3 ∨ 5 < p.toNat ∨ c = 0#6) → Leaves (.sigt c p) s (bad (.sigt c p))) ∧
    (CtlGo s true → 3 ≤ p.toNat → p.toNat ≤ 5 → c ≠ 0#6 → 63 < vget s.th.tok p.toNat 0 + c.toNat →
      let u := (s.setTh { s.th with tok := vset s.th.tok p.toNat 63 }).modThread s.me fun t => t.ctlDone none
      let v := u.thread s.me
      Leaves (.sigt c p) s (u.raiseAt s.me { s.th.ctlFault .control ⟨cTokenOverflow, 0, p.toNat⟩ with
        seq := v.seq, pc := v.pc, rep := none, snap := v.snap, after := v.pc, late := true })) ∧
    (CtlGo s true → s.th.inh = false → Leaves .trapret s (trap .system cIllegalContext 0 (s.free 3).toNat)) ∧
    (CtlGo s true → s.th.inh = true → canReturn s.th = false →
      Leaves .trapret s (trap .system cBadReturn 0 (s.th.trapCause.toNat / 2 ^ 32))) ∧
    (CtlGo s true → s.th.inh = true → Leaves (.install d a l) s (trap .system cIllegalContext 0 (s.free 3).toNat))

/-- R396, R421, R422, R424: TRAP, and ECALL after its commit, take the software trap at the word that follows: with the engines at rest,
outside a handler, when the reads that find the entry are done and an entry is installed, fetch goes to the entry, TRAP_CAUSE holds the
status, the engine and the code, TRAP_INFO the operand, TRAP_PC the address after the word, and INH is set.
R48, R49, R50, R424: what the entry to a handler writes: TRAP_CAUSE holds THREAD_STATUS, ENG, SUB and CAUSE in their fields, TRAP_PC the
address, TRAP_TASK the task and the commit index, TRAP_INFO the value of the cause; a unit under REP leaves REP_STATE, with ACT set once a
repeat has run (log 168); INH is set, fetch goes to the handler with no prefix collected and no repeat begun, and every other register stays.
The model's own choices and readings that it rests on: log 21, 24, 168. -/
def Obligations.SoftwareTraps : Prop :=
  (
    ∀ (s : State) (a : BitVec 5) (l : BitVec 1) (c : BitVec 7) (v : W) (adr : Nat) (s3 s4 : State),
      CtlGo s true → s.me ≠ agateThr → EnginesIdle s.th → s.th.inh = false → s.th.repNow = (0, 1, 0) → rdG s s.th a.toNat 0 = .ok v →
      let after (s1 : State) : State := (s1.setTh (freeG s1.th l a.toNat)).modThread s.me fun th => th.ctlDone none
      let trap (s1 : State) (sub : Nat) : TrapPend :=
        { s.th.ctlFault .system ⟨cSoftware, sub, v.toNat⟩ with
          seq := ((after s1).thread s.me).seq, pc := ((after s1).thread s.me).pc, rep := none, snap := ((after s1).thread s.me).snap,
          after := ((after s1).thread s.me).pc, late := true }
      let finds (s1 : State) (sub : Nat) : Prop :=
        ((after s1).modThread s.me fun t => { t with trapPend := some (trap s1 sub) }).handlerReads s.me ⟨cSoftware, sub, v.toNat⟩ = .ok s4 ∧
          ((s4.atPoint s.me (trap s1 sub)).taken s.me ⟨cSoftware, sub, v.toNat⟩).handlerEntry s.me cSoftware = (s3, some adr)
      let entered (sub : Nat) : State :=
        s3.modThread s.me fun t => enterHandler t (s3.tidOf s.me) (s3.cidxOf s.me) .system ⟨cSoftware, sub, v.toNat⟩
          ((after s).thread s.me).pc none adr
      (finds s c.toNat → Leaves (.trap a l c) s (entered c.toNat)) ∧
      (∀ s1, s.commitGo .ctl = .done s1 → s1.me = s.me → EnginesIdle s1.th → s1.th.inh = false → s1.th.repNow = (0, 1, 0) →
        s1.th.pc = s.th.pc → finds s1 (128 + c.toNat) → Leaves (.ecall a l c) s (entered (128 + c.toNat)))) ∧
  (
    ∀ (t : Thread) (tid cidx pc target : Nat) (eng : Eng) (c : Cause) (rep : Option (Nat × Nat × Nat)),
      let u := enterHandler t tid cidx eng c pc rep target
      bits u.trapCause.toNat 63 32 = t.status.toNat ∧ bits u.trapCause.toNat 31 19 = 0 ∧ bits u.trapCause.toNat 18 16 = eng.code ∧
      bits u.trapCause.toNat 15 8 = c.sub % 256 ∧ bits u.trapCause.toNat 7 0 = c.code % 256 ∧
      u.trapPc.toNat = pc % 2 ^ 57 ∧ bits u.trapTask.toNat 63 24 = tid % 2 ^ 40 ∧ bits u.trapTask.toNat 23 0 = cidx % 2 ^ 24 ∧
      u.trapInfo.toNat = c.info % 2 ^ 64 ∧
      (rep = none → u.repState = t.repState) ∧
      (∀ remain mask done, rep = some (remain, mask, done) → u.repState.getLsbD 31 = decide (done ≠ 0) ∧ bits u.repState.toNat 21 16 = remain % 64 ∧
        bits u.repState.toNat 10 8 = mask % 8 ∧ bits u.repState.toNat 5 0 = done % 64) ∧
      u.inh = true ∧ (∀ i, i ≠ 25 → u.status.getLsbD i = t.status.getLsbD i) ∧
      u = { t with
        trapCause := u.trapCause, trapPc := u.trapPc, trapTask := u.trapTask, trapInfo := u.trapInfo, repState := u.repState
        repPc := rep.map fun _ => pc, status := u.status, pc := target, pfx := [], repDone := 0 })

/-- R48, R397: TRAPRET completes for every thread inside a handler whose SSTAT has no reserved bit set and the thread's SYS, ECLASS and
TENANT: THREAD_STATUS becomes SSTAT with INH 0 and PLANE kept, fetch goes to TRAP_PC, and no register, no token, no other thread and no
byte of memory changes. Where a kept loop resumes at F, fetch goes on after its captured body (R478). A REP unit that TRAP_PC still names
resumes at the repeat that REP_STATE says (R50).
R51, R398, R399: INSTALL completes for every thread outside a handler whose source can be read: 0 removes the table; an address that is not
canonical or not aligned to 4 KiB answers 3, and a page without its leaf 1; otherwise, when the table can be read, the checks give the code,
and with code 0 the table is installed, HANDLER_BASE taking VA and VALID. d takes the code; every other code leaves HANDLER_BASE.
The model's own choices and readings that it rests on: log 25, 30, 45. -/
def Obligations.HandlerReturnAndInstall : Prop :=
  (
    ∀ s : State, CtlGo s true → s.th.inh = true → canReturn s.th = true →
      let u := s.th
      let back := sext57 (bits u.trapPc.toNat 56 2 * 4)
      ∃ t, exec .trapret s = .next t ∧ OnlyThread s.me s t ∧ SameMemory s t ∧
        (let v := t.thread s.me
         v.status = setBit32 (setBit32 (BitVec.ofNat 32 (u.trapCause.toNat >>> 32)) 25 false) 19 (u.status.getLsbD 19) ∧
         v.inh = false ∧ v.pfx = [] ∧ v.seq = u.seq + 1 ∧
         ((∀ r ∈ u.loopRes, r.pc = back → r.after = back) → v.pc = back) ∧
         (∀ r, u.loopRes = [r] → r.pc = back → v.pc = r.after) ∧
         (u.loopRes = [] → v.repDone = if u.repState.getLsbD 31 = true ∧ u.repPc = some back then bits u.repState.toNat 5 0 else 0) ∧
         v.g = u.g ∧ v.p = u.p ∧ v.h = u.h ∧ v.xl = u.xl ∧ v.xs = u.xs ∧ v.a = u.a ∧ v.m = u.m ∧ v.s = u.s ∧ v.eb = u.eb ∧ v.q = u.q ∧
         v.tok = u.tok ∧ v.flags = u.flags ∧ v.handlerBase = u.handlerBase ∧ v.claim = u.claim ∧ v.repState = u.repState ∧
         v.trapCause = u.trapCause ∧ v.trapPc = u.trapPc ∧ v.trapTask = u.trapTask ∧ v.trapInfo = u.trapInfo)) ∧
  (
    ∀ (s : State) (d a : BitVec 5) (l : BitVec 1) (v : W), CtlGo s true → s.th.inh = false → rdG s s.th a.toNat 0 = .ok v →
      let put (s1 : State) (f : Thread → Thread) (code : Nat) : State :=
        s1.setTh (wrG (f (freeG s1.th l a.toNat)) d.toNat (BitVec.ofNat 64 code))
      (v = 0#64 → Does (.install d a l) s
        (put s (fun t => { t with handlerBase := t.handlerBase &&& ~~~1#64, handlerRanges := [] }) 0) none) ∧
      (v ≠ 0#64 → (canonical v.toNat = false ∨ v.toNat % 4096 ≠ 0) → Does (.install d a l) s (put s id 3) none) ∧
      (v ≠ 0#64 → canonical v.toNat = true → v.toNat % 4096 = 0 →
        (∀ s1, (s.acquire s.me 4).walkMeet (s.thrCtx s.me) v.toNat = .ok s1 →
          (∀ e line, s1.walk (s.thrCtx s.me) v.toNat = .leaf e line → (e.pin && rightsOk e rightRD s.th.sys v.toNat) = false) →
          Does (.install d a l) s (put s1 id 1) none) ∧
        (∀ s1 code, s.installCheck s.me v.toNat = .ok (s1, code, none) → Does (.install d a l) s (put s1 id code) none) ∧
        (∀ s1 code pages, s.installCheck s.me v.toNat = .ok (s1, code, some pages) →
          Does (.install d a l) s (put s1 (fun t => { t with
            handlerBase := BitVec.ofNat 64 (bits v.toNat 56 12 * 4096 + 1), handlerRanges := pages }) 0) none)))

/-- R105, R127, R400, R401, R402, R403: the hints and fences: PHINT with no save pending only goes on; PFENCE takes its persist point, after
a commit where the marks ask for one (R84), or leaves it pending inside the window; QSYNC puts its markers into both queues; FENCE acquires
and releases, and Agate's has nothing to order (R465); TCOMMIT completes with its commit.
The model's own choices and readings that it rests on: log 21, 22, 24, 91. -/
def Obligations.HintsAndFences : Prop :=
  ∀ (s : State) (i : BitVec 16) (c : BitVec 1) (k : BitVec 3) (e : BitVec 2), CtlGo s true →
    (s.th.savePending = false → Does (.phint i) s s none) ∧
    ((c = 0#1 ∨ s.holdsLease s.me = true) →
      let scope := max (s.th.pendPersist.getD 0) c.toNat
      (s.th.ph.stage = 0 → s.th.persistOpen s.now = false → Does (.pfence c) s (s.setTh { s.th with pendPersist := some scope }) none) ∧
      (s.th.ph.stage = 0 → s.th.persistOpen s.now = true → s.pointCommits s.me = false → s.th.drained = true → s.th.wordsWhole = true →
        Does (.pfence c) s (s.persistPoint s.me (if s.holdsLease s.me then scope else 0)) none) ∧
      ((s.th.ph.stage ≠ 0 ∨ s.th.persistOpen s.now = true ∧ s.pointCommits s.me = true) → ∀ s1, s.commitGo .ctl = .done s1 →
        Does (.pfence c) s (s1.persistPoint s1.me (if s1.holdsLease s1.me then scope else 0)) none)) ∧
    (s.th.ctlAcc = [] → s.th.ldQ.length < queueDepth .load → s.th.stQ.length < queueDepth .store →
      Does .qsync s (s.setTh { s.th with
        ldQ := s.th.ldQ ++ [(s.th.unitHere (wordOf .qsync)).mark], stQ := s.th.stQ ++ [(s.th.unitHere (wordOf .qsync)).mark] }) none) ∧
    (s.me = agateThr → Does (.fence k e) s s none) ∧
    (s.me ≠ agateThr → (s.th.ph.stage ≠ 0 ∨ s.th.allBefore = true) →
      (e.getLsbD 1 = false → Does (.fence k e) s (if e.getLsbD 0 then s.acquire s.me k.toNat else s) none) ∧
      (e.getLsbD 1 = true → ∀ s1,
        (s.modThread s.me fun t => { t with ph := { t.ph with arg2 := fenceWaits } }).releaseGo .ctl k.toNat = .done s1 →
        Does (.fence k e) s (if e.getLsbD 0 then s1.acquire s1.me k.toNat else s1) none)) ∧
    (∀ s1, s.commitGo .ctl = .done s1 → Does .tcommit s s1 none)

/-- R309, R404, R405, R406, R407: TEND after its commit, which is a release at PKG scope where the thread has LEAVEs to make, ends the thread;
TABORT stops the other threads of a gang and ends the task with its code; PSWAP with no ready thread on the shadow plane writes 0 and with one
swaps the planes; IDLE ends at its time, and Agate's at once when a request is there (R465).
R267 to R271: a prefix word that may follow the prefixes before it joins the unit, and fetch goes on.
The model's own choices and readings that it rests on: log 24, 47. -/
def Obligations.EndsIdleAndPrefixWords : Prop :=
  (
    ∀ (s : State) (c : BitVec 8) (d a : BitVec 5) (l : BitVec 1) (i : BitVec 12) (v : W), CtlGo s true →
      (let s0 := s.modThread s.me fun t => { t with ph := { t.ph with arg2 := endWaits } }
       (s.th.ph.stage ≠ 0 ∨ s.ended s.me = true) → ∀ s1, (if s.th.members = [] then s0.commitGo .ctl else s0.releaseGo .ctl 4) = .done s1 →
         Leaves .tend s (s1.threadEnds s1.me)) ∧
      (let s0 := s.stopMates s.me
       s0.ended s.me = true → s0.matesDrained s.me = true →
         Leaves (.tabort c) s (s0.endTask s.th.task 1 cSoftware c.toNat c.toNat 0)) ∧
      (s.me = agateThr → s.agate.req = true → s.th.ph.stage ≠ idleWaits → Does (.idle i) s s none) ∧
      (rdG s s.th a.toNat 0 = .ok v →
        (s.shadowReady s.me = false → Does (.pswap d a l) s (s.setTh (wrG (freeG s.th l a.toNat) d.toNat 0#64)) none) ∧
        (s.shadowReady s.me = true → s.th.drained = true →
          Does (.pswap d a l) s ((s.setTh (wrG (freeG s.th l a.toNat) d.toNat 1#64)).swapOut s.me (v.toNat % 65536)) none)) ∧
      (s.th.ph.stage = idleWaits → s.th.savePending = false → ∀ u, s.th.idleUntil = some u → u ≤ s.now →
        Does (.idle i) s (s.setTh { s.th with idleUntil := none }) none)) ∧
  (
    ∀ (s : State) (i : Instr) (p : Pfx),
      ((∃ n d a b, i = .rep n d a b) ∨ (∃ v n, i = .pred v n) ∨ ∃ n, i = .exti n) → readPfx (s.th.pfx ++ [wordOf i]) = some p →
      Leaves i s (s.setTh { s.th with pfx := s.th.pfx ++ [wordOf i], pfxPc := s.th.unitPc, pc := s.th.pc + 4 }))

/-- R408, R409: KICK makes a task ready and answers the generation, KICK.R asks for a replay and answers the next one, both once; NWAIT
answers 0 when the node's generation has come, 1 when it is no longer ahead. Each answers all ones where its slot or its node does not
stand.
The model's own choices and readings that it rests on: log 46. -/
def Obligations.GraphWords : Prop :=
  ∀ (s : State) (d a : BitVec 5) (l : BitVec 1) (b : BitVec 5) (m : BitVec 1) (v y : W), CtlGo s true → rdG s s.th a.toNat 0 = .ok v →
    let node := bits v.toNat 31 16
    let kicked (i : Instr) (r : Nat) (s1 : State) (ret : Nat) : Prop :=
      Does i s
        (let s2 := s1.onceLog s1.me onceKick 0 [r, v.toNat] ret
         s2.setTh (wrG (freeG s2.th l a.toNat) d.toNat (BitVec.ofNat 64 ret))) none
    let waited (s1 : State) (x : Nat) : Prop :=
      Does (.nwait d a l b m) s (s1.setTh (wrG (freeG (freeG s1.th l a.toNat) m b.toNat) d.toNat (BitVec.ofNat 64 x))) none
    (s.onceAt s.me onceKick 0 [0, v.toNat] = .ok .fresh →
      (s.graphSlot s.th.tenant v = none → kicked (.kick d a l) 0 s (2 ^ 64 - 1)) ∧
      (∀ n x, s.graphSlot s.th.tenant v = some (n, x) →
        (x.nodes.length ≤ node → kicked (.kick d a l) 0 s (2 ^ 64 - 1)) ∧
        (node < x.nodes.length → s.mapReady x node = true → (s.die (s.chooseDie x node)).ready.length < 4096 →
          kicked (.kick d a l) 0 (s.addTask n node (bits v.toNat 15 0) true) x.gen))) ∧
    (s.onceAt s.me onceKick 0 [1, v.toNat] = .ok .fresh →
      (s.graphSlot s.th.tenant v = none → kicked (.kickR d a l) 1 s (2 ^ 64 - 1)) ∧
      (∀ n x, s.graphSlot s.th.tenant v = some (n, x) →
        (node ≠ 0 → kicked (.kickR d a l) 1 s (2 ^ 64 - 1)) ∧
        (node = 0 → kicked (.kickR d a l) 1 (s.setSlot n { x with replayWait := some (x.replayWait.getD none) }) (nextGen x.gen)))) ∧
    (rdG s s.th b.toNat 1 = .ok y →
      let g := y.toNat % 65536
      (s.graphSlot s.th.tenant v = none → waited s (2 ^ 64 - 1)) ∧
      (∀ n x, s.graphSlot s.th.tenant v = some (n, x) →
        (x.nodes.length ≤ node ∨ g = 0 → waited s (2 ^ 64 - 1)) ∧
        (node < x.nodes.length → g ≠ 0 → (x.node node).cgen = g → waited (s.acquire s.me 4) 0) ∧
        (node < x.nodes.length → g ≠ 0 → (x.node node).cgen ≠ g → g ≠ x.gen → genAhead g x.gen = false →
          waited (s.acquire s.me 4) 1)))

/-- R227, R410, R411: BARINIT and BAREXP set a barrier object in one atomic step, once; BARWAIT passes once the phase is not the one it
names.
R191, R412, R413: SNAPC after its release flips the working map of a domain and answers the new epoch, or all ones at
the last epoch; COLL enters a collective whose
descriptor is acceptable, once, and answers 0.
The model's own choices and readings that it rests on: log 14, 46. -/
def Obligations.BarrierSnapshotAndCollectiveWords : Prop :=
  (
    ∀ (s : State) (d : BitVec 5) (h : BitVec 4) (k : BitVec 1) (o : BitVec 10) (ofs pa : Nat) (t1 : Thread) (v : W),
      CtlGo s true → s.th.handleBusy h.toNat = false → cmOfs s s.th k o = .ok (ofs, t1) → rdG s s.th d.toNat 0 = .ok v →
      (checkMem s.th h.toNat ofs 16 rightAT 16 = .ok pa → v.getLsbD 63 = false →
        ∀ keep : Bool, s.onceAt s.me onceBar pa [b01 keep, v.toNat] = .ok .fresh → ∀ s1 x, s.atomicRead pa 16 = .ok (s1, x) →
          Does (if keep then .barexp d h k o else .barinit d h k o) s
            (let w := barSet keep (x % 2 ^ 64) (x / 2 ^ 64) v.toNat
             let s2 := s1.atomicWrite pa (leBytes 8 w.1 ++ leBytes 8 w.2)
             let s3 := s2.onceLog s2.me onceBar pa [b01 keep, v.toNat] 0
             s3.setTh { t1 with ph := s3.th.ph }) none) ∧
      (checkMem s.th h.toNat ofs 16 rightRD 16 = .ok pa → ∀ s1 x, s.homeData pa 8 = .ok (s1, x) → bit x 63 ≠ v.getLsbD 0 →
        Does (.barwait d h k o) s (s1.setTh t1) none)) ∧
  (
    ∀ (s : State) (d : BitVec 5) (h : BitVec 4) (k : BitVec 1) (o : BitVec 10) (ofs pa : Nat) (t1 : Thread),
      CtlGo s true → s.th.handleBusy h.toNat = false → cmOfs s s.th k o = .ok (ofs, t1) →
      (checkMem s.th h.toNat ofs 64 rightAT 64 = .ok pa → ∀ s1 x0 s2 s3 x, s.homeData pa 64 = .ok (s1, x0) → snapReserved x0 = false →
        s1.releaseGo .ctl 4 = .done s2 → s2.onceAt s2.me onceSnap pa [] = .ok .fresh → s2.atomicRead pa 64 = .ok (s3, x) →
        (bits (x / 2 ^ 128 % 2 ^ 64) 63 40 = 0xFFFFFF →
          Does (.snapc d h k o) s
            (let s6 := s3.onceLog s3.me onceSnap pa [] (2 ^ 64 - 1)
             s6.setTh (wrG { t1 with ph := s6.th.ph } d.toNat (BitVec.allOnes 64))) none) ∧
        (bits (x / 2 ^ 128 % 2 ^ 64) 63 40 ≠ 0xFFFFFF → Does (.snapc d h k o) s
          (let w := x / 2 ^ 128 % 2 ^ 64
           let e := bits w 63 40 + 1
           let s4 := s3.snapRegister (s3.thrCtx s3.me) (s3.localPa pa)
           let s5 := s4.atomicWrite (pa + 16) (leBytes 8 (e * 2 ^ 40 + w % 2 ^ 40 / 2 * 2 + (1 - w % 2)))
           let s6 := s5.onceLog s5.me onceSnap pa [] e
           s6.setTh (wrG { t1 with ph := s6.th.ph } d.toNat (BitVec.ofNat 64 e))) none)) ∧
      (checkMem s.th h.toNat ofs 64 rightRD 64 = .ok pa → ∀ s1 l, (s.acquire s.me 4).loadData pa 64 (s.th.swmOf h.toNat) = .ok (s1, l) →
        let w (i : Nat) : Nat := (words8 8 l).getD i 0
        collBad w (fun c => s1.comms.any fun x => x.num == c && x.tenant == s.th.tenant) = none →
        s1.onceAt s1.me onceColl pa (words8 8 l) = .ok .fresh → s1.colls.length < 256 →
        Does (.coll d h k o) s
          (let c : Coll := {
             desc := pa, comm := bits (w 4) 63 48, op := bits (w 4) 47 40, fmt := bits (w 4) 39 36, root := bits (w 3) 63 48
             count := bits (w 3) 47 0, src := w 0, dst := w 1, bar := w 2, task := s.th.task, pos := s.th.gangPos, ord := 0, done := []
             inputs := [], heads := [], since := 0, heard := [], stalled := none, flags := 0#32, stopped := false }
           let s2 := (s1.collSubmit c).modTask s.th.task fun x => { x with asyncOut := x.asyncOut + 1 }
           let s3 := s2.onceLog s2.me onceColl pa (words8 8 l) 0
           s3.setTh (wrG { t1 with ph := s3.th.ph } d.toNat 0#64)) none))

/-- R414 to R418: OPREQ takes back or keeps a request, CURTQ, RDTIME and RDENGY read the scheduler, the clock and a counter, DHOPS gives
the distance of two virtual dies, and all ones where one is unbound, VDMAP in a system thread rebinds one, or answers 1. -/
def Obligations.EnergyTimeAndDieWords : Prop :=
  ∀ (s : State) (d a : BitVec 5) (l : BitVec 1) (b : BitVec 5) (m : BitVec 1) (i : BitVec 12) (x y v : W), CtlGo s true →
    (let j := immU s.th.pfx 12 i.toNat
     let x := s.taskOf s.th.task
     let asked (v : Nat) : State := s.modTask s.th.task fun t => { t with opreq := v }
     (j = 0xFFF → Does (.opreq d i) s ((asked 0).setTh (wrG (asked 0).th d.toNat 0#64)) none) ∧
     (∀ y, x = some y → j ≠ 0xFFF → y.rows.contains j = true →
       Does (.opreq d i) s ((asked (j + 1)).setTh (wrG (asked (j + 1)).th d.toNat 0#64)) none) ∧
     (∀ y, x = some y → j ≠ 0xFFF → y.rows.contains j = false → Does (.opreq d i) s (s.setTh (wrG s.th d.toNat 1#64)) none)) ∧
    Does (.curtq d) s (s.setTh (wrG s.th d.toNat (BitVec.ofNat 64 s.sched.curtq))) none ∧
    Does (.rdtime d) s (s.setTh (wrG s.th d.toNat (BitVec.ofNat 64 s.now))) none ∧
    (s.counter s.me (immU s.th.pfx 12 i.toNat) = some v → Does (.rdengy d i) s (s.setTh (wrG s.th d.toNat v)) none) ∧
    (rdG s s.th a.toNat 0 = .ok x → rdG s s.th b.toNat 1 = .ok y →
      let c := s.ctx (s.thrCtx s.me)
      (∀ p q, c.pdie x.toNat = some p → c.pdie y.toNat = some q →
        Does (.dhops d a l b m) s
          (s.setTh (wrG (freeG (freeG s.th l a.toNat) m b.toNat) d.toNat (BitVec.ofNat 64 (hops p q)))) none) ∧
      (c.pdie x.toNat = none ∨ c.pdie y.toNat = none →
        Does (.dhops d a l b m) s (s.setTh (wrG (freeG (freeG s.th l a.toNat) m b.toNat) d.toNat (BitVec.allOnes 64))) none) ∧
      (s.th.sys = true →
        let new := vset c.vdt x.toNat (BitVec.ofNat 8 y.toNat)
        (x.toNat ≤ 7 → s.vdtOk new = true →
          Does (.vdmap d a l b m) s
            (let s1 : State := { s with ctxs := Tab.put (s.thrCtx s.me) { c with vdt := new } s.ctxs }
             s1.setTh (wrG (freeG (freeG s1.th l a.toNat) m b.toNat) d.toNat 0#64)) none) ∧
        (7 < x.toNat ∨ s.vdtOk new = false →
          Does (.vdmap d a l b m) s (s.setTh (wrG (freeG (freeG s.th l a.toNat) m b.toNat) d.toNat 1#64)) none)))

/-- R319, R366, R388, R389: the index words set an x register from another, from a sum or a shift, or from the iteration of a loop; the
no-operations issue. Both sequencers do the same on their own registers.
R274, R320, R366, R388: a loop word within its limits sets its counter and opens its loop.
The model's own choices and readings that it rests on: log 118. -/
def Obligations.IndexAndLoopWords : Prop :=
  (
    ∀ (s : State) (c : Cur) (w e : BitVec 2) (d a b : BitVec 3) (l m n : BitVec 1) (i : BitVec 10) (x y : W) (ld : Bool),
      let st := s.issuing c
      let eng : Eng := if ld then .load else .store
      let res (t : Thread) (v : W) (vals : List Nat) : EngRes := { s := st.setTh (wrX t ld d.toNat v), later := false, vals := vals }
      let xmov : Instr := if ld then .xmov w e d a l m else .xmovSt w e d a l m
      let xadd : Instr := if ld then .xadd w e d a l b n else .xaddSt w e d a l b n
      let xaddi : Instr := if ld then .xaddi w e d a l i else .xaddiSt w e d a l i
      let xshl : Instr := if ld then .xshl w e d a l i else .xshlSt w e d a l i
      (IssueGo s eng c xmov → m = 1#1 →
        Issues xmov eng c s (res s.th (BitVec.ofNat 64 ((vget (s.th.lc eng.sq) a.toNat 0#32).toNat % 65536)) [])) ∧
      (rdX st s.th ld a.toNat 0 = .ok x →
        (IssueGo s eng c xmov → m = 0#1 → Issues xmov eng c s (res (freeX s.th ld l a.toNat) x [x.toNat])) ∧
        (IssueGo s eng c xadd → rdX st s.th ld b.toNat 1 = .ok y →
          Issues xadd eng c s (res (freeX (freeX s.th ld l a.toNat) ld n b.toNat) (x + y) [x.toNat, y.toNat])) ∧
        (IssueGo s eng c xaddi →
          Issues xaddi eng c s (res (freeX s.th ld l a.toNat) (x + immW c.unit.pfx 10 i.toNat) [x.toNat])) ∧
        (IssueGo s eng c xshl → immU c.unit.pfx 10 i.toNat ≤ 63 →
          Issues xshl eng c s (res (freeX s.th ld l a.toNat) (x <<< immU c.unit.pfx 10 i.toNat) [x.toNat]))) ∧
      (IssueGo s .load c (.lnop w e) → Issues (.lnop w e) .load c s { s := st, later := false }) ∧
      (IssueGo s .store c (.snop w e) → Issues (.snop w e) .store c s { s := st, later := false }) ∧
      (IssueGo s .matrix c (.mnop w e) → Issues (.mnop w e) .matrix c s { s := st }) ∧
      (IssueGo s .vector c (.vnop w e) → Issues (.vnop w e) .vector c s { s := st }) ∧
      (IssueGo s .special c (.sfnop w e) → Issues (.sfnop w e) .special c s { s := st })) ∧
  (
    ∀ (s : State) (c : Cur) (n : BitVec 6) (k : BitVec 2) (i : BitVec 11) (j : Instr) (eng : Eng),
      ((j = .lloop n k i ∧ eng = .load) ∨ (j = .sloop n k i ∧ eng = .store) ∨ (j = .mloop n k i ∧ eng = .matrix) ∨
        (j = .vloop n k i ∧ eng = .vector)) →
      IssueGo s eng c j →
      let l := s.th.loop eng.sq
      let opened := if l.isOpen then l.opened else []
      n ≠ 0#6 → immU c.unit.pfx 11 i.toNat ≤ 65535 → opened.length < 4 → (∀ r ∈ opened, r.lc ≠ k.toNat) →
      (∀ r ∈ opened, n.toNat + (l.pos + 1) ≤ r.first + r.len) →
      Issues j eng c s {
        s := (s.issuing c).setTh (s.th.setLc eng.sq k.toNat (mkLc (immU c.unit.pfx 11 i.toNat) 0)), later := false,
        loop := some ⟨0, n.toNat, k.toNat, immU c.unit.pfx 11 i.toNat⟩ })

/-- R323, R326, R332, R333: the words that load a block, a scale tile or a bound word, when their checks pass and the data can be read:
the scratchpad or the register takes the data, and the index register steps.
The model's own choices and readings that it rests on: log 32, 105. -/
def Obligations.BlockLoadWords : Prop :=
  ∀ (s : State) (c : Cur) (w e : BitVec 2) (h : BitVec 4) (x : BitVec 3) (y : BitVec 1) (q : BitVec 4) (t z m : BitVec 3) (n i : BitVec 1)
    (v so : W) (pa : Nat) (s1 : State) (b : List Byte),
    let st := s.issuing c
    let step (s2 : State) : State := s2.setTh (postInc (freeX s2.th true y x.toNat) true i x v.toNat (blockBytes z))
    rdX st s.th true x.toNat 0 = .ok v →
    (checkMem s.th h.toNat v.toNat (blockBytes z) rightRD 64 = .ok pa →
      (IssueGo s .load c (.ld w e h x y q 0#1 z i) → checkQ s.th q.toNat 1 = .ok (vget s.th.q q.toNat QHead.unbound) →
        st.loadData pa (blockBytes z) (s.th.swmOf h.toNat) = .ok (s1, b) → s1.th.doneOf c.unit = 0 →
        let vals := toElems (vget s.th.q q.toNat QHead.unbound).esz (blockBytes z / (vget s.th.q q.toNat QHead.unbound).ebytes) b
        vals.length ≤ (vget s1.th.q q.toNat QHead.unbound).space →
        Issues (.ld w e h x y q 0#1 z i) .load c s
          { s := step (s1.setTh ((s1.th.sendQ q.toNat vals c.unit.seq).setDone c.unit 0)), vals := [v.toNat], performed := true,
            lines := blockBytes z / 64 }) ∧
      (IssueGo s .load c (.ld w e h x y q 1#1 z i) → rdX st s.th true q.toNat 1 = .ok so → checkSpad so.toNat (blockBytes z) 64 = .ok ⟨⟩ →
        s.th.mayFill so.toNat (blockBytes z) = true → st.loadData pa (blockBytes z) (s.th.swmOf h.toNat) = .ok (s1, b) →
        Issues (.ld w e h x y q 1#1 z i) .load c s
          { s := step (s1.spadWrite s1.me so.toNat b), vals := [v.toNat, so.toNat], lines := blockBytes z / 64 }) ∧
      (IssueGo s .load c (.splk w e h x y t z n i) → rdX st s.th true t.toNat 1 = .ok so → checkSpad so.toNat (blockBytes z) 64 = .ok ⟨⟩ →
        let lock (s2 : State) : State := s2.setTh (postInc (freeX { s2.th with
          locks := s2.th.locks ++ (lockBits so.toNat (blockBytes z)).filter fun b => !s2.th.locks.contains b } true y x.toNat) true i x
          v.toNat (blockBytes z))
        (n = 1#1 → Issues (.splk w e h x y t z n i) .load c s { s := lock st, vals := [v.toNat, so.toNat] }) ∧
        (n = 0#1 → st.loadData pa (blockBytes z) (s.th.swmOf h.toNat) = .ok (s1, b) →
          Issues (.splk w e h x y t z n i) .load c s
            { s := lock (s1.spadWrite s1.me so.toNat b), vals := [v.toNat, so.toNat], lines := blockBytes z / 64 }))) ∧
    (IssueGo s .load c (.ldbd w e h x y q) → checkMem s.th h.toNat v.toNat 4 rightRD 4 = .ok pa →
      st.loadData pa 4 (s.th.swmOf h.toNat) = .ok (s1, b) →
      Issues (.ldbd w e h x y q) .load c s
        { s := s1.setTh { (freeX s1.th true y x.toNat) with
            eb := vset (freeX s1.th true y x.toNat).eb q.toNat (boundOfWord (BitVec.ofNat 32 (leNat b))) }, vals := [v.toNat], lines := 1 }) ∧
    (IssueGo s .load c (.ldsc w e h x y t 6#3 m) → rdX st s.th true t.toNat 1 = .ok so →
      ∀ sck fmt hv, ldscKind m.toNat = some (sck, fmt) → checkHandle s.th h.toNat v.toNat = .ok hv → v.toNat % 4096 = 0 →
        so.toNat % 4096 = 0 → hRights hv &&& rightRD = rightRD → v.toNat + 4096 ≤ pageBytes (hPsz hv) →
        checkSpad so.toNat 4096 64 = .ok ⟨⟩ → s.th.mayFill so.toNat 4096 = true →
        st.loadData (hBase hv + v.toNat) 4096 (s.th.swmOf h.toNat) = .ok (s1, b) →
        scaleFail sck fmt b = none →
        Issues (.ldsc w e h x y t 6#3 m) .load c s
          { s := (s1.spadWrite s1.me so.toNat b).setTh (freeX (s1.spadWrite s1.me so.toNat b).th true y x.toNat),
            vals := [v.toNat, so.toNat], lines := 64 })

/-- R321, R324, R327, R328, R329, R330: the words of the queue heads: LMARK delivers one element, LDX a gather, QBIND and QFREE bind and
unbind, LSUB and LUNSUB begin and end a slot-ring subscription.
The model's own choices and readings that it rests on: log 105. -/
def Obligations.QueueHeadWords : Prop :=
  ∀ (s : State) (c : Cur) (w e : BitVec 2) (h q p : BitVec 4) (x k : BitVec 3) (y l : BitVec 1) (z : BitVec 2) (i : BitVec 10) (v : W),
    let st := s.issuing c
    (IssueGo s .load c (.lunsub w e q) → Issues (.lunsub w e q) .load c s { s := st.setTh (s.th.endSub q.toNat), later := false }) ∧
    (IssueGo s .load c (.qfree w e q) →
      let t := (s.th.endSub q.toNat).dropFlights q.toNat
      Issues (.qfree w e q) .load c s { s := st.setTh { t with q := vset t.q q.toNat QHead.unbound }, later := false }) ∧
    (rdX st s.th true x.toNat 0 = .ok v →
      (IssueGo s .load c (.lmark w e q x l i) → checkQ s.th q.toNat 1 = .ok (vget s.th.q q.toNat QHead.unbound) →
        s.th.doneOf c.unit = 0 → 1 ≤ (vget s.th.q q.toNat QHead.unbound).space →
        let el := lowBits (8 * (vget s.th.q q.toNat QHead.unbound).ebytes) (v + immW c.unit.pfx 10 i.toNat)
        let s1 := st.setTh ((s.th.sendQ q.toNat [el] c.unit.seq).setDone c.unit 0)
        Issues (.lmark w e q x l i) .load c s { s := s1.setTh (freeX s1.th true l x.toNat), vals := [v.toNat], performed := true }) ∧
      (IssueGo s .load c (.qbind w e q x l z) → (vget s.th.q q.toNat QHead.unbound).kind = 0 → v.toNat ≠ 0 → v.toNat ≤ 32768 →
        v.toNat * 2 ^ z.toNat ≤ s.th.queueRam →
        let t := freeX s.th true l x.toNat
        Issues (.qbind w e q x l z) .load c s
          { s := st.setTh { t with q := vset t.q q.toNat { kind := 1, esz := z.toNat, depth := v.toNat, elems := [], flight := 0, sub := none } },
            later := false, vals := [v.toNat] }) ∧
      (IssueGo s .load c (.lsub w e h x y q) → ∀ pa b s1 d bad slots ssize,
        checkMem s.th h.toNat v.toNat 64 (rightRD + rightAT) 64 = .ok pa → checkQ s.th q.toNat 1 = .ok b → b.elems = [] → b.flight = 0 →
        st.unitBytes pa 64 = .ok (s1, d, bad) → bad = false →
        s1.ringDesc pa (pageBytes (hPsz (vget s.th.h h.toNat 0#64)) - v.toNat) = some (slots, ssize) →
        (∀ r ∈ s1.allSubs, r.pa ≠ pa) → (s1.allSubs.filter fun r => r.pa / 2 ^ 37 == pa / 2 ^ 37).length < 64 →
        let r := freeX s1.th true y x.toNat
        let cons := s1.homeNat (pa + 8) 8
        Issues (.lsub w e h x y q) .load c s
          { s := s1.setTh { r with q := vset r.q q.toNat { b with kind := 2, sub := some ⟨pa, slots, ssize, cons, 0, cons, 0⟩ } },
            later := false, vals := [v.toNat] }) ∧
      (IssueGo s .load c (.ldx w e h x y q p k) → ∀ b bi r, checkQ s.th q.toNat 1 = .ok b → checkOfsQ s.th p.toNat = .ok bi →
        runElems c.unit (ldxElem h.toNat q.toNat p.toNat v c.unit)
          (fun t => { s := t.setTh (freeX t.th true y x.toNat), vals := [v.toNat], performed := true, lines := 2 ^ k.toNat })
          (2 ^ k.toNat - s.th.doneOf c.unit)
          (s.th.doneOf c.unit) false st = .ok r →
        r.more = none → Issues (.ldx w e h x y q p k) .load c s r))

/-- R325, R334, R339, R340: PFETCH always issues and copies the lines of its range that can be read at once toward the die, XLATL starts
a settle, and the cache range words complete once nothing of their range is on its way. -/
def Obligations.PrefetchTranslateAndCacheWords : Prop :=
  ∀ (s : State) (c : Cur) (w e : BitVec 2) (h : BitVec 4) (x t r z : BitVec 3) (y l m : BitVec 1) (v : W),
    let st := s.issuing c
    (IssueGo s .load c (.pfetch w e h x y z m) →
      let o := match rdX st s.th true x.toNat 0 with
        | .ok v => v.toNat
        | .error _ => (st.free 0).toNat
      let hv := vget s.th.h h.toNat 0#64
      let t := st.setTh (freeX s.th true y x.toNat)
      (hState hv ≠ 2 ∨ pageBytes (hPsz hv) < o + blockBytes z →
        Issues (.pfetch w e h x y z m) .load c s { s := t, later := false, vals := [o] }) ∧
      (hState hv = 2 → o + blockBytes z ≤ pageBytes (hPsz hv) →
        let take (one : State → Nat → M State) : State := (linesOf (hBase hv + o) (blockBytes z)).foldl (fun a l =>
          match one a l with
          | .ok a1 => a1
          | .error _ => a) t
        (m = 0#1 → Issues (.pfetch w e h x y z m) .load c s
          { s := take fun a l => (a.loadLine a.me l (s.th.swmOf h.toNat)).map fun r => r.1, later := false, vals := [o] }) ∧
        (m = 1#1 → Issues (.pfetch w e h x y z m) .load c s
          { s := take fun a l => (a.llcRead (thrDie a.me) l (s.th.swmOf h.toNat)).map fun r => r.1, later := false, vals := [o] }))) ∧
    (IssueGo s .load c (.xlatl w e h x l t r) → r ≠ 0#3 → rdX st s.th true x.toNat 0 = .ok v →
      Issues (.xlatl w e h x l t r) .load c s
        { s := (st.setTh (freeX s.th true l x.toNat)).startSettle s.me c.unit.seq h.toNat true t.toNat v.toNat r.toNat, later := false,
          vals := [v.toNat] }) ∧
    (∀ lines o, rangeOperand h x y z st = .ok (lines, o) →
      let fin (s1 : State) : EngRes := { s := s1.modThread s1.me fun t => freeX t false y x.toNat, vals := [o] }
      (IssueGo s .store c (.cwbr w e h x y z) →
        (s.th.swmOf h.toNat = false → Issues (.cwbr w e h x y z) .store c s (fin st)) ∧
        (s.th.swmOf h.toNat = true →
          let s1 := (st.modTask s.th.task fun t => { t with
            lines := t.lines.map fun v => if v.mark = t.openMark ∧ lines.contains v.line then { v with wb := true } else v }).writeBack
            (thrDie s.me) s.th.task lines
          (s1.die (thrDie s.me)).onWay lines = false → Issues (.cwbr w e h x y z) .store c s (fin s1))) ∧
      (IssueGo s .store c (.cinvr w e h x y z) →
        let s1 := st.writeBack (thrDie s.me) s.th.task lines
        (s1.die (thrDie s.me)).onWay lines = false →
          Issues (.cinvr w e h x y z) .store c s (fin (s1.dropRange (thrDie s.me) lines))))

/-- R322, R323, R324, R326, R333: the words that store a block, a scatter or a bound word, when their checks pass and the version has
room: the bytes enter the version.
The model's own choices and readings that it rests on: log 32. -/
def Obligations.BlockStoreWords : Prop :=
  ∀ (s : State) (c : Cur) (w e : BitVec 2) (h q p : BitVec 4) (x t z k : BitVec 3) (y i : BitVec 1) (v so : W) (pa : Nat),
    let st := s.issuing c
    let step (s2 : State) : State := s2.setTh (postInc (freeX s2.th false y x.toNat) false i x v.toNat (blockBytes z))
    rdX st s.th false x.toNat 0 = .ok v →
    (checkMem s.th h.toNat v.toNat (blockBytes z) rightWR 64 = .ok pa → rdX st s.th false t.toNat 1 = .ok so →
      checkSpad so.toNat (blockBytes z) 64 = .ok ⟨⟩ →
      (∀ s1 b, st.versionRoom s.me (linesOf pa (blockBytes z)) = .ok ⟨⟩ → st.spadRead s.me so.toNat (blockBytes z) = .ok (s1, b) →
        (IssueGo s .store c (.st w e h x y t z i) →
          Issues (.st w e h x y t z i) .store c s
            { s := step (s1.versionWrite s1.me (s1.th.swmOf h.toNat) pa b), vals := [v.toNat, so.toNat], lines := blockBytes z / 64 }) ∧
        (IssueGo s .store c (.sunlk w e h x y t z 0#1 i) →
          Issues (.sunlk w e h x y t z 0#1 i) .store c s
            { s := step (s1.versionWrite s1.me (s1.th.swmOf h.toNat) pa b), vals := [v.toNat, so.toNat],
              locks := lockBits so.toNat (blockBytes z), lines := blockBytes z / 64 })) ∧
      (IssueGo s .store c (.sunlk w e h x y t z 1#1 i) →
        Issues (.sunlk w e h x y t z 1#1 i) .store c s
          { s := step st, vals := [v.toNat, so.toNat], locks := lockBits so.toNat (blockBytes z) })) ∧
    (IssueGo s .store c (.stbd w e h x y q) → checkMem s.th h.toNat v.toNat 4 rightWR 4 = .ok pa →
      st.versionRoom s.me (linesOf pa 4) = .ok ⟨⟩ →
      let s1 := st.versionWrite s.me (s.th.swmOf h.toNat) pa (leBytes 4 (vget s.th.eb q.toNat 0#32).toNat)
      Issues (.stbd w e h x y q) .store c s
        { s := s1.setTh (freeX s1.th false y x.toNat), vals := [v.toNat, (vget s.th.eb q.toNat 0#32).toNat], lines := 1 }) ∧
    (IssueGo s .store c (.stx w e h x y q p k) → ∀ b bi r, checkQ s.th q.toNat 1 = .ok b → checkQ s.th p.toNat 1 = .ok bi →
      (bi.esz = 2 ∨ bi.esz = 3) → 2 ^ k.toNat ≤ bi.depth → s.th.doneOf c.unit = 0 →
      (if q = p then 2 * 2 ^ k.toNat else 2 ^ k.toNat) ≤ bi.elems.length →
      hState (vget s.th.h h.toNat 0#64) ≠ 1 →
      st.versionRoom s.me (stxLines s.th h.toNat b.ebytes v (stxOffs (q == p) (2 ^ k.toNat) bi.elems)) = .ok ⟨⟩ →
      runElems c.unit (stxElem h.toNat q.toNat p.toNat v)
        (fun t => { s := t.setTh (freeX t.th false y x.toNat), vals := [v.toNat], lines := 2 ^ k.toNat }) (2 ^ k.toNat) 0 false st = .ok r →
      r.more = none → Issues (.stx w e h x y q p k) .store c s r)

/-- R113, R322, R331, R338, R341, R342: SMARK after the drain of its path, SPULL's staging, XCOPY's submission and BARADD's addition, the
last two once.
The model's own choices and readings that it rests on: log 44. -/
def Obligations.StagingCopyAndDrainWords : Prop :=
  ∀ (s : State) (c : Cur) (w e : BitVec 2) (h b : BitVec 4) (x d t k : BitVec 3) (g : BitVec 2) (y l : BitVec 1) (i : BitVec 10)
    (v so len bo : W) (pa bar : Nat) (s1 s2 : State),
    let st := s.issuing c
    rdX st s.th false x.toNat 0 = .ok v →
    (IssueGo s .store c (.smark w e d x l i) → (∀ f ∈ s.th.flights, f.eng ≠ .store) →
      Issues (.smark w e d x l i) .store c s
        { s := st.setTh (wrX (freeX s.th false l x.toNat) false d.toNat (v + immW c.unit.pfx 10 i.toNat)), later := false,
          vals := [v.toNat] }) ∧
    (IssueGo s .store c (.spull w e h x y g b k) → rdX st s.th false (2 * g.toNat) 1 = .ok so →
      rdX st s.th false (2 * g.toNat + 1) 2 = .ok len → rdX st s.th false k.toNat 3 = .ok bo →
      checkMem s.th h.toNat v.toNat 64 (rightWR + rightAT) 64 = .ok pa → ∀ d0 slots ssize b0, st.unitBytes pa 64 = .ok (s1, d0, false) →
      s1.ringDesc pa (pageBytes (hPsz (vget s.th.h h.toNat 0#64)) - v.toNat) = some (slots, ssize) →
      checkMem s.th b.toNat bo.toNat 16 rightAT 16 = .ok bar → len.toNat % 64 = 0 → len ≠ 0#64 → len.toNat ≤ ssize * 64 →
      checkSpad so.toNat len.toNat 64 = .ok ⟨⟩ → s1.stagedBytes (pa / 2 ^ 37) + len.toNat ≤ 2 ^ 20 →
      s1.spadRead s1.me so.toNat len.toNat = .ok (s2, b0) →
      let s3 := s2.modTask s2.th.task fun t => { t with
        staged := t.staged ++ [Staged.mk pa bar len.toNat b0 t.openMark false false slots ssize s.th.gangPos] }
      Issues (.spull w e h x y g b k) .store c s
        { s := s3.setTh (freeX s3.th false y x.toNat), vals := [v.toNat, so.toNat, len.toNat, bo.toNat] }) ∧
    (IssueGo s .store c (.baradd w e h x y k) → rdX st s.th false k.toNat 1 = .ok so →
      checkMem s.th h.toNat v.toNat 16 rightAT 16 = .ok pa → so.getLsbD 63 = false → st.onceAt s.me 1 pa [so.toNat] = .ok .fresh →
      st.atPeer (pa / 64) = false → ∀ x0, st.atomicRead pa 16 = .ok (s1, x0) →
      Issues (.baradd w e h x y k) .store c s
        (let s3 := s1.barAddAt pa so.toNat
         let s4 := s3.onceLog s3.me 1 pa [so.toNat] 0
         { s := s4.modThread s4.me fun t => freeX t false y x.toNat, vals := [v.toNat, so.toNat], performed := true, lines := 1 })) ∧
    (IssueGo s .store c (.xcopy w e h x y t) → rdX st s.th false t.toNat 1 = .ok so → checkSpad so.toNat 32 32 = .ok ⟨⟩ →
      checkMem s.th h.toNat v.toNat 16 rightAT 16 = .ok bar → ∀ b0 src dst, st.spadRead s.me so.toNat 32 = .ok (s1, b0) →
      let f (n : Nat) : Nat := leNat ((b0.drop n).take 8)
      let dw := leNat (b0.drop 24)
      bits dw 53 0 = 0 → bits dw 55 54 ≠ 3 → f 16 ≠ 0 → checkMem s.th (bits dw 63 60) (leNat (b0.take 8)) (f 16) rightRD 1 = .ok src →
      checkMem s.th (bits dw 59 56) (f 8) (f 16) rightWR 1 = .ok dst →
      let io := if bits dw 55 54 = 0 then s1.autoIod dst else bits dw 55 54 - 1
      (s1.copies.filter fun c => c.iod == io).length < 1024 → s1.onceAt s1.me 2 bar [bits dw 55 54, src, dst, f 16] = .ok .fresh →
      Issues (.xcopy w e h x y t) .store c s
        (let s3 := ({ s1 with copies := s1.copies ++ [Copy.mk io src dst (f 16) (List.range ((f 16 + 255) / 256)) bar s.th.tenant s.th.task s.th.gangPos false] } : State).modTask
           s.th.task fun t => { t with asyncOut := t.asyncOut + 1 }
         let s4 := s3.onceLog s3.me 2 bar [bits dw 55 54, src, dst, f 16] 0
         { s := s4.modThread s4.me fun t => freeX t false y x.toNat, vals := [v.toNat, so.toNat], performed := true }))

/-- R105, R113, R335, R336, R337: an atomic completes when its checks pass, its order allows it and home answers: the location takes the
new value in one step, and with RV = 1 the old value is sent to the queue head; .REL and .AR release first, .ACQ and .AR acquire after.
At a location of this module the step is made here, and the core's copies of the line follow; at a peer's (R455) the peer has made it, and the
word completes with its answer.
The model's own choices and readings that it rests on: log 22, 42, 43. -/
def Obligations.AtomicWords : Prop :=
  ∀ (s : State) (c : Cur) (sem w e : BitVec 2) (h : BitVec 4) (x : BitVec 3) (y : BitVec 1) (v : BitVec 3) (u : BitVec 2) (q : BitVec 4)
    (r : BitVec 1) (k : BitVec 3) (o a n : W) (pa : Nat) (s0 s1 : State) (old : Nat) (put : W → State),
    let st := s.issuing c
    rdX st s.th false x.toNat 0 = .ok o → checkMem s.th h.toNat o.toNat 8 rightAT 8 = .ok pa →
    (r = 1#1 → checkQ s.th q.toNat 1 = .ok (vget s.th.q q.toNat QHead.unbound) ∧ (vget s.th.q q.toNat QHead.unbound).esz = 3 ∧
      (vget s.th.q q.toNat QHead.unbound).space ≠ 0) →
    (sem = 0#2 ∨ s.th.orderedReady c.unit.seq = true) →
    ((sem = 0#2 ∨ sem = 1#2) ∧ s0 = st ∨ (sem = 2#2 ∨ sem = 3#2) ∧ st.releaseGo .store k.toNat = .done s0) →
    (s0.atPeer (pa / 64) = false ∧ s0.atomicRead pa 8 = .ok (s1, old) ∧
        put = (fun nv => (s1.atomicWrite pa (leBytes 8 nv.toNat)).renewLine s0.me (pa / 64)) ∨
      s0.atPeer (pa / 64) = true ∧ s0.peerOld s0.me c.unit.seq pa = some (s1, old) ∧
        put = fun nv => s1.patchLine s0.me pa (leBytes 8 nv.toNat)) →
    let done (i : Instr) (ops : List Nat) (nv : W) (fl : Fl) : Prop :=
      IssueGo s .store c i → s0.onceAt s0.me 0 pa ops = .ok .fresh →
        Issues i .store c s
          (let s2 := put nv
           let s3 := s2.modThread s2.me fun t => { t with flags := orFlags t.flags fl }
           let s4 := s3.onceLog s3.me 0 pa ops old
           let s5 := s4.modThread s4.me fun t =>
             if r = 1#1 then (freeX t false y x.toNat).sendQ q.toNat [BitVec.ofNat 64 old] c.unit.seq else freeX t false y x.toNat
           { s := if sem = 1#2 ∨ sem = 3#2 then s5.acquire s5.me k.toNat else s5, vals := o.toNat :: ops, performed := true,
             res := [(BitVec.ofNat 64 old).toNat], lines := 1 })
    let ov : W := BitVec.ofNat 64 old
    old < 2 ^ 64 →
    (rdX st s.th false (2 * u.toNat) 1 = .ok a → rdX st s.th false (2 * u.toNat + 1) 2 = .ok n →
      done (.acas sem w e h x y u q r k) [9, a.toNat, n.toNat] (if ov = a then n else ov) 0#7) ∧
    (rdX st s.th false v.toNat 1 = .ok a →
      done (.amoAdd sem w e h x y v q r k) [0, a.toNat] (ov + a) 0#7 ∧
      done (.amoFadd sem w e h x y v q r k) [1, a.toNat]
        ((faddLane (ov.extractLsb' 32 32) (a.extractLsb' 32 32)).1 ++ (faddLane (ov.extractLsb' 0 32) (a.extractLsb' 0 32)).1)
        ((faddLane (ov.extractLsb' 0 32) (a.extractLsb' 0 32)).2 ||| (faddLane (ov.extractLsb' 32 32) (a.extractLsb' 32 32)).2) ∧
      done (.amoMin sem w e h x y v q r k) [2, a.toNat] (if ov.toInt ≤ a.toInt then ov else a) 0#7 ∧
      done (.amoMax sem w e h x y v q r k) [3, a.toNat] (if ov.toInt ≤ a.toInt then a else ov) 0#7 ∧
      done (.amoAnd sem w e h x y v q r k) [4, a.toNat] (ov &&& a) 0#7 ∧
      done (.amoOr sem w e h x y v q r k) [5, a.toNat] (ov ||| a) 0#7 ∧
      done (.amoXor sem w e h x y v q r k) [6, a.toNat] (ov ^^^ a) 0#7 ∧
      done (.amoSwap sem w e h x y v q r k) [7, a.toNat] a 0#7)

/-- R344, R345: LEASE of a core that holds the lease issues, and every word that needs the array issues under a held lease; UNLEASE
clears the claim and lets the lease pass.
R347 to R350: MTSTART opens a tile in a free slot or one of the own task, MZERO clears an open tile of the own task, MXMODE changes
its mode, MSETT sets THRESH, MRDB reads the accumulator's bound register.
The model's own choices and readings that it rests on: log 34, 120. -/
def Obligations.LeaseAndTileWords : Prop :=
  (
    ∀ (s : State) (c : Cur) (w e : BitVec 2),
      let st := s.issuing c
      (IssueGo s .matrix c (.lease w e) →
        (s.th.claim = true → s.th.doneOf c.unit = 0 → Issues (.lease w e) .matrix c s { s := st }) ∧
        (s.th.claim = false ∨ s.th.doneOf c.unit ≠ 0 →
          let s1 := (st.setTh { s.th with claim := true }).leaseWait (thrCluster s.me) (thrCore s.me % 4)
          s1.holdsLease s.me = true → Issues (.lease w e) .matrix c s { s := s1.setTh (s1.th.setDone c.unit 0) })) ∧
      (IssueGo s .matrix c (.unlease w e) →
        (s.th.claim = false → Issues (.unlease w e) .matrix c s { s := st }) ∧
        (s.th.claim = true →
          let s1 := (st.setTh { s.th with claim := false }).modCluster (thrCluster s.me) fun x =>
            { x with waitq := x.waitq &&& ~~~(1#4 <<< (thrCore s.me % 4)) }
          Issues (.unlease w e) .matrix c s { s := s1.leaseRotate (thrCluster s.me) }))) ∧
  (
    ∀ (s : State) (c : Cur) (w e : BitVec 2) (d a : BitVec 3) (l m : BitVec 1) (v : W),
      let st := s.issuing c
      let x := (s.cluster (thrCluster s.me)).slotAt d.toNat
      (rdS st s.th a.toNat 0 = .ok v → badThreshold (v.setWidth 32) = false →
        (x.st = 0 ∨ x.st = 1 ∧ x.task = s.th.task →
          st.mtstartHeld s.me = false →
          ArrayRuns (.mtstart w e d a l) c s
            { s := mtstartOpen d a l (thrCluster s.me) (v.setWidth 32) (st.setTh { s.th with mtHold := none }), vals := [v.toNat] }) ∧
        ArrayRuns (.msett w e d a l) c s
          (let s1 := st.modCluster (thrCluster s.me) fun c => { c with
             ab := vset c.ab d.toNat ((vget c.ab d.toNat 0#64 &&& 0xFFFFFFFF#64) ||| BitVec.ofNat 64 (v.toNat % 2 ^ 31 * 2 ^ 32)) }
           { s := s1.setTh (freeS s1.th l a.toNat), vals := [v.toNat] })) ∧
      (x.st = 1 → x.task = s.th.task →
        ArrayRuns (.mzero w e d) c s { s := st.modCluster (thrCluster s.me) fun c => c.zeroTile d.toNat } ∧
        (st.replayNext s.me = .ok none →
          let mode (s1 : State) (b : Bool) : EngRes :=
            { s := (s1.replayOver s.me).modCluster (thrCluster s.me) fun c => c.setMode d.toNat b }
          (m = 1#1 → x.ext = true ∨ (s.cluster (thrCluster s.me)).partnerFree d.toNat = true →
            ArrayRuns (.mxmode w e d m) c s (mode st true)) ∧
          (m = 0#1 → x.ext = false → ArrayRuns (.mxmode w e d m) c s (mode st false)) ∧
          (m = 0#1 → x.ext = true → ∀ s1, st.accRead s.me d.toNat = .ok (s1, false) →
            ArrayRuns (.mxmode w e d m) c s (mode s1 false)))) ∧
      ArrayRuns (.mrdb w e d a) c s
        { s := st.setTh (wrS s.th d.toNat (vget (s.cluster (thrCluster s.me)).ab a.toNat 0#64)),
          vals := [(vget (s.cluster (thrCluster s.me)).ab a.toNat 0#64).toNat] })

/-- R351 to R353: an MMA on an open tile of its task, whose operands, slots and scale entries pass the checks, and whose registers no
unfinished word has still to write (R440), runs its steps on the tile.
The model's own choices and readings that it rests on: log 36, 39, 40. -/
def Obligations.MatrixMultiplyWords : Prop :=
  ∀ (s : State) (c : Cur) (w e : BitVec 2) (acc : BitVec 3) (g : BitVec 4) (b : BitVec 9) (f k : BitVec 1) (a a2 : W) (s1 s2 s3 : State),
    let st := s.issuing c
    let x := (s.cluster (thrCluster s.me)).slotAt acc.toNat
    let fi := s.th.mmaIndex (f == 1#1)
    let fe := FtE.of (vget s.th.ft fi 0#32)
    let p : MmaArgs := ⟨acc.toNat, b.toNat, k == 1#1, a, a2, s.th.vc.toNat, vget s.th.ft fi 0#32, fi, vget s.th.eb g.toNat bInf⟩
    x.st = 1 → x.task = s.th.task → fe.pairing = true → rdA st s.th g.toNat 0 = .ok a →
    (if fe.sck = 0 then a2 = 0#64 else rdA st s.th ((g.toNat + 1) % 16) 1 = .ok a2) →
    holdFor s.th (if k = 1#1 then [g.toNat] else []) = .ok ⟨⟩ →
    checkOperands s.th p (fe.sck != 0) = .ok ⟨⟩ →
    st.checkSlots s.me acc.toNat fe (x.whole && !s.th.lostC)
      ((List.range fe.w).map (fun j => (b.toNat + j, false)) ++ if fe.sck = 0 then [] else [(b.toNat + fe.w, true)]) = .ok (s1, none) →
    s1.replayNext s.me = .ok none →
    s1.spadCheck s.me ((p.guard (thrCore s.me)).map fun r => (r.2.1, r.2.2 + 1 - r.2.1)) = .ok s2 →
    checkAScale fe x.kofs p.vc (s2.mmaData s.me p).sa = .ok ⟨⟩ →
    (fe.acc = true → x.ext = true ∨ (s.cluster (thrCluster s.me)).partnerFree acc.toNat = true) →
    s2.accRead s.me acc.toNat = .ok (s3, false) →
    ArrayRuns (.mma w e acc g b f k) c s
      { s := (s3.replayOver s.me).mmaApply s.me p, vals := p.vals, reads := (p.guard (thrCore s.me)).map fun r => r.2 }

/-- R355 to R357: a drain whose tests pass writes the tile to its region and closes it; the bound test lets it go on when the bound does
not pass the threshold.
R357: the bound test at a drain: a bound that is not above the threshold lets it go on unflagged; above it FLAG goes on with BND,
TRAP traps, and AUTO re-issues a whole tile in standard mode whose partner slot is free, and traps otherwise.
The model's own choices and readings that it rests on: log 35, 36, 115. -/
def Obligations.DrainWords : Prop :=
  (
    ∀ (s : State) (c : Cur) (w e : BitVec 2) (acc : BitVec 3) (ad ar : BitVec 4) (r d sb : BitVec 1) (p0 p1 p2 : W) (rd : VReg)
      (rr : Option VReg) (s1 s2 : State) (bnd : Bool),
      let st := s.issuing c
      let cl := s.cluster (thrCluster s.me)
      let x := cl.slotAt acc.toNat
      let p := DrainP.of d r p0 p1 p2 s.th.dropSeed (FtE.of (vget s.th.ft x.lastft 0#32))
      x.st = 1 → x.task = s.th.task → rdS st s.th (sb.toNat * 4) 0 = .ok p0 → rdS st s.th (sb.toNat * 4 + 1) 1 = .ok p1 →
      rdS st s.th (sb.toNat * 4 + 2) 2 = .ok p2 → bits p2.toNat 26 21 = 0 → (p.res = true → p.rfmt ≤ 5 ∨ p.rfmt = 7) →
      drainRegion st s.th ad.toNat p.ofmt 4 = .ok rd →
      (if p.res then (∃ v, drainRegion st s.th ar.toNat p.rfmt 5 = .ok v ∧ rr = some v) ∧ holdFor s.th [ar.toNat] = .ok ⟨⟩ else rr = none) →
      (bit p2.toNat 27 = true → checkSpad (bits p2.toNat 20 0) 4 4 = .ok ⟨⟩) → st.replayNext s.me = .ok none →
      st.accRead s.me acc.toNat = .ok (s1, false) → cl.chkMismatch acc.toNat = none →
      boundTest s.th.boundCtl x (cl.partnerFree acc.toNat) (vget cl.ab acc.toNat 0#64) = .goOn bnd →
      let sw := bit p2.toNat 27
      let side := bits p2.toNat 20 0
      drainOut ((s1.replayOver s.me).setTh ((s1.replayOver s.me).th.setDone c.unit 0)) s.me acc.toNat p rd rr sw side bnd = .ok s2 →
      ArrayRuns (.mdrain w e acc ad ar r d sb) c s
        { s := s2, vals := drainVals p0 p1 p2 rd rr, reads := rd.bytes ++ sideBytes sw side ++ (rr.map VReg.bytes).getD [],
          writes := hullBytes rd.offs rd.p.e ++ sideBytes sw side }) ∧
  (
    ∀ (ctl : W32) (x : AccSlot) (free : Bool) (ab : W),
      let thr := f32 (BitVec.ofNat 32 (ab.toNat / 2 ^ 32))
      let bnd := f32 (BitVec.ofNat 32 ab.toNat)
      (bnd.cmp thr ≠ .gt → boundTest ctl x free ab = .goOn false) ∧
      (bnd.cmp thr = .gt →
        (ctl.toNat % 4 = 0 → boundTest ctl x free ab = .goOn true) ∧
        (ctl.toNat % 4 = 2 → boundTest ctl x free ab = .trap 0) ∧
        (ctl.toNat % 4 = 1 →
          (x.ext = true → boundTest ctl x free ab = if bit ctl.toNat 2 then .trap 2 else .goOn true) ∧
          (x.ext = false → x.whole = false → boundTest ctl x free ab = .trap 1) ∧
          (x.ext = false → x.whole = true → free = false → boundTest ctl x free ab = .trap 3) ∧
          (x.ext = false → x.whole = true → free = true → boundTest ctl x free ab = .reissue))))

/-- R361 to R365: MFTE writes an entry of the format table, MFTB sets the base, BOARD arms a legal subscription over free slots, BQUERY
and a BWAIT that is over read the status, BDROP ends the subscription of its thread.
The model's own choices and readings that it rests on: log 117. -/
def Obligations.FormatAndBoardingWords : Prop :=
  ∀ (s : State) (c : Cur) (w e : BitVec 2) (d : BitVec 4) (a : BitVec 3) (l : BitVec 1) (k : BitVec 2) (b : BitVec 9) (v : W),
    let st := s.issuing c
    let cl := s.cluster (thrCluster s.me)
    let x := s.boardStat (thrCluster s.me) s.th.tenant b.toNat
    (rdS st s.th a.toNat 0 = .ok v →
      (IssueGo s .matrix c (.mfte w e d a l) → ftLegal (v.toNat % 2 ^ 32) = true →
        Issues (.mfte w e d a l) .matrix c s { s := st.setTh (freeS { s.th with
          ft := vset s.th.ft d.toNat (BitVec.ofNat 32 (v.toNat % 2 ^ 32 / 4096 * 4096)) } l a.toNat), vals := [v.toNat] }) ∧
      (IssueGo s .matrix c (.board w e a b) →
        let y := BSub.of v b.toNat s.th.task s.th.gangPos
        y.legal v = true → (∀ j ∈ y.slots, (cl.bslot j.2.1).st = 0) → cl.subs.length < 64 →
        Issues (.board w e a b) .matrix c s { s := st.armSub (thrCluster s.me) s.th.tenant y, vals := [v.toNat] })) ∧
    (IssueGo s .matrix c (.mftb w e k d) →
      Issues (.mftb w e k d) .matrix c s { s := st.setTh { s.th with fmtBase := BitVec.ofNat 32 (k.toNat * 16 + d.toNat) } }) ∧
    (IssueGo s .matrix c (.bquery w e a b) →
      Issues (.bquery w e a b) .matrix c s { s := st.setTh (wrS s.th a.toNat x.word) }) ∧
    (IssueGo s .matrix c (.bwait w e a b) → x.valid = false ∨ x.full + x.pois = x.nt ∨ x.absent = true →
      Issues (.bwait w e a b) .matrix c s { s := st.setTh (wrS s.th a.toNat x.word) }) ∧
    (IssueGo s .matrix c (.bdrop w e b) →
      (cl.subs.find? (fun y => y.slot == b.toNat) = none → Issues (.bdrop w e b) .matrix c s { s := st }) ∧
      (∀ y, cl.subs.find? (fun y => y.slot == b.toNat) = some y → y.task = s.th.task → y.pos = s.th.gangPos →
        let slots := y.slots.map fun j => j.2.1
        Issues (.bdrop w e b) .matrix c s { s := st.modCluster (thrCluster s.me) fun c => { c.slotsLeft slots with
          subs := c.subs.filter fun z => z.slot != y.slot
          bst := c.bst.filter fun j => !slots.contains j.1 } }))

/-- R35, R386, R387: the set-up words: VSETC sets vc, ASET and AMOD set a region register and a wrap register, ASTEP and AMOV move a
region, VMOVS moves one element between a region or a queue head and a scalar.
The model's own choices and readings that it rests on: log 20. -/
def Obligations.RegionSetupWords : Prop :=
  ∀ (s : State) (c : Cur) (w e : BitVec 2) (d r : BitVec 4) (a : BitVec 3) (l z q : BitVec 1) (i : BitVec 10) (m y : BitVec 2) (v u : W),
    let st := s.issuing c
    let pair (i : Instr) (n : Int) : Prop :=
      rdA st s.th r.toNat 0 = .ok v → rdM st s.th r.toNat 1 = .ok u →
      0 ≤ ((Rgn.of v).base : Int) + n → ((Rgn.of v).base : Int) + n < 2 ^ 21 →
      let b := (((Rgn.of v).base : Int) + n).toNat
      let t := wrM (wrA (freeA s.th l r.toNat) d.toNat ((v &&& ~~~0x1FFFFF#64) ||| BitVec.ofNat 64 b)) d.toNat u
      Issues i .vector c s
        { s := st.setTh (if d = r then t else { t with eb := vset t.eb d.toNat bInf }), vals := [v.toNat, u.toNat] }
    let sp : Span := { n := 1, e := sizeBytes y, nib := false }
    (IssueGo s .vector c (.vsetc w e i) → immU c.unit.pfx 10 i.toNat ≠ 0 → immU c.unit.pfx 10 i.toNat ≤ 65535 →
      Issues (.vsetc w e i) .vector c s { s := st.setTh { s.th with vc := BitVec.ofNat 16 (immU c.unit.pfx 10 i.toNat) } }) ∧
    (rdS st s.th a.toNat 0 = .ok v →
      (IssueGo s .vector c (.aset w e d a l z) → bits v.toNat 23 21 = 0 →
        Issues (.aset w e d a l z) .vector c s
          (let t := wrA (freeS s.th l a.toNat) d.toNat v
           { s := st.setTh { t with eb := vset t.eb d.toNat (if z = 1#1 then 0#32 else bInf) }, vals := [v.toNat] })) ∧
      (IssueGo s .vector c (.amod w e d a l) → bits v.toNat 47 32 = 0 → bits v.toNat 30 27 = 0 →
        Issues (.amod w e d a l) .vector c s
          { s := st.setTh (wrM (freeS s.th l a.toNat) d.toNat (v &&& 0x87FFFFFF#64)), vals := [v.toNat] })) ∧
    (IssueGo s .vector c (.astep w e d r l i) → pair (.astep w e d r l i) (immS c.unit.pfx 10 i.toNat)) ∧
    (IssueGo s .vector c (.amov w e d r l m) →
      (m = 0#2 → pair (.amov w e d r l m) 0) ∧
      (m ≠ 0#2 → (if m = 1#2 then rdA st s.th r.toNat 0 else rdM st s.th r.toNat 0) = .ok v →
        Issues (.amov w e d r l m) .vector c s { s := st.setTh (wrS (freeA s.th l r.toNat) d.toNat v), vals := [v.toNat] })) ∧
    (IssueGo s .vector c (.vmovs w e d r l q 1#1 y) → rdS st s.th r.toNat 0 = .ok v →
      ∀ x, readReg st s.th d.toNat sp 0#1 1 = .ok x →
      Issues (.vmovs w e d r l q 1#1 y) .vector c s
        (let s1 := st.writeElems sp x.offs [v.toNat]
         let t := freeS s1.th l r.toNat
         { s := s1.setTh { t with eb := vset t.eb d.toNat bInf }, vals := [v.toNat, x.a.toNat], reads := x.bytes,
           writes := hullBytes x.offs sp.e })) ∧
    (IssueGo s .vector c (.vmovs w e d r l 1#1 0#1 y) → checkVQ s.th r.toNat 1 sp.e = .ok ⟨⟩ →
      ∀ s1 b h, st.popQ s.me r.toNat 1 = .ok (s1, b :: h) →
      Issues (.vmovs w e d r l 1#1 0#1 y) .vector c s
        { s := s1.setTh (wrS s1.th d.toNat b), vals := b.toNat :: h.map (·.toNat) }) ∧
    (IssueGo s .vector c (.vmovs w e d r l 0#1 0#1 y) → ∀ x s1 b h, readReg st s.th r.toNat sp 0#1 1 = .ok x →
      st.readElems x.offs sp = .ok (s1, b :: h) →
      Issues (.vmovs w e d r l 0#1 0#1 y) .vector c s
        { s := s1.setTh (wrS (freeA s1.th l r.toNat) d.toNat (BitVec.ofNat 64 b)), vals := [x.a.toNat], reads := x.bytes })

/-- R376, R378, R379: the FP32 words element by element: sum, difference, product, fused product and sum, minimum, maximum, magnitude,
negation, product with a scalar, comparison and selection.
The model's own choices and readings that it rests on: log 36, 37. -/
def Obligations.FloatElementWords : Prop :=
  ∀ (s : State) (c : Cur) (w e : BitVec 2) (d a : BitVec 4) (l : BitVec 1) (b : BitVec 4) (m k p q : BitVec 1) (v : BitVec 2) (t : BitVec 3)
    (x : W),
    let md := s.th.rmode
    let sp := s.th.span 4
    let two (rd : Bool) : VWord := { d := d.toNat, dp := sp, readD := rd, s1 := src1 a q l sp, s2 := .region b.toNat m sp, b := k, u := p }
    let one : VWord := { d := d.toNat, dp := sp, s1 := src1 a q l sp, b := k, u := p }
    VecRuns (.vadd w e d a l b m k p q) .vector c s (two false) (fun i => zip32 (add32 md) i.x1 i.x2) (fun i r _ => sumBound md i r) ∧
    VecRuns (.vsub w e d a l b m k p q) .vector c s (two false) (fun i => zip32 (sub32 md) i.x1 i.x2) (fun i r _ => sumBound md i r) ∧
    VecRuns (.vmul w e d a l b m k p q) .vector c s (two false) (fun i => zip32 (mul32 md) i.x1 i.x2) (fun i r _ => mulBound md i r) ∧
    VecRuns (.vfma w e d a l b m k p q) .vector c s (two true) (fmaElems md) (fun i r _ => fmaBound md i r) ∧
    VecRuns (.vmin w e d a l b m k p q) .vector c s (two false) (fun i => zip32 (minmax32 true) i.x1 i.x2) (fun i r _ => maxBound md i r) ∧
    VecRuns (.vmax w e d a l b m k p q) .vector c s (two false) (fun i => zip32 (minmax32 false) i.x1 i.x2) (fun i r _ => maxBound md i r) ∧
    VecRuns (.vabs w e d a l k p q) .vector c s one (fun i => map32 abs32 i.x1) (fun i r _ => sameBound md i r) ∧
    VecRuns (.vneg w e d a l k p q) .vector c s one (fun i => map32 neg32 i.x1) (fun i r _ => sameBound md i r) ∧
    VecRuns (.vcmp w e d a l b m k p q v) .vector c s (two false) (fun i => zip32 (cmpElem v.toNat) i.x1 i.x2) (fun i _ _ => zeroBound i) ∧
    VecRuns (.vselm w e d a l b m k p q) .vector c s (two true) selElems (fun i r _ => maxBound md i r) ∧
    (rdS (s.issuing c) s.th t.toNat 6 = .ok x →
      VecRuns (.vscl w e d a l t m k p q) .vector c s { one with post := fun y => freeS y m t.toNat, sv := [(x.extractLsb' 0 32).toNat] }
        (fun i => map32 (fun y => mul32 md y (x.extractLsb' 0 32)) i.x1)
        (fun i r _ => unlessNaN r (bAdd (bMul i.e1 (f32 (x.extractLsb' 0 32)).abs) (uOf md r))))

/-- R377: the integer and bitwise words element by element, on elements of four bytes or of one.
R377: what an integer or bitwise word computes on one element of width 32 or 8: two's complement arithmetic that wraps, or saturates
and sets SAT in a .S form; a shift by the width or more gives 0, and for VSAR the sign.
The model's own choices and readings that it rests on: log 36. -/
def Obligations.IntegerElementWords : Prop :=
  (
    ∀ (s : State) (c : Cur) (w e : BitVec 2) (d a : BitVec 4) (l : BitVec 1) (b : BitVec 4) (m k p q : BitVec 1) (v : BitVec 2) (y : BitVec 1),
      let sp (n : Nat) : Span := s.th.span n
      let two (n : Nat) : VWord := { d := d.toNat, dp := sp n, s1 := src1 a q l (sp n), s2 := .region b.toNat m (sp n), b := k, u := p }
      let runs (i : Instr) (op : VInt) (n : Nat) (sat : Bool) : Prop :=
        VecRuns i .vector c s (two n) (fun x => collect (List.zipWith (op.run (8 * n) sat) x.x1 x.x2)) (fun x _ fl => op.bound (8 * n) x fl)
      let nv := if v.getLsbD 1 then 1 else 4
      let ny := if y = 1#1 then 1 else 4
      runs (.viadd w e d a l b m k p q v) .add nv (v.getLsbD 0) ∧
      runs (.visub w e d a l b m k p q v) .sub nv (v.getLsbD 0) ∧
      runs (.vimul w e d a l b m k p q v) .mul nv (v.getLsbD 0) ∧
      runs (.vimin w e d a l b m k p q v) .min nv (v.getLsbD 0) ∧
      runs (.vimax w e d a l b m k p q v) .max nv (v.getLsbD 0) ∧
      runs (.vand w e d a l b m k p q y) .and ny false ∧
      runs (.vor w e d a l b m k p q y) .or ny false ∧
      runs (.vxor w e d a l b m k p q y) .xor ny false ∧
      runs (.vshl w e d a l b m k p q y) .shl ny false ∧
      runs (.vshr w e d a l b m k p q y) .shr ny false ∧
      runs (.vsar w e d a l b m k p q y) .sar ny false) ∧
  (
    ∀ (n x y : Nat) (sat : Bool), (n = 8 ∨ n = 32) → x < 2 ^ n → y < 2 ^ n →
      let wraps (v : Int) : Nat := (v % 2 ^ n).toNat
      let out (v : Int) : Bool := decide (v < -(2 ^ (n - 1)) ∨ 2 ^ (n - 1) ≤ v)
      let arith (op : VInt) (v : Int) : Prop :=
        (sat = false ∨ out v = false → op.run n sat x y = (wraps v, 0#7)) ∧
        (sat = true → v < -(2 ^ (n - 1)) → op.run n sat x y = (2 ^ (n - 1), flSAT)) ∧
        (sat = true → 2 ^ (n - 1) ≤ v → op.run n sat x y = (2 ^ (n - 1) - 1, flSAT))
      let a := sext n x
      let b := sext n y
      arith .add (a + b) ∧ arith .sub (a - b) ∧ arith .mul (a * b) ∧
      VInt.run .min n sat x y = (if a ≤ b then x else y, 0#7) ∧
      VInt.run .max n sat x y = (if a ≤ b then y else x, 0#7) ∧
      VInt.run .and n sat x y = (x &&& y, 0#7) ∧
      VInt.run .or n sat x y = (x ||| y, 0#7) ∧
      VInt.run .xor n sat x y = (x ^^^ y, 0#7) ∧
      VInt.run .shl n sat x y = (if n ≤ y then 0 else x * 2 ^ y % 2 ^ n, 0#7) ∧
      VInt.run .shr n sat x y = (x / 2 ^ y, 0#7) ∧
      VInt.run .sar n sat x y = (wraps (a / 2 ^ (if y ≤ n then y else n)), 0#7))

/-- R253, R380: the reductions: the result of all elements goes to a scalar, or to element 0 of a region.
R256, R257, R381, R382, R384, R385: the conversions with legal parameters, the random numbers and the dropout.
The model's own choices and readings that it rests on: log 36, 38. -/
def Obligations.ReductionConversionAndRandomWords : Prop :=
  (
    ∀ (s : State) (c : Cur) (w e : BitVec 2) (d a : BitVec 4) (l : BitVec 1) (b : BitVec 4) (m k p q v : BitVec 1),
      let md := s.th.rmode
      let sp := span32 s.th.n
      let word (s2 : VSrc) : VWord :=
        { d := d.toNat, dp := span32 1, scalar := v == 0#1, s1 := src1 a q l sp, s2 := s2, b := k, u := p }
      let runs (i : Instr) (s2 : VSrc) (f : VIn → Nat × Fl) (bnd : VIn → W32) : Prop :=
        VecRuns i .vector c s (word s2) (fun x => ([(f x).1], (f x).2)) (fun x r _ => unlessNaN r (bnd x))
      runs (.vrsum w e d a l k p q v) .none (fun x => reduce32 md (sumStep md) (vals32 x.x1))
        (fun x => bAdd (bTimes x.x1.length x.e1) (sumShare md x.x1.length (vals32 x.x1))) ∧
      runs (.vrmax w e d a l k p q v) .none (fun x => reduce32 md (minmaxStep false) (vals32 x.x1)) (fun x => x.e1) ∧
      runs (.vrmin w e d a l k p q v) .none (fun x => reduce32 md (minmaxStep true) (vals32 x.x1)) (fun x => x.e1) ∧
      runs (.vdot w e d a l b m k p q v) (.region b.toNat m sp) (vdotRes md)
        (fun x => bAdd (bTimes x.x1.length (mulTerm x)) (sumShare md x.x1.length (products x).1))) ∧
  (
    ∀ (s : State) (c : Cur) (w e : BitVec 2) (d a : BitVec 4) (l : BitVec 1) (b : BitVec 2) (t : BitVec 3) (m k p q v : BitVec 1) (p0 p1 : W),
      let st := s.issuing c
      (rdS st s.th (2 * b.toNat) 6 = .ok p0 → rdS st s.th (2 * b.toNat + 1) 7 = .ok p1 →
        (∀ (op : VCv) x, op.par p0.toNat p1.toNat (s.th.roundMode.toNat % 8) (q == 1#1) = some x →
          let i : Instr := match op with
            | .cvt => .vcvt w e d a l b m k p q
            | .qnt => .vqnt w e d a l b m k p q
            | .dqnt => .vdqnt w e d a l b m k p q
          VecRuns i .vector c s
            { d := d.toNat, dp := Span.ofFmt s.th.n x.df, s1 := src1 a q l (Span.ofFmt s.th.n x.sf), b := k, u := p,
              post := fun y => freeS y m (2 * b.toNat), sv := [p0.toNat, p1.toNat] }
            (fun i => op.elems x s.th.dropSeed.toNat i.x1) (fun i _ fl => op.bound x i.x1 i.e1 fl)) ∧
        (let sp := s.th.span 4
         let ks := p0.extractLsb' 0 32
         VecRuns (.vdrop w e d a l b m k p q) .vector c s
           { d := d.toNat, dp := sp, s1 := src1 a q l sp, b := k, u := p, post := fun y => freeS y m (2 * b.toNat),
             sv := [p0.toNat, p1.toNat] }
           (fun i => collect (i.x1.zipIdx.map fun x =>
             let r := dropElem s.th.dropSeed.toNat (bits p1.toNat 63 32) (bits p1.toNat 31 0) x.2 (bits p0.toNat 63 32) ks (w32 x.1)
             (r.1.toNat, r.2)))
           (fun i r _ => unlessNaN r (bAdd (bMul i.e1 (f32 ks).abs) (uOf rne r))))) ∧
      (rdS st s.th t.toNat 6 = .ok p0 →
        let draw (i : Nat) : Nat := rand32 s.th.dropSeed.toNat (bits p0.toNat 63 32) (bits p0.toNat 31 0) i
        VecRuns (.vrand w e d t m k p v) .vector c s
          { d := d.toNat, dp := s.th.span 4, s1 := .none, b := k, u := p, post := fun y => freeS y m t.toNat, sv := [p0.toNat] }
          (fun _ => ((List.range s.th.n).map fun i => if v = 1#1 then unitRand (draw i) else draw i, 0#7)) (fun _ _ _ => 0#32)))

/-- R383: the words that move data: a copy, a broadcast of one element, a transposition, a gather and a scatter.
The model's own choices and readings that it rests on: log 37. -/
def Obligations.DataMovementWords : Prop :=
  ∀ (s : State) (c : Cur) (w e : BitVec 2) (d a : BitVec 4) (l : BitVec 1) (b : BitVec 4) (t : BitVec 3) (m k p q : BitVec 1) (v : BitVec 2)
    (da dm sa sm par : W) (s1 s2 : State) (ix x : List Nat) (offs : List Int) (rd r2 : VReg),
    let st := s.issuing c
    let eb := sizeBytes v
    let sp := s.th.span eb
    VecRuns (.vcopy w e d a l k p q v) .vector c s { d := d.toNat, dp := sp, s1 := src1 a q l sp, b := k, u := p }
      (fun i => (i.x1, 0#7)) (fun i r _ => moveBound eb r i.e1) ∧
    VecRuns (.vbcast w e d a l k p v) .vector c s { d := d.toNat, dp := sp, s1 := .region a.toNat l { sp with n := 1 }, b := k, u := p }
      (fun i => (List.replicate s.th.n (i.x1.head?.getD 0), 0#7)) (fun i r _ => moveBound eb r i.e1) ∧
    let hold := holdFor s.th (if k = 1#1 then [a.toNat] else [])
    (IssueGo s .vector c (.vtrn w e d a l t m k p v) → hold = .ok ⟨⟩ → rdS st s.th t.toNat 6 = .ok par →
      let r := bits par.toNat 15 0
      let n := bits par.toNat 31 16
      let one : Span := { n := 1, e := eb, nib := false }
      par.toNat < 2 ^ 32 → r ≠ 0 → n ≠ 0 → r * n = s.th.n → rawReg st s.th d.toNat p 0 = .ok (da, dm) →
      checkOffs (matOffs (Rgn.of da) n r eb).flatten eb = .ok ⟨⟩ → rawReg st s.th a.toNat p 2 = .ok (sa, sm) →
      checkOffs (matOffs (Rgn.of sa) r n eb).flatten eb = .ok ⟨⟩ →
      st.readElems (matOffs (Rgn.of sa) r n eb).flatten one = .ok (s1, x) →
      let dst := (matOffs (Rgn.of da) n r eb).flatten
      let res := (List.range n).flatMap fun j => (List.range r).map fun i => x.getD (i * n + j) 0
      let r0 := moveEnd (s1.writeElems one dst res) d.toNat k p (moveBound eb res (vget s.th.eb a.toNat bInf))
        [(d.toNat, da, dm), (a.toNat, sa, sm)] fun y => freeS (freeA y l a.toNat) m t.toNat
      Issues (.vtrn w e d a l t m k p v) .vector c s
        ({ r0 with vals := r0.vals ++ [par.toNat] }.moved (matOffs (Rgn.of sa) r n eb).flatten dst eb)) ∧
    (IssueGo s .vector c (.vgath w e d a l b m k p v) → hold = .ok ⟨⟩ → readReg st s.th d.toNat sp p 0 = .ok rd →
      rawReg st s.th a.toNat p 2 = .ok (sa, sm) → checkIndexed (Rgn.of sa) eb = .ok ⟨⟩ →
      readReg st s.th b.toNat (s.th.span 4) p 4 = .ok r2 → st.readElems r2.offs r2.p = .ok (s1, ix) →
      indexedOffs (Rgn.of sa) eb ix = .ok offs → s1.readElems offs sp = .ok (s2, x) →
      let r0 := moveEnd (s2.writeElems sp rd.offs x) d.toNat k p (moveBound eb x (vget s.th.eb a.toNat bInf))
        [(d.toNat, rd.a, rd.m), (a.toNat, sa, sm), (b.toNat, r2.a, r2.m)] fun y => freeA (freeA y l a.toNat) m b.toNat
      Issues (.vgath w e d a l b m k p v) .vector c s ({ r0 with reads := r2.bytes }.moved offs rd.offs eb)) ∧
    (IssueGo s .vector c (.vscat w e d a l b m k p q v) →
      let src := src1 a q l sp
      ∀ r1, (q = 1#1 → checkVQ s.th a.toNat s.th.n eb = .ok ⟨⟩) → rawReg st s.th d.toNat p 0 = .ok (da, dm) →
      checkIndexed (Rgn.of da) eb = .ok ⟨⟩ → src.reg st s.th p 2 = .ok r1 →
      holdFor s.th (if k = 1#1 then r1.toList.map (·.r) else []) = .ok ⟨⟩ → readReg st s.th b.toNat (s.th.span 4) p 4 = .ok r2 →
      st.readElems r2.offs r2.p = .ok (s1, ix) → indexedOffs (Rgn.of da) eb ix = .ok offs → src.read s1 r1 = .ok (s2, x) →
      let r0 := moveEnd (s2.writeElems sp offs x) d.toNat k p (moveBound eb x (src.bound s.th))
        ((d.toNat, da, dm) :: ((r1.toList.map fun r => (r.r, r.a, r.m)) ++ [(b.toNat, r2.a, r2.m)])) fun y => freeA (src.free y) m b.toNat
      Issues (.vscat w e d a l b m k p q v) .vector c s
        ({ r0 with vals := r0.vals ++ src.kept x, reads := r2.bytes ++ r1.toList.flatMap VReg.bytes }.moved [] offs eb))

/-- R254, R390: the special-function words and the division, element by element.
The model's own choices and readings that it rests on: log 36, 106. -/
def Obligations.SpecialFunctionWords : Prop :=
  ∀ (s : State) (c : Cur) (w e : BitVec 2) (d a : BitVec 4) (l : BitVec 1) (b : BitVec 4) (m k p q : BitVec 1),
    let md := s.th.rmode
    let sp := s.th.span 4
    let one : VWord := { d := d.toNat, dp := sp, s1 := src1 a q l sp, b := k, u := p }
    let runs (i : Instr) (f : SFn) : Prop :=
      VecRuns i .special c s one (fun x => map32 (fun y => sfn32 f md (f32 y)) x.x1) (fun x r _ => sfnBound f x r)
    runs (.sexp2 w e d a l k p q) .exp2 ∧ runs (.slog2 w e d a l k p q) .log2 ∧ runs (.sexp w e d a l k p q) .exp ∧
    runs (.sln w e d a l k p q) .ln ∧ runs (.srcp w e d a l k p q) .rcp ∧ runs (.ssqrt w e d a l k p q) .sqrt ∧
    runs (.srsq w e d a l k p q) .rsq ∧ runs (.stanh w e d a l k p q) .tanh ∧ runs (.ssigm w e d a l k p q) .sigm ∧
    runs (.ssin w e d a l k p q) .sin ∧ runs (.scos w e d a l k p q) .cos ∧ runs (.serf w e d a l k p q) .erf ∧
    VecRuns (.sdiv w e d a l b m k p q) .special c s
      { one with s2 := .region b.toNat m sp } (fun x => zip32 (fun y z => div32 md (f32 y) (f32 z)) x.x1 x.x2) (fun x r _ => divBound x r)

/-- R28, R70, R71, R427: a settle writes its handle and its status register together, and a miss starts its walk; a walk whose reads
are done and that finds a leaf with the rights asked settles its handle VALID; a task whose requeue time has come is ready again.
The model's own choices and readings that it rests on: log 31, 63. -/
def Obligations.TranslationEvents : Prop :=
  ∀ (s : State) (k n d uid : Nat),
    (∀ x, (s.thread k).settles[n]? = some x → (∀ y ∈ (s.thread k).settles.take n, y.h ≠ x.h) →
      let t0 : Thread := { s.thread k with settles := (s.thread k).settles.eraseIdx n }
      (x.cancelled = true → Leaves (.xlateSettle k n) s (s.setThread k t0)) ∧
      (x.cancelled = false →
        let swm := s.pageSwm k x.va
        let t1 := (t0.onSnap fun m => m.settle x swm).mapSnaps fun f m => if x.load = true ∨ x.seq < f then m.settle x swm else m
        let t2 := if x.load then wrX t1 true x.st (BitVec.ofNat 64 x.status) else t1.lateG x.seq x.dead x.st (BitVec.ofNat 64 x.status)
        (x.hit.isSome = true → Leaves (.xlateSettle k n) s (s.setThread k t2)) ∧
        (x.hit = none → Leaves (.xlateSettle k n) s ((s.setThread k t2).startWalk (thrDie k)
          ⟨k, x.seq, some x.h, hGen (vget t2.h x.h 0#64), x.va, x.rights, (s.setThread k t2).thrCtx k⟩)))) ∧
    (∀ w s0, (s.die d).walks[n]? = some w → s.walkMeet w.ctx w.va = .ok s0 →
      let s1 := s0.setDie d (match (s0.die d).waitWalks with
        | [] => { s0.die d with walks := (s0.die d).walks.eraseIdx n }
        | x :: r => { s0.die d with walks := (s0.die d).walks.eraseIdx n ++ [x], waitWalks := r })
      (w.h = none → Leaves (.walkComplete d n) s s1) ∧
      (∀ h e line, w.h = some h → (s1.thread w.thr).running = true → s1.walk w.ctx w.va = .leaf e line →
        rightsOk e w.rights (s1.thread w.thr).sys w.va = true →
        Leaves (.walkComplete d n) s ((s1.tlbFill (thrCore w.thr) e).modThread w.thr fun t =>
          (t.onSnap fun m => m.walked w h e.frame e.psz e.rights 2 none e.swm).mapSnaps fun _ m =>
            m.walked w h e.frame e.psz e.rights 2 none e.swm))) ∧
    (∀ x u, s.taskOf uid = some x → x.state = 5 → x.requeueAt = some u → u ≤ s.now →
      let s1 := (s.modTask uid fun t => { t with state := 0, requeueAt := none, monitored := false, waitAt := s.now }).refillReady x.die
      Leaves (.monitorRequeueTimeout uid) s s1 ∧ Leaves (.versionOverflowRequeue uid) s s1)

/-- R118, R119, R138, R141, R227, R298: what is on its way arrives: a word finishes, a write-through reaches its home (one that a peer homes is
sent, and stays until the peer acknowledges it, R111), a destination acknowledges a release once nothing is under way to it, an access of the control path performs (a store into the version, a load into its register), an addition reaches
its barrier object, elements land in queue RAM. Nothing of this happens in a core while it is frozen (R99).
The model's own choices and readings that it rests on: log 99, 102, 104, 105. -/
def Obligations.ArrivalEvents : Prop :=
  ∀ (s : State) (k n d : Nat),
    let t := s.thread k
    (∀ f, t.flights[n]? = some f → s.frozen k = false → t.qflights.any (fun x => x.seq == f.seq) = false →
      s.peers.any (fun p => p.thr == k && p.seq == f.seq && p.dest != 0) = false →
      let u : QUnit := { seq := f.seq, pc := 0, next := f.next, pfx := f.pfx, word := f.word, marker := false, snap := f.snap, snapN := f.snap,
                         rep := 0, n := 1, mask := 0, begun := false }
      let s1 := s.setThread k { t with
        flights := t.flights.eraseIdx n, locks := t.locks.filter fun l => !f.locks.contains l, flags := t.flags ||| f.flags }
      Leaves (.engineWordFinish k n) s
        (((s1.finishWord k f.eng f.eng.sq u f.ts f.late).modThread k Thread.pruneHist).settleTrap k)) ∧
    (∀ w s1, (s.die d).wts[n]? = some w → ((s.die d).wts.take n).any (fun v => v.line == w.line) = false → w.sent = false →
      s.hostHolds w.line = false → s.homeWrite w.line w.dat w.mask = some s1 →
      (w.peer = true →
        Leaves (.writeThroughArrival d n) s (s1.modDie d fun y => { y with wts := y.wts.set n { w with sent := true } })) ∧
      (w.peer = false →
        Leaves (.writeThroughArrival d n) s ((if w.poison then s1.setPoison w.line else s1).wtAcked d n w.line))) ∧
    ((s.die (thrDie k)).wts.any (fun w => (s.homeOf (w.line * 64)).isAt d) = false →
      s.peers.any (fun p => (p.kind == 1 || p.kind == 3) && peerDest p.peer == d) = false → s.eth.any (·.under d) = false →
      Leaves (.flushMarkerAck k d) s (s.setThread k { t with
        ph := { t.ph with acks := t.ph.acks.filter (· != d) }, phS := { t.phS with acks := t.phS.acks.filter (· != d) } })) ∧
    (∀ a r, t.ctlAcc = a :: r → s.frozen k = false →
      let gone (u : State) : State := u.modThread k fun x => { x with ctlAcc := r }
      let ends (u : State) (v : W) : State := (gone u).modThread k fun x => x.lateG a.seq a.dead a.d v
      (a.store = true → Leaves (.controlPathAccessPerforms k 0) s ((gone s).versionWrite k a.swm a.pa (leBytes a.n a.dat))) ∧
      (a.store = false → a.n = 0 → Leaves (.controlPathAccessPerforms k 0) s (ends s (BitVec.ofNat 64 a.dat))) ∧
      (∀ s1 l, a.store = false → a.n ≠ 0 → s.loadBytes k a.pa a.n a.swm = .ok (s1, l, false) →
        Leaves (.controlPathAccessPerforms k 0) s (ends s1 (a.value l)))) ∧
    (∀ a, s.barAdds[n]? = some a → (s.barAdds.take n).any (fun b => b.pa == a.pa) = false → (s.writeAddr a.pa).isSome = true →
      let s1 : State := { s with barAdds := s.barAdds.eraseIdx n }
      (a.task = none → Leaves (.barrierAddition n) s (s1.barrierAdd a.pa a.n)) ∧
      (∀ uid, a.task = some uid → Leaves (.barrierAddition n) s (((s1.mergeFlags uid a.pos a.flags).barrierAdd a.pa a.n).asyncDone uid))) ∧
    (∀ f, t.qflights[n]? = some f → s.frozen k = false → (t.qflights.take n).any (fun x => x.q == f.q) = false →
      let b := vget t.q f.q QHead.unbound
      let b1 := if b.kind = 0 then b else { b with elems := b.elems ++ f.vals, flight := b.flight - f.vals.length }
      Leaves (.queueElementArrival k n) s
        ((s.setThread k { t with q := vset t.q f.q b1, qflights := t.qflights.eraseIdx n, idleUntil := none }).settleTrap k))

/-- R84, R93, R110, R127: a persist point that was left pending is taken at the first boundary after its window, with a commit before it
where the marks ask for one; the image of a persist point completes, that of a commit brings the commit instant and its copy, which is torn
until it ends, and that of a save lets the thread leave; the save engine then begins the next image of its core.
R407, R428, R432, R439: a fetch that fails raises its cause at the word, a checker mismatch aborts with SDC_DETECTED SUB 1 and counts on
its core, a wait that has lasted too long raises WATCHDOG, and the time of an IDLE passes.
The model's own choices and readings that it rests on: log 24, 29, 58, 65. -/
def Obligations.ImageAndThreadFaultEvents : Prop :=
  (
    ∀ (s : State) (k n d : Nat),
      (∀ scope, (s.thread k).pendPersist = some scope → (s.thread k).pointDue s.now = true →
        let s0 : State := { s with focus := some k }
        let take (u : State) : State :=
          (u.modThread k fun t => { t with ph := Phase.none }).persistPoint k (if scope = 1 ∧ u.holdsLease k = true then 1 else 0)
        ((s.thread k).ph.stage = 0 → s.pointCommits k = false → (s.thread k).drained = true → (s.thread k).wordsWhole = true →
          Leaves (.pendingPersistPoint k) s (take s0)) ∧
        (∀ s1, (s.thread k).ph.stage ≠ 0 ∨ s.pointCommits k = true →
          (s0.setThread k ((s.thread k).setPhase .ctl { (s.thread k).ph with arg2 := pointWaits })).commitGo .ctl = .done s1 →
          Leaves (.pendingPersistPoint k) s (take s1))) ∧
      (∀ j, (s.die d).imgs[n]? = some j → (s.core j.core).freezes = 0 → j.begun = true →
        let s1 := (s.setDie d { s.die d with imgs := (s.die d).imgs.eraseIdx n }).wearImage j
        (j.purpose = 0 → Leaves (.imageComplete d n) s ((s1.imageDone j).nextImage j.core)) ∧
        (j.purpose = 1 →
          let s2 := ((s1.imageDone j).commitInstant j.thr j.img.mark).modThread j.thr fun t =>
            let t := if t.ph.stage = 2 then { t with ph := { t.ph with stage := 3 } } else t
            if t.phS.stage = 2 then { t with phS := { t.phS with stage := 3 } } else t
          let s3 := s2.modCore j.core fun c => { c with imgC := some j.img }
          Leaves (.imageComplete d n) s
            ((s3.modDie d fun y => { y with imgs := y.imgs.take n ++ { j with slot := 2, purpose := 2 } :: y.imgs.drop n }).nextImage j.core)) ∧
        (j.purpose = 2 → Leaves (.commitImageCopyDone d n) s ((s1.imageDone j).nextImage j.core)) ∧
        (j.purpose = 3 →
          let r := s1.writeSaved (((s1.taskOf j.img.task).map (·.ctx)).getD 0) { j.img with done := true }
          Leaves (.imageComplete d n) s
            (((r.1.modTask r.2.task fun t => { t with saved := (t.saved.filter fun o => o.pos != r.2.pos) ++ [r.2] }).leaveSaved j.thr 0).nextImage
              j.core)) ∧
        (j.purpose = 4 →
          let stays := s1.sched.suspended || decide (vget s1.sched.grades (s1.thread j.thr).eclass 0 ≥ 2)
          let s2 := ((s1.imageDone j).leaveSaved j.thr (if stays then 3 else 0)).modTask j.img.task fun t =>
            { t with onyxCores := t.onyxCores ++ [(j.img.pos, j.core)] }
          Leaves (.imageComplete d n) s ((s2.modCore j.core fun c => { c with reserved := some j.img.task }).nextImage j.core)))) ∧
  (
    ∀ (s : State) (k : Nat),
      let t := s.thread k
      (s.canAct k = true →
        (∀ s1 c, t.trapPend = none → s.fetch k = (s1, .fails c) → Leaves (.fetchFault k) s (s1.raiseAt k (t.ctlFault .control c))) ∧
        (∀ w pc, (s.checkerWords k)[(s.free 5).toNat % (s.checkerWords k).length]? = some (w, pc) →
          let n := (s.core (thrCore k)).mismatch + 1
          let s1 := s.modCore (thrCore k) fun c => { c with mismatch := n, degraded := c.degraded || decide (n ≥ 3) }
          Leaves (.checkerMismatch k) s (s1.deliver k ((wordEng w).getD .control) ⟨cSdcDetected, 1, w.toNat⟩ pc none)) ∧
        (s.waitPaused k = false → ∀ w c, t.wait .ctl = some w → t.watchdogDue .ctl w.kind s.now = some c →
          Leaves (.watchdog k) s
            ((s.setThread k { t with waitK := none, ph := Phase.none }).raiseAt k
              (t.ctlFault (((s.wordAtPc k).bind wordEng).getD .control) c)))) ∧
      (∀ u, t.idleUntil = some u → u ≤ s.now → Leaves (.idleTimeout k) s (s.setThread k { t with idleUntil := none })))

/-- R145, R146: the loader delivers what fits of a slot into a subscribed queue head; the storer writes a staged range into the next free
slot of its ring.
R148 to R154, R161, R229, R346: the weight ring: at the end of a lap the next one begins; a header starts the slots that wait for its
frame; the last flit fills or poisons them; at both the lane takes the speed asked for (R61, R152). A holder that has issued no matrix word
for 65,536 cycles of its cluster while another core waits, outside a tile replay, loses the lease and its claim.
The model's own choices and readings that it rests on: log 64, 66, 71, 110, 121; log 140, the order CRC, POISON, reserved fields in which the
reason of a failed frame is taken. -/
def Obligations.RingAndLeaseEvents : Prop :=
  (
    ∀ (s : State) (k q n : Nat),
      let t := s.thread k
      let b := vget t.q q QHead.unbound
      (∀ r s1 l, b.sub = some r → t.running = true → t.halted = false → s.frozen k = false → b.kind = 2 → s.isPoison (r.pa / 64) = false →
        let ahead := (s.homeNat r.pa 8 + 2 ^ 64 - r.next) % 2 ^ 64
        (r.ofs = 0 → ahead ≠ 0 ∧ ahead < 2 ^ 63) →
        let m := min b.space ((r.ssize * 64 - r.ofs) / b.ebytes)
        m ≠ 0 → s.homeBytes (r.pa + 64 + r.next % r.slots * r.ssize * 64 + r.ofs) (m * b.ebytes) = .ok (s1, l, false) →
        let ofs := r.ofs + m * b.ebytes
        Leaves (.loaderSlotDelivery k q) s (s1.setThread k { t with
          q := vset t.q q { b with
            elems := b.elems ++ toElems b.esz m l
            sub := some (if ofs = r.ssize * 64 then { r with next := (r.next + 1) % 2 ^ 64, ofs := 0 } else { r with ofs := ofs }) }
          idleUntil := none })) ∧
      (∀ uid i x, s.allStaged[n]? = some (uid, i, x) → x.written = false →
        (s.allStaged.take n).any (fun y => y.2.2.ring == x.ring && !y.2.2.written) = false → s.isPoison (x.ring / 64) = false →
        let p := ((s.allStaged.filter fun y => y.2.2.ring == x.ring).filter fun y => y.2.2.written).length
        let prod := s.homeNat x.ring 8
        let cons := s.homeNat (x.ring + 8) 8
        let pa := x.ring + 64 + (prod + p) % 2 ^ 64 % x.slots * x.ssize * 64
        (prod + p + 2 ^ 64 - cons) % 2 ^ 64 < x.slots → s.canEngineWriteRange pa x.dat = true →
        let s1 := (s.engineWrite pa x.dat).modTask uid fun t => { t with staged := t.staged.set i { x with written := true } }
        Leaves (.storerSlotWrite n) s (s1.publish uid ((s1.taskOf uid).map (·.staged.length + 1) |>.getD 0)))) ∧
  (
    ∀ (s : State) (lane cl : Nat) (badCrc badRes : Bool),
      let r := s.ring
      (r.lapEnded = true → r.speed ≠ 5 →
        let lap := (r.lap + 1) % 2 ^ 32
        let s1 : State := { s with ring := { r with
          lap := lap, table := r.waiting <|> r.table, waiting := none, lanes := Vector.replicate 8 0, lapStart := s.now, opened := [] } }
        let s2 := s1.mapSlots fun _ b =>
          if b.st = 2 then { b with st := 1, lapArmed := lap } else if b.st = 1 ∧ r.waiting.isSome = true then { b with lapArmed := lap } else b
        Leaves .lapBoundary s (if r.waiting.isSome then s2.post 0x0B 8 0 1 else s2)) ∧
      (∀ e s1 l bad, vget r.flying lane true = false → r.speedWant ≠ 5 →
        let r1 := { r with speed := r.speedWant, speedTo := vset r.speedTo lane r.speedWant }
        r1.entry lane = some e → s.homeBytes e.pa e.bytes = .ok (s1, l, bad) →
        let r2 := { r1 with
          flying := vset r.flying lane true, bad := vset r.bad lane bad, layer := e.layer % 256
          opened := if r.opened.contains e.layer then r.opened else e.layer :: r.opened }
        let s2 := s1.portUse (32 + e.pa / 2 ^ 37) (e.bytes / 512)
        Leaves (.frameHeaderArrival lane) s (({ s2 with ring := r2 } : State).mapSlots fun _ b =>
          if b.st = 1 ∧ b.matches e = true ∧ (b.reboards = 0 ∨ (r.lap + 2 ^ 32 - b.lapArmed) % 2 ^ 32 < 2 ^ 31) then b.fill e l else b)) ∧
      (∀ e, vget r.flying lane false = true → r.entry lane = some e →
        let poison := vget r.bad lane false
        let fails := badCrc || poison || badRes
        let s1 := s.mapSlots fun _ b =>
          if b.st = 3 ∧ b.matches e = true then if fails then { b with st := 5, dat := [], scaleBad := 0 } else { b with st := 4 } else b
        let s2 : State := { s1 with ring := { r with
          flying := vset r.flying lane false, lanes := vset r.lanes lane (vget r.lanes lane 0 + 1)
          speed := r.speedWant, speedTo := vset r.speedTo lane r.speedWant } }
        Leaves (.frameLastFlitArrival lane badCrc badRes) s
          (if fails then s2.frameFailed e (if badCrc then 0 else if poison then 1 else 2) else s2)) ∧
      (let c := s.cluster cl
       c.leaseHeld = true → c.waitq ≠ 0#4 → c.leaseAt + 160 * 65536 ≤ c.cycles s.now →
       (s.thread (s.coreThr cl c.holder)).tileRep = none →
       let info := (cl % 16) <<< 4 ||| c.holder
       let s1 := s.modThread (s.coreThr cl c.holder) fun t => { t with claim := false, async := t.async ++ [⟨cLeaseTimeout, 0, info⟩] }
       let s2 := s1.post 0x0C (cl / 16) ((cl % 16) <<< 8 ||| c.holder) info
       Leaves (.leaseTimeout cl) s ((s2.modCluster cl fun c => { c with leaseHeld := false }).leasePass cl)))

/-- R171, R172, R450: a doorbell of a launch queue moves its tail; the oldest record is taken, and a first launch that passes its checks
binds its graph and starts the first generation; a pending replay starts once the generation has settled.
R159, R160, R210, R434, R436: a task that waits long takes a better effective class; the graph engine of a live die tries its ready
tasks in rank order; a filled shadow plane is made active when the active plane is free; every waiting E0 task that has missed its deadline asks
the latest running task of its own tenant to stop; a save is forced when its limit has passed.
The model's own choices and readings that it rests on: log 59, 60, 61, 62, 100, 113, 157, 158. -/
def Obligations.LaunchAndPlacementEvents : Prop :=
  (
    ∀ (s : State) (port q tail n : Nat),
      (q < 16 → Leaves (.launchDoorbell port q tail) s
        (({ s with qPort := Tab.put q port s.qPort } : State).winPut (queueBase q + 0xFFF8) (leBytes 8 (tail % 1023)))) ∧
      (let head := s.winNat (queueBase q + 0xFFF0) 8 % 1023
       q < 16 → head ≠ s.winNat (queueBase q + 0xFFF8) 8 % 1023 →
       let r := LaunchRec.of (s.winBytes (queueBase q + 64 * head) 64)
       s.launchWaits r = false →
       let s1 := s.winPut (queueBase q + 0xFFF0) (leBytes 8 ((head + 1) % 1023))
       let s2 : State := if (Tab.find q s1.qBound).isNone then { s1 with qBound := Tab.put q r.ctx s1.qBound } else s1
       (Tab.find q s1.qBound = none ∨ Tab.find q s1.qBound = some r.ctx) → (Tab.find r.ctx s1.ctxs).isSome = true → r.reserved = false →
       (r.replay = false → s2.slot r.slot = none → r.ringOk = true → ∀ d g, (s2.ctx r.ctx).pdie r.vdie = some d →
         s2.launchCheck r.ctx r.graph = .ok g →
         Leaves (.launchRecord q) s (s2.firstLaunch r (Tab.getD s2.qPort q 0) d g)) ∧
       (r.replay = true → ∀ x, s2.slot r.slot = some x → x.ctx = r.ctx →
         let s3 := s2.setSlot r.slot { x with
           replayWait := some (x.replayWait.getD none), release := x.release || r.release, port := Tab.getD s2.qPort q 0 }
         Leaves (.launchRecord q) s
           (s3.completion r.slot (launchIdent r.slot) 4 (nextGen x.gen) 0 0 0 0 0 0 0 (Tab.getD s2.qPort q 0)))) ∧
      (∀ x, s.slot n = some x → x.replayWait.isSome = true → s.genDone n x = true → capWaits (s.captureGraph x.ctx x.graph) = false →
        let y := { x with replayWait := none }.recapture (s.captureGraph x.ctx x.graph)
        Leaves (.graphReplayStart n) s (((s.setSlot n y).startGen n (nextGen x.gen)).slotCheck n))) ∧
  (
    ∀ (s : State) (uid d core k : Nat),
      (∀ t, s.taskOf uid = some t → t.state = 0 → (s.die t.die).ready.contains uid = true → t.effClass ≠ 0 →
        t.waitAt + 4000000 ≤ s.now →
        Leaves (.effectiveClassAging uid) s (s.modTask uid fun x => { x with aged := x.aged + 1, waitAt := x.waitAt + 4000000 })) ∧
      ((s.refillReady d).dieLive d = true →
        let s1 := s.refillReady d
        (∀ t r s2, rankSort ((s1.die d).ready.filterMap s1.taskOf) = t :: r → s1.heldBack t = false → s1.tryPlace t = some s2 →
          Leaves (.taskPlacement d) s s2) ∧
        (rankSort ((s1.die d).ready.filterMap s1.taskOf) = [] → Leaves (.taskPlacement d) s s1)) ∧
      (let c := s.core core
       (s.thread (2 * core + (1 - c.active))).running = true → c.fill.isSome = true → c.filled = false →
       let s1 := s.setCore core { c with filled := true }
       Leaves (.shadowFillDone core) s (if s1.planeFree core c.active then s1.activate core (1 - c.active) else s1)) ∧
      (let late := ((s.die d).ready.filterMap s.taskOf).filter fun t => t.cls == 0 && !s.heldBack t && decide (t.due ≤ s.now)
       let latest (s1 : State) (t : Task) : Option Task :=
         (rankSort (s1.tasks.filter fun u => u.die == d && u.state == 1 && (s1.ctx u.ctx).tenant == (s1.ctx t.ctx).tenant)).getLast?
       let ask (s1 : State) (t : Task) : State := match latest s1 t with
         | none => s1
         | some u => if t.effClass < u.effClass then
             u.threads.foldl (fun s2 k => s2.modThread k fun x => { x with preempt := x.preempt <|> some s2.now }) s1
           else s1
       Leaves (.deadlinePreemption d) s ((rankSort late).foldl ask s)) ∧
      (let t := s.thread k
       t.running = true → t.halted = false → s.saveReady k = true →
       let saved : State := if s.isActive k then s.beginSave k t.savePurpose .full Thread.keepRepeat else s.saveShadow k t.savePurpose
       (∀ u, t.preempt = some u → u + 100000 ≤ s.now → Leaves (.preemptForcedSave k) s saved) ∧
       (∀ u, t.parkStop = some u → u + 50000 ≤ s.now → Leaves (.parkStopTimeout k) s saved)))

/-- R194 to R198, R205 to R217, R454: a curve whose doorbell write waits is checked from STAGE 4 on, and the doorbell reads 0 then: a curve that
passes its checks waits or takes force, a refused one changes RESULT and REFUSED alone;
events of the curve in force act at their times; EXEMPT ends; a parked task's images and version records are written into the park area and
leave Onyx.
The model's own choices and readings that it rests on: log 48, 49, 50, 54, 159. -/
def Obligations.CurveAndGradeEvents : Prop :=
  ∀ (s : State) (uid : Nat),
    (∀ v, s.boot.stage = 4 → v = 1 ∨ s.agate.curveDoor = true →
     let l := s.winBytes 0x300000 (min (s.winNat 0x301E00 8) 7680)
     let r := s.curveResult l
     let s1 := ({ s with agate := { s.agate with curveDoor := false } } : State).post 0x0A 8 0 (s.winNat 0x300008 8 <<< 64 ||| r)
     (r ≠ 0 → Leaves (.curveDoorbell v) s { s1 with sched := { s1.sched with result := r, refused := min 255 (s1.sched.refused + 1) } }) ∧
     (r = 0 →
       let s2 : State := { s1 with
         dies := s1.dies.map fun (d : Die) => if d.present then { d with curveSeq := (curveOf l).seq } else d
         sched := { s1.sched with result := 0, wait := some (curveOf l) } }
       Leaves (.curveDoorbell v) s (if (curveOf l).from_ ≤ s2.now then s2.enterCurve (curveOf l) else s2))) ∧
    (∀ c, s.sched.wait = some c → c.from_ ≤ s.now → Leaves .curveEntry s (s.enterCurve c)) ∧
    (∀ c e, s.sched.nextEvent = some (c, e) → c.eventAt e ≤ s.now →
      let s1 : State := { s with sched := { s.sched with evDone := s.sched.evDone + 1 } }
      (e.2.2 = 0 →
        let s2 : State := { s1 with sched := { s1.sched with want := gradesOf e.2.1 } }
        Leaves .gradeEvent s (if s.sched.suspended then s2.refreshPend else s2.setGrades (gradesOf e.2.1))) ∧
      (e.2.2 = 1 → Leaves .suspendEvent s s1.suspend) ∧
      (e.2.2 = 2 → Leaves .resumeEvent s s1.resume)) ∧
    Leaves .pendAnnounce s { s with sched := { s.sched with pend := s.sched.pendNow s.now } } ∧
    (s.sched.exempt = true → s.sched.exemptUntil ≤ s.now → Leaves .exemptExpiry s { s with sched := { s.sched with exempt := false } }) ∧
    (∀ t base size o, s.taskOf uid = some t → s.sched.parkArea = some (base, size) → t.state = 3 → t.parkRun = none →
      s.sched.suspended = false → t.resumeImages.length = t.livePos.length →
      let r := s.versTake uid
      let lines := t.lines ++ r.2
      let n := ((t.resumeImages.map Image.size).sum + 96 * lines.length + granule - 1) / granule * granule
      freeRun (s.tasks.filterMap (·.parkRun)) size n = some o →
      let s1 := t.onyxCores.foldl (fun s e => s.modCore e.2 fun c => if c.reserved = some uid then { c with reserved := none } else c) r.1
      let s2 := s1.modTask uid fun x => { x with
        parkRun := some (o, n), onyxCores := [], kept := t.resumeImages.map fun i => (2, i), lines := [], away := lines }
      Leaves (.parkCopyDone uid) s (s2.engineWrite (base + o) (parkBytes t.resumeImages lines)))

/-- R59, R220 to R226, R230: energies are accumulated and attributed once a microsecond, the halves of a counter are read through the
requester's latch, a refill at the end of a period of 64 cycles writes the rates and advances the permits, a lower sample of a rail is recorded, and re-arming clears the record.
R200, R203, R204, R468, R469: the loops of the energy scheduler run at their periods; a step of the V-code, a hop and a bias change
end and let the next begin, a hop 100 ns after it began; a droop stretches the clock and aborts a hop, recovers 32 stretched cycles after the
last trip, and the hop begins again after 1 µs. What the monitor of R205 takes down (noteBand), and the factor m as an exact fraction with the
notice of a step, are the model's readings.
The model's own choices and readings that it rests on: log 50, 51, 52, 53, 141. -/
def Obligations.EnergyAndOperatingPointEvents : Prop :=
  (
    ∀ (s : State) (vals : List Nat) (req n i cl d a : Nat) (r : List Nat) (hot : Bool),
      (s.energy.at_ + 1000 ≤ s.now →
       let e : Energy := { s.energy.advance (vals.take 21) with at_ := s.energy.at_ + 1000 }
       let s1 := (List.range 8).foldl (fun s2 d => s2.chargeDie d (vget e.acc (1 + d) 0#64 - vget s.energy.acc (1 + d) 0#64).toNat
         ((vals.drop (21 + 17 * d)).take 17)) { s with energy := e }
       Leaves (.energySample vals) s { s1 with thr := s1.thr.map fun e => (e.1, { e.2 with permits := 0 }) }) ∧
      (energyIndex n = some i → s.boot.minimal = false →
        let v := (vget s.energy.acc i 0#64).toNat
        let low : State := { s with energy := { s.energy with hiLatch := vset s.energy.hiLatch req (BitVec.ofNat 32 (v / 2 ^ 32)) } }
        let high := leBytes 4 (vget s.energy.hiLatch req 0#32).toNat
        (req < 2 →
          Leaves (.energyLowHalfRead req n) s (low.setPort req { s.port req with rd := leBytes 4 v }) ∧
          Leaves (.energyHighHalfRead req n) s (s.setPort req { s.port req with rd := high })) ∧
        (2 ≤ req →
          Leaves (.energyLowHalfRead req n) s { low with agate := { s.agate with rd := vset s.agate.rd (req - 2) (leBytes 4 v) } } ∧
          Leaves (.energyHighHalfRead req n) s { s with agate := { s.agate with rd := vset s.agate.rd (req - 2) high } })) ∧
      ((s.cluster cl).permAt + 64 * 160 ≤ (s.cluster cl).cycles s.now →
       let half := hot && (s.die (cl / 16)).switchingNear (cl % 16)
       Leaves (.permitRefill cl hot) s (s.modCluster cl fun c => { c with
         permAt := c.permAt + 64 * 160
         perm := c.perm.mapIdx fun i p =>
           let r0 := min 4095 (s.sched.rate (vget c.rowRate i 4095))
           let r1 := if half then max 1 (r0 / 2) else r0
           { p with rate := r1, count := min (p.count + r1) p.cap } })) ∧
      (r.foldl min a < (s.die d).vminMv →
        Leaves (.voltageSample d (a :: r)) s (s.setDie d { s.die d with vminMv := r.foldl min a, vminTime := s.now % 2 ^ 48 })) ∧
      (s.boot.minimal = false → Leaves (.vminRearm d) s (s.setDie d { s.die d with vminMv := 0xFFF, vminTime := 0 }))) ∧
  (
    ∀ (s : State) (cl d : Nat),
      let c := s.cluster cl
      let x := s.sched
      (x.fastAt + 10000 ≤ s.now →
        let e := (vget s.energy.acc 0 0#64).toNat
        let y := x.noteStep x.fastAt s.now
        let m := y.newM (y.capNow s.now).1 ((e + 2 ^ 64 - x.fastEnergy) % 2 ^ 64) (s.now - x.fastAt)
        Leaves .fastLoop s
          (({ s with sched := { y with mNum := m.1, mDen := m.2, fastAt := s.now, fastEnergy := e } } : State).noteBand s.anyLow)) ∧
      (x.slowAt + 1000000 ≤ s.now →
        let p := s.periodPower
        let s0 := s.noteBand s.anyLow
        let s1 : State := if x.exemptUntil ≤ x.slowAt then { s0 with sched := { s0.sched with inband := s0.bandOf (p.getD 0 0) } } else s0
        let s2 := (((s1.telemetry p).slowRows p).refreshPend.wakeHeld).rehome
        let s3 := ({ s2 with sched := { s2.sched with unheld := true, stopped := true } } : State).noteBand s2.anyLow
        Leaves .slowLoop s { s3 with sched := { s3.sched with slowAt := s3.now, slowEnergy := s3.energy.acc.toList.map (·.toNat), lastPower := p } }) ∧
      (∀ v, (s.die d).vTo = some v → Leaves (.vcodeStepEnd d) s ((s.setDie d { s.die d with vcode := v, vTo := none }).retune d)) ∧
      (∀ f, c.hopTo = some f → c.hopAborted = false → c.hopAt + 100 ≤ s.now →
        let s1 := (s.setCluster cl { c.tick s.now with fcode := f, hopTo := none }).retune (cl / 16)
        Leaves (.fcodeHopEnd cl) s (s1.noteBand s1.anyLow)) ∧
      (∀ b, c.biasTo = some b → Leaves (.biasSettle cl) s ((s.setCluster cl { c with bias := b, biasTo := none }).retune (cl / 16))) ∧
      (let c1 := c.tick s.now
       Leaves (.droopTrip cl) s
         (s.setCluster cl { c1 with stretch := true, hopAborted := c1.hopTo.isSome, tripAt := s.now, tripCyc := c1.cyc }) ∧
       (c.tripCyc + 32 * 160 ≤ c1.cyc → Leaves (.droopRecovery cl) s (s.setCluster cl { c1 with stretch := false })) ∧
       (c1.cyc < c.tripCyc + 32 * 160 → Leaves (.droopRecovery cl) s (s.setCluster cl c))) ∧
      (c.hopAborted = true → c.stretch = false → c.tripAt + 1000 ≤ s.now →
        Leaves (.hopRetry cl) s (s.setCluster cl { c with hopAborted := false, hopAt := s.now })))

/-- R86, R213 to R216: an idle die is gated with its dirty lines written home and its waiting versions in Onyx; the park list is copied; a
stack enters retention; a gated die is switched on with its stack, its clusters round by round.
R129, R437, R471: a cluster that loses its power has its images torn and its tasks requeued; a die whose core rail fails loses its
state; a module that loses its power keeps Onyx with the images of its core areas and its accumulator areas and the lock of the identity
region, its flash, and the tasks whose images Onyx holds.
The cause in the fault record of a VCORE fault, the clusters that go off so that a die can be gated (idleOff) and what the monitor of R205 takes
down (noteBand) are the model's choices and readings.
The model's own choices and readings that it rests on: log 7, 55, 56, 57, 72, 141, 154. -/
def Obligations.PowerEvents : Prop :=
  (
    ∀ (s : State) (d : Nat),
      (∀ s1, (s.idleOff d).canGate d = true → (s.idleOff d).writeBackAll d = some s1 →
        let s2 := ((s1.versionsOut d).modDie d fun x => x.goesOff s1.now).modStack d fun x => { x with copied := false }
        Leaves (.dieGate d) s ((({ s2 with sched := { s2.sched with lastGate := some s2.now } } : State).rehome).noteBand s2.anyLow)) ∧
      ((s.die d).on = false → (s.stack d).present = true → (s.stack d).st = 1 → (s.stack d).copied = false → s.sched.suspended = false →
        s.parkEntries d ≠ [] →
        let s1 := (s.parkEntries d).foldl (fun s e => s.copyRange e.1 e.2.2.1 e.2.1) s
        let off := (s.parkEntries d).any fun e => e.2.2.2
        Leaves (.parkListCopyDone d) s
          (s1.modStack d fun x => { x with copied := true, st := if off then 0 else 1, offFlag := off, lastAccess := s1.now })) ∧
      (s.canRetain d = true →
        let s1 := s.modStack d fun x => { x with st := 2 }
        let all := (List.range 8).all fun i => !(s1.die i).on && (!(s1.stack i).present || (s1.stack i).st != 1)
        Leaves (.hbmRetentionEntry d) s { s1 with lpRefresh := s1.lpRefresh || (s1.sched.suspended && all) }) ∧
      ((s.die d).present = true → (s.die d).on = false → s.sched.suspended = false → s.sched.wake.getLsbD d = true →
        apart s.sched.lastOn s.now = true →
        let s1 := s.stackOn d
        let s2 := s1.modDie d fun y =>
          { y with on := true, waitOn := s1.presentClusters d, switchRound := some 0, offAt := s1.now, powerFault := false }
        let s3 := s2.noteBand s2.anyLow
        Leaves (.dieSwitchOn d) s
          ({ s3 with sched := { s3.sched with lastOn := some s2.now, wake := s2.sched.wake &&& ~~~(1#8 <<< d) } } : State).retryPreds) ∧
      ((s.die d).on = true → (s.die d).waitOn ≠ 0#16 →
        let j := (s.die d).switchRound.getD 0
        let now := (List.range 16).filter fun c => (s.die d).waitOn.getLsbD c && switchRoundOf c == j
        let left := now.foldl (fun (a : BitVec 16) c => a &&& ~~~(1#16 <<< c)) (s.die d).waitOn
        let s1 := now.foldl (fun s c => s.clusterOn (16 * d + c)) s
        Leaves (.clusterSwitchOnRound d) s
          ((s1.modDie d fun y => { y with waitOn := left, switchRound := if left = 0#16 then none else some ((j + 1) % 4) }).rehome).clustersGood)) ∧
  (
    ∀ (s : State) (cl d : Nat),
      (let s1 := s.cutImages (cl / 16) fun j => coreCluster j.core == cl
       let own := s1.tasks.filter fun t => t.state == 1 && t.threads.any fun k => thrCluster k == cl
       Leaves (.clusterPowerLoss cl) s ((own.foldl (fun s t => s.loseThreads cl t) s1).clusterOff cl)) ∧
      ((s.die d).on = true →
        let s0 := (({ s with boot := { s.boot with rails := s.boot.rails &&& ~~~(1#21 <<< (13 + d)) } } : State).loseDirty d).cutImages d fun _ => true
        let s1 := s0.modDie d fun y => { y.goesOff s0.now with wts := [], imgs := [], mons := [], powerFault := true }
        let own := s1.tasks.filter fun t => t.die == d && t.origins != [] && t.parkRun.isNone
        let s2 := own.foldl (fun s t => s.endTask t.uid 2 ((s.free 55).toNat % 256) 0 0 0) s1
        Leaves (.vcoreFault d) s (((List.range 16).foldl (fun s c => s.clusterOff (16 * d + c)) s2).rehome)) ∧
      (let t : State := { State.reset with
         dies := s.dies.map Die.kept, cores := s.onyxCores
         clusters := s.clusters.map fun e => (e.1, { Cluster.blank with accArea := e.2.accArea })
         agate := { Agate.blank with idLock := s.agate.idLock, refusals := s.agate.refusals }, parkedList := s.onyxTasks, latent := s.latent, turns := s.turns, uids := s.uids, fresh := s.fresh
         boot := { Boot.blank with flash := s.boot.flash, answers := s.boot.answers, trainBad := s.boot.trainBad } }
       Leaves .modulePowerLoss s t))

/-- R72, R149, R150, R166, R183, R211, R214, R435, R447, R448, R449: the requests of the ring that give the module its tables: each takes
effect and finishes with STATUS 0; one with an unknown code or a reserved bit set finishes with STATUS 1 and changes nothing else, but for the
event of a refused lap table (R150).
The model's own choices and readings that it rests on: log 53, 67, 68, 69, 71, 72, 73, 74. -/
def Obligations.TableRequests : Prop :=
  ∀ (s : State) (l : List Byte),
    let c := reqCtx l
    let pa := field l 8 8
    let n := field l 16 8
    let vdt : Vector (BitVec 8) 8 := Vector.ofFn fun v => BitVec.ofNat 8 (field l (16 + v.val) 1)
    (ReqGo s 0x01 l → bits pa 63 52 = 0 → bits pa 11 9 = 0 → field l 24 40 = 0 → Tab.find c s.ctxs = none → bits pa 7 0 ≠ 0xFF →
      s.vdtOk vdt = true →
      Serves .createContext s { s with
        ctxs := Tab.put c ⟨bits pa 51 12 * 4096, bit pa 8, bits pa 7 0, vdt, none⟩ s.ctxs } 0) ∧
    (ReqGo s 0x02 l → (Tab.find c s.ctxs).isSome = true → s.tasks.any (fun t => t.ctx == c && t.state == 1) = false →
      Serves .destroyContext s { s with ctxs := Tab.del c s.ctxs, qBound := s.qBound.filter fun e => e.2 != c } 0) ∧
    (∀ x, ReqGo s 0x08 l → Tab.find c s.ctxs = some x → s.inHbm pa n = true →
      Serves .savePool s { s with ctxs := Tab.put c { x with pool := some (pa, n) } s.ctxs } 0) ∧
    (∀ s1 h s2 b t, ReqGo s 0x04 l → s.inHbm pa 64 = true → s.homeBytes pa 64 = .ok (s1, h, false) → leNat h / 2 ^ 20 = 0 → leNat h % 2 ^ 20 ≠ 0 →
      s1.inHbm (pa + 64) (16 * (leNat h % 2 ^ 20)) = true → s1.homeBytes (pa + 64) (16 * (leNat h % 2 ^ 20)) = .ok (s2, b, false) →
      s2.readLap b 0 (leNat h % 2 ^ 20) 0 [] = .ok t →
      (∀ u, s2.ring.table = some u →
        Serves .installLapTable s ({ s2 with ring := { s2.ring with waiting := some t } }.post 0x0B 8 0 0) 0) ∧
      (s2.ring.table = none → Serves .installLapTable s (s2.lapAccept t) 0)) ∧
    (∀ s1 b, ReqGo s 0x05 l → n ≤ 1024 → s.inMemory pa (32 * n) = true → s.homeBytes pa (32 * n) = .ok (s1, b, false) →
      let es := (List.range n).map fun i => (b.drop (32 * i)).take 32
      (es.all s1.parkEntryOk = true → Serves .parkList s { s1 with sched := { s1.sched with parkList := es.map parkEntry } } 0) ∧
      (es.all s1.parkEntryOk = false → Serves .parkList s s1 1)) ∧
    (ReqGo s 0x06 l → 256 ≤ n → n ≤ 1048576 → (s.inHbm pa (64 * n) || s.inHost pa (64 * n)) = true →
      Serves .telemetryBuffer s { s with telem := some (pa, n, 0) } 0) ∧
    (∀ s1 b s2, ReqGo s 0x07 l → (s.putSlotTable (field l 8 1) (field l 9 1) []).isSome = true → s.inMemory n 64 = true →
      s.homeBytes n 64 = .ok (s1, b, false) → s1.putSlotTable (field l 8 1) (field l 9 1) (b.map (·.toNat)) = some s2 →
      Serves .writeSlotTable s s2 0) ∧
    (∀ s1 b, ReqGo s 0x0F l → s.inMemory pa 512 = true → s.homeBytes pa 512 = .ok (s1, b, false) →
      Serves .writeCoreOwnership s (s1.setOwners b) 0) ∧
    (ReqGo s 0x10 l → n % 4096 = 0 → (n = 0 ∨ (pa % 4096 = 0 ∧ s.inLp pa n = true)) →
      (s.tasks.any (fun t => t.parkRun.isSome) = false →
        Serves .registerParkArea s { s with sched := { s.sched with parkArea := if n = 0 then none else some (pa, n) } } 0) ∧
      (s.tasks.any (fun t => t.parkRun.isSome) = true → Serves .registerParkArea s s 2)) ∧
    (s.oldestReq = some l → s.shoots = [] →
      (field l 0 1 = 4 → field l 4 4 ≠ 0 → Serves .createContext s (s.post 0x0B 8 0 (4 <<< 8 ||| 2)) 1) ∧
      (field l 0 1 ≠ 4 → field l 0 1 = 0 ∨ field l 0 1 > 16 ∨ field l 4 4 ≠ 0 → Serves .createContext s s 1))

/-- R28, R51, R72, R191, R214, R216, R217, R432, R434, R447, R451, R457, R459, R461: the requests that act on what runs: a shootdown starts
and completes when what passed its check before has performed; a task is asked to stop; a degraded core is cleared; a snapshot domain goes
back; a communicator is set up, a collective cancelled; grades are suspended and resumed.
That a shootdown reaches the handler tables in images (shootImages) is the model's choice, log 135; which rank a cancel names where none has been
named yet is its reading.
The model's own choices and readings that it rests on: log 41, 48, 70, 75, 76, 78, 135. -/
def Obligations.RunningRequests : Prop :=
  ∀ (s : State) (l : List Byte),
    let n := reqCtx l
    let pa := field l 8 8
    let hi := pa + field l 16 8
    let thrs := s.ctxThreads n
    (ReqGo s 0x03 l → (Tab.find n s.ctxs).isSome = true → s.peers.any (fun p => p.kind == 2 && thrs.contains p.thr) = false →
      let s1 := (thrs.foldl (fun s k => s.modThread k fun t => t.shot pa hi) (s.shootTlbs n pa hi)).shootImages n pa hi
      Leaves .shootdown s { s1 with
        copies := s1.copies.map fun (c : Copy) => if ((s1.taskOf c.task).map fun t => t.ctx == n).getD false then { c with shoot := true } else c
        shoots := [Shoot.mk n pa hi (thrs.flatMap s1.underWay)] }) ∧
    (∀ x r, s.shoots = x :: r → x.waitFlights.any (fun f => (s.underWay f.1).contains f) = false → s.copies.any (·.shoot) = false →
      Serves .shootdownCompletion s { s with shoots := [] } 0) ∧
    (∀ t, ReqGo s 0x09 l → s.tasks.find? (fun t => t.id == field l 8 5 && t.state == 1) = some t →
      Serves .preEmptTask s (s.askPreempt t) 0) ∧
    (ReqGo s 0x0A l → s.corePresent pa = true → Serves .clearDegradedCore s (s.modCore pa fun c => { c with degraded := false }) 0) ∧
    (∀ s1 b, ReqGo s 0x0B l → s.localPa pa % 64 = 0 → s.inMemory (s.localPa pa) 64 = true →
      s.homeBytes (s.localPa pa) 64 = .ok (s1, b, false) → snapReserved (leNat b) = false → s1.snapRoots.any (fun x => x.1 == s.localPa pa) = true →
      let r := readSnapRoot s1.mem (s.localPa pa)
      let lines := s1.snapCached (s.localPa pa)
      let s2 : State := { s1 with mem := (List.range r.npages).foldl (restorePage r) s1.mem }
      Serves .restoreSnapshotDomain s
        ((List.range 8).foldl (fun s d => s.renewAll d true (fun _ => true) fun x => lines.contains (s.localLine x)) s2) 0) ∧
    (∀ s1 b s2 m, ReqGo s 0x0C l → s.inHbm pa 64 = true → s.homeBytes pa 64 = .ok (s1, b, false) →
      let k := field b 4 2
      2 ≤ k → k ≤ 4096 → field b 6 2 < k → s1.ctxs.any (fun c => c.2.tenant == field b 2 1) = true → s1.inMemory (field b 8 8) (8 * k) = true →
      s1.homeBytes (field b 8 8) (8 * k) = .ok (s2, m, false) →
      Serves .setUpCommunicator s { s2 with comms := (s2.comms.filter fun x => x.num != field b 0 2) ++
        [⟨field b 0 2, field b 2 1, k, field b 6 2, (List.range k).map fun i => field m (8 * i) 8, 0⟩] } 0) ∧
    (∀ c, ReqGo s 0x0D l → s.colls.find? (fun c => c.desc == pa) = some c →
      let done := c.chunks * chunkBytes
      let left := c.count * c.esize - done
      let s1 := s.collWrite c (c.dst + done) (s.freeBytes 64 left)
      let s2 : State := { s1 with fresh := s1.fresh + left, colls := s1.colls.filter fun x => x != c }
      Serves .cancelCollective s ((s2.collCount c).collEvent c (s2.silentRank c) 1) 0) ∧
    (ReqGo s 0x0E l → field l 8 1 = 0 → Serves .suspendRequest s s.suspend 0) ∧
    (ReqGo s 0x0E l → field l 8 1 = 1 → Serves .resumeRequest s s.resume 0)

/-- R28, R88, R89, R98, R99, R165, R231, R232, R342: the error machinery: a freeze ends, a bank is rebuilt, a burst is read again and a lane
swapped, a scrub corrects a cell, a counter is cleared by a write of 0, the head of the event queue moves, an Onyx block goes to a spare,
a copy engine moves 256 bytes, of a chunk that the spec leaves free, and after the last adds LEN to the barrier object.
The model's own choices and readings that it rests on: log 12, 44, 80. -/
def Obligations.ErrorAndCopyEvents : Prop :=
  ∀ (s : State) (core str unit k stack pch bank row col idx die block : Nat) (v : W32),
    Leaves (.secdedFreezeEnd core) s (s.modCore core fun c => { c with freezes := c.freezes - 1 }) ∧
    (∀ b, s.banks.find? (fun b => b.str == str && b.unit == unit && b.rebuilding) = some b →
      let s1 : State := { s with banks := s.banks.map fun (x : Bank) => if x = b then { x with rebuilding := false } else x }
      Leaves (.bankRebuildEnd str unit) s
        (s1.post 0x03 (eventPlace str unit).1 (eventPlace str unit).2 (str <<< 120 ||| (b.bank % 256) <<< 104 ||| 1 <<< 96))) ∧
    (∀ b, s.bursts[k]? = some b → b.swapped = false →
      let tries := b.tries + 1
      let gone : State := { s with bursts := s.bursts.eraseIdx k }
      Leaves (.hbmParityReread k true) s (gone.xferLog b.stack 0 b.pch b.beat b.lane tries) ∧
      (tries < 3 → Leaves (.hbmParityReread k false) s { s with bursts := s.bursts.set k { b with tries := tries } }) ∧
      (3 ≤ tries → (s.stack b.stack).spare.getLsbD b.pch = false →
        let s1 : State := { s with bursts := s.bursts.set k { b with tries := tries, swapped := true } }
        Leaves (.hbmParityReread k false) s
          (s1.setStack b.stack { s.stack b.stack with spare := (s.stack b.stack).spare ||| (1#64 <<< b.pch) })) ∧
      (3 ≤ tries → (s.stack b.stack).spare.getLsbD b.pch = true →
        Leaves (.hbmParityReread k false) s (gone.burstPoison { b with tries := tries }))) ∧
    (∀ b, s.bursts[k]? = some b → b.swapped = true →
      let gone : State := { s with bursts := s.bursts.eraseIdx k }
      Leaves (.hbmLaneSwapResume k true) s (gone.xferLog b.stack 1 b.pch b.beat b.lane b.tries) ∧
      Leaves (.hbmLaneSwapResume k false) s (gone.burstPoison b)) ∧
    ((s.stack stack).present = true → (s.stack stack).st = 1 →
      Leaves (.hbmScrub stack pch bank row col) s
        (s.cellLog stack 2 pch ((bank % 16) <<< 23 ||| (row % 2 ^ 18) <<< 5 ||| col % 32))) ∧
    (∀ i, s.boot.minimal = false → errOrder[idx]? = some i → Leaves (.errorCounterClear idx 0#64) s { s with errs := Tab.del i s.errs }) ∧
    (s.boot.minimal = false → (v - s.evq.head).toNat ≤ (s.evq.tail - s.evq.head).toNat →
      Leaves (.eventQueueHeadWrite v) s { s with evq := { s.evq with head := v } }) ∧
    (let d := s.die die
     let e := Tab.getD d.wear block (0, none)
     d.imgs = [] → block < 512 → e.1 > 5 * 10 ^ 13 →
     (d.spares < spareBlocks →
       Leaves (.onyxBlockMove die block) s
         (s.setDie die { d with wear := Tab.put block (0, some d.spares) d.wear, spares := d.spares + 1 })) ∧
     (spareBlocks ≤ d.spares → Leaves (.onyxBlockMove die block) s (s.setDie die { d with worn := true }))) ∧
    (∀ c s1 l, s.copies[k]? = some c → s.copyEligible c = true →
      let i := (s.free 59).toNat % c.left.length
      let o := c.left.getD i 0 * 256
      s.homeBytes (c.src + o) (min 256 (c.len - o)) = .ok (s1, l, false) → s1.canEngineWriteRange (c.dst + o) l = true →
      let s2 := (s1.engineWrite (c.dst + o) l).copySlotDone c.iod
      (c.left.eraseIdx i ≠ [] →
        Leaves (.copyChunkDone k) s { s2 with copies := s2.copies.set k { c with left := c.left.eraseIdx i } }) ∧
      (c.left.eraseIdx i = [] → Leaves (.copyChunkDone k) s { s2 with
        copies := s2.copies.eraseIdx k
        barAdds := s2.barAdds ++ [BarAdd.mk c.bar c.len (some c.task) c.pos 0#32] }))

/-- R466, R472 to R477: start-up: VAUX power-good starts it; the last rail of a round that is good lets it go on; a rail without power-good
after 10 ms and a start of 60 s fail; in minimal mode the recovery doorbell takes an image into flash; a module reset starts again.
The model's own choices and readings that it rests on: log 81, 82, 83, 84, 85, 86, 87. -/
def Obligations.StartUpEvents : Prop :=
  ∀ (s : State) (rail v : Nat),
    (s.boot.rails.getLsbD 0 = false →
      Leaves .vauxPowerGood s { s with boot := { s.boot with rails := railVaux } }.startBoot) ∧
    (s.boot.railWait.getLsbD rail = true →
      let b : BitVec 21 := 1#21 <<< rail
      let w := s.boot.railWait &&& ~~~b
      let s1 : State := { s with boot := { s.boot with rails := s.boot.rails ||| b, railWait := w } }
      (w ≠ 0#21 → Leaves (.railPowerGood rail) s s1) ∧
      (w = 0#21 → s1.boot.step = 2 →
        (s1.boot.rails &&& railVcore = 0#21 → Leaves (.railPowerGood rail) s (s1.railsUp railVcore 2)) ∧
        (s1.boot.rails &&& railVcore ≠ 0#21 → Leaves (.railPowerGood rail) s s1.romChecks)) ∧
      (w = 0#21 → s1.boot.step = 6 →
        (s1.boot.rails &&& s1.railVhbm = s1.railVhbm → Leaves (.railPowerGood rail) s s1.trainAll.clustersGood) ∧
        (s1.boot.rails &&& s1.railVhbm ≠ s1.railVhbm → Leaves (.railPowerGood rail) s (s1.railsUp s1.railVhbm 6))) ∧
      (s.boot.railAt + 10000000 ≤ s.now → Leaves (.railPowerGoodTimeout rail) s (s.bootFail 0x05))) ∧
    (s.boot.rails.getLsbD 0 = true → s.boot.minimal = false → s.boot.stage < 4 → s.boot.startAt + 60000000000 ≤ s.now →
      Leaves .bootTimeout s (s.bootFail 0x09)) ∧
    (s.boot.minimal = true →
      let l := s.boot.rec_.take s.boot.recLen
      ([0, 1, 2].find? (fun k => s.imagePasses k l) = none →
        Leaves (.recoveryDoorbell v) s { s with boot := { s.boot with recDoor := 2 } }) ∧
      (∀ k, [0, 1, 2].find? (fun k => s.imagePasses k l) = some k →
        let s1 : State := { s with boot := { s.boot with flash := Tab.put (2 * k) l s.boot.flash } }
        Leaves (.recoveryDoorbell v) s (s1.modRecords fun d => { d with bootCount := 0 }).startBoot)) ∧
    (s.boot.rails.getLsbD 0 = true →
      Leaves .moduleReset s ({ s.powerBase with
        evq := EvQueue.blank, errs := [], parkedList := s.onyxTasks, energy := { s.energy with hiLatch := Vector.replicate 4 0#32 } }
          : State).startBoot)

/-- R44, R95, R116, R221, R443 to R446, R465: what the host does at a port that is up: a write and a read of backed memory below the window
and of the window itself, a read behind the port's earlier posted writes, a function-level reset, its completions and the lines it gives up; the
BMC and Agate read the window; Agate's registers take their writes; a locked identity region refuses them.
The model's own choices and readings that it rests on: log 88, 89, 90, 91, 161. -/
def Obligations.HostEvents : Prop :=
  ∀ (s : State) (port a pa n line req ofs : Nat) (d : List Byte) (v : W),
    let p := s.port port
    (s.hostPa port a = some pa → p.up = true → d ≠ [] → pa + d.length ≤ barEnd →
      (winBase ≤ pa → Leaves (.hostWrite port a d) s (s.winWrite port (pa - winBase) d)) ∧
      (pa < winBase → s.boot.minimal = false → s.touchesUnbacked pa d.length = false →
        Leaves (.hostWrite port a d) s ((s.hostDrops port pa d).engineWriteBy (some port) pa d))) ∧
    (s.hostPa port a = some pa → port ≠ 2 → port ≠ 3 → p.up = true → n ≠ 0 → pa + n ≤ barEnd →
      (winBase ≤ pa →
        let r := s.winRead port (pa - winBase) n
        Leaves (.hostRead port a n) s (r.1.setPort port { r.1.port port with rd := r.2 })) ∧
      (∀ s1 l bad, pa < winBase → s.boot.minimal = false → s.touchesUnbacked pa n = false → s.homeBytes pa n = .ok (s1, l, bad) →
        let q := s1.port port
        let lines := (splitLines pa l).map (·.1)
        ((s1.heldWrites.any fun w => w.port == some port) = true → Leaves (.hostRead port a n) s s1) ∧
        ((s1.heldWrites.any fun w => w.port == some port) = false →
          Leaves (.hostRead port a n) s
            (s1.setPort port { q with rd := l, held := if q.cxl then q.held ++ lines.filter fun x => !q.held.contains x else q.held })))) ∧
    (∀ r, r = 2 ∨ r = 3 → winBase ≤ pa → pa + n ≤ barEnd →
      let x := s.winRead r (pa - winBase) n
      Leaves (.hostRead r pa n) s { x.1 with agate := { x.1.agate with rd := vset x.1.agate.rd (r - 2) x.2 } }) ∧
    Leaves (.flr port) s
      ((s.tasks.filter fun t => t.port == port && t.state != 7).foldl (fun s t => s.endTask t.uid 2 ((s.free 58).toNat % 256) 0 0 0) s) ∧
    Leaves (.hostCompletion port) s (s.setPort port { p with out := p.out - 1 }) ∧
    (p.snoop.contains line = true →
      Leaves (.birspArrival port line) s
        (s.setPort port { p with snoop := p.snoop.filter (· != line), held := p.held.filter (· != line) })) ∧
    (ofs < 2 ^ 32 → Leaves (.registerWrite req ofs v) s (s.winWrite req ofs (leBytes 8 v.toNat))) ∧
    (let ag (a : Agate) : State := { s with agate := a }
     Leaves (.registerWrite 3 (2 ^ 32 + 0x501) v) s (ag (s.agate.send (v.toNat % 2 ^ 13))) ∧
     Leaves (.registerWrite 3 (2 ^ 32 + 0x502) v) s (ag { s.agate with src := v.toNat % 2 ^ 18 }) ∧
     Leaves (.registerWrite 3 (2 ^ 32 + 0x503) v) s (ag { s.agate with dst := v.toNat % 2 ^ 18 }) ∧
     Leaves (.registerWrite 3 (2 ^ 32 + 0x504) v) s
       (ag (s.agate.operate s.fresh (bits v.toNat 31 28) (bits v.toNat 27 24) (bits v.toNat 23 20) (bits v.toNat 12 0)))) ∧
    (∀ d o, d < 8 → o ≤ 0xFFF8 →
      (s.agate.idLock = true →
        Leaves (.registerWrite 3 (2 ^ 33 + 0x10000 * d + o) v) s { s with agate := { s.agate with refusals := s.agate.refusals + 1 } }) ∧
      (s.agate.idLock = false →
        let x := s.die d
        Leaves (.registerWrite 3 (2 ^ 33 + 0x10000 * d + o) v) s
          (s.setDie d { x with
            identity := x.identity - bits x.identity (8 * o + 63) (8 * o) * 2 ^ (8 * o) + v.toNat * 2 ^ (8 * o) })))

/-- R100, R103, R455 to R461: the links: an access of a peer performs at home; its answer, its silence and its refusal end an access of this
module; packets of a message are placed once, acknowledged, or sent again after 40 µs; what a rank gives to the next chunk of a collective is sent
once and the chunk is written when its inputs are there, and a rank that owes something and has been silent for 1 s is posted once.
The model's own choices and readings that it rests on: log 43, 92, 93, 94, 95, 96, 108, 173. -/
def Obligations.LinkEvents : Prop :=
  ∀ (s : State) (k peer pa0 mask port msg pkt ofs rank : Nat) (d : List Byte) (pkts : List Nat),
    (let pa := pa0 % 2 ^ 43
     let line := pa / 64
     let data := lineOf ((d ++ List.replicate (64 - d.length) 0#8).take 64)
     (s.inHbm (line * 64) 64 || s.inLp (line * 64) 64) = true →
     (∀ s1 l bad, s.homeBytes (line * 64) 64 = .ok (s1, l, bad) → Leaves (.peerAccessArrival peer 0 pa0 mask d) s s1) ∧
     (∀ kind, kind = 1 ∨ kind = 3 →
       (∀ s1, s.canEngineWrite line = true → s.engineWriteLine line data (BitVec.ofNat 64 mask) = some s1 →
         Leaves (.peerAccessArrival peer kind pa0 mask d) s s1) ∧
       (s.canEngineWrite line = false →
         Leaves (.peerAccessArrival peer kind pa0 mask d) s
           ((s.snoopLine line).hold ⟨3, s.localLine line, data, BitVec.ofNat 64 mask, false, none, none⟩))) ∧
     (∀ s1 l, mask ≠ 10 → pa % 8 = 0 → s.homeBytes pa 8 = .ok (s1, l, false) → (s1.writeAddr pa).isSome = true →
       Leaves (.peerAccessArrival peer 2 pa0 mask d) s (s1.atomicWrite pa
         (leBytes 8 (peerAtomic mask (BitVec.ofNat 64 (leNat l)) (BitVec.ofNat 64 (field d 0 8)) (BitVec.ofNat 64 (field d 8 8))).toNat))) ∧
     (∀ s1 l, pa % 16 = 0 → s.homeBytes pa 8 = .ok (s1, l, false) → (s1.writeAddr pa).isSome = true →
       Leaves (.peerAccessArrival peer 2 pa0 10 d) s (s1.barAddAt pa (field d 0 8)))) ∧
    (∀ p, s.peers[k]? = some p →
      let gone : State := { s with peers := s.peers.eraseIdx k }
      let line := p.pa / 64
      let fails (refused : Bool) (t : State) : Prop :=
        (refused = true → Leaves (.peerRefusal k) s t) ∧ (refused = false → p.issued + 1000000 ≤ s.now → Leaves (.peerTimeout k) s t)
      (p.dest = 7 → Leaves (.peerResponse k d) s
        (({ s with peers := s.peers.set k { p with dest := 6, line := lineOf (d.take 64) } } : State).clearPoison line)) ∧
      (p.kind = 2 → p.dest = 8 → ∀ uid kind ops, p.once = some (uid, kind, ops) →
        Leaves (.peerResponse k d) s
          (gone.modTask uid fun t => { t with replay := t.replay ++ [⟨kind, p.pa, ops, leNat (d.take 8), t.openMark⟩] })) ∧
      (∀ refused, p.dest = 8 → fails refused (gone.peerEvent p refused)) ∧
      (p.dest ≤ 1 →
        (p.kind = 0 → Leaves (.peerResponse k d) s (gone.peerFill (thrDie p.thr) line (lineOf (d.take 64)))) ∧
        (p.kind = 2 → Leaves (.peerResponse k d) s { s with peers := s.peers.set k { p with dest := 9, d := leNat (d.take 8) } }) ∧
        (p.kind = 1 → Leaves (.peerResponse k d) s (gone.peerAcked line)) ∧
        (p.kind = 3 → Leaves (.peerResponse k d) s gone) ∧
        (∀ refused,
          (p.kind = 0 ∨ p.kind = 2 → fails refused ((gone.peerEvent p refused).peerPoison p)) ∧
          (p.kind = 1 → fails refused ((gone.peerEvent p refused).peerAcked line)) ∧
          (p.kind = 3 → fails refused (gone.peerEvent p refused))))) ∧
    (∀ c, d.length ≤ 4096 →
      s.colls.find? (fun c => decide (c.comm % 2 ^ 16 = msg / 4096 % 2 ^ 16 ∧ c.ord = msg / 2 ^ 28)) = some c →
      let old := (s.eth.find? fun e => e.num == msg && e.inc).getD ⟨msg, true, 0, [], [], []⟩
      (old.got.contains pkt = true → Leaves (.ethPacketArrival port msg pkt ofs d) s s) ∧
      (old.got.contains pkt = false →
        let late := (List.range pkt).filter fun p => !(old.got.contains p || old.missing.contains p)
        let new : EthMsg := { old with got := old.got ++ [pkt], missing := old.missing.filter (· != pkt) ++ late }
        let heard : Coll := { c with heard := Tab.put (msg % 4096) s.now c.heard }
        let with_ (c1 : Coll) : State := { s with
          eth := (s.eth.filter fun e => !(e.num == msg && e.inc)) ++ [new], colls := s.colls.map fun x => if x = c then c1 else x }
        let c1 : Coll := { heard with heads := c.heads ++ [(msg % 4096, field d 0 1, field d 1 1, field d 8 8)] }
        let same := field d 0 1 = c.op ∧ field d 1 1 = c.fmt ∧ field d 8 8 = c.count
        (pkt ≠ 0 → Leaves (.ethPacketArrival port msg pkt ofs d) s (with_ { heard with inputs := c.inputs ++ [(msg % 4096, ofs, d)] })) ∧
        (pkt = 0 → same → Leaves (.ethPacketArrival port msg pkt ofs d) s (with_ c1)) ∧
        (pkt = 0 → ¬same → Leaves (.ethPacketArrival port msg pkt ofs d) s
          (((with_ c1).collEnds c1).postAsync c.task c.pos ⟨cNumeric, 0, c.desc⟩)))) ∧
    (let l := s.eth.map fun (e : EthMsg) => if e.num = msg ∧ !e.inc then { e with out := e.out.filter fun p => !pkts.contains p.pkt } else e
     Leaves (.ethAckArrival msg pkts) s { s with eth := l.filter fun e => e.num != msg || e.inc || !e.out.isEmpty || s.ethOpen e }) ∧
    (let again (p : EthPkt) : EthPkt := if p.pkt = pkt ∧ p.sentAt + 40000 ≤ s.now then { p with sentAt := s.now } else p
     Leaves (.ethRetransmitTimeout msg pkt) s { s with
       eth := s.eth.map fun (e : EthMsg) => if e.num = msg ∧ !e.inc then { e with out := e.out.map again } else e }) ∧
    (∀ c m s0 c0 s1 out f, s.colls[k]? = some c → s.commOf c = some m → c.stopped = false →
      (c.done.contains (c.chunks, 0) = true ∧ s0 = s ∧ c0 = c ∨
        ∃ t, c.done.contains (c.chunks, 0) = false ∧ s.collSend c m = .ok t ∧ c0 = { c with done := c.done ++ [(c.chunks, 0)] } ∧
          s0 = { t with colls := t.colls.set k c0 }) →
      ((List.range m.n).all (fun r => r == m.rank || c0.heads.any fun h => h.1 == r) = false → Leaves (.collectiveChunkDone k) s s0) ∧
      ((List.range m.n).all (fun r => r == m.rank || c0.heads.any fun h => h.1 == r) = true →
        let lo := c0.chunk.1
        let n := c0.chunk.2
        s0.collOutput c0 m lo n = .ok (s1, some (out, f), []) → s1.collMayWrite c0 (c0.dst + lo) out = true →
        let s2 := s1.collWrite c0 (c0.dst + lo) out
        let c1 := { c0 with done := c0.done ++ [(c0.chunks, 1)], flags := orFlags c0.flags f }
        let s3 : State := { s2 with fresh := s2.fresh + n, colls := s2.colls.set k c1 }
        Leaves (.collectiveChunkDone k) s (if lo + n < c0.count * c0.esize then s3 else s3.collEnds c1))) ∧
    (∀ c m, s.colls[k]? = some c → s.commOf c = some m → c.owes m rank = true → Tab.getD c.heard rank c.since + 1000000000 ≤ s.now →
      c.stalled = none →
      let s1 : State := { s with colls := s.colls.set k { c with stalled := some rank } }
      Leaves (.collectiveStall k rank) s (s1.collEvent c rank 0))

/-- R462 to R465: Agate: each SPDM request in its state and of its length is answered as its rule says, one of another version, in another
state or with an unknown code by an ERROR; MBOX_SEND sends the reply; the operations of ENG_CMD act on contexts, slots and SRAM and clear FAIL, or
are refused and set it. What the routine's registers and scratch hold after a reply (leaves, scratch, signed) follows its listing (log 91).
The model's own choices and readings that it rests on: log 9, 91, 97, 98, 124, 175. -/
def Obligations.SecurityEvents : Prop :=
  ∀ (s : State) (p : Nat) (req : List Byte) (cx cy : BitVec 4) (len : BitVec 13),
    let g := s.agate
    let a := g.enter p req
    let v := field req 0 1
    (SpdmGo s p req →
      let answers (i : Instr) (r : Agate × List Byte) : Prop := Replies i s p req r
      (reqCode req = 0x84 → v = 0x10 → req.length = 4 →
        answers (.getVersion p req)
          ((((a.setCtx (4 * p) []).both (4 * p) req (a.template tVer)).setPath p 1).leaves repBuf repBuf, a.template tVer)) ∧
      (reqCode req = 0xE1 → v = 0x14 → a.pathState p = 1 → req.length = 20 →
        answers (.getCapabilities p req)
          (((a.both (4 * p) req (a.template tCap)).setPath p 2).leaves repBuf repBuf, a.template tCap)) ∧
      (reqCode req = 0xE3 → v = 0x14 → a.pathState p = 2 → 32 ≤ req.length → field req 4 2 = req.length →
        let b := a.both (4 * p) req (a.template tAlg)
        answers (.negotiateAlgorithms p req)
          ((((b.setCtx (4 * p + 1) (b.ctx (4 * p))).setCtx (4 * p + 2) (b.ctx (4 * p))).setPath p 3).leaves repBuf repBuf, a.template tAlg)) ∧
      (reqCode req = 0x81 → v = 0x14 → a.pathState p = 3 → req.length = 4 →
        answers (.getDigests p req) ((a.both (4 * p + 1) req (a.template tDig)).leaves repBuf repBuf, a.template tDig)) ∧
      (reqCode req = 0x82 → v = 0x14 → a.pathState p = 3 → field req 2 1 = 0 → req.length = 8 →
        let chain := leNat (a.get tCert 8)
        let ofs := field req 4 2
        let n := min (min (field req 6 2) (chain - ofs)) 4000
        let rep := leBytes 4 0x0214 ++ leBytes 2 n ++ leBytes 2 (chain - ofs - n) ++ a.get (tCert + 8 + ofs) n
        ofs < chain → answers (.getCertificate p req) ((a.both (4 * p + 1) req rep).leaves repBuf (repBuf + 8), rep)) ∧
      (reqCode req = 0x83 → v = 0x14 → a.pathState p = 3 → field req 2 1 = 0 → req.length = 44 →
        (field req 3 1 = 0 ∨ field req 3 1 = 1 ∨ field req 3 1 = 0xFF) →
        let sum := if field req 3 1 = 0 then [] else sha3 ((List.range 8).flatMap a.block)
        let rep := leBytes 4 0x01000314 ++ a.get (tDig + 12) 32 ++ drbgBytes s.fresh 32 ++ sum ++ leBytes 2 0 ++ (req.drop 36).take 8
        let b := (if field req 3 1 = 0 then a else a.scratch p).both (4 * p + 1) req rep
        let d := sha3 (b.ctx (4 * p + 1))
        answers (.challenge p req)
          (((b.put scrBuf2 d).setCtx (4 * p + 1) (b.ctx (4 * p))).leaves scrBuf2 (repBuf + rep.length), rep ++ signature b.key 0 d)) ∧
      (reqCode req = 0xE0 → v = 0x14 → a.pathState p = 3 → field req 3 1 = 0 ∨ field req 3 1 = 0xFF ∨ field req 3 1 ≤ 8 →
        let p2 := field req 3 1
        let blocks := if p2 = 0 then [] else if p2 = 0xFF then (List.range 8).flatMap a.block else a.block (p2 - 1)
        let rep (k : Nat) : List Byte := leBytes 4 (0x6014 + if p2 = 0 then 0x80000 else 0) ++
          leBytes 1 (if p2 = 0 then 0 else if p2 = 0xFF then 8 else 1) ++ leBytes 3 blocks.length ++ blocks ++ drbgBytes s.fresh 32 ++ leBytes 2 0 ++
          (req.drop k).take 8
        (field req 2 1 = 0 → req.length = 12 →
          answers (.getMeasurements p req) ((a.both (4 * p + 2) req (rep 4)).leaves repBuf (repBuf + 42 + blocks.length), rep 4)) ∧
        (field req 2 1 = 1 → field req 36 1 = 0 → req.length = 45 →
          let b := a.both (4 * p + 2) req (rep 37)
          let d := sha3 (b.ctx (4 * p + 2))
          answers (.getMeasurements p req)
            (((b.put scrBuf2 d).setCtx (4 * p + 2) (b.ctx (4 * p))).leaves scrBuf2 (repBuf + (rep 37).length), rep 37 ++ signature b.key 1 d))) ∧
      (∀ i need, ((reqCode req = 0xE1 ∧ i = .getCapabilities p req ∧ need = 1) ∨ (reqCode req = 0xE3 ∧ i = .negotiateAlgorithms p req ∧ need = 2) ∨
          (reqCode req = 0x81 ∧ i = .getDigests p req ∧ need = 3) ∨ (reqCode req = 0x82 ∧ i = .getCertificate p req ∧ need = 3) ∨
          (reqCode req = 0x83 ∧ i = .challenge p req ∧ need = 3) ∨ (reqCode req = 0xE0 ∧ i = .getMeasurements p req ∧ need = 3)) →
        (v ≠ 0x14 → answers i (a, spdmError 0x41 0)) ∧ (v = 0x14 → a.pathState p ≠ need → answers i (a, spdmError 0x04 0))) ∧
      (spdmCodes.contains (reqCode req) = false →
        (v = 0x14 → answers (.spdmUnsupportedRequest p req) (a, spdmError 0x07 (reqCode req))) ∧
        (v ≠ 0x14 → answers (.spdmUnsupportedRequest p req) (a, spdmError 0x41 0)))) ∧
    Leaves (.mboxSend len) s { s with agate := g.send len.toNat } ∧
    (let ok (i : Instr) (b : Agate) : Prop := Leaves i s { s with agate := { b with fail := false } }
     let no (i : Instr) : Prop := Leaves i s { s with agate := { g with fail := true } }
     (cx.toNat < 12 → ok (.engInit cx) (g.setCtx cx.toNat []) ∧
       ok (.engAbsorb cx len) (g.setCtx cx.toNat (g.ctx cx.toNat ++ g.get g.src len.toNat)) ∧
       ok (.engDigest cx) (g.put g.dst (sha3 (g.ctx cx.toNat))) ∧
       (cy.toNat < 12 → ok (.engClone cx cy) (g.setCtx cx.toNat (g.ctx cy.toNat)))) ∧
     (12 ≤ cx.toNat → no (.engInit cx) ∧ no (.engAbsorb cx len) ∧ no (.engDigest cx) ∧ no (.engClone cx cy)) ∧
     (cx.toNat < 8 → ok (.engMblock cx) (g.put g.dst (g.block cx.toNat)) ∧
       (g.locked = false → ok (.engExtend cx) { g with
         ms := vset g.ms cx.toNat (digestNat (sha3 (digestBytes (vget g.ms cx.toNat 0#256) ++ g.get g.src 32))) }) ∧
       (g.locked = true → no (.engExtend cx))) ∧
     (cy.toNat < 2 → ok (.engSign cy) (g.put g.dst (signature g.key cy.toNat (g.get g.src 32)))) ∧
     ok (.engRand len) (g.put g.dst (drbgBytes s.fresh len.toNat)) ∧ ok (.engMove len) (g.put g.dst (g.get g.src len.toNat)))
end

