-- ==== Sys2Proof/Laws/Issue.lean ====
section
/-! SUPPORT. What the shared frames of control words and engine words answer: one lemma for each way a word completes. -/

namespace Sys2Proof.Machine

open Sys2Proof

/-- No asynchronous cause is taken before a control word that executes. -/
theorem no_async {s : State} (h : s.th.inh = true ∨ s.th.ph.stage ≠ 0 ∨ s.th.async = []) :
    s.th.asyncDue = none := by
  rcases h with h | h | h <;> simp [Thread.asyncDue, h]

/-- No marker and no ordered atomic holds a control word that executes. -/
theorem no_order {s : State} (h : s.th.orderPending = false ∨ s.th.ph ≠ Phase.none) :
    (s.th.orderPending && s.th.ph == Phase.none) = false := by
  rcases h with h | h <;> simp [h]

/-- A control word that executes does not wait for its horizon. -/
theorem no_horizon {s : State} {hz : Bool} (h : hz = true → s.th.atHorizon = true) : (hz && !s.th.atHorizon) = false := by
  cases hz with
  | false => rfl
  | true => simp [h rfl]

/-- A word that has not waited for memory runs in the state as it is (R72). -/
theorem borrow_eq {s : State} {k seq : Nat} {q : Sq} (h : ((s.thread k).passed.any fun p => p.seq == seq && p.sq == q) = false) :
    s.borrow k seq q = s := by
  have e : ((s.thread k).passed.find? fun p => p.seq == seq && p.sq == q) = none := by
    simpa [List.find?_eq_none] using h
  simp [State.borrow, e]

/-- A word that has not waited for memory leaves the state as its body does (R72). -/
theorem giveBack_eq {s s0 : State} {k seq : Nat} {q : Sq} {w : Bool}
    (h : ((s0.thread k).passed.any fun p => p.seq == seq && p.sq == q) = false) : s.giveBack s0 k seq q w = s := by
  simp only [State.giveBack, h, Bool.false_eq_true, if_false]

/-- A control word that executes, whose body succeeds, without a late cause, in its own plane: its effect, and the thread after the word. -/
theorem ctl_ok {eng : Eng} {hz : Bool} {w : W32} {body : State → M CtlRes} {s : State} {r : CtlRes}
    (h : CtlGo s hz) (hb : body s = .ok r) (hg : r.gone = false) (hl : r.late = none) :
    ctl eng hz w body s = .next (r.s.modThread s.me fun t => t.ctlDone r.pc) := by
  obtain ⟨ha, hp, hw, ho, hh⟩ := h
  have hb' : body (s.borrow s.me s.th.seq .ctl) = _ := (borrow_eq hw) ▸ hb
  have e := no_async ha
  have ho' := no_order ho
  have hh' := no_horizon hh
  unfold ctl
  dsimp only
  rw [e]
  dsimp only [ctlOwn]
  simp [hp, ho', hh', hb', giveBack_eq hw, hg, hl]

/-- A control word that executes and leaves its plane answers the state of its body. -/
theorem ctl_gone {eng : Eng} {hz : Bool} {w : W32} {body : State → M CtlRes} {s : State} {r : CtlRes}
    (h : CtlGo s hz) (hb : body s = .ok r) (hg : r.gone = true) : ctl eng hz w body s = .next r.s := by
  obtain ⟨ha, hp, hw, ho, hh⟩ := h
  have hb' : body (s.borrow s.me s.th.seq .ctl) = _ := (borrow_eq hw) ▸ hb
  have e := no_async ha
  have ho' := no_order ho
  have hh' := no_horizon hh
  unfold ctl
  dsimp only
  rw [e]
  dsimp only [ctlOwn]
  simp [hp, ho', hh', hb', giveBack_eq hw, hg]

/-- A control word that executes with a late cause: its effect, the thread after the word, and the cause raised at what follows. -/
theorem ctl_late {eng : Eng} {hz : Bool} {w : W32} {body : State → M CtlRes} {s : State} {r : CtlRes} {c : Cause}
    (h : CtlGo s hz) (hb : body s = .ok r) (hg : r.gone = false) (hl : r.late = some c) :
    ctl eng hz w body s =
      (let t := r.s.modThread s.me fun t => t.ctlDone r.pc
       .next (t.raiseAt s.me { s.th.ctlFault eng c with
         seq := (t.thread s.me).seq, pc := (t.thread s.me).pc, rep := none, snap := (t.thread s.me).snap, after := (t.thread s.me).pc, late := true })) := by
  obtain ⟨ha, hp, hw, ho, hh⟩ := h
  have hb' : body (s.borrow s.me s.th.seq .ctl) = _ := (borrow_eq hw) ▸ hb
  have e := no_async ha
  have ho' := no_order ho
  have hh' := no_horizon hh
  unfold ctl
  dsimp only
  rw [e]
  dsimp only [ctlOwn]
  simp [hp, ho', hh', hb', giveBack_eq hw, hg, hl]

/-- A control word whose predicate fails has no effect but to pass (R271). -/
theorem ctl_skip {eng : Eng} {hz : Bool} {w : W32} {body : State → M CtlRes} {s : State}
    (ha : s.th.inh = true ∨ s.th.ph.stage ≠ 0 ∨ s.th.async = []) (hp : s.th.predFails = true) :
    ctl eng hz w body s = .next (s.setTh (s.th.ctlDone none)) := by
  have e := no_async ha
  unfold ctl
  dsimp only
  rw [e]
  dsimp only [ctlOwn]
  simp [hp]

/-- An engine word whose unit has been taken up, with its tokens and its permit there, whose lines and bytes fit beside what is on its way,
issues with what its body answers. -/
theorem engWord_ok {eng : Eng} {i : Instr} {body : QUnit → State → M EngRes} {s : State} {c : Cur} {r : EngRes}
    (h : IssueGo s eng c i) (hb : body c.unit (s.issuing c) = .ok r) (hm : r.more = none) (hf : s.th.fits c.sq r = true) :
    engWord eng (wordOf i) body s = .next ((r.holding c.sq s.th).issued s.me eng c (wordOf i)) := by
  obtain ⟨hc, ht, hp, hw⟩ := h
  have hp' : (s.issuing c).hasPermit s.me c.sq (permitClass eng) = true := hp
  have hw' : (((s.issuing c).thread s.me).passed.any fun p => p.seq == c.unit.seq && p.sq == c.sq) = false := hw
  have hb' : body c.unit ((s.issuing c).borrow s.me c.unit.seq c.sq) = .ok r := by rw [borrow_eq hw']; exact hb
  have hr (w : Bool) : r.s.giveBack (s.issuing c) s.me c.unit.seq c.sq w = r.s := giveBack_eq hw'
  simp only [engWord, hc, issueUnit, ht, hp', hb', hr, Bool.not_true, Bool.false_eq_true, if_false]
  rw [if_neg (by simpa using hf)]
  cases r
  cases hm
  rfl

/-- A control word that executes and whose body raises a cause raises it at its own unit. -/
theorem ctl_err {eng : Eng} {hz : Bool} {w : W32} {body : State → M CtlRes} {s : State} {c : Cause}
    (h : CtlGo s hz) (hb : body s = .error (.cause c)) :
    ctl eng hz w body s = .next (s.raiseAt s.me (s.th.ctlFault eng c)) := by
  obtain ⟨ha, hp, hw, ho, hh⟩ := h
  have hb' : body (s.borrow s.me s.th.seq .ctl) = _ := (borrow_eq hw) ▸ hb
  have e := no_async ha
  have ho' := no_order ho
  have hh' := no_horizon hh
  unfold ctl
  dsimp only
  rw [e]
  dsimp only [ctlOwn]
  simp [hp, ho', hh', hb']

/-- A control word that executes and whose body finds it illegal raises ILLEGAL_OP with the checker's TRAP_INFO. -/
theorem ctl_illegal {eng : Eng} {hz : Bool} {w : W32} {body : State → M CtlRes} {s : State}
    (h : CtlGo s hz) (hb : body s = .error .illegal) :
    ctl eng hz w body s = .next (s.raiseAt s.me (s.th.ctlFault eng ⟨cIllegalOp, 0, s.th.pfx.length * 2 ^ 32 + w.toNat⟩)) := by
  obtain ⟨ha, hp, hw, ho, hh⟩ := h
  have hb' : body (s.borrow s.me s.th.seq .ctl) = _ := (borrow_eq hw) ▸ hb
  have e := no_async ha
  have ho' := no_order ho
  have hh' := no_horizon hh
  unfold ctl
  dsimp only
  rw [e]
  dsimp only [ctlOwn]
  simp [hp, ho', hh', hb']

/-- An engine word that may issue and whose own check raises a cause raises it at its unit (R372). -/
theorem engWord_err {eng : Eng} {i : Instr} {body : QUnit → State → M EngRes} {s : State} {c : Cur} {x : Cause}
    (h : IssueGo s eng c i) (hb : body c.unit (s.issuing c) = .error (.cause x)) :
    engWord eng (wordOf i) body s = .next ((s.issuing c).raiseAt s.me (s.th.engFault eng c.sq c.loop c.unit x)) := by
  obtain ⟨hc, ht, hp, hw⟩ := h
  have hp' : (s.issuing c).hasPermit s.me c.sq (permitClass eng) = true := hp
  have hw' : (((s.issuing c).thread s.me).passed.any fun p => p.seq == c.unit.seq && p.sq == c.sq) = false := hw
  have hb' : body c.unit ((s.issuing c).borrow s.me c.unit.seq c.sq) = _ := (borrow_eq hw').symm ▸ hb
  simp [engWord, issueUnit, hc, ht, hp', hb']

/-- An engine word that may issue and that its own meaning refuses raises ILLEGAL_OP at its unit (R260). -/
theorem engWord_illegal {eng : Eng} {i : Instr} {body : QUnit → State → M EngRes} {s : State} {c : Cur}
    (h : IssueGo s eng c i) (hb : body c.unit (s.issuing c) = .error .illegal) :
    engWord eng (wordOf i) body s = .next ((s.issuing c).raiseAt s.me
      (s.th.engFault eng c.sq c.loop c.unit ⟨cIllegalOp, 0, c.unit.pfx.length * 2 ^ 32 + (wordOf i).toNat⟩)) := by
  obtain ⟨hc, ht, hp, hw⟩ := h
  have hp' : (s.issuing c).hasPermit s.me c.sq (permitClass eng) = true := hp
  have hw' : (((s.issuing c).thread s.me).passed.any fun p => p.seq == c.unit.seq && p.sq == c.sq) = false := hw
  have hb' : body c.unit ((s.issuing c).borrow s.me c.unit.seq c.sq) = _ := (borrow_eq hw').symm ▸ hb
  simp [engWord, issueUnit, hc, ht, hp', hb']

/-- What a control or system word comes to of its own is a next state. -/
theorem ctlOwn_total (eng : Eng) (hz : Bool) (w : W32) (body : State → M CtlRes) (s : State) :
    ∃ t, (ctlOwn eng hz w body s).1 = .next t := by
  unfold ctlOwn
  dsimp only
  repeat' split
  all_goals exact ⟨_, rfl⟩

/-- Every control and system word answers a next state. -/
theorem ctl_total (eng : Eng) (hz : Bool) (w : W32) (body : State → M CtlRes) (s : State) : ∃ t, ctl eng hz w body s = .next t := by
  unfold ctl
  dsimp only
  repeat' split
  all_goals first | exact ⟨_, rfl⟩ | exact ctlOwn_total eng hz w body s

/-- Every issue answers a next state. -/
theorem issueUnit_total (eng : Eng) (c : Cur) (w : W32) (body : QUnit → State → M EngRes) (s : State) :
    ∃ t, issueUnit eng c w body s = .next t := by
  unfold issueUnit
  dsimp only
  repeat' split
  all_goals exact ⟨_, rfl⟩

/-- Every engine word answers a next state. -/
theorem engWord_total (eng : Eng) (w : W32) (body : QUnit → State → M EngRes) (s : State) : ∃ t, engWord eng w body s = .next t := by
  unfold engWord
  dsimp only
  split
  · exact issueUnit_total _ _ _ _ _
  · repeat' split
    all_goals first | exact ⟨_, rfl⟩ | exact issueUnit_total _ _ _ _ _

end Sys2Proof.Machine
end

