-- ==== Sys2Proof/Laws/Word.lean ====
section
/-! SUPPORT. Tables: what a lookup finds after an entry is put or removed. -/

namespace Sys2Proof

variable {α : Type}

/-- A table lists its keys in strictly rising order. -/
abbrev Tab.Sorted (t : Tab α) : Prop := t.Pairwise fun a b => a.1 < b.1

/-- The key just put is found. -/
@[simp] theorem Tab.find_put_self (k : Nat) (v : α) (t : Tab α) : Tab.find k (Tab.put k v t) = some v := by
  induction t with
  | nil => simp [Tab.put, Tab.find]
  | cons e r ih =>
    obtain ⟨j, u⟩ := e
    by_cases h : j = k
    · simp [Tab.put, Tab.find, h]
    · by_cases h2 : j < k
      · simp [Tab.put, Tab.find, h, h2, ih]
      · simp [Tab.put, Tab.find, h, h2]

/-- Every other key is found as before. -/
theorem Tab.find_put_ne {k i : Nat} (h : i ≠ k) (v : α) (t : Tab α) : Tab.find i (Tab.put k v t) = Tab.find i t := by
  induction t with
  | nil =>
    have : k ≠ i := fun e => h e.symm
    simp [Tab.put, Tab.find, this]
  | cons e r ih =>
    obtain ⟨j, u⟩ := e
    have hk : k ≠ i := fun e => h e.symm
    by_cases h1 : j = k
    · subst h1
      simp [Tab.put, Tab.find, hk]
    · by_cases h2 : j < k
      · simp [Tab.put, Tab.find, h1, h2, ih]
      · have h3 : k < j := by omega
        by_cases h4 : k < i
        · simp [Tab.put, Tab.find, h1, h2, hk, h4]
        · have h5 : ¬ j < i := by omega
          have h6 : j ≠ i := by omega
          simp [Tab.put, Tab.find, h1, h2, hk, h4, h5, h6]

@[simp] theorem Tab.getD_put_self (k : Nat) (v d : α) (t : Tab α) : Tab.getD (Tab.put k v t) k d = v := by
  simp [Tab.getD]

theorem Tab.getD_put_ne {k i : Nat} (h : i ≠ k) (v d : α) (t : Tab α) : Tab.getD (Tab.put k v t) i d = Tab.getD t i d := by
  simp [Tab.getD, Tab.find_put_ne h]

/-- A key below every listed one is not found. -/
theorem Tab.find_none {k : Nat} {t : Tab α} (h : ∀ e ∈ t, k < e.1) : Tab.find k t = none := by
  cases t with
  | nil => rfl
  | cons e r =>
    have := h e (by simp)
    have h1 : ¬ e.1 = k := by omega
    have h2 : ¬ e.1 < k := by omega
    simp [Tab.find, h1, h2]

/-- In a sorted table a removed key is not found. -/
theorem Tab.find_del_self {k : Nat} {t : Tab α} (h : t.Sorted) : Tab.find k (Tab.del k t) = none := by
  induction t with
  | nil => rfl
  | cons e r ih =>
    obtain ⟨j, u⟩ := e
    obtain ⟨h1, h2⟩ := List.pairwise_cons.mp h
    by_cases hj : j = k
    · subst hj
      simpa [Tab.del] using Tab.find_none (t := r) (fun e he => h1 e he)
    · by_cases hl : j < k
      · simp [Tab.del, hj, hl, Tab.find, ih h2]
      · simp [Tab.del, hj, hl, Tab.find]

/-- In a sorted table every other key is found as before. -/
theorem Tab.find_del_ne {k i : Nat} {t : Tab α} (h : t.Sorted) (hi : i ≠ k) : Tab.find i (Tab.del k t) = Tab.find i t := by
  induction t with
  | nil => rfl
  | cons e r ih =>
    obtain ⟨j, u⟩ := e
    obtain ⟨h1, h2⟩ := List.pairwise_cons.mp h
    by_cases hj : j = k
    · subst hj
      have hji : j ≠ i := fun e => hi e.symm
      by_cases hl : j < i
      · simp [Tab.del, Tab.find, hji, hl]
      · have : Tab.find i r = none := Tab.find_none fun e he => by
          have : j < e.1 := h1 e he
          omega
        simp [Tab.del, Tab.find, hji, hl, this]
    · by_cases hl : j < k
      · simp [Tab.del, hj, hl, Tab.find, ih h2]
      · simp [Tab.del, hj, hl]

/-- A put lists no key but its own and those listed before. -/
theorem Tab.mem_put {k : Nat} {v : α} {t : Tab α} {e : Nat × α} (h : e ∈ Tab.put k v t) : e = (k, v) ∨ e ∈ t := by
  induction t with
  | nil => simpa [Tab.put] using h
  | cons f r ih =>
    obtain ⟨j, u⟩ := f
    by_cases hj : j = k
    · simp [Tab.put, hj] at h
      rcases h with h | h <;> simp [h]
    · by_cases hl : j < k
      · simp [Tab.put, hj, hl] at h
        rcases h with h | h
        · simp [h]
        · rcases ih h with h | h <;> simp [h]
      · simpa [Tab.put, hj, hl] using h

theorem Tab.mem_del {k : Nat} {t : Tab α} {e : Nat × α} (h : e ∈ Tab.del k t) : e ∈ t := by
  induction t with
  | nil => simp [Tab.del] at h
  | cons f r ih =>
    obtain ⟨j, u⟩ := f
    by_cases hj : j = k
    · simp [Tab.del, hj] at h
      simp [h]
    · by_cases hl : j < k
      · simp [Tab.del, hj, hl] at h
        rcases h with h | h
        · simp [h]
        · simp [ih h]
      · simpa [Tab.del, hj, hl] using h

/-- A put keeps the order. -/
theorem Tab.Sorted.put {t : Tab α} (h : t.Sorted) (k : Nat) (v : α) : (Tab.put k v t).Sorted := by
  induction t with
  | nil => simp [Tab.put]
  | cons f r ih =>
    obtain ⟨j, u⟩ := f
    obtain ⟨h1, h2⟩ := List.pairwise_cons.mp h
    by_cases hj : j = k
    · subst hj
      simpa [Tab.put] using ⟨fun a b hab => h1 (a, b) hab, h2⟩
    · by_cases hl : j < k
      · simp only [Tab.put, hj, hl, if_true, if_false]
        refine List.pairwise_cons.mpr ⟨fun e he => ?_, ih h2⟩
        rcases Tab.mem_put he with rfl | he
        · exact hl
        · exact h1 e he
      · simp only [Tab.put, hj, hl, if_false]
        refine List.pairwise_cons.mpr ⟨fun e he => ?_, h⟩
        rcases List.mem_cons.mp he with rfl | he
        · show k < j
          omega
        · have : j < e.1 := h1 e he
          show k < e.1
          omega

/-- A removal keeps the order. -/
theorem Tab.Sorted.del {t : Tab α} (h : t.Sorted) (k : Nat) : (Tab.del k t).Sorted := by
  induction t with
  | nil => simp [Tab.del]
  | cons f r ih =>
    obtain ⟨j, u⟩ := f
    obtain ⟨h1, h2⟩ := List.pairwise_cons.mp h
    by_cases hj : j = k
    · simpa [Tab.del, hj] using h2
    · by_cases hl : j < k
      · simp only [Tab.del, hj, hl, if_true, if_false]
        exact List.pairwise_cons.mpr ⟨fun e he => h1 e (Tab.mem_del he), ih h2⟩
      · simpa only [Tab.del, hj, hl, if_false] using h

end Sys2Proof
end

