-- ==== Sys2Proof/Laws/State.lean ====
section
/-! SUPPORT. What each named update of the state, and of a thread's registers, leaves of every field. -/

namespace Sys2Proof.Machine

open Sys2Proof

/-! ## Vectors -/

@[simp] theorem vget_vset_self {α : Type} {n : Nat} (v : Vector α n) (i : Nat) (x d : α) (h : i < n) : vget (vset v i x) i d = x := by
  simp [vget, vset, h]

@[simp] theorem vget_vset_ne {α : Type} {n : Nat} (v : Vector α n) {i j : Nat} (x d : α) (h : j ≠ i) : vget (vset v i x) j d = vget v j d := by
  have h2 : i ≠ j := fun e => h e.symm
  simp only [vget, vset]
  by_cases hj : j < n
  · simp [hj, h2]
  · simp [hj]

/-! ## Updates of one part of the state -/

@[simp] theorem setThread_mem (s : State) (k : Nat) (x : Thread) : (s.setThread k x).mem = s.mem := rfl
@[simp] theorem setThread_poison (s : State) (k : Nat) (x : Thread) : (s.setThread k x).poison = s.poison := rfl
@[simp] theorem setThread_now (s : State) (k : Nat) (x : Thread) : (s.setThread k x).now = s.now := rfl
@[simp] theorem setThread_cores (s : State) (k : Nat) (x : Thread) : (s.setThread k x).cores = s.cores := rfl
@[simp] theorem setThread_clusters (s : State) (k : Nat) (x : Thread) : (s.setThread k x).clusters = s.clusters := rfl
@[simp] theorem setThread_dies (s : State) (k : Nat) (x : Thread) : (s.setThread k x).dies = s.dies := rfl
@[simp] theorem setThread_hbm (s : State) (k : Nat) (x : Thread) : (s.setThread k x).hbm = s.hbm := rfl
@[simp] theorem setThread_lpOn (s : State) (k : Nat) (x : Thread) : (s.setThread k x).lpOn = s.lpOn := rfl
@[simp] theorem setThread_lpRefresh (s : State) (k : Nat) (x : Thread) : (s.setThread k x).lpRefresh = s.lpRefresh := rfl
@[simp] theorem setThread_bursts (s : State) (k : Nat) (x : Thread) : (s.setThread k x).bursts = s.bursts := rfl
@[simp] theorem setThread_heldWrites (s : State) (k : Nat) (x : Thread) : (s.setThread k x).heldWrites = s.heldWrites := rfl
@[simp] theorem setThread_tasks (s : State) (k : Nat) (x : Thread) : (s.setThread k x).tasks = s.tasks := rfl
@[simp] theorem setThread_slots (s : State) (k : Nat) (x : Thread) : (s.setThread k x).slots = s.slots := rfl
@[simp] theorem setThread_slotSeq (s : State) (k : Nat) (x : Thread) : (s.setThread k x).slotSeq = s.slotSeq := rfl
@[simp] theorem setThread_ctxs (s : State) (k : Nat) (x : Thread) : (s.setThread k x).ctxs = s.ctxs := rfl
@[simp] theorem setThread_ring (s : State) (k : Nat) (x : Thread) : (s.setThread k x).ring = s.ring := rfl
@[simp] theorem setThread_sched (s : State) (k : Nat) (x : Thread) : (s.setThread k x).sched = s.sched := rfl
@[simp] theorem setThread_energy (s : State) (k : Nat) (x : Thread) : (s.setThread k x).energy = s.energy := rfl
@[simp] theorem setThread_evq (s : State) (k : Nat) (x : Thread) : (s.setThread k x).evq = s.evq := rfl
@[simp] theorem setThread_errs (s : State) (k : Nat) (x : Thread) : (s.setThread k x).errs = s.errs := rfl
@[simp] theorem setThread_banks (s : State) (k : Nat) (x : Thread) : (s.setThread k x).banks = s.banks := rfl
@[simp] theorem setThread_latent (s : State) (k : Nat) (x : Thread) : (s.setThread k x).latent = s.latent := rfl
@[simp] theorem setThread_copies (s : State) (k : Nat) (x : Thread) : (s.setThread k x).copies = s.copies := rfl
@[simp] theorem setThread_copySlot (s : State) (k : Nat) (x : Thread) : (s.setThread k x).copySlot = s.copySlot := rfl
@[simp] theorem setThread_slotTabs (s : State) (k : Nat) (x : Thread) : (s.setThread k x).slotTabs = s.slotTabs := rfl
@[simp] theorem setThread_slotNext (s : State) (k : Nat) (x : Thread) : (s.setThread k x).slotNext = s.slotNext := rfl
@[simp] theorem setThread_portSlot (s : State) (k : Nat) (x : Thread) : (s.setThread k x).portSlot = s.portSlot := rfl
@[simp] theorem setThread_barAdds (s : State) (k : Nat) (x : Thread) : (s.setThread k x).barAdds = s.barAdds := rfl
@[simp] theorem setThread_colls (s : State) (k : Nat) (x : Thread) : (s.setThread k x).colls = s.colls := rfl
@[simp] theorem setThread_comms (s : State) (k : Nat) (x : Thread) : (s.setThread k x).comms = s.comms := rfl
@[simp] theorem setThread_peers (s : State) (k : Nat) (x : Thread) : (s.setThread k x).peers = s.peers := rfl
@[simp] theorem setThread_collRecs (s : State) (k : Nat) (x : Thread) : (s.setThread k x).collRecs = s.collRecs := rfl
@[simp] theorem setThread_peerWrote (s : State) (k : Nat) (x : Thread) : (s.setThread k x).peerWrote = s.peerWrote := rfl
@[simp] theorem setThread_sysRel (s : State) (k : Nat) (x : Thread) : (s.setThread k x).sysRel = s.sysRel := rfl
@[simp] theorem setThread_eth (s : State) (k : Nat) (x : Thread) : (s.setThread k x).eth = s.eth := rfl
@[simp] theorem setThread_ports (s : State) (k : Nat) (x : Thread) : (s.setThread k x).ports = s.ports := rfl
@[simp] theorem setThread_win (s : State) (k : Nat) (x : Thread) : (s.setThread k x).win = s.win := rfl
@[simp] theorem setThread_qBound (s : State) (k : Nat) (x : Thread) : (s.setThread k x).qBound = s.qBound := rfl
@[simp] theorem setThread_qPort (s : State) (k : Nat) (x : Thread) : (s.setThread k x).qPort = s.qPort := rfl
@[simp] theorem setThread_shoots (s : State) (k : Nat) (x : Thread) : (s.setThread k x).shoots = s.shoots := rfl
@[simp] theorem setThread_snapRoots (s : State) (k : Nat) (x : Thread) : (s.setThread k x).snapRoots = s.snapRoots := rfl
@[simp] theorem setThread_telem (s : State) (k : Nat) (x : Thread) : (s.setThread k x).telem = s.telem := rfl
@[simp] theorem setThread_agate (s : State) (k : Nat) (x : Thread) : (s.setThread k x).agate = s.agate := rfl
@[simp] theorem setThread_boot (s : State) (k : Nat) (x : Thread) : (s.setThread k x).boot = s.boot := rfl
@[simp] theorem setThread_parkedList (s : State) (k : Nat) (x : Thread) : (s.setThread k x).parkedList = s.parkedList := rfl
@[simp] theorem setThread_turns (s : State) (k : Nat) (x : Thread) : (s.setThread k x).turns = s.turns := rfl
@[simp] theorem setThread_focus (s : State) (k : Nat) (x : Thread) : (s.setThread k x).focus = s.focus := rfl
@[simp] theorem setThread_cur (s : State) (k : Nat) (x : Thread) : (s.setThread k x).cur = s.cur := rfl
@[simp] theorem setThread_uids (s : State) (k : Nat) (x : Thread) : (s.setThread k x).uids = s.uids := rfl
@[simp] theorem setThread_fresh (s : State) (k : Nat) (x : Thread) : (s.setThread k x).fresh = s.fresh := rfl
@[simp] theorem setThread_me (s : State) (k : Nat) (x : Thread) : (s.setThread k x).me = s.me := rfl
@[simp] theorem setThread_core (s : State) (k : Nat) (x : Thread) (i : Nat) : (s.setThread k x).core i = s.core i := rfl
@[simp] theorem setThread_cluster (s : State) (k : Nat) (x : Thread) (i : Nat) : (s.setThread k x).cluster i = s.cluster i := rfl
@[simp] theorem setThread_die (s : State) (k : Nat) (x : Thread) (i : Nat) : (s.setThread k x).die i = s.die i := rfl
@[simp] theorem setThread_stack (s : State) (k : Nat) (x : Thread) (i : Nat) : (s.setThread k x).stack i = s.stack i := rfl
@[simp] theorem setThread_port (s : State) (k : Nat) (x : Thread) (i : Nat) : (s.setThread k x).port i = s.port i := rfl
@[simp] theorem setThread_taskOf (s : State) (k : Nat) (x : Thread) (i : Nat) : (s.setThread k x).taskOf i = s.taskOf i := rfl

@[simp] theorem modThread_mem (s : State) (k : Nat) (f : Thread → Thread) : (s.modThread k f).mem = s.mem := rfl
@[simp] theorem modThread_poison (s : State) (k : Nat) (f : Thread → Thread) : (s.modThread k f).poison = s.poison := rfl
@[simp] theorem modThread_now (s : State) (k : Nat) (f : Thread → Thread) : (s.modThread k f).now = s.now := rfl
@[simp] theorem modThread_cores (s : State) (k : Nat) (f : Thread → Thread) : (s.modThread k f).cores = s.cores := rfl
@[simp] theorem modThread_clusters (s : State) (k : Nat) (f : Thread → Thread) : (s.modThread k f).clusters = s.clusters := rfl
@[simp] theorem modThread_dies (s : State) (k : Nat) (f : Thread → Thread) : (s.modThread k f).dies = s.dies := rfl
@[simp] theorem modThread_hbm (s : State) (k : Nat) (f : Thread → Thread) : (s.modThread k f).hbm = s.hbm := rfl
@[simp] theorem modThread_lpOn (s : State) (k : Nat) (f : Thread → Thread) : (s.modThread k f).lpOn = s.lpOn := rfl
@[simp] theorem modThread_lpRefresh (s : State) (k : Nat) (f : Thread → Thread) : (s.modThread k f).lpRefresh = s.lpRefresh := rfl
@[simp] theorem modThread_bursts (s : State) (k : Nat) (f : Thread → Thread) : (s.modThread k f).bursts = s.bursts := rfl
@[simp] theorem modThread_heldWrites (s : State) (k : Nat) (f : Thread → Thread) : (s.modThread k f).heldWrites = s.heldWrites := rfl
@[simp] theorem modThread_tasks (s : State) (k : Nat) (f : Thread → Thread) : (s.modThread k f).tasks = s.tasks := rfl
@[simp] theorem modThread_slots (s : State) (k : Nat) (f : Thread → Thread) : (s.modThread k f).slots = s.slots := rfl
@[simp] theorem modThread_slotSeq (s : State) (k : Nat) (f : Thread → Thread) : (s.modThread k f).slotSeq = s.slotSeq := rfl
@[simp] theorem modThread_ctxs (s : State) (k : Nat) (f : Thread → Thread) : (s.modThread k f).ctxs = s.ctxs := rfl
@[simp] theorem modThread_ring (s : State) (k : Nat) (f : Thread → Thread) : (s.modThread k f).ring = s.ring := rfl
@[simp] theorem modThread_sched (s : State) (k : Nat) (f : Thread → Thread) : (s.modThread k f).sched = s.sched := rfl
@[simp] theorem modThread_energy (s : State) (k : Nat) (f : Thread → Thread) : (s.modThread k f).energy = s.energy := rfl
@[simp] theorem modThread_evq (s : State) (k : Nat) (f : Thread → Thread) : (s.modThread k f).evq = s.evq := rfl
@[simp] theorem modThread_errs (s : State) (k : Nat) (f : Thread → Thread) : (s.modThread k f).errs = s.errs := rfl
@[simp] theorem modThread_banks (s : State) (k : Nat) (f : Thread → Thread) : (s.modThread k f).banks = s.banks := rfl
@[simp] theorem modThread_latent (s : State) (k : Nat) (f : Thread → Thread) : (s.modThread k f).latent = s.latent := rfl
@[simp] theorem modThread_copies (s : State) (k : Nat) (f : Thread → Thread) : (s.modThread k f).copies = s.copies := rfl
@[simp] theorem modThread_copySlot (s : State) (k : Nat) (f : Thread → Thread) : (s.modThread k f).copySlot = s.copySlot := rfl
@[simp] theorem modThread_slotTabs (s : State) (k : Nat) (f : Thread → Thread) : (s.modThread k f).slotTabs = s.slotTabs := rfl
@[simp] theorem modThread_slotNext (s : State) (k : Nat) (f : Thread → Thread) : (s.modThread k f).slotNext = s.slotNext := rfl
@[simp] theorem modThread_portSlot (s : State) (k : Nat) (f : Thread → Thread) : (s.modThread k f).portSlot = s.portSlot := rfl
@[simp] theorem modThread_barAdds (s : State) (k : Nat) (f : Thread → Thread) : (s.modThread k f).barAdds = s.barAdds := rfl
@[simp] theorem modThread_colls (s : State) (k : Nat) (f : Thread → Thread) : (s.modThread k f).colls = s.colls := rfl
@[simp] theorem modThread_comms (s : State) (k : Nat) (f : Thread → Thread) : (s.modThread k f).comms = s.comms := rfl
@[simp] theorem modThread_peers (s : State) (k : Nat) (f : Thread → Thread) : (s.modThread k f).peers = s.peers := rfl
@[simp] theorem modThread_collRecs (s : State) (k : Nat) (f : Thread → Thread) : (s.modThread k f).collRecs = s.collRecs := rfl
@[simp] theorem modThread_peerWrote (s : State) (k : Nat) (f : Thread → Thread) : (s.modThread k f).peerWrote = s.peerWrote := rfl
@[simp] theorem modThread_sysRel (s : State) (k : Nat) (f : Thread → Thread) : (s.modThread k f).sysRel = s.sysRel := rfl
@[simp] theorem modThread_eth (s : State) (k : Nat) (f : Thread → Thread) : (s.modThread k f).eth = s.eth := rfl
@[simp] theorem modThread_ports (s : State) (k : Nat) (f : Thread → Thread) : (s.modThread k f).ports = s.ports := rfl
@[simp] theorem modThread_win (s : State) (k : Nat) (f : Thread → Thread) : (s.modThread k f).win = s.win := rfl
@[simp] theorem modThread_qBound (s : State) (k : Nat) (f : Thread → Thread) : (s.modThread k f).qBound = s.qBound := rfl
@[simp] theorem modThread_qPort (s : State) (k : Nat) (f : Thread → Thread) : (s.modThread k f).qPort = s.qPort := rfl
@[simp] theorem modThread_shoots (s : State) (k : Nat) (f : Thread → Thread) : (s.modThread k f).shoots = s.shoots := rfl
@[simp] theorem modThread_snapRoots (s : State) (k : Nat) (f : Thread → Thread) : (s.modThread k f).snapRoots = s.snapRoots := rfl
@[simp] theorem modThread_telem (s : State) (k : Nat) (f : Thread → Thread) : (s.modThread k f).telem = s.telem := rfl
@[simp] theorem modThread_agate (s : State) (k : Nat) (f : Thread → Thread) : (s.modThread k f).agate = s.agate := rfl
@[simp] theorem modThread_boot (s : State) (k : Nat) (f : Thread → Thread) : (s.modThread k f).boot = s.boot := rfl
@[simp] theorem modThread_parkedList (s : State) (k : Nat) (f : Thread → Thread) : (s.modThread k f).parkedList = s.parkedList := rfl
@[simp] theorem modThread_turns (s : State) (k : Nat) (f : Thread → Thread) : (s.modThread k f).turns = s.turns := rfl
@[simp] theorem modThread_focus (s : State) (k : Nat) (f : Thread → Thread) : (s.modThread k f).focus = s.focus := rfl
@[simp] theorem modThread_cur (s : State) (k : Nat) (f : Thread → Thread) : (s.modThread k f).cur = s.cur := rfl
@[simp] theorem modThread_uids (s : State) (k : Nat) (f : Thread → Thread) : (s.modThread k f).uids = s.uids := rfl
@[simp] theorem modThread_fresh (s : State) (k : Nat) (f : Thread → Thread) : (s.modThread k f).fresh = s.fresh := rfl
@[simp] theorem modThread_me (s : State) (k : Nat) (f : Thread → Thread) : (s.modThread k f).me = s.me := rfl
@[simp] theorem modThread_core (s : State) (k : Nat) (f : Thread → Thread) (i : Nat) : (s.modThread k f).core i = s.core i := rfl
@[simp] theorem modThread_cluster (s : State) (k : Nat) (f : Thread → Thread) (i : Nat) : (s.modThread k f).cluster i = s.cluster i := rfl
@[simp] theorem modThread_die (s : State) (k : Nat) (f : Thread → Thread) (i : Nat) : (s.modThread k f).die i = s.die i := rfl
@[simp] theorem modThread_stack (s : State) (k : Nat) (f : Thread → Thread) (i : Nat) : (s.modThread k f).stack i = s.stack i := rfl
@[simp] theorem modThread_port (s : State) (k : Nat) (f : Thread → Thread) (i : Nat) : (s.modThread k f).port i = s.port i := rfl
@[simp] theorem modThread_taskOf (s : State) (k : Nat) (f : Thread → Thread) (i : Nat) : (s.modThread k f).taskOf i = s.taskOf i := rfl

@[simp] theorem setTh_mem (s : State) (x : Thread) : (s.setTh x).mem = s.mem := rfl
@[simp] theorem setTh_poison (s : State) (x : Thread) : (s.setTh x).poison = s.poison := rfl
@[simp] theorem setTh_now (s : State) (x : Thread) : (s.setTh x).now = s.now := rfl
@[simp] theorem setTh_cores (s : State) (x : Thread) : (s.setTh x).cores = s.cores := rfl
@[simp] theorem setTh_clusters (s : State) (x : Thread) : (s.setTh x).clusters = s.clusters := rfl
@[simp] theorem setTh_dies (s : State) (x : Thread) : (s.setTh x).dies = s.dies := rfl
@[simp] theorem setTh_hbm (s : State) (x : Thread) : (s.setTh x).hbm = s.hbm := rfl
@[simp] theorem setTh_lpOn (s : State) (x : Thread) : (s.setTh x).lpOn = s.lpOn := rfl
@[simp] theorem setTh_lpRefresh (s : State) (x : Thread) : (s.setTh x).lpRefresh = s.lpRefresh := rfl
@[simp] theorem setTh_bursts (s : State) (x : Thread) : (s.setTh x).bursts = s.bursts := rfl
@[simp] theorem setTh_heldWrites (s : State) (x : Thread) : (s.setTh x).heldWrites = s.heldWrites := rfl
@[simp] theorem setTh_tasks (s : State) (x : Thread) : (s.setTh x).tasks = s.tasks := rfl
@[simp] theorem setTh_slots (s : State) (x : Thread) : (s.setTh x).slots = s.slots := rfl
@[simp] theorem setTh_slotSeq (s : State) (x : Thread) : (s.setTh x).slotSeq = s.slotSeq := rfl
@[simp] theorem setTh_ctxs (s : State) (x : Thread) : (s.setTh x).ctxs = s.ctxs := rfl
@[simp] theorem setTh_ring (s : State) (x : Thread) : (s.setTh x).ring = s.ring := rfl
@[simp] theorem setTh_sched (s : State) (x : Thread) : (s.setTh x).sched = s.sched := rfl
@[simp] theorem setTh_energy (s : State) (x : Thread) : (s.setTh x).energy = s.energy := rfl
@[simp] theorem setTh_evq (s : State) (x : Thread) : (s.setTh x).evq = s.evq := rfl
@[simp] theorem setTh_errs (s : State) (x : Thread) : (s.setTh x).errs = s.errs := rfl
@[simp] theorem setTh_banks (s : State) (x : Thread) : (s.setTh x).banks = s.banks := rfl
@[simp] theorem setTh_latent (s : State) (x : Thread) : (s.setTh x).latent = s.latent := rfl
@[simp] theorem setTh_copies (s : State) (x : Thread) : (s.setTh x).copies = s.copies := rfl
@[simp] theorem setTh_copySlot (s : State) (x : Thread) : (s.setTh x).copySlot = s.copySlot := rfl
@[simp] theorem setTh_slotTabs (s : State) (x : Thread) : (s.setTh x).slotTabs = s.slotTabs := rfl
@[simp] theorem setTh_slotNext (s : State) (x : Thread) : (s.setTh x).slotNext = s.slotNext := rfl
@[simp] theorem setTh_portSlot (s : State) (x : Thread) : (s.setTh x).portSlot = s.portSlot := rfl
@[simp] theorem setTh_barAdds (s : State) (x : Thread) : (s.setTh x).barAdds = s.barAdds := rfl
@[simp] theorem setTh_colls (s : State) (x : Thread) : (s.setTh x).colls = s.colls := rfl
@[simp] theorem setTh_comms (s : State) (x : Thread) : (s.setTh x).comms = s.comms := rfl
@[simp] theorem setTh_peers (s : State) (x : Thread) : (s.setTh x).peers = s.peers := rfl
@[simp] theorem setTh_collRecs (s : State) (x : Thread) : (s.setTh x).collRecs = s.collRecs := rfl
@[simp] theorem setTh_peerWrote (s : State) (x : Thread) : (s.setTh x).peerWrote = s.peerWrote := rfl
@[simp] theorem setTh_sysRel (s : State) (x : Thread) : (s.setTh x).sysRel = s.sysRel := rfl
@[simp] theorem setTh_eth (s : State) (x : Thread) : (s.setTh x).eth = s.eth := rfl
@[simp] theorem setTh_ports (s : State) (x : Thread) : (s.setTh x).ports = s.ports := rfl
@[simp] theorem setTh_win (s : State) (x : Thread) : (s.setTh x).win = s.win := rfl
@[simp] theorem setTh_qBound (s : State) (x : Thread) : (s.setTh x).qBound = s.qBound := rfl
@[simp] theorem setTh_qPort (s : State) (x : Thread) : (s.setTh x).qPort = s.qPort := rfl
@[simp] theorem setTh_shoots (s : State) (x : Thread) : (s.setTh x).shoots = s.shoots := rfl
@[simp] theorem setTh_snapRoots (s : State) (x : Thread) : (s.setTh x).snapRoots = s.snapRoots := rfl
@[simp] theorem setTh_telem (s : State) (x : Thread) : (s.setTh x).telem = s.telem := rfl
@[simp] theorem setTh_agate (s : State) (x : Thread) : (s.setTh x).agate = s.agate := rfl
@[simp] theorem setTh_boot (s : State) (x : Thread) : (s.setTh x).boot = s.boot := rfl
@[simp] theorem setTh_parkedList (s : State) (x : Thread) : (s.setTh x).parkedList = s.parkedList := rfl
@[simp] theorem setTh_turns (s : State) (x : Thread) : (s.setTh x).turns = s.turns := rfl
@[simp] theorem setTh_focus (s : State) (x : Thread) : (s.setTh x).focus = s.focus := rfl
@[simp] theorem setTh_cur (s : State) (x : Thread) : (s.setTh x).cur = s.cur := rfl
@[simp] theorem setTh_uids (s : State) (x : Thread) : (s.setTh x).uids = s.uids := rfl
@[simp] theorem setTh_fresh (s : State) (x : Thread) : (s.setTh x).fresh = s.fresh := rfl
@[simp] theorem setTh_me (s : State) (x : Thread) : (s.setTh x).me = s.me := rfl
@[simp] theorem setTh_core (s : State) (x : Thread) (i : Nat) : (s.setTh x).core i = s.core i := rfl
@[simp] theorem setTh_cluster (s : State) (x : Thread) (i : Nat) : (s.setTh x).cluster i = s.cluster i := rfl
@[simp] theorem setTh_die (s : State) (x : Thread) (i : Nat) : (s.setTh x).die i = s.die i := rfl
@[simp] theorem setTh_stack (s : State) (x : Thread) (i : Nat) : (s.setTh x).stack i = s.stack i := rfl
@[simp] theorem setTh_port (s : State) (x : Thread) (i : Nat) : (s.setTh x).port i = s.port i := rfl
@[simp] theorem setTh_taskOf (s : State) (x : Thread) (i : Nat) : (s.setTh x).taskOf i = s.taskOf i := rfl

@[simp] theorem setCore_mem (s : State) (k : Nat) (x : Core) : (s.setCore k x).mem = s.mem := rfl
@[simp] theorem setCore_poison (s : State) (k : Nat) (x : Core) : (s.setCore k x).poison = s.poison := rfl
@[simp] theorem setCore_now (s : State) (k : Nat) (x : Core) : (s.setCore k x).now = s.now := rfl
@[simp] theorem setCore_thr (s : State) (k : Nat) (x : Core) : (s.setCore k x).thr = s.thr := rfl
@[simp] theorem setCore_clusters (s : State) (k : Nat) (x : Core) : (s.setCore k x).clusters = s.clusters := rfl
@[simp] theorem setCore_dies (s : State) (k : Nat) (x : Core) : (s.setCore k x).dies = s.dies := rfl
@[simp] theorem setCore_hbm (s : State) (k : Nat) (x : Core) : (s.setCore k x).hbm = s.hbm := rfl
@[simp] theorem setCore_lpOn (s : State) (k : Nat) (x : Core) : (s.setCore k x).lpOn = s.lpOn := rfl
@[simp] theorem setCore_lpRefresh (s : State) (k : Nat) (x : Core) : (s.setCore k x).lpRefresh = s.lpRefresh := rfl
@[simp] theorem setCore_bursts (s : State) (k : Nat) (x : Core) : (s.setCore k x).bursts = s.bursts := rfl
@[simp] theorem setCore_heldWrites (s : State) (k : Nat) (x : Core) : (s.setCore k x).heldWrites = s.heldWrites := rfl
@[simp] theorem setCore_tasks (s : State) (k : Nat) (x : Core) : (s.setCore k x).tasks = s.tasks := rfl
@[simp] theorem setCore_slots (s : State) (k : Nat) (x : Core) : (s.setCore k x).slots = s.slots := rfl
@[simp] theorem setCore_slotSeq (s : State) (k : Nat) (x : Core) : (s.setCore k x).slotSeq = s.slotSeq := rfl
@[simp] theorem setCore_ctxs (s : State) (k : Nat) (x : Core) : (s.setCore k x).ctxs = s.ctxs := rfl
@[simp] theorem setCore_ring (s : State) (k : Nat) (x : Core) : (s.setCore k x).ring = s.ring := rfl
@[simp] theorem setCore_sched (s : State) (k : Nat) (x : Core) : (s.setCore k x).sched = s.sched := rfl
@[simp] theorem setCore_energy (s : State) (k : Nat) (x : Core) : (s.setCore k x).energy = s.energy := rfl
@[simp] theorem setCore_evq (s : State) (k : Nat) (x : Core) : (s.setCore k x).evq = s.evq := rfl
@[simp] theorem setCore_errs (s : State) (k : Nat) (x : Core) : (s.setCore k x).errs = s.errs := rfl
@[simp] theorem setCore_banks (s : State) (k : Nat) (x : Core) : (s.setCore k x).banks = s.banks := rfl
@[simp] theorem setCore_latent (s : State) (k : Nat) (x : Core) : (s.setCore k x).latent = s.latent := rfl
@[simp] theorem setCore_copies (s : State) (k : Nat) (x : Core) : (s.setCore k x).copies = s.copies := rfl
@[simp] theorem setCore_copySlot (s : State) (k : Nat) (x : Core) : (s.setCore k x).copySlot = s.copySlot := rfl
@[simp] theorem setCore_slotTabs (s : State) (k : Nat) (x : Core) : (s.setCore k x).slotTabs = s.slotTabs := rfl
@[simp] theorem setCore_slotNext (s : State) (k : Nat) (x : Core) : (s.setCore k x).slotNext = s.slotNext := rfl
@[simp] theorem setCore_portSlot (s : State) (k : Nat) (x : Core) : (s.setCore k x).portSlot = s.portSlot := rfl
@[simp] theorem setCore_barAdds (s : State) (k : Nat) (x : Core) : (s.setCore k x).barAdds = s.barAdds := rfl
@[simp] theorem setCore_colls (s : State) (k : Nat) (x : Core) : (s.setCore k x).colls = s.colls := rfl
@[simp] theorem setCore_comms (s : State) (k : Nat) (x : Core) : (s.setCore k x).comms = s.comms := rfl
@[simp] theorem setCore_peers (s : State) (k : Nat) (x : Core) : (s.setCore k x).peers = s.peers := rfl
@[simp] theorem setCore_collRecs (s : State) (k : Nat) (x : Core) : (s.setCore k x).collRecs = s.collRecs := rfl
@[simp] theorem setCore_peerWrote (s : State) (k : Nat) (x : Core) : (s.setCore k x).peerWrote = s.peerWrote := rfl
@[simp] theorem setCore_sysRel (s : State) (k : Nat) (x : Core) : (s.setCore k x).sysRel = s.sysRel := rfl
@[simp] theorem setCore_eth (s : State) (k : Nat) (x : Core) : (s.setCore k x).eth = s.eth := rfl
@[simp] theorem setCore_ports (s : State) (k : Nat) (x : Core) : (s.setCore k x).ports = s.ports := rfl
@[simp] theorem setCore_win (s : State) (k : Nat) (x : Core) : (s.setCore k x).win = s.win := rfl
@[simp] theorem setCore_qBound (s : State) (k : Nat) (x : Core) : (s.setCore k x).qBound = s.qBound := rfl
@[simp] theorem setCore_qPort (s : State) (k : Nat) (x : Core) : (s.setCore k x).qPort = s.qPort := rfl
@[simp] theorem setCore_shoots (s : State) (k : Nat) (x : Core) : (s.setCore k x).shoots = s.shoots := rfl
@[simp] theorem setCore_snapRoots (s : State) (k : Nat) (x : Core) : (s.setCore k x).snapRoots = s.snapRoots := rfl
@[simp] theorem setCore_telem (s : State) (k : Nat) (x : Core) : (s.setCore k x).telem = s.telem := rfl
@[simp] theorem setCore_agate (s : State) (k : Nat) (x : Core) : (s.setCore k x).agate = s.agate := rfl
@[simp] theorem setCore_boot (s : State) (k : Nat) (x : Core) : (s.setCore k x).boot = s.boot := rfl
@[simp] theorem setCore_parkedList (s : State) (k : Nat) (x : Core) : (s.setCore k x).parkedList = s.parkedList := rfl
@[simp] theorem setCore_turns (s : State) (k : Nat) (x : Core) : (s.setCore k x).turns = s.turns := rfl
@[simp] theorem setCore_focus (s : State) (k : Nat) (x : Core) : (s.setCore k x).focus = s.focus := rfl
@[simp] theorem setCore_cur (s : State) (k : Nat) (x : Core) : (s.setCore k x).cur = s.cur := rfl
@[simp] theorem setCore_uids (s : State) (k : Nat) (x : Core) : (s.setCore k x).uids = s.uids := rfl
@[simp] theorem setCore_fresh (s : State) (k : Nat) (x : Core) : (s.setCore k x).fresh = s.fresh := rfl
@[simp] theorem setCore_me (s : State) (k : Nat) (x : Core) : (s.setCore k x).me = s.me := rfl
@[simp] theorem setCore_thread (s : State) (k : Nat) (x : Core) (i : Nat) : (s.setCore k x).thread i = s.thread i := rfl
@[simp] theorem setCore_cluster (s : State) (k : Nat) (x : Core) (i : Nat) : (s.setCore k x).cluster i = s.cluster i := rfl
@[simp] theorem setCore_die (s : State) (k : Nat) (x : Core) (i : Nat) : (s.setCore k x).die i = s.die i := rfl
@[simp] theorem setCore_stack (s : State) (k : Nat) (x : Core) (i : Nat) : (s.setCore k x).stack i = s.stack i := rfl
@[simp] theorem setCore_port (s : State) (k : Nat) (x : Core) (i : Nat) : (s.setCore k x).port i = s.port i := rfl
@[simp] theorem setCore_taskOf (s : State) (k : Nat) (x : Core) (i : Nat) : (s.setCore k x).taskOf i = s.taskOf i := rfl
@[simp] theorem setCore_th (s : State) (k : Nat) (x : Core) : (s.setCore k x).th = s.th := rfl

@[simp] theorem modCore_mem (s : State) (k : Nat) (f : Core → Core) : (s.modCore k f).mem = s.mem := rfl
@[simp] theorem modCore_poison (s : State) (k : Nat) (f : Core → Core) : (s.modCore k f).poison = s.poison := rfl
@[simp] theorem modCore_now (s : State) (k : Nat) (f : Core → Core) : (s.modCore k f).now = s.now := rfl
@[simp] theorem modCore_thr (s : State) (k : Nat) (f : Core → Core) : (s.modCore k f).thr = s.thr := rfl
@[simp] theorem modCore_clusters (s : State) (k : Nat) (f : Core → Core) : (s.modCore k f).clusters = s.clusters := rfl
@[simp] theorem modCore_dies (s : State) (k : Nat) (f : Core → Core) : (s.modCore k f).dies = s.dies := rfl
@[simp] theorem modCore_hbm (s : State) (k : Nat) (f : Core → Core) : (s.modCore k f).hbm = s.hbm := rfl
@[simp] theorem modCore_lpOn (s : State) (k : Nat) (f : Core → Core) : (s.modCore k f).lpOn = s.lpOn := rfl
@[simp] theorem modCore_lpRefresh (s : State) (k : Nat) (f : Core → Core) : (s.modCore k f).lpRefresh = s.lpRefresh := rfl
@[simp] theorem modCore_bursts (s : State) (k : Nat) (f : Core → Core) : (s.modCore k f).bursts = s.bursts := rfl
@[simp] theorem modCore_heldWrites (s : State) (k : Nat) (f : Core → Core) : (s.modCore k f).heldWrites = s.heldWrites := rfl
@[simp] theorem modCore_tasks (s : State) (k : Nat) (f : Core → Core) : (s.modCore k f).tasks = s.tasks := rfl
@[simp] theorem modCore_slots (s : State) (k : Nat) (f : Core → Core) : (s.modCore k f).slots = s.slots := rfl
@[simp] theorem modCore_slotSeq (s : State) (k : Nat) (f : Core → Core) : (s.modCore k f).slotSeq = s.slotSeq := rfl
@[simp] theorem modCore_ctxs (s : State) (k : Nat) (f : Core → Core) : (s.modCore k f).ctxs = s.ctxs := rfl
@[simp] theorem modCore_ring (s : State) (k : Nat) (f : Core → Core) : (s.modCore k f).ring = s.ring := rfl
@[simp] theorem modCore_sched (s : State) (k : Nat) (f : Core → Core) : (s.modCore k f).sched = s.sched := rfl
@[simp] theorem modCore_energy (s : State) (k : Nat) (f : Core → Core) : (s.modCore k f).energy = s.energy := rfl
@[simp] theorem modCore_evq (s : State) (k : Nat) (f : Core → Core) : (s.modCore k f).evq = s.evq := rfl
@[simp] theorem modCore_errs (s : State) (k : Nat) (f : Core → Core) : (s.modCore k f).errs = s.errs := rfl
@[simp] theorem modCore_banks (s : State) (k : Nat) (f : Core → Core) : (s.modCore k f).banks = s.banks := rfl
@[simp] theorem modCore_latent (s : State) (k : Nat) (f : Core → Core) : (s.modCore k f).latent = s.latent := rfl
@[simp] theorem modCore_copies (s : State) (k : Nat) (f : Core → Core) : (s.modCore k f).copies = s.copies := rfl
@[simp] theorem modCore_copySlot (s : State) (k : Nat) (f : Core → Core) : (s.modCore k f).copySlot = s.copySlot := rfl
@[simp] theorem modCore_slotTabs (s : State) (k : Nat) (f : Core → Core) : (s.modCore k f).slotTabs = s.slotTabs := rfl
@[simp] theorem modCore_slotNext (s : State) (k : Nat) (f : Core → Core) : (s.modCore k f).slotNext = s.slotNext := rfl
@[simp] theorem modCore_portSlot (s : State) (k : Nat) (f : Core → Core) : (s.modCore k f).portSlot = s.portSlot := rfl
@[simp] theorem modCore_barAdds (s : State) (k : Nat) (f : Core → Core) : (s.modCore k f).barAdds = s.barAdds := rfl
@[simp] theorem modCore_colls (s : State) (k : Nat) (f : Core → Core) : (s.modCore k f).colls = s.colls := rfl
@[simp] theorem modCore_comms (s : State) (k : Nat) (f : Core → Core) : (s.modCore k f).comms = s.comms := rfl
@[simp] theorem modCore_peers (s : State) (k : Nat) (f : Core → Core) : (s.modCore k f).peers = s.peers := rfl
@[simp] theorem modCore_collRecs (s : State) (k : Nat) (f : Core → Core) : (s.modCore k f).collRecs = s.collRecs := rfl
@[simp] theorem modCore_peerWrote (s : State) (k : Nat) (f : Core → Core) : (s.modCore k f).peerWrote = s.peerWrote := rfl
@[simp] theorem modCore_sysRel (s : State) (k : Nat) (f : Core → Core) : (s.modCore k f).sysRel = s.sysRel := rfl
@[simp] theorem modCore_eth (s : State) (k : Nat) (f : Core → Core) : (s.modCore k f).eth = s.eth := rfl
@[simp] theorem modCore_ports (s : State) (k : Nat) (f : Core → Core) : (s.modCore k f).ports = s.ports := rfl
@[simp] theorem modCore_win (s : State) (k : Nat) (f : Core → Core) : (s.modCore k f).win = s.win := rfl
@[simp] theorem modCore_qBound (s : State) (k : Nat) (f : Core → Core) : (s.modCore k f).qBound = s.qBound := rfl
@[simp] theorem modCore_qPort (s : State) (k : Nat) (f : Core → Core) : (s.modCore k f).qPort = s.qPort := rfl
@[simp] theorem modCore_shoots (s : State) (k : Nat) (f : Core → Core) : (s.modCore k f).shoots = s.shoots := rfl
@[simp] theorem modCore_snapRoots (s : State) (k : Nat) (f : Core → Core) : (s.modCore k f).snapRoots = s.snapRoots := rfl
@[simp] theorem modCore_telem (s : State) (k : Nat) (f : Core → Core) : (s.modCore k f).telem = s.telem := rfl
@[simp] theorem modCore_agate (s : State) (k : Nat) (f : Core → Core) : (s.modCore k f).agate = s.agate := rfl
@[simp] theorem modCore_boot (s : State) (k : Nat) (f : Core → Core) : (s.modCore k f).boot = s.boot := rfl
@[simp] theorem modCore_parkedList (s : State) (k : Nat) (f : Core → Core) : (s.modCore k f).parkedList = s.parkedList := rfl
@[simp] theorem modCore_turns (s : State) (k : Nat) (f : Core → Core) : (s.modCore k f).turns = s.turns := rfl
@[simp] theorem modCore_focus (s : State) (k : Nat) (f : Core → Core) : (s.modCore k f).focus = s.focus := rfl
@[simp] theorem modCore_cur (s : State) (k : Nat) (f : Core → Core) : (s.modCore k f).cur = s.cur := rfl
@[simp] theorem modCore_uids (s : State) (k : Nat) (f : Core → Core) : (s.modCore k f).uids = s.uids := rfl
@[simp] theorem modCore_fresh (s : State) (k : Nat) (f : Core → Core) : (s.modCore k f).fresh = s.fresh := rfl
@[simp] theorem modCore_me (s : State) (k : Nat) (f : Core → Core) : (s.modCore k f).me = s.me := rfl
@[simp] theorem modCore_thread (s : State) (k : Nat) (f : Core → Core) (i : Nat) : (s.modCore k f).thread i = s.thread i := rfl
@[simp] theorem modCore_cluster (s : State) (k : Nat) (f : Core → Core) (i : Nat) : (s.modCore k f).cluster i = s.cluster i := rfl
@[simp] theorem modCore_die (s : State) (k : Nat) (f : Core → Core) (i : Nat) : (s.modCore k f).die i = s.die i := rfl
@[simp] theorem modCore_stack (s : State) (k : Nat) (f : Core → Core) (i : Nat) : (s.modCore k f).stack i = s.stack i := rfl
@[simp] theorem modCore_port (s : State) (k : Nat) (f : Core → Core) (i : Nat) : (s.modCore k f).port i = s.port i := rfl
@[simp] theorem modCore_taskOf (s : State) (k : Nat) (f : Core → Core) (i : Nat) : (s.modCore k f).taskOf i = s.taskOf i := rfl
@[simp] theorem modCore_th (s : State) (k : Nat) (f : Core → Core) : (s.modCore k f).th = s.th := rfl

@[simp] theorem setCluster_mem (s : State) (k : Nat) (x : Cluster) : (s.setCluster k x).mem = s.mem := rfl
@[simp] theorem setCluster_poison (s : State) (k : Nat) (x : Cluster) : (s.setCluster k x).poison = s.poison := rfl
@[simp] theorem setCluster_now (s : State) (k : Nat) (x : Cluster) : (s.setCluster k x).now = s.now := rfl
@[simp] theorem setCluster_thr (s : State) (k : Nat) (x : Cluster) : (s.setCluster k x).thr = s.thr := rfl
@[simp] theorem setCluster_cores (s : State) (k : Nat) (x : Cluster) : (s.setCluster k x).cores = s.cores := rfl
@[simp] theorem setCluster_dies (s : State) (k : Nat) (x : Cluster) : (s.setCluster k x).dies = s.dies := rfl
@[simp] theorem setCluster_hbm (s : State) (k : Nat) (x : Cluster) : (s.setCluster k x).hbm = s.hbm := rfl
@[simp] theorem setCluster_lpOn (s : State) (k : Nat) (x : Cluster) : (s.setCluster k x).lpOn = s.lpOn := rfl
@[simp] theorem setCluster_lpRefresh (s : State) (k : Nat) (x : Cluster) : (s.setCluster k x).lpRefresh = s.lpRefresh := rfl
@[simp] theorem setCluster_bursts (s : State) (k : Nat) (x : Cluster) : (s.setCluster k x).bursts = s.bursts := rfl
@[simp] theorem setCluster_heldWrites (s : State) (k : Nat) (x : Cluster) : (s.setCluster k x).heldWrites = s.heldWrites := rfl
@[simp] theorem setCluster_tasks (s : State) (k : Nat) (x : Cluster) : (s.setCluster k x).tasks = s.tasks := rfl
@[simp] theorem setCluster_slots (s : State) (k : Nat) (x : Cluster) : (s.setCluster k x).slots = s.slots := rfl
@[simp] theorem setCluster_slotSeq (s : State) (k : Nat) (x : Cluster) : (s.setCluster k x).slotSeq = s.slotSeq := rfl
@[simp] theorem setCluster_ctxs (s : State) (k : Nat) (x : Cluster) : (s.setCluster k x).ctxs = s.ctxs := rfl
@[simp] theorem setCluster_ring (s : State) (k : Nat) (x : Cluster) : (s.setCluster k x).ring = s.ring := rfl
@[simp] theorem setCluster_sched (s : State) (k : Nat) (x : Cluster) : (s.setCluster k x).sched = s.sched := rfl
@[simp] theorem setCluster_energy (s : State) (k : Nat) (x : Cluster) : (s.setCluster k x).energy = s.energy := rfl
@[simp] theorem setCluster_evq (s : State) (k : Nat) (x : Cluster) : (s.setCluster k x).evq = s.evq := rfl
@[simp] theorem setCluster_errs (s : State) (k : Nat) (x : Cluster) : (s.setCluster k x).errs = s.errs := rfl
@[simp] theorem setCluster_banks (s : State) (k : Nat) (x : Cluster) : (s.setCluster k x).banks = s.banks := rfl
@[simp] theorem setCluster_latent (s : State) (k : Nat) (x : Cluster) : (s.setCluster k x).latent = s.latent := rfl
@[simp] theorem setCluster_copies (s : State) (k : Nat) (x : Cluster) : (s.setCluster k x).copies = s.copies := rfl
@[simp] theorem setCluster_copySlot (s : State) (k : Nat) (x : Cluster) : (s.setCluster k x).copySlot = s.copySlot := rfl
@[simp] theorem setCluster_slotTabs (s : State) (k : Nat) (x : Cluster) : (s.setCluster k x).slotTabs = s.slotTabs := rfl
@[simp] theorem setCluster_slotNext (s : State) (k : Nat) (x : Cluster) : (s.setCluster k x).slotNext = s.slotNext := rfl
@[simp] theorem setCluster_portSlot (s : State) (k : Nat) (x : Cluster) : (s.setCluster k x).portSlot = s.portSlot := rfl
@[simp] theorem setCluster_barAdds (s : State) (k : Nat) (x : Cluster) : (s.setCluster k x).barAdds = s.barAdds := rfl
@[simp] theorem setCluster_colls (s : State) (k : Nat) (x : Cluster) : (s.setCluster k x).colls = s.colls := rfl
@[simp] theorem setCluster_comms (s : State) (k : Nat) (x : Cluster) : (s.setCluster k x).comms = s.comms := rfl
@[simp] theorem setCluster_peers (s : State) (k : Nat) (x : Cluster) : (s.setCluster k x).peers = s.peers := rfl
@[simp] theorem setCluster_collRecs (s : State) (k : Nat) (x : Cluster) : (s.setCluster k x).collRecs = s.collRecs := rfl
@[simp] theorem setCluster_peerWrote (s : State) (k : Nat) (x : Cluster) : (s.setCluster k x).peerWrote = s.peerWrote := rfl
@[simp] theorem setCluster_sysRel (s : State) (k : Nat) (x : Cluster) : (s.setCluster k x).sysRel = s.sysRel := rfl
@[simp] theorem setCluster_eth (s : State) (k : Nat) (x : Cluster) : (s.setCluster k x).eth = s.eth := rfl
@[simp] theorem setCluster_ports (s : State) (k : Nat) (x : Cluster) : (s.setCluster k x).ports = s.ports := rfl
@[simp] theorem setCluster_win (s : State) (k : Nat) (x : Cluster) : (s.setCluster k x).win = s.win := rfl
@[simp] theorem setCluster_qBound (s : State) (k : Nat) (x : Cluster) : (s.setCluster k x).qBound = s.qBound := rfl
@[simp] theorem setCluster_qPort (s : State) (k : Nat) (x : Cluster) : (s.setCluster k x).qPort = s.qPort := rfl
@[simp] theorem setCluster_shoots (s : State) (k : Nat) (x : Cluster) : (s.setCluster k x).shoots = s.shoots := rfl
@[simp] theorem setCluster_snapRoots (s : State) (k : Nat) (x : Cluster) : (s.setCluster k x).snapRoots = s.snapRoots := rfl
@[simp] theorem setCluster_telem (s : State) (k : Nat) (x : Cluster) : (s.setCluster k x).telem = s.telem := rfl
@[simp] theorem setCluster_agate (s : State) (k : Nat) (x : Cluster) : (s.setCluster k x).agate = s.agate := rfl
@[simp] theorem setCluster_boot (s : State) (k : Nat) (x : Cluster) : (s.setCluster k x).boot = s.boot := rfl
@[simp] theorem setCluster_parkedList (s : State) (k : Nat) (x : Cluster) : (s.setCluster k x).parkedList = s.parkedList := rfl
@[simp] theorem setCluster_turns (s : State) (k : Nat) (x : Cluster) : (s.setCluster k x).turns = s.turns := rfl
@[simp] theorem setCluster_focus (s : State) (k : Nat) (x : Cluster) : (s.setCluster k x).focus = s.focus := rfl
@[simp] theorem setCluster_cur (s : State) (k : Nat) (x : Cluster) : (s.setCluster k x).cur = s.cur := rfl
@[simp] theorem setCluster_uids (s : State) (k : Nat) (x : Cluster) : (s.setCluster k x).uids = s.uids := rfl
@[simp] theorem setCluster_fresh (s : State) (k : Nat) (x : Cluster) : (s.setCluster k x).fresh = s.fresh := rfl
@[simp] theorem setCluster_me (s : State) (k : Nat) (x : Cluster) : (s.setCluster k x).me = s.me := rfl
@[simp] theorem setCluster_thread (s : State) (k : Nat) (x : Cluster) (i : Nat) : (s.setCluster k x).thread i = s.thread i := rfl
@[simp] theorem setCluster_core (s : State) (k : Nat) (x : Cluster) (i : Nat) : (s.setCluster k x).core i = s.core i := rfl
@[simp] theorem setCluster_die (s : State) (k : Nat) (x : Cluster) (i : Nat) : (s.setCluster k x).die i = s.die i := rfl
@[simp] theorem setCluster_stack (s : State) (k : Nat) (x : Cluster) (i : Nat) : (s.setCluster k x).stack i = s.stack i := rfl
@[simp] theorem setCluster_port (s : State) (k : Nat) (x : Cluster) (i : Nat) : (s.setCluster k x).port i = s.port i := rfl
@[simp] theorem setCluster_taskOf (s : State) (k : Nat) (x : Cluster) (i : Nat) : (s.setCluster k x).taskOf i = s.taskOf i := rfl
@[simp] theorem setCluster_th (s : State) (k : Nat) (x : Cluster) : (s.setCluster k x).th = s.th := rfl

@[simp] theorem modCluster_mem (s : State) (k : Nat) (f : Cluster → Cluster) : (s.modCluster k f).mem = s.mem := rfl
@[simp] theorem modCluster_poison (s : State) (k : Nat) (f : Cluster → Cluster) : (s.modCluster k f).poison = s.poison := rfl
@[simp] theorem modCluster_now (s : State) (k : Nat) (f : Cluster → Cluster) : (s.modCluster k f).now = s.now := rfl
@[simp] theorem modCluster_thr (s : State) (k : Nat) (f : Cluster → Cluster) : (s.modCluster k f).thr = s.thr := rfl
@[simp] theorem modCluster_cores (s : State) (k : Nat) (f : Cluster → Cluster) : (s.modCluster k f).cores = s.cores := rfl
@[simp] theorem modCluster_dies (s : State) (k : Nat) (f : Cluster → Cluster) : (s.modCluster k f).dies = s.dies := rfl
@[simp] theorem modCluster_hbm (s : State) (k : Nat) (f : Cluster → Cluster) : (s.modCluster k f).hbm = s.hbm := rfl
@[simp] theorem modCluster_lpOn (s : State) (k : Nat) (f : Cluster → Cluster) : (s.modCluster k f).lpOn = s.lpOn := rfl
@[simp] theorem modCluster_lpRefresh (s : State) (k : Nat) (f : Cluster → Cluster) : (s.modCluster k f).lpRefresh = s.lpRefresh := rfl
@[simp] theorem modCluster_bursts (s : State) (k : Nat) (f : Cluster → Cluster) : (s.modCluster k f).bursts = s.bursts := rfl
@[simp] theorem modCluster_heldWrites (s : State) (k : Nat) (f : Cluster → Cluster) : (s.modCluster k f).heldWrites = s.heldWrites := rfl
@[simp] theorem modCluster_tasks (s : State) (k : Nat) (f : Cluster → Cluster) : (s.modCluster k f).tasks = s.tasks := rfl
@[simp] theorem modCluster_slots (s : State) (k : Nat) (f : Cluster → Cluster) : (s.modCluster k f).slots = s.slots := rfl
@[simp] theorem modCluster_slotSeq (s : State) (k : Nat) (f : Cluster → Cluster) : (s.modCluster k f).slotSeq = s.slotSeq := rfl
@[simp] theorem modCluster_ctxs (s : State) (k : Nat) (f : Cluster → Cluster) : (s.modCluster k f).ctxs = s.ctxs := rfl
@[simp] theorem modCluster_ring (s : State) (k : Nat) (f : Cluster → Cluster) : (s.modCluster k f).ring = s.ring := rfl
@[simp] theorem modCluster_sched (s : State) (k : Nat) (f : Cluster → Cluster) : (s.modCluster k f).sched = s.sched := rfl
@[simp] theorem modCluster_energy (s : State) (k : Nat) (f : Cluster → Cluster) : (s.modCluster k f).energy = s.energy := rfl
@[simp] theorem modCluster_evq (s : State) (k : Nat) (f : Cluster → Cluster) : (s.modCluster k f).evq = s.evq := rfl
@[simp] theorem modCluster_errs (s : State) (k : Nat) (f : Cluster → Cluster) : (s.modCluster k f).errs = s.errs := rfl
@[simp] theorem modCluster_banks (s : State) (k : Nat) (f : Cluster → Cluster) : (s.modCluster k f).banks = s.banks := rfl
@[simp] theorem modCluster_latent (s : State) (k : Nat) (f : Cluster → Cluster) : (s.modCluster k f).latent = s.latent := rfl
@[simp] theorem modCluster_copies (s : State) (k : Nat) (f : Cluster → Cluster) : (s.modCluster k f).copies = s.copies := rfl
@[simp] theorem modCluster_copySlot (s : State) (k : Nat) (f : Cluster → Cluster) : (s.modCluster k f).copySlot = s.copySlot := rfl
@[simp] theorem modCluster_slotTabs (s : State) (k : Nat) (f : Cluster → Cluster) : (s.modCluster k f).slotTabs = s.slotTabs := rfl
@[simp] theorem modCluster_slotNext (s : State) (k : Nat) (f : Cluster → Cluster) : (s.modCluster k f).slotNext = s.slotNext := rfl
@[simp] theorem modCluster_portSlot (s : State) (k : Nat) (f : Cluster → Cluster) : (s.modCluster k f).portSlot = s.portSlot := rfl
@[simp] theorem modCluster_barAdds (s : State) (k : Nat) (f : Cluster → Cluster) : (s.modCluster k f).barAdds = s.barAdds := rfl
@[simp] theorem modCluster_colls (s : State) (k : Nat) (f : Cluster → Cluster) : (s.modCluster k f).colls = s.colls := rfl
@[simp] theorem modCluster_comms (s : State) (k : Nat) (f : Cluster → Cluster) : (s.modCluster k f).comms = s.comms := rfl
@[simp] theorem modCluster_peers (s : State) (k : Nat) (f : Cluster → Cluster) : (s.modCluster k f).peers = s.peers := rfl
@[simp] theorem modCluster_collRecs (s : State) (k : Nat) (f : Cluster → Cluster) : (s.modCluster k f).collRecs = s.collRecs := rfl
@[simp] theorem modCluster_peerWrote (s : State) (k : Nat) (f : Cluster → Cluster) : (s.modCluster k f).peerWrote = s.peerWrote := rfl
@[simp] theorem modCluster_sysRel (s : State) (k : Nat) (f : Cluster → Cluster) : (s.modCluster k f).sysRel = s.sysRel := rfl
@[simp] theorem modCluster_eth (s : State) (k : Nat) (f : Cluster → Cluster) : (s.modCluster k f).eth = s.eth := rfl
@[simp] theorem modCluster_ports (s : State) (k : Nat) (f : Cluster → Cluster) : (s.modCluster k f).ports = s.ports := rfl
@[simp] theorem modCluster_win (s : State) (k : Nat) (f : Cluster → Cluster) : (s.modCluster k f).win = s.win := rfl
@[simp] theorem modCluster_qBound (s : State) (k : Nat) (f : Cluster → Cluster) : (s.modCluster k f).qBound = s.qBound := rfl
@[simp] theorem modCluster_qPort (s : State) (k : Nat) (f : Cluster → Cluster) : (s.modCluster k f).qPort = s.qPort := rfl
@[simp] theorem modCluster_shoots (s : State) (k : Nat) (f : Cluster → Cluster) : (s.modCluster k f).shoots = s.shoots := rfl
@[simp] theorem modCluster_snapRoots (s : State) (k : Nat) (f : Cluster → Cluster) : (s.modCluster k f).snapRoots = s.snapRoots := rfl
@[simp] theorem modCluster_telem (s : State) (k : Nat) (f : Cluster → Cluster) : (s.modCluster k f).telem = s.telem := rfl
@[simp] theorem modCluster_agate (s : State) (k : Nat) (f : Cluster → Cluster) : (s.modCluster k f).agate = s.agate := rfl
@[simp] theorem modCluster_boot (s : State) (k : Nat) (f : Cluster → Cluster) : (s.modCluster k f).boot = s.boot := rfl
@[simp] theorem modCluster_parkedList (s : State) (k : Nat) (f : Cluster → Cluster) : (s.modCluster k f).parkedList = s.parkedList := rfl
@[simp] theorem modCluster_turns (s : State) (k : Nat) (f : Cluster → Cluster) : (s.modCluster k f).turns = s.turns := rfl
@[simp] theorem modCluster_focus (s : State) (k : Nat) (f : Cluster → Cluster) : (s.modCluster k f).focus = s.focus := rfl
@[simp] theorem modCluster_cur (s : State) (k : Nat) (f : Cluster → Cluster) : (s.modCluster k f).cur = s.cur := rfl
@[simp] theorem modCluster_uids (s : State) (k : Nat) (f : Cluster → Cluster) : (s.modCluster k f).uids = s.uids := rfl
@[simp] theorem modCluster_fresh (s : State) (k : Nat) (f : Cluster → Cluster) : (s.modCluster k f).fresh = s.fresh := rfl
@[simp] theorem modCluster_me (s : State) (k : Nat) (f : Cluster → Cluster) : (s.modCluster k f).me = s.me := rfl
@[simp] theorem modCluster_thread (s : State) (k : Nat) (f : Cluster → Cluster) (i : Nat) : (s.modCluster k f).thread i = s.thread i := rfl
@[simp] theorem modCluster_core (s : State) (k : Nat) (f : Cluster → Cluster) (i : Nat) : (s.modCluster k f).core i = s.core i := rfl
@[simp] theorem modCluster_die (s : State) (k : Nat) (f : Cluster → Cluster) (i : Nat) : (s.modCluster k f).die i = s.die i := rfl
@[simp] theorem modCluster_stack (s : State) (k : Nat) (f : Cluster → Cluster) (i : Nat) : (s.modCluster k f).stack i = s.stack i := rfl
@[simp] theorem modCluster_port (s : State) (k : Nat) (f : Cluster → Cluster) (i : Nat) : (s.modCluster k f).port i = s.port i := rfl
@[simp] theorem modCluster_taskOf (s : State) (k : Nat) (f : Cluster → Cluster) (i : Nat) : (s.modCluster k f).taskOf i = s.taskOf i := rfl
@[simp] theorem modCluster_th (s : State) (k : Nat) (f : Cluster → Cluster) : (s.modCluster k f).th = s.th := rfl

@[simp] theorem setDie_mem (s : State) (k : Nat) (x : Die) : (s.setDie k x).mem = s.mem := rfl
@[simp] theorem setDie_poison (s : State) (k : Nat) (x : Die) : (s.setDie k x).poison = s.poison := rfl
@[simp] theorem setDie_now (s : State) (k : Nat) (x : Die) : (s.setDie k x).now = s.now := rfl
@[simp] theorem setDie_thr (s : State) (k : Nat) (x : Die) : (s.setDie k x).thr = s.thr := rfl
@[simp] theorem setDie_cores (s : State) (k : Nat) (x : Die) : (s.setDie k x).cores = s.cores := rfl
@[simp] theorem setDie_clusters (s : State) (k : Nat) (x : Die) : (s.setDie k x).clusters = s.clusters := rfl
@[simp] theorem setDie_hbm (s : State) (k : Nat) (x : Die) : (s.setDie k x).hbm = s.hbm := rfl
@[simp] theorem setDie_lpOn (s : State) (k : Nat) (x : Die) : (s.setDie k x).lpOn = s.lpOn := rfl
@[simp] theorem setDie_lpRefresh (s : State) (k : Nat) (x : Die) : (s.setDie k x).lpRefresh = s.lpRefresh := rfl
@[simp] theorem setDie_bursts (s : State) (k : Nat) (x : Die) : (s.setDie k x).bursts = s.bursts := rfl
@[simp] theorem setDie_heldWrites (s : State) (k : Nat) (x : Die) : (s.setDie k x).heldWrites = s.heldWrites := rfl
@[simp] theorem setDie_tasks (s : State) (k : Nat) (x : Die) : (s.setDie k x).tasks = s.tasks := rfl
@[simp] theorem setDie_slots (s : State) (k : Nat) (x : Die) : (s.setDie k x).slots = s.slots := rfl
@[simp] theorem setDie_slotSeq (s : State) (k : Nat) (x : Die) : (s.setDie k x).slotSeq = s.slotSeq := rfl
@[simp] theorem setDie_ctxs (s : State) (k : Nat) (x : Die) : (s.setDie k x).ctxs = s.ctxs := rfl
@[simp] theorem setDie_ring (s : State) (k : Nat) (x : Die) : (s.setDie k x).ring = s.ring := rfl
@[simp] theorem setDie_sched (s : State) (k : Nat) (x : Die) : (s.setDie k x).sched = s.sched := rfl
@[simp] theorem setDie_energy (s : State) (k : Nat) (x : Die) : (s.setDie k x).energy = s.energy := rfl
@[simp] theorem setDie_evq (s : State) (k : Nat) (x : Die) : (s.setDie k x).evq = s.evq := rfl
@[simp] theorem setDie_errs (s : State) (k : Nat) (x : Die) : (s.setDie k x).errs = s.errs := rfl
@[simp] theorem setDie_banks (s : State) (k : Nat) (x : Die) : (s.setDie k x).banks = s.banks := rfl
@[simp] theorem setDie_latent (s : State) (k : Nat) (x : Die) : (s.setDie k x).latent = s.latent := rfl
@[simp] theorem setDie_copies (s : State) (k : Nat) (x : Die) : (s.setDie k x).copies = s.copies := rfl
@[simp] theorem setDie_copySlot (s : State) (k : Nat) (x : Die) : (s.setDie k x).copySlot = s.copySlot := rfl
@[simp] theorem setDie_slotTabs (s : State) (k : Nat) (x : Die) : (s.setDie k x).slotTabs = s.slotTabs := rfl
@[simp] theorem setDie_slotNext (s : State) (k : Nat) (x : Die) : (s.setDie k x).slotNext = s.slotNext := rfl
@[simp] theorem setDie_portSlot (s : State) (k : Nat) (x : Die) : (s.setDie k x).portSlot = s.portSlot := rfl
@[simp] theorem setDie_barAdds (s : State) (k : Nat) (x : Die) : (s.setDie k x).barAdds = s.barAdds := rfl
@[simp] theorem setDie_colls (s : State) (k : Nat) (x : Die) : (s.setDie k x).colls = s.colls := rfl
@[simp] theorem setDie_comms (s : State) (k : Nat) (x : Die) : (s.setDie k x).comms = s.comms := rfl
@[simp] theorem setDie_peers (s : State) (k : Nat) (x : Die) : (s.setDie k x).peers = s.peers := rfl
@[simp] theorem setDie_collRecs (s : State) (k : Nat) (x : Die) : (s.setDie k x).collRecs = s.collRecs := rfl
@[simp] theorem setDie_peerWrote (s : State) (k : Nat) (x : Die) : (s.setDie k x).peerWrote = s.peerWrote := rfl
@[simp] theorem setDie_sysRel (s : State) (k : Nat) (x : Die) : (s.setDie k x).sysRel = s.sysRel := rfl
@[simp] theorem setDie_eth (s : State) (k : Nat) (x : Die) : (s.setDie k x).eth = s.eth := rfl
@[simp] theorem setDie_ports (s : State) (k : Nat) (x : Die) : (s.setDie k x).ports = s.ports := rfl
@[simp] theorem setDie_win (s : State) (k : Nat) (x : Die) : (s.setDie k x).win = s.win := rfl
@[simp] theorem setDie_qBound (s : State) (k : Nat) (x : Die) : (s.setDie k x).qBound = s.qBound := rfl
@[simp] theorem setDie_qPort (s : State) (k : Nat) (x : Die) : (s.setDie k x).qPort = s.qPort := rfl
@[simp] theorem setDie_shoots (s : State) (k : Nat) (x : Die) : (s.setDie k x).shoots = s.shoots := rfl
@[simp] theorem setDie_snapRoots (s : State) (k : Nat) (x : Die) : (s.setDie k x).snapRoots = s.snapRoots := rfl
@[simp] theorem setDie_telem (s : State) (k : Nat) (x : Die) : (s.setDie k x).telem = s.telem := rfl
@[simp] theorem setDie_agate (s : State) (k : Nat) (x : Die) : (s.setDie k x).agate = s.agate := rfl
@[simp] theorem setDie_boot (s : State) (k : Nat) (x : Die) : (s.setDie k x).boot = s.boot := rfl
@[simp] theorem setDie_parkedList (s : State) (k : Nat) (x : Die) : (s.setDie k x).parkedList = s.parkedList := rfl
@[simp] theorem setDie_turns (s : State) (k : Nat) (x : Die) : (s.setDie k x).turns = s.turns := rfl
@[simp] theorem setDie_focus (s : State) (k : Nat) (x : Die) : (s.setDie k x).focus = s.focus := rfl
@[simp] theorem setDie_cur (s : State) (k : Nat) (x : Die) : (s.setDie k x).cur = s.cur := rfl
@[simp] theorem setDie_uids (s : State) (k : Nat) (x : Die) : (s.setDie k x).uids = s.uids := rfl
@[simp] theorem setDie_fresh (s : State) (k : Nat) (x : Die) : (s.setDie k x).fresh = s.fresh := rfl
@[simp] theorem setDie_me (s : State) (k : Nat) (x : Die) : (s.setDie k x).me = s.me := rfl
@[simp] theorem setDie_thread (s : State) (k : Nat) (x : Die) (i : Nat) : (s.setDie k x).thread i = s.thread i := rfl
@[simp] theorem setDie_core (s : State) (k : Nat) (x : Die) (i : Nat) : (s.setDie k x).core i = s.core i := rfl
@[simp] theorem setDie_cluster (s : State) (k : Nat) (x : Die) (i : Nat) : (s.setDie k x).cluster i = s.cluster i := rfl
@[simp] theorem setDie_stack (s : State) (k : Nat) (x : Die) (i : Nat) : (s.setDie k x).stack i = s.stack i := rfl
@[simp] theorem setDie_port (s : State) (k : Nat) (x : Die) (i : Nat) : (s.setDie k x).port i = s.port i := rfl
@[simp] theorem setDie_taskOf (s : State) (k : Nat) (x : Die) (i : Nat) : (s.setDie k x).taskOf i = s.taskOf i := rfl
@[simp] theorem setDie_th (s : State) (k : Nat) (x : Die) : (s.setDie k x).th = s.th := rfl

@[simp] theorem modDie_mem (s : State) (k : Nat) (f : Die → Die) : (s.modDie k f).mem = s.mem := rfl
@[simp] theorem modDie_poison (s : State) (k : Nat) (f : Die → Die) : (s.modDie k f).poison = s.poison := rfl
@[simp] theorem modDie_now (s : State) (k : Nat) (f : Die → Die) : (s.modDie k f).now = s.now := rfl
@[simp] theorem modDie_thr (s : State) (k : Nat) (f : Die → Die) : (s.modDie k f).thr = s.thr := rfl
@[simp] theorem modDie_cores (s : State) (k : Nat) (f : Die → Die) : (s.modDie k f).cores = s.cores := rfl
@[simp] theorem modDie_clusters (s : State) (k : Nat) (f : Die → Die) : (s.modDie k f).clusters = s.clusters := rfl
@[simp] theorem modDie_hbm (s : State) (k : Nat) (f : Die → Die) : (s.modDie k f).hbm = s.hbm := rfl
@[simp] theorem modDie_lpOn (s : State) (k : Nat) (f : Die → Die) : (s.modDie k f).lpOn = s.lpOn := rfl
@[simp] theorem modDie_lpRefresh (s : State) (k : Nat) (f : Die → Die) : (s.modDie k f).lpRefresh = s.lpRefresh := rfl
@[simp] theorem modDie_bursts (s : State) (k : Nat) (f : Die → Die) : (s.modDie k f).bursts = s.bursts := rfl
@[simp] theorem modDie_heldWrites (s : State) (k : Nat) (f : Die → Die) : (s.modDie k f).heldWrites = s.heldWrites := rfl
@[simp] theorem modDie_tasks (s : State) (k : Nat) (f : Die → Die) : (s.modDie k f).tasks = s.tasks := rfl
@[simp] theorem modDie_slots (s : State) (k : Nat) (f : Die → Die) : (s.modDie k f).slots = s.slots := rfl
@[simp] theorem modDie_slotSeq (s : State) (k : Nat) (f : Die → Die) : (s.modDie k f).slotSeq = s.slotSeq := rfl
@[simp] theorem modDie_ctxs (s : State) (k : Nat) (f : Die → Die) : (s.modDie k f).ctxs = s.ctxs := rfl
@[simp] theorem modDie_ring (s : State) (k : Nat) (f : Die → Die) : (s.modDie k f).ring = s.ring := rfl
@[simp] theorem modDie_sched (s : State) (k : Nat) (f : Die → Die) : (s.modDie k f).sched = s.sched := rfl
@[simp] theorem modDie_energy (s : State) (k : Nat) (f : Die → Die) : (s.modDie k f).energy = s.energy := rfl
@[simp] theorem modDie_evq (s : State) (k : Nat) (f : Die → Die) : (s.modDie k f).evq = s.evq := rfl
@[simp] theorem modDie_errs (s : State) (k : Nat) (f : Die → Die) : (s.modDie k f).errs = s.errs := rfl
@[simp] theorem modDie_banks (s : State) (k : Nat) (f : Die → Die) : (s.modDie k f).banks = s.banks := rfl
@[simp] theorem modDie_latent (s : State) (k : Nat) (f : Die → Die) : (s.modDie k f).latent = s.latent := rfl
@[simp] theorem modDie_copies (s : State) (k : Nat) (f : Die → Die) : (s.modDie k f).copies = s.copies := rfl
@[simp] theorem modDie_copySlot (s : State) (k : Nat) (f : Die → Die) : (s.modDie k f).copySlot = s.copySlot := rfl
@[simp] theorem modDie_slotTabs (s : State) (k : Nat) (f : Die → Die) : (s.modDie k f).slotTabs = s.slotTabs := rfl
@[simp] theorem modDie_slotNext (s : State) (k : Nat) (f : Die → Die) : (s.modDie k f).slotNext = s.slotNext := rfl
@[simp] theorem modDie_portSlot (s : State) (k : Nat) (f : Die → Die) : (s.modDie k f).portSlot = s.portSlot := rfl
@[simp] theorem modDie_barAdds (s : State) (k : Nat) (f : Die → Die) : (s.modDie k f).barAdds = s.barAdds := rfl
@[simp] theorem modDie_colls (s : State) (k : Nat) (f : Die → Die) : (s.modDie k f).colls = s.colls := rfl
@[simp] theorem modDie_comms (s : State) (k : Nat) (f : Die → Die) : (s.modDie k f).comms = s.comms := rfl
@[simp] theorem modDie_peers (s : State) (k : Nat) (f : Die → Die) : (s.modDie k f).peers = s.peers := rfl
@[simp] theorem modDie_collRecs (s : State) (k : Nat) (f : Die → Die) : (s.modDie k f).collRecs = s.collRecs := rfl
@[simp] theorem modDie_peerWrote (s : State) (k : Nat) (f : Die → Die) : (s.modDie k f).peerWrote = s.peerWrote := rfl
@[simp] theorem modDie_sysRel (s : State) (k : Nat) (f : Die → Die) : (s.modDie k f).sysRel = s.sysRel := rfl
@[simp] theorem modDie_eth (s : State) (k : Nat) (f : Die → Die) : (s.modDie k f).eth = s.eth := rfl
@[simp] theorem modDie_ports (s : State) (k : Nat) (f : Die → Die) : (s.modDie k f).ports = s.ports := rfl
@[simp] theorem modDie_win (s : State) (k : Nat) (f : Die → Die) : (s.modDie k f).win = s.win := rfl
@[simp] theorem modDie_qBound (s : State) (k : Nat) (f : Die → Die) : (s.modDie k f).qBound = s.qBound := rfl
@[simp] theorem modDie_qPort (s : State) (k : Nat) (f : Die → Die) : (s.modDie k f).qPort = s.qPort := rfl
@[simp] theorem modDie_shoots (s : State) (k : Nat) (f : Die → Die) : (s.modDie k f).shoots = s.shoots := rfl
@[simp] theorem modDie_snapRoots (s : State) (k : Nat) (f : Die → Die) : (s.modDie k f).snapRoots = s.snapRoots := rfl
@[simp] theorem modDie_telem (s : State) (k : Nat) (f : Die → Die) : (s.modDie k f).telem = s.telem := rfl
@[simp] theorem modDie_agate (s : State) (k : Nat) (f : Die → Die) : (s.modDie k f).agate = s.agate := rfl
@[simp] theorem modDie_boot (s : State) (k : Nat) (f : Die → Die) : (s.modDie k f).boot = s.boot := rfl
@[simp] theorem modDie_parkedList (s : State) (k : Nat) (f : Die → Die) : (s.modDie k f).parkedList = s.parkedList := rfl
@[simp] theorem modDie_turns (s : State) (k : Nat) (f : Die → Die) : (s.modDie k f).turns = s.turns := rfl
@[simp] theorem modDie_focus (s : State) (k : Nat) (f : Die → Die) : (s.modDie k f).focus = s.focus := rfl
@[simp] theorem modDie_cur (s : State) (k : Nat) (f : Die → Die) : (s.modDie k f).cur = s.cur := rfl
@[simp] theorem modDie_uids (s : State) (k : Nat) (f : Die → Die) : (s.modDie k f).uids = s.uids := rfl
@[simp] theorem modDie_fresh (s : State) (k : Nat) (f : Die → Die) : (s.modDie k f).fresh = s.fresh := rfl
@[simp] theorem modDie_me (s : State) (k : Nat) (f : Die → Die) : (s.modDie k f).me = s.me := rfl
@[simp] theorem modDie_thread (s : State) (k : Nat) (f : Die → Die) (i : Nat) : (s.modDie k f).thread i = s.thread i := rfl
@[simp] theorem modDie_core (s : State) (k : Nat) (f : Die → Die) (i : Nat) : (s.modDie k f).core i = s.core i := rfl
@[simp] theorem modDie_cluster (s : State) (k : Nat) (f : Die → Die) (i : Nat) : (s.modDie k f).cluster i = s.cluster i := rfl
@[simp] theorem modDie_stack (s : State) (k : Nat) (f : Die → Die) (i : Nat) : (s.modDie k f).stack i = s.stack i := rfl
@[simp] theorem modDie_port (s : State) (k : Nat) (f : Die → Die) (i : Nat) : (s.modDie k f).port i = s.port i := rfl
@[simp] theorem modDie_taskOf (s : State) (k : Nat) (f : Die → Die) (i : Nat) : (s.modDie k f).taskOf i = s.taskOf i := rfl
@[simp] theorem modDie_th (s : State) (k : Nat) (f : Die → Die) : (s.modDie k f).th = s.th := rfl

@[simp] theorem setStack_mem (s : State) (k : Nat) (x : Stack) : (s.setStack k x).mem = s.mem := rfl
@[simp] theorem setStack_poison (s : State) (k : Nat) (x : Stack) : (s.setStack k x).poison = s.poison := rfl
@[simp] theorem setStack_now (s : State) (k : Nat) (x : Stack) : (s.setStack k x).now = s.now := rfl
@[simp] theorem setStack_thr (s : State) (k : Nat) (x : Stack) : (s.setStack k x).thr = s.thr := rfl
@[simp] theorem setStack_cores (s : State) (k : Nat) (x : Stack) : (s.setStack k x).cores = s.cores := rfl
@[simp] theorem setStack_clusters (s : State) (k : Nat) (x : Stack) : (s.setStack k x).clusters = s.clusters := rfl
@[simp] theorem setStack_dies (s : State) (k : Nat) (x : Stack) : (s.setStack k x).dies = s.dies := rfl
@[simp] theorem setStack_lpOn (s : State) (k : Nat) (x : Stack) : (s.setStack k x).lpOn = s.lpOn := rfl
@[simp] theorem setStack_lpRefresh (s : State) (k : Nat) (x : Stack) : (s.setStack k x).lpRefresh = s.lpRefresh := rfl
@[simp] theorem setStack_bursts (s : State) (k : Nat) (x : Stack) : (s.setStack k x).bursts = s.bursts := rfl
@[simp] theorem setStack_heldWrites (s : State) (k : Nat) (x : Stack) : (s.setStack k x).heldWrites = s.heldWrites := rfl
@[simp] theorem setStack_tasks (s : State) (k : Nat) (x : Stack) : (s.setStack k x).tasks = s.tasks := rfl
@[simp] theorem setStack_slots (s : State) (k : Nat) (x : Stack) : (s.setStack k x).slots = s.slots := rfl
@[simp] theorem setStack_slotSeq (s : State) (k : Nat) (x : Stack) : (s.setStack k x).slotSeq = s.slotSeq := rfl
@[simp] theorem setStack_ctxs (s : State) (k : Nat) (x : Stack) : (s.setStack k x).ctxs = s.ctxs := rfl
@[simp] theorem setStack_ring (s : State) (k : Nat) (x : Stack) : (s.setStack k x).ring = s.ring := rfl
@[simp] theorem setStack_sched (s : State) (k : Nat) (x : Stack) : (s.setStack k x).sched = s.sched := rfl
@[simp] theorem setStack_energy (s : State) (k : Nat) (x : Stack) : (s.setStack k x).energy = s.energy := rfl
@[simp] theorem setStack_evq (s : State) (k : Nat) (x : Stack) : (s.setStack k x).evq = s.evq := rfl
@[simp] theorem setStack_errs (s : State) (k : Nat) (x : Stack) : (s.setStack k x).errs = s.errs := rfl
@[simp] theorem setStack_banks (s : State) (k : Nat) (x : Stack) : (s.setStack k x).banks = s.banks := rfl
@[simp] theorem setStack_latent (s : State) (k : Nat) (x : Stack) : (s.setStack k x).latent = s.latent := rfl
@[simp] theorem setStack_copies (s : State) (k : Nat) (x : Stack) : (s.setStack k x).copies = s.copies := rfl
@[simp] theorem setStack_copySlot (s : State) (k : Nat) (x : Stack) : (s.setStack k x).copySlot = s.copySlot := rfl
@[simp] theorem setStack_slotTabs (s : State) (k : Nat) (x : Stack) : (s.setStack k x).slotTabs = s.slotTabs := rfl
@[simp] theorem setStack_slotNext (s : State) (k : Nat) (x : Stack) : (s.setStack k x).slotNext = s.slotNext := rfl
@[simp] theorem setStack_portSlot (s : State) (k : Nat) (x : Stack) : (s.setStack k x).portSlot = s.portSlot := rfl
@[simp] theorem setStack_barAdds (s : State) (k : Nat) (x : Stack) : (s.setStack k x).barAdds = s.barAdds := rfl
@[simp] theorem setStack_colls (s : State) (k : Nat) (x : Stack) : (s.setStack k x).colls = s.colls := rfl
@[simp] theorem setStack_comms (s : State) (k : Nat) (x : Stack) : (s.setStack k x).comms = s.comms := rfl
@[simp] theorem setStack_peers (s : State) (k : Nat) (x : Stack) : (s.setStack k x).peers = s.peers := rfl
@[simp] theorem setStack_collRecs (s : State) (k : Nat) (x : Stack) : (s.setStack k x).collRecs = s.collRecs := rfl
@[simp] theorem setStack_peerWrote (s : State) (k : Nat) (x : Stack) : (s.setStack k x).peerWrote = s.peerWrote := rfl
@[simp] theorem setStack_sysRel (s : State) (k : Nat) (x : Stack) : (s.setStack k x).sysRel = s.sysRel := rfl
@[simp] theorem setStack_eth (s : State) (k : Nat) (x : Stack) : (s.setStack k x).eth = s.eth := rfl
@[simp] theorem setStack_ports (s : State) (k : Nat) (x : Stack) : (s.setStack k x).ports = s.ports := rfl
@[simp] theorem setStack_win (s : State) (k : Nat) (x : Stack) : (s.setStack k x).win = s.win := rfl
@[simp] theorem setStack_qBound (s : State) (k : Nat) (x : Stack) : (s.setStack k x).qBound = s.qBound := rfl
@[simp] theorem setStack_qPort (s : State) (k : Nat) (x : Stack) : (s.setStack k x).qPort = s.qPort := rfl
@[simp] theorem setStack_shoots (s : State) (k : Nat) (x : Stack) : (s.setStack k x).shoots = s.shoots := rfl
@[simp] theorem setStack_snapRoots (s : State) (k : Nat) (x : Stack) : (s.setStack k x).snapRoots = s.snapRoots := rfl
@[simp] theorem setStack_telem (s : State) (k : Nat) (x : Stack) : (s.setStack k x).telem = s.telem := rfl
@[simp] theorem setStack_agate (s : State) (k : Nat) (x : Stack) : (s.setStack k x).agate = s.agate := rfl
@[simp] theorem setStack_boot (s : State) (k : Nat) (x : Stack) : (s.setStack k x).boot = s.boot := rfl
@[simp] theorem setStack_parkedList (s : State) (k : Nat) (x : Stack) : (s.setStack k x).parkedList = s.parkedList := rfl
@[simp] theorem setStack_turns (s : State) (k : Nat) (x : Stack) : (s.setStack k x).turns = s.turns := rfl
@[simp] theorem setStack_focus (s : State) (k : Nat) (x : Stack) : (s.setStack k x).focus = s.focus := rfl
@[simp] theorem setStack_cur (s : State) (k : Nat) (x : Stack) : (s.setStack k x).cur = s.cur := rfl
@[simp] theorem setStack_uids (s : State) (k : Nat) (x : Stack) : (s.setStack k x).uids = s.uids := rfl
@[simp] theorem setStack_fresh (s : State) (k : Nat) (x : Stack) : (s.setStack k x).fresh = s.fresh := rfl
@[simp] theorem setStack_me (s : State) (k : Nat) (x : Stack) : (s.setStack k x).me = s.me := rfl
@[simp] theorem setStack_thread (s : State) (k : Nat) (x : Stack) (i : Nat) : (s.setStack k x).thread i = s.thread i := rfl
@[simp] theorem setStack_core (s : State) (k : Nat) (x : Stack) (i : Nat) : (s.setStack k x).core i = s.core i := rfl
@[simp] theorem setStack_cluster (s : State) (k : Nat) (x : Stack) (i : Nat) : (s.setStack k x).cluster i = s.cluster i := rfl
@[simp] theorem setStack_die (s : State) (k : Nat) (x : Stack) (i : Nat) : (s.setStack k x).die i = s.die i := rfl
@[simp] theorem setStack_port (s : State) (k : Nat) (x : Stack) (i : Nat) : (s.setStack k x).port i = s.port i := rfl
@[simp] theorem setStack_taskOf (s : State) (k : Nat) (x : Stack) (i : Nat) : (s.setStack k x).taskOf i = s.taskOf i := rfl
@[simp] theorem setStack_th (s : State) (k : Nat) (x : Stack) : (s.setStack k x).th = s.th := rfl

@[simp] theorem modStack_mem (s : State) (k : Nat) (f : Stack → Stack) : (s.modStack k f).mem = s.mem := rfl
@[simp] theorem modStack_poison (s : State) (k : Nat) (f : Stack → Stack) : (s.modStack k f).poison = s.poison := rfl
@[simp] theorem modStack_now (s : State) (k : Nat) (f : Stack → Stack) : (s.modStack k f).now = s.now := rfl
@[simp] theorem modStack_thr (s : State) (k : Nat) (f : Stack → Stack) : (s.modStack k f).thr = s.thr := rfl
@[simp] theorem modStack_cores (s : State) (k : Nat) (f : Stack → Stack) : (s.modStack k f).cores = s.cores := rfl
@[simp] theorem modStack_clusters (s : State) (k : Nat) (f : Stack → Stack) : (s.modStack k f).clusters = s.clusters := rfl
@[simp] theorem modStack_dies (s : State) (k : Nat) (f : Stack → Stack) : (s.modStack k f).dies = s.dies := rfl
@[simp] theorem modStack_lpOn (s : State) (k : Nat) (f : Stack → Stack) : (s.modStack k f).lpOn = s.lpOn := rfl
@[simp] theorem modStack_lpRefresh (s : State) (k : Nat) (f : Stack → Stack) : (s.modStack k f).lpRefresh = s.lpRefresh := rfl
@[simp] theorem modStack_bursts (s : State) (k : Nat) (f : Stack → Stack) : (s.modStack k f).bursts = s.bursts := rfl
@[simp] theorem modStack_heldWrites (s : State) (k : Nat) (f : Stack → Stack) : (s.modStack k f).heldWrites = s.heldWrites := rfl
@[simp] theorem modStack_tasks (s : State) (k : Nat) (f : Stack → Stack) : (s.modStack k f).tasks = s.tasks := rfl
@[simp] theorem modStack_slots (s : State) (k : Nat) (f : Stack → Stack) : (s.modStack k f).slots = s.slots := rfl
@[simp] theorem modStack_slotSeq (s : State) (k : Nat) (f : Stack → Stack) : (s.modStack k f).slotSeq = s.slotSeq := rfl
@[simp] theorem modStack_ctxs (s : State) (k : Nat) (f : Stack → Stack) : (s.modStack k f).ctxs = s.ctxs := rfl
@[simp] theorem modStack_ring (s : State) (k : Nat) (f : Stack → Stack) : (s.modStack k f).ring = s.ring := rfl
@[simp] theorem modStack_sched (s : State) (k : Nat) (f : Stack → Stack) : (s.modStack k f).sched = s.sched := rfl
@[simp] theorem modStack_energy (s : State) (k : Nat) (f : Stack → Stack) : (s.modStack k f).energy = s.energy := rfl
@[simp] theorem modStack_evq (s : State) (k : Nat) (f : Stack → Stack) : (s.modStack k f).evq = s.evq := rfl
@[simp] theorem modStack_errs (s : State) (k : Nat) (f : Stack → Stack) : (s.modStack k f).errs = s.errs := rfl
@[simp] theorem modStack_banks (s : State) (k : Nat) (f : Stack → Stack) : (s.modStack k f).banks = s.banks := rfl
@[simp] theorem modStack_latent (s : State) (k : Nat) (f : Stack → Stack) : (s.modStack k f).latent = s.latent := rfl
@[simp] theorem modStack_copies (s : State) (k : Nat) (f : Stack → Stack) : (s.modStack k f).copies = s.copies := rfl
@[simp] theorem modStack_copySlot (s : State) (k : Nat) (f : Stack → Stack) : (s.modStack k f).copySlot = s.copySlot := rfl
@[simp] theorem modStack_slotTabs (s : State) (k : Nat) (f : Stack → Stack) : (s.modStack k f).slotTabs = s.slotTabs := rfl
@[simp] theorem modStack_slotNext (s : State) (k : Nat) (f : Stack → Stack) : (s.modStack k f).slotNext = s.slotNext := rfl
@[simp] theorem modStack_portSlot (s : State) (k : Nat) (f : Stack → Stack) : (s.modStack k f).portSlot = s.portSlot := rfl
@[simp] theorem modStack_barAdds (s : State) (k : Nat) (f : Stack → Stack) : (s.modStack k f).barAdds = s.barAdds := rfl
@[simp] theorem modStack_colls (s : State) (k : Nat) (f : Stack → Stack) : (s.modStack k f).colls = s.colls := rfl
@[simp] theorem modStack_comms (s : State) (k : Nat) (f : Stack → Stack) : (s.modStack k f).comms = s.comms := rfl
@[simp] theorem modStack_peers (s : State) (k : Nat) (f : Stack → Stack) : (s.modStack k f).peers = s.peers := rfl
@[simp] theorem modStack_collRecs (s : State) (k : Nat) (f : Stack → Stack) : (s.modStack k f).collRecs = s.collRecs := rfl
@[simp] theorem modStack_peerWrote (s : State) (k : Nat) (f : Stack → Stack) : (s.modStack k f).peerWrote = s.peerWrote := rfl
@[simp] theorem modStack_sysRel (s : State) (k : Nat) (f : Stack → Stack) : (s.modStack k f).sysRel = s.sysRel := rfl
@[simp] theorem modStack_eth (s : State) (k : Nat) (f : Stack → Stack) : (s.modStack k f).eth = s.eth := rfl
@[simp] theorem modStack_ports (s : State) (k : Nat) (f : Stack → Stack) : (s.modStack k f).ports = s.ports := rfl
@[simp] theorem modStack_win (s : State) (k : Nat) (f : Stack → Stack) : (s.modStack k f).win = s.win := rfl
@[simp] theorem modStack_qBound (s : State) (k : Nat) (f : Stack → Stack) : (s.modStack k f).qBound = s.qBound := rfl
@[simp] theorem modStack_qPort (s : State) (k : Nat) (f : Stack → Stack) : (s.modStack k f).qPort = s.qPort := rfl
@[simp] theorem modStack_shoots (s : State) (k : Nat) (f : Stack → Stack) : (s.modStack k f).shoots = s.shoots := rfl
@[simp] theorem modStack_snapRoots (s : State) (k : Nat) (f : Stack → Stack) : (s.modStack k f).snapRoots = s.snapRoots := rfl
@[simp] theorem modStack_telem (s : State) (k : Nat) (f : Stack → Stack) : (s.modStack k f).telem = s.telem := rfl
@[simp] theorem modStack_agate (s : State) (k : Nat) (f : Stack → Stack) : (s.modStack k f).agate = s.agate := rfl
@[simp] theorem modStack_boot (s : State) (k : Nat) (f : Stack → Stack) : (s.modStack k f).boot = s.boot := rfl
@[simp] theorem modStack_parkedList (s : State) (k : Nat) (f : Stack → Stack) : (s.modStack k f).parkedList = s.parkedList := rfl
@[simp] theorem modStack_turns (s : State) (k : Nat) (f : Stack → Stack) : (s.modStack k f).turns = s.turns := rfl
@[simp] theorem modStack_focus (s : State) (k : Nat) (f : Stack → Stack) : (s.modStack k f).focus = s.focus := rfl
@[simp] theorem modStack_cur (s : State) (k : Nat) (f : Stack → Stack) : (s.modStack k f).cur = s.cur := rfl
@[simp] theorem modStack_uids (s : State) (k : Nat) (f : Stack → Stack) : (s.modStack k f).uids = s.uids := rfl
@[simp] theorem modStack_fresh (s : State) (k : Nat) (f : Stack → Stack) : (s.modStack k f).fresh = s.fresh := rfl
@[simp] theorem modStack_me (s : State) (k : Nat) (f : Stack → Stack) : (s.modStack k f).me = s.me := rfl
@[simp] theorem modStack_thread (s : State) (k : Nat) (f : Stack → Stack) (i : Nat) : (s.modStack k f).thread i = s.thread i := rfl
@[simp] theorem modStack_core (s : State) (k : Nat) (f : Stack → Stack) (i : Nat) : (s.modStack k f).core i = s.core i := rfl
@[simp] theorem modStack_cluster (s : State) (k : Nat) (f : Stack → Stack) (i : Nat) : (s.modStack k f).cluster i = s.cluster i := rfl
@[simp] theorem modStack_die (s : State) (k : Nat) (f : Stack → Stack) (i : Nat) : (s.modStack k f).die i = s.die i := rfl
@[simp] theorem modStack_port (s : State) (k : Nat) (f : Stack → Stack) (i : Nat) : (s.modStack k f).port i = s.port i := rfl
@[simp] theorem modStack_taskOf (s : State) (k : Nat) (f : Stack → Stack) (i : Nat) : (s.modStack k f).taskOf i = s.taskOf i := rfl
@[simp] theorem modStack_th (s : State) (k : Nat) (f : Stack → Stack) : (s.modStack k f).th = s.th := rfl

@[simp] theorem setPort_mem (s : State) (k : Nat) (x : Port) : (s.setPort k x).mem = s.mem := rfl
@[simp] theorem setPort_poison (s : State) (k : Nat) (x : Port) : (s.setPort k x).poison = s.poison := rfl
@[simp] theorem setPort_now (s : State) (k : Nat) (x : Port) : (s.setPort k x).now = s.now := rfl
@[simp] theorem setPort_thr (s : State) (k : Nat) (x : Port) : (s.setPort k x).thr = s.thr := rfl
@[simp] theorem setPort_cores (s : State) (k : Nat) (x : Port) : (s.setPort k x).cores = s.cores := rfl
@[simp] theorem setPort_clusters (s : State) (k : Nat) (x : Port) : (s.setPort k x).clusters = s.clusters := rfl
@[simp] theorem setPort_dies (s : State) (k : Nat) (x : Port) : (s.setPort k x).dies = s.dies := rfl
@[simp] theorem setPort_hbm (s : State) (k : Nat) (x : Port) : (s.setPort k x).hbm = s.hbm := rfl
@[simp] theorem setPort_lpOn (s : State) (k : Nat) (x : Port) : (s.setPort k x).lpOn = s.lpOn := rfl
@[simp] theorem setPort_lpRefresh (s : State) (k : Nat) (x : Port) : (s.setPort k x).lpRefresh = s.lpRefresh := rfl
@[simp] theorem setPort_bursts (s : State) (k : Nat) (x : Port) : (s.setPort k x).bursts = s.bursts := rfl
@[simp] theorem setPort_heldWrites (s : State) (k : Nat) (x : Port) : (s.setPort k x).heldWrites = s.heldWrites := rfl
@[simp] theorem setPort_tasks (s : State) (k : Nat) (x : Port) : (s.setPort k x).tasks = s.tasks := rfl
@[simp] theorem setPort_slots (s : State) (k : Nat) (x : Port) : (s.setPort k x).slots = s.slots := rfl
@[simp] theorem setPort_slotSeq (s : State) (k : Nat) (x : Port) : (s.setPort k x).slotSeq = s.slotSeq := rfl
@[simp] theorem setPort_ctxs (s : State) (k : Nat) (x : Port) : (s.setPort k x).ctxs = s.ctxs := rfl
@[simp] theorem setPort_ring (s : State) (k : Nat) (x : Port) : (s.setPort k x).ring = s.ring := rfl
@[simp] theorem setPort_sched (s : State) (k : Nat) (x : Port) : (s.setPort k x).sched = s.sched := rfl
@[simp] theorem setPort_energy (s : State) (k : Nat) (x : Port) : (s.setPort k x).energy = s.energy := rfl
@[simp] theorem setPort_evq (s : State) (k : Nat) (x : Port) : (s.setPort k x).evq = s.evq := rfl
@[simp] theorem setPort_errs (s : State) (k : Nat) (x : Port) : (s.setPort k x).errs = s.errs := rfl
@[simp] theorem setPort_banks (s : State) (k : Nat) (x : Port) : (s.setPort k x).banks = s.banks := rfl
@[simp] theorem setPort_latent (s : State) (k : Nat) (x : Port) : (s.setPort k x).latent = s.latent := rfl
@[simp] theorem setPort_copies (s : State) (k : Nat) (x : Port) : (s.setPort k x).copies = s.copies := rfl
@[simp] theorem setPort_copySlot (s : State) (k : Nat) (x : Port) : (s.setPort k x).copySlot = s.copySlot := rfl
@[simp] theorem setPort_slotTabs (s : State) (k : Nat) (x : Port) : (s.setPort k x).slotTabs = s.slotTabs := rfl
@[simp] theorem setPort_slotNext (s : State) (k : Nat) (x : Port) : (s.setPort k x).slotNext = s.slotNext := rfl
@[simp] theorem setPort_portSlot (s : State) (k : Nat) (x : Port) : (s.setPort k x).portSlot = s.portSlot := rfl
@[simp] theorem setPort_barAdds (s : State) (k : Nat) (x : Port) : (s.setPort k x).barAdds = s.barAdds := rfl
@[simp] theorem setPort_colls (s : State) (k : Nat) (x : Port) : (s.setPort k x).colls = s.colls := rfl
@[simp] theorem setPort_comms (s : State) (k : Nat) (x : Port) : (s.setPort k x).comms = s.comms := rfl
@[simp] theorem setPort_peers (s : State) (k : Nat) (x : Port) : (s.setPort k x).peers = s.peers := rfl
@[simp] theorem setPort_collRecs (s : State) (k : Nat) (x : Port) : (s.setPort k x).collRecs = s.collRecs := rfl
@[simp] theorem setPort_peerWrote (s : State) (k : Nat) (x : Port) : (s.setPort k x).peerWrote = s.peerWrote := rfl
@[simp] theorem setPort_sysRel (s : State) (k : Nat) (x : Port) : (s.setPort k x).sysRel = s.sysRel := rfl
@[simp] theorem setPort_eth (s : State) (k : Nat) (x : Port) : (s.setPort k x).eth = s.eth := rfl
@[simp] theorem setPort_win (s : State) (k : Nat) (x : Port) : (s.setPort k x).win = s.win := rfl
@[simp] theorem setPort_qBound (s : State) (k : Nat) (x : Port) : (s.setPort k x).qBound = s.qBound := rfl
@[simp] theorem setPort_qPort (s : State) (k : Nat) (x : Port) : (s.setPort k x).qPort = s.qPort := rfl
@[simp] theorem setPort_shoots (s : State) (k : Nat) (x : Port) : (s.setPort k x).shoots = s.shoots := rfl
@[simp] theorem setPort_snapRoots (s : State) (k : Nat) (x : Port) : (s.setPort k x).snapRoots = s.snapRoots := rfl
@[simp] theorem setPort_telem (s : State) (k : Nat) (x : Port) : (s.setPort k x).telem = s.telem := rfl
@[simp] theorem setPort_agate (s : State) (k : Nat) (x : Port) : (s.setPort k x).agate = s.agate := rfl
@[simp] theorem setPort_boot (s : State) (k : Nat) (x : Port) : (s.setPort k x).boot = s.boot := rfl
@[simp] theorem setPort_parkedList (s : State) (k : Nat) (x : Port) : (s.setPort k x).parkedList = s.parkedList := rfl
@[simp] theorem setPort_turns (s : State) (k : Nat) (x : Port) : (s.setPort k x).turns = s.turns := rfl
@[simp] theorem setPort_focus (s : State) (k : Nat) (x : Port) : (s.setPort k x).focus = s.focus := rfl
@[simp] theorem setPort_cur (s : State) (k : Nat) (x : Port) : (s.setPort k x).cur = s.cur := rfl
@[simp] theorem setPort_uids (s : State) (k : Nat) (x : Port) : (s.setPort k x).uids = s.uids := rfl
@[simp] theorem setPort_fresh (s : State) (k : Nat) (x : Port) : (s.setPort k x).fresh = s.fresh := rfl
@[simp] theorem setPort_me (s : State) (k : Nat) (x : Port) : (s.setPort k x).me = s.me := rfl
@[simp] theorem setPort_thread (s : State) (k : Nat) (x : Port) (i : Nat) : (s.setPort k x).thread i = s.thread i := rfl
@[simp] theorem setPort_core (s : State) (k : Nat) (x : Port) (i : Nat) : (s.setPort k x).core i = s.core i := rfl
@[simp] theorem setPort_cluster (s : State) (k : Nat) (x : Port) (i : Nat) : (s.setPort k x).cluster i = s.cluster i := rfl
@[simp] theorem setPort_die (s : State) (k : Nat) (x : Port) (i : Nat) : (s.setPort k x).die i = s.die i := rfl
@[simp] theorem setPort_stack (s : State) (k : Nat) (x : Port) (i : Nat) : (s.setPort k x).stack i = s.stack i := rfl
@[simp] theorem setPort_taskOf (s : State) (k : Nat) (x : Port) (i : Nat) : (s.setPort k x).taskOf i = s.taskOf i := rfl
@[simp] theorem setPort_th (s : State) (k : Nat) (x : Port) : (s.setPort k x).th = s.th := rfl

@[simp] theorem setSlot_mem (s : State) (k : Nat) (x : Slot) : (s.setSlot k x).mem = s.mem := rfl
@[simp] theorem setSlot_poison (s : State) (k : Nat) (x : Slot) : (s.setSlot k x).poison = s.poison := rfl
@[simp] theorem setSlot_now (s : State) (k : Nat) (x : Slot) : (s.setSlot k x).now = s.now := rfl
@[simp] theorem setSlot_thr (s : State) (k : Nat) (x : Slot) : (s.setSlot k x).thr = s.thr := rfl
@[simp] theorem setSlot_cores (s : State) (k : Nat) (x : Slot) : (s.setSlot k x).cores = s.cores := rfl
@[simp] theorem setSlot_clusters (s : State) (k : Nat) (x : Slot) : (s.setSlot k x).clusters = s.clusters := rfl
@[simp] theorem setSlot_dies (s : State) (k : Nat) (x : Slot) : (s.setSlot k x).dies = s.dies := rfl
@[simp] theorem setSlot_hbm (s : State) (k : Nat) (x : Slot) : (s.setSlot k x).hbm = s.hbm := rfl
@[simp] theorem setSlot_lpOn (s : State) (k : Nat) (x : Slot) : (s.setSlot k x).lpOn = s.lpOn := rfl
@[simp] theorem setSlot_lpRefresh (s : State) (k : Nat) (x : Slot) : (s.setSlot k x).lpRefresh = s.lpRefresh := rfl
@[simp] theorem setSlot_bursts (s : State) (k : Nat) (x : Slot) : (s.setSlot k x).bursts = s.bursts := rfl
@[simp] theorem setSlot_heldWrites (s : State) (k : Nat) (x : Slot) : (s.setSlot k x).heldWrites = s.heldWrites := rfl
@[simp] theorem setSlot_tasks (s : State) (k : Nat) (x : Slot) : (s.setSlot k x).tasks = s.tasks := rfl
@[simp] theorem setSlot_slotSeq (s : State) (k : Nat) (x : Slot) : (s.setSlot k x).slotSeq = s.slotSeq := rfl
@[simp] theorem setSlot_ctxs (s : State) (k : Nat) (x : Slot) : (s.setSlot k x).ctxs = s.ctxs := rfl
@[simp] theorem setSlot_ring (s : State) (k : Nat) (x : Slot) : (s.setSlot k x).ring = s.ring := rfl
@[simp] theorem setSlot_sched (s : State) (k : Nat) (x : Slot) : (s.setSlot k x).sched = s.sched := rfl
@[simp] theorem setSlot_energy (s : State) (k : Nat) (x : Slot) : (s.setSlot k x).energy = s.energy := rfl
@[simp] theorem setSlot_evq (s : State) (k : Nat) (x : Slot) : (s.setSlot k x).evq = s.evq := rfl
@[simp] theorem setSlot_errs (s : State) (k : Nat) (x : Slot) : (s.setSlot k x).errs = s.errs := rfl
@[simp] theorem setSlot_banks (s : State) (k : Nat) (x : Slot) : (s.setSlot k x).banks = s.banks := rfl
@[simp] theorem setSlot_latent (s : State) (k : Nat) (x : Slot) : (s.setSlot k x).latent = s.latent := rfl
@[simp] theorem setSlot_copies (s : State) (k : Nat) (x : Slot) : (s.setSlot k x).copies = s.copies := rfl
@[simp] theorem setSlot_copySlot (s : State) (k : Nat) (x : Slot) : (s.setSlot k x).copySlot = s.copySlot := rfl
@[simp] theorem setSlot_slotTabs (s : State) (k : Nat) (x : Slot) : (s.setSlot k x).slotTabs = s.slotTabs := rfl
@[simp] theorem setSlot_slotNext (s : State) (k : Nat) (x : Slot) : (s.setSlot k x).slotNext = s.slotNext := rfl
@[simp] theorem setSlot_portSlot (s : State) (k : Nat) (x : Slot) : (s.setSlot k x).portSlot = s.portSlot := rfl
@[simp] theorem setSlot_barAdds (s : State) (k : Nat) (x : Slot) : (s.setSlot k x).barAdds = s.barAdds := rfl
@[simp] theorem setSlot_colls (s : State) (k : Nat) (x : Slot) : (s.setSlot k x).colls = s.colls := rfl
@[simp] theorem setSlot_comms (s : State) (k : Nat) (x : Slot) : (s.setSlot k x).comms = s.comms := rfl
@[simp] theorem setSlot_peers (s : State) (k : Nat) (x : Slot) : (s.setSlot k x).peers = s.peers := rfl
@[simp] theorem setSlot_collRecs (s : State) (k : Nat) (x : Slot) : (s.setSlot k x).collRecs = s.collRecs := rfl
@[simp] theorem setSlot_peerWrote (s : State) (k : Nat) (x : Slot) : (s.setSlot k x).peerWrote = s.peerWrote := rfl
@[simp] theorem setSlot_sysRel (s : State) (k : Nat) (x : Slot) : (s.setSlot k x).sysRel = s.sysRel := rfl
@[simp] theorem setSlot_eth (s : State) (k : Nat) (x : Slot) : (s.setSlot k x).eth = s.eth := rfl
@[simp] theorem setSlot_ports (s : State) (k : Nat) (x : Slot) : (s.setSlot k x).ports = s.ports := rfl
@[simp] theorem setSlot_win (s : State) (k : Nat) (x : Slot) : (s.setSlot k x).win = s.win := rfl
@[simp] theorem setSlot_qBound (s : State) (k : Nat) (x : Slot) : (s.setSlot k x).qBound = s.qBound := rfl
@[simp] theorem setSlot_qPort (s : State) (k : Nat) (x : Slot) : (s.setSlot k x).qPort = s.qPort := rfl
@[simp] theorem setSlot_shoots (s : State) (k : Nat) (x : Slot) : (s.setSlot k x).shoots = s.shoots := rfl
@[simp] theorem setSlot_snapRoots (s : State) (k : Nat) (x : Slot) : (s.setSlot k x).snapRoots = s.snapRoots := rfl
@[simp] theorem setSlot_telem (s : State) (k : Nat) (x : Slot) : (s.setSlot k x).telem = s.telem := rfl
@[simp] theorem setSlot_agate (s : State) (k : Nat) (x : Slot) : (s.setSlot k x).agate = s.agate := rfl
@[simp] theorem setSlot_boot (s : State) (k : Nat) (x : Slot) : (s.setSlot k x).boot = s.boot := rfl
@[simp] theorem setSlot_parkedList (s : State) (k : Nat) (x : Slot) : (s.setSlot k x).parkedList = s.parkedList := rfl
@[simp] theorem setSlot_turns (s : State) (k : Nat) (x : Slot) : (s.setSlot k x).turns = s.turns := rfl
@[simp] theorem setSlot_focus (s : State) (k : Nat) (x : Slot) : (s.setSlot k x).focus = s.focus := rfl
@[simp] theorem setSlot_cur (s : State) (k : Nat) (x : Slot) : (s.setSlot k x).cur = s.cur := rfl
@[simp] theorem setSlot_uids (s : State) (k : Nat) (x : Slot) : (s.setSlot k x).uids = s.uids := rfl
@[simp] theorem setSlot_fresh (s : State) (k : Nat) (x : Slot) : (s.setSlot k x).fresh = s.fresh := rfl
@[simp] theorem setSlot_me (s : State) (k : Nat) (x : Slot) : (s.setSlot k x).me = s.me := rfl
@[simp] theorem setSlot_thread (s : State) (k : Nat) (x : Slot) (i : Nat) : (s.setSlot k x).thread i = s.thread i := rfl
@[simp] theorem setSlot_core (s : State) (k : Nat) (x : Slot) (i : Nat) : (s.setSlot k x).core i = s.core i := rfl
@[simp] theorem setSlot_cluster (s : State) (k : Nat) (x : Slot) (i : Nat) : (s.setSlot k x).cluster i = s.cluster i := rfl
@[simp] theorem setSlot_die (s : State) (k : Nat) (x : Slot) (i : Nat) : (s.setSlot k x).die i = s.die i := rfl
@[simp] theorem setSlot_stack (s : State) (k : Nat) (x : Slot) (i : Nat) : (s.setSlot k x).stack i = s.stack i := rfl
@[simp] theorem setSlot_port (s : State) (k : Nat) (x : Slot) (i : Nat) : (s.setSlot k x).port i = s.port i := rfl
@[simp] theorem setSlot_taskOf (s : State) (k : Nat) (x : Slot) (i : Nat) : (s.setSlot k x).taskOf i = s.taskOf i := rfl
@[simp] theorem setSlot_th (s : State) (k : Nat) (x : Slot) : (s.setSlot k x).th = s.th := rfl

@[simp] theorem issuing_mem (s : State) (c : Cur) : (s.issuing c).mem = s.mem := rfl
@[simp] theorem issuing_poison (s : State) (c : Cur) : (s.issuing c).poison = s.poison := rfl
@[simp] theorem issuing_now (s : State) (c : Cur) : (s.issuing c).now = s.now := rfl
@[simp] theorem issuing_thr (s : State) (c : Cur) : (s.issuing c).thr = s.thr := rfl
@[simp] theorem issuing_cores (s : State) (c : Cur) : (s.issuing c).cores = s.cores := rfl
@[simp] theorem issuing_clusters (s : State) (c : Cur) : (s.issuing c).clusters = s.clusters := rfl
@[simp] theorem issuing_dies (s : State) (c : Cur) : (s.issuing c).dies = s.dies := rfl
@[simp] theorem issuing_hbm (s : State) (c : Cur) : (s.issuing c).hbm = s.hbm := rfl
@[simp] theorem issuing_lpOn (s : State) (c : Cur) : (s.issuing c).lpOn = s.lpOn := rfl
@[simp] theorem issuing_lpRefresh (s : State) (c : Cur) : (s.issuing c).lpRefresh = s.lpRefresh := rfl
@[simp] theorem issuing_bursts (s : State) (c : Cur) : (s.issuing c).bursts = s.bursts := rfl
@[simp] theorem issuing_heldWrites (s : State) (c : Cur) : (s.issuing c).heldWrites = s.heldWrites := rfl
@[simp] theorem issuing_tasks (s : State) (c : Cur) : (s.issuing c).tasks = s.tasks := rfl
@[simp] theorem issuing_slots (s : State) (c : Cur) : (s.issuing c).slots = s.slots := rfl
@[simp] theorem issuing_slotSeq (s : State) (c : Cur) : (s.issuing c).slotSeq = s.slotSeq := rfl
@[simp] theorem issuing_ctxs (s : State) (c : Cur) : (s.issuing c).ctxs = s.ctxs := rfl
@[simp] theorem issuing_ring (s : State) (c : Cur) : (s.issuing c).ring = s.ring := rfl
@[simp] theorem issuing_sched (s : State) (c : Cur) : (s.issuing c).sched = s.sched := rfl
@[simp] theorem issuing_energy (s : State) (c : Cur) : (s.issuing c).energy = s.energy := rfl
@[simp] theorem issuing_evq (s : State) (c : Cur) : (s.issuing c).evq = s.evq := rfl
@[simp] theorem issuing_errs (s : State) (c : Cur) : (s.issuing c).errs = s.errs := rfl
@[simp] theorem issuing_banks (s : State) (c : Cur) : (s.issuing c).banks = s.banks := rfl
@[simp] theorem issuing_latent (s : State) (c : Cur) : (s.issuing c).latent = s.latent := rfl
@[simp] theorem issuing_copies (s : State) (c : Cur) : (s.issuing c).copies = s.copies := rfl
@[simp] theorem issuing_copySlot (s : State) (c : Cur) : (s.issuing c).copySlot = s.copySlot := rfl
@[simp] theorem issuing_slotTabs (s : State) (c : Cur) : (s.issuing c).slotTabs = s.slotTabs := rfl
@[simp] theorem issuing_slotNext (s : State) (c : Cur) : (s.issuing c).slotNext = s.slotNext := rfl
@[simp] theorem issuing_portSlot (s : State) (c : Cur) : (s.issuing c).portSlot = s.portSlot := rfl
@[simp] theorem issuing_barAdds (s : State) (c : Cur) : (s.issuing c).barAdds = s.barAdds := rfl
@[simp] theorem issuing_colls (s : State) (c : Cur) : (s.issuing c).colls = s.colls := rfl
@[simp] theorem issuing_comms (s : State) (c : Cur) : (s.issuing c).comms = s.comms := rfl
@[simp] theorem issuing_peers (s : State) (c : Cur) : (s.issuing c).peers = s.peers := rfl
@[simp] theorem issuing_collRecs (s : State) (c : Cur) : (s.issuing c).collRecs = s.collRecs := rfl
@[simp] theorem issuing_peerWrote (s : State) (c : Cur) : (s.issuing c).peerWrote = s.peerWrote := rfl
@[simp] theorem issuing_sysRel (s : State) (c : Cur) : (s.issuing c).sysRel = s.sysRel := rfl
@[simp] theorem issuing_eth (s : State) (c : Cur) : (s.issuing c).eth = s.eth := rfl
@[simp] theorem issuing_ports (s : State) (c : Cur) : (s.issuing c).ports = s.ports := rfl
@[simp] theorem issuing_win (s : State) (c : Cur) : (s.issuing c).win = s.win := rfl
@[simp] theorem issuing_qBound (s : State) (c : Cur) : (s.issuing c).qBound = s.qBound := rfl
@[simp] theorem issuing_qPort (s : State) (c : Cur) : (s.issuing c).qPort = s.qPort := rfl
@[simp] theorem issuing_shoots (s : State) (c : Cur) : (s.issuing c).shoots = s.shoots := rfl
@[simp] theorem issuing_snapRoots (s : State) (c : Cur) : (s.issuing c).snapRoots = s.snapRoots := rfl
@[simp] theorem issuing_telem (s : State) (c : Cur) : (s.issuing c).telem = s.telem := rfl
@[simp] theorem issuing_agate (s : State) (c : Cur) : (s.issuing c).agate = s.agate := rfl
@[simp] theorem issuing_boot (s : State) (c : Cur) : (s.issuing c).boot = s.boot := rfl
@[simp] theorem issuing_parkedList (s : State) (c : Cur) : (s.issuing c).parkedList = s.parkedList := rfl
@[simp] theorem issuing_turns (s : State) (c : Cur) : (s.issuing c).turns = s.turns := rfl
@[simp] theorem issuing_focus (s : State) (c : Cur) : (s.issuing c).focus = s.focus := rfl
@[simp] theorem issuing_uids (s : State) (c : Cur) : (s.issuing c).uids = s.uids := rfl
@[simp] theorem issuing_fresh (s : State) (c : Cur) : (s.issuing c).fresh = s.fresh := rfl
@[simp] theorem issuing_me (s : State) (c : Cur) : (s.issuing c).me = s.me := rfl
@[simp] theorem issuing_thread (s : State) (c : Cur) (i : Nat) : (s.issuing c).thread i = s.thread i := rfl
@[simp] theorem issuing_core (s : State) (c : Cur) (i : Nat) : (s.issuing c).core i = s.core i := rfl
@[simp] theorem issuing_cluster (s : State) (c : Cur) (i : Nat) : (s.issuing c).cluster i = s.cluster i := rfl
@[simp] theorem issuing_die (s : State) (c : Cur) (i : Nat) : (s.issuing c).die i = s.die i := rfl
@[simp] theorem issuing_stack (s : State) (c : Cur) (i : Nat) : (s.issuing c).stack i = s.stack i := rfl
@[simp] theorem issuing_port (s : State) (c : Cur) (i : Nat) : (s.issuing c).port i = s.port i := rfl
@[simp] theorem issuing_taskOf (s : State) (c : Cur) (i : Nat) : (s.issuing c).taskOf i = s.taskOf i := rfl
@[simp] theorem issuing_th (s : State) (c : Cur) : (s.issuing c).th = s.th := rfl

@[simp] theorem setTask_mem (s : State) (x : Task) : (s.setTask x).mem = s.mem := rfl
@[simp] theorem setTask_poison (s : State) (x : Task) : (s.setTask x).poison = s.poison := rfl
@[simp] theorem setTask_now (s : State) (x : Task) : (s.setTask x).now = s.now := rfl
@[simp] theorem setTask_thr (s : State) (x : Task) : (s.setTask x).thr = s.thr := rfl
@[simp] theorem setTask_cores (s : State) (x : Task) : (s.setTask x).cores = s.cores := rfl
@[simp] theorem setTask_clusters (s : State) (x : Task) : (s.setTask x).clusters = s.clusters := rfl
@[simp] theorem setTask_dies (s : State) (x : Task) : (s.setTask x).dies = s.dies := rfl
@[simp] theorem setTask_hbm (s : State) (x : Task) : (s.setTask x).hbm = s.hbm := rfl
@[simp] theorem setTask_lpOn (s : State) (x : Task) : (s.setTask x).lpOn = s.lpOn := rfl
@[simp] theorem setTask_lpRefresh (s : State) (x : Task) : (s.setTask x).lpRefresh = s.lpRefresh := rfl
@[simp] theorem setTask_bursts (s : State) (x : Task) : (s.setTask x).bursts = s.bursts := rfl
@[simp] theorem setTask_heldWrites (s : State) (x : Task) : (s.setTask x).heldWrites = s.heldWrites := rfl
@[simp] theorem setTask_slots (s : State) (x : Task) : (s.setTask x).slots = s.slots := rfl
@[simp] theorem setTask_slotSeq (s : State) (x : Task) : (s.setTask x).slotSeq = s.slotSeq := rfl
@[simp] theorem setTask_ctxs (s : State) (x : Task) : (s.setTask x).ctxs = s.ctxs := rfl
@[simp] theorem setTask_ring (s : State) (x : Task) : (s.setTask x).ring = s.ring := rfl
@[simp] theorem setTask_sched (s : State) (x : Task) : (s.setTask x).sched = s.sched := rfl
@[simp] theorem setTask_energy (s : State) (x : Task) : (s.setTask x).energy = s.energy := rfl
@[simp] theorem setTask_evq (s : State) (x : Task) : (s.setTask x).evq = s.evq := rfl
@[simp] theorem setTask_errs (s : State) (x : Task) : (s.setTask x).errs = s.errs := rfl
@[simp] theorem setTask_banks (s : State) (x : Task) : (s.setTask x).banks = s.banks := rfl
@[simp] theorem setTask_latent (s : State) (x : Task) : (s.setTask x).latent = s.latent := rfl
@[simp] theorem setTask_copies (s : State) (x : Task) : (s.setTask x).copies = s.copies := rfl
@[simp] theorem setTask_copySlot (s : State) (x : Task) : (s.setTask x).copySlot = s.copySlot := rfl
@[simp] theorem setTask_slotTabs (s : State) (x : Task) : (s.setTask x).slotTabs = s.slotTabs := rfl
@[simp] theorem setTask_slotNext (s : State) (x : Task) : (s.setTask x).slotNext = s.slotNext := rfl
@[simp] theorem setTask_portSlot (s : State) (x : Task) : (s.setTask x).portSlot = s.portSlot := rfl
@[simp] theorem setTask_barAdds (s : State) (x : Task) : (s.setTask x).barAdds = s.barAdds := rfl
@[simp] theorem setTask_colls (s : State) (x : Task) : (s.setTask x).colls = s.colls := rfl
@[simp] theorem setTask_comms (s : State) (x : Task) : (s.setTask x).comms = s.comms := rfl
@[simp] theorem setTask_peers (s : State) (x : Task) : (s.setTask x).peers = s.peers := rfl
@[simp] theorem setTask_collRecs (s : State) (x : Task) : (s.setTask x).collRecs = s.collRecs := rfl
@[simp] theorem setTask_peerWrote (s : State) (x : Task) : (s.setTask x).peerWrote = s.peerWrote := rfl
@[simp] theorem setTask_sysRel (s : State) (x : Task) : (s.setTask x).sysRel = s.sysRel := rfl
@[simp] theorem setTask_eth (s : State) (x : Task) : (s.setTask x).eth = s.eth := rfl
@[simp] theorem setTask_ports (s : State) (x : Task) : (s.setTask x).ports = s.ports := rfl
@[simp] theorem setTask_win (s : State) (x : Task) : (s.setTask x).win = s.win := rfl
@[simp] theorem setTask_qBound (s : State) (x : Task) : (s.setTask x).qBound = s.qBound := rfl
@[simp] theorem setTask_qPort (s : State) (x : Task) : (s.setTask x).qPort = s.qPort := rfl
@[simp] theorem setTask_shoots (s : State) (x : Task) : (s.setTask x).shoots = s.shoots := rfl
@[simp] theorem setTask_snapRoots (s : State) (x : Task) : (s.setTask x).snapRoots = s.snapRoots := rfl
@[simp] theorem setTask_telem (s : State) (x : Task) : (s.setTask x).telem = s.telem := rfl
@[simp] theorem setTask_agate (s : State) (x : Task) : (s.setTask x).agate = s.agate := rfl
@[simp] theorem setTask_boot (s : State) (x : Task) : (s.setTask x).boot = s.boot := rfl
@[simp] theorem setTask_parkedList (s : State) (x : Task) : (s.setTask x).parkedList = s.parkedList := rfl
@[simp] theorem setTask_turns (s : State) (x : Task) : (s.setTask x).turns = s.turns := rfl
@[simp] theorem setTask_focus (s : State) (x : Task) : (s.setTask x).focus = s.focus := rfl
@[simp] theorem setTask_cur (s : State) (x : Task) : (s.setTask x).cur = s.cur := rfl
@[simp] theorem setTask_uids (s : State) (x : Task) : (s.setTask x).uids = s.uids := rfl
@[simp] theorem setTask_fresh (s : State) (x : Task) : (s.setTask x).fresh = s.fresh := rfl
@[simp] theorem setTask_me (s : State) (x : Task) : (s.setTask x).me = s.me := rfl
@[simp] theorem setTask_thread (s : State) (x : Task) (i : Nat) : (s.setTask x).thread i = s.thread i := rfl
@[simp] theorem setTask_core (s : State) (x : Task) (i : Nat) : (s.setTask x).core i = s.core i := rfl
@[simp] theorem setTask_cluster (s : State) (x : Task) (i : Nat) : (s.setTask x).cluster i = s.cluster i := rfl
@[simp] theorem setTask_die (s : State) (x : Task) (i : Nat) : (s.setTask x).die i = s.die i := rfl
@[simp] theorem setTask_stack (s : State) (x : Task) (i : Nat) : (s.setTask x).stack i = s.stack i := rfl
@[simp] theorem setTask_port (s : State) (x : Task) (i : Nat) : (s.setTask x).port i = s.port i := rfl
@[simp] theorem setTask_th (s : State) (x : Task) : (s.setTask x).th = s.th := rfl

@[simp] theorem modTask_mem (s : State) (k : Nat) (f : Task → Task) : (s.modTask k f).mem = s.mem := rfl
@[simp] theorem modTask_poison (s : State) (k : Nat) (f : Task → Task) : (s.modTask k f).poison = s.poison := rfl
@[simp] theorem modTask_now (s : State) (k : Nat) (f : Task → Task) : (s.modTask k f).now = s.now := rfl
@[simp] theorem modTask_thr (s : State) (k : Nat) (f : Task → Task) : (s.modTask k f).thr = s.thr := rfl
@[simp] theorem modTask_cores (s : State) (k : Nat) (f : Task → Task) : (s.modTask k f).cores = s.cores := rfl
@[simp] theorem modTask_clusters (s : State) (k : Nat) (f : Task → Task) : (s.modTask k f).clusters = s.clusters := rfl
@[simp] theorem modTask_dies (s : State) (k : Nat) (f : Task → Task) : (s.modTask k f).dies = s.dies := rfl
@[simp] theorem modTask_hbm (s : State) (k : Nat) (f : Task → Task) : (s.modTask k f).hbm = s.hbm := rfl
@[simp] theorem modTask_lpOn (s : State) (k : Nat) (f : Task → Task) : (s.modTask k f).lpOn = s.lpOn := rfl
@[simp] theorem modTask_lpRefresh (s : State) (k : Nat) (f : Task → Task) : (s.modTask k f).lpRefresh = s.lpRefresh := rfl
@[simp] theorem modTask_bursts (s : State) (k : Nat) (f : Task → Task) : (s.modTask k f).bursts = s.bursts := rfl
@[simp] theorem modTask_heldWrites (s : State) (k : Nat) (f : Task → Task) : (s.modTask k f).heldWrites = s.heldWrites := rfl
@[simp] theorem modTask_slots (s : State) (k : Nat) (f : Task → Task) : (s.modTask k f).slots = s.slots := rfl
@[simp] theorem modTask_slotSeq (s : State) (k : Nat) (f : Task → Task) : (s.modTask k f).slotSeq = s.slotSeq := rfl
@[simp] theorem modTask_ctxs (s : State) (k : Nat) (f : Task → Task) : (s.modTask k f).ctxs = s.ctxs := rfl
@[simp] theorem modTask_ring (s : State) (k : Nat) (f : Task → Task) : (s.modTask k f).ring = s.ring := rfl
@[simp] theorem modTask_sched (s : State) (k : Nat) (f : Task → Task) : (s.modTask k f).sched = s.sched := rfl
@[simp] theorem modTask_energy (s : State) (k : Nat) (f : Task → Task) : (s.modTask k f).energy = s.energy := rfl
@[simp] theorem modTask_evq (s : State) (k : Nat) (f : Task → Task) : (s.modTask k f).evq = s.evq := rfl
@[simp] theorem modTask_errs (s : State) (k : Nat) (f : Task → Task) : (s.modTask k f).errs = s.errs := rfl
@[simp] theorem modTask_banks (s : State) (k : Nat) (f : Task → Task) : (s.modTask k f).banks = s.banks := rfl
@[simp] theorem modTask_latent (s : State) (k : Nat) (f : Task → Task) : (s.modTask k f).latent = s.latent := rfl
@[simp] theorem modTask_copies (s : State) (k : Nat) (f : Task → Task) : (s.modTask k f).copies = s.copies := rfl
@[simp] theorem modTask_copySlot (s : State) (k : Nat) (f : Task → Task) : (s.modTask k f).copySlot = s.copySlot := rfl
@[simp] theorem modTask_slotTabs (s : State) (k : Nat) (f : Task → Task) : (s.modTask k f).slotTabs = s.slotTabs := rfl
@[simp] theorem modTask_slotNext (s : State) (k : Nat) (f : Task → Task) : (s.modTask k f).slotNext = s.slotNext := rfl
@[simp] theorem modTask_portSlot (s : State) (k : Nat) (f : Task → Task) : (s.modTask k f).portSlot = s.portSlot := rfl
@[simp] theorem modTask_barAdds (s : State) (k : Nat) (f : Task → Task) : (s.modTask k f).barAdds = s.barAdds := rfl
@[simp] theorem modTask_colls (s : State) (k : Nat) (f : Task → Task) : (s.modTask k f).colls = s.colls := rfl
@[simp] theorem modTask_comms (s : State) (k : Nat) (f : Task → Task) : (s.modTask k f).comms = s.comms := rfl
@[simp] theorem modTask_peers (s : State) (k : Nat) (f : Task → Task) : (s.modTask k f).peers = s.peers := rfl
@[simp] theorem modTask_collRecs (s : State) (k : Nat) (f : Task → Task) : (s.modTask k f).collRecs = s.collRecs := rfl
@[simp] theorem modTask_peerWrote (s : State) (k : Nat) (f : Task → Task) : (s.modTask k f).peerWrote = s.peerWrote := rfl
@[simp] theorem modTask_sysRel (s : State) (k : Nat) (f : Task → Task) : (s.modTask k f).sysRel = s.sysRel := rfl
@[simp] theorem modTask_eth (s : State) (k : Nat) (f : Task → Task) : (s.modTask k f).eth = s.eth := rfl
@[simp] theorem modTask_ports (s : State) (k : Nat) (f : Task → Task) : (s.modTask k f).ports = s.ports := rfl
@[simp] theorem modTask_win (s : State) (k : Nat) (f : Task → Task) : (s.modTask k f).win = s.win := rfl
@[simp] theorem modTask_qBound (s : State) (k : Nat) (f : Task → Task) : (s.modTask k f).qBound = s.qBound := rfl
@[simp] theorem modTask_qPort (s : State) (k : Nat) (f : Task → Task) : (s.modTask k f).qPort = s.qPort := rfl
@[simp] theorem modTask_shoots (s : State) (k : Nat) (f : Task → Task) : (s.modTask k f).shoots = s.shoots := rfl
@[simp] theorem modTask_snapRoots (s : State) (k : Nat) (f : Task → Task) : (s.modTask k f).snapRoots = s.snapRoots := rfl
@[simp] theorem modTask_telem (s : State) (k : Nat) (f : Task → Task) : (s.modTask k f).telem = s.telem := rfl
@[simp] theorem modTask_agate (s : State) (k : Nat) (f : Task → Task) : (s.modTask k f).agate = s.agate := rfl
@[simp] theorem modTask_boot (s : State) (k : Nat) (f : Task → Task) : (s.modTask k f).boot = s.boot := rfl
@[simp] theorem modTask_parkedList (s : State) (k : Nat) (f : Task → Task) : (s.modTask k f).parkedList = s.parkedList := rfl
@[simp] theorem modTask_turns (s : State) (k : Nat) (f : Task → Task) : (s.modTask k f).turns = s.turns := rfl
@[simp] theorem modTask_focus (s : State) (k : Nat) (f : Task → Task) : (s.modTask k f).focus = s.focus := rfl
@[simp] theorem modTask_cur (s : State) (k : Nat) (f : Task → Task) : (s.modTask k f).cur = s.cur := rfl
@[simp] theorem modTask_uids (s : State) (k : Nat) (f : Task → Task) : (s.modTask k f).uids = s.uids := rfl
@[simp] theorem modTask_fresh (s : State) (k : Nat) (f : Task → Task) : (s.modTask k f).fresh = s.fresh := rfl
@[simp] theorem modTask_me (s : State) (k : Nat) (f : Task → Task) : (s.modTask k f).me = s.me := rfl
@[simp] theorem modTask_thread (s : State) (k : Nat) (f : Task → Task) (i : Nat) : (s.modTask k f).thread i = s.thread i := rfl
@[simp] theorem modTask_core (s : State) (k : Nat) (f : Task → Task) (i : Nat) : (s.modTask k f).core i = s.core i := rfl
@[simp] theorem modTask_cluster (s : State) (k : Nat) (f : Task → Task) (i : Nat) : (s.modTask k f).cluster i = s.cluster i := rfl
@[simp] theorem modTask_die (s : State) (k : Nat) (f : Task → Task) (i : Nat) : (s.modTask k f).die i = s.die i := rfl
@[simp] theorem modTask_stack (s : State) (k : Nat) (f : Task → Task) (i : Nat) : (s.modTask k f).stack i = s.stack i := rfl
@[simp] theorem modTask_port (s : State) (k : Nat) (f : Task → Task) (i : Nat) : (s.modTask k f).port i = s.port i := rfl
@[simp] theorem modTask_th (s : State) (k : Nat) (f : Task → Task) : (s.modTask k f).th = s.th := rfl

/-! ## What is read after it is written -/

@[simp] theorem thread_setThread_self (s : State) (k : Nat) (x : Thread) : (s.setThread k x).thread k = x := Tab.getD_put_self k x _ s.thr
@[simp] theorem thread_setThread_ne (s : State) {k i : Nat} (x : Thread) (h : i ≠ k) : (s.setThread k x).thread i = s.thread i := Tab.getD_put_ne h x _ s.thr
@[simp] theorem thread_modThread_self (s : State) (k : Nat) (f : Thread → Thread) : (s.modThread k f).thread k = f (s.thread k) := thread_setThread_self s k _
@[simp] theorem thread_modThread_ne (s : State) {k i : Nat} (f : Thread → Thread) (h : i ≠ k) : (s.modThread k f).thread i = s.thread i := thread_setThread_ne s _ h

@[simp] theorem core_setCore_self (s : State) (k : Nat) (x : Core) : (s.setCore k x).core k = x := Tab.getD_put_self k x _ s.cores
@[simp] theorem core_setCore_ne (s : State) {k i : Nat} (x : Core) (h : i ≠ k) : (s.setCore k x).core i = s.core i := Tab.getD_put_ne h x _ s.cores
@[simp] theorem core_modCore_self (s : State) (k : Nat) (f : Core → Core) : (s.modCore k f).core k = f (s.core k) := core_setCore_self s k _
@[simp] theorem core_modCore_ne (s : State) {k i : Nat} (f : Core → Core) (h : i ≠ k) : (s.modCore k f).core i = s.core i := core_setCore_ne s _ h

@[simp] theorem cluster_setCluster_self (s : State) (k : Nat) (x : Cluster) : (s.setCluster k x).cluster k = x := Tab.getD_put_self k x _ s.clusters
@[simp] theorem cluster_setCluster_ne (s : State) {k i : Nat} (x : Cluster) (h : i ≠ k) : (s.setCluster k x).cluster i = s.cluster i := Tab.getD_put_ne h x _ s.clusters
@[simp] theorem cluster_modCluster_self (s : State) (k : Nat) (f : Cluster → Cluster) : (s.modCluster k f).cluster k = f (s.cluster k) := cluster_setCluster_self s k _
@[simp] theorem cluster_modCluster_ne (s : State) {k i : Nat} (f : Cluster → Cluster) (h : i ≠ k) : (s.modCluster k f).cluster i = s.cluster i := cluster_setCluster_ne s _ h

@[simp] theorem die_setDie_self (s : State) (k : Nat) (x : Die) (h : k < 8) : (s.setDie k x).die k = x := vget_vset_self s.dies k x _ h
@[simp] theorem die_setDie_ne (s : State) {k i : Nat} (x : Die) (h : i ≠ k) : (s.setDie k x).die i = s.die i := vget_vset_ne s.dies x _ h

@[simp] theorem stack_setStack_self (s : State) (k : Nat) (x : Stack) (h : k < 8) : (s.setStack k x).stack k = x := vget_vset_self s.hbm k x _ h
@[simp] theorem stack_setStack_ne (s : State) {k i : Nat} (x : Stack) (h : i ≠ k) : (s.setStack k x).stack i = s.stack i := vget_vset_ne s.hbm x _ h

@[simp] theorem port_setPort_self (s : State) (k : Nat) (x : Port) (h : k < 2) : (s.setPort k x).port k = x := vget_vset_self s.ports k x _ h
@[simp] theorem port_setPort_ne (s : State) {k i : Nat} (x : Port) (h : i ≠ k) : (s.setPort k x).port i = s.port i := vget_vset_ne s.ports x _ h

@[simp] theorem thread_setTh_self (s : State) (x : Thread) : (s.setTh x).thread s.me = x := thread_setThread_self s s.me x
@[simp] theorem thread_setTh_ne (s : State) (x : Thread) {i : Nat} (h : i ≠ s.me) : (s.setTh x).thread i = s.thread i :=
  thread_setThread_ne s x h
@[simp] theorem th_setTh (s : State) (x : Thread) : (s.setTh x).th = x := thread_setTh_self s x

/-- The later of two writes of the acting thread stands. -/
theorem thread_setTh_modThread (s : State) (x : Thread) (f : Thread → Thread) :
    ((s.setTh x).modThread s.me f).thread s.me = f x := by
  simp

/-! ## Updates of a thread's registers -/

theorem dropPending_frame (t : Thread) (r : Nat) :
    t.dropPending r = { t with ctlAcc := (t.dropPending r).ctlAcc, settles := (t.dropPending r).settles } := by
  rfl
@[simp] theorem dropPending_g (t : Thread) (r : Nat) : (t.dropPending r).g = t.g := (congrArg Thread.g (dropPending_frame t r)).trans rfl
@[simp] theorem dropPending_p (t : Thread) (r : Nat) : (t.dropPending r).p = t.p := (congrArg Thread.p (dropPending_frame t r)).trans rfl
@[simp] theorem dropPending_h (t : Thread) (r : Nat) : (t.dropPending r).h = t.h := (congrArg Thread.h (dropPending_frame t r)).trans rfl
@[simp] theorem dropPending_hPoison (t : Thread) (r : Nat) : (t.dropPending r).hPoison = t.hPoison := (congrArg Thread.hPoison (dropPending_frame t r)).trans rfl
@[simp] theorem dropPending_hLine (t : Thread) (r : Nat) : (t.dropPending r).hLine = t.hLine := (congrArg Thread.hLine (dropPending_frame t r)).trans rfl
@[simp] theorem dropPending_hSwm (t : Thread) (r : Nat) : (t.dropPending r).hSwm = t.hSwm := (congrArg Thread.hSwm (dropPending_frame t r)).trans rfl
@[simp] theorem dropPending_hRq (t : Thread) (r : Nat) : (t.dropPending r).hRq = t.hRq := (congrArg Thread.hRq (dropPending_frame t r)).trans rfl
@[simp] theorem dropPending_hVa (t : Thread) (r : Nat) : (t.dropPending r).hVa = t.hVa := (congrArg Thread.hVa (dropPending_frame t r)).trans rfl
@[simp] theorem dropPending_xl (t : Thread) (r : Nat) : (t.dropPending r).xl = t.xl := (congrArg Thread.xl (dropPending_frame t r)).trans rfl
@[simp] theorem dropPending_xs (t : Thread) (r : Nat) : (t.dropPending r).xs = t.xs := (congrArg Thread.xs (dropPending_frame t r)).trans rfl
@[simp] theorem dropPending_a (t : Thread) (r : Nat) : (t.dropPending r).a = t.a := (congrArg Thread.a (dropPending_frame t r)).trans rfl
@[simp] theorem dropPending_m (t : Thread) (r : Nat) : (t.dropPending r).m = t.m := (congrArg Thread.m (dropPending_frame t r)).trans rfl
@[simp] theorem dropPending_s (t : Thread) (r : Nat) : (t.dropPending r).s = t.s := (congrArg Thread.s (dropPending_frame t r)).trans rfl
@[simp] theorem dropPending_vc (t : Thread) (r : Nat) : (t.dropPending r).vc = t.vc := (congrArg Thread.vc (dropPending_frame t r)).trans rfl
@[simp] theorem dropPending_lcl (t : Thread) (r : Nat) : (t.dropPending r).lcl = t.lcl := (congrArg Thread.lcl (dropPending_frame t r)).trans rfl
@[simp] theorem dropPending_lcc (t : Thread) (r : Nat) : (t.dropPending r).lcc = t.lcc := (congrArg Thread.lcc (dropPending_frame t r)).trans rfl
@[simp] theorem dropPending_lcs (t : Thread) (r : Nat) : (t.dropPending r).lcs = t.lcs := (congrArg Thread.lcs (dropPending_frame t r)).trans rfl
@[simp] theorem dropPending_q (t : Thread) (r : Nat) : (t.dropPending r).q = t.q := (congrArg Thread.q (dropPending_frame t r)).trans rfl
@[simp] theorem dropPending_eb (t : Thread) (r : Nat) : (t.dropPending r).eb = t.eb := (congrArg Thread.eb (dropPending_frame t r)).trans rfl
@[simp] theorem dropPending_freed (t : Thread) (r : Nat) : (t.dropPending r).freed = t.freed := (congrArg Thread.freed (dropPending_frame t r)).trans rfl
@[simp] theorem dropPending_status (t : Thread) (r : Nat) : (t.dropPending r).status = t.status := (congrArg Thread.status (dropPending_frame t r)).trans rfl
@[simp] theorem dropPending_trapCause (t : Thread) (r : Nat) : (t.dropPending r).trapCause = t.trapCause := (congrArg Thread.trapCause (dropPending_frame t r)).trans rfl
@[simp] theorem dropPending_trapPc (t : Thread) (r : Nat) : (t.dropPending r).trapPc = t.trapPc := (congrArg Thread.trapPc (dropPending_frame t r)).trans rfl
@[simp] theorem dropPending_trapTask (t : Thread) (r : Nat) : (t.dropPending r).trapTask = t.trapTask := (congrArg Thread.trapTask (dropPending_frame t r)).trans rfl
@[simp] theorem dropPending_trapInfo (t : Thread) (r : Nat) : (t.dropPending r).trapInfo = t.trapInfo := (congrArg Thread.trapInfo (dropPending_frame t r)).trans rfl
@[simp] theorem dropPending_repState (t : Thread) (r : Nat) : (t.dropPending r).repState = t.repState := (congrArg Thread.repState (dropPending_frame t r)).trans rfl
@[simp] theorem dropPending_handlerBase (t : Thread) (r : Nat) : (t.dropPending r).handlerBase = t.handlerBase := (congrArg Thread.handlerBase (dropPending_frame t r)).trans rfl
@[simp] theorem dropPending_handlerRanges (t : Thread) (r : Nat) : (t.dropPending r).handlerRanges = t.handlerRanges := (congrArg Thread.handlerRanges (dropPending_frame t r)).trans rfl
@[simp] theorem dropPending_flags (t : Thread) (r : Nat) : (t.dropPending r).flags = t.flags := (congrArg Thread.flags (dropPending_frame t r)).trans rfl
@[simp] theorem dropPending_roundMode (t : Thread) (r : Nat) : (t.dropPending r).roundMode = t.roundMode := (congrArg Thread.roundMode (dropPending_frame t r)).trans rfl
@[simp] theorem dropPending_boundCtl (t : Thread) (r : Nat) : (t.dropPending r).boundCtl = t.boundCtl := (congrArg Thread.boundCtl (dropPending_frame t r)).trans rfl
@[simp] theorem dropPending_dropSeed (t : Thread) (r : Nat) : (t.dropPending r).dropSeed = t.dropSeed := (congrArg Thread.dropSeed (dropPending_frame t r)).trans rfl
@[simp] theorem dropPending_fmtBase (t : Thread) (r : Nat) : (t.dropPending r).fmtBase = t.fmtBase := (congrArg Thread.fmtBase (dropPending_frame t r)).trans rfl
@[simp] theorem dropPending_ft (t : Thread) (r : Nat) : (t.dropPending r).ft = t.ft := (congrArg Thread.ft (dropPending_frame t r)).trans rfl
@[simp] theorem dropPending_pc (t : Thread) (r : Nat) : (t.dropPending r).pc = t.pc := (congrArg Thread.pc (dropPending_frame t r)).trans rfl
@[simp] theorem dropPending_pfx (t : Thread) (r : Nat) : (t.dropPending r).pfx = t.pfx := (congrArg Thread.pfx (dropPending_frame t r)).trans rfl
@[simp] theorem dropPending_pfxPc (t : Thread) (r : Nat) : (t.dropPending r).pfxPc = t.pfxPc := (congrArg Thread.pfxPc (dropPending_frame t r)).trans rfl
@[simp] theorem dropPending_repDone (t : Thread) (r : Nat) : (t.dropPending r).repDone = t.repDone := (congrArg Thread.repDone (dropPending_frame t r)).trans rfl
@[simp] theorem dropPending_repPc (t : Thread) (r : Nat) : (t.dropPending r).repPc = t.repPc := (congrArg Thread.repPc (dropPending_frame t r)).trans rfl
@[simp] theorem dropPending_seq (t : Thread) (r : Nat) : (t.dropPending r).seq = t.seq := (congrArg Thread.seq (dropPending_frame t r)).trans rfl
@[simp] theorem dropPending_ldQ (t : Thread) (r : Nat) : (t.dropPending r).ldQ = t.ldQ := (congrArg Thread.ldQ (dropPending_frame t r)).trans rfl
@[simp] theorem dropPending_cpQ (t : Thread) (r : Nat) : (t.dropPending r).cpQ = t.cpQ := (congrArg Thread.cpQ (dropPending_frame t r)).trans rfl
@[simp] theorem dropPending_stQ (t : Thread) (r : Nat) : (t.dropPending r).stQ = t.stQ := (congrArg Thread.stQ (dropPending_frame t r)).trans rfl
@[simp] theorem dropPending_lpL (t : Thread) (r : Nat) : (t.dropPending r).lpL = t.lpL := (congrArg Thread.lpL (dropPending_frame t r)).trans rfl
@[simp] theorem dropPending_lpC (t : Thread) (r : Nat) : (t.dropPending r).lpC = t.lpC := (congrArg Thread.lpC (dropPending_frame t r)).trans rfl
@[simp] theorem dropPending_lpS (t : Thread) (r : Nat) : (t.dropPending r).lpS = t.lpS := (congrArg Thread.lpS (dropPending_frame t r)).trans rfl
@[simp] theorem dropPending_winL (t : Thread) (r : Nat) : (t.dropPending r).winL = t.winL := (congrArg Thread.winL (dropPending_frame t r)).trans rfl
@[simp] theorem dropPending_winC (t : Thread) (r : Nat) : (t.dropPending r).winC = t.winC := (congrArg Thread.winC (dropPending_frame t r)).trans rfl
@[simp] theorem dropPending_winS (t : Thread) (r : Nat) : (t.dropPending r).winS = t.winS := (congrArg Thread.winS (dropPending_frame t r)).trans rfl
@[simp] theorem dropPending_lostL (t : Thread) (r : Nat) : (t.dropPending r).lostL = t.lostL := (congrArg Thread.lostL (dropPending_frame t r)).trans rfl
@[simp] theorem dropPending_lostC (t : Thread) (r : Nat) : (t.dropPending r).lostC = t.lostC := (congrArg Thread.lostC (dropPending_frame t r)).trans rfl
@[simp] theorem dropPending_lostS (t : Thread) (r : Nat) : (t.dropPending r).lostS = t.lostS := (congrArg Thread.lostS (dropPending_frame t r)).trans rfl
@[simp] theorem dropPending_tok (t : Thread) (r : Nat) : (t.dropPending r).tok = t.tok := (congrArg Thread.tok (dropPending_frame t r)).trans rfl
@[simp] theorem dropPending_flights (t : Thread) (r : Nat) : (t.dropPending r).flights = t.flights := (congrArg Thread.flights (dropPending_frame t r)).trans rfl
@[simp] theorem dropPending_qflights (t : Thread) (r : Nat) : (t.dropPending r).qflights = t.qflights := (congrArg Thread.qflights (dropPending_frame t r)).trans rfl
@[simp] theorem dropPending_waitK (t : Thread) (r : Nat) : (t.dropPending r).waitK = t.waitK := (congrArg Thread.waitK (dropPending_frame t r)).trans rfl
@[simp] theorem dropPending_waitL (t : Thread) (r : Nat) : (t.dropPending r).waitL = t.waitL := (congrArg Thread.waitL (dropPending_frame t r)).trans rfl
@[simp] theorem dropPending_waitC (t : Thread) (r : Nat) : (t.dropPending r).waitC = t.waitC := (congrArg Thread.waitC (dropPending_frame t r)).trans rfl
@[simp] theorem dropPending_waitS (t : Thread) (r : Nat) : (t.dropPending r).waitS = t.waitS := (congrArg Thread.waitS (dropPending_frame t r)).trans rfl
@[simp] theorem dropPending_ph (t : Thread) (r : Nat) : (t.dropPending r).ph = t.ph := (congrArg Thread.ph (dropPending_frame t r)).trans rfl
@[simp] theorem dropPending_phS (t : Thread) (r : Nat) : (t.dropPending r).phS = t.phS := (congrArg Thread.phS (dropPending_frame t r)).trans rfl
@[simp] theorem dropPending_members (t : Thread) (r : Nat) : (t.dropPending r).members = t.members := (congrArg Thread.members (dropPending_frame t r)).trans rfl
@[simp] theorem dropPending_hist (t : Thread) (r : Nat) : (t.dropPending r).hist = t.hist := (congrArg Thread.hist (dropPending_frame t r)).trans rfl
@[simp] theorem dropPending_runL (t : Thread) (r : Nat) : (t.dropPending r).runL = t.runL := (congrArg Thread.runL (dropPending_frame t r)).trans rfl
@[simp] theorem dropPending_runC (t : Thread) (r : Nat) : (t.dropPending r).runC = t.runC := (congrArg Thread.runC (dropPending_frame t r)).trans rfl
@[simp] theorem dropPending_runS (t : Thread) (r : Nat) : (t.dropPending r).runS = t.runS := (congrArg Thread.runS (dropPending_frame t r)).trans rfl
@[simp] theorem dropPending_stopped (t : Thread) (r : Nat) : (t.dropPending r).stopped = t.stopped := (congrArg Thread.stopped (dropPending_frame t r)).trans rfl
@[simp] theorem dropPending_loopRes (t : Thread) (r : Nat) : (t.dropPending r).loopRes = t.loopRes := (congrArg Thread.loopRes (dropPending_frame t r)).trans rfl
@[simp] theorem dropPending_trapPend (t : Thread) (r : Nat) : (t.dropPending r).trapPend = t.trapPend := (congrArg Thread.trapPend (dropPending_frame t r)).trans rfl
@[simp] theorem dropPending_async (t : Thread) (r : Nat) : (t.dropPending r).async = t.async := (congrArg Thread.async (dropPending_frame t r)).trans rfl
@[simp] theorem dropPending_locks (t : Thread) (r : Nat) : (t.dropPending r).locks = t.locks := (congrArg Thread.locks (dropPending_frame t r)).trans rfl
@[simp] theorem dropPending_claim (t : Thread) (r : Nat) : (t.dropPending r).claim = t.claim := (congrArg Thread.claim (dropPending_frame t r)).trans rfl
@[simp] theorem dropPending_task (t : Thread) (r : Nat) : (t.dropPending r).task = t.task := (congrArg Thread.task (dropPending_frame t r)).trans rfl
@[simp] theorem dropPending_gangPos (t : Thread) (r : Nat) : (t.dropPending r).gangPos = t.gangPos := (congrArg Thread.gangPos (dropPending_frame t r)).trans rfl
@[simp] theorem dropPending_pendPersist (t : Thread) (r : Nat) : (t.dropPending r).pendPersist = t.pendPersist := (congrArg Thread.pendPersist (dropPending_frame t r)).trans rfl
@[simp] theorem dropPending_persistAt (t : Thread) (r : Nat) : (t.dropPending r).persistAt = t.persistAt := (congrArg Thread.persistAt (dropPending_frame t r)).trans rfl
@[simp] theorem dropPending_preempt (t : Thread) (r : Nat) : (t.dropPending r).preempt = t.preempt := (congrArg Thread.preempt (dropPending_frame t r)).trans rfl
@[simp] theorem dropPending_parkStop (t : Thread) (r : Nat) : (t.dropPending r).parkStop = t.parkStop := (congrArg Thread.parkStop (dropPending_frame t r)).trans rfl
@[simp] theorem dropPending_liveIdx (t : Thread) (r : Nat) : (t.dropPending r).liveIdx = t.liveIdx := (congrArg Thread.liveIdx (dropPending_frame t r)).trans rfl
@[simp] theorem dropPending_idleUntil (t : Thread) (r : Nat) : (t.dropPending r).idleUntil = t.idleUntil := (congrArg Thread.idleUntil (dropPending_frame t r)).trans rfl
@[simp] theorem dropPending_permits (t : Thread) (r : Nat) : (t.dropPending r).permits = t.permits := (congrArg Thread.permits (dropPending_frame t r)).trans rfl
@[simp] theorem dropPending_halted (t : Thread) (r : Nat) : (t.dropPending r).halted = t.halted := (congrArg Thread.halted (dropPending_frame t r)).trans rfl
@[simp] theorem dropPending_running (t : Thread) (r : Nat) : (t.dropPending r).running = t.running := (congrArg Thread.running (dropPending_frame t r)).trans rfl
@[simp] theorem dropPending_spadSave (t : Thread) (r : Nat) : (t.dropPending r).spadSave = t.spadSave := (congrArg Thread.spadSave (dropPending_frame t r)).trans rfl
@[simp] theorem dropPending_spadBad (t : Thread) (r : Nat) : (t.dropPending r).spadBad = t.spadBad := (congrArg Thread.spadBad (dropPending_frame t r)).trans rfl
@[simp] theorem dropPending_ran (t : Thread) (r : Nat) : (t.dropPending r).ran = t.ran := (congrArg Thread.ran (dropPending_frame t r)).trans rfl
@[simp] theorem dropPending_mtHold (t : Thread) (r : Nat) : (t.dropPending r).mtHold = t.mtHold := (congrArg Thread.mtHold (dropPending_frame t r)).trans rfl
@[simp] theorem dropPending_passed (t : Thread) (r : Nat) : (t.dropPending r).passed = t.passed := (congrArg Thread.passed (dropPending_frame t r)).trans rfl
@[simp] theorem dropPending_tileRep (t : Thread) (r : Nat) : (t.dropPending r).tileRep = t.tileRep := (congrArg Thread.tileRep (dropPending_frame t r)).trans rfl

theorem wrG_frame (t : Thread) (r : Nat) (v : W) :
    wrG t r v = { t with g := (wrG t r v).g, freed := (wrG t r v).freed, ctlAcc := (wrG t r v).ctlAcc, settles := (wrG t r v).settles } := by
  unfold wrG; split <;> rfl
@[simp] theorem wrG_p (t : Thread) (r : Nat) (v : W) : (wrG t r v).p = t.p := (congrArg Thread.p (wrG_frame t r v)).trans rfl
@[simp] theorem wrG_h (t : Thread) (r : Nat) (v : W) : (wrG t r v).h = t.h := (congrArg Thread.h (wrG_frame t r v)).trans rfl
@[simp] theorem wrG_hPoison (t : Thread) (r : Nat) (v : W) : (wrG t r v).hPoison = t.hPoison := (congrArg Thread.hPoison (wrG_frame t r v)).trans rfl
@[simp] theorem wrG_hLine (t : Thread) (r : Nat) (v : W) : (wrG t r v).hLine = t.hLine := (congrArg Thread.hLine (wrG_frame t r v)).trans rfl
@[simp] theorem wrG_hSwm (t : Thread) (r : Nat) (v : W) : (wrG t r v).hSwm = t.hSwm := (congrArg Thread.hSwm (wrG_frame t r v)).trans rfl
@[simp] theorem wrG_hRq (t : Thread) (r : Nat) (v : W) : (wrG t r v).hRq = t.hRq := (congrArg Thread.hRq (wrG_frame t r v)).trans rfl
@[simp] theorem wrG_hVa (t : Thread) (r : Nat) (v : W) : (wrG t r v).hVa = t.hVa := (congrArg Thread.hVa (wrG_frame t r v)).trans rfl
@[simp] theorem wrG_xl (t : Thread) (r : Nat) (v : W) : (wrG t r v).xl = t.xl := (congrArg Thread.xl (wrG_frame t r v)).trans rfl
@[simp] theorem wrG_xs (t : Thread) (r : Nat) (v : W) : (wrG t r v).xs = t.xs := (congrArg Thread.xs (wrG_frame t r v)).trans rfl
@[simp] theorem wrG_a (t : Thread) (r : Nat) (v : W) : (wrG t r v).a = t.a := (congrArg Thread.a (wrG_frame t r v)).trans rfl
@[simp] theorem wrG_m (t : Thread) (r : Nat) (v : W) : (wrG t r v).m = t.m := (congrArg Thread.m (wrG_frame t r v)).trans rfl
@[simp] theorem wrG_s (t : Thread) (r : Nat) (v : W) : (wrG t r v).s = t.s := (congrArg Thread.s (wrG_frame t r v)).trans rfl
@[simp] theorem wrG_vc (t : Thread) (r : Nat) (v : W) : (wrG t r v).vc = t.vc := (congrArg Thread.vc (wrG_frame t r v)).trans rfl
@[simp] theorem wrG_lcl (t : Thread) (r : Nat) (v : W) : (wrG t r v).lcl = t.lcl := (congrArg Thread.lcl (wrG_frame t r v)).trans rfl
@[simp] theorem wrG_lcc (t : Thread) (r : Nat) (v : W) : (wrG t r v).lcc = t.lcc := (congrArg Thread.lcc (wrG_frame t r v)).trans rfl
@[simp] theorem wrG_lcs (t : Thread) (r : Nat) (v : W) : (wrG t r v).lcs = t.lcs := (congrArg Thread.lcs (wrG_frame t r v)).trans rfl
@[simp] theorem wrG_q (t : Thread) (r : Nat) (v : W) : (wrG t r v).q = t.q := (congrArg Thread.q (wrG_frame t r v)).trans rfl
@[simp] theorem wrG_eb (t : Thread) (r : Nat) (v : W) : (wrG t r v).eb = t.eb := (congrArg Thread.eb (wrG_frame t r v)).trans rfl
@[simp] theorem wrG_status (t : Thread) (r : Nat) (v : W) : (wrG t r v).status = t.status := (congrArg Thread.status (wrG_frame t r v)).trans rfl
@[simp] theorem wrG_trapCause (t : Thread) (r : Nat) (v : W) : (wrG t r v).trapCause = t.trapCause := (congrArg Thread.trapCause (wrG_frame t r v)).trans rfl
@[simp] theorem wrG_trapPc (t : Thread) (r : Nat) (v : W) : (wrG t r v).trapPc = t.trapPc := (congrArg Thread.trapPc (wrG_frame t r v)).trans rfl
@[simp] theorem wrG_trapTask (t : Thread) (r : Nat) (v : W) : (wrG t r v).trapTask = t.trapTask := (congrArg Thread.trapTask (wrG_frame t r v)).trans rfl
@[simp] theorem wrG_trapInfo (t : Thread) (r : Nat) (v : W) : (wrG t r v).trapInfo = t.trapInfo := (congrArg Thread.trapInfo (wrG_frame t r v)).trans rfl
@[simp] theorem wrG_repState (t : Thread) (r : Nat) (v : W) : (wrG t r v).repState = t.repState := (congrArg Thread.repState (wrG_frame t r v)).trans rfl
@[simp] theorem wrG_handlerBase (t : Thread) (r : Nat) (v : W) : (wrG t r v).handlerBase = t.handlerBase := (congrArg Thread.handlerBase (wrG_frame t r v)).trans rfl
@[simp] theorem wrG_handlerRanges (t : Thread) (r : Nat) (v : W) : (wrG t r v).handlerRanges = t.handlerRanges := (congrArg Thread.handlerRanges (wrG_frame t r v)).trans rfl
@[simp] theorem wrG_flags (t : Thread) (r : Nat) (v : W) : (wrG t r v).flags = t.flags := (congrArg Thread.flags (wrG_frame t r v)).trans rfl
@[simp] theorem wrG_roundMode (t : Thread) (r : Nat) (v : W) : (wrG t r v).roundMode = t.roundMode := (congrArg Thread.roundMode (wrG_frame t r v)).trans rfl
@[simp] theorem wrG_boundCtl (t : Thread) (r : Nat) (v : W) : (wrG t r v).boundCtl = t.boundCtl := (congrArg Thread.boundCtl (wrG_frame t r v)).trans rfl
@[simp] theorem wrG_dropSeed (t : Thread) (r : Nat) (v : W) : (wrG t r v).dropSeed = t.dropSeed := (congrArg Thread.dropSeed (wrG_frame t r v)).trans rfl
@[simp] theorem wrG_fmtBase (t : Thread) (r : Nat) (v : W) : (wrG t r v).fmtBase = t.fmtBase := (congrArg Thread.fmtBase (wrG_frame t r v)).trans rfl
@[simp] theorem wrG_ft (t : Thread) (r : Nat) (v : W) : (wrG t r v).ft = t.ft := (congrArg Thread.ft (wrG_frame t r v)).trans rfl
@[simp] theorem wrG_pc (t : Thread) (r : Nat) (v : W) : (wrG t r v).pc = t.pc := (congrArg Thread.pc (wrG_frame t r v)).trans rfl
@[simp] theorem wrG_pfx (t : Thread) (r : Nat) (v : W) : (wrG t r v).pfx = t.pfx := (congrArg Thread.pfx (wrG_frame t r v)).trans rfl
@[simp] theorem wrG_pfxPc (t : Thread) (r : Nat) (v : W) : (wrG t r v).pfxPc = t.pfxPc := (congrArg Thread.pfxPc (wrG_frame t r v)).trans rfl
@[simp] theorem wrG_repDone (t : Thread) (r : Nat) (v : W) : (wrG t r v).repDone = t.repDone := (congrArg Thread.repDone (wrG_frame t r v)).trans rfl
@[simp] theorem wrG_repPc (t : Thread) (r : Nat) (v : W) : (wrG t r v).repPc = t.repPc := (congrArg Thread.repPc (wrG_frame t r v)).trans rfl
@[simp] theorem wrG_seq (t : Thread) (r : Nat) (v : W) : (wrG t r v).seq = t.seq := (congrArg Thread.seq (wrG_frame t r v)).trans rfl
@[simp] theorem wrG_ldQ (t : Thread) (r : Nat) (v : W) : (wrG t r v).ldQ = t.ldQ := (congrArg Thread.ldQ (wrG_frame t r v)).trans rfl
@[simp] theorem wrG_cpQ (t : Thread) (r : Nat) (v : W) : (wrG t r v).cpQ = t.cpQ := (congrArg Thread.cpQ (wrG_frame t r v)).trans rfl
@[simp] theorem wrG_stQ (t : Thread) (r : Nat) (v : W) : (wrG t r v).stQ = t.stQ := (congrArg Thread.stQ (wrG_frame t r v)).trans rfl
@[simp] theorem wrG_lpL (t : Thread) (r : Nat) (v : W) : (wrG t r v).lpL = t.lpL := (congrArg Thread.lpL (wrG_frame t r v)).trans rfl
@[simp] theorem wrG_lpC (t : Thread) (r : Nat) (v : W) : (wrG t r v).lpC = t.lpC := (congrArg Thread.lpC (wrG_frame t r v)).trans rfl
@[simp] theorem wrG_lpS (t : Thread) (r : Nat) (v : W) : (wrG t r v).lpS = t.lpS := (congrArg Thread.lpS (wrG_frame t r v)).trans rfl
@[simp] theorem wrG_winL (t : Thread) (r : Nat) (v : W) : (wrG t r v).winL = t.winL := (congrArg Thread.winL (wrG_frame t r v)).trans rfl
@[simp] theorem wrG_winC (t : Thread) (r : Nat) (v : W) : (wrG t r v).winC = t.winC := (congrArg Thread.winC (wrG_frame t r v)).trans rfl
@[simp] theorem wrG_winS (t : Thread) (r : Nat) (v : W) : (wrG t r v).winS = t.winS := (congrArg Thread.winS (wrG_frame t r v)).trans rfl
@[simp] theorem wrG_lostL (t : Thread) (r : Nat) (v : W) : (wrG t r v).lostL = t.lostL := (congrArg Thread.lostL (wrG_frame t r v)).trans rfl
@[simp] theorem wrG_lostC (t : Thread) (r : Nat) (v : W) : (wrG t r v).lostC = t.lostC := (congrArg Thread.lostC (wrG_frame t r v)).trans rfl
@[simp] theorem wrG_lostS (t : Thread) (r : Nat) (v : W) : (wrG t r v).lostS = t.lostS := (congrArg Thread.lostS (wrG_frame t r v)).trans rfl
@[simp] theorem wrG_tok (t : Thread) (r : Nat) (v : W) : (wrG t r v).tok = t.tok := (congrArg Thread.tok (wrG_frame t r v)).trans rfl
@[simp] theorem wrG_flights (t : Thread) (r : Nat) (v : W) : (wrG t r v).flights = t.flights := (congrArg Thread.flights (wrG_frame t r v)).trans rfl
@[simp] theorem wrG_qflights (t : Thread) (r : Nat) (v : W) : (wrG t r v).qflights = t.qflights := (congrArg Thread.qflights (wrG_frame t r v)).trans rfl
@[simp] theorem wrG_waitK (t : Thread) (r : Nat) (v : W) : (wrG t r v).waitK = t.waitK := (congrArg Thread.waitK (wrG_frame t r v)).trans rfl
@[simp] theorem wrG_waitL (t : Thread) (r : Nat) (v : W) : (wrG t r v).waitL = t.waitL := (congrArg Thread.waitL (wrG_frame t r v)).trans rfl
@[simp] theorem wrG_waitC (t : Thread) (r : Nat) (v : W) : (wrG t r v).waitC = t.waitC := (congrArg Thread.waitC (wrG_frame t r v)).trans rfl
@[simp] theorem wrG_waitS (t : Thread) (r : Nat) (v : W) : (wrG t r v).waitS = t.waitS := (congrArg Thread.waitS (wrG_frame t r v)).trans rfl
@[simp] theorem wrG_ph (t : Thread) (r : Nat) (v : W) : (wrG t r v).ph = t.ph := (congrArg Thread.ph (wrG_frame t r v)).trans rfl
@[simp] theorem wrG_phS (t : Thread) (r : Nat) (v : W) : (wrG t r v).phS = t.phS := (congrArg Thread.phS (wrG_frame t r v)).trans rfl
@[simp] theorem wrG_members (t : Thread) (r : Nat) (v : W) : (wrG t r v).members = t.members := (congrArg Thread.members (wrG_frame t r v)).trans rfl
@[simp] theorem wrG_hist (t : Thread) (r : Nat) (v : W) : (wrG t r v).hist = t.hist := (congrArg Thread.hist (wrG_frame t r v)).trans rfl
@[simp] theorem wrG_runL (t : Thread) (r : Nat) (v : W) : (wrG t r v).runL = t.runL := (congrArg Thread.runL (wrG_frame t r v)).trans rfl
@[simp] theorem wrG_runC (t : Thread) (r : Nat) (v : W) : (wrG t r v).runC = t.runC := (congrArg Thread.runC (wrG_frame t r v)).trans rfl
@[simp] theorem wrG_runS (t : Thread) (r : Nat) (v : W) : (wrG t r v).runS = t.runS := (congrArg Thread.runS (wrG_frame t r v)).trans rfl
@[simp] theorem wrG_stopped (t : Thread) (r : Nat) (v : W) : (wrG t r v).stopped = t.stopped := (congrArg Thread.stopped (wrG_frame t r v)).trans rfl
@[simp] theorem wrG_loopRes (t : Thread) (r : Nat) (v : W) : (wrG t r v).loopRes = t.loopRes := (congrArg Thread.loopRes (wrG_frame t r v)).trans rfl
@[simp] theorem wrG_trapPend (t : Thread) (r : Nat) (v : W) : (wrG t r v).trapPend = t.trapPend := (congrArg Thread.trapPend (wrG_frame t r v)).trans rfl
@[simp] theorem wrG_async (t : Thread) (r : Nat) (v : W) : (wrG t r v).async = t.async := (congrArg Thread.async (wrG_frame t r v)).trans rfl
@[simp] theorem wrG_locks (t : Thread) (r : Nat) (v : W) : (wrG t r v).locks = t.locks := (congrArg Thread.locks (wrG_frame t r v)).trans rfl
@[simp] theorem wrG_claim (t : Thread) (r : Nat) (v : W) : (wrG t r v).claim = t.claim := (congrArg Thread.claim (wrG_frame t r v)).trans rfl
@[simp] theorem wrG_task (t : Thread) (r : Nat) (v : W) : (wrG t r v).task = t.task := (congrArg Thread.task (wrG_frame t r v)).trans rfl
@[simp] theorem wrG_gangPos (t : Thread) (r : Nat) (v : W) : (wrG t r v).gangPos = t.gangPos := (congrArg Thread.gangPos (wrG_frame t r v)).trans rfl
@[simp] theorem wrG_pendPersist (t : Thread) (r : Nat) (v : W) : (wrG t r v).pendPersist = t.pendPersist := (congrArg Thread.pendPersist (wrG_frame t r v)).trans rfl
@[simp] theorem wrG_persistAt (t : Thread) (r : Nat) (v : W) : (wrG t r v).persistAt = t.persistAt := (congrArg Thread.persistAt (wrG_frame t r v)).trans rfl
@[simp] theorem wrG_preempt (t : Thread) (r : Nat) (v : W) : (wrG t r v).preempt = t.preempt := (congrArg Thread.preempt (wrG_frame t r v)).trans rfl
@[simp] theorem wrG_parkStop (t : Thread) (r : Nat) (v : W) : (wrG t r v).parkStop = t.parkStop := (congrArg Thread.parkStop (wrG_frame t r v)).trans rfl
@[simp] theorem wrG_liveIdx (t : Thread) (r : Nat) (v : W) : (wrG t r v).liveIdx = t.liveIdx := (congrArg Thread.liveIdx (wrG_frame t r v)).trans rfl
@[simp] theorem wrG_idleUntil (t : Thread) (r : Nat) (v : W) : (wrG t r v).idleUntil = t.idleUntil := (congrArg Thread.idleUntil (wrG_frame t r v)).trans rfl
@[simp] theorem wrG_permits (t : Thread) (r : Nat) (v : W) : (wrG t r v).permits = t.permits := (congrArg Thread.permits (wrG_frame t r v)).trans rfl
@[simp] theorem wrG_halted (t : Thread) (r : Nat) (v : W) : (wrG t r v).halted = t.halted := (congrArg Thread.halted (wrG_frame t r v)).trans rfl
@[simp] theorem wrG_running (t : Thread) (r : Nat) (v : W) : (wrG t r v).running = t.running := (congrArg Thread.running (wrG_frame t r v)).trans rfl
@[simp] theorem wrG_spadSave (t : Thread) (r : Nat) (v : W) : (wrG t r v).spadSave = t.spadSave := (congrArg Thread.spadSave (wrG_frame t r v)).trans rfl
@[simp] theorem wrG_spadBad (t : Thread) (r : Nat) (v : W) : (wrG t r v).spadBad = t.spadBad := (congrArg Thread.spadBad (wrG_frame t r v)).trans rfl
@[simp] theorem wrG_ran (t : Thread) (r : Nat) (v : W) : (wrG t r v).ran = t.ran := (congrArg Thread.ran (wrG_frame t r v)).trans rfl
@[simp] theorem wrG_mtHold (t : Thread) (r : Nat) (v : W) : (wrG t r v).mtHold = t.mtHold := (congrArg Thread.mtHold (wrG_frame t r v)).trans rfl
@[simp] theorem wrG_passed (t : Thread) (r : Nat) (v : W) : (wrG t r v).passed = t.passed := (congrArg Thread.passed (wrG_frame t r v)).trans rfl
@[simp] theorem wrG_tileRep (t : Thread) (r : Nat) (v : W) : (wrG t r v).tileRep = t.tileRep := (congrArg Thread.tileRep (wrG_frame t r v)).trans rfl

theorem freeG_frame (t : Thread) (l : BitVec 1) (r : Nat) :
    freeG t l r = { t with freed := (freeG t l r).freed } := by
  unfold freeG; split <;> rfl
@[simp] theorem freeG_g (t : Thread) (l : BitVec 1) (r : Nat) : (freeG t l r).g = t.g := (congrArg Thread.g (freeG_frame t l r)).trans rfl
@[simp] theorem freeG_p (t : Thread) (l : BitVec 1) (r : Nat) : (freeG t l r).p = t.p := (congrArg Thread.p (freeG_frame t l r)).trans rfl
@[simp] theorem freeG_h (t : Thread) (l : BitVec 1) (r : Nat) : (freeG t l r).h = t.h := (congrArg Thread.h (freeG_frame t l r)).trans rfl
@[simp] theorem freeG_hPoison (t : Thread) (l : BitVec 1) (r : Nat) : (freeG t l r).hPoison = t.hPoison := (congrArg Thread.hPoison (freeG_frame t l r)).trans rfl
@[simp] theorem freeG_hLine (t : Thread) (l : BitVec 1) (r : Nat) : (freeG t l r).hLine = t.hLine := (congrArg Thread.hLine (freeG_frame t l r)).trans rfl
@[simp] theorem freeG_hSwm (t : Thread) (l : BitVec 1) (r : Nat) : (freeG t l r).hSwm = t.hSwm := (congrArg Thread.hSwm (freeG_frame t l r)).trans rfl
@[simp] theorem freeG_hRq (t : Thread) (l : BitVec 1) (r : Nat) : (freeG t l r).hRq = t.hRq := (congrArg Thread.hRq (freeG_frame t l r)).trans rfl
@[simp] theorem freeG_hVa (t : Thread) (l : BitVec 1) (r : Nat) : (freeG t l r).hVa = t.hVa := (congrArg Thread.hVa (freeG_frame t l r)).trans rfl
@[simp] theorem freeG_xl (t : Thread) (l : BitVec 1) (r : Nat) : (freeG t l r).xl = t.xl := (congrArg Thread.xl (freeG_frame t l r)).trans rfl
@[simp] theorem freeG_xs (t : Thread) (l : BitVec 1) (r : Nat) : (freeG t l r).xs = t.xs := (congrArg Thread.xs (freeG_frame t l r)).trans rfl
@[simp] theorem freeG_a (t : Thread) (l : BitVec 1) (r : Nat) : (freeG t l r).a = t.a := (congrArg Thread.a (freeG_frame t l r)).trans rfl
@[simp] theorem freeG_m (t : Thread) (l : BitVec 1) (r : Nat) : (freeG t l r).m = t.m := (congrArg Thread.m (freeG_frame t l r)).trans rfl
@[simp] theorem freeG_s (t : Thread) (l : BitVec 1) (r : Nat) : (freeG t l r).s = t.s := (congrArg Thread.s (freeG_frame t l r)).trans rfl
@[simp] theorem freeG_vc (t : Thread) (l : BitVec 1) (r : Nat) : (freeG t l r).vc = t.vc := (congrArg Thread.vc (freeG_frame t l r)).trans rfl
@[simp] theorem freeG_lcl (t : Thread) (l : BitVec 1) (r : Nat) : (freeG t l r).lcl = t.lcl := (congrArg Thread.lcl (freeG_frame t l r)).trans rfl
@[simp] theorem freeG_lcc (t : Thread) (l : BitVec 1) (r : Nat) : (freeG t l r).lcc = t.lcc := (congrArg Thread.lcc (freeG_frame t l r)).trans rfl
@[simp] theorem freeG_lcs (t : Thread) (l : BitVec 1) (r : Nat) : (freeG t l r).lcs = t.lcs := (congrArg Thread.lcs (freeG_frame t l r)).trans rfl
@[simp] theorem freeG_q (t : Thread) (l : BitVec 1) (r : Nat) : (freeG t l r).q = t.q := (congrArg Thread.q (freeG_frame t l r)).trans rfl
@[simp] theorem freeG_eb (t : Thread) (l : BitVec 1) (r : Nat) : (freeG t l r).eb = t.eb := (congrArg Thread.eb (freeG_frame t l r)).trans rfl
@[simp] theorem freeG_status (t : Thread) (l : BitVec 1) (r : Nat) : (freeG t l r).status = t.status := (congrArg Thread.status (freeG_frame t l r)).trans rfl
@[simp] theorem freeG_trapCause (t : Thread) (l : BitVec 1) (r : Nat) : (freeG t l r).trapCause = t.trapCause := (congrArg Thread.trapCause (freeG_frame t l r)).trans rfl
@[simp] theorem freeG_trapPc (t : Thread) (l : BitVec 1) (r : Nat) : (freeG t l r).trapPc = t.trapPc := (congrArg Thread.trapPc (freeG_frame t l r)).trans rfl
@[simp] theorem freeG_trapTask (t : Thread) (l : BitVec 1) (r : Nat) : (freeG t l r).trapTask = t.trapTask := (congrArg Thread.trapTask (freeG_frame t l r)).trans rfl
@[simp] theorem freeG_trapInfo (t : Thread) (l : BitVec 1) (r : Nat) : (freeG t l r).trapInfo = t.trapInfo := (congrArg Thread.trapInfo (freeG_frame t l r)).trans rfl
@[simp] theorem freeG_repState (t : Thread) (l : BitVec 1) (r : Nat) : (freeG t l r).repState = t.repState := (congrArg Thread.repState (freeG_frame t l r)).trans rfl
@[simp] theorem freeG_handlerBase (t : Thread) (l : BitVec 1) (r : Nat) : (freeG t l r).handlerBase = t.handlerBase := (congrArg Thread.handlerBase (freeG_frame t l r)).trans rfl
@[simp] theorem freeG_handlerRanges (t : Thread) (l : BitVec 1) (r : Nat) : (freeG t l r).handlerRanges = t.handlerRanges := (congrArg Thread.handlerRanges (freeG_frame t l r)).trans rfl
@[simp] theorem freeG_flags (t : Thread) (l : BitVec 1) (r : Nat) : (freeG t l r).flags = t.flags := (congrArg Thread.flags (freeG_frame t l r)).trans rfl
@[simp] theorem freeG_roundMode (t : Thread) (l : BitVec 1) (r : Nat) : (freeG t l r).roundMode = t.roundMode := (congrArg Thread.roundMode (freeG_frame t l r)).trans rfl
@[simp] theorem freeG_boundCtl (t : Thread) (l : BitVec 1) (r : Nat) : (freeG t l r).boundCtl = t.boundCtl := (congrArg Thread.boundCtl (freeG_frame t l r)).trans rfl
@[simp] theorem freeG_dropSeed (t : Thread) (l : BitVec 1) (r : Nat) : (freeG t l r).dropSeed = t.dropSeed := (congrArg Thread.dropSeed (freeG_frame t l r)).trans rfl
@[simp] theorem freeG_fmtBase (t : Thread) (l : BitVec 1) (r : Nat) : (freeG t l r).fmtBase = t.fmtBase := (congrArg Thread.fmtBase (freeG_frame t l r)).trans rfl
@[simp] theorem freeG_ft (t : Thread) (l : BitVec 1) (r : Nat) : (freeG t l r).ft = t.ft := (congrArg Thread.ft (freeG_frame t l r)).trans rfl
@[simp] theorem freeG_pc (t : Thread) (l : BitVec 1) (r : Nat) : (freeG t l r).pc = t.pc := (congrArg Thread.pc (freeG_frame t l r)).trans rfl
@[simp] theorem freeG_pfx (t : Thread) (l : BitVec 1) (r : Nat) : (freeG t l r).pfx = t.pfx := (congrArg Thread.pfx (freeG_frame t l r)).trans rfl
@[simp] theorem freeG_pfxPc (t : Thread) (l : BitVec 1) (r : Nat) : (freeG t l r).pfxPc = t.pfxPc := (congrArg Thread.pfxPc (freeG_frame t l r)).trans rfl
@[simp] theorem freeG_repDone (t : Thread) (l : BitVec 1) (r : Nat) : (freeG t l r).repDone = t.repDone := (congrArg Thread.repDone (freeG_frame t l r)).trans rfl
@[simp] theorem freeG_repPc (t : Thread) (l : BitVec 1) (r : Nat) : (freeG t l r).repPc = t.repPc := (congrArg Thread.repPc (freeG_frame t l r)).trans rfl
@[simp] theorem freeG_seq (t : Thread) (l : BitVec 1) (r : Nat) : (freeG t l r).seq = t.seq := (congrArg Thread.seq (freeG_frame t l r)).trans rfl
@[simp] theorem freeG_ldQ (t : Thread) (l : BitVec 1) (r : Nat) : (freeG t l r).ldQ = t.ldQ := (congrArg Thread.ldQ (freeG_frame t l r)).trans rfl
@[simp] theorem freeG_cpQ (t : Thread) (l : BitVec 1) (r : Nat) : (freeG t l r).cpQ = t.cpQ := (congrArg Thread.cpQ (freeG_frame t l r)).trans rfl
@[simp] theorem freeG_stQ (t : Thread) (l : BitVec 1) (r : Nat) : (freeG t l r).stQ = t.stQ := (congrArg Thread.stQ (freeG_frame t l r)).trans rfl
@[simp] theorem freeG_lpL (t : Thread) (l : BitVec 1) (r : Nat) : (freeG t l r).lpL = t.lpL := (congrArg Thread.lpL (freeG_frame t l r)).trans rfl
@[simp] theorem freeG_lpC (t : Thread) (l : BitVec 1) (r : Nat) : (freeG t l r).lpC = t.lpC := (congrArg Thread.lpC (freeG_frame t l r)).trans rfl
@[simp] theorem freeG_lpS (t : Thread) (l : BitVec 1) (r : Nat) : (freeG t l r).lpS = t.lpS := (congrArg Thread.lpS (freeG_frame t l r)).trans rfl
@[simp] theorem freeG_winL (t : Thread) (l : BitVec 1) (r : Nat) : (freeG t l r).winL = t.winL := (congrArg Thread.winL (freeG_frame t l r)).trans rfl
@[simp] theorem freeG_winC (t : Thread) (l : BitVec 1) (r : Nat) : (freeG t l r).winC = t.winC := (congrArg Thread.winC (freeG_frame t l r)).trans rfl
@[simp] theorem freeG_winS (t : Thread) (l : BitVec 1) (r : Nat) : (freeG t l r).winS = t.winS := (congrArg Thread.winS (freeG_frame t l r)).trans rfl
@[simp] theorem freeG_lostL (t : Thread) (l : BitVec 1) (r : Nat) : (freeG t l r).lostL = t.lostL := (congrArg Thread.lostL (freeG_frame t l r)).trans rfl
@[simp] theorem freeG_lostC (t : Thread) (l : BitVec 1) (r : Nat) : (freeG t l r).lostC = t.lostC := (congrArg Thread.lostC (freeG_frame t l r)).trans rfl
@[simp] theorem freeG_lostS (t : Thread) (l : BitVec 1) (r : Nat) : (freeG t l r).lostS = t.lostS := (congrArg Thread.lostS (freeG_frame t l r)).trans rfl
@[simp] theorem freeG_tok (t : Thread) (l : BitVec 1) (r : Nat) : (freeG t l r).tok = t.tok := (congrArg Thread.tok (freeG_frame t l r)).trans rfl
@[simp] theorem freeG_flights (t : Thread) (l : BitVec 1) (r : Nat) : (freeG t l r).flights = t.flights := (congrArg Thread.flights (freeG_frame t l r)).trans rfl
@[simp] theorem freeG_qflights (t : Thread) (l : BitVec 1) (r : Nat) : (freeG t l r).qflights = t.qflights := (congrArg Thread.qflights (freeG_frame t l r)).trans rfl
@[simp] theorem freeG_ctlAcc (t : Thread) (l : BitVec 1) (r : Nat) : (freeG t l r).ctlAcc = t.ctlAcc := (congrArg Thread.ctlAcc (freeG_frame t l r)).trans rfl
@[simp] theorem freeG_settles (t : Thread) (l : BitVec 1) (r : Nat) : (freeG t l r).settles = t.settles := (congrArg Thread.settles (freeG_frame t l r)).trans rfl
@[simp] theorem freeG_waitK (t : Thread) (l : BitVec 1) (r : Nat) : (freeG t l r).waitK = t.waitK := (congrArg Thread.waitK (freeG_frame t l r)).trans rfl
@[simp] theorem freeG_waitL (t : Thread) (l : BitVec 1) (r : Nat) : (freeG t l r).waitL = t.waitL := (congrArg Thread.waitL (freeG_frame t l r)).trans rfl
@[simp] theorem freeG_waitC (t : Thread) (l : BitVec 1) (r : Nat) : (freeG t l r).waitC = t.waitC := (congrArg Thread.waitC (freeG_frame t l r)).trans rfl
@[simp] theorem freeG_waitS (t : Thread) (l : BitVec 1) (r : Nat) : (freeG t l r).waitS = t.waitS := (congrArg Thread.waitS (freeG_frame t l r)).trans rfl
@[simp] theorem freeG_ph (t : Thread) (l : BitVec 1) (r : Nat) : (freeG t l r).ph = t.ph := (congrArg Thread.ph (freeG_frame t l r)).trans rfl
@[simp] theorem freeG_phS (t : Thread) (l : BitVec 1) (r : Nat) : (freeG t l r).phS = t.phS := (congrArg Thread.phS (freeG_frame t l r)).trans rfl
@[simp] theorem freeG_members (t : Thread) (l : BitVec 1) (r : Nat) : (freeG t l r).members = t.members := (congrArg Thread.members (freeG_frame t l r)).trans rfl
@[simp] theorem freeG_hist (t : Thread) (l : BitVec 1) (r : Nat) : (freeG t l r).hist = t.hist := (congrArg Thread.hist (freeG_frame t l r)).trans rfl
@[simp] theorem freeG_runL (t : Thread) (l : BitVec 1) (r : Nat) : (freeG t l r).runL = t.runL := (congrArg Thread.runL (freeG_frame t l r)).trans rfl
@[simp] theorem freeG_runC (t : Thread) (l : BitVec 1) (r : Nat) : (freeG t l r).runC = t.runC := (congrArg Thread.runC (freeG_frame t l r)).trans rfl
@[simp] theorem freeG_runS (t : Thread) (l : BitVec 1) (r : Nat) : (freeG t l r).runS = t.runS := (congrArg Thread.runS (freeG_frame t l r)).trans rfl
@[simp] theorem freeG_stopped (t : Thread) (l : BitVec 1) (r : Nat) : (freeG t l r).stopped = t.stopped := (congrArg Thread.stopped (freeG_frame t l r)).trans rfl
@[simp] theorem freeG_loopRes (t : Thread) (l : BitVec 1) (r : Nat) : (freeG t l r).loopRes = t.loopRes := (congrArg Thread.loopRes (freeG_frame t l r)).trans rfl
@[simp] theorem freeG_trapPend (t : Thread) (l : BitVec 1) (r : Nat) : (freeG t l r).trapPend = t.trapPend := (congrArg Thread.trapPend (freeG_frame t l r)).trans rfl
@[simp] theorem freeG_async (t : Thread) (l : BitVec 1) (r : Nat) : (freeG t l r).async = t.async := (congrArg Thread.async (freeG_frame t l r)).trans rfl
@[simp] theorem freeG_locks (t : Thread) (l : BitVec 1) (r : Nat) : (freeG t l r).locks = t.locks := (congrArg Thread.locks (freeG_frame t l r)).trans rfl
@[simp] theorem freeG_claim (t : Thread) (l : BitVec 1) (r : Nat) : (freeG t l r).claim = t.claim := (congrArg Thread.claim (freeG_frame t l r)).trans rfl
@[simp] theorem freeG_task (t : Thread) (l : BitVec 1) (r : Nat) : (freeG t l r).task = t.task := (congrArg Thread.task (freeG_frame t l r)).trans rfl
@[simp] theorem freeG_gangPos (t : Thread) (l : BitVec 1) (r : Nat) : (freeG t l r).gangPos = t.gangPos := (congrArg Thread.gangPos (freeG_frame t l r)).trans rfl
@[simp] theorem freeG_pendPersist (t : Thread) (l : BitVec 1) (r : Nat) : (freeG t l r).pendPersist = t.pendPersist := (congrArg Thread.pendPersist (freeG_frame t l r)).trans rfl
@[simp] theorem freeG_persistAt (t : Thread) (l : BitVec 1) (r : Nat) : (freeG t l r).persistAt = t.persistAt := (congrArg Thread.persistAt (freeG_frame t l r)).trans rfl
@[simp] theorem freeG_preempt (t : Thread) (l : BitVec 1) (r : Nat) : (freeG t l r).preempt = t.preempt := (congrArg Thread.preempt (freeG_frame t l r)).trans rfl
@[simp] theorem freeG_parkStop (t : Thread) (l : BitVec 1) (r : Nat) : (freeG t l r).parkStop = t.parkStop := (congrArg Thread.parkStop (freeG_frame t l r)).trans rfl
@[simp] theorem freeG_liveIdx (t : Thread) (l : BitVec 1) (r : Nat) : (freeG t l r).liveIdx = t.liveIdx := (congrArg Thread.liveIdx (freeG_frame t l r)).trans rfl
@[simp] theorem freeG_idleUntil (t : Thread) (l : BitVec 1) (r : Nat) : (freeG t l r).idleUntil = t.idleUntil := (congrArg Thread.idleUntil (freeG_frame t l r)).trans rfl
@[simp] theorem freeG_permits (t : Thread) (l : BitVec 1) (r : Nat) : (freeG t l r).permits = t.permits := (congrArg Thread.permits (freeG_frame t l r)).trans rfl
@[simp] theorem freeG_halted (t : Thread) (l : BitVec 1) (r : Nat) : (freeG t l r).halted = t.halted := (congrArg Thread.halted (freeG_frame t l r)).trans rfl
@[simp] theorem freeG_running (t : Thread) (l : BitVec 1) (r : Nat) : (freeG t l r).running = t.running := (congrArg Thread.running (freeG_frame t l r)).trans rfl
@[simp] theorem freeG_spadSave (t : Thread) (l : BitVec 1) (r : Nat) : (freeG t l r).spadSave = t.spadSave := (congrArg Thread.spadSave (freeG_frame t l r)).trans rfl
@[simp] theorem freeG_spadBad (t : Thread) (l : BitVec 1) (r : Nat) : (freeG t l r).spadBad = t.spadBad := (congrArg Thread.spadBad (freeG_frame t l r)).trans rfl
@[simp] theorem freeG_ran (t : Thread) (l : BitVec 1) (r : Nat) : (freeG t l r).ran = t.ran := (congrArg Thread.ran (freeG_frame t l r)).trans rfl
@[simp] theorem freeG_mtHold (t : Thread) (l : BitVec 1) (r : Nat) : (freeG t l r).mtHold = t.mtHold := (congrArg Thread.mtHold (freeG_frame t l r)).trans rfl
@[simp] theorem freeG_passed (t : Thread) (l : BitVec 1) (r : Nat) : (freeG t l r).passed = t.passed := (congrArg Thread.passed (freeG_frame t l r)).trans rfl
@[simp] theorem freeG_tileRep (t : Thread) (l : BitVec 1) (r : Nat) : (freeG t l r).tileRep = t.tileRep := (congrArg Thread.tileRep (freeG_frame t l r)).trans rfl

theorem wrP_frame (t : Thread) (r : Nat) (b : Bool) :
    wrP t r b = { t with p := (wrP t r b).p } := by
  unfold wrP; split <;> rfl
@[simp] theorem wrP_g (t : Thread) (r : Nat) (b : Bool) : (wrP t r b).g = t.g := (congrArg Thread.g (wrP_frame t r b)).trans rfl
@[simp] theorem wrP_h (t : Thread) (r : Nat) (b : Bool) : (wrP t r b).h = t.h := (congrArg Thread.h (wrP_frame t r b)).trans rfl
@[simp] theorem wrP_hPoison (t : Thread) (r : Nat) (b : Bool) : (wrP t r b).hPoison = t.hPoison := (congrArg Thread.hPoison (wrP_frame t r b)).trans rfl
@[simp] theorem wrP_hLine (t : Thread) (r : Nat) (b : Bool) : (wrP t r b).hLine = t.hLine := (congrArg Thread.hLine (wrP_frame t r b)).trans rfl
@[simp] theorem wrP_hSwm (t : Thread) (r : Nat) (b : Bool) : (wrP t r b).hSwm = t.hSwm := (congrArg Thread.hSwm (wrP_frame t r b)).trans rfl
@[simp] theorem wrP_hRq (t : Thread) (r : Nat) (b : Bool) : (wrP t r b).hRq = t.hRq := (congrArg Thread.hRq (wrP_frame t r b)).trans rfl
@[simp] theorem wrP_hVa (t : Thread) (r : Nat) (b : Bool) : (wrP t r b).hVa = t.hVa := (congrArg Thread.hVa (wrP_frame t r b)).trans rfl
@[simp] theorem wrP_xl (t : Thread) (r : Nat) (b : Bool) : (wrP t r b).xl = t.xl := (congrArg Thread.xl (wrP_frame t r b)).trans rfl
@[simp] theorem wrP_xs (t : Thread) (r : Nat) (b : Bool) : (wrP t r b).xs = t.xs := (congrArg Thread.xs (wrP_frame t r b)).trans rfl
@[simp] theorem wrP_a (t : Thread) (r : Nat) (b : Bool) : (wrP t r b).a = t.a := (congrArg Thread.a (wrP_frame t r b)).trans rfl
@[simp] theorem wrP_m (t : Thread) (r : Nat) (b : Bool) : (wrP t r b).m = t.m := (congrArg Thread.m (wrP_frame t r b)).trans rfl
@[simp] theorem wrP_s (t : Thread) (r : Nat) (b : Bool) : (wrP t r b).s = t.s := (congrArg Thread.s (wrP_frame t r b)).trans rfl
@[simp] theorem wrP_vc (t : Thread) (r : Nat) (b : Bool) : (wrP t r b).vc = t.vc := (congrArg Thread.vc (wrP_frame t r b)).trans rfl
@[simp] theorem wrP_lcl (t : Thread) (r : Nat) (b : Bool) : (wrP t r b).lcl = t.lcl := (congrArg Thread.lcl (wrP_frame t r b)).trans rfl
@[simp] theorem wrP_lcc (t : Thread) (r : Nat) (b : Bool) : (wrP t r b).lcc = t.lcc := (congrArg Thread.lcc (wrP_frame t r b)).trans rfl
@[simp] theorem wrP_lcs (t : Thread) (r : Nat) (b : Bool) : (wrP t r b).lcs = t.lcs := (congrArg Thread.lcs (wrP_frame t r b)).trans rfl
@[simp] theorem wrP_q (t : Thread) (r : Nat) (b : Bool) : (wrP t r b).q = t.q := (congrArg Thread.q (wrP_frame t r b)).trans rfl
@[simp] theorem wrP_eb (t : Thread) (r : Nat) (b : Bool) : (wrP t r b).eb = t.eb := (congrArg Thread.eb (wrP_frame t r b)).trans rfl
@[simp] theorem wrP_freed (t : Thread) (r : Nat) (b : Bool) : (wrP t r b).freed = t.freed := (congrArg Thread.freed (wrP_frame t r b)).trans rfl
@[simp] theorem wrP_status (t : Thread) (r : Nat) (b : Bool) : (wrP t r b).status = t.status := (congrArg Thread.status (wrP_frame t r b)).trans rfl
@[simp] theorem wrP_trapCause (t : Thread) (r : Nat) (b : Bool) : (wrP t r b).trapCause = t.trapCause := (congrArg Thread.trapCause (wrP_frame t r b)).trans rfl
@[simp] theorem wrP_trapPc (t : Thread) (r : Nat) (b : Bool) : (wrP t r b).trapPc = t.trapPc := (congrArg Thread.trapPc (wrP_frame t r b)).trans rfl
@[simp] theorem wrP_trapTask (t : Thread) (r : Nat) (b : Bool) : (wrP t r b).trapTask = t.trapTask := (congrArg Thread.trapTask (wrP_frame t r b)).trans rfl
@[simp] theorem wrP_trapInfo (t : Thread) (r : Nat) (b : Bool) : (wrP t r b).trapInfo = t.trapInfo := (congrArg Thread.trapInfo (wrP_frame t r b)).trans rfl
@[simp] theorem wrP_repState (t : Thread) (r : Nat) (b : Bool) : (wrP t r b).repState = t.repState := (congrArg Thread.repState (wrP_frame t r b)).trans rfl
@[simp] theorem wrP_handlerBase (t : Thread) (r : Nat) (b : Bool) : (wrP t r b).handlerBase = t.handlerBase := (congrArg Thread.handlerBase (wrP_frame t r b)).trans rfl
@[simp] theorem wrP_handlerRanges (t : Thread) (r : Nat) (b : Bool) : (wrP t r b).handlerRanges = t.handlerRanges := (congrArg Thread.handlerRanges (wrP_frame t r b)).trans rfl
@[simp] theorem wrP_flags (t : Thread) (r : Nat) (b : Bool) : (wrP t r b).flags = t.flags := (congrArg Thread.flags (wrP_frame t r b)).trans rfl
@[simp] theorem wrP_roundMode (t : Thread) (r : Nat) (b : Bool) : (wrP t r b).roundMode = t.roundMode := (congrArg Thread.roundMode (wrP_frame t r b)).trans rfl
@[simp] theorem wrP_boundCtl (t : Thread) (r : Nat) (b : Bool) : (wrP t r b).boundCtl = t.boundCtl := (congrArg Thread.boundCtl (wrP_frame t r b)).trans rfl
@[simp] theorem wrP_dropSeed (t : Thread) (r : Nat) (b : Bool) : (wrP t r b).dropSeed = t.dropSeed := (congrArg Thread.dropSeed (wrP_frame t r b)).trans rfl
@[simp] theorem wrP_fmtBase (t : Thread) (r : Nat) (b : Bool) : (wrP t r b).fmtBase = t.fmtBase := (congrArg Thread.fmtBase (wrP_frame t r b)).trans rfl
@[simp] theorem wrP_ft (t : Thread) (r : Nat) (b : Bool) : (wrP t r b).ft = t.ft := (congrArg Thread.ft (wrP_frame t r b)).trans rfl
@[simp] theorem wrP_pc (t : Thread) (r : Nat) (b : Bool) : (wrP t r b).pc = t.pc := (congrArg Thread.pc (wrP_frame t r b)).trans rfl
@[simp] theorem wrP_pfx (t : Thread) (r : Nat) (b : Bool) : (wrP t r b).pfx = t.pfx := (congrArg Thread.pfx (wrP_frame t r b)).trans rfl
@[simp] theorem wrP_pfxPc (t : Thread) (r : Nat) (b : Bool) : (wrP t r b).pfxPc = t.pfxPc := (congrArg Thread.pfxPc (wrP_frame t r b)).trans rfl
@[simp] theorem wrP_repDone (t : Thread) (r : Nat) (b : Bool) : (wrP t r b).repDone = t.repDone := (congrArg Thread.repDone (wrP_frame t r b)).trans rfl
@[simp] theorem wrP_repPc (t : Thread) (r : Nat) (b : Bool) : (wrP t r b).repPc = t.repPc := (congrArg Thread.repPc (wrP_frame t r b)).trans rfl
@[simp] theorem wrP_seq (t : Thread) (r : Nat) (b : Bool) : (wrP t r b).seq = t.seq := (congrArg Thread.seq (wrP_frame t r b)).trans rfl
@[simp] theorem wrP_ldQ (t : Thread) (r : Nat) (b : Bool) : (wrP t r b).ldQ = t.ldQ := (congrArg Thread.ldQ (wrP_frame t r b)).trans rfl
@[simp] theorem wrP_cpQ (t : Thread) (r : Nat) (b : Bool) : (wrP t r b).cpQ = t.cpQ := (congrArg Thread.cpQ (wrP_frame t r b)).trans rfl
@[simp] theorem wrP_stQ (t : Thread) (r : Nat) (b : Bool) : (wrP t r b).stQ = t.stQ := (congrArg Thread.stQ (wrP_frame t r b)).trans rfl
@[simp] theorem wrP_lpL (t : Thread) (r : Nat) (b : Bool) : (wrP t r b).lpL = t.lpL := (congrArg Thread.lpL (wrP_frame t r b)).trans rfl
@[simp] theorem wrP_lpC (t : Thread) (r : Nat) (b : Bool) : (wrP t r b).lpC = t.lpC := (congrArg Thread.lpC (wrP_frame t r b)).trans rfl
@[simp] theorem wrP_lpS (t : Thread) (r : Nat) (b : Bool) : (wrP t r b).lpS = t.lpS := (congrArg Thread.lpS (wrP_frame t r b)).trans rfl
@[simp] theorem wrP_winL (t : Thread) (r : Nat) (b : Bool) : (wrP t r b).winL = t.winL := (congrArg Thread.winL (wrP_frame t r b)).trans rfl
@[simp] theorem wrP_winC (t : Thread) (r : Nat) (b : Bool) : (wrP t r b).winC = t.winC := (congrArg Thread.winC (wrP_frame t r b)).trans rfl
@[simp] theorem wrP_winS (t : Thread) (r : Nat) (b : Bool) : (wrP t r b).winS = t.winS := (congrArg Thread.winS (wrP_frame t r b)).trans rfl
@[simp] theorem wrP_lostL (t : Thread) (r : Nat) (b : Bool) : (wrP t r b).lostL = t.lostL := (congrArg Thread.lostL (wrP_frame t r b)).trans rfl
@[simp] theorem wrP_lostC (t : Thread) (r : Nat) (b : Bool) : (wrP t r b).lostC = t.lostC := (congrArg Thread.lostC (wrP_frame t r b)).trans rfl
@[simp] theorem wrP_lostS (t : Thread) (r : Nat) (b : Bool) : (wrP t r b).lostS = t.lostS := (congrArg Thread.lostS (wrP_frame t r b)).trans rfl
@[simp] theorem wrP_tok (t : Thread) (r : Nat) (b : Bool) : (wrP t r b).tok = t.tok := (congrArg Thread.tok (wrP_frame t r b)).trans rfl
@[simp] theorem wrP_flights (t : Thread) (r : Nat) (b : Bool) : (wrP t r b).flights = t.flights := (congrArg Thread.flights (wrP_frame t r b)).trans rfl
@[simp] theorem wrP_qflights (t : Thread) (r : Nat) (b : Bool) : (wrP t r b).qflights = t.qflights := (congrArg Thread.qflights (wrP_frame t r b)).trans rfl
@[simp] theorem wrP_ctlAcc (t : Thread) (r : Nat) (b : Bool) : (wrP t r b).ctlAcc = t.ctlAcc := (congrArg Thread.ctlAcc (wrP_frame t r b)).trans rfl
@[simp] theorem wrP_settles (t : Thread) (r : Nat) (b : Bool) : (wrP t r b).settles = t.settles := (congrArg Thread.settles (wrP_frame t r b)).trans rfl
@[simp] theorem wrP_waitK (t : Thread) (r : Nat) (b : Bool) : (wrP t r b).waitK = t.waitK := (congrArg Thread.waitK (wrP_frame t r b)).trans rfl
@[simp] theorem wrP_waitL (t : Thread) (r : Nat) (b : Bool) : (wrP t r b).waitL = t.waitL := (congrArg Thread.waitL (wrP_frame t r b)).trans rfl
@[simp] theorem wrP_waitC (t : Thread) (r : Nat) (b : Bool) : (wrP t r b).waitC = t.waitC := (congrArg Thread.waitC (wrP_frame t r b)).trans rfl
@[simp] theorem wrP_waitS (t : Thread) (r : Nat) (b : Bool) : (wrP t r b).waitS = t.waitS := (congrArg Thread.waitS (wrP_frame t r b)).trans rfl
@[simp] theorem wrP_ph (t : Thread) (r : Nat) (b : Bool) : (wrP t r b).ph = t.ph := (congrArg Thread.ph (wrP_frame t r b)).trans rfl
@[simp] theorem wrP_phS (t : Thread) (r : Nat) (b : Bool) : (wrP t r b).phS = t.phS := (congrArg Thread.phS (wrP_frame t r b)).trans rfl
@[simp] theorem wrP_members (t : Thread) (r : Nat) (b : Bool) : (wrP t r b).members = t.members := (congrArg Thread.members (wrP_frame t r b)).trans rfl
@[simp] theorem wrP_hist (t : Thread) (r : Nat) (b : Bool) : (wrP t r b).hist = t.hist := (congrArg Thread.hist (wrP_frame t r b)).trans rfl
@[simp] theorem wrP_runL (t : Thread) (r : Nat) (b : Bool) : (wrP t r b).runL = t.runL := (congrArg Thread.runL (wrP_frame t r b)).trans rfl
@[simp] theorem wrP_runC (t : Thread) (r : Nat) (b : Bool) : (wrP t r b).runC = t.runC := (congrArg Thread.runC (wrP_frame t r b)).trans rfl
@[simp] theorem wrP_runS (t : Thread) (r : Nat) (b : Bool) : (wrP t r b).runS = t.runS := (congrArg Thread.runS (wrP_frame t r b)).trans rfl
@[simp] theorem wrP_stopped (t : Thread) (r : Nat) (b : Bool) : (wrP t r b).stopped = t.stopped := (congrArg Thread.stopped (wrP_frame t r b)).trans rfl
@[simp] theorem wrP_loopRes (t : Thread) (r : Nat) (b : Bool) : (wrP t r b).loopRes = t.loopRes := (congrArg Thread.loopRes (wrP_frame t r b)).trans rfl
@[simp] theorem wrP_trapPend (t : Thread) (r : Nat) (b : Bool) : (wrP t r b).trapPend = t.trapPend := (congrArg Thread.trapPend (wrP_frame t r b)).trans rfl
@[simp] theorem wrP_async (t : Thread) (r : Nat) (b : Bool) : (wrP t r b).async = t.async := (congrArg Thread.async (wrP_frame t r b)).trans rfl
@[simp] theorem wrP_locks (t : Thread) (r : Nat) (b : Bool) : (wrP t r b).locks = t.locks := (congrArg Thread.locks (wrP_frame t r b)).trans rfl
@[simp] theorem wrP_claim (t : Thread) (r : Nat) (b : Bool) : (wrP t r b).claim = t.claim := (congrArg Thread.claim (wrP_frame t r b)).trans rfl
@[simp] theorem wrP_task (t : Thread) (r : Nat) (b : Bool) : (wrP t r b).task = t.task := (congrArg Thread.task (wrP_frame t r b)).trans rfl
@[simp] theorem wrP_gangPos (t : Thread) (r : Nat) (b : Bool) : (wrP t r b).gangPos = t.gangPos := (congrArg Thread.gangPos (wrP_frame t r b)).trans rfl
@[simp] theorem wrP_pendPersist (t : Thread) (r : Nat) (b : Bool) : (wrP t r b).pendPersist = t.pendPersist := (congrArg Thread.pendPersist (wrP_frame t r b)).trans rfl
@[simp] theorem wrP_persistAt (t : Thread) (r : Nat) (b : Bool) : (wrP t r b).persistAt = t.persistAt := (congrArg Thread.persistAt (wrP_frame t r b)).trans rfl
@[simp] theorem wrP_preempt (t : Thread) (r : Nat) (b : Bool) : (wrP t r b).preempt = t.preempt := (congrArg Thread.preempt (wrP_frame t r b)).trans rfl
@[simp] theorem wrP_parkStop (t : Thread) (r : Nat) (b : Bool) : (wrP t r b).parkStop = t.parkStop := (congrArg Thread.parkStop (wrP_frame t r b)).trans rfl
@[simp] theorem wrP_liveIdx (t : Thread) (r : Nat) (b : Bool) : (wrP t r b).liveIdx = t.liveIdx := (congrArg Thread.liveIdx (wrP_frame t r b)).trans rfl
@[simp] theorem wrP_idleUntil (t : Thread) (r : Nat) (b : Bool) : (wrP t r b).idleUntil = t.idleUntil := (congrArg Thread.idleUntil (wrP_frame t r b)).trans rfl
@[simp] theorem wrP_permits (t : Thread) (r : Nat) (b : Bool) : (wrP t r b).permits = t.permits := (congrArg Thread.permits (wrP_frame t r b)).trans rfl
@[simp] theorem wrP_halted (t : Thread) (r : Nat) (b : Bool) : (wrP t r b).halted = t.halted := (congrArg Thread.halted (wrP_frame t r b)).trans rfl
@[simp] theorem wrP_running (t : Thread) (r : Nat) (b : Bool) : (wrP t r b).running = t.running := (congrArg Thread.running (wrP_frame t r b)).trans rfl
@[simp] theorem wrP_spadSave (t : Thread) (r : Nat) (b : Bool) : (wrP t r b).spadSave = t.spadSave := (congrArg Thread.spadSave (wrP_frame t r b)).trans rfl
@[simp] theorem wrP_spadBad (t : Thread) (r : Nat) (b : Bool) : (wrP t r b).spadBad = t.spadBad := (congrArg Thread.spadBad (wrP_frame t r b)).trans rfl
@[simp] theorem wrP_ran (t : Thread) (r : Nat) (b : Bool) : (wrP t r b).ran = t.ran := (congrArg Thread.ran (wrP_frame t r b)).trans rfl
@[simp] theorem wrP_mtHold (t : Thread) (r : Nat) (b : Bool) : (wrP t r b).mtHold = t.mtHold := (congrArg Thread.mtHold (wrP_frame t r b)).trans rfl
@[simp] theorem wrP_passed (t : Thread) (r : Nat) (b : Bool) : (wrP t r b).passed = t.passed := (congrArg Thread.passed (wrP_frame t r b)).trans rfl
@[simp] theorem wrP_tileRep (t : Thread) (r : Nat) (b : Bool) : (wrP t r b).tileRep = t.tileRep := (congrArg Thread.tileRep (wrP_frame t r b)).trans rfl

theorem wrX_frame (t : Thread) (ld : Bool) (r : Nat) (v : W) :
    wrX t ld r v = { t with xl := (wrX t ld r v).xl, xs := (wrX t ld r v).xs, freed := (wrX t ld r v).freed } := by
  unfold wrX; repeat' split
  all_goals rfl
@[simp] theorem wrX_g (t : Thread) (ld : Bool) (r : Nat) (v : W) : (wrX t ld r v).g = t.g := (congrArg Thread.g (wrX_frame t ld r v)).trans rfl
@[simp] theorem wrX_p (t : Thread) (ld : Bool) (r : Nat) (v : W) : (wrX t ld r v).p = t.p := (congrArg Thread.p (wrX_frame t ld r v)).trans rfl
@[simp] theorem wrX_h (t : Thread) (ld : Bool) (r : Nat) (v : W) : (wrX t ld r v).h = t.h := (congrArg Thread.h (wrX_frame t ld r v)).trans rfl
@[simp] theorem wrX_hPoison (t : Thread) (ld : Bool) (r : Nat) (v : W) : (wrX t ld r v).hPoison = t.hPoison := (congrArg Thread.hPoison (wrX_frame t ld r v)).trans rfl
@[simp] theorem wrX_hLine (t : Thread) (ld : Bool) (r : Nat) (v : W) : (wrX t ld r v).hLine = t.hLine := (congrArg Thread.hLine (wrX_frame t ld r v)).trans rfl
@[simp] theorem wrX_hSwm (t : Thread) (ld : Bool) (r : Nat) (v : W) : (wrX t ld r v).hSwm = t.hSwm := (congrArg Thread.hSwm (wrX_frame t ld r v)).trans rfl
@[simp] theorem wrX_hRq (t : Thread) (ld : Bool) (r : Nat) (v : W) : (wrX t ld r v).hRq = t.hRq := (congrArg Thread.hRq (wrX_frame t ld r v)).trans rfl
@[simp] theorem wrX_hVa (t : Thread) (ld : Bool) (r : Nat) (v : W) : (wrX t ld r v).hVa = t.hVa := (congrArg Thread.hVa (wrX_frame t ld r v)).trans rfl
@[simp] theorem wrX_a (t : Thread) (ld : Bool) (r : Nat) (v : W) : (wrX t ld r v).a = t.a := (congrArg Thread.a (wrX_frame t ld r v)).trans rfl
@[simp] theorem wrX_m (t : Thread) (ld : Bool) (r : Nat) (v : W) : (wrX t ld r v).m = t.m := (congrArg Thread.m (wrX_frame t ld r v)).trans rfl
@[simp] theorem wrX_s (t : Thread) (ld : Bool) (r : Nat) (v : W) : (wrX t ld r v).s = t.s := (congrArg Thread.s (wrX_frame t ld r v)).trans rfl
@[simp] theorem wrX_vc (t : Thread) (ld : Bool) (r : Nat) (v : W) : (wrX t ld r v).vc = t.vc := (congrArg Thread.vc (wrX_frame t ld r v)).trans rfl
@[simp] theorem wrX_lcl (t : Thread) (ld : Bool) (r : Nat) (v : W) : (wrX t ld r v).lcl = t.lcl := (congrArg Thread.lcl (wrX_frame t ld r v)).trans rfl
@[simp] theorem wrX_lcc (t : Thread) (ld : Bool) (r : Nat) (v : W) : (wrX t ld r v).lcc = t.lcc := (congrArg Thread.lcc (wrX_frame t ld r v)).trans rfl
@[simp] theorem wrX_lcs (t : Thread) (ld : Bool) (r : Nat) (v : W) : (wrX t ld r v).lcs = t.lcs := (congrArg Thread.lcs (wrX_frame t ld r v)).trans rfl
@[simp] theorem wrX_q (t : Thread) (ld : Bool) (r : Nat) (v : W) : (wrX t ld r v).q = t.q := (congrArg Thread.q (wrX_frame t ld r v)).trans rfl
@[simp] theorem wrX_eb (t : Thread) (ld : Bool) (r : Nat) (v : W) : (wrX t ld r v).eb = t.eb := (congrArg Thread.eb (wrX_frame t ld r v)).trans rfl
@[simp] theorem wrX_status (t : Thread) (ld : Bool) (r : Nat) (v : W) : (wrX t ld r v).status = t.status := (congrArg Thread.status (wrX_frame t ld r v)).trans rfl
@[simp] theorem wrX_trapCause (t : Thread) (ld : Bool) (r : Nat) (v : W) : (wrX t ld r v).trapCause = t.trapCause := (congrArg Thread.trapCause (wrX_frame t ld r v)).trans rfl
@[simp] theorem wrX_trapPc (t : Thread) (ld : Bool) (r : Nat) (v : W) : (wrX t ld r v).trapPc = t.trapPc := (congrArg Thread.trapPc (wrX_frame t ld r v)).trans rfl
@[simp] theorem wrX_trapTask (t : Thread) (ld : Bool) (r : Nat) (v : W) : (wrX t ld r v).trapTask = t.trapTask := (congrArg Thread.trapTask (wrX_frame t ld r v)).trans rfl
@[simp] theorem wrX_trapInfo (t : Thread) (ld : Bool) (r : Nat) (v : W) : (wrX t ld r v).trapInfo = t.trapInfo := (congrArg Thread.trapInfo (wrX_frame t ld r v)).trans rfl
@[simp] theorem wrX_repState (t : Thread) (ld : Bool) (r : Nat) (v : W) : (wrX t ld r v).repState = t.repState := (congrArg Thread.repState (wrX_frame t ld r v)).trans rfl
@[simp] theorem wrX_handlerBase (t : Thread) (ld : Bool) (r : Nat) (v : W) : (wrX t ld r v).handlerBase = t.handlerBase := (congrArg Thread.handlerBase (wrX_frame t ld r v)).trans rfl
@[simp] theorem wrX_handlerRanges (t : Thread) (ld : Bool) (r : Nat) (v : W) : (wrX t ld r v).handlerRanges = t.handlerRanges := (congrArg Thread.handlerRanges (wrX_frame t ld r v)).trans rfl
@[simp] theorem wrX_flags (t : Thread) (ld : Bool) (r : Nat) (v : W) : (wrX t ld r v).flags = t.flags := (congrArg Thread.flags (wrX_frame t ld r v)).trans rfl
@[simp] theorem wrX_roundMode (t : Thread) (ld : Bool) (r : Nat) (v : W) : (wrX t ld r v).roundMode = t.roundMode := (congrArg Thread.roundMode (wrX_frame t ld r v)).trans rfl
@[simp] theorem wrX_boundCtl (t : Thread) (ld : Bool) (r : Nat) (v : W) : (wrX t ld r v).boundCtl = t.boundCtl := (congrArg Thread.boundCtl (wrX_frame t ld r v)).trans rfl
@[simp] theorem wrX_dropSeed (t : Thread) (ld : Bool) (r : Nat) (v : W) : (wrX t ld r v).dropSeed = t.dropSeed := (congrArg Thread.dropSeed (wrX_frame t ld r v)).trans rfl
@[simp] theorem wrX_fmtBase (t : Thread) (ld : Bool) (r : Nat) (v : W) : (wrX t ld r v).fmtBase = t.fmtBase := (congrArg Thread.fmtBase (wrX_frame t ld r v)).trans rfl
@[simp] theorem wrX_ft (t : Thread) (ld : Bool) (r : Nat) (v : W) : (wrX t ld r v).ft = t.ft := (congrArg Thread.ft (wrX_frame t ld r v)).trans rfl
@[simp] theorem wrX_pc (t : Thread) (ld : Bool) (r : Nat) (v : W) : (wrX t ld r v).pc = t.pc := (congrArg Thread.pc (wrX_frame t ld r v)).trans rfl
@[simp] theorem wrX_pfx (t : Thread) (ld : Bool) (r : Nat) (v : W) : (wrX t ld r v).pfx = t.pfx := (congrArg Thread.pfx (wrX_frame t ld r v)).trans rfl
@[simp] theorem wrX_pfxPc (t : Thread) (ld : Bool) (r : Nat) (v : W) : (wrX t ld r v).pfxPc = t.pfxPc := (congrArg Thread.pfxPc (wrX_frame t ld r v)).trans rfl
@[simp] theorem wrX_repDone (t : Thread) (ld : Bool) (r : Nat) (v : W) : (wrX t ld r v).repDone = t.repDone := (congrArg Thread.repDone (wrX_frame t ld r v)).trans rfl
@[simp] theorem wrX_repPc (t : Thread) (ld : Bool) (r : Nat) (v : W) : (wrX t ld r v).repPc = t.repPc := (congrArg Thread.repPc (wrX_frame t ld r v)).trans rfl
@[simp] theorem wrX_seq (t : Thread) (ld : Bool) (r : Nat) (v : W) : (wrX t ld r v).seq = t.seq := (congrArg Thread.seq (wrX_frame t ld r v)).trans rfl
@[simp] theorem wrX_ldQ (t : Thread) (ld : Bool) (r : Nat) (v : W) : (wrX t ld r v).ldQ = t.ldQ := (congrArg Thread.ldQ (wrX_frame t ld r v)).trans rfl
@[simp] theorem wrX_cpQ (t : Thread) (ld : Bool) (r : Nat) (v : W) : (wrX t ld r v).cpQ = t.cpQ := (congrArg Thread.cpQ (wrX_frame t ld r v)).trans rfl
@[simp] theorem wrX_stQ (t : Thread) (ld : Bool) (r : Nat) (v : W) : (wrX t ld r v).stQ = t.stQ := (congrArg Thread.stQ (wrX_frame t ld r v)).trans rfl
@[simp] theorem wrX_lpL (t : Thread) (ld : Bool) (r : Nat) (v : W) : (wrX t ld r v).lpL = t.lpL := (congrArg Thread.lpL (wrX_frame t ld r v)).trans rfl
@[simp] theorem wrX_lpC (t : Thread) (ld : Bool) (r : Nat) (v : W) : (wrX t ld r v).lpC = t.lpC := (congrArg Thread.lpC (wrX_frame t ld r v)).trans rfl
@[simp] theorem wrX_lpS (t : Thread) (ld : Bool) (r : Nat) (v : W) : (wrX t ld r v).lpS = t.lpS := (congrArg Thread.lpS (wrX_frame t ld r v)).trans rfl
@[simp] theorem wrX_winL (t : Thread) (ld : Bool) (r : Nat) (v : W) : (wrX t ld r v).winL = t.winL := (congrArg Thread.winL (wrX_frame t ld r v)).trans rfl
@[simp] theorem wrX_winC (t : Thread) (ld : Bool) (r : Nat) (v : W) : (wrX t ld r v).winC = t.winC := (congrArg Thread.winC (wrX_frame t ld r v)).trans rfl
@[simp] theorem wrX_winS (t : Thread) (ld : Bool) (r : Nat) (v : W) : (wrX t ld r v).winS = t.winS := (congrArg Thread.winS (wrX_frame t ld r v)).trans rfl
@[simp] theorem wrX_lostL (t : Thread) (ld : Bool) (r : Nat) (v : W) : (wrX t ld r v).lostL = t.lostL := (congrArg Thread.lostL (wrX_frame t ld r v)).trans rfl
@[simp] theorem wrX_lostC (t : Thread) (ld : Bool) (r : Nat) (v : W) : (wrX t ld r v).lostC = t.lostC := (congrArg Thread.lostC (wrX_frame t ld r v)).trans rfl
@[simp] theorem wrX_lostS (t : Thread) (ld : Bool) (r : Nat) (v : W) : (wrX t ld r v).lostS = t.lostS := (congrArg Thread.lostS (wrX_frame t ld r v)).trans rfl
@[simp] theorem wrX_tok (t : Thread) (ld : Bool) (r : Nat) (v : W) : (wrX t ld r v).tok = t.tok := (congrArg Thread.tok (wrX_frame t ld r v)).trans rfl
@[simp] theorem wrX_flights (t : Thread) (ld : Bool) (r : Nat) (v : W) : (wrX t ld r v).flights = t.flights := (congrArg Thread.flights (wrX_frame t ld r v)).trans rfl
@[simp] theorem wrX_qflights (t : Thread) (ld : Bool) (r : Nat) (v : W) : (wrX t ld r v).qflights = t.qflights := (congrArg Thread.qflights (wrX_frame t ld r v)).trans rfl
@[simp] theorem wrX_ctlAcc (t : Thread) (ld : Bool) (r : Nat) (v : W) : (wrX t ld r v).ctlAcc = t.ctlAcc := (congrArg Thread.ctlAcc (wrX_frame t ld r v)).trans rfl
@[simp] theorem wrX_settles (t : Thread) (ld : Bool) (r : Nat) (v : W) : (wrX t ld r v).settles = t.settles := (congrArg Thread.settles (wrX_frame t ld r v)).trans rfl
@[simp] theorem wrX_waitK (t : Thread) (ld : Bool) (r : Nat) (v : W) : (wrX t ld r v).waitK = t.waitK := (congrArg Thread.waitK (wrX_frame t ld r v)).trans rfl
@[simp] theorem wrX_waitL (t : Thread) (ld : Bool) (r : Nat) (v : W) : (wrX t ld r v).waitL = t.waitL := (congrArg Thread.waitL (wrX_frame t ld r v)).trans rfl
@[simp] theorem wrX_waitC (t : Thread) (ld : Bool) (r : Nat) (v : W) : (wrX t ld r v).waitC = t.waitC := (congrArg Thread.waitC (wrX_frame t ld r v)).trans rfl
@[simp] theorem wrX_waitS (t : Thread) (ld : Bool) (r : Nat) (v : W) : (wrX t ld r v).waitS = t.waitS := (congrArg Thread.waitS (wrX_frame t ld r v)).trans rfl
@[simp] theorem wrX_ph (t : Thread) (ld : Bool) (r : Nat) (v : W) : (wrX t ld r v).ph = t.ph := (congrArg Thread.ph (wrX_frame t ld r v)).trans rfl
@[simp] theorem wrX_phS (t : Thread) (ld : Bool) (r : Nat) (v : W) : (wrX t ld r v).phS = t.phS := (congrArg Thread.phS (wrX_frame t ld r v)).trans rfl
@[simp] theorem wrX_members (t : Thread) (ld : Bool) (r : Nat) (v : W) : (wrX t ld r v).members = t.members := (congrArg Thread.members (wrX_frame t ld r v)).trans rfl
@[simp] theorem wrX_hist (t : Thread) (ld : Bool) (r : Nat) (v : W) : (wrX t ld r v).hist = t.hist := (congrArg Thread.hist (wrX_frame t ld r v)).trans rfl
@[simp] theorem wrX_runL (t : Thread) (ld : Bool) (r : Nat) (v : W) : (wrX t ld r v).runL = t.runL := (congrArg Thread.runL (wrX_frame t ld r v)).trans rfl
@[simp] theorem wrX_runC (t : Thread) (ld : Bool) (r : Nat) (v : W) : (wrX t ld r v).runC = t.runC := (congrArg Thread.runC (wrX_frame t ld r v)).trans rfl
@[simp] theorem wrX_runS (t : Thread) (ld : Bool) (r : Nat) (v : W) : (wrX t ld r v).runS = t.runS := (congrArg Thread.runS (wrX_frame t ld r v)).trans rfl
@[simp] theorem wrX_stopped (t : Thread) (ld : Bool) (r : Nat) (v : W) : (wrX t ld r v).stopped = t.stopped := (congrArg Thread.stopped (wrX_frame t ld r v)).trans rfl
@[simp] theorem wrX_loopRes (t : Thread) (ld : Bool) (r : Nat) (v : W) : (wrX t ld r v).loopRes = t.loopRes := (congrArg Thread.loopRes (wrX_frame t ld r v)).trans rfl
@[simp] theorem wrX_trapPend (t : Thread) (ld : Bool) (r : Nat) (v : W) : (wrX t ld r v).trapPend = t.trapPend := (congrArg Thread.trapPend (wrX_frame t ld r v)).trans rfl
@[simp] theorem wrX_async (t : Thread) (ld : Bool) (r : Nat) (v : W) : (wrX t ld r v).async = t.async := (congrArg Thread.async (wrX_frame t ld r v)).trans rfl
@[simp] theorem wrX_locks (t : Thread) (ld : Bool) (r : Nat) (v : W) : (wrX t ld r v).locks = t.locks := (congrArg Thread.locks (wrX_frame t ld r v)).trans rfl
@[simp] theorem wrX_claim (t : Thread) (ld : Bool) (r : Nat) (v : W) : (wrX t ld r v).claim = t.claim := (congrArg Thread.claim (wrX_frame t ld r v)).trans rfl
@[simp] theorem wrX_task (t : Thread) (ld : Bool) (r : Nat) (v : W) : (wrX t ld r v).task = t.task := (congrArg Thread.task (wrX_frame t ld r v)).trans rfl
@[simp] theorem wrX_gangPos (t : Thread) (ld : Bool) (r : Nat) (v : W) : (wrX t ld r v).gangPos = t.gangPos := (congrArg Thread.gangPos (wrX_frame t ld r v)).trans rfl
@[simp] theorem wrX_pendPersist (t : Thread) (ld : Bool) (r : Nat) (v : W) : (wrX t ld r v).pendPersist = t.pendPersist := (congrArg Thread.pendPersist (wrX_frame t ld r v)).trans rfl
@[simp] theorem wrX_persistAt (t : Thread) (ld : Bool) (r : Nat) (v : W) : (wrX t ld r v).persistAt = t.persistAt := (congrArg Thread.persistAt (wrX_frame t ld r v)).trans rfl
@[simp] theorem wrX_preempt (t : Thread) (ld : Bool) (r : Nat) (v : W) : (wrX t ld r v).preempt = t.preempt := (congrArg Thread.preempt (wrX_frame t ld r v)).trans rfl
@[simp] theorem wrX_parkStop (t : Thread) (ld : Bool) (r : Nat) (v : W) : (wrX t ld r v).parkStop = t.parkStop := (congrArg Thread.parkStop (wrX_frame t ld r v)).trans rfl
@[simp] theorem wrX_liveIdx (t : Thread) (ld : Bool) (r : Nat) (v : W) : (wrX t ld r v).liveIdx = t.liveIdx := (congrArg Thread.liveIdx (wrX_frame t ld r v)).trans rfl
@[simp] theorem wrX_idleUntil (t : Thread) (ld : Bool) (r : Nat) (v : W) : (wrX t ld r v).idleUntil = t.idleUntil := (congrArg Thread.idleUntil (wrX_frame t ld r v)).trans rfl
@[simp] theorem wrX_permits (t : Thread) (ld : Bool) (r : Nat) (v : W) : (wrX t ld r v).permits = t.permits := (congrArg Thread.permits (wrX_frame t ld r v)).trans rfl
@[simp] theorem wrX_halted (t : Thread) (ld : Bool) (r : Nat) (v : W) : (wrX t ld r v).halted = t.halted := (congrArg Thread.halted (wrX_frame t ld r v)).trans rfl
@[simp] theorem wrX_running (t : Thread) (ld : Bool) (r : Nat) (v : W) : (wrX t ld r v).running = t.running := (congrArg Thread.running (wrX_frame t ld r v)).trans rfl
@[simp] theorem wrX_spadSave (t : Thread) (ld : Bool) (r : Nat) (v : W) : (wrX t ld r v).spadSave = t.spadSave := (congrArg Thread.spadSave (wrX_frame t ld r v)).trans rfl
@[simp] theorem wrX_spadBad (t : Thread) (ld : Bool) (r : Nat) (v : W) : (wrX t ld r v).spadBad = t.spadBad := (congrArg Thread.spadBad (wrX_frame t ld r v)).trans rfl
@[simp] theorem wrX_ran (t : Thread) (ld : Bool) (r : Nat) (v : W) : (wrX t ld r v).ran = t.ran := (congrArg Thread.ran (wrX_frame t ld r v)).trans rfl
@[simp] theorem wrX_mtHold (t : Thread) (ld : Bool) (r : Nat) (v : W) : (wrX t ld r v).mtHold = t.mtHold := (congrArg Thread.mtHold (wrX_frame t ld r v)).trans rfl
@[simp] theorem wrX_passed (t : Thread) (ld : Bool) (r : Nat) (v : W) : (wrX t ld r v).passed = t.passed := (congrArg Thread.passed (wrX_frame t ld r v)).trans rfl
@[simp] theorem wrX_tileRep (t : Thread) (ld : Bool) (r : Nat) (v : W) : (wrX t ld r v).tileRep = t.tileRep := (congrArg Thread.tileRep (wrX_frame t ld r v)).trans rfl

theorem freeX_frame (t : Thread) (ld : Bool) (l : BitVec 1) (r : Nat) :
    freeX t ld l r = { t with freed := (freeX t ld l r).freed } := by
  unfold freeX; repeat' split
  all_goals rfl
@[simp] theorem freeX_g (t : Thread) (ld : Bool) (l : BitVec 1) (r : Nat) : (freeX t ld l r).g = t.g := (congrArg Thread.g (freeX_frame t ld l r)).trans rfl
@[simp] theorem freeX_p (t : Thread) (ld : Bool) (l : BitVec 1) (r : Nat) : (freeX t ld l r).p = t.p := (congrArg Thread.p (freeX_frame t ld l r)).trans rfl
@[simp] theorem freeX_h (t : Thread) (ld : Bool) (l : BitVec 1) (r : Nat) : (freeX t ld l r).h = t.h := (congrArg Thread.h (freeX_frame t ld l r)).trans rfl
@[simp] theorem freeX_hPoison (t : Thread) (ld : Bool) (l : BitVec 1) (r : Nat) : (freeX t ld l r).hPoison = t.hPoison := (congrArg Thread.hPoison (freeX_frame t ld l r)).trans rfl
@[simp] theorem freeX_hLine (t : Thread) (ld : Bool) (l : BitVec 1) (r : Nat) : (freeX t ld l r).hLine = t.hLine := (congrArg Thread.hLine (freeX_frame t ld l r)).trans rfl
@[simp] theorem freeX_hSwm (t : Thread) (ld : Bool) (l : BitVec 1) (r : Nat) : (freeX t ld l r).hSwm = t.hSwm := (congrArg Thread.hSwm (freeX_frame t ld l r)).trans rfl
@[simp] theorem freeX_hRq (t : Thread) (ld : Bool) (l : BitVec 1) (r : Nat) : (freeX t ld l r).hRq = t.hRq := (congrArg Thread.hRq (freeX_frame t ld l r)).trans rfl
@[simp] theorem freeX_hVa (t : Thread) (ld : Bool) (l : BitVec 1) (r : Nat) : (freeX t ld l r).hVa = t.hVa := (congrArg Thread.hVa (freeX_frame t ld l r)).trans rfl
@[simp] theorem freeX_xl (t : Thread) (ld : Bool) (l : BitVec 1) (r : Nat) : (freeX t ld l r).xl = t.xl := (congrArg Thread.xl (freeX_frame t ld l r)).trans rfl
@[simp] theorem freeX_xs (t : Thread) (ld : Bool) (l : BitVec 1) (r : Nat) : (freeX t ld l r).xs = t.xs := (congrArg Thread.xs (freeX_frame t ld l r)).trans rfl
@[simp] theorem freeX_a (t : Thread) (ld : Bool) (l : BitVec 1) (r : Nat) : (freeX t ld l r).a = t.a := (congrArg Thread.a (freeX_frame t ld l r)).trans rfl
@[simp] theorem freeX_m (t : Thread) (ld : Bool) (l : BitVec 1) (r : Nat) : (freeX t ld l r).m = t.m := (congrArg Thread.m (freeX_frame t ld l r)).trans rfl
@[simp] theorem freeX_s (t : Thread) (ld : Bool) (l : BitVec 1) (r : Nat) : (freeX t ld l r).s = t.s := (congrArg Thread.s (freeX_frame t ld l r)).trans rfl
@[simp] theorem freeX_vc (t : Thread) (ld : Bool) (l : BitVec 1) (r : Nat) : (freeX t ld l r).vc = t.vc := (congrArg Thread.vc (freeX_frame t ld l r)).trans rfl
@[simp] theorem freeX_lcl (t : Thread) (ld : Bool) (l : BitVec 1) (r : Nat) : (freeX t ld l r).lcl = t.lcl := (congrArg Thread.lcl (freeX_frame t ld l r)).trans rfl
@[simp] theorem freeX_lcc (t : Thread) (ld : Bool) (l : BitVec 1) (r : Nat) : (freeX t ld l r).lcc = t.lcc := (congrArg Thread.lcc (freeX_frame t ld l r)).trans rfl
@[simp] theorem freeX_lcs (t : Thread) (ld : Bool) (l : BitVec 1) (r : Nat) : (freeX t ld l r).lcs = t.lcs := (congrArg Thread.lcs (freeX_frame t ld l r)).trans rfl
@[simp] theorem freeX_q (t : Thread) (ld : Bool) (l : BitVec 1) (r : Nat) : (freeX t ld l r).q = t.q := (congrArg Thread.q (freeX_frame t ld l r)).trans rfl
@[simp] theorem freeX_eb (t : Thread) (ld : Bool) (l : BitVec 1) (r : Nat) : (freeX t ld l r).eb = t.eb := (congrArg Thread.eb (freeX_frame t ld l r)).trans rfl
@[simp] theorem freeX_status (t : Thread) (ld : Bool) (l : BitVec 1) (r : Nat) : (freeX t ld l r).status = t.status := (congrArg Thread.status (freeX_frame t ld l r)).trans rfl
@[simp] theorem freeX_trapCause (t : Thread) (ld : Bool) (l : BitVec 1) (r : Nat) : (freeX t ld l r).trapCause = t.trapCause := (congrArg Thread.trapCause (freeX_frame t ld l r)).trans rfl
@[simp] theorem freeX_trapPc (t : Thread) (ld : Bool) (l : BitVec 1) (r : Nat) : (freeX t ld l r).trapPc = t.trapPc := (congrArg Thread.trapPc (freeX_frame t ld l r)).trans rfl
@[simp] theorem freeX_trapTask (t : Thread) (ld : Bool) (l : BitVec 1) (r : Nat) : (freeX t ld l r).trapTask = t.trapTask := (congrArg Thread.trapTask (freeX_frame t ld l r)).trans rfl
@[simp] theorem freeX_trapInfo (t : Thread) (ld : Bool) (l : BitVec 1) (r : Nat) : (freeX t ld l r).trapInfo = t.trapInfo := (congrArg Thread.trapInfo (freeX_frame t ld l r)).trans rfl
@[simp] theorem freeX_repState (t : Thread) (ld : Bool) (l : BitVec 1) (r : Nat) : (freeX t ld l r).repState = t.repState := (congrArg Thread.repState (freeX_frame t ld l r)).trans rfl
@[simp] theorem freeX_handlerBase (t : Thread) (ld : Bool) (l : BitVec 1) (r : Nat) : (freeX t ld l r).handlerBase = t.handlerBase := (congrArg Thread.handlerBase (freeX_frame t ld l r)).trans rfl
@[simp] theorem freeX_handlerRanges (t : Thread) (ld : Bool) (l : BitVec 1) (r : Nat) : (freeX t ld l r).handlerRanges = t.handlerRanges := (congrArg Thread.handlerRanges (freeX_frame t ld l r)).trans rfl
@[simp] theorem freeX_flags (t : Thread) (ld : Bool) (l : BitVec 1) (r : Nat) : (freeX t ld l r).flags = t.flags := (congrArg Thread.flags (freeX_frame t ld l r)).trans rfl
@[simp] theorem freeX_roundMode (t : Thread) (ld : Bool) (l : BitVec 1) (r : Nat) : (freeX t ld l r).roundMode = t.roundMode := (congrArg Thread.roundMode (freeX_frame t ld l r)).trans rfl
@[simp] theorem freeX_boundCtl (t : Thread) (ld : Bool) (l : BitVec 1) (r : Nat) : (freeX t ld l r).boundCtl = t.boundCtl := (congrArg Thread.boundCtl (freeX_frame t ld l r)).trans rfl
@[simp] theorem freeX_dropSeed (t : Thread) (ld : Bool) (l : BitVec 1) (r : Nat) : (freeX t ld l r).dropSeed = t.dropSeed := (congrArg Thread.dropSeed (freeX_frame t ld l r)).trans rfl
@[simp] theorem freeX_fmtBase (t : Thread) (ld : Bool) (l : BitVec 1) (r : Nat) : (freeX t ld l r).fmtBase = t.fmtBase := (congrArg Thread.fmtBase (freeX_frame t ld l r)).trans rfl
@[simp] theorem freeX_ft (t : Thread) (ld : Bool) (l : BitVec 1) (r : Nat) : (freeX t ld l r).ft = t.ft := (congrArg Thread.ft (freeX_frame t ld l r)).trans rfl
@[simp] theorem freeX_pc (t : Thread) (ld : Bool) (l : BitVec 1) (r : Nat) : (freeX t ld l r).pc = t.pc := (congrArg Thread.pc (freeX_frame t ld l r)).trans rfl
@[simp] theorem freeX_pfx (t : Thread) (ld : Bool) (l : BitVec 1) (r : Nat) : (freeX t ld l r).pfx = t.pfx := (congrArg Thread.pfx (freeX_frame t ld l r)).trans rfl
@[simp] theorem freeX_pfxPc (t : Thread) (ld : Bool) (l : BitVec 1) (r : Nat) : (freeX t ld l r).pfxPc = t.pfxPc := (congrArg Thread.pfxPc (freeX_frame t ld l r)).trans rfl
@[simp] theorem freeX_repDone (t : Thread) (ld : Bool) (l : BitVec 1) (r : Nat) : (freeX t ld l r).repDone = t.repDone := (congrArg Thread.repDone (freeX_frame t ld l r)).trans rfl
@[simp] theorem freeX_repPc (t : Thread) (ld : Bool) (l : BitVec 1) (r : Nat) : (freeX t ld l r).repPc = t.repPc := (congrArg Thread.repPc (freeX_frame t ld l r)).trans rfl
@[simp] theorem freeX_seq (t : Thread) (ld : Bool) (l : BitVec 1) (r : Nat) : (freeX t ld l r).seq = t.seq := (congrArg Thread.seq (freeX_frame t ld l r)).trans rfl
@[simp] theorem freeX_ldQ (t : Thread) (ld : Bool) (l : BitVec 1) (r : Nat) : (freeX t ld l r).ldQ = t.ldQ := (congrArg Thread.ldQ (freeX_frame t ld l r)).trans rfl
@[simp] theorem freeX_cpQ (t : Thread) (ld : Bool) (l : BitVec 1) (r : Nat) : (freeX t ld l r).cpQ = t.cpQ := (congrArg Thread.cpQ (freeX_frame t ld l r)).trans rfl
@[simp] theorem freeX_stQ (t : Thread) (ld : Bool) (l : BitVec 1) (r : Nat) : (freeX t ld l r).stQ = t.stQ := (congrArg Thread.stQ (freeX_frame t ld l r)).trans rfl
@[simp] theorem freeX_lpL (t : Thread) (ld : Bool) (l : BitVec 1) (r : Nat) : (freeX t ld l r).lpL = t.lpL := (congrArg Thread.lpL (freeX_frame t ld l r)).trans rfl
@[simp] theorem freeX_lpC (t : Thread) (ld : Bool) (l : BitVec 1) (r : Nat) : (freeX t ld l r).lpC = t.lpC := (congrArg Thread.lpC (freeX_frame t ld l r)).trans rfl
@[simp] theorem freeX_lpS (t : Thread) (ld : Bool) (l : BitVec 1) (r : Nat) : (freeX t ld l r).lpS = t.lpS := (congrArg Thread.lpS (freeX_frame t ld l r)).trans rfl
@[simp] theorem freeX_winL (t : Thread) (ld : Bool) (l : BitVec 1) (r : Nat) : (freeX t ld l r).winL = t.winL := (congrArg Thread.winL (freeX_frame t ld l r)).trans rfl
@[simp] theorem freeX_winC (t : Thread) (ld : Bool) (l : BitVec 1) (r : Nat) : (freeX t ld l r).winC = t.winC := (congrArg Thread.winC (freeX_frame t ld l r)).trans rfl
@[simp] theorem freeX_winS (t : Thread) (ld : Bool) (l : BitVec 1) (r : Nat) : (freeX t ld l r).winS = t.winS := (congrArg Thread.winS (freeX_frame t ld l r)).trans rfl
@[simp] theorem freeX_lostL (t : Thread) (ld : Bool) (l : BitVec 1) (r : Nat) : (freeX t ld l r).lostL = t.lostL := (congrArg Thread.lostL (freeX_frame t ld l r)).trans rfl
@[simp] theorem freeX_lostC (t : Thread) (ld : Bool) (l : BitVec 1) (r : Nat) : (freeX t ld l r).lostC = t.lostC := (congrArg Thread.lostC (freeX_frame t ld l r)).trans rfl
@[simp] theorem freeX_lostS (t : Thread) (ld : Bool) (l : BitVec 1) (r : Nat) : (freeX t ld l r).lostS = t.lostS := (congrArg Thread.lostS (freeX_frame t ld l r)).trans rfl
@[simp] theorem freeX_tok (t : Thread) (ld : Bool) (l : BitVec 1) (r : Nat) : (freeX t ld l r).tok = t.tok := (congrArg Thread.tok (freeX_frame t ld l r)).trans rfl
@[simp] theorem freeX_flights (t : Thread) (ld : Bool) (l : BitVec 1) (r : Nat) : (freeX t ld l r).flights = t.flights := (congrArg Thread.flights (freeX_frame t ld l r)).trans rfl
@[simp] theorem freeX_qflights (t : Thread) (ld : Bool) (l : BitVec 1) (r : Nat) : (freeX t ld l r).qflights = t.qflights := (congrArg Thread.qflights (freeX_frame t ld l r)).trans rfl
@[simp] theorem freeX_ctlAcc (t : Thread) (ld : Bool) (l : BitVec 1) (r : Nat) : (freeX t ld l r).ctlAcc = t.ctlAcc := (congrArg Thread.ctlAcc (freeX_frame t ld l r)).trans rfl
@[simp] theorem freeX_settles (t : Thread) (ld : Bool) (l : BitVec 1) (r : Nat) : (freeX t ld l r).settles = t.settles := (congrArg Thread.settles (freeX_frame t ld l r)).trans rfl
@[simp] theorem freeX_waitK (t : Thread) (ld : Bool) (l : BitVec 1) (r : Nat) : (freeX t ld l r).waitK = t.waitK := (congrArg Thread.waitK (freeX_frame t ld l r)).trans rfl
@[simp] theorem freeX_waitL (t : Thread) (ld : Bool) (l : BitVec 1) (r : Nat) : (freeX t ld l r).waitL = t.waitL := (congrArg Thread.waitL (freeX_frame t ld l r)).trans rfl
@[simp] theorem freeX_waitC (t : Thread) (ld : Bool) (l : BitVec 1) (r : Nat) : (freeX t ld l r).waitC = t.waitC := (congrArg Thread.waitC (freeX_frame t ld l r)).trans rfl
@[simp] theorem freeX_waitS (t : Thread) (ld : Bool) (l : BitVec 1) (r : Nat) : (freeX t ld l r).waitS = t.waitS := (congrArg Thread.waitS (freeX_frame t ld l r)).trans rfl
@[simp] theorem freeX_ph (t : Thread) (ld : Bool) (l : BitVec 1) (r : Nat) : (freeX t ld l r).ph = t.ph := (congrArg Thread.ph (freeX_frame t ld l r)).trans rfl
@[simp] theorem freeX_phS (t : Thread) (ld : Bool) (l : BitVec 1) (r : Nat) : (freeX t ld l r).phS = t.phS := (congrArg Thread.phS (freeX_frame t ld l r)).trans rfl
@[simp] theorem freeX_members (t : Thread) (ld : Bool) (l : BitVec 1) (r : Nat) : (freeX t ld l r).members = t.members := (congrArg Thread.members (freeX_frame t ld l r)).trans rfl
@[simp] theorem freeX_hist (t : Thread) (ld : Bool) (l : BitVec 1) (r : Nat) : (freeX t ld l r).hist = t.hist := (congrArg Thread.hist (freeX_frame t ld l r)).trans rfl
@[simp] theorem freeX_runL (t : Thread) (ld : Bool) (l : BitVec 1) (r : Nat) : (freeX t ld l r).runL = t.runL := (congrArg Thread.runL (freeX_frame t ld l r)).trans rfl
@[simp] theorem freeX_runC (t : Thread) (ld : Bool) (l : BitVec 1) (r : Nat) : (freeX t ld l r).runC = t.runC := (congrArg Thread.runC (freeX_frame t ld l r)).trans rfl
@[simp] theorem freeX_runS (t : Thread) (ld : Bool) (l : BitVec 1) (r : Nat) : (freeX t ld l r).runS = t.runS := (congrArg Thread.runS (freeX_frame t ld l r)).trans rfl
@[simp] theorem freeX_stopped (t : Thread) (ld : Bool) (l : BitVec 1) (r : Nat) : (freeX t ld l r).stopped = t.stopped := (congrArg Thread.stopped (freeX_frame t ld l r)).trans rfl
@[simp] theorem freeX_loopRes (t : Thread) (ld : Bool) (l : BitVec 1) (r : Nat) : (freeX t ld l r).loopRes = t.loopRes := (congrArg Thread.loopRes (freeX_frame t ld l r)).trans rfl
@[simp] theorem freeX_trapPend (t : Thread) (ld : Bool) (l : BitVec 1) (r : Nat) : (freeX t ld l r).trapPend = t.trapPend := (congrArg Thread.trapPend (freeX_frame t ld l r)).trans rfl
@[simp] theorem freeX_async (t : Thread) (ld : Bool) (l : BitVec 1) (r : Nat) : (freeX t ld l r).async = t.async := (congrArg Thread.async (freeX_frame t ld l r)).trans rfl
@[simp] theorem freeX_locks (t : Thread) (ld : Bool) (l : BitVec 1) (r : Nat) : (freeX t ld l r).locks = t.locks := (congrArg Thread.locks (freeX_frame t ld l r)).trans rfl
@[simp] theorem freeX_claim (t : Thread) (ld : Bool) (l : BitVec 1) (r : Nat) : (freeX t ld l r).claim = t.claim := (congrArg Thread.claim (freeX_frame t ld l r)).trans rfl
@[simp] theorem freeX_task (t : Thread) (ld : Bool) (l : BitVec 1) (r : Nat) : (freeX t ld l r).task = t.task := (congrArg Thread.task (freeX_frame t ld l r)).trans rfl
@[simp] theorem freeX_gangPos (t : Thread) (ld : Bool) (l : BitVec 1) (r : Nat) : (freeX t ld l r).gangPos = t.gangPos := (congrArg Thread.gangPos (freeX_frame t ld l r)).trans rfl
@[simp] theorem freeX_pendPersist (t : Thread) (ld : Bool) (l : BitVec 1) (r : Nat) : (freeX t ld l r).pendPersist = t.pendPersist := (congrArg Thread.pendPersist (freeX_frame t ld l r)).trans rfl
@[simp] theorem freeX_persistAt (t : Thread) (ld : Bool) (l : BitVec 1) (r : Nat) : (freeX t ld l r).persistAt = t.persistAt := (congrArg Thread.persistAt (freeX_frame t ld l r)).trans rfl
@[simp] theorem freeX_preempt (t : Thread) (ld : Bool) (l : BitVec 1) (r : Nat) : (freeX t ld l r).preempt = t.preempt := (congrArg Thread.preempt (freeX_frame t ld l r)).trans rfl
@[simp] theorem freeX_parkStop (t : Thread) (ld : Bool) (l : BitVec 1) (r : Nat) : (freeX t ld l r).parkStop = t.parkStop := (congrArg Thread.parkStop (freeX_frame t ld l r)).trans rfl
@[simp] theorem freeX_liveIdx (t : Thread) (ld : Bool) (l : BitVec 1) (r : Nat) : (freeX t ld l r).liveIdx = t.liveIdx := (congrArg Thread.liveIdx (freeX_frame t ld l r)).trans rfl
@[simp] theorem freeX_idleUntil (t : Thread) (ld : Bool) (l : BitVec 1) (r : Nat) : (freeX t ld l r).idleUntil = t.idleUntil := (congrArg Thread.idleUntil (freeX_frame t ld l r)).trans rfl
@[simp] theorem freeX_permits (t : Thread) (ld : Bool) (l : BitVec 1) (r : Nat) : (freeX t ld l r).permits = t.permits := (congrArg Thread.permits (freeX_frame t ld l r)).trans rfl
@[simp] theorem freeX_halted (t : Thread) (ld : Bool) (l : BitVec 1) (r : Nat) : (freeX t ld l r).halted = t.halted := (congrArg Thread.halted (freeX_frame t ld l r)).trans rfl
@[simp] theorem freeX_running (t : Thread) (ld : Bool) (l : BitVec 1) (r : Nat) : (freeX t ld l r).running = t.running := (congrArg Thread.running (freeX_frame t ld l r)).trans rfl
@[simp] theorem freeX_spadSave (t : Thread) (ld : Bool) (l : BitVec 1) (r : Nat) : (freeX t ld l r).spadSave = t.spadSave := (congrArg Thread.spadSave (freeX_frame t ld l r)).trans rfl
@[simp] theorem freeX_spadBad (t : Thread) (ld : Bool) (l : BitVec 1) (r : Nat) : (freeX t ld l r).spadBad = t.spadBad := (congrArg Thread.spadBad (freeX_frame t ld l r)).trans rfl
@[simp] theorem freeX_ran (t : Thread) (ld : Bool) (l : BitVec 1) (r : Nat) : (freeX t ld l r).ran = t.ran := (congrArg Thread.ran (freeX_frame t ld l r)).trans rfl
@[simp] theorem freeX_mtHold (t : Thread) (ld : Bool) (l : BitVec 1) (r : Nat) : (freeX t ld l r).mtHold = t.mtHold := (congrArg Thread.mtHold (freeX_frame t ld l r)).trans rfl
@[simp] theorem freeX_passed (t : Thread) (ld : Bool) (l : BitVec 1) (r : Nat) : (freeX t ld l r).passed = t.passed := (congrArg Thread.passed (freeX_frame t ld l r)).trans rfl
@[simp] theorem freeX_tileRep (t : Thread) (ld : Bool) (l : BitVec 1) (r : Nat) : (freeX t ld l r).tileRep = t.tileRep := (congrArg Thread.tileRep (freeX_frame t ld l r)).trans rfl

theorem wrA_frame (t : Thread) (r : Nat) (v : W) :
    wrA t r v = { t with a := (wrA t r v).a, freed := (wrA t r v).freed } := by
  rfl
@[simp] theorem wrA_g (t : Thread) (r : Nat) (v : W) : (wrA t r v).g = t.g := (congrArg Thread.g (wrA_frame t r v)).trans rfl
@[simp] theorem wrA_p (t : Thread) (r : Nat) (v : W) : (wrA t r v).p = t.p := (congrArg Thread.p (wrA_frame t r v)).trans rfl
@[simp] theorem wrA_h (t : Thread) (r : Nat) (v : W) : (wrA t r v).h = t.h := (congrArg Thread.h (wrA_frame t r v)).trans rfl
@[simp] theorem wrA_hPoison (t : Thread) (r : Nat) (v : W) : (wrA t r v).hPoison = t.hPoison := (congrArg Thread.hPoison (wrA_frame t r v)).trans rfl
@[simp] theorem wrA_hLine (t : Thread) (r : Nat) (v : W) : (wrA t r v).hLine = t.hLine := (congrArg Thread.hLine (wrA_frame t r v)).trans rfl
@[simp] theorem wrA_hSwm (t : Thread) (r : Nat) (v : W) : (wrA t r v).hSwm = t.hSwm := (congrArg Thread.hSwm (wrA_frame t r v)).trans rfl
@[simp] theorem wrA_hRq (t : Thread) (r : Nat) (v : W) : (wrA t r v).hRq = t.hRq := (congrArg Thread.hRq (wrA_frame t r v)).trans rfl
@[simp] theorem wrA_hVa (t : Thread) (r : Nat) (v : W) : (wrA t r v).hVa = t.hVa := (congrArg Thread.hVa (wrA_frame t r v)).trans rfl
@[simp] theorem wrA_xl (t : Thread) (r : Nat) (v : W) : (wrA t r v).xl = t.xl := (congrArg Thread.xl (wrA_frame t r v)).trans rfl
@[simp] theorem wrA_xs (t : Thread) (r : Nat) (v : W) : (wrA t r v).xs = t.xs := (congrArg Thread.xs (wrA_frame t r v)).trans rfl
@[simp] theorem wrA_m (t : Thread) (r : Nat) (v : W) : (wrA t r v).m = t.m := (congrArg Thread.m (wrA_frame t r v)).trans rfl
@[simp] theorem wrA_s (t : Thread) (r : Nat) (v : W) : (wrA t r v).s = t.s := (congrArg Thread.s (wrA_frame t r v)).trans rfl
@[simp] theorem wrA_vc (t : Thread) (r : Nat) (v : W) : (wrA t r v).vc = t.vc := (congrArg Thread.vc (wrA_frame t r v)).trans rfl
@[simp] theorem wrA_lcl (t : Thread) (r : Nat) (v : W) : (wrA t r v).lcl = t.lcl := (congrArg Thread.lcl (wrA_frame t r v)).trans rfl
@[simp] theorem wrA_lcc (t : Thread) (r : Nat) (v : W) : (wrA t r v).lcc = t.lcc := (congrArg Thread.lcc (wrA_frame t r v)).trans rfl
@[simp] theorem wrA_lcs (t : Thread) (r : Nat) (v : W) : (wrA t r v).lcs = t.lcs := (congrArg Thread.lcs (wrA_frame t r v)).trans rfl
@[simp] theorem wrA_q (t : Thread) (r : Nat) (v : W) : (wrA t r v).q = t.q := (congrArg Thread.q (wrA_frame t r v)).trans rfl
@[simp] theorem wrA_eb (t : Thread) (r : Nat) (v : W) : (wrA t r v).eb = t.eb := (congrArg Thread.eb (wrA_frame t r v)).trans rfl
@[simp] theorem wrA_status (t : Thread) (r : Nat) (v : W) : (wrA t r v).status = t.status := (congrArg Thread.status (wrA_frame t r v)).trans rfl
@[simp] theorem wrA_trapCause (t : Thread) (r : Nat) (v : W) : (wrA t r v).trapCause = t.trapCause := (congrArg Thread.trapCause (wrA_frame t r v)).trans rfl
@[simp] theorem wrA_trapPc (t : Thread) (r : Nat) (v : W) : (wrA t r v).trapPc = t.trapPc := (congrArg Thread.trapPc (wrA_frame t r v)).trans rfl
@[simp] theorem wrA_trapTask (t : Thread) (r : Nat) (v : W) : (wrA t r v).trapTask = t.trapTask := (congrArg Thread.trapTask (wrA_frame t r v)).trans rfl
@[simp] theorem wrA_trapInfo (t : Thread) (r : Nat) (v : W) : (wrA t r v).trapInfo = t.trapInfo := (congrArg Thread.trapInfo (wrA_frame t r v)).trans rfl
@[simp] theorem wrA_repState (t : Thread) (r : Nat) (v : W) : (wrA t r v).repState = t.repState := (congrArg Thread.repState (wrA_frame t r v)).trans rfl
@[simp] theorem wrA_handlerBase (t : Thread) (r : Nat) (v : W) : (wrA t r v).handlerBase = t.handlerBase := (congrArg Thread.handlerBase (wrA_frame t r v)).trans rfl
@[simp] theorem wrA_handlerRanges (t : Thread) (r : Nat) (v : W) : (wrA t r v).handlerRanges = t.handlerRanges := (congrArg Thread.handlerRanges (wrA_frame t r v)).trans rfl
@[simp] theorem wrA_flags (t : Thread) (r : Nat) (v : W) : (wrA t r v).flags = t.flags := (congrArg Thread.flags (wrA_frame t r v)).trans rfl
@[simp] theorem wrA_roundMode (t : Thread) (r : Nat) (v : W) : (wrA t r v).roundMode = t.roundMode := (congrArg Thread.roundMode (wrA_frame t r v)).trans rfl
@[simp] theorem wrA_boundCtl (t : Thread) (r : Nat) (v : W) : (wrA t r v).boundCtl = t.boundCtl := (congrArg Thread.boundCtl (wrA_frame t r v)).trans rfl
@[simp] theorem wrA_dropSeed (t : Thread) (r : Nat) (v : W) : (wrA t r v).dropSeed = t.dropSeed := (congrArg Thread.dropSeed (wrA_frame t r v)).trans rfl
@[simp] theorem wrA_fmtBase (t : Thread) (r : Nat) (v : W) : (wrA t r v).fmtBase = t.fmtBase := (congrArg Thread.fmtBase (wrA_frame t r v)).trans rfl
@[simp] theorem wrA_ft (t : Thread) (r : Nat) (v : W) : (wrA t r v).ft = t.ft := (congrArg Thread.ft (wrA_frame t r v)).trans rfl
@[simp] theorem wrA_pc (t : Thread) (r : Nat) (v : W) : (wrA t r v).pc = t.pc := (congrArg Thread.pc (wrA_frame t r v)).trans rfl
@[simp] theorem wrA_pfx (t : Thread) (r : Nat) (v : W) : (wrA t r v).pfx = t.pfx := (congrArg Thread.pfx (wrA_frame t r v)).trans rfl
@[simp] theorem wrA_pfxPc (t : Thread) (r : Nat) (v : W) : (wrA t r v).pfxPc = t.pfxPc := (congrArg Thread.pfxPc (wrA_frame t r v)).trans rfl
@[simp] theorem wrA_repDone (t : Thread) (r : Nat) (v : W) : (wrA t r v).repDone = t.repDone := (congrArg Thread.repDone (wrA_frame t r v)).trans rfl
@[simp] theorem wrA_repPc (t : Thread) (r : Nat) (v : W) : (wrA t r v).repPc = t.repPc := (congrArg Thread.repPc (wrA_frame t r v)).trans rfl
@[simp] theorem wrA_seq (t : Thread) (r : Nat) (v : W) : (wrA t r v).seq = t.seq := (congrArg Thread.seq (wrA_frame t r v)).trans rfl
@[simp] theorem wrA_ldQ (t : Thread) (r : Nat) (v : W) : (wrA t r v).ldQ = t.ldQ := (congrArg Thread.ldQ (wrA_frame t r v)).trans rfl
@[simp] theorem wrA_cpQ (t : Thread) (r : Nat) (v : W) : (wrA t r v).cpQ = t.cpQ := (congrArg Thread.cpQ (wrA_frame t r v)).trans rfl
@[simp] theorem wrA_stQ (t : Thread) (r : Nat) (v : W) : (wrA t r v).stQ = t.stQ := (congrArg Thread.stQ (wrA_frame t r v)).trans rfl
@[simp] theorem wrA_lpL (t : Thread) (r : Nat) (v : W) : (wrA t r v).lpL = t.lpL := (congrArg Thread.lpL (wrA_frame t r v)).trans rfl
@[simp] theorem wrA_lpC (t : Thread) (r : Nat) (v : W) : (wrA t r v).lpC = t.lpC := (congrArg Thread.lpC (wrA_frame t r v)).trans rfl
@[simp] theorem wrA_lpS (t : Thread) (r : Nat) (v : W) : (wrA t r v).lpS = t.lpS := (congrArg Thread.lpS (wrA_frame t r v)).trans rfl
@[simp] theorem wrA_winL (t : Thread) (r : Nat) (v : W) : (wrA t r v).winL = t.winL := (congrArg Thread.winL (wrA_frame t r v)).trans rfl
@[simp] theorem wrA_winC (t : Thread) (r : Nat) (v : W) : (wrA t r v).winC = t.winC := (congrArg Thread.winC (wrA_frame t r v)).trans rfl
@[simp] theorem wrA_winS (t : Thread) (r : Nat) (v : W) : (wrA t r v).winS = t.winS := (congrArg Thread.winS (wrA_frame t r v)).trans rfl
@[simp] theorem wrA_lostL (t : Thread) (r : Nat) (v : W) : (wrA t r v).lostL = t.lostL := (congrArg Thread.lostL (wrA_frame t r v)).trans rfl
@[simp] theorem wrA_lostC (t : Thread) (r : Nat) (v : W) : (wrA t r v).lostC = t.lostC := (congrArg Thread.lostC (wrA_frame t r v)).trans rfl
@[simp] theorem wrA_lostS (t : Thread) (r : Nat) (v : W) : (wrA t r v).lostS = t.lostS := (congrArg Thread.lostS (wrA_frame t r v)).trans rfl
@[simp] theorem wrA_tok (t : Thread) (r : Nat) (v : W) : (wrA t r v).tok = t.tok := (congrArg Thread.tok (wrA_frame t r v)).trans rfl
@[simp] theorem wrA_flights (t : Thread) (r : Nat) (v : W) : (wrA t r v).flights = t.flights := (congrArg Thread.flights (wrA_frame t r v)).trans rfl
@[simp] theorem wrA_qflights (t : Thread) (r : Nat) (v : W) : (wrA t r v).qflights = t.qflights := (congrArg Thread.qflights (wrA_frame t r v)).trans rfl
@[simp] theorem wrA_ctlAcc (t : Thread) (r : Nat) (v : W) : (wrA t r v).ctlAcc = t.ctlAcc := (congrArg Thread.ctlAcc (wrA_frame t r v)).trans rfl
@[simp] theorem wrA_settles (t : Thread) (r : Nat) (v : W) : (wrA t r v).settles = t.settles := (congrArg Thread.settles (wrA_frame t r v)).trans rfl
@[simp] theorem wrA_waitK (t : Thread) (r : Nat) (v : W) : (wrA t r v).waitK = t.waitK := (congrArg Thread.waitK (wrA_frame t r v)).trans rfl
@[simp] theorem wrA_waitL (t : Thread) (r : Nat) (v : W) : (wrA t r v).waitL = t.waitL := (congrArg Thread.waitL (wrA_frame t r v)).trans rfl
@[simp] theorem wrA_waitC (t : Thread) (r : Nat) (v : W) : (wrA t r v).waitC = t.waitC := (congrArg Thread.waitC (wrA_frame t r v)).trans rfl
@[simp] theorem wrA_waitS (t : Thread) (r : Nat) (v : W) : (wrA t r v).waitS = t.waitS := (congrArg Thread.waitS (wrA_frame t r v)).trans rfl
@[simp] theorem wrA_ph (t : Thread) (r : Nat) (v : W) : (wrA t r v).ph = t.ph := (congrArg Thread.ph (wrA_frame t r v)).trans rfl
@[simp] theorem wrA_phS (t : Thread) (r : Nat) (v : W) : (wrA t r v).phS = t.phS := (congrArg Thread.phS (wrA_frame t r v)).trans rfl
@[simp] theorem wrA_members (t : Thread) (r : Nat) (v : W) : (wrA t r v).members = t.members := (congrArg Thread.members (wrA_frame t r v)).trans rfl
@[simp] theorem wrA_hist (t : Thread) (r : Nat) (v : W) : (wrA t r v).hist = t.hist := (congrArg Thread.hist (wrA_frame t r v)).trans rfl
@[simp] theorem wrA_runL (t : Thread) (r : Nat) (v : W) : (wrA t r v).runL = t.runL := (congrArg Thread.runL (wrA_frame t r v)).trans rfl
@[simp] theorem wrA_runC (t : Thread) (r : Nat) (v : W) : (wrA t r v).runC = t.runC := (congrArg Thread.runC (wrA_frame t r v)).trans rfl
@[simp] theorem wrA_runS (t : Thread) (r : Nat) (v : W) : (wrA t r v).runS = t.runS := (congrArg Thread.runS (wrA_frame t r v)).trans rfl
@[simp] theorem wrA_stopped (t : Thread) (r : Nat) (v : W) : (wrA t r v).stopped = t.stopped := (congrArg Thread.stopped (wrA_frame t r v)).trans rfl
@[simp] theorem wrA_loopRes (t : Thread) (r : Nat) (v : W) : (wrA t r v).loopRes = t.loopRes := (congrArg Thread.loopRes (wrA_frame t r v)).trans rfl
@[simp] theorem wrA_trapPend (t : Thread) (r : Nat) (v : W) : (wrA t r v).trapPend = t.trapPend := (congrArg Thread.trapPend (wrA_frame t r v)).trans rfl
@[simp] theorem wrA_async (t : Thread) (r : Nat) (v : W) : (wrA t r v).async = t.async := (congrArg Thread.async (wrA_frame t r v)).trans rfl
@[simp] theorem wrA_locks (t : Thread) (r : Nat) (v : W) : (wrA t r v).locks = t.locks := (congrArg Thread.locks (wrA_frame t r v)).trans rfl
@[simp] theorem wrA_claim (t : Thread) (r : Nat) (v : W) : (wrA t r v).claim = t.claim := (congrArg Thread.claim (wrA_frame t r v)).trans rfl
@[simp] theorem wrA_task (t : Thread) (r : Nat) (v : W) : (wrA t r v).task = t.task := (congrArg Thread.task (wrA_frame t r v)).trans rfl
@[simp] theorem wrA_gangPos (t : Thread) (r : Nat) (v : W) : (wrA t r v).gangPos = t.gangPos := (congrArg Thread.gangPos (wrA_frame t r v)).trans rfl
@[simp] theorem wrA_pendPersist (t : Thread) (r : Nat) (v : W) : (wrA t r v).pendPersist = t.pendPersist := (congrArg Thread.pendPersist (wrA_frame t r v)).trans rfl
@[simp] theorem wrA_persistAt (t : Thread) (r : Nat) (v : W) : (wrA t r v).persistAt = t.persistAt := (congrArg Thread.persistAt (wrA_frame t r v)).trans rfl
@[simp] theorem wrA_preempt (t : Thread) (r : Nat) (v : W) : (wrA t r v).preempt = t.preempt := (congrArg Thread.preempt (wrA_frame t r v)).trans rfl
@[simp] theorem wrA_parkStop (t : Thread) (r : Nat) (v : W) : (wrA t r v).parkStop = t.parkStop := (congrArg Thread.parkStop (wrA_frame t r v)).trans rfl
@[simp] theorem wrA_liveIdx (t : Thread) (r : Nat) (v : W) : (wrA t r v).liveIdx = t.liveIdx := (congrArg Thread.liveIdx (wrA_frame t r v)).trans rfl
@[simp] theorem wrA_idleUntil (t : Thread) (r : Nat) (v : W) : (wrA t r v).idleUntil = t.idleUntil := (congrArg Thread.idleUntil (wrA_frame t r v)).trans rfl
@[simp] theorem wrA_permits (t : Thread) (r : Nat) (v : W) : (wrA t r v).permits = t.permits := (congrArg Thread.permits (wrA_frame t r v)).trans rfl
@[simp] theorem wrA_halted (t : Thread) (r : Nat) (v : W) : (wrA t r v).halted = t.halted := (congrArg Thread.halted (wrA_frame t r v)).trans rfl
@[simp] theorem wrA_running (t : Thread) (r : Nat) (v : W) : (wrA t r v).running = t.running := (congrArg Thread.running (wrA_frame t r v)).trans rfl
@[simp] theorem wrA_spadSave (t : Thread) (r : Nat) (v : W) : (wrA t r v).spadSave = t.spadSave := (congrArg Thread.spadSave (wrA_frame t r v)).trans rfl
@[simp] theorem wrA_spadBad (t : Thread) (r : Nat) (v : W) : (wrA t r v).spadBad = t.spadBad := (congrArg Thread.spadBad (wrA_frame t r v)).trans rfl
@[simp] theorem wrA_ran (t : Thread) (r : Nat) (v : W) : (wrA t r v).ran = t.ran := (congrArg Thread.ran (wrA_frame t r v)).trans rfl
@[simp] theorem wrA_mtHold (t : Thread) (r : Nat) (v : W) : (wrA t r v).mtHold = t.mtHold := (congrArg Thread.mtHold (wrA_frame t r v)).trans rfl
@[simp] theorem wrA_passed (t : Thread) (r : Nat) (v : W) : (wrA t r v).passed = t.passed := (congrArg Thread.passed (wrA_frame t r v)).trans rfl
@[simp] theorem wrA_tileRep (t : Thread) (r : Nat) (v : W) : (wrA t r v).tileRep = t.tileRep := (congrArg Thread.tileRep (wrA_frame t r v)).trans rfl

theorem wrM_frame (t : Thread) (r : Nat) (v : W) :
    wrM t r v = { t with m := (wrM t r v).m, freed := (wrM t r v).freed } := by
  rfl
@[simp] theorem wrM_g (t : Thread) (r : Nat) (v : W) : (wrM t r v).g = t.g := (congrArg Thread.g (wrM_frame t r v)).trans rfl
@[simp] theorem wrM_p (t : Thread) (r : Nat) (v : W) : (wrM t r v).p = t.p := (congrArg Thread.p (wrM_frame t r v)).trans rfl
@[simp] theorem wrM_h (t : Thread) (r : Nat) (v : W) : (wrM t r v).h = t.h := (congrArg Thread.h (wrM_frame t r v)).trans rfl
@[simp] theorem wrM_hPoison (t : Thread) (r : Nat) (v : W) : (wrM t r v).hPoison = t.hPoison := (congrArg Thread.hPoison (wrM_frame t r v)).trans rfl
@[simp] theorem wrM_hLine (t : Thread) (r : Nat) (v : W) : (wrM t r v).hLine = t.hLine := (congrArg Thread.hLine (wrM_frame t r v)).trans rfl
@[simp] theorem wrM_hSwm (t : Thread) (r : Nat) (v : W) : (wrM t r v).hSwm = t.hSwm := (congrArg Thread.hSwm (wrM_frame t r v)).trans rfl
@[simp] theorem wrM_hRq (t : Thread) (r : Nat) (v : W) : (wrM t r v).hRq = t.hRq := (congrArg Thread.hRq (wrM_frame t r v)).trans rfl
@[simp] theorem wrM_hVa (t : Thread) (r : Nat) (v : W) : (wrM t r v).hVa = t.hVa := (congrArg Thread.hVa (wrM_frame t r v)).trans rfl
@[simp] theorem wrM_xl (t : Thread) (r : Nat) (v : W) : (wrM t r v).xl = t.xl := (congrArg Thread.xl (wrM_frame t r v)).trans rfl
@[simp] theorem wrM_xs (t : Thread) (r : Nat) (v : W) : (wrM t r v).xs = t.xs := (congrArg Thread.xs (wrM_frame t r v)).trans rfl
@[simp] theorem wrM_a (t : Thread) (r : Nat) (v : W) : (wrM t r v).a = t.a := (congrArg Thread.a (wrM_frame t r v)).trans rfl
@[simp] theorem wrM_s (t : Thread) (r : Nat) (v : W) : (wrM t r v).s = t.s := (congrArg Thread.s (wrM_frame t r v)).trans rfl
@[simp] theorem wrM_vc (t : Thread) (r : Nat) (v : W) : (wrM t r v).vc = t.vc := (congrArg Thread.vc (wrM_frame t r v)).trans rfl
@[simp] theorem wrM_lcl (t : Thread) (r : Nat) (v : W) : (wrM t r v).lcl = t.lcl := (congrArg Thread.lcl (wrM_frame t r v)).trans rfl
@[simp] theorem wrM_lcc (t : Thread) (r : Nat) (v : W) : (wrM t r v).lcc = t.lcc := (congrArg Thread.lcc (wrM_frame t r v)).trans rfl
@[simp] theorem wrM_lcs (t : Thread) (r : Nat) (v : W) : (wrM t r v).lcs = t.lcs := (congrArg Thread.lcs (wrM_frame t r v)).trans rfl
@[simp] theorem wrM_q (t : Thread) (r : Nat) (v : W) : (wrM t r v).q = t.q := (congrArg Thread.q (wrM_frame t r v)).trans rfl
@[simp] theorem wrM_eb (t : Thread) (r : Nat) (v : W) : (wrM t r v).eb = t.eb := (congrArg Thread.eb (wrM_frame t r v)).trans rfl
@[simp] theorem wrM_status (t : Thread) (r : Nat) (v : W) : (wrM t r v).status = t.status := (congrArg Thread.status (wrM_frame t r v)).trans rfl
@[simp] theorem wrM_trapCause (t : Thread) (r : Nat) (v : W) : (wrM t r v).trapCause = t.trapCause := (congrArg Thread.trapCause (wrM_frame t r v)).trans rfl
@[simp] theorem wrM_trapPc (t : Thread) (r : Nat) (v : W) : (wrM t r v).trapPc = t.trapPc := (congrArg Thread.trapPc (wrM_frame t r v)).trans rfl
@[simp] theorem wrM_trapTask (t : Thread) (r : Nat) (v : W) : (wrM t r v).trapTask = t.trapTask := (congrArg Thread.trapTask (wrM_frame t r v)).trans rfl
@[simp] theorem wrM_trapInfo (t : Thread) (r : Nat) (v : W) : (wrM t r v).trapInfo = t.trapInfo := (congrArg Thread.trapInfo (wrM_frame t r v)).trans rfl
@[simp] theorem wrM_repState (t : Thread) (r : Nat) (v : W) : (wrM t r v).repState = t.repState := (congrArg Thread.repState (wrM_frame t r v)).trans rfl
@[simp] theorem wrM_handlerBase (t : Thread) (r : Nat) (v : W) : (wrM t r v).handlerBase = t.handlerBase := (congrArg Thread.handlerBase (wrM_frame t r v)).trans rfl
@[simp] theorem wrM_handlerRanges (t : Thread) (r : Nat) (v : W) : (wrM t r v).handlerRanges = t.handlerRanges := (congrArg Thread.handlerRanges (wrM_frame t r v)).trans rfl
@[simp] theorem wrM_flags (t : Thread) (r : Nat) (v : W) : (wrM t r v).flags = t.flags := (congrArg Thread.flags (wrM_frame t r v)).trans rfl
@[simp] theorem wrM_roundMode (t : Thread) (r : Nat) (v : W) : (wrM t r v).roundMode = t.roundMode := (congrArg Thread.roundMode (wrM_frame t r v)).trans rfl
@[simp] theorem wrM_boundCtl (t : Thread) (r : Nat) (v : W) : (wrM t r v).boundCtl = t.boundCtl := (congrArg Thread.boundCtl (wrM_frame t r v)).trans rfl
@[simp] theorem wrM_dropSeed (t : Thread) (r : Nat) (v : W) : (wrM t r v).dropSeed = t.dropSeed := (congrArg Thread.dropSeed (wrM_frame t r v)).trans rfl
@[simp] theorem wrM_fmtBase (t : Thread) (r : Nat) (v : W) : (wrM t r v).fmtBase = t.fmtBase := (congrArg Thread.fmtBase (wrM_frame t r v)).trans rfl
@[simp] theorem wrM_ft (t : Thread) (r : Nat) (v : W) : (wrM t r v).ft = t.ft := (congrArg Thread.ft (wrM_frame t r v)).trans rfl
@[simp] theorem wrM_pc (t : Thread) (r : Nat) (v : W) : (wrM t r v).pc = t.pc := (congrArg Thread.pc (wrM_frame t r v)).trans rfl
@[simp] theorem wrM_pfx (t : Thread) (r : Nat) (v : W) : (wrM t r v).pfx = t.pfx := (congrArg Thread.pfx (wrM_frame t r v)).trans rfl
@[simp] theorem wrM_pfxPc (t : Thread) (r : Nat) (v : W) : (wrM t r v).pfxPc = t.pfxPc := (congrArg Thread.pfxPc (wrM_frame t r v)).trans rfl
@[simp] theorem wrM_repDone (t : Thread) (r : Nat) (v : W) : (wrM t r v).repDone = t.repDone := (congrArg Thread.repDone (wrM_frame t r v)).trans rfl
@[simp] theorem wrM_repPc (t : Thread) (r : Nat) (v : W) : (wrM t r v).repPc = t.repPc := (congrArg Thread.repPc (wrM_frame t r v)).trans rfl
@[simp] theorem wrM_seq (t : Thread) (r : Nat) (v : W) : (wrM t r v).seq = t.seq := (congrArg Thread.seq (wrM_frame t r v)).trans rfl
@[simp] theorem wrM_ldQ (t : Thread) (r : Nat) (v : W) : (wrM t r v).ldQ = t.ldQ := (congrArg Thread.ldQ (wrM_frame t r v)).trans rfl
@[simp] theorem wrM_cpQ (t : Thread) (r : Nat) (v : W) : (wrM t r v).cpQ = t.cpQ := (congrArg Thread.cpQ (wrM_frame t r v)).trans rfl
@[simp] theorem wrM_stQ (t : Thread) (r : Nat) (v : W) : (wrM t r v).stQ = t.stQ := (congrArg Thread.stQ (wrM_frame t r v)).trans rfl
@[simp] theorem wrM_lpL (t : Thread) (r : Nat) (v : W) : (wrM t r v).lpL = t.lpL := (congrArg Thread.lpL (wrM_frame t r v)).trans rfl
@[simp] theorem wrM_lpC (t : Thread) (r : Nat) (v : W) : (wrM t r v).lpC = t.lpC := (congrArg Thread.lpC (wrM_frame t r v)).trans rfl
@[simp] theorem wrM_lpS (t : Thread) (r : Nat) (v : W) : (wrM t r v).lpS = t.lpS := (congrArg Thread.lpS (wrM_frame t r v)).trans rfl
@[simp] theorem wrM_winL (t : Thread) (r : Nat) (v : W) : (wrM t r v).winL = t.winL := (congrArg Thread.winL (wrM_frame t r v)).trans rfl
@[simp] theorem wrM_winC (t : Thread) (r : Nat) (v : W) : (wrM t r v).winC = t.winC := (congrArg Thread.winC (wrM_frame t r v)).trans rfl
@[simp] theorem wrM_winS (t : Thread) (r : Nat) (v : W) : (wrM t r v).winS = t.winS := (congrArg Thread.winS (wrM_frame t r v)).trans rfl
@[simp] theorem wrM_lostL (t : Thread) (r : Nat) (v : W) : (wrM t r v).lostL = t.lostL := (congrArg Thread.lostL (wrM_frame t r v)).trans rfl
@[simp] theorem wrM_lostC (t : Thread) (r : Nat) (v : W) : (wrM t r v).lostC = t.lostC := (congrArg Thread.lostC (wrM_frame t r v)).trans rfl
@[simp] theorem wrM_lostS (t : Thread) (r : Nat) (v : W) : (wrM t r v).lostS = t.lostS := (congrArg Thread.lostS (wrM_frame t r v)).trans rfl
@[simp] theorem wrM_tok (t : Thread) (r : Nat) (v : W) : (wrM t r v).tok = t.tok := (congrArg Thread.tok (wrM_frame t r v)).trans rfl
@[simp] theorem wrM_flights (t : Thread) (r : Nat) (v : W) : (wrM t r v).flights = t.flights := (congrArg Thread.flights (wrM_frame t r v)).trans rfl
@[simp] theorem wrM_qflights (t : Thread) (r : Nat) (v : W) : (wrM t r v).qflights = t.qflights := (congrArg Thread.qflights (wrM_frame t r v)).trans rfl
@[simp] theorem wrM_ctlAcc (t : Thread) (r : Nat) (v : W) : (wrM t r v).ctlAcc = t.ctlAcc := (congrArg Thread.ctlAcc (wrM_frame t r v)).trans rfl
@[simp] theorem wrM_settles (t : Thread) (r : Nat) (v : W) : (wrM t r v).settles = t.settles := (congrArg Thread.settles (wrM_frame t r v)).trans rfl
@[simp] theorem wrM_waitK (t : Thread) (r : Nat) (v : W) : (wrM t r v).waitK = t.waitK := (congrArg Thread.waitK (wrM_frame t r v)).trans rfl
@[simp] theorem wrM_waitL (t : Thread) (r : Nat) (v : W) : (wrM t r v).waitL = t.waitL := (congrArg Thread.waitL (wrM_frame t r v)).trans rfl
@[simp] theorem wrM_waitC (t : Thread) (r : Nat) (v : W) : (wrM t r v).waitC = t.waitC := (congrArg Thread.waitC (wrM_frame t r v)).trans rfl
@[simp] theorem wrM_waitS (t : Thread) (r : Nat) (v : W) : (wrM t r v).waitS = t.waitS := (congrArg Thread.waitS (wrM_frame t r v)).trans rfl
@[simp] theorem wrM_ph (t : Thread) (r : Nat) (v : W) : (wrM t r v).ph = t.ph := (congrArg Thread.ph (wrM_frame t r v)).trans rfl
@[simp] theorem wrM_phS (t : Thread) (r : Nat) (v : W) : (wrM t r v).phS = t.phS := (congrArg Thread.phS (wrM_frame t r v)).trans rfl
@[simp] theorem wrM_members (t : Thread) (r : Nat) (v : W) : (wrM t r v).members = t.members := (congrArg Thread.members (wrM_frame t r v)).trans rfl
@[simp] theorem wrM_hist (t : Thread) (r : Nat) (v : W) : (wrM t r v).hist = t.hist := (congrArg Thread.hist (wrM_frame t r v)).trans rfl
@[simp] theorem wrM_runL (t : Thread) (r : Nat) (v : W) : (wrM t r v).runL = t.runL := (congrArg Thread.runL (wrM_frame t r v)).trans rfl
@[simp] theorem wrM_runC (t : Thread) (r : Nat) (v : W) : (wrM t r v).runC = t.runC := (congrArg Thread.runC (wrM_frame t r v)).trans rfl
@[simp] theorem wrM_runS (t : Thread) (r : Nat) (v : W) : (wrM t r v).runS = t.runS := (congrArg Thread.runS (wrM_frame t r v)).trans rfl
@[simp] theorem wrM_stopped (t : Thread) (r : Nat) (v : W) : (wrM t r v).stopped = t.stopped := (congrArg Thread.stopped (wrM_frame t r v)).trans rfl
@[simp] theorem wrM_loopRes (t : Thread) (r : Nat) (v : W) : (wrM t r v).loopRes = t.loopRes := (congrArg Thread.loopRes (wrM_frame t r v)).trans rfl
@[simp] theorem wrM_trapPend (t : Thread) (r : Nat) (v : W) : (wrM t r v).trapPend = t.trapPend := (congrArg Thread.trapPend (wrM_frame t r v)).trans rfl
@[simp] theorem wrM_async (t : Thread) (r : Nat) (v : W) : (wrM t r v).async = t.async := (congrArg Thread.async (wrM_frame t r v)).trans rfl
@[simp] theorem wrM_locks (t : Thread) (r : Nat) (v : W) : (wrM t r v).locks = t.locks := (congrArg Thread.locks (wrM_frame t r v)).trans rfl
@[simp] theorem wrM_claim (t : Thread) (r : Nat) (v : W) : (wrM t r v).claim = t.claim := (congrArg Thread.claim (wrM_frame t r v)).trans rfl
@[simp] theorem wrM_task (t : Thread) (r : Nat) (v : W) : (wrM t r v).task = t.task := (congrArg Thread.task (wrM_frame t r v)).trans rfl
@[simp] theorem wrM_gangPos (t : Thread) (r : Nat) (v : W) : (wrM t r v).gangPos = t.gangPos := (congrArg Thread.gangPos (wrM_frame t r v)).trans rfl
@[simp] theorem wrM_pendPersist (t : Thread) (r : Nat) (v : W) : (wrM t r v).pendPersist = t.pendPersist := (congrArg Thread.pendPersist (wrM_frame t r v)).trans rfl
@[simp] theorem wrM_persistAt (t : Thread) (r : Nat) (v : W) : (wrM t r v).persistAt = t.persistAt := (congrArg Thread.persistAt (wrM_frame t r v)).trans rfl
@[simp] theorem wrM_preempt (t : Thread) (r : Nat) (v : W) : (wrM t r v).preempt = t.preempt := (congrArg Thread.preempt (wrM_frame t r v)).trans rfl
@[simp] theorem wrM_parkStop (t : Thread) (r : Nat) (v : W) : (wrM t r v).parkStop = t.parkStop := (congrArg Thread.parkStop (wrM_frame t r v)).trans rfl
@[simp] theorem wrM_liveIdx (t : Thread) (r : Nat) (v : W) : (wrM t r v).liveIdx = t.liveIdx := (congrArg Thread.liveIdx (wrM_frame t r v)).trans rfl
@[simp] theorem wrM_idleUntil (t : Thread) (r : Nat) (v : W) : (wrM t r v).idleUntil = t.idleUntil := (congrArg Thread.idleUntil (wrM_frame t r v)).trans rfl
@[simp] theorem wrM_permits (t : Thread) (r : Nat) (v : W) : (wrM t r v).permits = t.permits := (congrArg Thread.permits (wrM_frame t r v)).trans rfl
@[simp] theorem wrM_halted (t : Thread) (r : Nat) (v : W) : (wrM t r v).halted = t.halted := (congrArg Thread.halted (wrM_frame t r v)).trans rfl
@[simp] theorem wrM_running (t : Thread) (r : Nat) (v : W) : (wrM t r v).running = t.running := (congrArg Thread.running (wrM_frame t r v)).trans rfl
@[simp] theorem wrM_spadSave (t : Thread) (r : Nat) (v : W) : (wrM t r v).spadSave = t.spadSave := (congrArg Thread.spadSave (wrM_frame t r v)).trans rfl
@[simp] theorem wrM_spadBad (t : Thread) (r : Nat) (v : W) : (wrM t r v).spadBad = t.spadBad := (congrArg Thread.spadBad (wrM_frame t r v)).trans rfl
@[simp] theorem wrM_ran (t : Thread) (r : Nat) (v : W) : (wrM t r v).ran = t.ran := (congrArg Thread.ran (wrM_frame t r v)).trans rfl
@[simp] theorem wrM_mtHold (t : Thread) (r : Nat) (v : W) : (wrM t r v).mtHold = t.mtHold := (congrArg Thread.mtHold (wrM_frame t r v)).trans rfl
@[simp] theorem wrM_passed (t : Thread) (r : Nat) (v : W) : (wrM t r v).passed = t.passed := (congrArg Thread.passed (wrM_frame t r v)).trans rfl
@[simp] theorem wrM_tileRep (t : Thread) (r : Nat) (v : W) : (wrM t r v).tileRep = t.tileRep := (congrArg Thread.tileRep (wrM_frame t r v)).trans rfl

theorem freeA_frame (t : Thread) (l : BitVec 1) (r : Nat) :
    freeA t l r = { t with freed := (freeA t l r).freed } := by
  unfold freeA; split <;> rfl
@[simp] theorem freeA_g (t : Thread) (l : BitVec 1) (r : Nat) : (freeA t l r).g = t.g := (congrArg Thread.g (freeA_frame t l r)).trans rfl
@[simp] theorem freeA_p (t : Thread) (l : BitVec 1) (r : Nat) : (freeA t l r).p = t.p := (congrArg Thread.p (freeA_frame t l r)).trans rfl
@[simp] theorem freeA_h (t : Thread) (l : BitVec 1) (r : Nat) : (freeA t l r).h = t.h := (congrArg Thread.h (freeA_frame t l r)).trans rfl
@[simp] theorem freeA_hPoison (t : Thread) (l : BitVec 1) (r : Nat) : (freeA t l r).hPoison = t.hPoison := (congrArg Thread.hPoison (freeA_frame t l r)).trans rfl
@[simp] theorem freeA_hLine (t : Thread) (l : BitVec 1) (r : Nat) : (freeA t l r).hLine = t.hLine := (congrArg Thread.hLine (freeA_frame t l r)).trans rfl
@[simp] theorem freeA_hSwm (t : Thread) (l : BitVec 1) (r : Nat) : (freeA t l r).hSwm = t.hSwm := (congrArg Thread.hSwm (freeA_frame t l r)).trans rfl
@[simp] theorem freeA_hRq (t : Thread) (l : BitVec 1) (r : Nat) : (freeA t l r).hRq = t.hRq := (congrArg Thread.hRq (freeA_frame t l r)).trans rfl
@[simp] theorem freeA_hVa (t : Thread) (l : BitVec 1) (r : Nat) : (freeA t l r).hVa = t.hVa := (congrArg Thread.hVa (freeA_frame t l r)).trans rfl
@[simp] theorem freeA_xl (t : Thread) (l : BitVec 1) (r : Nat) : (freeA t l r).xl = t.xl := (congrArg Thread.xl (freeA_frame t l r)).trans rfl
@[simp] theorem freeA_xs (t : Thread) (l : BitVec 1) (r : Nat) : (freeA t l r).xs = t.xs := (congrArg Thread.xs (freeA_frame t l r)).trans rfl
@[simp] theorem freeA_a (t : Thread) (l : BitVec 1) (r : Nat) : (freeA t l r).a = t.a := (congrArg Thread.a (freeA_frame t l r)).trans rfl
@[simp] theorem freeA_m (t : Thread) (l : BitVec 1) (r : Nat) : (freeA t l r).m = t.m := (congrArg Thread.m (freeA_frame t l r)).trans rfl
@[simp] theorem freeA_s (t : Thread) (l : BitVec 1) (r : Nat) : (freeA t l r).s = t.s := (congrArg Thread.s (freeA_frame t l r)).trans rfl
@[simp] theorem freeA_vc (t : Thread) (l : BitVec 1) (r : Nat) : (freeA t l r).vc = t.vc := (congrArg Thread.vc (freeA_frame t l r)).trans rfl
@[simp] theorem freeA_lcl (t : Thread) (l : BitVec 1) (r : Nat) : (freeA t l r).lcl = t.lcl := (congrArg Thread.lcl (freeA_frame t l r)).trans rfl
@[simp] theorem freeA_lcc (t : Thread) (l : BitVec 1) (r : Nat) : (freeA t l r).lcc = t.lcc := (congrArg Thread.lcc (freeA_frame t l r)).trans rfl
@[simp] theorem freeA_lcs (t : Thread) (l : BitVec 1) (r : Nat) : (freeA t l r).lcs = t.lcs := (congrArg Thread.lcs (freeA_frame t l r)).trans rfl
@[simp] theorem freeA_q (t : Thread) (l : BitVec 1) (r : Nat) : (freeA t l r).q = t.q := (congrArg Thread.q (freeA_frame t l r)).trans rfl
@[simp] theorem freeA_eb (t : Thread) (l : BitVec 1) (r : Nat) : (freeA t l r).eb = t.eb := (congrArg Thread.eb (freeA_frame t l r)).trans rfl
@[simp] theorem freeA_status (t : Thread) (l : BitVec 1) (r : Nat) : (freeA t l r).status = t.status := (congrArg Thread.status (freeA_frame t l r)).trans rfl
@[simp] theorem freeA_trapCause (t : Thread) (l : BitVec 1) (r : Nat) : (freeA t l r).trapCause = t.trapCause := (congrArg Thread.trapCause (freeA_frame t l r)).trans rfl
@[simp] theorem freeA_trapPc (t : Thread) (l : BitVec 1) (r : Nat) : (freeA t l r).trapPc = t.trapPc := (congrArg Thread.trapPc (freeA_frame t l r)).trans rfl
@[simp] theorem freeA_trapTask (t : Thread) (l : BitVec 1) (r : Nat) : (freeA t l r).trapTask = t.trapTask := (congrArg Thread.trapTask (freeA_frame t l r)).trans rfl
@[simp] theorem freeA_trapInfo (t : Thread) (l : BitVec 1) (r : Nat) : (freeA t l r).trapInfo = t.trapInfo := (congrArg Thread.trapInfo (freeA_frame t l r)).trans rfl
@[simp] theorem freeA_repState (t : Thread) (l : BitVec 1) (r : Nat) : (freeA t l r).repState = t.repState := (congrArg Thread.repState (freeA_frame t l r)).trans rfl
@[simp] theorem freeA_handlerBase (t : Thread) (l : BitVec 1) (r : Nat) : (freeA t l r).handlerBase = t.handlerBase := (congrArg Thread.handlerBase (freeA_frame t l r)).trans rfl
@[simp] theorem freeA_handlerRanges (t : Thread) (l : BitVec 1) (r : Nat) : (freeA t l r).handlerRanges = t.handlerRanges := (congrArg Thread.handlerRanges (freeA_frame t l r)).trans rfl
@[simp] theorem freeA_flags (t : Thread) (l : BitVec 1) (r : Nat) : (freeA t l r).flags = t.flags := (congrArg Thread.flags (freeA_frame t l r)).trans rfl
@[simp] theorem freeA_roundMode (t : Thread) (l : BitVec 1) (r : Nat) : (freeA t l r).roundMode = t.roundMode := (congrArg Thread.roundMode (freeA_frame t l r)).trans rfl
@[simp] theorem freeA_boundCtl (t : Thread) (l : BitVec 1) (r : Nat) : (freeA t l r).boundCtl = t.boundCtl := (congrArg Thread.boundCtl (freeA_frame t l r)).trans rfl
@[simp] theorem freeA_dropSeed (t : Thread) (l : BitVec 1) (r : Nat) : (freeA t l r).dropSeed = t.dropSeed := (congrArg Thread.dropSeed (freeA_frame t l r)).trans rfl
@[simp] theorem freeA_fmtBase (t : Thread) (l : BitVec 1) (r : Nat) : (freeA t l r).fmtBase = t.fmtBase := (congrArg Thread.fmtBase (freeA_frame t l r)).trans rfl
@[simp] theorem freeA_ft (t : Thread) (l : BitVec 1) (r : Nat) : (freeA t l r).ft = t.ft := (congrArg Thread.ft (freeA_frame t l r)).trans rfl
@[simp] theorem freeA_pc (t : Thread) (l : BitVec 1) (r : Nat) : (freeA t l r).pc = t.pc := (congrArg Thread.pc (freeA_frame t l r)).trans rfl
@[simp] theorem freeA_pfx (t : Thread) (l : BitVec 1) (r : Nat) : (freeA t l r).pfx = t.pfx := (congrArg Thread.pfx (freeA_frame t l r)).trans rfl
@[simp] theorem freeA_pfxPc (t : Thread) (l : BitVec 1) (r : Nat) : (freeA t l r).pfxPc = t.pfxPc := (congrArg Thread.pfxPc (freeA_frame t l r)).trans rfl
@[simp] theorem freeA_repDone (t : Thread) (l : BitVec 1) (r : Nat) : (freeA t l r).repDone = t.repDone := (congrArg Thread.repDone (freeA_frame t l r)).trans rfl
@[simp] theorem freeA_repPc (t : Thread) (l : BitVec 1) (r : Nat) : (freeA t l r).repPc = t.repPc := (congrArg Thread.repPc (freeA_frame t l r)).trans rfl
@[simp] theorem freeA_seq (t : Thread) (l : BitVec 1) (r : Nat) : (freeA t l r).seq = t.seq := (congrArg Thread.seq (freeA_frame t l r)).trans rfl
@[simp] theorem freeA_ldQ (t : Thread) (l : BitVec 1) (r : Nat) : (freeA t l r).ldQ = t.ldQ := (congrArg Thread.ldQ (freeA_frame t l r)).trans rfl
@[simp] theorem freeA_cpQ (t : Thread) (l : BitVec 1) (r : Nat) : (freeA t l r).cpQ = t.cpQ := (congrArg Thread.cpQ (freeA_frame t l r)).trans rfl
@[simp] theorem freeA_stQ (t : Thread) (l : BitVec 1) (r : Nat) : (freeA t l r).stQ = t.stQ := (congrArg Thread.stQ (freeA_frame t l r)).trans rfl
@[simp] theorem freeA_lpL (t : Thread) (l : BitVec 1) (r : Nat) : (freeA t l r).lpL = t.lpL := (congrArg Thread.lpL (freeA_frame t l r)).trans rfl
@[simp] theorem freeA_lpC (t : Thread) (l : BitVec 1) (r : Nat) : (freeA t l r).lpC = t.lpC := (congrArg Thread.lpC (freeA_frame t l r)).trans rfl
@[simp] theorem freeA_lpS (t : Thread) (l : BitVec 1) (r : Nat) : (freeA t l r).lpS = t.lpS := (congrArg Thread.lpS (freeA_frame t l r)).trans rfl
@[simp] theorem freeA_winL (t : Thread) (l : BitVec 1) (r : Nat) : (freeA t l r).winL = t.winL := (congrArg Thread.winL (freeA_frame t l r)).trans rfl
@[simp] theorem freeA_winC (t : Thread) (l : BitVec 1) (r : Nat) : (freeA t l r).winC = t.winC := (congrArg Thread.winC (freeA_frame t l r)).trans rfl
@[simp] theorem freeA_winS (t : Thread) (l : BitVec 1) (r : Nat) : (freeA t l r).winS = t.winS := (congrArg Thread.winS (freeA_frame t l r)).trans rfl
@[simp] theorem freeA_lostL (t : Thread) (l : BitVec 1) (r : Nat) : (freeA t l r).lostL = t.lostL := (congrArg Thread.lostL (freeA_frame t l r)).trans rfl
@[simp] theorem freeA_lostC (t : Thread) (l : BitVec 1) (r : Nat) : (freeA t l r).lostC = t.lostC := (congrArg Thread.lostC (freeA_frame t l r)).trans rfl
@[simp] theorem freeA_lostS (t : Thread) (l : BitVec 1) (r : Nat) : (freeA t l r).lostS = t.lostS := (congrArg Thread.lostS (freeA_frame t l r)).trans rfl
@[simp] theorem freeA_tok (t : Thread) (l : BitVec 1) (r : Nat) : (freeA t l r).tok = t.tok := (congrArg Thread.tok (freeA_frame t l r)).trans rfl
@[simp] theorem freeA_flights (t : Thread) (l : BitVec 1) (r : Nat) : (freeA t l r).flights = t.flights := (congrArg Thread.flights (freeA_frame t l r)).trans rfl
@[simp] theorem freeA_qflights (t : Thread) (l : BitVec 1) (r : Nat) : (freeA t l r).qflights = t.qflights := (congrArg Thread.qflights (freeA_frame t l r)).trans rfl
@[simp] theorem freeA_ctlAcc (t : Thread) (l : BitVec 1) (r : Nat) : (freeA t l r).ctlAcc = t.ctlAcc := (congrArg Thread.ctlAcc (freeA_frame t l r)).trans rfl
@[simp] theorem freeA_settles (t : Thread) (l : BitVec 1) (r : Nat) : (freeA t l r).settles = t.settles := (congrArg Thread.settles (freeA_frame t l r)).trans rfl
@[simp] theorem freeA_waitK (t : Thread) (l : BitVec 1) (r : Nat) : (freeA t l r).waitK = t.waitK := (congrArg Thread.waitK (freeA_frame t l r)).trans rfl
@[simp] theorem freeA_waitL (t : Thread) (l : BitVec 1) (r : Nat) : (freeA t l r).waitL = t.waitL := (congrArg Thread.waitL (freeA_frame t l r)).trans rfl
@[simp] theorem freeA_waitC (t : Thread) (l : BitVec 1) (r : Nat) : (freeA t l r).waitC = t.waitC := (congrArg Thread.waitC (freeA_frame t l r)).trans rfl
@[simp] theorem freeA_waitS (t : Thread) (l : BitVec 1) (r : Nat) : (freeA t l r).waitS = t.waitS := (congrArg Thread.waitS (freeA_frame t l r)).trans rfl
@[simp] theorem freeA_ph (t : Thread) (l : BitVec 1) (r : Nat) : (freeA t l r).ph = t.ph := (congrArg Thread.ph (freeA_frame t l r)).trans rfl
@[simp] theorem freeA_phS (t : Thread) (l : BitVec 1) (r : Nat) : (freeA t l r).phS = t.phS := (congrArg Thread.phS (freeA_frame t l r)).trans rfl
@[simp] theorem freeA_members (t : Thread) (l : BitVec 1) (r : Nat) : (freeA t l r).members = t.members := (congrArg Thread.members (freeA_frame t l r)).trans rfl
@[simp] theorem freeA_hist (t : Thread) (l : BitVec 1) (r : Nat) : (freeA t l r).hist = t.hist := (congrArg Thread.hist (freeA_frame t l r)).trans rfl
@[simp] theorem freeA_runL (t : Thread) (l : BitVec 1) (r : Nat) : (freeA t l r).runL = t.runL := (congrArg Thread.runL (freeA_frame t l r)).trans rfl
@[simp] theorem freeA_runC (t : Thread) (l : BitVec 1) (r : Nat) : (freeA t l r).runC = t.runC := (congrArg Thread.runC (freeA_frame t l r)).trans rfl
@[simp] theorem freeA_runS (t : Thread) (l : BitVec 1) (r : Nat) : (freeA t l r).runS = t.runS := (congrArg Thread.runS (freeA_frame t l r)).trans rfl
@[simp] theorem freeA_stopped (t : Thread) (l : BitVec 1) (r : Nat) : (freeA t l r).stopped = t.stopped := (congrArg Thread.stopped (freeA_frame t l r)).trans rfl
@[simp] theorem freeA_loopRes (t : Thread) (l : BitVec 1) (r : Nat) : (freeA t l r).loopRes = t.loopRes := (congrArg Thread.loopRes (freeA_frame t l r)).trans rfl
@[simp] theorem freeA_trapPend (t : Thread) (l : BitVec 1) (r : Nat) : (freeA t l r).trapPend = t.trapPend := (congrArg Thread.trapPend (freeA_frame t l r)).trans rfl
@[simp] theorem freeA_async (t : Thread) (l : BitVec 1) (r : Nat) : (freeA t l r).async = t.async := (congrArg Thread.async (freeA_frame t l r)).trans rfl
@[simp] theorem freeA_locks (t : Thread) (l : BitVec 1) (r : Nat) : (freeA t l r).locks = t.locks := (congrArg Thread.locks (freeA_frame t l r)).trans rfl
@[simp] theorem freeA_claim (t : Thread) (l : BitVec 1) (r : Nat) : (freeA t l r).claim = t.claim := (congrArg Thread.claim (freeA_frame t l r)).trans rfl
@[simp] theorem freeA_task (t : Thread) (l : BitVec 1) (r : Nat) : (freeA t l r).task = t.task := (congrArg Thread.task (freeA_frame t l r)).trans rfl
@[simp] theorem freeA_gangPos (t : Thread) (l : BitVec 1) (r : Nat) : (freeA t l r).gangPos = t.gangPos := (congrArg Thread.gangPos (freeA_frame t l r)).trans rfl
@[simp] theorem freeA_pendPersist (t : Thread) (l : BitVec 1) (r : Nat) : (freeA t l r).pendPersist = t.pendPersist := (congrArg Thread.pendPersist (freeA_frame t l r)).trans rfl
@[simp] theorem freeA_persistAt (t : Thread) (l : BitVec 1) (r : Nat) : (freeA t l r).persistAt = t.persistAt := (congrArg Thread.persistAt (freeA_frame t l r)).trans rfl
@[simp] theorem freeA_preempt (t : Thread) (l : BitVec 1) (r : Nat) : (freeA t l r).preempt = t.preempt := (congrArg Thread.preempt (freeA_frame t l r)).trans rfl
@[simp] theorem freeA_parkStop (t : Thread) (l : BitVec 1) (r : Nat) : (freeA t l r).parkStop = t.parkStop := (congrArg Thread.parkStop (freeA_frame t l r)).trans rfl
@[simp] theorem freeA_liveIdx (t : Thread) (l : BitVec 1) (r : Nat) : (freeA t l r).liveIdx = t.liveIdx := (congrArg Thread.liveIdx (freeA_frame t l r)).trans rfl
@[simp] theorem freeA_idleUntil (t : Thread) (l : BitVec 1) (r : Nat) : (freeA t l r).idleUntil = t.idleUntil := (congrArg Thread.idleUntil (freeA_frame t l r)).trans rfl
@[simp] theorem freeA_permits (t : Thread) (l : BitVec 1) (r : Nat) : (freeA t l r).permits = t.permits := (congrArg Thread.permits (freeA_frame t l r)).trans rfl
@[simp] theorem freeA_halted (t : Thread) (l : BitVec 1) (r : Nat) : (freeA t l r).halted = t.halted := (congrArg Thread.halted (freeA_frame t l r)).trans rfl
@[simp] theorem freeA_running (t : Thread) (l : BitVec 1) (r : Nat) : (freeA t l r).running = t.running := (congrArg Thread.running (freeA_frame t l r)).trans rfl
@[simp] theorem freeA_spadSave (t : Thread) (l : BitVec 1) (r : Nat) : (freeA t l r).spadSave = t.spadSave := (congrArg Thread.spadSave (freeA_frame t l r)).trans rfl
@[simp] theorem freeA_spadBad (t : Thread) (l : BitVec 1) (r : Nat) : (freeA t l r).spadBad = t.spadBad := (congrArg Thread.spadBad (freeA_frame t l r)).trans rfl
@[simp] theorem freeA_ran (t : Thread) (l : BitVec 1) (r : Nat) : (freeA t l r).ran = t.ran := (congrArg Thread.ran (freeA_frame t l r)).trans rfl
@[simp] theorem freeA_mtHold (t : Thread) (l : BitVec 1) (r : Nat) : (freeA t l r).mtHold = t.mtHold := (congrArg Thread.mtHold (freeA_frame t l r)).trans rfl
@[simp] theorem freeA_passed (t : Thread) (l : BitVec 1) (r : Nat) : (freeA t l r).passed = t.passed := (congrArg Thread.passed (freeA_frame t l r)).trans rfl
@[simp] theorem freeA_tileRep (t : Thread) (l : BitVec 1) (r : Nat) : (freeA t l r).tileRep = t.tileRep := (congrArg Thread.tileRep (freeA_frame t l r)).trans rfl

theorem wrS_frame (t : Thread) (r : Nat) (v : W) :
    wrS t r v = { t with s := (wrS t r v).s, freed := (wrS t r v).freed } := by
  rfl
@[simp] theorem wrS_g (t : Thread) (r : Nat) (v : W) : (wrS t r v).g = t.g := (congrArg Thread.g (wrS_frame t r v)).trans rfl
@[simp] theorem wrS_p (t : Thread) (r : Nat) (v : W) : (wrS t r v).p = t.p := (congrArg Thread.p (wrS_frame t r v)).trans rfl
@[simp] theorem wrS_h (t : Thread) (r : Nat) (v : W) : (wrS t r v).h = t.h := (congrArg Thread.h (wrS_frame t r v)).trans rfl
@[simp] theorem wrS_hPoison (t : Thread) (r : Nat) (v : W) : (wrS t r v).hPoison = t.hPoison := (congrArg Thread.hPoison (wrS_frame t r v)).trans rfl
@[simp] theorem wrS_hLine (t : Thread) (r : Nat) (v : W) : (wrS t r v).hLine = t.hLine := (congrArg Thread.hLine (wrS_frame t r v)).trans rfl
@[simp] theorem wrS_hSwm (t : Thread) (r : Nat) (v : W) : (wrS t r v).hSwm = t.hSwm := (congrArg Thread.hSwm (wrS_frame t r v)).trans rfl
@[simp] theorem wrS_hRq (t : Thread) (r : Nat) (v : W) : (wrS t r v).hRq = t.hRq := (congrArg Thread.hRq (wrS_frame t r v)).trans rfl
@[simp] theorem wrS_hVa (t : Thread) (r : Nat) (v : W) : (wrS t r v).hVa = t.hVa := (congrArg Thread.hVa (wrS_frame t r v)).trans rfl
@[simp] theorem wrS_xl (t : Thread) (r : Nat) (v : W) : (wrS t r v).xl = t.xl := (congrArg Thread.xl (wrS_frame t r v)).trans rfl
@[simp] theorem wrS_xs (t : Thread) (r : Nat) (v : W) : (wrS t r v).xs = t.xs := (congrArg Thread.xs (wrS_frame t r v)).trans rfl
@[simp] theorem wrS_a (t : Thread) (r : Nat) (v : W) : (wrS t r v).a = t.a := (congrArg Thread.a (wrS_frame t r v)).trans rfl
@[simp] theorem wrS_m (t : Thread) (r : Nat) (v : W) : (wrS t r v).m = t.m := (congrArg Thread.m (wrS_frame t r v)).trans rfl
@[simp] theorem wrS_vc (t : Thread) (r : Nat) (v : W) : (wrS t r v).vc = t.vc := (congrArg Thread.vc (wrS_frame t r v)).trans rfl
@[simp] theorem wrS_lcl (t : Thread) (r : Nat) (v : W) : (wrS t r v).lcl = t.lcl := (congrArg Thread.lcl (wrS_frame t r v)).trans rfl
@[simp] theorem wrS_lcc (t : Thread) (r : Nat) (v : W) : (wrS t r v).lcc = t.lcc := (congrArg Thread.lcc (wrS_frame t r v)).trans rfl
@[simp] theorem wrS_lcs (t : Thread) (r : Nat) (v : W) : (wrS t r v).lcs = t.lcs := (congrArg Thread.lcs (wrS_frame t r v)).trans rfl
@[simp] theorem wrS_q (t : Thread) (r : Nat) (v : W) : (wrS t r v).q = t.q := (congrArg Thread.q (wrS_frame t r v)).trans rfl
@[simp] theorem wrS_eb (t : Thread) (r : Nat) (v : W) : (wrS t r v).eb = t.eb := (congrArg Thread.eb (wrS_frame t r v)).trans rfl
@[simp] theorem wrS_status (t : Thread) (r : Nat) (v : W) : (wrS t r v).status = t.status := (congrArg Thread.status (wrS_frame t r v)).trans rfl
@[simp] theorem wrS_trapCause (t : Thread) (r : Nat) (v : W) : (wrS t r v).trapCause = t.trapCause := (congrArg Thread.trapCause (wrS_frame t r v)).trans rfl
@[simp] theorem wrS_trapPc (t : Thread) (r : Nat) (v : W) : (wrS t r v).trapPc = t.trapPc := (congrArg Thread.trapPc (wrS_frame t r v)).trans rfl
@[simp] theorem wrS_trapTask (t : Thread) (r : Nat) (v : W) : (wrS t r v).trapTask = t.trapTask := (congrArg Thread.trapTask (wrS_frame t r v)).trans rfl
@[simp] theorem wrS_trapInfo (t : Thread) (r : Nat) (v : W) : (wrS t r v).trapInfo = t.trapInfo := (congrArg Thread.trapInfo (wrS_frame t r v)).trans rfl
@[simp] theorem wrS_repState (t : Thread) (r : Nat) (v : W) : (wrS t r v).repState = t.repState := (congrArg Thread.repState (wrS_frame t r v)).trans rfl
@[simp] theorem wrS_handlerBase (t : Thread) (r : Nat) (v : W) : (wrS t r v).handlerBase = t.handlerBase := (congrArg Thread.handlerBase (wrS_frame t r v)).trans rfl
@[simp] theorem wrS_handlerRanges (t : Thread) (r : Nat) (v : W) : (wrS t r v).handlerRanges = t.handlerRanges := (congrArg Thread.handlerRanges (wrS_frame t r v)).trans rfl
@[simp] theorem wrS_flags (t : Thread) (r : Nat) (v : W) : (wrS t r v).flags = t.flags := (congrArg Thread.flags (wrS_frame t r v)).trans rfl
@[simp] theorem wrS_roundMode (t : Thread) (r : Nat) (v : W) : (wrS t r v).roundMode = t.roundMode := (congrArg Thread.roundMode (wrS_frame t r v)).trans rfl
@[simp] theorem wrS_boundCtl (t : Thread) (r : Nat) (v : W) : (wrS t r v).boundCtl = t.boundCtl := (congrArg Thread.boundCtl (wrS_frame t r v)).trans rfl
@[simp] theorem wrS_dropSeed (t : Thread) (r : Nat) (v : W) : (wrS t r v).dropSeed = t.dropSeed := (congrArg Thread.dropSeed (wrS_frame t r v)).trans rfl
@[simp] theorem wrS_fmtBase (t : Thread) (r : Nat) (v : W) : (wrS t r v).fmtBase = t.fmtBase := (congrArg Thread.fmtBase (wrS_frame t r v)).trans rfl
@[simp] theorem wrS_ft (t : Thread) (r : Nat) (v : W) : (wrS t r v).ft = t.ft := (congrArg Thread.ft (wrS_frame t r v)).trans rfl
@[simp] theorem wrS_pc (t : Thread) (r : Nat) (v : W) : (wrS t r v).pc = t.pc := (congrArg Thread.pc (wrS_frame t r v)).trans rfl
@[simp] theorem wrS_pfx (t : Thread) (r : Nat) (v : W) : (wrS t r v).pfx = t.pfx := (congrArg Thread.pfx (wrS_frame t r v)).trans rfl
@[simp] theorem wrS_pfxPc (t : Thread) (r : Nat) (v : W) : (wrS t r v).pfxPc = t.pfxPc := (congrArg Thread.pfxPc (wrS_frame t r v)).trans rfl
@[simp] theorem wrS_repDone (t : Thread) (r : Nat) (v : W) : (wrS t r v).repDone = t.repDone := (congrArg Thread.repDone (wrS_frame t r v)).trans rfl
@[simp] theorem wrS_repPc (t : Thread) (r : Nat) (v : W) : (wrS t r v).repPc = t.repPc := (congrArg Thread.repPc (wrS_frame t r v)).trans rfl
@[simp] theorem wrS_seq (t : Thread) (r : Nat) (v : W) : (wrS t r v).seq = t.seq := (congrArg Thread.seq (wrS_frame t r v)).trans rfl
@[simp] theorem wrS_ldQ (t : Thread) (r : Nat) (v : W) : (wrS t r v).ldQ = t.ldQ := (congrArg Thread.ldQ (wrS_frame t r v)).trans rfl
@[simp] theorem wrS_cpQ (t : Thread) (r : Nat) (v : W) : (wrS t r v).cpQ = t.cpQ := (congrArg Thread.cpQ (wrS_frame t r v)).trans rfl
@[simp] theorem wrS_stQ (t : Thread) (r : Nat) (v : W) : (wrS t r v).stQ = t.stQ := (congrArg Thread.stQ (wrS_frame t r v)).trans rfl
@[simp] theorem wrS_lpL (t : Thread) (r : Nat) (v : W) : (wrS t r v).lpL = t.lpL := (congrArg Thread.lpL (wrS_frame t r v)).trans rfl
@[simp] theorem wrS_lpC (t : Thread) (r : Nat) (v : W) : (wrS t r v).lpC = t.lpC := (congrArg Thread.lpC (wrS_frame t r v)).trans rfl
@[simp] theorem wrS_lpS (t : Thread) (r : Nat) (v : W) : (wrS t r v).lpS = t.lpS := (congrArg Thread.lpS (wrS_frame t r v)).trans rfl
@[simp] theorem wrS_winL (t : Thread) (r : Nat) (v : W) : (wrS t r v).winL = t.winL := (congrArg Thread.winL (wrS_frame t r v)).trans rfl
@[simp] theorem wrS_winC (t : Thread) (r : Nat) (v : W) : (wrS t r v).winC = t.winC := (congrArg Thread.winC (wrS_frame t r v)).trans rfl
@[simp] theorem wrS_winS (t : Thread) (r : Nat) (v : W) : (wrS t r v).winS = t.winS := (congrArg Thread.winS (wrS_frame t r v)).trans rfl
@[simp] theorem wrS_lostL (t : Thread) (r : Nat) (v : W) : (wrS t r v).lostL = t.lostL := (congrArg Thread.lostL (wrS_frame t r v)).trans rfl
@[simp] theorem wrS_lostC (t : Thread) (r : Nat) (v : W) : (wrS t r v).lostC = t.lostC := (congrArg Thread.lostC (wrS_frame t r v)).trans rfl
@[simp] theorem wrS_lostS (t : Thread) (r : Nat) (v : W) : (wrS t r v).lostS = t.lostS := (congrArg Thread.lostS (wrS_frame t r v)).trans rfl
@[simp] theorem wrS_tok (t : Thread) (r : Nat) (v : W) : (wrS t r v).tok = t.tok := (congrArg Thread.tok (wrS_frame t r v)).trans rfl
@[simp] theorem wrS_flights (t : Thread) (r : Nat) (v : W) : (wrS t r v).flights = t.flights := (congrArg Thread.flights (wrS_frame t r v)).trans rfl
@[simp] theorem wrS_qflights (t : Thread) (r : Nat) (v : W) : (wrS t r v).qflights = t.qflights := (congrArg Thread.qflights (wrS_frame t r v)).trans rfl
@[simp] theorem wrS_ctlAcc (t : Thread) (r : Nat) (v : W) : (wrS t r v).ctlAcc = t.ctlAcc := (congrArg Thread.ctlAcc (wrS_frame t r v)).trans rfl
@[simp] theorem wrS_settles (t : Thread) (r : Nat) (v : W) : (wrS t r v).settles = t.settles := (congrArg Thread.settles (wrS_frame t r v)).trans rfl
@[simp] theorem wrS_waitK (t : Thread) (r : Nat) (v : W) : (wrS t r v).waitK = t.waitK := (congrArg Thread.waitK (wrS_frame t r v)).trans rfl
@[simp] theorem wrS_waitL (t : Thread) (r : Nat) (v : W) : (wrS t r v).waitL = t.waitL := (congrArg Thread.waitL (wrS_frame t r v)).trans rfl
@[simp] theorem wrS_waitC (t : Thread) (r : Nat) (v : W) : (wrS t r v).waitC = t.waitC := (congrArg Thread.waitC (wrS_frame t r v)).trans rfl
@[simp] theorem wrS_waitS (t : Thread) (r : Nat) (v : W) : (wrS t r v).waitS = t.waitS := (congrArg Thread.waitS (wrS_frame t r v)).trans rfl
@[simp] theorem wrS_ph (t : Thread) (r : Nat) (v : W) : (wrS t r v).ph = t.ph := (congrArg Thread.ph (wrS_frame t r v)).trans rfl
@[simp] theorem wrS_phS (t : Thread) (r : Nat) (v : W) : (wrS t r v).phS = t.phS := (congrArg Thread.phS (wrS_frame t r v)).trans rfl
@[simp] theorem wrS_members (t : Thread) (r : Nat) (v : W) : (wrS t r v).members = t.members := (congrArg Thread.members (wrS_frame t r v)).trans rfl
@[simp] theorem wrS_hist (t : Thread) (r : Nat) (v : W) : (wrS t r v).hist = t.hist := (congrArg Thread.hist (wrS_frame t r v)).trans rfl
@[simp] theorem wrS_runL (t : Thread) (r : Nat) (v : W) : (wrS t r v).runL = t.runL := (congrArg Thread.runL (wrS_frame t r v)).trans rfl
@[simp] theorem wrS_runC (t : Thread) (r : Nat) (v : W) : (wrS t r v).runC = t.runC := (congrArg Thread.runC (wrS_frame t r v)).trans rfl
@[simp] theorem wrS_runS (t : Thread) (r : Nat) (v : W) : (wrS t r v).runS = t.runS := (congrArg Thread.runS (wrS_frame t r v)).trans rfl
@[simp] theorem wrS_stopped (t : Thread) (r : Nat) (v : W) : (wrS t r v).stopped = t.stopped := (congrArg Thread.stopped (wrS_frame t r v)).trans rfl
@[simp] theorem wrS_loopRes (t : Thread) (r : Nat) (v : W) : (wrS t r v).loopRes = t.loopRes := (congrArg Thread.loopRes (wrS_frame t r v)).trans rfl
@[simp] theorem wrS_trapPend (t : Thread) (r : Nat) (v : W) : (wrS t r v).trapPend = t.trapPend := (congrArg Thread.trapPend (wrS_frame t r v)).trans rfl
@[simp] theorem wrS_async (t : Thread) (r : Nat) (v : W) : (wrS t r v).async = t.async := (congrArg Thread.async (wrS_frame t r v)).trans rfl
@[simp] theorem wrS_locks (t : Thread) (r : Nat) (v : W) : (wrS t r v).locks = t.locks := (congrArg Thread.locks (wrS_frame t r v)).trans rfl
@[simp] theorem wrS_claim (t : Thread) (r : Nat) (v : W) : (wrS t r v).claim = t.claim := (congrArg Thread.claim (wrS_frame t r v)).trans rfl
@[simp] theorem wrS_task (t : Thread) (r : Nat) (v : W) : (wrS t r v).task = t.task := (congrArg Thread.task (wrS_frame t r v)).trans rfl
@[simp] theorem wrS_gangPos (t : Thread) (r : Nat) (v : W) : (wrS t r v).gangPos = t.gangPos := (congrArg Thread.gangPos (wrS_frame t r v)).trans rfl
@[simp] theorem wrS_pendPersist (t : Thread) (r : Nat) (v : W) : (wrS t r v).pendPersist = t.pendPersist := (congrArg Thread.pendPersist (wrS_frame t r v)).trans rfl
@[simp] theorem wrS_persistAt (t : Thread) (r : Nat) (v : W) : (wrS t r v).persistAt = t.persistAt := (congrArg Thread.persistAt (wrS_frame t r v)).trans rfl
@[simp] theorem wrS_preempt (t : Thread) (r : Nat) (v : W) : (wrS t r v).preempt = t.preempt := (congrArg Thread.preempt (wrS_frame t r v)).trans rfl
@[simp] theorem wrS_parkStop (t : Thread) (r : Nat) (v : W) : (wrS t r v).parkStop = t.parkStop := (congrArg Thread.parkStop (wrS_frame t r v)).trans rfl
@[simp] theorem wrS_liveIdx (t : Thread) (r : Nat) (v : W) : (wrS t r v).liveIdx = t.liveIdx := (congrArg Thread.liveIdx (wrS_frame t r v)).trans rfl
@[simp] theorem wrS_idleUntil (t : Thread) (r : Nat) (v : W) : (wrS t r v).idleUntil = t.idleUntil := (congrArg Thread.idleUntil (wrS_frame t r v)).trans rfl
@[simp] theorem wrS_permits (t : Thread) (r : Nat) (v : W) : (wrS t r v).permits = t.permits := (congrArg Thread.permits (wrS_frame t r v)).trans rfl
@[simp] theorem wrS_halted (t : Thread) (r : Nat) (v : W) : (wrS t r v).halted = t.halted := (congrArg Thread.halted (wrS_frame t r v)).trans rfl
@[simp] theorem wrS_running (t : Thread) (r : Nat) (v : W) : (wrS t r v).running = t.running := (congrArg Thread.running (wrS_frame t r v)).trans rfl
@[simp] theorem wrS_spadSave (t : Thread) (r : Nat) (v : W) : (wrS t r v).spadSave = t.spadSave := (congrArg Thread.spadSave (wrS_frame t r v)).trans rfl
@[simp] theorem wrS_spadBad (t : Thread) (r : Nat) (v : W) : (wrS t r v).spadBad = t.spadBad := (congrArg Thread.spadBad (wrS_frame t r v)).trans rfl
@[simp] theorem wrS_ran (t : Thread) (r : Nat) (v : W) : (wrS t r v).ran = t.ran := (congrArg Thread.ran (wrS_frame t r v)).trans rfl
@[simp] theorem wrS_mtHold (t : Thread) (r : Nat) (v : W) : (wrS t r v).mtHold = t.mtHold := (congrArg Thread.mtHold (wrS_frame t r v)).trans rfl
@[simp] theorem wrS_passed (t : Thread) (r : Nat) (v : W) : (wrS t r v).passed = t.passed := (congrArg Thread.passed (wrS_frame t r v)).trans rfl
@[simp] theorem wrS_tileRep (t : Thread) (r : Nat) (v : W) : (wrS t r v).tileRep = t.tileRep := (congrArg Thread.tileRep (wrS_frame t r v)).trans rfl

theorem freeS_frame (t : Thread) (l : BitVec 1) (r : Nat) :
    freeS t l r = { t with freed := (freeS t l r).freed } := by
  unfold freeS; split <;> rfl
@[simp] theorem freeS_g (t : Thread) (l : BitVec 1) (r : Nat) : (freeS t l r).g = t.g := (congrArg Thread.g (freeS_frame t l r)).trans rfl
@[simp] theorem freeS_p (t : Thread) (l : BitVec 1) (r : Nat) : (freeS t l r).p = t.p := (congrArg Thread.p (freeS_frame t l r)).trans rfl
@[simp] theorem freeS_h (t : Thread) (l : BitVec 1) (r : Nat) : (freeS t l r).h = t.h := (congrArg Thread.h (freeS_frame t l r)).trans rfl
@[simp] theorem freeS_hPoison (t : Thread) (l : BitVec 1) (r : Nat) : (freeS t l r).hPoison = t.hPoison := (congrArg Thread.hPoison (freeS_frame t l r)).trans rfl
@[simp] theorem freeS_hLine (t : Thread) (l : BitVec 1) (r : Nat) : (freeS t l r).hLine = t.hLine := (congrArg Thread.hLine (freeS_frame t l r)).trans rfl
@[simp] theorem freeS_hSwm (t : Thread) (l : BitVec 1) (r : Nat) : (freeS t l r).hSwm = t.hSwm := (congrArg Thread.hSwm (freeS_frame t l r)).trans rfl
@[simp] theorem freeS_hRq (t : Thread) (l : BitVec 1) (r : Nat) : (freeS t l r).hRq = t.hRq := (congrArg Thread.hRq (freeS_frame t l r)).trans rfl
@[simp] theorem freeS_hVa (t : Thread) (l : BitVec 1) (r : Nat) : (freeS t l r).hVa = t.hVa := (congrArg Thread.hVa (freeS_frame t l r)).trans rfl
@[simp] theorem freeS_xl (t : Thread) (l : BitVec 1) (r : Nat) : (freeS t l r).xl = t.xl := (congrArg Thread.xl (freeS_frame t l r)).trans rfl
@[simp] theorem freeS_xs (t : Thread) (l : BitVec 1) (r : Nat) : (freeS t l r).xs = t.xs := (congrArg Thread.xs (freeS_frame t l r)).trans rfl
@[simp] theorem freeS_a (t : Thread) (l : BitVec 1) (r : Nat) : (freeS t l r).a = t.a := (congrArg Thread.a (freeS_frame t l r)).trans rfl
@[simp] theorem freeS_m (t : Thread) (l : BitVec 1) (r : Nat) : (freeS t l r).m = t.m := (congrArg Thread.m (freeS_frame t l r)).trans rfl
@[simp] theorem freeS_s (t : Thread) (l : BitVec 1) (r : Nat) : (freeS t l r).s = t.s := (congrArg Thread.s (freeS_frame t l r)).trans rfl
@[simp] theorem freeS_vc (t : Thread) (l : BitVec 1) (r : Nat) : (freeS t l r).vc = t.vc := (congrArg Thread.vc (freeS_frame t l r)).trans rfl
@[simp] theorem freeS_lcl (t : Thread) (l : BitVec 1) (r : Nat) : (freeS t l r).lcl = t.lcl := (congrArg Thread.lcl (freeS_frame t l r)).trans rfl
@[simp] theorem freeS_lcc (t : Thread) (l : BitVec 1) (r : Nat) : (freeS t l r).lcc = t.lcc := (congrArg Thread.lcc (freeS_frame t l r)).trans rfl
@[simp] theorem freeS_lcs (t : Thread) (l : BitVec 1) (r : Nat) : (freeS t l r).lcs = t.lcs := (congrArg Thread.lcs (freeS_frame t l r)).trans rfl
@[simp] theorem freeS_q (t : Thread) (l : BitVec 1) (r : Nat) : (freeS t l r).q = t.q := (congrArg Thread.q (freeS_frame t l r)).trans rfl
@[simp] theorem freeS_eb (t : Thread) (l : BitVec 1) (r : Nat) : (freeS t l r).eb = t.eb := (congrArg Thread.eb (freeS_frame t l r)).trans rfl
@[simp] theorem freeS_status (t : Thread) (l : BitVec 1) (r : Nat) : (freeS t l r).status = t.status := (congrArg Thread.status (freeS_frame t l r)).trans rfl
@[simp] theorem freeS_trapCause (t : Thread) (l : BitVec 1) (r : Nat) : (freeS t l r).trapCause = t.trapCause := (congrArg Thread.trapCause (freeS_frame t l r)).trans rfl
@[simp] theorem freeS_trapPc (t : Thread) (l : BitVec 1) (r : Nat) : (freeS t l r).trapPc = t.trapPc := (congrArg Thread.trapPc (freeS_frame t l r)).trans rfl
@[simp] theorem freeS_trapTask (t : Thread) (l : BitVec 1) (r : Nat) : (freeS t l r).trapTask = t.trapTask := (congrArg Thread.trapTask (freeS_frame t l r)).trans rfl
@[simp] theorem freeS_trapInfo (t : Thread) (l : BitVec 1) (r : Nat) : (freeS t l r).trapInfo = t.trapInfo := (congrArg Thread.trapInfo (freeS_frame t l r)).trans rfl
@[simp] theorem freeS_repState (t : Thread) (l : BitVec 1) (r : Nat) : (freeS t l r).repState = t.repState := (congrArg Thread.repState (freeS_frame t l r)).trans rfl
@[simp] theorem freeS_handlerBase (t : Thread) (l : BitVec 1) (r : Nat) : (freeS t l r).handlerBase = t.handlerBase := (congrArg Thread.handlerBase (freeS_frame t l r)).trans rfl
@[simp] theorem freeS_handlerRanges (t : Thread) (l : BitVec 1) (r : Nat) : (freeS t l r).handlerRanges = t.handlerRanges := (congrArg Thread.handlerRanges (freeS_frame t l r)).trans rfl
@[simp] theorem freeS_flags (t : Thread) (l : BitVec 1) (r : Nat) : (freeS t l r).flags = t.flags := (congrArg Thread.flags (freeS_frame t l r)).trans rfl
@[simp] theorem freeS_roundMode (t : Thread) (l : BitVec 1) (r : Nat) : (freeS t l r).roundMode = t.roundMode := (congrArg Thread.roundMode (freeS_frame t l r)).trans rfl
@[simp] theorem freeS_boundCtl (t : Thread) (l : BitVec 1) (r : Nat) : (freeS t l r).boundCtl = t.boundCtl := (congrArg Thread.boundCtl (freeS_frame t l r)).trans rfl
@[simp] theorem freeS_dropSeed (t : Thread) (l : BitVec 1) (r : Nat) : (freeS t l r).dropSeed = t.dropSeed := (congrArg Thread.dropSeed (freeS_frame t l r)).trans rfl
@[simp] theorem freeS_fmtBase (t : Thread) (l : BitVec 1) (r : Nat) : (freeS t l r).fmtBase = t.fmtBase := (congrArg Thread.fmtBase (freeS_frame t l r)).trans rfl
@[simp] theorem freeS_ft (t : Thread) (l : BitVec 1) (r : Nat) : (freeS t l r).ft = t.ft := (congrArg Thread.ft (freeS_frame t l r)).trans rfl
@[simp] theorem freeS_pc (t : Thread) (l : BitVec 1) (r : Nat) : (freeS t l r).pc = t.pc := (congrArg Thread.pc (freeS_frame t l r)).trans rfl
@[simp] theorem freeS_pfx (t : Thread) (l : BitVec 1) (r : Nat) : (freeS t l r).pfx = t.pfx := (congrArg Thread.pfx (freeS_frame t l r)).trans rfl
@[simp] theorem freeS_pfxPc (t : Thread) (l : BitVec 1) (r : Nat) : (freeS t l r).pfxPc = t.pfxPc := (congrArg Thread.pfxPc (freeS_frame t l r)).trans rfl
@[simp] theorem freeS_repDone (t : Thread) (l : BitVec 1) (r : Nat) : (freeS t l r).repDone = t.repDone := (congrArg Thread.repDone (freeS_frame t l r)).trans rfl
@[simp] theorem freeS_repPc (t : Thread) (l : BitVec 1) (r : Nat) : (freeS t l r).repPc = t.repPc := (congrArg Thread.repPc (freeS_frame t l r)).trans rfl
@[simp] theorem freeS_seq (t : Thread) (l : BitVec 1) (r : Nat) : (freeS t l r).seq = t.seq := (congrArg Thread.seq (freeS_frame t l r)).trans rfl
@[simp] theorem freeS_ldQ (t : Thread) (l : BitVec 1) (r : Nat) : (freeS t l r).ldQ = t.ldQ := (congrArg Thread.ldQ (freeS_frame t l r)).trans rfl
@[simp] theorem freeS_cpQ (t : Thread) (l : BitVec 1) (r : Nat) : (freeS t l r).cpQ = t.cpQ := (congrArg Thread.cpQ (freeS_frame t l r)).trans rfl
@[simp] theorem freeS_stQ (t : Thread) (l : BitVec 1) (r : Nat) : (freeS t l r).stQ = t.stQ := (congrArg Thread.stQ (freeS_frame t l r)).trans rfl
@[simp] theorem freeS_lpL (t : Thread) (l : BitVec 1) (r : Nat) : (freeS t l r).lpL = t.lpL := (congrArg Thread.lpL (freeS_frame t l r)).trans rfl
@[simp] theorem freeS_lpC (t : Thread) (l : BitVec 1) (r : Nat) : (freeS t l r).lpC = t.lpC := (congrArg Thread.lpC (freeS_frame t l r)).trans rfl
@[simp] theorem freeS_lpS (t : Thread) (l : BitVec 1) (r : Nat) : (freeS t l r).lpS = t.lpS := (congrArg Thread.lpS (freeS_frame t l r)).trans rfl
@[simp] theorem freeS_winL (t : Thread) (l : BitVec 1) (r : Nat) : (freeS t l r).winL = t.winL := (congrArg Thread.winL (freeS_frame t l r)).trans rfl
@[simp] theorem freeS_winC (t : Thread) (l : BitVec 1) (r : Nat) : (freeS t l r).winC = t.winC := (congrArg Thread.winC (freeS_frame t l r)).trans rfl
@[simp] theorem freeS_winS (t : Thread) (l : BitVec 1) (r : Nat) : (freeS t l r).winS = t.winS := (congrArg Thread.winS (freeS_frame t l r)).trans rfl
@[simp] theorem freeS_lostL (t : Thread) (l : BitVec 1) (r : Nat) : (freeS t l r).lostL = t.lostL := (congrArg Thread.lostL (freeS_frame t l r)).trans rfl
@[simp] theorem freeS_lostC (t : Thread) (l : BitVec 1) (r : Nat) : (freeS t l r).lostC = t.lostC := (congrArg Thread.lostC (freeS_frame t l r)).trans rfl
@[simp] theorem freeS_lostS (t : Thread) (l : BitVec 1) (r : Nat) : (freeS t l r).lostS = t.lostS := (congrArg Thread.lostS (freeS_frame t l r)).trans rfl
@[simp] theorem freeS_tok (t : Thread) (l : BitVec 1) (r : Nat) : (freeS t l r).tok = t.tok := (congrArg Thread.tok (freeS_frame t l r)).trans rfl
@[simp] theorem freeS_flights (t : Thread) (l : BitVec 1) (r : Nat) : (freeS t l r).flights = t.flights := (congrArg Thread.flights (freeS_frame t l r)).trans rfl
@[simp] theorem freeS_qflights (t : Thread) (l : BitVec 1) (r : Nat) : (freeS t l r).qflights = t.qflights := (congrArg Thread.qflights (freeS_frame t l r)).trans rfl
@[simp] theorem freeS_ctlAcc (t : Thread) (l : BitVec 1) (r : Nat) : (freeS t l r).ctlAcc = t.ctlAcc := (congrArg Thread.ctlAcc (freeS_frame t l r)).trans rfl
@[simp] theorem freeS_settles (t : Thread) (l : BitVec 1) (r : Nat) : (freeS t l r).settles = t.settles := (congrArg Thread.settles (freeS_frame t l r)).trans rfl
@[simp] theorem freeS_waitK (t : Thread) (l : BitVec 1) (r : Nat) : (freeS t l r).waitK = t.waitK := (congrArg Thread.waitK (freeS_frame t l r)).trans rfl
@[simp] theorem freeS_waitL (t : Thread) (l : BitVec 1) (r : Nat) : (freeS t l r).waitL = t.waitL := (congrArg Thread.waitL (freeS_frame t l r)).trans rfl
@[simp] theorem freeS_waitC (t : Thread) (l : BitVec 1) (r : Nat) : (freeS t l r).waitC = t.waitC := (congrArg Thread.waitC (freeS_frame t l r)).trans rfl
@[simp] theorem freeS_waitS (t : Thread) (l : BitVec 1) (r : Nat) : (freeS t l r).waitS = t.waitS := (congrArg Thread.waitS (freeS_frame t l r)).trans rfl
@[simp] theorem freeS_ph (t : Thread) (l : BitVec 1) (r : Nat) : (freeS t l r).ph = t.ph := (congrArg Thread.ph (freeS_frame t l r)).trans rfl
@[simp] theorem freeS_phS (t : Thread) (l : BitVec 1) (r : Nat) : (freeS t l r).phS = t.phS := (congrArg Thread.phS (freeS_frame t l r)).trans rfl
@[simp] theorem freeS_members (t : Thread) (l : BitVec 1) (r : Nat) : (freeS t l r).members = t.members := (congrArg Thread.members (freeS_frame t l r)).trans rfl
@[simp] theorem freeS_hist (t : Thread) (l : BitVec 1) (r : Nat) : (freeS t l r).hist = t.hist := (congrArg Thread.hist (freeS_frame t l r)).trans rfl
@[simp] theorem freeS_runL (t : Thread) (l : BitVec 1) (r : Nat) : (freeS t l r).runL = t.runL := (congrArg Thread.runL (freeS_frame t l r)).trans rfl
@[simp] theorem freeS_runC (t : Thread) (l : BitVec 1) (r : Nat) : (freeS t l r).runC = t.runC := (congrArg Thread.runC (freeS_frame t l r)).trans rfl
@[simp] theorem freeS_runS (t : Thread) (l : BitVec 1) (r : Nat) : (freeS t l r).runS = t.runS := (congrArg Thread.runS (freeS_frame t l r)).trans rfl
@[simp] theorem freeS_stopped (t : Thread) (l : BitVec 1) (r : Nat) : (freeS t l r).stopped = t.stopped := (congrArg Thread.stopped (freeS_frame t l r)).trans rfl
@[simp] theorem freeS_loopRes (t : Thread) (l : BitVec 1) (r : Nat) : (freeS t l r).loopRes = t.loopRes := (congrArg Thread.loopRes (freeS_frame t l r)).trans rfl
@[simp] theorem freeS_trapPend (t : Thread) (l : BitVec 1) (r : Nat) : (freeS t l r).trapPend = t.trapPend := (congrArg Thread.trapPend (freeS_frame t l r)).trans rfl
@[simp] theorem freeS_async (t : Thread) (l : BitVec 1) (r : Nat) : (freeS t l r).async = t.async := (congrArg Thread.async (freeS_frame t l r)).trans rfl
@[simp] theorem freeS_locks (t : Thread) (l : BitVec 1) (r : Nat) : (freeS t l r).locks = t.locks := (congrArg Thread.locks (freeS_frame t l r)).trans rfl
@[simp] theorem freeS_claim (t : Thread) (l : BitVec 1) (r : Nat) : (freeS t l r).claim = t.claim := (congrArg Thread.claim (freeS_frame t l r)).trans rfl
@[simp] theorem freeS_task (t : Thread) (l : BitVec 1) (r : Nat) : (freeS t l r).task = t.task := (congrArg Thread.task (freeS_frame t l r)).trans rfl
@[simp] theorem freeS_gangPos (t : Thread) (l : BitVec 1) (r : Nat) : (freeS t l r).gangPos = t.gangPos := (congrArg Thread.gangPos (freeS_frame t l r)).trans rfl
@[simp] theorem freeS_pendPersist (t : Thread) (l : BitVec 1) (r : Nat) : (freeS t l r).pendPersist = t.pendPersist := (congrArg Thread.pendPersist (freeS_frame t l r)).trans rfl
@[simp] theorem freeS_persistAt (t : Thread) (l : BitVec 1) (r : Nat) : (freeS t l r).persistAt = t.persistAt := (congrArg Thread.persistAt (freeS_frame t l r)).trans rfl
@[simp] theorem freeS_preempt (t : Thread) (l : BitVec 1) (r : Nat) : (freeS t l r).preempt = t.preempt := (congrArg Thread.preempt (freeS_frame t l r)).trans rfl
@[simp] theorem freeS_parkStop (t : Thread) (l : BitVec 1) (r : Nat) : (freeS t l r).parkStop = t.parkStop := (congrArg Thread.parkStop (freeS_frame t l r)).trans rfl
@[simp] theorem freeS_liveIdx (t : Thread) (l : BitVec 1) (r : Nat) : (freeS t l r).liveIdx = t.liveIdx := (congrArg Thread.liveIdx (freeS_frame t l r)).trans rfl
@[simp] theorem freeS_idleUntil (t : Thread) (l : BitVec 1) (r : Nat) : (freeS t l r).idleUntil = t.idleUntil := (congrArg Thread.idleUntil (freeS_frame t l r)).trans rfl
@[simp] theorem freeS_permits (t : Thread) (l : BitVec 1) (r : Nat) : (freeS t l r).permits = t.permits := (congrArg Thread.permits (freeS_frame t l r)).trans rfl
@[simp] theorem freeS_halted (t : Thread) (l : BitVec 1) (r : Nat) : (freeS t l r).halted = t.halted := (congrArg Thread.halted (freeS_frame t l r)).trans rfl
@[simp] theorem freeS_running (t : Thread) (l : BitVec 1) (r : Nat) : (freeS t l r).running = t.running := (congrArg Thread.running (freeS_frame t l r)).trans rfl
@[simp] theorem freeS_spadSave (t : Thread) (l : BitVec 1) (r : Nat) : (freeS t l r).spadSave = t.spadSave := (congrArg Thread.spadSave (freeS_frame t l r)).trans rfl
@[simp] theorem freeS_spadBad (t : Thread) (l : BitVec 1) (r : Nat) : (freeS t l r).spadBad = t.spadBad := (congrArg Thread.spadBad (freeS_frame t l r)).trans rfl
@[simp] theorem freeS_ran (t : Thread) (l : BitVec 1) (r : Nat) : (freeS t l r).ran = t.ran := (congrArg Thread.ran (freeS_frame t l r)).trans rfl
@[simp] theorem freeS_mtHold (t : Thread) (l : BitVec 1) (r : Nat) : (freeS t l r).mtHold = t.mtHold := (congrArg Thread.mtHold (freeS_frame t l r)).trans rfl
@[simp] theorem freeS_passed (t : Thread) (l : BitVec 1) (r : Nat) : (freeS t l r).passed = t.passed := (congrArg Thread.passed (freeS_frame t l r)).trans rfl
@[simp] theorem freeS_tileRep (t : Thread) (l : BitVec 1) (r : Nat) : (freeS t l r).tileRep = t.tileRep := (congrArg Thread.tileRep (freeS_frame t l r)).trans rfl

theorem popTok_frame (t : Thread) (pair n : Nat) :
    popTok t pair n = { t with tok := (popTok t pair n).tok } := by
  rfl
@[simp] theorem popTok_g (t : Thread) (pair n : Nat) : (popTok t pair n).g = t.g := (congrArg Thread.g (popTok_frame t pair n)).trans rfl
@[simp] theorem popTok_p (t : Thread) (pair n : Nat) : (popTok t pair n).p = t.p := (congrArg Thread.p (popTok_frame t pair n)).trans rfl
@[simp] theorem popTok_h (t : Thread) (pair n : Nat) : (popTok t pair n).h = t.h := (congrArg Thread.h (popTok_frame t pair n)).trans rfl
@[simp] theorem popTok_hPoison (t : Thread) (pair n : Nat) : (popTok t pair n).hPoison = t.hPoison := (congrArg Thread.hPoison (popTok_frame t pair n)).trans rfl
@[simp] theorem popTok_hLine (t : Thread) (pair n : Nat) : (popTok t pair n).hLine = t.hLine := (congrArg Thread.hLine (popTok_frame t pair n)).trans rfl
@[simp] theorem popTok_hSwm (t : Thread) (pair n : Nat) : (popTok t pair n).hSwm = t.hSwm := (congrArg Thread.hSwm (popTok_frame t pair n)).trans rfl
@[simp] theorem popTok_hRq (t : Thread) (pair n : Nat) : (popTok t pair n).hRq = t.hRq := (congrArg Thread.hRq (popTok_frame t pair n)).trans rfl
@[simp] theorem popTok_hVa (t : Thread) (pair n : Nat) : (popTok t pair n).hVa = t.hVa := (congrArg Thread.hVa (popTok_frame t pair n)).trans rfl
@[simp] theorem popTok_xl (t : Thread) (pair n : Nat) : (popTok t pair n).xl = t.xl := (congrArg Thread.xl (popTok_frame t pair n)).trans rfl
@[simp] theorem popTok_xs (t : Thread) (pair n : Nat) : (popTok t pair n).xs = t.xs := (congrArg Thread.xs (popTok_frame t pair n)).trans rfl
@[simp] theorem popTok_a (t : Thread) (pair n : Nat) : (popTok t pair n).a = t.a := (congrArg Thread.a (popTok_frame t pair n)).trans rfl
@[simp] theorem popTok_m (t : Thread) (pair n : Nat) : (popTok t pair n).m = t.m := (congrArg Thread.m (popTok_frame t pair n)).trans rfl
@[simp] theorem popTok_s (t : Thread) (pair n : Nat) : (popTok t pair n).s = t.s := (congrArg Thread.s (popTok_frame t pair n)).trans rfl
@[simp] theorem popTok_vc (t : Thread) (pair n : Nat) : (popTok t pair n).vc = t.vc := (congrArg Thread.vc (popTok_frame t pair n)).trans rfl
@[simp] theorem popTok_lcl (t : Thread) (pair n : Nat) : (popTok t pair n).lcl = t.lcl := (congrArg Thread.lcl (popTok_frame t pair n)).trans rfl
@[simp] theorem popTok_lcc (t : Thread) (pair n : Nat) : (popTok t pair n).lcc = t.lcc := (congrArg Thread.lcc (popTok_frame t pair n)).trans rfl
@[simp] theorem popTok_lcs (t : Thread) (pair n : Nat) : (popTok t pair n).lcs = t.lcs := (congrArg Thread.lcs (popTok_frame t pair n)).trans rfl
@[simp] theorem popTok_q (t : Thread) (pair n : Nat) : (popTok t pair n).q = t.q := (congrArg Thread.q (popTok_frame t pair n)).trans rfl
@[simp] theorem popTok_eb (t : Thread) (pair n : Nat) : (popTok t pair n).eb = t.eb := (congrArg Thread.eb (popTok_frame t pair n)).trans rfl
@[simp] theorem popTok_freed (t : Thread) (pair n : Nat) : (popTok t pair n).freed = t.freed := (congrArg Thread.freed (popTok_frame t pair n)).trans rfl
@[simp] theorem popTok_status (t : Thread) (pair n : Nat) : (popTok t pair n).status = t.status := (congrArg Thread.status (popTok_frame t pair n)).trans rfl
@[simp] theorem popTok_trapCause (t : Thread) (pair n : Nat) : (popTok t pair n).trapCause = t.trapCause := (congrArg Thread.trapCause (popTok_frame t pair n)).trans rfl
@[simp] theorem popTok_trapPc (t : Thread) (pair n : Nat) : (popTok t pair n).trapPc = t.trapPc := (congrArg Thread.trapPc (popTok_frame t pair n)).trans rfl
@[simp] theorem popTok_trapTask (t : Thread) (pair n : Nat) : (popTok t pair n).trapTask = t.trapTask := (congrArg Thread.trapTask (popTok_frame t pair n)).trans rfl
@[simp] theorem popTok_trapInfo (t : Thread) (pair n : Nat) : (popTok t pair n).trapInfo = t.trapInfo := (congrArg Thread.trapInfo (popTok_frame t pair n)).trans rfl
@[simp] theorem popTok_repState (t : Thread) (pair n : Nat) : (popTok t pair n).repState = t.repState := (congrArg Thread.repState (popTok_frame t pair n)).trans rfl
@[simp] theorem popTok_handlerBase (t : Thread) (pair n : Nat) : (popTok t pair n).handlerBase = t.handlerBase := (congrArg Thread.handlerBase (popTok_frame t pair n)).trans rfl
@[simp] theorem popTok_handlerRanges (t : Thread) (pair n : Nat) : (popTok t pair n).handlerRanges = t.handlerRanges := (congrArg Thread.handlerRanges (popTok_frame t pair n)).trans rfl
@[simp] theorem popTok_flags (t : Thread) (pair n : Nat) : (popTok t pair n).flags = t.flags := (congrArg Thread.flags (popTok_frame t pair n)).trans rfl
@[simp] theorem popTok_roundMode (t : Thread) (pair n : Nat) : (popTok t pair n).roundMode = t.roundMode := (congrArg Thread.roundMode (popTok_frame t pair n)).trans rfl
@[simp] theorem popTok_boundCtl (t : Thread) (pair n : Nat) : (popTok t pair n).boundCtl = t.boundCtl := (congrArg Thread.boundCtl (popTok_frame t pair n)).trans rfl
@[simp] theorem popTok_dropSeed (t : Thread) (pair n : Nat) : (popTok t pair n).dropSeed = t.dropSeed := (congrArg Thread.dropSeed (popTok_frame t pair n)).trans rfl
@[simp] theorem popTok_fmtBase (t : Thread) (pair n : Nat) : (popTok t pair n).fmtBase = t.fmtBase := (congrArg Thread.fmtBase (popTok_frame t pair n)).trans rfl
@[simp] theorem popTok_ft (t : Thread) (pair n : Nat) : (popTok t pair n).ft = t.ft := (congrArg Thread.ft (popTok_frame t pair n)).trans rfl
@[simp] theorem popTok_pc (t : Thread) (pair n : Nat) : (popTok t pair n).pc = t.pc := (congrArg Thread.pc (popTok_frame t pair n)).trans rfl
@[simp] theorem popTok_pfx (t : Thread) (pair n : Nat) : (popTok t pair n).pfx = t.pfx := (congrArg Thread.pfx (popTok_frame t pair n)).trans rfl
@[simp] theorem popTok_pfxPc (t : Thread) (pair n : Nat) : (popTok t pair n).pfxPc = t.pfxPc := (congrArg Thread.pfxPc (popTok_frame t pair n)).trans rfl
@[simp] theorem popTok_repDone (t : Thread) (pair n : Nat) : (popTok t pair n).repDone = t.repDone := (congrArg Thread.repDone (popTok_frame t pair n)).trans rfl
@[simp] theorem popTok_repPc (t : Thread) (pair n : Nat) : (popTok t pair n).repPc = t.repPc := (congrArg Thread.repPc (popTok_frame t pair n)).trans rfl
@[simp] theorem popTok_seq (t : Thread) (pair n : Nat) : (popTok t pair n).seq = t.seq := (congrArg Thread.seq (popTok_frame t pair n)).trans rfl
@[simp] theorem popTok_ldQ (t : Thread) (pair n : Nat) : (popTok t pair n).ldQ = t.ldQ := (congrArg Thread.ldQ (popTok_frame t pair n)).trans rfl
@[simp] theorem popTok_cpQ (t : Thread) (pair n : Nat) : (popTok t pair n).cpQ = t.cpQ := (congrArg Thread.cpQ (popTok_frame t pair n)).trans rfl
@[simp] theorem popTok_stQ (t : Thread) (pair n : Nat) : (popTok t pair n).stQ = t.stQ := (congrArg Thread.stQ (popTok_frame t pair n)).trans rfl
@[simp] theorem popTok_lpL (t : Thread) (pair n : Nat) : (popTok t pair n).lpL = t.lpL := (congrArg Thread.lpL (popTok_frame t pair n)).trans rfl
@[simp] theorem popTok_lpC (t : Thread) (pair n : Nat) : (popTok t pair n).lpC = t.lpC := (congrArg Thread.lpC (popTok_frame t pair n)).trans rfl
@[simp] theorem popTok_lpS (t : Thread) (pair n : Nat) : (popTok t pair n).lpS = t.lpS := (congrArg Thread.lpS (popTok_frame t pair n)).trans rfl
@[simp] theorem popTok_winL (t : Thread) (pair n : Nat) : (popTok t pair n).winL = t.winL := (congrArg Thread.winL (popTok_frame t pair n)).trans rfl
@[simp] theorem popTok_winC (t : Thread) (pair n : Nat) : (popTok t pair n).winC = t.winC := (congrArg Thread.winC (popTok_frame t pair n)).trans rfl
@[simp] theorem popTok_winS (t : Thread) (pair n : Nat) : (popTok t pair n).winS = t.winS := (congrArg Thread.winS (popTok_frame t pair n)).trans rfl
@[simp] theorem popTok_lostL (t : Thread) (pair n : Nat) : (popTok t pair n).lostL = t.lostL := (congrArg Thread.lostL (popTok_frame t pair n)).trans rfl
@[simp] theorem popTok_lostC (t : Thread) (pair n : Nat) : (popTok t pair n).lostC = t.lostC := (congrArg Thread.lostC (popTok_frame t pair n)).trans rfl
@[simp] theorem popTok_lostS (t : Thread) (pair n : Nat) : (popTok t pair n).lostS = t.lostS := (congrArg Thread.lostS (popTok_frame t pair n)).trans rfl
@[simp] theorem popTok_flights (t : Thread) (pair n : Nat) : (popTok t pair n).flights = t.flights := (congrArg Thread.flights (popTok_frame t pair n)).trans rfl
@[simp] theorem popTok_qflights (t : Thread) (pair n : Nat) : (popTok t pair n).qflights = t.qflights := (congrArg Thread.qflights (popTok_frame t pair n)).trans rfl
@[simp] theorem popTok_ctlAcc (t : Thread) (pair n : Nat) : (popTok t pair n).ctlAcc = t.ctlAcc := (congrArg Thread.ctlAcc (popTok_frame t pair n)).trans rfl
@[simp] theorem popTok_settles (t : Thread) (pair n : Nat) : (popTok t pair n).settles = t.settles := (congrArg Thread.settles (popTok_frame t pair n)).trans rfl
@[simp] theorem popTok_waitK (t : Thread) (pair n : Nat) : (popTok t pair n).waitK = t.waitK := (congrArg Thread.waitK (popTok_frame t pair n)).trans rfl
@[simp] theorem popTok_waitL (t : Thread) (pair n : Nat) : (popTok t pair n).waitL = t.waitL := (congrArg Thread.waitL (popTok_frame t pair n)).trans rfl
@[simp] theorem popTok_waitC (t : Thread) (pair n : Nat) : (popTok t pair n).waitC = t.waitC := (congrArg Thread.waitC (popTok_frame t pair n)).trans rfl
@[simp] theorem popTok_waitS (t : Thread) (pair n : Nat) : (popTok t pair n).waitS = t.waitS := (congrArg Thread.waitS (popTok_frame t pair n)).trans rfl
@[simp] theorem popTok_ph (t : Thread) (pair n : Nat) : (popTok t pair n).ph = t.ph := (congrArg Thread.ph (popTok_frame t pair n)).trans rfl
@[simp] theorem popTok_phS (t : Thread) (pair n : Nat) : (popTok t pair n).phS = t.phS := (congrArg Thread.phS (popTok_frame t pair n)).trans rfl
@[simp] theorem popTok_members (t : Thread) (pair n : Nat) : (popTok t pair n).members = t.members := (congrArg Thread.members (popTok_frame t pair n)).trans rfl
@[simp] theorem popTok_hist (t : Thread) (pair n : Nat) : (popTok t pair n).hist = t.hist := (congrArg Thread.hist (popTok_frame t pair n)).trans rfl
@[simp] theorem popTok_runL (t : Thread) (pair n : Nat) : (popTok t pair n).runL = t.runL := (congrArg Thread.runL (popTok_frame t pair n)).trans rfl
@[simp] theorem popTok_runC (t : Thread) (pair n : Nat) : (popTok t pair n).runC = t.runC := (congrArg Thread.runC (popTok_frame t pair n)).trans rfl
@[simp] theorem popTok_runS (t : Thread) (pair n : Nat) : (popTok t pair n).runS = t.runS := (congrArg Thread.runS (popTok_frame t pair n)).trans rfl
@[simp] theorem popTok_stopped (t : Thread) (pair n : Nat) : (popTok t pair n).stopped = t.stopped := (congrArg Thread.stopped (popTok_frame t pair n)).trans rfl
@[simp] theorem popTok_loopRes (t : Thread) (pair n : Nat) : (popTok t pair n).loopRes = t.loopRes := (congrArg Thread.loopRes (popTok_frame t pair n)).trans rfl
@[simp] theorem popTok_trapPend (t : Thread) (pair n : Nat) : (popTok t pair n).trapPend = t.trapPend := (congrArg Thread.trapPend (popTok_frame t pair n)).trans rfl
@[simp] theorem popTok_async (t : Thread) (pair n : Nat) : (popTok t pair n).async = t.async := (congrArg Thread.async (popTok_frame t pair n)).trans rfl
@[simp] theorem popTok_locks (t : Thread) (pair n : Nat) : (popTok t pair n).locks = t.locks := (congrArg Thread.locks (popTok_frame t pair n)).trans rfl
@[simp] theorem popTok_claim (t : Thread) (pair n : Nat) : (popTok t pair n).claim = t.claim := (congrArg Thread.claim (popTok_frame t pair n)).trans rfl
@[simp] theorem popTok_task (t : Thread) (pair n : Nat) : (popTok t pair n).task = t.task := (congrArg Thread.task (popTok_frame t pair n)).trans rfl
@[simp] theorem popTok_gangPos (t : Thread) (pair n : Nat) : (popTok t pair n).gangPos = t.gangPos := (congrArg Thread.gangPos (popTok_frame t pair n)).trans rfl
@[simp] theorem popTok_pendPersist (t : Thread) (pair n : Nat) : (popTok t pair n).pendPersist = t.pendPersist := (congrArg Thread.pendPersist (popTok_frame t pair n)).trans rfl
@[simp] theorem popTok_persistAt (t : Thread) (pair n : Nat) : (popTok t pair n).persistAt = t.persistAt := (congrArg Thread.persistAt (popTok_frame t pair n)).trans rfl
@[simp] theorem popTok_preempt (t : Thread) (pair n : Nat) : (popTok t pair n).preempt = t.preempt := (congrArg Thread.preempt (popTok_frame t pair n)).trans rfl
@[simp] theorem popTok_parkStop (t : Thread) (pair n : Nat) : (popTok t pair n).parkStop = t.parkStop := (congrArg Thread.parkStop (popTok_frame t pair n)).trans rfl
@[simp] theorem popTok_liveIdx (t : Thread) (pair n : Nat) : (popTok t pair n).liveIdx = t.liveIdx := (congrArg Thread.liveIdx (popTok_frame t pair n)).trans rfl
@[simp] theorem popTok_idleUntil (t : Thread) (pair n : Nat) : (popTok t pair n).idleUntil = t.idleUntil := (congrArg Thread.idleUntil (popTok_frame t pair n)).trans rfl
@[simp] theorem popTok_permits (t : Thread) (pair n : Nat) : (popTok t pair n).permits = t.permits := (congrArg Thread.permits (popTok_frame t pair n)).trans rfl
@[simp] theorem popTok_halted (t : Thread) (pair n : Nat) : (popTok t pair n).halted = t.halted := (congrArg Thread.halted (popTok_frame t pair n)).trans rfl
@[simp] theorem popTok_running (t : Thread) (pair n : Nat) : (popTok t pair n).running = t.running := (congrArg Thread.running (popTok_frame t pair n)).trans rfl
@[simp] theorem popTok_spadSave (t : Thread) (pair n : Nat) : (popTok t pair n).spadSave = t.spadSave := (congrArg Thread.spadSave (popTok_frame t pair n)).trans rfl
@[simp] theorem popTok_spadBad (t : Thread) (pair n : Nat) : (popTok t pair n).spadBad = t.spadBad := (congrArg Thread.spadBad (popTok_frame t pair n)).trans rfl
@[simp] theorem popTok_ran (t : Thread) (pair n : Nat) : (popTok t pair n).ran = t.ran := (congrArg Thread.ran (popTok_frame t pair n)).trans rfl
@[simp] theorem popTok_mtHold (t : Thread) (pair n : Nat) : (popTok t pair n).mtHold = t.mtHold := (congrArg Thread.mtHold (popTok_frame t pair n)).trans rfl
@[simp] theorem popTok_passed (t : Thread) (pair n : Nat) : (popTok t pair n).passed = t.passed := (congrArg Thread.passed (popTok_frame t pair n)).trans rfl
@[simp] theorem popTok_tileRep (t : Thread) (pair n : Nat) : (popTok t pair n).tileRep = t.tileRep := (congrArg Thread.tileRep (popTok_frame t pair n)).trans rfl

theorem ctlDone_frame (t : Thread) (pc : Option Nat) :
    t.ctlDone pc = { t with pc := (t.ctlDone pc).pc, pfx := (t.ctlDone pc).pfx, repDone := (t.ctlDone pc).repDone, repPc := (t.ctlDone pc).repPc, seq := (t.ctlDone pc).seq, waitK := (t.ctlDone pc).waitK, ph := (t.ctlDone pc).ph, repState := (t.ctlDone pc).repState } := by
  unfold Thread.ctlDone; dsimp only; split <;> rfl
@[simp] theorem ctlDone_g (t : Thread) (pc : Option Nat) : (t.ctlDone pc).g = t.g := (congrArg Thread.g (ctlDone_frame t pc)).trans rfl
@[simp] theorem ctlDone_p (t : Thread) (pc : Option Nat) : (t.ctlDone pc).p = t.p := (congrArg Thread.p (ctlDone_frame t pc)).trans rfl
@[simp] theorem ctlDone_h (t : Thread) (pc : Option Nat) : (t.ctlDone pc).h = t.h := (congrArg Thread.h (ctlDone_frame t pc)).trans rfl
@[simp] theorem ctlDone_hPoison (t : Thread) (pc : Option Nat) : (t.ctlDone pc).hPoison = t.hPoison := (congrArg Thread.hPoison (ctlDone_frame t pc)).trans rfl
@[simp] theorem ctlDone_hLine (t : Thread) (pc : Option Nat) : (t.ctlDone pc).hLine = t.hLine := (congrArg Thread.hLine (ctlDone_frame t pc)).trans rfl
@[simp] theorem ctlDone_hSwm (t : Thread) (pc : Option Nat) : (t.ctlDone pc).hSwm = t.hSwm := (congrArg Thread.hSwm (ctlDone_frame t pc)).trans rfl
@[simp] theorem ctlDone_hRq (t : Thread) (pc : Option Nat) : (t.ctlDone pc).hRq = t.hRq := (congrArg Thread.hRq (ctlDone_frame t pc)).trans rfl
@[simp] theorem ctlDone_hVa (t : Thread) (pc : Option Nat) : (t.ctlDone pc).hVa = t.hVa := (congrArg Thread.hVa (ctlDone_frame t pc)).trans rfl
@[simp] theorem ctlDone_xl (t : Thread) (pc : Option Nat) : (t.ctlDone pc).xl = t.xl := (congrArg Thread.xl (ctlDone_frame t pc)).trans rfl
@[simp] theorem ctlDone_xs (t : Thread) (pc : Option Nat) : (t.ctlDone pc).xs = t.xs := (congrArg Thread.xs (ctlDone_frame t pc)).trans rfl
@[simp] theorem ctlDone_a (t : Thread) (pc : Option Nat) : (t.ctlDone pc).a = t.a := (congrArg Thread.a (ctlDone_frame t pc)).trans rfl
@[simp] theorem ctlDone_m (t : Thread) (pc : Option Nat) : (t.ctlDone pc).m = t.m := (congrArg Thread.m (ctlDone_frame t pc)).trans rfl
@[simp] theorem ctlDone_s (t : Thread) (pc : Option Nat) : (t.ctlDone pc).s = t.s := (congrArg Thread.s (ctlDone_frame t pc)).trans rfl
@[simp] theorem ctlDone_vc (t : Thread) (pc : Option Nat) : (t.ctlDone pc).vc = t.vc := (congrArg Thread.vc (ctlDone_frame t pc)).trans rfl
@[simp] theorem ctlDone_lcl (t : Thread) (pc : Option Nat) : (t.ctlDone pc).lcl = t.lcl := (congrArg Thread.lcl (ctlDone_frame t pc)).trans rfl
@[simp] theorem ctlDone_lcc (t : Thread) (pc : Option Nat) : (t.ctlDone pc).lcc = t.lcc := (congrArg Thread.lcc (ctlDone_frame t pc)).trans rfl
@[simp] theorem ctlDone_lcs (t : Thread) (pc : Option Nat) : (t.ctlDone pc).lcs = t.lcs := (congrArg Thread.lcs (ctlDone_frame t pc)).trans rfl
@[simp] theorem ctlDone_q (t : Thread) (pc : Option Nat) : (t.ctlDone pc).q = t.q := (congrArg Thread.q (ctlDone_frame t pc)).trans rfl
@[simp] theorem ctlDone_eb (t : Thread) (pc : Option Nat) : (t.ctlDone pc).eb = t.eb := (congrArg Thread.eb (ctlDone_frame t pc)).trans rfl
@[simp] theorem ctlDone_freed (t : Thread) (pc : Option Nat) : (t.ctlDone pc).freed = t.freed := (congrArg Thread.freed (ctlDone_frame t pc)).trans rfl
@[simp] theorem ctlDone_status (t : Thread) (pc : Option Nat) : (t.ctlDone pc).status = t.status := (congrArg Thread.status (ctlDone_frame t pc)).trans rfl
@[simp] theorem ctlDone_trapCause (t : Thread) (pc : Option Nat) : (t.ctlDone pc).trapCause = t.trapCause := (congrArg Thread.trapCause (ctlDone_frame t pc)).trans rfl
@[simp] theorem ctlDone_trapPc (t : Thread) (pc : Option Nat) : (t.ctlDone pc).trapPc = t.trapPc := (congrArg Thread.trapPc (ctlDone_frame t pc)).trans rfl
@[simp] theorem ctlDone_trapTask (t : Thread) (pc : Option Nat) : (t.ctlDone pc).trapTask = t.trapTask := (congrArg Thread.trapTask (ctlDone_frame t pc)).trans rfl
@[simp] theorem ctlDone_trapInfo (t : Thread) (pc : Option Nat) : (t.ctlDone pc).trapInfo = t.trapInfo := (congrArg Thread.trapInfo (ctlDone_frame t pc)).trans rfl
@[simp] theorem ctlDone_handlerBase (t : Thread) (pc : Option Nat) : (t.ctlDone pc).handlerBase = t.handlerBase := (congrArg Thread.handlerBase (ctlDone_frame t pc)).trans rfl
@[simp] theorem ctlDone_handlerRanges (t : Thread) (pc : Option Nat) : (t.ctlDone pc).handlerRanges = t.handlerRanges := (congrArg Thread.handlerRanges (ctlDone_frame t pc)).trans rfl
@[simp] theorem ctlDone_flags (t : Thread) (pc : Option Nat) : (t.ctlDone pc).flags = t.flags := (congrArg Thread.flags (ctlDone_frame t pc)).trans rfl
@[simp] theorem ctlDone_roundMode (t : Thread) (pc : Option Nat) : (t.ctlDone pc).roundMode = t.roundMode := (congrArg Thread.roundMode (ctlDone_frame t pc)).trans rfl
@[simp] theorem ctlDone_boundCtl (t : Thread) (pc : Option Nat) : (t.ctlDone pc).boundCtl = t.boundCtl := (congrArg Thread.boundCtl (ctlDone_frame t pc)).trans rfl
@[simp] theorem ctlDone_dropSeed (t : Thread) (pc : Option Nat) : (t.ctlDone pc).dropSeed = t.dropSeed := (congrArg Thread.dropSeed (ctlDone_frame t pc)).trans rfl
@[simp] theorem ctlDone_fmtBase (t : Thread) (pc : Option Nat) : (t.ctlDone pc).fmtBase = t.fmtBase := (congrArg Thread.fmtBase (ctlDone_frame t pc)).trans rfl
@[simp] theorem ctlDone_ft (t : Thread) (pc : Option Nat) : (t.ctlDone pc).ft = t.ft := (congrArg Thread.ft (ctlDone_frame t pc)).trans rfl
@[simp] theorem ctlDone_pfxPc (t : Thread) (pc : Option Nat) : (t.ctlDone pc).pfxPc = t.pfxPc := (congrArg Thread.pfxPc (ctlDone_frame t pc)).trans rfl
@[simp] theorem ctlDone_ldQ (t : Thread) (pc : Option Nat) : (t.ctlDone pc).ldQ = t.ldQ := (congrArg Thread.ldQ (ctlDone_frame t pc)).trans rfl
@[simp] theorem ctlDone_cpQ (t : Thread) (pc : Option Nat) : (t.ctlDone pc).cpQ = t.cpQ := (congrArg Thread.cpQ (ctlDone_frame t pc)).trans rfl
@[simp] theorem ctlDone_stQ (t : Thread) (pc : Option Nat) : (t.ctlDone pc).stQ = t.stQ := (congrArg Thread.stQ (ctlDone_frame t pc)).trans rfl
@[simp] theorem ctlDone_lpL (t : Thread) (pc : Option Nat) : (t.ctlDone pc).lpL = t.lpL := (congrArg Thread.lpL (ctlDone_frame t pc)).trans rfl
@[simp] theorem ctlDone_lpC (t : Thread) (pc : Option Nat) : (t.ctlDone pc).lpC = t.lpC := (congrArg Thread.lpC (ctlDone_frame t pc)).trans rfl
@[simp] theorem ctlDone_lpS (t : Thread) (pc : Option Nat) : (t.ctlDone pc).lpS = t.lpS := (congrArg Thread.lpS (ctlDone_frame t pc)).trans rfl
@[simp] theorem ctlDone_winL (t : Thread) (pc : Option Nat) : (t.ctlDone pc).winL = t.winL := (congrArg Thread.winL (ctlDone_frame t pc)).trans rfl
@[simp] theorem ctlDone_winC (t : Thread) (pc : Option Nat) : (t.ctlDone pc).winC = t.winC := (congrArg Thread.winC (ctlDone_frame t pc)).trans rfl
@[simp] theorem ctlDone_winS (t : Thread) (pc : Option Nat) : (t.ctlDone pc).winS = t.winS := (congrArg Thread.winS (ctlDone_frame t pc)).trans rfl
@[simp] theorem ctlDone_lostL (t : Thread) (pc : Option Nat) : (t.ctlDone pc).lostL = t.lostL := (congrArg Thread.lostL (ctlDone_frame t pc)).trans rfl
@[simp] theorem ctlDone_lostC (t : Thread) (pc : Option Nat) : (t.ctlDone pc).lostC = t.lostC := (congrArg Thread.lostC (ctlDone_frame t pc)).trans rfl
@[simp] theorem ctlDone_lostS (t : Thread) (pc : Option Nat) : (t.ctlDone pc).lostS = t.lostS := (congrArg Thread.lostS (ctlDone_frame t pc)).trans rfl
@[simp] theorem ctlDone_tok (t : Thread) (pc : Option Nat) : (t.ctlDone pc).tok = t.tok := (congrArg Thread.tok (ctlDone_frame t pc)).trans rfl
@[simp] theorem ctlDone_flights (t : Thread) (pc : Option Nat) : (t.ctlDone pc).flights = t.flights := (congrArg Thread.flights (ctlDone_frame t pc)).trans rfl
@[simp] theorem ctlDone_qflights (t : Thread) (pc : Option Nat) : (t.ctlDone pc).qflights = t.qflights := (congrArg Thread.qflights (ctlDone_frame t pc)).trans rfl
@[simp] theorem ctlDone_ctlAcc (t : Thread) (pc : Option Nat) : (t.ctlDone pc).ctlAcc = t.ctlAcc := (congrArg Thread.ctlAcc (ctlDone_frame t pc)).trans rfl
@[simp] theorem ctlDone_settles (t : Thread) (pc : Option Nat) : (t.ctlDone pc).settles = t.settles := (congrArg Thread.settles (ctlDone_frame t pc)).trans rfl
@[simp] theorem ctlDone_waitL (t : Thread) (pc : Option Nat) : (t.ctlDone pc).waitL = t.waitL := (congrArg Thread.waitL (ctlDone_frame t pc)).trans rfl
@[simp] theorem ctlDone_waitC (t : Thread) (pc : Option Nat) : (t.ctlDone pc).waitC = t.waitC := (congrArg Thread.waitC (ctlDone_frame t pc)).trans rfl
@[simp] theorem ctlDone_waitS (t : Thread) (pc : Option Nat) : (t.ctlDone pc).waitS = t.waitS := (congrArg Thread.waitS (ctlDone_frame t pc)).trans rfl
@[simp] theorem ctlDone_phS (t : Thread) (pc : Option Nat) : (t.ctlDone pc).phS = t.phS := (congrArg Thread.phS (ctlDone_frame t pc)).trans rfl
@[simp] theorem ctlDone_members (t : Thread) (pc : Option Nat) : (t.ctlDone pc).members = t.members := (congrArg Thread.members (ctlDone_frame t pc)).trans rfl
@[simp] theorem ctlDone_hist (t : Thread) (pc : Option Nat) : (t.ctlDone pc).hist = t.hist := (congrArg Thread.hist (ctlDone_frame t pc)).trans rfl
@[simp] theorem ctlDone_runL (t : Thread) (pc : Option Nat) : (t.ctlDone pc).runL = t.runL := (congrArg Thread.runL (ctlDone_frame t pc)).trans rfl
@[simp] theorem ctlDone_runC (t : Thread) (pc : Option Nat) : (t.ctlDone pc).runC = t.runC := (congrArg Thread.runC (ctlDone_frame t pc)).trans rfl
@[simp] theorem ctlDone_runS (t : Thread) (pc : Option Nat) : (t.ctlDone pc).runS = t.runS := (congrArg Thread.runS (ctlDone_frame t pc)).trans rfl
@[simp] theorem ctlDone_stopped (t : Thread) (pc : Option Nat) : (t.ctlDone pc).stopped = t.stopped := (congrArg Thread.stopped (ctlDone_frame t pc)).trans rfl
@[simp] theorem ctlDone_loopRes (t : Thread) (pc : Option Nat) : (t.ctlDone pc).loopRes = t.loopRes := (congrArg Thread.loopRes (ctlDone_frame t pc)).trans rfl
@[simp] theorem ctlDone_trapPend (t : Thread) (pc : Option Nat) : (t.ctlDone pc).trapPend = t.trapPend := (congrArg Thread.trapPend (ctlDone_frame t pc)).trans rfl
@[simp] theorem ctlDone_async (t : Thread) (pc : Option Nat) : (t.ctlDone pc).async = t.async := (congrArg Thread.async (ctlDone_frame t pc)).trans rfl
@[simp] theorem ctlDone_locks (t : Thread) (pc : Option Nat) : (t.ctlDone pc).locks = t.locks := (congrArg Thread.locks (ctlDone_frame t pc)).trans rfl
@[simp] theorem ctlDone_claim (t : Thread) (pc : Option Nat) : (t.ctlDone pc).claim = t.claim := (congrArg Thread.claim (ctlDone_frame t pc)).trans rfl
@[simp] theorem ctlDone_task (t : Thread) (pc : Option Nat) : (t.ctlDone pc).task = t.task := (congrArg Thread.task (ctlDone_frame t pc)).trans rfl
@[simp] theorem ctlDone_gangPos (t : Thread) (pc : Option Nat) : (t.ctlDone pc).gangPos = t.gangPos := (congrArg Thread.gangPos (ctlDone_frame t pc)).trans rfl
@[simp] theorem ctlDone_pendPersist (t : Thread) (pc : Option Nat) : (t.ctlDone pc).pendPersist = t.pendPersist := (congrArg Thread.pendPersist (ctlDone_frame t pc)).trans rfl
@[simp] theorem ctlDone_persistAt (t : Thread) (pc : Option Nat) : (t.ctlDone pc).persistAt = t.persistAt := (congrArg Thread.persistAt (ctlDone_frame t pc)).trans rfl
@[simp] theorem ctlDone_preempt (t : Thread) (pc : Option Nat) : (t.ctlDone pc).preempt = t.preempt := (congrArg Thread.preempt (ctlDone_frame t pc)).trans rfl
@[simp] theorem ctlDone_parkStop (t : Thread) (pc : Option Nat) : (t.ctlDone pc).parkStop = t.parkStop := (congrArg Thread.parkStop (ctlDone_frame t pc)).trans rfl
@[simp] theorem ctlDone_liveIdx (t : Thread) (pc : Option Nat) : (t.ctlDone pc).liveIdx = t.liveIdx := (congrArg Thread.liveIdx (ctlDone_frame t pc)).trans rfl
@[simp] theorem ctlDone_idleUntil (t : Thread) (pc : Option Nat) : (t.ctlDone pc).idleUntil = t.idleUntil := (congrArg Thread.idleUntil (ctlDone_frame t pc)).trans rfl
@[simp] theorem ctlDone_permits (t : Thread) (pc : Option Nat) : (t.ctlDone pc).permits = t.permits := (congrArg Thread.permits (ctlDone_frame t pc)).trans rfl
@[simp] theorem ctlDone_halted (t : Thread) (pc : Option Nat) : (t.ctlDone pc).halted = t.halted := (congrArg Thread.halted (ctlDone_frame t pc)).trans rfl
@[simp] theorem ctlDone_running (t : Thread) (pc : Option Nat) : (t.ctlDone pc).running = t.running := (congrArg Thread.running (ctlDone_frame t pc)).trans rfl
@[simp] theorem ctlDone_spadSave (t : Thread) (pc : Option Nat) : (t.ctlDone pc).spadSave = t.spadSave := (congrArg Thread.spadSave (ctlDone_frame t pc)).trans rfl
@[simp] theorem ctlDone_spadBad (t : Thread) (pc : Option Nat) : (t.ctlDone pc).spadBad = t.spadBad := (congrArg Thread.spadBad (ctlDone_frame t pc)).trans rfl
@[simp] theorem ctlDone_ran (t : Thread) (pc : Option Nat) : (t.ctlDone pc).ran = t.ran := (congrArg Thread.ran (ctlDone_frame t pc)).trans rfl
@[simp] theorem ctlDone_mtHold (t : Thread) (pc : Option Nat) : (t.ctlDone pc).mtHold = t.mtHold := (congrArg Thread.mtHold (ctlDone_frame t pc)).trans rfl
@[simp] theorem ctlDone_passed (t : Thread) (pc : Option Nat) : (t.ctlDone pc).passed = t.passed := (congrArg Thread.passed (ctlDone_frame t pc)).trans rfl
@[simp] theorem ctlDone_tileRep (t : Thread) (pc : Option Nat) : (t.ctlDone pc).tileRep = t.tileRep := (congrArg Thread.tileRep (ctlDone_frame t pc)).trans rfl

end Sys2Proof.Machine
end

