-- ==== Sys2Proof/Laws/Control.lean ====
section
/-! SUPPORT. The shared bodies of the integer words, what a completed control word leaves of its thread, and what the moves of a unit
through its sequencer leave of the registers. -/

namespace Sys2Proof.Machine

open Sys2Proof

/-- An integer word of two readable registers succeeds. -/
theorem aluRR_ok {f : W → W → W} {d a : BitVec 5} {l : BitVec 1} {b : BitVec 5} {m : BitVec 1} {s : State} {x y : W}
    (hx : rdG s s.th a.toNat 0 = .ok x) (hy : rdG s s.th b.toNat 1 = .ok y) :
    aluRR f d a l b m s = .ok { s := s.setTh (wrG (freeG (freeG s.th l a.toNat) m b.toNat) d.toNat (f x y)) } := by
  simp only [aluRR, hx, hy]
  rfl

/-- An integer word of one readable register succeeds. -/
theorem aluR_ok {f : W → W} {d a : BitVec 5} {l : BitVec 1} {s : State} {x : W} (hx : rdG s s.th a.toNat 0 = .ok x) :
    aluR f d a l s = .ok { s := s.setTh (wrG (freeG s.th l a.toNat) d.toNat (f x)) } := by
  simp only [aluR, hx]
  rfl

/-- An immediate shift by at most 63 of a readable register succeeds. -/
theorem aluShiftI_ok {f : W → Nat → W} {d a : BitVec 5} {l : BitVec 1} {i : BitVec 12} {s : State} {x : W}
    (hx : rdG s s.th a.toNat 0 = .ok x) (hi : immU s.th.pfx 12 i.toNat ≤ 63) :
    aluShiftI f d a l i s = .ok { s := s.setTh (wrG (freeG s.th l a.toNat) d.toNat (f x (immU s.th.pfx 12 i.toNat))) } := by
  simp only [aluShiftI, aluR_ok hx, requireLegal, hi, decide_true]
  rfl

/-- A written g register reads the value, any other its own; g0 discards. -/
theorem vget_wrG_self (t : Thread) (r : Nat) (v : W) (h0 : r ≠ 0) (h : r < 32) : vget (wrG t r v).g r 0#64 = v := by
  simp [wrG, h0, h]

theorem vget_wrG_ne (t : Thread) {r i : Nat} (v : W) (h : i ≠ r) : vget (wrG t r v).g i 0#64 = vget t.g i 0#64 := by
  unfold wrG
  split
  · rfl
  · exact vget_vset_ne _ _ _ h

@[simp] theorem wrG_zero (t : Thread) (v : W) : wrG t 0 v = t := rfl

/-- The repeat a unit stands at depends on its prefixes and its place, REP_STATE and the unit that it is about, INH and the repeats done. -/
theorem repNow_congr {t u : Thread} (h1 : u.pfx = t.pfx) (h2 : u.repDone = t.repDone) (h3 : u.repState = t.repState)
    (h4 : u.status = t.status) (h5 : u.repPc = t.repPc) (h6 : u.unitPc = t.unitPc) : u.repNow = t.repNow := by
  simp [Thread.repNow, Thread.resumes, Thread.inh, h1, h2, h3, h4, h5, h6]

/-- A control word outside REP completes: the thread goes on after it, or at the target. -/
theorem ctlDone_pc (t : Thread) (pc : Option Nat) (h : t.repNow.2.1 ≤ 1) : (t.ctlDone pc).pc = pc.getD (t.pc + 4) := by
  have h2 : ¬ (t.repNow.1 + 1 < t.repNow.2.1) := by omega
  simp [Thread.ctlDone, h2]

/-- The registers that programs see, the trap registers and the pc of two states of a thread agree. -/
def SameRegs (a b : Thread) : Prop :=
  b.g = a.g ∧ b.p = a.p ∧ b.h = a.h ∧ b.xl = a.xl ∧ b.xs = a.xs ∧ b.a = a.a ∧ b.m = a.m ∧ b.s = a.s ∧ b.eb = a.eb ∧ b.q = a.q ∧
  b.flags = a.flags ∧ b.status = a.status ∧ b.trapCause = a.trapCause ∧ b.trapPc = a.trapPc ∧ b.pc = a.pc ∧ b.trapPend = a.trapPend

theorem SameRegs.refl (a : Thread) : SameRegs a a := by simp [SameRegs]

theorem SameRegs.trans {a b c : Thread} (h : SameRegs a b) (h2 : SameRegs b c) : SameRegs a c := by
  unfold SameRegs at *
  simp_all

theorem sameRegs_setLoop (t : Thread) (q : Sq) (l : LoopBuf) : SameRegs t (t.setLoop q l) := by
  cases q <;> simp [SameRegs, Thread.setLoop]

theorem sameRegs_setQueue (t : Thread) (q : Sq) (l : List QUnit) : SameRegs t (t.setQueue q l) := by
  cases q <;> simp [SameRegs, Thread.setQueue]

theorem sameRegs_setLc (t : Thread) (q : Sq) (i : Nat) (v : W32) : SameRegs t (t.setLc q i v) := by
  cases q <;> simp [SameRegs, Thread.setLc]

theorem sameRegs_setWait (t : Thread) (q : Sq) (w : Option Wait) : SameRegs t (t.setWait q w) := by
  cases q <;> simp [SameRegs, Thread.setWait]

theorem sameRegs_setPhase (t : Thread) (q : Sq) (p : Phase) : SameRegs t (t.setPhase q p) := by
  cases q <;> simp [SameRegs, Thread.setPhase]

theorem sameRegs_record (t : Thread) (q : Sq) (e : WinEntry) : SameRegs t (t.record q e) := by
  cases q <;> simp [SameRegs, Thread.record]

theorem sameRegs_popTokens (t : Thread) (q : Sq) (n : Nat) : SameRegs t (t.popTokens q n) := by
  unfold Thread.popTokens SameRegs
  dsimp only
  repeat' split
  all_goals simp

theorem sameRegs_pushTokens (t : Thread) (q : Sq) (n : Nat) : SameRegs t (t.pushTokens q n).1 := by
  unfold Thread.pushTokens SameRegs pushTok
  dsimp only
  repeat' split
  all_goals simp_all

theorem sameRegs_pruneHist (t : Thread) : SameRegs t t.pruneHist := by
  unfold Thread.pruneHist SameRegs
  repeat' split
  all_goals simp

theorem sameRegs_putUnit (t : Thread) (q : Sq) (l : Bool) (u : QUnit) : SameRegs t (t.putUnit q l u) := by
  unfold Thread.putUnit SameRegs
  cases q <;> dsimp only <;> repeat' split
  all_goals simp [Thread.setLoop, Thread.setQueue]

theorem sameRegs_loopNorm (t : Thread) (q : Sq) (n : Nat) : SameRegs t (t.loopNorm q n) := by
  induction n generalizing t with
  | zero => exact SameRegs.refl t
  | succ n ih =>
    unfold Thread.loopNorm
    dsimp only
    split
    · exact sameRegs_setLoop _ _ _
    · split
      · split
        · exact SameRegs.refl t
        · exact (sameRegs_setLoop _ _ _).trans (ih _)
      · split
        · exact SameRegs.refl t
        · split
          · exact (sameRegs_setLc _ _ _ _).trans (sameRegs_setLoop _ _ _)
          · exact ((sameRegs_setLc _ _ _ _).trans (sameRegs_setLoop _ _ _)).trans (ih _)

theorem sameRegs_retire (t : Thread) (q : Sq) (l : Bool) (u : QUnit) (r : Option LoopRec) : SameRegs t (t.retire q l u r) := by
  unfold Thread.retire
  dsimp only
  split
  · exact (sameRegs_setLoop _ _ _).trans (sameRegs_loopNorm _ _ _)
  · split
    · exact ((sameRegs_setQueue _ _ _).trans (sameRegs_setLoop _ _ _)).trans (sameRegs_loopNorm _ _ _)
    · split
      · exact sameRegs_setQueue _ _ _
      · exact ((sameRegs_setQueue _ _ _).trans (sameRegs_setLoop _ _ _)).trans (sameRegs_loopNorm _ _ _)

/-- A change of one thread leaves every other thread and the rest of the state. -/
theorem onlyThread_modThread (t : State) (k : Nat) (f : Thread → Thread) : OnlyThread k t (t.modThread k f) :=
  ⟨rfl, fun _ h => thread_modThread_ne t f h⟩

/-- With no trap pending nothing is settled. -/
theorem settleTrap_none {s : State} {k : Nat} (h : (s.thread k).trapPend = none) : s.settleTrap k = s := by
  simp [State.settleTrap, h]

end Sys2Proof.Machine
end

