-- ==== Sys2Proof/Laws/Home.lean ====
section
/-! SUPPORT. What a read at home leaves alone: it counts and logs the errors it meets and moves cached copies, and changes no thread, no
task, no core and no byte of memory. -/

namespace Sys2Proof.Machine

open Sys2Proof

/-- Two states have the same threads, tasks, cores and bytes of memory, and the same thread acts. -/
def SameRun (s t : State) : Prop := t.thr = s.thr ∧ t.tasks = s.tasks ∧ t.cores = s.cores ∧ t.mem = s.mem ∧ t.focus = s.focus

theorem SameRun.refl (s : State) : SameRun s s := ⟨rfl, rfl, rfl, rfl, rfl⟩

theorem SameRun.trans {s t u : State} (h : SameRun s t) (h2 : SameRun t u) : SameRun s u := by
  obtain ⟨a1, a2, a3, a4, a5⟩ := h
  obtain ⟨b1, b2, b3, b4, b5⟩ := h2
  exact ⟨b1.trans a1, b2.trans a2, b3.trans a3, b4.trans a4, b5.trans a5⟩

/-- The thread of a plane is the same. -/
theorem SameRun.thread {s t : State} (h : SameRun s t) (k : Nat) : t.thread k = s.thread k := by
  rw [State.thread, h.1]
  rfl

theorem SameRun.post {s t : State} (h : SameRun s t) (a b c d : Nat) : SameRun s (t.post a b c d) := by
  refine h.trans ?_
  unfold State.post
  dsimp only
  split <;> exact ⟨rfl, rfl, rfl, rfl, rfl⟩

theorem SameRun.countErr {s t : State} (h : SameRun s t) (i : Nat) : SameRun s (t.countErr i) := h.trans ⟨rfl, rfl, rfl, rfl, rfl⟩

theorem SameRun.banks {s t : State} (h : SameRun s t) (b : List Bank) : SameRun s { t with banks := b } :=
  h.trans ⟨rfl, rfl, rfl, rfl, rfl⟩

theorem SameRun.latent {s t : State} (h : SameRun s t) (b : List Latent) : SameRun s { t with latent := b } :=
  h.trans ⟨rfl, rfl, rfl, rfl, rfl⟩

theorem SameRun.setStack {s t : State} (h : SameRun s t) (i : Nat) (x : Stack) : SameRun s (t.setStack i x) :=
  h.trans ⟨rfl, rfl, rfl, rfl, rfl⟩

theorem SameRun.modDie {s t : State} (h : SameRun s t) (i : Nat) (f : Die → Die) : SameRun s (t.modDie i f) :=
  h.trans ⟨rfl, rfl, rfl, rfl, rfl⟩

theorem SameRun.setPoison {s t : State} (h : SameRun s t) (l : Nat) : SameRun s (t.setPoison l) := by
  refine h.trans ?_
  unfold State.setPoison
  split <;> exact ⟨rfl, rfl, rfl, rfl, rfl⟩

theorem SameRun.portUse {s t : State} (h : SameRun s t) (k n : Nat) : SameRun s (t.portUse k n) := by
  refine h.trans ?_
  unfold State.portUse
  dsimp only
  split <;> exact ⟨rfl, rfl, rfl, rfl, rfl⟩

theorem SameRun.foldl {α : Type} {s t : State} (h : SameRun s t) (f : State → α → State) (hf : ∀ t x, SameRun s t → SameRun s (f t x))
    (l : List α) : SameRun s (l.foldl f t) := by
  induction l generalizing t with
  | nil => exact h
  | cons x l ih => exact ih (hf _ _ h)

theorem SameRun.symCorrect {s t : State} (h : SameRun s t) (a b c d : Nat) : SameRun s (t.symCorrect a b c d) := by
  unfold State.symCorrect
  have hu := (h.countErr (errSym a b)).post 2 (eventPlace a b).1 (eventPlace a b).2 (a <<< 120 ||| (c % 256) <<< 104 ||| d % 2 ^ 64)
  dsimp only
  generalize (t.countErr (errSym a b)).post 2 (eventPlace a b).1 (eventPlace a b).2
    (a <<< 120 ||| (c % 256) <<< 104 ||| d % 2 ^ 64) = u at hu ⊢
  split
  · exact hu
  · split
    · exact hu.banks _
    · split
      · exact ((hu.banks _).countErr _).post _ _ _ _
      · refine ((hu.trans ?_).countErr _).post _ _ _ _
        exact ⟨rfl, rfl, rfl, rfl, rfl⟩

theorem SameRun.symFix {s t : State} (h : SameRun s t) (a b : Nat) (p : Latent → Bool) : SameRun s (t.symFix a b p) :=
  (h.latent _).foldl _ (fun _ _ h => h.symCorrect _ _ _ _) _

theorem SameRun.llcMeet {s t : State} (h : SameRun s t) (d line : Nat) : SameRun s (t.llcMeet d line).1 := by
  unfold State.llcMeet
  dsimp only
  repeat' split
  · exact h
  · exact h.symFix _ _ _
  · exact (h.latent _).post _ _ _ _

theorem SameRun.setDie {s t : State} (h : SameRun s t) (i : Nat) (x : Die) : SameRun s (t.setDie i x) :=
  h.trans ⟨rfl, rfl, rfl, rfl, rfl⟩

theorem SameRun.llcLeaves {s t : State} (h : SameRun s t) (d : Nat) (v : LlcLine) : SameRun s (t.llcLeaves d v) := by
  unfold State.llcLeaves
  dsimp only
  have h1 := h.setDie d { t.die d with
    llc := (t.die d).llc.filter fun e => !(e.line == v.line && e.home == v.home)
    dirtyHome := if v.home then Tab.del v.line (t.die d).dirtyHome else (t.die d).dirtyHome }
  split <;> split
  · exact h1.portUse _ _
  · exact h1
  · exact (h1.portUse _ _).trans ⟨rfl, rfl, rfl, rfl, rfl⟩
  · exact h1.trans ⟨rfl, rfl, rfl, rfl, rfl⟩

theorem SameRun.llcRoom {s t : State} (h : SameRun s t) (d line : Nat) : SameRun s (t.llcRoom d line).1 := by
  unfold State.llcRoom
  dsimp only
  split
  · exact h
  · split
    · exact h
    · split
      · exact h
      · exact h.llcLeaves _ _

theorem SameRun.llcInsert {s t : State} (h : SameRun s t) (d : Nat) (l : LlcLine) : SameRun s (t.llcInsert d l) := by
  unfold State.llcInsert
  dsimp only
  have h2 := (h.modDie d fun x => { x with llc := x.llc.filter fun e => !(e.line == l.line && e.home == l.home) }).llcRoom d l.line
  split
  · exact h2.modDie _ _
  · exact h2

theorem SameRun.homeTake {s t : State} (h : SameRun s t) (n line : Nat) : SameRun s (t.homeTake n line) := by
  unfold State.homeTake
  split
  · exact h.llcInsert _ _
  · exact h

theorem SameRun.cellLog {s t : State} (h : SameRun s t) (st a b c : Nat) : SameRun s (t.cellLog st a b c) :=
  ((h.setStack _ _).countErr _).post _ _ _ _

theorem SameRun.postPoison {s t : State} (h : SameRun s t) (a b c d : Nat) : SameRun s (t.postPoison a b c d) := h.post _ _ _ _

/-- The errors that a read meets in the memory devices. -/
theorem SameRun.meetLine {s t : State} (h : SameRun s t) (line : Nat) : SameRun s (t.meetLine line) := by
  unfold State.meetLine
  split
  · exact h
  · split
    · refine (h.latent _).foldl _ (fun u l hu => ?_) _
      dsimp only
      split
      · exact hu.cellLog _ _ _ _
      · exact ((hu.cellLog _ _ _ _).setPoison _).postPoison _ _ _ _
    · refine (h.latent _).foldl _ (fun u l hu => ?_) _
      split
      · exact (hu.countErr _).post _ _ _ _
      · exact (hu.setPoison _).postPoison _ _ _ _
    · exact h

/-- A read in the memory devices. -/
theorem SameRun.deviceRead {s t u : State} {line : Nat} (h : SameRun s t) (hu : t.deviceRead line = .ok u) : SameRun s u := by
  unfold State.deviceRead at hu
  dsimp only at hu
  split at hu
  · cases hu
  · split at hu
    · split at hu
      · cases hu
      · cases hu
        exact ((h.trans (u := t.modStack _ _) ⟨rfl, rfl, rfl, rfl, rfl⟩).portUse _ _).meetLine _
    · cases hu; exact h.meetLine _
    · cases hu; exact h

/-- A read of a line at its home. -/
theorem SameRun.homeRead {s t u : State} {line : Nat} (h : SameRun s t) (hu : t.homeRead line = .ok u) : SameRun s u := by
  unfold State.homeRead at hu
  dsimp only at hu
  split at hu
  · split at hu
    · cases hu
      split
      · exact ((h.llcMeet _ _).homeTake _ _).setPoison _
      · exact (h.llcMeet _ _).homeTake _ _
    · cases h1 : t.deviceRead line with
      | error e => rw [h1] at hu; cases hu
      | ok v => rw [h1] at hu; cases hu; exact (h.deviceRead h1).homeTake _ _
  · exact h.deviceRead hu

/-- The reads of a walk. -/
theorem SameRun.walkMeet {s t u : State} {ctx va : Nat} (h : SameRun s t) (hu : t.walkMeet ctx va = .ok u) : SameRun s u := by
  unfold State.walkMeet at hu
  split at hu
  · cases hu; exact h
  · generalize t.walkReads va 4 (t.rootOf ctx) = l at hu
    have key : ∀ (l : List Nat) (a b : State × Bool), SameRun s a.1 →
        (l.foldlM (fun (a : State × Bool) l => if a.2 then .ok a else do
          let s ← a.1.homeRead l
          .ok (s, s.isPoison l)) a : M (State × Bool)) = .ok b → SameRun s b.1 := by
      intro l
      induction l with
      | nil => intro a b ha hb; cases hb; exact ha
      | cons x l ih =>
        intro a b h hb
        rw [List.foldlM_cons] at hb
        cases ha : a.2 with
        | true => rw [ha] at hb; exact ih _ _ h hb
        | false =>
          rw [ha] at hb
          cases h1 : a.1.homeRead x with
          | error e => rw [h1] at hb; cases hb
          | ok v => rw [h1] at hb; exact ih _ _ (h.homeRead h1) hb
    cases h1 : (l.foldlM (fun (a : State × Bool) l => if a.2 then .ok a else do
          let s ← a.1.homeRead l
          .ok (s, s.isPoison l)) (t, false) : M (State × Bool)) with
    | error e => rw [h1] at hu; cases hu
    | ok b => rw [h1] at hu; cases hu; exact key _ _ _ h h1

/-- The reads that finding a handler makes. -/
theorem sameRun_handlerReads {s t : State} {k : Nat} {c : Cause} (h : s.handlerReads k c = .ok t) : SameRun s t := by
  unfold State.handlerReads at h
  dsimp only at h
  split at h
  · cases h; exact .refl s
  · split at h
    · rename_i u hu
      cases h
      split at hu
      · exact (SameRun.refl s).homeRead hu
      · cases h1 : s.walkMeet (s.thrCtx k) ((s.thread k).handlerSlot c.code) with
        | error e => rw [h1] at hu; cases hu
        | ok v =>
          rw [h1] at hu
          simp only [bind, Except.bind] at hu
          split at hu
          · exact ((SameRun.refl s).walkMeet h1).homeRead hu
          · cases hu; exact (SameRun.refl s).walkMeet h1
    · cases h

end Sys2Proof.Machine
end

