-- ==== Sys2Proof/Laws/Memory.lean ====
section
/-! SUPPORT. Home memory: every memory operation keeps the canonical form, and a write is read back and leaves every other byte. -/

namespace Sys2Proof.Machine

open Sys2Proof

/-- The canonical form, as order and non-zero bytes. -/
theorem wf_iff (m : List Host.Cell) : Memory.wf m = true ↔ Tab.Sorted m ∧ ∀ e ∈ m, e.2 ≠ 0#8 := by
  induction m with
  | nil => simp [Memory.wf, Tab.Sorted]
  | cons e r ih =>
    obtain ⟨a, v⟩ := e
    cases r with
    | nil => simp [Memory.wf, Tab.Sorted]
    | cons f r =>
      obtain ⟨b, w⟩ := f
      rw [Memory.wf, Bool.and_eq_true, Bool.and_eq_true, ih]
      constructor
      · rintro ⟨⟨hv, hab⟩, hs, hz⟩
        have hv : v ≠ 0#8 := by simpa using hv
        have hab : a < b := by simpa using hab
        refine ⟨List.pairwise_cons.mpr ⟨fun e he => ?_, hs⟩, ?_⟩
        · rcases List.mem_cons.mp he with rfl | he
          · exact hab
          · have : b < e.1 := (List.pairwise_cons.mp hs).1 e he
            show a < e.1
            omega
        · intro e he
          rcases List.mem_cons.mp he with rfl | he
          · exact hv
          · exact hz e he
      · rintro ⟨hs, hz⟩
        obtain ⟨h1, h2⟩ := List.pairwise_cons.mp hs
        refine ⟨⟨?_, ?_⟩, h2, fun e he => hz e (List.mem_cons_of_mem _ he)⟩
        · simpa using hz (a, v) (by simp)
        · simpa using h1 (b, w) (by simp)

/-- One byte written. -/
theorem wf_memSet {m : List Host.Cell} (h : Memory.wf m = true) (a : Nat) (v : Byte) : Memory.wf (memSet m a v) = true := by
  obtain ⟨hs, hz⟩ := (wf_iff m).mp h
  rw [wf_iff]
  by_cases hv : v = 0#8
  · simp only [memSet, Tab.set, hv, if_true]
    exact ⟨hs.del a, fun e he => hz e (Tab.mem_del he)⟩
  · simp only [memSet, Tab.set, hv, if_false]
    refine ⟨hs.put a v, fun e he => ?_⟩
    rcases Tab.mem_put he with rfl | he
    · exact hv
    · exact hz e he

/-- Bytes written in order. -/
theorem wf_memPut {m : List Host.Cell} (h : Memory.wf m = true) (a : Nat) (l : List Byte) : Memory.wf (memPut m a l) = true := by
  induction l generalizing m a with
  | nil => exact h
  | cons b r ih => exact ih (wf_memSet h a b) (a + 1)

/-- Masked bytes of a line written. -/
theorem wf_putMasked {m : List Host.Cell} (h : Memory.wf m = true) (a : Nat) (d : BitVec 512) (k : BitVec 64) :
    Memory.wf (putMasked m a d k) = true := by
  unfold putMasked
  generalize List.range 64 = l
  induction l generalizing m with
  | nil => exact h
  | cons i r ih =>
    rw [List.foldl_cons]
    apply ih
    split
    · exact wf_memSet h _ _
    · exact h

/-- Bytes forgotten. -/
theorem wf_filter {m : List Host.Cell} (h : Memory.wf m = true) (p : Host.Cell → Bool) : Memory.wf (m.filter p) = true := by
  obtain ⟨hs, hz⟩ := (wf_iff m).mp h
  exact (wf_iff _).mpr ⟨hs.filter p, fun e he => hz e (List.mem_of_mem_filter he)⟩

/-- An entry of a snapshot map written (R130). -/
theorem wf_putMapEntry {m : List Host.Cell} (h : Memory.wf m = true) (b i e f : Nat) : Memory.wf (putMapEntry m b i e f) = true :=
  wf_memPut h _ _

/-- A frame pushed on the stack of free frames. -/
theorem wf_poolPush {m : List Host.Cell} (h : Memory.wf m = true) (p f : Nat) : Memory.wf (poolPush m p f) = true :=
  wf_memPut (wf_memPut h _ _) _ _

/-- A frame popped. -/
theorem wf_poolPop {m m' : List Host.Cell} {p f : Nat} (h : Memory.wf m = true) (e : poolPop m p = some (m', f)) :
    Memory.wf m' = true := by
  unfold poolPop at e
  dsimp only at e
  split at e
  · cases e
  · cases e
    exact wf_memPut h _ _

/-- A page of a domain returned to its snapshot. -/
theorem wf_restorePage {m : List Host.Cell} (h : Memory.wf m = true) (r : SnapRoot) (i : Nat) : Memory.wf (restorePage r m i) = true := by
  unfold restorePage
  dsimp only
  split
  · exact wf_putMapEntry h _ _ _ _
  · exact wf_putMapEntry (wf_poolPush h _ _) _ _ _ _

/-- A byte written is read back. -/
theorem memByte_memSet_self {m : List Host.Cell} (h : Memory.wf m = true) (a : Nat) (v : Byte) : memByte (memSet m a v) a = v := by
  obtain ⟨hs, -⟩ := (wf_iff m).mp h
  by_cases hv : v = 0#8
  · simp [memByte, memSet, Tab.set, hv, Tab.getD, Tab.find_del_self hs]
  · simp [memByte, memSet, Tab.set, hv]

/-- Every other byte reads as before. -/
theorem memByte_memSet_ne {m : List Host.Cell} (h : Memory.wf m = true) {a b : Nat} (hb : b ≠ a) (v : Byte) :
    memByte (memSet m a v) b = memByte m b := by
  obtain ⟨hs, -⟩ := (wf_iff m).mp h
  by_cases hv : v = 0#8
  · simp [memByte, memSet, Tab.set, hv, Tab.getD, Tab.find_del_ne hs hb]
  · simp [memByte, memSet, Tab.set, hv, Tab.getD_put_ne hb]

/-- Bytes outside a written range read as before. -/
theorem memByte_memPut_out {m : List Host.Cell} (h : Memory.wf m = true) (a : Nat) (l : List Byte) {b : Nat}
    (hb : b < a ∨ a + l.length ≤ b) : memByte (memPut m a l) b = memByte m b := by
  induction l generalizing m a with
  | nil => rfl
  | cons v r ih =>
    have hb' : b < a + 1 ∨ a + 1 + r.length ≤ b := by
      simp only [List.length_cons] at hb
      omega
    have hne : b ≠ a := by
      simp only [List.length_cons] at hb
      omega
    rw [memPut, ih (wf_memSet h a v) (a + 1) hb', memByte_memSet_ne h hne]

/-- Bytes of a written range are read back. -/
theorem memByte_memPut_in {m : List Host.Cell} (h : Memory.wf m = true) (a : Nat) (l : List Byte) (i : Nat) (hi : i < l.length) :
    memByte (memPut m a l) (a + i) = l[i] := by
  induction l generalizing m a i with
  | nil => simp at hi
  | cons v r ih =>
    cases i with
    | zero =>
      rw [memPut, memByte_memPut_out (wf_memSet h a v) _ _ (by omega)]
      simp [memByte_memSet_self h]
    | succ i =>
      have hi' : i < r.length := by simpa using hi
      have e : a + (i + 1) = (a + 1) + i := by omega
      rw [memPut, e, ih (wf_memSet h a v) (a + 1) i hi']
      simp

end Sys2Proof.Machine
end

