-- ==== Sys2Proof/Laws/PerInstr.lean ====
section
/-! SUPPORT. The decoder's row reads the encoder's word back, one lemma for each constructor: what the round trip of the words rests on. -/

namespace Sys2Proof.Laws.Enc

open Sys2Proof

/-- The row of the decoder that takes the word of an instruction gives the instruction back, with every field. -/
def Statement (i : Instr) : Prop := ∀ w, encode i = some w → decodeRow w = .ok i

/-! ## Words as fields laid side by side -/

/-- The number of fields (width, value) laid side by side, the lowest first. -/
def cat : List (Nat × Nat) → Nat
  | [] => 0
  | (n, v) :: r => v + 2 ^ n * cat r

/-- Their width. -/
def width : List (Nat × Nat) → Nat
  | [] => 0
  | (n, _) :: r => n + width r

/-- Every value fits its field. -/
def Fits : List (Nat × Nat) → Prop
  | [] => True
  | (n, v) :: r => v < 2 ^ n ∧ Fits r

theorem fits_cons {n v : Nat} {r : List (Nat × Nat)} (h : v < 2 ^ n) (hr : Fits r) : Fits ((n, v) :: r) := ⟨h, hr⟩
theorem fits_nil : Fits [] := trivial

/-- The value of the bits at a place that starts and ends with fields. -/
def fieldAt : List (Nat × Nat) → Nat → Nat → Option Nat
  | [], _, _ => none
  | (n, v) :: r, lo, len =>
    if lo = 0 then
      if len = n then some v else if n < len then (fieldAt r 0 (len - n)).map fun x => v + 2 ^ n * x else none
    else if n ≤ lo then fieldAt r (lo - n) len else none

theorem cat_lt {l : List (Nat × Nat)} (h : Fits l) : cat l < 2 ^ width l := by
  induction l with
  | nil => exact Nat.one_pos
  | cons e r ih =>
    obtain ⟨n, v⟩ := e
    have h1 : v < 2 ^ n := h.1
    have h2 : cat r + 1 ≤ 2 ^ width r := ih h.2
    have h3 : 2 ^ n * (cat r + 1) ≤ 2 ^ n * 2 ^ width r := Nat.mul_le_mul_left _ h2
    simp only [cat, width, Nat.pow_add]
    rw [Nat.mul_add, Nat.mul_one] at h3
    omega

theorem cat_field {l : List (Nat × Nat)} (h : Fits l) : ∀ {lo len v}, fieldAt l lo len = some v → cat l / 2 ^ lo % 2 ^ len = v := by
  induction l with
  | nil => nofun
  | cons e r ih =>
    obtain ⟨n, x⟩ := e
    intro lo len v hv
    have hx : x < 2 ^ n := h.1
    have hp : 0 < 2 ^ n := Nat.pow_pos (by decide)
    simp only [fieldAt] at hv
    simp only [cat]
    split at hv
    · next hlo =>
      subst hlo
      rw [Nat.pow_zero, Nat.div_one]
      split at hv
      · next hn =>
        subst hn
        rw [Nat.add_mul_mod_self_left, Nat.mod_eq_of_lt hx]
        exact Option.some.inj hv
      · split at hv
        · next hlt =>
          cases hf : fieldAt r 0 (len - n) with
          | none => rw [hf] at hv; cases hv
          | some y =>
            rw [hf] at hv
            have hy := ih h.2 hf
            rw [Nat.pow_zero, Nat.div_one] at hy
            have : 2 ^ len = 2 ^ n * 2 ^ (len - n) := by rw [← Nat.pow_add]; congr 1; omega
            rw [this, Nat.mod_mul, Nat.add_mul_mod_self_left, Nat.mod_eq_of_lt hx, Nat.add_mul_div_left _ _ hp, Nat.div_eq_of_lt hx,
              Nat.zero_add, hy]
            exact Option.some.inj hv
        · cases hv
    · split at hv
      · next hn =>
        have : 2 ^ lo = 2 ^ n * 2 ^ (lo - n) := by rw [← Nat.pow_add]; congr 1; omega
        rw [this, ← Nat.div_div_eq_div_mul, Nat.add_mul_div_left _ _ hp, Nat.div_eq_of_lt hx, Nat.zero_add]
        exact ih h.2 hv
      · cases hv

/-- A word consists of these fields. -/
def Has (w : W32) (l : List (Nat × Nat)) : Prop := Fits l ∧ w.toNat = cat l

theorem has {n : Nat} {l : List (Nat × Nat)} (h : Fits l) (hw : width l = 32) (hn : n = cat l) : Has (BitVec.ofNat 32 n) l :=
  ⟨h, by rw [BitVec.toNat_ofNat, hn, Nat.mod_eq_of_lt (hw ▸ cat_lt h)]⟩

/-- The lemma of a word: the fields it lays side by side, and the row that reads them. -/
theorem row_of {i : Instr} {n : Nat} (l : List (Nat × Nat)) (he : encode i = some (BitVec.ofNat 32 n)) (hf : Fits l) (hw : width l = 32)
    (hn : n = cat l) (hr : ∀ w, Has w l → decodeRow w = .ok i) : Statement i := by
  intro w h
  rw [he] at h
  exact Option.some.inj h ▸ hr _ (has hf hw hn)

theorem field_nat {w : W32} {l : List (Nat × Nat)} {lo len v : Nat} (F : Has w l) (h : fieldAt l lo len = some v) :
    (w.extractLsb' lo len).toNat = v := by
  rw [BitVec.extractLsb'_toNat, Nat.shiftRight_eq_div_pow, F.2]; exact cat_field F.1 h

theorem field_eq {w : W32} {l : List (Nat × Nat)} {lo len : Nat} {d : BitVec len} (F : Has w l) (h : fieldAt l lo len = some d.toNat) :
    w.extractLsb' lo len = d := BitVec.eq_of_toNat_eq (field_nat F h)

theorem bit_eq {w : W32} {l : List (Nat × Nat)} {i v : Nat} (F : Has w l) (h : fieldAt l i 1 = some v) : w.getLsbD i = decide (v = 1) := by
  have := cat_field F.1 h
  rw [BitVec.getLsbD, Nat.testBit_eq_decide_div_mod_eq, F.2]
  rw [Nat.pow_one] at this
  rw [this]

/-! ## The rows -/

theorem at_cons {l : List (Nat × Nat)} {r : Nat × Nat × Nat} {rs : List (Nat × Nat × Nat)} (h : fieldAt l r.1 r.2.1 = some r.2.2)
    (hs : ∀ r ∈ rs, fieldAt l r.1 r.2.1 = some r.2.2) : ∀ x ∈ r :: rs, fieldAt l x.1 x.2.1 = some x.2.2 := List.forall_mem_cons.2 ⟨h, hs⟩
theorem at_nil {l : List (Nat × Nat)} : ∀ x ∈ ([] : List (Nat × Nat × Nat)), fieldAt l x.1 x.2.1 = some x.2.2 := nofun

/-- Do the runs (place, width, value) cover the mask, and carry the bits of the match. -/
def runsOk (mask mtch : Nat) (runs : List (Nat × Nat × Nat)) : Bool :=
  (List.range 32).all fun i =>
    if mask.testBit i then runs.any fun r => decide (r.1 ≤ i ∧ i < r.1 + r.2.1) && (r.2.2.testBit (i - r.1) == mtch.testBit i)
    else !mtch.testBit i

/-- A word whose runs hold agrees with the mask and the match. -/
theorem fixed_ok {w : W32} {l : List (Nat × Nat)} {mask mtch : Nat} {i : Instr} (F : Has w l) (runs : List (Nat × Nat × Nat))
    (hr : runsOk mask mtch runs = true) (h : ∀ r ∈ runs, fieldAt l r.1 r.2.1 = some r.2.2) : fixed w mask mtch i = .ok i := by
  unfold fixed
  rw [if_pos]
  apply BitVec.eq_of_getLsbD_eq
  intro k hk
  simp only [runsOk, List.all_eq_true, List.mem_range] at hr
  have hb := hr k hk
  rw [BitVec.getLsbD_and, BitVec.getLsbD_ofNat, BitVec.getLsbD_ofNat]
  simp only [hk, decide_true, Bool.true_and]
  cases hm : mask.testBit k
  · simp only [hm] at hb
    simp only [Bool.and_false]
    simpa using hb.symm
  · simp only [hm, if_true, List.any_eq_true, Bool.and_eq_true, decide_eq_true_eq, beq_iff_eq] at hb
    obtain ⟨r, hmem, ⟨h1, h2⟩, h3⟩ := hb
    have hv := cat_field F.1 (h r hmem)
    rw [← F.2] at hv
    rw [Bool.and_true, ← h3, ← hv]
    rw [Nat.testBit_mod_two_pow, Nat.testBit_div_two_pow]
    have e : k - r.1 + r.1 = k := by omega
    have l : k - r.1 < r.2.1 := by omega
    simp only [e, l, decide_true, Bool.true_and]
    rfl

theorem row_control {w : W32} {l : List (Nat × Nat)} {op : Nat} (F : Has w l) (h : fieldAt l 29 3 = some 0) (ho : fieldAt l 23 6 = some op) :
    decodeRow w = decodeControl w op := by
  unfold decodeRow
  rw [field_nat F h, field_nat F ho]
  rfl

theorem row_load {w : W32} {l : List (Nat × Nat)} {op : Nat} (F : Has w l) (h : fieldAt l 29 3 = some 1) (ho : fieldAt l 23 6 = some op) :
    decodeRow w = decodeLoad w op := by
  unfold decodeRow
  rw [field_nat F h, field_nat F ho]
  rfl

theorem row_store {w : W32} {l : List (Nat × Nat)} {op : Nat} (F : Has w l) (h : fieldAt l 29 3 = some 2) (ho : fieldAt l 23 6 = some op) :
    decodeRow w = decodeStore w op := by
  unfold decodeRow
  rw [field_nat F h, field_nat F ho]
  rfl

theorem row_matrix {w : W32} {l : List (Nat × Nat)} {op : Nat} (F : Has w l) (h : fieldAt l 29 3 = some 3) (ho : fieldAt l 23 6 = some op) :
    decodeRow w = decodeMatrix w op := by
  unfold decodeRow
  rw [field_nat F h, field_nat F ho]
  rfl

theorem row_vector {w : W32} {l : List (Nat × Nat)} {op : Nat} (F : Has w l) (h : fieldAt l 29 3 = some 4) (ho : fieldAt l 23 6 = some op) :
    decodeRow w = decodeVector w op := by
  unfold decodeRow
  rw [field_nat F h, field_nat F ho]
  rfl

theorem row_special {w : W32} {l : List (Nat × Nat)} {op : Nat} (F : Has w l) (h : fieldAt l 29 3 = some 5) (ho : fieldAt l 23 6 = some op) :
    decodeRow w = decodeSpecial w op := by
  unfold decodeRow
  rw [field_nat F h, field_nat F ho]
  rfl

theorem row_system {w : W32} {l : List (Nat × Nat)} {op : Nat} (F : Has w l) (h : fieldAt l 29 3 = some 6) (ho : fieldAt l 23 6 = some op) :
    decodeRow w = decodeSystem w op := by
  unfold decodeRow
  rw [field_nat F h, field_nat F ho]
  rfl

theorem row_prefix {w : W32} {l : List (Nat × Nat)} {op : Nat} (F : Has w l) (h : fieldAt l 29 3 = some 7) (hb : fieldAt l 28 1 = some 0)
    (ho : fieldAt l 23 6 = some op) : decodeRow w = decodePrefixWord w op := by
  unfold decodeRow
  rw [field_nat F h, field_nat F ho, bit_eq F hb]
  rfl

theorem row_exti {w : W32} {l : List (Nat × Nat)} (F : Has w l) (h : fieldAt l 29 3 = some 7) (hb : fieldAt l 28 1 = some 1) :
    decodeRow w = fixed w 0xFF000000 0xF0000000 (.exti (w.extractLsb' 0 24)) := by
  unfold decodeRow
  rw [field_nat F h, bit_eq F hb]
  rfl

theorem two_bits (v : BitVec 2) : v = 0#2 ∨ v = 1#2 ∨ v = 2#2 ∨ v = 3#2 := by revert v; decide

/-! ## The words -/

theorem add (d : BitVec 5) (s : BitVec 5) (l : BitVec 1) (t : BitVec 5) (m : BitVec 1) : Statement (.add d s l t m) :=
  row_of [(6, 0), (1, m.toNat), (5, t.toNat), (1, l.toNat), (5, s.toNat), (5, d.toNat), (6, 0), (3, 0)] rfl
    (fits_cons (by decide) (fits_cons m.isLt (fits_cons t.isLt (fits_cons l.isLt (fits_cons s.isLt (fits_cons d.isLt (fits_cons (by decide)
      (fits_cons (by decide) fits_nil)))))))) rfl (by simp only [cat]; omega) fun w F =>
    ((row_control (op := 0) F rfl rfl).trans (fixed_ok F [(0, 6, 0), (23, 6, 0), (29, 3, 0)] (by decide) (at_cons rfl (at_cons rfl (at_cons
      rfl at_nil))))).trans (by rw [field_eq (d := d) F rfl, field_eq (d := s) F rfl, field_eq (d := l) F rfl, field_eq (d := t) F rfl,
      field_eq (d := m) F rfl])
theorem addi (d : BitVec 5) (s : BitVec 5) (l : BitVec 1) (i : BitVec 12) : Statement (.addi d s l i) :=
  row_of [(12, i.toNat), (1, l.toNat), (5, s.toNat), (5, d.toNat), (6, 1), (3, 0)] rfl
    (fits_cons i.isLt (fits_cons l.isLt (fits_cons s.isLt (fits_cons d.isLt (fits_cons (by decide) (fits_cons (by decide) fits_nil))))))
      rfl (by simp only [cat]; omega) fun w F =>
    ((row_control (op := 1) F rfl rfl).trans (fixed_ok F [(23, 6, 1), (29, 3, 0)] (by decide) (at_cons rfl (at_cons rfl at_nil)))).trans
      (by rw [field_eq (d := d) F rfl, field_eq (d := s) F rfl, field_eq (d := l) F rfl, field_eq (d := i) F rfl])
theorem sub (d : BitVec 5) (s : BitVec 5) (l : BitVec 1) (t : BitVec 5) (m : BitVec 1) : Statement (.sub d s l t m) :=
  row_of [(6, 0), (1, m.toNat), (5, t.toNat), (1, l.toNat), (5, s.toNat), (5, d.toNat), (6, 2), (3, 0)] rfl
    (fits_cons (by decide) (fits_cons m.isLt (fits_cons t.isLt (fits_cons l.isLt (fits_cons s.isLt (fits_cons d.isLt (fits_cons (by decide)
      (fits_cons (by decide) fits_nil)))))))) rfl (by simp only [cat]; omega) fun w F =>
    ((row_control (op := 2) F rfl rfl).trans (fixed_ok F [(0, 6, 0), (23, 6, 2), (29, 3, 0)] (by decide) (at_cons rfl (at_cons rfl (at_cons
      rfl at_nil))))).trans (by rw [field_eq (d := d) F rfl, field_eq (d := s) F rfl, field_eq (d := l) F rfl, field_eq (d := t) F rfl,
      field_eq (d := m) F rfl])
theorem mul (d : BitVec 5) (s : BitVec 5) (l : BitVec 1) (t : BitVec 5) (m : BitVec 1) : Statement (.mul d s l t m) :=
  row_of [(6, 0), (1, m.toNat), (5, t.toNat), (1, l.toNat), (5, s.toNat), (5, d.toNat), (6, 3), (3, 0)] rfl
    (fits_cons (by decide) (fits_cons m.isLt (fits_cons t.isLt (fits_cons l.isLt (fits_cons s.isLt (fits_cons d.isLt (fits_cons (by decide)
      (fits_cons (by decide) fits_nil)))))))) rfl (by simp only [cat]; omega) fun w F =>
    ((row_control (op := 3) F rfl rfl).trans (fixed_ok F [(0, 6, 0), (23, 6, 3), (29, 3, 0)] (by decide) (at_cons rfl (at_cons rfl (at_cons
      rfl at_nil))))).trans (by rw [field_eq (d := d) F rfl, field_eq (d := s) F rfl, field_eq (d := l) F rfl, field_eq (d := t) F rfl,
      field_eq (d := m) F rfl])
theorem mulhs (d : BitVec 5) (s : BitVec 5) (l : BitVec 1) (t : BitVec 5) (m : BitVec 1) : Statement (.mulhs d s l t m) :=
  row_of [(6, 0), (1, m.toNat), (5, t.toNat), (1, l.toNat), (5, s.toNat), (5, d.toNat), (6, 4), (3, 0)] rfl
    (fits_cons (by decide) (fits_cons m.isLt (fits_cons t.isLt (fits_cons l.isLt (fits_cons s.isLt (fits_cons d.isLt (fits_cons (by decide)
      (fits_cons (by decide) fits_nil)))))))) rfl (by simp only [cat]; omega) fun w F =>
    ((row_control (op := 4) F rfl rfl).trans (fixed_ok F [(0, 6, 0), (23, 6, 4), (29, 3, 0)] (by decide) (at_cons rfl (at_cons rfl (at_cons
      rfl at_nil))))).trans (by rw [field_eq (d := d) F rfl, field_eq (d := s) F rfl, field_eq (d := l) F rfl, field_eq (d := t) F rfl,
      field_eq (d := m) F rfl])
theorem mulhu (d : BitVec 5) (s : BitVec 5) (l : BitVec 1) (t : BitVec 5) (m : BitVec 1) : Statement (.mulhu d s l t m) :=
  row_of [(6, 0), (1, m.toNat), (5, t.toNat), (1, l.toNat), (5, s.toNat), (5, d.toNat), (6, 5), (3, 0)] rfl
    (fits_cons (by decide) (fits_cons m.isLt (fits_cons t.isLt (fits_cons l.isLt (fits_cons s.isLt (fits_cons d.isLt (fits_cons (by decide)
      (fits_cons (by decide) fits_nil)))))))) rfl (by simp only [cat]; omega) fun w F =>
    ((row_control (op := 5) F rfl rfl).trans (fixed_ok F [(0, 6, 0), (23, 6, 5), (29, 3, 0)] (by decide) (at_cons rfl (at_cons rfl (at_cons
      rfl at_nil))))).trans (by rw [field_eq (d := d) F rfl, field_eq (d := s) F rfl, field_eq (d := l) F rfl, field_eq (d := t) F rfl,
      field_eq (d := m) F rfl])
theorem divs (d : BitVec 5) (s : BitVec 5) (l : BitVec 1) (t : BitVec 5) (m : BitVec 1) : Statement (.divs d s l t m) :=
  row_of [(6, 0), (1, m.toNat), (5, t.toNat), (1, l.toNat), (5, s.toNat), (5, d.toNat), (6, 6), (3, 0)] rfl
    (fits_cons (by decide) (fits_cons m.isLt (fits_cons t.isLt (fits_cons l.isLt (fits_cons s.isLt (fits_cons d.isLt (fits_cons (by decide)
      (fits_cons (by decide) fits_nil)))))))) rfl (by simp only [cat]; omega) fun w F =>
    ((row_control (op := 6) F rfl rfl).trans (fixed_ok F [(0, 6, 0), (23, 6, 6), (29, 3, 0)] (by decide) (at_cons rfl (at_cons rfl (at_cons
      rfl at_nil))))).trans (by rw [field_eq (d := d) F rfl, field_eq (d := s) F rfl, field_eq (d := l) F rfl, field_eq (d := t) F rfl,
      field_eq (d := m) F rfl])
theorem divu (d : BitVec 5) (s : BitVec 5) (l : BitVec 1) (t : BitVec 5) (m : BitVec 1) : Statement (.divu d s l t m) :=
  row_of [(6, 0), (1, m.toNat), (5, t.toNat), (1, l.toNat), (5, s.toNat), (5, d.toNat), (6, 7), (3, 0)] rfl
    (fits_cons (by decide) (fits_cons m.isLt (fits_cons t.isLt (fits_cons l.isLt (fits_cons s.isLt (fits_cons d.isLt (fits_cons (by decide)
      (fits_cons (by decide) fits_nil)))))))) rfl (by simp only [cat]; omega) fun w F =>
    ((row_control (op := 7) F rfl rfl).trans (fixed_ok F [(0, 6, 0), (23, 6, 7), (29, 3, 0)] (by decide) (at_cons rfl (at_cons rfl (at_cons
      rfl at_nil))))).trans (by rw [field_eq (d := d) F rfl, field_eq (d := s) F rfl, field_eq (d := l) F rfl, field_eq (d := t) F rfl,
      field_eq (d := m) F rfl])
theorem rems (d : BitVec 5) (s : BitVec 5) (l : BitVec 1) (t : BitVec 5) (m : BitVec 1) : Statement (.rems d s l t m) :=
  row_of [(6, 0), (1, m.toNat), (5, t.toNat), (1, l.toNat), (5, s.toNat), (5, d.toNat), (6, 8), (3, 0)] rfl
    (fits_cons (by decide) (fits_cons m.isLt (fits_cons t.isLt (fits_cons l.isLt (fits_cons s.isLt (fits_cons d.isLt (fits_cons (by decide)
      (fits_cons (by decide) fits_nil)))))))) rfl (by simp only [cat]; omega) fun w F =>
    ((row_control (op := 8) F rfl rfl).trans (fixed_ok F [(0, 6, 0), (23, 6, 8), (29, 3, 0)] (by decide) (at_cons rfl (at_cons rfl (at_cons
      rfl at_nil))))).trans (by rw [field_eq (d := d) F rfl, field_eq (d := s) F rfl, field_eq (d := l) F rfl, field_eq (d := t) F rfl,
      field_eq (d := m) F rfl])
theorem remu (d : BitVec 5) (s : BitVec 5) (l : BitVec 1) (t : BitVec 5) (m : BitVec 1) : Statement (.remu d s l t m) :=
  row_of [(6, 0), (1, m.toNat), (5, t.toNat), (1, l.toNat), (5, s.toNat), (5, d.toNat), (6, 9), (3, 0)] rfl
    (fits_cons (by decide) (fits_cons m.isLt (fits_cons t.isLt (fits_cons l.isLt (fits_cons s.isLt (fits_cons d.isLt (fits_cons (by decide)
      (fits_cons (by decide) fits_nil)))))))) rfl (by simp only [cat]; omega) fun w F =>
    ((row_control (op := 9) F rfl rfl).trans (fixed_ok F [(0, 6, 0), (23, 6, 9), (29, 3, 0)] (by decide) (at_cons rfl (at_cons rfl (at_cons
      rfl at_nil))))).trans (by rw [field_eq (d := d) F rfl, field_eq (d := s) F rfl, field_eq (d := l) F rfl, field_eq (d := t) F rfl,
      field_eq (d := m) F rfl])
theorem and (d : BitVec 5) (s : BitVec 5) (l : BitVec 1) (t : BitVec 5) (m : BitVec 1) : Statement (.and d s l t m) :=
  row_of [(6, 0), (1, m.toNat), (5, t.toNat), (1, l.toNat), (5, s.toNat), (5, d.toNat), (6, 10), (3, 0)] rfl
    (fits_cons (by decide) (fits_cons m.isLt (fits_cons t.isLt (fits_cons l.isLt (fits_cons s.isLt (fits_cons d.isLt (fits_cons (by decide)
      (fits_cons (by decide) fits_nil)))))))) rfl (by simp only [cat]; omega) fun w F =>
    ((row_control (op := 10) F rfl rfl).trans (fixed_ok F [(0, 6, 0), (23, 6, 10), (29, 3, 0)] (by decide) (at_cons rfl (at_cons rfl
      (at_cons rfl at_nil))))).trans (by rw [field_eq (d := d) F rfl, field_eq (d := s) F rfl, field_eq (d := l) F rfl, field_eq (d := t) F
      rfl, field_eq (d := m) F rfl])
theorem andi (d : BitVec 5) (s : BitVec 5) (l : BitVec 1) (i : BitVec 12) : Statement (.andi d s l i) :=
  row_of [(12, i.toNat), (1, l.toNat), (5, s.toNat), (5, d.toNat), (6, 11), (3, 0)] rfl
    (fits_cons i.isLt (fits_cons l.isLt (fits_cons s.isLt (fits_cons d.isLt (fits_cons (by decide) (fits_cons (by decide) fits_nil))))))
      rfl (by simp only [cat]; omega) fun w F =>
    ((row_control (op := 11) F rfl rfl).trans (fixed_ok F [(23, 6, 11), (29, 3, 0)] (by decide) (at_cons rfl (at_cons rfl at_nil)))).trans
      (by rw [field_eq (d := d) F rfl, field_eq (d := s) F rfl, field_eq (d := l) F rfl, field_eq (d := i) F rfl])
theorem or (d : BitVec 5) (s : BitVec 5) (l : BitVec 1) (t : BitVec 5) (m : BitVec 1) : Statement (.or d s l t m) :=
  row_of [(6, 0), (1, m.toNat), (5, t.toNat), (1, l.toNat), (5, s.toNat), (5, d.toNat), (6, 12), (3, 0)] rfl
    (fits_cons (by decide) (fits_cons m.isLt (fits_cons t.isLt (fits_cons l.isLt (fits_cons s.isLt (fits_cons d.isLt (fits_cons (by decide)
      (fits_cons (by decide) fits_nil)))))))) rfl (by simp only [cat]; omega) fun w F =>
    ((row_control (op := 12) F rfl rfl).trans (fixed_ok F [(0, 6, 0), (23, 6, 12), (29, 3, 0)] (by decide) (at_cons rfl (at_cons rfl
      (at_cons rfl at_nil))))).trans (by rw [field_eq (d := d) F rfl, field_eq (d := s) F rfl, field_eq (d := l) F rfl, field_eq (d := t) F
      rfl, field_eq (d := m) F rfl])
theorem ori (d : BitVec 5) (s : BitVec 5) (l : BitVec 1) (i : BitVec 12) : Statement (.ori d s l i) :=
  row_of [(12, i.toNat), (1, l.toNat), (5, s.toNat), (5, d.toNat), (6, 13), (3, 0)] rfl
    (fits_cons i.isLt (fits_cons l.isLt (fits_cons s.isLt (fits_cons d.isLt (fits_cons (by decide) (fits_cons (by decide) fits_nil))))))
      rfl (by simp only [cat]; omega) fun w F =>
    ((row_control (op := 13) F rfl rfl).trans (fixed_ok F [(23, 6, 13), (29, 3, 0)] (by decide) (at_cons rfl (at_cons rfl at_nil)))).trans
      (by rw [field_eq (d := d) F rfl, field_eq (d := s) F rfl, field_eq (d := l) F rfl, field_eq (d := i) F rfl])
theorem xor (d : BitVec 5) (s : BitVec 5) (l : BitVec 1) (t : BitVec 5) (m : BitVec 1) : Statement (.xor d s l t m) :=
  row_of [(6, 0), (1, m.toNat), (5, t.toNat), (1, l.toNat), (5, s.toNat), (5, d.toNat), (6, 14), (3, 0)] rfl
    (fits_cons (by decide) (fits_cons m.isLt (fits_cons t.isLt (fits_cons l.isLt (fits_cons s.isLt (fits_cons d.isLt (fits_cons (by decide)
      (fits_cons (by decide) fits_nil)))))))) rfl (by simp only [cat]; omega) fun w F =>
    ((row_control (op := 14) F rfl rfl).trans (fixed_ok F [(0, 6, 0), (23, 6, 14), (29, 3, 0)] (by decide) (at_cons rfl (at_cons rfl
      (at_cons rfl at_nil))))).trans (by rw [field_eq (d := d) F rfl, field_eq (d := s) F rfl, field_eq (d := l) F rfl, field_eq (d := t) F
      rfl, field_eq (d := m) F rfl])
theorem xori (d : BitVec 5) (s : BitVec 5) (l : BitVec 1) (i : BitVec 12) : Statement (.xori d s l i) :=
  row_of [(12, i.toNat), (1, l.toNat), (5, s.toNat), (5, d.toNat), (6, 15), (3, 0)] rfl
    (fits_cons i.isLt (fits_cons l.isLt (fits_cons s.isLt (fits_cons d.isLt (fits_cons (by decide) (fits_cons (by decide) fits_nil))))))
      rfl (by simp only [cat]; omega) fun w F =>
    ((row_control (op := 15) F rfl rfl).trans (fixed_ok F [(23, 6, 15), (29, 3, 0)] (by decide) (at_cons rfl (at_cons rfl at_nil)))).trans
      (by rw [field_eq (d := d) F rfl, field_eq (d := s) F rfl, field_eq (d := l) F rfl, field_eq (d := i) F rfl])
theorem shl (d : BitVec 5) (s : BitVec 5) (l : BitVec 1) (t : BitVec 5) (m : BitVec 1) : Statement (.shl d s l t m) :=
  row_of [(6, 0), (1, m.toNat), (5, t.toNat), (1, l.toNat), (5, s.toNat), (5, d.toNat), (6, 16), (3, 0)] rfl
    (fits_cons (by decide) (fits_cons m.isLt (fits_cons t.isLt (fits_cons l.isLt (fits_cons s.isLt (fits_cons d.isLt (fits_cons (by decide)
      (fits_cons (by decide) fits_nil)))))))) rfl (by simp only [cat]; omega) fun w F =>
    ((row_control (op := 16) F rfl rfl).trans (fixed_ok F [(0, 6, 0), (23, 6, 16), (29, 3, 0)] (by decide) (at_cons rfl (at_cons rfl
      (at_cons rfl at_nil))))).trans (by rw [field_eq (d := d) F rfl, field_eq (d := s) F rfl, field_eq (d := l) F rfl, field_eq (d := t) F
      rfl, field_eq (d := m) F rfl])
theorem shli (d : BitVec 5) (s : BitVec 5) (l : BitVec 1) (i : BitVec 12) : Statement (.shli d s l i) :=
  row_of [(12, i.toNat), (1, l.toNat), (5, s.toNat), (5, d.toNat), (6, 17), (3, 0)] rfl
    (fits_cons i.isLt (fits_cons l.isLt (fits_cons s.isLt (fits_cons d.isLt (fits_cons (by decide) (fits_cons (by decide) fits_nil))))))
      rfl (by simp only [cat]; omega) fun w F =>
    ((row_control (op := 17) F rfl rfl).trans (fixed_ok F [(23, 6, 17), (29, 3, 0)] (by decide) (at_cons rfl (at_cons rfl at_nil)))).trans
      (by rw [field_eq (d := d) F rfl, field_eq (d := s) F rfl, field_eq (d := l) F rfl, field_eq (d := i) F rfl])
theorem shr (d : BitVec 5) (s : BitVec 5) (l : BitVec 1) (t : BitVec 5) (m : BitVec 1) : Statement (.shr d s l t m) :=
  row_of [(6, 0), (1, m.toNat), (5, t.toNat), (1, l.toNat), (5, s.toNat), (5, d.toNat), (6, 18), (3, 0)] rfl
    (fits_cons (by decide) (fits_cons m.isLt (fits_cons t.isLt (fits_cons l.isLt (fits_cons s.isLt (fits_cons d.isLt (fits_cons (by decide)
      (fits_cons (by decide) fits_nil)))))))) rfl (by simp only [cat]; omega) fun w F =>
    ((row_control (op := 18) F rfl rfl).trans (fixed_ok F [(0, 6, 0), (23, 6, 18), (29, 3, 0)] (by decide) (at_cons rfl (at_cons rfl
      (at_cons rfl at_nil))))).trans (by rw [field_eq (d := d) F rfl, field_eq (d := s) F rfl, field_eq (d := l) F rfl, field_eq (d := t) F
      rfl, field_eq (d := m) F rfl])
theorem shri (d : BitVec 5) (s : BitVec 5) (l : BitVec 1) (i : BitVec 12) : Statement (.shri d s l i) :=
  row_of [(12, i.toNat), (1, l.toNat), (5, s.toNat), (5, d.toNat), (6, 19), (3, 0)] rfl
    (fits_cons i.isLt (fits_cons l.isLt (fits_cons s.isLt (fits_cons d.isLt (fits_cons (by decide) (fits_cons (by decide) fits_nil))))))
      rfl (by simp only [cat]; omega) fun w F =>
    ((row_control (op := 19) F rfl rfl).trans (fixed_ok F [(23, 6, 19), (29, 3, 0)] (by decide) (at_cons rfl (at_cons rfl at_nil)))).trans
      (by rw [field_eq (d := d) F rfl, field_eq (d := s) F rfl, field_eq (d := l) F rfl, field_eq (d := i) F rfl])
theorem sar (d : BitVec 5) (s : BitVec 5) (l : BitVec 1) (t : BitVec 5) (m : BitVec 1) : Statement (.sar d s l t m) :=
  row_of [(6, 0), (1, m.toNat), (5, t.toNat), (1, l.toNat), (5, s.toNat), (5, d.toNat), (6, 20), (3, 0)] rfl
    (fits_cons (by decide) (fits_cons m.isLt (fits_cons t.isLt (fits_cons l.isLt (fits_cons s.isLt (fits_cons d.isLt (fits_cons (by decide)
      (fits_cons (by decide) fits_nil)))))))) rfl (by simp only [cat]; omega) fun w F =>
    ((row_control (op := 20) F rfl rfl).trans (fixed_ok F [(0, 6, 0), (23, 6, 20), (29, 3, 0)] (by decide) (at_cons rfl (at_cons rfl
      (at_cons rfl at_nil))))).trans (by rw [field_eq (d := d) F rfl, field_eq (d := s) F rfl, field_eq (d := l) F rfl, field_eq (d := t) F
      rfl, field_eq (d := m) F rfl])
theorem sari (d : BitVec 5) (s : BitVec 5) (l : BitVec 1) (i : BitVec 12) : Statement (.sari d s l i) :=
  row_of [(12, i.toNat), (1, l.toNat), (5, s.toNat), (5, d.toNat), (6, 21), (3, 0)] rfl
    (fits_cons i.isLt (fits_cons l.isLt (fits_cons s.isLt (fits_cons d.isLt (fits_cons (by decide) (fits_cons (by decide) fits_nil))))))
      rfl (by simp only [cat]; omega) fun w F =>
    ((row_control (op := 21) F rfl rfl).trans (fixed_ok F [(23, 6, 21), (29, 3, 0)] (by decide) (at_cons rfl (at_cons rfl at_nil)))).trans
      (by rw [field_eq (d := d) F rfl, field_eq (d := s) F rfl, field_eq (d := l) F rfl, field_eq (d := i) F rfl])
theorem min (d : BitVec 5) (s : BitVec 5) (l : BitVec 1) (t : BitVec 5) (m : BitVec 1) : Statement (.min d s l t m) :=
  row_of [(6, 0), (1, m.toNat), (5, t.toNat), (1, l.toNat), (5, s.toNat), (5, d.toNat), (6, 22), (3, 0)] rfl
    (fits_cons (by decide) (fits_cons m.isLt (fits_cons t.isLt (fits_cons l.isLt (fits_cons s.isLt (fits_cons d.isLt (fits_cons (by decide)
      (fits_cons (by decide) fits_nil)))))))) rfl (by simp only [cat]; omega) fun w F =>
    ((row_control (op := 22) F rfl rfl).trans (fixed_ok F [(0, 6, 0), (23, 6, 22), (29, 3, 0)] (by decide) (at_cons rfl (at_cons rfl
      (at_cons rfl at_nil))))).trans (by rw [field_eq (d := d) F rfl, field_eq (d := s) F rfl, field_eq (d := l) F rfl, field_eq (d := t) F
      rfl, field_eq (d := m) F rfl])
theorem max (d : BitVec 5) (s : BitVec 5) (l : BitVec 1) (t : BitVec 5) (m : BitVec 1) : Statement (.max d s l t m) :=
  row_of [(6, 0), (1, m.toNat), (5, t.toNat), (1, l.toNat), (5, s.toNat), (5, d.toNat), (6, 23), (3, 0)] rfl
    (fits_cons (by decide) (fits_cons m.isLt (fits_cons t.isLt (fits_cons l.isLt (fits_cons s.isLt (fits_cons d.isLt (fits_cons (by decide)
      (fits_cons (by decide) fits_nil)))))))) rfl (by simp only [cat]; omega) fun w F =>
    ((row_control (op := 23) F rfl rfl).trans (fixed_ok F [(0, 6, 0), (23, 6, 23), (29, 3, 0)] (by decide) (at_cons rfl (at_cons rfl
      (at_cons rfl at_nil))))).trans (by rw [field_eq (d := d) F rfl, field_eq (d := s) F rfl, field_eq (d := l) F rfl, field_eq (d := t) F
      rfl, field_eq (d := m) F rfl])
theorem minu (d : BitVec 5) (s : BitVec 5) (l : BitVec 1) (t : BitVec 5) (m : BitVec 1) : Statement (.minu d s l t m) :=
  row_of [(6, 0), (1, m.toNat), (5, t.toNat), (1, l.toNat), (5, s.toNat), (5, d.toNat), (6, 24), (3, 0)] rfl
    (fits_cons (by decide) (fits_cons m.isLt (fits_cons t.isLt (fits_cons l.isLt (fits_cons s.isLt (fits_cons d.isLt (fits_cons (by decide)
      (fits_cons (by decide) fits_nil)))))))) rfl (by simp only [cat]; omega) fun w F =>
    ((row_control (op := 24) F rfl rfl).trans (fixed_ok F [(0, 6, 0), (23, 6, 24), (29, 3, 0)] (by decide) (at_cons rfl (at_cons rfl
      (at_cons rfl at_nil))))).trans (by rw [field_eq (d := d) F rfl, field_eq (d := s) F rfl, field_eq (d := l) F rfl, field_eq (d := t) F
      rfl, field_eq (d := m) F rfl])
theorem maxu (d : BitVec 5) (s : BitVec 5) (l : BitVec 1) (t : BitVec 5) (m : BitVec 1) : Statement (.maxu d s l t m) :=
  row_of [(6, 0), (1, m.toNat), (5, t.toNat), (1, l.toNat), (5, s.toNat), (5, d.toNat), (6, 25), (3, 0)] rfl
    (fits_cons (by decide) (fits_cons m.isLt (fits_cons t.isLt (fits_cons l.isLt (fits_cons s.isLt (fits_cons d.isLt (fits_cons (by decide)
      (fits_cons (by decide) fits_nil)))))))) rfl (by simp only [cat]; omega) fun w F =>
    ((row_control (op := 25) F rfl rfl).trans (fixed_ok F [(0, 6, 0), (23, 6, 25), (29, 3, 0)] (by decide) (at_cons rfl (at_cons rfl
      (at_cons rfl at_nil))))).trans (by rw [field_eq (d := d) F rfl, field_eq (d := s) F rfl, field_eq (d := l) F rfl, field_eq (d := t) F
      rfl, field_eq (d := m) F rfl])
theorem clz (d : BitVec 5) (s : BitVec 5) (l : BitVec 1) : Statement (.clz d s l) :=
  row_of [(12, 0), (1, l.toNat), (5, s.toNat), (5, d.toNat), (6, 26), (3, 0)] rfl
    (fits_cons (by decide) (fits_cons l.isLt (fits_cons s.isLt (fits_cons d.isLt (fits_cons (by decide) (fits_cons (by decide)
      fits_nil)))))) rfl (by simp only [cat]; omega) fun w F =>
    ((row_control (op := 26) F rfl rfl).trans (fixed_ok F [(0, 12, 0), (23, 6, 26), (29, 3, 0)] (by decide) (at_cons rfl (at_cons rfl
      (at_cons rfl at_nil))))).trans (by rw [field_eq (d := d) F rfl, field_eq (d := s) F rfl, field_eq (d := l) F rfl])
theorem ctz (d : BitVec 5) (s : BitVec 5) (l : BitVec 1) : Statement (.ctz d s l) :=
  row_of [(12, 0), (1, l.toNat), (5, s.toNat), (5, d.toNat), (6, 27), (3, 0)] rfl
    (fits_cons (by decide) (fits_cons l.isLt (fits_cons s.isLt (fits_cons d.isLt (fits_cons (by decide) (fits_cons (by decide)
      fits_nil)))))) rfl (by simp only [cat]; omega) fun w F =>
    ((row_control (op := 27) F rfl rfl).trans (fixed_ok F [(0, 12, 0), (23, 6, 27), (29, 3, 0)] (by decide) (at_cons rfl (at_cons rfl
      (at_cons rfl at_nil))))).trans (by rw [field_eq (d := d) F rfl, field_eq (d := s) F rfl, field_eq (d := l) F rfl])
theorem popc (d : BitVec 5) (s : BitVec 5) (l : BitVec 1) : Statement (.popc d s l) :=
  row_of [(12, 0), (1, l.toNat), (5, s.toNat), (5, d.toNat), (6, 28), (3, 0)] rfl
    (fits_cons (by decide) (fits_cons l.isLt (fits_cons s.isLt (fits_cons d.isLt (fits_cons (by decide) (fits_cons (by decide)
      fits_nil)))))) rfl (by simp only [cat]; omega) fun w F =>
    ((row_control (op := 28) F rfl rfl).trans (fixed_ok F [(0, 12, 0), (23, 6, 28), (29, 3, 0)] (by decide) (at_cons rfl (at_cons rfl
      (at_cons rfl at_nil))))).trans (by rw [field_eq (d := d) F rfl, field_eq (d := s) F rfl, field_eq (d := l) F rfl])
theorem ldi (d : BitVec 5) (i : BitVec 18) : Statement (.ldi d i) :=
  row_of [(18, i.toNat), (5, d.toNat), (6, 29), (3, 0)] rfl
    (fits_cons i.isLt (fits_cons d.isLt (fits_cons (by decide) (fits_cons (by decide) fits_nil)))) rfl (by simp only [cat]; omega) fun w F
      =>
    ((row_control (op := 29) F rfl rfl).trans (fixed_ok F [(23, 6, 29), (29, 3, 0)] (by decide) (at_cons rfl (at_cons rfl at_nil)))).trans
      (by rw [field_eq (d := d) F rfl, field_eq (d := i) F rfl])
theorem ldhi (d : BitVec 5) (i : BitVec 18) : Statement (.ldhi d i) :=
  row_of [(18, i.toNat), (5, d.toNat), (6, 30), (3, 0)] rfl
    (fits_cons i.isLt (fits_cons d.isLt (fits_cons (by decide) (fits_cons (by decide) fits_nil)))) rfl (by simp only [cat]; omega) fun w F
      =>
    ((row_control (op := 30) F rfl rfl).trans (fixed_ok F [(23, 6, 30), (29, 3, 0)] (by decide) (at_cons rfl (at_cons rfl at_nil)))).trans
      (by rw [field_eq (d := d) F rfl, field_eq (d := i) F rfl])
theorem sel (d : BitVec 5) (s : BitVec 5) (l : BitVec 1) (t : BitVec 5) (m : BitVec 1) (p : BitVec 3) : Statement (.sel d s l t m p) :=
  row_of [(3, p.toNat), (3, 0), (1, m.toNat), (5, t.toNat), (1, l.toNat), (5, s.toNat), (5, d.toNat), (6, 31), (3, 0)] rfl
    (fits_cons p.isLt (fits_cons (by decide) (fits_cons m.isLt (fits_cons t.isLt (fits_cons l.isLt (fits_cons s.isLt (fits_cons d.isLt
      (fits_cons (by decide) (fits_cons (by decide) fits_nil))))))))) rfl (by simp only [cat]; omega) fun w F =>
    ((row_control (op := 31) F rfl rfl).trans (fixed_ok F [(3, 3, 0), (23, 6, 31), (29, 3, 0)] (by decide) (at_cons rfl (at_cons rfl
      (at_cons rfl at_nil))))).trans (by rw [field_eq (d := d) F rfl, field_eq (d := s) F rfl, field_eq (d := l) F rfl, field_eq (d := t) F
      rfl, field_eq (d := m) F rfl, field_eq (d := p) F rfl])
theorem cmp (p : BitVec 3) (s : BitVec 5) (l : BitVec 1) (t : BitVec 5) (m : BitVec 1) (c : BitVec 4) : Statement (.cmp p s l t m c) :=
  row_of [(4, c.toNat), (2, 0), (1, m.toNat), (5, t.toNat), (1, l.toNat), (5, s.toNat), (3, p.toNat), (2, 0), (6, 32), (3, 0)] rfl
    (fits_cons c.isLt (fits_cons (by decide) (fits_cons m.isLt (fits_cons t.isLt (fits_cons l.isLt (fits_cons s.isLt (fits_cons p.isLt
      (fits_cons (by decide) (fits_cons (by decide) (fits_cons (by decide) fits_nil)))))))))) rfl (by simp only [cat]; omega) fun w F =>
    ((row_control (op := 32) F rfl rfl).trans (fixed_ok F [(4, 2, 0), (21, 2, 0), (23, 6, 32), (29, 3, 0)] (by decide) (at_cons rfl
      (at_cons rfl (at_cons rfl (at_cons rfl at_nil)))))).trans (by rw [field_eq (d := p) F rfl, field_eq (d := s) F rfl, field_eq (d := l)
      F rfl, field_eq (d := t) F rfl, field_eq (d := m) F rfl, field_eq (d := c) F rfl])
theorem cmpi (p : BitVec 3) (c : BitVec 4) (s : BitVec 5) (l : BitVec 1) (i : BitVec 10) : Statement (.cmpi p c s l i) :=
  row_of [(10, i.toNat), (1, l.toNat), (5, s.toNat), (4, c.toNat), (3, p.toNat), (6, 33), (3, 0)] rfl
    (fits_cons i.isLt (fits_cons l.isLt (fits_cons s.isLt (fits_cons c.isLt (fits_cons p.isLt (fits_cons (by decide) (fits_cons (by decide)
      fits_nil))))))) rfl (by simp only [cat]; omega) fun w F =>
    ((row_control (op := 33) F rfl rfl).trans (fixed_ok F [(23, 6, 33), (29, 3, 0)] (by decide) (at_cons rfl (at_cons rfl at_nil)))).trans
      (by rw [field_eq (d := p) F rfl, field_eq (d := c) F rfl, field_eq (d := s) F rfl, field_eq (d := l) F rfl, field_eq (d := i) F rfl])
theorem pset (d : BitVec 3) (s : BitVec 3) (t : BitVec 3) (o : BitVec 3) : Statement (.pset d s t o) :=
  row_of [(3, o.toNat), (4, 0), (3, t.toNat), (3, 0), (3, s.toNat), (2, 0), (3, d.toNat), (2, 0), (6, 34), (3, 0)] rfl
    (fits_cons o.isLt (fits_cons (by decide) (fits_cons t.isLt (fits_cons (by decide) (fits_cons s.isLt (fits_cons (by decide) (fits_cons
      d.isLt (fits_cons (by decide) (fits_cons (by decide) (fits_cons (by decide) fits_nil)))))))))) rfl (by simp only [cat]; omega) fun w
      F =>
    ((row_control (op := 34) F rfl rfl).trans (fixed_ok F [(3, 4, 0), (10, 3, 0), (16, 2, 0), (21, 2, 0), (23, 6, 34), (29, 3, 0)] (by
      decide) (at_cons rfl (at_cons rfl (at_cons rfl (at_cons rfl (at_cons rfl (at_cons rfl at_nil)))))))).trans (by rw [field_eq (d := d)
      F rfl, field_eq (d := s) F rfl, field_eq (d := t) F rfl, field_eq (d := o) F rfl])
theorem br (p : BitVec 3) (n : BitVec 1) (o : BitVec 19) : Statement (.br p n o) :=
  row_of [(19, o.toNat), (1, n.toNat), (3, p.toNat), (6, 35), (3, 0)] rfl
    (fits_cons o.isLt (fits_cons n.isLt (fits_cons p.isLt (fits_cons (by decide) (fits_cons (by decide) fits_nil))))) rfl
      (by simp only [cat]; omega) fun w F =>
    ((row_control (op := 35) F rfl rfl).trans (fixed_ok F [(23, 6, 35), (29, 3, 0)] (by decide) (at_cons rfl (at_cons rfl at_nil)))).trans
      (by rw [field_eq (d := p) F rfl, field_eq (d := n) F rfl, field_eq (d := o) F rfl])
theorem jmp (s : BitVec 5) (l : BitVec 1) : Statement (.jmp s l) :=
  row_of [(12, 0), (1, l.toNat), (5, s.toNat), (5, 0), (6, 36), (3, 0)] rfl
    (fits_cons (by decide) (fits_cons l.isLt (fits_cons s.isLt (fits_cons (by decide) (fits_cons (by decide) (fits_cons (by decide)
      fits_nil)))))) rfl (by simp only [cat]; omega) fun w F =>
    ((row_control (op := 36) F rfl rfl).trans (fixed_ok F [(0, 12, 0), (18, 5, 0), (23, 6, 36), (29, 3, 0)] (by decide) (at_cons rfl
      (at_cons rfl (at_cons rfl (at_cons rfl at_nil)))))).trans (by rw [field_eq (d := s) F rfl, field_eq (d := l) F rfl])
theorem call (d : BitVec 5) (o : BitVec 18) : Statement (.call d o) :=
  row_of [(18, o.toNat), (5, d.toNat), (6, 37), (3, 0)] rfl
    (fits_cons o.isLt (fits_cons d.isLt (fits_cons (by decide) (fits_cons (by decide) fits_nil)))) rfl (by simp only [cat]; omega) fun w F
      =>
    ((row_control (op := 37) F rfl rfl).trans (fixed_ok F [(23, 6, 37), (29, 3, 0)] (by decide) (at_cons rfl (at_cons rfl at_nil)))).trans
      (by rw [field_eq (d := d) F rfl, field_eq (d := o) F rfl])
theorem ret (s : BitVec 5) (l : BitVec 1) : Statement (.ret s l) :=
  row_of [(12, 0), (1, l.toNat), (5, s.toNat), (5, 0), (6, 38), (3, 0)] rfl
    (fits_cons (by decide) (fits_cons l.isLt (fits_cons s.isLt (fits_cons (by decide) (fits_cons (by decide) (fits_cons (by decide)
      fits_nil)))))) rfl (by simp only [cat]; omega) fun w F =>
    ((row_control (op := 38) F rfl rfl).trans (fixed_ok F [(0, 12, 0), (18, 5, 0), (23, 6, 38), (29, 3, 0)] (by decide) (at_cons rfl
      (at_cons rfl (at_cons rfl (at_cons rfl at_nil)))))).trans (by rw [field_eq (d := s) F rfl, field_eq (d := l) F rfl])
theorem dbnz (d : BitVec 5) (o : BitVec 18) : Statement (.dbnz d o) :=
  row_of [(18, o.toNat), (5, d.toNat), (6, 39), (3, 0)] rfl
    (fits_cons o.isLt (fits_cons d.isLt (fits_cons (by decide) (fits_cons (by decide) fits_nil)))) rfl (by simp only [cat]; omega) fun w F
      =>
    ((row_control (op := 39) F rfl rfl).trans (fixed_ok F [(23, 6, 39), (29, 3, 0)] (by decide) (at_cons rfl (at_cons rfl at_nil)))).trans
      (by rw [field_eq (d := d) F rfl, field_eq (d := o) F rfl])
theorem lds (d : BitVec 5) (h : BitVec 4) (z : BitVec 2) (x : BitVec 1) (k : BitVec 1) (o : BitVec 10) : Statement (.lds d h z x k o) :=
  row_of [(10, o.toNat), (1, k.toNat), (1, x.toNat), (2, z.toNat), (4, h.toNat), (5, d.toNat), (6, 40), (3, 0)] rfl
    (fits_cons o.isLt (fits_cons k.isLt (fits_cons x.isLt (fits_cons z.isLt (fits_cons h.isLt (fits_cons d.isLt (fits_cons (by decide)
      (fits_cons (by decide) fits_nil)))))))) rfl (by simp only [cat]; omega) fun w F =>
    ((row_control (op := 40) F rfl rfl).trans (fixed_ok F [(23, 6, 40), (29, 3, 0)] (by decide) (at_cons rfl (at_cons rfl at_nil)))).trans
      (by rw [field_eq (d := d) F rfl, field_eq (d := h) F rfl, field_eq (d := z) F rfl, field_eq (d := x) F rfl, field_eq (d := k) F rfl,
      field_eq (d := o) F rfl])
theorem sts (d : BitVec 5) (h : BitVec 4) (z : BitVec 2) (k : BitVec 1) (o : BitVec 10) : Statement (.sts d h z k o) :=
  row_of [(10, o.toNat), (1, k.toNat), (1, 0), (2, z.toNat), (4, h.toNat), (5, d.toNat), (6, 41), (3, 0)] rfl
    (fits_cons o.isLt (fits_cons k.isLt (fits_cons (by decide) (fits_cons z.isLt (fits_cons h.isLt (fits_cons d.isLt (fits_cons (by decide)
      (fits_cons (by decide) fits_nil)))))))) rfl (by simp only [cat]; omega) fun w F =>
    ((row_control (op := 41) F rfl rfl).trans (fixed_ok F [(11, 1, 0), (23, 6, 41), (29, 3, 0)] (by decide) (at_cons rfl (at_cons rfl
      (at_cons rfl at_nil))))).trans (by rw [field_eq (d := d) F rfl, field_eq (d := h) F rfl, field_eq (d := z) F rfl, field_eq (d := k) F
      rfl, field_eq (d := o) F rfl])
theorem xlate (h : BitVec 4) (s : BitVec 5) (l : BitVec 1) (t : BitVec 5) (r : BitVec 3) : Statement (.xlate h s l t r) :=
  row_of [(3, r.toNat), (4, 0), (5, t.toNat), (1, l.toNat), (5, s.toNat), (4, h.toNat), (1, 0), (6, 42), (3, 0)] rfl
    (fits_cons r.isLt (fits_cons (by decide) (fits_cons t.isLt (fits_cons l.isLt (fits_cons s.isLt (fits_cons h.isLt (fits_cons (by decide)
      (fits_cons (by decide) (fits_cons (by decide) fits_nil))))))))) rfl (by simp only [cat]; omega) fun w F =>
    ((row_control (op := 42) F rfl rfl).trans (fixed_ok F [(3, 4, 0), (22, 1, 0), (23, 6, 42), (29, 3, 0)] (by decide) (at_cons rfl
      (at_cons rfl (at_cons rfl (at_cons rfl at_nil)))))).trans (by rw [field_eq (d := h) F rfl, field_eq (d := s) F rfl, field_eq (d := l)
      F rfl, field_eq (d := t) F rfl, field_eq (d := r) F rfl])
theorem hwait (h : BitVec 4) : Statement (.hwait h) :=
  row_of [(18, 0), (4, h.toNat), (1, 0), (6, 43), (3, 0)] rfl
    (fits_cons (by decide) (fits_cons h.isLt (fits_cons (by decide) (fits_cons (by decide) (fits_cons (by decide) fits_nil))))) rfl
      (by simp only [cat]; omega) fun w F =>
    ((row_control (op := 43) F rfl rfl).trans (fixed_ok F [(0, 18, 0), (22, 1, 0), (23, 6, 43), (29, 3, 0)] (by decide) (at_cons rfl
      (at_cons rfl (at_cons rfl (at_cons rfl at_nil)))))).trans (by rw [field_eq (d := h) F rfl])
theorem hrel (h : BitVec 4) : Statement (.hrel h) :=
  row_of [(18, 0), (4, h.toNat), (1, 0), (6, 44), (3, 0)] rfl
    (fits_cons (by decide) (fits_cons h.isLt (fits_cons (by decide) (fits_cons (by decide) (fits_cons (by decide) fits_nil))))) rfl
      (by simp only [cat]; omega) fun w F =>
    ((row_control (op := 44) F rfl rfl).trans (fixed_ok F [(0, 18, 0), (22, 1, 0), (23, 6, 44), (29, 3, 0)] (by decide) (at_cons rfl
      (at_cons rfl (at_cons rfl (at_cons rfl at_nil)))))).trans (by rw [field_eq (d := h) F rfl])
theorem emit (s : BitVec 5) (l : BitVec 1) : Statement (.emit s l) :=
  row_of [(1, 0), (11, 0), (1, l.toNat), (5, s.toNat), (5, 0), (6, 45), (3, 0)] rfl
    (fits_cons (by decide) (fits_cons (by decide) (fits_cons l.isLt (fits_cons s.isLt (fits_cons (by decide) (fits_cons (by decide)
      (fits_cons (by decide) fits_nil))))))) rfl (by simp only [cat]; omega) fun w F =>
    (((row_control (op := 45) F rfl rfl).trans (if_neg (by rw [bit_eq F rfl]; decide))).trans (fixed_ok F [(0, 1, 0), (1, 11, 0), (18, 5,
      0), (23, 6, 45), (29, 3, 0)] (by decide) (at_cons rfl (at_cons rfl (at_cons rfl (at_cons rfl (at_cons rfl at_nil))))))).trans (by rw
      [field_eq (d := s) F rfl, field_eq (d := l) F rfl])
theorem emitWithPrefix (s : BitVec 5) (l : BitVec 1) (t : BitVec 5) (m : BitVec 1) : Statement (.emitWithPrefix s l t m) :=
  row_of [(1, 1), (5, 0), (1, m.toNat), (5, t.toNat), (1, l.toNat), (5, s.toNat), (5, 0), (6, 45), (3, 0)] rfl
    (fits_cons (by decide) (fits_cons (by decide) (fits_cons m.isLt (fits_cons t.isLt (fits_cons l.isLt (fits_cons s.isLt (fits_cons (by
      decide) (fits_cons (by decide) (fits_cons (by decide) fits_nil))))))))) rfl (by simp only [cat]; omega) fun w F =>
    (((row_control (op := 45) F rfl rfl).trans (if_pos (by rw [bit_eq F rfl]; decide))).trans (fixed_ok F [(0, 1, 1), (1, 5, 0), (18, 5,
      0), (23, 6, 45), (29, 3, 0)] (by decide) (at_cons rfl (at_cons rfl (at_cons rfl (at_cons rfl (at_cons rfl at_nil))))))).trans (by rw
      [field_eq (d := s) F rfl, field_eq (d := l) F rfl, field_eq (d := t) F rfl, field_eq (d := m) F rfl])
theorem waitt (c : BitVec 6) (p : BitVec 4) : Statement (.waitt c p) :=
  row_of [(4, p.toNat), (6, c.toNat), (13, 0), (6, 46), (3, 0)] rfl
    (fits_cons p.isLt (fits_cons c.isLt (fits_cons (by decide) (fits_cons (by decide) (fits_cons (by decide) fits_nil))))) rfl
      (by simp only [cat]; omega) fun w F =>
    ((row_control (op := 46) F rfl rfl).trans (fixed_ok F [(10, 13, 0), (23, 6, 46), (29, 3, 0)] (by decide) (at_cons rfl (at_cons rfl
      (at_cons rfl at_nil))))).trans (by rw [field_eq (d := c) F rfl, field_eq (d := p) F rfl])
theorem sigt (c : BitVec 6) (p : BitVec 4) : Statement (.sigt c p) :=
  row_of [(4, p.toNat), (6, c.toNat), (13, 0), (6, 47), (3, 0)] rfl
    (fits_cons p.isLt (fits_cons c.isLt (fits_cons (by decide) (fits_cons (by decide) (fits_cons (by decide) fits_nil))))) rfl
      (by simp only [cat]; omega) fun w F =>
    ((row_control (op := 47) F rfl rfl).trans (fixed_ok F [(10, 13, 0), (23, 6, 47), (29, 3, 0)] (by decide) (at_cons rfl (at_cons rfl
      (at_cons rfl at_nil))))).trans (by rw [field_eq (d := c) F rfl, field_eq (d := p) F rfl])
theorem tkcnt (d : BitVec 5) (p : BitVec 4) : Statement (.tkcnt d p) :=
  row_of [(4, p.toNat), (14, 0), (5, d.toNat), (6, 48), (3, 0)] rfl
    (fits_cons p.isLt (fits_cons (by decide) (fits_cons d.isLt (fits_cons (by decide) (fits_cons (by decide) fits_nil))))) rfl
      (by simp only [cat]; omega) fun w F =>
    ((row_control (op := 48) F rfl rfl).trans (fixed_ok F [(4, 14, 0), (23, 6, 48), (29, 3, 0)] (by decide) (at_cons rfl (at_cons rfl
      (at_cons rfl at_nil))))).trans (by rw [field_eq (d := d) F rfl, field_eq (d := p) F rfl])
theorem join (d : BitVec 5) (h : BitVec 4) (k : BitVec 1) (o : BitVec 10) : Statement (.join d h k o) :=
  row_of [(10, o.toNat), (1, k.toNat), (3, 0), (4, h.toNat), (5, d.toNat), (6, 49), (3, 0)] rfl
    (fits_cons o.isLt (fits_cons k.isLt (fits_cons (by decide) (fits_cons h.isLt (fits_cons d.isLt (fits_cons (by decide) (fits_cons (by
      decide) fits_nil))))))) rfl (by simp only [cat]; omega) fun w F =>
    ((row_control (op := 49) F rfl rfl).trans (fixed_ok F [(11, 3, 0), (23, 6, 49), (29, 3, 0)] (by decide) (at_cons rfl (at_cons rfl
      (at_cons rfl at_nil))))).trans (by rw [field_eq (d := d) F rfl, field_eq (d := h) F rfl, field_eq (d := k) F rfl, field_eq (d := o) F
      rfl])
theorem leave (h : BitVec 4) (k : BitVec 1) (o : BitVec 10) : Statement (.leave h k o) :=
  row_of [(10, o.toNat), (1, k.toNat), (3, 0), (4, h.toNat), (5, 0), (6, 50), (3, 0)] rfl
    (fits_cons o.isLt (fits_cons k.isLt (fits_cons (by decide) (fits_cons h.isLt (fits_cons (by decide) (fits_cons (by decide) (fits_cons
      (by decide) fits_nil))))))) rfl (by simp only [cat]; omega) fun w F =>
    ((row_control (op := 50) F rfl rfl).trans (fixed_ok F [(11, 3, 0), (18, 5, 0), (23, 6, 50), (29, 3, 0)] (by decide) (at_cons rfl
      (at_cons rfl (at_cons rfl (at_cons rfl at_nil)))))).trans (by rw [field_eq (d := h) F rfl, field_eq (d := k) F rfl, field_eq (d := o)
      F rfl])
theorem gbar (h : BitVec 4) (k : BitVec 1) (o : BitVec 10) : Statement (.gbar h k o) :=
  row_of [(10, o.toNat), (1, k.toNat), (3, 0), (4, h.toNat), (5, 0), (6, 51), (3, 0)] rfl
    (fits_cons o.isLt (fits_cons k.isLt (fits_cons (by decide) (fits_cons h.isLt (fits_cons (by decide) (fits_cons (by decide) (fits_cons
      (by decide) fits_nil))))))) rfl (by simp only [cat]; omega) fun w F =>
    ((row_control (op := 51) F rfl rfl).trans (fixed_ok F [(11, 3, 0), (18, 5, 0), (23, 6, 51), (29, 3, 0)] (by decide) (at_cons rfl
      (at_cons rfl (at_cons rfl (at_cons rfl at_nil)))))).trans (by rw [field_eq (d := h) F rfl, field_eq (d := k) F rfl, field_eq (d := o)
      F rfl])
theorem ginfo (d : BitVec 5) (h : BitVec 4) (k : BitVec 1) (o : BitVec 10) : Statement (.ginfo d h k o) :=
  row_of [(10, o.toNat), (1, k.toNat), (3, 0), (4, h.toNat), (5, d.toNat), (6, 52), (3, 0)] rfl
    (fits_cons o.isLt (fits_cons k.isLt (fits_cons (by decide) (fits_cons h.isLt (fits_cons d.isLt (fits_cons (by decide) (fits_cons (by
      decide) fits_nil))))))) rfl (by simp only [cat]; omega) fun w F =>
    ((row_control (op := 52) F rfl rfl).trans (fixed_ok F [(11, 3, 0), (23, 6, 52), (29, 3, 0)] (by decide) (at_cons rfl (at_cons rfl
      (at_cons rfl at_nil))))).trans (by rw [field_eq (d := d) F rfl, field_eq (d := h) F rfl, field_eq (d := k) F rfl, field_eq (d := o) F
      rfl])
theorem rdcsr (d : BitVec 5) (c : BitVec 12) : Statement (.rdcsr d c) :=
  row_of [(12, c.toNat), (6, 0), (5, d.toNat), (6, 53), (3, 0)] rfl
    (fits_cons c.isLt (fits_cons (by decide) (fits_cons d.isLt (fits_cons (by decide) (fits_cons (by decide) fits_nil))))) rfl
      (by simp only [cat]; omega) fun w F =>
    ((row_control (op := 53) F rfl rfl).trans (fixed_ok F [(12, 6, 0), (23, 6, 53), (29, 3, 0)] (by decide) (at_cons rfl (at_cons rfl
      (at_cons rfl at_nil))))).trans (by rw [field_eq (d := d) F rfl, field_eq (d := c) F rfl])
theorem wrcsr (s : BitVec 5) (l : BitVec 1) (c : BitVec 12) : Statement (.wrcsr s l c) :=
  row_of [(12, c.toNat), (1, l.toNat), (5, s.toNat), (5, 0), (6, 54), (3, 0)] rfl
    (fits_cons c.isLt (fits_cons l.isLt (fits_cons s.isLt (fits_cons (by decide) (fits_cons (by decide) (fits_cons (by decide)
      fits_nil)))))) rfl (by simp only [cat]; omega) fun w F =>
    ((row_control (op := 54) F rfl rfl).trans (fixed_ok F [(18, 5, 0), (23, 6, 54), (29, 3, 0)] (by decide) (at_cons rfl (at_cons rfl
      (at_cons rfl at_nil))))).trans (by rw [field_eq (d := s) F rfl, field_eq (d := l) F rfl, field_eq (d := c) F rfl])
theorem csrs (s : BitVec 5) (l : BitVec 1) (c : BitVec 12) : Statement (.csrs s l c) :=
  row_of [(12, c.toNat), (1, l.toNat), (5, s.toNat), (5, 0), (6, 55), (3, 0)] rfl
    (fits_cons c.isLt (fits_cons l.isLt (fits_cons s.isLt (fits_cons (by decide) (fits_cons (by decide) (fits_cons (by decide)
      fits_nil)))))) rfl (by simp only [cat]; omega) fun w F =>
    ((row_control (op := 55) F rfl rfl).trans (fixed_ok F [(18, 5, 0), (23, 6, 55), (29, 3, 0)] (by decide) (at_cons rfl (at_cons rfl
      (at_cons rfl at_nil))))).trans (by rw [field_eq (d := s) F rfl, field_eq (d := l) F rfl, field_eq (d := c) F rfl])
theorem csrc (s : BitVec 5) (l : BitVec 1) (c : BitVec 12) : Statement (.csrc s l c) :=
  row_of [(12, c.toNat), (1, l.toNat), (5, s.toNat), (5, 0), (6, 56), (3, 0)] rfl
    (fits_cons c.isLt (fits_cons l.isLt (fits_cons s.isLt (fits_cons (by decide) (fits_cons (by decide) (fits_cons (by decide)
      fits_nil)))))) rfl (by simp only [cat]; omega) fun w F =>
    ((row_control (op := 56) F rfl rfl).trans (fixed_ok F [(18, 5, 0), (23, 6, 56), (29, 3, 0)] (by decide) (at_cons rfl (at_cons rfl
      (at_cons rfl at_nil))))).trans (by rw [field_eq (d := s) F rfl, field_eq (d := l) F rfl, field_eq (d := c) F rfl])
theorem trap (s : BitVec 5) (l : BitVec 1) (c : BitVec 7) : Statement (.trap s l c) :=
  row_of [(7, c.toNat), (5, 0), (1, l.toNat), (5, s.toNat), (5, 0), (6, 0), (3, 6)] rfl
    (fits_cons c.isLt (fits_cons (by decide) (fits_cons l.isLt (fits_cons s.isLt (fits_cons (by decide) (fits_cons (by decide) (fits_cons
      (by decide) fits_nil))))))) rfl (by simp only [cat]; omega) fun w F =>
    ((row_system (op := 0) F rfl rfl).trans (fixed_ok F [(7, 5, 0), (18, 5, 0), (23, 6, 0), (29, 3, 6)] (by decide) (at_cons rfl (at_cons
      rfl (at_cons rfl (at_cons rfl at_nil)))))).trans (by rw [field_eq (d := s) F rfl, field_eq (d := l) F rfl, field_eq (d := c) F rfl])
theorem trapret : Statement (.trapret) :=
  row_of [(23, 0), (6, 1), (3, 6)] rfl
    (fits_cons (by decide) (fits_cons (by decide) (fits_cons (by decide) fits_nil))) rfl (by simp only [cat]; omega) fun w F =>
    ((row_system (op := 1) F rfl rfl).trans (fixed_ok F [(0, 23, 0), (23, 6, 1), (29, 3, 6)] (by decide) (at_cons rfl (at_cons rfl (at_cons
      rfl at_nil)))))
theorem install (d : BitVec 5) (s : BitVec 5) (l : BitVec 1) : Statement (.install d s l) :=
  row_of [(12, 0), (1, l.toNat), (5, s.toNat), (5, d.toNat), (6, 2), (3, 6)] rfl
    (fits_cons (by decide) (fits_cons l.isLt (fits_cons s.isLt (fits_cons d.isLt (fits_cons (by decide) (fits_cons (by decide)
      fits_nil)))))) rfl (by simp only [cat]; omega) fun w F =>
    ((row_system (op := 2) F rfl rfl).trans (fixed_ok F [(0, 12, 0), (23, 6, 2), (29, 3, 6)] (by decide) (at_cons rfl (at_cons rfl (at_cons
      rfl at_nil))))).trans (by rw [field_eq (d := d) F rfl, field_eq (d := s) F rfl, field_eq (d := l) F rfl])
theorem phint (i : BitVec 16) : Statement (.phint i) :=
  row_of [(16, i.toNat), (7, 0), (6, 3), (3, 6)] rfl
    (fits_cons i.isLt (fits_cons (by decide) (fits_cons (by decide) (fits_cons (by decide) fits_nil)))) rfl (by simp only [cat]; omega) fun
      w F =>
    ((row_system (op := 3) F rfl rfl).trans (fixed_ok F [(16, 7, 0), (23, 6, 3), (29, 3, 6)] (by decide) (at_cons rfl (at_cons rfl (at_cons
      rfl at_nil))))).trans (by rw [field_eq (d := i) F rfl])
theorem pfence (c : BitVec 1) : Statement (.pfence c) :=
  row_of [(1, c.toNat), (22, 0), (6, 4), (3, 6)] rfl
    (fits_cons c.isLt (fits_cons (by decide) (fits_cons (by decide) (fits_cons (by decide) fits_nil)))) rfl (by simp only [cat]; omega) fun
      w F =>
    ((row_system (op := 4) F rfl rfl).trans (fixed_ok F [(1, 22, 0), (23, 6, 4), (29, 3, 6)] (by decide) (at_cons rfl (at_cons rfl (at_cons
      rfl at_nil))))).trans (by rw [field_eq (d := c) F rfl])
theorem fence (k : BitVec 3) (e : BitVec 2) : Statement (.fence k e) :=
  row_of [(2, e.toNat), (3, k.toNat), (18, 0), (6, 5), (3, 6)] rfl
    (fits_cons e.isLt (fits_cons k.isLt (fits_cons (by decide) (fits_cons (by decide) (fits_cons (by decide) fits_nil))))) rfl
      (by simp only [cat]; omega) fun w F =>
    ((row_system (op := 5) F rfl rfl).trans (fixed_ok F [(5, 18, 0), (23, 6, 5), (29, 3, 6)] (by decide) (at_cons rfl (at_cons rfl (at_cons
      rfl at_nil))))).trans (by rw [field_eq (d := k) F rfl, field_eq (d := e) F rfl])
theorem qsync : Statement (.qsync) :=
  row_of [(23, 0), (6, 6), (3, 6)] rfl
    (fits_cons (by decide) (fits_cons (by decide) (fits_cons (by decide) fits_nil))) rfl (by simp only [cat]; omega) fun w F =>
    ((row_system (op := 6) F rfl rfl).trans (fixed_ok F [(0, 23, 0), (23, 6, 6), (29, 3, 6)] (by decide) (at_cons rfl (at_cons rfl (at_cons
      rfl at_nil)))))
theorem tcommit : Statement (.tcommit) :=
  row_of [(23, 0), (6, 7), (3, 6)] rfl
    (fits_cons (by decide) (fits_cons (by decide) (fits_cons (by decide) fits_nil))) rfl (by simp only [cat]; omega) fun w F =>
    ((row_system (op := 7) F rfl rfl).trans (fixed_ok F [(0, 23, 0), (23, 6, 7), (29, 3, 6)] (by decide) (at_cons rfl (at_cons rfl (at_cons
      rfl at_nil)))))
theorem tend : Statement (.tend) :=
  row_of [(23, 0), (6, 8), (3, 6)] rfl
    (fits_cons (by decide) (fits_cons (by decide) (fits_cons (by decide) fits_nil))) rfl (by simp only [cat]; omega) fun w F =>
    ((row_system (op := 8) F rfl rfl).trans (fixed_ok F [(0, 23, 0), (23, 6, 8), (29, 3, 6)] (by decide) (at_cons rfl (at_cons rfl (at_cons
      rfl at_nil)))))
theorem tabort (c : BitVec 8) : Statement (.tabort c) :=
  row_of [(8, c.toNat), (15, 0), (6, 9), (3, 6)] rfl
    (fits_cons c.isLt (fits_cons (by decide) (fits_cons (by decide) (fits_cons (by decide) fits_nil)))) rfl (by simp only [cat]; omega) fun
      w F =>
    ((row_system (op := 9) F rfl rfl).trans (fixed_ok F [(8, 15, 0), (23, 6, 9), (29, 3, 6)] (by decide) (at_cons rfl (at_cons rfl (at_cons
      rfl at_nil))))).trans (by rw [field_eq (d := c) F rfl])
theorem pswap (d : BitVec 5) (s : BitVec 5) (l : BitVec 1) : Statement (.pswap d s l) :=
  row_of [(12, 0), (1, l.toNat), (5, s.toNat), (5, d.toNat), (6, 10), (3, 6)] rfl
    (fits_cons (by decide) (fits_cons l.isLt (fits_cons s.isLt (fits_cons d.isLt (fits_cons (by decide) (fits_cons (by decide)
      fits_nil)))))) rfl (by simp only [cat]; omega) fun w F =>
    ((row_system (op := 10) F rfl rfl).trans (fixed_ok F [(0, 12, 0), (23, 6, 10), (29, 3, 6)] (by decide) (at_cons rfl (at_cons rfl
      (at_cons rfl at_nil))))).trans (by rw [field_eq (d := d) F rfl, field_eq (d := s) F rfl, field_eq (d := l) F rfl])
theorem kick (d : BitVec 5) (s : BitVec 5) (l : BitVec 1) : Statement (.kick d s l) :=
  row_of [(1, 0), (11, 0), (1, l.toNat), (5, s.toNat), (5, d.toNat), (6, 11), (3, 6)] rfl
    (fits_cons (by decide) (fits_cons (by decide) (fits_cons l.isLt (fits_cons s.isLt (fits_cons d.isLt (fits_cons (by decide) (fits_cons
      (by decide) fits_nil))))))) rfl (by simp only [cat]; omega) fun w F =>
    (((row_system (op := 11) F rfl rfl).trans (if_neg (by rw [bit_eq F rfl]; decide))).trans (fixed_ok F [(0, 1, 0), (1, 11, 0), (23, 6,
      11), (29, 3, 6)] (by decide) (at_cons rfl (at_cons rfl (at_cons rfl (at_cons rfl at_nil)))))).trans (by rw [field_eq (d := d) F rfl,
      field_eq (d := s) F rfl, field_eq (d := l) F rfl])
theorem kickR (d : BitVec 5) (s : BitVec 5) (l : BitVec 1) : Statement (.kickR d s l) :=
  row_of [(1, 1), (11, 0), (1, l.toNat), (5, s.toNat), (5, d.toNat), (6, 11), (3, 6)] rfl
    (fits_cons (by decide) (fits_cons (by decide) (fits_cons l.isLt (fits_cons s.isLt (fits_cons d.isLt (fits_cons (by decide) (fits_cons
      (by decide) fits_nil))))))) rfl (by simp only [cat]; omega) fun w F =>
    (((row_system (op := 11) F rfl rfl).trans (if_pos (by rw [bit_eq F rfl]; decide))).trans (fixed_ok F [(0, 1, 1), (1, 11, 0), (23, 6,
      11), (29, 3, 6)] (by decide) (at_cons rfl (at_cons rfl (at_cons rfl (at_cons rfl at_nil)))))).trans (by rw [field_eq (d := d) F rfl,
      field_eq (d := s) F rfl, field_eq (d := l) F rfl])
theorem nwait (d : BitVec 5) (s : BitVec 5) (l : BitVec 1) (t : BitVec 5) (m : BitVec 1) : Statement (.nwait d s l t m) :=
  row_of [(6, 0), (1, m.toNat), (5, t.toNat), (1, l.toNat), (5, s.toNat), (5, d.toNat), (6, 12), (3, 6)] rfl
    (fits_cons (by decide) (fits_cons m.isLt (fits_cons t.isLt (fits_cons l.isLt (fits_cons s.isLt (fits_cons d.isLt (fits_cons (by decide)
      (fits_cons (by decide) fits_nil)))))))) rfl (by simp only [cat]; omega) fun w F =>
    ((row_system (op := 12) F rfl rfl).trans (fixed_ok F [(0, 6, 0), (23, 6, 12), (29, 3, 6)] (by decide) (at_cons rfl (at_cons rfl
      (at_cons rfl at_nil))))).trans (by rw [field_eq (d := d) F rfl, field_eq (d := s) F rfl, field_eq (d := l) F rfl, field_eq (d := t) F
      rfl, field_eq (d := m) F rfl])
theorem barinit (d : BitVec 5) (h : BitVec 4) (k : BitVec 1) (o : BitVec 10) : Statement (.barinit d h k o) :=
  row_of [(10, o.toNat), (1, k.toNat), (3, 0), (4, h.toNat), (5, d.toNat), (6, 13), (3, 6)] rfl
    (fits_cons o.isLt (fits_cons k.isLt (fits_cons (by decide) (fits_cons h.isLt (fits_cons d.isLt (fits_cons (by decide) (fits_cons (by
      decide) fits_nil))))))) rfl (by simp only [cat]; omega) fun w F =>
    ((row_system (op := 13) F rfl rfl).trans (fixed_ok F [(11, 3, 0), (23, 6, 13), (29, 3, 6)] (by decide) (at_cons rfl (at_cons rfl
      (at_cons rfl at_nil))))).trans (by rw [field_eq (d := d) F rfl, field_eq (d := h) F rfl, field_eq (d := k) F rfl, field_eq (d := o) F
      rfl])
theorem barexp (d : BitVec 5) (h : BitVec 4) (k : BitVec 1) (o : BitVec 10) : Statement (.barexp d h k o) :=
  row_of [(10, o.toNat), (1, k.toNat), (3, 0), (4, h.toNat), (5, d.toNat), (6, 14), (3, 6)] rfl
    (fits_cons o.isLt (fits_cons k.isLt (fits_cons (by decide) (fits_cons h.isLt (fits_cons d.isLt (fits_cons (by decide) (fits_cons (by
      decide) fits_nil))))))) rfl (by simp only [cat]; omega) fun w F =>
    ((row_system (op := 14) F rfl rfl).trans (fixed_ok F [(11, 3, 0), (23, 6, 14), (29, 3, 6)] (by decide) (at_cons rfl (at_cons rfl
      (at_cons rfl at_nil))))).trans (by rw [field_eq (d := d) F rfl, field_eq (d := h) F rfl, field_eq (d := k) F rfl, field_eq (d := o) F
      rfl])
theorem barwait (d : BitVec 5) (h : BitVec 4) (k : BitVec 1) (o : BitVec 10) : Statement (.barwait d h k o) :=
  row_of [(10, o.toNat), (1, k.toNat), (3, 0), (4, h.toNat), (5, d.toNat), (6, 15), (3, 6)] rfl
    (fits_cons o.isLt (fits_cons k.isLt (fits_cons (by decide) (fits_cons h.isLt (fits_cons d.isLt (fits_cons (by decide) (fits_cons (by
      decide) fits_nil))))))) rfl (by simp only [cat]; omega) fun w F =>
    ((row_system (op := 15) F rfl rfl).trans (fixed_ok F [(11, 3, 0), (23, 6, 15), (29, 3, 6)] (by decide) (at_cons rfl (at_cons rfl
      (at_cons rfl at_nil))))).trans (by rw [field_eq (d := d) F rfl, field_eq (d := h) F rfl, field_eq (d := k) F rfl, field_eq (d := o) F
      rfl])
theorem snapc (d : BitVec 5) (h : BitVec 4) (k : BitVec 1) (o : BitVec 10) : Statement (.snapc d h k o) :=
  row_of [(10, o.toNat), (1, k.toNat), (3, 0), (4, h.toNat), (5, d.toNat), (6, 16), (3, 6)] rfl
    (fits_cons o.isLt (fits_cons k.isLt (fits_cons (by decide) (fits_cons h.isLt (fits_cons d.isLt (fits_cons (by decide) (fits_cons (by
      decide) fits_nil))))))) rfl (by simp only [cat]; omega) fun w F =>
    ((row_system (op := 16) F rfl rfl).trans (fixed_ok F [(11, 3, 0), (23, 6, 16), (29, 3, 6)] (by decide) (at_cons rfl (at_cons rfl
      (at_cons rfl at_nil))))).trans (by rw [field_eq (d := d) F rfl, field_eq (d := h) F rfl, field_eq (d := k) F rfl, field_eq (d := o) F
      rfl])
theorem opreq (d : BitVec 5) (i : BitVec 12) : Statement (.opreq d i) :=
  row_of [(12, i.toNat), (6, 0), (5, d.toNat), (6, 17), (3, 6)] rfl
    (fits_cons i.isLt (fits_cons (by decide) (fits_cons d.isLt (fits_cons (by decide) (fits_cons (by decide) fits_nil))))) rfl
      (by simp only [cat]; omega) fun w F =>
    ((row_system (op := 17) F rfl rfl).trans (fixed_ok F [(12, 6, 0), (23, 6, 17), (29, 3, 6)] (by decide) (at_cons rfl (at_cons rfl
      (at_cons rfl at_nil))))).trans (by rw [field_eq (d := d) F rfl, field_eq (d := i) F rfl])
theorem curtq (d : BitVec 5) : Statement (.curtq d) :=
  row_of [(18, 0), (5, d.toNat), (6, 18), (3, 6)] rfl
    (fits_cons (by decide) (fits_cons d.isLt (fits_cons (by decide) (fits_cons (by decide) fits_nil)))) rfl (by simp only [cat]; omega) fun
      w F =>
    ((row_system (op := 18) F rfl rfl).trans (fixed_ok F [(0, 18, 0), (23, 6, 18), (29, 3, 6)] (by decide) (at_cons rfl (at_cons rfl
      (at_cons rfl at_nil))))).trans (by rw [field_eq (d := d) F rfl])
theorem rdtime (d : BitVec 5) : Statement (.rdtime d) :=
  row_of [(18, 0), (5, d.toNat), (6, 19), (3, 6)] rfl
    (fits_cons (by decide) (fits_cons d.isLt (fits_cons (by decide) (fits_cons (by decide) fits_nil)))) rfl (by simp only [cat]; omega) fun
      w F =>
    ((row_system (op := 19) F rfl rfl).trans (fixed_ok F [(0, 18, 0), (23, 6, 19), (29, 3, 6)] (by decide) (at_cons rfl (at_cons rfl
      (at_cons rfl at_nil))))).trans (by rw [field_eq (d := d) F rfl])
theorem rdengy (d : BitVec 5) (i : BitVec 12) : Statement (.rdengy d i) :=
  row_of [(12, i.toNat), (6, 0), (5, d.toNat), (6, 20), (3, 6)] rfl
    (fits_cons i.isLt (fits_cons (by decide) (fits_cons d.isLt (fits_cons (by decide) (fits_cons (by decide) fits_nil))))) rfl
      (by simp only [cat]; omega) fun w F =>
    ((row_system (op := 20) F rfl rfl).trans (fixed_ok F [(12, 6, 0), (23, 6, 20), (29, 3, 6)] (by decide) (at_cons rfl (at_cons rfl
      (at_cons rfl at_nil))))).trans (by rw [field_eq (d := d) F rfl, field_eq (d := i) F rfl])
theorem dhops (d : BitVec 5) (s : BitVec 5) (l : BitVec 1) (t : BitVec 5) (m : BitVec 1) : Statement (.dhops d s l t m) :=
  row_of [(6, 0), (1, m.toNat), (5, t.toNat), (1, l.toNat), (5, s.toNat), (5, d.toNat), (6, 21), (3, 6)] rfl
    (fits_cons (by decide) (fits_cons m.isLt (fits_cons t.isLt (fits_cons l.isLt (fits_cons s.isLt (fits_cons d.isLt (fits_cons (by decide)
      (fits_cons (by decide) fits_nil)))))))) rfl (by simp only [cat]; omega) fun w F =>
    ((row_system (op := 21) F rfl rfl).trans (fixed_ok F [(0, 6, 0), (23, 6, 21), (29, 3, 6)] (by decide) (at_cons rfl (at_cons rfl
      (at_cons rfl at_nil))))).trans (by rw [field_eq (d := d) F rfl, field_eq (d := s) F rfl, field_eq (d := l) F rfl, field_eq (d := t) F
      rfl, field_eq (d := m) F rfl])
theorem vdmap (d : BitVec 5) (s : BitVec 5) (l : BitVec 1) (t : BitVec 5) (m : BitVec 1) : Statement (.vdmap d s l t m) :=
  row_of [(6, 0), (1, m.toNat), (5, t.toNat), (1, l.toNat), (5, s.toNat), (5, d.toNat), (6, 22), (3, 6)] rfl
    (fits_cons (by decide) (fits_cons m.isLt (fits_cons t.isLt (fits_cons l.isLt (fits_cons s.isLt (fits_cons d.isLt (fits_cons (by decide)
      (fits_cons (by decide) fits_nil)))))))) rfl (by simp only [cat]; omega) fun w F =>
    ((row_system (op := 22) F rfl rfl).trans (fixed_ok F [(0, 6, 0), (23, 6, 22), (29, 3, 6)] (by decide) (at_cons rfl (at_cons rfl
      (at_cons rfl at_nil))))).trans (by rw [field_eq (d := d) F rfl, field_eq (d := s) F rfl, field_eq (d := l) F rfl, field_eq (d := t) F
      rfl, field_eq (d := m) F rfl])
theorem coll (d : BitVec 5) (h : BitVec 4) (k : BitVec 1) (o : BitVec 10) : Statement (.coll d h k o) :=
  row_of [(10, o.toNat), (1, k.toNat), (3, 0), (4, h.toNat), (5, d.toNat), (6, 23), (3, 6)] rfl
    (fits_cons o.isLt (fits_cons k.isLt (fits_cons (by decide) (fits_cons h.isLt (fits_cons d.isLt (fits_cons (by decide) (fits_cons (by
      decide) fits_nil))))))) rfl (by simp only [cat]; omega) fun w F =>
    ((row_system (op := 23) F rfl rfl).trans (fixed_ok F [(11, 3, 0), (23, 6, 23), (29, 3, 6)] (by decide) (at_cons rfl (at_cons rfl
      (at_cons rfl at_nil))))).trans (by rw [field_eq (d := d) F rfl, field_eq (d := h) F rfl, field_eq (d := k) F rfl, field_eq (d := o) F
      rfl])
theorem idle (i : BitVec 12) : Statement (.idle i) :=
  row_of [(12, i.toNat), (11, 0), (6, 24), (3, 6)] rfl
    (fits_cons i.isLt (fits_cons (by decide) (fits_cons (by decide) (fits_cons (by decide) fits_nil)))) rfl (by simp only [cat]; omega) fun
      w F =>
    ((row_system (op := 24) F rfl rfl).trans (fixed_ok F [(12, 11, 0), (23, 6, 24), (29, 3, 6)] (by decide) (at_cons rfl (at_cons rfl
      (at_cons rfl at_nil))))).trans (by rw [field_eq (d := i) F rfl])
theorem ecall (s : BitVec 5) (l : BitVec 1) (c : BitVec 7) : Statement (.ecall s l c) :=
  row_of [(7, c.toNat), (5, 0), (1, l.toNat), (5, s.toNat), (5, 0), (6, 25), (3, 6)] rfl
    (fits_cons c.isLt (fits_cons (by decide) (fits_cons l.isLt (fits_cons s.isLt (fits_cons (by decide) (fits_cons (by decide) (fits_cons
      (by decide) fits_nil))))))) rfl (by simp only [cat]; omega) fun w F =>
    ((row_system (op := 25) F rfl rfl).trans (fixed_ok F [(7, 5, 0), (18, 5, 0), (23, 6, 25), (29, 3, 6)] (by decide) (at_cons rfl (at_cons
      rfl (at_cons rfl (at_cons rfl at_nil)))))).trans (by rw [field_eq (d := s) F rfl, field_eq (d := l) F rfl, field_eq (d := c) F rfl])
theorem rep (n : BitVec 6) (d : BitVec 1) (s : BitVec 1) (t : BitVec 1) : Statement (.rep n d s t) :=
  row_of [(14, 0), (1, t.toNat), (1, s.toNat), (1, d.toNat), (6, n.toNat), (5, 0), (1, 0), (3, 7)] rfl
    (fits_cons (by decide) (fits_cons t.isLt (fits_cons s.isLt (fits_cons d.isLt (fits_cons n.isLt (fits_cons (by decide) (fits_cons (by
      decide) (fits_cons (by decide) fits_nil)))))))) rfl (by simp only [cat]; omega) fun w F =>
    ((row_prefix (op := 0) F rfl rfl rfl).trans (fixed_ok F [(0, 14, 0), (23, 5, 0), (28, 1, 0), (29, 3, 7)] (by decide) (at_cons rfl
      (at_cons rfl (at_cons rfl (at_cons rfl at_nil)))))).trans (by rw [field_eq (d := n) F rfl, field_eq (d := d) F rfl, field_eq (d := s)
      F rfl, field_eq (d := t) F rfl])
theorem pred (p : BitVec 3) (v : BitVec 1) : Statement (.pred p v) :=
  row_of [(19, 0), (1, v.toNat), (3, p.toNat), (5, 1), (1, 0), (3, 7)] rfl
    (fits_cons (by decide) (fits_cons v.isLt (fits_cons p.isLt (fits_cons (by decide) (fits_cons (by decide) (fits_cons (by decide)
      fits_nil)))))) rfl (by simp only [cat]; omega) fun w F =>
    ((row_prefix (op := 1) F rfl rfl rfl).trans (fixed_ok F [(0, 19, 0), (23, 5, 1), (28, 1, 0), (29, 3, 7)] (by decide) (at_cons rfl
      (at_cons rfl (at_cons rfl (at_cons rfl at_nil)))))).trans (by rw [field_eq (d := p) F rfl, field_eq (d := v) F rfl])
theorem exti (i : BitVec 24) : Statement (.exti i) :=
  row_of [(24, i.toNat), (4, 0), (1, 1), (3, 7)] rfl
    (fits_cons i.isLt (fits_cons (by decide) (fits_cons (by decide) (fits_cons (by decide) fits_nil)))) rfl (by simp only [cat]; omega) fun
      w F =>
    ((row_exti F rfl rfl).trans (fixed_ok F [(24, 4, 0), (28, 1, 1), (29, 3, 7)] (by decide) (at_cons rfl (at_cons rfl (at_cons rfl
      at_nil))))).trans (by rw [field_eq (d := i) F rfl])
theorem ld (ww : BitVec 2) (e : BitVec 2) (h : BitVec 4) (x : BitVec 3) (y : BitVec 1) (t : BitVec 4) (k : BitVec 1) (z : BitVec 3) (i :
    BitVec 1) : Statement (.ld ww e h x y t k z i) :=
  row_of [(1, i.toNat), (2, 0), (3, z.toNat), (1, k.toNat), (4, t.toNat), (1, y.toNat), (3, x.toNat), (4, h.toNat), (2, e.toNat), (2,
    ww.toNat), (6, 0), (3, 1)] rfl
    (fits_cons i.isLt (fits_cons (by decide) (fits_cons z.isLt (fits_cons k.isLt (fits_cons t.isLt (fits_cons y.isLt (fits_cons x.isLt
      (fits_cons h.isLt (fits_cons e.isLt (fits_cons ww.isLt (fits_cons (by decide) (fits_cons (by decide) fits_nil)))))))))))) rfl
      (by simp only [cat]; omega) fun w F =>
    ((row_load (op := 0) F rfl rfl).trans (fixed_ok F [(1, 2, 0), (23, 6, 0), (29, 3, 1)] (by decide) (at_cons rfl (at_cons rfl (at_cons
      rfl at_nil))))).trans (by rw [field_eq (d := ww) F rfl, field_eq (d := e) F rfl, field_eq (d := h) F rfl, field_eq (d := x) F rfl,
      field_eq (d := y) F rfl, field_eq (d := t) F rfl, field_eq (d := k) F rfl, field_eq (d := z) F rfl, field_eq (d := i) F rfl])
theorem ldx (ww : BitVec 2) (e : BitVec 2) (h : BitVec 4) (x : BitVec 3) (y : BitVec 1) (t : BitVec 4) (q : BitVec 4) (c : BitVec 3) :
    Statement (.ldx ww e h x y t q c) :=
  row_of [(3, c.toNat), (4, q.toNat), (4, t.toNat), (1, y.toNat), (3, x.toNat), (4, h.toNat), (2, e.toNat), (2, ww.toNat), (6, 1), (3, 1)]
    rfl
    (fits_cons c.isLt (fits_cons q.isLt (fits_cons t.isLt (fits_cons y.isLt (fits_cons x.isLt (fits_cons h.isLt (fits_cons e.isLt
      (fits_cons ww.isLt (fits_cons (by decide) (fits_cons (by decide) fits_nil)))))))))) rfl (by simp only [cat]; omega) fun w F =>
    ((row_load (op := 1) F rfl rfl).trans (fixed_ok F [(23, 6, 1), (29, 3, 1)] (by decide) (at_cons rfl (at_cons rfl at_nil)))).trans (by
      rw [field_eq (d := ww) F rfl, field_eq (d := e) F rfl, field_eq (d := h) F rfl, field_eq (d := x) F rfl, field_eq (d := y) F rfl,
      field_eq (d := t) F rfl, field_eq (d := q) F rfl, field_eq (d := c) F rfl])
theorem ldsc (ww : BitVec 2) (e : BitVec 2) (h : BitVec 4) (x : BitVec 3) (y : BitVec 1) (t : BitVec 3) (z : BitVec 3) (m : BitVec 3) :
    Statement (.ldsc ww e h x y t z m) :=
  row_of [(3, m.toNat), (3, z.toNat), (1, 1), (3, t.toNat), (1, 0), (1, y.toNat), (3, x.toNat), (4, h.toNat), (2, e.toNat), (2, ww.toNat),
    (6, 2), (3, 1)] rfl
    (fits_cons m.isLt (fits_cons z.isLt (fits_cons (by decide) (fits_cons t.isLt (fits_cons (by decide) (fits_cons y.isLt (fits_cons x.isLt
      (fits_cons h.isLt (fits_cons e.isLt (fits_cons ww.isLt (fits_cons (by decide) (fits_cons (by decide) fits_nil)))))))))))) rfl
      (by simp only [cat]; omega) fun w F =>
    ((row_load (op := 2) F rfl rfl).trans (fixed_ok F [(6, 1, 1), (10, 1, 0), (23, 6, 2), (29, 3, 1)] (by decide) (at_cons rfl (at_cons rfl
      (at_cons rfl (at_cons rfl at_nil)))))).trans (by rw [field_eq (d := ww) F rfl, field_eq (d := e) F rfl, field_eq (d := h) F rfl,
      field_eq (d := x) F rfl, field_eq (d := y) F rfl, field_eq (d := t) F rfl, field_eq (d := z) F rfl, field_eq (d := m) F rfl])
theorem ldbd (ww : BitVec 2) (e : BitVec 2) (h : BitVec 4) (x : BitVec 3) (y : BitVec 1) (t : BitVec 4) : Statement (.ldbd ww e h x y t) :=
  row_of [(7, 0), (4, t.toNat), (1, y.toNat), (3, x.toNat), (4, h.toNat), (2, e.toNat), (2, ww.toNat), (6, 3), (3, 1)] rfl
    (fits_cons (by decide) (fits_cons t.isLt (fits_cons y.isLt (fits_cons x.isLt (fits_cons h.isLt (fits_cons e.isLt (fits_cons ww.isLt
      (fits_cons (by decide) (fits_cons (by decide) fits_nil))))))))) rfl (by simp only [cat]; omega) fun w F =>
    ((row_load (op := 3) F rfl rfl).trans (fixed_ok F [(0, 7, 0), (23, 6, 3), (29, 3, 1)] (by decide) (at_cons rfl (at_cons rfl (at_cons
      rfl at_nil))))).trans (by rw [field_eq (d := ww) F rfl, field_eq (d := e) F rfl, field_eq (d := h) F rfl, field_eq (d := x) F rfl,
      field_eq (d := y) F rfl, field_eq (d := t) F rfl])
theorem lsub (ww : BitVec 2) (e : BitVec 2) (h : BitVec 4) (x : BitVec 3) (y : BitVec 1) (t : BitVec 4) : Statement (.lsub ww e h x y t) :=
  row_of [(7, 0), (4, t.toNat), (1, y.toNat), (3, x.toNat), (4, h.toNat), (2, e.toNat), (2, ww.toNat), (6, 4), (3, 1)] rfl
    (fits_cons (by decide) (fits_cons t.isLt (fits_cons y.isLt (fits_cons x.isLt (fits_cons h.isLt (fits_cons e.isLt (fits_cons ww.isLt
      (fits_cons (by decide) (fits_cons (by decide) fits_nil))))))))) rfl (by simp only [cat]; omega) fun w F =>
    ((row_load (op := 4) F rfl rfl).trans (fixed_ok F [(0, 7, 0), (23, 6, 4), (29, 3, 1)] (by decide) (at_cons rfl (at_cons rfl (at_cons
      rfl at_nil))))).trans (by rw [field_eq (d := ww) F rfl, field_eq (d := e) F rfl, field_eq (d := h) F rfl, field_eq (d := x) F rfl,
      field_eq (d := y) F rfl, field_eq (d := t) F rfl])
theorem lunsub (ww : BitVec 2) (e : BitVec 2) (d : BitVec 4) : Statement (.lunsub ww e d) :=
  row_of [(15, 0), (4, d.toNat), (2, e.toNat), (2, ww.toNat), (6, 5), (3, 1)] rfl
    (fits_cons (by decide) (fits_cons d.isLt (fits_cons e.isLt (fits_cons ww.isLt (fits_cons (by decide) (fits_cons (by decide)
      fits_nil)))))) rfl (by simp only [cat]; omega) fun w F =>
    ((row_load (op := 5) F rfl rfl).trans (fixed_ok F [(0, 15, 0), (23, 6, 5), (29, 3, 1)] (by decide) (at_cons rfl (at_cons rfl (at_cons
      rfl at_nil))))).trans (by rw [field_eq (d := ww) F rfl, field_eq (d := e) F rfl, field_eq (d := d) F rfl])
theorem qbind (ww : BitVec 2) (e : BitVec 2) (d : BitVec 4) (s : BitVec 3) (l : BitVec 1) (z : BitVec 2) : Statement (.qbind ww e d s l z)
    :=
  row_of [(2, z.toNat), (8, 0), (1, l.toNat), (3, s.toNat), (1, 0), (4, d.toNat), (2, e.toNat), (2, ww.toNat), (6, 6), (3, 1)] rfl
    (fits_cons z.isLt (fits_cons (by decide) (fits_cons l.isLt (fits_cons s.isLt (fits_cons (by decide) (fits_cons d.isLt (fits_cons e.isLt
      (fits_cons ww.isLt (fits_cons (by decide) (fits_cons (by decide) fits_nil)))))))))) rfl (by simp only [cat]; omega) fun w F =>
    ((row_load (op := 6) F rfl rfl).trans (fixed_ok F [(2, 8, 0), (14, 1, 0), (23, 6, 6), (29, 3, 1)] (by decide) (at_cons rfl (at_cons rfl
      (at_cons rfl (at_cons rfl at_nil)))))).trans (by rw [field_eq (d := ww) F rfl, field_eq (d := e) F rfl, field_eq (d := d) F rfl,
      field_eq (d := s) F rfl, field_eq (d := l) F rfl, field_eq (d := z) F rfl])
theorem qfree (ww : BitVec 2) (e : BitVec 2) (d : BitVec 4) : Statement (.qfree ww e d) :=
  row_of [(15, 0), (4, d.toNat), (2, e.toNat), (2, ww.toNat), (6, 7), (3, 1)] rfl
    (fits_cons (by decide) (fits_cons d.isLt (fits_cons e.isLt (fits_cons ww.isLt (fits_cons (by decide) (fits_cons (by decide)
      fits_nil)))))) rfl (by simp only [cat]; omega) fun w F =>
    ((row_load (op := 7) F rfl rfl).trans (fixed_ok F [(0, 15, 0), (23, 6, 7), (29, 3, 1)] (by decide) (at_cons rfl (at_cons rfl (at_cons
      rfl at_nil))))).trans (by rw [field_eq (d := ww) F rfl, field_eq (d := e) F rfl, field_eq (d := d) F rfl])
theorem splk (ww : BitVec 2) (e : BitVec 2) (h : BitVec 4) (x : BitVec 3) (y : BitVec 1) (t : BitVec 3) (z : BitVec 3) (n : BitVec 1) (i :
    BitVec 1) : Statement (.splk ww e h x y t z n i) :=
  row_of [(1, i.toNat), (1, n.toNat), (1, 0), (3, z.toNat), (1, 1), (3, t.toNat), (1, 0), (1, y.toNat), (3, x.toNat), (4, h.toNat), (2,
    e.toNat), (2, ww.toNat), (6, 8), (3, 1)] rfl
    (fits_cons i.isLt (fits_cons n.isLt (fits_cons (by decide) (fits_cons z.isLt (fits_cons (by decide) (fits_cons t.isLt (fits_cons (by
      decide) (fits_cons y.isLt (fits_cons x.isLt (fits_cons h.isLt (fits_cons e.isLt (fits_cons ww.isLt (fits_cons (by decide) (fits_cons
      (by decide) fits_nil)))))))))))))) rfl (by simp only [cat]; omega) fun w F =>
    ((row_load (op := 8) F rfl rfl).trans (fixed_ok F [(2, 1, 0), (6, 1, 1), (10, 1, 0), (23, 6, 8), (29, 3, 1)] (by decide) (at_cons rfl
      (at_cons rfl (at_cons rfl (at_cons rfl (at_cons rfl at_nil))))))).trans (by rw [field_eq (d := ww) F rfl, field_eq (d := e) F rfl,
      field_eq (d := h) F rfl, field_eq (d := x) F rfl, field_eq (d := y) F rfl, field_eq (d := t) F rfl, field_eq (d := z) F rfl, field_eq
      (d := n) F rfl, field_eq (d := i) F rfl])
theorem pfetch (ww : BitVec 2) (e : BitVec 2) (h : BitVec 4) (x : BitVec 3) (y : BitVec 1) (z : BitVec 3) (m : BitVec 1) : Statement
    (.pfetch ww e h x y z m) :=
  row_of [(1, m.toNat), (2, 0), (3, z.toNat), (5, 0), (1, y.toNat), (3, x.toNat), (4, h.toNat), (2, e.toNat), (2, ww.toNat), (6, 9), (3,
    1)] rfl
    (fits_cons m.isLt (fits_cons (by decide) (fits_cons z.isLt (fits_cons (by decide) (fits_cons y.isLt (fits_cons x.isLt (fits_cons h.isLt
      (fits_cons e.isLt (fits_cons ww.isLt (fits_cons (by decide) (fits_cons (by decide) fits_nil))))))))))) rfl
      (by simp only [cat]; omega) fun w F =>
    ((row_load (op := 9) F rfl rfl).trans (fixed_ok F [(1, 2, 0), (6, 5, 0), (23, 6, 9), (29, 3, 1)] (by decide) (at_cons rfl (at_cons rfl
      (at_cons rfl (at_cons rfl at_nil)))))).trans (by rw [field_eq (d := ww) F rfl, field_eq (d := e) F rfl, field_eq (d := h) F rfl,
      field_eq (d := x) F rfl, field_eq (d := y) F rfl, field_eq (d := z) F rfl, field_eq (d := m) F rfl])
theorem xlatl (ww : BitVec 2) (e : BitVec 2) (h : BitVec 4) (s : BitVec 3) (l : BitVec 1) (t : BitVec 3) (r : BitVec 3) : Statement (.xlatl
    ww e h s l t r) :=
  row_of [(3, r.toNat), (3, 0), (3, t.toNat), (1, 0), (1, l.toNat), (3, s.toNat), (1, 0), (4, h.toNat), (2, e.toNat), (2, ww.toNat), (6,
    10), (3, 1)] rfl
    (fits_cons r.isLt (fits_cons (by decide) (fits_cons t.isLt (fits_cons (by decide) (fits_cons l.isLt (fits_cons s.isLt (fits_cons (by
      decide) (fits_cons h.isLt (fits_cons e.isLt (fits_cons ww.isLt (fits_cons (by decide) (fits_cons (by decide) fits_nil)))))))))))) rfl
      (by simp only [cat]; omega) fun w F =>
    ((row_load (op := 10) F rfl rfl).trans (fixed_ok F [(3, 3, 0), (9, 1, 0), (14, 1, 0), (23, 6, 10), (29, 3, 1)] (by decide) (at_cons rfl
      (at_cons rfl (at_cons rfl (at_cons rfl (at_cons rfl at_nil))))))).trans (by rw [field_eq (d := ww) F rfl, field_eq (d := e) F rfl,
      field_eq (d := h) F rfl, field_eq (d := s) F rfl, field_eq (d := l) F rfl, field_eq (d := t) F rfl, field_eq (d := r) F rfl])
theorem lmark (ww : BitVec 2) (e : BitVec 2) (d : BitVec 4) (s : BitVec 3) (l : BitVec 1) (i : BitVec 10) : Statement (.lmark ww e d s l i)
    :=
  row_of [(10, i.toNat), (1, l.toNat), (3, s.toNat), (1, 0), (4, d.toNat), (2, e.toNat), (2, ww.toNat), (6, 11), (3, 1)] rfl
    (fits_cons i.isLt (fits_cons l.isLt (fits_cons s.isLt (fits_cons (by decide) (fits_cons d.isLt (fits_cons e.isLt (fits_cons ww.isLt
      (fits_cons (by decide) (fits_cons (by decide) fits_nil))))))))) rfl (by simp only [cat]; omega) fun w F =>
    ((row_load (op := 11) F rfl rfl).trans (fixed_ok F [(14, 1, 0), (23, 6, 11), (29, 3, 1)] (by decide) (at_cons rfl (at_cons rfl (at_cons
      rfl at_nil))))).trans (by rw [field_eq (d := ww) F rfl, field_eq (d := e) F rfl, field_eq (d := d) F rfl, field_eq (d := s) F rfl,
      field_eq (d := l) F rfl, field_eq (d := i) F rfl])
theorem lloop (n : BitVec 6) (c : BitVec 2) (i : BitVec 11) : Statement (.lloop n c i) :=
  row_of [(11, i.toNat), (2, c.toNat), (6, n.toNat), (4, 0), (6, 12), (3, 1)] rfl
    (fits_cons i.isLt (fits_cons c.isLt (fits_cons n.isLt (fits_cons (by decide) (fits_cons (by decide) (fits_cons (by decide)
      fits_nil)))))) rfl (by simp only [cat]; omega) fun w F =>
    ((row_load (op := 12) F rfl rfl).trans (fixed_ok F [(19, 4, 0), (23, 6, 12), (29, 3, 1)] (by decide) (at_cons rfl (at_cons rfl (at_cons
      rfl at_nil))))).trans (by rw [field_eq (d := n) F rfl, field_eq (d := c) F rfl, field_eq (d := i) F rfl])
theorem xmov (ww : BitVec 2) (e : BitVec 2) (d : BitVec 3) (s : BitVec 3) (l : BitVec 1) (m : BitVec 1) : Statement (.xmov ww e d s l m) :=
  row_of [(1, m.toNat), (9, 0), (1, l.toNat), (3, s.toNat), (1, 0), (3, d.toNat), (1, 0), (2, e.toNat), (2, ww.toNat), (6, 13), (3, 1)] rfl
    (fits_cons m.isLt (fits_cons (by decide) (fits_cons l.isLt (fits_cons s.isLt (fits_cons (by decide) (fits_cons d.isLt (fits_cons (by
      decide) (fits_cons e.isLt (fits_cons ww.isLt (fits_cons (by decide) (fits_cons (by decide) fits_nil))))))))))) rfl
      (by simp only [cat]; omega) fun w F =>
    ((row_load (op := 13) F rfl rfl).trans (fixed_ok F [(1, 9, 0), (14, 1, 0), (18, 1, 0), (23, 6, 13), (29, 3, 1)] (by decide) (at_cons
      rfl (at_cons rfl (at_cons rfl (at_cons rfl (at_cons rfl at_nil))))))).trans (by rw [field_eq (d := ww) F rfl, field_eq (d := e) F
      rfl, field_eq (d := d) F rfl, field_eq (d := s) F rfl, field_eq (d := l) F rfl, field_eq (d := m) F rfl])
theorem xadd (ww : BitVec 2) (e : BitVec 2) (d : BitVec 3) (s : BitVec 3) (l : BitVec 1) (t : BitVec 3) (u : BitVec 1) : Statement (.xadd
    ww e d s l t u) :=
  row_of [(5, 0), (1, u.toNat), (3, t.toNat), (1, 0), (1, l.toNat), (3, s.toNat), (1, 0), (3, d.toNat), (1, 0), (2, e.toNat), (2,
    ww.toNat), (6, 14), (3, 1)] rfl
    (fits_cons (by decide) (fits_cons u.isLt (fits_cons t.isLt (fits_cons (by decide) (fits_cons l.isLt (fits_cons s.isLt (fits_cons (by
      decide) (fits_cons d.isLt (fits_cons (by decide) (fits_cons e.isLt (fits_cons ww.isLt (fits_cons (by decide) (fits_cons (by decide)
      fits_nil))))))))))))) rfl (by simp only [cat]; omega) fun w F =>
    ((row_load (op := 14) F rfl rfl).trans (fixed_ok F [(0, 5, 0), (9, 1, 0), (14, 1, 0), (18, 1, 0), (23, 6, 14), (29, 3, 1)] (by decide)
      (at_cons rfl (at_cons rfl (at_cons rfl (at_cons rfl (at_cons rfl (at_cons rfl at_nil)))))))).trans (by rw [field_eq (d := ww) F rfl,
      field_eq (d := e) F rfl, field_eq (d := d) F rfl, field_eq (d := s) F rfl, field_eq (d := l) F rfl, field_eq (d := t) F rfl, field_eq
      (d := u) F rfl])
theorem xaddi (ww : BitVec 2) (e : BitVec 2) (d : BitVec 3) (s : BitVec 3) (l : BitVec 1) (i : BitVec 10) : Statement (.xaddi ww e d s l i)
    :=
  row_of [(10, i.toNat), (1, l.toNat), (3, s.toNat), (1, 0), (3, d.toNat), (1, 0), (2, e.toNat), (2, ww.toNat), (6, 15), (3, 1)] rfl
    (fits_cons i.isLt (fits_cons l.isLt (fits_cons s.isLt (fits_cons (by decide) (fits_cons d.isLt (fits_cons (by decide) (fits_cons e.isLt
      (fits_cons ww.isLt (fits_cons (by decide) (fits_cons (by decide) fits_nil)))))))))) rfl (by simp only [cat]; omega) fun w F =>
    ((row_load (op := 15) F rfl rfl).trans (fixed_ok F [(14, 1, 0), (18, 1, 0), (23, 6, 15), (29, 3, 1)] (by decide) (at_cons rfl (at_cons
      rfl (at_cons rfl (at_cons rfl at_nil)))))).trans (by rw [field_eq (d := ww) F rfl, field_eq (d := e) F rfl, field_eq (d := d) F rfl,
      field_eq (d := s) F rfl, field_eq (d := l) F rfl, field_eq (d := i) F rfl])
theorem xshl (ww : BitVec 2) (e : BitVec 2) (d : BitVec 3) (s : BitVec 3) (l : BitVec 1) (i : BitVec 10) : Statement (.xshl ww e d s l i) :=
  row_of [(10, i.toNat), (1, l.toNat), (3, s.toNat), (1, 0), (3, d.toNat), (1, 0), (2, e.toNat), (2, ww.toNat), (6, 16), (3, 1)] rfl
    (fits_cons i.isLt (fits_cons l.isLt (fits_cons s.isLt (fits_cons (by decide) (fits_cons d.isLt (fits_cons (by decide) (fits_cons e.isLt
      (fits_cons ww.isLt (fits_cons (by decide) (fits_cons (by decide) fits_nil)))))))))) rfl (by simp only [cat]; omega) fun w F =>
    ((row_load (op := 16) F rfl rfl).trans (fixed_ok F [(14, 1, 0), (18, 1, 0), (23, 6, 16), (29, 3, 1)] (by decide) (at_cons rfl (at_cons
      rfl (at_cons rfl (at_cons rfl at_nil)))))).trans (by rw [field_eq (d := ww) F rfl, field_eq (d := e) F rfl, field_eq (d := d) F rfl,
      field_eq (d := s) F rfl, field_eq (d := l) F rfl, field_eq (d := i) F rfl])
theorem lnop (ww : BitVec 2) (e : BitVec 2) : Statement (.lnop ww e) :=
  row_of [(19, 0), (2, e.toNat), (2, ww.toNat), (6, 17), (3, 1)] rfl
    (fits_cons (by decide) (fits_cons e.isLt (fits_cons ww.isLt (fits_cons (by decide) (fits_cons (by decide) fits_nil))))) rfl
      (by simp only [cat]; omega) fun w F =>
    ((row_load (op := 17) F rfl rfl).trans (fixed_ok F [(0, 19, 0), (23, 6, 17), (29, 3, 1)] (by decide) (at_cons rfl (at_cons rfl (at_cons
      rfl at_nil))))).trans (by rw [field_eq (d := ww) F rfl, field_eq (d := e) F rfl])
theorem st (ww : BitVec 2) (e : BitVec 2) (h : BitVec 4) (x : BitVec 3) (y : BitVec 1) (t : BitVec 3) (z : BitVec 3) (i : BitVec 1) :
    Statement (.st ww e h x y t z i) :=
  row_of [(1, i.toNat), (2, 0), (3, z.toNat), (1, 1), (3, t.toNat), (1, 0), (1, y.toNat), (3, x.toNat), (4, h.toNat), (2, e.toNat), (2,
    ww.toNat), (6, 0), (3, 2)] rfl
    (fits_cons i.isLt (fits_cons (by decide) (fits_cons z.isLt (fits_cons (by decide) (fits_cons t.isLt (fits_cons (by decide) (fits_cons
      y.isLt (fits_cons x.isLt (fits_cons h.isLt (fits_cons e.isLt (fits_cons ww.isLt (fits_cons (by decide) (fits_cons (by decide)
      fits_nil))))))))))))) rfl (by simp only [cat]; omega) fun w F =>
    ((row_store (op := 0) F rfl rfl).trans (fixed_ok F [(1, 2, 0), (6, 1, 1), (10, 1, 0), (23, 6, 0), (29, 3, 2)] (by decide) (at_cons rfl
      (at_cons rfl (at_cons rfl (at_cons rfl (at_cons rfl at_nil))))))).trans (by rw [field_eq (d := ww) F rfl, field_eq (d := e) F rfl,
      field_eq (d := h) F rfl, field_eq (d := x) F rfl, field_eq (d := y) F rfl, field_eq (d := t) F rfl, field_eq (d := z) F rfl, field_eq
      (d := i) F rfl])
theorem stx (ww : BitVec 2) (e : BitVec 2) (h : BitVec 4) (x : BitVec 3) (y : BitVec 1) (t : BitVec 4) (q : BitVec 4) (c : BitVec 3) :
    Statement (.stx ww e h x y t q c) :=
  row_of [(3, c.toNat), (4, q.toNat), (4, t.toNat), (1, y.toNat), (3, x.toNat), (4, h.toNat), (2, e.toNat), (2, ww.toNat), (6, 1), (3, 2)]
    rfl
    (fits_cons c.isLt (fits_cons q.isLt (fits_cons t.isLt (fits_cons y.isLt (fits_cons x.isLt (fits_cons h.isLt (fits_cons e.isLt
      (fits_cons ww.isLt (fits_cons (by decide) (fits_cons (by decide) fits_nil)))))))))) rfl (by simp only [cat]; omega) fun w F =>
    ((row_store (op := 1) F rfl rfl).trans (fixed_ok F [(23, 6, 1), (29, 3, 2)] (by decide) (at_cons rfl (at_cons rfl at_nil)))).trans (by
      rw [field_eq (d := ww) F rfl, field_eq (d := e) F rfl, field_eq (d := h) F rfl, field_eq (d := x) F rfl, field_eq (d := y) F rfl,
      field_eq (d := t) F rfl, field_eq (d := q) F rfl, field_eq (d := c) F rfl])
theorem stbd (ww : BitVec 2) (e : BitVec 2) (h : BitVec 4) (x : BitVec 3) (y : BitVec 1) (t : BitVec 4) : Statement (.stbd ww e h x y t) :=
  row_of [(7, 0), (4, t.toNat), (1, y.toNat), (3, x.toNat), (4, h.toNat), (2, e.toNat), (2, ww.toNat), (6, 2), (3, 2)] rfl
    (fits_cons (by decide) (fits_cons t.isLt (fits_cons y.isLt (fits_cons x.isLt (fits_cons h.isLt (fits_cons e.isLt (fits_cons ww.isLt
      (fits_cons (by decide) (fits_cons (by decide) fits_nil))))))))) rfl (by simp only [cat]; omega) fun w F =>
    ((row_store (op := 2) F rfl rfl).trans (fixed_ok F [(0, 7, 0), (23, 6, 2), (29, 3, 2)] (by decide) (at_cons rfl (at_cons rfl (at_cons
      rfl at_nil))))).trans (by rw [field_eq (d := ww) F rfl, field_eq (d := e) F rfl, field_eq (d := h) F rfl, field_eq (d := x) F rfl,
      field_eq (d := y) F rfl, field_eq (d := t) F rfl])
theorem sunlk (ww : BitVec 2) (e : BitVec 2) (h : BitVec 4) (x : BitVec 3) (y : BitVec 1) (t : BitVec 3) (z : BitVec 3) (n : BitVec 1) (i :
    BitVec 1) : Statement (.sunlk ww e h x y t z n i) :=
  row_of [(1, i.toNat), (1, n.toNat), (1, 0), (3, z.toNat), (1, 1), (3, t.toNat), (1, 0), (1, y.toNat), (3, x.toNat), (4, h.toNat), (2,
    e.toNat), (2, ww.toNat), (6, 3), (3, 2)] rfl
    (fits_cons i.isLt (fits_cons n.isLt (fits_cons (by decide) (fits_cons z.isLt (fits_cons (by decide) (fits_cons t.isLt (fits_cons (by
      decide) (fits_cons y.isLt (fits_cons x.isLt (fits_cons h.isLt (fits_cons e.isLt (fits_cons ww.isLt (fits_cons (by decide) (fits_cons
      (by decide) fits_nil)))))))))))))) rfl (by simp only [cat]; omega) fun w F =>
    ((row_store (op := 3) F rfl rfl).trans (fixed_ok F [(2, 1, 0), (6, 1, 1), (10, 1, 0), (23, 6, 3), (29, 3, 2)] (by decide) (at_cons rfl
      (at_cons rfl (at_cons rfl (at_cons rfl (at_cons rfl at_nil))))))).trans (by rw [field_eq (d := ww) F rfl, field_eq (d := e) F rfl,
      field_eq (d := h) F rfl, field_eq (d := x) F rfl, field_eq (d := y) F rfl, field_eq (d := t) F rfl, field_eq (d := z) F rfl, field_eq
      (d := n) F rfl, field_eq (d := i) F rfl])
theorem spull (ww : BitVec 2) (e : BitVec 2) (h : BitVec 4) (x : BitVec 3) (y : BitVec 1) (g : BitVec 2) (b : BitVec 4) (k : BitVec 3) :
    Statement (.spull ww e h x y g b k) :=
  row_of [(1, 0), (3, k.toNat), (4, b.toNat), (1, 0), (2, g.toNat), (1, y.toNat), (3, x.toNat), (4, h.toNat), (2, e.toNat), (2, ww.toNat),
    (6, 4), (3, 2)] rfl
    (fits_cons (by decide) (fits_cons k.isLt (fits_cons b.isLt (fits_cons (by decide) (fits_cons g.isLt (fits_cons y.isLt (fits_cons x.isLt
      (fits_cons h.isLt (fits_cons e.isLt (fits_cons ww.isLt (fits_cons (by decide) (fits_cons (by decide) fits_nil)))))))))))) rfl
      (by simp only [cat]; omega) fun w F =>
    ((row_store (op := 4) F rfl rfl).trans (fixed_ok F [(0, 1, 0), (8, 1, 0), (23, 6, 4), (29, 3, 2)] (by decide) (at_cons rfl (at_cons rfl
      (at_cons rfl (at_cons rfl at_nil)))))).trans (by rw [field_eq (d := ww) F rfl, field_eq (d := e) F rfl, field_eq (d := h) F rfl,
      field_eq (d := x) F rfl, field_eq (d := y) F rfl, field_eq (d := g) F rfl, field_eq (d := b) F rfl, field_eq (d := k) F rfl])
theorem cwbr (ww : BitVec 2) (e : BitVec 2) (h : BitVec 4) (x : BitVec 3) (y : BitVec 1) (z : BitVec 3) : Statement (.cwbr ww e h x y z) :=
  row_of [(3, 0), (3, z.toNat), (5, 0), (1, y.toNat), (3, x.toNat), (4, h.toNat), (2, e.toNat), (2, ww.toNat), (6, 5), (3, 2)] rfl
    (fits_cons (by decide) (fits_cons z.isLt (fits_cons (by decide) (fits_cons y.isLt (fits_cons x.isLt (fits_cons h.isLt (fits_cons e.isLt
      (fits_cons ww.isLt (fits_cons (by decide) (fits_cons (by decide) fits_nil)))))))))) rfl (by simp only [cat]; omega) fun w F =>
    ((row_store (op := 5) F rfl rfl).trans (fixed_ok F [(0, 3, 0), (6, 5, 0), (23, 6, 5), (29, 3, 2)] (by decide) (at_cons rfl (at_cons rfl
      (at_cons rfl (at_cons rfl at_nil)))))).trans (by rw [field_eq (d := ww) F rfl, field_eq (d := e) F rfl, field_eq (d := h) F rfl,
      field_eq (d := x) F rfl, field_eq (d := y) F rfl, field_eq (d := z) F rfl])
theorem cinvr (ww : BitVec 2) (e : BitVec 2) (h : BitVec 4) (x : BitVec 3) (y : BitVec 1) (z : BitVec 3) : Statement (.cinvr ww e h x y z)
    :=
  row_of [(3, 0), (3, z.toNat), (5, 0), (1, y.toNat), (3, x.toNat), (4, h.toNat), (2, e.toNat), (2, ww.toNat), (6, 6), (3, 2)] rfl
    (fits_cons (by decide) (fits_cons z.isLt (fits_cons (by decide) (fits_cons y.isLt (fits_cons x.isLt (fits_cons h.isLt (fits_cons e.isLt
      (fits_cons ww.isLt (fits_cons (by decide) (fits_cons (by decide) fits_nil)))))))))) rfl (by simp only [cat]; omega) fun w F =>
    ((row_store (op := 6) F rfl rfl).trans (fixed_ok F [(0, 3, 0), (6, 5, 0), (23, 6, 6), (29, 3, 2)] (by decide) (at_cons rfl (at_cons rfl
      (at_cons rfl (at_cons rfl at_nil)))))).trans (by rw [field_eq (d := ww) F rfl, field_eq (d := e) F rfl, field_eq (d := h) F rfl,
      field_eq (d := x) F rfl, field_eq (d := y) F rfl, field_eq (d := z) F rfl])
theorem xcopy (ww : BitVec 2) (e : BitVec 2) (h : BitVec 4) (x : BitVec 3) (y : BitVec 1) (t : BitVec 3) : Statement (.xcopy ww e h x y t)
    :=
  row_of [(7, 64), (3, t.toNat), (1, 0), (1, y.toNat), (3, x.toNat), (4, h.toNat), (2, e.toNat), (2, ww.toNat), (6, 7), (3, 2)] rfl
    (fits_cons (by decide) (fits_cons t.isLt (fits_cons (by decide) (fits_cons y.isLt (fits_cons x.isLt (fits_cons h.isLt (fits_cons e.isLt
      (fits_cons ww.isLt (fits_cons (by decide) (fits_cons (by decide) fits_nil)))))))))) rfl (by simp only [cat]; omega) fun w F =>
    ((row_store (op := 7) F rfl rfl).trans (fixed_ok F [(0, 7, 64), (10, 1, 0), (23, 6, 7), (29, 3, 2)] (by decide) (at_cons rfl (at_cons
      rfl (at_cons rfl (at_cons rfl at_nil)))))).trans (by rw [field_eq (d := ww) F rfl, field_eq (d := e) F rfl, field_eq (d := h) F rfl,
      field_eq (d := x) F rfl, field_eq (d := y) F rfl, field_eq (d := t) F rfl])
theorem baradd (ww : BitVec 2) (e : BitVec 2) (h : BitVec 4) (x : BitVec 3) (y : BitVec 1) (c : BitVec 3) : Statement (.baradd ww e h x y
    c) :=
  row_of [(7, 0), (3, c.toNat), (1, 0), (1, y.toNat), (3, x.toNat), (4, h.toNat), (2, e.toNat), (2, ww.toNat), (6, 8), (3, 2)] rfl
    (fits_cons (by decide) (fits_cons c.isLt (fits_cons (by decide) (fits_cons y.isLt (fits_cons x.isLt (fits_cons h.isLt (fits_cons e.isLt
      (fits_cons ww.isLt (fits_cons (by decide) (fits_cons (by decide) fits_nil)))))))))) rfl (by simp only [cat]; omega) fun w F =>
    ((row_store (op := 8) F rfl rfl).trans (fixed_ok F [(0, 7, 0), (10, 1, 0), (23, 6, 8), (29, 3, 2)] (by decide) (at_cons rfl (at_cons
      rfl (at_cons rfl (at_cons rfl at_nil)))))).trans (by rw [field_eq (d := ww) F rfl, field_eq (d := e) F rfl, field_eq (d := h) F rfl,
      field_eq (d := x) F rfl, field_eq (d := y) F rfl, field_eq (d := c) F rfl])
theorem smark (ww : BitVec 2) (e : BitVec 2) (d : BitVec 3) (s : BitVec 3) (l : BitVec 1) (i : BitVec 10) : Statement (.smark ww e d s l i)
    :=
  row_of [(10, i.toNat), (1, l.toNat), (3, s.toNat), (1, 0), (3, d.toNat), (1, 0), (2, e.toNat), (2, ww.toNat), (6, 9), (3, 2)] rfl
    (fits_cons i.isLt (fits_cons l.isLt (fits_cons s.isLt (fits_cons (by decide) (fits_cons d.isLt (fits_cons (by decide) (fits_cons e.isLt
      (fits_cons ww.isLt (fits_cons (by decide) (fits_cons (by decide) fits_nil)))))))))) rfl (by simp only [cat]; omega) fun w F =>
    ((row_store (op := 9) F rfl rfl).trans (fixed_ok F [(14, 1, 0), (18, 1, 0), (23, 6, 9), (29, 3, 2)] (by decide) (at_cons rfl (at_cons
      rfl (at_cons rfl (at_cons rfl at_nil)))))).trans (by rw [field_eq (d := ww) F rfl, field_eq (d := e) F rfl, field_eq (d := d) F rfl,
      field_eq (d := s) F rfl, field_eq (d := l) F rfl, field_eq (d := i) F rfl])
theorem sloop (n : BitVec 6) (c : BitVec 2) (i : BitVec 11) : Statement (.sloop n c i) :=
  row_of [(11, i.toNat), (2, c.toNat), (6, n.toNat), (4, 0), (6, 10), (3, 2)] rfl
    (fits_cons i.isLt (fits_cons c.isLt (fits_cons n.isLt (fits_cons (by decide) (fits_cons (by decide) (fits_cons (by decide)
      fits_nil)))))) rfl (by simp only [cat]; omega) fun w F =>
    ((row_store (op := 10) F rfl rfl).trans (fixed_ok F [(19, 4, 0), (23, 6, 10), (29, 3, 2)] (by decide) (at_cons rfl (at_cons rfl
      (at_cons rfl at_nil))))).trans (by rw [field_eq (d := n) F rfl, field_eq (d := c) F rfl, field_eq (d := i) F rfl])
theorem xmovSt (ww : BitVec 2) (e : BitVec 2) (d : BitVec 3) (s : BitVec 3) (l : BitVec 1) (m : BitVec 1) : Statement (.xmovSt ww e d s l
    m) :=
  row_of [(1, m.toNat), (9, 0), (1, l.toNat), (3, s.toNat), (1, 0), (3, d.toNat), (1, 0), (2, e.toNat), (2, ww.toNat), (6, 11), (3, 2)] rfl
    (fits_cons m.isLt (fits_cons (by decide) (fits_cons l.isLt (fits_cons s.isLt (fits_cons (by decide) (fits_cons d.isLt (fits_cons (by
      decide) (fits_cons e.isLt (fits_cons ww.isLt (fits_cons (by decide) (fits_cons (by decide) fits_nil))))))))))) rfl
      (by simp only [cat]; omega) fun w F =>
    ((row_store (op := 11) F rfl rfl).trans (fixed_ok F [(1, 9, 0), (14, 1, 0), (18, 1, 0), (23, 6, 11), (29, 3, 2)] (by decide) (at_cons
      rfl (at_cons rfl (at_cons rfl (at_cons rfl (at_cons rfl at_nil))))))).trans (by rw [field_eq (d := ww) F rfl, field_eq (d := e) F
      rfl, field_eq (d := d) F rfl, field_eq (d := s) F rfl, field_eq (d := l) F rfl, field_eq (d := m) F rfl])
theorem xaddSt (ww : BitVec 2) (e : BitVec 2) (d : BitVec 3) (s : BitVec 3) (l : BitVec 1) (t : BitVec 3) (u : BitVec 1) : Statement
    (.xaddSt ww e d s l t u) :=
  row_of [(5, 0), (1, u.toNat), (3, t.toNat), (1, 0), (1, l.toNat), (3, s.toNat), (1, 0), (3, d.toNat), (1, 0), (2, e.toNat), (2,
    ww.toNat), (6, 12), (3, 2)] rfl
    (fits_cons (by decide) (fits_cons u.isLt (fits_cons t.isLt (fits_cons (by decide) (fits_cons l.isLt (fits_cons s.isLt (fits_cons (by
      decide) (fits_cons d.isLt (fits_cons (by decide) (fits_cons e.isLt (fits_cons ww.isLt (fits_cons (by decide) (fits_cons (by decide)
      fits_nil))))))))))))) rfl (by simp only [cat]; omega) fun w F =>
    ((row_store (op := 12) F rfl rfl).trans (fixed_ok F [(0, 5, 0), (9, 1, 0), (14, 1, 0), (18, 1, 0), (23, 6, 12), (29, 3, 2)] (by decide)
      (at_cons rfl (at_cons rfl (at_cons rfl (at_cons rfl (at_cons rfl (at_cons rfl at_nil)))))))).trans (by rw [field_eq (d := ww) F rfl,
      field_eq (d := e) F rfl, field_eq (d := d) F rfl, field_eq (d := s) F rfl, field_eq (d := l) F rfl, field_eq (d := t) F rfl, field_eq
      (d := u) F rfl])
theorem xaddiSt (ww : BitVec 2) (e : BitVec 2) (d : BitVec 3) (s : BitVec 3) (l : BitVec 1) (i : BitVec 10) : Statement (.xaddiSt ww e d s
    l i) :=
  row_of [(10, i.toNat), (1, l.toNat), (3, s.toNat), (1, 0), (3, d.toNat), (1, 0), (2, e.toNat), (2, ww.toNat), (6, 13), (3, 2)] rfl
    (fits_cons i.isLt (fits_cons l.isLt (fits_cons s.isLt (fits_cons (by decide) (fits_cons d.isLt (fits_cons (by decide) (fits_cons e.isLt
      (fits_cons ww.isLt (fits_cons (by decide) (fits_cons (by decide) fits_nil)))))))))) rfl (by simp only [cat]; omega) fun w F =>
    ((row_store (op := 13) F rfl rfl).trans (fixed_ok F [(14, 1, 0), (18, 1, 0), (23, 6, 13), (29, 3, 2)] (by decide) (at_cons rfl (at_cons
      rfl (at_cons rfl (at_cons rfl at_nil)))))).trans (by rw [field_eq (d := ww) F rfl, field_eq (d := e) F rfl, field_eq (d := d) F rfl,
      field_eq (d := s) F rfl, field_eq (d := l) F rfl, field_eq (d := i) F rfl])
theorem xshlSt (ww : BitVec 2) (e : BitVec 2) (d : BitVec 3) (s : BitVec 3) (l : BitVec 1) (i : BitVec 10) : Statement (.xshlSt ww e d s l
    i) :=
  row_of [(10, i.toNat), (1, l.toNat), (3, s.toNat), (1, 0), (3, d.toNat), (1, 0), (2, e.toNat), (2, ww.toNat), (6, 14), (3, 2)] rfl
    (fits_cons i.isLt (fits_cons l.isLt (fits_cons s.isLt (fits_cons (by decide) (fits_cons d.isLt (fits_cons (by decide) (fits_cons e.isLt
      (fits_cons ww.isLt (fits_cons (by decide) (fits_cons (by decide) fits_nil)))))))))) rfl (by simp only [cat]; omega) fun w F =>
    ((row_store (op := 14) F rfl rfl).trans (fixed_ok F [(14, 1, 0), (18, 1, 0), (23, 6, 14), (29, 3, 2)] (by decide) (at_cons rfl (at_cons
      rfl (at_cons rfl (at_cons rfl at_nil)))))).trans (by rw [field_eq (d := ww) F rfl, field_eq (d := e) F rfl, field_eq (d := d) F rfl,
      field_eq (d := s) F rfl, field_eq (d := l) F rfl, field_eq (d := i) F rfl])
theorem snop (ww : BitVec 2) (e : BitVec 2) : Statement (.snop ww e) :=
  row_of [(19, 0), (2, e.toNat), (2, ww.toNat), (6, 15), (3, 2)] rfl
    (fits_cons (by decide) (fits_cons e.isLt (fits_cons ww.isLt (fits_cons (by decide) (fits_cons (by decide) fits_nil))))) rfl
      (by simp only [cat]; omega) fun w F =>
    ((row_store (op := 15) F rfl rfl).trans (fixed_ok F [(0, 19, 0), (23, 6, 15), (29, 3, 2)] (by decide) (at_cons rfl (at_cons rfl
      (at_cons rfl at_nil))))).trans (by rw [field_eq (d := ww) F rfl, field_eq (d := e) F rfl])
theorem acas (s : BitVec 2) (ww : BitVec 2) (e : BitVec 2) (h : BitVec 4) (x : BitVec 3) (y : BitVec 1) (v : BitVec 2) (q : BitVec 4) (r :
    BitVec 1) (k : BitVec 3) : Statement (.acas s ww e h x y v q r k) :=
  row_of [(3, k.toNat), (1, r.toNat), (4, q.toNat), (1, 0), (2, v.toNat), (1, y.toNat), (3, x.toNat), (4, h.toNat), (2, e.toNat), (2,
    ww.toNat), (2, s.toNat), (4, 7), (3, 2)] rfl
    (fits_cons k.isLt (fits_cons r.isLt (fits_cons q.isLt (fits_cons (by decide) (fits_cons v.isLt (fits_cons y.isLt (fits_cons x.isLt
      (fits_cons h.isLt (fits_cons e.isLt (fits_cons ww.isLt (fits_cons s.isLt (fits_cons (by decide) (fits_cons (by decide)
      fits_nil))))))))))))) rfl (by simp only [cat]; omega) fun w F => by
    obtain rfl | rfl | rfl | rfl := two_bits s
    · exact ((row_store (op := 28) F rfl rfl).trans (fixed_ok F [(8, 1, 0), (25, 4, 7), (29, 3, 2)] (by decide) (at_cons rfl (at_cons rfl
        (at_cons rfl at_nil))))).trans (by rw [field_eq (d := 0#2) F rfl, field_eq (d := ww) F rfl, field_eq (d := e) F rfl, field_eq (d :=
        h) F rfl, field_eq (d := x) F rfl, field_eq (d := y) F rfl, field_eq (d := v) F rfl, field_eq (d := q) F rfl, field_eq (d := r) F
        rfl, field_eq (d := k) F rfl])
    · exact ((row_store (op := 29) F rfl rfl).trans (fixed_ok F [(8, 1, 0), (25, 4, 7), (29, 3, 2)] (by decide) (at_cons rfl (at_cons rfl
        (at_cons rfl at_nil))))).trans (by rw [field_eq (d := 1#2) F rfl, field_eq (d := ww) F rfl, field_eq (d := e) F rfl, field_eq (d :=
        h) F rfl, field_eq (d := x) F rfl, field_eq (d := y) F rfl, field_eq (d := v) F rfl, field_eq (d := q) F rfl, field_eq (d := r) F
        rfl, field_eq (d := k) F rfl])
    · exact ((row_store (op := 30) F rfl rfl).trans (fixed_ok F [(8, 1, 0), (25, 4, 7), (29, 3, 2)] (by decide) (at_cons rfl (at_cons rfl
        (at_cons rfl at_nil))))).trans (by rw [field_eq (d := 2#2) F rfl, field_eq (d := ww) F rfl, field_eq (d := e) F rfl, field_eq (d :=
        h) F rfl, field_eq (d := x) F rfl, field_eq (d := y) F rfl, field_eq (d := v) F rfl, field_eq (d := q) F rfl, field_eq (d := r) F
        rfl, field_eq (d := k) F rfl])
    · exact ((row_store (op := 31) F rfl rfl).trans (fixed_ok F [(8, 1, 0), (25, 4, 7), (29, 3, 2)] (by decide) (at_cons rfl (at_cons rfl
        (at_cons rfl at_nil))))).trans (by rw [field_eq (d := 3#2) F rfl, field_eq (d := ww) F rfl, field_eq (d := e) F rfl, field_eq (d :=
        h) F rfl, field_eq (d := x) F rfl, field_eq (d := y) F rfl, field_eq (d := v) F rfl, field_eq (d := q) F rfl, field_eq (d := r) F
        rfl, field_eq (d := k) F rfl])
theorem amoAdd (s : BitVec 2) (ww : BitVec 2) (e : BitVec 2) (h : BitVec 4) (x : BitVec 3) (y : BitVec 1) (v : BitVec 3) (q : BitVec 4) (r
    : BitVec 1) (k : BitVec 3) : Statement (.amoAdd s ww e h x y v q r k) :=
  row_of [(3, k.toNat), (1, r.toNat), (4, q.toNat), (3, v.toNat), (1, y.toNat), (3, x.toNat), (4, h.toNat), (2, e.toNat), (2, ww.toNat),
    (3, 0), (2, s.toNat), (1, 1), (3, 2)] rfl
    (fits_cons k.isLt (fits_cons r.isLt (fits_cons q.isLt (fits_cons v.isLt (fits_cons y.isLt (fits_cons x.isLt (fits_cons h.isLt
      (fits_cons e.isLt (fits_cons ww.isLt (fits_cons (by decide) (fits_cons s.isLt (fits_cons (by decide) (fits_cons (by decide)
      fits_nil))))))))))))) rfl (by simp only [cat]; omega) fun w F => by
    obtain rfl | rfl | rfl | rfl := two_bits s
    · exact ((row_store (op := 32) F rfl rfl).trans (fixed_ok F [(23, 3, 0), (28, 1, 1), (29, 3, 2)] (by decide) (at_cons rfl (at_cons rfl
        (at_cons rfl at_nil))))).trans (by rw [field_eq (d := 0#2) F rfl, field_eq (d := ww) F rfl, field_eq (d := e) F rfl, field_eq (d :=
        h) F rfl, field_eq (d := x) F rfl, field_eq (d := y) F rfl, field_eq (d := v) F rfl, field_eq (d := q) F rfl, field_eq (d := r) F
        rfl, field_eq (d := k) F rfl])
    · exact ((row_store (op := 40) F rfl rfl).trans (fixed_ok F [(23, 3, 0), (28, 1, 1), (29, 3, 2)] (by decide) (at_cons rfl (at_cons rfl
        (at_cons rfl at_nil))))).trans (by rw [field_eq (d := 1#2) F rfl, field_eq (d := ww) F rfl, field_eq (d := e) F rfl, field_eq (d :=
        h) F rfl, field_eq (d := x) F rfl, field_eq (d := y) F rfl, field_eq (d := v) F rfl, field_eq (d := q) F rfl, field_eq (d := r) F
        rfl, field_eq (d := k) F rfl])
    · exact ((row_store (op := 48) F rfl rfl).trans (fixed_ok F [(23, 3, 0), (28, 1, 1), (29, 3, 2)] (by decide) (at_cons rfl (at_cons rfl
        (at_cons rfl at_nil))))).trans (by rw [field_eq (d := 2#2) F rfl, field_eq (d := ww) F rfl, field_eq (d := e) F rfl, field_eq (d :=
        h) F rfl, field_eq (d := x) F rfl, field_eq (d := y) F rfl, field_eq (d := v) F rfl, field_eq (d := q) F rfl, field_eq (d := r) F
        rfl, field_eq (d := k) F rfl])
    · exact ((row_store (op := 56) F rfl rfl).trans (fixed_ok F [(23, 3, 0), (28, 1, 1), (29, 3, 2)] (by decide) (at_cons rfl (at_cons rfl
        (at_cons rfl at_nil))))).trans (by rw [field_eq (d := 3#2) F rfl, field_eq (d := ww) F rfl, field_eq (d := e) F rfl, field_eq (d :=
        h) F rfl, field_eq (d := x) F rfl, field_eq (d := y) F rfl, field_eq (d := v) F rfl, field_eq (d := q) F rfl, field_eq (d := r) F
        rfl, field_eq (d := k) F rfl])
theorem amoFadd (s : BitVec 2) (ww : BitVec 2) (e : BitVec 2) (h : BitVec 4) (x : BitVec 3) (y : BitVec 1) (v : BitVec 3) (q : BitVec 4) (r
    : BitVec 1) (k : BitVec 3) : Statement (.amoFadd s ww e h x y v q r k) :=
  row_of [(3, k.toNat), (1, r.toNat), (4, q.toNat), (3, v.toNat), (1, y.toNat), (3, x.toNat), (4, h.toNat), (2, e.toNat), (2, ww.toNat),
    (3, 1), (2, s.toNat), (1, 1), (3, 2)] rfl
    (fits_cons k.isLt (fits_cons r.isLt (fits_cons q.isLt (fits_cons v.isLt (fits_cons y.isLt (fits_cons x.isLt (fits_cons h.isLt
      (fits_cons e.isLt (fits_cons ww.isLt (fits_cons (by decide) (fits_cons s.isLt (fits_cons (by decide) (fits_cons (by decide)
      fits_nil))))))))))))) rfl (by simp only [cat]; omega) fun w F => by
    obtain rfl | rfl | rfl | rfl := two_bits s
    · exact ((row_store (op := 33) F rfl rfl).trans (fixed_ok F [(23, 3, 1), (28, 1, 1), (29, 3, 2)] (by decide) (at_cons rfl (at_cons rfl
        (at_cons rfl at_nil))))).trans (by rw [field_eq (d := 0#2) F rfl, field_eq (d := ww) F rfl, field_eq (d := e) F rfl, field_eq (d :=
        h) F rfl, field_eq (d := x) F rfl, field_eq (d := y) F rfl, field_eq (d := v) F rfl, field_eq (d := q) F rfl, field_eq (d := r) F
        rfl, field_eq (d := k) F rfl])
    · exact ((row_store (op := 41) F rfl rfl).trans (fixed_ok F [(23, 3, 1), (28, 1, 1), (29, 3, 2)] (by decide) (at_cons rfl (at_cons rfl
        (at_cons rfl at_nil))))).trans (by rw [field_eq (d := 1#2) F rfl, field_eq (d := ww) F rfl, field_eq (d := e) F rfl, field_eq (d :=
        h) F rfl, field_eq (d := x) F rfl, field_eq (d := y) F rfl, field_eq (d := v) F rfl, field_eq (d := q) F rfl, field_eq (d := r) F
        rfl, field_eq (d := k) F rfl])
    · exact ((row_store (op := 49) F rfl rfl).trans (fixed_ok F [(23, 3, 1), (28, 1, 1), (29, 3, 2)] (by decide) (at_cons rfl (at_cons rfl
        (at_cons rfl at_nil))))).trans (by rw [field_eq (d := 2#2) F rfl, field_eq (d := ww) F rfl, field_eq (d := e) F rfl, field_eq (d :=
        h) F rfl, field_eq (d := x) F rfl, field_eq (d := y) F rfl, field_eq (d := v) F rfl, field_eq (d := q) F rfl, field_eq (d := r) F
        rfl, field_eq (d := k) F rfl])
    · exact ((row_store (op := 57) F rfl rfl).trans (fixed_ok F [(23, 3, 1), (28, 1, 1), (29, 3, 2)] (by decide) (at_cons rfl (at_cons rfl
        (at_cons rfl at_nil))))).trans (by rw [field_eq (d := 3#2) F rfl, field_eq (d := ww) F rfl, field_eq (d := e) F rfl, field_eq (d :=
        h) F rfl, field_eq (d := x) F rfl, field_eq (d := y) F rfl, field_eq (d := v) F rfl, field_eq (d := q) F rfl, field_eq (d := r) F
        rfl, field_eq (d := k) F rfl])
theorem amoMin (s : BitVec 2) (ww : BitVec 2) (e : BitVec 2) (h : BitVec 4) (x : BitVec 3) (y : BitVec 1) (v : BitVec 3) (q : BitVec 4) (r
    : BitVec 1) (k : BitVec 3) : Statement (.amoMin s ww e h x y v q r k) :=
  row_of [(3, k.toNat), (1, r.toNat), (4, q.toNat), (3, v.toNat), (1, y.toNat), (3, x.toNat), (4, h.toNat), (2, e.toNat), (2, ww.toNat),
    (3, 2), (2, s.toNat), (1, 1), (3, 2)] rfl
    (fits_cons k.isLt (fits_cons r.isLt (fits_cons q.isLt (fits_cons v.isLt (fits_cons y.isLt (fits_cons x.isLt (fits_cons h.isLt
      (fits_cons e.isLt (fits_cons ww.isLt (fits_cons (by decide) (fits_cons s.isLt (fits_cons (by decide) (fits_cons (by decide)
      fits_nil))))))))))))) rfl (by simp only [cat]; omega) fun w F => by
    obtain rfl | rfl | rfl | rfl := two_bits s
    · exact ((row_store (op := 34) F rfl rfl).trans (fixed_ok F [(23, 3, 2), (28, 1, 1), (29, 3, 2)] (by decide) (at_cons rfl (at_cons rfl
        (at_cons rfl at_nil))))).trans (by rw [field_eq (d := 0#2) F rfl, field_eq (d := ww) F rfl, field_eq (d := e) F rfl, field_eq (d :=
        h) F rfl, field_eq (d := x) F rfl, field_eq (d := y) F rfl, field_eq (d := v) F rfl, field_eq (d := q) F rfl, field_eq (d := r) F
        rfl, field_eq (d := k) F rfl])
    · exact ((row_store (op := 42) F rfl rfl).trans (fixed_ok F [(23, 3, 2), (28, 1, 1), (29, 3, 2)] (by decide) (at_cons rfl (at_cons rfl
        (at_cons rfl at_nil))))).trans (by rw [field_eq (d := 1#2) F rfl, field_eq (d := ww) F rfl, field_eq (d := e) F rfl, field_eq (d :=
        h) F rfl, field_eq (d := x) F rfl, field_eq (d := y) F rfl, field_eq (d := v) F rfl, field_eq (d := q) F rfl, field_eq (d := r) F
        rfl, field_eq (d := k) F rfl])
    · exact ((row_store (op := 50) F rfl rfl).trans (fixed_ok F [(23, 3, 2), (28, 1, 1), (29, 3, 2)] (by decide) (at_cons rfl (at_cons rfl
        (at_cons rfl at_nil))))).trans (by rw [field_eq (d := 2#2) F rfl, field_eq (d := ww) F rfl, field_eq (d := e) F rfl, field_eq (d :=
        h) F rfl, field_eq (d := x) F rfl, field_eq (d := y) F rfl, field_eq (d := v) F rfl, field_eq (d := q) F rfl, field_eq (d := r) F
        rfl, field_eq (d := k) F rfl])
    · exact ((row_store (op := 58) F rfl rfl).trans (fixed_ok F [(23, 3, 2), (28, 1, 1), (29, 3, 2)] (by decide) (at_cons rfl (at_cons rfl
        (at_cons rfl at_nil))))).trans (by rw [field_eq (d := 3#2) F rfl, field_eq (d := ww) F rfl, field_eq (d := e) F rfl, field_eq (d :=
        h) F rfl, field_eq (d := x) F rfl, field_eq (d := y) F rfl, field_eq (d := v) F rfl, field_eq (d := q) F rfl, field_eq (d := r) F
        rfl, field_eq (d := k) F rfl])
theorem amoMax (s : BitVec 2) (ww : BitVec 2) (e : BitVec 2) (h : BitVec 4) (x : BitVec 3) (y : BitVec 1) (v : BitVec 3) (q : BitVec 4) (r
    : BitVec 1) (k : BitVec 3) : Statement (.amoMax s ww e h x y v q r k) :=
  row_of [(3, k.toNat), (1, r.toNat), (4, q.toNat), (3, v.toNat), (1, y.toNat), (3, x.toNat), (4, h.toNat), (2, e.toNat), (2, ww.toNat),
    (3, 3), (2, s.toNat), (1, 1), (3, 2)] rfl
    (fits_cons k.isLt (fits_cons r.isLt (fits_cons q.isLt (fits_cons v.isLt (fits_cons y.isLt (fits_cons x.isLt (fits_cons h.isLt
      (fits_cons e.isLt (fits_cons ww.isLt (fits_cons (by decide) (fits_cons s.isLt (fits_cons (by decide) (fits_cons (by decide)
      fits_nil))))))))))))) rfl (by simp only [cat]; omega) fun w F => by
    obtain rfl | rfl | rfl | rfl := two_bits s
    · exact ((row_store (op := 35) F rfl rfl).trans (fixed_ok F [(23, 3, 3), (28, 1, 1), (29, 3, 2)] (by decide) (at_cons rfl (at_cons rfl
        (at_cons rfl at_nil))))).trans (by rw [field_eq (d := 0#2) F rfl, field_eq (d := ww) F rfl, field_eq (d := e) F rfl, field_eq (d :=
        h) F rfl, field_eq (d := x) F rfl, field_eq (d := y) F rfl, field_eq (d := v) F rfl, field_eq (d := q) F rfl, field_eq (d := r) F
        rfl, field_eq (d := k) F rfl])
    · exact ((row_store (op := 43) F rfl rfl).trans (fixed_ok F [(23, 3, 3), (28, 1, 1), (29, 3, 2)] (by decide) (at_cons rfl (at_cons rfl
        (at_cons rfl at_nil))))).trans (by rw [field_eq (d := 1#2) F rfl, field_eq (d := ww) F rfl, field_eq (d := e) F rfl, field_eq (d :=
        h) F rfl, field_eq (d := x) F rfl, field_eq (d := y) F rfl, field_eq (d := v) F rfl, field_eq (d := q) F rfl, field_eq (d := r) F
        rfl, field_eq (d := k) F rfl])
    · exact ((row_store (op := 51) F rfl rfl).trans (fixed_ok F [(23, 3, 3), (28, 1, 1), (29, 3, 2)] (by decide) (at_cons rfl (at_cons rfl
        (at_cons rfl at_nil))))).trans (by rw [field_eq (d := 2#2) F rfl, field_eq (d := ww) F rfl, field_eq (d := e) F rfl, field_eq (d :=
        h) F rfl, field_eq (d := x) F rfl, field_eq (d := y) F rfl, field_eq (d := v) F rfl, field_eq (d := q) F rfl, field_eq (d := r) F
        rfl, field_eq (d := k) F rfl])
    · exact ((row_store (op := 59) F rfl rfl).trans (fixed_ok F [(23, 3, 3), (28, 1, 1), (29, 3, 2)] (by decide) (at_cons rfl (at_cons rfl
        (at_cons rfl at_nil))))).trans (by rw [field_eq (d := 3#2) F rfl, field_eq (d := ww) F rfl, field_eq (d := e) F rfl, field_eq (d :=
        h) F rfl, field_eq (d := x) F rfl, field_eq (d := y) F rfl, field_eq (d := v) F rfl, field_eq (d := q) F rfl, field_eq (d := r) F
        rfl, field_eq (d := k) F rfl])
theorem amoAnd (s : BitVec 2) (ww : BitVec 2) (e : BitVec 2) (h : BitVec 4) (x : BitVec 3) (y : BitVec 1) (v : BitVec 3) (q : BitVec 4) (r
    : BitVec 1) (k : BitVec 3) : Statement (.amoAnd s ww e h x y v q r k) :=
  row_of [(3, k.toNat), (1, r.toNat), (4, q.toNat), (3, v.toNat), (1, y.toNat), (3, x.toNat), (4, h.toNat), (2, e.toNat), (2, ww.toNat),
    (3, 4), (2, s.toNat), (1, 1), (3, 2)] rfl
    (fits_cons k.isLt (fits_cons r.isLt (fits_cons q.isLt (fits_cons v.isLt (fits_cons y.isLt (fits_cons x.isLt (fits_cons h.isLt
      (fits_cons e.isLt (fits_cons ww.isLt (fits_cons (by decide) (fits_cons s.isLt (fits_cons (by decide) (fits_cons (by decide)
      fits_nil))))))))))))) rfl (by simp only [cat]; omega) fun w F => by
    obtain rfl | rfl | rfl | rfl := two_bits s
    · exact ((row_store (op := 36) F rfl rfl).trans (fixed_ok F [(23, 3, 4), (28, 1, 1), (29, 3, 2)] (by decide) (at_cons rfl (at_cons rfl
        (at_cons rfl at_nil))))).trans (by rw [field_eq (d := 0#2) F rfl, field_eq (d := ww) F rfl, field_eq (d := e) F rfl, field_eq (d :=
        h) F rfl, field_eq (d := x) F rfl, field_eq (d := y) F rfl, field_eq (d := v) F rfl, field_eq (d := q) F rfl, field_eq (d := r) F
        rfl, field_eq (d := k) F rfl])
    · exact ((row_store (op := 44) F rfl rfl).trans (fixed_ok F [(23, 3, 4), (28, 1, 1), (29, 3, 2)] (by decide) (at_cons rfl (at_cons rfl
        (at_cons rfl at_nil))))).trans (by rw [field_eq (d := 1#2) F rfl, field_eq (d := ww) F rfl, field_eq (d := e) F rfl, field_eq (d :=
        h) F rfl, field_eq (d := x) F rfl, field_eq (d := y) F rfl, field_eq (d := v) F rfl, field_eq (d := q) F rfl, field_eq (d := r) F
        rfl, field_eq (d := k) F rfl])
    · exact ((row_store (op := 52) F rfl rfl).trans (fixed_ok F [(23, 3, 4), (28, 1, 1), (29, 3, 2)] (by decide) (at_cons rfl (at_cons rfl
        (at_cons rfl at_nil))))).trans (by rw [field_eq (d := 2#2) F rfl, field_eq (d := ww) F rfl, field_eq (d := e) F rfl, field_eq (d :=
        h) F rfl, field_eq (d := x) F rfl, field_eq (d := y) F rfl, field_eq (d := v) F rfl, field_eq (d := q) F rfl, field_eq (d := r) F
        rfl, field_eq (d := k) F rfl])
    · exact ((row_store (op := 60) F rfl rfl).trans (fixed_ok F [(23, 3, 4), (28, 1, 1), (29, 3, 2)] (by decide) (at_cons rfl (at_cons rfl
        (at_cons rfl at_nil))))).trans (by rw [field_eq (d := 3#2) F rfl, field_eq (d := ww) F rfl, field_eq (d := e) F rfl, field_eq (d :=
        h) F rfl, field_eq (d := x) F rfl, field_eq (d := y) F rfl, field_eq (d := v) F rfl, field_eq (d := q) F rfl, field_eq (d := r) F
        rfl, field_eq (d := k) F rfl])
theorem amoOr (s : BitVec 2) (ww : BitVec 2) (e : BitVec 2) (h : BitVec 4) (x : BitVec 3) (y : BitVec 1) (v : BitVec 3) (q : BitVec 4) (r :
    BitVec 1) (k : BitVec 3) : Statement (.amoOr s ww e h x y v q r k) :=
  row_of [(3, k.toNat), (1, r.toNat), (4, q.toNat), (3, v.toNat), (1, y.toNat), (3, x.toNat), (4, h.toNat), (2, e.toNat), (2, ww.toNat),
    (3, 5), (2, s.toNat), (1, 1), (3, 2)] rfl
    (fits_cons k.isLt (fits_cons r.isLt (fits_cons q.isLt (fits_cons v.isLt (fits_cons y.isLt (fits_cons x.isLt (fits_cons h.isLt
      (fits_cons e.isLt (fits_cons ww.isLt (fits_cons (by decide) (fits_cons s.isLt (fits_cons (by decide) (fits_cons (by decide)
      fits_nil))))))))))))) rfl (by simp only [cat]; omega) fun w F => by
    obtain rfl | rfl | rfl | rfl := two_bits s
    · exact ((row_store (op := 37) F rfl rfl).trans (fixed_ok F [(23, 3, 5), (28, 1, 1), (29, 3, 2)] (by decide) (at_cons rfl (at_cons rfl
        (at_cons rfl at_nil))))).trans (by rw [field_eq (d := 0#2) F rfl, field_eq (d := ww) F rfl, field_eq (d := e) F rfl, field_eq (d :=
        h) F rfl, field_eq (d := x) F rfl, field_eq (d := y) F rfl, field_eq (d := v) F rfl, field_eq (d := q) F rfl, field_eq (d := r) F
        rfl, field_eq (d := k) F rfl])
    · exact ((row_store (op := 45) F rfl rfl).trans (fixed_ok F [(23, 3, 5), (28, 1, 1), (29, 3, 2)] (by decide) (at_cons rfl (at_cons rfl
        (at_cons rfl at_nil))))).trans (by rw [field_eq (d := 1#2) F rfl, field_eq (d := ww) F rfl, field_eq (d := e) F rfl, field_eq (d :=
        h) F rfl, field_eq (d := x) F rfl, field_eq (d := y) F rfl, field_eq (d := v) F rfl, field_eq (d := q) F rfl, field_eq (d := r) F
        rfl, field_eq (d := k) F rfl])
    · exact ((row_store (op := 53) F rfl rfl).trans (fixed_ok F [(23, 3, 5), (28, 1, 1), (29, 3, 2)] (by decide) (at_cons rfl (at_cons rfl
        (at_cons rfl at_nil))))).trans (by rw [field_eq (d := 2#2) F rfl, field_eq (d := ww) F rfl, field_eq (d := e) F rfl, field_eq (d :=
        h) F rfl, field_eq (d := x) F rfl, field_eq (d := y) F rfl, field_eq (d := v) F rfl, field_eq (d := q) F rfl, field_eq (d := r) F
        rfl, field_eq (d := k) F rfl])
    · exact ((row_store (op := 61) F rfl rfl).trans (fixed_ok F [(23, 3, 5), (28, 1, 1), (29, 3, 2)] (by decide) (at_cons rfl (at_cons rfl
        (at_cons rfl at_nil))))).trans (by rw [field_eq (d := 3#2) F rfl, field_eq (d := ww) F rfl, field_eq (d := e) F rfl, field_eq (d :=
        h) F rfl, field_eq (d := x) F rfl, field_eq (d := y) F rfl, field_eq (d := v) F rfl, field_eq (d := q) F rfl, field_eq (d := r) F
        rfl, field_eq (d := k) F rfl])
theorem amoXor (s : BitVec 2) (ww : BitVec 2) (e : BitVec 2) (h : BitVec 4) (x : BitVec 3) (y : BitVec 1) (v : BitVec 3) (q : BitVec 4) (r
    : BitVec 1) (k : BitVec 3) : Statement (.amoXor s ww e h x y v q r k) :=
  row_of [(3, k.toNat), (1, r.toNat), (4, q.toNat), (3, v.toNat), (1, y.toNat), (3, x.toNat), (4, h.toNat), (2, e.toNat), (2, ww.toNat),
    (3, 6), (2, s.toNat), (1, 1), (3, 2)] rfl
    (fits_cons k.isLt (fits_cons r.isLt (fits_cons q.isLt (fits_cons v.isLt (fits_cons y.isLt (fits_cons x.isLt (fits_cons h.isLt
      (fits_cons e.isLt (fits_cons ww.isLt (fits_cons (by decide) (fits_cons s.isLt (fits_cons (by decide) (fits_cons (by decide)
      fits_nil))))))))))))) rfl (by simp only [cat]; omega) fun w F => by
    obtain rfl | rfl | rfl | rfl := two_bits s
    · exact ((row_store (op := 38) F rfl rfl).trans (fixed_ok F [(23, 3, 6), (28, 1, 1), (29, 3, 2)] (by decide) (at_cons rfl (at_cons rfl
        (at_cons rfl at_nil))))).trans (by rw [field_eq (d := 0#2) F rfl, field_eq (d := ww) F rfl, field_eq (d := e) F rfl, field_eq (d :=
        h) F rfl, field_eq (d := x) F rfl, field_eq (d := y) F rfl, field_eq (d := v) F rfl, field_eq (d := q) F rfl, field_eq (d := r) F
        rfl, field_eq (d := k) F rfl])
    · exact ((row_store (op := 46) F rfl rfl).trans (fixed_ok F [(23, 3, 6), (28, 1, 1), (29, 3, 2)] (by decide) (at_cons rfl (at_cons rfl
        (at_cons rfl at_nil))))).trans (by rw [field_eq (d := 1#2) F rfl, field_eq (d := ww) F rfl, field_eq (d := e) F rfl, field_eq (d :=
        h) F rfl, field_eq (d := x) F rfl, field_eq (d := y) F rfl, field_eq (d := v) F rfl, field_eq (d := q) F rfl, field_eq (d := r) F
        rfl, field_eq (d := k) F rfl])
    · exact ((row_store (op := 54) F rfl rfl).trans (fixed_ok F [(23, 3, 6), (28, 1, 1), (29, 3, 2)] (by decide) (at_cons rfl (at_cons rfl
        (at_cons rfl at_nil))))).trans (by rw [field_eq (d := 2#2) F rfl, field_eq (d := ww) F rfl, field_eq (d := e) F rfl, field_eq (d :=
        h) F rfl, field_eq (d := x) F rfl, field_eq (d := y) F rfl, field_eq (d := v) F rfl, field_eq (d := q) F rfl, field_eq (d := r) F
        rfl, field_eq (d := k) F rfl])
    · exact ((row_store (op := 62) F rfl rfl).trans (fixed_ok F [(23, 3, 6), (28, 1, 1), (29, 3, 2)] (by decide) (at_cons rfl (at_cons rfl
        (at_cons rfl at_nil))))).trans (by rw [field_eq (d := 3#2) F rfl, field_eq (d := ww) F rfl, field_eq (d := e) F rfl, field_eq (d :=
        h) F rfl, field_eq (d := x) F rfl, field_eq (d := y) F rfl, field_eq (d := v) F rfl, field_eq (d := q) F rfl, field_eq (d := r) F
        rfl, field_eq (d := k) F rfl])
theorem amoSwap (s : BitVec 2) (ww : BitVec 2) (e : BitVec 2) (h : BitVec 4) (x : BitVec 3) (y : BitVec 1) (v : BitVec 3) (q : BitVec 4) (r
    : BitVec 1) (k : BitVec 3) : Statement (.amoSwap s ww e h x y v q r k) :=
  row_of [(3, k.toNat), (1, r.toNat), (4, q.toNat), (3, v.toNat), (1, y.toNat), (3, x.toNat), (4, h.toNat), (2, e.toNat), (2, ww.toNat),
    (3, 7), (2, s.toNat), (1, 1), (3, 2)] rfl
    (fits_cons k.isLt (fits_cons r.isLt (fits_cons q.isLt (fits_cons v.isLt (fits_cons y.isLt (fits_cons x.isLt (fits_cons h.isLt
      (fits_cons e.isLt (fits_cons ww.isLt (fits_cons (by decide) (fits_cons s.isLt (fits_cons (by decide) (fits_cons (by decide)
      fits_nil))))))))))))) rfl (by simp only [cat]; omega) fun w F => by
    obtain rfl | rfl | rfl | rfl := two_bits s
    · exact ((row_store (op := 39) F rfl rfl).trans (fixed_ok F [(23, 3, 7), (28, 1, 1), (29, 3, 2)] (by decide) (at_cons rfl (at_cons rfl
        (at_cons rfl at_nil))))).trans (by rw [field_eq (d := 0#2) F rfl, field_eq (d := ww) F rfl, field_eq (d := e) F rfl, field_eq (d :=
        h) F rfl, field_eq (d := x) F rfl, field_eq (d := y) F rfl, field_eq (d := v) F rfl, field_eq (d := q) F rfl, field_eq (d := r) F
        rfl, field_eq (d := k) F rfl])
    · exact ((row_store (op := 47) F rfl rfl).trans (fixed_ok F [(23, 3, 7), (28, 1, 1), (29, 3, 2)] (by decide) (at_cons rfl (at_cons rfl
        (at_cons rfl at_nil))))).trans (by rw [field_eq (d := 1#2) F rfl, field_eq (d := ww) F rfl, field_eq (d := e) F rfl, field_eq (d :=
        h) F rfl, field_eq (d := x) F rfl, field_eq (d := y) F rfl, field_eq (d := v) F rfl, field_eq (d := q) F rfl, field_eq (d := r) F
        rfl, field_eq (d := k) F rfl])
    · exact ((row_store (op := 55) F rfl rfl).trans (fixed_ok F [(23, 3, 7), (28, 1, 1), (29, 3, 2)] (by decide) (at_cons rfl (at_cons rfl
        (at_cons rfl at_nil))))).trans (by rw [field_eq (d := 2#2) F rfl, field_eq (d := ww) F rfl, field_eq (d := e) F rfl, field_eq (d :=
        h) F rfl, field_eq (d := x) F rfl, field_eq (d := y) F rfl, field_eq (d := v) F rfl, field_eq (d := q) F rfl, field_eq (d := r) F
        rfl, field_eq (d := k) F rfl])
    · exact ((row_store (op := 63) F rfl rfl).trans (fixed_ok F [(23, 3, 7), (28, 1, 1), (29, 3, 2)] (by decide) (at_cons rfl (at_cons rfl
        (at_cons rfl at_nil))))).trans (by rw [field_eq (d := 3#2) F rfl, field_eq (d := ww) F rfl, field_eq (d := e) F rfl, field_eq (d :=
        h) F rfl, field_eq (d := x) F rfl, field_eq (d := y) F rfl, field_eq (d := v) F rfl, field_eq (d := q) F rfl, field_eq (d := r) F
        rfl, field_eq (d := k) F rfl])
theorem lease (ww : BitVec 2) (e : BitVec 2) : Statement (.lease ww e) :=
  row_of [(19, 0), (2, e.toNat), (2, ww.toNat), (6, 0), (3, 3)] rfl
    (fits_cons (by decide) (fits_cons e.isLt (fits_cons ww.isLt (fits_cons (by decide) (fits_cons (by decide) fits_nil))))) rfl
      (by simp only [cat]; omega) fun w F =>
    ((row_matrix (op := 0) F rfl rfl).trans (fixed_ok F [(0, 19, 0), (23, 6, 0), (29, 3, 3)] (by decide) (at_cons rfl (at_cons rfl (at_cons
      rfl at_nil))))).trans (by rw [field_eq (d := ww) F rfl, field_eq (d := e) F rfl])
theorem unlease (ww : BitVec 2) (e : BitVec 2) : Statement (.unlease ww e) :=
  row_of [(19, 0), (2, e.toNat), (2, ww.toNat), (6, 1), (3, 3)] rfl
    (fits_cons (by decide) (fits_cons e.isLt (fits_cons ww.isLt (fits_cons (by decide) (fits_cons (by decide) fits_nil))))) rfl
      (by simp only [cat]; omega) fun w F =>
    ((row_matrix (op := 1) F rfl rfl).trans (fixed_ok F [(0, 19, 0), (23, 6, 1), (29, 3, 3)] (by decide) (at_cons rfl (at_cons rfl (at_cons
      rfl at_nil))))).trans (by rw [field_eq (d := ww) F rfl, field_eq (d := e) F rfl])
theorem mtstart (ww : BitVec 2) (e : BitVec 2) (d : BitVec 3) (s : BitVec 3) (l : BitVec 1) : Statement (.mtstart ww e d s l) :=
  row_of [(10, 0), (1, l.toNat), (3, s.toNat), (1, 0), (3, d.toNat), (1, 0), (2, e.toNat), (2, ww.toNat), (6, 2), (3, 3)] rfl
    (fits_cons (by decide) (fits_cons l.isLt (fits_cons s.isLt (fits_cons (by decide) (fits_cons d.isLt (fits_cons (by decide) (fits_cons
      e.isLt (fits_cons ww.isLt (fits_cons (by decide) (fits_cons (by decide) fits_nil)))))))))) rfl (by simp only [cat]; omega) fun w F =>
    ((row_matrix (op := 2) F rfl rfl).trans (fixed_ok F [(0, 10, 0), (14, 1, 0), (18, 1, 0), (23, 6, 2), (29, 3, 3)] (by decide) (at_cons
      rfl (at_cons rfl (at_cons rfl (at_cons rfl (at_cons rfl at_nil))))))).trans (by rw [field_eq (d := ww) F rfl, field_eq (d := e) F
      rfl, field_eq (d := d) F rfl, field_eq (d := s) F rfl, field_eq (d := l) F rfl])
theorem mma (ww : BitVec 2) (e : BitVec 2) (a : BitVec 3) (g : BitVec 4) (b : BitVec 9) (f : BitVec 1) (k : BitVec 1) : Statement (.mma ww
    e a g b f k) :=
  row_of [(1, 0), (1, k.toNat), (1, f.toNat), (9, b.toNat), (4, g.toNat), (3, a.toNat), (2, e.toNat), (2, ww.toNat), (6, 3), (3, 3)] rfl
    (fits_cons (by decide) (fits_cons k.isLt (fits_cons f.isLt (fits_cons b.isLt (fits_cons g.isLt (fits_cons a.isLt (fits_cons e.isLt
      (fits_cons ww.isLt (fits_cons (by decide) (fits_cons (by decide) fits_nil)))))))))) rfl (by simp only [cat]; omega) fun w F =>
    ((row_matrix (op := 3) F rfl rfl).trans (fixed_ok F [(0, 1, 0), (23, 6, 3), (29, 3, 3)] (by decide) (at_cons rfl (at_cons rfl (at_cons
      rfl at_nil))))).trans (by rw [field_eq (d := ww) F rfl, field_eq (d := e) F rfl, field_eq (d := a) F rfl, field_eq (d := g) F rfl,
      field_eq (d := b) F rfl, field_eq (d := f) F rfl, field_eq (d := k) F rfl])
theorem mzero (ww : BitVec 2) (e : BitVec 2) (d : BitVec 3) : Statement (.mzero ww e d) :=
  row_of [(15, 0), (3, d.toNat), (1, 0), (2, e.toNat), (2, ww.toNat), (6, 4), (3, 3)] rfl
    (fits_cons (by decide) (fits_cons d.isLt (fits_cons (by decide) (fits_cons e.isLt (fits_cons ww.isLt (fits_cons (by decide) (fits_cons
      (by decide) fits_nil))))))) rfl (by simp only [cat]; omega) fun w F =>
    ((row_matrix (op := 4) F rfl rfl).trans (fixed_ok F [(0, 15, 0), (18, 1, 0), (23, 6, 4), (29, 3, 3)] (by decide) (at_cons rfl (at_cons
      rfl (at_cons rfl (at_cons rfl at_nil)))))).trans (by rw [field_eq (d := ww) F rfl, field_eq (d := e) F rfl, field_eq (d := d) F rfl])
theorem mdrain (ww : BitVec 2) (e : BitVec 2) (a : BitVec 3) (g : BitVec 4) (r : BitVec 4) (k : BitVec 1) (j : BitVec 1) (s : BitVec 1) :
    Statement (.mdrain ww e a g r k j s) :=
  row_of [(5, 0), (1, s.toNat), (1, j.toNat), (1, k.toNat), (4, r.toNat), (4, g.toNat), (3, a.toNat), (2, e.toNat), (2, ww.toNat), (6, 5),
    (3, 3)] rfl
    (fits_cons (by decide) (fits_cons s.isLt (fits_cons j.isLt (fits_cons k.isLt (fits_cons r.isLt (fits_cons g.isLt (fits_cons a.isLt
      (fits_cons e.isLt (fits_cons ww.isLt (fits_cons (by decide) (fits_cons (by decide) fits_nil))))))))))) rfl
      (by simp only [cat]; omega) fun w F =>
    ((row_matrix (op := 5) F rfl rfl).trans (fixed_ok F [(0, 5, 0), (23, 6, 5), (29, 3, 3)] (by decide) (at_cons rfl (at_cons rfl (at_cons
      rfl at_nil))))).trans (by rw [field_eq (d := ww) F rfl, field_eq (d := e) F rfl, field_eq (d := a) F rfl, field_eq (d := g) F rfl,
      field_eq (d := r) F rfl, field_eq (d := k) F rfl, field_eq (d := j) F rfl, field_eq (d := s) F rfl])
theorem mrdb (ww : BitVec 2) (e : BitVec 2) (d : BitVec 3) (s : BitVec 3) : Statement (.mrdb ww e d s) :=
  row_of [(11, 0), (3, s.toNat), (1, 0), (3, d.toNat), (1, 0), (2, e.toNat), (2, ww.toNat), (6, 6), (3, 3)] rfl
    (fits_cons (by decide) (fits_cons s.isLt (fits_cons (by decide) (fits_cons d.isLt (fits_cons (by decide) (fits_cons e.isLt (fits_cons
      ww.isLt (fits_cons (by decide) (fits_cons (by decide) fits_nil))))))))) rfl (by simp only [cat]; omega) fun w F =>
    ((row_matrix (op := 6) F rfl rfl).trans (fixed_ok F [(0, 11, 0), (14, 1, 0), (18, 1, 0), (23, 6, 6), (29, 3, 3)] (by decide) (at_cons
      rfl (at_cons rfl (at_cons rfl (at_cons rfl (at_cons rfl at_nil))))))).trans (by rw [field_eq (d := ww) F rfl, field_eq (d := e) F
      rfl, field_eq (d := d) F rfl, field_eq (d := s) F rfl])
theorem msett (ww : BitVec 2) (e : BitVec 2) (d : BitVec 3) (s : BitVec 3) (l : BitVec 1) : Statement (.msett ww e d s l) :=
  row_of [(10, 0), (1, l.toNat), (3, s.toNat), (1, 0), (3, d.toNat), (1, 0), (2, e.toNat), (2, ww.toNat), (6, 7), (3, 3)] rfl
    (fits_cons (by decide) (fits_cons l.isLt (fits_cons s.isLt (fits_cons (by decide) (fits_cons d.isLt (fits_cons (by decide) (fits_cons
      e.isLt (fits_cons ww.isLt (fits_cons (by decide) (fits_cons (by decide) fits_nil)))))))))) rfl (by simp only [cat]; omega) fun w F =>
    ((row_matrix (op := 7) F rfl rfl).trans (fixed_ok F [(0, 10, 0), (14, 1, 0), (18, 1, 0), (23, 6, 7), (29, 3, 3)] (by decide) (at_cons
      rfl (at_cons rfl (at_cons rfl (at_cons rfl (at_cons rfl at_nil))))))).trans (by rw [field_eq (d := ww) F rfl, field_eq (d := e) F
      rfl, field_eq (d := d) F rfl, field_eq (d := s) F rfl, field_eq (d := l) F rfl])
theorem mfte (ww : BitVec 2) (e : BitVec 2) (d : BitVec 4) (s : BitVec 3) (l : BitVec 1) : Statement (.mfte ww e d s l) :=
  row_of [(10, 0), (1, l.toNat), (3, s.toNat), (1, 0), (4, d.toNat), (2, e.toNat), (2, ww.toNat), (6, 8), (3, 3)] rfl
    (fits_cons (by decide) (fits_cons l.isLt (fits_cons s.isLt (fits_cons (by decide) (fits_cons d.isLt (fits_cons e.isLt (fits_cons
      ww.isLt (fits_cons (by decide) (fits_cons (by decide) fits_nil))))))))) rfl (by simp only [cat]; omega) fun w F =>
    ((row_matrix (op := 8) F rfl rfl).trans (fixed_ok F [(0, 10, 0), (14, 1, 0), (23, 6, 8), (29, 3, 3)] (by decide) (at_cons rfl (at_cons
      rfl (at_cons rfl (at_cons rfl at_nil)))))).trans (by rw [field_eq (d := ww) F rfl, field_eq (d := e) F rfl, field_eq (d := d) F rfl,
      field_eq (d := s) F rfl, field_eq (d := l) F rfl])
theorem mftb (ww : BitVec 2) (e : BitVec 2) (c : BitVec 2) (b : BitVec 4) : Statement (.mftb ww e c b) :=
  row_of [(4, b.toNat), (2, c.toNat), (13, 0), (2, e.toNat), (2, ww.toNat), (6, 9), (3, 3)] rfl
    (fits_cons b.isLt (fits_cons c.isLt (fits_cons (by decide) (fits_cons e.isLt (fits_cons ww.isLt (fits_cons (by decide) (fits_cons (by
      decide) fits_nil))))))) rfl (by simp only [cat]; omega) fun w F =>
    ((row_matrix (op := 9) F rfl rfl).trans (fixed_ok F [(6, 13, 0), (23, 6, 9), (29, 3, 3)] (by decide) (at_cons rfl (at_cons rfl (at_cons
      rfl at_nil))))).trans (by rw [field_eq (d := ww) F rfl, field_eq (d := e) F rfl, field_eq (d := c) F rfl, field_eq (d := b) F rfl])
theorem board (ww : BitVec 2) (e : BitVec 2) (s : BitVec 3) (b : BitVec 9) : Statement (.board ww e s b) :=
  row_of [(7, 0), (9, b.toNat), (3, s.toNat), (2, e.toNat), (2, ww.toNat), (6, 10), (3, 3)] rfl
    (fits_cons (by decide) (fits_cons b.isLt (fits_cons s.isLt (fits_cons e.isLt (fits_cons ww.isLt (fits_cons (by decide) (fits_cons (by
      decide) fits_nil))))))) rfl (by simp only [cat]; omega) fun w F =>
    ((row_matrix (op := 10) F rfl rfl).trans (fixed_ok F [(0, 7, 0), (23, 6, 10), (29, 3, 3)] (by decide) (at_cons rfl (at_cons rfl
      (at_cons rfl at_nil))))).trans (by rw [field_eq (d := ww) F rfl, field_eq (d := e) F rfl, field_eq (d := s) F rfl, field_eq (d := b)
      F rfl])
theorem bwait (ww : BitVec 2) (e : BitVec 2) (s : BitVec 3) (b : BitVec 9) : Statement (.bwait ww e s b) :=
  row_of [(7, 0), (9, b.toNat), (3, s.toNat), (2, e.toNat), (2, ww.toNat), (6, 11), (3, 3)] rfl
    (fits_cons (by decide) (fits_cons b.isLt (fits_cons s.isLt (fits_cons e.isLt (fits_cons ww.isLt (fits_cons (by decide) (fits_cons (by
      decide) fits_nil))))))) rfl (by simp only [cat]; omega) fun w F =>
    ((row_matrix (op := 11) F rfl rfl).trans (fixed_ok F [(0, 7, 0), (23, 6, 11), (29, 3, 3)] (by decide) (at_cons rfl (at_cons rfl
      (at_cons rfl at_nil))))).trans (by rw [field_eq (d := ww) F rfl, field_eq (d := e) F rfl, field_eq (d := s) F rfl, field_eq (d := b)
      F rfl])
theorem bdrop (ww : BitVec 2) (e : BitVec 2) (b : BitVec 9) : Statement (.bdrop ww e b) :=
  row_of [(7, 0), (9, b.toNat), (3, 0), (2, e.toNat), (2, ww.toNat), (6, 12), (3, 3)] rfl
    (fits_cons (by decide) (fits_cons b.isLt (fits_cons (by decide) (fits_cons e.isLt (fits_cons ww.isLt (fits_cons (by decide) (fits_cons
      (by decide) fits_nil))))))) rfl (by simp only [cat]; omega) fun w F =>
    ((row_matrix (op := 12) F rfl rfl).trans (fixed_ok F [(0, 7, 0), (16, 3, 0), (23, 6, 12), (29, 3, 3)] (by decide) (at_cons rfl (at_cons
      rfl (at_cons rfl (at_cons rfl at_nil)))))).trans (by rw [field_eq (d := ww) F rfl, field_eq (d := e) F rfl, field_eq (d := b) F rfl])
theorem bquery (ww : BitVec 2) (e : BitVec 2) (s : BitVec 3) (b : BitVec 9) : Statement (.bquery ww e s b) :=
  row_of [(7, 0), (9, b.toNat), (3, s.toNat), (2, e.toNat), (2, ww.toNat), (6, 13), (3, 3)] rfl
    (fits_cons (by decide) (fits_cons b.isLt (fits_cons s.isLt (fits_cons e.isLt (fits_cons ww.isLt (fits_cons (by decide) (fits_cons (by
      decide) fits_nil))))))) rfl (by simp only [cat]; omega) fun w F =>
    ((row_matrix (op := 13) F rfl rfl).trans (fixed_ok F [(0, 7, 0), (23, 6, 13), (29, 3, 3)] (by decide) (at_cons rfl (at_cons rfl
      (at_cons rfl at_nil))))).trans (by rw [field_eq (d := ww) F rfl, field_eq (d := e) F rfl, field_eq (d := s) F rfl, field_eq (d := b)
      F rfl])
theorem mloop (n : BitVec 6) (c : BitVec 2) (i : BitVec 11) : Statement (.mloop n c i) :=
  row_of [(11, i.toNat), (2, c.toNat), (6, n.toNat), (4, 0), (6, 14), (3, 3)] rfl
    (fits_cons i.isLt (fits_cons c.isLt (fits_cons n.isLt (fits_cons (by decide) (fits_cons (by decide) (fits_cons (by decide)
      fits_nil)))))) rfl (by simp only [cat]; omega) fun w F =>
    ((row_matrix (op := 14) F rfl rfl).trans (fixed_ok F [(19, 4, 0), (23, 6, 14), (29, 3, 3)] (by decide) (at_cons rfl (at_cons rfl
      (at_cons rfl at_nil))))).trans (by rw [field_eq (d := n) F rfl, field_eq (d := c) F rfl, field_eq (d := i) F rfl])
theorem mnop (ww : BitVec 2) (e : BitVec 2) : Statement (.mnop ww e) :=
  row_of [(19, 0), (2, e.toNat), (2, ww.toNat), (6, 15), (3, 3)] rfl
    (fits_cons (by decide) (fits_cons e.isLt (fits_cons ww.isLt (fits_cons (by decide) (fits_cons (by decide) fits_nil))))) rfl
      (by simp only [cat]; omega) fun w F =>
    ((row_matrix (op := 15) F rfl rfl).trans (fixed_ok F [(0, 19, 0), (23, 6, 15), (29, 3, 3)] (by decide) (at_cons rfl (at_cons rfl
      (at_cons rfl at_nil))))).trans (by rw [field_eq (d := ww) F rfl, field_eq (d := e) F rfl])
theorem mxmode (ww : BitVec 2) (e : BitVec 2) (d : BitVec 3) (m : BitVec 1) : Statement (.mxmode ww e d m) :=
  row_of [(1, m.toNat), (14, 0), (3, d.toNat), (1, 0), (2, e.toNat), (2, ww.toNat), (6, 16), (3, 3)] rfl
    (fits_cons m.isLt (fits_cons (by decide) (fits_cons d.isLt (fits_cons (by decide) (fits_cons e.isLt (fits_cons ww.isLt (fits_cons (by
      decide) (fits_cons (by decide) fits_nil)))))))) rfl (by simp only [cat]; omega) fun w F =>
    ((row_matrix (op := 16) F rfl rfl).trans (fixed_ok F [(1, 14, 0), (18, 1, 0), (23, 6, 16), (29, 3, 3)] (by decide) (at_cons rfl
      (at_cons rfl (at_cons rfl (at_cons rfl at_nil)))))).trans (by rw [field_eq (d := ww) F rfl, field_eq (d := e) F rfl, field_eq (d :=
      d) F rfl, field_eq (d := m) F rfl])
theorem vsetc (ww : BitVec 2) (e : BitVec 2) (i : BitVec 10) : Statement (.vsetc ww e i) :=
  row_of [(10, i.toNat), (9, 0), (2, e.toNat), (2, ww.toNat), (6, 0), (3, 4)] rfl
    (fits_cons i.isLt (fits_cons (by decide) (fits_cons e.isLt (fits_cons ww.isLt (fits_cons (by decide) (fits_cons (by decide)
      fits_nil)))))) rfl (by simp only [cat]; omega) fun w F =>
    ((row_vector (op := 0) F rfl rfl).trans (fixed_ok F [(10, 9, 0), (23, 6, 0), (29, 3, 4)] (by decide) (at_cons rfl (at_cons rfl (at_cons
      rfl at_nil))))).trans (by rw [field_eq (d := ww) F rfl, field_eq (d := e) F rfl, field_eq (d := i) F rfl])
theorem vadd (ww : BitVec 2) (e : BitVec 2) (d : BitVec 4) (s : BitVec 4) (l : BitVec 1) (t : BitVec 4) (u : BitVec 1) (k : BitVec 1) (p :
    BitVec 1) (q : BitVec 1) : Statement (.vadd ww e d s l t u k p q) :=
  row_of [(2, 0), (1, q.toNat), (1, p.toNat), (1, k.toNat), (1, u.toNat), (4, t.toNat), (1, l.toNat), (4, s.toNat), (4, d.toNat), (2,
    e.toNat), (2, ww.toNat), (6, 1), (3, 4)] rfl
    (fits_cons (by decide) (fits_cons q.isLt (fits_cons p.isLt (fits_cons k.isLt (fits_cons u.isLt (fits_cons t.isLt (fits_cons l.isLt
      (fits_cons s.isLt (fits_cons d.isLt (fits_cons e.isLt (fits_cons ww.isLt (fits_cons (by decide) (fits_cons (by decide)
      fits_nil))))))))))))) rfl (by simp only [cat]; omega) fun w F =>
    ((row_vector (op := 1) F rfl rfl).trans (fixed_ok F [(0, 2, 0), (23, 6, 1), (29, 3, 4)] (by decide) (at_cons rfl (at_cons rfl (at_cons
      rfl at_nil))))).trans (by rw [field_eq (d := ww) F rfl, field_eq (d := e) F rfl, field_eq (d := d) F rfl, field_eq (d := s) F rfl,
      field_eq (d := l) F rfl, field_eq (d := t) F rfl, field_eq (d := u) F rfl, field_eq (d := k) F rfl, field_eq (d := p) F rfl, field_eq
      (d := q) F rfl])
theorem vsub (ww : BitVec 2) (e : BitVec 2) (d : BitVec 4) (s : BitVec 4) (l : BitVec 1) (t : BitVec 4) (u : BitVec 1) (k : BitVec 1) (p :
    BitVec 1) (q : BitVec 1) : Statement (.vsub ww e d s l t u k p q) :=
  row_of [(2, 0), (1, q.toNat), (1, p.toNat), (1, k.toNat), (1, u.toNat), (4, t.toNat), (1, l.toNat), (4, s.toNat), (4, d.toNat), (2,
    e.toNat), (2, ww.toNat), (6, 2), (3, 4)] rfl
    (fits_cons (by decide) (fits_cons q.isLt (fits_cons p.isLt (fits_cons k.isLt (fits_cons u.isLt (fits_cons t.isLt (fits_cons l.isLt
      (fits_cons s.isLt (fits_cons d.isLt (fits_cons e.isLt (fits_cons ww.isLt (fits_cons (by decide) (fits_cons (by decide)
      fits_nil))))))))))))) rfl (by simp only [cat]; omega) fun w F =>
    ((row_vector (op := 2) F rfl rfl).trans (fixed_ok F [(0, 2, 0), (23, 6, 2), (29, 3, 4)] (by decide) (at_cons rfl (at_cons rfl (at_cons
      rfl at_nil))))).trans (by rw [field_eq (d := ww) F rfl, field_eq (d := e) F rfl, field_eq (d := d) F rfl, field_eq (d := s) F rfl,
      field_eq (d := l) F rfl, field_eq (d := t) F rfl, field_eq (d := u) F rfl, field_eq (d := k) F rfl, field_eq (d := p) F rfl, field_eq
      (d := q) F rfl])
theorem vmul (ww : BitVec 2) (e : BitVec 2) (d : BitVec 4) (s : BitVec 4) (l : BitVec 1) (t : BitVec 4) (u : BitVec 1) (k : BitVec 1) (p :
    BitVec 1) (q : BitVec 1) : Statement (.vmul ww e d s l t u k p q) :=
  row_of [(2, 0), (1, q.toNat), (1, p.toNat), (1, k.toNat), (1, u.toNat), (4, t.toNat), (1, l.toNat), (4, s.toNat), (4, d.toNat), (2,
    e.toNat), (2, ww.toNat), (6, 3), (3, 4)] rfl
    (fits_cons (by decide) (fits_cons q.isLt (fits_cons p.isLt (fits_cons k.isLt (fits_cons u.isLt (fits_cons t.isLt (fits_cons l.isLt
      (fits_cons s.isLt (fits_cons d.isLt (fits_cons e.isLt (fits_cons ww.isLt (fits_cons (by decide) (fits_cons (by decide)
      fits_nil))))))))))))) rfl (by simp only [cat]; omega) fun w F =>
    ((row_vector (op := 3) F rfl rfl).trans (fixed_ok F [(0, 2, 0), (23, 6, 3), (29, 3, 4)] (by decide) (at_cons rfl (at_cons rfl (at_cons
      rfl at_nil))))).trans (by rw [field_eq (d := ww) F rfl, field_eq (d := e) F rfl, field_eq (d := d) F rfl, field_eq (d := s) F rfl,
      field_eq (d := l) F rfl, field_eq (d := t) F rfl, field_eq (d := u) F rfl, field_eq (d := k) F rfl, field_eq (d := p) F rfl, field_eq
      (d := q) F rfl])
theorem vfma (ww : BitVec 2) (e : BitVec 2) (d : BitVec 4) (s : BitVec 4) (l : BitVec 1) (t : BitVec 4) (u : BitVec 1) (k : BitVec 1) (p :
    BitVec 1) (q : BitVec 1) : Statement (.vfma ww e d s l t u k p q) :=
  row_of [(2, 0), (1, q.toNat), (1, p.toNat), (1, k.toNat), (1, u.toNat), (4, t.toNat), (1, l.toNat), (4, s.toNat), (4, d.toNat), (2,
    e.toNat), (2, ww.toNat), (6, 4), (3, 4)] rfl
    (fits_cons (by decide) (fits_cons q.isLt (fits_cons p.isLt (fits_cons k.isLt (fits_cons u.isLt (fits_cons t.isLt (fits_cons l.isLt
      (fits_cons s.isLt (fits_cons d.isLt (fits_cons e.isLt (fits_cons ww.isLt (fits_cons (by decide) (fits_cons (by decide)
      fits_nil))))))))))))) rfl (by simp only [cat]; omega) fun w F =>
    ((row_vector (op := 4) F rfl rfl).trans (fixed_ok F [(0, 2, 0), (23, 6, 4), (29, 3, 4)] (by decide) (at_cons rfl (at_cons rfl (at_cons
      rfl at_nil))))).trans (by rw [field_eq (d := ww) F rfl, field_eq (d := e) F rfl, field_eq (d := d) F rfl, field_eq (d := s) F rfl,
      field_eq (d := l) F rfl, field_eq (d := t) F rfl, field_eq (d := u) F rfl, field_eq (d := k) F rfl, field_eq (d := p) F rfl, field_eq
      (d := q) F rfl])
theorem vmin (ww : BitVec 2) (e : BitVec 2) (d : BitVec 4) (s : BitVec 4) (l : BitVec 1) (t : BitVec 4) (u : BitVec 1) (k : BitVec 1) (p :
    BitVec 1) (q : BitVec 1) : Statement (.vmin ww e d s l t u k p q) :=
  row_of [(2, 0), (1, q.toNat), (1, p.toNat), (1, k.toNat), (1, u.toNat), (4, t.toNat), (1, l.toNat), (4, s.toNat), (4, d.toNat), (2,
    e.toNat), (2, ww.toNat), (6, 5), (3, 4)] rfl
    (fits_cons (by decide) (fits_cons q.isLt (fits_cons p.isLt (fits_cons k.isLt (fits_cons u.isLt (fits_cons t.isLt (fits_cons l.isLt
      (fits_cons s.isLt (fits_cons d.isLt (fits_cons e.isLt (fits_cons ww.isLt (fits_cons (by decide) (fits_cons (by decide)
      fits_nil))))))))))))) rfl (by simp only [cat]; omega) fun w F =>
    ((row_vector (op := 5) F rfl rfl).trans (fixed_ok F [(0, 2, 0), (23, 6, 5), (29, 3, 4)] (by decide) (at_cons rfl (at_cons rfl (at_cons
      rfl at_nil))))).trans (by rw [field_eq (d := ww) F rfl, field_eq (d := e) F rfl, field_eq (d := d) F rfl, field_eq (d := s) F rfl,
      field_eq (d := l) F rfl, field_eq (d := t) F rfl, field_eq (d := u) F rfl, field_eq (d := k) F rfl, field_eq (d := p) F rfl, field_eq
      (d := q) F rfl])
theorem vmax (ww : BitVec 2) (e : BitVec 2) (d : BitVec 4) (s : BitVec 4) (l : BitVec 1) (t : BitVec 4) (u : BitVec 1) (k : BitVec 1) (p :
    BitVec 1) (q : BitVec 1) : Statement (.vmax ww e d s l t u k p q) :=
  row_of [(2, 0), (1, q.toNat), (1, p.toNat), (1, k.toNat), (1, u.toNat), (4, t.toNat), (1, l.toNat), (4, s.toNat), (4, d.toNat), (2,
    e.toNat), (2, ww.toNat), (6, 6), (3, 4)] rfl
    (fits_cons (by decide) (fits_cons q.isLt (fits_cons p.isLt (fits_cons k.isLt (fits_cons u.isLt (fits_cons t.isLt (fits_cons l.isLt
      (fits_cons s.isLt (fits_cons d.isLt (fits_cons e.isLt (fits_cons ww.isLt (fits_cons (by decide) (fits_cons (by decide)
      fits_nil))))))))))))) rfl (by simp only [cat]; omega) fun w F =>
    ((row_vector (op := 6) F rfl rfl).trans (fixed_ok F [(0, 2, 0), (23, 6, 6), (29, 3, 4)] (by decide) (at_cons rfl (at_cons rfl (at_cons
      rfl at_nil))))).trans (by rw [field_eq (d := ww) F rfl, field_eq (d := e) F rfl, field_eq (d := d) F rfl, field_eq (d := s) F rfl,
      field_eq (d := l) F rfl, field_eq (d := t) F rfl, field_eq (d := u) F rfl, field_eq (d := k) F rfl, field_eq (d := p) F rfl, field_eq
      (d := q) F rfl])
theorem vabs (ww : BitVec 2) (e : BitVec 2) (d : BitVec 4) (s : BitVec 4) (l : BitVec 1) (k : BitVec 1) (p : BitVec 1) (q : BitVec 1) :
    Statement (.vabs ww e d s l k p q) :=
  row_of [(2, 0), (1, q.toNat), (1, p.toNat), (1, k.toNat), (5, 0), (1, l.toNat), (4, s.toNat), (4, d.toNat), (2, e.toNat), (2, ww.toNat),
    (6, 7), (3, 4)] rfl
    (fits_cons (by decide) (fits_cons q.isLt (fits_cons p.isLt (fits_cons k.isLt (fits_cons (by decide) (fits_cons l.isLt (fits_cons s.isLt
      (fits_cons d.isLt (fits_cons e.isLt (fits_cons ww.isLt (fits_cons (by decide) (fits_cons (by decide) fits_nil)))))))))))) rfl
      (by simp only [cat]; omega) fun w F =>
    ((row_vector (op := 7) F rfl rfl).trans (fixed_ok F [(0, 2, 0), (5, 5, 0), (23, 6, 7), (29, 3, 4)] (by decide) (at_cons rfl (at_cons
      rfl (at_cons rfl (at_cons rfl at_nil)))))).trans (by rw [field_eq (d := ww) F rfl, field_eq (d := e) F rfl, field_eq (d := d) F rfl,
      field_eq (d := s) F rfl, field_eq (d := l) F rfl, field_eq (d := k) F rfl, field_eq (d := p) F rfl, field_eq (d := q) F rfl])
theorem vneg (ww : BitVec 2) (e : BitVec 2) (d : BitVec 4) (s : BitVec 4) (l : BitVec 1) (k : BitVec 1) (p : BitVec 1) (q : BitVec 1) :
    Statement (.vneg ww e d s l k p q) :=
  row_of [(2, 0), (1, q.toNat), (1, p.toNat), (1, k.toNat), (5, 0), (1, l.toNat), (4, s.toNat), (4, d.toNat), (2, e.toNat), (2, ww.toNat),
    (6, 8), (3, 4)] rfl
    (fits_cons (by decide) (fits_cons q.isLt (fits_cons p.isLt (fits_cons k.isLt (fits_cons (by decide) (fits_cons l.isLt (fits_cons s.isLt
      (fits_cons d.isLt (fits_cons e.isLt (fits_cons ww.isLt (fits_cons (by decide) (fits_cons (by decide) fits_nil)))))))))))) rfl
      (by simp only [cat]; omega) fun w F =>
    ((row_vector (op := 8) F rfl rfl).trans (fixed_ok F [(0, 2, 0), (5, 5, 0), (23, 6, 8), (29, 3, 4)] (by decide) (at_cons rfl (at_cons
      rfl (at_cons rfl (at_cons rfl at_nil)))))).trans (by rw [field_eq (d := ww) F rfl, field_eq (d := e) F rfl, field_eq (d := d) F rfl,
      field_eq (d := s) F rfl, field_eq (d := l) F rfl, field_eq (d := k) F rfl, field_eq (d := p) F rfl, field_eq (d := q) F rfl])
theorem vscl (ww : BitVec 2) (e : BitVec 2) (d : BitVec 4) (s : BitVec 4) (l : BitVec 1) (t : BitVec 3) (u : BitVec 1) (k : BitVec 1) (p :
    BitVec 1) (q : BitVec 1) : Statement (.vscl ww e d s l t u k p q) :=
  row_of [(2, 0), (1, q.toNat), (1, p.toNat), (1, k.toNat), (1, u.toNat), (3, t.toNat), (1, 0), (1, l.toNat), (4, s.toNat), (4, d.toNat),
    (2, e.toNat), (2, ww.toNat), (6, 9), (3, 4)] rfl
    (fits_cons (by decide) (fits_cons q.isLt (fits_cons p.isLt (fits_cons k.isLt (fits_cons u.isLt (fits_cons t.isLt (fits_cons (by decide)
      (fits_cons l.isLt (fits_cons s.isLt (fits_cons d.isLt (fits_cons e.isLt (fits_cons ww.isLt (fits_cons (by decide) (fits_cons (by
      decide) fits_nil)))))))))))))) rfl (by simp only [cat]; omega) fun w F =>
    ((row_vector (op := 9) F rfl rfl).trans (fixed_ok F [(0, 2, 0), (9, 1, 0), (23, 6, 9), (29, 3, 4)] (by decide) (at_cons rfl (at_cons
      rfl (at_cons rfl (at_cons rfl at_nil)))))).trans (by rw [field_eq (d := ww) F rfl, field_eq (d := e) F rfl, field_eq (d := d) F rfl,
      field_eq (d := s) F rfl, field_eq (d := l) F rfl, field_eq (d := t) F rfl, field_eq (d := u) F rfl, field_eq (d := k) F rfl, field_eq
      (d := p) F rfl, field_eq (d := q) F rfl])
theorem vrsum (ww : BitVec 2) (e : BitVec 2) (d : BitVec 4) (s : BitVec 4) (l : BitVec 1) (k : BitVec 1) (p : BitVec 1) (q : BitVec 1) (v :
    BitVec 1) : Statement (.vrsum ww e d s l k p q v) :=
  row_of [(1, v.toNat), (1, 0), (1, q.toNat), (1, p.toNat), (1, k.toNat), (5, 0), (1, l.toNat), (4, s.toNat), (4, d.toNat), (2, e.toNat),
    (2, ww.toNat), (6, 10), (3, 4)] rfl
    (fits_cons v.isLt (fits_cons (by decide) (fits_cons q.isLt (fits_cons p.isLt (fits_cons k.isLt (fits_cons (by decide) (fits_cons l.isLt
      (fits_cons s.isLt (fits_cons d.isLt (fits_cons e.isLt (fits_cons ww.isLt (fits_cons (by decide) (fits_cons (by decide)
      fits_nil))))))))))))) rfl (by simp only [cat]; omega) fun w F =>
    ((row_vector (op := 10) F rfl rfl).trans (fixed_ok F [(1, 1, 0), (5, 5, 0), (23, 6, 10), (29, 3, 4)] (by decide) (at_cons rfl (at_cons
      rfl (at_cons rfl (at_cons rfl at_nil)))))).trans (by rw [field_eq (d := ww) F rfl, field_eq (d := e) F rfl, field_eq (d := d) F rfl,
      field_eq (d := s) F rfl, field_eq (d := l) F rfl, field_eq (d := k) F rfl, field_eq (d := p) F rfl, field_eq (d := q) F rfl, field_eq
      (d := v) F rfl])
theorem vrmax (ww : BitVec 2) (e : BitVec 2) (d : BitVec 4) (s : BitVec 4) (l : BitVec 1) (k : BitVec 1) (p : BitVec 1) (q : BitVec 1) (v :
    BitVec 1) : Statement (.vrmax ww e d s l k p q v) :=
  row_of [(1, v.toNat), (1, 0), (1, q.toNat), (1, p.toNat), (1, k.toNat), (5, 0), (1, l.toNat), (4, s.toNat), (4, d.toNat), (2, e.toNat),
    (2, ww.toNat), (6, 11), (3, 4)] rfl
    (fits_cons v.isLt (fits_cons (by decide) (fits_cons q.isLt (fits_cons p.isLt (fits_cons k.isLt (fits_cons (by decide) (fits_cons l.isLt
      (fits_cons s.isLt (fits_cons d.isLt (fits_cons e.isLt (fits_cons ww.isLt (fits_cons (by decide) (fits_cons (by decide)
      fits_nil))))))))))))) rfl (by simp only [cat]; omega) fun w F =>
    ((row_vector (op := 11) F rfl rfl).trans (fixed_ok F [(1, 1, 0), (5, 5, 0), (23, 6, 11), (29, 3, 4)] (by decide) (at_cons rfl (at_cons
      rfl (at_cons rfl (at_cons rfl at_nil)))))).trans (by rw [field_eq (d := ww) F rfl, field_eq (d := e) F rfl, field_eq (d := d) F rfl,
      field_eq (d := s) F rfl, field_eq (d := l) F rfl, field_eq (d := k) F rfl, field_eq (d := p) F rfl, field_eq (d := q) F rfl, field_eq
      (d := v) F rfl])
theorem vrmin (ww : BitVec 2) (e : BitVec 2) (d : BitVec 4) (s : BitVec 4) (l : BitVec 1) (k : BitVec 1) (p : BitVec 1) (q : BitVec 1) (v :
    BitVec 1) : Statement (.vrmin ww e d s l k p q v) :=
  row_of [(1, v.toNat), (1, 0), (1, q.toNat), (1, p.toNat), (1, k.toNat), (5, 0), (1, l.toNat), (4, s.toNat), (4, d.toNat), (2, e.toNat),
    (2, ww.toNat), (6, 12), (3, 4)] rfl
    (fits_cons v.isLt (fits_cons (by decide) (fits_cons q.isLt (fits_cons p.isLt (fits_cons k.isLt (fits_cons (by decide) (fits_cons l.isLt
      (fits_cons s.isLt (fits_cons d.isLt (fits_cons e.isLt (fits_cons ww.isLt (fits_cons (by decide) (fits_cons (by decide)
      fits_nil))))))))))))) rfl (by simp only [cat]; omega) fun w F =>
    ((row_vector (op := 12) F rfl rfl).trans (fixed_ok F [(1, 1, 0), (5, 5, 0), (23, 6, 12), (29, 3, 4)] (by decide) (at_cons rfl (at_cons
      rfl (at_cons rfl (at_cons rfl at_nil)))))).trans (by rw [field_eq (d := ww) F rfl, field_eq (d := e) F rfl, field_eq (d := d) F rfl,
      field_eq (d := s) F rfl, field_eq (d := l) F rfl, field_eq (d := k) F rfl, field_eq (d := p) F rfl, field_eq (d := q) F rfl, field_eq
      (d := v) F rfl])
theorem vdot (ww : BitVec 2) (e : BitVec 2) (d : BitVec 4) (s : BitVec 4) (l : BitVec 1) (t : BitVec 4) (u : BitVec 1) (k : BitVec 1) (p :
    BitVec 1) (q : BitVec 1) (v : BitVec 1) : Statement (.vdot ww e d s l t u k p q v) :=
  row_of [(1, v.toNat), (1, 0), (1, q.toNat), (1, p.toNat), (1, k.toNat), (1, u.toNat), (4, t.toNat), (1, l.toNat), (4, s.toNat), (4,
    d.toNat), (2, e.toNat), (2, ww.toNat), (6, 13), (3, 4)] rfl
    (fits_cons v.isLt (fits_cons (by decide) (fits_cons q.isLt (fits_cons p.isLt (fits_cons k.isLt (fits_cons u.isLt (fits_cons t.isLt
      (fits_cons l.isLt (fits_cons s.isLt (fits_cons d.isLt (fits_cons e.isLt (fits_cons ww.isLt (fits_cons (by decide) (fits_cons (by
      decide) fits_nil)))))))))))))) rfl (by simp only [cat]; omega) fun w F =>
    ((row_vector (op := 13) F rfl rfl).trans (fixed_ok F [(1, 1, 0), (23, 6, 13), (29, 3, 4)] (by decide) (at_cons rfl (at_cons rfl
      (at_cons rfl at_nil))))).trans (by rw [field_eq (d := ww) F rfl, field_eq (d := e) F rfl, field_eq (d := d) F rfl, field_eq (d := s)
      F rfl, field_eq (d := l) F rfl, field_eq (d := t) F rfl, field_eq (d := u) F rfl, field_eq (d := k) F rfl, field_eq (d := p) F rfl,
      field_eq (d := q) F rfl, field_eq (d := v) F rfl])
theorem vcmp (ww : BitVec 2) (e : BitVec 2) (d : BitVec 4) (s : BitVec 4) (l : BitVec 1) (t : BitVec 4) (u : BitVec 1) (k : BitVec 1) (p :
    BitVec 1) (q : BitVec 1) (v : BitVec 2) : Statement (.vcmp ww e d s l t u k p q v) :=
  row_of [(2, v.toNat), (1, q.toNat), (1, p.toNat), (1, k.toNat), (1, u.toNat), (4, t.toNat), (1, l.toNat), (4, s.toNat), (4, d.toNat), (2,
    e.toNat), (2, ww.toNat), (6, 14), (3, 4)] rfl
    (fits_cons v.isLt (fits_cons q.isLt (fits_cons p.isLt (fits_cons k.isLt (fits_cons u.isLt (fits_cons t.isLt (fits_cons l.isLt
      (fits_cons s.isLt (fits_cons d.isLt (fits_cons e.isLt (fits_cons ww.isLt (fits_cons (by decide) (fits_cons (by decide)
      fits_nil))))))))))))) rfl (by simp only [cat]; omega) fun w F =>
    ((row_vector (op := 14) F rfl rfl).trans (fixed_ok F [(23, 6, 14), (29, 3, 4)] (by decide) (at_cons rfl (at_cons rfl at_nil)))).trans
      (by rw [field_eq (d := ww) F rfl, field_eq (d := e) F rfl, field_eq (d := d) F rfl, field_eq (d := s) F rfl, field_eq (d := l) F rfl,
      field_eq (d := t) F rfl, field_eq (d := u) F rfl, field_eq (d := k) F rfl, field_eq (d := p) F rfl, field_eq (d := q) F rfl, field_eq
      (d := v) F rfl])
theorem vselm (ww : BitVec 2) (e : BitVec 2) (d : BitVec 4) (s : BitVec 4) (l : BitVec 1) (t : BitVec 4) (u : BitVec 1) (k : BitVec 1) (p :
    BitVec 1) (q : BitVec 1) : Statement (.vselm ww e d s l t u k p q) :=
  row_of [(2, 0), (1, q.toNat), (1, p.toNat), (1, k.toNat), (1, u.toNat), (4, t.toNat), (1, l.toNat), (4, s.toNat), (4, d.toNat), (2,
    e.toNat), (2, ww.toNat), (6, 15), (3, 4)] rfl
    (fits_cons (by decide) (fits_cons q.isLt (fits_cons p.isLt (fits_cons k.isLt (fits_cons u.isLt (fits_cons t.isLt (fits_cons l.isLt
      (fits_cons s.isLt (fits_cons d.isLt (fits_cons e.isLt (fits_cons ww.isLt (fits_cons (by decide) (fits_cons (by decide)
      fits_nil))))))))))))) rfl (by simp only [cat]; omega) fun w F =>
    ((row_vector (op := 15) F rfl rfl).trans (fixed_ok F [(0, 2, 0), (23, 6, 15), (29, 3, 4)] (by decide) (at_cons rfl (at_cons rfl
      (at_cons rfl at_nil))))).trans (by rw [field_eq (d := ww) F rfl, field_eq (d := e) F rfl, field_eq (d := d) F rfl, field_eq (d := s)
      F rfl, field_eq (d := l) F rfl, field_eq (d := t) F rfl, field_eq (d := u) F rfl, field_eq (d := k) F rfl, field_eq (d := p) F rfl,
      field_eq (d := q) F rfl])
theorem viadd (ww : BitVec 2) (e : BitVec 2) (d : BitVec 4) (s : BitVec 4) (l : BitVec 1) (t : BitVec 4) (u : BitVec 1) (k : BitVec 1) (p :
    BitVec 1) (q : BitVec 1) (v : BitVec 2) : Statement (.viadd ww e d s l t u k p q v) :=
  row_of [(2, v.toNat), (1, q.toNat), (1, p.toNat), (1, k.toNat), (1, u.toNat), (4, t.toNat), (1, l.toNat), (4, s.toNat), (4, d.toNat), (2,
    e.toNat), (2, ww.toNat), (6, 16), (3, 4)] rfl
    (fits_cons v.isLt (fits_cons q.isLt (fits_cons p.isLt (fits_cons k.isLt (fits_cons u.isLt (fits_cons t.isLt (fits_cons l.isLt
      (fits_cons s.isLt (fits_cons d.isLt (fits_cons e.isLt (fits_cons ww.isLt (fits_cons (by decide) (fits_cons (by decide)
      fits_nil))))))))))))) rfl (by simp only [cat]; omega) fun w F =>
    ((row_vector (op := 16) F rfl rfl).trans (fixed_ok F [(23, 6, 16), (29, 3, 4)] (by decide) (at_cons rfl (at_cons rfl at_nil)))).trans
      (by rw [field_eq (d := ww) F rfl, field_eq (d := e) F rfl, field_eq (d := d) F rfl, field_eq (d := s) F rfl, field_eq (d := l) F rfl,
      field_eq (d := t) F rfl, field_eq (d := u) F rfl, field_eq (d := k) F rfl, field_eq (d := p) F rfl, field_eq (d := q) F rfl, field_eq
      (d := v) F rfl])
theorem visub (ww : BitVec 2) (e : BitVec 2) (d : BitVec 4) (s : BitVec 4) (l : BitVec 1) (t : BitVec 4) (u : BitVec 1) (k : BitVec 1) (p :
    BitVec 1) (q : BitVec 1) (v : BitVec 2) : Statement (.visub ww e d s l t u k p q v) :=
  row_of [(2, v.toNat), (1, q.toNat), (1, p.toNat), (1, k.toNat), (1, u.toNat), (4, t.toNat), (1, l.toNat), (4, s.toNat), (4, d.toNat), (2,
    e.toNat), (2, ww.toNat), (6, 17), (3, 4)] rfl
    (fits_cons v.isLt (fits_cons q.isLt (fits_cons p.isLt (fits_cons k.isLt (fits_cons u.isLt (fits_cons t.isLt (fits_cons l.isLt
      (fits_cons s.isLt (fits_cons d.isLt (fits_cons e.isLt (fits_cons ww.isLt (fits_cons (by decide) (fits_cons (by decide)
      fits_nil))))))))))))) rfl (by simp only [cat]; omega) fun w F =>
    ((row_vector (op := 17) F rfl rfl).trans (fixed_ok F [(23, 6, 17), (29, 3, 4)] (by decide) (at_cons rfl (at_cons rfl at_nil)))).trans
      (by rw [field_eq (d := ww) F rfl, field_eq (d := e) F rfl, field_eq (d := d) F rfl, field_eq (d := s) F rfl, field_eq (d := l) F rfl,
      field_eq (d := t) F rfl, field_eq (d := u) F rfl, field_eq (d := k) F rfl, field_eq (d := p) F rfl, field_eq (d := q) F rfl, field_eq
      (d := v) F rfl])
theorem vimul (ww : BitVec 2) (e : BitVec 2) (d : BitVec 4) (s : BitVec 4) (l : BitVec 1) (t : BitVec 4) (u : BitVec 1) (k : BitVec 1) (p :
    BitVec 1) (q : BitVec 1) (v : BitVec 2) : Statement (.vimul ww e d s l t u k p q v) :=
  row_of [(2, v.toNat), (1, q.toNat), (1, p.toNat), (1, k.toNat), (1, u.toNat), (4, t.toNat), (1, l.toNat), (4, s.toNat), (4, d.toNat), (2,
    e.toNat), (2, ww.toNat), (6, 18), (3, 4)] rfl
    (fits_cons v.isLt (fits_cons q.isLt (fits_cons p.isLt (fits_cons k.isLt (fits_cons u.isLt (fits_cons t.isLt (fits_cons l.isLt
      (fits_cons s.isLt (fits_cons d.isLt (fits_cons e.isLt (fits_cons ww.isLt (fits_cons (by decide) (fits_cons (by decide)
      fits_nil))))))))))))) rfl (by simp only [cat]; omega) fun w F =>
    ((row_vector (op := 18) F rfl rfl).trans (fixed_ok F [(23, 6, 18), (29, 3, 4)] (by decide) (at_cons rfl (at_cons rfl at_nil)))).trans
      (by rw [field_eq (d := ww) F rfl, field_eq (d := e) F rfl, field_eq (d := d) F rfl, field_eq (d := s) F rfl, field_eq (d := l) F rfl,
      field_eq (d := t) F rfl, field_eq (d := u) F rfl, field_eq (d := k) F rfl, field_eq (d := p) F rfl, field_eq (d := q) F rfl, field_eq
      (d := v) F rfl])
theorem vimin (ww : BitVec 2) (e : BitVec 2) (d : BitVec 4) (s : BitVec 4) (l : BitVec 1) (t : BitVec 4) (u : BitVec 1) (k : BitVec 1) (p :
    BitVec 1) (q : BitVec 1) (v : BitVec 2) : Statement (.vimin ww e d s l t u k p q v) :=
  row_of [(2, v.toNat), (1, q.toNat), (1, p.toNat), (1, k.toNat), (1, u.toNat), (4, t.toNat), (1, l.toNat), (4, s.toNat), (4, d.toNat), (2,
    e.toNat), (2, ww.toNat), (6, 19), (3, 4)] rfl
    (fits_cons v.isLt (fits_cons q.isLt (fits_cons p.isLt (fits_cons k.isLt (fits_cons u.isLt (fits_cons t.isLt (fits_cons l.isLt
      (fits_cons s.isLt (fits_cons d.isLt (fits_cons e.isLt (fits_cons ww.isLt (fits_cons (by decide) (fits_cons (by decide)
      fits_nil))))))))))))) rfl (by simp only [cat]; omega) fun w F =>
    ((row_vector (op := 19) F rfl rfl).trans (fixed_ok F [(23, 6, 19), (29, 3, 4)] (by decide) (at_cons rfl (at_cons rfl at_nil)))).trans
      (by rw [field_eq (d := ww) F rfl, field_eq (d := e) F rfl, field_eq (d := d) F rfl, field_eq (d := s) F rfl, field_eq (d := l) F rfl,
      field_eq (d := t) F rfl, field_eq (d := u) F rfl, field_eq (d := k) F rfl, field_eq (d := p) F rfl, field_eq (d := q) F rfl, field_eq
      (d := v) F rfl])
theorem vimax (ww : BitVec 2) (e : BitVec 2) (d : BitVec 4) (s : BitVec 4) (l : BitVec 1) (t : BitVec 4) (u : BitVec 1) (k : BitVec 1) (p :
    BitVec 1) (q : BitVec 1) (v : BitVec 2) : Statement (.vimax ww e d s l t u k p q v) :=
  row_of [(2, v.toNat), (1, q.toNat), (1, p.toNat), (1, k.toNat), (1, u.toNat), (4, t.toNat), (1, l.toNat), (4, s.toNat), (4, d.toNat), (2,
    e.toNat), (2, ww.toNat), (6, 20), (3, 4)] rfl
    (fits_cons v.isLt (fits_cons q.isLt (fits_cons p.isLt (fits_cons k.isLt (fits_cons u.isLt (fits_cons t.isLt (fits_cons l.isLt
      (fits_cons s.isLt (fits_cons d.isLt (fits_cons e.isLt (fits_cons ww.isLt (fits_cons (by decide) (fits_cons (by decide)
      fits_nil))))))))))))) rfl (by simp only [cat]; omega) fun w F =>
    ((row_vector (op := 20) F rfl rfl).trans (fixed_ok F [(23, 6, 20), (29, 3, 4)] (by decide) (at_cons rfl (at_cons rfl at_nil)))).trans
      (by rw [field_eq (d := ww) F rfl, field_eq (d := e) F rfl, field_eq (d := d) F rfl, field_eq (d := s) F rfl, field_eq (d := l) F rfl,
      field_eq (d := t) F rfl, field_eq (d := u) F rfl, field_eq (d := k) F rfl, field_eq (d := p) F rfl, field_eq (d := q) F rfl, field_eq
      (d := v) F rfl])
theorem vand (ww : BitVec 2) (e : BitVec 2) (d : BitVec 4) (s : BitVec 4) (l : BitVec 1) (t : BitVec 4) (u : BitVec 1) (k : BitVec 1) (p :
    BitVec 1) (q : BitVec 1) (v : BitVec 1) : Statement (.vand ww e d s l t u k p q v) :=
  row_of [(1, 0), (1, v.toNat), (1, q.toNat), (1, p.toNat), (1, k.toNat), (1, u.toNat), (4, t.toNat), (1, l.toNat), (4, s.toNat), (4,
    d.toNat), (2, e.toNat), (2, ww.toNat), (6, 21), (3, 4)] rfl
    (fits_cons (by decide) (fits_cons v.isLt (fits_cons q.isLt (fits_cons p.isLt (fits_cons k.isLt (fits_cons u.isLt (fits_cons t.isLt
      (fits_cons l.isLt (fits_cons s.isLt (fits_cons d.isLt (fits_cons e.isLt (fits_cons ww.isLt (fits_cons (by decide) (fits_cons (by
      decide) fits_nil)))))))))))))) rfl (by simp only [cat]; omega) fun w F =>
    ((row_vector (op := 21) F rfl rfl).trans (fixed_ok F [(0, 1, 0), (23, 6, 21), (29, 3, 4)] (by decide) (at_cons rfl (at_cons rfl
      (at_cons rfl at_nil))))).trans (by rw [field_eq (d := ww) F rfl, field_eq (d := e) F rfl, field_eq (d := d) F rfl, field_eq (d := s)
      F rfl, field_eq (d := l) F rfl, field_eq (d := t) F rfl, field_eq (d := u) F rfl, field_eq (d := k) F rfl, field_eq (d := p) F rfl,
      field_eq (d := q) F rfl, field_eq (d := v) F rfl])
theorem vor (ww : BitVec 2) (e : BitVec 2) (d : BitVec 4) (s : BitVec 4) (l : BitVec 1) (t : BitVec 4) (u : BitVec 1) (k : BitVec 1) (p :
    BitVec 1) (q : BitVec 1) (v : BitVec 1) : Statement (.vor ww e d s l t u k p q v) :=
  row_of [(1, 0), (1, v.toNat), (1, q.toNat), (1, p.toNat), (1, k.toNat), (1, u.toNat), (4, t.toNat), (1, l.toNat), (4, s.toNat), (4,
    d.toNat), (2, e.toNat), (2, ww.toNat), (6, 22), (3, 4)] rfl
    (fits_cons (by decide) (fits_cons v.isLt (fits_cons q.isLt (fits_cons p.isLt (fits_cons k.isLt (fits_cons u.isLt (fits_cons t.isLt
      (fits_cons l.isLt (fits_cons s.isLt (fits_cons d.isLt (fits_cons e.isLt (fits_cons ww.isLt (fits_cons (by decide) (fits_cons (by
      decide) fits_nil)))))))))))))) rfl (by simp only [cat]; omega) fun w F =>
    ((row_vector (op := 22) F rfl rfl).trans (fixed_ok F [(0, 1, 0), (23, 6, 22), (29, 3, 4)] (by decide) (at_cons rfl (at_cons rfl
      (at_cons rfl at_nil))))).trans (by rw [field_eq (d := ww) F rfl, field_eq (d := e) F rfl, field_eq (d := d) F rfl, field_eq (d := s)
      F rfl, field_eq (d := l) F rfl, field_eq (d := t) F rfl, field_eq (d := u) F rfl, field_eq (d := k) F rfl, field_eq (d := p) F rfl,
      field_eq (d := q) F rfl, field_eq (d := v) F rfl])
theorem vxor (ww : BitVec 2) (e : BitVec 2) (d : BitVec 4) (s : BitVec 4) (l : BitVec 1) (t : BitVec 4) (u : BitVec 1) (k : BitVec 1) (p :
    BitVec 1) (q : BitVec 1) (v : BitVec 1) : Statement (.vxor ww e d s l t u k p q v) :=
  row_of [(1, 0), (1, v.toNat), (1, q.toNat), (1, p.toNat), (1, k.toNat), (1, u.toNat), (4, t.toNat), (1, l.toNat), (4, s.toNat), (4,
    d.toNat), (2, e.toNat), (2, ww.toNat), (6, 23), (3, 4)] rfl
    (fits_cons (by decide) (fits_cons v.isLt (fits_cons q.isLt (fits_cons p.isLt (fits_cons k.isLt (fits_cons u.isLt (fits_cons t.isLt
      (fits_cons l.isLt (fits_cons s.isLt (fits_cons d.isLt (fits_cons e.isLt (fits_cons ww.isLt (fits_cons (by decide) (fits_cons (by
      decide) fits_nil)))))))))))))) rfl (by simp only [cat]; omega) fun w F =>
    ((row_vector (op := 23) F rfl rfl).trans (fixed_ok F [(0, 1, 0), (23, 6, 23), (29, 3, 4)] (by decide) (at_cons rfl (at_cons rfl
      (at_cons rfl at_nil))))).trans (by rw [field_eq (d := ww) F rfl, field_eq (d := e) F rfl, field_eq (d := d) F rfl, field_eq (d := s)
      F rfl, field_eq (d := l) F rfl, field_eq (d := t) F rfl, field_eq (d := u) F rfl, field_eq (d := k) F rfl, field_eq (d := p) F rfl,
      field_eq (d := q) F rfl, field_eq (d := v) F rfl])
theorem vshl (ww : BitVec 2) (e : BitVec 2) (d : BitVec 4) (s : BitVec 4) (l : BitVec 1) (t : BitVec 4) (u : BitVec 1) (k : BitVec 1) (p :
    BitVec 1) (q : BitVec 1) (v : BitVec 1) : Statement (.vshl ww e d s l t u k p q v) :=
  row_of [(1, 0), (1, v.toNat), (1, q.toNat), (1, p.toNat), (1, k.toNat), (1, u.toNat), (4, t.toNat), (1, l.toNat), (4, s.toNat), (4,
    d.toNat), (2, e.toNat), (2, ww.toNat), (6, 24), (3, 4)] rfl
    (fits_cons (by decide) (fits_cons v.isLt (fits_cons q.isLt (fits_cons p.isLt (fits_cons k.isLt (fits_cons u.isLt (fits_cons t.isLt
      (fits_cons l.isLt (fits_cons s.isLt (fits_cons d.isLt (fits_cons e.isLt (fits_cons ww.isLt (fits_cons (by decide) (fits_cons (by
      decide) fits_nil)))))))))))))) rfl (by simp only [cat]; omega) fun w F =>
    ((row_vector (op := 24) F rfl rfl).trans (fixed_ok F [(0, 1, 0), (23, 6, 24), (29, 3, 4)] (by decide) (at_cons rfl (at_cons rfl
      (at_cons rfl at_nil))))).trans (by rw [field_eq (d := ww) F rfl, field_eq (d := e) F rfl, field_eq (d := d) F rfl, field_eq (d := s)
      F rfl, field_eq (d := l) F rfl, field_eq (d := t) F rfl, field_eq (d := u) F rfl, field_eq (d := k) F rfl, field_eq (d := p) F rfl,
      field_eq (d := q) F rfl, field_eq (d := v) F rfl])
theorem vshr (ww : BitVec 2) (e : BitVec 2) (d : BitVec 4) (s : BitVec 4) (l : BitVec 1) (t : BitVec 4) (u : BitVec 1) (k : BitVec 1) (p :
    BitVec 1) (q : BitVec 1) (v : BitVec 1) : Statement (.vshr ww e d s l t u k p q v) :=
  row_of [(1, 0), (1, v.toNat), (1, q.toNat), (1, p.toNat), (1, k.toNat), (1, u.toNat), (4, t.toNat), (1, l.toNat), (4, s.toNat), (4,
    d.toNat), (2, e.toNat), (2, ww.toNat), (6, 25), (3, 4)] rfl
    (fits_cons (by decide) (fits_cons v.isLt (fits_cons q.isLt (fits_cons p.isLt (fits_cons k.isLt (fits_cons u.isLt (fits_cons t.isLt
      (fits_cons l.isLt (fits_cons s.isLt (fits_cons d.isLt (fits_cons e.isLt (fits_cons ww.isLt (fits_cons (by decide) (fits_cons (by
      decide) fits_nil)))))))))))))) rfl (by simp only [cat]; omega) fun w F =>
    ((row_vector (op := 25) F rfl rfl).trans (fixed_ok F [(0, 1, 0), (23, 6, 25), (29, 3, 4)] (by decide) (at_cons rfl (at_cons rfl
      (at_cons rfl at_nil))))).trans (by rw [field_eq (d := ww) F rfl, field_eq (d := e) F rfl, field_eq (d := d) F rfl, field_eq (d := s)
      F rfl, field_eq (d := l) F rfl, field_eq (d := t) F rfl, field_eq (d := u) F rfl, field_eq (d := k) F rfl, field_eq (d := p) F rfl,
      field_eq (d := q) F rfl, field_eq (d := v) F rfl])
theorem vsar (ww : BitVec 2) (e : BitVec 2) (d : BitVec 4) (s : BitVec 4) (l : BitVec 1) (t : BitVec 4) (u : BitVec 1) (k : BitVec 1) (p :
    BitVec 1) (q : BitVec 1) (v : BitVec 1) : Statement (.vsar ww e d s l t u k p q v) :=
  row_of [(1, 0), (1, v.toNat), (1, q.toNat), (1, p.toNat), (1, k.toNat), (1, u.toNat), (4, t.toNat), (1, l.toNat), (4, s.toNat), (4,
    d.toNat), (2, e.toNat), (2, ww.toNat), (6, 26), (3, 4)] rfl
    (fits_cons (by decide) (fits_cons v.isLt (fits_cons q.isLt (fits_cons p.isLt (fits_cons k.isLt (fits_cons u.isLt (fits_cons t.isLt
      (fits_cons l.isLt (fits_cons s.isLt (fits_cons d.isLt (fits_cons e.isLt (fits_cons ww.isLt (fits_cons (by decide) (fits_cons (by
      decide) fits_nil)))))))))))))) rfl (by simp only [cat]; omega) fun w F =>
    ((row_vector (op := 26) F rfl rfl).trans (fixed_ok F [(0, 1, 0), (23, 6, 26), (29, 3, 4)] (by decide) (at_cons rfl (at_cons rfl
      (at_cons rfl at_nil))))).trans (by rw [field_eq (d := ww) F rfl, field_eq (d := e) F rfl, field_eq (d := d) F rfl, field_eq (d := s)
      F rfl, field_eq (d := l) F rfl, field_eq (d := t) F rfl, field_eq (d := u) F rfl, field_eq (d := k) F rfl, field_eq (d := p) F rfl,
      field_eq (d := q) F rfl, field_eq (d := v) F rfl])
theorem vcvt (ww : BitVec 2) (e : BitVec 2) (d : BitVec 4) (s : BitVec 4) (l : BitVec 1) (t : BitVec 2) (u : BitVec 1) (k : BitVec 1) (p :
    BitVec 1) (q : BitVec 1) : Statement (.vcvt ww e d s l t u k p q) :=
  row_of [(2, 0), (1, q.toNat), (1, p.toNat), (1, k.toNat), (1, u.toNat), (1, 0), (2, t.toNat), (1, 0), (1, l.toNat), (4, s.toNat), (4,
    d.toNat), (2, e.toNat), (2, ww.toNat), (6, 27), (3, 4)] rfl
    (fits_cons (by decide) (fits_cons q.isLt (fits_cons p.isLt (fits_cons k.isLt (fits_cons u.isLt (fits_cons (by decide) (fits_cons t.isLt
      (fits_cons (by decide) (fits_cons l.isLt (fits_cons s.isLt (fits_cons d.isLt (fits_cons e.isLt (fits_cons ww.isLt (fits_cons (by
      decide) (fits_cons (by decide) fits_nil))))))))))))))) rfl (by simp only [cat]; omega) fun w F =>
    ((row_vector (op := 27) F rfl rfl).trans (fixed_ok F [(0, 2, 0), (6, 1, 0), (9, 1, 0), (23, 6, 27), (29, 3, 4)] (by decide) (at_cons
      rfl (at_cons rfl (at_cons rfl (at_cons rfl (at_cons rfl at_nil))))))).trans (by rw [field_eq (d := ww) F rfl, field_eq (d := e) F
      rfl, field_eq (d := d) F rfl, field_eq (d := s) F rfl, field_eq (d := l) F rfl, field_eq (d := t) F rfl, field_eq (d := u) F rfl,
      field_eq (d := k) F rfl, field_eq (d := p) F rfl, field_eq (d := q) F rfl])
theorem vqnt (ww : BitVec 2) (e : BitVec 2) (d : BitVec 4) (s : BitVec 4) (l : BitVec 1) (t : BitVec 2) (u : BitVec 1) (k : BitVec 1) (p :
    BitVec 1) (q : BitVec 1) : Statement (.vqnt ww e d s l t u k p q) :=
  row_of [(2, 0), (1, q.toNat), (1, p.toNat), (1, k.toNat), (1, u.toNat), (1, 0), (2, t.toNat), (1, 0), (1, l.toNat), (4, s.toNat), (4,
    d.toNat), (2, e.toNat), (2, ww.toNat), (6, 28), (3, 4)] rfl
    (fits_cons (by decide) (fits_cons q.isLt (fits_cons p.isLt (fits_cons k.isLt (fits_cons u.isLt (fits_cons (by decide) (fits_cons t.isLt
      (fits_cons (by decide) (fits_cons l.isLt (fits_cons s.isLt (fits_cons d.isLt (fits_cons e.isLt (fits_cons ww.isLt (fits_cons (by
      decide) (fits_cons (by decide) fits_nil))))))))))))))) rfl (by simp only [cat]; omega) fun w F =>
    ((row_vector (op := 28) F rfl rfl).trans (fixed_ok F [(0, 2, 0), (6, 1, 0), (9, 1, 0), (23, 6, 28), (29, 3, 4)] (by decide) (at_cons
      rfl (at_cons rfl (at_cons rfl (at_cons rfl (at_cons rfl at_nil))))))).trans (by rw [field_eq (d := ww) F rfl, field_eq (d := e) F
      rfl, field_eq (d := d) F rfl, field_eq (d := s) F rfl, field_eq (d := l) F rfl, field_eq (d := t) F rfl, field_eq (d := u) F rfl,
      field_eq (d := k) F rfl, field_eq (d := p) F rfl, field_eq (d := q) F rfl])
theorem vdqnt (ww : BitVec 2) (e : BitVec 2) (d : BitVec 4) (s : BitVec 4) (l : BitVec 1) (t : BitVec 2) (u : BitVec 1) (k : BitVec 1) (p :
    BitVec 1) (q : BitVec 1) : Statement (.vdqnt ww e d s l t u k p q) :=
  row_of [(2, 0), (1, q.toNat), (1, p.toNat), (1, k.toNat), (1, u.toNat), (1, 0), (2, t.toNat), (1, 0), (1, l.toNat), (4, s.toNat), (4,
    d.toNat), (2, e.toNat), (2, ww.toNat), (6, 29), (3, 4)] rfl
    (fits_cons (by decide) (fits_cons q.isLt (fits_cons p.isLt (fits_cons k.isLt (fits_cons u.isLt (fits_cons (by decide) (fits_cons t.isLt
      (fits_cons (by decide) (fits_cons l.isLt (fits_cons s.isLt (fits_cons d.isLt (fits_cons e.isLt (fits_cons ww.isLt (fits_cons (by
      decide) (fits_cons (by decide) fits_nil))))))))))))))) rfl (by simp only [cat]; omega) fun w F =>
    ((row_vector (op := 29) F rfl rfl).trans (fixed_ok F [(0, 2, 0), (6, 1, 0), (9, 1, 0), (23, 6, 29), (29, 3, 4)] (by decide) (at_cons
      rfl (at_cons rfl (at_cons rfl (at_cons rfl (at_cons rfl at_nil))))))).trans (by rw [field_eq (d := ww) F rfl, field_eq (d := e) F
      rfl, field_eq (d := d) F rfl, field_eq (d := s) F rfl, field_eq (d := l) F rfl, field_eq (d := t) F rfl, field_eq (d := u) F rfl,
      field_eq (d := k) F rfl, field_eq (d := p) F rfl, field_eq (d := q) F rfl])
theorem vcopy (ww : BitVec 2) (e : BitVec 2) (d : BitVec 4) (s : BitVec 4) (l : BitVec 1) (k : BitVec 1) (p : BitVec 1) (q : BitVec 1) (v :
    BitVec 2) : Statement (.vcopy ww e d s l k p q v) :=
  row_of [(2, v.toNat), (1, q.toNat), (1, p.toNat), (1, k.toNat), (5, 0), (1, l.toNat), (4, s.toNat), (4, d.toNat), (2, e.toNat), (2,
    ww.toNat), (6, 30), (3, 4)] rfl
    (fits_cons v.isLt (fits_cons q.isLt (fits_cons p.isLt (fits_cons k.isLt (fits_cons (by decide) (fits_cons l.isLt (fits_cons s.isLt
      (fits_cons d.isLt (fits_cons e.isLt (fits_cons ww.isLt (fits_cons (by decide) (fits_cons (by decide) fits_nil)))))))))))) rfl
      (by simp only [cat]; omega) fun w F =>
    ((row_vector (op := 30) F rfl rfl).trans (fixed_ok F [(5, 5, 0), (23, 6, 30), (29, 3, 4)] (by decide) (at_cons rfl (at_cons rfl
      (at_cons rfl at_nil))))).trans (by rw [field_eq (d := ww) F rfl, field_eq (d := e) F rfl, field_eq (d := d) F rfl, field_eq (d := s)
      F rfl, field_eq (d := l) F rfl, field_eq (d := k) F rfl, field_eq (d := p) F rfl, field_eq (d := q) F rfl, field_eq (d := v) F rfl])
theorem vbcast (ww : BitVec 2) (e : BitVec 2) (d : BitVec 4) (s : BitVec 4) (l : BitVec 1) (k : BitVec 1) (p : BitVec 1) (v : BitVec 2) :
    Statement (.vbcast ww e d s l k p v) :=
  row_of [(2, v.toNat), (1, 0), (1, p.toNat), (1, k.toNat), (5, 0), (1, l.toNat), (4, s.toNat), (4, d.toNat), (2, e.toNat), (2, ww.toNat),
    (6, 31), (3, 4)] rfl
    (fits_cons v.isLt (fits_cons (by decide) (fits_cons p.isLt (fits_cons k.isLt (fits_cons (by decide) (fits_cons l.isLt (fits_cons s.isLt
      (fits_cons d.isLt (fits_cons e.isLt (fits_cons ww.isLt (fits_cons (by decide) (fits_cons (by decide) fits_nil)))))))))))) rfl
      (by simp only [cat]; omega) fun w F =>
    ((row_vector (op := 31) F rfl rfl).trans (fixed_ok F [(2, 1, 0), (5, 5, 0), (23, 6, 31), (29, 3, 4)] (by decide) (at_cons rfl (at_cons
      rfl (at_cons rfl (at_cons rfl at_nil)))))).trans (by rw [field_eq (d := ww) F rfl, field_eq (d := e) F rfl, field_eq (d := d) F rfl,
      field_eq (d := s) F rfl, field_eq (d := l) F rfl, field_eq (d := k) F rfl, field_eq (d := p) F rfl, field_eq (d := v) F rfl])
theorem vtrn (ww : BitVec 2) (e : BitVec 2) (d : BitVec 4) (s : BitVec 4) (l : BitVec 1) (t : BitVec 3) (u : BitVec 1) (k : BitVec 1) (p :
    BitVec 1) (v : BitVec 2) : Statement (.vtrn ww e d s l t u k p v) :=
  row_of [(2, v.toNat), (1, 0), (1, p.toNat), (1, k.toNat), (1, u.toNat), (3, t.toNat), (1, 0), (1, l.toNat), (4, s.toNat), (4, d.toNat),
    (2, e.toNat), (2, ww.toNat), (6, 32), (3, 4)] rfl
    (fits_cons v.isLt (fits_cons (by decide) (fits_cons p.isLt (fits_cons k.isLt (fits_cons u.isLt (fits_cons t.isLt (fits_cons (by decide)
      (fits_cons l.isLt (fits_cons s.isLt (fits_cons d.isLt (fits_cons e.isLt (fits_cons ww.isLt (fits_cons (by decide) (fits_cons (by
      decide) fits_nil)))))))))))))) rfl (by simp only [cat]; omega) fun w F =>
    ((row_vector (op := 32) F rfl rfl).trans (fixed_ok F [(2, 1, 0), (9, 1, 0), (23, 6, 32), (29, 3, 4)] (by decide) (at_cons rfl (at_cons
      rfl (at_cons rfl (at_cons rfl at_nil)))))).trans (by rw [field_eq (d := ww) F rfl, field_eq (d := e) F rfl, field_eq (d := d) F rfl,
      field_eq (d := s) F rfl, field_eq (d := l) F rfl, field_eq (d := t) F rfl, field_eq (d := u) F rfl, field_eq (d := k) F rfl, field_eq
      (d := p) F rfl, field_eq (d := v) F rfl])
theorem vgath (ww : BitVec 2) (e : BitVec 2) (d : BitVec 4) (s : BitVec 4) (l : BitVec 1) (t : BitVec 4) (u : BitVec 1) (k : BitVec 1) (p :
    BitVec 1) (v : BitVec 2) : Statement (.vgath ww e d s l t u k p v) :=
  row_of [(2, v.toNat), (1, 0), (1, p.toNat), (1, k.toNat), (1, u.toNat), (4, t.toNat), (1, l.toNat), (4, s.toNat), (4, d.toNat), (2,
    e.toNat), (2, ww.toNat), (6, 33), (3, 4)] rfl
    (fits_cons v.isLt (fits_cons (by decide) (fits_cons p.isLt (fits_cons k.isLt (fits_cons u.isLt (fits_cons t.isLt (fits_cons l.isLt
      (fits_cons s.isLt (fits_cons d.isLt (fits_cons e.isLt (fits_cons ww.isLt (fits_cons (by decide) (fits_cons (by decide)
      fits_nil))))))))))))) rfl (by simp only [cat]; omega) fun w F =>
    ((row_vector (op := 33) F rfl rfl).trans (fixed_ok F [(2, 1, 0), (23, 6, 33), (29, 3, 4)] (by decide) (at_cons rfl (at_cons rfl
      (at_cons rfl at_nil))))).trans (by rw [field_eq (d := ww) F rfl, field_eq (d := e) F rfl, field_eq (d := d) F rfl, field_eq (d := s)
      F rfl, field_eq (d := l) F rfl, field_eq (d := t) F rfl, field_eq (d := u) F rfl, field_eq (d := k) F rfl, field_eq (d := p) F rfl,
      field_eq (d := v) F rfl])
theorem vscat (ww : BitVec 2) (e : BitVec 2) (d : BitVec 4) (s : BitVec 4) (l : BitVec 1) (t : BitVec 4) (u : BitVec 1) (k : BitVec 1) (p :
    BitVec 1) (q : BitVec 1) (v : BitVec 2) : Statement (.vscat ww e d s l t u k p q v) :=
  row_of [(2, v.toNat), (1, q.toNat), (1, p.toNat), (1, k.toNat), (1, u.toNat), (4, t.toNat), (1, l.toNat), (4, s.toNat), (4, d.toNat), (2,
    e.toNat), (2, ww.toNat), (6, 34), (3, 4)] rfl
    (fits_cons v.isLt (fits_cons q.isLt (fits_cons p.isLt (fits_cons k.isLt (fits_cons u.isLt (fits_cons t.isLt (fits_cons l.isLt
      (fits_cons s.isLt (fits_cons d.isLt (fits_cons e.isLt (fits_cons ww.isLt (fits_cons (by decide) (fits_cons (by decide)
      fits_nil))))))))))))) rfl (by simp only [cat]; omega) fun w F =>
    ((row_vector (op := 34) F rfl rfl).trans (fixed_ok F [(23, 6, 34), (29, 3, 4)] (by decide) (at_cons rfl (at_cons rfl at_nil)))).trans
      (by rw [field_eq (d := ww) F rfl, field_eq (d := e) F rfl, field_eq (d := d) F rfl, field_eq (d := s) F rfl, field_eq (d := l) F rfl,
      field_eq (d := t) F rfl, field_eq (d := u) F rfl, field_eq (d := k) F rfl, field_eq (d := p) F rfl, field_eq (d := q) F rfl, field_eq
      (d := v) F rfl])
theorem vrand (ww : BitVec 2) (e : BitVec 2) (d : BitVec 4) (t : BitVec 3) (u : BitVec 1) (k : BitVec 1) (p : BitVec 1) (v : BitVec 1) :
    Statement (.vrand ww e d t u k p v) :=
  row_of [(1, v.toNat), (2, 0), (1, p.toNat), (1, k.toNat), (1, u.toNat), (3, t.toNat), (6, 0), (4, d.toNat), (2, e.toNat), (2, ww.toNat),
    (6, 35), (3, 4)] rfl
    (fits_cons v.isLt (fits_cons (by decide) (fits_cons p.isLt (fits_cons k.isLt (fits_cons u.isLt (fits_cons t.isLt (fits_cons (by decide)
      (fits_cons d.isLt (fits_cons e.isLt (fits_cons ww.isLt (fits_cons (by decide) (fits_cons (by decide) fits_nil)))))))))))) rfl
      (by simp only [cat]; omega) fun w F =>
    ((row_vector (op := 35) F rfl rfl).trans (fixed_ok F [(1, 2, 0), (9, 6, 0), (23, 6, 35), (29, 3, 4)] (by decide) (at_cons rfl (at_cons
      rfl (at_cons rfl (at_cons rfl at_nil)))))).trans (by rw [field_eq (d := ww) F rfl, field_eq (d := e) F rfl, field_eq (d := d) F rfl,
      field_eq (d := t) F rfl, field_eq (d := u) F rfl, field_eq (d := k) F rfl, field_eq (d := p) F rfl, field_eq (d := v) F rfl])
theorem vdrop (ww : BitVec 2) (e : BitVec 2) (d : BitVec 4) (s : BitVec 4) (l : BitVec 1) (t : BitVec 2) (u : BitVec 1) (k : BitVec 1) (p :
    BitVec 1) (q : BitVec 1) : Statement (.vdrop ww e d s l t u k p q) :=
  row_of [(2, 0), (1, q.toNat), (1, p.toNat), (1, k.toNat), (1, u.toNat), (1, 0), (2, t.toNat), (1, 0), (1, l.toNat), (4, s.toNat), (4,
    d.toNat), (2, e.toNat), (2, ww.toNat), (6, 36), (3, 4)] rfl
    (fits_cons (by decide) (fits_cons q.isLt (fits_cons p.isLt (fits_cons k.isLt (fits_cons u.isLt (fits_cons (by decide) (fits_cons t.isLt
      (fits_cons (by decide) (fits_cons l.isLt (fits_cons s.isLt (fits_cons d.isLt (fits_cons e.isLt (fits_cons ww.isLt (fits_cons (by
      decide) (fits_cons (by decide) fits_nil))))))))))))))) rfl (by simp only [cat]; omega) fun w F =>
    ((row_vector (op := 36) F rfl rfl).trans (fixed_ok F [(0, 2, 0), (6, 1, 0), (9, 1, 0), (23, 6, 36), (29, 3, 4)] (by decide) (at_cons
      rfl (at_cons rfl (at_cons rfl (at_cons rfl (at_cons rfl at_nil))))))).trans (by rw [field_eq (d := ww) F rfl, field_eq (d := e) F
      rfl, field_eq (d := d) F rfl, field_eq (d := s) F rfl, field_eq (d := l) F rfl, field_eq (d := t) F rfl, field_eq (d := u) F rfl,
      field_eq (d := k) F rfl, field_eq (d := p) F rfl, field_eq (d := q) F rfl])
theorem aset (ww : BitVec 2) (e : BitVec 2) (d : BitVec 4) (s : BitVec 3) (l : BitVec 1) (z : BitVec 1) : Statement (.aset ww e d s l z) :=
  row_of [(1, z.toNat), (9, 0), (1, l.toNat), (3, s.toNat), (1, 0), (4, d.toNat), (2, e.toNat), (2, ww.toNat), (6, 37), (3, 4)] rfl
    (fits_cons z.isLt (fits_cons (by decide) (fits_cons l.isLt (fits_cons s.isLt (fits_cons (by decide) (fits_cons d.isLt (fits_cons e.isLt
      (fits_cons ww.isLt (fits_cons (by decide) (fits_cons (by decide) fits_nil)))))))))) rfl (by simp only [cat]; omega) fun w F =>
    ((row_vector (op := 37) F rfl rfl).trans (fixed_ok F [(1, 9, 0), (14, 1, 0), (23, 6, 37), (29, 3, 4)] (by decide) (at_cons rfl (at_cons
      rfl (at_cons rfl (at_cons rfl at_nil)))))).trans (by rw [field_eq (d := ww) F rfl, field_eq (d := e) F rfl, field_eq (d := d) F rfl,
      field_eq (d := s) F rfl, field_eq (d := l) F rfl, field_eq (d := z) F rfl])
theorem amod (ww : BitVec 2) (e : BitVec 2) (d : BitVec 4) (s : BitVec 3) (l : BitVec 1) : Statement (.amod ww e d s l) :=
  row_of [(10, 0), (1, l.toNat), (3, s.toNat), (1, 0), (4, d.toNat), (2, e.toNat), (2, ww.toNat), (6, 38), (3, 4)] rfl
    (fits_cons (by decide) (fits_cons l.isLt (fits_cons s.isLt (fits_cons (by decide) (fits_cons d.isLt (fits_cons e.isLt (fits_cons
      ww.isLt (fits_cons (by decide) (fits_cons (by decide) fits_nil))))))))) rfl (by simp only [cat]; omega) fun w F =>
    ((row_vector (op := 38) F rfl rfl).trans (fixed_ok F [(0, 10, 0), (14, 1, 0), (23, 6, 38), (29, 3, 4)] (by decide) (at_cons rfl
      (at_cons rfl (at_cons rfl (at_cons rfl at_nil)))))).trans (by rw [field_eq (d := ww) F rfl, field_eq (d := e) F rfl, field_eq (d :=
      d) F rfl, field_eq (d := s) F rfl, field_eq (d := l) F rfl])
theorem astep (ww : BitVec 2) (e : BitVec 2) (d : BitVec 4) (s : BitVec 4) (l : BitVec 1) (i : BitVec 10) : Statement (.astep ww e d s l i)
    :=
  row_of [(10, i.toNat), (1, l.toNat), (4, s.toNat), (4, d.toNat), (2, e.toNat), (2, ww.toNat), (6, 39), (3, 4)] rfl
    (fits_cons i.isLt (fits_cons l.isLt (fits_cons s.isLt (fits_cons d.isLt (fits_cons e.isLt (fits_cons ww.isLt (fits_cons (by decide)
      (fits_cons (by decide) fits_nil)))))))) rfl (by simp only [cat]; omega) fun w F =>
    ((row_vector (op := 39) F rfl rfl).trans (fixed_ok F [(23, 6, 39), (29, 3, 4)] (by decide) (at_cons rfl (at_cons rfl at_nil)))).trans
      (by rw [field_eq (d := ww) F rfl, field_eq (d := e) F rfl, field_eq (d := d) F rfl, field_eq (d := s) F rfl, field_eq (d := l) F rfl,
      field_eq (d := i) F rfl])
theorem amov (ww : BitVec 2) (e : BitVec 2) (d : BitVec 4) (s : BitVec 4) (l : BitVec 1) (m : BitVec 2) : Statement (.amov ww e d s l m) :=
  row_of [(2, m.toNat), (8, 0), (1, l.toNat), (4, s.toNat), (4, d.toNat), (2, e.toNat), (2, ww.toNat), (6, 40), (3, 4)] rfl
    (fits_cons m.isLt (fits_cons (by decide) (fits_cons l.isLt (fits_cons s.isLt (fits_cons d.isLt (fits_cons e.isLt (fits_cons ww.isLt
      (fits_cons (by decide) (fits_cons (by decide) fits_nil))))))))) rfl (by simp only [cat]; omega) fun w F =>
    ((row_vector (op := 40) F rfl rfl).trans (fixed_ok F [(2, 8, 0), (23, 6, 40), (29, 3, 4)] (by decide) (at_cons rfl (at_cons rfl
      (at_cons rfl at_nil))))).trans (by rw [field_eq (d := ww) F rfl, field_eq (d := e) F rfl, field_eq (d := d) F rfl, field_eq (d := s)
      F rfl, field_eq (d := l) F rfl, field_eq (d := m) F rfl])
theorem vmovs (ww : BitVec 2) (e : BitVec 2) (d : BitVec 4) (s : BitVec 4) (l : BitVec 1) (q : BitVec 1) (r : BitVec 1) (z : BitVec 2) :
    Statement (.vmovs ww e d s l q r z) :=
  row_of [(2, z.toNat), (1, r.toNat), (1, q.toNat), (6, 0), (1, l.toNat), (4, s.toNat), (4, d.toNat), (2, e.toNat), (2, ww.toNat), (6, 41),
    (3, 4)] rfl
    (fits_cons z.isLt (fits_cons r.isLt (fits_cons q.isLt (fits_cons (by decide) (fits_cons l.isLt (fits_cons s.isLt (fits_cons d.isLt
      (fits_cons e.isLt (fits_cons ww.isLt (fits_cons (by decide) (fits_cons (by decide) fits_nil))))))))))) rfl
      (by simp only [cat]; omega) fun w F =>
    ((row_vector (op := 41) F rfl rfl).trans (fixed_ok F [(4, 6, 0), (23, 6, 41), (29, 3, 4)] (by decide) (at_cons rfl (at_cons rfl
      (at_cons rfl at_nil))))).trans (by rw [field_eq (d := ww) F rfl, field_eq (d := e) F rfl, field_eq (d := d) F rfl, field_eq (d := s)
      F rfl, field_eq (d := l) F rfl, field_eq (d := q) F rfl, field_eq (d := r) F rfl, field_eq (d := z) F rfl])
theorem vloop (n : BitVec 6) (c : BitVec 2) (i : BitVec 11) : Statement (.vloop n c i) :=
  row_of [(11, i.toNat), (2, c.toNat), (6, n.toNat), (4, 0), (6, 42), (3, 4)] rfl
    (fits_cons i.isLt (fits_cons c.isLt (fits_cons n.isLt (fits_cons (by decide) (fits_cons (by decide) (fits_cons (by decide)
      fits_nil)))))) rfl (by simp only [cat]; omega) fun w F =>
    ((row_vector (op := 42) F rfl rfl).trans (fixed_ok F [(19, 4, 0), (23, 6, 42), (29, 3, 4)] (by decide) (at_cons rfl (at_cons rfl
      (at_cons rfl at_nil))))).trans (by rw [field_eq (d := n) F rfl, field_eq (d := c) F rfl, field_eq (d := i) F rfl])
theorem vnop (ww : BitVec 2) (e : BitVec 2) : Statement (.vnop ww e) :=
  row_of [(19, 0), (2, e.toNat), (2, ww.toNat), (6, 43), (3, 4)] rfl
    (fits_cons (by decide) (fits_cons e.isLt (fits_cons ww.isLt (fits_cons (by decide) (fits_cons (by decide) fits_nil))))) rfl
      (by simp only [cat]; omega) fun w F =>
    ((row_vector (op := 43) F rfl rfl).trans (fixed_ok F [(0, 19, 0), (23, 6, 43), (29, 3, 4)] (by decide) (at_cons rfl (at_cons rfl
      (at_cons rfl at_nil))))).trans (by rw [field_eq (d := ww) F rfl, field_eq (d := e) F rfl])
theorem sexp2 (ww : BitVec 2) (e : BitVec 2) (d : BitVec 4) (s : BitVec 4) (l : BitVec 1) (k : BitVec 1) (p : BitVec 1) (q : BitVec 1) :
    Statement (.sexp2 ww e d s l k p q) :=
  row_of [(2, 0), (1, q.toNat), (1, p.toNat), (1, k.toNat), (5, 0), (1, l.toNat), (4, s.toNat), (4, d.toNat), (2, e.toNat), (2, ww.toNat),
    (6, 0), (3, 5)] rfl
    (fits_cons (by decide) (fits_cons q.isLt (fits_cons p.isLt (fits_cons k.isLt (fits_cons (by decide) (fits_cons l.isLt (fits_cons s.isLt
      (fits_cons d.isLt (fits_cons e.isLt (fits_cons ww.isLt (fits_cons (by decide) (fits_cons (by decide) fits_nil)))))))))))) rfl
      (by simp only [cat]; omega) fun w F =>
    ((row_special (op := 0) F rfl rfl).trans (fixed_ok F [(0, 2, 0), (5, 5, 0), (23, 6, 0), (29, 3, 5)] (by decide) (at_cons rfl (at_cons
      rfl (at_cons rfl (at_cons rfl at_nil)))))).trans (by rw [field_eq (d := ww) F rfl, field_eq (d := e) F rfl, field_eq (d := d) F rfl,
      field_eq (d := s) F rfl, field_eq (d := l) F rfl, field_eq (d := k) F rfl, field_eq (d := p) F rfl, field_eq (d := q) F rfl])
theorem slog2 (ww : BitVec 2) (e : BitVec 2) (d : BitVec 4) (s : BitVec 4) (l : BitVec 1) (k : BitVec 1) (p : BitVec 1) (q : BitVec 1) :
    Statement (.slog2 ww e d s l k p q) :=
  row_of [(2, 0), (1, q.toNat), (1, p.toNat), (1, k.toNat), (5, 0), (1, l.toNat), (4, s.toNat), (4, d.toNat), (2, e.toNat), (2, ww.toNat),
    (6, 1), (3, 5)] rfl
    (fits_cons (by decide) (fits_cons q.isLt (fits_cons p.isLt (fits_cons k.isLt (fits_cons (by decide) (fits_cons l.isLt (fits_cons s.isLt
      (fits_cons d.isLt (fits_cons e.isLt (fits_cons ww.isLt (fits_cons (by decide) (fits_cons (by decide) fits_nil)))))))))))) rfl
      (by simp only [cat]; omega) fun w F =>
    ((row_special (op := 1) F rfl rfl).trans (fixed_ok F [(0, 2, 0), (5, 5, 0), (23, 6, 1), (29, 3, 5)] (by decide) (at_cons rfl (at_cons
      rfl (at_cons rfl (at_cons rfl at_nil)))))).trans (by rw [field_eq (d := ww) F rfl, field_eq (d := e) F rfl, field_eq (d := d) F rfl,
      field_eq (d := s) F rfl, field_eq (d := l) F rfl, field_eq (d := k) F rfl, field_eq (d := p) F rfl, field_eq (d := q) F rfl])
theorem sexp (ww : BitVec 2) (e : BitVec 2) (d : BitVec 4) (s : BitVec 4) (l : BitVec 1) (k : BitVec 1) (p : BitVec 1) (q : BitVec 1) :
    Statement (.sexp ww e d s l k p q) :=
  row_of [(2, 0), (1, q.toNat), (1, p.toNat), (1, k.toNat), (5, 0), (1, l.toNat), (4, s.toNat), (4, d.toNat), (2, e.toNat), (2, ww.toNat),
    (6, 2), (3, 5)] rfl
    (fits_cons (by decide) (fits_cons q.isLt (fits_cons p.isLt (fits_cons k.isLt (fits_cons (by decide) (fits_cons l.isLt (fits_cons s.isLt
      (fits_cons d.isLt (fits_cons e.isLt (fits_cons ww.isLt (fits_cons (by decide) (fits_cons (by decide) fits_nil)))))))))))) rfl
      (by simp only [cat]; omega) fun w F =>
    ((row_special (op := 2) F rfl rfl).trans (fixed_ok F [(0, 2, 0), (5, 5, 0), (23, 6, 2), (29, 3, 5)] (by decide) (at_cons rfl (at_cons
      rfl (at_cons rfl (at_cons rfl at_nil)))))).trans (by rw [field_eq (d := ww) F rfl, field_eq (d := e) F rfl, field_eq (d := d) F rfl,
      field_eq (d := s) F rfl, field_eq (d := l) F rfl, field_eq (d := k) F rfl, field_eq (d := p) F rfl, field_eq (d := q) F rfl])
theorem sln (ww : BitVec 2) (e : BitVec 2) (d : BitVec 4) (s : BitVec 4) (l : BitVec 1) (k : BitVec 1) (p : BitVec 1) (q : BitVec 1) :
    Statement (.sln ww e d s l k p q) :=
  row_of [(2, 0), (1, q.toNat), (1, p.toNat), (1, k.toNat), (5, 0), (1, l.toNat), (4, s.toNat), (4, d.toNat), (2, e.toNat), (2, ww.toNat),
    (6, 3), (3, 5)] rfl
    (fits_cons (by decide) (fits_cons q.isLt (fits_cons p.isLt (fits_cons k.isLt (fits_cons (by decide) (fits_cons l.isLt (fits_cons s.isLt
      (fits_cons d.isLt (fits_cons e.isLt (fits_cons ww.isLt (fits_cons (by decide) (fits_cons (by decide) fits_nil)))))))))))) rfl
      (by simp only [cat]; omega) fun w F =>
    ((row_special (op := 3) F rfl rfl).trans (fixed_ok F [(0, 2, 0), (5, 5, 0), (23, 6, 3), (29, 3, 5)] (by decide) (at_cons rfl (at_cons
      rfl (at_cons rfl (at_cons rfl at_nil)))))).trans (by rw [field_eq (d := ww) F rfl, field_eq (d := e) F rfl, field_eq (d := d) F rfl,
      field_eq (d := s) F rfl, field_eq (d := l) F rfl, field_eq (d := k) F rfl, field_eq (d := p) F rfl, field_eq (d := q) F rfl])
theorem srcp (ww : BitVec 2) (e : BitVec 2) (d : BitVec 4) (s : BitVec 4) (l : BitVec 1) (k : BitVec 1) (p : BitVec 1) (q : BitVec 1) :
    Statement (.srcp ww e d s l k p q) :=
  row_of [(2, 0), (1, q.toNat), (1, p.toNat), (1, k.toNat), (5, 0), (1, l.toNat), (4, s.toNat), (4, d.toNat), (2, e.toNat), (2, ww.toNat),
    (6, 4), (3, 5)] rfl
    (fits_cons (by decide) (fits_cons q.isLt (fits_cons p.isLt (fits_cons k.isLt (fits_cons (by decide) (fits_cons l.isLt (fits_cons s.isLt
      (fits_cons d.isLt (fits_cons e.isLt (fits_cons ww.isLt (fits_cons (by decide) (fits_cons (by decide) fits_nil)))))))))))) rfl
      (by simp only [cat]; omega) fun w F =>
    ((row_special (op := 4) F rfl rfl).trans (fixed_ok F [(0, 2, 0), (5, 5, 0), (23, 6, 4), (29, 3, 5)] (by decide) (at_cons rfl (at_cons
      rfl (at_cons rfl (at_cons rfl at_nil)))))).trans (by rw [field_eq (d := ww) F rfl, field_eq (d := e) F rfl, field_eq (d := d) F rfl,
      field_eq (d := s) F rfl, field_eq (d := l) F rfl, field_eq (d := k) F rfl, field_eq (d := p) F rfl, field_eq (d := q) F rfl])
theorem sdiv (ww : BitVec 2) (e : BitVec 2) (d : BitVec 4) (s : BitVec 4) (l : BitVec 1) (t : BitVec 4) (u : BitVec 1) (k : BitVec 1) (p :
    BitVec 1) (q : BitVec 1) : Statement (.sdiv ww e d s l t u k p q) :=
  row_of [(2, 0), (1, q.toNat), (1, p.toNat), (1, k.toNat), (1, u.toNat), (4, t.toNat), (1, l.toNat), (4, s.toNat), (4, d.toNat), (2,
    e.toNat), (2, ww.toNat), (6, 5), (3, 5)] rfl
    (fits_cons (by decide) (fits_cons q.isLt (fits_cons p.isLt (fits_cons k.isLt (fits_cons u.isLt (fits_cons t.isLt (fits_cons l.isLt
      (fits_cons s.isLt (fits_cons d.isLt (fits_cons e.isLt (fits_cons ww.isLt (fits_cons (by decide) (fits_cons (by decide)
      fits_nil))))))))))))) rfl (by simp only [cat]; omega) fun w F =>
    ((row_special (op := 5) F rfl rfl).trans (fixed_ok F [(0, 2, 0), (23, 6, 5), (29, 3, 5)] (by decide) (at_cons rfl (at_cons rfl (at_cons
      rfl at_nil))))).trans (by rw [field_eq (d := ww) F rfl, field_eq (d := e) F rfl, field_eq (d := d) F rfl, field_eq (d := s) F rfl,
      field_eq (d := l) F rfl, field_eq (d := t) F rfl, field_eq (d := u) F rfl, field_eq (d := k) F rfl, field_eq (d := p) F rfl, field_eq
      (d := q) F rfl])
theorem ssqrt (ww : BitVec 2) (e : BitVec 2) (d : BitVec 4) (s : BitVec 4) (l : BitVec 1) (k : BitVec 1) (p : BitVec 1) (q : BitVec 1) :
    Statement (.ssqrt ww e d s l k p q) :=
  row_of [(2, 0), (1, q.toNat), (1, p.toNat), (1, k.toNat), (5, 0), (1, l.toNat), (4, s.toNat), (4, d.toNat), (2, e.toNat), (2, ww.toNat),
    (6, 6), (3, 5)] rfl
    (fits_cons (by decide) (fits_cons q.isLt (fits_cons p.isLt (fits_cons k.isLt (fits_cons (by decide) (fits_cons l.isLt (fits_cons s.isLt
      (fits_cons d.isLt (fits_cons e.isLt (fits_cons ww.isLt (fits_cons (by decide) (fits_cons (by decide) fits_nil)))))))))))) rfl
      (by simp only [cat]; omega) fun w F =>
    ((row_special (op := 6) F rfl rfl).trans (fixed_ok F [(0, 2, 0), (5, 5, 0), (23, 6, 6), (29, 3, 5)] (by decide) (at_cons rfl (at_cons
      rfl (at_cons rfl (at_cons rfl at_nil)))))).trans (by rw [field_eq (d := ww) F rfl, field_eq (d := e) F rfl, field_eq (d := d) F rfl,
      field_eq (d := s) F rfl, field_eq (d := l) F rfl, field_eq (d := k) F rfl, field_eq (d := p) F rfl, field_eq (d := q) F rfl])
theorem srsq (ww : BitVec 2) (e : BitVec 2) (d : BitVec 4) (s : BitVec 4) (l : BitVec 1) (k : BitVec 1) (p : BitVec 1) (q : BitVec 1) :
    Statement (.srsq ww e d s l k p q) :=
  row_of [(2, 0), (1, q.toNat), (1, p.toNat), (1, k.toNat), (5, 0), (1, l.toNat), (4, s.toNat), (4, d.toNat), (2, e.toNat), (2, ww.toNat),
    (6, 7), (3, 5)] rfl
    (fits_cons (by decide) (fits_cons q.isLt (fits_cons p.isLt (fits_cons k.isLt (fits_cons (by decide) (fits_cons l.isLt (fits_cons s.isLt
      (fits_cons d.isLt (fits_cons e.isLt (fits_cons ww.isLt (fits_cons (by decide) (fits_cons (by decide) fits_nil)))))))))))) rfl
      (by simp only [cat]; omega) fun w F =>
    ((row_special (op := 7) F rfl rfl).trans (fixed_ok F [(0, 2, 0), (5, 5, 0), (23, 6, 7), (29, 3, 5)] (by decide) (at_cons rfl (at_cons
      rfl (at_cons rfl (at_cons rfl at_nil)))))).trans (by rw [field_eq (d := ww) F rfl, field_eq (d := e) F rfl, field_eq (d := d) F rfl,
      field_eq (d := s) F rfl, field_eq (d := l) F rfl, field_eq (d := k) F rfl, field_eq (d := p) F rfl, field_eq (d := q) F rfl])
theorem stanh (ww : BitVec 2) (e : BitVec 2) (d : BitVec 4) (s : BitVec 4) (l : BitVec 1) (k : BitVec 1) (p : BitVec 1) (q : BitVec 1) :
    Statement (.stanh ww e d s l k p q) :=
  row_of [(2, 0), (1, q.toNat), (1, p.toNat), (1, k.toNat), (5, 0), (1, l.toNat), (4, s.toNat), (4, d.toNat), (2, e.toNat), (2, ww.toNat),
    (6, 8), (3, 5)] rfl
    (fits_cons (by decide) (fits_cons q.isLt (fits_cons p.isLt (fits_cons k.isLt (fits_cons (by decide) (fits_cons l.isLt (fits_cons s.isLt
      (fits_cons d.isLt (fits_cons e.isLt (fits_cons ww.isLt (fits_cons (by decide) (fits_cons (by decide) fits_nil)))))))))))) rfl
      (by simp only [cat]; omega) fun w F =>
    ((row_special (op := 8) F rfl rfl).trans (fixed_ok F [(0, 2, 0), (5, 5, 0), (23, 6, 8), (29, 3, 5)] (by decide) (at_cons rfl (at_cons
      rfl (at_cons rfl (at_cons rfl at_nil)))))).trans (by rw [field_eq (d := ww) F rfl, field_eq (d := e) F rfl, field_eq (d := d) F rfl,
      field_eq (d := s) F rfl, field_eq (d := l) F rfl, field_eq (d := k) F rfl, field_eq (d := p) F rfl, field_eq (d := q) F rfl])
theorem ssigm (ww : BitVec 2) (e : BitVec 2) (d : BitVec 4) (s : BitVec 4) (l : BitVec 1) (k : BitVec 1) (p : BitVec 1) (q : BitVec 1) :
    Statement (.ssigm ww e d s l k p q) :=
  row_of [(2, 0), (1, q.toNat), (1, p.toNat), (1, k.toNat), (5, 0), (1, l.toNat), (4, s.toNat), (4, d.toNat), (2, e.toNat), (2, ww.toNat),
    (6, 9), (3, 5)] rfl
    (fits_cons (by decide) (fits_cons q.isLt (fits_cons p.isLt (fits_cons k.isLt (fits_cons (by decide) (fits_cons l.isLt (fits_cons s.isLt
      (fits_cons d.isLt (fits_cons e.isLt (fits_cons ww.isLt (fits_cons (by decide) (fits_cons (by decide) fits_nil)))))))))))) rfl
      (by simp only [cat]; omega) fun w F =>
    ((row_special (op := 9) F rfl rfl).trans (fixed_ok F [(0, 2, 0), (5, 5, 0), (23, 6, 9), (29, 3, 5)] (by decide) (at_cons rfl (at_cons
      rfl (at_cons rfl (at_cons rfl at_nil)))))).trans (by rw [field_eq (d := ww) F rfl, field_eq (d := e) F rfl, field_eq (d := d) F rfl,
      field_eq (d := s) F rfl, field_eq (d := l) F rfl, field_eq (d := k) F rfl, field_eq (d := p) F rfl, field_eq (d := q) F rfl])
theorem ssin (ww : BitVec 2) (e : BitVec 2) (d : BitVec 4) (s : BitVec 4) (l : BitVec 1) (k : BitVec 1) (p : BitVec 1) (q : BitVec 1) :
    Statement (.ssin ww e d s l k p q) :=
  row_of [(2, 0), (1, q.toNat), (1, p.toNat), (1, k.toNat), (5, 0), (1, l.toNat), (4, s.toNat), (4, d.toNat), (2, e.toNat), (2, ww.toNat),
    (6, 10), (3, 5)] rfl
    (fits_cons (by decide) (fits_cons q.isLt (fits_cons p.isLt (fits_cons k.isLt (fits_cons (by decide) (fits_cons l.isLt (fits_cons s.isLt
      (fits_cons d.isLt (fits_cons e.isLt (fits_cons ww.isLt (fits_cons (by decide) (fits_cons (by decide) fits_nil)))))))))))) rfl
      (by simp only [cat]; omega) fun w F =>
    ((row_special (op := 10) F rfl rfl).trans (fixed_ok F [(0, 2, 0), (5, 5, 0), (23, 6, 10), (29, 3, 5)] (by decide) (at_cons rfl (at_cons
      rfl (at_cons rfl (at_cons rfl at_nil)))))).trans (by rw [field_eq (d := ww) F rfl, field_eq (d := e) F rfl, field_eq (d := d) F rfl,
      field_eq (d := s) F rfl, field_eq (d := l) F rfl, field_eq (d := k) F rfl, field_eq (d := p) F rfl, field_eq (d := q) F rfl])
theorem scos (ww : BitVec 2) (e : BitVec 2) (d : BitVec 4) (s : BitVec 4) (l : BitVec 1) (k : BitVec 1) (p : BitVec 1) (q : BitVec 1) :
    Statement (.scos ww e d s l k p q) :=
  row_of [(2, 0), (1, q.toNat), (1, p.toNat), (1, k.toNat), (5, 0), (1, l.toNat), (4, s.toNat), (4, d.toNat), (2, e.toNat), (2, ww.toNat),
    (6, 11), (3, 5)] rfl
    (fits_cons (by decide) (fits_cons q.isLt (fits_cons p.isLt (fits_cons k.isLt (fits_cons (by decide) (fits_cons l.isLt (fits_cons s.isLt
      (fits_cons d.isLt (fits_cons e.isLt (fits_cons ww.isLt (fits_cons (by decide) (fits_cons (by decide) fits_nil)))))))))))) rfl
      (by simp only [cat]; omega) fun w F =>
    ((row_special (op := 11) F rfl rfl).trans (fixed_ok F [(0, 2, 0), (5, 5, 0), (23, 6, 11), (29, 3, 5)] (by decide) (at_cons rfl (at_cons
      rfl (at_cons rfl (at_cons rfl at_nil)))))).trans (by rw [field_eq (d := ww) F rfl, field_eq (d := e) F rfl, field_eq (d := d) F rfl,
      field_eq (d := s) F rfl, field_eq (d := l) F rfl, field_eq (d := k) F rfl, field_eq (d := p) F rfl, field_eq (d := q) F rfl])
theorem serf (ww : BitVec 2) (e : BitVec 2) (d : BitVec 4) (s : BitVec 4) (l : BitVec 1) (k : BitVec 1) (p : BitVec 1) (q : BitVec 1) :
    Statement (.serf ww e d s l k p q) :=
  row_of [(2, 0), (1, q.toNat), (1, p.toNat), (1, k.toNat), (5, 0), (1, l.toNat), (4, s.toNat), (4, d.toNat), (2, e.toNat), (2, ww.toNat),
    (6, 12), (3, 5)] rfl
    (fits_cons (by decide) (fits_cons q.isLt (fits_cons p.isLt (fits_cons k.isLt (fits_cons (by decide) (fits_cons l.isLt (fits_cons s.isLt
      (fits_cons d.isLt (fits_cons e.isLt (fits_cons ww.isLt (fits_cons (by decide) (fits_cons (by decide) fits_nil)))))))))))) rfl
      (by simp only [cat]; omega) fun w F =>
    ((row_special (op := 12) F rfl rfl).trans (fixed_ok F [(0, 2, 0), (5, 5, 0), (23, 6, 12), (29, 3, 5)] (by decide) (at_cons rfl (at_cons
      rfl (at_cons rfl (at_cons rfl at_nil)))))).trans (by rw [field_eq (d := ww) F rfl, field_eq (d := e) F rfl, field_eq (d := d) F rfl,
      field_eq (d := s) F rfl, field_eq (d := l) F rfl, field_eq (d := k) F rfl, field_eq (d := p) F rfl, field_eq (d := q) F rfl])
theorem sfnop (ww : BitVec 2) (e : BitVec 2) : Statement (.sfnop ww e) :=
  row_of [(19, 0), (2, e.toNat), (2, ww.toNat), (6, 13), (3, 5)] rfl
    (fits_cons (by decide) (fits_cons e.isLt (fits_cons ww.isLt (fits_cons (by decide) (fits_cons (by decide) fits_nil))))) rfl
      (by simp only [cat]; omega) fun w F =>
    ((row_special (op := 13) F rfl rfl).trans (fixed_ok F [(0, 19, 0), (23, 6, 13), (29, 3, 5)] (by decide) (at_cons rfl (at_cons rfl
      (at_cons rfl at_nil))))).trans (by rw [field_eq (d := ww) F rfl, field_eq (d := e) F rfl])
theorem qpopRead (d : BitVec 5) (n : BitVec 4) : Statement (.qpopRead d n) := nofun
theorem xlateSettle (thr : Nat) (k : Nat) : Statement (.xlateSettle thr k) := nofun
theorem walkComplete (die : Nat) (k : Nat) : Statement (.walkComplete die k) := nofun
theorem monitorRequeueTimeout (task : Nat) : Statement (.monitorRequeueTimeout task) := nofun
theorem shootdown : Statement (.shootdown) := nofun
theorem shootdownCompletion : Statement (.shootdownCompletion) := nofun
theorem engineWordFinish (thr : Nat) (k : Nat) : Statement (.engineWordFinish thr k) := nofun
theorem pendingPersistPoint (thr : Nat) : Statement (.pendingPersistPoint thr) := nofun
theorem imageComplete (die : Nat) (k : Nat) : Statement (.imageComplete die k) := nofun
theorem commitImageCopyDone (die : Nat) (k : Nat) : Statement (.commitImageCopyDone die k) := nofun
theorem writeThroughArrival (die : Nat) (k : Nat) : Statement (.writeThroughArrival die k) := nofun
theorem flushMarkerAck (thr : Nat) (dest : Nat) : Statement (.flushMarkerAck thr dest) := nofun
theorem barrierAddition (k : Nat) : Statement (.barrierAddition k) := nofun
theorem queueElementArrival (thr : Nat) (k : Nat) : Statement (.queueElementArrival thr k) := nofun
theorem loaderSlotDelivery (thr : Nat) (q : Nat) : Statement (.loaderSlotDelivery thr q) := nofun
theorem storerSlotWrite (k : Nat) : Statement (.storerSlotWrite k) := nofun
theorem lapBoundary : Statement (.lapBoundary) := nofun
theorem frameHeaderArrival (lane : Nat) : Statement (.frameHeaderArrival lane) := nofun
theorem frameLastFlitArrival (lane : Nat) (badCrc : Bool) (badRes : Bool) : Statement (.frameLastFlitArrival lane badCrc badRes) := nofun
theorem leaseTimeout (cl : Nat) : Statement (.leaseTimeout cl) := nofun
theorem taskPlacement (die : Nat) : Statement (.taskPlacement die) := nofun
theorem shadowFillDone (core : Nat) : Statement (.shadowFillDone core) := nofun
theorem effectiveClassAging (task : Nat) : Statement (.effectiveClassAging task) := nofun
theorem deadlinePreemption (die : Nat) : Statement (.deadlinePreemption die) := nofun
theorem preemptForcedSave (thr : Nat) : Statement (.preemptForcedSave thr) := nofun
theorem graphReplayStart (slot : Nat) : Statement (.graphReplayStart slot) := nofun
theorem launchDoorbell (port : Nat) (queue : Nat) (tail : Nat) : Statement (.launchDoorbell port queue tail) := nofun
theorem launchRecord (queue : Nat) : Statement (.launchRecord queue) := nofun
theorem checkerMismatch (thr : Nat) : Statement (.checkerMismatch thr) := nofun
theorem fetchFault (thr : Nat) : Statement (.fetchFault thr) := nofun
theorem watchdog (thr : Nat) : Statement (.watchdog thr) := nofun
theorem idleTimeout (thr : Nat) : Statement (.idleTimeout thr) := nofun
theorem secdedFreezeEnd (core : Nat) : Statement (.secdedFreezeEnd core) := nofun
theorem bankRebuildEnd (str : Nat) (unit : Nat) : Statement (.bankRebuildEnd str unit) := nofun
theorem hbmParityReread (k : Nat) (ok : Bool) : Statement (.hbmParityReread k ok) := nofun
theorem hbmLaneSwapResume (k : Nat) (ok : Bool) : Statement (.hbmLaneSwapResume k ok) := nofun
theorem eventQueueHeadWrite (val : BitVec 32) : Statement (.eventQueueHeadWrite val) := nofun
theorem copyChunkDone (k : Nat) : Statement (.copyChunkDone k) := nofun
theorem curveDoorbell (val : Nat) : Statement (.curveDoorbell val) := nofun
theorem curveEntry : Statement (.curveEntry) := nofun
theorem gradeEvent : Statement (.gradeEvent) := nofun
theorem pendAnnounce : Statement (.pendAnnounce) := nofun
theorem parkStopTimeout (thr : Nat) : Statement (.parkStopTimeout thr) := nofun
theorem parkCopyDone (task : Nat) : Statement (.parkCopyDone task) := nofun
theorem suspendEvent : Statement (.suspendEvent) := nofun
theorem resumeEvent : Statement (.resumeEvent) := nofun
theorem fastLoop : Statement (.fastLoop) := nofun
theorem slowLoop : Statement (.slowLoop) := nofun
theorem exemptExpiry : Statement (.exemptExpiry) := nofun
theorem vcodeStepEnd (die : Nat) : Statement (.vcodeStepEnd die) := nofun
theorem fcodeHopEnd (cl : Nat) : Statement (.fcodeHopEnd cl) := nofun
theorem biasSettle (cl : Nat) : Statement (.biasSettle cl) := nofun
theorem permitRefill (cl : Nat) (hot : Bool) : Statement (.permitRefill cl hot) := nofun
theorem dieGate (die : Nat) : Statement (.dieGate die) := nofun
theorem dieSwitchOn (die : Nat) : Statement (.dieSwitchOn die) := nofun
theorem clusterSwitchOnRound (die : Nat) : Statement (.clusterSwitchOnRound die) := nofun
theorem parkListCopyDone (die : Nat) : Statement (.parkListCopyDone die) := nofun
theorem hbmRetentionEntry (stack : Nat) : Statement (.hbmRetentionEntry stack) := nofun
theorem energySample (vals : List Nat) : Statement (.energySample vals) := nofun
theorem energyLowHalfRead (req : Nat) (n : Nat) : Statement (.energyLowHalfRead req n) := nofun
theorem energyHighHalfRead (req : Nat) (n : Nat) : Statement (.energyHighHalfRead req n) := nofun
theorem voltageSample (die : Nat) (mvs : List Nat) : Statement (.voltageSample die mvs) := nofun
theorem vminRearm (die : Nat) : Statement (.vminRearm die) := nofun
theorem errorCounterClear (idx : Nat) (val : BitVec 64) : Statement (.errorCounterClear idx val) := nofun
theorem onyxBlockMove (die : Nat) (block : Nat) : Statement (.onyxBlockMove die block) := nofun
theorem droopTrip (cl : Nat) : Statement (.droopTrip cl) := nofun
theorem droopRecovery (cl : Nat) : Statement (.droopRecovery cl) := nofun
theorem hopRetry (cl : Nat) : Statement (.hopRetry cl) := nofun
theorem vcoreFault (die : Nat) : Statement (.vcoreFault die) := nofun
theorem clusterPowerLoss (cl : Nat) : Statement (.clusterPowerLoss cl) := nofun
theorem modulePowerLoss : Statement (.modulePowerLoss) := nofun
theorem vauxPowerGood : Statement (.vauxPowerGood) := nofun
theorem bootTimeout : Statement (.bootTimeout) := nofun
theorem railPowerGoodTimeout (rail : Nat) : Statement (.railPowerGoodTimeout rail) := nofun
theorem recoveryDoorbell (val : Nat) : Statement (.recoveryDoorbell val) := nofun
theorem hostWrite (port : Nat) (pa : Nat) (data : List Byte) : Statement (.hostWrite port pa data) := nofun
theorem hostRead (port : Nat) (pa : Nat) (len : Nat) : Statement (.hostRead port pa len) := nofun
theorem flr (port : Nat) : Statement (.flr port) := nofun
theorem registerWrite (req : Nat) (ofs : Nat) (val : BitVec 64) : Statement (.registerWrite req ofs val) := nofun
theorem createContext : Statement (.createContext) := nofun
theorem destroyContext : Statement (.destroyContext) := nofun
theorem installLapTable : Statement (.installLapTable) := nofun
theorem parkList : Statement (.parkList) := nofun
theorem telemetryBuffer : Statement (.telemetryBuffer) := nofun
theorem writeSlotTable : Statement (.writeSlotTable) := nofun
theorem savePool : Statement (.savePool) := nofun
theorem preEmptTask : Statement (.preEmptTask) := nofun
theorem clearDegradedCore : Statement (.clearDegradedCore) := nofun
theorem restoreSnapshotDomain : Statement (.restoreSnapshotDomain) := nofun
theorem setUpCommunicator : Statement (.setUpCommunicator) := nofun
theorem cancelCollective : Statement (.cancelCollective) := nofun
theorem suspendRequest : Statement (.suspendRequest) := nofun
theorem resumeRequest : Statement (.resumeRequest) := nofun
theorem writeCoreOwnership : Statement (.writeCoreOwnership) := nofun
theorem registerParkArea : Statement (.registerParkArea) := nofun
theorem peerAccessArrival (peer : Nat) (kind : Nat) (pa : Nat) (mask : Nat) (data : List Byte) : Statement (.peerAccessArrival peer kind pa
    mask data) := nofun
theorem peerResponse (k : Nat) (data : List Byte) : Statement (.peerResponse k data) := nofun
theorem peerTimeout (k : Nat) : Statement (.peerTimeout k) := nofun
theorem peerRefusal (k : Nat) : Statement (.peerRefusal k) := nofun
theorem ethPacketArrival (port : Nat) (msg : Nat) (pkt : Nat) (ofs : Nat) (data : List Byte) : Statement (.ethPacketArrival port msg pkt
    ofs data) := nofun
theorem ethAckArrival (msg : Nat) (pkts : List Nat) : Statement (.ethAckArrival msg pkts) := nofun
theorem ethRetransmitTimeout (msg : Nat) (pkt : Nat) : Statement (.ethRetransmitTimeout msg pkt) := nofun
theorem collectiveChunkDone (k : Nat) : Statement (.collectiveChunkDone k) := nofun
theorem collectiveStall (k : Nat) (rank : Nat) : Statement (.collectiveStall k rank) := nofun
theorem getVersion (path : Nat) (req : List Byte) : Statement (.getVersion path req) := nofun
theorem getCapabilities (path : Nat) (req : List Byte) : Statement (.getCapabilities path req) := nofun
theorem negotiateAlgorithms (path : Nat) (req : List Byte) : Statement (.negotiateAlgorithms path req) := nofun
theorem getDigests (path : Nat) (req : List Byte) : Statement (.getDigests path req) := nofun
theorem getCertificate (path : Nat) (req : List Byte) : Statement (.getCertificate path req) := nofun
theorem challenge (path : Nat) (req : List Byte) : Statement (.challenge path req) := nofun
theorem getMeasurements (path : Nat) (req : List Byte) : Statement (.getMeasurements path req) := nofun
theorem spdmUnsupportedRequest (path : Nat) (req : List Byte) : Statement (.spdmUnsupportedRequest path req) := nofun
theorem mboxSend (len : BitVec 13) : Statement (.mboxSend len) := nofun
theorem engInit (cx : BitVec 4) : Statement (.engInit cx) := nofun
theorem engAbsorb (cx : BitVec 4) (len : BitVec 13) : Statement (.engAbsorb cx len) := nofun
theorem engDigest (cx : BitVec 4) : Statement (.engDigest cx) := nofun
theorem engClone (cx : BitVec 4) (cy : BitVec 4) : Statement (.engClone cx cy) := nofun
theorem engExtend (cx : BitVec 4) : Statement (.engExtend cx) := nofun
theorem engSign (cy : BitVec 4) : Statement (.engSign cy) := nofun
theorem engRand (len : BitVec 13) : Statement (.engRand len) := nofun
theorem engMblock (cx : BitVec 4) : Statement (.engMblock cx) := nofun
theorem engMove (len : BitVec 13) : Statement (.engMove len) := nofun
theorem controlPathAccessPerforms (thr : Nat) (k : Nat) : Statement (.controlPathAccessPerforms thr k) := nofun
theorem hostCompletion (port : Nat) : Statement (.hostCompletion port) := nofun
theorem birspArrival (port : Nat) (line : Nat) : Statement (.birspArrival port line) := nofun
theorem hbmScrub (stack : Nat) (pch : Nat) (bank : Nat) (row : Nat) (col : Nat) : Statement (.hbmScrub stack pch bank row col) := nofun
theorem versionOverflowRequeue (task : Nat) : Statement (.versionOverflowRequeue task) := nofun
theorem moduleReset : Statement (.moduleReset) := nofun
theorem railPowerGood (rail : Nat) : Statement (.railPowerGood rail) := nofun

end Sys2Proof.Laws.Enc
end

