-- ==== Sys2Proof/Laws/Requests.lean ====
section
/-! SUPPORT. What the service of a request answers: finished, still going on, or refused. -/

namespace Sys2Proof.Machine

open Sys2Proof

/-- A request whose effect finishes it posts its STATUS. -/
theorem serve_ok {s t : State} {op st : Nat} {l : List Byte} {f : List Byte → State → State × Option Nat}
    (h : ReqGo s op l) (h0 : op ≠ 0) (h1 : op ≤ 16) (hf : f l s = (t, some st)) : s.serve op f = t.reqFinish st := by
  obtain ⟨a, b, c, d⟩ := h
  unfold State.serve
  rw [a]
  simp only [b, c, d]
  rw [hf]
  have : ¬ (op = 0 ∨ op > 16) := by omega
  simp
  omega

/-- A request that goes on leaves what its effect leaves. -/
theorem serve_none {s t : State} {op : Nat} {l : List Byte} {f : List Byte → State → State × Option Nat}
    (h : ReqGo s op l) (h0 : op ≠ 0) (h1 : op ≤ 16) (hf : f l s = (t, none)) : s.serve op f = t := by
  obtain ⟨a, b, c, d⟩ := h
  unfold State.serve
  rw [a]
  simp only [b, c, d]
  rw [hf]
  have : ¬ (op = 0 ∨ op > 16) := by omega
  simp
  omega

/-- A request with an unknown code or a reserved bit set is refused by every event that finds it. -/
theorem serve_refused {s : State} {op : Nat} {l : List Byte} {f : List Byte → State → State × Option Nat}
    (h : s.oldestReq = some l) (h0 : s.shoots = []) (h1 : field l 0 1 = 0 ∨ field l 0 1 > 16 ∨ field l 4 4 ≠ 0) (h4 : field l 0 1 ≠ 4) :
    s.serve op f = s.reqFinish 1 := by
  simp [State.serve, h, h0, h1, h4]

/-- With no request waiting nothing happens. -/
theorem serve_idle {s : State} {op : Nat} {f : List Byte → State → State × Option Nat} (h : s.oldestReq = none) : s.serve op f = s := by
  simp [State.serve, h]

end Sys2Proof.Machine
end

