-- ==== Sys2Proof/Tests/Slice0.lean ====
section
/-! SUPPORT. Tests: words of the spec against the decoder, ill-formed terms against the checks, single steps against worked results of the
spec, and for each statement concrete states and operands that meet its hypotheses. -/

namespace Sys2Proof.Tests

set_option Elab.async false

open Sys2Proof Sys2Proof.Machine

/-! ## Helpers -/

/-- An answer that succeeds with a value of which `p` holds. -/
def okB {α : Type} (m : M α) (p : α → Bool) : Bool :=
  match m with
  | .ok x => p x
  | .error _ => false

/-- A read at home that succeeds in a state of which `p` holds. -/
def okE {α β : Type} (m : Except α β) (p : β → Bool) : Bool :=
  match m with
  | .ok x => p x
  | .error _ => false

/-- A commit or a release that is done in a state of which `p` holds. -/
def doneB (g : Going) (p : State → Bool) : Bool :=
  match g with
  | .done s => p s
  | _ => false

/-- The next state of an instruction has a property. -/
def nextB (o : Out) (p : State → Bool) : Bool :=
  match o with
  | .next t => p t
  | _ => false

/-- The conditions of a control word that executes, as a test. -/
def goB (s : State) (hz : Bool) : Bool :=
  (s.th.inh || s.th.ph.stage != 0 || s.th.async.isEmpty) && !s.th.predFails && !(s.th.passed.any fun p => p.seq == s.th.seq && p.sq == .ctl) &&
    (!s.th.orderPending || s.th.ph != Phase.none) && (!hz || s.th.atHorizon)

theorem goB_ctlGo {s : State} {hz : Bool} (h : goB s hz = true) : CtlGo s hz := by
  simp only [goB, Bool.and_eq_true, Bool.or_eq_true, Bool.not_eq_true', bne_iff_ne, List.isEmpty_iff] at h
  obtain ⟨⟨⟨⟨h1, h2⟩, h5⟩, h3⟩, h4⟩ := h
  refine ⟨?_, h2, h5, h3, ?_⟩
  · rcases h1 with (h1 | h1) | h1
    · exact .inl h1
    · exact .inr (.inl h1)
    · exact .inr (.inr h1)
  · intro hz'
    subst hz'
    simpa using h4

/-- The conditions of an engine word that issues, as a test. -/
def issueB (s : State) (eng : Eng) (c : Cur) (i : Instr) : Bool :=
  decide (s.cur = some c) && s.th.hasTokens c.sq (s.th.owed c.unit (wordOf i)) && s.hasPermit s.me c.sq (permitClass eng) &&
    !(s.th.passed.any fun p => p.seq == c.unit.seq && p.sq == c.sq)

theorem issueB_issueGo {s : State} {eng : Eng} {c : Cur} {i : Instr} (h : issueB s eng c i = true) : IssueGo s eng c i := by
  simp only [issueB, Bool.and_eq_true, decide_eq_true_eq, Bool.not_eq_true'] at h
  exact ⟨h.1.1.1, h.1.1.2, h.1.2, h.2⟩

/-- Thread 0 of a task of one thread, right after its launch. -/
def base : State := State.reset.withThread

/-- The same with its registers changed. -/
def withTh (f : Thread → Thread) : State := base.modThread 0 f

/-- A unit of a word that stands alone. -/
def unitOf (i : Instr) : QUnit :=
  { seq := 0, pc := 0, next := 4, pfx := [], word := wordOf i, marker := false, snap := Thread.blank.snap, snapN := Thread.blank.snap,
    rep := 0, n := 1, mask := 0, begun := false }

/-- The state in which an engine sequencer stands at a word. -/
def atWord (q : Sq) (i : Instr) (s : State) : State := { s with cur := some ⟨q, false, unitOf i⟩ }

/-- A valid handle with every right on the first page of stack 0. -/
def fullHandle : W := mkHandle 0 0 0 7 2

/-- Handle 2 valid, with every right. -/
def withH (f : Thread → Thread) : State := withTh fun t => f { t with h := vset t.h 2 fullHandle }

/-! ## Witnesses: the machine as a whole -/

theorem witness_step_event : ({ base with turns := [.event (.secdedFreezeEnd 0) 1] } : State).turns = .event (.secdedFreezeEnd 0) 1 :: [] := rfl

/-- A fetch turn that meets every condition, with an ADD at the PC, with an EXTI, and with an engine word. -/
theorem witness_step_fetch :
    let s := base.placeWord 0x000C9280#32
    (s.turns == [.fetch 0 1]) && s.canAct 0 && (s.thread 0).trapPend.isNone && !(s.thread 0).heldByCommit .ctl && (s.thread 0).idleUntil.isNone &&
      !(s.thread 0).saveStop s.now && !(s.thread 0).pointDue s.now && (s.secdedHit 0).isNone && !s.atPeer 0 &&
      ((s.tlbHit 0 (s.thread 0).pc rightRD).any fun e => e.frame == 0 && okB ((s.tlbFill 0 e).deviceRead 0) fun s0 =>
        !s0.isPoison 0 && decide (BitVec.ofNat 32 (s0.homeNat 0 4) = 0x000C9280#32)) &&
      (match checkUnit (s.thread 0).pfx 0x000C9280#32 with | .ok _ => true | .error _ => false) && decide (wordEng 0x000C9280#32 = some .control) &&
      isPrefix 0xF00009E4#32 && decide (wordEng 0x20011080#32 ≠ some .control ∧ wordEng 0x20011080#32 ≠ some .system) &&
      (match checkUnit [] 0x20011080#32 with | .ok _ => true | .error _ => false) = true := by decide +kernel

/-- A fetch turn of Agate's thread at its wait, where a control word of the routine stands. -/
theorem witness_step_agate :
    let s := { (base.setThread agateThr agateStart) with turns := [.fetch agateThr 1], boot := { base.boot with stage := 4 } }
    let t := s.thread agateThr
    (s.canAct agateThr && !t.saveStop s.now && t.trapPend.isNone && !t.pointDue s.now && !t.heldByCommit .ctl && t.idleUntil.isNone &&
      (s.secdedHit agateThr).isNone && (match agateFetch t.pc with
        | some w => !isPrefix w && decide (wordEng w = some .control ∨ wordEng w = some .system) &&
          (match Machine.unitOf agateThr t.pfx w with | .ok _ => !t.repOver | .error _ => false) &&
          (match decode (repWord w t.repNow.2.1 t.repNow.2.2 t.repNow.1) with | .ok _ => true | .error _ => false)
        | none => false)) = true := by decide +kernel

theorem witness_step_seq :
    let u := unitOf (.lnop 0 0)
    let s := withTh fun t => { t with ldQ := [u] }
    s.canAct 0 && (s.thread 0).mayGo .load s.now && ((s.thread 0).skipCapture .load).isNone &&
      decide ((s.thread 0).nextUnit .load = some (u, false)) && (s.thread 0).mayIssue .load u false &&
      (match decode (repWord u.word u.n u.mask u.rep) with | .ok _ => true | .error _ => false) = true := by decide +kernel

/-- A port that is up, and an address that no part of the map backs. -/
theorem witness_unbacked :
    let s := { base with ports := vset base.ports 0 { Port.blank with up := true } }
    (s.port 0).up && s.touchesUnbacked 0x80000000000 1 = true := by decide +kernel

theorem witness_encoded : (Instr.ld 0 0 2 1 0 1 0 0 0).wf = true ∧ encode (.ld 0 0 2 1 0 1 0 0 0) = some 0x20011080#32 := by decide

/-- A register file each of whose elements passes a test reads values that pass it, at every number. -/
theorem vget_all {α : Type} {n : Nat} {p : α → Bool} {v : Vector α n} {d : α} (h : v.toList.all p = true) (hd : p d = true) (i : Nat) :
    p (vget v i d) = true := by
  unfold vget
  cases e : v[i]? with
  | none => exact hd
  | some x =>
    have hi : v.toList[i]? = some x := by simpa using e
    exact List.all_eq_true.mp h x (List.mem_of_getElem? hi)

/-- The ranges of a thread's registers, as a test. -/
def regsB (t : Thread) : Bool :=
  t.tok.toList.all (fun n => decide (n ≤ 63)) && t.vc != 0#16 && t.status &&& statusReserved == 0#32 && bits t.trapCause.toNat 31 19 == 0 &&
    decide (t.trapPc.toNat < 2 ^ 57) && t.repState &&& 0x7FC0F8C0#32 == 0#32 && t.handlerBase &&& 0xFE00000000000FFE#64 == 0#64 &&
    decide (t.roundMode.toNat ≤ 4) && decide (t.boundCtl.toNat < 8) && decide (t.boundCtl.toNat % 4 ≠ 3) && decide (t.fmtBase.toNat < 64) &&
    t.ft.toList.all fun x => bits x.toNat 11 0 == 0

theorem regsB_regsOk {t : Thread} (h : regsB t = true) : t.RegsOk := by
  simp only [regsB, Bool.and_eq_true, beq_iff_eq, bne_iff_ne, decide_eq_true_eq] at h
  obtain ⟨⟨⟨⟨⟨⟨⟨⟨⟨⟨⟨h1, h2⟩, h3⟩, h4⟩, h5⟩, h6⟩, h7⟩, h8⟩, h9⟩, h10⟩, h11⟩, h12⟩ := h
  exact ⟨fun i => by simpa using vget_all (p := fun n => decide (n ≤ 63)) h1 (by decide) i, h2, h3, h4, h5, h6, h7, h8, h9, h10, h11,
    fun i => by simpa using vget_all (p := fun x : W32 => bits x.toNat 11 0 == 0) h12 (by decide) i⟩

/-- A machine with one thread, no image and an event to come: its registers are in their ranges, and it takes a step. -/
theorem witness_registers :
    let s := { base with turns := [.event (.secdedFreezeEnd 0) 1] }
    s.RegsOk ∧ nextB (step s) (fun _ => true) = true ∧ Memory.wf s.mem = true := by
  refine ⟨⟨?_, ?_, ?_, ?_⟩, by decide +kernel, by decide +kernel⟩
  · have h : ({ base with turns := [.event (.secdedFreezeEnd 0) 1] } : State).thr.all (fun e => regsB e.2) = true := by decide +kernel
    exact fun e he => regsB_regsOk (List.all_eq_true.mp h e he)
  · have h : ({ base with turns := [.event (.secdedFreezeEnd 0) 1] } : State).tasks.all
        (fun x => x.saved.isEmpty && x.origins.isEmpty && x.kept.isEmpty) = true := by decide +kernel
    intro x hx i hi
    have hx' := List.all_eq_true.mp h x hx
    simp only [Bool.and_eq_true, List.isEmpty_iff] at hx'
    simp [hx'.1.1, hx'.1.2, hx'.2] at hi
  · have h : ({ base with turns := [.event (.secdedFreezeEnd 0) 1] } : State).cores.all
        (fun e => e.2.imgA.isNone && e.2.imgB.isNone && e.2.imgC.isNone) = true := by decide +kernel
    intro e he i hi
    have he' := List.all_eq_true.mp h e he
    simp only [Bool.and_eq_true, Option.isNone_iff_eq_none] at he'
    simp [he'.1.1, he'.1.2, he'.2] at hi
  · have h : ({ base with turns := [.event (.secdedFreezeEnd 0) 1] } : State).dies.toList.all (fun d => d.imgs.isEmpty) = true := by decide +kernel
    intro d j hj
    have : ((({ base with turns := [.event (.secdedFreezeEnd 0) 1] } : State).die d).imgs.isEmpty) = true :=
      vget_all (p := fun d : Die => d.imgs.isEmpty) h (by decide +kernel) d
    simp [List.isEmpty_iff.mp this] at hj

theorem witness_memory : Memory.wf base.mem = true ∧ (base.homeWrite 0 5#512 1#64).isSome = true ∧ base.atPeer 0 = false ∧
    base.snapPage (base.localPa 0) = none := by decide +kernel
/-! ## Witnesses: control words -/

/-- g1 is 7, g2 is 3. -/
def two : State := withTh fun t => { t with g := vset (vset t.g 1 7#64) 2 3#64 }

theorem witness_integer_words : goB two false = true ∧ rdG two two.th (1#5).toNat 0 = .ok 7#64 ∧ rdG two two.th (2#5).toNat 1 = .ok 3#64 := by
  decide +kernel

theorem witness_bit_counts : (0x10#64) ≠ 0#64 := by decide

theorem witness_immediate_words :
    (goB two false && okB (rdG two two.th 1 0) (fun _ => true) && okB (rdG two two.th 2 1) fun _ => true) = true ∧
      immU two.th.pfx 18 0x3FFFF < 2 ^ 32 ∧ immU two.th.pfx 12 63 ≤ 63 := by decide +kernel

theorem witness_predicates : goB two false = true ∧ condHolds 0 7#64 3#64 = some false ∧ condHolds 9 7#64 3#64 ≠ none ∧ (3#3).toNat ≤ 3 := by
  decide +kernel

theorem witness_transfers : goB two false = true ∧ rdG two two.th 0 0 = .ok 0#64 ∧ (0#64).toNat % 4 = 0 ∧ (1#5) ≠ 0#5 := by decide +kernel

theorem witness_scalar_memory :
    let s := withH id
    (okB (ctlHandle s.th 2) (fun t => t == s.th) && okB (cmOfs s s.th 0#1 0x40#10) (fun x => x.1 == 0x40) && decide (s.th.ctlAcc.length < 8) &&
      goB s false && goB s true && okB (checkMem s.th 2 0x40 8 rightRD 8) (fun pa => pa == 0x40) &&
      okB (checkMem s.th 2 0x40 8 rightWR 8) (fun pa => pa == 0x40) && okB (s.loadBytes 0 0x40 8 false) (fun x => !x.2.2) &&
      okB (s.versionRoom 0 (linesOf 0x40 8)) (fun _ => true) && okB (rdG s s.th 4 0) fun _ => true) = true := by decide +kernel

theorem witness_handles :
    let s := withH id
    (goB s false && okB (rdG s s.th 1 0) (fun _ => true) && !s.th.handleBusy 2) = true ∧ hState (vget s.th.h 2 0#64) ≠ 1 ∧ (1#3) ≠ 0#3 := by
  decide +kernel

/-- g5 holds the load word LD q1, [h2+x1], 64 of the spec, g6 an EXTI. -/
def emitting : State := withTh fun t => { t with g := vset (vset t.g 5 0x27828010#64) 6 0xF00001C0#64 }

theorem witness_emit :
    let s := emitting
    let u (p : List W32) : QUnit := { unitOf (.xaddi 0 0 5 0 0 16) with pfx := p }
    (goB s false && okB (rdG s s.th 5 0) (fun _ => true) && okB (rdG s s.th 6 1) (fun _ => true) &&
      (match emitUnit [] 0x27828010#32 with | .ok x => decide (x.2.2 = .load) | .error _ => false) &&
      (match emitUnit [0xF00001C0#32] 0x27828010#32 with | .ok x => decide (x.2.2 = .load) | .error _ => false) &&
      (match s.th.steer .load (u []) with | some (_, a, b) => !a && !b | none => false) &&
      (match s.th.steer .load (u [0xF00001C0#32]) with | some (_, a, b) => !a && !b | none => false)) = true := by decide +kernel

/-- Pair 6 holds 9 tokens, pair 3 holds 60. -/
def tokens : State := withTh fun t => { t with tok := vset (vset t.tok 6 9) 3 60 }

theorem witness_tokens : goB tokens true = true ∧ goB tokens false = true ∧ (9#6).toNat ≤ vget tokens.th.tok 6 0 ∧
    vget tokens.th.tok 3 0 + (3#6).toNat ≤ 63 ∧ (8#4).toNat ≤ 8 := by decide +kernel

/-- A group of one member at address 0x80, in phase 1; this thread is its member 0. -/
def grouped : State :=
  let s := withH fun t => { t with members := [⟨0x80, 0, 0, none⟩] }
  { s with mem := memPut s.mem 0x80 (Grp.bytes ⟨1, 0, 0, 0, 1, 1⟩) }

/-- A state whose thread has made its release, and one whose thread has made its commit. -/
def released (s : State) : State := s.modThread 0 fun t => { t with ph := { Phase.none with stage := 4 } }
def committed (s : State) : State := s.modThread 0 fun t => { t with ph := { Phase.none with stage := 3 } }

/-- The same, the thread standing at a GBAR that arrived in phase 0. -/
def atGbar : State := grouped.modThread 0 fun t => { t with ph := { Phase.none with stage := gbarWaits, arg := 0 } }

theorem witness_groups :
    let s := grouped
    (goB s true && goB s false && okB (groupOperand 2 0 0x80#10 rightAT s) (fun x => x.1 == 0x80 && x.2.2.ctlAcc.isEmpty) &&
      okB (groupOperand 2 0 0x80#10 rightRD s) (fun x => x.1 == 0x80 && x.2.2.ctlAcc.isEmpty) &&
      okB (groupOperand 2 0 0x80#10 rightAT (released (withH id))) (fun x => x.2.2.members.isEmpty) &&
      doneB ((released (withH id)).releaseGo .ctl 4) (fun _ => goB (released (withH id)) true) &&
      okB (s.onceAt 0 onceGroup 0x80 [0]) (fun x => x == .fresh) && okB (s.groupAt 0x80 0x80) (fun _ => true) &&
      doneB ((released s).releaseGo .ctl 4) (fun s1 => goB (released s) true && okB (s1.onceAt 0 onceGroup 0x80 [1]) (fun x => x == .fresh) &&
        (s.th.members.find? fun e => e.pa == 0x80).isSome && okB (s1.groupAt 0x80 0x80) fun _ => true)) = true := by decide +kernel

theorem witness_gbar :
    let s := atGbar
    (goB s true && okB (groupOperand 2 0 0x80#10 rightAT s) (fun _ => true) && decide (s.th.ph.stage = gbarWaits) &&
      okB (s.groupAt 0x80 0x80) (fun x => x.2.phase != x.1.th.ph.arg)) = true := by decide +kernel

/-- A GBAR that arrives after its release; one whose membership begins only with the next phase, and one that has arrived in phase 1. -/
theorem witness_gbar_arrives :
    let s := released grouped
    let p := (grouped.modThread 0 fun t => { t with members := [⟨0x80, 0, 2, none⟩], ph := { Phase.none with stage := gbarJoins } })
    let w := grouped.modThread 0 fun t => { t with ph := { Phase.none with stage := gbarWaits, arg := 1 } }
    let finds (s : State) (e : Bool) : Bool := okB (groupOperand 2 0 0x80#10 rightAT s) (fun x =>
      ((x.2.2.members.find? fun y => y.pa == 0x80).map fun y => phaseReached 1 y.eff == e).getD false)
    (goB s true && finds s true && s.th.ph.stage != gbarWaits && s.th.ph.stage != gbarJoins && doneB (s.releaseGo .ctl 4) (fun s1 =>
        okB (s1.onceAt s1.me onceGroup 0x80 [2]) (· == .fresh) && okB (s1.groupAt 0x80 0x80) fun x => x.2.phase == 1 && x.2.arr + 1 == x.2.nmem) &&
      goB p true && finds p false && okB (p.onceAt p.me onceGroup 0x80 [2]) (· == .fresh) && okB (p.groupAt 0x80 0x80) (fun x => x.2.phase == 1) &&
      (p.th.watchdogDue .ctl .group p.now).isNone && goB w true && finds w true && okB (w.groupAt 0x80 0x80) (fun x => x.2.phase == x.1.th.ph.arg) &&
      (w.th.watchdogDue .ctl .group w.now).isNone) = true := by decide +kernel

/-- A CSR write with a legal value of ROUND_MODE, one of a trap register inside a handler, and a queue head with an element. -/
def popping : State := withTh fun t => { t with q := vset t.q 1 { QHead.unbound with kind := 1, depth := 4, elems := [9#64] } }

theorem witness_csr :
    let s := two
    let h := withTh fun t => { t with status := 0x02000000#32 }
    (goB s true && goB s false && !isQpop 0x009 && okB (rdG s s.th 2 0) (fun _ => true) && decide (s.csrValue 0 0x009 = some 0#64) &&
      decide (csrMask 0x009 = some (7#64, false)) && csrLegal 0x009 3#64 && csrLegal 0x009 (0#64 ||| 3#64) && csrLegal 0x009 (0#64 &&& ~~~3#64) &&
      h.th.inh && decide (csrMask 0x002 = some (0x01FFFFFFFFFFFFFC#64, true)) && (h.csrValue 0 0x002).isSome && goB popping true &&
      (vget popping.th.q 1 QHead.unbound).kind != 0 && okB (popping.popQ 0 1 1) fun x => x.2 == [9#64]) = true := by decide +kernel

theorem witness_constants : goB two false = true ∧ two.th.pfx = [] ∧ goB (withTh fun t => { t with pfx := [wordOf (.exti 0x812345#24)] }) false = true ∧
    (0x3FFFF#18).toNat ≤ 0xFFFFFFFF ∧ 0xFFFFFFFF < ((0x400000#24) ++ (0#18)).toNat := by decide +kernel

theorem witness_constants_dead :
    let s := withTh fun t => { t with status := 0x00400000#32, freed := { t.freed with g := 0x20#32 } }
    goB s false && (match rdG s s.th 5 0 with | .error (.cause _) => true | _ => false) = true := by decide +kernel

theorem witness_counted_branch : goB two false = true ∧ two.th.repNow = (0, 1, 0) ∧ rdG two two.th (1#5).toNat 0 = .ok 7#64 ∧ (1#5) ≠ 0#5 := by
  decide +kernel

/-- The statement's case of a source freed under LUTRAP, of both sources. -/
theorem witness_select :
    let s := withTh fun t => { t with status := 0x00400000#32, freed := { t.freed with g := 0x20#32 } }
    goB two false && okB (rdG two two.th 1 0) (fun _ => true) && okB (rdG two two.th 2 1) (fun _ => true) && goB s false &&
      (match rdG s s.th 5 0 with | .error (.cause _) => true | _ => false) &&
      (match rdG s s.th 5 1 with | .error (.cause _) => true | _ => false) && okB (rdG s s.th 1 0) (fun _ => true) = true := by decide +kernel

/-! ## Witnesses: frames -/

theorem witness_word_frame :
    (goB two false && okB (rdG two two.th 1 0) (fun _ => true) && okB (rdG two two.th 2 1) (fun _ => true) && decide (immU two.th.pfx 12 63 ≤ 63) &&
      nextB (exec (.sari 3 1 0 63) two) (fun _ => true) && nextB (exec (.sel 0 1 0 2 0 0) two) (fun _ => true) &&
      nextB (exec (.addi 3 1 0 0xFFF) two) (fun t => vget t.th.g 3 0#64 == 6#64) && okB (rdG two two.th 3 0) (fun _ => true) &&
      nextB (exec (.ldhi 3 5) two) (fun t => vget t.th.g 3 0#64 == 0x500000000#64) && nextB (exec (.cmp 0 1 0 2 0 9) two) (fun _ => true) &&
      nextB (exec (.cmpi 3 9 1 0 0) two) (fun _ => true) && nextB (exec (.pset 3 1 2 3) two) (fun _ => true) &&
      nextB (exec (.tkcnt 3 8) two) fun _ => true) = true := by decide +kernel

theorem witness_completion_frame :
    let r : EngRes := { s := base }
    let c : Cur := ⟨.load, false, unitOf (.lnop 0 0)⟩
    ((base.thread 0).repNow.2.1 ≤ 1) ∧ r.late = none ∧ (r.s.thread 0).trapPend = none ∧
      ((((r.s.takePermit 0 .load (permitClass .load)).countWhole 0 c.sq).thread 0).issuedUnit c (wordOf (.lnop 0 0)) r |>.pushTokens c.sq
        (c.unit.ts (wordOf (.lnop 0 0)) + 4 * r.wcb)).2 = none := by decide +kernel

theorem witness_store_frame :
    let s := withH id
    let p := withTh fun t => { t with ctlAcc := [⟨true, 0, 0x48, 8, false, 5, false, 0, 3, none⟩] }
    ((s.taskOf (s.thread 0).task).isSome && (p.thread 0).ctlAcc.length == 1 && !p.frozen 0 && (((s.taskOf (s.thread 0).task).map fun x => x.lines.all fun v => v.mark == x.openMark)).getD false &&
      goB s true && okB (ctlHandle s.th 2) (fun t => t == s.th) && okB (cmOfs s s.th 0#1 0x48#10) (fun x => x.1 == 0x48) &&
      okB (checkMem s.th 2 0x48 8 rightWR 8) (fun pa => pa == 0x48) && okB (s.versionRoom 0 (linesOf 0x48 8)) fun _ => true) = true := by
  decide +kernel

/-- Both sides of the stored range at their ends: the byte before, the first, the last and the one after. -/
theorem witness_store_frame_ends :
    let t := base.versionWrite 0 false 0x48 (leBytes 8 0x1122334455667788)
    t.versionByte 0 0x47 5#8 = 5#8 ∧ t.versionByte 0 0x48 5#8 = 0x88#8 ∧ t.versionByte 0 0x4F 5#8 = 0x11#8 ∧ t.versionByte 0 0x50 5#8 = 5#8 := by
  decide +kernel

/-! ## Witnesses: traps -/

theorem witness_control_traps :
    let s := withTh fun t => { t with g := vset t.g 1 6#64 }
    let f := withTh fun t => { t with status := 0x00400000#32, freed := { t.freed with g := 0x20#32 } }
    let e := withTh id
    let r := withTh fun t => { t with h := vset t.h 2 (mkHandle 0 0 0 2 2) }
    (goB s false && okB (rdG s s.th 1 0) (fun v => v.toNat % 4 != 0) && goB f false && !f.th.gPending 5 && f.th.freed.g.getLsbD 5 && f.th.lutrap &&
      okB (ctlHandle e.th 2) (fun t => t == e.th) && okB (cmOfs e e.th 0#1 0x40#10) (fun _ => true) && decide (hState (vget e.th.h 2 0#64) = 0) &&
      okB (ctlHandle r.th 2) (fun t => t == r.th) && decide (hState (vget r.th.h 2 0#64) = 2) && decide (0x41 % 2 ^ 3 ≠ 0) &&
      decide (hRights (vget r.th.h 2 0#64) &&& rightRD ≠ rightRD)) = true := by decide +kernel

theorem witness_control_traps_page : hState fullHandle = 2 ∧ 4092 % 2 ^ 2 = 0 ∧ 4088 % 2 ^ 3 = 0 ∧ ¬ pageBytes (hPsz fullHandle) < 4088 + 2 ^ 3 ∧
    pageBytes (hPsz fullHandle) < 4096 + 2 ^ 3 := by decide

theorem witness_token_traps : goB tokens true = true ∧ (5#4).toNat < 6 ∧ 8 < (9#4).toNat ∧ (2#4).toNat < 3 ∧ 5 < (6#4).toNat ∧
    63 < vget tokens.th.tok 3 0 + (4#6).toNat ∧ ¬ 63 < vget tokens.th.tok 3 0 + (3#6).toNat := by decide +kernel

/-- Values past the limits at their first: a count of 64, a condition 10, an operation 4, a selector and CSRs that are not there or not to be
written, an unbound head, and a reserved encoding by a write, a set and a clear. -/
theorem witness_limit_faults :
    let s := two
    let f := withTh fun t => { t with g := vset t.g 1 0x100000#64, ft := vset t.ft 0 0x00700000#32 }
    (goB s true && goB s false && decide (63 < immU s.th.pfx 12 64) && okB (rdG s s.th 1 0) (· == 7#64) && okB (rdG s s.th 2 1) (fun _ => true) &&
      decide (9 < (10#4).toNat ∧ 3 < (4#3).toNat) && (s.counter s.me 0xFF).isNone && !isQpop 0x007 && (s.csrValue s.me 0x007).isNone && isQpop 0x041 &&
      (vget s.th.q 1 QHead.unbound).kind == 0 && (s.csrValue s.me 0x100).isSome && !isAgateCsr 0x100 && (s.csrValue s.me 0x00D).isSome &&
      !isAgateCsr 0x00D && (csrMask 0x00D).isNone && (s.csrValue s.me 0x001).isSome && (csrMask 0x001).map (·.2) == some true && !s.th.inh &&
      s.csrValue s.me 0x009 == some 0#64 && (csrMask 0x009).map (·.2) == some false && !csrLegal 0x009 7#64 && !csrLegal 0x009 (0#64 ||| 7#64) &&
      goB f true && f.csrValue f.me 0x010 == some 0x00700000#64 && csrLegal 0x010 0x00700000#64 &&
      !csrLegal 0x010 (0x00700000#64 &&& ~~~0x100000#64)) = true := by decide +kernel

/-- Outside a handler, and inside one from which a return is allowed or not. -/
theorem witness_return :
    let a := withTh fun t => { t with status := 0x02000000#32 }
    let b := withTh fun t => { t with status := 0x02000000#32, trapCause := 0x0000000100000000#64 }
    let c := withTh fun t => { t with status := 0x02000000#32, loopRes := [⟨.load, base.th.loop .load, 0, 16⟩] }
    (goB base true && !base.th.inh && goB a true && a.th.inh && canReturn a.th && goB b true && b.th.inh && !canReturn b.th &&
      decide (a.th.loopRes = []) && goB c true && canReturn c.th && nextB (exec .trapret a) (fun u => u.th.pc == 0 && !u.th.inh) &&
      nextB (exec .trapret c) fun u => u.th.pc == 16 && !u.th.inh) = true := by decide +kernel

/-- A handler table at address 0 whose entry for software causes leads to 0x2000. -/
def handling : State :=
  let s := withTh fun t => { t with handlerBase := 1#64 }
  { s with mem := memPut s.mem (64 + 8 * cSoftware) (leBytes 8 0x2001) }

/-- The reads that find the handler of a trap, and the entry that they find. -/
def findsB (s s1 : State) (sub : Nat) : Bool :=
  let u := (s1.setTh (freeG s1.th 0 1)).modThread s.me fun th => th.ctlDone none
  let p : TrapPend := { s.th.ctlFault .system ⟨cSoftware, sub, 0⟩ with
    seq := (u.thread s.me).seq, pc := (u.thread s.me).pc, rep := none, snap := (u.thread s.me).snap, after := (u.thread s.me).pc }
  match (u.modThread s.me fun t => { t with trapPend := some p }).handlerReads s.me ⟨cSoftware, sub, 0⟩ with
  | .ok s4 => decide (((s4.atPoint s.me p).handlerEntry s.me cSoftware).2 = some 0x2000)
  | .error _ => false

theorem witness_software_traps :
    let s := handling
    let t := committed handling
    (goB s true && goB t true && !s.th.inh && decide (s.th.repNow = (0, 1, 0)) && okB (rdG s s.th 1 0) (fun _ => true) &&
      findsB s s 5 && doneB (t.commitGo .ctl) (fun s1 => s1.th.pc == 0 && !s1.th.inh && s1.me == 0 && decide (s1.th.repNow = (0, 1, 0)) &&
        findsB t s1 133) &&
      nextB (exec (.trap 1 0 5) s) (fun u => u.th.inh && u.th.pc == 0x2000 && u.th.trapPc == 4#64) &&
      nextB (exec (.ecall 1 0 5) t) fun u => u.th.inh && u.th.pc == 0x2000 && u.th.trapPc == 4#64) = true := by decide +kernel

theorem witness_idle_engines : EnginesIdle base.th := by
  exact ⟨rfl, rfl, rfl, rfl, rfl, rfl, rfl, rfl, rfl, rfl⟩

/-- Tables of context 0: a root at 0x1000 and a leaf of 2 MiB with every right for the addresses below 2 MiB, pinned at frame 0. -/
def mapped (s : State) : State :=
  let e (n : Nat) : Nat := 2 ^ 63 + n * 4096
  { s with
    ctxs := Tab.put 0 ⟨0x1000, false, 0, vset (Vector.replicate 8 0#8) 0 0x80#8, none⟩ s.ctxs
    mem := memPut (memPut (memPut (memPut s.mem 0x1000 (leBytes 8 (e 2))) 0x2000 (leBytes 8 (e 3))) 0x3000 (leBytes 8 (e 4))) 0x4000
      (leBytes 8 (2 ^ 63 + 2 ^ 62 + 5 * 2 ^ 58 + 7 * 2 ^ 55 + 2 ^ 53)) }

/-- A table at 0x8000 with 4 KiB of code and no data, which passes the checks, none at 0x9000, no page at 2^40. -/
def installing : State :=
  let s := mapped base
  { s with mem := memPut (memPut s.mem 0x8000 (leBytes 8 0xA000)) 0x8008 (leBytes 8 4096) }

theorem witness_install :
    let s := installing
    (goB two true && !two.th.inh && okB (rdG two two.th 0 0) (fun v => v == 0#64) && okB (rdG two two.th 1 0) (fun v => v != 0#64) &&
      7 % 4096 != 0 && !canonical (2 ^ 56) && goB s true && !s.th.inh && canonical 0x8000 && canonical (2 ^ 40) &&
      okB ((s.acquire 0 4).walkMeet 0 (2 ^ 40)) (fun s1 => match s1.walk 0 (2 ^ 40) with | .leaf .. => false | _ => true) &&
      okB (s.installCheck 0 0x9000) (fun x => x.2.1 == 2 && x.2.2.isNone) &&
      okB (s.installCheck 0 0x8000) fun x => x.2.1 == 0 && x.2.2.isSome) = true := by decide +kernel
/-! ## Witnesses: system words -/

/-- The task of the thread changed. -/
def withTask (f : Task → Task) (s : State) : State := s.modTask s.th.task f

/-- A thread whose cluster lease its core holds. -/
def leased : State := base.modCluster 0 fun c => { c with leaseHeld := true, holder := 0 }

theorem witness_hints :
    let late := { (withTh fun t => { t with persistAt := 1 }) with now := 60000 }
    let soon := { (withTh fun t => { t with persistAt := 1 }) with now := 40000 }
    (goB base true && !base.th.savePending && leased.holdsLease leased.me && goB leased true && !(soon.th.persistOpen soon.now) && goB soon true &&
      late.th.persistOpen late.now && late.th.drained && goB late true && soon.th.ph.stage == 0 && late.th.ph.stage == 0 &&
      !late.pointCommits 0 && late.th.wordsWhole && goB (committed late) true && doneB ((committed late).commitGo .ctl) fun _ => true) = true := by decide +kernel

/-- The wait of a FENCE, as its word marks it. -/
def fencing (s : State) : State := s.modThread s.me fun t => { t with ph := { t.ph with arg2 := fenceWaits } }

theorem witness_fences :
    (base.th.ctlAcc.isEmpty && decide (base.th.ldQ.length < queueDepth .load) && decide (base.th.stQ.length < queueDepth .store) &&
      base.th.allBefore && (1#2).getLsbD 0 && !(1#2).getLsbD 1 && (2#2).getLsbD 1 && doneB ((fencing base).releaseGo .ctl 2) (fun _ => true) &&
      goB (released base) true && doneB ((fencing (released base)).releaseGo .ctl 5) (fun _ => true) && goB (committed base) true &&
      doneB ((committed base).commitGo .ctl) fun _ => true) = true := by decide +kernel

theorem witness_ends :
    let c := committed base
    let idle := withTh fun t => { t with ph := { Phase.none with stage := idleWaits }, idleUntil := some 0 }
    let shadow := base.setThread 1 { Thread.blank with running := true }
    (goB c true && doneB (c.commitGo .ctl) (fun _ => true) && goB base true && base.ended base.me && !base.shadowReady base.me &&
      okB (rdG base base.th 0 0) (fun _ => true) && shadow.shadowReady shadow.me && shadow.th.drained && goB shadow true &&
      okB (rdG shadow shadow.th 0 0) (fun _ => true) && goB idle true && idle.th.ph.stage == idleWaits && !idle.th.savePending &&
      idle.th.idleUntil == some 0) = true := by decide +kernel

/-- The three prefixes, first and after another. -/
theorem witness_prefixes :
    (readPfx (base.th.pfx ++ [wordOf (.exti 0x9E4#24)])).isSome = true ∧ (readPfx (base.th.pfx ++ [wordOf (.rep 4#6 1#1 1#1 0#1)])).isSome = true ∧
    (readPfx (base.th.pfx ++ [wordOf (.pred 1#3 0#1)])).isSome = true ∧
    (readPfx ([wordOf (.pred 1#3 0#1)] ++ [wordOf (.exti 0x9E4#24)])).isSome = true := by decide +kernel

/-- A slot 0 with one node; g1 names it, g2 a node that it lacks, g3 no slot, g4 the generation 1, g5 the generation 3. -/
def graphed (f : Node → Node) (g : Slot → Slot) : State :=
  let x : Slot := { ctx := 0, graph := 0, die := 0, gen := 1, opt := 0, pmap := 0, nodes := [f Node.blank], cring := 0, clen := 0, seq := 0,
                    release := false, replayWait := none, port := 0, uids := [] }
  let s := withTh fun t => { t with g := vset (vset (vset (vset t.g 2 0x10000#64) 3 0x100000000#64) 4 1#64) 5 3#64 }
  s.setSlot 0 (g x)

theorem witness_graph :
    let s := graphed (fun n => { n with cgen := 1 }) id
    let w := graphed id fun x => { x with gen := 4 }
    (goB s true && okB (rdG s s.th 1 0) (· == 0#64) && okB (rdG s s.th 2 0) (· == 0x10000#64) && okB (rdG s s.th 3 0) (· == 0x100000000#64) &&
      okB (rdG s s.th 4 1) (· == 1#64) && okB (rdG s s.th 1 1) (· == 0#64) &&
      okB (s.onceAt s.me onceKick 0 [0, 0]) (· == .fresh) && okB (s.onceAt s.me onceKick 0 [1, 0x10000]) (· == .fresh) &&
      (s.graphSlot s.th.tenant 0#64).isSome && (s.graphSlot s.th.tenant 0x100000000#64).isNone && bits 0x10000 31 16 == 1 &&
      ((s.graphSlot s.th.tenant 0#64).map fun r =>
        decide (0 < r.2.nodes.length) && s.mapReady r.2 0 && decide ((s.die (s.chooseDie r.2 0)).ready.length < 4096) && decide (r.2.nodes.length ≤ 1) &&
          decide ((r.2.node 0).cgen = 1)).getD false &&
      goB w true && okB (rdG w w.th 5 1) (· == 3#64) &&
      ((w.graphSlot w.th.tenant 0#64).map fun r =>
        decide (0 < r.2.nodes.length) && decide ((r.2.node 0).cgen ≠ 3) && decide (3 ≠ r.2.gen) && !genAhead 3 r.2.gen).getD false) = true := by
  decide +kernel

theorem witness_barrier :
    let s := withH id
    (goB s true && !s.th.handleBusy 2 && okB (cmOfs s s.th 0#1 0x40#10) (fun x => x.1 == 0x40) && okB (rdG s s.th 1 0) (fun v => !v.getLsbD 63) &&
      okB (checkMem s.th 2 0x40 16 rightAT 16) (· == 0x40) && okB (s.onceAt s.me onceBar 0x40 [0, 0]) (· == .fresh) &&
      okB (s.onceAt s.me onceBar 0x40 [1, 0]) (· == .fresh) && okB (s.atomicRead 0x40 16) (fun _ => true) &&
      okB (checkMem s.th 2 0x40 16 rightRD 16) (· == 0x40) && okB (s.homeData 0x40 8) fun x => bit x.2 63 != true) = true ∧
    bit (2 ^ 63) 63 ≠ (0#64).getLsbD 0 := by decide +kernel

/-- A snapshot root at 0x40 in epoch 0, and one in the last epoch. -/
def snapping (e : Nat) : State := let s := withH id; { s with mem := memPut s.mem 0x50 (leBytes 8 (e * 2 ^ 40)) }

theorem witness_snapshot :
    let ok (s : State) (last : Bool) : Bool :=
      goB (released s) true && !(released s).th.handleBusy 2 && okB (checkMem (released s).th 2 0x40 64 rightAT 64) (· == 0x40) &&
        okB ((released s).homeData 0x40 64) fun r => !snapReserved r.2 && doneB (r.1.releaseGo .ctl 4) fun s2 =>
          okB (s2.onceAt s2.me onceSnap 0x40 []) (· == .fresh) &&
          okB (s2.atomicRead 0x40 64) fun q => (bits (q.2 / 2 ^ 128 % 2 ^ 64) 63 40 == 0xFFFFFF) == last
    (ok (snapping 0) false && ok (snapping 0xFFFFFF) true) = true := by decide +kernel

/-- A descriptor at 0x40 of a broadcast of one element over communicator 0. -/
theorem witness_collective :
    let s0 := withH id
    let s := { s0 with comms := [⟨0, 0, 2, 0, [0, 0], 0⟩], mem := memPut s0.mem 0x58 (leBytes 8 1) }
    (goB s true && !s.th.handleBusy 2 && okB (cmOfs s s.th 0#1 0x40#10) (fun _ => true) && okB (checkMem s.th 2 0x40 64 rightRD 64) (· == 0x40) &&
      okB ((s.acquire s.me 4).loadData 0x40 64 false) fun r => decide (collBad (fun i => (words8 8 r.2).getD i 0) (fun c => r.1.comms.any fun x =>
        x.num == c && x.tenant == s.th.tenant) = none) && okB (r.1.onceAt r.1.me onceColl 0x40 (words8 8 r.2)) (· == .fresh) &&
        decide (r.1.colls.length < 256)) = true := by decide +kernel

/-- A context with virtual dies 0 and 1 bound to dies 0 and 5, a system thread, rows 3 open; g1 is 1, g2 is 0x85, g3 is 9. -/
def placed : State :=
  let s := withTask (fun t => { t with rows := [3] }) (withTh fun t => { t with
    status := 0x01000000#32, g := vset (vset (vset t.g 1 1#64) 2 0x85#64) 3 9#64 })
  { s with ctxs := Tab.put 0 { (s.ctx 0) with vdt := vset (vset (Vector.replicate 8 0#8) 0 0x80#8) 1 0x85#8 } s.ctxs }

theorem witness_energy_time_die :
    let s := placed
    let x := s.taskOf s.th.task
    (goB s true && (x.map fun y => y.rows.contains 3 && !y.rows.contains 4).getD false && decide (immU s.th.pfx 12 0xFFF = 0xFFF) &&
      (s.counter s.me 0).isSome && okB (rdG s s.th 0 0) (· == 0#64) && okB (rdG s s.th 1 1) (· == 1#64) && okB (rdG s s.th 3 0) (· == 9#64) &&
      (s.ctx (s.thrCtx s.me)).pdie 0 == some 0 && (s.ctx (s.thrCtx s.me)).pdie 1 == some 5 && ((s.ctx (s.thrCtx s.me)).pdie 9).isNone && s.th.sys &&
      s.vdtOk (vset (s.ctx (s.thrCtx s.me)).vdt 1 0x81#8) && !s.vdtOk (vset (s.ctx (s.thrCtx s.me)).vdt 1 0x80#8)) = true := by decide +kernel
/-! ## Witnesses: words of the load and store sequencers -/

/-- The unit that `atWord` sets. -/
def curOf (q : Sq) (i : Instr) : Cur := ⟨q, false, unitOf i⟩

/-- Does a word of its own sequencer issue. -/
def goes (q : Sq) (e : Eng) (i : Instr) (s : State) : Bool := issueB (atWord q i s) e (curOf q i) i

/-- The thread at a word of an engine, ready to take its operands. -/
def readied (q : Sq) (i : Instr) (s : State) : State := (atWord q i s).issuing (curOf q i)

theorem witness_index_words :
    let x := fun (i : Instr) => goes .load .load i base && okB (rdX (readied .load i base) base.th true 1 0) (fun _ => true) &&
      okB (rdX (readied .load i base) base.th true 2 1) fun _ => true
    let y := fun (i : Instr) => goes .store .store i base && okB (rdX (readied .store i base) base.th false 1 0) (fun _ => true) &&
      okB (rdX (readied .store i base) base.th false 2 1) fun _ => true
    (x (.xmov 0 0 3 1 0 1) && x (.xmov 0 0 3 1 0 0) && x (.xadd 0 0 3 1 0 2 0) && x (.xaddi 0 0 3 1 0 5) && x (.xshl 0 0 3 1 0 63) &&
      y (.xmovSt 0 0 3 1 0 1) && y (.xmovSt 0 0 3 1 0 0) && y (.xaddSt 0 0 3 1 0 2 0) && y (.xaddiSt 0 0 3 1 0 5) && y (.xshlSt 0 0 3 1 0 63) &&
      goes .load .load (.lnop 0 0) base && goes .store .store (.snop 0 0) base && goes .comp .matrix (.mnop 0 0) base &&
      goes .comp .vector (.vnop 0 0) base && goes .comp .special (.sfnop 0 0) base) = true ∧ immU [] 10 63 ≤ 63 := by decide +kernel

/-- A loop word that opens the outermost loop, and one inside a loop of five words that counts in register 0. -/
theorem witness_loop_words :
    let inner := withTh fun t => { t with
      lpC := { buf := [unitOf (.mnop 0 0), unitOf (.mnop 0 0)], need := 4, opened := [⟨0, 5, 0, 3⟩], pos := 1, seq := 0 } }
    (goes .load .load (.lloop 2 1 3) base && goes .store .store (.sloop 2 1 3) base && goes .comp .matrix (.mloop 2 1 3) base &&
      goes .comp .vector (.vloop 2 1 3) base && goes .comp .matrix (.mloop 2 1 3) inner && (inner.th.loop .comp).isOpen &&
      (inner.th.loop .comp).opened.all (fun r => r.lc != 1 && decide (2 + ((inner.th.loop .comp).pos + 1) ≤ r.first + r.len)) &&
      decide (immU [] 11 3 ≤ 65535)) = true := by decide +kernel

/-- Handle 2 valid with every right, head 1 bound to elements of four bytes, head 2 to offsets of eight with three at hand, index 1 at 0x40. -/
def loading : State := withH fun t => { t with
  xl := vset t.xl 1 0x40#64, xs := vset t.xs 1 0x40#64, q := vset (vset (vset t.q 1 { QHead.unbound with kind := 1, esz := 2, depth := 64 }) 2
    { QHead.unbound with kind := 1, esz := 3, depth := 4, elems := [0#64, 8#64, 64#64] }) 3
    { QHead.unbound with kind := 1, esz := 2, depth := 4, elems := [5#64, 6#64] } }

theorem witness_block_loads :
    let s := loading
    let r := fun (i : Instr) => readied .load i s
    let go := fun (i : Instr) => goes .load .load i s && okB (rdX (r i) s.th true 1 0) (fun v => v.toNat == 0x40)
    (go (.ld 0 0 2 1 0 1 0 0 1) && okB (checkMem s.th 2 0x40 (blockBytes 0#3) rightRD 64) (· == 0x40) && okB (checkQ s.th 1 1) (fun _ => true) &&
      okB ((r (.ld 0 0 2 1 0 1 0 0 1)).loadData 0x40 (blockBytes 0#3) false) (fun x => x.1.th.doneOf (unitOf (.ld 0 0 2 1 0 1 0 0 1)) == 0 &&
        decide ((toElems 2 (blockBytes 0#3 / 4) x.2).length ≤ (vget x.1.th.q 1 QHead.unbound).space)) &&
      go (.ld 0 0 2 1 0 4 1 0 0) && okB (rdX (r (.ld 0 0 2 1 0 4 1 0 0)) s.th true 4 1) (fun so => so.toNat == 0 && s.th.mayFill 0 64) &&
      okB (checkSpad 0 64 64) (fun _ => true) && go (.splk 0 0 2 1 0 4 0 0 0) && go (.splk 0 0 2 1 0 4 0 1 0) && go (.ldbd 0 0 2 1 0 5) &&
      okB (checkMem s.th 2 0x40 4 rightRD 4) (· == 0x40) && okB ((r (.ldbd 0 0 2 1 0 5)).loadData 0x40 4 false) fun _ => true) = true := by
  decide +kernel

/-- A tile of scales of kind E8M0 whose entries, all zero, are legal. -/
theorem witness_scale_load :
    let s := withH id
    let st := readied .load (.ldsc 0 0 2 1 0 4 6 1) s
    (goes .load .load (.ldsc 0 0 2 1 0 4 6 1) s && okB (rdX st s.th true 1 0) (· == 0#64) && okB (rdX st s.th true 4 1) (· == 0#64) &&
      (ldscKind 1).isSome && okB (checkHandle s.th 2 0) (fun hv => hv == fullHandle && hRights hv &&& rightRD == rightRD &&
        decide (4096 ≤ pageBytes (hPsz hv)) && hBase hv == 0) && okB (checkSpad 0 4096 64) (fun _ => true) && s.th.mayFill 0 4096) = true ∧
    scaleFail 1 5 (List.replicate 4096 0#8) = none := by decide +kernel

/-- A ring descriptor at 0x40 with two slots of 64 bytes. -/
def ringed : State := { loading with mem := memPut loading.mem 0x50 (leBytes 8 (2 * 65536 + 1)) }

theorem witness_queue_heads :
    let s := ringed
    let r := fun (i : Instr) => readied .load i s
    let go := fun (i : Instr) => goes .load .load i s && okB (rdX (r i) s.th true 1 0) (fun v => v.toNat == 0x40)
    (goes .load .load (.lunsub 0 0 1) s && goes .load .load (.qfree 0 0 1) s && go (.lmark 0 0 1 1 0 7) && okB (checkQ s.th 1 1) (fun _ => true) &&
      s.th.doneOf (unitOf (.lmark 0 0 1 1 0 7)) == 0 && decide (1 ≤ (vget s.th.q 1 QHead.unbound).space) && go (.qbind 0 0 4 1 0 2) &&
      (vget s.th.q 4 QHead.unbound).kind == 0 && decide (0x40 * 2 ^ 2 ≤ s.th.queueRam) && go (.lsub 0 0 2 1 0 1) &&
      okB (checkMem s.th 2 0x40 64 (rightRD + rightAT) 64) (· == 0x40) && okB ((r (.lsub 0 0 2 1 0 1)).unitBytes 0x40 64) (fun x => !x.2.2 &&
        (x.1.ringDesc 0x40 (pageBytes (hPsz (vget s.th.h 2 0#64)) - 0x40)).isSome && x.1.allSubs.isEmpty) &&
      go (.ldx 0 0 2 1 0 1 2 1) && okB (checkOfsQ s.th 2) (fun _ => true) &&
      okB (runElems (unitOf (.ldx 0 0 2 1 0 1 2 1)) (ldxElem 2 1 2 0x40#64 (unitOf (.ldx 0 0 2 1 0 1 2 1)))
        (fun t => { s := t.setTh (freeX t.th true 0#1 1), vals := [0x40] }) (2 ^ 1 - s.th.doneOf (unitOf (.ldx 0 0 2 1 0 1 2 1)))
        (s.th.doneOf (unitOf (.ldx 0 0 2 1 0 1 2 1))) false (r (.ldx 0 0 2 1 0 1 2 1))) fun e => e.more.isNone && e.late.isNone) = true := by
  decide +kernel

theorem witness_prefetch_translate_cache :
    let s := loading
    let swm := s.modThread 0 fun t => { t with hSwm := 4#16 }
    let go := fun (q : Sq) (e : Eng) (i : Instr) => goes q e i s
    let st := readied .store (.cwbr 0 0 2 1 0 0) s
    (go .load .load (.pfetch 0 0 2 1 0 0 0) && go .load .load (.pfetch 0 0 2 1 0 0 1) && hState (vget s.th.h 2 0#64) == 2 &&
      hState (vget s.th.h 3 0#64) != 2 && go .load .load (.xlatl 0 0 3 1 0 4 1) && go .store .store (.cwbr 0 0 2 1 0 0) &&
      go .store .store (.cinvr 0 0 2 1 0 0) && !s.th.swmOf 2 && swm.th.swmOf 2 && goes .store .store (.cwbr 0 0 2 1 0 0) swm &&
      okB (rangeOperand 2 1 0 0 st) fun x => !((st.writeBack (thrDie s.me) s.th.task x.1).die (thrDie s.me)).onWay x.1) = true := by
  decide +kernel

theorem witness_block_stores :
    let s := loading
    let r := fun (i : Instr) => readied .store i s
    let go := fun (i : Instr) => goes .store .store i s && okB (rdX (r i) s.th false 1 0) (fun v => v.toNat == 0x40)
    let i : Instr := .st 0 0 2 1 0 4 0 1
    let j : Instr := .stx 0 0 2 1 0 3 2 1
    (go i && go (.sunlk 0 0 2 1 0 4 0 0 1) && go (.sunlk 0 0 2 1 0 4 0 1 1) && okB (checkMem s.th 2 0x40 (blockBytes 0#3) rightWR 64) (· == 0x40) &&
      okB (rdX (r i) s.th false 4 1) (· == 0#64) && okB (checkSpad 0 64 64) (fun _ => true) && okB ((r i).versionRoom s.me (linesOf 0x40 64)) (fun _ => true) &&
      okB ((r i).spadRead s.me 0 64) (fun _ => true) && go (.stbd 0 0 2 1 0 5) && okB (checkMem s.th 2 0x40 4 rightWR 4) (· == 0x40) &&
      go j && okB (checkQ s.th 3 1) (fun _ => true) && okB (checkQ s.th 2 1) (fun b => b.esz == 3 && decide (2 ^ 1 ≤ b.depth) && decide (2 ^ 1 ≤ b.elems.length)) &&
      okB ((r j).versionRoom s.me (stxLines s.th 2 4 0x40#64 [0#64, 8#64])) (fun _ => true) &&
      okB (runElems (unitOf j) (stxElem 2 3 2 0x40#64) (fun t => { s := t.setTh (freeX t.th false 0#1 1), vals := [0x40] }) (2 ^ 1) 0 false (r j))
        fun e => e.more.isNone && e.late.isNone) = true := by decide +kernel

/-- A descriptor of a copy of 300 bytes from 0x100 to 0x400 of the page of handle 2, at scratchpad byte 0. -/
def copying : State :=
  let s := ringed.modThread 0 fun t => { t with xs := vset (vset (vset t.xs 3 64#64) 4 0x80#64) 1 0x40#64 }
  s.spadWrite 0 0 (leBytes 8 0x100 ++ leBytes 8 0x400 ++ leBytes 8 300 ++ leBytes 8 0x2200000000000000)

theorem witness_staging_and_drain :
    let s := copying
    let r := fun (i : Instr) => readied .store i s
    let go := fun (i : Instr) => goes .store .store i s && okB (rdX (r i) s.th false 1 0) (fun v => v.toNat == 0x40)
    let i : Instr := .spull 0 0 2 1 0 1 2 4
    let j : Instr := .baradd 0 0 2 1 0 5
    (go (.smark 0 0 3 1 0 7) && s.th.flights.isEmpty && go i && okB (rdX (r i) s.th false 2 1) (· == 0#64) && okB (rdX (r i) s.th false 3 2) (· == 64#64) &&
      okB (rdX (r i) s.th false 4 3) (· == 0x80#64) && okB (checkMem s.th 2 0x40 64 (rightWR + rightAT) 64) (· == 0x40) &&
      okB (checkMem s.th 2 0x80 16 rightAT 16) (· == 0x80) && okB ((r i).unitBytes 0x40 64) (fun x => !x.2.2 &&
        (x.1.ringDesc 0x40 (pageBytes (hPsz (vget s.th.h 2 0#64)) - 0x40)) == some (2, 1) && decide (x.1.stagedBytes 0 + 64 ≤ 2 ^ 20) &&
        okB (x.1.spadRead x.1.me 0 64) fun _ => true) && okB (checkSpad 0 64 64) (fun _ => true) && go j &&
      okB (rdX (r j) s.th false 5 1) (fun n => !n.getLsbD 63) && okB (checkMem s.th 2 0x40 16 rightAT 16) (· == 0x40) &&
      okB ((r j).onceAt s.me 1 0x40 [0]) (· == .fresh) && !(r j).atPeer 1 && okB ((r j).atomicRead 0x40 16) fun _ => true) = true := by decide +kernel

theorem witness_copy :
    let s := copying
    let i : Instr := .xcopy 0 0 2 1 0 5
    let st := readied .store i s
    let f (b : List Byte) (n : Nat) : Nat := leNat ((b.drop n).take 8)
    (goes .store .store i s && okB (rdX st s.th false 5 1) (· == 0#64) && okB (checkSpad 0 32 32) (fun _ => true) && okB (checkMem s.th 2 0x40 16 rightAT 16) (· == 0x40) &&
      okB (st.spadRead s.me 0 32) fun x => f x.2 16 == 300 && bits (f x.2 24) 53 0 == 0 && bits (f x.2 24) 55 54 == 0 && bits (f x.2 24) 63 60 == 2 &&
        bits (f x.2 24) 59 56 == 2 && okB (checkMem s.th 2 (f x.2 0) 300 rightRD 1) (· == 0x100) && okB (checkMem s.th 2 (f x.2 8) 300 rightWR 1) (· == 0x400) &&
        x.1.copies.isEmpty && okB (x.1.onceAt s.me 2 0x40 [0, 0x100, 0x400, 300]) (· == .fresh)) = true := by decide +kernel

/-- Each order of an atomic: plain and acquire, then a release at a scope inside the core. -/
theorem witness_atomics :
    let s := loading.modThread 0 fun t => { t with q := vset t.q 4 { QHead.unbound with kind := 1, esz := 3, depth := 4 } }
    let st := readied .store (.amoAdd 0 0 0 2 1 0 3 4 1 0) s
    let go := fun (i : Instr) => goes .store .store i s
    let at_ := fun (s0 : State) => !s0.atPeer 1 && okB (s0.atomicRead 0x40 8) (fun x => decide (x.2 < 2 ^ 64)) && okB (s0.onceAt s0.me 0 0x40 [0, 0]) (· == .fresh) &&
      okB (s0.onceAt s0.me 0 0x40 [9, 0, 0]) (· == .fresh)
    (okB (rdX st s.th false 1 0) (fun o => o.toNat == 0x40) && okB (checkMem s.th 2 0x40 8 rightAT 8) (· == 0x40) && okB (checkQ s.th 4 1) (fun b => b.esz == 3 && b.space != 0) &&
      okB (rdX st s.th false 3 1) (· == 0#64) && okB (rdX st s.th false 4 1) (fun _ => true) && okB (rdX st s.th false 5 2) (fun _ => true) &&
      s.th.orderedReady 0 && at_ st && doneB (st.releaseGo .store 2) at_ && go (.acas 0 0 0 2 1 0 2 4 1 0) && go (.acas 2 0 0 2 1 0 2 4 0 2) &&
      go (.amoAdd 1 0 0 2 1 0 3 4 1 2) && go (.amoFadd 3 0 0 2 1 0 3 4 1 2) && go (.amoMin 0 0 0 2 1 0 3 4 1 0) && go (.amoMax 0 0 0 2 1 0 3 4 1 0) &&
      go (.amoAnd 0 0 0 2 1 0 3 4 1 0) && go (.amoOr 0 0 0 2 1 0 3 4 1 0) && go (.amoXor 0 0 0 2 1 0 3 4 1 0) && go (.amoSwap 0 0 0 2 1 0 3 4 1 0)) = true := by
  decide +kernel

/-- An addition that peer 3 has made at byte 0x40 of its memory, where 5 stood. -/
theorem witness_peer_atomic :
    let pa := 2 ^ 51 + 3 * 2 ^ 43 + 0x40
    let s := { (loading.modThread 0 fun t => { t with h := vset t.h 2 (mkHandle 0 ((pa - 0x40) / 4096) 0 7 2) }) with
      peers := [⟨3, 2, pa, 8, 0, 0, 5, 9, 0, none, 0#512⟩] }
    let st := readied .store (.amoAdd 0 0 0 2 1 0 3 0 0 0) s
    (goes .store .store (.amoAdd 0 0 0 2 1 0 3 0 0 0) s && okB (checkMem s.th 2 0x40 8 rightAT 8) (· == pa) && st.atPeer (pa / 64) &&
      okB (st.onceAt st.me 0 pa [0, 0]) (· == .fresh) && ((st.peerOld st.me 0 pa).any fun x => x.2 == 5)) = true := by decide +kernel
/-! ## Witnesses: words of the compute sequencer -/

/-- A thread that claims the lease which its core holds; s2 holds +infinity, s3 a legal format entry. -/
def holding : State := leased.modThread 0 fun t => { t with claim := true }

theorem witness_completion_frame_matrix :
    let r : EngRes := { s := holding }
    let c : Cur := ⟨.comp, false, unitOf (.mnop 0 0)⟩
    r.late = none ∧ (r.s.thread 0).trapPend = none ∧ r.s.holdsLease 0 = true ∧
      ((((r.s.takePermit 0 .comp (permitClass .matrix)).countWhole 0 c.sq).thread 0).issuedUnit c (wordOf (.mnop 0 0)) r |>.pushTokens c.sq
        (c.unit.ts (wordOf (.mnop 0 0)) + 4 * r.wcb)).2 = none := by decide +kernel

theorem witness_lease :
    let idle := base.modThread 0 fun t => { t with claim := false }
    let i : Instr := .lease 0 0
    let s1 := ((readied .comp i idle).setTh { idle.th with claim := true }).leaseWait (thrCluster idle.me) (thrCore idle.me % 4)
    (goes .comp .matrix i holding && holding.th.claim && holding.th.doneOf (unitOf i) == 0 && goes .comp .matrix i idle && !idle.th.claim &&
      s1.holdsLease idle.me && goes .comp .matrix (.unlease 0 0) holding && goes .comp .matrix (.unlease 0 0) idle) = true := by decide +kernel

/-- Slot 0 holds an open tile of the thread's task, its bound unknown, slot 2 an extended one, slot 4 none. -/
def tiled : State := holding.modCluster 0 fun c =>
  let t : AccSlot := { AccSlot.blank with st := 1, task := holding.th.task, whole := true }
  { c with acc := vset (vset (vset c.acc 0 t) 2 { t with ext := true }) 3 { AccSlot.blank with st := 2 }, ab := vset c.ab 0 0x7F8000007F800000#64 }

theorem witness_tiles :
    let s := tiled
    let go := fun (i : Instr) => goes .comp .matrix i s && s.th.claim && (atWord .comp i s).holdsLease s.me
    let x := fun (n : Nat) => (s.cluster 0).slotAt n
    (go (.mtstart 0 0 4 2 0) && okB (rdS (readied .comp (.mtstart 0 0 4 2 0) s) s.th 2 0) (fun v => !badThreshold (v.setWidth 32)) && (x 4).st == 0 &&
      !(readied .comp (.mtstart 0 0 4 2 0) s).mtstartHeld s.me && go (.mtstart 0 0 0 2 0) && (x 0).st == 1 && (x 0).task == s.th.task &&
      go (.msett 0 0 0 2 0) && go (.mzero 0 0 0) && go (.mxmode 0 0 0 1) && (s.cluster 0).partnerFree 0 && go (.mxmode 0 0 0 0) && !(x 0).ext &&
      go (.mxmode 0 0 2 0) && (x 2).ext && (x 2).task == s.th.task && okB ((readied .comp (.mxmode 0 0 2 0) s).accRead s.me 2) (fun x => !x.2) &&
      okB ((readied .comp (.mxmode 0 0 2 0) s).replayNext s.me) (·.isNone) &&
      go (.mrdb 0 0 3 0)) = true := by decide +kernel

/-- Entry 0 pairs FP8 with FP8 without scales, B-store slot 8 is full; one element of each is multiplied. -/
theorem witness_mma :
    let s := (tiled.modThread 0 fun t => { t with ft := vset t.ft 0 0x33000000#32 }).modCluster 0 fun c =>
      { c with bst := [(8, { BSlot.free with st := 4, fmt := 3 })] }
    let i : Instr := .mma 0 0 0 0 8 0 0
    let st := readied .comp i s
    let fe := FtE.of (vget s.th.ft (s.th.mmaIndex false) 0#32)
    let p : MmaArgs := ⟨0, 8, false, 0#64, 0#64, s.th.vc.toNat, 0x33000000#32, 0, 0#32⟩
    (goes .comp .matrix i s && fe.pairing && fe.sck == 0 && okB (rdA st s.th 0 0) (· == 0#64) && okB (holdFor s.th [0]) (fun _ => true) && okB (checkOperands s.th p false) (fun _ => true) &&
      okB (st.checkSlots s.me 0 fe (((s.cluster 0).slotAt 0).whole && !s.th.lostC) ((List.range fe.w).map fun j => (8 + j, false))) (fun x => x.2.isNone &&
        okB (x.1.replayNext s.me) (·.isNone) && okB (x.1.spadCheck s.me ((p.guard (thrCore s.me)).map fun r => (r.2.1, r.2.2 + 1 - r.2.1))) fun s2 =>
          okB (checkAScale fe 0 p.vc (s2.mmaData s.me p).sa) (fun _ => true) && okB (s2.accRead s.me 0) fun x => !x.2) && s.th.claim && (atWord .comp i s).holdsLease s.me) = true := by decide +kernel

theorem drainOut_ok (s : State) (k acc : Nat) (p : DrainP) (rd : VReg) (sw : Bool) (side : Nat) (bnd : Bool) :
    ∃ t, drainOut s k acc p rd none sw side bnd = .ok t := ⟨_, rfl⟩

/-- A region of 32768 elements that all lie at byte 0 passes its checks. -/
theorem witness_drain_region (s : State) (t : Thread) (r fmt k : Nat) (h : rdA s t r k = .ok 0#64) (h8 : (Span.ofFmt tileSize fmt).e ≤ 2 ^ 21) :
    drainRegion s t r fmt k = .ok ⟨r, 0#64, 0#64, Span.ofFmt tileSize fmt⟩ := by
  have z : (Rgn.of 0#64).base = 0 ∧ (Rgn.of 0#64).stride = 0 := by decide
  have a : ∀ l : List Nat, ∀ e : Nat, e ≤ 2 ^ 21 → checkOffs (l.map fun (i : Nat) => ((0 : Nat) : Int) + (i : Int) * 0) e = .ok ⟨⟩ := by
    intro l e he
    have f1 : (l.map fun (i : Nat) => ((0 : Nat) : Int) + (i : Int) * 0).find? (fun o => o % (e : Int) != 0) = none := by simp
    have f2 : (l.map fun (i : Nat) => ((0 : Nat) : Int) + (i : Int) * 0).find? (fun o => decide (o < 0 ∨ o + (e : Int) > 2 ^ 21)) = none := by
      simp; omega
    simp only [checkOffs, f1, f2]
  simp only [drainRegion, h, bind, Except.bind, Rgn.offs, z.1, z.2, a _ _ h8]

theorem witness_drain :
    let s := tiled
    let i : Instr := .mdrain 0 0 0 0 0 0 0 0
    let st := readied .comp i s
    let cl := s.cluster 0
    (goes .comp .matrix i s && (cl.slotAt 0).st == 1 && (cl.slotAt 0).task == s.th.task && okB (rdS st s.th 0 0) (· == 0#64) && okB (rdS st s.th 1 1) (· == 0#64) &&
      okB (rdS st s.th 2 2) (· == 0#64) && okB (rdA st s.th 0 4) (· == 0#64) && okB (holdFor s.th [0]) (fun _ => true) && okB (st.replayNext s.me) (·.isNone) && okB (st.accRead s.me 0) (fun x => !x.2) &&
      (cl.chkMismatch 0).isNone && boundTest s.th.boundCtl (cl.slotAt 0) (cl.partnerFree 0) (vget cl.ab 0 0#64) == .goOn false) = true := by
  decide +kernel

/-- A bound of 2 against a threshold of 1, and the converse, under each action. -/
theorem witness_bound_test :
    (f32 2#32).cmp (f32 1#32) = .gt ∧ (f32 1#32).cmp (f32 2#32) ≠ .gt ∧ (0#32).toNat % 4 = 0 ∧ (2#32).toNat % 4 = 2 ∧ (1#32).toNat % 4 = 1 ∧
    (BitVec.ofNat 32 ((0x100000002#64).toNat / 2 ^ 32)) = 1#32 ∧ (BitVec.ofNat 32 (0x100000002#64).toNat) = 2#32 := by decide +kernel

/-- s3 asks for one tile of weights of format 3 for layer 5 at B-store slot 8; a second state has it armed and full. -/
def boarding : State := holding.modThread 0 fun t => { t with s := vset t.s 3 ((5#64 <<< 48) ||| 0x483000#64) }
def boarded : State := boarding.modCluster 0 fun c => { c with
  subs := [BSub.of ((5#64 <<< 48) ||| 0x483000#64) 8 boarding.th.task 0]
  bst := [(8, { BSlot.free with st := 4, fmt := 3, task := boarding.th.task, layer := 5 })] }

theorem witness_boarding :
    let s := boarding
    let b := boarded
    let y := BSub.of ((5#64 <<< 48) ||| 0x483000#64) 8 s.th.task s.th.gangPos
    (goes .comp .matrix (.mfte 0 0 1 2 0) s && okB (rdS (readied .comp (.mfte 0 0 1 2 0) s) s.th 2 0) (fun v => ftLegal (v.toNat % 2 ^ 32)) &&
      goes .comp .matrix (.mftb 0 0 1 2) s && goes .comp .matrix (.board 0 0 3 8) s && y.legal ((5#64 <<< 48) ||| 0x483000#64) &&
      y.slots.all (fun j => ((s.cluster 0).bslot j.2.1).st == 0) && decide ((s.cluster 0).subs.length < 64) && goes .comp .matrix (.bquery 0 0 3 8) s &&
      goes .comp .matrix (.bwait 0 0 3 8) s && !(s.boardStat 0 s.th.tenant 8).valid && goes .comp .matrix (.bwait 0 0 3 8) b &&
      (let x := b.boardStat 0 b.th.tenant 8; x.valid && x.full + x.pois == x.nt) && goes .comp .matrix (.bdrop 0 0 8) s &&
      ((s.cluster 0).subs.find? fun y => y.slot == 8).isNone && goes .comp .matrix (.bdrop 0 0 8) b &&
      (((b.cluster 0).subs.find? fun y => y.slot == 8).map fun y => y.task == b.th.task && y.pos == b.th.gangPos).getD false) = true := by
  decide +kernel

/-- Head 1 holds an element of four bytes; s0 is 0, s1 1.0, s2 a word with the fields of a conversion from FP32 to FP8. -/
def computing : State := base.modThread 0 fun t => { t with
  s := vset (vset (vset t.s 1 0x3F800000#64) 2 0x030000#64) 4 0x300000#64, q := vset t.q 1 { QHead.unbound with kind := 1, esz := 2, depth := 4, elems := [9#64] } }

theorem witness_region_setup :
    let s := computing
    let go := fun (i : Instr) => goes .comp .vector i s
    let st := readied .comp (.vsetc 0 0 4) s
    let sp : Span := { n := 1, e := sizeBytes 0#2, nib := false }
    (go (.vsetc 0 0 4) && go (.aset 0 0 1 0 0 1) && okB (rdS st s.th 0 0) (fun v => bits v.toNat 23 21 == 0 && bits v.toNat 47 32 == 0 && bits v.toNat 30 27 == 0) &&
      go (.amod 0 0 1 0 0) && go (.astep 0 0 1 2 0 8) && okB (rdA st s.th 2 0) (fun v => decide ((Rgn.of v).base + 8 < 2 ^ 21)) && okB (rdM st s.th 2 1) (fun _ => true) &&
      go (.amov 0 0 1 2 0 0) && go (.amov 0 0 1 2 0 1) && go (.amov 0 0 1 2 0 2) && go (.vmovs 0 0 1 0 0 0 1 0) && okB (readReg st s.th 1 sp 0#1 1) (fun _ => true) &&
      go (.vmovs 0 0 3 1 0 1 0 0) && okB (checkVQ s.th 1 1 sp.e) (fun _ => true) && okB (st.popQ s.me 1 1) (fun x => x.2 == [9#64]) && go (.vmovs 0 0 3 2 0 0 0 0) &&
      okB (readReg st s.th 2 sp 0#1 1) fun x => okB (st.readElems x.offs sp) fun e => e.2.length == 1) = true := by decide +kernel

/-- A word of elements issues: its operands pass the checks and can be read. -/
def runs (e : Eng) (i : Instr) (v : VWord) : Bool :=
  goes .comp e i computing && okB (v.operands (readied .comp i computing)) fun o => okB (v.reads o (readied .comp i computing)) fun _ => true

/-- The shapes of a word of elements: one region, two, a queue head first, the destination read. -/
def shape (n : Nat) (two q d : Bool) : VWord :=
  { d := 3, dp := computing.th.span n, readD := d, s1 := src1 1 (if q then 1 else 0) 0 (computing.th.span n),
    s2 := if two then .region 2 0 (computing.th.span n) else .none, b := 1, u := 1 }

theorem witness_float_elements :
    (runs .vector (.vadd 0 0 3 1 0 2 0 1 1 0) (shape 4 true false false) && runs .vector (.vadd 0 0 3 1 0 2 0 1 1 1) (shape 4 true true false) &&
      runs .vector (.vsub 0 0 3 1 0 2 0 1 1 0) (shape 4 true false false) && runs .vector (.vmul 0 0 3 1 0 2 0 1 1 0) (shape 4 true false false) &&
      runs .vector (.vfma 0 0 3 1 0 2 0 1 1 0) (shape 4 true false true) && runs .vector (.vmin 0 0 3 1 0 2 0 1 1 0) (shape 4 true false false) &&
      runs .vector (.vmax 0 0 3 1 0 2 0 1 1 0) (shape 4 true false false) && runs .vector (.vabs 0 0 3 1 0 1 1 0) (shape 4 false false false) &&
      runs .vector (.vneg 0 0 3 1 0 1 1 0) (shape 4 false false false) && runs .vector (.vcmp 0 0 3 1 0 2 0 1 1 0 1) (shape 4 true false false) &&
      runs .vector (.vselm 0 0 3 1 0 2 0 1 1 0) (shape 4 true false true) && runs .vector (.vscl 0 0 3 1 0 1 0 1 1 0) (shape 4 false false false) &&
      okB (rdS (readied .comp (.vscl 0 0 3 1 0 1 0 1 1 0) computing) computing.th 1 6) (· == 0x3F800000#64)) = true := by decide +kernel

theorem witness_integer_elements :
    (runs .vector (.viadd 0 0 3 1 0 2 0 1 1 0 0) (shape 4 true false false) && runs .vector (.viadd 0 0 3 1 0 2 0 1 1 0 3) (shape 1 true false false) &&
      runs .vector (.visub 0 0 3 1 0 2 0 1 1 0 1) (shape 4 true false false) && runs .vector (.vimul 0 0 3 1 0 2 0 1 1 0 0) (shape 4 true false false) &&
      runs .vector (.vimin 0 0 3 1 0 2 0 1 1 0 0) (shape 4 true false false) && runs .vector (.vimax 0 0 3 1 0 2 0 1 1 0 0) (shape 4 true false false) &&
      runs .vector (.vand 0 0 3 1 0 2 0 1 1 0 0) (shape 4 true false false) && runs .vector (.vor 0 0 3 1 0 2 0 1 1 0 1) (shape 1 true false false) &&
      runs .vector (.vxor 0 0 3 1 0 2 0 1 1 0 0) (shape 4 true false false) && runs .vector (.vshl 0 0 3 1 0 2 0 1 1 0 0) (shape 4 true false false) &&
      runs .vector (.vshr 0 0 3 1 0 2 0 1 1 0 0) (shape 4 true false false) && runs .vector (.vsar 0 0 3 1 0 2 0 1 1 0 0) (shape 4 true false false)) = true := by
  decide +kernel

/-- Sums outside and inside 8 bits, at the ends of the range. -/
theorem witness_integer_arithmetic : 127 < 2 ^ 8 ∧ sext 8 127 + sext 8 1 = 2 ^ (8 - 1) ∧ sext 8 128 + sext 8 255 < -(2 ^ (8 - 1)) ∧
    sext 8 126 + sext 8 1 < 2 ^ (8 - 1) := by decide

theorem witness_reductions :
    let r (two sc : Bool) : VWord := { shape 4 two false false with dp := span32 1, scalar := sc }
    (runs .vector (.vrsum 0 0 3 1 0 1 1 0 0) (r false true) && runs .vector (.vrsum 0 0 3 1 0 1 1 0 1) (r false false) &&
      runs .vector (.vrmax 0 0 3 1 0 1 1 0 0) (r false true) && runs .vector (.vrmin 0 0 3 1 0 1 1 0 0) (r false true) &&
      runs .vector (.vdot 0 0 3 1 0 2 0 1 1 0 0) (r true true)) = true := by decide +kernel

theorem witness_conversions :
    let rd (k n : Nat) := okB (rdS (readied .comp (.vrand 0 0 3 2 0 1 1 0) computing) computing.th k n) fun _ => true
    let w (n f g : Nat) : VWord := { shape 4 false false false with dp := Span.ofFmt n g, s1 := src1 1 0 0 (Span.ofFmt n f) }
    (rd 2 6 && rd 3 7 && rd 0 6 && rd 1 7 && rd 4 6 && rd 5 7 && (VCv.qnt.par 0x030000 0 0 false).isSome && (VCv.cvt.par 0x030000 0 0 false).isSome &&
      (VCv.dqnt.par 0x300000 0 0 false).isSome && runs .vector (.vcvt 0 0 3 1 0 1 0 1 1 0) (w 1 0 3) && runs .vector (.vqnt 0 0 3 1 0 1 0 1 1 0) (w 1 0 3) &&
      runs .vector (.vdqnt 0 0 3 1 0 2 0 1 1 0) (w 1 3 0) && runs .vector (.vdrop 0 0 3 1 0 1 0 1 1 0) (shape 4 false false false) &&
      runs .vector (.vrand 0 0 3 2 0 1 1 0) { shape 4 false false false with s1 := .none }) = true := by decide +kernel

theorem witness_data_movement :
    let s := computing.modThread 0 fun t => { t with s := vset t.s 5 0x10001#64 }
    let st := readied .comp (.vtrn 0 0 3 1 0 5 0 1 0 0) s
    let sp := s.th.span 4
    let one : Span := { n := 1, e := 4, nib := false }
    (runs .vector (.vcopy 0 0 3 1 0 1 1 0 0) (shape 4 false false false) && runs .vector (.vbcast 0 0 3 1 0 1 1 0) (shape 4 false false false) &&
      goes .comp .vector (.vtrn 0 0 3 1 0 5 0 1 0 0) s && okB (rdS st s.th 5 6) (fun v => bits v.toNat 15 0 * bits v.toNat 31 16 == s.th.n) &&
      okB (rawReg st s.th 3 0 0) (fun _ => true) && okB (rawReg st s.th 1 0 2) (fun _ => true) && okB (checkOffs (matOffs (Rgn.of 0#64) 1 1 4).flatten 4) (fun _ => true) &&
      okB (st.readElems (matOffs (Rgn.of 0#64) 1 1 4).flatten one) (fun _ => true) && goes .comp .vector (.vgath 0 0 3 1 0 2 0 1 0 0) s &&
      okB (readReg st s.th 3 sp 0 0) (fun _ => true) && okB (checkIndexed (Rgn.of 0#64) 4) (fun _ => true) && okB (readReg st s.th 2 sp 0 4) (fun r =>
        okB (st.readElems r.offs r.p) fun x => okB (indexedOffs (Rgn.of 0#64) 4 x.2) fun o => okB (x.1.readElems o sp) fun _ => true) &&
      goes .comp .vector (.vscat 0 0 3 1 0 2 0 1 0 0 0) s && okB ((src1 1 0 0 sp).reg st s.th 0 2) fun r => okB ((src1 1 0 0 sp).read st r) fun _ => true) = true := by
  decide +kernel

theorem witness_special_functions :
    (([.sexp2 0 0 3 1 0 1 1 0, .slog2 0 0 3 1 0 1 1 0, .sexp 0 0 3 1 0 1 1 0, .sln 0 0 3 1 0 1 1 0, .srcp 0 0 3 1 0 1 1 0, .ssqrt 0 0 3 1 0 1 1 0,
      .srsq 0 0 3 1 0 1 1 0, .stanh 0 0 3 1 0 1 1 0, .ssigm 0 0 3 1 0 1 1 0, .ssin 0 0 3 1 0 1 1 0, .scos 0 0 3 1 0 1 1 0, .serf 0 0 3 1 0 1 1 0] : List Instr).all fun i =>
        runs .special i (shape 4 false false false)) = true ∧ runs .special (.sdiv 0 0 3 1 0 2 0 1 1 0) (shape 4 true false false) = true := by decide +kernel
/-! ## Witnesses: translations, arrivals, images, faults of a thread -/

/-- A handle write on its way, found in the TLB or not, or cancelled; a walk for it, and one for a fetch. -/
def settling (hit : Option (Nat × Nat × Nat)) (c : Bool) : State :=
  withTh fun t => { t with settles := [⟨2, false, 5, 0x100, 1, hit, c, 0, none⟩] }
def walking (h : Option Nat) : State := (mapped base).modDie 0 fun d => { d with walks := [⟨0, 0, h, 0, 0x100, 1, 0⟩] }

theorem witness_translation :
    ((settling none true).thread 0).settles[0]?.isSome = true ∧ (settling (some (0, 0, 7)) false).th.settles.length = 1 ∧
    (settling none false).th.settles.take 0 = [] ∧ ((walking none).die 0).walks[0]?.isSome = true ∧ ((walking (some 2)).thread 0).running = true ∧
    okB ((walking (some 2)).walkMeet 0 0x100) (fun s => (s.thread 0).running &&
      match s.walk 0 0x100 with | .leaf e _ => rightsOk e 1 false 0x100 | _ => false) = true ∧
    (let s : State := withTask (fun t => { t with state := 5, requeueAt := some 0 }) base
     (s.taskOf s.th.task).map (fun x => (x.state, x.requeueAt)) = some (5, some 0)) := by decide +kernel

/-- Something of each kind on its way. -/
def arriving : State :=
  let f : Flight := { seq := 3, eng := .load, word := 0#32, ts := 0, pfx := [], next := 0, snap := Thread.blank.snap, late := none, locks := [],
                      lines := 1, flags := 0#32, writes := [], regs := [] }
  let s := withTh fun t => { t with
    flights := [f]
    qflights := [⟨1, [7#64], 2⟩], ctlAcc := [⟨false, 5, 0, 0, false, 9, false, 0, 1, none⟩] }
  { (s.modDie 0 fun d => { d with wts := [⟨3, lineOf (List.replicate 64 1#8), maskAll, 1, false, false, false⟩] }) with
    barAdds := [⟨0x40, 1, none, 0, 0#32⟩, ⟨0x80, 1, some 1, 0, 0#32⟩] }

theorem witness_arrivals :
    let s := arriving
    let t := s.thread 0
    let ld := (withTh fun t => { t with ctlAcc := [⟨false, 5, 0x40, 8, true, 0, false, 0, 1, none⟩] })
    (t.flights.length == 1 && !s.frozen 0 && !t.qflights.any (fun x => x.seq == 3) && s.peers.isEmpty && (s.die 0).wts.length == 1 &&
      !s.hostHolds 3 && okB (ld.loadBytes 0 0x40 8 false) (fun x => !x.2.2) && !ld.frozen 0 && ld.th.ctlAcc.length == 1 && (s.homeWrite 3 (lineOf (List.replicate 64 1#8)) maskAll).isSome &&
      !(base.die (thrDie 0)).wts.any (fun w => (base.homeOf (w.line * 64)).isAt 1) && t.ctlAcc.length == 1 && s.barAdds.length == 2 &&
      (s.writeAddr 0x40).isSome && (s.writeAddr 0x80).isSome && !(s.barAdds.take 1).any (fun b => b.pa == 0x80) && t.qflights.length == 1) = true ∧
    (withTh fun t => { t with ctlAcc := [⟨true, 0, 0x40, 8, false, 5, false, 0, 1, none⟩] }).th.ctlAcc.head?.map (·.store) = some true := by decide +kernel

/-- A write-through to a line that a peer homes, before it is sent. -/
theorem witness_peer_write_through :
    let l := (2 ^ 51 + 3 * 2 ^ 43) / 64
    let s := base.modDie 0 fun d => { d with wts := [⟨l, 0#512, maskAll, 1, true, false, false⟩] }
    ((s.die 0).wts[0]?.map fun w => w.peer && !w.sent) == some true && !s.hostHolds l && (s.homeWrite l 0#512 maskAll).isSome = true := by decide +kernel

/-- An image being written, for each of its purposes. -/
def writing (purpose : Nat) : State :=
  let i : Image := { task := 1, id := 0, seq := 0, mark := 0, cidx := 0, ref := false, done := false, core := 0, recs := [], vers := none, run := none,
                     accLoc := none, t := none, spad := [], spadBad := [], acc := [], subs := [] }
  base.modDie 0 fun d => { d with imgs := [⟨0, 0, purpose, 0, i, true⟩] }

theorem witness_images :
    (let s := { (withTh fun t => { t with pendPersist := some 1, persistAt := 1 }) with now := 60000 }
     let w := s.modThread 0 fun t => { t with ph := { Phase.none with stage := 3, arg2 := pointWaits } }
     (s.thread 0).pendPersist.isSome && (s.thread 0).pointDue s.now && (s.thread 0).ph.stage == 0 && !s.pointCommits 0 && (s.thread 0).drained &&
       (s.thread 0).wordsWhole && (w.thread 0).pointDue w.now && doneB (({ w with focus := some 0 } : State).commitGo .ctl) fun _ => true) = true ∧
    ([0, 1, 2, 3, 4].all fun p => (((writing p).die 0).imgs[0]?.map fun j => (j.purpose, j.begun)) == some (p, true) && ((writing p).core 0).freezes == 0) = true := by decide +kernel

/-- The words that a checker may blame: the one at the PC. -/
theorem witness_checker : ∃ x, (base.checkerWords 0)[(base.free 5).toNat % (base.checkerWords 0).length]? = some x := by
  have h : 0 < (base.checkerWords 0).length := by decide +kernel
  exact ⟨_, List.getElem?_eq_getElem (Nat.mod_lt _ h)⟩

theorem witness_thread_faults :
    let w := { (withTh fun t => { t with waitK := some ⟨.token, 0⟩ }) with now := 2 ^ 30 }
    let w := { w with ring := { w.ring with speed := 0 } }
    let unmapped := withTh fun t => { t with pc := 0x100000 }
    (unmapped.canAct 0 && (unmapped.thread 0).trapPend.isNone && (match (unmapped.fetch 0).2 with | .fails _ => true | _ => false) && base.canAct 0 &&
      (base.wordAtPc 0).isSome && w.canAct 0 && !w.waitPaused 0 && ((w.thread 0).watchdogDue .ctl .token w.now).isSome &&
      (withTh fun t => { t with idleUntil := some 0 }).th.idleUntil == some 0) = true := by decide +kernel

/-! ## Witnesses: the weight ring and the lease -/

/-- Head 1 subscribed to the ring at 0x40, which holds one slot; one range staged for the ring. -/
def subscribed : State :=
  let s := ringed.modThread 0 fun t => { t with q := vset t.q 1 { QHead.unbound with kind := 2, esz := 2, depth := 64, sub := some ⟨0x40, 2, 1, 0, 0, 0, 0⟩ } }
  withTask (fun t => { t with staged := [⟨0x40, 0x80, 64, List.replicate 64 1#8, 0, false, false, 2, 1, 0⟩] }) { s with mem := memPut s.mem 0x40 (leBytes 8 1) }

theorem witness_ring_loader_storer :
    let s := subscribed
    let b := vget (s.thread 0).q 1 QHead.unbound
    let cons := s.homeNat 0x48 8
    (b.kind == 2 && b.sub.isSome && (s.thread 0).running && !(s.thread 0).halted && !s.isPoison 1 && !s.frozen 0 && (s.homeNat 0x40 8 + 2 ^ 64 - 0) % 2 ^ 64 == 1 &&
      min b.space ((1 * 64 - 0) / b.ebytes) == 16 && okB (s.homeBytes (0x40 + 64 + 0 % 2 * 1 * 64 + 0) 64) (fun x => !x.2.2) && s.allStaged.length == 1 &&
      decide ((s.homeNat 0x40 8 + 0 + 2 ^ 64 - cons) % 2 ^ 64 < 2) &&
      s.canEngineWriteRange (0x40 + 64 + 1 * 64) (List.replicate 64 1#8)) = true := by decide +kernel

/-- A table of one frame: before it, while it travels, and after it. -/
def lapping (fly : Bool) (done : Nat) : State :=
  let r := { base.ring with flying := vset base.ring.flying 0 fly, lanes := vset base.ring.lanes 0 done }
  { base with ring := { r with speed := 0, speedWant := 0, table := some [⟨5, 0, 3, 1, 65, 0x10000⟩] } }

theorem witness_weight_ring :
    ((lapping false 1).ring.lapEnded && (lapping false 1).ring.speed != 5 && (lapping false 0).ring.speedWant != 5 && ((lapping false 0).ring.entry 0).isSome &&
      !(vget (lapping false 0).ring.flying 0 true) && vget (lapping true 0).ring.flying 0 false && ((lapping true 0).ring.entry 0).isSome && okB ((lapping false 0).homeBytes 0x10000 ((((lapping false 0).ring.entry 0).map (·.bytes)).getD 0)) fun _ => true) = true := by
  decide +kernel

theorem witness_lease_timeout :
    let s := { (leased.modCluster 0 fun c => { c with waitq := 2#4 }) with now := 10 ^ 9 }
    ((s.cluster 0).leaseHeld && (s.cluster 0).waitq != 0#4 && decide ((s.cluster 0).leaseAt + 160 * 65536 ≤ (s.cluster 0).cycles s.now) &&
      (s.thread (s.coreThr 0 (s.cluster 0).holder)).tileRep.isNone) = true := by
  decide +kernel
/-! ## Witnesses: launches, placement, the energy scheduler, power -/

/-- A graph of one node at 0x8000, its row at 0x8800, its image header at 0x9000, and a launch record of it in queue 0. -/
def launching (replay : Nat) : State :=
  let s := mapped base
  let m := memPut (memPut (memPut (memPut s.mem 0x8000 (leBytes 8 1)) 0x8010 (leBytes 8 0x8800)) 0x8040 (leBytes 8 0x9000)) 0x8050 (leBytes 8 (2 ^ 32))
  let s := { s with mem := memPut (memPut m 0x8800 (leBytes 8 1)) 0x9000 (leBytes 8 (2 ^ 32 + 0x51434D31)) }
  let s := (s.winPut 0x100000 (leBytes 8 0x8000)).winPut 0x10000B (leBytes 1 replay)
  ((s.winPut 0x100010 (leBytes 8 0x10000)).winPut 0x100018 (leBytes 4 16)).winPut 0x10FFF8 (leBytes 8 1)

theorem witness_first_launch :
    let s := launching 0
    let r := LaunchRec.of (s.winBytes 0x100000 64)
    (!s.launchWaits r && s.winNat 0x10FFF0 8 % 1023 == 0 && s.winNat 0x10FFF8 8 % 1023 == 1 && Tab.getD s.qBound 0 r.ctx == r.ctx && (Tab.find r.ctx s.ctxs).isSome && !r.reserved &&
      !r.replay && (s.slot r.slot).isNone && r.ringOk && (s.ctx r.ctx).pdie r.vdie == some 0 && (match s.launchCheck r.ctx r.graph with
        | .ok g => g.1.length == 1
        | .error _ => false)) = true := by decide +kernel

theorem witness_replay_launch :
    let s := { launching 1 with slots := (graphed id id).slots }
    let r := LaunchRec.of (s.winBytes 0x100000 64)
    (!s.launchWaits r && !r.reserved && r.replay && ((s.slot r.slot).map fun x => x.ctx == r.ctx).getD false) = true ∧
    (let w := graphed (fun n => { n with cgen := 4 }) fun x => { x with gen := 4, replayWait := some none }
     (w.slot 0).map (fun x => x.replayWait.isSome && w.genDone 0 x && !capWaits (w.captureGraph x.ctx x.graph)) = some true) := by decide +kernel

/-- A ready task of class 2, one of class 0 past its deadline, and the running task, of class 3. -/
def queued : State :=
  let s := withTask (fun t => { t with cls := 3 }) base
  let x := (s.taskOf 1).getD (s.newTask 0 ⟨0, 0, 0, 1, 0, 0, [], 0, 16, 0, false, none, 0, []⟩ 0 0 false)
  let s := { s with tasks := s.tasks ++ [{ x with uid := 8, cls := 2, state := 0, threads := [] }, { x with uid := 9, cls := 0, deadline := 1, state := 0, threads := [] }] }
  ({ s with now := 10 ^ 7 }).modCore 1 fun c => { c with owner := 0, off := false }

theorem witness_placement :
    let s := (queued.refillReady 0).modTask 8 fun t => { t with waitAt := 0 }
    let late := rankSort (((s.die 0).ready.filterMap s.taskOf).filter fun t => t.cls == 0 && !s.heldBack t && decide (t.due ≤ s.now))
    let run := rankSort (s.tasks.filter fun u => u.die == 0 && u.state == 1 && (s.ctx u.ctx).tenant == 0)
    ((s.die 0).ready.contains 8 && ((s.taskOf 8).map fun t => t.state == 0 && t.effClass != 0 && decide (t.waitAt + 4000000 ≤ s.now)).getD false &&
      queued.dieLive 0 && ((rankSort ((s.die 0).ready.filterMap s.taskOf)).head?.map fun t => !s.heldBack t && (s.tryPlace t).isSome).getD false &&
      ((base.refillReady 0).die 0).ready.isEmpty && (late.head?.map (·.uid)) == some 9 && ((run.getLast?.map fun u => decide (0 < u.effClass)).getD false)) = true := by
  decide +kernel

theorem witness_fill_and_saves :
    let f := (base.setThread 1 { Thread.blank with running := true }).modCore 0 fun c => { c with fill := some 1 }
    let p := { (withTh fun t => { t with preempt := some 0 }) with now := 100000 }
    let q := { (withTh fun t => { t with parkStop := some 0 }) with now := 100000 }
    ((f.thread (2 * 0 + (1 - (f.core 0).active))).running && (f.core 0).fill.isSome && !(f.core 0).filled && p.th.running && !p.th.halted && p.saveReady 0 && q.saveReady 0 &&
      p.th.preempt == some 0 && q.th.parkStop == some 0) = true := by decide +kernel

/-- The image of a curve of one point and no event; no signature can be computed here, so its acceptance is a premise. -/
def curveImage : List Byte := leBytes 4 0x51435256 ++ leBytes 4 1 ++ leBytes 8 1 ++ List.replicate 2484 0#8

theorem curveImage_shape : curveShape curveImage = true ∧ curveSound curveImage (curveOf curveImage) = true ∧ field curveImage 8 8 = 1 ∧
    curveImage.length = 2500 := by decide +kernel

theorem witness_curve_accepted (key : List Byte)
    (h : mldsaVerify key (sha3 (curveImage.take (curveImage.length - 2420))) (curveImage.drop (curveImage.length - 2420)) = true) :
    ({ base with boot := { base.boot with facKey := some key, stage := 4 } } : State).curveResult curveImage = 0 := by
  have z : ({ base with boot := { base.boot with facKey := some key, stage := 4 } } : State).lastCurve = 0 := (by decide +kernel : base.lastCurve = 0)
  simp [State.curveResult, curveImage_shape.1, h, curveImage_shape.2.1, curveImage_shape.2.2.1, z]

theorem witness_curve_image :
    let s0 := (base.winPut 0x300000 (curveImage.take 24)).winPut 0x301E00 (leBytes 8 2500)
    let s := { s0 with boot := { s0.boot with stage := 4 }, agate := { s0.agate with curveDoor := true } }
    s.boot.stage = 4 ∧ s.agate.curveDoor = true ∧ s.winBytes 0x300000 (min (s.winNat 0x301E00 8) 7680) = curveImage ∧
      base.curveResult curveImage ≠ 0 := by decide +kernel

/-- A curve in force with one event of an action, a curve that waits, PEND, EXEMPT and a parked task. -/
theorem witness_curve_events :
    let with_ (a : Nat) : State := { base with sched := { base.sched with cur := some ⟨1, 0, [(0, 5)], [(0, 1, a)]⟩, wait := some ⟨2, 0, [(0, 5)], []⟩, exempt := true } }
    ([0, 1, 2].all fun a => ((with_ a).sched.nextEvent.map fun e => decide (e.1.eventAt e.2 ≤ base.now) && e.2.2.2 == a).getD false) = true ∧
    ((with_ 0).sched.wait.map fun c => c.from_) = some 0 ∧ (with_ 0).sched.exempt = true ∧ (with_ 0).sched.exemptUntil ≤ (with_ 0).now := by decide +kernel

theorem witness_park_copy :
    let i : Image := { task := 1, id := 0, seq := 0, mark := 0, cidx := 0, ref := false, done := true, core := 0, recs := [⟨0, 1264, true⟩], vers := none, run := none,
                       accLoc := none, t := some { Thread.blank with gangPos := 0 }, spad := [], spadBad := [], acc := [], subs := [] }
    let s := withTask (fun t => { t with state := 3, origins := [i], kept := [(2, i)] }) { base with sched := { base.sched with parkArea := some (2 ^ 40, 2 ^ 20) } }
    ((s.taskOf 1).map fun t => t.state == 3 && t.parkRun.isNone && !s.sched.suspended && t.resumeImages.length == t.gangN &&
      (freeRun (s.tasks.filterMap (·.parkRun)) (2 ^ 20)
        (((t.resumeImages.map Image.size).sum + 96 * (t.lines ++ (s.versTake 1).2).length + granule - 1) / granule * granule)).isSome) = some true := by decide +kernel

theorem witness_energy_events :
    State.reset.energy.at_ + 1000 ≤ 1000 ∧ (base.cluster 0).permAt + 64 * 160 ≤ (base.cluster 0).cycles 1000 ∧ energyIndex 0x10 = some 1 ∧ base.boot.minimal = false ∧ (1 : Nat) < 2 ∧ (2 : Nat) ≤ 3 ∧ [500, 400].foldl min 450 < (base.die 0).vminMv := by decide +kernel

theorem witness_operating_points :
    let s := { base with now := 10 ^ 6 }
    let c := fun (f : Cluster → Cluster) => (base.modCluster 0 f).cluster 0
    (decide (s.sched.fastAt + 10000 ≤ s.now) && decide (s.sched.slowAt + 1000000 ≤ s.now) && ((base.modDie 0 fun d => { d with vTo := some 2 }).die 0).vTo.isSome &&
      (c fun x => { x with hopTo := some 3 }).hopTo.isSome && !(c fun x => { x with hopTo := some 3 }).hopAborted && decide ((c fun x => { x with hopTo := some 3 }).hopAt + 100 ≤ s.now) && (c fun x => { x with biasTo := some 1 }).biasTo.isSome &&
      (c fun x => { x with hopAborted := true }).hopAborted && !(c fun x => { x with hopAborted := true }).stretch &&
      decide ((c id).tripAt + 1000 ≤ s.now) && decide ((c id).tripCyc + 32 * 160 ≤ ((c id).tick s.now).cyc) &&
      decide (((c fun x => { x with tripCyc := 10 ^ 12 }).tick s.now).cyc < 10 ^ 12 + 32 * 160)) = true := by decide +kernel

/-- Die 3 on, with no cluster on; a park list for its stack once it is off; a stack to retain; die 3 to be switched on; clusters waiting. -/
theorem witness_power :
    let on := base.modDie 3 fun d => { d with on := true }
    let pl := { (base.modStack 0 fun x => { x with st := 1 }) with sched := { base.sched with parkList := [(0, 4096, 2 ^ 40, true)] } }
    let pl := pl.modDie 0 fun d => { d with on := false }
    let rt := { ((base.modStack 2 fun x => { x with st := 1 })) with now := 1000000 }
    let wk := { base with sched := { base.sched with wake := 8#8 } }
    let rd := base.modDie 0 fun d => { d with waitOn := 3#16 }
    ((on.idleOff 3).canGate 3 && ((on.idleOff 3).writeBackAll 3).isSome && !wk.sched.suspended && !(pl.die 0).on && (pl.stack 0).present && (pl.stack 0).st == 1 && !(pl.stack 0).copied && !pl.sched.suspended &&
      !(pl.parkEntries 0).isEmpty && rt.canRetain 2 && (wk.die 3).present && !(wk.die 3).on && wk.sched.wake.getLsbD 3 && apart wk.sched.lastOn wk.now &&
      (rd.die 0).on && (rd.die 0).waitOn != 0#16) = true := by decide +kernel
/-! ## Witnesses: requests, errors, start-up, the host, links, Agate -/

/-- One request of 64 bytes in the ring. -/
def asking (l : List Byte) (s : State) : State := (s.winPut 0x200000 l).winPut 0x204008 (leBytes 8 1)

/-- A request of a code: its context or number, and its two argument words. -/
def request (op n a b : Nat) : List Byte := leBytes 2 op ++ leBytes 6 n ++ leBytes 8 a ++ leBytes 8 b ++ List.replicate 40 0#8

/-- The request stands, in a state where no shootdown is under way. -/
def asks (op : Nat) (l : List Byte) (s : State) : Bool := s.oldestReq == some l && s.shoots.isEmpty && field l 0 1 == op && field l 4 4 == 0

theorem witness_context_requests :
    let c := request 0x01 3 0x1000 0x80
    let d := request 0x02 3 0 0
    let p := request 0x08 0 0x100000 0x10000
    let m := mapped base
    let with3 := { m with ctxs := Tab.put 3 ⟨0, false, 0, Vector.replicate 8 0#8, none⟩ m.ctxs }
    (asks 0x01 c (asking c base) && bits 0x1000 63 52 == 0 && bits 0x1000 11 9 == 0 && field c 24 40 == 0 && (Tab.find 3 base.ctxs).isNone && bits 0x1000 7 0 != 0xFF &&
      (asking c base).vdtOk (Vector.ofFn fun v => BitVec.ofNat 8 (field c (16 + v.val) 1)) && asks 0x02 d (asking d with3) && (Tab.find 3 with3.ctxs).isSome &&
      !with3.tasks.any (fun t => t.ctx == 3 && t.state == 1) && asks 0x08 p (asking p m) && (Tab.find 0 m.ctxs).isSome && (asking p m).inHbm 0x100000 0x10000) = true := by
  decide +kernel

/-- A lap table of one entry at 0xA000, and the request to install it. -/
theorem witness_lap_request :
    let l := request 0x04 0 0xA000 0
    let s := asking l { base with mem := memPut (memPut base.mem 0xA000 (leBytes 8 1)) 0xA040 (leBytes 16 (3 * 2 ^ 92 + 2 ^ 91 + 32 * 2 ^ 83 + 0x10000)) }
    (asks 0x04 l s && s.inHbm 0xA000 64 && okB (s.homeBytes 0xA000 64) (fun h => leNat h.2.1 == 1 && !h.2.2 && h.1.inHbm 0xA040 16 && okB (h.1.homeBytes 0xA040 16) fun b =>
      !b.2.2 && (match b.1.readLap b.2.1 0 1 0 [] with | .ok t => t.length == 1 | .error _ => false)) && s.ring.table.isNone && (lapping false 0).ring.table.isSome) = true := by
  decide +kernel

theorem witness_table_requests :
    let park := request 0x05 0 0xA000 1
    let sp := asking park { base with mem := memPut (memPut (memPut base.mem 0xA000 (leBytes 8 0x100000)) 0xA008 (leBytes 8 4096)) 0xA010 (leBytes 8 (2 ^ 40)) }
    let tel := request 0x06 0 0x100000 256
    let slot := request 0x07 0 0 0xA000
    let own := request 0x0F 0 0xA000 0
    let area := request 0x10 0 (2 ^ 40) 0x10000
    let odd := request 0x55 0 0 0
    (asks 0x05 park sp && sp.inMemory 0xA000 32 && okB (sp.homeBytes 0xA000 32) (fun b => !b.2.2 && sp.parkEntryOk b.2.1) && !sp.parkEntryOk (leBytes 32 1) &&
      asks 0x06 tel (asking tel base) && base.inHbm 0x100000 (64 * 256) && asks 0x07 slot (asking slot base) && (base.putSlotTable 0 0 []).isSome && base.inMemory 0xA000 64 &&
      okB (base.homeBytes 0xA000 64) (fun b => !b.2.2 && (b.1.putSlotTable 0 0 (b.2.1.map (·.toNat))).isSome) && asks 0x0F own (asking own base) && base.inMemory 0xA000 512 &&
      okB (base.homeBytes 0xA000 512) (fun b => !b.2.2) && asks 0x10 area (asking area base) && base.inLp (2 ^ 40) 0x10000 && !base.tasks.any (fun t => t.parkRun.isSome) &&
      (withTask (fun t => { t with parkRun := some (0, 4096) }) base).tasks.any (fun t => t.parkRun.isSome) && (asking odd base).oldestReq == some odd) = true := by decide +kernel

theorem witness_running_requests :
    let sh := request 0x03 0 0 0x1000
    let pre := request 0x09 0 ((base.taskOf 1).map (·.id) |>.getD 0) 0
    let clr := request 0x0A 0 2 0
    let can := request 0x0D 0 0x40 0
    let c : Coll := { desc := 0x40, comm := 0, op := 5, fmt := 0, root := 0, count := 1, src := 0x8000, dst := 0x8100, bar := 0, task := 1, pos := 0, ord := 0, done := [], since := 0, heard := [], inputs := [],
                      heads := [], stalled := none, flags := 0#32, stopped := false }
    (asks 0x03 sh (asking sh (mapped base)) && (Tab.find 0 (mapped base).ctxs).isSome && base.peers.isEmpty && ({ base with shoots := [⟨0, 0, 0x1000, []⟩] } : State).shoots.length == 1 &&
      !base.copies.any (·.shoot) && asks 0x09 pre (asking pre base) && (base.tasks.find? fun t => t.id == field pre 8 5 && t.state == 1).isSome &&
      asks 0x0A clr (asking clr base) && base.corePresent 2 && asks 0x0D can (asking can { base with colls := [c] }) && c.desc == field can 8 8 &&
      asks 0x0E (request 0x0E 0 0 0) (asking (request 0x0E 0 0 0) base) && asks 0x0E (request 0x0E 0 1 0) (asking (request 0x0E 0 1 0) base) &&
      field (request 0x0E 0 1 0) 8 1 == 1) = true := by decide +kernel

theorem witness_domain_and_communicator_requests :
    let re := request 0x0B 0 0x40 0
    let s := { asking re (snapping 0) with snapRoots := [(0x40, [])] }
    let cm := request 0x0C 0 0xA000 0
    let t := asking cm { mapped base with mem := memPut (memPut base.mem 0xA004 (leBytes 2 2)) 0xA008 (leBytes 8 0xB000) }
    (asks 0x0B re s && s.localPa 0x40 == 0x40 && s.inMemory 0x40 64 && okB (s.homeBytes 0x40 64) (fun b => !b.2.2 && !snapReserved (leNat b.2.1) &&
      b.1.snapRoots.any fun x => x.1 == 0x40) && asks 0x0C cm t && t.inHbm 0xA000 64 && okB (t.homeBytes 0xA000 64) fun b => !b.2.2 && field b.2.1 4 2 == 2 &&
        field b.2.1 6 2 == 0 && b.1.ctxs.any (fun c => c.2.tenant == 0) && b.1.inMemory 0xB000 16 && okB (b.1.homeBytes 0xB000 16) fun m => !m.2.2) = true := by
  decide +kernel

theorem witness_error_events :
    let b (n : Nat) (sw : Bool) (spare : BitVec 64) : State := { (base.modStack 1 fun x => { x with st := 1, spare := spare }) with bursts := [⟨1, 0, 3, 0, 0, n, sw⟩] }
    let w := base.modDie 0 fun d => { d with wear := [(7, (5 * 10 ^ 13 + 1, none))] }
    let full := w.modDie 0 fun d => { d with spares := spareBlocks }
    let cp : State := { base with copies := [⟨0, 0x100, 0x400, 300, [0, 1], 0x40, 0, 1, 0, false⟩] }
    (({ base with banks := [⟨1, 2, 3, [], false, true, false⟩] } : State).banks.find? (fun x => x.str == 1 && x.unit == 2 && x.rebuilding)).isSome = true ∧
    ((b 0 false 0#64).bursts.length = 1 ∧ 0 + 1 < 3 ∧ ((b 2 false 0#64).stack 1).spare.getLsbD 3 = false ∧ ((b 2 false 8#64).stack 1).spare.getLsbD 3 = true) ∧
    ((b 2 true 0#64).bursts.map (·.swapped)) = [true] ∧ ((b 0 false 0#64).stack 1).present = true ∧ ((b 0 false 0#64).stack 1).st = 1 ∧
    (!base.boot.minimal && errOrder[0]?.isSome && decide ((0#32 - base.evq.head).toNat ≤ (base.evq.tail - base.evq.head).toNat)) = true ∧
    ((w.die 0).imgs.isEmpty && decide ((Tab.getD (w.die 0).wear 7 (0, none)).1 > 5 * 10 ^ 13) && decide ((w.die 0).spares < spareBlocks) &&
      decide (spareBlocks ≤ (full.die 0).spares)) = true ∧
    (cp.copies.all (cp.copyEligible ·) && okB (cp.homeBytes 0x100 256) (fun x => !x.2.2 && x.1.canEngineWriteRange 0x400 x.2.1)) = true := by decide +kernel

/-- Rails on their way: one of several, the last at step 2 with the cores' rails up or not, the last at step 6; times; minimal mode. -/
theorem witness_start_up :
    let b (f : Boot → Boot) : State := { base with now := 70 * 10 ^ 9, boot := f base.boot }
    let two := b fun x => { x with railWait := 6#21, step := 2 }
    let one := b fun x => { x with railWait := 2#21, step := 2 }
    let cores := b fun x => { x with railWait := 2#21, step := 2, rails := railVcore }
    let six := b fun x => { x with railWait := 2#21, step := 6 }
    let six' : State := { six with boot := { six.boot with rails := six.railVhbm } }
    (!base.boot.rails.getLsbD 0 && two.boot.railWait.getLsbD 1 && (two.boot.railWait &&& ~~~2#21) != 0#21 && one.boot.railWait.getLsbD 1 && (one.boot.railWait &&& ~~~2#21) == 0#21 &&
      one.boot.step == 2 && ((one.boot.rails ||| 2#21) &&& railVcore) == 0#21 && ((cores.boot.rails ||| 2#21) &&& railVcore) != 0#21 && six.boot.step == 6 &&
      ((six.boot.rails ||| 2#21) &&& six.railVhbm) != six.railVhbm && ((six'.boot.rails ||| 2#21) &&& six'.railVhbm) == six'.railVhbm &&
      decide (two.boot.railAt + 10000000 ≤ two.now)) = true ∧
    (let s := b fun x => { x with rails := 1#21 }
     s.boot.rails.getLsbD 0 = true ∧ s.boot.minimal = false ∧ s.boot.stage < 4 ∧ s.boot.startAt + 60000000000 ≤ s.now) ∧
    (b fun x => { x with minimal := true }).boot.minimal = true ∧ [0, 1, 2].find? (fun k => base.imagePasses k []) = none := by decide +kernel

/-- An image of firmware of the first kind with an empty body; its signature's acceptance is a premise. -/
def firmware : List Byte := leBytes 4 0x51434146 ++ List.replicate 2480 0#8

theorem firmware_fields : field firmware 0 4 = imageMagic 0 ∧ field firmware 12 52 = 0 ∧ 64 + field firmware 8 4 + 2420 ≤ firmware.length ∧
    base.minSvn 0 ≤ field firmware 4 4 := by decide +kernel

theorem witness_recovery_image (h : mldsaVerify Config.vendorKey (sha3 (imageBody firmware)) (imageSig firmware) = true) :
    [0, 1, 2].find? (fun k => base.imagePasses k firmware) = some 0 := by
  have p : base.imagePasses 0 firmware = true := by
    simp [State.imagePasses, firmware_fields.1, firmware_fields.2.1, firmware_fields.2.2.1, firmware_fields.2.2.2, h]
  simp only [List.find?_cons, p]

/-- Port 0 up, a line of it held by nobody and one that port 1 holds. -/
theorem witness_host :
    let s := { base with ports := vset base.ports 0 { Port.blank with up := true, snoop := [9] } }
    let held := { s with ports := vset s.ports 1 { Port.blank with up := true, cxl := true, held := [1] } }
    (s.hostPa 0 0x40 == some 0x40 && s.hostPa 0 (winBase + 8) == some (winBase + 8) && (s.port 0).up && decide (0x40 + 1 ≤ barEnd) && decide (winBase ≤ winBase + 8) && decide (winBase + 8 + 1 ≤ barEnd) && decide (0x40 < winBase) && !s.boot.minimal &&
      !s.touchesUnbacked 0x40 1 && held.hostHolds 1 && ({ base with agate := { base.agate with idLock := true } } : State).agate.idLock &&
      okB (s.homeBytes 0x40 8) (fun x => !x.1.heldWrites.any fun w => w.port == some 0) &&
      ({ s with heldWrites := [⟨3, 1, 0#512, 0#64, false, none, some 0⟩] } : State).heldWrites.any (fun w => w.port == some 0) && !s.agate.idLock &&
      (s.port 0).snoop.contains 9) = true := by decide +kernel

/-- An access of each kind that waits for a peer, and one that a timeout ends. -/
theorem witness_peer_answers :
    let s (k dest : Nat) (o : Option (Nat × Nat × List Nat)) : State :=
      { base with peers := [⟨3, k, 2 ^ 51 + 3 * 2 ^ 43, 8, 0, 0, 0, dest, 0, o, 0#512⟩], now := 10 ^ 6 }
    ([0, 1, 2, 3].all fun k => ((s k 1 none).peers[0]?.map fun p => decide (p.dest ≤ 1) && p.kind == k && decide (p.issued + 1000000 ≤ (s k 1 none).now)).getD false) = true ∧
    ((s 0 7 none).peers[0]?.map (·.dest)) = some 7 ∧
    ((s 2 8 (some (1, 0, [0, 1]))).peers[0]?.map fun p => (p.kind, p.dest, p.once)) = some (2, 8, some (1, 0, [0, 1])) := by decide +kernel

theorem witness_peer_accesses :
    let s := base
    ((s.inHbm 64 64 || s.inLp 64 64) && okB (s.homeBytes 64 64) (fun _ => true) && (List.range 2).all (fun p => !(s.port p).held.contains 1) &&
      (s.homeWrite 1 (lineOf (List.replicate 64 0#8)) (BitVec.ofNat 64 3)).isSome && okB (s.homeBytes 64 8) (fun x => !x.2.2 && (x.1.writeAddr 64).isSome) && (64 : Nat) % 16 == 0 &&
      s.canEngineWrite 1 && !({ s with ports := vset s.ports 0 { Port.blank with up := true, cxl := true, held := [1] } } : State).canEngineWrite 1 && (s.engineWriteLine 1 (lineOf (List.replicate 64 0#8)) (BitVec.ofNat 64 3)).isSome) = true := by decide +kernel

/-- A broadcast of one element from rank 0, which is this module, to rank 1, whose header has come. -/
def collective : State :=
  let s := mapped base
  { s with comms := [⟨0, 0, 2, 0, [0, 0], 0⟩], colls := [{ desc := 0x40, comm := 0, op := 5, fmt := 0, root := 0, count := 1, src := 0x8000, dst := 0x8100, bar := 0, task := 1, pos := 0, ord := 0, done := [], since := 0, heard := [], inputs := [], heads := [(1, 5, 0, 1)], stalled := none, flags := 0#32, stopped := false }] }

theorem witness_collective_events :
    let s := collective
    let c := s.colls.head?.getD { desc := 0, comm := 0, op := 0, fmt := 0, root := 0, count := 0, src := 0, dst := 0, bar := 0, task := 0, pos := 0, ord := 0, done := [], since := 0, heard := [], inputs := [],
                                  heads := [], stalled := some 1, flags := 0#32, stopped := true }
    let all (c : Coll) (m : Comm) : Bool := (List.range m.n).all fun r => r == m.rank || c.heads.any fun h => h.1 == r
    let deaf := { c with heads := [] }
    let s' := { s with now := 10 ^ 9, colls := [deaf] }
    (!c.stopped && ((s.commOf c).map fun m => !c.done.contains (c.chunks, 0) && all c m && !all deaf m && deaf.owes m 1 && okE (s.collSend c m) fun t =>
      let c0 := { c with done := c.done ++ [(c.chunks, 0)] }
      match ({ t with colls := t.colls.set 0 c0 } : State).collOutput c0 m c0.chunk.1 c0.chunk.2 with
      | .ok (s1, some (out, _), []) => s1.collMayWrite c0 (c0.dst + c0.chunk.1) out
      | _ => false).getD false) = true ∧
    decide (Tab.getD deaf.heard 1 deaf.since + 1000000000 ≤ s'.now) = true ∧ deaf.stalled = none ∧
    (s.colls.find? fun c => decide (c.comm % 2 ^ 16 = 1 / 4096 % 2 ^ 16 ∧ c.ord = 1 / 2 ^ 28)) = some c ∧
    (s.eth.find? fun e => e.num == 1 && e.inc) = none ∧
    (field (leBytes 16 (5 + 2 ^ 64)) 0 1 = c.op ∧ field (leBytes 16 (5 + 2 ^ 64)) 1 1 = c.fmt ∧ field (leBytes 16 (5 + 2 ^ 64)) 8 8 = c.count) ∧
    field (leBytes 16 6) 0 1 ≠ c.op := by decide +kernel

/-- The paths in each state, START-UP at STAGE 4; each request in the form that its rule asks for. -/
theorem witness_security :
    let g (st : Nat) : State := { base.setThread agateThr agateStart with boot := { base.boot with stage := 4 }, agate := (base.agate.setPath 0 st).put tCert (leBytes 8 100) }
    let q (code : Nat) (ver : Nat) (rest : List Byte) : List Byte := [BitVec.ofNat 8 ver, BitVec.ofNat 8 code] ++ rest
    let ok (st : Nat) (req : List Byte) (n : Nat) : Bool :=
      decide (4 ≤ req.length ∧ req.length ≤ 4096) && (g st).boot.stage == 4 && (g st).agateWaits && (g st).agate.waiting.isEmpty && ((g st).agate.enter 0 req).pathState 0 == st && req.length == n
    let z (n : Nat) : List Byte := List.replicate n 0#8
    (ok 0 (q 0x84 0x10 (z 2)) 4 && ok 1 (q 0xE1 0x14 (z 18)) 20 && ok 2 (q 0xE3 0x14 (z 2 ++ leBytes 2 32 ++ z 26)) 32 && field (q 0xE3 0x14 (z 2 ++ leBytes 2 32 ++ z 26)) 4 2 == 32 &&
      ok 3 (q 0x81 0x14 (z 2)) 4 && ok 3 (q 0x82 0x14 (z 6)) 8 && decide (field (q 0x82 0x14 (z 6)) 4 2 < leNat (((g 3).agate.enter 0 (q 0x82 0x14 (z 6))).get tCert 8)) &&
      ok 3 (q 0x83 0x14 (z 42)) 44 && ok 3 (q 0xE0 0x14 (leBytes 2 0xFF00 ++ z 8)) 12 && field (q 0xE0 0x14 (leBytes 2 0xFF00 ++ z 8)) 3 1 == 0xFF &&
      ok 3 (q 0xE0 0x14 (leBytes 2 0xFF01 ++ z 41)) 45 && field (q 0xE0 0x14 (leBytes 2 0xFF01 ++ z 41)) 2 1 == 1 && !spdmCodes.contains (reqCode (q 0x99 0x14 (z 2))) &&
      reqCode (q 0x84 0x10 (z 2)) == 0x84 && !(g 0).agate.locked) = true := by decide +kernel
/-! ## Ill-formed terms, one for each check -/

/-- g0 is never freed (R41). -/
theorem refuses_freed_g0 : (Instr.add 1 0 1 2 0).wf = false ∧ (Instr.add 1 2 0 0 1).wf = false ∧ (Instr.add 1 0 0 0 0).wf = true := by decide
/-- With IX = 1 the low bits of the offset are reserved, and g0 is not freed (R262). -/
theorem refuses_index_offset : (Instr.lds 4 2 3 0 1 1).wf = false ∧ (Instr.lds 4 2 3 0 1 0x10).wf = false ∧ (Instr.lds 4 2 3 0 1 0x30).wf = true := by decide
/-- A scratchpad operand names one of eight index registers (R25, R316). -/
theorem refuses_scratchpad_register : (Instr.ld 0 0 2 1 0 9 1 0 0).wf = false ∧ (Instr.ld 0 0 2 1 0 9 0 0 0).wf = true := by decide
/-- Last use and post-increment exclude each other (R316). -/
theorem refuses_freed_increment : (Instr.ld 0 0 2 1 1 1 0 0 1).wf = false := by decide
/-- An atomic that returns nothing names no queue head, and SCOPE 6 and 7 are reserved (R101, R335). -/
theorem refuses_atomic_fields : (Instr.amoAdd 0 0 0 2 1 0 3 4 0 0).wf = false ∧ (Instr.amoAdd 0 0 0 2 1 0 3 4 1 6).wf = false ∧
    (Instr.amoAdd 0 0 0 2 1 0 3 4 1 5).wf = true := by decide
/-- A queue head as a source takes no last-use bit (R41). -/
theorem refuses_freed_queue_head : (Instr.vadd 0 0 3 1 1 2 0 0 0 1).wf = false := by decide
/-- Ranges of R265: a shift count, a condition, an operation of PSET, token pairs, a scope of FENCE, a d of DBNZ, rights of XLATE. -/
theorem refuses_ranges : (Instr.shli 1 2 0 64).wf = false ∧ (Instr.cmp 1 2 0 3 0 10).wf = false ∧ (Instr.pset 1 2 3 4).wf = false ∧
    (Instr.waitt 1 5).wf = false ∧ (Instr.sigt 0 3).wf = false ∧ (Instr.fence 6 2).wf = false ∧ (Instr.dbnz 0 1).wf = false ∧
    (Instr.xlate 1 1 0 9 0).wf = false := by decide

/-! ## Words that the spec writes out, beside the instruction that its listing gives -/

/-- ADD g3, ~g4, g5; REP 4, d, s1; BR !p2, −3; CMP.LTU p1, g5, g2. -/
theorem decodes_control_words : decode 0x000C9280#32 = .ok (.add 3 4 1 5 0) ∧ decode 0xE0078000#32 = .ok (.rep 3 1 1 0) ∧
    decode 0x11AFFFFD#32 = .ok (.br 2 1 0x7FFFD) ∧ decode 0x1004A104#32 = .ok (.cmp 1 5 0 2 0 4) := ⟨rfl, rfl, rfl, rfl⟩
/-- XLATE h1, g1, g9, 3; HWAIT h1; SIGT 3, 1. -/
theorem decodes_handle_words : decode 0x15042483#32 = .ok (.xlate 1 1 0 9 3) ∧ decode 0x15840000#32 = .ok (.hwait 1) ∧
    decode 0x17800013#32 = .ok (.sigt 1 3) := ⟨rfl, rfl, rfl⟩
/-- XADDI x5, x0, 16; QBIND.E4 q1, x5; LDX q2, [h3+x0], q1, 16; LMARK.SD q2, −1; LLOOP lc0, 47, 1. -/
theorem decodes_load_words : decode 0x27828010#32 = .ok (.xaddi 0 0 5 0 0 16) ∧ decode 0x2300A802#32 = .ok (.qbind 0 0 1 5 0 2) ∧
    decode 0x2081810C#32 = .ok (.ldx 0 0 3 0 0 2 1 4) ∧ decode 0x258903FF#32 = .ok (.lmark 0 1 2 0 0 0x3FF) ∧
    decode 0x2600202F#32 = .ok (.lloop 1 0 47) := ⟨rfl, rfl, rfl, rfl, rfl⟩
/-- SLOOP lc0, 8, 1; SNOP.WU. -/
theorem decodes_store_words : decode 0x45002008#32 = .ok (.sloop 1 0 8) ∧ decode 0x47A00000#32 = .ok (.snop 1 0) := ⟨rfl, rfl⟩
/-- LEASE; BWAIT s1, bs0; MDRAIN.SD acc0, a4, s4. -/
theorem decodes_matrix_words : decode 0x60000000#32 = .ok (.lease 0 0) ∧ decode 0x65810000#32 = .ok (.bwait 0 0 1 0) ∧
    decode 0x62884020#32 = .ok (.mdrain 0 1 0 4 0 0 0 1) := ⟨rfl, rfl, rfl⟩
/-- ASET.Z a1, s0; VRSUM.B a2, a1; VCOPY.WU a4, a0. -/
theorem decodes_vector_words : decode 0x92808001#32 = .ok (.aset 0 0 1 0 0 1) ∧ decode 0x85010811#32 = .ok (.vrsum 0 0 2 1 0 1 0 0 1) ∧
    decode 0x8F220000#32 = .ok (.vcopy 1 0 4 0 0 0 0 0 0) := ⟨rfl, rfl, rfl⟩
/-- KICK.R g5, g8; NWAIT g7, g6, g5; TEND; RDTIME g5; FENCE.AR.DIE. -/
theorem decodes_system_words : decode 0xC5950001#32 = .ok (.kickR 5 8 0) ∧ decode 0xC61CC280#32 = .ok (.nwait 7 6 0 5 0) ∧
    decode 0xC4000000#32 = .ok .tend ∧ decode 0xC9940000#32 = .ok (.rdtime 5) ∧ decode 0xC280000F#32 = .ok (.fence 3 3) := ⟨rfl, rfl, rfl, rfl, rfl⟩
/-- An unassigned code point is no instruction (R260). -/
theorem refuses_unassigned : (match decode 0x1C800000#32 with | .ok _ => false | .error _ => true) = true := by decide

/-! ## Single steps against results worked out from the rules -/

/-- All ones and 2 give 1 (R286). -/
theorem test_add_wraps : nextB (exec (.add 3 1 0 2 0) (withTh fun t => { t with g := vset (vset t.g 1 (BitVec.allOnes 64)) 2 2#64 }))
    (fun t => vget t.th.g 3 0#64 == 1#64 && t.th.pc == 4) = true := by decide +kernel
/-- g0 keeps reading 0 (R26). -/
theorem test_write_g0 : nextB (exec (.add 0 1 0 2 0) two) (fun t => vget t.th.g 0 0#64 == 0#64 && t.th.pc == 4) = true := by decide +kernel
/-- The most negative number divided by −1 stays, with remainder 0; a division by 0 gives all ones and the dividend (R287). -/
theorem test_division_edges :
    let s := withTh fun t => { t with g := vset (vset t.g 1 0x8000000000000000#64) 2 (BitVec.allOnes 64) }
    (nextB (exec (.divs 3 1 0 2 0) s) (fun t => vget t.th.g 3 0#64 == 0x8000000000000000#64) && nextB (exec (.rems 3 1 0 2 0) s) (fun t => vget t.th.g 3 1#64 == 0#64) &&
      nextB (exec (.divu 3 1 0 0 0) s) (fun t => vget t.th.g 3 0#64 == BitVec.allOnes 64) && nextB (exec (.remu 3 1 0 0 0) s) fun t =>
        vget t.th.g 3 0#64 == 0x8000000000000000#64) = true := by decide +kernel
/-- High halves of −1 times −1: 0 signed, all ones less 1 unsigned (R286). -/
theorem test_high_products :
    let s := withTh fun t => { t with g := vset t.g 1 (BitVec.allOnes 64) }
    (nextB (exec (.mulhs 3 1 0 1 0) s) (fun t => vget t.th.g 3 1#64 == 0#64) && nextB (exec (.mulhu 3 1 0 1 0) s) fun t =>
      vget t.th.g 3 0#64 == 0xFFFFFFFFFFFFFFFE#64) = true := by decide +kernel
/-- A freed source raises DEAD_REGISTER under LUTRAP: the handler is entered at the word, TRAP_INFO names g5, g3 keeps its value (R41). -/
theorem test_dead_register :
    let s := withTh fun t => { t with status := 0x00400000#32, handlerBase := 1#64, g := vset t.g 3 9#64, freed := { t.freed with g := 0x20#32 } }
    nextB (exec (.add 3 5 0 2 0) { s with mem := memPut s.mem (64 + 8 * cDeadRegister) (leBytes 8 0x2001) })
      (fun t => vget t.th.g 3 0#64 == 9#64 && t.th.pc == 0x2000 && t.th.trapPc == 0#64 && bits t.th.trapInfo.toNat 7 0 == 5) = true := by decide +kernel
/-- An add of 1 to 5 leaves 6 at home and sends 5 to the head (R335, and the replay example after R337). -/
theorem test_atomic_add :
    let i : Instr := .amoAdd 0 0 0 2 1 0 3 6 1 0
    let s := loading.modThread 0 fun t => { t with xs := vset t.xs 3 1#64, q := vset t.q 6 { QHead.unbound with kind := 1, esz := 3, depth := 4 } }
    nextB (exec i (atWord .store i { s with mem := memPut s.mem 0x40 (leBytes 8 5) })) (fun t => t.homeNat 0x40 8 == 6 &&
      ((t.th.qflights.map fun f => (f.q, f.vals)) == [(6, [5#64])])) = true := by decide +kernel
/-- The scratchpad of the example after R392, with vc 4 and its two regions. -/
def summing : State :=
  (base.spadWrite 0 0x100 (leBytes 4 0x4B800000 ++ leBytes 4 0x3F800000 ++ leBytes 4 0x3F800000 ++ leBytes 4 0x3F800000)).modThread 0 fun t =>
    { t with vc := 4#16, a := vset (vset t.a 1 0x04000100#64) 2 0x04000200#64, eb := vset t.eb 2 bInf }
/-- The pairwise sum of 2^24 and three times 1.0: s3 is 0x4B80_0001, and NX is set (the example after R392). -/
theorem test_pairwise_sum : nextB (exec (.vrsum 0 0 3 1 0 0 0 0 0) (atWord .comp (.vrsum 0 0 3 1 0 0 0 0 0) summing))
    (fun t => vget t.th.s 3 0#64 == 0x4B800001#64 && t.th.flags == 0x10#32) = true := by decide +kernel
/-- The same to a region: eb2 is 12.0 (the example after R392). -/
theorem test_pairwise_bound : nextB (exec (.vrsum 0 0 2 1 0 1 0 0 1) (atWord .comp (.vrsum 0 0 2 1 0 1 0 0 1) summing))
    (fun t => vget t.th.eb 2 0#32 == 0x41400000#32) = true := by decide +kernel
/-- Dies 0 and 5 lie two hops apart, 0 and 7 four (R180). -/
theorem test_hops : hops 0 5 = 2 ∧ hops 0 7 = 4 ∧ hops 3 3 = 0 := by decide
/-- Arrivals that reach EXPECTED flip PHASE and leave the rest over (R122). -/
theorem test_barrier_step : barStep 5 8 3 = 2 ^ 63 ∧ barStep (2 ^ 63 + 5) 8 4 = 1 ∧ barStep 5 8 2 = 7 := by decide
/-- SHA3-256 of no bytes, as its standard publishes it (R463). -/
theorem test_sha3 : (sha3 []).take 4 = [0xa7#8, 0xff#8, 0xc6#8, 0xf8#8] := by decide +kernel

end Sys2Proof.Tests
end

section
/-! The edge cases of division (R287) and the select word (R290). Both words are `aluRR` words: what such a word comes to, on readable sources
and on a source that raises, is said once for every operation. -/

namespace Sys2Proof.Machine

open Sys2Proof

/-- A word of two source registers raises the cause of the first source, and of the second where the first can be read. -/
theorem aluRR_error {f : W → W → W} {d a : BitVec 5} {l : BitVec 1} {b : BitVec 5} {m : BitVec 1} {s : State} {x : W} {e : Stop}
    (h : rdG s s.th a.toNat 0 = .error e ∨ rdG s s.th a.toNat 0 = .ok x ∧ rdG s s.th b.toNat 1 = .error e) :
    aluRR f d a l b m s = .error e := by
  rcases h with ha | ⟨ha, hb⟩
  · simp only [aluRR, ha]
    rfl
  · simp only [aluRR, ha, hb]
    rfl

/-- A written g register reads the value; g0 keeps its own. -/
theorem vget_wrG (t : Thread) (d : BitVec 5) (v : W) :
    vget (wrG t d.toNat v).g d.toNat 0#64 = if d = 0#5 then vget t.g 0 0#64 else v := by
  split
  next h => subst h; rfl
  next h =>
    have hd : d.toNat ≠ 0 := fun e => h (BitVec.eq_of_toNat_eq e)
    exact vget_wrG_self t _ v hd d.isLt

/-- Writing a result leaves the repeat at which the unit stands. -/
theorem repNow_wrG (t : Thread) (r : Nat) (v : W) : (wrG t r v).repNow = t.repNow :=
  repNow_congr (wrG_pfx ..) (wrG_repDone ..) (wrG_repState ..) (wrG_status ..) (wrG_repPc ..) (by simp [Thread.unitPc])

/-- So does freeing a source. -/
theorem repNow_freeG (t : Thread) (l : BitVec 1) (r : Nat) : (freeG t l r).repNow = t.repNow :=
  repNow_congr (freeG_pfx ..) (freeG_repDone ..) (freeG_repState ..) (freeG_status ..) (freeG_repPc ..) (by simp [Thread.unitPc])

/-- The instruction completes at the next word, with FLAGS and the trap registers as they were, and with the value, where one is named, in the
register `d`; g0 keeps its own. -/
def CompletesWith (s : State) (d : BitVec 5) (i : Instr) (v : Option W) : Prop :=
  ∃ t, exec i s = .next t ∧ (t.thread s.me).pc = s.th.pc + 4 ∧ (t.thread s.me).flags = s.th.flags ∧
    (t.thread s.me).trapPend = s.th.trapPend ∧ (t.thread s.me).trapCause = s.th.trapCause ∧
    ∀ q, v = some q → vget (t.thread s.me).g d.toNat 0#64 = if d = 0#5 then vget s.th.g 0 0#64 else q

/-- Outside REP a word of two readable sources completes with the result of its operation. -/
theorem completesWith_of_aluRR {i : Instr} {f : W → W → W} {d a : BitVec 5} {l : BitVec 1} {b : BitVec 5} {m : BitVec 1} {s : State} {x y : W}
    (hgo : CtlGo s false) (hrep : s.th.repNow = (0, 1, 0)) (hx : rdG s s.th a.toNat 0 = .ok x) (hy : rdG s s.th b.toNat 1 = .ok y)
    (hi : exec i s = ctl .control false (wordOf i) (aluRR f d a l b m) s) : CompletesWith s d i (some (f x y)) := by
  refine ⟨_, hi.trans (ctl_ok hgo (aluRR_ok hx hy) rfl rfl), ?_⟩
  have hr : (wrG (freeG (freeG s.th l a.toNat) m b.toNat) d.toNat (f x y)).repNow.2.1 ≤ 1 := by
    simp only [repNow_wrG, repNow_freeG, hrep, Nat.le_refl]
  simp [ctlDone_pc _ _ hr, vget_wrG]

/-- A value that is named nowhere but where it is the result may stand in the result's place. -/
theorem CompletesWith.mono {s : State} {d : BitVec 5} {i : Instr} {r : W} {v : Option W} (h : CompletesWith s d i (some r))
    (hv : ∀ q, v = some q → r = q) : CompletesWith s d i v := by
  obtain ⟨t, ht, hpc, hflags, hpend, hcause, hd⟩ := h
  exact ⟨t, ht, hpc, hflags, hpend, hcause, fun q hq => hv q hq ▸ hd r rfl⟩

/-- An operation agrees with its column of the table of R287, which names the result `z` for a divisor of 0 and `o` for −2^63 divided by −1, when
it has these two results. -/
theorem eq_of_edge_case {f : W → W → W} {x y z o : W} (hz : f x 0#64 = z) (ho : x = 0x8000000000000000#64 → f x (BitVec.allOnes 64) = o)
    (q : W) (h : (if y = 0#64 then some z else if x = 0x8000000000000000#64 ∧ y = BitVec.allOnes 64 then some o else none) = some q) :
    f x y = q := by
  split at h
  next hy => exact hy ▸ hz.trans (Option.some.inj h)
  next =>
    split at h
    next hxy => exact hxy.2 ▸ (ho hxy.1).trans (Option.some.inj h)
    next => cases h

/-- Settles O16: each division word is an `aluRR` word, and its operation has the results of the table. -/
theorem divisionEdgeCases : Obligations.DivisionEdgeCases := by
  intro s d a l b m x y hgo hrep hx hy
  have completes {i : Instr} {f : W → W → W} (hi : exec i s = ctl .control false (wordOf i) (aluRR f d a l b m) s) :
      CompletesWith s d i (some (f x y)) := completesWith_of_aluRR hgo hrep hx hy hi
  exact ⟨(completes (f := divS) rfl).mono (eq_of_edge_case rfl (by rintro rfl; decide)),
    (completes (f := divU) rfl).mono (eq_of_edge_case rfl (by rintro rfl; decide)),
    (completes (f := remS) rfl).mono (eq_of_edge_case rfl (by rintro rfl; decide)),
    (completes (f := remU) rfl).mono (eq_of_edge_case rfl (by rintro rfl; decide))⟩

/-- A last-use bit that is set marks its register as freed. -/
theorem freeG_marks (t : Thread) (r : BitVec 5) : (freeG t 1#1 r.toNat).freed.g.getLsbD r.toNat = true := by
  simp [freeG, r.isLt]

/-- Freeing a register leaves the marks of the registers freed before. -/
theorem freeG_keeps_mark {t : Thread} {i : Nat} (l : BitVec 1) (r : Nat) (h : t.freed.g.getLsbD i = true) :
    (freeG t l r).freed.g.getLsbD i = true := by
  unfold freeG
  split
  · simp [h]
  · exact h

/-- The C-R word of SEL (R290). -/
theorem encode_sel (d a : BitVec 5) (l : BitVec 1) (b : BitVec 5) (m : BitVec 1) (p : BitVec 3) :
    encode (.sel d a l b m p) = some (BitVec.ofNat 32 (0x0F800000 + d.toNat * 2 ^ 18 + a.toNat * 2 ^ 13 + l.toNat * 2 ^ 12 +
      b.toNat * 2 ^ 7 + m.toNat * 2 ^ 6 + p.toNat)) := by
  simp [encode]

/-- The body of SEL: a word of two source registers whose operation is the choice by the predicate. -/
def selBody (d a : BitVec 5) (l : BitVec 1) (b : BitVec 5) (m : BitVec 1) (p : BitVec 3) (s : State) : M CtlRes :=
  aluRR (fun x y => if rdP s.th p.toNat then x else y) d a l b m s

section

variable {d a : BitVec 5} {l : BitVec 1} {b : BitVec 5} {m : BitVec 1} {p : BitVec 3} {s : State} {x y : W}

/-- SEL is the control word of this body. -/
theorem exec_sel : exec (.sel d a l b m p) s = ctl .control false (wordOf (.sel d a l b m p)) (selBody d a l b m p) s := rfl

/-- On readable sources SEL frees both and writes the one that the predicate chooses. -/
theorem selBody_ok (hx : rdG s s.th a.toNat 0 = .ok x) (hy : rdG s s.th b.toNat 1 = .ok y) :
    selBody d a l b m p s =
      .ok { s := s.setTh (wrG (freeG (freeG s.th l a.toNat) m b.toNat) d.toNat (if rdP s.th p.toNat then x else y)) } :=
  aluRR_ok hx hy

/-- SEL raises the cause of a source, whichever source its predicate chooses. -/
theorem selBody_error {e : Stop} (h : rdG s s.th a.toNat 0 = .error e ∨ rdG s s.th a.toNat 0 = .ok x ∧ rdG s s.th b.toNat 1 = .error e) :
    selBody d a l b m p s = .error e :=
  aluRR_error h

end

/-- Settles O17: the two sources are read and freed whichever value the predicate chooses. -/
theorem selectWord : Obligations.SelectWord := by
  intro s d a l b m p x y c
  refine ⟨encode_sel .., fun hgo hx hy => ⟨?_, ?_, ?_⟩, fun hgo h => ?_⟩
  · exact exec_sel.trans (ctl_ok hgo (selBody_ok hx hy) rfl rfl)
  · rintro rfl
    exact freeG_keeps_mark m _ (freeG_marks s.th a)
  · rintro rfl
    exact freeG_marks _ b
  · exact exec_sel.trans (ctl_err hgo (selBody_error h))

end Sys2Proof.Machine
end

section
/-! The round trip of the words: the lemmas of Laws/PerInstr, one for each constructor, gathered over all instructions. -/

namespace Sys2Proof.Laws.Enc

open Sys2Proof

/-- The decoder's row gives every encoded instruction back from its word. -/
theorem statement (i : Instr) : Statement i :=
  match i with
  | .add .. => add _ _ _ _ _
  | .addi .. => addi _ _ _ _
  | .sub .. => sub _ _ _ _ _
  | .mul .. => mul _ _ _ _ _
  | .mulhs .. => mulhs _ _ _ _ _
  | .mulhu .. => mulhu _ _ _ _ _
  | .divs .. => divs _ _ _ _ _
  | .divu .. => divu _ _ _ _ _
  | .rems .. => rems _ _ _ _ _
  | .remu .. => remu _ _ _ _ _
  | .and .. => and _ _ _ _ _
  | .andi .. => andi _ _ _ _
  | .or .. => or _ _ _ _ _
  | .ori .. => ori _ _ _ _
  | .xor .. => xor _ _ _ _ _
  | .xori .. => xori _ _ _ _
  | .shl .. => shl _ _ _ _ _
  | .shli .. => shli _ _ _ _
  | .shr .. => shr _ _ _ _ _
  | .shri .. => shri _ _ _ _
  | .sar .. => sar _ _ _ _ _
  | .sari .. => sari _ _ _ _
  | .min .. => min _ _ _ _ _
  | .max .. => max _ _ _ _ _
  | .minu .. => minu _ _ _ _ _
  | .maxu .. => maxu _ _ _ _ _
  | .clz .. => clz _ _ _
  | .ctz .. => ctz _ _ _
  | .popc .. => popc _ _ _
  | .ldi .. => ldi _ _
  | .ldhi .. => ldhi _ _
  | .sel .. => sel _ _ _ _ _ _
  | .cmp .. => cmp _ _ _ _ _ _
  | .cmpi .. => cmpi _ _ _ _ _
  | .pset .. => pset _ _ _ _
  | .br .. => br _ _ _
  | .jmp .. => jmp _ _
  | .call .. => call _ _
  | .ret .. => ret _ _
  | .dbnz .. => dbnz _ _
  | .lds .. => lds _ _ _ _ _ _
  | .sts .. => sts _ _ _ _ _
  | .xlate .. => xlate _ _ _ _ _
  | .hwait .. => hwait _
  | .hrel .. => hrel _
  | .emit .. => emit _ _
  | .emitWithPrefix .. => emitWithPrefix _ _ _ _
  | .waitt .. => waitt _ _
  | .sigt .. => sigt _ _
  | .tkcnt .. => tkcnt _ _
  | .join .. => join _ _ _ _
  | .leave .. => leave _ _ _
  | .gbar .. => gbar _ _ _
  | .ginfo .. => ginfo _ _ _ _
  | .rdcsr .. => rdcsr _ _
  | .wrcsr .. => wrcsr _ _ _
  | .csrs .. => csrs _ _ _
  | .csrc .. => csrc _ _ _
  | .trap .. => trap _ _ _
  | .trapret => trapret
  | .install .. => install _ _ _
  | .phint .. => phint _
  | .pfence .. => pfence _
  | .fence .. => fence _ _
  | .qsync => qsync
  | .tcommit => tcommit
  | .tend => tend
  | .tabort .. => tabort _
  | .pswap .. => pswap _ _ _
  | .kick .. => kick _ _ _
  | .kickR .. => kickR _ _ _
  | .nwait .. => nwait _ _ _ _ _
  | .barinit .. => barinit _ _ _ _
  | .barexp .. => barexp _ _ _ _
  | .barwait .. => barwait _ _ _ _
  | .snapc .. => snapc _ _ _ _
  | .opreq .. => opreq _ _
  | .curtq .. => curtq _
  | .rdtime .. => rdtime _
  | .rdengy .. => rdengy _ _
  | .dhops .. => dhops _ _ _ _ _
  | .vdmap .. => vdmap _ _ _ _ _
  | .coll .. => coll _ _ _ _
  | .idle .. => idle _
  | .ecall .. => ecall _ _ _
  | .rep .. => rep _ _ _ _
  | .pred .. => pred _ _
  | .exti .. => exti _
  | .ld .. => ld _ _ _ _ _ _ _ _ _
  | .ldx .. => ldx _ _ _ _ _ _ _ _
  | .ldsc .. => ldsc _ _ _ _ _ _ _ _
  | .ldbd .. => ldbd _ _ _ _ _ _
  | .lsub .. => lsub _ _ _ _ _ _
  | .lunsub .. => lunsub _ _ _
  | .qbind .. => qbind _ _ _ _ _ _
  | .qfree .. => qfree _ _ _
  | .splk .. => splk _ _ _ _ _ _ _ _ _
  | .pfetch .. => pfetch _ _ _ _ _ _ _
  | .xlatl .. => xlatl _ _ _ _ _ _ _
  | .lmark .. => lmark _ _ _ _ _ _
  | .lloop .. => lloop _ _ _
  | .xmov .. => xmov _ _ _ _ _ _
  | .xadd .. => xadd _ _ _ _ _ _ _
  | .xaddi .. => xaddi _ _ _ _ _ _
  | .xshl .. => xshl _ _ _ _ _ _
  | .lnop .. => lnop _ _
  | .st .. => st _ _ _ _ _ _ _ _
  | .stx .. => stx _ _ _ _ _ _ _ _
  | .stbd .. => stbd _ _ _ _ _ _
  | .sunlk .. => sunlk _ _ _ _ _ _ _ _ _
  | .spull .. => spull _ _ _ _ _ _ _ _
  | .cwbr .. => cwbr _ _ _ _ _ _
  | .cinvr .. => cinvr _ _ _ _ _ _
  | .xcopy .. => xcopy _ _ _ _ _ _
  | .baradd .. => baradd _ _ _ _ _ _
  | .smark .. => smark _ _ _ _ _ _
  | .sloop .. => sloop _ _ _
  | .xmovSt .. => xmovSt _ _ _ _ _ _
  | .xaddSt .. => xaddSt _ _ _ _ _ _ _
  | .xaddiSt .. => xaddiSt _ _ _ _ _ _
  | .xshlSt .. => xshlSt _ _ _ _ _ _
  | .snop .. => snop _ _
  | .acas .. => acas _ _ _ _ _ _ _ _ _ _
  | .amoAdd .. => amoAdd _ _ _ _ _ _ _ _ _ _
  | .amoFadd .. => amoFadd _ _ _ _ _ _ _ _ _ _
  | .amoMin .. => amoMin _ _ _ _ _ _ _ _ _ _
  | .amoMax .. => amoMax _ _ _ _ _ _ _ _ _ _
  | .amoAnd .. => amoAnd _ _ _ _ _ _ _ _ _ _
  | .amoOr .. => amoOr _ _ _ _ _ _ _ _ _ _
  | .amoXor .. => amoXor _ _ _ _ _ _ _ _ _ _
  | .amoSwap .. => amoSwap _ _ _ _ _ _ _ _ _ _
  | .lease .. => lease _ _
  | .unlease .. => unlease _ _
  | .mtstart .. => mtstart _ _ _ _ _
  | .mma .. => mma _ _ _ _ _ _ _
  | .mzero .. => mzero _ _ _
  | .mdrain .. => mdrain _ _ _ _ _ _ _ _
  | .mrdb .. => mrdb _ _ _ _
  | .msett .. => msett _ _ _ _ _
  | .mfte .. => mfte _ _ _ _ _
  | .mftb .. => mftb _ _ _ _
  | .board .. => board _ _ _ _
  | .bwait .. => bwait _ _ _ _
  | .bdrop .. => bdrop _ _ _
  | .bquery .. => bquery _ _ _ _
  | .mloop .. => mloop _ _ _
  | .mnop .. => mnop _ _
  | .mxmode .. => mxmode _ _ _ _
  | .vsetc .. => vsetc _ _ _
  | .vadd .. => vadd _ _ _ _ _ _ _ _ _ _
  | .vsub .. => vsub _ _ _ _ _ _ _ _ _ _
  | .vmul .. => vmul _ _ _ _ _ _ _ _ _ _
  | .vfma .. => vfma _ _ _ _ _ _ _ _ _ _
  | .vmin .. => vmin _ _ _ _ _ _ _ _ _ _
  | .vmax .. => vmax _ _ _ _ _ _ _ _ _ _
  | .vabs .. => vabs _ _ _ _ _ _ _ _
  | .vneg .. => vneg _ _ _ _ _ _ _ _
  | .vscl .. => vscl _ _ _ _ _ _ _ _ _ _
  | .vrsum .. => vrsum _ _ _ _ _ _ _ _ _
  | .vrmax .. => vrmax _ _ _ _ _ _ _ _ _
  | .vrmin .. => vrmin _ _ _ _ _ _ _ _ _
  | .vdot .. => vdot _ _ _ _ _ _ _ _ _ _ _
  | .vcmp .. => vcmp _ _ _ _ _ _ _ _ _ _ _
  | .vselm .. => vselm _ _ _ _ _ _ _ _ _ _
  | .viadd .. => viadd _ _ _ _ _ _ _ _ _ _ _
  | .visub .. => visub _ _ _ _ _ _ _ _ _ _ _
  | .vimul .. => vimul _ _ _ _ _ _ _ _ _ _ _
  | .vimin .. => vimin _ _ _ _ _ _ _ _ _ _ _
  | .vimax .. => vimax _ _ _ _ _ _ _ _ _ _ _
  | .vand .. => vand _ _ _ _ _ _ _ _ _ _ _
  | .vor .. => vor _ _ _ _ _ _ _ _ _ _ _
  | .vxor .. => vxor _ _ _ _ _ _ _ _ _ _ _
  | .vshl .. => vshl _ _ _ _ _ _ _ _ _ _ _
  | .vshr .. => vshr _ _ _ _ _ _ _ _ _ _ _
  | .vsar .. => vsar _ _ _ _ _ _ _ _ _ _ _
  | .vcvt .. => vcvt _ _ _ _ _ _ _ _ _ _
  | .vqnt .. => vqnt _ _ _ _ _ _ _ _ _ _
  | .vdqnt .. => vdqnt _ _ _ _ _ _ _ _ _ _
  | .vcopy .. => vcopy _ _ _ _ _ _ _ _ _
  | .vbcast .. => vbcast _ _ _ _ _ _ _ _
  | .vtrn .. => vtrn _ _ _ _ _ _ _ _ _ _
  | .vgath .. => vgath _ _ _ _ _ _ _ _ _ _
  | .vscat .. => vscat _ _ _ _ _ _ _ _ _ _ _
  | .vrand .. => vrand _ _ _ _ _ _ _ _
  | .vdrop .. => vdrop _ _ _ _ _ _ _ _ _ _
  | .aset .. => aset _ _ _ _ _ _
  | .amod .. => amod _ _ _ _ _
  | .astep .. => astep _ _ _ _ _ _
  | .amov .. => amov _ _ _ _ _ _
  | .vmovs .. => vmovs _ _ _ _ _ _ _ _
  | .vloop .. => vloop _ _ _
  | .vnop .. => vnop _ _
  | .sexp2 .. => sexp2 _ _ _ _ _ _ _ _
  | .slog2 .. => slog2 _ _ _ _ _ _ _ _
  | .sexp .. => sexp _ _ _ _ _ _ _ _
  | .sln .. => sln _ _ _ _ _ _ _ _
  | .srcp .. => srcp _ _ _ _ _ _ _ _
  | .sdiv .. => sdiv _ _ _ _ _ _ _ _ _ _
  | .ssqrt .. => ssqrt _ _ _ _ _ _ _ _
  | .srsq .. => srsq _ _ _ _ _ _ _ _
  | .stanh .. => stanh _ _ _ _ _ _ _ _
  | .ssigm .. => ssigm _ _ _ _ _ _ _ _
  | .ssin .. => ssin _ _ _ _ _ _ _ _
  | .scos .. => scos _ _ _ _ _ _ _ _
  | .serf .. => serf _ _ _ _ _ _ _ _
  | .sfnop .. => sfnop _ _
  | .qpopRead .. => qpopRead _ _
  | .xlateSettle .. => xlateSettle _ _
  | .walkComplete .. => walkComplete _ _
  | .monitorRequeueTimeout .. => monitorRequeueTimeout _
  | .shootdown => shootdown
  | .shootdownCompletion => shootdownCompletion
  | .engineWordFinish .. => engineWordFinish _ _
  | .pendingPersistPoint .. => pendingPersistPoint _
  | .imageComplete .. => imageComplete _ _
  | .commitImageCopyDone .. => commitImageCopyDone _ _
  | .writeThroughArrival .. => writeThroughArrival _ _
  | .flushMarkerAck .. => flushMarkerAck _ _
  | .barrierAddition .. => barrierAddition _
  | .queueElementArrival .. => queueElementArrival _ _
  | .loaderSlotDelivery .. => loaderSlotDelivery _ _
  | .storerSlotWrite .. => storerSlotWrite _
  | .lapBoundary => lapBoundary
  | .frameHeaderArrival .. => frameHeaderArrival _
  | .frameLastFlitArrival .. => frameLastFlitArrival _ _ _
  | .leaseTimeout .. => leaseTimeout _
  | .taskPlacement .. => taskPlacement _
  | .shadowFillDone .. => shadowFillDone _
  | .effectiveClassAging .. => effectiveClassAging _
  | .deadlinePreemption .. => deadlinePreemption _
  | .preemptForcedSave .. => preemptForcedSave _
  | .graphReplayStart .. => graphReplayStart _
  | .launchDoorbell .. => launchDoorbell _ _ _
  | .launchRecord .. => launchRecord _
  | .checkerMismatch .. => checkerMismatch _
  | .fetchFault .. => fetchFault _
  | .watchdog .. => watchdog _
  | .idleTimeout .. => idleTimeout _
  | .secdedFreezeEnd .. => secdedFreezeEnd _
  | .bankRebuildEnd .. => bankRebuildEnd _ _
  | .hbmParityReread .. => hbmParityReread _ _
  | .hbmLaneSwapResume .. => hbmLaneSwapResume _ _
  | .eventQueueHeadWrite .. => eventQueueHeadWrite _
  | .copyChunkDone .. => copyChunkDone _
  | .curveDoorbell .. => curveDoorbell _
  | .curveEntry => curveEntry
  | .gradeEvent => gradeEvent
  | .pendAnnounce => pendAnnounce
  | .parkStopTimeout .. => parkStopTimeout _
  | .parkCopyDone .. => parkCopyDone _
  | .suspendEvent => suspendEvent
  | .resumeEvent => resumeEvent
  | .fastLoop => fastLoop
  | .slowLoop => slowLoop
  | .exemptExpiry => exemptExpiry
  | .vcodeStepEnd .. => vcodeStepEnd _
  | .fcodeHopEnd .. => fcodeHopEnd _
  | .biasSettle .. => biasSettle _
  | .permitRefill .. => permitRefill _ _
  | .dieGate .. => dieGate _
  | .dieSwitchOn .. => dieSwitchOn _
  | .clusterSwitchOnRound .. => clusterSwitchOnRound _
  | .parkListCopyDone .. => parkListCopyDone _
  | .hbmRetentionEntry .. => hbmRetentionEntry _
  | .energySample .. => energySample _
  | .energyLowHalfRead .. => energyLowHalfRead _ _
  | .energyHighHalfRead .. => energyHighHalfRead _ _
  | .voltageSample .. => voltageSample _ _
  | .vminRearm .. => vminRearm _
  | .errorCounterClear .. => errorCounterClear _ _
  | .onyxBlockMove .. => onyxBlockMove _ _
  | .droopTrip .. => droopTrip _
  | .droopRecovery .. => droopRecovery _
  | .hopRetry .. => hopRetry _
  | .vcoreFault .. => vcoreFault _
  | .clusterPowerLoss .. => clusterPowerLoss _
  | .modulePowerLoss => modulePowerLoss
  | .vauxPowerGood => vauxPowerGood
  | .bootTimeout => bootTimeout
  | .railPowerGoodTimeout .. => railPowerGoodTimeout _
  | .recoveryDoorbell .. => recoveryDoorbell _
  | .hostWrite .. => hostWrite _ _ _
  | .hostRead .. => hostRead _ _ _
  | .flr .. => flr _
  | .registerWrite .. => registerWrite _ _ _
  | .createContext => createContext
  | .destroyContext => destroyContext
  | .installLapTable => installLapTable
  | .parkList => parkList
  | .telemetryBuffer => telemetryBuffer
  | .writeSlotTable => writeSlotTable
  | .savePool => savePool
  | .preEmptTask => preEmptTask
  | .clearDegradedCore => clearDegradedCore
  | .restoreSnapshotDomain => restoreSnapshotDomain
  | .setUpCommunicator => setUpCommunicator
  | .cancelCollective => cancelCollective
  | .suspendRequest => suspendRequest
  | .resumeRequest => resumeRequest
  | .writeCoreOwnership => writeCoreOwnership
  | .registerParkArea => registerParkArea
  | .peerAccessArrival .. => peerAccessArrival _ _ _ _ _
  | .peerResponse .. => peerResponse _ _
  | .peerTimeout .. => peerTimeout _
  | .peerRefusal .. => peerRefusal _
  | .ethPacketArrival .. => ethPacketArrival _ _ _ _ _
  | .ethAckArrival .. => ethAckArrival _ _
  | .ethRetransmitTimeout .. => ethRetransmitTimeout _ _
  | .collectiveChunkDone .. => collectiveChunkDone _
  | .collectiveStall .. => collectiveStall _ _
  | .getVersion .. => getVersion _ _
  | .getCapabilities .. => getCapabilities _ _
  | .negotiateAlgorithms .. => negotiateAlgorithms _ _
  | .getDigests .. => getDigests _ _
  | .getCertificate .. => getCertificate _ _
  | .challenge .. => challenge _ _
  | .getMeasurements .. => getMeasurements _ _
  | .spdmUnsupportedRequest .. => spdmUnsupportedRequest _ _
  | .mboxSend .. => mboxSend _
  | .engInit .. => engInit _
  | .engAbsorb .. => engAbsorb _ _
  | .engDigest .. => engDigest _
  | .engClone .. => engClone _ _
  | .engExtend .. => engExtend _
  | .engSign .. => engSign _
  | .engRand .. => engRand _
  | .engMblock .. => engMblock _
  | .engMove .. => engMove _
  | .controlPathAccessPerforms .. => controlPathAccessPerforms _ _
  | .hostCompletion .. => hostCompletion _
  | .birspArrival .. => birspArrival _ _
  | .hbmScrub .. => hbmScrub _ _ _ _ _
  | .versionOverflowRequeue .. => versionOverflowRequeue _
  | .moduleReset => moduleReset
  | .railPowerGood .. => railPowerGood _

end Sys2Proof.Laws.Enc

namespace Sys2Proof

/-- The decoder gives a well-formed instruction back from its word. -/
theorem decode_encode {i : Instr} {w : W32} (hi : i.wf = true) (hw : encode i = some w) : decode w = .ok i := by
  simp only [decode, Laws.Enc.statement i w hw, hi, if_true]

/-- Settles O3: every word decodes to the instruction that it encodes, so two instructions of one word are the same. -/
theorem encodedWordsDecodeBack : Obligations.EncodedWordsDecodeBack := by
  refine ⟨fun i w hi hw => decode_encode hi hw, fun i j w hi hj hwi hwj => ?_⟩
  have h : Except.ok i = .ok j := (decode_encode hi hwi).symm.trans (decode_encode hj hwj)
  exact Except.ok.inj h

end Sys2Proof
end

section
/-! Every instruction and every step goes on, but for a host access of an unbacked address. -/

namespace Sys2Proof.Machine

open Sys2Proof

/-- What a row of the decoder answers has a word: it is no event. -/
def AnswersWord (r : Except DecodeError Instr) : Prop := ∀ i, r = .ok i → (encode i).isSome = true

theorem answersWord_error (e : DecodeError) : AnswersWord (.error e) := fun _ h => nomatch h

theorem answersWord_fixed {w : W32} {a b : Nat} {i : Instr} (h : (encode i).isSome = true) : AnswersWord (fixed w a b i) := by
  intro j hj
  unfold fixed at hj
  split at hj
  · exact Except.ok.inj hj ▸ h
  · cases hj

theorem answersWord_decodeControl (w : W32) (op : Nat) : AnswersWord (decodeControl w op) := by
  unfold decodeControl
  repeat' split
  all_goals first | exact answersWord_fixed rfl | exact answersWord_error _

theorem answersWord_decodeLoad (w : W32) (op : Nat) : AnswersWord (decodeLoad w op) := by
  unfold decodeLoad
  repeat' split
  all_goals first | exact answersWord_fixed rfl | exact answersWord_error _

theorem answersWord_decodeStore (w : W32) (op : Nat) : AnswersWord (decodeStore w op) := by
  unfold decodeStore
  repeat' split
  all_goals first | exact answersWord_fixed rfl | exact answersWord_error _

theorem answersWord_decodeMatrix (w : W32) (op : Nat) : AnswersWord (decodeMatrix w op) := by
  unfold decodeMatrix
  repeat' split
  all_goals first | exact answersWord_fixed rfl | exact answersWord_error _

theorem answersWord_decodeVector (w : W32) (op : Nat) : AnswersWord (decodeVector w op) := by
  unfold decodeVector
  repeat' split
  all_goals first | exact answersWord_fixed rfl | exact answersWord_error _

theorem answersWord_decodeSpecial (w : W32) (op : Nat) : AnswersWord (decodeSpecial w op) := by
  unfold decodeSpecial
  repeat' split
  all_goals first | exact answersWord_fixed rfl | exact answersWord_error _

theorem answersWord_decodeSystem (w : W32) (op : Nat) : AnswersWord (decodeSystem w op) := by
  unfold decodeSystem
  repeat' split
  all_goals first | exact answersWord_fixed rfl | exact answersWord_error _

theorem answersWord_decodePrefixWord (w : W32) (op : Nat) : AnswersWord (decodePrefixWord w op) := by
  unfold decodePrefixWord
  repeat' split
  all_goals first | exact answersWord_fixed rfl | exact answersWord_error _

/-- What the decoder answers has a word. -/
theorem answersWord_decodeRow (w : W32) : AnswersWord (decodeRow w) := by
  unfold decodeRow
  dsimp only
  split
  · exact answersWord_decodeControl w _
  · exact answersWord_decodeLoad w _
  · exact answersWord_decodeStore w _
  · exact answersWord_decodeMatrix w _
  · exact answersWord_decodeVector w _
  · exact answersWord_decodeSpecial w _
  · exact answersWord_decodeSystem w _
  · split
    · exact answersWord_fixed rfl
    · exact answersWord_decodePrefixWord w _

theorem isSome_encode_of_decode {w : W32} {i : Instr} (h : decode w = .ok i) : (encode i).isSome = true := by
  unfold decode at h
  split at h
  · cases h
  next j hj =>
    split at h
    · exact Except.ok.inj h ▸ answersWord_decodeRow w j hj
    · cases h

/-- A check that passes goes on. -/
theorem ok_of_ite_error {ε α : Type} {c : Prop} [Decidable c] {x : Except ε α} {e : ε} {r : α}
    (h : (if c then .error e else x) = .ok r) : x = .ok r := by
  split at h
  · cases h
  · exact h

theorem isSome_encode_of_checkUnit {p : List W32} {w : W32} {r : Instr × Pfx} (h : checkUnit p w = .ok r) :
    (encode r.1).isSome = true := by
  unfold checkUnit at h
  split at h
  · cases h
  · split at h
    · cases h
    next i hi =>
      have hr : .ok (i, _) = Except.ok r := ok_of_ite_error (ok_of_ite_error (ok_of_ite_error (ok_of_ite_error h)))
      exact Except.ok.inj hr ▸ isSome_encode_of_decode hi

theorem isSome_encode_of_unitOf {k : Nat} {p : List W32} {w : W32} {r : Instr × Pfx} (h : unitOf k p w = .ok r) :
    (encode r.1).isSome = true := by
  unfold unitOf at h
  split at h
  · cases h
  next hr =>
    split at h
    · cases h
    · exact Except.ok.inj h ▸ isSome_encode_of_checkUnit hr

/-- An instruction that a turn of a thread runs has a word. -/
def RunsWord (p : Prep) : Prop := ∀ i t, p = .run i t → (encode i).isSome = true

theorem runsWord_move (s : State) : RunsWord (.move s) := fun _ _ h => nomatch h

theorem runsWord_run {i : Instr} {s : State} (h : (encode i).isSome = true) : RunsWord (.run i s) := by
  rintro j t ⟨⟩
  exact h

theorem runsWord_prepFetch (k : Nat) (s : State) : RunsWord (prepFetch k s) := by
  unfold prepFetch
  dsimp only
  iterate 4
    split
    · exact runsWord_move _
  split
  · exact runsWord_move _
  split
  · exact runsWord_move _
  · exact runsWord_move _
  · exact runsWord_move _
  split
  · split
    next i hi => exact runsWord_run (isSome_encode_of_decode hi)
    · exact runsWord_move _
  · split
    · exact runsWord_move _
    next i p hi =>
      have hw : (encode i).isSome = true := isSome_encode_of_unitOf hi
      split
      · exact runsWord_move _
      split
      · split
        next j hj => exact runsWord_run (isSome_encode_of_decode hj)
        · exact runsWord_move _
      · split
        next j hj => exact runsWord_run (isSome_encode_of_decode hj)
        · exact runsWord_move _
      · exact runsWord_run hw

theorem runsWord_prepSeq (k : Nat) (q : Sq) (s : State) : RunsWord (prepSeq k q s) := by
  unfold prepSeq
  dsimp only
  split
  · exact runsWord_move _
  split
  · exact runsWord_move _
  split
  · split
    · split
      next i hi => exact runsWord_run (isSome_encode_of_decode hi)
      · exact runsWord_move _
    · exact runsWord_move _
  · split
    · split <;> exact runsWord_move _
    · exact runsWord_move _

theorem runsWord_prepDefault (s : State) : RunsWord (prepDefault s) := by
  unfold prepDefault
  dsimp only
  split
  · exact runsWord_move _
  split
  · exact runsWord_move _
  split
  · exact runsWord_prepSeq _ _ _
  split
  · exact runsWord_move _
  split
  · exact runsWord_prepSeq _ _ _
  · exact runsWord_prepFetch _ _

/-- A host access. -/
def IsHostAccess (i : Instr) : Prop := (∃ p a d, i = .hostWrite p a d) ∨ ∃ p a n, i = .hostRead p a n

theorem collectPrefix_total (w : W32) (s : State) : ∃ t, collectPrefix w s = .next t := by
  unfold collectPrefix
  dsimp only
  split <;> exact ⟨_, rfl⟩

theorem spdm_total (s : State) (path : Nat) (req : List Byte) (own : Bool) : ∃ t, s.spdm path req own = .next t := by
  unfold State.spdm
  split <;> exact ⟨_, rfl⟩

/-- An instruction that is no host access answers a next state. -/
theorem exec_total (i : Instr) (s : State) (h : ¬ IsHostAccess i) : ∃ t, exec i s = .next t := by
  cases i with
  | add | addi | sub | mul | mulhs | mulhu | divs | divu | rems | remu | and | andi | or | ori | xor | xori | shl | shli | shr | shri
    | sar | sari | min | max | minu | maxu | clz | ctz | popc | ldi | ldhi | sel | cmp | cmpi | pset | br | jmp | call | ret | dbnz
    | lds | sts | xlate | hwait | hrel | emit | emitWithPrefix | waitt | sigt | tkcnt | join | leave | gbar | ginfo | rdcsr | wrcsr
    | csrs | csrc | trap | trapret | install | phint | pfence | fence | qsync | tcommit | tend | tabort | pswap | kick | kickR | nwait
    | barinit | barexp | barwait | snapc | opreq | curtq | rdtime | rdengy | dhops | vdmap | coll | idle | ecall | qpopRead =>
    exact ctl_total ..
  | ld | ldx | ldsc | ldbd | lsub | lunsub | qbind | qfree | splk | pfetch | xlatl | lmark | lloop | xmov | xadd | xaddi | xshl | lnop
    | st | stx | stbd | sunlk | spull | cwbr | cinvr | xcopy | baradd | smark | sloop | xmovSt | xaddSt | xaddiSt | xshlSt | snop | acas
    | amoAdd | amoFadd | amoMin | amoMax | amoAnd | amoOr | amoXor | amoSwap | lease | unlease | mtstart | mma | mzero | mdrain | mrdb
    | msett | mfte | mftb | board | bwait | bdrop | bquery | mloop | mnop | mxmode | vsetc | vadd | vsub | vmul | vfma | vmin | vmax
    | vabs | vneg | vscl | vrsum | vrmax | vrmin | vdot | vcmp | vselm | viadd | visub | vimul | vimin | vimax | vand | vor | vxor
    | vshl | vshr | vsar | vcvt | vqnt | vdqnt | vcopy | vbcast | vtrn | vgath | vscat | vrand | vdrop | aset | amod | astep | amov
    | vmovs | vloop | vnop | sexp2 | slog2 | sexp | sln | srcp | sdiv | ssqrt | srsq | stanh | ssigm | ssin | scos | serf | sfnop =>
    exact engWord_total ..
  | xlateSettle | walkComplete | monitorRequeueTimeout | shootdown | shootdownCompletion | engineWordFinish | pendingPersistPoint
    | commitImageCopyDone | writeThroughArrival | flushMarkerAck | barrierAddition | queueElementArrival | loaderSlotDelivery
    | storerSlotWrite | lapBoundary | frameHeaderArrival | frameLastFlitArrival | leaseTimeout | taskPlacement | shadowFillDone
    | effectiveClassAging | deadlinePreemption | preemptForcedSave | graphReplayStart | launchDoorbell | launchRecord | checkerMismatch
    | watchdog | secdedFreezeEnd | bankRebuildEnd | hbmParityReread | hbmLaneSwapResume | eventQueueHeadWrite | copyChunkDone
    | curveDoorbell | curveEntry | gradeEvent | pendAnnounce | parkStopTimeout | parkCopyDone | suspendEvent | resumeEvent | fastLoop
    | slowLoop | exemptExpiry | vcodeStepEnd | permitRefill | dieGate | dieSwitchOn | clusterSwitchOnRound | parkListCopyDone
    | hbmRetentionEntry | energySample | energyLowHalfRead | energyHighHalfRead | voltageSample | vminRearm | errorCounterClear
    | onyxBlockMove | droopTrip | droopRecovery | hopRetry | vcoreFault | clusterPowerLoss | modulePowerLoss | vauxPowerGood
    | bootTimeout | railPowerGoodTimeout | recoveryDoorbell | flr | registerWrite | createContext | destroyContext | installLapTable
    | parkList | telemetryBuffer | writeSlotTable | savePool | preEmptTask | clearDegradedCore | restoreSnapshotDomain
    | setUpCommunicator | cancelCollective | suspendRequest | resumeRequest | writeCoreOwnership | registerParkArea | peerAccessArrival
    | peerResponse | peerTimeout | peerRefusal | ethPacketArrival | ethRetransmitTimeout | collectiveChunkDone | collectiveStall
    | mboxSend | engInit | engAbsorb | engDigest | engClone | engExtend | engSign | engRand | engMblock | engMove
    | controlPathAccessPerforms | hostCompletion | hbmScrub | versionOverflowRequeue | moduleReset | railPowerGood =>
    exact ⟨_, rfl⟩
  | rep | pred | exti =>
    exact collectPrefix_total ..
  | getVersion | getCapabilities | negotiateAlgorithms | getDigests | getCertificate | challenge | getMeasurements
    | spdmUnsupportedRequest =>
    exact spdm_total ..
  | fcodeHopEnd | biasSettle | birspArrival | ethAckArrival => exact ⟨_, rfl⟩
  | imageComplete die k =>
    show ∃ t, execImageComplete die k s = .next t
    unfold execImageComplete
    split <;> exact ⟨_, rfl⟩
  | fetchFault thr =>
    show ∃ t, execFetchFault thr s = .next t
    unfold execFetchFault
    dsimp only
    repeat' split
    all_goals exact ⟨_, rfl⟩
  | idleTimeout thr =>
    show ∃ t, execIdleTimeout thr s = .next t
    unfold execIdleTimeout
    dsimp only
    split <;> exact ⟨_, rfl⟩
  | hostWrite => exact absurd (.inl ⟨_, _, _, rfl⟩) h
  | hostRead => exact absurd (.inr ⟨_, _, _, rfl⟩) h

/-- An instruction that has a word is no host access. -/
theorem not_isHostAccess {i : Instr} (h : (encode i).isSome = true) : ¬ IsHostAccess i := by
  rintro (⟨p, a, d, rfl⟩ | ⟨p, a, n, rfl⟩) <;> cases h

/-- A step whose turn runs no event goes on. -/
theorem step_total_of_runsWord {s : State} (h : RunsWord (prepare s).1) : ∃ t, step s = .next t := by
  unfold step
  split
  · exact ⟨_, rfl⟩
  next i t dt hp =>
    obtain ⟨u, hu⟩ := exec_total i t (not_isHostAccess (h i t (by rw [hp])))
    rw [hu]
    exact ⟨_, rfl⟩

/-- A write of the host stops only at an unbacked address, and at a port that is up. -/
theorem execHostWrite_cases (port pa : Nat) (d : List Byte) (s : State) :
    (∃ t, execHostWrite port pa d s = .next t) ∨ (execHostWrite port pa d s = .fault .unbackedAddress ∧
      ∃ a, (s.port port).up = true ∧ s.hostPa port pa = some a ∧ s.touchesUnbacked a d.length = true) := by
  unfold execHostWrite
  split
  · exact .inl ⟨_, rfl⟩
  next a ha =>
    split
    · exact .inl ⟨_, rfl⟩
    next hup =>
      split
      · exact .inl ⟨_, rfl⟩
      split
      · exact .inl ⟨_, rfl⟩
      split
      next hb =>
        have hup' : (s.port port).up = true := by simp only [Bool.or_eq_true, not_or, Bool.not_eq_true, Bool.not_eq_false'] at hup; exact hup.1.1
        exact .inr ⟨rfl, a, hup', ha, hb⟩
      · exact .inl ⟨_, rfl⟩

/-- So does a read. -/
theorem execHostRead_cases (port pa n : Nat) (s : State) :
    (∃ t, execHostRead port pa n s = .next t) ∨ (execHostRead port pa n s = .fault .unbackedAddress ∧
      ∃ a, (s.port port).up = true ∧ s.hostPa port pa = some a ∧ s.touchesUnbacked a n = true) := by
  unfold execHostRead
  split
  · split
    · split
      exact .inl ⟨_, rfl⟩
    · exact .inl ⟨_, rfl⟩
  split
  · exact .inl ⟨_, rfl⟩
  next a ha =>
    split
    · exact .inl ⟨_, rfl⟩
    next hup =>
      split
      · split
        exact .inl ⟨_, rfl⟩
      split
      · exact .inl ⟨_, rfl⟩
      split
      next hb =>
        have hup' : (s.port port).up = true := by simp only [Bool.or_eq_true, not_or, Bool.not_eq_true, Bool.not_eq_false'] at hup; exact hup.1.1
        exact .inr ⟨rfl, a, hup', ha, hb⟩
      · exact .inl ⟨_, rfl⟩

/-- The one instruction that stops is a host access. -/
theorem exec_cases (i : Instr) (s : State) : (∃ t, exec i s = .next t) ∨ (exec i s = .fault .unbackedAddress ∧ IsHostAccess i) := by
  by_cases h : IsHostAccess i
  · obtain ⟨p, a, d, rfl⟩ | ⟨p, a, n, rfl⟩ := id h
    · exact (execHostWrite_cases p a d s).imp_right fun e => ⟨e.1, h⟩
    · exact (execHostRead_cases p a n s).imp_right fun e => ⟨e.1, h⟩
  · exact .inl (exec_total i s h)

/-- Settles O2: a turn of a thread runs a word, and the one event that stops is a host access. -/
theorem onlyUnbackedHostAccessesStop : Obligations.OnlyUnbackedHostAccessesStop := by
  refine ⟨fun i s => ?_, fun s => ?_, fun s hs => ?_⟩
  · by_cases h : IsHostAccess i
    · obtain ⟨p, a, d, rfl⟩ | ⟨p, a, n, rfl⟩ := h
      · exact (execHostWrite_cases p a d s).imp_right fun ⟨e, b, hup, hb, hu⟩ => ⟨e, p, a, b, _, hup, hb, hu, .inl ⟨d, rfl, rfl⟩⟩
      · exact (execHostRead_cases p a n s).imp_right fun ⟨e, b, hup, hb, hu⟩ => ⟨e, p, a, b, n, hup, hb, hu, .inr rfl⟩
    · exact .inl (exec_total i s h)
  · cases hs : s.turns with
    | nil => exact .inl (step_total_of_runsWord (by simpa only [prepare, hs] using runsWord_prepDefault s))
    | cons x r =>
      cases x with
      | fetch k dt => exact .inl (step_total_of_runsWord (by simpa only [prepare, hs] using runsWord_prepFetch k _))
      | seq k q dt => exact .inl (step_total_of_runsWord (by simpa only [prepare, hs] using runsWord_prepSeq k q _))
      | event i dt =>
        have hp : prepare s = (.run i { s with turns := r, cur := none }, dt) := by simp only [prepare, hs]
        unfold step
        rw [hp]
        obtain ⟨t, ht⟩ | ⟨hf, hi⟩ := exec_cases i { s with turns := r, cur := none }
        · exact .inl (by simp only [ht]; exact ⟨_, rfl⟩)
        · refine .inr ⟨by simp only [hf], ?_⟩
          obtain ⟨p, a, d, rfl⟩ | ⟨p, a, n, rfl⟩ := hi
          · exact ⟨p, a, .inl ⟨d, dt, r, rfl⟩⟩
          · exact ⟨p, a, .inr ⟨n, dt, r, rfl⟩⟩
  · exact step_total_of_runsWord (by simpa only [prepare, hs] using runsWord_prepDefault s)

end Sys2Proof.Machine
end

section
/-! Words of the spec, and the state after reset. -/

namespace Sys2Proof.Machine

open Sys2Proof

/-- Settles O4: the decoder computes on each word. -/
theorem wordsOfTheSpecDecode : Obligations.WordsOfTheSpecDecode :=
  ⟨rfl, rfl, rfl, rfl, rfl, rfl, rfl, rfl, rfl, rfl, rfl, rfl, rfl, rfl⟩

/-- Every element of a vector of equal elements is that element, and so is what lies past its end. -/
@[simp] theorem vget_replicate {α : Type} (n i : Nat) (x : α) : vget (Vector.replicate n x) i x = x := by
  unfold vget
  by_cases h : i < n
  · simp [h]
  · simp [h]

/-- A plane on which no thread has been launched. -/
theorem thread_reset (k : Nat) : State.reset.thread k = Thread.blank := rfl

theorem die_reset (d : Nat) : State.reset.die d = Die.blank := vget_replicate 8 d Die.blank

theorem port_reset (p : Nat) : State.reset.port p = Port.blank := vget_replicate 2 p Port.blank

/-- Settles O6: the fields of `State.reset`, and of the blank plane, die and port that its tables hold. -/
theorem resetState : Obligations.ResetState := by
  refine ⟨rfl, rfl, rfl, rfl, rfl, rfl, rfl, rfl, rfl, rfl, rfl, rfl, rfl, fun i => vget_replicate _ i 0#64, fun d => ?_, fun p => ?_,
    fun k r => ?_, rfl, fun a => rfl⟩
  · rw [die_reset]
    rfl
  · rw [port_reset]
    rfl
  · have hp (h : 0 < r) : rdP Thread.blank r = false := by
      have h1 : (1#8).getLsbD r = false := by simp; omega
      simp [rdP, Thread.blank, h1]
      omega
    rw [thread_reset]
    exact ⟨rfl, vget_replicate 32 r _, rfl, hp, vget_replicate 16 r _, vget_replicate 16 r _, rfl,
      congrArg QHead.kind (vget_replicate 16 r QHead.unbound), rfl⟩

end Sys2Proof.Machine
end

section
/-! The integer words, the constants, the compares and the control transfers. -/

namespace Sys2Proof.Machine

open Sys2Proof

/-- A control or system word whose body succeeds, without a late cause and in its own plane, completes with the state and the target of its
body. -/
theorem does_of_body {i : Instr} {eng : Eng} {hz : Bool} {w : W32} {body : State → M CtlRes} {s t : State} {pc : Option Nat}
    (hgo : CtlGo s hz) (hi : exec i s = ctl eng hz w body s) (hb : body s = .ok { s := t, pc := pc }) : Does i s t pc :=
  hi.trans (ctl_ok hgo hb rfl rfl)

/-- A control or system word whose body raises a cause raises it at its own unit. -/
theorem leaves_of_cause {i : Instr} {eng : Eng} {hz : Bool} {w : W32} {body : State → M CtlRes} {s : State} {c : Cause}
    (hgo : CtlGo s hz) (hi : exec i s = ctl eng hz w body s) (hb : body s = .error (.cause c)) :
    Leaves i s (s.raiseAt s.me (s.th.ctlFault eng c)) :=
  hi.trans (ctl_err hgo hb)

/-- One whose body finds it illegal raises ILLEGAL_OP with its word. -/
theorem leaves_of_illegal {i : Instr} {eng : Eng} {hz : Bool} {body : State → M CtlRes} {s : State}
    (hgo : CtlGo s hz) (hi : exec i s = ctl eng hz (wordOf i) body s) (hb : body s = .error .illegal) :
    Leaves i s (s.raiseAt s.me (s.th.ctlFault eng ⟨cIllegalOp, 0, s.th.pfx.length * 2 ^ 32 + (wordOf i).toNat⟩)) :=
  hi.trans (ctl_illegal hgo hb)

/-! ## The steps of a body -/

/-- A step of a body that answers goes on with its answer. -/
@[simp] theorem ok_bind {ε α β : Type} (x : α) (f : α → Except ε β) : (Except.ok x >>= f) = f x := rfl

/-- A step that raises ends the body. -/
@[simp] theorem error_bind {ε α β : Type} (e : ε) (f : α → Except ε β) : ((Except.error e : Except ε α) >>= f) = .error e := rfl

/-- A check that holds passes. -/
theorem requireLegal_of {c : Bool} (h : c = true) : requireLegal c = .ok ⟨⟩ := by simp only [requireLegal, h, if_true]

theorem requireLegal_fails {c : Bool} (h : c = false) : requireLegal c = .error .illegal := by simp [requireLegal, h]

theorem require_of {c : Bool} {a b n : Nat} (h : c = true) : require c a b n = .ok ⟨⟩ := by simp only [require, h, if_true]

theorem require_fails {c : Bool} {a b n : Nat} (h : c = false) : require c a b n = .error (.cause ⟨a, b, n⟩) := by
  simp [require, h, raise]

/-! ## The counts of bits (R286) -/

theorem log2_toNat_lt {x : W} (h : x ≠ 0#64) : Nat.log2 x.toNat < 64 :=
  (Nat.log2_lt (by simpa [BitVec.toNat_eq] using h)).2 x.isLt

theorem toNat_clz64 {x : W} (h : x ≠ 0#64) : (clz64 x).toNat = 63 - Nat.log2 x.toNat := by
  simp only [clz64, h, if_false, BitVec.toNat_ofNat]
  omega

/-- The highest one bit stands at the place that CLZ names. -/
theorem clz64_spec {x : W} (h : x ≠ 0#64) :
    (clz64 x).toNat < 64 ∧ x.getLsbD (63 - (clz64 x).toNat) = true ∧ ∀ i, 63 - (clz64 x).toNat < i → x.getLsbD i = false := by
  have h0 : x.toNat ≠ 0 := by simpa [BitVec.toNat_eq] using h
  have hl : Nat.log2 x.toNat < 64 := log2_toNat_lt h
  have hp : 63 - (clz64 x).toNat = Nat.log2 x.toNat := by rw [toNat_clz64 h]; omega
  refine ⟨by rw [toNat_clz64 h]; omega, ?_, fun i hi => ?_⟩
  · rw [hp]
    exact Nat.testBit_log2 h0
  · rw [hp] at hi
    exact Nat.testBit_lt_two_pow ((Nat.log2_lt h0).1 hi)

/-- The lowest one bit stands at the place that CTZ names. -/
theorem ctz64_spec {x : W} (h : x ≠ 0#64) :
    (ctz64 x).toNat < 64 ∧ x.getLsbD (ctz64 x).toNat = true ∧ ∀ i, i < (ctz64 x).toNat → x.getLsbD i = false := by
  obtain ⟨j, hj⟩ : ∃ j, (List.range 64).find? (fun i => x.getLsbD i) = some j := by
    rw [← Option.isSome_iff_exists, List.find?_isSome]
    obtain ⟨hlt, hone, -⟩ := clz64_spec h
    exact ⟨63 - (clz64 x).toNat, by simp; omega, hone⟩
  obtain ⟨hone, hlt, hzero⟩ := List.find?_range_eq_some.1 hj
  have hlt : j < 64 := by simpa using hlt
  have e : (ctz64 x).toNat = j := by
    simp only [ctz64, hj, Option.getD_some, BitVec.toNat_ofNat]
    omega
  rw [e]
  exact ⟨hlt, hone, fun i hi => by simpa using hzero i hi⟩

/-- POPC counts the places of the one bits. -/
theorem toNat_popc64 (x : W) : (popc64 x).toNat = ((List.range 64).filter fun i => x.getLsbD i).length := by
  have h : (List.range 64).countP (fun i => x.getLsbD i) ≤ 64 := by simpa using List.countP_le_length (l := List.range 64)
  rw [popc64, BitVec.toNat_ofNat, ← List.countP_eq_length_filter]
  omega

/-- Settles O7: each of these words is an `aluRR` word of the operation that its rule names. -/
theorem integerThreeRegisterWords : Obligations.IntegerThreeRegisterWords := by
  refine ⟨fun s d a l b m x y hgo hx hy => ?_, rfl, by decide, fun x hx => ⟨clz64_spec hx, ctz64_spec hx, toNat_popc64 x⟩⟩
  have word {i : Instr} (f : W → W → W) (hi : exec i s = ctl .control false (wordOf i) (aluRR f d a l b m) s) :
      Does i s (s.setTh (wrG (freeG (freeG s.th l a.toNat) m b.toNat) d.toNat (f x y))) none :=
    does_of_body hgo hi (aluRR_ok hx hy)
  exact ⟨word (· + ·) rfl, word (· - ·) rfl, word (· * ·) rfl, word mulHiS rfl, word mulHiU rfl, word divS rfl, word divU rfl, word remS rfl,
    word remU rfl, word (· &&& ·) rfl, word (· ||| ·) rfl, word (· ^^^ ·) rfl, word (shiftBy (· <<< ·)) rfl, word (shiftBy (· >>> ·)) rfl,
    word (shiftBy fun v n => v.sshiftRight n) rfl, word minS rfl, word maxS rfl, word minU rfl, word maxU rfl⟩

/-! ## The immediates (R270) -/

/-- The payload of a unit whose one word before it is an EXTI. -/
theorem extOf_exti (q : BitVec 24) : extOf [wordOf (.exti q)] = some q.toNat := by
  have h : decode (wordOf (.exti q)) = .ok (.exti q) := decode_encode rfl rfl
  simp [extOf, readPfx, h]

@[simp] theorem immU_nil (w n : Nat) : immU [] w n = n := rfl

theorem immU_exti {w : Nat} (q : BitVec 24) (j : BitVec w) : immU [wordOf (.exti q)] w j.toNat = (q ++ j).toNat := by
  simp only [immU, extOf_exti, BitVec.toNat_append]
  rw [Nat.shiftLeft_eq, ← Nat.mul_comm, ← Nat.two_pow_add_eq_or_of_lt j.isLt]

/-- The two's complement reading of the model is that of bit vectors. -/
theorem sext_toNat {w : Nat} (hw : 0 < w) (x : BitVec w) : sext w x.toNat = x.toInt := by
  have h : (2 : Nat) ^ w = 2 * 2 ^ (w - 1) := by rw [← Nat.pow_succ', Nat.succ_eq_add_one, Nat.sub_add_cancel hw]
  have hz : (x.toNat : Int) % 2 ^ w = x.toNat := by exact_mod_cast Nat.mod_eq_of_lt x.isLt
  rw [sext, hz, Nat.mod_eq_of_lt x.isLt, BitVec.toInt_eq_toNat_cond]
  have hc : x.toNat < 2 ^ (w - 1) ↔ 2 * x.toNat < 2 ^ w := by omega
  simp only [hc]
  norm_cast

theorem immW_nil {w : Nat} (hw : 0 < w) (j : BitVec w) : immW [] w j.toNat = j.signExtend 64 := by
  show BitVec.ofInt 64 (sext w j.toNat) = _
  rw [sext_toNat hw]
  rfl

theorem immW_exti {w : Nat} (q : BitVec 24) (j : BitVec w) : immW [wordOf (.exti q)] w j.toNat = (q ++ j).signExtend 64 := by
  have h : sext (24 + w) (q ++ j).toNat = (q ++ j).toInt := sext_toNat (by omega) _
  have e : q.toNat * 2 ^ w + j.toNat = (q ++ j).toNat := by
    rw [← immU_exti]
    simp only [immU, extOf_exti]
  simp only [immW, immS, extOf_exti]
  rw [Nat.add_comm w 24, e, h]
  rfl

/-- A number below 2^32 above the low half of a word. -/
theorem ofNat_high_low (n : Nat) (y : W) (h : n < 2 ^ 32) :
    BitVec.ofNat 64 (n <<< 32 ||| y.toNat % 2 ^ 32) = BitVec.ofNat 32 n ++ y.extractLsb' 0 32 := by
  have hlt : n <<< 32 ||| y.toNat % 2 ^ 32 < 2 ^ 64 :=
    Nat.or_lt_two_pow (by rw [Nat.shiftLeft_eq]; omega) (by omega)
  apply BitVec.eq_of_toNat_eq
  rw [BitVec.toNat_ofNat, Nat.mod_eq_of_lt hlt, BitVec.toNat_append, BitVec.toNat_ofNat, Nat.mod_eq_of_lt h, BitVec.extractLsb'_toNat,
    Nat.shiftRight_zero]

/-! ## The immediate words and the constants -/

/-- LDHI reads d, and sets its high half. -/
theorem ldhiBody_ok {d : BitVec 5} {j : BitVec 18} {s : State} {y : W} (hy : rdG s s.th d.toNat 0 = .ok y)
    (hn : immU s.th.pfx 18 j.toNat < 2 ^ 32) : ldhiBody d j s =
      .ok { s := s.setTh (wrG s.th d.toNat (BitVec.ofNat 64 (immU s.th.pfx 18 j.toNat <<< 32 ||| y.toNat % 2 ^ 32))) } := by
  simp only [ldhiBody, requireLegal_of (decide_eq_true hn), hy, ok_bind]

theorem ldhiBody_error {d : BitVec 5} {j : BitVec 18} {s : State} {e : Stop} (hy : rdG s s.th d.toNat 0 = .error e)
    (hn : immU s.th.pfx 18 j.toNat < 2 ^ 32) : ldhiBody d j s = .error e := by
  simp only [ldhiBody, requireLegal_of (decide_eq_true hn), hy, ok_bind, error_bind]

theorem ldhiBody_illegal {d : BitVec 5} {j : BitVec 18} {s : State} (hn : ¬ immU s.th.pfx 18 j.toNat < 2 ^ 32) :
    ldhiBody d j s = .error .illegal := by
  simp only [ldhiBody, requireLegal_fails (decide_eq_false hn), error_bind]

/-- What LDHI does with an immediate that is `n`. -/
theorem ldhi_cases {s : State} {d : BitVec 5} {j : BitVec 18} {y : W} {c : Cause} {n : Nat} (hgo : CtlGo s false)
    (hn : immU s.th.pfx 18 j.toNat = n) :
    (n ≤ 0xFFFFFFFF → rdG s s.th d.toNat 0 = .ok y →
      Does (.ldhi d j) s (s.setTh (wrG s.th d.toNat (BitVec.ofNat 32 n ++ y.extractLsb' 0 32))) none) ∧
    (n ≤ 0xFFFFFFFF → rdG s s.th d.toNat 0 = .error (.cause c) → Leaves (.ldhi d j) s (s.raiseAt s.me (s.th.ctlFault .control c))) ∧
    (0xFFFFFFFF < n → Leaves (.ldhi d j) s (s.raiseAt s.me (s.th.ctlFault .control
      ⟨cIllegalOp, 0, s.th.pfx.length * 2 ^ 32 + (wordOf (.ldhi d j)).toNat⟩))) := by
  subst hn
  refine ⟨fun h hy => ?_, fun h hy => ?_, fun h => ?_⟩
  · rw [← ofNat_high_low _ y (by omega)]
    exact does_of_body hgo rfl (ldhiBody_ok hy (by omega))
  · exact leaves_of_cause hgo rfl (ldhiBody_error hy (by omega))
  · exact leaves_of_illegal hgo rfl (ldhiBody_illegal (by omega))

/-- LDI sets its register to the immediate. -/
theorem ldi_does {s : State} {d : BitVec 5} {j : BitVec 18} (hgo : CtlGo s false) :
    Does (.ldi d j) s (s.setTh (wrG s.th d.toNat (immW s.th.pfx 18 j.toNat))) none := does_of_body hgo rfl rfl

/-- Settles O8: the immediate words are `aluR` words of the immediate that EXTI extends. -/
theorem integerImmediateWords : Obligations.IntegerImmediateWords := by
  refine ⟨fun s d a l b m i j p x y hgo => ⟨ldi_does hgo, fun hy hn => does_of_body hgo rfl (ldhiBody_ok hy hn), fun hx => ?_⟩,
    fun s d j q y c => ⟨rfl, rfl, fun hgo => ⟨fun hp => ?_, fun hp => ?_⟩⟩⟩
  · have word {e : Instr} (f : W → W) (he : exec e s = ctl .control false (wordOf e) (aluR f d a l) s) :
        Does e s (s.setTh (wrG (freeG s.th l a.toNat) d.toNat (f x))) none := does_of_body hgo he (aluR_ok hx)
    have wordI {e : Instr} (f : W → W → W) (he : exec e s = ctl .control false (wordOf e) (aluRI f d a l i) s) :
        Does e s (s.setTh (wrG (freeG s.th l a.toNat) d.toNat (f x (immW s.th.pfx 12 i.toNat)))) none := does_of_body hgo he (aluR_ok hx)
    have shift {e : Instr} (f : W → Nat → W) (hi : immU s.th.pfx 12 i.toNat ≤ 63)
        (he : exec e s = ctl .control false (wordOf e) (aluShiftI f d a l i) s) :
        Does e s (s.setTh (wrG (freeG s.th l a.toNat) d.toNat (f x (immU s.th.pfx 12 i.toNat)))) none :=
      does_of_body hgo he (aluShiftI_ok hx hi)
    exact ⟨wordI (· + ·) rfl, wordI (· &&& ·) rfl, wordI (· ||| ·) rfl, wordI (· ^^^ ·) rfl,
      fun hi => ⟨shift (· <<< ·) hi rfl, shift (· >>> ·) hi rfl, shift (fun v n => v.sshiftRight n) hi rfl⟩,
      word clz64 rfl, word ctz64 rfl, word popc64 rfl, fun hy => does_of_body hgo rfl (selBody_ok hx hy)⟩
  · have hi := ldi_does (d := d) (j := j) hgo
    rw [hp, immW_nil (by decide)] at hi
    exact ⟨hi, ldhi_cases hgo (by rw [hp]; rfl)⟩
  · have hi := ldi_does (d := d) (j := j) hgo
    rw [hp, immW_exti] at hi
    exact ⟨hi, ldhi_cases hgo (by rw [hp, immU_exti])⟩

/-! ## Compares, PSET and the control transfers -/

theorem cmpBody_ok {p : BitVec 3} {a b : BitVec 5} {l m : BitVec 1} {c : BitVec 4} {s : State} {x y : W} {v : Bool}
    (hx : rdG s s.th a.toNat 0 = .ok x) (hy : rdG s s.th b.toNat 1 = .ok y) (hv : condHolds c.toNat x y = some v) :
    cmpBody p a l b m c s = .ok { s := s.setTh (wrP (freeG (freeG s.th l a.toNat) m b.toNat) p.toNat v) } := by
  simp only [cmpBody, hx, hy, hv, ok_bind]

theorem cmpiBody_ok {p : BitVec 3} {a : BitVec 5} {l : BitVec 1} {c : BitVec 4} {i : BitVec 10} {s : State} {x : W} {v : Bool}
    (hx : rdG s s.th a.toNat 0 = .ok x) (hv : condHolds c.toNat x (immW s.th.pfx 10 i.toNat) = some v) :
    cmpiBody p c a l i s = .ok { s := s.setTh (wrP (freeG s.th l a.toNat) p.toNat v) } := by
  simp only [cmpiBody, hx, hv, ok_bind]

/-- The operation of PSET on two predicates. -/
def psetOp (o : Nat) (a b : Bool) : Bool :=
  match o with
  | 0 => a && b
  | 1 => a || b
  | 2 => a != b
  | _ => a && !b

theorem psetBody_ok {d e f o : BitVec 3} {s : State} (ho : o.toNat ≤ 3) :
    psetBody d e f o s = .ok { s := s.setTh (wrP s.th d.toNat (psetOp o.toNat (rdP s.th e.toNat) (rdP s.th f.toNat))) } := by
  simp only [psetBody, requireLegal_of (decide_eq_true ho), ok_bind]
  rfl

/-- A transfer to an aligned address. -/
theorem jumpReg_ok {a : BitVec 5} {l : BitVec 1} {s : State} {x : W} (hx : rdG s s.th a.toNat 0 = .ok x) (h4 : x.toNat % 4 = 0) :
    jumpReg a l s = .ok { s := s.setTh (freeG s.th l a.toNat), pc := some x.toNat } := by
  simp only [jumpReg, hx, ok_bind, require_of (beq_iff_eq.2 h4)]

theorem dbnzBody_ok {d : BitVec 5} {j : BitVec 18} {s : State} {x : W} (hd : d ≠ 0#5) (hx : rdG s s.th d.toNat 0 = .ok x) :
    dbnzBody d j s = .ok { s := s.setTh (wrG s.th d.toNat (x - 1#64))
                           pc := if x - 1#64 = 0#64 then none else some (branchTarget s.th.pc (immS s.th.pfx 18 j.toNat)) } := by
  simp only [dbnzBody, requireLegal_of (bne_iff_ne.2 hd), hx, ok_bind]

theorem dbnzBody_zero (j : BitVec 18) (s : State) : dbnzBody 0#5 j s = .error .illegal := rfl

/-- The count of DBNZ, and where it goes on. -/
theorem dbnz_does {d : BitVec 5} {j : BitVec 18} {s : State} {x : W} (hgo : CtlGo s false) (hd : d ≠ 0#5)
    (hx : rdG s s.th d.toNat 0 = .ok x) : Does (.dbnz d j) s (s.setTh (wrG s.th d.toNat (x - 1#64)))
      (if x - 1#64 = 0#64 then none else some (branchTarget s.th.pc (immS s.th.pfx 18 j.toNat))) :=
  does_of_body hgo rfl (dbnzBody_ok hd hx)

/-- Settles O9: the bodies of the compares and of the transfers, and what DBNZ leaves in its thread. -/
theorem predicateAndTransferWords : Obligations.PredicateAndTransferWords := by
  refine ⟨fun s d e f o a l b m c i x y hgo => ⟨fun hx hy v hv => ?_, fun hx v hv => ?_, fun ho => ?_⟩,
    fun s p n o a d l j x hgo => ⟨does_of_body hgo rfl rfl, fun hx h4 => ?_, does_of_body hgo rfl rfl, fun hd hx => ?_⟩,
    fun s d j x => ⟨rfl, fun hgo => ⟨fun hd hx hrep => ?_, fun hd => ?_⟩⟩⟩
  · exact does_of_body hgo rfl (cmpBody_ok hx hy hv)
  · exact does_of_body hgo rfl (cmpiBody_ok hx hv)
  · exact does_of_body hgo rfl (psetBody_ok ho)
  · exact ⟨does_of_body hgo rfl (jumpReg_ok hx h4), does_of_body hgo rfl (jumpReg_ok hx h4)⟩
  · have h := dbnz_does (j := j) hgo hd hx
    have e : x - 1#64 = 0#64 ↔ x = 1#64 := by bv_omega
    simpa only [e] using h
  · refine ⟨_, dbnz_does hgo hd hx, ?_⟩
    have hr : (wrG s.th d.toNat (x - 1#64)).repNow.2.1 ≤ 1 := by simp only [repNow_wrG, hrep, Nat.le_refl]
    have hpc := ctlDone_pc _ (if x - 1#64 = 0#64 then none else some (branchTarget s.th.pc (immS s.th.pfx 18 j.toNat))) hr
    refine ⟨?_, ?_⟩
    · simp [vget_wrG, hd]
    · simp only [thread_modThread_self, thread_setTh_self, hpc, wrG_pc]
      split <;> rfl
  · subst hd
    exact leaves_of_illegal hgo rfl (dbnzBody_zero j s)

end Sys2Proof.Machine
end

section
/-! Scalar accesses, handles, built engine words and tokens. -/

namespace Sys2Proof.Machine

open Sys2Proof

theorem ctlHandle_of {t : Thread} {h : Nat} (hb : t.handleBusy h = false) : ctlHandle t h = .ok t := by simp [ctlHandle, hb]

theorem ctlRoom_of {t : Thread} (h : t.ctlAcc.length < 8) : ctlRoom t = .ok ⟨⟩ := by simp [ctlRoom, h]

/-- Settles O10: the bodies of the words, once for Agate's thread and once for the others. -/
theorem memoryAndHandleWords : Obligations.MemoryAndHandleWords := by
  refine ⟨?_, fun s h a l t r x hgo => ⟨fun hr hx => ?_, fun hb hst => ?_, fun hb => ?_⟩⟩
  · intro s d h z x k o ofs pa t1 hh hofs acc
    refine ⟨fun hme => ⟨fun hgo hpa => ?_, fun hgo hpa v hv => ?_⟩, fun hme hroom hgo hpa => ?_, fun hme hroom hgo hpa hver v hv => ?_⟩
    · exact does_of_body hgo rfl (by simp only [ldsBody, hh, hofs, hpa, hme, ok_bind, if_true])
    · exact does_of_body hgo rfl (by simp only [stsBody, hh, hofs, hpa, hv, hme, ok_bind, if_true])
    · exact does_of_body hgo rfl (by simp only [ldsBody, hh, hofs, hpa, hme, ctlRoom_of hroom, ok_bind, if_false, acc])
    · exact does_of_body hgo rfl (by simp only [stsBody, hh, hofs, hpa, hv, hme, ctlRoom_of hroom, hver, ok_bind, if_false, acc])
  · exact does_of_body hgo rfl (by simp only [xlateBody, requireLegal_of (bne_iff_ne.2 hr), hx, ok_bind])
  · exact does_of_body hgo rfl (by simp only [hwaitBody, ctlHandle_of hb, hst, ok_bind, if_false])
  · exact does_of_body hgo rfl (by simp only [hrelBody, ctlHandle_of hb, ok_bind])

/-! ## Built engine words and tokens -/

/-- The unit that EMIT builds goes into the queue of its engine. -/
theorem emitBody_ok {pfx : List W32} {w : W32} {freed : Thread → Thread} {s : State} {i : Instr} {p : Pfx} {e : Eng} {t : Thread} {b : Bool}
    (hu : emitUnit pfx w = .ok (i, p, e))
    (ht : (freed s.th).steer e.sq
      { seq := s.th.seq, pc := s.th.unitPc, next := s.th.pc + 4, pfx := pfx, word := w, marker := false, snap := s.th.snap,
        snapN := (freed s.th).snap, rep := 0, n := (p.rep.getD (1, 0)).1, mask := (p.rep.getD (1, 0)).2, begun := false } = some (t, b, false)) : emitBody pfx w freed s = .ok { s := s.setTh t } := by
  simp only [emitBody, hu, ht, Bool.false_eq_true, if_false]

theorem waittBody_ok {c : BitVec 6} {p : BitVec 4} {s : State} (h6 : 6 ≤ p.toNat) (h8 : p.toNat ≤ 8) (hc : c ≠ 0#6)
    (hn : c.toNat ≤ vget s.th.tok p.toNat 0) : waittBody c p s = .ok { s := s.setTh (popTok s.th p.toNat c.toNat) } := by
  have hl : (decide (6 ≤ p.toNat ∧ p.toNat ≤ 8) && c != 0#6) = true := by simp [h6, h8, hc]
  simp only [waittBody, requireLegal_of hl, ok_bind, Nat.not_lt.2 hn, if_false]

/-- SIGT pushes, and raises TOKEN_OVERFLOW after its effect where the count would pass 63. -/
theorem sigtBody_ok {c : BitVec 6} {p : BitVec 4} {s : State} (h3 : 3 ≤ p.toNat) (h5 : p.toNat ≤ 5) (hc : c ≠ 0#6) :
    sigtBody c p s = .ok { s := s.setTh { s.th with tok := vset s.th.tok p.toNat (min (vget s.th.tok p.toNat 0 + c.toNat) 63) }
                           late := if 63 < vget s.th.tok p.toNat 0 + c.toNat then some ⟨cTokenOverflow, 0, p.toNat⟩ else none } := by
  have hl : (decide (3 ≤ p.toNat ∧ p.toNat ≤ 5) && c != 0#6) = true := by simp [h3, h5, hc]
  simp only [sigtBody, requireLegal_of hl, ok_bind, pushTok, decide_eq_true_eq, gt_iff_lt]

theorem tkcntBody_ok {d : BitVec 5} {p : BitVec 4} {s : State} (h8 : p.toNat ≤ 8) :
    tkcntBody d p s = .ok { s := s.setTh (wrG s.th d.toNat (BitVec.ofNat 64 (vget s.th.tok p.toNat 0))) } := by
  simp only [tkcntBody, requireLegal_of (decide_eq_true h8), ok_bind]

/-- Settles O11: the unit that EMIT builds, and the bodies of the token words. -/
theorem emitAndTokenWords : Obligations.EmitAndTokenWords := by
  refine ⟨?_, fun s c p d => ⟨fun hgo h6 h8 hc hn => ?_, fun hgo h3 h5 hc hn => ?_, fun hgo h8 => ?_⟩⟩
  · intro s a l b m x y i p e hgo hx unit
    refine ⟨fun hu t2 ht => ?_, fun hy hu t2 ht => ?_⟩
    · exact does_of_body hgo rfl (by simp only [hx, ok_bind]; exact emitBody_ok hu ht)
    · exact does_of_body hgo rfl (by simp only [hx, hy, ok_bind]; exact emitBody_ok hu ht)
  · exact does_of_body hgo rfl (waittBody_ok h6 h8 hc hn)
  · have hb := sigtBody_ok (s := s) h3 h5 hc
    rw [Nat.min_eq_left hn, if_neg (Nat.not_lt.2 hn)] at hb
    exact does_of_body hgo rfl hb
  · exact does_of_body hgo rfl (tkcntBody_ok h8)

/-! ## Groups -/

/-- A control or system word whose body leaves its plane answers the state of its body. -/
theorem leaves_of_gone {i : Instr} {eng : Eng} {hz : Bool} {w : W32} {body : State → M CtlRes} {s t : State}
    (hgo : CtlGo s hz) (hi : exec i s = ctl eng hz w body s) (hb : body s = .ok { s := t, gone := true }) : Leaves i s t :=
  hi.trans (ctl_gone hgo hb rfl)

/-- One that has to wait, for something else than memory and not too long (R439), stands in its place. -/
theorem leaves_of_wait {i : Instr} {eng : Eng} {hz : Bool} {w : W32} {body : State → M CtlRes} {s : State} {kd : WaitKind}
    (hgo : CtlGo s hz) (hi : exec i s = ctl eng hz w body s) (hb : body s = .error (.wait kd)) (hkd : kd ≠ .memory)
    (hdog : s.th.watchdogDue .ctl kd s.now = none) : Leaves i s (s.setTh (s.th.standIn .ctl kd s.now)) := by
  obtain ⟨ha, hp, hw, ho, hh⟩ := hgo
  have hb' : body (s.borrow s.me s.th.seq .ctl) = .error (.wait kd) := (borrow_eq hw).symm ▸ hb
  refine hi.trans ?_
  unfold ctl
  dsimp only
  rw [no_async ha]
  dsimp only [ctlOwn]
  cases kd <;> simp_all [no_order ho, no_horizon hh]

/-- An effect that the once-only log does not hold is made now. -/
theorem onceCtl_fresh {s : State} {kind pa : Nat} {ops : List Nat} {again : State → Nat → M CtlRes} {now : State → M CtlRes}
    (h : s.onceAt s.me kind pa ops = .ok .fresh) : onceCtl s kind pa ops again now = now s := by
  simp only [onceCtl, h, ok_bind]

/-- An arrival that completes the group flips its phase. -/
theorem bytes_arrive (g : Grp) : g.arrive.bytes =
    if g.arr + 1 = g.nmem then (Grp.flip { g with arr := g.arr + 1 }).bytes else ({ g with arr := g.arr + 1 } : Grp).bytes := by
  unfold Grp.arrive
  dsimp only
  split <;> rfl

section

variable {s s1 s2 : State} {d : BitVec 5} {h : BitVec 4} {k : BitVec 1} {o : BitVec 10} {pa ofs : Nat} {t1 : Thread} {g : Grp} {e : Member}

/-- GBAR goes on after its release, or at once when it has been released before. -/
theorem gbarBody_released (ho : groupOperand h k o rightAT s = .ok (pa, ofs, t1)) (hst : s.th.ph.stage ≠ gbarWaits)
    (he : t1.members.find? (fun x => x.pa == pa) = some e)
    (hr : s.th.ph.stage = gbarJoins ∧ s1 = s ∨ s.th.ph.stage ≠ gbarJoins ∧ s.releaseGo .ctl 4 = .done s1)
    (hf : s1.onceAt s1.me onceGroup pa [2] = .ok .fresh) (hg : s1.groupAt pa ofs = .ok (s2, g)) : gbarBody h k o s =
      if !phaseReached g.phase e.eff then
        if s.th.ph.stage = gbarJoins then waitFor .group
        else .ok (stay (s2.modThread s2.me fun t => { t with ph := { Phase.none with stage := gbarJoins } }) .group)
      else
        let s3 := s2.atomicWrite pa g.arrive.bytes
        let s4 := s3.onceLog s3.me onceGroup pa [2] g.phase
        .ok (stay (s4.setTh (s4.th.arrived pa g.phase)) .group) := by
  have hr' : (if s.th.ph.stage = gbarJoins then .done s else s.releaseGo .ctl 4) = Going.done s1 := by
    obtain ⟨hj, rfl⟩ | ⟨hj, hrel⟩ := hr
    · exact if_pos hj
    · exact (if_neg hj).trans hrel
  unfold gbarBody
  rw [ho, ok_bind]
  dsimp only
  rw [if_neg hst, he]
  dsimp only
  rw [hr']
  dsimp only
  rw [hf, ok_bind]
  dsimp only
  rw [hg, ok_bind]

end

/-- Settles O12: the bodies of the group words, at the step that completes each. -/
theorem groupWords : Obligations.GroupWords := by
  intro s d h k o pa ofs t1
  refine ⟨fun hgo ho => ⟨fun hroom hf s1 g hg => ?_, fun s1 hrel => ?_, fun hst s1 g hg hph => ?_, fun hst s1 g hg hph hdog => ?_,
    fun e s1 s2 g hst he hr hf hg => ⟨fun hph => ?_, fun hph hj hdog => ?_⟩⟩, fun hgo ho hroom s1 g hg => ?_⟩
  · refine does_of_body hgo rfl ?_
    simp only [joinBody, ho, ok_bind, Nat.not_le.2 hroom, ge_iff_le, if_false, onceCtl_fresh hf, hg]
  · intro gone
    refine ⟨fun hnone => ?_, fun e s2 g he hf hg => ?_⟩
    · exact does_of_body hgo rfl (by simp only [leaveBody, ho, ok_bind, hrel, hnone, gone])
    · exact does_of_body hgo rfl (by simp only [leaveBody, ho, ok_bind, hrel, he, hf, hg, gone])
  · exact does_of_body hgo rfl (by simp only [gbarBody, ho, ok_bind, hst, if_true, hg, hph, if_false])
  · exact leaves_of_wait hgo rfl (by simp only [gbarBody, ho, ok_bind, hst, if_true, hg, hph]; rfl) (by decide) hdog
  · refine leaves_of_gone hgo rfl ((gbarBody_released ho hst he hr hf hg).trans ?_)
    simp only [hph, Bool.not_true, Bool.false_eq_true, if_false, bytes_arrive]
    rfl
  · refine leaves_of_wait hgo rfl ((gbarBody_released ho hst he hr hf hg).trans ?_) (by decide) hdog
    simp only [hph, Bool.not_false, if_true, hj]
    rfl
  · exact does_of_body hgo rfl (by simp only [ginfoBody, ho, ok_bind, Nat.not_le.2 hroom, ge_iff_le, if_false, hg, Thread.sendCtl])

end Sys2Proof.Machine
end

section
/-! The control and status registers, what a word past a limit of its operands raises, and where control and system words trap. -/

namespace Sys2Proof.Machine

open Sys2Proof

/-! ## The control and status registers (R44, R313, R314) -/

section

variable {s : State} {op : CsrOp} {d a : BitVec 5} {l : BitVec 1} {c : BitVec 12} {v old mask : W} {inh : Bool}

theorem csrBody_unassigned (hv : rdG s s.th a.toNat 0 = .ok v) (h : s.csrValue s.me (immU s.th.pfx 12 c.toNat) = none) :
    csrBody op a l c s = .error (.cause ⟨cIllegalOp, 0, immU s.th.pfx 12 c.toNat % 2 ^ 32⟩) := by
  simp only [csrBody, hv, ok_bind, h]
  rfl

/-- Agate's own register takes the write, and ENG_CMD performs its operation. -/
theorem csrBody_agate {g : Agate} (hv : rdG s s.th a.toNat 0 = .ok v) (h : s.csrValue s.me (immU s.th.pfx 12 c.toNat) = some old)
    (ha : isAgateCsr (immU s.th.pfx 12 c.toNat) = true)
    (hg : s.agate.csrWrite s.fresh (immU s.th.pfx 12 c.toNat) (op.apply old v).toNat = some g) :
    csrBody op a l c s = .ok { s := (({ s with agate := g } : State).bmcReply s.agate).setTh (freeG s.th l a.toNat) } := by
  simp only [csrBody, hv, ok_bind, h, ha, if_true, hg]

/-- A write of another scope's register. -/
theorem csrBody_scope (hv : rdG s s.th a.toNat 0 = .ok v) (h : s.csrValue s.me (immU s.th.pfx 12 c.toNat) = some old)
    (ha : isAgateCsr (immU s.th.pfx 12 c.toNat) = false) (hn : 0x100 ≤ immU s.th.pfx 12 c.toNat) :
    csrBody op a l c s = .error (.cause ⟨cIllegalContext, 0, (s.free 3).toNat⟩) := by
  have hf : decide (immU s.th.pfx 12 c.toNat < 0x100) = false := decide_eq_false (Nat.not_lt.2 hn)
  simp only [csrBody, hv, ok_bind, h, ha, Bool.false_eq_true, if_false, require_fails hf, error_bind]

/-- A register that no field takes. -/
theorem csrBody_fixed (hv : rdG s s.th a.toNat 0 = .ok v) (h : s.csrValue s.me (immU s.th.pfx 12 c.toNat) = some old)
    (ha : isAgateCsr (immU s.th.pfx 12 c.toNat) = false) (hn : immU s.th.pfx 12 c.toNat < 0x100)
    (hm : csrMask (immU s.th.pfx 12 c.toNat) = none) :
    csrBody op a l c s = .error (.cause ⟨cIllegalOp, 0, immU s.th.pfx 12 c.toNat⟩) := by
  simp only [csrBody, hv, ok_bind, h, ha, Bool.false_eq_true, if_false, require_of (decide_eq_true hn), hm]
  rfl

/-- A trap register outside a handler. -/
theorem csrBody_outside (hv : rdG s s.th a.toNat 0 = .ok v) (h : s.csrValue s.me (immU s.th.pfx 12 c.toNat) = some old)
    (ha : isAgateCsr (immU s.th.pfx 12 c.toNat) = false) (hn : immU s.th.pfx 12 c.toNat < 0x100)
    (hm : csrMask (immU s.th.pfx 12 c.toNat) = some (mask, inh)) (hi : (!inh || s.th.inh) = false) :
    csrBody op a l c s = .error (.cause ⟨cIllegalContext, 0, (s.free 3).toNat⟩) := by
  simp only [csrBody, hv, ok_bind, h, ha, Bool.false_eq_true, if_false, require_of (decide_eq_true hn), hm, require_fails hi, error_bind]

/-- A value that places a reserved encoding. -/
theorem csrBody_reserved (hv : rdG s s.th a.toNat 0 = .ok v) (h : s.csrValue s.me (immU s.th.pfx 12 c.toNat) = some old)
    (ha : isAgateCsr (immU s.th.pfx 12 c.toNat) = false) (hn : immU s.th.pfx 12 c.toNat < 0x100)
    (hm : csrMask (immU s.th.pfx 12 c.toNat) = some (mask, inh)) (hi : (!inh || s.th.inh) = true)
    (hl : csrLegal (immU s.th.pfx 12 c.toNat) (op.apply old v) = false) :
    csrBody op a l c s =
      .error (.cause ⟨cIllegalOp, 0, immU s.th.pfx 12 c.toNat + (op.apply old v).toNat % 2 ^ 32 * 2 ^ 32⟩) := by
  simp only [csrBody, hv, ok_bind, h, ha, Bool.false_eq_true, if_false, require_of (decide_eq_true hn), hm, require_of hi, require_fails hl,
    error_bind]

theorem csrBody_ok (hv : rdG s s.th a.toNat 0 = .ok v) (h : s.csrValue s.me (immU s.th.pfx 12 c.toNat) = some old)
    (hn : immU s.th.pfx 12 c.toNat < 0x100) (hm : csrMask (immU s.th.pfx 12 c.toNat) = some (mask, inh)) (hi : (!inh || s.th.inh) = true)
    (hl : csrLegal (immU s.th.pfx 12 c.toNat) (op.apply old v) = true) :
    csrBody op a l c s = .ok { s := s.setTh ((freeG s.th l a.toNat).putCsr (immU s.th.pfx 12 c.toNat)
      ((old &&& ~~~mask) ||| (op.apply old v &&& mask))) } := by
  have ha : isAgateCsr (immU s.th.pfx 12 c.toNat) = false := by
    simp only [isAgateCsr, decide_eq_false_iff_not]
    omega
  simp only [csrBody, hv, ok_bind, h, ha, Bool.false_eq_true, if_false, require_of (decide_eq_true hn), hm, require_of hi, require_of hl]

theorem qpopBody_ok {q : Nat} {s1 : State} {w : W} {r : List W} (hk : (vget s.th.q q QHead.unbound).kind ≠ 0)
    (hp : s.popQ s.me q 1 = .ok (s1, w :: r)) : qpopBody d q s = .ok { s := s1.setTh (wrG s1.th d.toNat w) } := by
  simp only [qpopBody, require_of (bne_iff_ne.2 hk), ok_bind, hp, List.headD_cons]

theorem qpopBody_unbound {q : Nat} (hk : (vget s.th.q q QHead.unbound).kind = 0) :
    qpopBody d q s = .error (.cause ⟨cIllegalOp, 0, 0x040 + q⟩) := by
  have h : ((vget s.th.q q QHead.unbound).kind != 0) = false := by simp [hk]
  simp only [qpopBody, require_fails h, error_bind]

theorem rdcsrBody_of_not_qpop (h : isQpop (immU s.th.pfx 12 c.toNat) = false) : rdcsrBody d c s =
    match s.csrValue s.me (immU s.th.pfx 12 c.toNat) with
    | none => .error (.cause ⟨cIllegalOp, 0, immU s.th.pfx 12 c.toNat % 2 ^ 32⟩)
    | some v => .ok { s := s.setTh (wrG s.th d.toNat v) } := by
  simp only [rdcsrBody, h, Bool.false_eq_true, if_false]
  rfl

theorem rdcsrBody_of_qpop (h : isQpop (immU s.th.pfx 12 c.toNat) = true) :
    rdcsrBody d c s = qpopBody d (immU s.th.pfx 12 c.toNat - 0x040) s := by
  simp only [rdcsrBody, h, if_true]

end

/-- A register that may be written at INH = 1 only is written inside a handler. -/
theorem mayWrite_of {inh h : Bool} (hi : inh = true → h = true) : (!inh || h) = true := by
  cases inh with
  | false => rfl
  | true => exact hi rfl

/-- Settles O13: the reads, the pop of a queue head, and the three writes by one body. -/
theorem csrWords : Obligations.CsrWords := by
  intro s d a l c q n
  refine ⟨fun hgo hq v hv => ?_, fun hgo hk s1 w r hp => ?_, fun hgo v old mask inh hv hold hn hm hi => ?_,
    fun hgo v old g hv hold ha hg => ?_⟩
  · exact does_of_body hgo rfl (by rw [rdcsrBody_of_not_qpop hq, hv])
  · exact does_of_body hgo rfl (qpopBody_ok hk hp)
  · exact ⟨fun hl => does_of_body hgo rfl (csrBody_ok (op := .write) hv hold hn hm (mayWrite_of hi) hl),
      fun hl => does_of_body hgo rfl (csrBody_ok (op := .set) hv hold hn hm (mayWrite_of hi) hl),
      fun hl => does_of_body hgo rfl (csrBody_ok (op := .clear) hv hold hn hm (mayWrite_of hi) hl)⟩
  · exact does_of_body hgo rfl (csrBody_agate (op := .write) hv hold ha hg)

/-! ## Limits of control words -/

theorem aluShiftI_illegal {f : W → Nat → W} {d a : BitVec 5} {l : BitVec 1} {i : BitVec 12} {s : State}
    (hi : 63 < immU s.th.pfx 12 i.toNat) : aluShiftI f d a l i s = .error .illegal := by
  simp only [aluShiftI, requireLegal_fails (decide_eq_false (Nat.not_le.2 hi)), error_bind]

/-- The codes above 9 name no condition. -/
theorem condHolds_none {c : BitVec 4} (h : 9 < c.toNat) (x y : W) : condHolds c.toNat x y = none := by
  unfold condHolds
  split <;> first | omega | rfl

theorem psetBody_illegal {d e f o : BitVec 3} {s : State} (ho : 3 < o.toNat) : psetBody d e f o s = .error .illegal := by
  simp only [psetBody, requireLegal_fails (decide_eq_false (Nat.not_le.2 ho)), error_bind]

/-- What the three writes of a CSR raise. -/
theorem csr_limits {i : Instr} {op : CsrOp} {s : State} {a : BitVec 5} {l : BitVec 1} {c : BitVec 12} {x : W}
    (hgo : CtlGo s true) (hi : exec i s = ctl .control true (wordOf i) (csrBody op a l c) s) (hx : rdG s s.th a.toNat 0 = .ok x) :
    let n := immU s.th.pfx 12 c.toNat
    let trap (code info : Nat) : State := s.raiseAt s.me (s.th.ctlFault .control ⟨code, 0, info⟩)
    (s.csrValue s.me n = none → Leaves i s (trap cIllegalOp (n % 2 ^ 32))) ∧
    (∀ old, s.csrValue s.me n = some old → isAgateCsr n = false →
      (0x100 ≤ n → Leaves i s (trap cIllegalContext (s.free 3).toNat)) ∧
      (n < 0x100 → csrMask n = none → Leaves i s (trap cIllegalOp n)) ∧
      (∀ mask inh, n < 0x100 → csrMask n = some (mask, inh) →
        (inh = true → s.th.inh = false → Leaves i s (trap cIllegalContext (s.free 3).toNat)) ∧
        ((inh = true → s.th.inh = true) → csrLegal n (op.apply old x) = false →
          Leaves i s (trap cIllegalOp (n + (op.apply old x).toNat % 2 ^ 32 * 2 ^ 32))))) := by
  intro n trap
  refine ⟨fun h => leaves_of_cause hgo hi (csrBody_unassigned hx h), fun old h ha => ⟨fun hn => leaves_of_cause hgo hi (csrBody_scope hx h ha hn),
    fun hn hm => leaves_of_cause hgo hi (csrBody_fixed hx h ha hn hm), fun mask inh hn hm => ⟨fun ht hf => ?_, fun ht hl => ?_⟩⟩⟩
  · exact leaves_of_cause hgo hi (csrBody_outside hx h ha hn hm (by simp [ht, hf]))
  · exact leaves_of_cause hgo hi (csrBody_reserved hx h ha hn hm (mayWrite_of ht) hl)

/-! ## Limits of engine words -/

/-- An engine word whose body raises a cause raises it at its unit. -/
theorem leaves_of_engCause {i : Instr} {eng : Eng} {body : QUnit → State → M EngRes} {s : State} {u : Cur} {x : Cause}
    (hgo : IssueGo s eng u i) (hi : exec i s = engWord eng (wordOf i) body s) (hb : body u.unit (s.issuing u) = .error (.cause x)) :
    Leaves i s ((s.issuing u).raiseAt s.me (s.th.engFault eng u.sq u.loop u.unit x)) :=
  hi.trans (engWord_err hgo hb)

theorem leaves_of_engIllegal {i : Instr} {eng : Eng} {body : QUnit → State → M EngRes} {s : State} {u : Cur}
    (hgo : IssueGo s eng u i) (hi : exec i s = engWord eng (wordOf i) body s) (hb : body u.unit (s.issuing u) = .error .illegal) :
    Leaves i s ((s.issuing u).raiseAt s.me
      (s.th.engFault eng u.sq u.loop u.unit ⟨cIllegalOp, 0, u.unit.pfx.length * 2 ^ 32 + (wordOf i).toNat⟩)) :=
  hi.trans (engWord_illegal hgo hb)

theorem vsetcBody_fails {i : BitVec 10} {u : QUnit} {s : State} (h : immU u.pfx 10 i.toNat = 0 ∨ 65535 < immU u.pfx 10 i.toNat) :
    vsetcBody i u s = .error (.cause ⟨cIllegalOp, 0, immU u.pfx 10 i.toNat⟩) := by
  have hf : (immU u.pfx 10 i.toNat != 0 && decide (immU u.pfx 10 i.toNat ≤ 65535)) = false := by
    rcases h with h | h
    · simp [h]
    · simp [Nat.not_le.2 h]
  simp only [vsetcBody, require_fails hf, error_bind]

theorem xshlBody_illegal {ld : Bool} {x y : BitVec 3} {l : BitVec 1} {i : BitVec 10} {u : QUnit} {s : State}
    (h : 63 < immU u.pfx 10 i.toNat) : xshlBody ld x y l i u s = .error .illegal := by
  simp only [xshlBody, requireLegal_fails (decide_eq_false (Nat.not_le.2 h)), error_bind]

/-- A region whose register cannot be taken: the first element that is not aligned, or the first outside the scratchpad, raises. -/
theorem readReg_error {s : State} {t : Thread} {r k : Nat} {p : Span} {v : W} {z : Cause} (hv : rdA s t r k = .ok v)
    (hc : checkOffs ((Rgn.of v).offs p) p.e = .error (.cause z)) : readReg s t r p 0#1 k = .error (.cause z) := by
  simp [readReg, hv, hc]

theorem checkOffs_misaligned {o : Int} {l : List Int} {e : Nat} (h : l.find? (fun o => o % (e : Int) != 0) = some o) :
    checkOffs l e = .error (.cause ⟨cMisaligned, 0, infoOf o⟩) := by
  simp only [checkOffs, h]
  rfl

theorem checkOffs_outside {o : Int} {l : List Int} {e : Nat} (h : l.find? (fun o => o % (e : Int) != 0) = none)
    (ho : l.find? (fun o => decide (o < 0 ∨ o + (e : Int) > 2 ^ 21)) = some o) :
    checkOffs l e = .error (.cause ⟨cRegionBounds, 0, infoOf o⟩) := by
  simp only [checkOffs, h, ho]
  rfl

/-- A word of two regions raises what its first operand raises that cannot be taken, in the order d, s1, s2. -/
theorem vec2_error {d a b : BitVec 4} {l m k : BitVec 1} {rd : Bool} {f : RMode → VIn → List Nat × Fl} {bnd : RMode → VIn → List Nat → W32}
    {u : QUnit} {s : State} {e : Stop}
    (h : readReg s s.th d.toNat (s.th.span 4) 0#1 0 = .error e ∨
      (∃ x, readReg s s.th d.toNat (s.th.span 4) 0#1 0 = .ok x) ∧
        (readReg s s.th a.toNat (s.th.span 4) 0#1 2 = .error e ∨
          (∃ x, readReg s s.th a.toNat (s.th.span 4) 0#1 2 = .ok x) ∧ readReg s s.th b.toNat (s.th.span 4) 0#1 4 = .error e)) :
    vec2 d a l b m k 0#1 0#1 rd f bnd u s = .error e := by
  rcases h with h | ⟨⟨x, hx⟩, h | ⟨⟨y, hy⟩, h⟩⟩
  · simp [vec2, vecRun, VWord.operands, src1, h]
  · simp [vec2, vecRun, VWord.operands, src1, VSrc.reg, hx, h]
  · simp [vec2, vecRun, VWord.operands, src1, VSrc.reg, hx, hy, h]

/-- Settles O14: the checks of each body, at the operands that fail them. -/
theorem limitFaultWords : Obligations.LimitFaultWords := by
  constructor
  · intro s d a l b m i q c p e f o x y trap bad n
    refine ⟨fun hgo hn => ?_, fun hgo hc hx => ⟨?_, fun hy => ?_⟩, fun hgo ho => leaves_of_illegal hgo rfl (psetBody_illegal ho),
      fun hgo hc => ?_, fun hgo => ⟨fun hq hv => ?_, fun hq hk => ?_⟩, fun hgo hx => ?_⟩
    · exact ⟨leaves_of_illegal hgo rfl (aluShiftI_illegal hn), leaves_of_illegal hgo rfl (aluShiftI_illegal hn),
        leaves_of_illegal hgo rfl (aluShiftI_illegal hn)⟩
    · exact leaves_of_illegal hgo rfl (by simp only [cmpiBody, hx, ok_bind, condHolds_none hc]; rfl)
    · exact leaves_of_illegal hgo rfl (by simp only [cmpBody, hx, hy, ok_bind, condHolds_none hc]; rfl)
    · exact leaves_of_illegal hgo rfl (by rw [rdengyBody, hc]; rfl)
    · exact leaves_of_cause hgo rfl (by rw [rdcsrBody_of_not_qpop hq, hv])
    · have hn : 0x040 + (n - 0x040) = n := by
        simp only [isQpop, decide_eq_true_eq] at hq
        omega
      exact leaves_of_cause hgo rfl (by rw [rdcsrBody_of_qpop hq, qpopBody_unbound hk, hn])
    · exact ⟨csr_limits (op := .write) hgo rfl hx, csr_limits (op := .set) hgo rfl hx, csr_limits (op := .clear) hgo rfl hx⟩
  · intro s u w e x y l i d a b m k v z trap n bad
    refine ⟨fun hgo h => leaves_of_engCause hgo rfl (vsetcBody_fails h), fun hgo h => leaves_of_engIllegal hgo rfl (xshlBody_illegal h),
      fun hgo h => leaves_of_engIllegal hgo rfl (xshlBody_illegal h), ?_⟩
    intro hgo st sp fails good h
    have hf {r : BitVec 4} {at_ : Nat} (h : fails r at_) : readReg st s.th r.toNat sp 0#1 at_ = .error (.cause z) := by
      obtain ⟨hv, ⟨o, ho, rfl⟩ | ⟨hn, o, ho, rfl⟩⟩ := h
      · exact readReg_error hv (checkOffs_misaligned ho)
      · exact readReg_error hv (checkOffs_outside hn ho)
    refine leaves_of_engCause hgo rfl (vec2_error ?_)
    rcases h with h | ⟨hd, h⟩ | ⟨hd, ha, h⟩
    · exact .inl (hf h)
    · exact .inr ⟨hd, .inl (hf h)⟩
    · exact .inr ⟨hd, .inr ⟨ha, hf h⟩⟩

/-! ## Where control and system words trap -/

/-- A dead source raises DEAD_REGISTER where LUTRAP asks for it (R41). -/
theorem rdG_dead {s : State} {t : Thread} {r k : Nat} (h0 : r ≠ 0) (hp : t.gPending r = false) (hf : t.freed.g.getLsbD r = true)
    (hl : t.lutrap = true) : rdG s t r k = .error (.cause ⟨cDeadRegister, 0, r⟩) := by
  simp [rdG, h0, hp, hf, hl, raise]

/-- An access whose handle has no translation. -/
theorem checkMem_empty {t : Thread} {h ofs n right align : Nat} (hs : hState (vget t.h h 0#64) = 0) :
    checkMem t h ofs n right align = .error (.cause ⟨cProtection, 0, ofs⟩) := by
  simp [checkMem, checkHandle, hs, raise]

theorem checkMem_misaligned {t : Thread} {h ofs n right align : Nat} (hs : hState (vget t.h h 0#64) = 2) (ha : ofs % align ≠ 0) :
    checkMem t h ofs n right align = .error (.cause ⟨cMisaligned, 0, ofs⟩) := by
  have hf : (ofs % align == 0) = false := by simp [ha]
  simp [checkMem, checkHandle, hs, require_fails hf]

/-- An access without its right, or past its page. -/
theorem checkMem_refused {t : Thread} {h ofs n right align : Nat} (hs : hState (vget t.h h 0#64) = 2) (ha : ofs % align = 0)
    (hr : hRights (vget t.h h 0#64) &&& right ≠ right ∨ pageBytes (hPsz (vget t.h h 0#64)) < ofs + n) :
    checkMem t h ofs n right align = .error (.cause ⟨cProtection, 0, ofs⟩) := by
  have ht : (ofs % align == 0) = true := by simp [ha]
  have hf : (hRights (vget t.h h 0#64) &&& right == right && decide (ofs + n ≤ pageBytes (hPsz (vget t.h h 0#64)))) = false := by
    rcases hr with hr | hr
    · simp [hr]
    · simp [Nat.not_le.2 hr]
  simp [checkMem, checkHandle, hs, require_of ht, require_fails hf]

theorem ldsBody_error {d : BitVec 5} {h : BitVec 4} {z : BitVec 2} {x k : BitVec 1} {o : BitVec 10} {s : State} {ofs : Nat} {t1 : Thread}
    {e : Stop} (hh : ctlHandle s.th h.toNat = .ok s.th) (hofs : cmOfs s s.th k o = .ok (ofs, t1))
    (he : checkMem s.th h.toNat ofs (2 ^ z.toNat) rightRD (2 ^ z.toNat) = .error e) : ldsBody d h z x k o s = .error e := by
  simp only [ldsBody, hh, hofs, he, ok_bind, error_bind]

theorem waittBody_illegal {c : BitVec 6} {p : BitVec 4} {s : State} (h : p.toNat < 6 ∨ 8 < p.toNat ∨ c = 0#6) :
    waittBody c p s = .error .illegal := by
  have hf : (decide (6 ≤ p.toNat ∧ p.toNat ≤ 8) && c != 0#6) = false := by
    rcases h with h | h | h
    · simp [Nat.not_le.2 h]
    · simp [Nat.not_le.2 h]
    · simp [h]
  simp only [waittBody, requireLegal_fails hf, error_bind]

theorem sigtBody_illegal {c : BitVec 6} {p : BitVec 4} {s : State} (h : p.toNat < 3 ∨ 5 < p.toNat ∨ c = 0#6) :
    sigtBody c p s = .error .illegal := by
  have hf : (decide (3 ≤ p.toNat ∧ p.toNat ≤ 5) && c != 0#6) = false := by
    rcases h with h | h | h
    · simp [Nat.not_le.2 h]
    · simp [Nat.not_le.2 h]
    · simp [h]
  simp only [sigtBody, requireLegal_fails hf, error_bind]

/-- A control or system word with a late cause makes its effect, and raises the cause at the word that follows (R422). -/
theorem leaves_of_late {i : Instr} {eng : Eng} {hz : Bool} {w : W32} {body : State → M CtlRes} {s t : State} {c : Cause}
    (hgo : CtlGo s hz) (hi : exec i s = ctl eng hz w body s) (hb : body s = .ok { s := t, late := some c }) :
    let u := t.modThread s.me fun x => x.ctlDone none
    Leaves i s (u.raiseAt s.me { s.th.ctlFault eng c with
      seq := (u.thread s.me).seq, pc := (u.thread s.me).pc, rep := none, snap := (u.thread s.me).snap, after := (u.thread s.me).pc
      late := true }) :=
  hi.trans (ctl_late (r := { s := t, late := some c }) hgo hb rfl rfl)

/-- Settles O21: each body stops at the check that its operand fails; SIGT has made its effect before. -/
theorem controlWordTraps : Obligations.ControlWordTraps := by
  intro s a d l j n h z x k o c p v ofs t1 trap bad
  refine ⟨fun hgo hv h4 => ?_, fun hgo => leaves_of_illegal hgo rfl (dbnzBody_zero j s), fun hgo ha hp hf hl => ?_,
    fun hgo hh hofs => ⟨fun hs => ?_, fun hs => ⟨fun ha => ?_, fun ha hr => ?_⟩⟩, fun hgo h => leaves_of_illegal hgo rfl (waittBody_illegal h),
    fun hgo h => leaves_of_illegal hgo rfl (sigtBody_illegal h), fun hgo h3 h5 hc hn => ?_, fun hgo hi => ?_, fun hgo hi hr => ?_,
    fun hgo hi => ?_⟩
  · have hb : jumpReg a l s = .error (.cause ⟨cMisaligned, 0, v.toNat⟩) := by
      have hf : (v.toNat % 4 == 0) = false := by simp [h4]
      simp only [jumpReg, hv, ok_bind, require_fails hf, error_bind]
    exact ⟨leaves_of_cause hgo rfl hb, leaves_of_cause hgo rfl hb⟩
  · have h0 : a.toNat ≠ 0 := fun e => ha (BitVec.eq_of_toNat_eq e)
    exact leaves_of_cause hgo rfl (by simp only [aluRI, aluR, rdG_dead h0 hp hf hl, error_bind])
  · exact leaves_of_cause hgo rfl (ldsBody_error hh hofs (checkMem_empty hs))
  · exact leaves_of_cause hgo rfl (ldsBody_error hh hofs (checkMem_misaligned hs ha))
  · exact leaves_of_cause hgo rfl (ldsBody_error hh hofs (checkMem_refused hs ha hr))
  · intro u w
    have hb := sigtBody_ok (s := s) h3 h5 hc
    rw [Nat.min_eq_right (Nat.le_of_lt hn), if_pos hn] at hb
    exact leaves_of_late hgo rfl hb
  · exact leaves_of_cause hgo rfl (by simp only [trapretBody, require_fails hi, error_bind])
  · exact leaves_of_cause hgo rfl (by simp only [trapretBody, require_of hi, ok_bind, require_fails hr, error_bind])
  · have hf : (!s.th.inh) = false := by simp [hi]
    exact leaves_of_cause hgo rfl (by simp only [installBody, require_fails hf, error_bind])

end Sys2Proof.Machine
end

section

/-!
# Software traps, the return from a handler and the install of a table
-/

namespace Sys2Proof.Machine
open Sys2Proof

/-! ## The trap point keeps THREAD_STATUS -/

theorem foldl_keeps {α β γ : Type} (obs : β → γ) (f : β → α → β) (hf : ∀ b a, obs (f b a) = obs b) (l : List α) (b : β) :
    obs (l.foldl f b) = obs b := by
  induction l generalizing b with
  | nil => rfl
  | cons a l ih => exact (ih _).trans (hf b a)

@[simp] theorem status_setRunAhead (t : Thread) (q : Sq) (r : RunAhead) : (t.setRunAhead q r).status = t.status := by cases q <;> rfl

@[simp] theorem status_atTrapPoint (t : Thread) (p : TrapPend) : (t.atTrapPoint p).status = t.status := by
  unfold Thread.atTrapPoint
  dsimp only
  exact foldl_keeps Thread.status (fun t (r : Sq × RunAhead) => t.setRunAhead r.1 r.2) (fun b r => status_setRunAhead b r.1 r.2) _ _

@[simp] theorem thr_startWalk (s : State) (d : Nat) (w : Walk) : (s.startWalk d w).thr = s.thr := rfl

@[simp] theorem thr_walkPending (s : State) (k : Nat) : (s.walkPending k).thr = s.thr := by
  unfold State.walkPending
  exact foldl_keeps State.thr _ (fun b h => by dsimp only; split <;> rfl) _ _

theorem status_atPoint (s : State) (k : Nat) (p : TrapPend) : ((s.atPoint k p).thread k).status = (s.thread k).status := by
  have h : ((s.atPoint k p).thread k) = (s.thread k).atTrapPoint p := by
    unfold State.atPoint
    rw [State.thread, thr_walkPending]
    exact thread_setThread_self s k _
  rw [h, status_atTrapPoint]

/-! ## A trap of the handler class at rest -/

/-- The engines are at rest but for the trap that waits. -/
theorem trapReady_of_idle {t : Thread} {p : TrapPend} (h : EnginesIdle t) : ({ t with trapPend := some p } : Thread).trapReady p = true := by
  obtain ⟨h1, h2, h3, h4, h5, h6, h7, h8, -, h10⟩ := h
  have hr : ({ t with trapPend := some p } : Thread).replaying = false := h10
  unfold Thread.trapReady
  rw [hr]
  simp [engSqs, Thread.queue, Thread.loopStands, Thread.loop, h1, h2, h3, h4, h5, h6, h7, h8]

/-- A trap raised where none waits becomes the one that waits. -/
theorem raiseAt_of_none {s : State} {k : Nat} {p : TrapPend} (h : (s.thread k).trapPend = none) :
    s.raiseAt k p = (s.modThread k fun t => { t with trapPend := some p }).settleTrap k := by
  unfold State.raiseAt
  dsimp only
  congr 1
  simp only [State.modThread, h]

/-- A cause of the handler class that posts no event, taken outside a handler, enters at the entry that the table holds. -/
theorem deliver_enters {s s3 : State} {k adr pc : Nat} {eng : Eng} {c : Cause} {rep : Option (Nat × Nat × Nat)} (hk : k ≠ agateThr)
    (hc : c.code = cSoftware) (hi : (s.thread k).inh = false) (he : (s.taken k c).handlerEntry k c.code = (s3, some adr)) :
    s.deliver k eng c pc rep = s3.modThread k fun t => enterHandler t (s3.tidOf k) (s3.cidxOf k) eng c pc rep adr := by
  have h1 : c.code ≠ cCorruptTile := by rw [hc]; decide
  have h2 : c.code ≠ cSdcDetected := by rw [hc]; decide
  have hcls : c.cls = .handler := by
    simp [Cause.cls, hc, cSoftware, cTranslation, cHandleRevoked, cVersionOverflow, cSdcDetected, cUncorrectable, cBadReturn,
      cReplayMismatch, cNoImage]
  simp only [State.deliver, hk, h1, h2, hi, hcls, he, false_and, if_false, Bool.false_eq_true]

/-- A software trap raised with the engines at rest is taken at once. -/
theorem raiseAt_enters {s s3 s4 : State} {k adr : Nat} {p : TrapPend} (hk : k ≠ agateThr) (hc : p.cause.code = cSoftware)
    (hidle : EnginesIdle (s.thread k)) (hi : (s.thread k).inh = false)
    (hr : (s.modThread k fun t => { t with trapPend := some p }).handlerReads k p.cause = .ok s4)
    (he : ((s4.atPoint k p).taken k p.cause).handlerEntry k p.cause.code = (s3, some adr)) :
    s.raiseAt k p = s3.modThread k fun t => enterHandler t (s3.tidOf k) (s3.cidxOf k) p.eng p.cause p.pc p.rep adr := by
  have hpend : (s.thread k).trapPend = none := hidle.2.2.2.2.2.2.2.2.1
  have h4 : (s4.thread k).status = (s.thread k).status := by
    rw [(sameRun_handlerReads hr).thread k, thread_modThread_self]
  have hi4 : ((s4.atPoint k p).thread k).inh = false := by
    rw [Thread.inh, status_atPoint, h4]
    exact hi
  rw [raiseAt_of_none hpend]
  simp only [State.settleTrap, thread_modThread_self, trapReady_of_idle hidle, if_true, hr]
  exact deliver_enters hk hc hi4 he
/-! ## TRAP and ECALL -/

/-- The thread after a software trap's word: the source freed, the word complete. -/
def afterTrapWord (s1 : State) (k : Nat) (l : BitVec 1) (a : Nat) : State :=
  (s1.setTh (freeG s1.th l a)).modThread k fun th => th.ctlDone none

theorem ctlDone_idle {t : Thread} (pc : Option Nat) (h : EnginesIdle t) : EnginesIdle (t.ctlDone pc) := by
  unfold Thread.ctlDone
  dsimp only
  split <;> exact h

theorem freeG_idle {t : Thread} (l : BitVec 1) (r : Nat) (h : EnginesIdle t) : EnginesIdle (freeG t l r) := by
  unfold freeG
  split <;> exact h

theorem ctlDone_inh (t : Thread) (pc : Option Nat) : (t.ctlDone pc).inh = t.inh := by
  unfold Thread.ctlDone
  dsimp only
  split <;> rfl

/-- A software trap at the end of its own word, with the engines at rest, is taken as the word completes. -/
theorem trapWord_enters {i : Instr} {eng : Eng} {w : W32} {body : State → M CtlRes} {s s1 s3 s4 : State} {l : BitVec 1} {a adr : Nat} {c : Cause}
    (hgo : CtlGo s true) (hi : exec i s = ctl eng true w body s) (hk : s.me ≠ agateThr) (hc : c.code = cSoftware) (hme : s1.me = s.me)
    (hidle : EnginesIdle s1.th) (hinh : s1.th.inh = false)
    (hb : body s = .ok { s := s1.setTh (freeG s1.th l a), late := some c }) :
    let after := afterTrapWord s1 s.me l a
    let trap : TrapPend :=
      { s.th.ctlFault eng c with
        seq := (after.thread s.me).seq, pc := (after.thread s.me).pc, rep := none, snap := (after.thread s.me).snap
        after := (after.thread s.me).pc, late := true }
    (after.modThread s.me fun t => { t with trapPend := some trap }).handlerReads s.me c = .ok s4 →
    ((s4.atPoint s.me trap).taken s.me c).handlerEntry s.me cSoftware = (s3, some adr) →
    Leaves i s (s3.modThread s.me fun t =>
      enterHandler t (s3.tidOf s.me) (s3.cidxOf s.me) eng c (after.thread s.me).pc none adr) := by
  intro after trap hr he
  have hth : after.thread s.me = (freeG s1.th l a).ctlDone none := by
    simp only [after, afterTrapWord, ← hme, thread_modThread_self, thread_setTh_self]
  have hidle' : EnginesIdle (after.thread s.me) := hth ▸ ctlDone_idle none (freeG_idle l a hidle)
  have hinh' : (after.thread s.me).inh = false := by
    rw [hth, ctlDone_inh, Thread.inh, freeG_status]
    exact hinh
  exact (leaves_of_late hgo hi hb).trans (congrArg Host.Outcome.next (raiseAt_enters hk hc hidle' hinh' hr (hc ▸ he)))

theorem afterTrapWord_pc {s s1 : State} {l : BitVec 1} {a : Nat} (hme : s1.me = s.me) (hrep : s1.th.repNow = (0, 1, 0)) :
    ((afterTrapWord s1 s.me l a).thread s.me).pc = s1.th.pc + 4 := by
  have hr : (freeG s1.th l a).repNow.2.1 = 1 := by rw [repNow_freeG, hrep]
  simp only [afterTrapWord, ← hme, thread_modThread_self, thread_setTh_self, ctlDone_pc _ _ hr.le, Option.getD_none, freeG_pc]

/-! ## What the entry to a handler writes (R48 to R50) -/

theorem or_eq_add (a : Nat) {b : Nat} (i : Nat) (ha : a % 2 ^ i = 0) (hb : b < 2 ^ i) : a ||| b = a + b := by
  have h : a = (a / 2 ^ i) <<< i := by
    rw [Nat.shiftLeft_eq]
    exact (Nat.div_mul_cancel (Nat.dvd_of_mod_eq_zero ha)).symm
  rw [h, Nat.shiftLeft_add_eq_or_of_lt hb]

theorem toNat_mkTrapCause (st : W32) (eng : Nat) (c : Cause) :
    (mkTrapCause st eng c).toNat = st.toNat * 2 ^ 32 + eng % 8 * 2 ^ 16 + c.sub % 256 * 2 ^ 8 + c.code % 256 := by
  unfold mkTrapCause
  have h := st.isLt
  simp only [Nat.shiftLeft_eq]
  rw [or_eq_add (st.toNat * 2 ^ 32) 32 (by omega) (by omega), or_eq_add (_ + _) 16 (by omega) (by omega),
    or_eq_add (_ + _) 8 (by omega) (by omega), BitVec.toNat_ofNat]
  omega

theorem toNat_mkRepState (remain mask done : Nat) :
    (mkRepState remain mask done).toNat = (if done = 0 then 0 else 2 ^ 31) + remain % 64 * 2 ^ 16 + mask % 8 * 2 ^ 8 + done % 64 := by
  unfold mkRepState
  simp only [Nat.shiftLeft_eq]
  have hact : ∃ b, b < 2 ∧ (if done = 0 then 0 else 1) = b ∧ (if done = 0 then 0 else 2 ^ 31) = b * 2 ^ 31 := by
    split
    · exact ⟨0, by omega, rfl, rfl⟩
    · exact ⟨1, by omega, rfl, rfl⟩
  obtain ⟨b, hb, h1, h2⟩ := hact
  rw [h1, h2, or_eq_add (b * 2 ^ 31) 31 (by omega) (by omega), or_eq_add (_ + _) 16 (by omega) (by omega),
    or_eq_add (_ + _) 8 (by omega) (by omega), BitVec.toNat_ofNat]
  omega

theorem getLsbD_setBit32_true (w : W32) (i j : Nat) (hi : i < 32) : (setBit32 w i true).getLsbD j = (w.getLsbD j || decide (j = i)) := by
  rw [setBit32, if_pos rfl, BitVec.getLsbD_or, BitVec.getLsbD_shiftLeft, BitVec.getLsbD_one]
  rcases Nat.lt_trichotomy j i with h | h | h
  · simp [h, h.ne]
  · simp [h, hi]
  · simp [h.ne', show j - i ≠ 0 by omega]

theorem toNat_trapTask (tid cidx : Nat) :
    (BitVec.ofNat 64 ((tid % 2 ^ 40) <<< 24 ||| cidx % 2 ^ 24)).toNat = tid % 2 ^ 40 * 2 ^ 24 + cidx % 2 ^ 24 := by
  simp only [Nat.shiftLeft_eq]
  rw [or_eq_add _ 24 (by omega) (by omega), BitVec.toNat_ofNat]
  omega

/-- Settles O22: a software trap at rest is taken as its word completes, and the entry to a handler field by field. -/
theorem softwareTraps : Obligations.SoftwareTraps := by
  refine ⟨?_, ?_⟩
  · intro s a l c v adr s3 s4 hgo hk hidle hinh hrep hv after trap finds entered
    refine ⟨fun ⟨hr, he⟩ => ?_, fun s1 hc hme hidle1 hinh1 hrep1 hpc ⟨hr, he⟩ => ?_⟩
    · have hb : trapBody a l c s = .ok { s := s.setTh (freeG s.th l a.toNat), late := some ⟨cSoftware, c.toNat, v.toNat⟩ } := by
        simp only [trapBody, hv, ok_bind]
      exact trapWord_enters hgo rfl hk rfl rfl hidle hinh hb hr he
    · have hb : ecallBody a l c s = .ok { s := s1.setTh (freeG s1.th l a.toNat), late := some ⟨cSoftware, 128 + c.toNat, v.toNat⟩ } := by
        simp only [ecallBody, hv, ok_bind, afterCommit, hc]
      have hat : ((afterTrapWord s1 s.me l a.toNat).thread s.me).pc = ((after s).thread s.me).pc :=
        (afterTrapWord_pc hme hrep1).trans ((congrArg (· + 4) hpc).trans (afterTrapWord_pc rfl hrep).symm)
      have h := trapWord_enters (i := .ecall a l c) hgo rfl hk rfl hme hidle1 hinh1 hb hr he
      rw [hat] at h
      exact h
  · intro t tid cidx pc target eng c rep u
    have hst := t.status.isLt
    have hcause : u.trapCause.toNat = _ := toNat_mkTrapCause t.status eng.code c
    have hcode : eng.code < 8 := by cases eng <;> decide
    have htask : u.trapTask.toNat = _ := toNat_trapTask tid cidx
    simp only [bits, Nat.shiftRight_eq_div_pow, hcause, htask]
    refine ⟨by omega, by omega, by omega, by omega, by omega, ?_, by omega, by omega, BitVec.toNat_ofNat _ _, fun h => ?_,
      fun remain mask done h => ?_, ?_, fun i hi => ?_, rfl⟩
    · exact (BitVec.toNat_ofNat _ _).trans (by omega)
    · simp only [u, enterHandler, h]
    · have hrs : u.repState = mkRepState remain mask done := by simp only [u, enterHandler, h]
      rw [hrs, BitVec.getLsbD, toNat_mkRepState, Nat.testBit_eq_decide_div_mod_eq]
      split <;> simp_all <;> omega
    · exact (getLsbD_setBit32_true _ 25 25 (by decide)).trans (by simp)
    · exact (getLsbD_setBit32_true _ 25 i (by decide)).trans (by simp [hi])

end Sys2Proof.Machine
end

section

/-!
# The return from a handler and the install of a table (R48, R51, R397 to R399, R478)
-/

namespace Sys2Proof.Machine
open Sys2Proof

/-! ## The return, loop by loop -/

/-- One kept loop at the return to `pc`: it stands again where its place is the return address, and fetch then goes on behind its body. -/
def resumeLoop (pc : Nat) (t : Thread) (r : LoopResume) : Thread :=
  if r.pc = pc then
    let t := t.reloop r
    if r.after = pc then t else { t with pc := r.after, repDone := 0, repPc := none }
  else t

theorem returnFrom_eq (t : Thread) : t.returnFrom =
    t.loopRes.foldl (resumeLoop (sext57 (bits t.trapPc.toNat 56 2 * 4))) { leaveHandler t with loopRes := [] } := rfl

/-- The two threads differ in their loop buffers and in their place in the stream alone. -/
def ResumedFrom (t u : Thread) : Prop :=
  ∃ lL lC lS pc done rep, u = { t with lpL := lL, lpC := lC, lpS := lS, pc := pc, repDone := done, repPc := rep }

theorem ResumedFrom.reloop {t u : Thread} (h : ResumedFrom t u) (r : LoopResume) : ResumedFrom t (u.reloop r) := by
  obtain ⟨lL, lC, lS, pc, done, rep, rfl⟩ := h
  unfold Thread.reloop Thread.setLoop
  cases r.sq <;> exact ⟨_, _, _, _, _, _, rfl⟩

theorem ResumedFrom.resumeLoop {t u : Thread} (h : ResumedFrom t u) (pc : Nat) (r : LoopResume) : ResumedFrom t (resumeLoop pc u r) := by
  unfold Machine.resumeLoop
  dsimp only
  split
  · split
    · exact h.reloop r
    · obtain ⟨lL, lC, lS, _, _, _, he⟩ := h.reloop r
      rw [he]
      exact ⟨_, _, _, _, _, _, rfl⟩
  · exact h

theorem resumedFrom_returnFrom (t : Thread) : ResumedFrom { leaveHandler t with loopRes := [] } t.returnFrom := by
  have h : ∀ (l : List LoopResume) (u : Thread), ResumedFrom { leaveHandler t with loopRes := [] } u →
      ResumedFrom { leaveHandler t with loopRes := [] } (l.foldl (resumeLoop (sext57 (bits t.trapPc.toNat 56 2 * 4))) u) := by
    intro l
    induction l with
    | nil => exact fun u h => h
    | cons r l ih => exact fun u h => ih _ (h.resumeLoop _ r)
  rw [returnFrom_eq]
  exact h _ _ ⟨_, _, _, _, _, _, rfl⟩

@[simp] theorem pc_reloop (t : Thread) (r : LoopResume) : (t.reloop r).pc = t.pc := by
  unfold Thread.reloop Thread.setLoop
  cases r.sq <;> rfl

theorem resumeLoop_pc_of_same {pc : Nat} {t : Thread} {r : LoopResume} (h : r.pc = pc → r.after = pc) :
    (resumeLoop pc t r).pc = t.pc := by
  unfold resumeLoop
  dsimp only
  split
  next hp => rw [if_pos (h hp), pc_reloop]
  · rfl

theorem returnFrom_pc_of_same {t : Thread}
    (h : ∀ r ∈ t.loopRes, r.pc = sext57 (bits t.trapPc.toNat 56 2 * 4) → r.after = sext57 (bits t.trapPc.toNat 56 2 * 4)) :
    t.returnFrom.pc = sext57 (bits t.trapPc.toNat 56 2 * 4) := by
  have hl : ∀ (l : List LoopResume) (u : Thread),
      (∀ r ∈ l, r.pc = sext57 (bits t.trapPc.toNat 56 2 * 4) → r.after = sext57 (bits t.trapPc.toNat 56 2 * 4)) →
      (l.foldl (resumeLoop (sext57 (bits t.trapPc.toNat 56 2 * 4))) u).pc = u.pc := by
    intro l
    induction l with
    | nil => exact fun u _ => rfl
    | cons r l ih =>
      exact fun u hr => (ih _ fun q hq => hr q (List.mem_cons_of_mem _ hq)).trans (resumeLoop_pc_of_same (hr r List.mem_cons_self))
  rw [returnFrom_eq, hl _ _ h]
  rfl

theorem returnFrom_pc_of_loop {t : Thread} {r : LoopResume} (h : t.loopRes = [r]) (hp : r.pc = sext57 (bits t.trapPc.toNat 56 2 * 4)) :
    t.returnFrom.pc = r.after := by
  rw [returnFrom_eq, h, List.foldl_cons, List.foldl_nil, resumeLoop, if_pos hp]
  dsimp only
  split
  next ha => rw [pc_reloop, ha]; rfl
  · rfl

theorem returnFrom_repDone {t : Thread} (h : t.loopRes = []) : t.returnFrom.repDone =
    if t.repState.getLsbD 31 = true ∧ t.repPc = some (sext57 (bits t.trapPc.toNat 56 2 * 4)) then bits t.repState.toNat 5 0 else 0 := by
  rw [returnFrom_eq, h, List.foldl_nil]
  simp only [leaveHandler, Bool.and_eq_true, beq_iff_eq]

theorem getLsbD_setBit32_ne (w : W32) (i j : Nat) (b : Bool) (hi : i < 32) (h : j ≠ i) : (setBit32 w i b).getLsbD j = w.getLsbD j := by
  cases b with
  | true => rw [getLsbD_setBit32_true w i j hi, decide_eq_false h, Bool.or_false]
  | false =>
    have hbit : (1#32 <<< i).getLsbD j = false := by
      rw [BitVec.getLsbD_shiftLeft, BitVec.getLsbD_one]
      rcases Nat.lt_or_gt_of_ne h with h | h
      · simp [h]
      · simp [show j - i ≠ 0 by omega]
    rw [setBit32, if_neg Bool.false_ne_true, BitVec.getLsbD_and, BitVec.getLsbD_not, hbit]
    by_cases hj : j < 32
    · simp [hj]
    · simp [hj, BitVec.getLsbD_of_ge w j (by omega)]

theorem getLsbD_setBit32_false (w : W32) (i : Nat) : (setBit32 w i false).getLsbD i = false := by
  simp [setBit32]

theorem inh_leaveHandler (t : Thread) : (leaveHandler t).inh = false :=
  (getLsbD_setBit32_ne _ 19 25 _ (by decide) (by decide)).trans (getLsbD_setBit32_false _ 25)

/-! ## INSTALL -/

section

variable {s s1 : State} {d a : BitVec 5} {l : BitVec 1} {v : W}

theorem installBody_zero (hi : s.th.inh = false) (hv : rdG s s.th a.toNat 0 = .ok v) (h0 : v = 0#64) :
    installBody d a l s = .ok { s := s.setTh (wrG
      { freeG s.th l a.toNat with handlerBase := (freeG s.th l a.toNat).handlerBase &&& ~~~1#64, handlerRanges := [] } d.toNat
      (BitVec.ofNat 64 0)) } := by
  have hr : (!s.th.inh) = true := by simp [hi]
  simp only [installBody, hv, require_of hr, ok_bind, if_pos h0]

theorem installBody_code {code : Nat} (hi : s.th.inh = false) (hv : rdG s s.th a.toNat 0 = .ok v) (h0 : v ≠ 0#64)
    (hc : s.installCheck s.me v.toNat = .ok (s1, code, none)) :
    installBody d a l s = .ok { s := s1.setTh (wrG (freeG s1.th l a.toNat) d.toNat (BitVec.ofNat 64 code)) } := by
  have hr : (!s.th.inh) = true := by simp [hi]
  simp only [installBody, hv, require_of hr, ok_bind, if_neg h0, hc, id]

theorem installBody_pages {code : Nat} {pages : List (Nat × Nat)} (hi : s.th.inh = false) (hv : rdG s s.th a.toNat 0 = .ok v)
    (h0 : v ≠ 0#64) (hc : s.installCheck s.me v.toNat = .ok (s1, code, some pages)) :
    installBody d a l s = .ok { s := s1.setTh (wrG
      { freeG s1.th l a.toNat with handlerBase := BitVec.ofNat 64 (bits v.toNat 56 12 * 4096 + 1), handlerRanges := pages } d.toNat
      (BitVec.ofNat 64 0)) } := by
  have hr : (!s.th.inh) = true := by simp [hi]
  simp only [installBody, hv, require_of hr, ok_bind, if_neg h0, hc]

theorem installCheck_malformed {k va : Nat} (h : canonical va = false ∨ va % 4096 ≠ 0) : s.installCheck k va = .ok (s, 3, none) := by
  have hb : (!canonical va || va % 4096 != 0) = true := by simpa using h
  simp only [State.installCheck, hb, if_true]

theorem installCheck_unpinned {k va : Nat} (hc : canonical va = true) (ha : va % 4096 = 0)
    (hw : (s.acquire k 4).walkMeet (s.thrCtx k) va = .ok s1)
    (hl : ∀ e line, s1.walk (s.thrCtx k) va = .leaf e line → (e.pin && rightsOk e rightRD (s.thread k).sys va) = false) :
    s.installCheck k va = .ok (s1, 1, none) := by
  have hb : (!canonical va || va % 4096 != 0) = false := by simp [hc, ha]
  simp only [State.installCheck, hb, hw, ok_bind, Bool.false_eq_true, if_false]
  split
  next e line h => rw [hl e line h]; rfl
  · rfl

end

/-- Settles O23: the return resumes the kept loops one by one; INSTALL follows its checks. -/
theorem handlerReturnAndInstall : Obligations.HandlerReturnAndInstall := by
  refine ⟨?_, ?_⟩
  · intro s hgo hi hr u back
    have hb : trapretBody s = .ok { s := s.setTh { s.th.returnFrom with seq := s.th.seq + 1, waitK := none, ph := Phase.none }, gone := true } := by
      simp only [trapretBody, require_of hi, require_of hr, ok_bind]
    refine ⟨_, leaves_of_gone hgo rfl hb, onlyThread_modThread s s.me fun _ => _, fun _ => rfl, ?_⟩
    rw [thread_setTh_self]
    obtain ⟨lL, lC, lS, pc, done, rep, he⟩ := resumedFrom_returnFrom s.th
    refine ⟨?_, ?_, ?_, rfl, returnFrom_pc_of_same, fun r => returnFrom_pc_of_loop, returnFrom_repDone, ?_⟩
    · rw [he]; rfl
    · exact (congrArg (fun t : Thread => t.inh) he).trans (inh_leaveHandler s.th)
    · rw [he]; rfl
    · rw [he]
      exact ⟨rfl, rfl, rfl, rfl, rfl, rfl, rfl, rfl, rfl, rfl, rfl, rfl, rfl, rfl, rfl, rfl, rfl, rfl, rfl⟩
  · intro s d a l v hgo hi hv put
    refine ⟨fun h0 => does_of_body hgo rfl (installBody_zero hi hv h0), fun h0 hm => ?_, fun h0 hc ha => ⟨fun s1 hw hl => ?_, ?_, ?_⟩⟩
    · exact does_of_body hgo rfl (installBody_code hi hv h0 (installCheck_malformed hm))
    · exact does_of_body hgo rfl (installBody_code hi hv h0 (installCheck_unpinned hc ha hw hl))
    · exact fun s1 code h => does_of_body hgo rfl (installBody_code hi hv h0 h)
    · exact fun s1 code pages h => does_of_body hgo rfl (installBody_pages hi hv h0 h)

end Sys2Proof.Machine
end

section

/-! Hints and fences, the ends of a thread and of a task, graphs, barrier objects, snapshots, collectives, and the words of energy, time and
dies. -/

namespace Sys2Proof.Machine
open Sys2Proof

/-! ## Hints and fences -/

theorem afterCommit_done {s s1 : State} {f : State → M CtlRes} (h : s.commitGo .ctl = .done s1) : afterCommit s f = f s1 := by
  simp only [afterCommit, h]

theorem afterRelease_done {s s1 : State} {scope : Nat} {f : State → M CtlRes} (h : s.releaseGo .ctl scope = .done s1) :
    afterRelease scope s f = f s1 := by
  simp only [afterRelease, h]

theorem pfenceBody_allowed {c : BitVec 1} {s : State} (h : c = 0#1 ∨ s.holdsLease s.me = true) : (c == 0#1 || s.holdsLease s.me) = true := by
  simpa using h

theorem pfenceBody_committed {c : BitVec 1} {s s1 : State} (h : c = 0#1 ∨ s.holdsLease s.me = true)
    (hp : s.th.ph.stage ≠ 0 ∨ s.th.persistOpen s.now = true ∧ s.pointCommits s.me = true) (hc : s.commitGo .ctl = .done s1) :
    pfenceBody c s =
      .ok { s := s1.persistPoint s1.me (if s1.holdsLease s1.me then max (s.th.pendPersist.getD 0) c.toNat else 0) } := by
  have h1 : ¬ (s.th.ph.stage = 0 ∧ s.th.persistOpen s.now = false) := by
    rintro ⟨h0, ho⟩
    rcases hp with h | ⟨h, -⟩
    · exact h h0
    · exact Bool.false_ne_true (ho.symm.trans h)
  have h2 : s.th.ph.stage ≠ 0 ∨ s.pointCommits s.me = true := hp.imp_right And.right
  simp only [pfenceBody, require_of (pfenceBody_allowed h), ok_bind, if_neg h1, if_pos h2, afterCommit_done hc]

theorem pfenceBody_atOnce {c : BitVec 1} {s : State} (h : c = 0#1 ∨ s.holdsLease s.me = true) (h0 : s.th.ph.stage = 0)
    (ho : s.th.persistOpen s.now = true) (hc : s.pointCommits s.me = false) (hd : s.th.drained = true) (hw : s.th.wordsWhole = true) :
    pfenceBody c s = .ok { s := s.persistPoint s.me (if s.holdsLease s.me then max (s.th.pendPersist.getD 0) c.toNat else 0) } := by
  simp only [pfenceBody, require_of (pfenceBody_allowed h), ok_bind, h0, ho, hc, hd, hw, Bool.true_eq_false, and_false, if_false, ne_eq,
    not_true_eq_false, Bool.false_eq_true, or_false, Bool.and_true, Bool.not_true]

/-- Settles O24: the body of each word; PFENCE in its three forms, FENCE with and without its release. -/
theorem hintsAndFences : Obligations.HintsAndFences := by
  intro s i c k e hgo
  refine ⟨fun hp => ?_, fun hc => ?_, fun ha hl hst => ?_, fun hk => ?_, fun hk hb => ?_, fun s1 hc => ?_⟩
  · exact does_of_body hgo rfl (by simp only [phintBody, hp, Bool.not_false, if_true])
  · intro scope
    refine ⟨fun h0 ho => ?_, fun h0 ho hp hd hw => ?_, fun hp s1 h1 => ?_⟩
    · exact does_of_body hgo rfl (by
        simp only [pfenceBody, require_of (pfenceBody_allowed hc), ok_bind, h0, ho, and_self, if_true, scope])
    · exact does_of_body hgo rfl (pfenceBody_atOnce hc h0 ho hp hd hw)
    · exact does_of_body hgo rfl (pfenceBody_committed hc hp h1)
  · have hq : ¬ (s.th.ldQ.length ≥ queueDepth .load ∨ s.th.stQ.length ≥ queueDepth .store) := by omega
    exact does_of_body hgo rfl (by simp only [qsyncBody, ha, List.isEmpty_nil, Bool.not_true, Bool.false_eq_true, if_false, if_neg hq])
  · exact does_of_body hgo rfl (by simp only [fenceBody, hk, if_true])
  · have hw : ¬ (s.th.ph.stage = 0 ∧ s.th.allBefore = false) := by
      rintro ⟨h0, h1⟩
      rcases hb with h | h
      · exact h h0
      · exact Bool.false_ne_true (h1.symm.trans h)
    refine ⟨fun he => ?_, fun he s1 h1 => ?_⟩
    · exact does_of_body hgo rfl (by simp only [fenceBody, hk, if_neg hw, he, if_false, Bool.false_eq_true])
    · exact does_of_body hgo rfl (by simp only [fenceBody, hk, if_neg hw, he, if_false, if_true, afterRelease_done h1])
  · exact does_of_body hgo rfl (afterCommit_done hc)

/-! ## Ends, IDLE, PSWAP and the words before a word -/

theorem tendBody_ends {s s1 : State} (hs : s.th.ph.stage ≠ 0 ∨ s.ended s.me = true)
    (h : (let s0 := s.modThread s.me fun t => { t with ph := { t.ph with arg2 := endWaits } }
          if s.th.members = [] then s0.commitGo .ctl else s0.releaseGo .ctl 4) = .done s1) :
    tendBody s = .ok { s := s1.threadEnds s1.me, gone := true } := by
  have hn : ¬ (s.th.ph.stage = 0 ∧ s.ended s.me = false) := by
    rintro ⟨h0, h1⟩
    rcases hs with h | h
    · exact h h0
    · exact Bool.false_ne_true (h1.symm.trans h)
  have hm : (s.modThread s.me fun t => { t with ph := { t.ph with arg2 := endWaits } }).th.members = s.th.members := by
    rw [State.th, modThread_me, thread_modThread_self]
    rfl
  unfold tendBody
  rw [if_neg hn]
  dsimp only at h ⊢
  rw [hm]
  by_cases he : s.th.members = []
  · rw [if_pos he] at h ⊢
    exact afterCommit_done h
  · rw [if_neg he] at h ⊢
    exact afterRelease_done h

/-- The save engine's next image changes neither the threads nor which one runs. -/
theorem thr_nextImage (s : State) (c : Nat) : (s.nextImage c).thr = s.thr ∧ (s.nextImage c).focus = s.focus := by
  unfold State.nextImage State.beginJob
  split
  · exact ⟨rfl, rfl⟩
  · split
    · exact ⟨rfl, rfl⟩
    · dsimp only
      split <;> exact ⟨rfl, rfl⟩

theorem cutImages_thr (s : State) (d : Nat) (cut : ImgJob → Bool) : (s.cutImages d cut).thr = s.thr := by
  unfold State.cutImages
  dsimp only
  rw [foldl_keeps State.thr _ fun s c => (thr_nextImage s c).1]
  refine (foldl_keeps State.thr _ ?_ _ _).trans rfl
  exact fun s j => rfl

theorem cutImages_focus (s : State) (d : Nat) (cut : ImgJob → Bool) : (s.cutImages d cut).focus = s.focus := by
  unfold State.cutImages
  dsimp only
  rw [foldl_keeps State.focus _ fun s c => (thr_nextImage s c).2]
  refine (foldl_keeps State.focus _ ?_ _ _).trans rfl
  exact fun s j => rfl

/-- Halting the other threads of the gang keeps the thread that runs, and its task. -/
theorem stopMates_focus (s : State) (k : Nat) : (s.stopMates k).focus = s.focus := by
  unfold State.stopMates
  dsimp only
  rw [foldl_keeps State.focus _ (fun s d => cutImages_focus s d _)]
  refine foldl_keeps State.focus _ ?_ _ s
  exact fun s j => rfl

theorem stopMates_task (s : State) (k j : Nat) : ((s.stopMates k).thread j).task = (s.thread j).task := by
  unfold State.stopMates
  dsimp only
  rw [foldl_keeps (fun s : State => (s.thread j).task) _ (fun s d => by rw [State.thread, cutImages_thr]; rfl)]
  refine foldl_keeps (fun s : State => (s.thread j).task) _ (fun s i => ?_) _ s
  by_cases h : j = i
  · rw [h, thread_modThread_self]
  · rw [thread_modThread_ne _ _ h]

theorem tabortBody_ends {c : BitVec 8} {s : State} (he : (s.stopMates s.me).ended s.me = true)
    (hd : (s.stopMates s.me).matesDrained s.me = true) :
    tabortBody c s = .ok { s := (s.stopMates s.me).endTask s.th.task 1 cSoftware c.toNat c.toNat 0, gone := true } := by
  have hme : (s.stopMates s.me).me = s.me := congrArg (·.getD 0) (stopMates_focus s s.me)
  have ht : (s.stopMates s.me).th.task = s.th.task := by
    rw [State.th, hme]
    exact stopMates_task s s.me s.me
  simp only [tabortBody, hme, ht, he, hd, Bool.and_self, if_true]

/-- Settles O25: the bodies of the words that end, wait or swap, and the unit that a word before it joins. -/
theorem endsIdleAndPrefixWords : Obligations.EndsIdleAndPrefixWords := by
  refine ⟨fun s c d a l i v hgo => ⟨?_, ?_, fun hk hr hs => ?_, fun hv => ⟨fun hn => ?_, fun hy hd => ?_⟩, fun hs hp u hu hle => ?_⟩, ?_⟩
  · intro s0 hs s1 h
    exact leaves_of_gone hgo rfl (tendBody_ends hs h)
  · intro s0 he hd
    exact leaves_of_gone hgo rfl (tabortBody_ends he hd)
  · exact does_of_body hgo rfl (by simp only [idleBody, hk, hr, hs, ne_eq, not_false_eq_true, decide_true, Bool.and_self, if_true])
  · exact does_of_body hgo rfl (by simp only [pswapBody, hv, ok_bind, hn, Bool.not_false, if_true])
  · exact does_of_body hgo rfl (by simp only [pswapBody, hv, ok_bind, hy, hd, Bool.not_true, Bool.false_eq_true, if_false])
  · exact does_of_body hgo rfl (by
      simp only [idleBody, hs, hp, hu, hle, ne_eq, not_true_eq_false, if_false, Bool.false_eq_true, decide_true, Bool.true_or, if_true])
  · intro s i p hi hp
    have hx : exec i s = collectPrefix (wordOf i) s := by
      rcases hi with ⟨n, d, a, b, rfl⟩ | ⟨v, n, rfl⟩ | ⟨n, rfl⟩ <;> rfl
    exact hx.trans (by simp only [collectPrefix, hp])

/-! ## Graphs -/

section

variable {s s1 : State} {d a b : BitVec 5} {l m : BitVec 1} {v y : W}

theorem kickBody_fresh {replay : Bool} {ret : Nat} (hv : rdG s s.th a.toNat 0 = .ok v)
    (ho : s.onceAt s.me onceKick 0 [b01 replay, v.toNat] = .ok .fresh) (hk : s.kickAt replay v = .ok (s1, ret)) :
    kickBody replay d a l s =
      (let s2 := s1.onceLog s1.me onceKick 0 [b01 replay, v.toNat] ret
       .ok { s := s2.setTh (wrG (freeG s2.th l a.toNat) d.toNat (BitVec.ofNat 64 ret)) }) := by
  simp only [kickBody, hv, ok_bind, onceCtl_fresh ho, hk]

theorem kickAt_noSlot {replay : Bool} (h : s.graphSlot s.th.tenant v = none) : s.kickAt replay v = .ok (s, 2 ^ 64 - 1) := by
  simp only [State.kickAt, h, allOnes]

theorem kickAt_noNode {n : Nat} {x : Slot} (h : s.graphSlot s.th.tenant v = some (n, x)) (hn : x.nodes.length ≤ bits v.toNat 31 16) :
    s.kickAt false v = .ok (s, 2 ^ 64 - 1) := by
  simp only [State.kickAt, h, Bool.false_eq_true, if_false, ge_iff_le, hn, if_true, allOnes]

theorem kickAt_ready {n : Nat} {x : Slot} (h : s.graphSlot s.th.tenant v = some (n, x)) (hn : bits v.toNat 31 16 < x.nodes.length)
    (hm : s.mapReady x (bits v.toNat 31 16) = true) (hr : (s.die (s.chooseDie x (bits v.toNat 31 16))).ready.length < 4096) :
    s.kickAt false v = .ok (s.addTask n (bits v.toNat 31 16) (bits v.toNat 15 0) true, x.gen) := by
  simp only [State.kickAt, h, Bool.false_eq_true, if_false, ge_iff_le, Nat.not_le.2 hn, hm, Bool.not_true, Nat.not_le.2 hr]

theorem kickAt_replay {n : Nat} {x : Slot} (h : s.graphSlot s.th.tenant v = some (n, x)) :
    s.kickAt true v = if bits v.toNat 31 16 ≠ 0 then .ok (s, 2 ^ 64 - 1)
      else .ok (s.setSlot n { x with replayWait := some (x.replayWait.getD none) }, nextGen x.gen) := by
  simp only [State.kickAt, h, if_true, allOnes]

end

/-- Settles O26: what KICK and KICK.R do at the slot, and the answers of NWAIT. -/
theorem graphWords : Obligations.GraphWords := by
  intro s d a l b m v y hgo hv node kicked waited
  refine ⟨fun ho => ⟨fun h => ?_, fun n x h => ⟨fun hn => ?_, fun hn hm hr => ?_⟩⟩,
    fun ho => ⟨fun h => ?_, fun n x h => ⟨fun hn => ?_, fun hn => ?_⟩⟩, ?_⟩
  · exact does_of_body hgo rfl (kickBody_fresh (replay := false) hv ho (kickAt_noSlot h))
  · exact does_of_body hgo rfl (kickBody_fresh (replay := false) hv ho (kickAt_noNode h hn))
  · exact does_of_body hgo rfl (kickBody_fresh (replay := false) hv ho (kickAt_ready h hn hm hr))
  · exact does_of_body hgo rfl (kickBody_fresh (replay := true) hv ho (kickAt_noSlot h))
  · exact does_of_body hgo rfl (kickBody_fresh (replay := true) hv ho ((kickAt_replay h).trans (if_pos hn)))
  · exact does_of_body hgo rfl (kickBody_fresh (replay := true) hv ho ((kickAt_replay h).trans (if_neg (not_not.2 hn))))
  · intro hy g
    refine ⟨fun h => ?_, fun n x h => ⟨fun hn => ?_, fun hn hg hc => ?_, fun hn hg hc hgen hah => ?_⟩⟩
    · exact does_of_body hgo rfl (by simp only [nwaitBody, hv, hy, ok_bind, h, allOnes])
    · exact does_of_body hgo rfl (by simp only [nwaitBody, hv, hy, ok_bind, h]; rw [if_pos (by exact hn)]; rfl)
    · have hn' : ¬ (bits v.toNat 31 16 ≥ x.nodes.length ∨ y.toNat % 65536 = 0) := not_or.2 ⟨Nat.not_le.2 hn, hg⟩
      exact does_of_body hgo rfl (by simp only [nwaitBody, hv, hy, ok_bind, h, if_neg hn']; rw [if_pos (by exact hc)])
    · have hn' : ¬ (bits v.toNat 31 16 ≥ x.nodes.length ∨ y.toNat % 65536 = 0) := not_or.2 ⟨Nat.not_le.2 hn, hg⟩
      exact does_of_body hgo rfl (by
        simp only [nwaitBody, hv, hy, ok_bind, h, if_neg hn']; rw [if_neg (by exact hc), if_pos (by exact ⟨hgen, hah⟩)])

/-! ## Barrier objects, snapshots and collectives -/

section

variable {s s1 s2 s3 : State} {d : BitVec 5} {h : BitVec 4} {k : BitVec 1} {o : BitVec 10} {ofs pa : Nat} {t1 : Thread}

theorem barSetBody_fresh {keep : Bool} {v : W} {x : Nat} (hh : s.th.handleBusy h.toNat = false) (ho : cmOfs s s.th k o = .ok (ofs, t1))
    (hv : rdG s s.th d.toNat 0 = .ok v) (hpa : checkMem s.th h.toNat ofs 16 rightAT 16 = .ok pa) (h63 : v.getLsbD 63 = false)
    (hf : s.onceAt s.me onceBar pa [b01 keep, v.toNat] = .ok .fresh) (hr : s.atomicRead pa 16 = .ok (s1, x)) :
    barSetBody keep d h k o s =
      (let w := barSet keep (x % 2 ^ 64) (x / 2 ^ 64) v.toNat
       let s2 := s1.atomicWrite pa (leBytes 8 w.1 ++ leBytes 8 w.2)
       let s3 := s2.onceLog s2.me onceBar pa [b01 keep, v.toNat] 0
       .ok { s := s3.setTh { t1 with ph := s3.th.ph } }) := by
  have hl : (!v.getLsbD 63) = true := by rw [h63, Bool.not_false]
  simp only [barSetBody, ctlHandle_of hh, ho, hv, hpa, requireLegal_of hl, ok_bind, onceCtl_fresh hf, hr]

theorem barwaitBody_passed {v : W} {x : Nat} (hh : s.th.handleBusy h.toNat = false) (ho : cmOfs s s.th k o = .ok (ofs, t1))
    (hv : rdG s s.th d.toNat 0 = .ok v) (hpa : checkMem s.th h.toNat ofs 16 rightRD 16 = .ok pa) (hd : s.homeData pa 8 = .ok (s1, x))
    (hx : bit x 63 ≠ v.getLsbD 0) : barwaitBody d h k o s = .ok { s := s1.setTh t1 } := by
  have hx' : ¬ ((bit x 63 == v.getLsbD 0) = true) := by simpa using hx
  simp only [barwaitBody, ctlHandle_of hh, ho, hv, hpa, ok_bind, hd, if_neg hx']

/-- SNAPC after its checks and its release, at an object that the once-only log does not hold. -/
theorem snapcBody_fresh {x0 x : Nat} (hh : s.th.handleBusy h.toNat = false) (ho : cmOfs s s.th k o = .ok (ofs, t1))
    (hpa : checkMem s.th h.toNat ofs 64 rightAT 64 = .ok pa) (hd : s.homeData pa 64 = .ok (s1, x0)) (hres : snapReserved x0 = false)
    (hrel : s1.releaseGo .ctl 4 = .done s2) (hf : s2.onceAt s2.me onceSnap pa [] = .ok .fresh) (hr : s2.atomicRead pa 64 = .ok (s3, x)) :
    snapcBody d h k o s =
      (let fin (st : State) (x : Nat) : CtlRes := { s := st.setTh (wrG { t1 with ph := st.th.ph } d.toNat (BitVec.ofNat 64 x)) }
       let w := x / 2 ^ 128 % 2 ^ 64
       if bits w 63 40 = 0xFFFFFF then .ok (fin (s3.onceLog s3.me onceSnap pa [] (2 ^ 64 - 1)) (2 ^ 64 - 1))
       else
         let s4 := s3.snapRegister (s3.thrCtx s3.me) (s3.localPa pa)
         let s5 := s4.atomicWrite (pa + 16) (leBytes 8 ((bits w 63 40 + 1) * 2 ^ 40 + w % 2 ^ 40 / 2 * 2 + (1 - w % 2)))
         .ok (fin (s5.onceLog s5.me onceSnap pa [] (bits w 63 40 + 1)) (bits w 63 40 + 1))) := by
  have hl : (!snapReserved x0) = true := by simp [hres]
  simp only [snapcBody, ctlHandle_of hh, ho, hpa, ok_bind, hd, require_of hl, afterRelease_done hrel, hf, hr, allOnes]

theorem collBody_fresh {l : List Byte} (hh : s.th.handleBusy h.toNat = false) (ho : cmOfs s s.th k o = .ok (ofs, t1))
    (hpa : checkMem s.th h.toNat ofs 64 rightRD 64 = .ok pa) (hd : (s.acquire s.me 4).loadData pa 64 (s.th.swmOf h.toNat) = .ok (s1, l))
    (hb : collBad (fun i => (words8 8 l).getD i 0) (fun c => s1.comms.any fun x => x.num == c && x.tenant == s.th.tenant) = none)
    (hf : s1.onceAt s1.me onceColl pa (words8 8 l) = .ok .fresh) (hn : s1.colls.length < 256) :
    collBody d h k o s =
      (let w (i : Nat) : Nat := (words8 8 l).getD i 0
       let c : Coll := {
         desc := pa, comm := bits (w 4) 63 48, op := bits (w 4) 47 40, fmt := bits (w 4) 39 36, root := bits (w 3) 63 48
         count := bits (w 3) 47 0, src := w 0, dst := w 1, bar := w 2, task := s.th.task, pos := s.th.gangPos, ord := 0, done := []
         inputs := [], heads := [], since := 0, heard := [], stalled := none, flags := 0#32, stopped := false }
       let s2 := (s1.collSubmit c).modTask s.th.task fun x => { x with asyncOut := x.asyncOut + 1 }
       let s3 := s2.onceLog s2.me onceColl pa (words8 8 l) 0
       .ok { s := s3.setTh (wrG { t1 with ph := s3.th.ph } d.toNat 0#64) }) := by
  simp only [collBody, ctlHandle_of hh, ho, hpa, ok_bind, hd, hb, onceCtl_fresh hf, ge_iff_le, Nat.not_le.2 hn, if_false]

end

/-- Settles O27: each word makes its effect once, at a fresh place of the once-only log. -/
theorem barrierSnapshotAndCollectiveWords : Obligations.BarrierSnapshotAndCollectiveWords := by
  refine ⟨?_, ?_⟩
  · intro s d h k o ofs pa t1 v hgo hh ho hv
    refine ⟨fun hpa h63 keep hf s1 x hr => ?_, fun hpa s1 x hd hx => does_of_body hgo rfl (barwaitBody_passed hh ho hv hpa hd hx)⟩
    have hb := barSetBody_fresh hh ho hv hpa h63 hf hr
    cases keep with
    | false => exact does_of_body hgo rfl hb
    | true => exact does_of_body hgo rfl hb
  · intro s d h k o ofs pa t1 hgo hh ho
    refine ⟨fun hpa s1 x0 s2 s3 x hd hres hrel hf hr => ?_, ?_⟩
    · have hb := snapcBody_fresh (d := d) hh ho hpa hd hres hrel hf hr
      exact ⟨fun he => does_of_body hgo rfl (hb.trans (if_pos he)), fun he => does_of_body hgo rfl (hb.trans (if_neg he))⟩
    · intro hpa s1 l hd w hb hf hn
      exact does_of_body hgo rfl (collBody_fresh hh ho hpa hd hb hf hn)

/-! ## Energy, time and dies -/

/-- Settles O28: the bodies of the words, clause by clause. -/
theorem energyTimeAndDieWords : Obligations.EnergyTimeAndDieWords := by
  intro s d a l b m i x y v hgo
  refine ⟨?_, does_of_body hgo rfl rfl, does_of_body hgo rfl rfl, fun hv => ?_, fun hx hy => ?_⟩
  · intro j task asked
    refine ⟨fun hj => ?_, fun t ht hj hr => ?_, fun t ht hj hr => ?_⟩
    · exact does_of_body hgo rfl (by unfold opreqBody; dsimp only; rw [if_pos (by exact hj)])
    · exact does_of_body hgo rfl (by
        unfold opreqBody; dsimp only; rw [if_neg (by exact hj), if_pos (by rw [show s.taskOf s.th.task = some t from ht]; exact hr)])
    · exact does_of_body hgo rfl (by
        unfold opreqBody; dsimp only
        rw [if_neg (by exact hj), if_neg (by rw [show s.taskOf s.th.task = some t from ht]; exact Bool.eq_false_iff.1 hr)])
  · exact does_of_body hgo rfl (by simp only [rdengyBody, hv])
  · intro c
    refine ⟨fun p q hp hq => ?_, fun h => ?_, fun hs => ?_⟩
    · exact does_of_body hgo rfl (by simp only [dhopsBody, hx, hy, ok_bind, c] at hp hq ⊢; rw [hp, hq])
    · refine does_of_body hgo rfl ?_
      rw [dhopsBody, hx, ok_bind, hy, ok_bind]
      dsimp only
      rcases h with h | h
      · rw [show (s.ctx (s.thrCtx s.me)).pdie x.toNat = none from h]
        rfl
      · rw [show (s.ctx (s.thrCtx s.me)).pdie y.toNat = none from h]
        cases (s.ctx (s.thrCtx s.me)).pdie x.toNat <;> rfl
    · intro new
      refine ⟨fun h7 hok => does_of_body hgo rfl ?_, fun h => does_of_body hgo rfl ?_⟩ <;>
        rw [vdmapBody, require_of hs, ok_bind, hx, ok_bind, hy, ok_bind]
      · have ha : (decide (x.toNat ≤ 7) && s.vdtOk new) = true := Bool.and_eq_true_iff.2 ⟨decide_eq_true h7, hok⟩
        simp only [new, c] at ha
        simp only [ha, if_true]
        rfl
      · have ha : (decide (x.toNat ≤ 7) && s.vdtOk new) = false := by
          rcases h with h | h
          · rw [decide_eq_false (Nat.not_le.2 h), Bool.false_and]
          · rw [h, Bool.and_false]
        simp only [new, c] at ha
        simp only [ha, Bool.false_eq_true, if_false]

end Sys2Proof.Machine
end

section

/-! The words of the load and store engines: index and loop words, loads, queue heads. -/

namespace Sys2Proof.Machine
open Sys2Proof

/-- An engine word whose body completes issues with the result of its body. -/
theorem issues_of_body {i : Instr} {eng : Eng} {body : QUnit → State → M EngRes} {c : Cur} {s : State} {r : EngRes}
    (hgo : IssueGo s eng c i) (hi : exec i s = engWord eng (wordOf i) body s) (hb : body c.unit (s.issuing c) = .ok r)
    (hm : r.more = none) : Issues i eng c s r :=
  fun hf => hi.trans (engWord_ok hgo hb hm hf)

/-! ## Index words and no-operations -/

section

variable {st : State} {u : QUnit} {ld : Bool} {d a b : BitVec 3} {l m n : BitVec 1} {i : BitVec 10} {x y : W}

theorem xmovBody_counter (hm : m = 1#1) : xmovBody ld d a l m u st =
    .ok { s := st.setTh (wrX st.th ld d.toNat
            (BitVec.ofNat 64 ((vget (st.th.lc (if ld then .load else .store)) a.toNat 0#32).toNat % 65536))), later := false } := by
  simp only [xmovBody, hm, if_true, atIssue]

theorem xmovBody_reg (hm : m = 0#1) (hx : rdX st st.th ld a.toNat 0 = .ok x) : xmovBody ld d a l m u st =
    .ok { s := st.setTh (wrX (freeX st.th ld l a.toNat) ld d.toNat x), later := false, vals := [x.toNat] } := by
  have h01 : ¬ (0#1 = 1#1) := by decide
  simp only [xmovBody, hm, if_neg h01, hx, ok_bind, atIssue]

theorem xaddBody_ok (hx : rdX st st.th ld a.toNat 0 = .ok x) (hy : rdX st st.th ld b.toNat 1 = .ok y) : xaddBody ld d a l b n u st =
    .ok { s := st.setTh (wrX (freeX (freeX st.th ld l a.toNat) ld n b.toNat) ld d.toNat (x + y)), later := false,
          vals := [x.toNat, y.toNat] } := by
  simp only [xaddBody, hx, hy, ok_bind, atIssue]

theorem xaddiBody_ok (hx : rdX st st.th ld a.toNat 0 = .ok x) : xaddiBody ld d a l i u st =
    .ok { s := st.setTh (wrX (freeX st.th ld l a.toNat) ld d.toNat (x + immW u.pfx 10 i.toNat)), later := false, vals := [x.toNat] } := by
  simp only [xaddiBody, hx, ok_bind, atIssue]

theorem xshlBody_ok (hn : immU u.pfx 10 i.toNat ≤ 63) (hx : rdX st st.th ld a.toNat 0 = .ok x) : xshlBody ld d a l i u st =
    .ok { s := st.setTh (wrX (freeX st.th ld l a.toNat) ld d.toNat (x <<< immU u.pfx 10 i.toNat)), later := false, vals := [x.toNat] } := by
  simp only [xshlBody, requireLegal_of (decide_eq_true hn), hx, ok_bind, atIssue]

theorem loopBody_ok {q : Sq} {n : BitVec 6} {k : BitVec 2} {i : BitVec 11} (hn : n ≠ 0#6) (ht : immU u.pfx 11 i.toNat ≤ 65535)
    (ho : (if (st.th.loop q).isOpen then (st.th.loop q).opened else []).length < 4)
    (hk : ∀ r ∈ if (st.th.loop q).isOpen then (st.th.loop q).opened else [], r.lc ≠ k.toNat)
    (he : ∀ r ∈ if (st.th.loop q).isOpen then (st.th.loop q).opened else [], n.toNat + ((st.th.loop q).pos + 1) ≤ r.first + r.len) :
    loopBody q n k i u st =
      .ok { s := st.setTh (st.th.setLc q k.toNat (mkLc (immU u.pfx 11 i.toNat) 0)), later := false,
            loop := some ⟨0, n.toNat, k.toNat, immU u.pfx 11 i.toNat⟩ } := by
  unfold loopBody
  dsimp only
  generalize (if (st.th.loop q).isOpen then (st.th.loop q).opened else []) = opened at ho hk he ⊢
  have hl : (n != 0#6 && decide (immU u.pfx 11 i.toNat ≤ 65535) && decide (opened.length < 4) && opened.all (fun r => r.lc != k.toNat)
      && opened.all (fun r => decide (n.toNat + ((st.th.loop q).pos + 1) ≤ r.first + r.len))) = true := by
    simp only [Bool.and_eq_true, bne_iff_ne, decide_eq_true_eq, List.all_eq_true]
    exact ⟨⟨⟨⟨hn, ht⟩, ho⟩, hk⟩, he⟩
  rw [requireLegal_of hl, ok_bind]

end

/-- Settles O29: the words of both sequencers share their bodies. -/
theorem indexAndLoopWords : Obligations.IndexAndLoopWords := by
  refine ⟨?_, ?_⟩
  · intro s c w e d a b l m n i x y ld st eng res xmov xadd xaddi xshl
    have hmov : exec xmov s = engWord eng (wordOf xmov) (xmovBody ld d a l m) s := by cases ld <;> rfl
    have hadd : exec xadd s = engWord eng (wordOf xadd) (xaddBody ld d a l b n) s := by cases ld <;> rfl
    have haddi : exec xaddi s = engWord eng (wordOf xaddi) (xaddiBody ld d a l i) s := by cases ld <;> rfl
    have hshl : exec xshl s = engWord eng (wordOf xshl) (xshlBody ld d a l i) s := by cases ld <;> rfl
    have hsq : eng.sq = if ld then .load else .store := by cases ld <;> rfl
    refine ⟨fun hgo hm => ?_, fun hx => ⟨fun hgo hm => ?_, fun hgo hy => ?_, fun hgo => ?_, fun hgo hn => ?_⟩,
      fun hgo => issues_of_body hgo rfl rfl rfl, fun hgo => issues_of_body hgo rfl rfl rfl, fun hgo => issues_of_body hgo rfl rfl rfl,
      fun hgo => issues_of_body hgo rfl rfl rfl, fun hgo => issues_of_body hgo rfl rfl rfl⟩
    · rw [hsq]
      exact issues_of_body hgo hmov (xmovBody_counter hm) rfl
    · exact issues_of_body hgo hmov (xmovBody_reg hm hx) rfl
    · exact issues_of_body hgo hadd (xaddBody_ok hx hy) rfl
    · exact issues_of_body hgo haddi (xaddiBody_ok hx) rfl
    · exact issues_of_body hgo hshl (xshlBody_ok hn hx) rfl
  · intro s c n k i j eng hj hgo l opened hn ht ho hk he
    have hi : exec j s = engWord eng (wordOf j) (loopBody eng.sq n k i) s := by
      rcases hj with ⟨rfl, rfl⟩ | ⟨rfl, rfl⟩ | ⟨rfl, rfl⟩ | ⟨rfl, rfl⟩ <;> rfl
    exact issues_of_body hgo hi (loopBody_ok hn ht ho hk he) rfl

/-! ## Loads -/

theorem memX_ok {s : State} {t : Thread} {ld : Bool} {x : BitVec 3} {y : BitVec 1} {k : Nat} {v : W} (h : rdX s t ld x.toNat k = .ok v) :
    memX s t ld x y k = .ok (v.toNat, freeX t ld y x.toNat) := by
  simp only [memX, h, ok_bind]

theorem lockWait_of {t : Thread} {o n : Nat} (h : t.mayFill o n = true) : lockWait t o n = .ok ⟨⟩ := by
  simp only [lockWait, h, if_true]

/-- A delivery for which the queue head has room ends at once. -/
theorem deliver_fresh {s : State} {u : QUnit} {q : Nat} {vals : List W} {done : State → EngRes} (h0 : s.th.doneOf u = 0)
    (hs : vals.length ≤ (vget s.th.q q QHead.unbound).space) :
    deliver s u q vals done = .ok (done (s.setTh ((s.th.sendQ q vals u.seq).setDone u 0))) := by
  simp only [deliver, h0, List.drop_zero, hs, if_true]

section

variable {st s1 : State} {u : QUnit} {h q p : BitVec 4} {x t z m k : BitVec 3} {y i n l : BitVec 1} {v so : W} {pa : Nat} {b : List Byte}

theorem ldBody_queue {w : QHead} (hx : rdX st st.th true x.toNat 0 = .ok v)
    (hpa : checkMem st.th h.toNat v.toNat (blockBytes z) rightRD 64 = .ok pa) (hq : checkQ st.th q.toNat 1 = .ok w)
    (hl : st.loadData pa (blockBytes z) (st.th.swmOf h.toNat) = .ok (s1, b)) (h0 : s1.th.doneOf u = 0)
    (hs : (toElems w.esz (blockBytes z / w.ebytes) b).length ≤ (vget s1.th.q q.toNat QHead.unbound).space) :
    ldBody h x y q 0#1 z i u st =
      (let s2 := s1.setTh ((s1.th.sendQ q.toNat (toElems w.esz (blockBytes z / w.ebytes) b) u.seq).setDone u 0)
       .ok { s := s2.setTh (postInc (freeX s2.th true y x.toNat) true i x v.toNat (blockBytes z)), vals := [v.toNat], performed := true,
             lines := blockBytes z / 64 }) := by
  simp only [ldBody, memX_ok hx, hpa, hq, hl, ok_bind, if_true, deliver_fresh h0 hs]

theorem ldBody_spad (hx : rdX st st.th true x.toNat 0 = .ok v)
    (hpa : checkMem st.th h.toNat v.toNat (blockBytes z) rightRD 64 = .ok pa) (hso : rdX st st.th true q.toNat 1 = .ok so)
    (hc : checkSpad so.toNat (blockBytes z) 64 = .ok ⟨⟩) (hf : st.th.mayFill so.toNat (blockBytes z) = true)
    (hl : st.loadData pa (blockBytes z) (st.th.swmOf h.toNat) = .ok (s1, b)) :
    ldBody h x y q 1#1 z i u st =
      (let s2 := s1.spadWrite s1.me so.toNat b
       .ok { s := s2.setTh (postInc (freeX s2.th true y x.toNat) true i x v.toNat (blockBytes z)), vals := [v.toNat, so.toNat],
             lines := blockBytes z / 64 }) := by
  have h10 : ¬ (1#1 = 0#1) := by decide
  simp only [ldBody, memX_ok hx, hpa, hso, hc, lockWait_of hf, hl, ok_bind, if_neg h10]

/-- SPLK of a block: with n = 1 the lock alone, otherwise the data too. -/
theorem splkBody_ok {s2 : State} (hx : rdX st st.th true x.toNat 0 = .ok v)
    (hpa : checkMem st.th h.toNat v.toNat (blockBytes z) rightRD 64 = .ok pa) (hso : rdX st st.th true t.toNat 1 = .ok so)
    (hc : checkSpad so.toNat (blockBytes z) 64 = .ok ⟨⟩)
    (h2 : n = 1#1 ∧ s2 = st ∨ n = 0#1 ∧ ∃ s1 b, st.loadData pa (blockBytes z) (st.th.swmOf h.toNat) = .ok (s1, b) ∧
      s2 = s1.spadWrite s1.me so.toNat b) :
    splkBody h x y t z n i u st =
      .ok { s := s2.setTh (postInc (freeX { s2.th with
              locks := s2.th.locks ++ (lockBits so.toNat (blockBytes z)).filter fun b => !s2.th.locks.contains b } true y x.toNat) true i x
              v.toNat (blockBytes z)),
            vals := [v.toNat, so.toNat], lines := if n = 1#1 then 0 else blockBytes z / 64 } := by
  rcases h2 with ⟨rfl, rfl⟩ | ⟨rfl, s1, b, hl, rfl⟩
  · simp only [splkBody, memX_ok hx, hpa, hso, hc, ok_bind, if_true]
  · have h01 : ¬ (0#1 = 1#1) := by decide
    simp only [splkBody, memX_ok hx, hpa, hso, hc, hl, ok_bind, if_neg h01]

theorem ldbdBody_ok (hx : rdX st st.th true x.toNat 0 = .ok v) (hpa : checkMem st.th h.toNat v.toNat 4 rightRD 4 = .ok pa)
    (hl : st.loadData pa 4 (st.th.swmOf h.toNat) = .ok (s1, b)) :
    ldbdBody h x y q u st =
      .ok { s := s1.setTh { (freeX s1.th true y x.toNat) with
              eb := vset (freeX s1.th true y x.toNat).eb q.toNat (boundOfWord (BitVec.ofNat 32 (leNat b))) },
            vals := [v.toNat], lines := 1 } := by
  simp only [ldbdBody, memX_ok hx, hpa, hl, ok_bind]

theorem ldscBody_ok {sck fmt : Nat} {hv : W} (hx : rdX st st.th true x.toNat 0 = .ok v) (hso : rdX st st.th true t.toNat 1 = .ok so)
    (hk : ldscKind m.toNat = some (sck, fmt)) (hh : checkHandle st.th h.toNat v.toNat = .ok hv) (hv0 : v.toNat % 4096 = 0)
    (hs0 : so.toNat % 4096 = 0) (hr : hRights hv &&& rightRD = rightRD) (hp : v.toNat + 4096 ≤ pageBytes (hPsz hv))
    (hc : checkSpad so.toNat 4096 64 = .ok ⟨⟩) (hf : st.th.mayFill so.toNat 4096 = true)
    (hl : st.loadData (hBase hv + v.toNat) 4096 (st.th.swmOf h.toNat) = .ok (s1, b)) (hg : scaleFail sck fmt b = none) :
    ldscBody h x y t 6#3 m u st =
      (let s2 := s1.spadWrite s1.me so.toNat b
       .ok { s := s2.setTh (freeX s2.th true y x.toNat), vals := [v.toNat, so.toNat], lines := 64 }) := by
  have ha : (6#3 == 6#3 && v.toNat % 4096 == 0 && so.toNat % 4096 == 0) = true := by simp [hv0, hs0]
  have hb : (hRights hv &&& rightRD == rightRD && decide (v.toNat + 4096 ≤ pageBytes (hPsz hv))) = true := by simp [hr, hp]
  simp only [ldscBody, memX_ok hx, hso, hk, hh, require_of ha, require_of hb, hc, lockWait_of hf, hl, hg, ok_bind]

end

/-- Settles O30: each load when its checks pass and its data can be read. -/
theorem blockLoadWords : Obligations.BlockLoadWords := by
  intro s c w e h x y q t z m n i v so pa s1 b st step hx
  refine ⟨fun hpa => ⟨?_, fun hgo hso hc hf hl => ?_, ?_⟩, fun hgo hpa hl => ?_, fun hgo hso sck fmt hv hk hh hv0 hs0 hr hp hc hf hl hg => ?_⟩
  · intro hgo hq hl h0 vals hs
    exact issues_of_body hgo rfl (ldBody_queue hx hpa hq hl h0 hs) rfl
  · exact issues_of_body hgo rfl (ldBody_spad hx hpa hso hc hf hl) rfl
  · intro hgo hso hc lock
    refine ⟨fun hn => ?_, fun hn hl => ?_⟩
    · subst hn
      exact issues_of_body hgo rfl (splkBody_ok hx hpa hso hc (.inl ⟨rfl, rfl⟩)) rfl
    · subst hn
      exact issues_of_body hgo rfl (splkBody_ok hx hpa hso hc (.inr ⟨rfl, s1, b, hl, rfl⟩)) rfl
  · exact issues_of_body hgo rfl (ldbdBody_ok hx hpa hl) rfl
  · exact issues_of_body hgo rfl (ldscBody_ok hx hso hk hh hv0 hs0 hr hp hc hf hl hg) rfl

/-! ## Queue heads -/

section

variable {st s1 : State} {u : QUnit} {h q p : BitVec 4} {x k : BitVec 3} {y l : BitVec 1} {z : BitVec 2} {i : BitVec 10} {v : W} {b : QHead}

theorem lmarkBody_ok (hx : rdX st st.th true x.toNat 0 = .ok v)
    (hq : checkQ st.th q.toNat 1 = .ok (vget st.th.q q.toNat QHead.unbound)) (h0 : st.th.doneOf u = 0)
    (hs : 1 ≤ (vget st.th.q q.toNat QHead.unbound).space) :
    lmarkBody q x l i u st =
      (let el := lowBits (8 * (vget st.th.q q.toNat QHead.unbound).ebytes) (v + immW u.pfx 10 i.toNat)
       let s1 := st.setTh ((st.th.sendQ q.toNat [el] u.seq).setDone u 0)
       .ok { s := s1.setTh (freeX s1.th true l x.toNat), vals := [v.toNat], performed := true }) := by
  have hd (el : W) : [el].length ≤ (vget st.th.q q.toNat QHead.unbound).space := hs
  simp only [lmarkBody, hx, hq, ok_bind, deliver_fresh h0 (hd _)]

theorem qbindBody_ok (hx : rdX st st.th true x.toNat 0 = .ok v) (hk : (vget st.th.q q.toNat QHead.unbound).kind = 0) (h0 : v.toNat ≠ 0)
    (hd : v.toNat ≤ 32768) (hr : v.toNat * 2 ^ z.toNat ≤ st.th.queueRam) :
    qbindBody q x l z u st =
      (let t := freeX st.th true l x.toNat
       .ok { s := st.setTh { t with q := vset t.q q.toNat { kind := 1, esz := z.toNat, depth := v.toNat, elems := [], flight := 0, sub := none } },
             later := false, vals := [v.toNat] }) := by
  have h1 : ((vget st.th.q q.toNat QHead.unbound).kind == 0) = true := beq_iff_eq.2 hk
  have h2 : (v.toNat != 0 && decide (v.toNat ≤ 32768)) = true := Bool.and_eq_true_iff.2 ⟨bne_iff_ne.2 h0, decide_eq_true hd⟩
  simp only [qbindBody, hx, require_of h1, require_of h2, require_of (decide_eq_true hr), ok_bind, atIssue]

theorem lsubBody_ok {s1 : State} {pa slots ssize : Nat} {d : List Byte} (hx : rdX st st.th true x.toNat 0 = .ok v)
    (hpa : checkMem st.th h.toNat v.toNat 64 (rightRD + rightAT) 64 = .ok pa) (hq : checkQ st.th q.toNat 1 = .ok b) (he : b.elems = [])
    (hf : b.flight = 0) (hu : st.unitBytes pa 64 = .ok (s1, d, false))
    (hr : s1.ringDesc pa (pageBytes (hPsz (vget st.th.h h.toNat 0#64)) - v.toNat) = some (slots, ssize))
    (hn : ∀ r ∈ s1.allSubs, r.pa ≠ pa) (hl : (s1.allSubs.filter fun r => r.pa / 2 ^ 37 == pa / 2 ^ 37).length < 64) :
    lsubBody h x y q u st =
      (let r := freeX s1.th true y x.toNat
       let cons := s1.homeNat (pa + 8) 8
       .ok { s := s1.setTh { r with q := vset r.q q.toNat { b with kind := 2, sub := some ⟨pa, slots, ssize, cons, 0, cons, 0⟩ } },
             later := false, vals := [v.toNat] }) := by
  have h1 : (b.elems.isEmpty && b.flight == 0) = true := by simp [he, hf]
  have h2 : (s1.allSubs.any fun r => r.pa == pa) = false := by simpa [List.any_eq_false] using hn
  simp only [lsubBody, memX_ok hx, hpa, hq, require_of h1, hu, hr, h2, ge_iff_le, Nat.not_le.2 hl, ok_bind, Bool.false_eq_true, if_false]

theorem ldxBody_ok {bi : QHead} {r : EngRes} (hx : rdX st st.th true x.toNat 0 = .ok v) (hq : checkQ st.th q.toNat 1 = .ok b)
    (hp : checkOfsQ st.th p.toNat = .ok bi)
    (hr : runElems u (ldxElem h.toNat q.toNat p.toNat v u)
      (fun t => { s := t.setTh (freeX t.th true y x.toNat), vals := [v.toNat], performed := true, lines := 2 ^ k.toNat })
      (2 ^ k.toNat - st.th.doneOf u) (st.th.doneOf u) false st = .ok r) : ldxBody h x y q p k u st = .ok r := by
  simp only [ldxBody, hx, hq, hp, ok_bind]
  exact hr

end

/-- Settles O31: each word of the queue heads when its checks pass. -/
theorem queueHeadWords : Obligations.QueueHeadWords := by
  intro s c w e h q p x k y l z i v st
  refine ⟨fun hgo => issues_of_body hgo rfl rfl rfl, ?_, fun hx => ⟨?_, ?_, ?_, ?_⟩⟩
  · intro hgo t
    exact issues_of_body hgo rfl rfl rfl
  · intro hgo hq h0 hs el s1
    exact issues_of_body hgo rfl (lmarkBody_ok hx hq h0 hs) rfl
  · intro hgo hk h0 hd hr t
    exact issues_of_body hgo rfl (qbindBody_ok hx hk h0 hd hr) rfl
  · intro hgo pa b s1 d bad slots ssize hpa hq he hf hu hb hr hn hl r cons
    subst hb
    exact issues_of_body hgo rfl (lsubBody_ok hx hpa hq he hf hu hr hn hl) rfl
  · exact fun hgo b bi r hq hp hr hm => issues_of_body hgo rfl (ldxBody_ok hx hq hp hr) hm

/-! ## Prefetch, translation and the cache range words -/

section

variable {st s1 : State} {u : QUnit} {h : BitVec 4} {x t z r : BitVec 3} {y l : BitVec 1} {v : W} {lines : List Nat} {o : Nat}

/-- One line of a prefetch: where it cannot be read at once it is left. -/
def prefetchLine (one : State → Nat → M State) (s : State) (l : Nat) : State :=
  match one s l with
  | .ok s1 => s1
  | .error _ => s

/-- The offset of a prefetch: any value where its register is dead. -/
def prefetchOfs (st : State) (x : BitVec 3) : Nat :=
  match rdX st st.th true x.toNat 0 with
  | .ok v => v.toNat
  | .error _ => (st.free 0).toNat

theorem pfetchBody_outside {m : BitVec 1}
    (hv : hState (vget st.th.h h.toNat 0#64) ≠ 2 ∨ pageBytes (hPsz (vget st.th.h h.toNat 0#64)) < prefetchOfs st x + blockBytes z) :
    pfetchBody h x y z m u st = .ok { s := st.setTh (freeX st.th true y x.toNat), later := false, vals := [prefetchOfs st x] } := by
  unfold pfetchBody
  dsimp only
  rw [if_pos (by exact hv)]
  rfl

theorem pfetchBody_inside {m : BitVec 1} (one : State → Nat → M State)
    (hv : hState (vget st.th.h h.toNat 0#64) = 2) (hp : prefetchOfs st x + blockBytes z ≤ pageBytes (hPsz (vget st.th.h h.toNat 0#64)))
    (hone : one = if m = 0#1 then fun a l => (a.loadLine a.me l (st.th.swmOf h.toNat)).map fun r => r.1
      else fun a l => (a.llcRead (thrDie a.me) l (st.th.swmOf h.toNat)).map fun r => r.1) :
    pfetchBody h x y z m u st =
      .ok { s := (linesOf (hBase (vget st.th.h h.toNat 0#64) + prefetchOfs st x) (blockBytes z)).foldl (prefetchLine one)
              (st.setTh (freeX st.th true y x.toNat)),
            later := false, vals := [prefetchOfs st x] } := by
  have hn : ¬ (hState (vget st.th.h h.toNat 0#64) ≠ 2 ∨ _) := not_or.2 ⟨not_not.2 hv, Nat.not_lt.2 hp⟩
  unfold pfetchBody
  dsimp only
  rw [if_neg (by exact hn)]
  congr 2
  refine congrArg (fun f => List.foldl f _ _) (funext fun a => funext fun l => ?_)
  rw [hone, prefetchLine]
  split <;> dsimp only
  · cases a.loadLine a.me l (st.th.swmOf h.toNat) <;> rfl
  · cases a.llcRead (thrDie a.me) l (st.th.swmOf h.toNat) <;> rfl

theorem xlatlBody_ok (hr : r ≠ 0#3) (hx : rdX st st.th true x.toNat 0 = .ok v) :
    xlatlBody h x l t r u st =
      .ok { s := (st.setTh (freeX st.th true l x.toNat)).startSettle st.me u.seq h.toNat true t.toNat v.toNat r.toNat, later := false,
            vals := [v.toNat] } := by
  simp only [xlatlBody, requireLegal_of (bne_iff_ne.2 hr), hx, ok_bind, atIssue]

theorem cwbrBody_other (hr : rangeOperand h x y z st = .ok (lines, o)) (hs : st.th.swmOf h.toNat = false) :
    cwbrBody h x y z u st = .ok { s := st.modThread st.me fun t => freeX t false y x.toNat, vals := [o] } := by
  simp only [cwbrBody, hr, hs, ok_bind, Bool.not_false, if_true]

theorem cwbrBody_swm (hr : rangeOperand h x y z st = .ok (lines, o)) (hs : st.th.swmOf h.toNat = true) :
    let s1 := (st.modTask st.th.task fun t => { t with
      lines := t.lines.map fun v => if v.mark = t.openMark ∧ lines.contains v.line then { v with wb := true } else v }).writeBack
      (thrDie st.me) st.th.task lines
    (s1.die (thrDie st.me)).onWay lines = false →
      cwbrBody h x y z u st = .ok { s := s1.modThread s1.me fun t => freeX t false y x.toNat, vals := [o] } := by
  intro s1 hw
  unfold cwbrBody
  rw [hr, ok_bind]
  dsimp only
  rw [hs, if_neg (by decide), if_neg (by rw [show _ = false from hw]; decide)]

theorem cinvrBody_ok (hr : rangeOperand h x y z st = .ok (lines, o)) :
    let s1 := st.writeBack (thrDie st.me) st.th.task lines
    (s1.die (thrDie st.me)).onWay lines = false →
      cinvrBody h x y z u st =
        (let s2 := s1.dropRange (thrDie st.me) lines
         .ok { s := s2.modThread s2.me fun t => freeX t false y x.toNat, vals := [o] }) := by
  intro s1 hw
  unfold cinvrBody
  rw [hr, ok_bind]
  dsimp only
  rw [if_neg (by rw [show _ = false from hw]; decide)]

end

/-- Settles O32: the line-by-line copy of PFETCH, and the range words once nothing of their range is on its way. -/
theorem prefetchTranslateAndCacheWords : Obligations.PrefetchTranslateAndCacheWords := by
  intro s c w e h x t r z y l m v st
  refine ⟨?_, fun hgo hr hx => issues_of_body hgo rfl (xlatlBody_ok hr hx) rfl, ?_⟩
  · intro hgo o hv t
    refine ⟨fun ho => issues_of_body hgo rfl (pfetchBody_outside ho) rfl, fun hs hp => ?_⟩
    intro take
    refine ⟨fun hm => ?_, fun hm => ?_⟩
    · exact issues_of_body hgo rfl (pfetchBody_inside _ hs hp (if_pos hm).symm) rfl
    · exact issues_of_body hgo rfl (pfetchBody_inside _ hs hp (if_neg (by rw [hm]; decide)).symm) rfl
  · intro lines o hr fin
    refine ⟨fun hgo => ⟨fun hs => ?_, fun hs => ?_⟩, fun hgo => ?_⟩
    · exact issues_of_body hgo rfl (cwbrBody_other hr hs) rfl
    · intro s1 hw
      exact issues_of_body hgo rfl (cwbrBody_swm hr hs hw) rfl
    · intro s1 hw
      exact issues_of_body hgo rfl (cinvrBody_ok hr hw) rfl

end Sys2Proof.Machine
end

section

/-! The words of the store engine: block stores, staging and copies, atomics. -/

namespace Sys2Proof.Machine
open Sys2Proof

/-! ## Block stores -/

section

variable {st s1 : State} {u : QUnit} {h q p : BitVec 4} {x t z k : BitVec 3} {y i : BitVec 1} {v so : W} {pa : Nat} {b : List Byte}

theorem storeRange_ok {ofs n : Nat} (hr : st.versionRoom st.me (linesOf pa n) = .ok ⟨⟩) (hl : st.spadRead st.me ofs n = .ok (s1, b)) :
    st.storeRange h.toNat ofs pa n = .ok (s1.versionWrite s1.me (s1.th.swmOf h.toNat) pa b) := by
  simp only [State.storeRange, hr, hl, ok_bind]

theorem stBody_ok (hx : rdX st st.th false x.toNat 0 = .ok v) (hpa : checkMem st.th h.toNat v.toNat (blockBytes z) rightWR 64 = .ok pa)
    (hso : rdX st st.th false t.toNat 1 = .ok so) (hc : checkSpad so.toNat (blockBytes z) 64 = .ok ⟨⟩)
    (hr : st.versionRoom st.me (linesOf pa (blockBytes z)) = .ok ⟨⟩) (hl : st.spadRead st.me so.toNat (blockBytes z) = .ok (s1, b)) :
    stBody h x y t z i u st =
      (let s2 := s1.versionWrite s1.me (s1.th.swmOf h.toNat) pa b
       .ok { s := s2.setTh (postInc (freeX s2.th false y x.toNat) false i x v.toNat (blockBytes z)), vals := [v.toNat, so.toNat],
             lines := blockBytes z / 64 }) := by
  simp only [stBody, memX_ok hx, hpa, hso, hc, storeRange_ok hr hl, ok_bind]

theorem sunlkBody_stores (hx : rdX st st.th false x.toNat 0 = .ok v)
    (hpa : checkMem st.th h.toNat v.toNat (blockBytes z) rightWR 64 = .ok pa)
    (hso : rdX st st.th false t.toNat 1 = .ok so) (hc : checkSpad so.toNat (blockBytes z) 64 = .ok ⟨⟩)
    (hr : st.versionRoom st.me (linesOf pa (blockBytes z)) = .ok ⟨⟩) (hl : st.spadRead st.me so.toNat (blockBytes z) = .ok (s1, b)) :
    sunlkBody h x y t z 0#1 i u st =
      (let s2 := s1.versionWrite s1.me (s1.th.swmOf h.toNat) pa b
       .ok { s := s2.setTh (postInc (freeX s2.th false y x.toNat) false i x v.toNat (blockBytes z)), vals := [v.toNat, so.toNat],
             locks := lockBits so.toNat (blockBytes z), lines := blockBytes z / 64 }) := by
  have h01 : ¬ (0#1 = 1#1) := by decide
  simp only [sunlkBody, memX_ok hx, hpa, hso, hc, storeRange_ok hr hl, ok_bind, if_neg h01]

theorem sunlkBody_unlocks (hx : rdX st st.th false x.toNat 0 = .ok v)
    (hpa : checkMem st.th h.toNat v.toNat (blockBytes z) rightWR 64 = .ok pa)
    (hso : rdX st st.th false t.toNat 1 = .ok so) (hc : checkSpad so.toNat (blockBytes z) 64 = .ok ⟨⟩) :
    sunlkBody h x y t z 1#1 i u st =
      .ok { s := st.setTh (postInc (freeX st.th false y x.toNat) false i x v.toNat (blockBytes z)), vals := [v.toNat, so.toNat],
            locks := lockBits so.toNat (blockBytes z) } := by
  simp only [sunlkBody, memX_ok hx, hpa, hso, hc, ok_bind, if_true]

theorem stbdBody_ok (hx : rdX st st.th false x.toNat 0 = .ok v) (hpa : checkMem st.th h.toNat v.toNat 4 rightWR 4 = .ok pa)
    (hr : st.versionRoom st.me (linesOf pa 4) = .ok ⟨⟩) :
    stbdBody h x y q u st =
      (let s2 := st.versionWrite st.me (st.th.swmOf h.toNat) pa (leBytes 4 (vget st.th.eb q.toNat 0#32).toNat)
       .ok { s := s2.setTh (freeX s2.th false y x.toNat), vals := [v.toNat, (vget st.th.eb q.toNat 0#32).toNat], lines := 1 }) := by
  simp only [stbdBody, memX_ok hx, hpa, hr, ok_bind]

theorem stxBody_ok {w wi : QHead} {r : EngRes} (hx : rdX st st.th false x.toNat 0 = .ok v) (hq : checkQ st.th q.toNat 1 = .ok w)
    (hp : checkQ st.th p.toNat 1 = .ok wi) (he : wi.esz = 2 ∨ wi.esz = 3) (hd : 2 ^ k.toNat ≤ wi.depth) (h0 : st.th.doneOf u = 0)
    (hn : (if q = p then 2 * 2 ^ k.toNat else 2 ^ k.toNat) ≤ wi.elems.length) (hh : hState (vget st.th.h h.toNat 0#64) ≠ 1)
    (hv : st.versionRoom st.me (stxLines st.th h.toNat w.ebytes v (stxOffs (q == p) (2 ^ k.toNat) wi.elems)) = .ok ⟨⟩)
    (hr : runElems u (stxElem h.toNat q.toNat p.toNat v)
      (fun t => { s := t.setTh (freeX t.th false y x.toNat), vals := [v.toNat], lines := 2 ^ k.toNat }) (2 ^ k.toNat) 0 false st = .ok r) :
    stxBody h x y q p k u st = .ok r := by
  have h1 : (wi.esz == 2 || wi.esz == 3) = true := by simpa using he
  have h2 : ¬ (st.th.doneOf u = 0 ∧ wi.elems.length < (if q = p then 2 * 2 ^ k.toNat else 2 ^ k.toNat)) := fun h => absurd h.2 (Nat.not_lt.2 hn)
  have h3 : ¬ (st.th.doneOf u = 0 ∧ hState (vget st.th.h h.toNat 0#64) = 1) := fun h => hh h.2
  simp only [stxBody, hx, hq, hp, require_of h1, require_of (decide_eq_true hd), ok_bind]
  rw [if_neg h2, if_neg h3, if_pos h0, hv, ok_bind, h0]
  exact hr

end

/-- Settles O33: each store when its checks pass and the version has room. -/
theorem blockStoreWords : Obligations.BlockStoreWords := by
  intro s c w e h q p x t z k y i v so pa st step hx
  refine ⟨fun hpa hso hc => ⟨fun s1 b hr hl => ⟨fun hgo => ?_, fun hgo => ?_⟩, fun hgo => ?_⟩, ?_,
    fun hgo b bi r hq hp he hd h0 hn hh hv hr hm => ?_⟩
  · exact issues_of_body hgo rfl (stBody_ok hx hpa hso hc hr hl) rfl
  · exact issues_of_body hgo rfl (sunlkBody_stores hx hpa hso hc hr hl) rfl
  · exact issues_of_body hgo rfl (sunlkBody_unlocks hx hpa hso hc) rfl
  · intro hgo hpa hr s1
    exact issues_of_body hgo rfl (stbdBody_ok hx hpa hr) rfl
  · exact issues_of_body hgo rfl (stxBody_ok hx hq hp he hd h0 hn hh hv hr) hm

/-! ## Staging, copies and barrier additions -/

section

variable {st s1 s2 : State} {u : QUnit} {h b : BitVec 4} {x d t k : BitVec 3} {g : BitVec 2} {y l : BitVec 1} {i : BitVec 10}
  {v so len bo : W} {pa bar : Nat}

theorem smarkBody_ok (hx : rdX st st.th false x.toNat 0 = .ok v) (hf : ∀ f ∈ st.th.flights, f.eng ≠ .store) :
    smarkBody d x l i u st =
      .ok { s := st.setTh (wrX (freeX st.th false l x.toNat) false d.toNat (v + immW u.pfx 10 i.toNat)), later := false,
            vals := [v.toNat] } := by
  have hn : (st.th.flights.any fun f => f.eng == .store) = false := by simpa [List.any_eq_false] using hf
  simp only [smarkBody, hx, hn, ok_bind, Bool.false_eq_true, if_false]

theorem spullBody_ok {slots ssize : Nat} {d0 b0 : List Byte} (hx : rdX st st.th false x.toNat 0 = .ok v)
    (hso : rdX st st.th false (2 * g.toNat) 1 = .ok so) (hlen : rdX st st.th false (2 * g.toNat + 1) 2 = .ok len)
    (hbo : rdX st st.th false k.toNat 3 = .ok bo) (hpa : checkMem st.th h.toNat v.toNat 64 (rightWR + rightAT) 64 = .ok pa)
    (hu : st.unitBytes pa 64 = .ok (s1, d0, false))
    (hr : s1.ringDesc pa (pageBytes (hPsz (vget st.th.h h.toNat 0#64)) - v.toNat) = some (slots, ssize))
    (hbar : checkMem st.th b.toNat bo.toNat 16 rightAT 16 = .ok bar) (h64 : len.toNat % 64 = 0) (h0 : len ≠ 0#64)
    (hs : len.toNat ≤ ssize * 64) (hc : checkSpad so.toNat len.toNat 64 = .ok ⟨⟩)
    (hst : s1.stagedBytes (pa / 2 ^ 37) + len.toNat ≤ 2 ^ 20) (hl : s1.spadRead s1.me so.toNat len.toNat = .ok (s2, b0)) :
    spullBody h x y g b k u st =
      (let s3 := s2.modTask s2.th.task fun t => { t with
         staged := t.staged ++ [Staged.mk pa bar len.toNat b0 t.openMark false false slots ssize st.th.gangPos] }
       .ok { s := s3.setTh (freeX s3.th false y x.toNat), vals := [v.toNat, so.toNat, len.toNat, bo.toNat] }) := by
  have h1 : (len.toNat % 64 == 0 && len != 0#64 && decide (len.toNat ≤ ssize * 64)) = true := by simp [h64, h0, hs]
  simp only [spullBody, memX_ok hx, hso, hlen, hbo, hpa, hu, hr, hbar, require_of h1, hc, gt_iff_lt, Nat.not_lt.2 hst, hl, ok_bind,
    Bool.false_eq_true, if_false]

/-- An effect that the once-only log does not hold is made now, and noted. -/
theorem onceStore_fresh {st s1 : State} {seq kind pa : Nat} {ops : List Nat} {fin : State → W → EngRes} {now : State → M (State × W)} {old : W}
    (h : st.onceAt st.me kind pa ops = .ok .fresh) (hn : now st = .ok (s1, old)) :
    onceStore st seq kind pa ops fin now = .ok (fin (s1.onceLog s1.me kind pa ops old.toNat) old) := by
  simp only [onceStore, h, ok_bind, onceNow, hn]

theorem baraddBody_ok {x0 : Nat} (hx : rdX st st.th false x.toNat 0 = .ok v) (hso : rdX st st.th false k.toNat 1 = .ok so)
    (hpa : checkMem st.th h.toNat v.toNat 16 rightAT 16 = .ok pa) (h63 : so.getLsbD 63 = false)
    (ho : st.onceAt st.me 1 pa [so.toNat] = .ok .fresh) (hp : st.atPeer (pa / 64) = false) (hr : st.atomicRead pa 16 = .ok (s1, x0)) :
    baraddBody h x y k u st =
      (let s3 := s1.barAddAt pa so.toNat
       let s4 := s3.onceLog s3.me 1 pa [so.toNat] 0
       .ok { s := s4.modThread s4.me fun t => freeX t false y x.toNat, vals := [v.toNat, so.toNat], performed := true, lines := 1 }) := by
  have hl : (!so.getLsbD 63) = true := by rw [h63, Bool.not_false]
  simp only [baraddBody, memX_ok hx, hso, hpa, requireLegal_of hl, ok_bind]
  refine (onceStore_fresh (old := 0#64) (s1 := s1.barAddAt pa so.toNat) ho ?_).trans rfl
  rw [if_neg (by rw [hp]; decide), hr]
  rfl

/-- The descriptor word of a copy: no reserved bit, an IOD code, a length. -/
theorem xcopyBody_ok {b0 : List Byte} {src dst : Nat} (hx : rdX st st.th false x.toNat 0 = .ok v)
    (hso : rdX st st.th false t.toNat 1 = .ok so) (hc : checkSpad so.toNat 32 32 = .ok ⟨⟩)
    (hbar : checkMem st.th h.toNat v.toNat 16 rightAT 16 = .ok bar) (hl : st.spadRead st.me so.toNat 32 = .ok (s1, b0)) :
    let f (n : Nat) : Nat := leNat ((b0.drop n).take 8)
    let dw := leNat (b0.drop 24)
    bits dw 53 0 = 0 → bits dw 55 54 ≠ 3 → f 16 ≠ 0 → checkMem st.th (bits dw 63 60) (leNat (b0.take 8)) (f 16) rightRD 1 = .ok src →
    checkMem st.th (bits dw 59 56) (f 8) (f 16) rightWR 1 = .ok dst →
    let io := if bits dw 55 54 = 0 then s1.autoIod dst else bits dw 55 54 - 1
    (s1.copies.filter fun c => c.iod == io).length < 1024 → s1.onceAt s1.me 2 bar [bits dw 55 54, src, dst, f 16] = .ok .fresh →
    xcopyBody h x y t u st =
      (let s3 := ({ s1 with copies := s1.copies ++ [Copy.mk io src dst (f 16) (List.range ((f 16 + 255) / 256)) bar st.th.tenant st.th.task st.th.gangPos false] } : State).modTask
         st.th.task fun t => { t with asyncOut := t.asyncOut + 1 }
       let s4 := s3.onceLog s3.me 2 bar [bits dw 55 54, src, dst, f 16] 0
       .ok { s := s4.modThread s4.me fun t => freeX t false y x.toNat, vals := [v.toNat, so.toNat], performed := true }) := by
  intro f dw h53 hiod hlen hsrc hdst io hroom ho
  have h1 : (bits dw 53 0 == 0 && bits dw 55 54 != 3 && f 16 != 0) = true := by simp [h53, hiod, hlen]
  unfold xcopyBody
  dsimp only
  rw [memX_ok hx, ok_bind]
  dsimp only
  rw [hso, ok_bind, hc, ok_bind, hbar, ok_bind, hl, ok_bind]
  dsimp only
  rw [require_of (by exact h1), ok_bind, show checkMem st.th _ _ _ rightRD 1 = .ok src from hsrc, ok_bind,
    show checkMem st.th _ _ _ rightWR 1 = .ok dst from hdst, ok_bind, if_neg (by exact Nat.not_le.2 hroom)]
  exact (onceStore_fresh (old := 0#64) ho rfl).trans rfl

end

/-- Settles O34: each word when its checks pass; XCOPY and BARADD at a fresh place of the once-only log. -/
theorem stagingCopyAndDrainWords : Obligations.StagingCopyAndDrainWords := by
  intro s c w e h b x d t k g y l i v so len bo pa bar s1 s2 st hx
  refine ⟨fun hgo hf => issues_of_body hgo rfl (smarkBody_ok hx hf) rfl, ?_, fun hgo hso hpa h63 ho hp x0 hr => ?_, ?_⟩
  · intro hgo hso hlen hbo hpa d0 slots ssize b0 hu hr hbar h64 h0 hs hc hst hl s3
    exact issues_of_body hgo rfl (spullBody_ok hx hso hlen hbo hpa hu hr hbar h64 h0 hs hc hst hl) rfl
  · exact issues_of_body hgo rfl (baraddBody_ok hx hso hpa h63 ho hp hr) rfl
  · intro hgo hso hc hbar b0 src dst hl f dw h53 hiod hlen hsrc hdst io hroom ho
    exact issues_of_body hgo rfl (xcopyBody_ok hx hso hc hbar hl h53 hiod hlen hsrc hdst hroom ho) rfl

end Sys2Proof.Machine
end

section

/-! Atomics (R335 to R337). -/

namespace Sys2Proof.Machine
open Sys2Proof

section

variable {st s1 : State} {u : QUnit} {sem : BitVec 2} {h q : BitVec 4} {x k : BitVec 3} {y r : BitVec 1} {o : W} {pa old : Nat}
  {put : W → State} {ops : List Nat} {f : W → W × Fl}

/-- The atomic's step, at a location of this module and at a peer's. -/
theorem atomic8_ok {m seq : Nat}
    (h : st.atPeer (pa / 64) = false ∧ st.atomicRead pa 8 = .ok (s1, old) ∧
        put = (fun nv => (s1.atomicWrite pa (leBytes 8 nv.toNat)).renewLine m (pa / 64)) ∨
      st.atPeer (pa / 64) = true ∧ st.peerOld m seq pa = some (s1, old) ∧ put = fun nv => s1.patchLine m pa (leBytes 8 nv.toNat)) :
    st.atomic8 m seq pa f = .ok (put (f (BitVec.ofNat 64 old)).1, BitVec.ofNat 64 old, (f (BitVec.ofNat 64 old)).2) := by
  rcases h with ⟨hp, hr, rfl⟩ | ⟨hp, hr, rfl⟩
  · simp only [State.atomic8, hp, Bool.false_eq_true, if_false, hr, ok_bind]
  · simp only [State.atomic8, hp, if_true, hr]

/-- What a completed atomic leaves: the step, its flags, its place in the once-only log, its old value sent, and the acquire of .ACQ and
.AR. -/
def atomicDone (s2 : State) (sem : BitVec 2) (x : BitVec 3) (y : BitVec 1) (q : BitVec 4) (r : BitVec 1) (k : BitVec 3) (seq pa old : Nat)
    (o : W) (ops : List Nat) (fl : Fl) : EngRes :=
  let s3 := s2.modThread s2.me fun t => { t with flags := orFlags t.flags fl }
  let s4 := s3.onceLog s3.me 0 pa ops old
  let s5 := s4.modThread s4.me fun t =>
    if r = 1#1 then (freeX t false y x.toNat).sendQ q.toNat [BitVec.ofNat 64 old] seq else freeX t false y x.toNat
  { s := if sem = 1#2 ∨ sem = 3#2 then s5.acquire s5.me k.toNat else s5, vals := o.toNat :: ops, performed := true,
    res := [(BitVec.ofNat 64 old).toNat], lines := 1 }

theorem atomicBody_ok {s0 : State} (hx : rdX st st.th false x.toNat 0 = .ok o) (hpa : checkMem st.th h.toNat o.toNat 8 rightAT 8 = .ok pa)
    (hq : r = 1#1 → checkQ st.th q.toNat 1 = .ok (vget st.th.q q.toNat QHead.unbound) ∧ (vget st.th.q q.toNat QHead.unbound).esz = 3 ∧
      (vget st.th.q q.toNat QHead.unbound).space ≠ 0)
    (hord : sem = 0#2 ∨ st.th.orderedReady u.seq = true)
    (hrel : (sem = 0#2 ∨ sem = 1#2) ∧ s0 = st ∨ (sem = 2#2 ∨ sem = 3#2) ∧ st.releaseGo .store k.toNat = .done s0)
    (hat : s0.atPeer (pa / 64) = false ∧ s0.atomicRead pa 8 = .ok (s1, old) ∧
        put = (fun nv => (s1.atomicWrite pa (leBytes 8 nv.toNat)).renewLine s0.me (pa / 64)) ∨
      s0.atPeer (pa / 64) = true ∧ s0.peerOld s0.me u.seq pa = some (s1, old) ∧
        put = fun nv => s1.patchLine s0.me pa (leBytes 8 nv.toNat))
    (hold : old < 2 ^ 64) (hf : s0.onceAt s0.me 0 pa ops = .ok .fresh) :
    atomicBody sem h x y q r k ops f u st =
      .ok (atomicDone (put (f (BitVec.ofNat 64 old)).1) sem x y q r k u.seq pa old o ops (f (BitVec.ofNat 64 old)).2) := by
  have hto : (BitVec.ofNat 64 old).toNat = old := by rw [BitVec.toNat_ofNat, Nat.mod_eq_of_lt hold]
  obtain ⟨b, hb, hesz, hsp⟩ : ∃ b, (if r = 1#1 then checkQ st.th q.toNat 1 else .ok QHead.unbound : M QHead) = .ok b ∧
      (r == 0#1 || b.esz == 3) = true ∧ ¬ (r = 1#1 ∧ b.space = 0) := by
    by_cases hr : r = 1#1
    · obtain ⟨h1, h2, h3⟩ := hq hr
      exact ⟨_, (if_pos hr).trans h1, by simp [h2], fun h => h3 h.2⟩
    · have h0 : r = 0#1 := (BitVec.eq_zero_or_eq_one r).resolve_right hr
      exact ⟨_, if_neg hr, by simp [h0], fun h => hr h.1⟩
  have hw : ¬ (sem ≠ 0#2 ∧ st.th.orderedReady u.seq = false) := by
    rintro ⟨h1, h2⟩
    rcases hord with h | h
    · exact h1 h
    · exact Bool.false_ne_true (h2.symm.trans h)
  have hgo : (if sem = 2#2 ∨ sem = 3#2 then st.releaseGo .store k.toNat else .done st) = .done s0 := by
    rcases hrel with ⟨h1, rfl⟩ | ⟨h1, h2⟩
    · rw [if_neg]
      rcases h1 with rfl | rfl <;> decide
    · rw [if_pos h1, h2]
  unfold atomicBody
  dsimp only
  rw [memX_ok hx, ok_bind]
  dsimp only
  rw [hpa, ok_bind, hb, ok_bind, requireLegal_of hesz, ok_bind, if_neg hsp, if_neg hw, hgo]
  dsimp only
  refine (onceStore_fresh hf (by rw [atomic8_ok hat]; rfl)).trans ?_
  unfold atomicDone
  rw [hto]

theorem acasBody_eq {v : BitVec 2} {a n : W} (ha : rdX st st.th false (2 * v.toNat) 1 = .ok a)
    (hn : rdX st st.th false (2 * v.toNat + 1) 2 = .ok n) : acasBody sem h x y v q r k u st =
      atomicBody sem h x y q r k [9, a.toNat, n.toNat] (fun old => (if old = a then n else old, 0#7)) u st := by
  simp only [acasBody, ha, hn, ok_bind]

theorem amoBody_eq {op : AmoOp} {v : BitVec 3} {a : W} (ha : rdX st st.th false v.toNat 1 = .ok a) : amoBody op sem h x y v q r k u st =
    atomicBody sem h x y q r k [op.code, a.toNat] (fun old => op.run old a) u st := by
  simp only [amoBody, ha, ok_bind]

end

/-- Settles O35: the atomics share one body; each gives it its operation. -/
theorem atomicWords : Obligations.AtomicWords := by
  intro s c sem w e h x y v u q r k o a n pa s0 s1 old put st hx hpa hq hord hrel hat done ov hold
  refine ⟨fun ha hn hgo hf => ?_, fun ha => ?_⟩
  · exact issues_of_body hgo rfl ((acasBody_eq ha hn).trans (atomicBody_ok hx hpa hq hord hrel hat hold hf)) rfl
  · have hop (op : AmoOp) (i : Instr) (hi : exec i s = engWord .store (wordOf i) (amoBody op sem h x y v q r k) s) :
        done i [op.code, a.toNat] (op.run ov a).1 (op.run ov a).2 := fun hgo hf =>
      issues_of_body hgo hi ((amoBody_eq ha).trans (atomicBody_ok hx hpa hq hord hrel hat hold hf)) rfl
    exact ⟨hop .add _ rfl, hop .fadd _ rfl, hop .min _ rfl, hop .max _ rfl, hop .and _ rfl, hop .or _ rfl, hop .xor _ rfl, hop .swap _ rfl⟩

end Sys2Proof.Machine
end

section

/-! The words of the matrix engine (R344 to R365). -/

namespace Sys2Proof.Machine
open Sys2Proof

/-! ## The lease and the tiles -/

section

variable {st : State} {u : QUnit}

theorem leaseBody_held (hc : st.th.claim = true) (h0 : st.th.doneOf u = 0) : leaseBody u st = .ok { s := st } := by
  unfold leaseBody
  dsimp only
  rw [if_pos (by rw [hc, h0]; rfl)]

theorem leaseBody_asks (h : st.th.claim = false ∨ st.th.doneOf u ≠ 0) :
    let s1 := (st.setTh { st.th with claim := true }).leaseWait (thrCluster st.me) (thrCore st.me % 4)
    s1.holdsLease st.me = true → leaseBody u st = .ok { s := s1.setTh (s1.th.setDone u 0) } := by
  intro s1 hl
  have hn : ¬ ((st.th.claim && decide (st.th.doneOf u = 0)) = true) := by
    rw [Bool.and_eq_true, decide_eq_true_eq]
    rintro ⟨h1, h2⟩
    rcases h with h | h
    · exact Bool.false_ne_true (h.symm.trans h1)
    · exact h h2
  unfold leaseBody
  dsimp only
  rw [if_neg hn, if_pos hl]

theorem unleaseBody_unclaimed (hc : st.th.claim = false) : unleaseBody u st = .ok { s := st } := by
  simp only [unleaseBody, hc, Bool.not_false, if_true]

theorem unleaseBody_claimed (hc : st.th.claim = true) :
    unleaseBody u st =
      (let s1 := (st.setTh { st.th with claim := false }).modCluster (thrCluster st.me) fun x =>
         { x with waitq := x.waitq &&& ~~~(1#4 <<< (thrCore st.me % 4)) }
       .ok { s := s1.leaseRotate (thrCluster st.me) }) := by
  unfold unleaseBody
  dsimp only
  rw [if_neg (by rw [hc]; decide)]

/-- A word that needs the array, whose body completes, issues under a held lease. -/
theorem arrayRuns_of_body {i : Instr} {f : QUnit → State → M EngRes} {c : Cur} {s : State} {r : EngRes}
    (hi : exec i s = engWord .matrix (wordOf i) (arrayBody f) s) (hb : f c.unit (s.issuing c) = .ok r) (hm : r.more = none) :
    ArrayRuns i c s r := by
  intro hgo hc hl t
  have ha : arrayBody f c.unit (s.issuing c) = .ok { r with s := t.leaseRotate (thrCluster s.me) } := by
    unfold arrayBody
    dsimp only
    rw [require_of (by exact hc), ok_bind, if_neg (by rw [show (s.issuing c).holdsLease (s.issuing c).me = true from hl]; decide), hb, ok_bind,
      if_neg (by rw [hm]; decide)]
    rfl
  exact issues_of_body hgo hi ha hm

theorem ownOpenTile_of {k n : Nat} (h1 : ((st.cluster (thrCluster k)).slotAt n).st = 1)
    (h2 : ((st.cluster (thrCluster k)).slotAt n).task = (st.thread k).task) : ownOpenTile st k n = .ok ⟨⟩ :=
  require_of (by rw [h1, h2]; simp)

variable {d a : BitVec 3} {l m : BitVec 1} {v : W}

theorem mtstartBody_ok (hv : rdS st st.th a.toNat 0 = .ok v) (ht : badThreshold (v.setWidth 32) = false)
    (hx : ((st.cluster (thrCluster st.me)).slotAt d.toNat).st = 0 ∨
      ((st.cluster (thrCluster st.me)).slotAt d.toNat).st = 1 ∧ ((st.cluster (thrCluster st.me)).slotAt d.toNat).task = st.th.task)
    (hh : st.mtstartHeld st.me = false) :
    mtstartBody d a l u st =
      .ok { s := mtstartOpen d a l (thrCluster st.me) (v.setWidth 32) (st.setTh { st.th with mtHold := none }), vals := [v.toNat] } := by
  have h1 : (!badThreshold (v.setWidth 32)) = true := by rw [ht]; rfl
  have h2 : (((st.cluster (thrCluster st.me)).slotAt d.toNat).st == 0 ||
      (((st.cluster (thrCluster st.me)).slotAt d.toNat).st == 1 && ((st.cluster (thrCluster st.me)).slotAt d.toNat).task == st.th.task)) = true := by
    simpa using hx
  simp only [mtstartBody, hv, require_of h1, require_of h2, hh, ok_bind, Bool.false_eq_true, if_false]

theorem msettBody_ok (hv : rdS st st.th a.toNat 0 = .ok v) (ht : badThreshold (v.setWidth 32) = false) :
    msettBody d a l u st =
      (let s1 := st.modCluster (thrCluster st.me) fun c => { c with
         ab := vset c.ab d.toNat ((vget c.ab d.toNat 0#64 &&& 0xFFFFFFFF#64) ||| BitVec.ofNat 64 (v.toNat % 2 ^ 31 * 2 ^ 32)) }
       .ok { s := s1.setTh (freeS s1.th l a.toNat), vals := [v.toNat] }) := by
  have h1 : (!badThreshold (v.setWidth 32)) = true := by rw [ht]; rfl
  have h31 : (v.setWidth 32).toNat % 2 ^ 31 = v.toNat % 2 ^ 31 := by rw [BitVec.toNat_setWidth]; omega
  simp only [msettBody, hv, require_of h1, ok_bind, h31]

/-- MXMODE once its checks have passed and no step of a replay is left: the tile is read where it turns from extended to standard. -/
theorem mxmodeBody_ok {s1 : State} (ho : ownOpenTile st st.me d.toNat = .ok ⟨⟩)
    (hp : m = 0#1 ∨ ((st.cluster (thrCluster st.me)).slotAt d.toNat).ext = true ∨
      (st.cluster (thrCluster st.me)).partnerFree d.toNat = true)
    (hn : st.replayNext st.me = .ok none)
    (hr : (if m = 0#1 ∧ ((st.cluster (thrCluster st.me)).slotAt d.toNat).ext = true then st.accRead st.me d.toNat else .ok (st, false)
      : M (State × Bool)) = .ok (s1, false)) :
    mxmodeBody d m u st =
      .ok { s := (s1.replayOver st.me).modCluster (thrCluster st.me) fun c => c.setMode d.toNat (m == 1#1) } := by
  have h1 : (m == 0#1 || ((st.cluster (thrCluster st.me)).slotAt d.toNat).ext || (st.cluster (thrCluster st.me)).partnerFree d.toNat) = true := by
    simpa [or_assoc] using hp
  unfold mxmodeBody
  dsimp only
  rw [ho, ok_bind, require_of h1, ok_bind, hn, ok_bind]
  dsimp only
  rw [hr, ok_bind]
  rfl

end

/-- Settles O36: the bodies of the words, and the words that need the array under the held lease. -/
theorem leaseAndTileWords : Obligations.LeaseAndTileWords := by
  refine ⟨?_, ?_⟩
  · intro s c w e st
    refine ⟨fun hgo => ⟨fun hc h0 => issues_of_body hgo rfl (leaseBody_held hc h0) rfl, ?_⟩,
      fun hgo => ⟨fun hc => issues_of_body hgo rfl (unleaseBody_unclaimed hc) rfl, ?_⟩⟩
    · intro h s1 hl
      exact issues_of_body hgo rfl (leaseBody_asks h hl) rfl
    · intro hc s1
      exact issues_of_body hgo rfl (unleaseBody_claimed hc) rfl
  · intro s c w e d a l m v st x
    refine ⟨fun hv ht => ⟨fun hx hh => ?_, ?_⟩, fun h1 h2 => ⟨?_, fun hn => ?_⟩, arrayRuns_of_body rfl rfl rfl⟩
    · exact arrayRuns_of_body rfl (mtstartBody_ok hv ht hx hh) rfl
    · exact arrayRuns_of_body rfl (msettBody_ok hv ht) rfl
    · exact arrayRuns_of_body rfl (by rw [mzeroBody, ownOpenTile_of (by exact h1) (by exact h2)]; rfl) rfl
    · have ho : ownOpenTile st st.me d.toNat = .ok ⟨⟩ := ownOpenTile_of h1 h2
      intro mode
      refine ⟨fun hm hp => ?_, fun hm hx => ?_, fun hm hx s1 hr => ?_⟩
      · subst hm
        exact arrayRuns_of_body rfl (mxmodeBody_ok ho (.inr hp) hn (if_neg fun h => absurd h.1 (by decide))) rfl
      · subst hm
        exact arrayRuns_of_body rfl (mxmodeBody_ok ho (.inl rfl) hn (if_neg fun h => Bool.false_ne_true (hx.symm.trans h.2))) rfl
      · subst hm
        exact arrayRuns_of_body rfl (mxmodeBody_ok ho (.inl rfl) hn ((if_pos ⟨rfl, hx⟩).trans hr)) rfl

/-! ## Products -/

/-- A step of a body that answers `a` hands it to the rest. -/
theorem bind_of_ok {α β : Type} {x : M α} {f : α → M β} {a : α} (h : x = .ok a) : (x >>= f) = f a := by
  rw [h, ok_bind]

theorem mmaBody_ok {st s1 s2 s3 : State} {u : QUnit} {acc : BitVec 3} {g : BitVec 4} {b : BitVec 9} {f k : BitVec 1} {a a2 : W} :
    let c := st.cluster (thrCluster st.me)
    let x := c.slotAt acc.toNat
    let fi := st.th.mmaIndex (f == 1#1)
    let fe := FtE.of (vget st.th.ft fi 0#32)
    let p : MmaArgs := ⟨acc.toNat, b.toNat, k == 1#1, a, a2, st.th.vc.toNat, vget st.th.ft fi 0#32, fi, vget st.th.eb g.toNat bInf⟩
    ownOpenTile st st.me acc.toNat = .ok ⟨⟩ → fe.pairing = true → rdA st st.th g.toNat 0 = .ok a →
    (if fe.sck = 0 then a2 = 0#64 else rdA st st.th ((g.toNat + 1) % 16) 1 = .ok a2) →
    holdFor st.th (if k = 1#1 then [g.toNat] else []) = .ok ⟨⟩ →
    checkOperands st.th p (fe.sck != 0) = .ok ⟨⟩ →
    st.checkSlots st.me acc.toNat fe (x.whole && !st.th.lostC)
      ((List.range fe.w).map (fun j => (b.toNat + j, false)) ++ if fe.sck = 0 then [] else [(b.toNat + fe.w, true)]) = .ok (s1, none) →
    s1.replayNext st.me = .ok none →
    s1.spadCheck st.me ((p.guard (thrCore st.me)).map fun r => (r.2.1, r.2.2 + 1 - r.2.1)) = .ok s2 →
    checkAScale fe x.kofs p.vc (s2.mmaData st.me p).sa = .ok ⟨⟩ →
    (fe.acc = true → x.ext = true ∨ c.partnerFree acc.toNat = true) →
    s2.accRead st.me acc.toNat = .ok (s3, false) →
    mmaBody acc g b f k u st =
      .ok { s := (s3.replayOver st.me).mmaApply st.me p, vals := p.vals, reads := (p.guard (thrCore st.me)).map fun r => r.2 } := by
  intro c x fi fe p ho hpair ha ha2 hh hops hslots hn hspad hsc hext hr
  have h2 : (if fe.sck = 0 then .ok 0#64 else rdA st st.th ((g.toNat + 1) % 16) 1 : M W) = .ok a2 := by
    split
    next h => rw [if_pos h] at ha2; rw [ha2]
    next h => rw [if_neg h] at ha2; exact ha2
  have h3 : (!fe.acc || x.ext || c.partnerFree acc.toNat) = true := by
    cases he : fe.acc with
    | false => rfl
    | true => simpa using hext he
  unfold mmaBody
  refine (bind_of_ok ho).trans ?_
  refine (bind_of_ok (require_of hpair)).trans ?_
  refine (bind_of_ok ha).trans ?_
  refine (bind_of_ok h2).trans ?_
  refine (bind_of_ok hh).trans ?_
  refine (bind_of_ok hops).trans ?_
  refine (bind_of_ok hslots).trans ?_
  refine (bind_of_ok hn).trans ?_
  refine (bind_of_ok hspad).trans ?_
  refine (bind_of_ok hsc).trans ?_
  refine (bind_of_ok (require_of h3)).trans ?_
  exact bind_of_ok hr

/-- Settles O37: the checks of an MMA in the order of its body. -/
theorem matrixMultiplyWords : Obligations.MatrixMultiplyWords := by
  intro s c w e acc g b f k a a2 s1 s2 s3 st x fi fe p h1 h2 hpair ha ha2 hh hops hslots hn hspad hsc hext hr
  exact arrayRuns_of_body rfl
    (mmaBody_ok (ownOpenTile_of h1 h2) hpair ha ha2 hh hops hslots hn hspad hsc hext hr) rfl

/-! ## Drains -/

theorem ite_bind_of_ok {α β : Type} {c : Prop} [Decidable c] {x y : M α} {f : α → M β} {a : α} (h : (if c then x else y) = .ok a) :
    (if c then x >>= f else y >>= f) = f a := by
  by_cases hc : c
  · rw [if_pos hc] at h ⊢
    exact bind_of_ok h
  · rw [if_neg hc] at h ⊢
    exact bind_of_ok h

theorem mdrainBody_ok {st s1 s2 : State} {u : QUnit} {acc : BitVec 3} {ad ar : BitVec 4} {r d sb : BitVec 1} {p0 p1 p2 : W} {rd : VReg}
    {rr : Option VReg} {bnd : Bool} :
    let c := st.cluster (thrCluster st.me)
    let x := c.slotAt acc.toNat
    let p := DrainP.of d r p0 p1 p2 st.th.dropSeed (FtE.of (vget st.th.ft x.lastft 0#32))
    let sw := bit p2.toNat 27
    let side := bits p2.toNat 20 0
    ownOpenTile st st.me acc.toNat = .ok ⟨⟩ → rdS st st.th (sb.toNat * 4) 0 = .ok p0 → rdS st st.th (sb.toNat * 4 + 1) 1 = .ok p1 →
    rdS st st.th (sb.toNat * 4 + 2) 2 = .ok p2 → bits p2.toNat 26 21 = 0 → (p.res = true → p.rfmt ≤ 5 ∨ p.rfmt = 7) →
    drainRegion st st.th ad.toNat p.ofmt 4 = .ok rd →
    (if p.res then (∃ v, drainRegion st st.th ar.toNat p.rfmt 5 = .ok v ∧ rr = some v) ∧ holdFor st.th [ar.toNat] = .ok ⟨⟩ else rr = none) →
    (sw = true → checkSpad side 4 4 = .ok ⟨⟩) → st.replayNext st.me = .ok none →
    st.accRead st.me acc.toNat = .ok (s1, false) → c.chkMismatch acc.toNat = none →
    boundTest st.th.boundCtl x (c.partnerFree acc.toNat) (vget c.ab acc.toNat 0#64) = .goOn bnd →
    drainOut ((s1.replayOver st.me).setTh ((s1.replayOver st.me).th.setDone u 0)) st.me acc.toNat p rd rr sw side bnd = .ok s2 →
    mdrainBody acc ad ar r d sb u st =
      .ok { s := s2, vals := drainVals p0 p1 p2 rd rr, reads := rd.bytes ++ sideBytes sw side ++ (rr.map VReg.bytes).getD []
            writes := hullBytes rd.offs rd.p.e ++ sideBytes sw side } := by
  intro c x p sw side ho h0 h1 h2 hbits hfmt hrd hrr hside hn hr hchk hbt hout
  have hl1 : (bits p2.toNat 26 21 == 0) = true := beq_iff_eq.2 hbits
  have hl2 : (!p.res || decide (p.rfmt ≤ 5 ∨ p.rfmt = 7)) = true := by
    cases he : p.res with
    | false => rfl
    | true => exact decide_eq_true (hfmt he)
  have hres : (if p.res then do
      let v ← drainRegion st st.th ar.toNat p.rfmt 5
      holdFor st.th [ar.toNat]
      .ok (some v) else .ok none : M (Option VReg)) = .ok rr := by
    split
    next h =>
      rw [if_pos h] at hrr
      obtain ⟨⟨v, hv, rfl⟩, hh⟩ := hrr
      rw [hv, ok_bind, hh, ok_bind]
    next h =>
      rw [if_neg h] at hrr
      rw [hrr]
  have hsw : (if sw then checkSpad side 4 4 else .ok ⟨⟩ : M PUnit) = .ok ⟨⟩ := by
    split
    next h => exact hside h
    · rfl
  unfold mdrainBody
  refine (bind_of_ok ho).trans ?_
  refine (bind_of_ok h0).trans ?_
  refine (bind_of_ok h1).trans ?_
  refine (bind_of_ok h2).trans ?_
  refine (bind_of_ok (requireLegal_of hl1)).trans ?_
  refine (bind_of_ok (requireLegal_of hl2)).trans ?_
  refine (bind_of_ok hrd).trans ?_
  refine (bind_of_ok hres).trans ?_
  refine (ite_bind_of_ok hsw).trans ?_
  refine (bind_of_ok hn).trans ?_
  refine (bind_of_ok hr).trans ?_
  dsimp only
  rw [if_neg (by decide), hchk]
  dsimp only
  rw [show boundTest _ _ _ _ = .goOn bnd from hbt]
  exact bind_of_ok hout

/-- A bound is above the threshold when it compares greater. -/
theorem boundTest_within {ctl : W32} {x : AccSlot} {free : Bool} {ab : W}
    (h : (f32 (BitVec.ofNat 32 ab.toNat)).cmp (f32 (BitVec.ofNat 32 (ab.toNat / 2 ^ 32))) ≠ .gt) : boundTest ctl x free ab = .goOn false := by
  simp only [boundTest, ne_eq, h, not_false_eq_true, if_true]

theorem boundTest_above {ctl : W32} {x : AccSlot} {free : Bool} {ab : W}
    (h : (f32 (BitVec.ofNat 32 ab.toNat)).cmp (f32 (BitVec.ofNat 32 (ab.toNat / 2 ^ 32))) = .gt) :
    (ctl.toNat % 4 = 0 → boundTest ctl x free ab = .goOn true) ∧ (ctl.toNat % 4 = 2 → boundTest ctl x free ab = .trap 0) ∧
      (ctl.toNat % 4 = 1 → boundTest ctl x free ab =
        if x.ext then if bit ctl.toNat 2 then .trap 2 else .goOn true
        else if !x.whole then .trap 1 else if !free then .trap 3 else .reissue) := by
  refine ⟨fun hc => ?_, fun hc => ?_, fun hc => ?_⟩ <;> simp only [boundTest, h, hc, ne_eq, not_true_eq_false, if_false]

/-- Settles O38: the checks of a drain in the order of its body, and the bound test mode by mode. -/
theorem drainWords : Obligations.DrainWords := by
  refine ⟨?_, ?_⟩
  · intro s c w e acc ad ar r d sb p0 p1 p2 rd rr s1 s2 bnd st cl x p hx1 hx2 h0 h1 h2 hbits hfmt hrd hrr hside hn hr hchk hbt sw side hout
    exact arrayRuns_of_body rfl
      (mdrainBody_ok (ownOpenTile_of hx1 hx2) h0 h1 h2 hbits hfmt hrd hrr hside hn hr hchk hbt hout) rfl
  · intro ctl x free ab thr bnd
    refine ⟨boundTest_within, fun h => ?_⟩
    obtain ⟨h0, h2, h1⟩ := boundTest_above (ctl := ctl) (x := x) (free := free) h
    refine ⟨h0, h2, fun hc => ⟨fun he => ?_, fun he hw => ?_, fun he hw hf => ?_, fun he hw hf => ?_⟩⟩ <;> rw [h1 hc, he]
    · rfl
    · rw [hw]; rfl
    · rw [hw, hf]; rfl
    · rw [hw, hf]; rfl

/-! ## The format table and boarding -/

section

variable {st : State} {u : QUnit} {d : BitVec 4} {a : BitVec 3} {l : BitVec 1} {b : BitVec 9} {v : W}

theorem mfteBody_ok (hv : rdS st st.th a.toNat 0 = .ok v) (hl : ftLegal (v.toNat % 2 ^ 32) = true) :
    mfteBody d a l u st =
      .ok { s := st.setTh (freeS { st.th with ft := vset st.th.ft d.toNat (BitVec.ofNat 32 (v.toNat % 2 ^ 32 / 4096 * 4096)) } l a.toNat),
            vals := [v.toNat] } := by
  simp only [mfteBody, hv, require_of hl, ok_bind]

theorem boardBody_ok (hv : rdS st st.th a.toNat 0 = .ok v) (hl : (BSub.of v b.toNat st.th.task st.th.gangPos).legal v = true)
    (hf : ∀ j ∈ (BSub.of v b.toNat st.th.task st.th.gangPos).slots, ((st.cluster (thrCluster st.me)).bslot j.2.1).st = 0)
    (hn : (st.cluster (thrCluster st.me)).subs.length < 64) :
    boardBody a b u st =
      .ok { s := st.armSub (thrCluster st.me) st.th.tenant (BSub.of v b.toNat st.th.task st.th.gangPos), vals := [v.toNat] } := by
  have hnone : ((BSub.of v b.toNat st.th.task st.th.gangPos).slots.find? fun e => ((st.cluster (thrCluster st.me)).bslot e.2.1).st != 0) = none := by
    rw [List.find?_eq_none]
    intro j hj
    rw [hf j hj]
    decide
  simp only [boardBody, hv, require_of hl, hnone, require_of (decide_eq_true hn), ok_bind]

theorem boardStatBody_over {wait : Bool} (h : wait = true →
      (st.boardStat (thrCluster st.me) st.th.tenant b.toNat).valid = false ∨
      (st.boardStat (thrCluster st.me) st.th.tenant b.toNat).full + (st.boardStat (thrCluster st.me) st.th.tenant b.toNat).pois =
        (st.boardStat (thrCluster st.me) st.th.tenant b.toNat).nt ∨
      (st.boardStat (thrCluster st.me) st.th.tenant b.toNat).absent = true) :
    boardStatBody wait a b u st =
      .ok { s := st.setTh (wrS st.th a.toNat (st.boardStat (thrCluster st.me) st.th.tenant b.toNat).word) } := by
  unfold boardStatBody
  dsimp only
  generalize st.boardStat (thrCluster st.me) st.th.tenant b.toNat = x at h ⊢
  have hn : (wait && x.valid && x.full + x.pois != x.nt && !x.absent) = false := by
    cases wait with
    | false => rfl
    | true =>
      rcases h rfl with h | h | h
      · simp [h]
      · simp [h]
      · simp [h]
  rw [hn]
  rfl

theorem bdropBody_none (h : (st.cluster (thrCluster st.me)).subs.find? (fun y => y.slot == b.toNat) = none) :
    bdropBody b u st = .ok { s := st } := by
  simp only [bdropBody, h]

theorem bdropBody_own {y : BSub} (h : (st.cluster (thrCluster st.me)).subs.find? (fun y => y.slot == b.toNat) = some y)
    (ht : y.task = st.th.task) (hp : y.pos = st.th.gangPos) :
    bdropBody b u st =
      (let slots := y.slots.map fun j => j.2.1
       .ok { s := st.modCluster (thrCluster st.me) fun c => { c.slotsLeft slots with
         subs := c.subs.filter fun z => z.slot != y.slot
         bst := c.bst.filter fun j => !slots.contains j.1 } }) := by
  have h1 : (y.task == st.th.task && y.pos == st.th.gangPos) = true := by simp [ht, hp]
  simp only [bdropBody, h, require_of h1, ok_bind]

end

/-- Settles O39: the bodies of the words. -/
theorem formatAndBoardingWords : Obligations.FormatAndBoardingWords := by
  intro s c w e d a l k b v st cl x
  refine ⟨fun hv => ⟨fun hgo hl => issues_of_body hgo rfl (mfteBody_ok hv hl) rfl, ?_⟩, fun hgo => issues_of_body hgo rfl rfl rfl,
    fun hgo => issues_of_body hgo rfl (boardStatBody_over nofun) rfl, fun hgo h => issues_of_body hgo rfl (boardStatBody_over fun _ => h) rfl,
    fun hgo => ⟨fun h => issues_of_body hgo rfl (bdropBody_none h) rfl, ?_⟩⟩
  · intro hgo y hl hf hn
    exact issues_of_body hgo rfl (boardBody_ok hv hl hf hn) rfl
  · intro y h ht hp slots
    exact issues_of_body hgo rfl (bdropBody_own h ht hp) rfl

end Sys2Proof.Machine
end

section

/-! The words of the vector and special-function engines (R371 to R390). -/

namespace Sys2Proof.Machine
open Sys2Proof

/-! ## Set-up words -/

section

variable {st s1 : State} {u : QUnit} {d r : BitVec 4} {a : BitVec 3} {l z q : BitVec 1} {i : BitVec 10} {m y : BitVec 2} {v x : W}

theorem vsetcBody_ok (h0 : immU u.pfx 10 i.toNat ≠ 0) (hn : immU u.pfx 10 i.toNat ≤ 65535) :
    vsetcBody i u st = .ok { s := st.setTh { st.th with vc := BitVec.ofNat 16 (immU u.pfx 10 i.toNat) } } := by
  have hl : (immU u.pfx 10 i.toNat != 0 && decide (immU u.pfx 10 i.toNat ≤ 65535)) = true := by simp [h0, hn]
  simp only [vsetcBody, require_of hl, ok_bind]

theorem asetBody_ok (hv : rdS st st.th a.toNat 0 = .ok v) (hb : bits v.toNat 23 21 = 0) :
    asetBody d a l z u st =
      (let t := wrA (freeS st.th l a.toNat) d.toNat v
       .ok { s := st.setTh { t with eb := vset t.eb d.toNat (if z = 1#1 then 0#32 else bInf) }, vals := [v.toNat] }) := by
  simp only [asetBody, hv, require_of (beq_iff_eq.2 hb), ok_bind]

theorem amodBody_ok (hv : rdS st st.th a.toNat 0 = .ok v) (h1 : bits v.toNat 47 32 = 0) (h2 : bits v.toNat 30 27 = 0) :
    amodBody d a l u st = .ok { s := st.setTh (wrM (freeS st.th l a.toNat) d.toNat (v &&& 0x87FFFFFF#64)), vals := [v.toNat] } := by
  have hl : (bits v.toNat 47 32 == 0 && bits v.toNat 30 27 == 0) = true := by simp [h1, h2]
  simp only [amodBody, hv, require_of hl, ok_bind]

/-- A region pair copied within the scratchpad; the bound goes with another destination. -/
theorem copyPair_ok {n : Int} (hv : rdA st st.th r.toNat 0 = .ok v) (hx : rdM st st.th r.toNat 1 = .ok x)
    (h0 : 0 ≤ ((Rgn.of v).base : Int) + n) (h1 : ((Rgn.of v).base : Int) + n < 2 ^ 21) :
    copyPair d.toNat r.toNat l n st =
      (let b := (((Rgn.of v).base : Int) + n).toNat
       let t := wrM (wrA (freeA st.th l r.toNat) d.toNat ((v &&& ~~~0x1FFFFF#64) ||| BitVec.ofNat 64 b)) d.toNat x
       .ok { s := st.setTh (if d = r then t else { t with eb := vset t.eb d.toNat bInf }), vals := [v.toNat, x.toNat] }) := by
  have hl : decide (0 ≤ ((Rgn.of v).base : Int) + n ∧ ((Rgn.of v).base : Int) + n < 2 ^ 21) = true := decide_eq_true ⟨h0, h1⟩
  simp only [copyPair, hv, hx, require_of hl, ok_bind, BitVec.toNat_inj]

theorem amovBody_pair (hm : m = 0#2) : amovBody d r l m u st = copyPair d.toNat r.toNat l 0 st := by
  simp only [amovBody, hm, if_true]

theorem amovBody_read (hm : m ≠ 0#2) (hv : (if m = 1#2 then rdA st st.th r.toNat 0 else rdM st st.th r.toNat 0) = .ok v) :
    amovBody d r l m u st = .ok { s := st.setTh (wrS (freeA st.th l r.toNat) d.toNat v), vals := [v.toNat] } := by
  simp only [amovBody, if_neg hm, hv, ok_bind]

theorem vmovsBody_toRegion {w : VReg} (hv : rdS st st.th r.toNat 0 = .ok v)
    (hw : readReg st st.th d.toNat { n := 1, e := sizeBytes y, nib := false } 0#1 1 = .ok w) :
    vmovsBody d r l q 1#1 y u st =
      (let s1 := st.writeElems { n := 1, e := sizeBytes y, nib := false } w.offs [v.toNat]
       let t := freeS s1.th l r.toNat
       .ok { s := s1.setTh { t with eb := vset t.eb d.toNat bInf }, vals := [v.toNat, w.a.toNat], reads := w.bytes
             writes := hullBytes w.offs (sizeBytes y) }) := by
  simp only [vmovsBody, hv, hw, ok_bind, if_true]

theorem vmovsBody_ofQueue {b : W} {h : List W} (hq : checkVQ st.th r.toNat 1 (sizeBytes y) = .ok ⟨⟩)
    (hp : st.popQ st.me r.toNat 1 = .ok (s1, b :: h)) :
    vmovsBody d r l 1#1 0#1 y u st = .ok { s := s1.setTh (wrS s1.th d.toNat b), vals := b.toNat :: h.map (·.toNat) } := by
  have h01 : ¬ (0#1 = 1#1) := by decide
  simp only [vmovsBody, if_neg h01, if_true, hq, hp, ok_bind, List.head?_cons, Option.getD_some, List.map_cons]

theorem vmovsBody_ofRegion {b : Nat} {h : List Nat} {w : VReg}
    (hw : readReg st st.th r.toNat { n := 1, e := sizeBytes y, nib := false } 0#1 1 = .ok w)
    (hp : st.readElems w.offs { n := 1, e := sizeBytes y, nib := false } = .ok (s1, b :: h)) :
    vmovsBody d r l 0#1 0#1 y u st =
      .ok { s := s1.setTh (wrS (freeA s1.th l r.toNat) d.toNat (BitVec.ofNat 64 b)), vals := [w.a.toNat], reads := w.bytes } := by
  have h01 : ¬ (0#1 = 1#1) := by decide
  simp only [vmovsBody, if_neg h01, hw, hp, ok_bind, List.head?_cons, Option.getD_some]

end

/-- Settles O40: the bodies of the words; ASTEP and AMOV of a pair share the copy. -/
theorem regionSetupWords : Obligations.RegionSetupWords := by
  intro s c w e d r a l z q i m y v u st pair sp
  refine ⟨fun hgo h0 hn => issues_of_body hgo rfl (vsetcBody_ok h0 hn) rfl, fun hv => ⟨fun hgo hb => ?_, fun hgo h1 h2 => ?_⟩, fun hgo => ?_,
    fun hgo => ⟨fun hm => ?_, fun hm hv => issues_of_body hgo rfl (amovBody_read hm hv) rfl⟩, fun hgo hv x hw => ?_, fun hgo hq s1 b h hp => ?_,
    fun hgo x s1 b h hw hp => ?_⟩
  · exact issues_of_body hgo rfl (asetBody_ok hv hb) rfl
  · exact issues_of_body hgo rfl (amodBody_ok hv h1 h2) rfl
  · intro hv hx h0 h1 b t
    exact issues_of_body hgo rfl (copyPair_ok hv hx h0 h1) rfl
  · intro hv hx h0 h1 b t
    exact issues_of_body hgo rfl ((amovBody_pair hm).trans (copyPair_ok hv hx h0 h1)) rfl
  · exact issues_of_body hgo rfl (vmovsBody_toRegion hv hw) rfl
  · exact issues_of_body hgo rfl (vmovsBody_ofQueue hq hp) rfl
  · exact issues_of_body hgo rfl (vmovsBody_ofRegion hw hp) rfl

/-! ## Words that run element by element -/

/-- A word whose body runs `v` element by element issues with what its elements give. -/
theorem vecRuns_of_body {i : Instr} {eng : Eng} {body : QUnit → State → M EngRes} {c : Cur} {s : State} {v : VWord} {f : VIn → List Nat × Fl}
    {bnd : VIn → List Nat → Fl → W32} (hi : exec i s = engWord eng (wordOf i) body s)
    (hb : body c.unit (s.issuing c) = vecRun v f bnd (s.issuing c)) : VecRuns i eng c s v f bnd := by
  intro o t x hgo ho hr r
  refine issues_of_body hgo hi (hb.trans ?_) rfl
  rw [vecRun, ho, ok_bind, hr, ok_bind]

theorem vsclBody_eq {st : State} {u : QUnit} {d a : BitVec 4} {l m k p q : BitVec 1} {t : BitVec 3} {x : W}
    (hx : rdS st st.th t.toNat 6 = .ok x) :
    vsclBody d a l t m k p q u st =
      vecRun { d := d.toNat, dp := st.th.span 4, s1 := src1 a q l (st.th.span 4), b := k, u := p, post := fun y => freeS y m t.toNat
               sv := [(x.extractLsb' 0 32).toNat] }
        (fun i => map32 (fun y => mul32 st.th.rmode y (x.extractLsb' 0 32)) i.x1)
        (fun i r _ => unlessNaN r (bAdd (bMul i.e1 (f32 (x.extractLsb' 0 32)).abs) (uOf st.th.rmode r))) st := by
  simp only [vsclBody, hx, ok_bind]

/-- Settles O41: the FP32 words share three bodies, each given its operation. -/
theorem floatElementWords : Obligations.FloatElementWords := by
  intro s c w e d a l b m k p q v t x md sp two one
  exact ⟨vecRuns_of_body rfl rfl, vecRuns_of_body rfl rfl, vecRuns_of_body rfl rfl, vecRuns_of_body rfl rfl, vecRuns_of_body rfl rfl,
    vecRuns_of_body rfl rfl, vecRuns_of_body rfl rfl, vecRuns_of_body rfl rfl, vecRuns_of_body rfl rfl, vecRuns_of_body rfl rfl,
    fun hx => vecRuns_of_body rfl (vsclBody_eq hx)⟩

/-! ## Integer and bitwise words -/

theorem vintBody_eq {op : VInt} {st : State} {u : QUnit} {d a b : BitVec 4} {l m k p q byte : BitVec 1} {sat : Bool} {n : Nat}
    (hn : (if byte = 1#1 then 1 else 4) = n) :
    vintBody op d a l b m k p q byte sat u st =
      vecRun { d := d.toNat, dp := st.th.span n, s1 := src1 a q l (st.th.span n), s2 := .region b.toNat m (st.th.span n), b := k, u := p }
        (fun i => collect (List.zipWith (op.run (8 * n) sat) i.x1 i.x2)) (fun i _ fl => op.bound (8 * n) i fl) st := by
  subst hn
  rfl

/-- The high bit of the variant chooses bytes. -/
theorem byte_variant (v : BitVec 2) : (if v.extractLsb' 1 1 = 1#1 then 1 else 4) = if v.getLsbD 1 then 1 else 4 := by
  revert v
  decide

theorem wrap_sext {n x : Nat} (hx : x < 2 ^ n) : (sext n x % (2 ^ n : Int)).toNat = x := by
  have hc : ((x % 2 ^ n : Nat) : Int) = (x : Int) := by rw [Nat.mod_eq_of_lt hx]
  have hb : (x : Int) < 2 ^ n := by exact_mod_cast hx
  have h0 : ((x : Int) % 2 ^ n).toNat = x := by rw [Int.emod_eq_of_lt (Int.natCast_nonneg x) hb, Int.toNat_natCast]
  unfold sext
  push_cast at hc ⊢
  split
  · rw [hc]
    exact h0
  · rw [hc, Int.sub_emod_right]
    exact h0

section

variable {n x y : Nat} {sat : Bool}

/-- What the three arithmetic operations make of an exact result `v`. -/
theorem arith_run {op : VInt} {v : Int}
    (hrun : op.run n sat x y = if sat ∧ v < -(2 ^ (n - 1) : Int) then (2 ^ (n - 1), flSAT)
      else if sat ∧ (2 ^ (n - 1) : Int) ≤ v then (2 ^ (n - 1) - 1, flSAT) else ((v % (2 ^ n : Int)).toNat, 0#7)) :
    (sat = false ∨ decide (v < -(2 ^ (n - 1)) ∨ 2 ^ (n - 1) ≤ v) = false → op.run n sat x y = ((v % 2 ^ n).toNat, 0#7)) ∧
      (sat = true → v < -(2 ^ (n - 1)) → op.run n sat x y = (2 ^ (n - 1), flSAT)) ∧
      (sat = true → 2 ^ (n - 1) ≤ v → op.run n sat x y = (2 ^ (n - 1) - 1, flSAT)) := by
  have hpos : (0 : Int) < 2 ^ (n - 1) := by positivity
  refine ⟨fun h => ?_, fun hs hv => ?_, fun hs hv => ?_⟩ <;> rw [hrun]
  · rw [if_neg, if_neg]
    · rintro ⟨hs, hv⟩
      rcases h with h | h
      · exact Bool.false_ne_true (h.symm.trans hs)
      · exact of_decide_eq_false h (.inr hv)
    · rintro ⟨hs, hv⟩
      rcases h with h | h
      · exact Bool.false_ne_true (h.symm.trans hs)
      · exact of_decide_eq_false h (.inl hv)
  · rw [if_pos ⟨hs, hv⟩]
  · rw [if_neg (fun h => by linarith [h.2]), if_pos ⟨hs, hv⟩]

theorem run_min (hx : x < 2 ^ n) (hy : y < 2 ^ n) : VInt.run .min n sat x y = (if sext n x ≤ sext n y then x else y, 0#7) := by
  simp only [VInt.run]
  split
  · rw [wrap_sext hx]
  · rw [wrap_sext hy]

theorem run_max (hx : x < 2 ^ n) (hy : y < 2 ^ n) : VInt.run .max n sat x y = (if sext n x ≤ sext n y then y else x, 0#7) := by
  simp only [VInt.run]
  split
  · rw [wrap_sext hy]
  · rw [wrap_sext hx]

theorem run_shl : VInt.run .shl n sat x y = (if n ≤ y then 0 else x * 2 ^ y % 2 ^ n, 0#7) := by
  simp only [VInt.run, ge_iff_le, Nat.shiftLeft_eq]

theorem run_shr (hx : x < 2 ^ n) : VInt.run .shr n sat x y = (x / 2 ^ y, 0#7) := by
  simp only [VInt.run, ge_iff_le, Nat.shiftRight_eq_div_pow]
  split
  next h => rw [Nat.div_eq_of_lt (hx.trans_le (Nat.pow_le_pow_right (by decide) h))]
  · rfl

theorem run_sar : VInt.run .sar n sat x y = ((sext n x / 2 ^ (if y ≤ n then y else n) % 2 ^ n).toNat, 0#7) := by
  simp only [VInt.run, Int.shiftRight_eq_div_pow]
  norm_cast

end

/-- Settles O42: one body for the words; what each operation makes of two elements. -/
theorem integerElementWords : Obligations.IntegerElementWords := by
  refine ⟨?_, ?_⟩
  · intro s c w e d a l b m k p q v y sp two runs nv ny
    have hv (op : VInt) := vintBody_eq (op := op) (st := s.issuing c) (u := c.unit) (d := d) (a := a) (b := b) (l := l) (m := m) (k := k)
      (p := p) (q := q) (sat := v.getLsbD 0) (byte_variant v)
    exact ⟨vecRuns_of_body rfl (hv _), vecRuns_of_body rfl (hv _), vecRuns_of_body rfl (hv _), vecRuns_of_body rfl (hv _),
      vecRuns_of_body rfl (hv _), vecRuns_of_body rfl (vintBody_eq rfl), vecRuns_of_body rfl (vintBody_eq rfl),
      vecRuns_of_body rfl (vintBody_eq rfl), vecRuns_of_body rfl (vintBody_eq rfl), vecRuns_of_body rfl (vintBody_eq rfl),
      vecRuns_of_body rfl (vintBody_eq rfl)⟩
  · intro n x y sat hn hx hy wraps out arith a b
    exact ⟨arith_run rfl, arith_run rfl, arith_run rfl, run_min hx hy, run_max hx hy, rfl, rfl, rfl, run_shl, run_shr hx, run_sar⟩

end Sys2Proof.Machine
end

section

/-! Reductions, conversions, random words, data movement and special functions (R380 to R390). -/

namespace Sys2Proof.Machine
open Sys2Proof

section

variable {st : State} {u : QUnit} {d a : BitVec 4} {l m k p q v : BitVec 1} {p0 p1 : W}

theorem cvBody_eq {op : VCv} {b : BitVec 2} {x : CvPar} (h0 : rdS st st.th (2 * b.toNat) 6 = .ok p0)
    (h1 : rdS st st.th (2 * b.toNat + 1) 7 = .ok p1)
    (hx : op.par p0.toNat p1.toNat (st.th.roundMode.toNat % 8) (q == 1#1) = some x) :
    cvBody op d a l b m k p q u st =
      vecRun { d := d.toNat, dp := Span.ofFmt st.th.n x.df, s1 := src1 a q l (Span.ofFmt st.th.n x.sf), b := k, u := p
               post := fun y => freeS y m (2 * b.toNat), sv := [p0.toNat, p1.toNat] }
        (fun i => op.elems x st.th.dropSeed.toNat i.x1) (fun i _ fl => op.bound x i.x1 i.e1 fl) st := by
  simp only [cvBody, h0, h1, ok_bind, hx]

theorem vdropBody_eq {b : BitVec 2} (h0 : rdS st st.th (2 * b.toNat) 6 = .ok p0) (h1 : rdS st st.th (2 * b.toNat + 1) 7 = .ok p1) :
    vdropBody d a l b m k p q u st =
      vecRun { d := d.toNat, dp := st.th.span 4, s1 := src1 a q l (st.th.span 4), b := k, u := p, post := fun y => freeS y m (2 * b.toNat)
               sv := [p0.toNat, p1.toNat] }
        (fun i => collect (i.x1.zipIdx.map fun x =>
          let r := dropElem st.th.dropSeed.toNat (bits p1.toNat 63 32) (bits p1.toNat 31 0) x.2 (bits p0.toNat 63 32) (p0.extractLsb' 0 32) (w32 x.1)
          (r.1.toNat, r.2)))
        (fun i r _ => unlessNaN r (bAdd (bMul i.e1 (f32 (p0.extractLsb' 0 32)).abs) (uOf rne r))) st := by
  simp only [vdropBody, h0, h1, ok_bind]

theorem vrandBody_eq {t : BitVec 3} (h0 : rdS st st.th t.toNat 6 = .ok p0) :
    vrandBody d t m k p v u st =
      (let draw (i : Nat) : Nat := rand32 st.th.dropSeed.toNat (bits p0.toNat 63 32) (bits p0.toNat 31 0) i
       vecRun { d := d.toNat, dp := st.th.span 4, s1 := .none, b := k, u := p, post := fun y => freeS y m t.toNat, sv := [p0.toNat] }
        (fun _ => ((List.range st.th.n).map fun i => if v = 1#1 then unitRand (draw i) else draw i, 0#7)) (fun _ _ _ => 0#32) st) := by
  simp only [vrandBody, h0, ok_bind]

end

/-- Settles O43: the reductions share one body, the conversions another. -/
theorem reductionConversionAndRandomWords : Obligations.ReductionConversionAndRandomWords := by
  refine ⟨?_, ?_⟩
  · intro s c w e d a l b m k p q v md sp word runs
    exact ⟨vecRuns_of_body rfl rfl, vecRuns_of_body rfl rfl, vecRuns_of_body rfl rfl, vecRuns_of_body rfl rfl⟩
  · intro s c w e d a l b t m k p q v p0 p1 st
    refine ⟨fun h0 h1 => ⟨fun op x hx => ?_, ?_⟩, ?_⟩
    · cases op with
      | cvt => exact vecRuns_of_body rfl (cvBody_eq h0 h1 hx)
      | qnt => exact vecRuns_of_body rfl (cvBody_eq h0 h1 hx)
      | dqnt => exact vecRuns_of_body rfl (cvBody_eq h0 h1 hx)
    · intro sp ks
      exact vecRuns_of_body rfl (vdropBody_eq h0 h1)
    · intro h0 draw
      exact vecRuns_of_body rfl (vrandBody_eq h0)

/-! ## Data movement -/

section

variable {st s1 s2 : State} {u : QUnit} {d a b : BitVec 4} {t : BitVec 3} {l m k p q : BitVec 1} {v : BitVec 2} {da dm sa sm par : W}
  {ix x : List Nat} {offs : List Int} {rd r2 : VReg}

theorem vtrnBody_ok (hh : holdFor st.th (if k = 1#1 then [a.toNat] else []) = .ok ⟨⟩) (hp : rdS st st.th t.toNat 6 = .ok par) :
    let eb := sizeBytes v
    let r := bits par.toNat 15 0
    let n := bits par.toNat 31 16
    let one : Span := { n := 1, e := eb, nib := false }
    par.toNat < 2 ^ 32 → r ≠ 0 → n ≠ 0 → r * n = st.th.n → rawReg st st.th d.toNat p 0 = .ok (da, dm) →
    checkOffs (matOffs (Rgn.of da) n r eb).flatten eb = .ok ⟨⟩ → rawReg st st.th a.toNat p 2 = .ok (sa, sm) →
    checkOffs (matOffs (Rgn.of sa) r n eb).flatten eb = .ok ⟨⟩ →
    st.readElems (matOffs (Rgn.of sa) r n eb).flatten one = .ok (s1, x) →
    vtrnBody d a l t m k p v u st =
      (let dst := (matOffs (Rgn.of da) n r eb).flatten
       let res := (List.range n).flatMap fun j => (List.range r).map fun i => x.getD (i * n + j) 0
       let r0 := moveEnd (s1.writeElems one dst res) d.toNat k p (moveBound eb res (vget st.th.eb a.toNat bInf))
         [(d.toNat, da, dm), (a.toNat, sa, sm)] fun y => freeS (freeA y l a.toNat) m t.toNat
       .ok ({ r0 with vals := r0.vals ++ [par.toNat] }.moved (matOffs (Rgn.of sa) r n eb).flatten dst eb)) := by
  intro eb r n one h32 hr hn hrn hd hcd ha hca hx
  have hl : (par.toNat / 2 ^ 32 == 0 && r != 0 && n != 0 && r * n == st.th.n) = true := by
    rw [Nat.div_eq_of_lt h32]
    simp [hr, hn, hrn]
  unfold vtrnBody
  refine (bind_of_ok hh).trans ?_
  refine (bind_of_ok hp).trans ?_
  refine (bind_of_ok (require_of hl)).trans ?_
  refine (bind_of_ok hd).trans ?_
  refine (bind_of_ok hcd).trans ?_
  refine (bind_of_ok ha).trans ?_
  refine (bind_of_ok hca).trans ?_
  exact bind_of_ok hx

theorem vgathBody_ok (hh : holdFor st.th (if k = 1#1 then [a.toNat] else []) = .ok ⟨⟩)
    (hd : readReg st st.th d.toNat (st.th.span (sizeBytes v)) p 0 = .ok rd) (ha : rawReg st st.th a.toNat p 2 = .ok (sa, sm))
    (hc : checkIndexed (Rgn.of sa) (sizeBytes v) = .ok ⟨⟩) (h2 : readReg st st.th b.toNat (st.th.span 4) p 4 = .ok r2)
    (hix : st.readElems r2.offs r2.p = .ok (s1, ix)) (ho : indexedOffs (Rgn.of sa) (sizeBytes v) ix = .ok offs)
    (hx : s1.readElems offs (st.th.span (sizeBytes v)) = .ok (s2, x)) :
    vgathBody d a l b m k p v u st =
      (let r0 := moveEnd (s2.writeElems (st.th.span (sizeBytes v)) rd.offs x) d.toNat k p (moveBound (sizeBytes v) x (vget st.th.eb a.toNat bInf))
         [(d.toNat, rd.a, rd.m), (a.toNat, sa, sm), (b.toNat, r2.a, r2.m)] fun y => freeA (freeA y l a.toNat) m b.toNat
       .ok ({ r0 with reads := r2.bytes }.moved offs rd.offs (sizeBytes v))) := by
  unfold vgathBody
  refine (bind_of_ok hh).trans ?_
  refine (bind_of_ok hd).trans ?_
  refine (bind_of_ok ha).trans ?_
  refine (bind_of_ok hc).trans ?_
  refine (bind_of_ok h2).trans ?_
  refine (bind_of_ok hix).trans ?_
  refine (bind_of_ok ho).trans ?_
  exact bind_of_ok hx

/-- The first check of a source: a queue head holds elements of its size, as many as are asked for. -/
def VSrc.check (t : Thread) : VSrc → M PUnit
  | .queue q p => checkVQ t q p.n p.e
  | _ => .ok ⟨⟩

theorem check_src1 {t : Thread} {sp : Span} (h : q = 1#1 → checkVQ t a.toNat sp.n sp.e = .ok ⟨⟩) : (src1 a q l sp).check t = .ok ⟨⟩ := by
  unfold src1
  split
  next hq => exact h hq
  · rfl

theorem vscatBody_ok {r1 : Option VReg} :
    let eb := sizeBytes v
    let sp := st.th.span eb
    let src := src1 a q l sp
    src.check st.th = .ok ⟨⟩ → rawReg st st.th d.toNat p 0 = .ok (da, dm) →
    checkIndexed (Rgn.of da) eb = .ok ⟨⟩ → src.reg st st.th p 2 = .ok r1 →
    holdFor st.th (if k = 1#1 then r1.toList.map (·.r) else []) = .ok ⟨⟩ → readReg st st.th b.toNat (st.th.span 4) p 4 = .ok r2 →
    st.readElems r2.offs r2.p = .ok (s1, ix) → indexedOffs (Rgn.of da) eb ix = .ok offs → src.read s1 r1 = .ok (s2, x) →
    vscatBody d a l b m k p q v u st =
      (let r0 := moveEnd (s2.writeElems sp offs x) d.toNat k p (moveBound eb x (src.bound st.th))
         ((d.toNat, da, dm) :: ((r1.toList.map fun r => (r.r, r.a, r.m)) ++ [(b.toNat, r2.a, r2.m)])) fun y => freeA (src.free y) m b.toNat
       .ok ({ r0 with vals := r0.vals ++ src.kept x, reads := r2.bytes ++ r1.toList.flatMap VReg.bytes }.moved [] offs eb)) := by
  intro eb sp src hq hd hc h1 hh h2 hix ho hx
  unfold vscatBody
  dsimp only
  rw [show src1 a q l (st.th.span (sizeBytes v)) = src from rfl]
  cases hs : src <;> rw [hs] at hq h1 hx
  all_goals
    refine (bind_of_ok hq).trans ?_
    refine (bind_of_ok hd).trans ?_
    refine (bind_of_ok hc).trans ?_
    refine (bind_of_ok h1).trans ?_
    refine (bind_of_ok hh).trans ?_
    refine (bind_of_ok h2).trans ?_
    refine (bind_of_ok hix).trans ?_
    refine (bind_of_ok ho).trans ?_
    exact bind_of_ok hx

end

/-- Settles O44: the checks of each word in the order of its body. -/
theorem dataMovementWords : Obligations.DataMovementWords := by
  intro s c w e d a l b t m k p q v da dm sa sm par s1 s2 ix x offs rd r2 st eb sp
  refine ⟨vecRuns_of_body rfl rfl, vecRuns_of_body rfl rfl, ?_⟩
  intro hold
  refine ⟨?_, ?_, ?_⟩
  · intro hgo hh hp r n one h32 hr hn hrn hd hcd ha hca hx dst res r0
    exact issues_of_body hgo rfl (vtrnBody_ok hh hp h32 hr hn hrn hd hcd ha hca hx) rfl
  · intro hgo hh hd ha hc h2 hix ho hx r0
    exact issues_of_body hgo rfl (vgathBody_ok hh hd ha hc h2 hix ho hx) rfl
  · intro hgo src r1 hq hd hc h1 hh h2 hix ho hx r0
    exact issues_of_body hgo rfl (vscatBody_ok (check_src1 hq) hd hc h1 hh h2 hix ho hx) rfl

/-! ## Special functions -/

/-- Settles O45: the special functions share one body, each given its function. -/
theorem specialFunctionWords : Obligations.SpecialFunctionWords := by
  intro s c w e d a l b m k p q md sp one runs
  exact ⟨vecRuns_of_body rfl rfl, vecRuns_of_body rfl rfl, vecRuns_of_body rfl rfl, vecRuns_of_body rfl rfl, vecRuns_of_body rfl rfl,
    vecRuns_of_body rfl rfl, vecRuns_of_body rfl rfl, vecRuns_of_body rfl rfl, vecRuns_of_body rfl rfl, vecRuns_of_body rfl rfl,
    vecRuns_of_body rfl rfl, vecRuns_of_body rfl rfl, vecRuns_of_body rfl rfl⟩

end Sys2Proof.Machine
end

section

/-! Events of translation, of arrivals, of images and of a thread's faults from outside its words. -/

namespace Sys2Proof.Machine
open Sys2Proof

/-- An event leaves the state that its own function gives. -/
theorem leaves_next {i : Instr} {s t u : State} (hi : exec i s = .next u) (h : u = t) : Leaves i s t := hi.trans (congrArg _ h)

/-! ## Settles, walks and requeues -/

section

variable {s s0 : State} {k n d uid : Nat}

theorem doSettle_cancelled {x : Settle} (hx : (s.thread k).settles[n]? = some x)
    (hf : ∀ y ∈ (s.thread k).settles.take n, y.h ≠ x.h) (hc : x.cancelled = true) :
    s.doSettle k n = s.setThread k { s.thread k with settles := (s.thread k).settles.eraseIdx n } := by
  have he : ((s.thread k).settles.take n).any (fun y => y.h == x.h) = false := by simpa [List.any_eq_false] using hf
  simp only [State.doSettle, hx, he, hc, Bool.false_eq_true, if_false, if_true]

/-- The thread after a settle that stands: its handle in the present and in every kept past state, and its status register. -/
def Thread.settled (t : Thread) (n : Nat) (x : Settle) (swm : Bool) : Thread :=
  let t0 : Thread := { t with settles := t.settles.eraseIdx n }
  let t1 := (t0.onSnap fun m => m.settle x swm).mapSnaps fun f m => if x.load = true ∨ x.seq < f then m.settle x swm else m
  if x.load then wrX t1 true x.st (BitVec.ofNat 64 x.status) else t1.lateG x.seq x.dead x.st (BitVec.ofNat 64 x.status)

theorem doSettle_hit {x : Settle} (hx : (s.thread k).settles[n]? = some x)
    (hf : ∀ y ∈ (s.thread k).settles.take n, y.h ≠ x.h) (hc : x.cancelled = false) (hh : x.hit.isSome = true) :
    s.doSettle k n = s.setThread k ((s.thread k).settled n x (s.pageSwm k x.va)) := by
  have he : ((s.thread k).settles.take n).any (fun y => y.h == x.h) = false := by simpa [List.any_eq_false] using hf
  obtain ⟨v, hv⟩ := Option.isSome_iff_exists.1 hh
  simp only [State.doSettle, hx, he, hc, hv, Bool.false_eq_true, if_false, Thread.settled, Bool.or_eq_true, decide_eq_true_eq]

theorem doSettle_miss {x : Settle} (hx : (s.thread k).settles[n]? = some x)
    (hf : ∀ y ∈ (s.thread k).settles.take n, y.h ≠ x.h) (hc : x.cancelled = false) (hh : x.hit = none) :
    s.doSettle k n =
      (let t2 := (s.thread k).settled n x (s.pageSwm k x.va)
       (s.setThread k t2).startWalk (thrDie k)
         ⟨k, x.seq, some x.h, hGen (vget t2.h x.h 0#64), x.va, x.rights, (s.setThread k t2).thrCtx k⟩) := by
  have he : ((s.thread k).settles.take n).any (fun y => y.h == x.h) = false := by simpa [List.any_eq_false] using hf
  simp only [State.doSettle, hx, he, hc, hh, Bool.false_eq_true, if_false, Thread.settled, Bool.or_eq_true, decide_eq_true_eq]

theorem requeueDue_due {x : Task} {u : Nat} (hx : s.taskOf uid = some x) (h5 : x.state = 5) (hu : x.requeueAt = some u) (hn : u ≤ s.now) :
    s.requeueDue uid =
      (s.modTask uid fun t => { t with state := 0, requeueAt := none, monitored := false, waitAt := s.now }).refillReady x.die := by
  simp only [State.requeueDue, hx, hu, h5, hn, and_self, if_true, State.requeue]

end

/-- Settles O46. -/
theorem translationEvents : Obligations.TranslationEvents := by
  intro s k n d uid
  refine ⟨fun x hx hf => ?_, ?_, ?_⟩
  · intro t0
    refine ⟨fun hc => leaves_next rfl (doSettle_cancelled hx hf hc), fun hc => ?_⟩
    intro swm t1 t2
    exact ⟨fun hh => leaves_next rfl (doSettle_hit hx hf hc hh), fun hh => leaves_next rfl (doSettle_miss hx hf hc hh)⟩
  · intro w s0 hw hm s1
    refine ⟨fun hh => leaves_next rfl ?_, fun h e line hh hr hl hok => leaves_next rfl ?_⟩
    · unfold State.doWalkComplete
      dsimp only
      rw [hw]
      dsimp only
      rw [hm]
      dsimp only
      generalize he : s0.setDie d _ = s2
      obtain rfl : s2 = s1 := he.symm
      rw [hh]
    · unfold State.doWalkComplete
      dsimp only
      rw [hw]
      dsimp only
      rw [hm]
      dsimp only
      generalize he : s0.setDie d _ = s2
      obtain rfl : s2 = s1 := he.symm
      rw [hh]
      dsimp only
      rw [hl]
      dsimp only
      rw [if_pos hok, if_pos hr]
  · intro x u hx h5 hu hn s1
    exact ⟨leaves_next rfl (requeueDue_due hx h5 hu hn), leaves_next rfl (requeueDue_due hx h5 hu hn)⟩

/-! ## Arrivals -/

section

variable {s s1 : State} {k n d : Nat}

theorem wordFinish_arrives {f : Flight} (hf : (s.thread k).flights[n]? = some f) (hz : s.frozen k = false)
    (hq : (s.thread k).qflights.any (fun x => x.seq == f.seq) = false)
    (hp : s.peers.any (fun p => p.thr == k && p.seq == f.seq && p.dest != 0) = false) :
    s.wordFinish k n =
      (let t := s.thread k
       let u : QUnit := { seq := f.seq, pc := 0, next := f.next, pfx := f.pfx, word := f.word, marker := false, snap := f.snap, snapN := f.snap,
                          rep := 0, n := 1, mask := 0, begun := false }
       let s1 := s.setThread k { t with
         flights := t.flights.eraseIdx n, locks := t.locks.filter fun l => !f.locks.contains l, flags := t.flags ||| f.flags }
       (((s1.finishWord k f.eng f.eng.sq u f.ts f.late).modThread k Thread.pruneHist).settleTrap k)) := by
  simp only [State.wordFinish, hf, hz, hq, hp, Bool.or_self, Bool.false_eq_true, if_false]

/-- A write-through that its home takes: a peer's is sent and stays, any other is acknowledged. -/
theorem writeThrough_arrives {w : WriteThrough} (hw : (s.die d).wts[n]? = some w)
    (hf : ((s.die d).wts.take n).any (fun v => v.line == w.line) = false) (hs : w.sent = false) (hh : s.hostHolds w.line = false)
    (h1 : s.homeWrite w.line w.dat w.mask = some s1) :
    s.writeThrough d n =
      if w.peer then s1.modDie d fun y => { y with wts := y.wts.set n { w with sent := true } }
      else (if w.poison then s1.setPoison w.line else s1).wtAcked d n w.line := by
  simp only [State.writeThrough, hw, hf, hs, hh, h1, Bool.or_self, Bool.false_eq_true, if_false]

theorem flushAck_free (hw : (s.die (thrDie k)).wts.any (fun w => (s.homeOf (w.line * 64)).isAt d) = false)
    (hp : s.peers.any (fun p => (p.kind == 1 || p.kind == 3) && peerDest p.peer == d) = false) (he : s.eth.any (·.under d) = false) :
    s.flushAck k d = s.modThread k fun t => { t with
      ph := { t.ph with acks := t.ph.acks.filter (· != d) }, phS := { t.phS with acks := t.phS.acks.filter (· != d) } } := by
  simp only [State.flushAck, hw, hp, he, Bool.or_self, Bool.false_eq_true, if_false]

section

variable {a : CtlAcc} {r : List CtlAcc}

theorem ctlPerform_store (ha : (s.thread k).ctlAcc = a :: r) (hz : s.frozen k = false) (hs : a.store = true) :
    s.ctlPerform k 0 = (s.modThread k fun x => { x with ctlAcc := r }).versionWrite k a.swm a.pa (leBytes a.n a.dat) := by
  simp only [State.ctlPerform, ha, hz, hs, ne_eq, not_true_eq_false, Bool.false_eq_true, or_self, if_false, if_true]

theorem ctlPerform_register (ha : (s.thread k).ctlAcc = a :: r) (hz : s.frozen k = false) (hs : a.store = false) (hn : a.n = 0) :
    s.ctlPerform k 0 = (s.modThread k fun x => { x with ctlAcc := r }).modThread k fun x =>
      x.lateG a.seq a.dead a.d (BitVec.ofNat 64 a.dat) := by
  simp only [State.ctlPerform, ha, hz, hs, hn, ne_eq, not_true_eq_false, Bool.false_eq_true, or_self, if_false, if_true]

theorem ctlPerform_load {l : List Byte} (ha : (s.thread k).ctlAcc = a :: r) (hz : s.frozen k = false) (hs : a.store = false) (hn : a.n ≠ 0)
    (hl : s.loadBytes k a.pa a.n a.swm = .ok (s1, l, false)) :
    s.ctlPerform k 0 = (s1.modThread k fun x => { x with ctlAcc := r }).modThread k fun x => x.lateG a.seq a.dead a.d (a.value l) := by
  simp only [State.ctlPerform, ha, hz, hs, hn, hl, ne_eq, not_true_eq_false, Bool.false_eq_true, or_self, if_false]

end

theorem barrierArrives_first {a : BarAdd} (ha : s.barAdds[n]? = some a) (hf : (s.barAdds.take n).any (fun b => b.pa == a.pa) = false)
    (hw : (s.writeAddr a.pa).isSome = true) :
    s.barrierArrives n =
      (let s1 : State := { s with barAdds := s.barAdds.eraseIdx n }
       match a.task with
       | none => s1.barrierAdd a.pa a.n
       | some uid => ((s1.mergeFlags uid a.pos a.flags).barrierAdd a.pa a.n).asyncDone uid) := by
  have hn : (s.writeAddr a.pa).isNone = false := by rw [Option.isNone_eq_false_iff]; exact hw
  simp only [State.barrierArrives, ha, hf, hn, Bool.or_self, Bool.false_eq_true, if_false] <;> rfl

theorem queueArrive_first {f : QFlight} (hf : (s.thread k).qflights[n]? = some f) (hz : s.frozen k = false)
    (hq : ((s.thread k).qflights.take n).any (fun x => x.q == f.q) = false) :
    s.queueArrive k n =
      (let t := s.thread k
       let b := vget t.q f.q QHead.unbound
       let b1 := if b.kind = 0 then b else { b with elems := b.elems ++ f.vals, flight := b.flight - f.vals.length }
       (s.setThread k { t with q := vset t.q f.q b1, qflights := t.qflights.eraseIdx n, idleUntil := none }).settleTrap k) := by
  simp only [State.queueArrive, hf, hz, hq, Bool.or_self, Bool.false_eq_true, if_false]

end

/-- Settles O47: each arrival in a core that is not frozen. -/
theorem arrivalEvents : Obligations.ArrivalEvents := by
  intro s k n d t
  refine ⟨?_, fun w s1 hw hf hs hh h1 => ⟨fun hp => ?_, fun hp => ?_⟩, fun hw hp he => leaves_next rfl (flushAck_free hw hp he), ?_, ?_, ?_⟩
  · intro f hf hz hq hp u s1
    exact leaves_next rfl (wordFinish_arrives hf hz hq hp)
  · exact leaves_next rfl ((writeThrough_arrives hw hf hs hh h1).trans (if_pos hp))
  · exact leaves_next rfl ((writeThrough_arrives hw hf hs hh h1).trans (if_neg (Bool.eq_false_iff.1 hp)))
  · intro a r ha hz gone ends
    exact ⟨fun hs => leaves_next rfl (ctlPerform_store ha hz hs), fun hs hn => leaves_next rfl (ctlPerform_register ha hz hs hn),
      fun s1 l hs hn hl => leaves_next rfl (ctlPerform_load ha hz hs hn hl)⟩
  · intro a ha hf hw s1
    have h := barrierArrives_first ha hf hw
    refine ⟨fun ht => leaves_next rfl (h.trans ?_), fun uid ht => leaves_next rfl (h.trans ?_)⟩ <;> rw [ht]
  · intro f hf hz hq b b1
    exact leaves_next rfl (queueArrive_first hf hz hq)

/-! ## Images, persist points and faults from outside -/

section

variable {s s1 : State} {k n d : Nat}

/-- What a persist point left pending does once it is due. -/
def State.takePoint (s : State) (k scope : Nat) : State :=
  (s.modThread k fun t => { t with ph := Phase.none }).persistPoint k (if scope = 1 ∧ s.holdsLease k = true then 1 else 0)

theorem takePending_atOnce {scope : Nat} (hp : (s.thread k).pendPersist = some scope) (hd : (s.thread k).pointDue s.now = true)
    (h0 : (s.thread k).ph.stage = 0) (hc : s.pointCommits k = false) (hdr : (s.thread k).drained = true)
    (hw : (s.thread k).wordsWhole = true) : s.takePending k = ({ s with focus := some k } : State).takePoint k scope := by
  have hp' : (State.thread { s with focus := some k } k).pendPersist = some scope := hp
  have hd' : (State.thread { s with focus := some k } k).pointDue s.now = true := hd
  have h0' : ((State.thread { s with focus := some k } k).ph.stage != 0) = false := bne_eq_false_iff_eq.2 h0
  have hc' : State.pointCommits { s with focus := some k } k = false := hc
  have hdr' : (State.thread { s with focus := some k } k).drained = true := hdr
  have hw' : (State.thread { s with focus := some k } k).wordsWhole = true := hw
  simp only [State.takePending, hp', hd', h0', hc', hdr', hw', Bool.not_true, Bool.or_self, Bool.and_self, Bool.false_eq_true, if_false, if_true,
    State.takePoint]

theorem takePending_committed {scope : Nat} (hp : (s.thread k).pendPersist = some scope) (hd : (s.thread k).pointDue s.now = true)
    (hc : (s.thread k).ph.stage ≠ 0 ∨ s.pointCommits k = true)
    (h1 : (({ s with focus := some k } : State).setThread k
      ((s.thread k).setPhase .ctl { (s.thread k).ph with arg2 := pointWaits })).commitGo .ctl = .done s1) :
    s.takePending k = s1.takePoint k scope := by
  have hp' : (State.thread { s with focus := some k } k).pendPersist = some scope := hp
  have hd' : (State.thread { s with focus := some k } k).pointDue s.now = true := hd
  have hc' : ((State.thread { s with focus := some k } k).ph.stage != 0 || State.pointCommits { s with focus := some k } k) = true := by
    rw [Bool.or_eq_true, bne_iff_ne]
    exact hc
  have h1' : (State.setThread { s with focus := some k } k
      ((State.thread { s with focus := some k } k).setPhase .ctl
        { (State.thread { s with focus := some k } k).ph with arg2 := pointWaits })).commitGo .ctl = .done s1 := h1
  simp only [State.takePending, hp', hd', hc', h1', Bool.not_true, Bool.false_eq_true, if_false, if_true, State.takePoint]

theorem imageComplete_begun {j : ImgJob} (hj : (s.die d).imgs[n]? = some j) (hf : (s.core j.core).freezes = 0) (hb : j.begun = true) :
    s.imageComplete d n =
      (((s.setDie d { s.die d with imgs := (s.die d).imgs.eraseIdx n }).wearImage j).imageEnds d n j).nextImage j.core := by
  simp only [State.imageComplete, hj, hf, hb, bne_self_eq_false, Bool.not_true, Bool.or_self, Bool.false_eq_true, if_false]

theorem checkerMiss_acts {w : W32} {pc : Nat} (ha : s.canAct k = true)
    (hw : (s.checkerWords k)[(s.free 5).toNat % (s.checkerWords k).length]? = some (w, pc)) :
    s.checkerMiss k =
      (let m := (s.core (thrCore k)).mismatch + 1
       let s1 := s.modCore (thrCore k) fun c => { c with mismatch := m, degraded := c.degraded || decide (m ≥ 3) }
       s1.deliver k ((wordEng w).getD .control) ⟨cSdcDetected, 1, w.toNat⟩ pc none) := by
  simp only [State.checkerMiss, hw, ha, Bool.not_true, Bool.false_eq_true, if_false]

theorem watchdogFire_ctl {w : Wait} {c : Cause} (ha : s.canAct k = true) (hp : s.waitPaused k = false)
    (hw : (s.thread k).wait .ctl = some w) (hc : (s.thread k).watchdogDue .ctl w.kind s.now = some c) :
    s.watchdogFire k = (s.setThread k { s.thread k with waitK := none, ph := Phase.none }).raiseAt k
      ((s.thread k).ctlFault (((s.wordAtPc k).bind wordEng).getD .control) c) := by
  simp only [State.watchdogFire, ha, hp, hw, hc, Option.bind_some, Bool.not_true, Bool.or_self, Bool.false_eq_true, if_false]

end

/-- Settles O48: persist points and images by their purpose, and the faults at the thread's own word. -/
theorem imageAndThreadFaultEvents : Obligations.ImageAndThreadFaultEvents := by
  refine ⟨fun s k n d => ⟨fun scope hp hd => ?_, fun j hj hf hb => ?_⟩, fun s k => ?_⟩
  · intro s0 take
    exact ⟨fun h0 hc hdr hw => leaves_next rfl (takePending_atOnce hp hd h0 hc hdr hw),
      fun s1 hc h1 => leaves_next rfl (takePending_committed hp hd hc h1)⟩
  · intro s1
    have h := imageComplete_begun hj hf hb
    have hi (hne : j.purpose ≠ 2) : exec (.imageComplete d n) s = .next (s.imageComplete d n) := by
      show execImageComplete d n s = _
      simp only [execImageComplete, hj, hne, if_false]
    refine ⟨fun hp => leaves_next (hi (by omega)) (h.trans ?_), fun hp => ?_, fun hp => leaves_next rfl ?_, fun hp => ?_, fun hp => ?_⟩
    · simp only [State.imageEnds, hp, s1]
    · intro s2 s3
      refine leaves_next (hi (by omega)) (h.trans ?_)
      simp only [State.imageEnds, hp, s1, s2, s3]
    · simp only [State.copyDone, hj, hp, if_true, h, State.imageEnds, s1]
    · intro r
      refine leaves_next (hi (by omega)) (h.trans ?_)
      simp only [State.imageEnds, hp, s1, r]
    · intro stays s2
      refine leaves_next (hi (by omega)) (h.trans ?_)
      simp only [State.imageEnds, hp]
      rfl
  · intro t
    refine ⟨fun ha => ⟨fun s1 c ht hf => ?_, ?_, fun hp w c hw hc => leaves_next rfl (watchdogFire_ctl ha hp hw hc)⟩, fun u hu hn => ?_⟩
    · show execFetchFault k s = _
      have ht' : (s.thread k).trapPend = none := ht
      simp only [execFetchFault, ha, ht', hf, Option.isSome_none, Bool.not_true, Bool.or_self, Bool.false_eq_true, if_false, t]
    · intro w pc hw m s1
      exact leaves_next rfl (checkerMiss_acts ha hw)
    · show execIdleTimeout k s = _
      have hu' : (s.thread k).idleUntil = some u := hu
      simp only [execIdleTimeout, hu', if_pos hn, t]

end Sys2Proof.Machine
end

section

/-! Events of the rings, of the lease, of launches and placement. -/

namespace Sys2Proof.Machine
open Sys2Proof

/-! ## Slot rings, the weight ring and the lease time-out -/

section

variable {s s1 : State} {k q n : Nat}

theorem loaderDeliver_fits {b : QHead} {r : RingSub} {l : List Byte} {m ahead : Nat} (hb : vget (s.thread k).q q QHead.unbound = b)
    (hs : b.sub = some r) (hr : (s.thread k).running = true) (hh : (s.thread k).halted = false) (hz : s.frozen k = false) (hk : b.kind = 2)
    (hp : s.isPoison (r.pa / 64) = false) (ha : (s.homeNat r.pa 8 + 2 ^ 64 - r.next) % 2 ^ 64 = ahead)
    (h0 : r.ofs = 0 → ahead ≠ 0 ∧ ahead < 2 ^ 63) (hm : min b.space ((r.ssize * 64 - r.ofs) / b.ebytes) = m) (hm0 : m ≠ 0)
    (hl : s.homeBytes (r.pa + 64 + r.next % r.slots * r.ssize * 64 + r.ofs) (m * b.ebytes) = .ok (s1, l, false)) :
    s.loaderDeliver k q =
      (let ofs := r.ofs + m * b.ebytes
       s1.setThread k { s.thread k with
         q := vset (s.thread k).q q { b with
           elems := b.elems ++ toElems b.esz m l
           sub := some (if ofs = r.ssize * 64 then { r with next := (r.next + 1) % 2 ^ 64, ofs := 0 } else { r with ofs := ofs }) }
         idleUntil := none }) := by
  have hready : (r.ofs != 0 || (ahead != 0 && decide (ahead < 2 ^ 63))) = true := by
    by_cases h : r.ofs = 0
    · obtain ⟨h1, h2⟩ := h0 h
      rw [bne_iff_ne.2 h1, decide_eq_true h2, Bool.and_self, Bool.or_true]
    · rw [bne_iff_ne.2 h, Bool.true_or]
  subst ha hm
  simp only [State.loaderDeliver, hb, hs, hr, hh, hz, hk, hp, hready, hm0, State.tryHome, hl, bne_self_eq_false, Bool.not_true, Bool.or_self,
    Bool.false_eq_true, if_false]

theorem storerWrite_free {uid i : Nat} {x : Staged} (hx : s.allStaged[n]? = some (uid, i, x)) (hw : x.written = false)
    (hf : (s.allStaged.take n).any (fun y => y.2.2.ring == x.ring && !y.2.2.written) = false) (hp : s.isPoison (x.ring / 64) = false) :
    let p := ((s.allStaged.filter fun y => y.2.2.ring == x.ring).filter fun y => y.2.2.written).length
    let prod := s.homeNat x.ring 8
    let cons := s.homeNat (x.ring + 8) 8
    let pa := x.ring + 64 + (prod + p) % 2 ^ 64 % x.slots * x.ssize * 64
    (prod + p + 2 ^ 64 - cons) % 2 ^ 64 < x.slots → s.canEngineWriteRange pa x.dat = true →
    s.storerWrite n =
      (let s1 := (s.engineWrite pa x.dat).modTask uid fun t => { t with staged := t.staged.set i { x with written := true } }
       s1.publish uid ((s1.taskOf uid).map (·.staged.length + 1) |>.getD 0)) := by
  intro p prod cons pa hroom hcan
  have hr : (x.written || (s.allStaged.take n).any (fun y => y.2.2.ring == x.ring && !y.2.2.written) || s.isPoison (x.ring / 64)
        || !decide ((prod + p + 2 ^ 64 - cons) % 2 ^ 64 < x.slots)) = false := by
    rw [hw, hf, hp, decide_eq_true hroom]
    rfl
  unfold State.storerWrite
  rw [hx]
  dsimp only
  rw [if_neg (by exact Bool.eq_false_iff.1 hr), if_neg (by rw [show s.canEngineWriteRange _ _ = true from hcan]; decide)]

end

section

variable {s s1 : State} {lane cl : Nat}

theorem nextLap_eq : s.nextLap =
    (let r := s.ring
     let lap := (r.lap + 1) % 2 ^ 32
     let s1 : State := { s with ring := { r with
       lap := lap, table := r.waiting <|> r.table, waiting := none, lanes := Vector.replicate 8 0, lapStart := s.now, opened := [] } }
     let s2 := s1.mapSlots fun _ b =>
       if b.st = 2 then { b with st := 1, lapArmed := lap } else if b.st = 1 ∧ r.waiting.isSome = true then { b with lapArmed := lap } else b
     if r.waiting.isSome then s2.post 0x0B 8 0 1 else s2) := rfl

theorem frameHeader_starts {e : LapEntry} {l : List Byte} {bad : Bool} (hf : vget s.ring.flying lane true = false)
    (hs : s.ring.speedWant ≠ 5) (he : (s.ring.atFrame lane).entry lane = some e) (hl : s.homeBytes e.pa e.bytes = .ok (s1, l, bad)) :
    s.frameHeader lane =
      (let r := s.ring
       let r2 := { r.atFrame lane with
         flying := vset r.flying lane true, bad := vset r.bad lane bad, layer := e.layer % 256
         opened := if r.opened.contains e.layer then r.opened else e.layer :: r.opened }
       let s2 := s1.portUse (32 + e.pa / 2 ^ 37) (e.bytes / 512)
       ({ s2 with ring := r2 } : State).mapSlots fun _ b =>
         if b.st = 1 ∧ b.matches e = true ∧ (b.reboards = 0 ∨ (r.lap + 2 ^ 32 - b.lapArmed) % 2 ^ 32 < 2 ^ 31) then b.fill e l else b) := by
  have hlane : lane < 8 := by
    by_contra hn
    rw [vget, Vector.getElem?_eq_none (by omega)] at hf
    exact Bool.false_ne_true hf.symm
  have hspeed : vget (s.ring.atFrame lane).speedTo lane 5 ≠ 5 := by
    rw [show (s.ring.atFrame lane).speedTo = vset s.ring.speedTo lane s.ring.speedWant from rfl, vget_vset_self _ _ _ _ hlane]
    exact hs
  simp only [State.frameHeader, hf, he, hspeed, State.tryHome, hl, Bool.false_eq_true, if_false]
  rfl

theorem frameEnd_ends {e : LapEntry} {badCrc badRes : Bool} (hf : vget s.ring.flying lane false = true) (he : s.ring.entry lane = some e) :
    s.frameEnd lane badCrc badRes =
      (let r := s.ring
       let poison := vget r.bad lane false
       let fails := badCrc || poison || badRes
       let s1 := s.mapSlots fun _ b =>
         if b.st = 3 ∧ b.matches e = true then if fails then { b with st := 5, dat := [], scaleBad := 0 } else { b with st := 4 } else b
       let s2 : State := { s1 with ring := { r with
         flying := vset r.flying lane false, lanes := vset r.lanes lane (vget r.lanes lane 0 + 1)
         speed := r.speedWant, speedTo := vset r.speedTo lane r.speedWant } }
       if fails then s2.frameFailed e (if badCrc then 0 else if poison then 1 else 2) else s2) := by
  simp only [State.frameEnd, hf, he, if_true]
  rfl

theorem leaseTimeout_due (hh : (s.cluster cl).leaseHeld = true) (hw : (s.cluster cl).waitq ≠ 0#4)
    (ht : (s.cluster cl).leaseAt + 160 * 65536 ≤ (s.cluster cl).cycles s.now)
    (hr : (s.thread (s.coreThr cl (s.cluster cl).holder)).tileRep = none) :
    s.leaseTimeout cl =
      (let c := s.cluster cl
       let info := (cl % 16) <<< 4 ||| c.holder
       let s1 := s.modThread (s.coreThr cl c.holder) fun t => { t with claim := false, async := t.async ++ [⟨cLeaseTimeout, 0, info⟩] }
       let s2 := s1.post 0x0C (cl / 16) ((cl % 16) <<< 8 ||| c.holder) info
       (s2.modCluster cl fun c => { c with leaseHeld := false }).leasePass cl) := by
  have hb : (!(s.cluster cl).leaseHeld || (s.cluster cl).waitq == 0#4 || decide ((s.cluster cl).cycles s.now < (s.cluster cl).leaseAt + 160 * 65536)
      || (s.thread (s.coreThr cl (s.cluster cl).holder)).tileRep.isSome) = false := by
    rw [hh, hr, beq_eq_false_iff_ne.2 hw, decide_eq_false (Nat.not_lt.2 ht)]
    rfl
  simp only [State.leaseTimeout, hb, Bool.false_eq_true, if_false]

end

/-- Settles O49: each event when its conditions hold. -/
theorem ringAndLeaseEvents : Obligations.RingAndLeaseEvents := by
  refine ⟨?_, ?_⟩
  · intro s k q n t b
    refine ⟨fun r s1 l hs hr hh hz hk hp => ?_, fun uid i x hx hw hf hp => ?_⟩
    · intro ahead h0 m hm0 hl ofs
      exact leaves_next rfl (loaderDeliver_fits rfl hs hr hh hz hk hp rfl h0 rfl hm0 hl)
    · intro p prod cons pa hroom hcan s1
      exact leaves_next rfl (storerWrite_free hx hw hf hp hroom hcan)
  · intro s lane cl badCrc badRes r
    refine ⟨fun he hs => ?_, fun e s1 l bad hf hs => ?_, fun e hf he => ?_, ?_⟩
    · intro lap s1 s2
      refine leaves_next rfl ?_
      rw [if_pos]
      · exact nextLap_eq
      · rw [he, bne_iff_ne.2 hs]
        rfl
    · intro r1 he hl r2 s2
      exact leaves_next rfl (frameHeader_starts hf hs he hl)
    · intro poison fails s1 s2
      exact leaves_next rfl (frameEnd_ends hf he)
    · intro c hh hw ht hr info s1 s2
      exact leaves_next rfl (leaseTimeout_due hh hw ht hr)

/-! ## Launches, replays and placement -/

section

variable {s s1 : State} {q n uid d core k : Nat}

theorem launchBell_queue {port tail : Nat} (hq : q < 16) : s.launchBell port q tail =
    ({ s with qPort := Tab.put q port s.qPort } : State).winPut (queueBase q + 0xFFF8) (leBytes 8 (tail % 1023)) := by
  simp only [State.launchBell, ge_iff_le, Nat.not_le.2 hq, if_false]

/-- The oldest record of a queue of a known context is taken. -/
theorem takeLaunch_known (hq : q < 16) (hh : s.winNat (queueBase q + 0xFFF0) 8 % 1023 ≠ s.winNat (queueBase q + 0xFFF8) 8 % 1023) :
    let head := s.winNat (queueBase q + 0xFFF0) 8 % 1023
    let r := LaunchRec.of (s.winBytes (queueBase q + 64 * head) 64)
    s.launchWaits r = false →
    let s1 := s.winPut (queueBase q + 0xFFF0) (leBytes 8 ((head + 1) % 1023))
    let s2 : State := if (Tab.find q s1.qBound).isNone then { s1 with qBound := Tab.put q r.ctx s1.qBound } else s1
    (Tab.find q s1.qBound = none ∨ Tab.find q s1.qBound = some r.ctx) → (Tab.find r.ctx s1.ctxs).isSome = true →
    s.takeLaunch q = s2.launch (Tab.getD s2.qPort q 0) true r := by
  intro head r hw s1 s2 hb hc
  have hn : ¬ (q ≥ 16 ∨ head = s.winNat (queueBase q + 0xFFF8) 8 % 1023 ∨ s.launchWaits r = true) := by
    rintro (h | h | h)
    · exact absurd h (Nat.not_le.2 hq)
    · exact hh h
    · exact Bool.false_ne_true (hw.symm.trans h)
  have h2 : (if ((Tab.find r.ctx s1.ctxs).isSome && (Tab.find q s1.qBound).isNone) = true then
      ({ s1 with qBound := Tab.put q r.ctx s1.qBound } : State) else s1) = s2 := by
    rw [hc, Bool.true_and]
  have h3 : ((Tab.find r.ctx s1.ctxs).isSome && Tab.find q s2.qBound == some r.ctx) = true := by
    rw [hc, Bool.true_and, beq_iff_eq]
    rcases hb with h | h
    · simp only [s2, h, Option.isNone_none, if_true]
      exact Tab.find_put_self _ _ _
    · simp only [s2, h, Option.isNone_some, Bool.false_eq_true, if_false]
  have h4 (a : State) (ha : a = s2) :
      a.launch (Tab.getD a.qPort q 0) ((Tab.find r.ctx s1.ctxs).isSome && Tab.find q a.qBound == some r.ctx) r =
        s2.launch (Tab.getD s2.qPort q 0) true r := by
    rw [ha, h3]
  unfold State.takeLaunch
  exact (if_neg hn).trans (h4 _ h2)

theorem launch_first {r : LaunchRec} {port d : Nat} {g : List Node × Nat × Nat} (hres : r.reserved = false) (hrep : r.replay = false)
    (hs : s.slot r.slot = none) (hr : r.ringOk = true) (hd : (s.ctx r.ctx).pdie r.vdie = some d) (hg : s.launchCheck r.ctx r.graph = .ok g) :
    s.launch port true r = s.firstLaunch r port d g := by
  simp only [State.launch, hres, hrep, hs, hr, hd, hg, Option.isSome_none, Bool.not_true, Bool.or_self, Bool.false_eq_true, if_false]

theorem launch_replay {r : LaunchRec} {port : Nat} {x : Slot} (hres : r.reserved = false) (hrep : r.replay = true)
    (hs : s.slot r.slot = some x) (hc : x.ctx = r.ctx) :
    s.launch port true r =
      (s.setSlot r.slot { x with replayWait := some (x.replayWait.getD none), release := x.release || r.release, port := port }).completion
        r.slot (launchIdent r.slot) 4 (nextGen x.gen) 0 0 0 0 0 0 0 port := by
  simp only [State.launch, hres, hrep, hs, hc, Bool.not_true, ne_eq, not_true_eq_false, Bool.false_eq_true, if_false, if_true]

theorem replayStart_settled {x : Slot} (hx : s.slot n = some x) (hw : x.replayWait.isSome = true) (hg : s.genDone n x = true)
    (hc : capWaits (s.captureGraph x.ctx x.graph) = false) :
    s.replayStart n =
      (let y := { x with replayWait := none }.recapture (s.captureGraph x.ctx x.graph)
       ((s.setSlot n y).startGen n (nextGen x.gen)).slotCheck n) := by
  have hn : x.replayWait.isNone = false := Option.isNone_eq_false_iff.2 hw
  simp only [State.replayStart, hx, hn, hg, hc, Bool.not_true, Bool.or_self, Bool.false_eq_true, if_false]

theorem placeOn_first {t : Task} {r : List Task} {s2 : State} (hd : (s.refillReady d).dieLive d = true)
    (hr : rankSort (((s.refillReady d).die d).ready.filterMap (s.refillReady d).taskOf) = t :: r)
    (hh : (s.refillReady d).heldBack t = false) (hp : (s.refillReady d).tryPlace t = some s2) : s.placeOn d = s2 := by
  simp only [State.placeOn, hd, hr, State.placeFirst, hh, hp, List.contains_nil, Bool.or_self, Bool.not_true, Bool.false_eq_true, if_false]

theorem placeOn_none (hd : (s.refillReady d).dieLive d = true)
    (hr : rankSort (((s.refillReady d).die d).ready.filterMap (s.refillReady d).taskOf) = []) : s.placeOn d = s.refillReady d := by
  simp only [State.placeOn, hd, hr, State.placeFirst, Bool.not_true, Bool.false_eq_true, if_false]

theorem fillDone_filled (hr : (s.thread (2 * core + (1 - (s.core core).active))).running = true) (hf : (s.core core).fill.isSome = true)
    (hd : (s.core core).filled = false) :
    s.fillDone core =
      (let s1 := s.setCore core { s.core core with filled := true }
       if s1.planeFree core (s.core core).active then s1.activate core (1 - (s.core core).active) else s1) := by
  have hn : (s.core core).fill.isNone = false := Option.isNone_eq_false_iff.2 hf
  simp only [State.fillDone, hr, hn, hd, Bool.or_self, Bool.false_eq_true, if_false, if_true]

theorem forceSave_due {since : Option Nat} {u limit : Nat} (hu : since = some u) (hl : u + limit ≤ s.now)
    (hr : (s.thread k).running = true) (hh : (s.thread k).halted = false) (hs : s.saveReady k = true) :
    s.forceSave k since limit =
      if s.isActive k then s.beginSave k (s.thread k).savePurpose .full Thread.keepRepeat else s.saveShadow k (s.thread k).savePurpose := by
  subst hu
  simp only [State.forceSave, hl, hr, hh, hs, decide_true, Bool.not_false, Bool.and_self, if_true, State.takeSave]

end

/-- Settles O50: each event when its conditions hold. -/
theorem launchAndPlacementEvents : Obligations.LaunchAndPlacementEvents := by
  refine ⟨?_, ?_⟩
  · intro s port q tail n
    refine ⟨fun hq => leaves_next rfl (launchBell_queue hq), ?_, ?_⟩
    · intro head hq hh r hw s1 s2 hb hc hres
      have ht := takeLaunch_known hq hh hw hb hc
      refine ⟨fun hrep hslot hring d g hd hg => leaves_next rfl (ht.trans (launch_first hres hrep hslot hring hd hg)), fun hrep x hx hctx => ?_⟩
      intro s3
      exact leaves_next rfl (ht.trans (launch_replay hres hrep hx hctx))
    · intro x hx hw hg hc y
      exact leaves_next rfl (replayStart_settled hx hw hg hc)
  · intro s uid d core k
    refine ⟨fun t ht h0 hr he hw => leaves_next rfl ?_, fun hd => ?_, ?_, ?_, ?_⟩
    · simp only [State.ageTask, ht, h0, hr, he, hw, ne_eq, not_false_eq_true, and_self, if_true]
    · intro s1
      exact ⟨fun t r s2 hr hh hp => leaves_next rfl (placeOn_first hd hr hh hp), fun hr => leaves_next rfl (placeOn_none hd hr)⟩
    · intro c hr hf hd s1
      exact leaves_next rfl (fillDone_filled hr hf hd)
    · intro late latest ask
      exact leaves_next rfl rfl
    · intro t hr hh hs saved
      exact ⟨fun u hu hl => leaves_next rfl (forceSave_due hu hl hr hh hs), fun u hu hl => leaves_next rfl (forceSave_due hu hl hr hh hs)⟩

end Sys2Proof.Machine
end

section

/-! Events of curves, of grades, of energy and of operating points. -/

namespace Sys2Proof.Machine
open Sys2Proof

/-! ## Curves and grades -/

section

variable {s : State} {uid : Nat}

/-- The doorbell of a curve that is there, or rung now, starts the check. -/
theorem curveDoorbell_checks {v : Nat} (h4 : s.boot.stage = 4) (hv : v = 1 ∨ s.agate.curveDoor = true) :
    exec (.curveDoorbell v) s = .next ({ s with agate := { s.agate with curveDoor := false } } : State).checkCurve := by
  show execCurveDoorbell v s = _
  have hn : ¬ (s.boot.stage ≠ 4) := not_not.2 h4
  unfold execCurveDoorbell
  rw [if_neg hn]
  by_cases h : v = 1
  · simp only [State.curveBell, h, if_true]
  · simp only [State.curveBell, h, hv.resolve_left h, if_true, if_false]

theorem dueEvent_due {c : Curve} {e : Nat × Nat × Nat} (hn : s.sched.nextEvent = some (c, e)) (ht : c.eventAt e ≤ s.now) :
    s.dueEvent e.2.2 = ({ s with sched := { s.sched with evDone := s.sched.evDone + 1 } } : State).curveAct e := by
  simp only [State.dueEvent, hn, ht, and_self, if_true]

theorem parkCopy_fits {t : Task} {base size o : Nat} (ht : s.taskOf uid = some t) (hp : s.sched.parkArea = some (base, size))
    (h3 : t.state = 3) (hr : t.parkRun = none) (hs : s.sched.suspended = false) (hl : t.resumeImages.length = t.livePos.length) :
    let r := s.versTake uid
    let lines := t.lines ++ r.2
    let n := ((t.resumeImages.map Image.size).sum + 96 * lines.length + granule - 1) / granule * granule
    freeRun (s.tasks.filterMap (·.parkRun)) size n = some o →
    s.parkCopy uid =
      (let s1 := t.onyxCores.foldl (fun s e => s.modCore e.2 fun c => if c.reserved = some uid then { c with reserved := none } else c) r.1
       let s2 := s1.modTask uid fun x => { x with
         parkRun := some (o, n), onyxCores := [], kept := t.resumeImages.map fun i => (2, i), lines := [], away := lines }
       s2.engineWrite (base + o) (parkBytes t.resumeImages lines)) := by
  intro r lines n hf
  have hn : ¬ (t.state ≠ 3 ∨ t.parkRun.isSome = true ∨ s.sched.suspended = true ∨ t.resumeImages.length ≠ t.livePos.length) := by
    rw [hr, hs]
    simp [h3, hl]
  unfold State.parkCopy
  rw [ht, hp]
  dsimp only
  rw [if_neg hn, show freeRun _ _ _ = some o from hf]

end

/-- Settles O51: each event when its conditions hold. -/
theorem curveAndGradeEvents : Obligations.CurveAndGradeEvents := by
  intro s uid
  refine ⟨fun v h4 hv => ?_, fun c hc hf => ?_, fun c e hn ht => ?_, rfl, fun h1 h2 => ?_, fun t base size o ht hp h3 hr hs hl => ?_⟩
  · intro l r s1
    refine ⟨fun h => leaves_next (curveDoorbell_checks h4 hv) ?_, fun h => ?_⟩
    · unfold State.checkCurve
      exact if_pos h
    · intro s2
      refine leaves_next (curveDoorbell_checks h4 hv) ?_
      unfold State.checkCurve
      exact if_neg (not_not.2 h)
  · refine leaves_next rfl ?_
    rw [hc]
    exact if_pos hf
  · intro s1
    have h := dueEvent_due hn ht
    refine ⟨fun ha => ?_, fun ha => leaves_next rfl ?_, fun ha => leaves_next rfl ?_⟩
    · intro s2
      rw [ha] at h
      exact leaves_next rfl (h.trans (if_pos ha))
    · rw [ha] at h
      exact h.trans ((if_neg (by omega)).trans (if_pos ha))
    · rw [ha] at h
      exact h.trans ((if_neg (by omega)).trans (if_neg (by omega)))
  · exact leaves_next rfl (if_pos ⟨h1, h2⟩)
  · intro r lines n hf s1 s2
    exact leaves_next rfl (parkCopy_fits ht hp h3 hr hs hl hf)

/-! ## Energy, permits and operating points -/

/-- A counter that the window holds is read outside minimal mode. -/
theorem energyReads {s : State} {n i : Nat} (hi : energyIndex n = some i) (hm : s.boot.minimal = false) (req : Nat) :
    exec (.energyLowHalfRead req n) s = .next
        (({ s with energy := { s.energy with
            hiLatch := vset s.energy.hiLatch req (BitVec.ofNat 32 ((vget s.energy.acc i 0#64).toNat / 2 ^ 32)) } } : State).returns req
          (leBytes 4 (vget s.energy.acc i 0#64).toNat)) ∧
      exec (.energyHighHalfRead req n) s = .next (s.returns req (leBytes 4 (vget s.energy.hiLatch req 0#32).toNat)) := by
  have h : (if s.boot.minimal then none else energyIndex n) = some i := (if_neg (Bool.eq_false_iff.1 hm)).trans hi
  refine ⟨?_, ?_⟩
  · show execEnergyLowHalfRead req n s = _
    rw [execEnergyLowHalfRead, h]
  · show execEnergyHighHalfRead req n s = _
    rw [execEnergyHighHalfRead, h]

theorem fcodeHopEnd_due {s : State} {cl f : Nat} (hf : (s.cluster cl).hopTo = some f) (ha : (s.cluster cl).hopAborted = false)
    (ht : (s.cluster cl).hopAt + 100 ≤ s.now) :
    exec (.fcodeHopEnd cl) s = .next
      (let s1 := (s.setCluster cl { (s.cluster cl).tick s.now with fcode := f, hopTo := none }).retune (cl / 16)
       s1.noteBand s1.anyLow) := by
  have h : ((s.cluster cl).hopAborted || decide (s.now < (s.cluster cl).hopAt + 100)) = false := by
    rw [ha, decide_eq_false (Nat.not_lt.2 ht)]
    rfl
  show execFcodeHopEnd cl s = _
  simp only [execFcodeHopEnd, hf, h, Bool.false_eq_true, if_false]

@[simp] theorem fastAt_noteStep (x : Sched) (lo hi : Nat) : (x.noteStep lo hi).fastAt = x.fastAt := by
  unfold Sched.noteStep
  split <;> rfl

theorem leaves_fastLoop {s : State} {x : Sched} (hx : s.sched = x) (h : x.fastAt + 10000 ≤ s.now) :
    let e := (vget s.energy.acc 0 0#64).toNat
    let y := x.noteStep x.fastAt s.now
    let m := y.newM (y.capNow s.now).1 ((e + 2 ^ 64 - x.fastEnergy) % 2 ^ 64) (s.now - x.fastAt)
    Leaves .fastLoop s
      (({ s with sched := { y with mNum := m.1, mDen := m.2, fastAt := s.now, fastEnergy := e } } : State).noteBand s.anyLow) := by
  subst hx
  dsimp only
  refine leaves_next (u := s.fastLoop) rfl ?_
  unfold State.fastLoop
  dsimp only
  rw [if_neg (Nat.not_lt.2 h), fastAt_noteStep]

theorem leaves_slowLoop {s : State} {x : Sched} (hx : s.sched = x) (h : x.slowAt + 1000000 ≤ s.now) :
    let p := s.periodPower
    let s0 := s.noteBand s.anyLow
    let s1 : State := if x.exemptUntil ≤ x.slowAt then
      { s0 with sched := { s0.sched with inband := s0.bandOf (p.getD 0 0) } } else s0
    let s2 := (((s1.telemetry p).slowRows p).refreshPend.wakeHeld).rehome
    let s3 := ({ s2 with sched := { s2.sched with unheld := true, stopped := true } } : State).noteBand s2.anyLow
    Leaves .slowLoop s { s3 with sched := { s3.sched with slowAt := s3.now, slowEnergy := s3.energy.acc.toList.map (·.toNat), lastPower := p } } := by
  subst hx
  dsimp only
  refine leaves_next (u := s.slowLoop) rfl ?_
  unfold State.slowLoop
  dsimp only
  rw [if_neg (Nat.not_lt.2 h)]

/-- Settles O52: each event when it is due. -/
theorem energyAndOperatingPointEvents : Obligations.EnergyAndOperatingPointEvents := by
  refine ⟨?_, ?_⟩
  · intro s vals req n i cl d a r hot
    refine ⟨fun h => ?_, fun hi hm => ?_, fun h => ?_, fun h => ?_, fun hm => leaves_next rfl (if_neg (Bool.eq_false_iff.1 hm))⟩
    · intro e s1
      exact leaves_next rfl (if_neg (Nat.not_lt.2 h))
    · intro v low high
      obtain ⟨hlow, hhigh⟩ := energyReads hi hm req
      exact ⟨fun hr => ⟨leaves_next hlow (if_pos hr), leaves_next hhigh (if_pos hr)⟩,
        fun hr => ⟨leaves_next hlow (if_neg (Nat.not_lt.2 hr)), leaves_next hhigh (if_neg (Nat.not_lt.2 hr))⟩⟩
    · intro half
      exact leaves_next rfl (if_neg (Nat.not_lt.2 h))
    · exact leaves_next rfl (congrArg (s.setDie d) (if_pos h))
  · intro s cl d c x
    refine ⟨fun h => ?_, fun h => ?_, fun v hv => ?_, fun f hf ha ht => ?_, fun b hb => ?_, ?_, fun ha hs ht => ?_⟩
    · exact leaves_fastLoop rfl h
    · exact leaves_slowLoop rfl h
    · exact leaves_next rfl (by rw [hv]; rfl)
    · intro s1
      exact fcodeHopEnd_due hf ha ht
    · exact leaves_next rfl (by rw [show (s.cluster cl).biasTo = some b from hb])
    · intro c1
      exact ⟨leaves_next rfl rfl, fun h => leaves_next rfl (congrArg (s.setCluster cl) (if_pos h)),
        fun h => leaves_next rfl (congrArg (s.setCluster cl) (if_neg (Nat.not_le.2 h)))⟩
    · refine leaves_next rfl (congrArg (s.setCluster cl) (if_pos ?_))
      rw [show (s.cluster cl).hopAborted = true from ha, show (s.cluster cl).stretch = false from hs, decide_eq_true (by exact ht)]
      rfl

end Sys2Proof.Machine
end

section

/-! The loss, the gating and the return of power (R86, R129, R213 to R216, R437, R471). -/

namespace Sys2Proof.Machine
open Sys2Proof

theorem dieGate_gates {s : State} {d : Nat} {s1 : State} (hg : (s.idleOff d).canGate d = true)
    (hw : (s.idleOff d).writeBackAll d = some s1) :
    s.dieGate d =
      (let s2 := ((s1.versionsOut d).modDie d fun x => x.goesOff s1.now).modStack d fun x => { x with copied := false }
       (({ s2 with sched := { s2.sched with lastGate := some s2.now } } : State).rehome).noteBand s2.anyLow) := by
  unfold State.dieGate
  dsimp only
  rw [if_neg (by rw [hg]; decide), hw]

theorem parkListCopy_copies {s : State} {d : Nat} (ho : (s.die d).on = false) (hp : (s.stack d).present = true)
    (ht : (s.stack d).st = 1) (hc : (s.stack d).copied = false) (hs : s.sched.suspended = false) (he : s.parkEntries d ≠ []) :
    s.parkListCopy d =
      (let s1 := (s.parkEntries d).foldl (fun s e => s.copyRange e.1 e.2.2.1 e.2.1) s
       let off := (s.parkEntries d).any fun e => e.2.2.2
       s1.modStack d fun x => { x with copied := true, st := if off then 0 else 1, offFlag := off, lastAccess := s1.now }) := by
  have hg : ((s.die d).on || !(s.stack d).present || (s.stack d).st != 1 || (s.stack d).copied || s.sched.suspended
      || (s.parkEntries d).isEmpty) = false := by
    rw [ho, hp, ht, hc, hs, List.isEmpty_eq_false_iff.2 he]
    rfl
  unfold State.parkListCopy
  dsimp only
  rw [if_neg (by rw [hg]; decide)]

theorem dieOn_switches {s : State} {d : Nat} (hp : (s.die d).present = true) (ho : (s.die d).on = false)
    (hs : s.sched.suspended = false) (hw : s.sched.wake.getLsbD d = true) (ha : apart s.sched.lastOn s.now = true) :
    s.dieOn d =
      (let s1 := s.stackOn d
       let s2 := s1.modDie d fun y =>
         { y with on := true, waitOn := s1.presentClusters d, switchRound := some 0, offAt := s1.now, powerFault := false }
       let s3 := s2.noteBand s2.anyLow
       ({ s3 with sched := { s3.sched with lastOn := some s2.now, wake := s2.sched.wake &&& ~~~(1#8 <<< d) } } : State).retryPreds) := by
  have hg : (!(s.die d).present || (s.die d).on || s.sched.suspended || !s.sched.wake.getLsbD d || !apart s.sched.lastOn s.now)
      = false := by
    rw [hp, ho, hs, hw, ha]
    rfl
  unfold State.dieOn
  dsimp only
  rw [if_neg (by rw [hg]; decide)]

theorem switchRoundEnd_due {s : State} {d : Nat} (ho : (s.die d).on = true) (hw : (s.die d).waitOn ≠ 0#16) :
    s.switchRoundEnd d =
      (let j := (s.die d).switchRound.getD 0
       let now := (List.range 16).filter fun c => (s.die d).waitOn.getLsbD c && switchRoundOf c == j
       let left := now.foldl (fun (a : BitVec 16) c => a &&& ~~~(1#16 <<< c)) (s.die d).waitOn
       let s1 := now.foldl (fun s c => s.clusterOn (16 * d + c)) s
       (s1.modDie d fun y => { y with waitOn := left, switchRound := if left = 0#16 then none else some ((j + 1) % 4) }).rehome) := by
  have hg : (!(s.die d).on || (s.die d).waitOn == 0#16) = false := by
    rw [ho, beq_eq_false_iff_ne.2 hw]
    rfl
  unfold State.switchRoundEnd
  dsimp only
  rw [if_neg (by rw [hg]; decide)]

theorem dieLoss_falls {s : State} {d : Nat} (ho : (s.die d).on = true) :
    s.dieLoss d =
      (let s0 := (s.loseDirty d).cutImages d fun _ => true
       let s1 := s0.modDie d fun y => { y.goesOff s0.now with wts := [], imgs := [], mons := [], powerFault := true }
       let own := s1.tasks.filter fun t => t.die == d && t.origins != [] && t.parkRun.isNone
       let s2 := own.foldl (fun s t => s.endTask t.uid 2 ((s.free 55).toNat % 256) 0 0 0) s1
       ((List.range 16).foldl (fun s c => s.clusterOff (16 * d + c)) s2).rehome) := by
  unfold State.dieLoss
  dsimp only
  rw [if_neg (by rw [ho]; decide)]

/-- Settles O53: each event of the power, in the state that lets it act. -/
theorem powerEvents : Obligations.PowerEvents := by
  unfold Obligations.PowerEvents
  constructor
  · intro s d
    refine ⟨fun s1 hg hw => ?_, fun ho hp ht hc hs he => ?_, fun h => ?_, fun hp ho hs hw ha => ?_, fun ho hw => ?_⟩
    · intro s2
      exact leaves_next rfl (dieGate_gates hg hw)
    · exact leaves_next rfl (parkListCopy_copies ho hp ht hc hs he)
    · refine leaves_next (u := s.retain d) rfl ?_
      unfold State.retain
      rw [if_pos h]
    · exact leaves_next rfl (dieOn_switches hp ho hs hw ha)
    · exact leaves_next rfl (congrArg State.clustersGood (switchRoundEnd_due ho hw))
  · intro s cl d
    refine ⟨?_, fun ho => ?_, ?_⟩
    · exact leaves_next rfl rfl
    · exact leaves_next rfl (dieLoss_falls (by exact ho))
    · exact leaves_next rfl rfl

end Sys2Proof.Machine
end

section

/-! The requests of the management ring that give the module its tables (R447 to R449). -/

namespace Sys2Proof.Machine
open Sys2Proof

theorem serves_of {i : Instr} {s t : State} {op st : Nat} {l : List Byte} {f : List Byte → State → State × Option Nat}
    (hi : exec i s = .next (s.serve op f)) (hg : ReqGo s op l) (h0 : 0 < op) (h1 : op ≤ 16) (hf : f l s = (t, some st)) : Serves i s t st :=
  leaves_next hi (serve_ok hg (Nat.pos_iff_ne_zero.1 h0) h1 hf)

/-- A request whose memory can be read goes on with what it reads. -/
theorem reqRead_ok {s s1 : State} {pa n : Nat} {b : List Byte} {f : List Byte → State → State × Option Nat}
    (h : s.homeBytes pa n = .ok (s1, b, false)) : s.reqRead pa n f = f b s1 := by
  unfold State.reqRead
  rw [h]
  rfl

theorem reqCreate_done {s : State} {l : List Byte} (h1 : bits (field l 8 8) 63 52 = 0) (h2 : bits (field l 8 8) 11 9 = 0)
    (h3 : field l 24 40 = 0) (h4 : Tab.find (reqCtx l) s.ctxs = none) (h5 : bits (field l 8 8) 7 0 ≠ 0xFF)
    (h6 : s.vdtOk (Vector.ofFn fun v => BitVec.ofNat 8 (field l (16 + v.val) 1)) = true) :
    reqCreate l s = done { s with ctxs := Tab.put (reqCtx l) ⟨bits (field l 8 8) 51 12 * 4096, bit (field l 8 8) 8, bits (field l 8 8) 7 0,
      Vector.ofFn fun v => BitVec.ofNat 8 (field l (16 + v.val) 1), none⟩ s.ctxs } := by
  unfold reqCreate
  dsimp only
  rw [if_neg (by rw [h1, h2, h3, h4, h6]; simp [h5])]

theorem reqDestroy_done {s : State} {l : List Byte} (h1 : (Tab.find (reqCtx l) s.ctxs).isSome = true)
    (h2 : s.tasks.any (fun t => t.ctx == reqCtx l && t.state == 1) = false) :
    reqDestroy l s = done { s with ctxs := Tab.del (reqCtx l) s.ctxs, qBound := s.qBound.filter fun e => e.2 != reqCtx l } := by
  unfold reqDestroy
  exact if_neg (by rw [← Option.not_isSome, h1, h2]; decide)

theorem reqSavePool_done {s : State} {l : List Byte} {x : Ctx} (h1 : Tab.find (reqCtx l) s.ctxs = some x)
    (h2 : s.inHbm (field l 8 8) (field l 16 8) = true) :
    reqSavePool l s = done { s with ctxs := Tab.put (reqCtx l) { x with pool := some (field l 8 8, field l 16 8) } s.ctxs } := by
  unfold reqSavePool
  dsimp only
  rw [h1]
  exact if_neg (by rw [h2]; decide)

/-- A lap table whose header and entries can be read and pass their checks is taken. -/
theorem reqLap_done {s s1 s2 : State} {l h b : List Byte} {t : List LapEntry} (h1 : s.inHbm (field l 8 8) 64 = true)
    (h2 : s.homeBytes (field l 8 8) 64 = .ok (s1, h, false)) (h3 : leNat h / 2 ^ 20 = 0) (h4 : leNat h % 2 ^ 20 ≠ 0)
    (h5 : s1.inHbm (field l 8 8 + 64) (16 * (leNat h % 2 ^ 20)) = true)
    (h6 : s1.homeBytes (field l 8 8 + 64) (16 * (leNat h % 2 ^ 20)) = .ok (s2, b, false))
    (h7 : s2.readLap b 0 (leNat h % 2 ^ 20) 0 [] = .ok t) : reqLap l s = done (s2.lapAccept t) := by
  unfold reqLap
  dsimp only
  rw [if_neg (by rw [h1]; decide), h2]
  dsimp only [State.tryHome]
  rw [if_neg (by rw [h3]; decide), if_neg (by rw [h5]; simpa using h4), h6]
  dsimp only [State.tryHome]
  rw [h7]

theorem lapAccept_some {s : State} {t u : List LapEntry} (h : s.ring.table = some u) :
    s.lapAccept t = { s with ring := { s.ring with waiting := some t } }.post 0x0B 8 0 0 := by
  unfold State.lapAccept
  rw [h]

theorem reqParkList_reads {s s1 : State} {l b : List Byte} (h1 : field l 16 8 ≤ 1024)
    (h2 : s.inMemory (field l 8 8) (32 * field l 16 8) = true)
    (h3 : s.homeBytes (field l 8 8) (32 * field l 16 8) = .ok (s1, b, false)) :
    let es := (List.range (field l 16 8)).map fun i => (b.drop (32 * i)).take 32
    reqParkList l s =
      if es.all s1.parkEntryOk then done { s1 with sched := { s1.sched with parkList := es.map parkEntry } } else refused s1 := by
  unfold reqParkList
  dsimp only
  rw [if_neg (by rw [h2]; simpa using h1), reqRead_ok h3]

theorem reqTelemetry_done {s : State} {l : List Byte} (h1 : 256 ≤ field l 16 8) (h2 : field l 16 8 ≤ 1048576)
    (h3 : (s.inHbm (field l 8 8) (64 * field l 16 8) || s.inHost (field l 8 8) (64 * field l 16 8)) = true) :
    reqTelemetry l s = done { s with telem := some (field l 8 8, field l 16 8, 0) } := by
  unfold reqTelemetry
  refine if_neg ?_
  rw [h3, Bool.not_true]
  rintro (h | h | h)
  · exact Nat.not_lt.2 h1 h
  · exact Nat.not_lt.2 h2 h
  · exact absurd h (by decide)

theorem reqSlotTable_done {s s1 s2 : State} {l b : List Byte} (h1 : (s.putSlotTable (field l 8 1) (field l 9 1) []).isSome = true)
    (h2 : s.inMemory (field l 16 8) 64 = true) (h3 : s.homeBytes (field l 16 8) 64 = .ok (s1, b, false))
    (h4 : s1.putSlotTable (field l 8 1) (field l 9 1) (b.map (·.toNat)) = some s2) : reqSlotTable l s = done s2 := by
  unfold reqSlotTable
  dsimp only
  rw [if_neg (by rw [← Option.not_isSome, h1, h2]; decide), reqRead_ok h3, h4]

theorem reqOwners_done {s s1 : State} {l b : List Byte} (h1 : s.inMemory (field l 8 8) 512 = true)
    (h2 : s.homeBytes (field l 8 8) 512 = .ok (s1, b, false)) : reqOwners l s = done (s1.setOwners b) := by
  unfold reqOwners
  dsimp only
  rw [if_neg (by rw [h1]; decide), reqRead_ok h2]

/-- A park area with legal bounds: in use, it answers 2 and stays. -/
theorem reqParkArea_legal {s : State} {l : List Byte} (h1 : field l 16 8 % 4096 = 0)
    (h2 : field l 16 8 = 0 ∨ (field l 8 8 % 4096 = 0 ∧ s.inLp (field l 8 8) (field l 16 8) = true)) :
    reqParkArea l s =
      if s.tasks.any fun t => t.parkRun.isSome then (s, some 2)
      else done { s with sched := { s.sched with
        parkArea := if field l 16 8 = 0 then none else some (field l 8 8, field l 16 8) } } := by
  unfold reqParkArea
  refine if_neg ?_
  rintro (h | ⟨hn, h⟩)
  · exact h h1
  · obtain ⟨ha, hl⟩ := h2.resolve_left hn
    rw [hl] at h
    exact h.elim (fun h => h ha) (fun h => absurd h (by decide))

/-- Settles O54: each request that passes its checks is done, and one with an unknown code or a reserved bit is refused. -/
theorem tableRequests : Obligations.TableRequests := by
  unfold Obligations.TableRequests
  intro s l c pa n vdt
  refine ⟨fun hg h1 h2 h3 h4 h5 h6 => ?_, fun hg h1 h2 => ?_, fun x hg h1 h2 => ?_, fun s1 h s2 b t hg h1 h2 h3 h4 h5 h6 h7 => ?_,
    fun s1 b hg h1 h2 h3 => ?_, fun hg h1 h2 h3 => ?_, fun s1 b s2 hg h1 h2 h3 h4 => ?_, fun s1 b hg h1 h2 => ?_, fun hg h1 h2 => ?_,
    fun hl hs => ⟨fun h4 h0 => ?_, fun h4 h0 => ?_⟩⟩
  · exact serves_of rfl hg (by decide) (by decide) (reqCreate_done h1 h2 h3 h4 h5 h6)
  · exact serves_of rfl hg (by decide) (by decide) (reqDestroy_done h1 h2)
  · exact serves_of rfl hg (by decide) (by decide) (reqSavePool_done h1 h2)
  · have hd := reqLap_done h1 h2 h3 h4 h5 h6 h7
    exact ⟨fun u hu => serves_of rfl hg (by decide) (by decide) (hd.trans (congrArg done (lapAccept_some hu))),
      fun _ => serves_of rfl hg (by decide) (by decide) hd⟩
  · have hd := reqParkList_reads h1 h2 h3
    exact ⟨fun he => serves_of rfl hg (by decide) (by decide) (hd.trans (if_pos he)),
      fun he => serves_of rfl hg (by decide) (by decide) (hd.trans (if_neg (by rw [he]; decide)))⟩
  · exact serves_of rfl hg (by decide) (by decide) (reqTelemetry_done h1 h2 h3)
  · exact serves_of rfl hg (by decide) (by decide) (reqSlotTable_done h1 h2 h3 h4)
  · exact serves_of rfl hg (by decide) (by decide) (reqOwners_done h1 h2)
  · have hd := reqParkArea_legal h1 h2
    exact ⟨fun he => serves_of rfl hg (by decide) (by decide) (hd.trans (if_neg (by rw [he]; decide))),
      fun he => serves_of rfl hg (by decide) (by decide) (hd.trans (if_pos he))⟩
  · refine leaves_next (u := s.serve 0x01 reqCreate) rfl ?_
    unfold State.serve
    rw [hl]
    dsimp only
    rw [hs, if_neg (by decide), if_pos ⟨h4, h0⟩]
  · exact leaves_next rfl (serve_refused hl hs h0 h4)

end Sys2Proof.Machine
end

section

/-! The requests of the management ring that act on what runs (R447, R451). -/

namespace Sys2Proof.Machine
open Sys2Proof

/-- A shootdown that may begin: the context's threads lose the translations of the range, and what is under way is noted. -/
theorem reqShootdown_begins {s : State} {l : List Byte} (h1 : (Tab.find (reqCtx l) s.ctxs).isSome = true)
    (h2 : s.peers.any (fun p => p.kind == 2 && (s.ctxThreads (reqCtx l)).contains p.thr) = false) :
    reqShootdown l s =
      (let n := reqCtx l
       let pa := field l 8 8
       let hi := pa + field l 16 8
       let thrs := s.ctxThreads n
       let s1 := (thrs.foldl (fun s k => s.modThread k fun t => t.shot pa hi) (s.shootTlbs n pa hi)).shootImages n pa hi
       ({ s1 with
          copies := s1.copies.map fun (c : Copy) => if ((s1.taskOf c.task).map fun t => t.ctx == n).getD false then { c with shoot := true } else c
          shoots := [Shoot.mk n pa hi (thrs.flatMap s1.underWay)] }, none)) := by
  unfold reqShootdown
  dsimp only
  rw [if_neg (by rw [← Option.not_isSome, h1]; decide), if_neg (by rw [h2]; decide)]

theorem shootDone_ends {s : State} {x : Shoot} {r : List Shoot} (h1 : s.shoots = x :: r)
    (h2 : x.waitFlights.any (fun f => (s.underWay f.1).contains f) = false) (h3 : s.copies.any (·.shoot) = false) :
    s.shootDone = { s with shoots := [] }.reqFinish 0 := by
  unfold State.shootDone
  rw [h1]
  exact if_neg (by rw [h2, h3]; decide)

theorem reqPreempt_done {s : State} {l : List Byte} {t : Task} (h : s.tasks.find? (fun t => t.id == field l 8 5 && t.state == 1) = some t) :
    reqPreempt l s = done (s.askPreempt t) := by
  unfold reqPreempt
  rw [h]

theorem reqClearDegraded_done {s : State} {l : List Byte} (h : s.corePresent (field l 8 8) = true) :
    reqClearDegraded l s = done (s.modCore (field l 8 8) fun c => { c with degraded := false }) := by
  unfold reqClearDegraded
  exact if_neg (by rw [h]; decide)

/-- A domain whose root is known goes back to its snapshot, and the copies of its lines in caches follow. -/
theorem reqRestore_done {s s1 : State} {l b : List Byte} (h1 : s.localPa (field l 8 8) % 64 = 0)
    (h2 : s.inMemory (s.localPa (field l 8 8)) 64 = true) (h3 : s.homeBytes (s.localPa (field l 8 8)) 64 = .ok (s1, b, false))
    (h4 : snapReserved (leNat b) = false) (h5 : s1.snapRoots.any (fun x => x.1 == s.localPa (field l 8 8)) = true) :
    reqRestore l s =
      (let root := s.localPa (field l 8 8)
       let r := readSnapRoot s1.mem root
       let lines := s1.snapCached root
       let s2 : State := { s1 with mem := (List.range r.npages).foldl (restorePage r) s1.mem }
       done ((List.range 8).foldl (fun s d => s.renewAll d true (fun _ => true) fun x => lines.contains (s.localLine x)) s2)) := by
  unfold reqRestore
  dsimp only
  rw [if_neg (by rw [h1, h2]; decide), reqRead_ok h3, if_neg (by rw [h4]; decide), if_pos h5]

theorem reqComm_done {s s1 s2 : State} {l b m : List Byte} (h1 : s.inHbm (field l 8 8) 64 = true)
    (h2 : s.homeBytes (field l 8 8) 64 = .ok (s1, b, false)) (h3 : 2 ≤ field b 4 2) (h4 : field b 4 2 ≤ 4096)
    (h5 : field b 6 2 < field b 4 2) (h6 : s1.ctxs.any (fun c => c.2.tenant == field b 2 1) = true)
    (h7 : s1.inMemory (field b 8 8) (8 * field b 4 2) = true)
    (h8 : s1.homeBytes (field b 8 8) (8 * field b 4 2) = .ok (s2, m, false)) :
    reqComm l s = done { s2 with comms := (s2.comms.filter fun x => x.num != field b 0 2) ++
      [⟨field b 0 2, field b 2 1, field b 4 2, field b 6 2, (List.range (field b 4 2)).map fun i => field m (8 * i) 8, 0⟩] } := by
  have hlegal : ¬ (field b 4 2 < 2 ∨ field b 4 2 > 4096 ∨ field b 6 2 ≥ field b 4 2 ∨
      (!(s1.ctxs.any fun c => c.2.tenant == field b 2 1)) = true ∨ (!s1.inMemory (field b 8 8) (8 * field b 4 2)) = true) := by
    rw [h6, h7]
    rintro (h | h | h | h | h)
    · exact Nat.not_lt.2 h3 h
    · exact Nat.not_lt.2 h4 h
    · exact Nat.not_le.2 h5 h
    · exact absurd h (by decide)
    · exact absurd h (by decide)
  unfold reqComm
  dsimp only
  rw [if_neg (by rw [h1]; decide), reqRead_ok h2, if_neg hlegal, reqRead_ok h8]

theorem reqCancel_done {s : State} {l : List Byte} {c : Coll} (h : s.colls.find? (fun c => c.desc == field l 8 8) = some c) :
    reqCancel l s =
      (let done' := c.chunks * chunkBytes
       let left := c.count * c.esize - done'
       let s1 := s.collWrite c (c.dst + done') (s.freeBytes 64 left)
       let s2 : State := { s1 with fresh := s1.fresh + left, colls := s1.colls.filter fun x => x != c }
       done ((s2.collCount c).collEvent c (s2.silentRank c) 1)) := by
  unfold reqCancel
  rw [h]

/-- Settles O55: each request in the state that lets it act. -/
theorem runningRequests : Obligations.RunningRequests := by
  unfold Obligations.RunningRequests
  intro s l n pa hi thrs
  refine ⟨fun hg h1 h2 => ?_, fun x r h1 h2 h3 => ?_, fun t hg h => ?_, fun hg h => ?_, fun s1 b hg h1 h2 h3 h4 h5 => ?_,
    fun s1 b s2 m hg h1 h2 => ?_, fun c hg h => ?_, fun hg h => ?_, fun hg h => ?_⟩
  · exact leaves_next rfl (serve_none hg (by decide) (by decide) (reqShootdown_begins h1 h2))
  · exact leaves_next rfl (shootDone_ends h1 h2 h3)
  · exact serves_of rfl hg (by decide) (by decide) (reqPreempt_done h)
  · exact serves_of rfl hg (by decide) (by decide) (reqClearDegraded_done h)
  · exact serves_of rfl hg (by decide) (by decide) (reqRestore_done h1 h2 h3 h4 h5)
  · intro k h3 h4 h5 h6 h7 h8
    exact serves_of rfl hg (by decide) (by decide) (reqComm_done h1 h2 h3 h4 h5 h6 h7 h8)
  · exact serves_of rfl hg (by decide) (by decide) (reqCancel_done h)
  · refine serves_of rfl hg (by decide) (by decide) ?_
    unfold reqSuspend
    rw [h]
    rfl
  · refine serves_of rfl hg (by decide) (by decide) ?_
    unfold reqResume
    rw [h]
    rfl

end Sys2Proof.Machine
end

section

/-! The error machinery, the counters, the event queue and the copy engines (R88, R89, R98, R99, R165, R231, R232, R342). -/

namespace Sys2Proof.Machine
open Sys2Proof

theorem rebuildEnd_of {s : State} {str unit : Nat} {b : Bank}
    (h : s.banks.find? (fun b => b.str == str && b.unit == unit && b.rebuilding) = some b) :
    s.rebuildEnd str unit =
      ({ s with banks := s.banks.map fun (x : Bank) => if x = b then { x with rebuilding := false } else x }.post 0x03
        (eventPlace str unit).1 (eventPlace str unit).2 (str <<< 120 ||| (b.bank % 256) <<< 104 ||| 1 <<< 96)) := by
  unfold State.rebuildEnd
  rw [h]

/-- A burst on its own lanes: a good reading, a bad one before the third, the third with the spare lane unused, and with it used. -/
theorem reread_of {s : State} {k : Nat} {b : Burst} (hb : s.bursts[k]? = some b) (hs : b.swapped = false) (ok : Bool) :
    s.reread k ok =
      (let tries := b.tries + 1
       let gone : State := { s with bursts := s.bursts.eraseIdx k }
       if ok then gone.xferLog b.stack 0 b.pch b.beat b.lane tries
       else if tries < 3 then { s with bursts := s.bursts.set k { b with tries := tries } }
       else if (s.stack b.stack).spare.getLsbD b.pch then gone.burstPoison { b with tries := tries }
       else
         ({ s with bursts := s.bursts.set k { b with tries := tries, swapped := true } } : State).setStack b.stack
           { s.stack b.stack with spare := (s.stack b.stack).spare ||| (1#64 <<< b.pch) }) := by
  unfold State.reread
  rw [hb]
  dsimp only
  rw [if_neg (by rw [hs]; decide)]

theorem laneSwapRead_of {s : State} {k : Nat} {b : Burst} (hb : s.bursts[k]? = some b) (hs : b.swapped = true) (ok : Bool) :
    s.laneSwapRead k ok =
      if ok then ({ s with bursts := s.bursts.eraseIdx k } : State).xferLog b.stack 1 b.pch b.beat b.lane b.tries
      else ({ s with bursts := s.bursts.eraseIdx k } : State).burstPoison b := by
  unfold State.laneSwapRead
  rw [hb]
  exact if_neg (by rw [hs]; decide)

theorem setHead_of {q : EvQueue} {v : W32} (h : (v - q.head).toNat ≤ (q.tail - q.head).toNat) : q.setHead v = { q with head := v } := by
  unfold EvQueue.setHead
  exact if_pos h

/-- A block that has been written too often goes to a spare while there is one; after that the die is worn. -/
theorem moveBlock_of {d : Die} {b : Nat} (h : (Tab.getD d.wear b (0, none)).1 > 5 * 10 ^ 13) :
    d.moveBlock b =
      if d.spares < spareBlocks then { d with wear := Tab.put b (0, some d.spares) d.wear, spares := d.spares + 1 } else { d with worn := true } := by
  unfold Die.moveBlock
  exact if_neg (Nat.not_le.2 h)

theorem onyxBlockMove_of {s : State} {die block : Nat} {x : Die} (hi : (s.die die).imgs = []) (hb : block < 512)
    (hm : (s.die die).moveBlock block = x) : Leaves (.onyxBlockMove die block) s (s.setDie die x) := by
  refine leaves_next rfl ((if_pos ?_).trans (congrArg (s.setDie die) hm))
  rw [hi, decide_eq_true hb]
  rfl

/-- A chunk that can be read and written moves, with no poison among its lines. -/
theorem copyChunk_moves {s s1 : State} {k : Nat} {c : Copy} {l : List Byte} (hc : s.copies[k]? = some c) (he : s.copyEligible c = true)
    (hr : s.homeBytes (c.src + c.left.getD ((s.free 59).toNat % c.left.length) 0 * 256)
      (min 256 (c.len - c.left.getD ((s.free 59).toNat % c.left.length) 0 * 256)) = .ok (s1, l, false))
    (hw : s1.canEngineWriteRange (c.dst + c.left.getD ((s.free 59).toNat % c.left.length) 0 * 256) l = true) :
    s.copyChunk k =
      (let i := (s.free 59).toNat % c.left.length
       let s2 := (s1.engineWrite (c.dst + c.left.getD i 0 * 256) l).copySlotDone c.iod
       if c.left.eraseIdx i != [] then { s2 with copies := s2.copies.set k { c with left := c.left.eraseIdx i } }
       else { s2 with copies := s2.copies.eraseIdx k, barAdds := s2.barAdds ++ [BarAdd.mk c.bar c.len (some c.task) c.pos 0#32] }) := by
  unfold State.copyChunk
  rw [hc]
  dsimp only
  rw [if_neg (by rw [he]; decide), hr]
  dsimp only [State.tryHome]
  rw [if_neg (by rw [hw]; decide), if_neg Bool.false_ne_true]

/-- Settles O56: each event in the state that lets it act. -/
theorem errorAndCopyEvents : Obligations.ErrorAndCopyEvents := by
  unfold Obligations.ErrorAndCopyEvents
  intro s core str unit k stack pch bank row col idx die block v
  refine ⟨leaves_next rfl rfl, fun b h => ?_, fun b hb hs => ?_, fun b hb hs => ?_, fun hp ht => ?_, fun i hm hi => ?_, fun hm hv => ?_, ?_,
    fun c s1 l hc he => ?_⟩
  · exact leaves_next rfl (rebuildEnd_of h)
  · have hr := reread_of hb hs
    exact ⟨leaves_next rfl (hr true),
      fun h => leaves_next rfl ((hr false).trans (if_pos h)),
      fun h hl => leaves_next rfl ((hr false).trans ((if_neg (Nat.not_lt.2 h)).trans (if_neg (by rw [hl]; decide)))),
      fun h hl => leaves_next rfl ((hr false).trans ((if_neg (Nat.not_lt.2 h)).trans (if_pos hl)))⟩
  · exact ⟨leaves_next rfl (laneSwapRead_of hb hs true), leaves_next rfl (laneSwapRead_of hb hs false)⟩
  · exact leaves_next rfl (if_pos (by rw [hp, ht]; rfl))
  · refine leaves_next rfl ((if_neg (by rw [hm]; decide)).trans ?_)
    unfold State.clearErr
    rw [if_pos (by rfl), hi]
  · exact leaves_next rfl ((if_neg (by rw [hm]; decide)).trans (by rw [setHead_of hv]))
  · intro d e hi hb he
    exact ⟨fun h => onyxBlockMove_of hi hb ((moveBlock_of he).trans (if_pos h)),
      fun h => onyxBlockMove_of hi hb ((moveBlock_of he).trans (if_neg (Nat.not_lt.2 h)))⟩
  · intro i o hr hw s2
    have hm := copyChunk_moves hc he hr hw
    exact ⟨fun hl => leaves_next rfl (hm.trans (if_pos (bne_iff_ne.2 hl))),
      fun hl => leaves_next rfl (hm.trans (if_neg (by rw [hl]; decide)))⟩

end Sys2Proof.Machine
end

section

/-! Start-up, minimal mode and module reset (R472 to R477). -/

namespace Sys2Proof.Machine
open Sys2Proof

/-- A rail that is waited for is good; after the last of its round the start goes on. -/
theorem railGood_of {s : State} {rail : Nat} (h : s.boot.railWait.getLsbD rail = true) :
    s.railGood rail =
      (let b : BitVec 21 := 1#21 <<< rail
       let w := s.boot.railWait &&& ~~~b
       let s1 : State := { s with boot := { s.boot with rails := s.boot.rails ||| b, railWait := w } }
       if w = 0#21 then s1.railsGood else s1) := by
  unfold State.railGood
  exact if_neg (by rw [h]; decide)

theorem railsGood_cores {s : State} (h : s.boot.step = 2) :
    s.railsGood = if s.boot.rails &&& railVcore = 0#21 then s.railsUp railVcore 2 else s.romChecks := by
  unfold State.railsGood
  exact if_pos h

theorem railsGood_stacks {s : State} (h : s.boot.step = 6) :
    s.railsGood =
      if s.boot.rails &&& s.railVhbm = s.railVhbm then s.trainAll.clustersGood else s.railsUp s.railVhbm 6 := by
  unfold State.railsGood
  exact (if_neg (by rw [h]; decide)).trans (if_pos h)

/-- A recovery image that fails its checks, and one that is taken into flash. -/
theorem recover_refused {s : State} (hm : s.boot.minimal = true)
    (h : [0, 1, 2].find? (fun k => s.imagePasses k (s.boot.rec_.take s.boot.recLen)) = none) :
    s.recover = { s with boot := { s.boot with recDoor := 2 } } := by
  unfold State.recover
  refine (if_neg (by rw [hm]; decide)).trans ?_
  dsimp only
  rw [h]

theorem recover_taken {s : State} {k : Nat} (hm : s.boot.minimal = true)
    (h : [0, 1, 2].find? (fun k => s.imagePasses k (s.boot.rec_.take s.boot.recLen)) = some k) :
    s.recover =
      (({ s with boot := { s.boot with flash := Tab.put (2 * k) (s.boot.rec_.take s.boot.recLen) s.boot.flash } } : State).modRecords
        fun d => { d with bootCount := 0 }).startBoot := by
  unfold State.recover
  refine (if_neg (by rw [hm]; decide)).trans ?_
  dsimp only
  rw [h]

/-- Settles O57: each event of a start in the state that lets it act. -/
theorem startUpEvents : Obligations.StartUpEvents := by
  unfold Obligations.StartUpEvents
  intro s rail v
  refine ⟨fun h => ?_, fun hr => ?_, fun hr hm hs ht => ?_, fun hm => ?_, fun hr => ?_⟩
  · exact leaves_next rfl (if_neg (by rw [h]; decide))
  · intro b w s1
    have hg := railGood_of hr
    refine ⟨fun hw => leaves_next rfl (hg.trans (if_neg hw)), fun hw h2 => ?_, fun hw h6 => ?_, fun ht => ?_⟩
    · have hc := (hg.trans (if_pos hw)).trans (railsGood_cores h2)
      exact ⟨fun h => leaves_next rfl (hc.trans (if_pos h)), fun h => leaves_next rfl (hc.trans (if_neg h))⟩
    · have hc := (hg.trans (if_pos hw)).trans (railsGood_stacks h6)
      exact ⟨fun h => leaves_next rfl (hc.trans (if_pos h)), fun h => leaves_next rfl (hc.trans (if_neg h))⟩
    · exact leaves_next rfl (if_pos (by rw [hr, decide_eq_true ht]; rfl))
  · exact leaves_next rfl (if_pos (by rw [hr, hm, decide_eq_true hs, decide_eq_true ht]; rfl))
  · intro l
    exact ⟨fun h => leaves_next rfl (recover_refused hm h), fun k h => leaves_next rfl (recover_taken hm h)⟩
  · exact leaves_next rfl (if_pos hr)

end Sys2Proof.Machine
end

section

/-! A host read that waits for the port's earlier posted writes (R445). -/

namespace Sys2Proof.Machine
open Sys2Proof

theorem hostLoad_waits {s s1 : State} {port pa n : Nat} {l : List Byte} {bad : Bool} (hr : s.homeBytes pa n = .ok (s1, l, bad))
    (hh : (s.heldWrites.any fun w => w.port == some port) = true) : s.hostLoad port pa n = s := by
  unfold State.hostLoad
  rw [hr]
  exact if_pos hh

/-- A read of memory that the port's posted writes hold back leaves the state it found, not the one after its read of home. -/
theorem leaves_hostRead_waits {s s1 : State} {port a pa n : Nat} {l : List Byte} {bad : Bool} (ha : s.hostPa port a = some pa)
    (h2 : port ≠ 2) (h3 : port ≠ 3) (hup : (s.port port).up = true) (hn : n ≠ 0) (he : pa + n ≤ barEnd) (hw : pa < winBase)
    (hm : s.boot.minimal = false) (hu : s.touchesUnbacked pa n = false) (hr : s.homeBytes pa n = .ok (s1, l, bad))
    (hh : (s.heldWrites.any fun w => w.port == some port) = true) : Leaves (.hostRead port a n) s s := by
  show execHostRead port a n s = .next s
  have hgo : ¬ (!(s.port port).up || decide (n = 0) || decide (pa + n > barEnd)) = true := by
    rw [hup, decide_eq_false hn, decide_eq_false (Nat.not_lt.2 he)]
    decide
  unfold execHostRead
  rw [if_neg (fun h => h.elim h2 h3), ha]
  refine (if_neg hgo).trans ((if_neg (Nat.not_le.2 hw)).trans ?_)
  rw [if_neg (by rw [hm]; decide), if_neg (by rw [hu]; decide), hostLoad_waits hr hh]

/-- Port 0 is up, and a posted write of it waits at home; one nanosecond has passed since the stacks were used last. -/
def waitingRead : State :=
  { State.reset with
    now := 1, heldWrites := [⟨3, 1, 0#512, 0#64, false, none, some 0⟩], ports := Vector.replicate 2 { Port.blank with up := true } }

/-- What a read at home has left: the time at which stack 0 was used, and whether a write of port 0 still waits. -/
def leftByRead : M (State × List Byte × Bool) → Option (Nat × Bool)
  | .ok (s1, _, _) => some ((s1.stack 0).lastAccess, s1.heldWrites.any fun w => w.port == some 0)
  | .error _ => none

/-- The read of home notes its time at the stack. -/
theorem leftByRead_waitingRead : leftByRead (waitingRead.homeBytes 64 1) = some (1, true) := by
  decide +kernel

theorem exists_of_leftByRead {m : M (State × List Byte × Bool)} {t : Nat} {w : Bool} (h : leftByRead m = some (t, w)) :
    ∃ s1 l bad, m = .ok (s1, l, bad) ∧ (s1.stack 0).lastAccess = t ∧ (s1.heldWrites.any fun w => w.port == some 0) = w := by
  match m, h with
  | .ok (s1, l, bad), h =>
    obtain ⟨ht, hw⟩ := Prod.mk.inj (Option.some.inj h)
    exact ⟨s1, l, bad, rfl, ht, hw⟩

/-- Refutes O58: a read of memory that waits for the port's posted writes leaves the state as it was, where the statement has it leave the
state after the read at home, in which the stack has noted the time of the access. -/
theorem not_hostEvents : ¬ Obligations.HostEvents := by
  unfold Obligations.HostEvents
  intro h
  obtain ⟨s1, l, bad, hr, ht, hw⟩ := exists_of_leftByRead leftByRead_waitingRead
  obtain ⟨-, hread, -⟩ := h waitingRead 0 64 64 1 0 0 0 [] 0#64
  obtain ⟨-, hbelow⟩ := hread rfl (by decide) (by decide) rfl (by decide) (by decide)
  obtain ⟨hheld, -⟩ := hbelow s1 l bad (by decide) rfl (by decide +kernel) hr
  have hstays : Leaves (.hostRead 0 64 1) waitingRead waitingRead :=
    leaves_hostRead_waits rfl (by decide) (by decide) rfl (by decide) (by decide) (by decide) rfl (by decide +kernel) hr rfl
  have hsame : waitingRead = s1 := Host.Outcome.next.inj (hstays.symm.trans (hheld hw))
  rw [← hsame] at ht
  exact absurd ht (by decide +kernel)

end Sys2Proof.Machine
end

section

/-! Accesses from peers and their answers, packets, and the chunks of a collective (R455 to R461). -/

namespace Sys2Proof.Machine
open Sys2Proof

section
variable {s s1 : State} {pa0 mask : Nat} {d l : List Byte}

/-- The line of 64 bytes that an access of a peer brings. -/
def peerLine (d : List Byte) : BitVec 512 := lineOf ((d ++ List.replicate (64 - d.length) 0#8).take 64)

/-- This module backs the line that an access of a peer names. -/
def PeerBacked (s : State) (pa0 : Nat) : Prop :=
  (s.inHbm (pa0 % 2 ^ 43 / 64 * 64) 64 || s.inLp (pa0 % 2 ^ 43 / 64 * 64) 64) = true

theorem peerArrives_load {bad : Bool} (hb : PeerBacked s pa0)
    (hr : s.homeBytes (pa0 % 2 ^ 43 / 64 * 64) 64 = .ok (s1, l, bad)) : s.peerArrives 0 pa0 mask d = s1 := by
  unfold PeerBacked at hb
  unfold State.peerArrives
  dsimp only
  rw [if_neg (by rw [hb]; decide), if_pos rfl, hr]
  rfl

theorem peerArrives_write {kind : Nat} (hb : PeerBacked s pa0) (hk : kind = 1 ∨ kind = 3) :
    s.peerArrives kind pa0 mask d = s.enginePut (pa0 % 2 ^ 43 / 64) (peerLine d) (BitVec.ofNat 64 mask) := by
  unfold PeerBacked at hb
  unfold State.peerArrives
  dsimp only
  rw [if_neg (by rw [hb]; decide)]
  rcases hk with rfl | rfl <;> rfl

/-- An atomic of a peer whose location can be read and written. -/
theorem peerArrives_atomic (hb : PeerBacked s pa0) (ha : pa0 % 2 ^ 43 % 8 = 0)
    (hr : s.homeBytes (pa0 % 2 ^ 43) 8 = .ok (s1, l, false)) (hw : (s1.writeAddr (pa0 % 2 ^ 43)).isSome = true) :
    s.peerArrives 2 pa0 mask d =
      if mask = 10 then if pa0 % 2 ^ 43 % 16 = 0 then s1.barAddAt (pa0 % 2 ^ 43) (field d 0 8) else s1
      else s1.atomicWrite (pa0 % 2 ^ 43)
        (leBytes 8 (peerAtomic mask (BitVec.ofNat 64 (leNat l)) (BitVec.ofNat 64 (field d 0 8)) (BitVec.ofNat 64 (field d 8 8))).toNat) := by
  unfold PeerBacked at hb
  unfold State.peerArrives
  dsimp only
  rw [if_neg (by rw [hb]; decide), if_neg (by decide), if_neg (by decide), if_pos rfl, if_neg (not_not.2 ha), hr]
  dsimp only [State.tryHome]
  rw [if_neg (by rw [← Option.not_isSome, hw]; decide)]

theorem enginePut_now {line : Nat} {x : BitVec 512} {m : BitVec 64} (hc : s.canEngineWrite line = true)
    (hw : s.engineWriteLine line x m = some s1) : s.enginePut line x m = s1 := by
  unfold State.enginePut
  refine (if_pos hc).trans ?_
  rw [hw]
  rfl

theorem enginePut_held {line : Nat} {x : BitVec 512} {m : BitVec 64} (hc : s.canEngineWrite line = false) :
    s.enginePut line x m = (s.snoopLine line).hold ⟨3, s.localLine line, x, m, false, none, none⟩ := by
  unfold State.enginePut
  exact if_neg (by rw [hc]; decide)

end

/-! ## Answers, refusals and silence -/

section
variable {s : State} {k : Nat} {d : List Byte} {p : PeerAcc}

/-- What stands after an access has left the list. -/
def State.withoutPeer (s : State) (k : Nat) : State := { s with peers := s.peers.eraseIdx k }

theorem peerAnswers_engine (hp : s.peers[k]? = some p) (h7 : p.dest = 7) :
    s.peerAnswers k d =
      ({ s with peers := s.peers.set k { p with dest := 6, line := lineOf (d.take 64) } } : State).clearPoison (p.pa / 64) := by
  unfold State.peerAnswers
  rw [hp]
  refine (if_neg (by rw [h7]; decide)).trans ((if_pos h7).trans ?_)
  unfold State.homeAnswer
  rw [hp]
  exact if_neg Bool.false_ne_true

/-- The answer of an atomic whose unit an abort has taken. -/
theorem peerAnswers_replay {uid kind : Nat} {ops : List Nat} (hp : s.peers[k]? = some p) (h2 : p.kind = 2) (h8 : p.dest = 8)
    (ho : p.once = some (uid, kind, ops)) :
    s.peerAnswers k d =
      (s.withoutPeer k).modTask uid fun t => { t with replay := t.replay ++ [⟨kind, p.pa, ops, leNat (d.take 8), t.openMark⟩] } := by
  unfold State.peerAnswers
  rw [hp]
  dsimp only
  rw [if_neg (by rw [h8]; decide), if_neg (by rw [h8]; decide), if_neg (by rw [h2]; decide), if_pos h2, if_neg (by rw [h8]; decide), if_pos h8, ho]
  rfl

/-- The answer that a unit waits for, by the kind of its access. -/
theorem peerAnswers_unit (hp : s.peers[k]? = some p) (hd : p.dest ≤ 1) :
    s.peerAnswers k d =
      if p.kind = 0 then (s.withoutPeer k).peerFill (thrDie p.thr) (p.pa / 64) (lineOf (d.take 64))
      else if p.kind = 2 then { s with peers := s.peers.set k { p with dest := 9, d := leNat (d.take 8) } }
      else if p.kind = 1 then (s.withoutPeer k).peerAcked (p.pa / 64)
      else s.withoutPeer k := by
  have h6 : p.dest ≠ 6 := by omega
  have h7 : p.dest ≠ 7 := by omega
  have h8 : p.dest ≠ 8 := by omega
  have h9 : p.dest ≠ 9 := by omega
  unfold State.peerAnswers
  rw [hp]
  dsimp only
  rw [if_neg h6, if_neg h7, if_neg h9, if_neg h8]
  rfl

theorem peerFails_lost {refused : Bool} (hp : s.peers[k]? = some p) (h8 : p.dest = 8) :
    s.peerFails k refused = (s.withoutPeer k).peerEvent p refused := by
  unfold State.peerFails
  rw [hp]
  refine (if_neg (by rw [h8]; decide)).trans ((if_neg ?_).trans (if_pos h8))
  rw [h8]
  exact fun h => absurd h.2 (by decide)

theorem peerFails_unit {refused : Bool} (hp : s.peers[k]? = some p) (hd : p.dest ≤ 1) :
    s.peerFails k refused =
      if p.kind = 0 ∨ p.kind = 2 then ((s.withoutPeer k).peerEvent p refused).peerPoison p
      else if p.kind = 1 then ((s.withoutPeer k).peerEvent p refused).peerAcked (p.pa / 64)
      else (s.withoutPeer k).peerEvent p refused := by
  have h69 : ¬ (p.dest = 9 ∨ p.dest = 6) := by omega
  have h7 : ¬ (p.thr = engineReader.1 ∧ p.dest = 7) := by omega
  have h8 : p.dest ≠ 8 := by omega
  unfold State.peerFails
  rw [hp]
  exact (if_neg h69).trans ((if_neg h7).trans (if_neg h8))

/-- A refusal fails an access, and so does its silence of 1 ms. -/
theorem leaves_peerFails {refused : Bool} {t : State} (hp : s.peers[k]? = some p) (h : s.peerFails k refused = t) :
    (refused = true → Leaves (.peerRefusal k) s t) ∧ (refused = false → p.issued + 1000000 ≤ s.now → Leaves (.peerTimeout k) s t) := by
  refine ⟨?_, ?_⟩
  · rintro rfl
    exact leaves_next rfl h
  · rintro rfl ht
    refine leaves_next rfl ((if_pos ?_).trans h)
    rw [hp]
    exact decide_eq_true ht

end

/-! ## Packets -/

section
variable {s : State} {msg pkt ofs : Nat} {d : List Byte} {c : Coll}

/-- What has come of a message. -/
def State.msgIn (s : State) (msg : Nat) : EthMsg := (s.eth.find? fun e => e.num == msg && e.inc).getD ⟨msg, true, 0, [], [], []⟩

/-- The collective that the number of a message names. -/
def State.collOfMsg (s : State) (msg : Nat) : Option Coll :=
  s.colls.find? fun c => decide (c.comm % 2 ^ 16 = msg / 4096 % 2 ^ 16 ∧ c.ord = msg / 2 ^ 28)

theorem ethPlace_known (hc : s.collOfMsg msg = some c) (hg : (s.msgIn msg).got.contains pkt = true) : s.ethPlace msg pkt ofs d = s := by
  unfold State.collOfMsg at hc
  unfold State.msgIn at hg
  unfold State.ethPlace
  dsimp only
  rw [hc]
  exact if_pos hg

theorem leaves_ethPacket {port : Nat} {t : State} (hl : d.length ≤ 4096) (h : s.ethPlace msg pkt ofs d = t) :
    Leaves (.ethPacketArrival port msg pkt ofs d) s t := leaves_next rfl ((if_pos hl).trans h)

/-- A new packet is noted in its message, and its collective takes what it brings. -/
theorem ethPlace_new (hc : s.collOfMsg msg = some c) (hg : (s.msgIn msg).got.contains pkt = false) :
    s.ethPlace msg pkt ofs d =
      (let late := (List.range pkt).filter fun p => !((s.msgIn msg).got.contains p || (s.msgIn msg).missing.contains p)
       let new : EthMsg := { s.msgIn msg with
         got := (s.msgIn msg).got ++ [pkt], missing := (s.msgIn msg).missing.filter (· != pkt) ++ late }
       let c0 : Coll := { c with heard := Tab.put (msg % 4096) s.now c.heard }
       let c1 : Coll := if pkt = 0 then { c0 with heads := c.heads ++ [(msg % 4096, field d 0 1, field d 1 1, field d 8 8)] }
         else { c0 with inputs := c.inputs ++ [(msg % 4096, ofs, d)] }
       let t : State := { s with
         eth := (s.eth.filter fun e => !(e.num == msg && e.inc)) ++ [new], colls := s.colls.map fun x => if x = c then c1 else x }
       if pkt = 0 ∧ (field d 0 1 ≠ c.op ∨ field d 1 1 ≠ c.fmt ∨ field d 8 8 ≠ c.count) then t.collDisagree c1 else t) := by
  unfold State.collOfMsg at hc
  unfold State.msgIn at hg
  unfold State.ethPlace
  dsimp only
  rw [hc]
  exact if_neg (by rw [hg]; decide)

end

/-! ## Chunks -/

section
variable {s s0 s1 : State} {k : Nat} {c c0 : Coll} {m : Comm}

/-- A chunk whose first stage is over, in this step or before, goes on with its second. -/
theorem collChunk_second (hc : s.colls[k]? = some c) (hm : s.commOf c = some m) (hs : c.stopped = false)
    (h : c.done.contains (c.chunks, 0) = true ∧ s0 = s ∧ c0 = c ∨
      ∃ t, c.done.contains (c.chunks, 0) = false ∧ s.collSend c m = .ok t ∧ c0 = { c with done := c.done ++ [(c.chunks, 0)] } ∧
        s0 = { t with colls := t.colls.set k c0 }) : s.collChunk k = s0.collOut k c0 m := by
  unfold State.collChunk
  rw [hc]
  dsimp only
  rw [hm]
  dsimp only
  rw [if_neg (by rw [hs]; decide)]
  rcases h with ⟨hd, rfl, rfl⟩ | ⟨t, hd, ht, rfl, rfl⟩
  · exact if_pos hd
  · refine (if_neg (by rw [hd]; decide)).trans ?_
    rw [ht]

theorem collOut_waits (h : (List.range m.n).all (fun r => r == m.rank || c.heads.any fun h => h.1 == r) = false) :
    s.collOut k c m = s := by
  unfold State.collOut
  exact if_pos (by rw [h]; rfl)

/-- The output of a chunk whose inputs are there, none of them poisoned, is written. -/
theorem collOut_writes {out : List Byte} {f : Fl} (h : (List.range m.n).all (fun r => r == m.rank || c.heads.any fun h => h.1 == r) = true)
    (ho : s.collOutput c m c.chunk.1 c.chunk.2 = .ok (s1, some (out, f), [])) (hw : s1.collMayWrite c (c.dst + c.chunk.1) out = true) :
    s.collOut k c m =
      (let s2 := s1.collWrite c (c.dst + c.chunk.1) out
       let c1 := { c with done := c.done ++ [(c.chunks, 1)], flags := orFlags c.flags f }
       let s3 : State := { s2 with fresh := s2.fresh + c.chunk.2, colls := s2.colls.set k c1 }
       if c.chunk.1 + c.chunk.2 < c.count * c.esize then s3 else s3.collEnds c1) := by
  unfold State.collOut
  dsimp only
  rw [if_neg (by rw [h]; decide), ho]
  dsimp only
  rw [if_neg (by rw [hw]; decide)]
  rfl

theorem leaves_collectiveStall {rank : Nat} (hc : s.colls[k]? = some c) (hm : s.commOf c = some m) (ho : c.owes m rank = true)
    (ht : Tab.getD c.heard rank c.since + 1000000000 ≤ s.now) (hn : c.stalled = none) :
    Leaves (.collectiveStall k rank) s
      (({ s with colls := s.colls.set k { c with stalled := some rank } } : State).collEvent c rank 0) := by
  refine leaves_next rfl ?_
  rw [hc]
  dsimp only
  rw [hm, hn]
  refine if_neg ?_
  rw [Option.map_some, Option.getD_some, ho, decide_eq_true ht]
  decide

end

/-- Settles O59: each event of the links in the state that lets it act. -/
theorem linkEvents : Obligations.LinkEvents := by
  unfold Obligations.LinkEvents
  intro s k peer pa0 mask port msg pkt ofs rank d pkts
  refine ⟨?_, fun p hp => ?_, fun c hl hc => ?_, leaves_next rfl rfl, leaves_next rfl rfl, fun c m s0 c0 s1 out f hc hm hs h => ?_,
    fun c m hc hm ho ht hn => leaves_collectiveStall hc hm ho ht hn⟩
  · intro pa line data hb
    refine ⟨fun s1 l bad hr => leaves_next rfl (peerArrives_load hb hr), fun kind hk => ⟨fun s1 hc hw => ?_, fun hc => ?_⟩,
      fun s1 l h10 ha hr hw => ?_, fun s1 l ha hr hw => ?_⟩
    · exact leaves_next rfl ((peerArrives_write hb hk).trans (enginePut_now hc hw))
    · exact leaves_next rfl ((peerArrives_write hb hk).trans (enginePut_held hc))
    · exact leaves_next rfl ((peerArrives_atomic hb ha hr hw).trans (if_neg h10))
    · have h8 : pa % 8 = 0 := by
        clear_value pa
        omega
      exact leaves_next rfl ((peerArrives_atomic hb h8 hr hw).trans ((if_pos rfl).trans (if_pos ha)))
  · intro gone line fails
    refine ⟨fun h7 => leaves_next rfl (peerAnswers_engine hp h7),
      fun h2 h8 uid kind ops ho => leaves_next rfl (peerAnswers_replay hp h2 h8 ho),
      fun refused h8 => leaves_peerFails hp (peerFails_lost hp h8), fun hd => ?_⟩
    have ha := peerAnswers_unit (d := d) hp hd
    refine ⟨fun h0 => leaves_next rfl (ha.trans (if_pos h0)), fun h2 => ?_, fun h1 => ?_, fun h3 => ?_, fun refused => ?_⟩
    · exact leaves_next rfl (ha.trans ((if_neg (by rw [h2]; decide)).trans (if_pos h2)))
    · exact leaves_next rfl (ha.trans ((if_neg (by rw [h1]; decide)).trans ((if_neg (by rw [h1]; decide)).trans (if_pos h1))))
    · exact leaves_next rfl (ha.trans ((if_neg (by rw [h3]; decide)).trans ((if_neg (by rw [h3]; decide)).trans (if_neg (by rw [h3]; decide)))))
    · have hf := peerFails_unit (refused := refused) hp hd
      refine ⟨fun h => leaves_peerFails hp (hf.trans (if_pos h)), fun h1 => ?_, fun h3 => ?_⟩
      · exact leaves_peerFails hp (hf.trans ((if_neg (by rw [h1]; decide)).trans (if_pos h1)))
      · exact leaves_peerFails hp (hf.trans ((if_neg (by rw [h3]; decide)).trans (if_neg (by rw [h3]; decide))))
  · intro old
    refine ⟨fun hg => leaves_ethPacket hl (ethPlace_known hc hg), fun hg => ?_⟩
    intro late new heard with_ c1 same
    have hn := ethPlace_new (ofs := ofs) (d := d) hc hg
    refine ⟨fun h0 => leaves_ethPacket hl (hn.trans ?_), fun h0 hs => leaves_ethPacket hl (hn.trans ?_),
      fun h0 hs => leaves_ethPacket hl (hn.trans ?_)⟩
    · dsimp only
      rw [if_neg h0, if_neg (fun h => h0 h.1)]
      rfl
    · obtain ⟨ho, hf, hc⟩ := hs
      dsimp only
      rw [if_pos h0, if_neg (by rw [ho, hf, hc]; simp)]
      rfl
    · have hd : field d 0 1 ≠ c.op ∨ field d 1 1 ≠ c.fmt ∨ field d 8 8 ≠ c.count := by
        by_contra hno
        push Not at hno
        exact hs hno
      dsimp only
      rw [if_pos h0, if_pos ⟨h0, hd⟩]
      rfl
  · have hd := collChunk_second hc hm hs h
    refine ⟨fun hw => leaves_next rfl (hd.trans (collOut_waits hw)), fun hw => ?_⟩
    intro lo n ho hm2 s2 c1 s3
    exact leaves_next rfl (hd.trans (collOut_writes hw ho hm2))

end Sys2Proof.Machine
end

section

/-! A request read back from the SRAM of Agate (R464, R465). -/

namespace Sys2Proof.Machine
open Sys2Proof

/-- Agate's thread at its wait, over an SRAM whose table lists the first byte of the request buffer twice: a byte of 0 written there takes the
first entry away and leaves the second, 0x14, to be read. -/
def twiceListed : State :=
  { State.reset with
    thr := [(agateThr, agateStart)], boot := { Boot.blank with stage := 4 }
    agate := { Agate.blank with sram := [(reqBuf, 1#8), (reqBuf, 0x14#8)] } }

/-- The replies that a step has sent. -/
def sentBy : Out → List (Nat × List Byte)
  | .next t => t.agate.sent
  | _ => []

/-- A request of four zero bytes is answered as one of version 0x14 with an unknown code. -/
theorem sentBy_twiceListed :
    sentBy (exec (.spdmUnsupportedRequest 0 (List.replicate 4 0#8)) twiceListed) = [(0, spdmError 0x07 0)] := by
  decide +kernel

/-- The reply that the statement names for it is that of another version. -/
theorem sent_otherVersion :
    (((twiceListed.agate.enter 0 (List.replicate 4 0#8)).put repBuf (spdmError 0x41 0)).send 4).sent = [(0, spdmError 0x41 0)] := by
  decide +kernel

theorem sent_bmcReply (s : State) (a : Agate) : (s.bmcReply a).agate.sent = s.agate.sent := by
  unfold State.bmcReply
  split <;> rfl

/-- Refutes O60: its clauses take the request as it came, and the responder reads it back from an SRAM that no clause holds to the canonical form. -/
theorem not_securityEvents : ¬ Obligations.SecurityEvents := by
  unfold Obligations.SecurityEvents
  intro h
  obtain ⟨hspdm, -⟩ := h twiceListed 0 (List.replicate 4 0#8) 0#4 0#4 0#13
  have hgo : SpdmGo twiceListed 0 (List.replicate 4 0#8) :=
    ⟨by decide, by decide, by decide, rfl, by decide +kernel, rfl⟩
  obtain ⟨-, -, -, -, -, -, -, -, hother⟩ := hspdm hgo
  obtain ⟨-, hversion⟩ := hother (by decide +kernel)
  have hreply := hversion (by decide +kernel)
  have hsent := (congrArg sentBy hreply).symm.trans sentBy_twiceListed
  have hsaid := (sent_bmcReply _ _).symm.trans hsent
  exact absurd (sent_otherVersion.symm.trans hsaid) (by decide +kernel)

end Sys2Proof.Machine
end

section

/-! What a word that writes one register, or one predicate, leaves unchanged (R26, R286 to R292, R305). -/

namespace Sys2Proof.Machine
open Sys2Proof

/-! ## The rest of a thread -/

/-- Of a thread's state, all that programs see of it but its g registers and its predicates. -/
def Thread.rest (t : Thread) :=
  (t.h, t.xl, t.xs, t.a, t.m, t.s, t.eb, t.q, t.tok, t.flags, t.status, t.trapCause, t.trapPc, t.trapTask, t.trapInfo, t.handlerBase, t.ldQ, t.cpQ, t.stQ)

@[simp] theorem rest_wrG (t : Thread) (r : Nat) (v : W) : (wrG t r v).rest = t.rest := by
  simp [Thread.rest]

@[simp] theorem rest_freeG (t : Thread) (l : BitVec 1) (r : Nat) : (freeG t l r).rest = t.rest := by
  simp [Thread.rest]

@[simp] theorem rest_wrP (t : Thread) (r : Nat) (b : Bool) : (wrP t r b).rest = t.rest := by
  simp [Thread.rest]

@[simp] theorem rest_ctlDone (t : Thread) (pc : Option Nat) : (t.ctlDone pc).rest = t.rest := by
  simp [Thread.rest]

/-- A predicate written changes no other bit. -/
theorem getLsbD_wrP_ne (t : Thread) {r q : Nat} (b : Bool) (h : q ≠ r) : (wrP t r b).p.getLsbD q = t.p.getLsbD q := by
  have hone : (1#8 <<< r).getLsbD q = false := by
    rw [BitVec.getLsbD_shiftLeft, BitVec.getLsbD_one]
    rcases Nat.lt_or_ge q r with hlt | hge
    · simp [hlt]
    · have : q - r ≠ 0 := by omega
      simp [this]
  unfold wrP
  split
  · rfl
  · cases b
    · rw [if_neg (by decide), BitVec.getLsbD_and, BitVec.getLsbD_not, hone]
      by_cases hq : q < 8
      · simp [hq]
      · simp [BitVec.getLsbD_of_ge t.p q (Nat.not_lt.1 hq)]
    · rw [if_pos rfl, BitVec.getLsbD_or, hone, Bool.or_false]

/-! ## One thread changed, in its registers -/

/-- The thread of the acting unit takes new registers and its place in the stream moves. -/
theorem onlyThread_setTh_ctlDone (s : State) (w : Thread) (pc : Option Nat) :
    OnlyThread s.me s ((s.setTh w).modThread s.me fun th => th.ctlDone pc) := by
  refine ⟨rfl, fun j hj => ?_⟩
  rw [thread_modThread_ne _ _ hj]
  exact thread_setThread_ne _ _ hj

theorem thread_setTh_ctlDone (s : State) (w : Thread) (pc : Option Nat) :
    ((s.setTh w).modThread s.me fun th => th.ctlDone pc).thread s.me = w.ctlDone pc := by
  simp [State.setTh]

/-- A word that gives the acting thread the registers `w` leaves them, with the place in the stream moved, and nothing else changed. -/
theorem frame_of_does {i : Instr} {s t : State} {w : Thread} {pc : Option Nat} (hd : Does i s (s.setTh w) pc) (ht : exec i s = .next t) :
    OnlyThread s.me s t ∧ SameMemory s t ∧ t.thread s.me = w.ctlDone pc := by
  have he : ((s.setTh w).modThread s.me fun th => th.ctlDone pc) = t := Host.Outcome.next.inj (hd.symm.trans ht)
  rw [← he]
  exact ⟨onlyThread_setTh_ctlDone s w pc, fun _ => rfl, thread_setTh_ctlDone s w pc⟩

/-- A word writes one g register of the acting thread, after freeing sources. -/
def WritesG (i : Instr) (s : State) (d : BitVec 5) : Prop :=
  ∃ w v, Does i s (s.setTh (wrG w d.toNat v)) none ∧ w.g = s.th.g ∧ w.p = s.th.p ∧ w.rest = s.th.rest

/-- A word writes one predicate of the acting thread, after freeing sources. -/
def WritesP (i : Instr) (s : State) (p : BitVec 3) : Prop :=
  ∃ w v, Does i s (s.setTh (wrP w p.toNat v)) none ∧ w.g = s.th.g ∧ w.p = s.th.p ∧ w.rest = s.th.rest

section
variable {i : Instr} {s : State} {d a b : BitVec 5} {l m : BitVec 1} {p : BitVec 3} {v : W} {c : Bool}

theorem writesG_free0 (h : Does i s (s.setTh (wrG s.th d.toNat v)) none) : WritesG i s d := ⟨_, _, h, rfl, rfl, rfl⟩

theorem writesG_free1 (h : Does i s (s.setTh (wrG (freeG s.th l a.toNat) d.toNat v)) none) : WritesG i s d :=
  ⟨_, _, h, by simp, by simp, by simp⟩

theorem writesG_free2 (h : Does i s (s.setTh (wrG (freeG (freeG s.th l a.toNat) m b.toNat) d.toNat v)) none) : WritesG i s d :=
  ⟨_, _, h, by simp, by simp, by simp⟩

end

/-- The integer words of two registers (R286 to R288). -/
def twoRegisterWords (d a : BitVec 5) (l : BitVec 1) (b : BitVec 5) (m : BitVec 1) : List Instr :=
  [.add d a l b m, .sub d a l b m, .mul d a l b m, .mulhs d a l b m, .mulhu d a l b m, .divs d a l b m, .divu d a l b m, .rems d a l b m,
    .remu d a l b m, .and d a l b m, .or d a l b m, .xor d a l b m, .shl d a l b m, .shr d a l b m, .sar d a l b m, .min d a l b m,
    .max d a l b m, .minu d a l b m, .maxu d a l b m]

/-- The integer words of one register but the shifts, LDI, and the select (R286, R289, R290). -/
def oneRegisterWords (d a b : BitVec 5) (l m : BitVec 1) (n : BitVec 12) (j : BitVec 18) (p : BitVec 3) : List Instr :=
  [.addi d a l n, .andi d a l n, .ori d a l n, .xori d a l n, .clz d a l, .ctz d a l, .popc d a l, .ldi d j, .sel d a l b m p]

section
variable {s : State} {d a b : BitVec 5} {l m : BitVec 1} {x y : W} {i : Instr}

theorem writesG_twoRegisters (hgo : CtlGo s false) (hx : rdG s s.th a.toNat 0 = .ok x) (hy : rdG s s.th b.toNat 1 = .ok y)
    (hi : i ∈ twoRegisterWords d a l b m) : WritesG i s d := by
  obtain ⟨h, -⟩ := integerThreeRegisterWords
  obtain ⟨h1, h2, h3, h4, h5, h6, h7, h8, h9, h10, h11, h12, h13, h14, h15, h16, h17, h18, h19⟩ := h s d a l b m x y hgo hx hy
  simp only [twoRegisterWords, List.mem_cons, List.not_mem_nil, or_false] at hi
  rcases hi with rfl | rfl | rfl | rfl | rfl | rfl | rfl | rfl | rfl | rfl | rfl | rfl | rfl | rfl | rfl | rfl | rfl | rfl | rfl
  exacts [writesG_free2 h1, writesG_free2 h2, writesG_free2 h3, writesG_free2 h4, writesG_free2 h5, writesG_free2 h6, writesG_free2 h7,
    writesG_free2 h8, writesG_free2 h9, writesG_free2 h10, writesG_free2 h11, writesG_free2 h12, writesG_free2 h13, writesG_free2 h14,
    writesG_free2 h15, writesG_free2 h16, writesG_free2 h17, writesG_free2 h18, writesG_free2 h19]

theorem writesG_oneRegister {n : BitVec 12} {j : BitVec 18} {p : BitVec 3} (hgo : CtlGo s false) (hx : rdG s s.th a.toNat 0 = .ok x)
    (hy : rdG s s.th b.toNat 1 = .ok y)
    (hi : i ∈ oneRegisterWords d a b l m n j p) : WritesG i s d := by
  obtain ⟨h, -⟩ := integerImmediateWords
  obtain ⟨hldi, -, hone⟩ := h s d a l b m n j p x y hgo
  obtain ⟨h1, h2, h3, h4, -, h5, h6, h7, hsel⟩ := hone hx
  simp only [oneRegisterWords, List.mem_cons, List.not_mem_nil, or_false] at hi
  rcases hi with rfl | rfl | rfl | rfl | rfl | rfl | rfl | rfl | rfl
  exacts [writesG_free1 h1, writesG_free1 h2, writesG_free1 h3, writesG_free1 h4, writesG_free1 h5, writesG_free1 h6, writesG_free1 h7,
    writesG_free0 hldi, writesG_free2 (hsel hy)]

theorem writesG_shift {n : BitVec 12} (hgo : CtlGo s false) (hx : rdG s s.th a.toNat 0 = .ok x) (hn : immU s.th.pfx 12 n.toNat ≤ 63)
    (hi : i ∈ ([.shli d a l n, .shri d a l n, .sari d a l n] : List Instr)) : WritesG i s d := by
  obtain ⟨h, -⟩ := integerImmediateWords
  obtain ⟨-, -, hone⟩ := h s d a l 0#5 0#1 n 0#18 0#3 x 0#64 hgo
  obtain ⟨-, -, -, -, hshift, -⟩ := hone hx
  obtain ⟨h1, h2, h3⟩ := hshift hn
  simp only [List.mem_cons, List.not_mem_nil, or_false] at hi
  rcases hi with rfl | rfl | rfl
  exacts [writesG_free1 h1, writesG_free1 h2, writesG_free1 h3]

theorem writesG_ldhi {j : BitVec 18} (hgo : CtlGo s false) (hy : rdG s s.th d.toNat 0 = .ok y) (hj : immU s.th.pfx 18 j.toNat < 2 ^ 32) :
    WritesG (.ldhi d j) s d := by
  obtain ⟨h, -⟩ := integerImmediateWords
  obtain ⟨-, hldhi, -⟩ := h s d 0#5 0#1 0#5 0#1 0#12 j 0#3 0#64 y hgo
  exact writesG_free0 (hldhi hy hj)

theorem writesG_tkcnt {k : BitVec 4} (hgo : CtlGo s false) (hk : k.toNat ≤ 8) : WritesG (.tkcnt d k) s d := by
  obtain ⟨-, h⟩ := emitAndTokenWords
  obtain ⟨-, -, htkcnt⟩ := h s 0#6 k d
  exact writesG_free0 (htkcnt hgo hk)

theorem exists_condHolds {c : Nat} (x y : W) (hc : c ≤ 9) : ∃ v, condHolds c x y = some v := by
  interval_cases c <;> exact ⟨_, rfl⟩

theorem writesP_compare {p : BitVec 3} {c : BitVec 4} {q : BitVec 10} (hgo : CtlGo s false) (hx : rdG s s.th a.toNat 0 = .ok x)
    (hy : rdG s s.th b.toNat 1 = .ok y) (hc : c.toNat ≤ 9) : WritesP (.cmp p a l b m c) s p ∧ WritesP (.cmpi p c a l q) s p := by
  obtain ⟨h, -⟩ := predicateAndTransferWords
  obtain ⟨hcmp, hcmpi, -⟩ := h s p 0#3 0#3 0#3 a l b m c q x y hgo
  obtain ⟨v, hv⟩ := exists_condHolds x y hc
  obtain ⟨u, hu⟩ := exists_condHolds x (immW s.th.pfx 10 q.toNat) hc
  exact ⟨⟨_, _, hcmp hx hy v hv, by simp, by simp, by simp⟩, ⟨_, _, hcmpi hx u hu, by simp, by simp, by simp⟩⟩

theorem writesP_pset {p e f o : BitVec 3} (hgo : CtlGo s false) (ho : o.toNat ≤ 3) : WritesP (.pset p e f o) s p := by
  obtain ⟨h, -⟩ := predicateAndTransferWords
  obtain ⟨-, -, hpset⟩ := h s p e f o 0#5 0#1 0#5 0#1 0#4 0#10 0#64 0#64 hgo
  exact ⟨_, _, hpset ho, rfl, rfl, rfl⟩

end

section
variable {s t : State} {i : Instr}

/-- What a word leaves that writes a g register. -/
theorem frame_writesG {d : BitVec 5} (h : WritesG i s d) (ht : exec i s = .next t) :
    OnlyThread s.me s t ∧ SameMemory s t ∧ (∀ r, r ≠ d.toNat → vget (t.thread s.me).g r 0#64 = vget s.th.g r 0#64) ∧
      (d = 0#5 → (t.thread s.me).g = s.th.g) ∧ (t.thread s.me).p = s.th.p ∧ (t.thread s.me).rest = s.th.rest := by
  obtain ⟨w, v, hd, hg, hp, hr⟩ := h
  obtain ⟨hthread, hmem, he⟩ := frame_of_does hd ht
  refine ⟨hthread, hmem, fun r hne => ?_, ?_, ?_, ?_⟩
  · rw [he, ctlDone_g, vget_wrG_ne _ _ hne, hg]
  · rintro rfl
    rw [he, ctlDone_g, ← hg]
    rfl
  · rw [he, ctlDone_p, wrG_p, hp]
  · rw [he, rest_ctlDone, rest_wrG, hr]

/-- What a word leaves that writes a predicate. -/
theorem frame_writesP {p : BitVec 3} (h : WritesP i s p) (ht : exec i s = .next t) :
    OnlyThread s.me s t ∧ SameMemory s t ∧ (∀ r, r ≠ p.toNat → (t.thread s.me).p.getLsbD r = s.th.p.getLsbD r) ∧
      (p = 0#3 → (t.thread s.me).p = s.th.p) ∧ (t.thread s.me).g = s.th.g ∧ (t.thread s.me).rest = s.th.rest := by
  obtain ⟨w, v, hd, hg, hp, hr⟩ := h
  obtain ⟨hthread, hmem, he⟩ := frame_of_does hd ht
  refine ⟨hthread, hmem, fun r hne => ?_, ?_, ?_, ?_⟩
  · rw [he, ctlDone_p, getLsbD_wrP_ne _ _ hne, hp]
  · rintro rfl
    rw [he, ctlDone_p, ← hp]
    rfl
  · rw [he, ctlDone_g, wrP_g, hg]
  · rw [he, rest_ctlDone, rest_wrP, hr]

end

/-- Settles O18: a word that writes one g register, and one that writes one predicate. -/
theorem integerWordFrame : Obligations.IntegerWordFrame := by
  unfold Obligations.IntegerWordFrame
  intro s t d a l b m n j p e f o c k q x y z i hgo hx hy toG toP hi ht u v
  have hG : toG → WritesG i s d := by
    rintro (hmem | ⟨hmem, hn⟩ | ⟨rfl, hz, hj⟩ | ⟨rfl, hk⟩)
    · have hmem : i ∈ twoRegisterWords d a l b m ++ oneRegisterWords d a b l m n j p := hmem
      rcases List.mem_append.1 hmem with hmem | hmem
      · exact writesG_twoRegisters hgo hx hy hmem
      · exact writesG_oneRegister hgo hx hy hmem
    · exact writesG_shift hgo hx hn hmem
    · exact writesG_ldhi hgo hz hj
    · exact writesG_tkcnt hgo hk
  have hP : toP → WritesP i s p := by
    rintro (⟨rfl | rfl, hc⟩ | ⟨rfl, ho⟩)
    · exact (writesP_compare (q := q) hgo hx hy hc).1
    · exact (writesP_compare (m := m) hgo hx hy hc).2
    · exact writesP_pset hgo ho
  have hframe : OnlyThread s.me s t ∧ SameMemory s t ∧ (t.thread s.me).rest = s.th.rest := by
    rcases hi with hi | hi
    · obtain ⟨h1, h2, -, -, -, h3⟩ := frame_writesG (hG hi) ht
      exact ⟨h1, h2, h3⟩
    · obtain ⟨h1, h2, -, -, -, h3⟩ := frame_writesP (hP hi) ht
      exact ⟨h1, h2, h3⟩
  obtain ⟨hthread, hmem, hrest⟩ := hframe
  refine ⟨hthread, hmem, fun hg => ?_, fun hp => ?_, ?_⟩
  · obtain ⟨-, -, h1, h2, h3, -⟩ := frame_writesG (hG hg) ht
    exact ⟨h1, h2, h3⟩
  · obtain ⟨-, -, h1, h2, h3, -⟩ := frame_writesP (hP hp) ht
    exact ⟨h1, h2, h3⟩
  · simpa only [Thread.rest, Prod.mk.injEq] using hrest

end Sys2Proof.Machine
end

section

/-! What the machine changes around a word that completes (R135, R136, R138, R161, R225, R269, R283). -/

namespace Sys2Proof.Machine
open Sys2Proof

/-! ## Changes of one thread and its cluster -/

/-- Two states differ at most in the thread `k` and in its cluster. -/
structure Around (k : Nat) (s u : State) : Prop where
  rest : u = { s with thr := u.thr, clusters := u.clusters }
  threads : ∀ j, j ≠ k → u.thread j = s.thread j
  others : ∀ j, j ≠ thrCluster k → u.cluster j = s.cluster j

theorem Around.refl (k : Nat) (s : State) : Around k s s := ⟨rfl, fun _ _ => rfl, fun _ _ => rfl⟩

theorem Around.trans {k : Nat} {s t u : State} (h : Around k s t) (g : Around k t u) : Around k s u where
  rest := by
    rw [g.rest, h.rest]
  threads j hj := (g.threads j hj).trans (h.threads j hj)
  others j hj := (g.others j hj).trans (h.others j hj)

theorem Around.mem {k : Nat} {s u : State} (h : Around k s u) : u.mem = s.mem := by
  rw [h.rest]

theorem around_setThread (s : State) (k : Nat) (x : Thread) : Around k s (s.setThread k x) :=
  ⟨rfl, fun _ h => thread_setThread_ne s x h, fun _ _ => rfl⟩

theorem around_modCluster (s : State) (k : Nat) (f : Cluster → Cluster) : Around k s (s.modCluster (thrCluster k) f) :=
  ⟨rfl, fun _ _ => rfl, fun _ h => cluster_modCluster_ne s f h⟩

/-! ## The permit, the whole marks and the lease -/

/-- A cluster with a permit of a class taken. -/
def Cluster.permitTaken (c : Cluster) (cls seat : Nat) : Cluster :=
  { c with perm := vset c.perm cls { vget c.perm cls Permit.full with count := (vget c.perm cls Permit.full).count - 1 }, permLast := vset c.permLast cls seat }

/-- A slot that counts a word of its thread. -/
def AccSlot.counted (a : AccSlot) (uid pos : Nat) : AccSlot :=
  if a.isOf uid (some pos) then { a with since := a.since + 1, whole := a.whole && decide (a.since ≤ 256) } else a

/-- A cluster whose tiles count a word of a thread. -/
def Cluster.wholeCounted (c : Cluster) (uid pos : Nat) : Cluster := { c with acc := c.acc.map fun a => a.counted uid pos }

variable {s : State} {k : Nat} {q : Sq} {eng : Eng}

theorem takePermit_eq (s : State) (k : Nat) (q : Sq) (cls : Nat) :
    s.takePermit k q cls = (s.modCluster (thrCluster k) fun c => c.permitTaken cls (permitSeat k q)).modThread k
      fun t => { t with permits := t.permits + 1 } := rfl

theorem countWhole_eq (s : State) (k : Nat) (q : Sq) :
    s.countWhole k q = if q ≠ .comp then s
      else s.modCluster (thrCluster k) fun c => c.wholeCounted (s.thread k).task (s.thread k).gangPos := rfl

/-- The state in which a word issues: its permit taken, its tiles counted, the time of the lease noted for a matrix word. -/
def State.charged (s : State) (k : Nat) (eng : Eng) (q : Sq) : State :=
  let s := (s.takePermit k q (permitClass eng)).countWhole k q
  if eng = .matrix then s.touchLease k else s

theorem around_countWhole (s : State) (k : Nat) (q : Sq) : Around k s (s.countWhole k q) := by
  rw [countWhole_eq]
  split
  · exact Around.refl k s
  · exact around_modCluster s k _

theorem around_touchLease (s : State) (k : Nat) : Around k s (s.touchLease k) := by
  unfold State.touchLease
  split
  · exact around_modCluster s k _
  · exact Around.refl k s

theorem around_charged (s : State) (k : Nat) (eng : Eng) (q : Sq) : Around k s (s.charged k eng q) := by
  have h := ((around_modCluster s k _).trans (around_setThread _ k _)).trans (around_countWhole (s.takePermit k q (permitClass eng)) k q)
  unfold State.charged
  dsimp only
  split
  · exact h.trans (around_touchLease _ k)
  · exact h

theorem thread_countWhole (s : State) (k j : Nat) (q : Sq) : (s.countWhole k q).thread j = s.thread j := by
  rw [countWhole_eq]
  split <;> rfl

theorem thread_touchLease (s : State) (k j : Nat) : (s.touchLease k).thread j = s.thread j := by
  unfold State.touchLease
  split <;> rfl

theorem thread_takePermit_countWhole (s : State) (k cls : Nat) (q : Sq) :
    ((s.takePermit k q cls).countWhole k q).thread k = { s.thread k with permits := (s.thread k).permits + 1 } := by
  rw [thread_countWhole, takePermit_eq, thread_modThread_self]
  rfl

/-- The thread of a word that issues has used one permit more. -/
theorem thread_charged (s : State) (k : Nat) (eng : Eng) (q : Sq) :
    (s.charged k eng q).thread k = { s.thread k with permits := (s.thread k).permits + 1 } := by
  unfold State.charged
  dsimp only
  split
  · rw [thread_touchLease, thread_takePermit_countWhole]
  · exact thread_takePermit_countWhole s k _ q

theorem cluster_countWhole (s : State) (k : Nat) (q : Sq) :
    (s.countWhole k q).cluster (thrCluster k) =
      if q ≠ .comp then s.cluster (thrCluster k) else (s.cluster (thrCluster k)).wholeCounted (s.thread k).task (s.thread k).gangPos := by
  rw [countWhole_eq]
  split
  · rfl
  · exact cluster_modCluster_self s _ _

/-- The cluster of a thread once a permit is taken and its tiles have counted. -/
def State.countedCluster (s : State) (k cls : Nat) (q : Sq) : Cluster :=
  let x := (s.cluster (thrCluster k)).permitTaken cls (permitSeat k q)
  if q ≠ .comp then x else x.wholeCounted (s.thread k).task (s.thread k).gangPos

theorem cluster_takePermit_countWhole (s : State) (k cls : Nat) (q : Sq) :
    ((s.takePermit k q cls).countWhole k q).cluster (thrCluster k) = s.countedCluster k cls q := by
  have hc : (s.takePermit k q cls).cluster (thrCluster k) = (s.cluster (thrCluster k)).permitTaken cls (permitSeat k q) :=
    cluster_modCluster_self s _ fun c => c.permitTaken cls (permitSeat k q)
  have ht : (s.takePermit k q cls).thread k = { s.thread k with permits := (s.thread k).permits + 1 } :=
    thread_modThread_self _ k _
  rw [cluster_countWhole, hc, ht]
  rfl

/-- What taking a permit and counting leaves of a cluster: the lease among the rest. -/
theorem countedCluster_frame (s : State) (k cls : Nat) (q : Sq) :
    s.countedCluster k cls q = { s.cluster (thrCluster k) with
      perm := (s.countedCluster k cls q).perm, permLast := (s.countedCluster k cls q).permLast, acc := (s.countedCluster k cls q).acc } := by
  unfold State.countedCluster
  dsimp only
  split <;> rfl

theorem Around.isActive {k j : Nat} {s u : State} (h : Around k s u) : u.isActive j = s.isActive j := by
  rw [h.rest]
  rfl

theorem holdsLease_takePermit_countWhole (s : State) (k cls : Nat) (q : Sq) :
    ((s.takePermit k q cls).countWhole k q).holdsLease k = s.holdsLease k := by
  have ha : ((s.takePermit k q cls).countWhole k q).isActive k = s.isActive k :=
    (((around_modCluster s k _).trans (around_setThread _ k _)).trans (around_countWhole (s.takePermit k q cls) k q)).isActive
  unfold State.holdsLease
  rw [cluster_takePermit_countWhole, ha, countedCluster_frame]

theorem now_takePermit_countWhole (s : State) (k cls : Nat) (q : Sq) : ((s.takePermit k q cls).countWhole k q).now = s.now := by
  rw [countWhole_eq]
  split <;> rfl

/-- The cluster of a word that issues. -/
theorem cluster_charged (s : State) (k : Nat) (eng : Eng) (q : Sq) :
    (s.charged k eng q).cluster (thrCluster k) = { s.countedCluster k (permitClass eng) q with
      leaseAt := if eng = .matrix ∧ s.holdsLease k = true then (s.cluster (thrCluster k)).cycles s.now
        else (s.cluster (thrCluster k)).leaseAt } := by
  have hk := cluster_takePermit_countWhole s k (permitClass eng) q
  have hf := countedCluster_frame s k (permitClass eng) q
  have hcyc : (s.countedCluster k (permitClass eng) q).cycles s.now = (s.cluster (thrCluster k)).cycles s.now := by
    rw [hf]
    rfl
  have hat : (s.countedCluster k (permitClass eng) q).leaseAt = (s.cluster (thrCluster k)).leaseAt := by
    rw [hf]
  unfold State.charged
  dsimp only
  by_cases hm : eng = .matrix
  · rw [if_pos hm]
    unfold State.touchLease
    rw [holdsLease_takePermit_countWhole]
    by_cases hh : s.holdsLease k = true
    · rw [if_pos hh, cluster_modCluster_self, hk, now_takePermit_countWhole, hcyc, if_pos ⟨hm, hh⟩]
    · rw [if_neg hh, hk, if_neg (fun h => hh h.2), ← hat]
  · rw [if_neg hm, hk, if_neg (fun h => hm h.1), ← hat]

theorem slotAt_wholeCounted (c : Cluster) (uid pos i : Nat) : (c.wholeCounted uid pos).slotAt i = (c.slotAt i).counted uid pos := by
  unfold Cluster.slotAt Cluster.wholeCounted vget
  dsimp only
  rw [Vector.getElem?_map]
  cases c.acc[i]? with
  | none => rfl
  | some a => rfl

/-- A slot counts a word of its thread alone, in its whole mark. -/
theorem counted_frame (a : AccSlot) (uid pos : Nat) :
    a.counted uid pos = { a with since := (a.counted uid pos).since, whole := (a.counted uid pos).whole } ∧
      (a.isOf uid (some pos) = false → a.counted uid pos = a) := by
  unfold AccSlot.counted
  constructor
  · split <;> rfl
  · intro h
    rw [if_neg (by rw [h]; decide)]

theorem slotAt_countedCluster (s : State) (k cls i : Nat) (q : Sq) :
    (s.countedCluster k cls q).slotAt i = if q ≠ .comp then (s.cluster (thrCluster k)).slotAt i
      else ((s.cluster (thrCluster k)).slotAt i).counted (s.thread k).task (s.thread k).gangPos := by
  unfold State.countedCluster
  dsimp only
  split
  · rfl
  · exact slotAt_wholeCounted _ _ _ _

/-! ## The unit that issues -/

theorem sameRegs_hist (t : Thread) (c : Prop) [Decidable c] (h : List (Nat × Sq × List W32)) :
    SameRegs t (if c then { t with hist := h } else t) := by
  split <;> exact SameRegs.refl t

theorem sameRegs_repState (t : Thread) (c : Prop) [Decidable c] (v : W32) : SameRegs t (if c then { t with repState := v } else t) := by
  split <;> exact SameRegs.refl t

theorem sameRegs_advance (t : Thread) (c : Bool) (q : Sq) (l : Bool) (u v : QUnit) (r : Option LoopRec) :
    SameRegs t (if c then t.retire q l u r else t.putUnit q l v) := by
  split
  · exact sameRegs_retire t q l u r
  · exact sameRegs_putUnit t q l v

theorem sameRegs_issuedUnit (t : Thread) (c : Cur) (w : W32) (r : EngRes) : SameRegs t (t.issuedUnit c w r) := by
  unfold Thread.issuedUnit
  exact (((((sameRegs_popTokens t _ _).trans (sameRegs_setWait _ _ _)).trans (sameRegs_setPhase _ _ _)).trans (sameRegs_record _ _ _)).trans
    (sameRegs_hist _ _ _)).trans ((sameRegs_advance _ _ _ _ _ _ _).trans (sameRegs_repState _ _ _))

/-- Pushing tokens looks at the counters alone to find one past its limit. -/
theorem pushTokens_flags (t : Thread) (q : Sq) (ts : Nat) (f : W32) :
    ((({ t with flags := f } : Thread).pushTokens q ts).2 = (t.pushTokens q ts).2) := by
  unfold Thread.pushTokens
  dsimp only
  generalize bit ts 0 = low
  generalize b01 (bit ts 1) + ts / 4 = n
  cases low <;> by_cases hn : n ≠ 0
  · simp only [if_pos hn]
    rfl
  · simp only [if_neg hn]
    rfl
  · simp only [if_pos hn]
    rfl
  · simp only [if_neg hn]
    rfl

/-- A word that finishes with no late cause, and with no counter past its limit. -/
theorem finishWord_quiet {s : State} {k : Nat} {eng : Eng} {q : Sq} {u : QUnit} {ts : Nat} (h : ((s.thread k).pushTokens q ts).2 = none) :
    s.finishWord k eng q u ts none = s.setThread k ((s.thread k).pushTokens q ts).1 := by
  unfold State.finishWord
  simp only [Option.isSome_none, Bool.false_eq_true, if_false, h]

/-- A thread with no trap pending takes new registers and none is settled. -/
theorem settleTrap_setThread {s : State} {k : Nat} {x b : Thread} (h : SameRegs x b) (hx : x.trapPend = none) :
    (s.setThread k b).settleTrap k = s.setThread k b := by
  obtain ⟨-, -, -, -, -, -, -, -, -, -, -, -, -, -, -, hb⟩ := h
  exact settleTrap_none (by rw [thread_setThread_self, hb, hx])

/-- The state in which a word has issued: its thread with new queues, tokens and records, and the flags that it raises when it is over at once. -/
structure IssuedBy (r : EngRes) (k : Nat) (s u : State) : Prop where
  around : Around k s u
  clusters : u.clusters = s.clusters
  regs : ∃ f, (f = (s.thread k).flags ∨ f = (s.thread k).flags ||| r.flags) ∧ SameRegs { s.thread k with flags := f } (u.thread k)

/-- The flight of a word that finishes later. -/
def EngRes.flight (r : EngRes) (eng : Eng) (c : Cur) (w : W32) : Flight :=
  Flight.mk c.unit.seq eng w (c.unit.ts w + 4 * r.wcb) c.unit.pfx c.unit.next c.unit.snapN r.late r.locks r.lines r.flags r.writes r.regs

/-- A word that finishes later leaves its flight, one that is over at once its flags and its tokens. -/
theorem issued_eq (r : EngRes) (k : Nat) (eng : Eng) (c : Cur) (w : W32) :
    r.issued k eng c w =
      (let s := r.s.charged k eng c.sq
       let t := (s.thread k).issuedUnit c w r
       let ts := c.unit.ts w + 4 * r.wcb
       if r.later && (ts != 0 || r.late.isSome || !r.locks.isEmpty || r.hold) then
         (s.setThread k { t with flights := t.flights ++ [r.flight eng c w] }.pruneHist).settleTrap k
       else
         (((s.setThread k { t with flags := t.flags ||| r.flags }).finishWord k eng c.sq c.unit ts r.late).modThread k Thread.pruneHist).settleTrap k) :=
  rfl

/-- What the issue of a word leaves, with no late cause, no trap pending and no counter past its limit. -/
theorem issued_quiet {r : EngRes} {k : Nat} {eng : Eng} {c : Cur} {w : W32} (hl : r.late = none) (hp : (r.s.thread k).trapPend = none)
    (ht : ((((r.s.charged k eng c.sq).thread k).issuedUnit c w r).pushTokens c.sq (c.unit.ts w + 4 * r.wcb)).2 = none) :
    IssuedBy r k (r.s.charged k eng c.sq) (r.issued k eng c w) := by
  have hpend : ((r.s.charged k eng c.sq).thread k).trapPend = none := by
    rw [thread_charged]
    exact hp
  have hunit := sameRegs_issuedUnit ((r.s.charged k eng c.sq).thread k) c w r
  rw [issued_eq]
  generalize r.s.charged k eng c.sq = s at *
  dsimp only
  generalize (s.thread k).issuedUnit c w r = t at *
  split
  · have hb : SameRegs (s.thread k) { t with flights := t.flights ++ [r.flight eng c w] }.pruneHist :=
      hunit.trans (sameRegs_pruneHist { t with flights := t.flights ++ [r.flight eng c w] })
    rw [settleTrap_setThread hb hpend]
    exact ⟨around_setThread s k _, rfl, _, .inl rfl, by rw [thread_setThread_self]; exact hb⟩
  · have hflags : t.flags = (s.thread k).flags := by
      obtain ⟨-, -, -, -, -, -, -, -, -, -, h, -⟩ := hunit
      exact h
    have hraised : SameRegs { s.thread k with flags := (s.thread k).flags ||| r.flags } { t with flags := t.flags ||| r.flags } := by
      rw [hflags]
      obtain ⟨h1, h2, h3, h4, h5, h6, h7, h8, h9, h10, -, h12, h13, h14, h15, h16⟩ := hunit
      exact ⟨h1, h2, h3, h4, h5, h6, h7, h8, h9, h10, rfl, h12, h13, h14, h15, h16⟩
    have hquiet : ((s.setThread k { t with flags := t.flags ||| r.flags }).thread k).pushTokens c.sq (c.unit.ts w + 4 * r.wcb) =
        ({ t with flags := t.flags ||| r.flags } : Thread).pushTokens c.sq (c.unit.ts w + 4 * r.wcb) := by
      rw [thread_setThread_self]
    have hb := (hraised.trans (sameRegs_pushTokens _ c.sq (c.unit.ts w + 4 * r.wcb))).trans (sameRegs_pruneHist _)
    rw [hl, finishWord_quiet (by rw [hquiet, pushTokens_flags, ht]), hquiet]
    unfold State.modThread
    rw [thread_setThread_self, settleTrap_setThread hb hpend]
    refine ⟨((around_setThread s k _).trans (around_setThread _ k _)).trans (around_setThread _ k _), rfl, _, .inr rfl, ?_⟩
    rw [thread_setThread_self]
    exact hb

/-! ## The statement -/

/-- Settles O19: the completion of a control word, and the issue of an engine word. -/
theorem completionFrame : Obligations.CompletionFrame := by
  unfold Obligations.CompletionFrame
  constructor
  · intro t k pc u a b
    have hb : b = a.ctlDone pc := thread_modThread_self t k _
    refine ⟨onlyThread_modThread t k _, fun _ => rfl, ?_⟩
    rw [hb]
    refine ⟨by simp, by simp, by simp, by simp, by simp, by simp, by simp, by simp, by simp, by simp, by simp, by simp, by simp, by simp,
      fun hrep => ⟨ctlDone_pc a pc hrep, ?_⟩⟩
    have hlast : ¬ (a.repNow.1 + 1 < a.repNow.2.1) := by omega
    simp [Thread.ctlDone, hlast]
  · intro r k eng c w hl hp ht u x y a b
    have hpush : ((((r.s.charged k eng c.sq).thread k).issuedUnit c w r).pushTokens c.sq (c.unit.ts w + 4 * r.wcb)).2 = none := by
      rw [thread_charged, ← thread_takePermit_countWhole r.s k (permitClass eng) c.sq]
      exact ht
    obtain ⟨haround, hclusters, f, hf, hregs⟩ := issued_quiet hl hp hpush
    have hall := (around_charged r.s k eng c.sq).trans haround
    rw [thread_charged] at hf hregs
    obtain ⟨h1, h2, h3, h4, h5, h6, h7, h8, h9, h10, h11, h12, h13, h14, h15, -⟩ := hregs
    have hy : y = { r.s.countedCluster k (permitClass eng) c.sq with
        leaseAt := if eng = .matrix ∧ r.s.holdsLease k = true then x.cycles r.s.now else x.leaseAt } :=
      (congrArg (fun t => Tab.getD t (thrCluster k) Cluster.blank) hclusters).trans (cluster_charged r.s k eng c.sq)
    refine ⟨fun z => congrArg (memByte · z) hall.mem, hall.threads, h1, h2, h3, h4, h5, h6, h7, h8, h9, h10, ?_, h12, h13, h14, h15, hall.rest, hall.others, ?_, ?_,
      fun i => ?_⟩
    · rw [h11]
      exact hf
    · rw [hy, countedCluster_frame]
    · rw [hy]
    · intro v
      have hv : v = (r.s.countedCluster k (permitClass eng) c.sq).slotAt i := by
        show y.slotAt i = _
        rw [hy]
        rfl
      rw [hv, slotAt_countedCluster]
      split
      · exact ⟨rfl, fun _ => rfl⟩
      · next hq =>
        obtain ⟨hframe, hother⟩ := counted_frame (x.slotAt i) a.task a.gangPos
        exact ⟨hframe, fun h => h.elim (fun hne => absurd hne hq) hother⟩

end Sys2Proof.Machine
end

section

/-! The bytes of lines and of the versions that tasks lay over them (R66, R82, R84, R107). -/

namespace Sys2Proof.Machine
open Sys2Proof

/-! ## Bits and bytes of a merged line -/

theorem testBit_expand (m : BitVec 64) (n k : Nat) :
    ((List.range k).foldl (fun a i => if m.getLsbD i then a ||| (255 <<< (8 * i)) else a) 0).testBit n =
      (decide (n / 8 < k) && m.getLsbD (n / 8)) := by
  induction k with
  | zero => simp
  | succ k ih =>
    have hbyte : (255 <<< (8 * k)).testBit n = decide (n / 8 = k) := by
      rw [Nat.testBit_shiftLeft, show 255 = 2 ^ 8 - 1 from rfl, Nat.testBit_two_pow_sub_one, ← Bool.decide_and]
      exact decide_eq_decide.2 (by omega)
    rw [List.range_succ, List.foldl_append, List.foldl_cons, List.foldl_nil]
    by_cases hm : m.getLsbD k = true
    · rw [if_pos hm, Nat.testBit_or, ih, hbyte]
      by_cases hk : n / 8 = k
      · simp [hk, hm]
      · have : (n / 8 < k + 1) ↔ n / 8 < k := by omega
        simp [hk, this]
    · rw [if_neg hm, ih]
      by_cases hk : n / 8 = k
      · simp [hk, hm]
      · have : (n / 8 < k + 1) ↔ n / 8 < k := by omega
        simp [this]

theorem getLsbD_expandMask (m : BitVec 64) {n : Nat} (hn : n < 512) : (expandMask m).getLsbD n = m.getLsbD (n / 8) := by
  have : n / 8 < 64 := by omega
  unfold expandMask
  rw [BitVec.getLsbD_ofNat, testBit_expand, decide_eq_true hn, decide_eq_true this]
  simp

theorem getLsbD_lineByte (d : BitVec 512) (i j : Nat) : (lineByte d i).getLsbD j = (decide (j < 8) && d.getLsbD (8 * i + j)) := by
  unfold lineByte
  rw [BitVec.getLsbD_extractLsb']

/-- A byte of a merged line is the new one where the mask has its bit. -/
theorem lineByte_mergeLine (old new : BitVec 512) (m : BitVec 64) {i : Nat} (hi : i < 64) :
    lineByte (mergeLine old new m) i = if m.getLsbD i then lineByte new i else lineByte old i := by
  refine BitVec.eq_of_getLsbD_eq fun j hj => ?_
  have hn : 8 * i + j < 512 := by omega
  have hd : (8 * i + j) / 8 = i := by omega
  rw [apply_ite (fun x => BitVec.getLsbD x j), getLsbD_lineByte, getLsbD_lineByte, getLsbD_lineByte, decide_eq_true hj]
  simp only [Bool.true_and]
  unfold mergeLine
  dsimp only
  rw [BitVec.getLsbD_or, BitVec.getLsbD_and, BitVec.getLsbD_and, BitVec.getLsbD_not, getLsbD_expandMask m hn, hd, decide_eq_true hn]
  cases m.getLsbD i <;> simp

/-! ## What a version lays over one byte -/

/-- The byte at an address under a list of version lines, from the byte below them. -/
def overByte (l : List VLine) (a : Nat) (b : Byte) : Byte :=
  l.foldl (fun b v => if v.line = a / 64 ∧ v.mask.getLsbD (a % 64) = true then lineByte v.dat (a % 64) else b) b

theorem lineByte_foldl_mergeLine (l : List VLine) (a : Nat) (d : BitVec 512) :
    lineByte (l.foldl (fun d v => if v.line = a / 64 then mergeLine d v.dat v.mask else d) d) (a % 64) =
      overByte l a (lineByte d (a % 64)) := by
  induction l generalizing d with
  | nil => rfl
  | cons v l ih =>
    have hstep : lineByte (if v.line = a / 64 then mergeLine d v.dat v.mask else d) (a % 64) =
        if v.line = a / 64 ∧ v.mask.getLsbD (a % 64) = true then lineByte v.dat (a % 64) else lineByte d (a % 64) := by
      by_cases hl : v.line = a / 64
      · rw [if_pos hl, lineByte_mergeLine _ _ _ (Nat.mod_lt a (by decide))]
        exact if_congr (by simp [hl]) rfl rfl
      · rw [if_neg hl, if_neg (fun h => hl h.1)]
    rw [List.foldl_cons, ih, hstep]
    rfl

theorem lineByte_placed (b : Byte) (i : Nat) (hi : i < 64) : lineByte (b.setWidth 512 <<< (8 * i)) i = b := by
  refine BitVec.eq_of_getLsbD_eq fun j hj => ?_
  have hn : 8 * i + j < 512 := by omega
  rw [getLsbD_lineByte, BitVec.getLsbD_shiftLeft, BitVec.getLsbD_setWidth]
  have h1 : ¬ (8 * i + j < 8 * i) := by omega
  have h2 : 8 * i + j - 8 * i = j := by omega
  have h3 : j < 512 := by omega
  simp [hj, hn, h1, h2, h3]

/-- What a thread reads through its task's version. -/
theorem versionByte_eq (s : State) (k a : Nat) (b : Byte) :
    s.versionByte k a b = (match s.taskOf (s.thread k).task with
      | none => b
      | some t => overByte t.lines a b) := by
  unfold State.versionByte
  cases s.taskOf (s.thread k).task with
  | none => rfl
  | some t =>
    have h := lineByte_foldl_mergeLine t.lines a (b.setWidth 512 <<< (8 * (a % 64)))
    rw [lineByte_placed b _ (Nat.mod_lt a (by decide))] at h
    exact h

/-! ## Bytes put into a version -/

theorem overByte_append (l : List VLine) (v : VLine) (a : Nat) (b : Byte) :
    overByte (l ++ [v]) a b =
      if v.line = a / 64 ∧ v.mask.getLsbD (a % 64) = true then lineByte v.dat (a % 64) else overByte l a b := by
  unfold overByte
  rw [List.foldl_append]
  rfl

theorem overByte_filter (l : List VLine) (a : Nat) (b : Byte) : overByte (l.filter fun v => v.line == a / 64) a b = overByte l a b := by
  unfold overByte
  rw [List.foldl_filter]
  refine congrArg (fun f => List.foldl f b l) (funext fun b => funext fun v => ?_)
  by_cases hl : v.line = a / 64
  · rw [if_pos (beq_iff_eq.2 hl)]
  · rw [if_neg (by rw [beq_iff_eq]; exact hl), if_neg (fun h => hl h.1)]

/-- The last line of a version that covers an address gives its byte. -/
theorem overByte_of_last {l : List VLine} {v : VLine} {a : Nat} (b : Byte) (h : (l.filter fun v => v.line == a / 64).getLast? = some v)
    (hm : v.mask.getLsbD (a % 64) = true) : overByte l a b = lineByte v.dat (a % 64) := by
  obtain ⟨r, hr⟩ := List.getLast?_eq_some_iff.1 h
  have hv : v ∈ l.filter fun v => v.line == a / 64 := by
    rw [hr]
    simp
  rw [← overByte_filter, hr, overByte_append, if_pos ⟨beq_iff_eq.1 (List.mem_filter.1 hv).2, hm⟩]

/-- When every line of a version at an address gives it one byte, and there is one, that byte is read. -/
theorem overByte_of_all {l : List VLine} {a : Nat} {x : Byte} (b : Byte)
    (h : ∀ v ∈ l, v.line = a / 64 → v.mask.getLsbD (a % 64) = true ∧ lineByte v.dat (a % 64) = x) (hex : ∃ v ∈ l, v.line = a / 64) :
    overByte l a b = x := by
  obtain ⟨w, hw, hwl⟩ := hex
  cases hlast : (l.filter fun v => v.line == a / 64).getLast? with
  | none =>
    have hmem : w ∈ l.filter fun v => v.line == a / 64 := List.mem_filter.2 ⟨hw, beq_iff_eq.2 hwl⟩
    rw [List.getLast?_eq_none_iff.1 hlast] at hmem
    cases hmem
  | some v =>
    obtain ⟨hv, hvl⟩ := List.mem_filter.1 (List.mem_of_getLast? hlast)
    obtain ⟨hm, hx⟩ := h v hv (beq_iff_eq.1 hvl)
    rw [overByte_of_last b hlast hm, hx]

section
variable {t : Task} {line a : Nat} {dat : BitVec 512} {mask : BitVec 64} {swm : Bool}

/-- An entry of the open mark with bytes merged in. -/
def VLine.merged (v : VLine) (line mark : Nat) (dat : BitVec 512) (mask : BitVec 64) : VLine :=
  if v.line = line ∧ v.mark = mark then { v with dat := mergeLine v.dat dat mask, mask := v.mask ||| mask } else v

theorem lines_putLine_open (h : t.hasOpen line = true) :
    (t.putLine line dat mask swm).lines = t.lines.map fun v => v.merged line t.openMark dat mask := by
  unfold Task.putLine
  rw [if_pos h]
  rfl

/-- A line enters a version with the bytes of the newest entry of it under the new ones. -/
theorem lines_putLine_new (h : t.hasOpen line = false) :
    ∃ v, (t.putLine line dat mask swm).lines = t.lines ++ [v] ∧ v.line = line ∧ v.mark = t.openMark ∧
      (∀ i, i < 64 → mask.getLsbD i = true → v.mask.getLsbD i = true ∧ lineByte v.dat i = lineByte dat i) ∧
      (∀ i, i < 64 → mask.getLsbD i = false → v.mask.getLsbD i = true →
        ∃ w, (t.lines.filter fun v => v.line == line).getLast? = some w ∧ w.mask.getLsbD i = true ∧ lineByte v.dat i = lineByte w.dat i) := by
  unfold Task.putLine
  rw [if_neg (by rw [h]; decide)]
  refine ⟨_, rfl, rfl, rfl, fun i hi hm => ⟨?_, ?_⟩, fun i hi hm hv => ?_⟩
  · rw [BitVec.getLsbD_or, hm, Bool.or_true]
  · rw [lineByte_mergeLine _ _ _ hi, if_pos hm]
  · rw [BitVec.getLsbD_or, hm, Bool.or_false] at hv
    dsimp only
    rw [lineByte_mergeLine _ _ _ hi, if_neg (by rw [hm]; decide)]
    cases hw : (t.lines.filter fun v => v.line == line).getLast? with
    | none =>
      rw [hw] at hv
      exact absurd hv (by simp)
    | some w =>
      rw [hw] at hv
      exact ⟨w, rfl, hv, rfl⟩

/-- Bytes outside the mask read as before. -/
theorem overByte_putLine_out (b : Byte) (h : line = a / 64 → mask.getLsbD (a % 64) = false) :
    overByte (t.putLine line dat mask swm).lines a b = overByte t.lines a b := by
  have h64 : a % 64 < 64 := Nat.mod_lt a (by decide)
  cases ho : t.hasOpen line with
  | true =>
    rw [lines_putLine_open ho]
    unfold overByte
    rw [List.foldl_map]
    refine congrArg (fun f => List.foldl f b t.lines) (funext fun b => funext fun v => ?_)
    unfold VLine.merged
    by_cases hv : v.line = line ∧ v.mark = t.openMark
    · rw [if_pos hv]
      dsimp only
      by_cases hl : line = a / 64
      · rw [BitVec.getLsbD_or, h hl, Bool.or_false, lineByte_mergeLine _ _ _ h64, h hl]
        rfl
      · rw [if_neg (fun hc => hl (hv.1.symm.trans hc.1)), if_neg (fun hc => hl (hv.1.symm.trans hc.1))]
    · rw [if_neg hv]
  | false =>
    obtain ⟨v, hv, hline, -, -, hold⟩ := lines_putLine_new (dat := dat) (mask := mask) (swm := swm) ho
    rw [hv, overByte_append]
    by_cases hc : v.line = a / 64 ∧ v.mask.getLsbD (a % 64) = true
    · obtain ⟨hl, hm⟩ := hc
      obtain ⟨w, hw, hwm, hd⟩ := hold (a % 64) h64 (h (hline.symm.trans hl)) hm
      rw [if_pos ⟨hl, hm⟩, hd]
      rw [← hline, hl] at hw
      exact (overByte_of_last b hw hwm).symm
    · rw [if_neg hc]

/-- Bytes of the mask read as they are put, over a version that has entries of its open mark alone. -/
theorem overByte_putLine_in (b : Byte) (hl : line = a / 64) (hm : mask.getLsbD (a % 64) = true) (hopen : ∀ v ∈ t.lines, v.mark = t.openMark) :
    overByte (t.putLine line dat mask swm).lines a b = lineByte dat (a % 64) := by
  have h64 : a % 64 < 64 := Nat.mod_lt a (by decide)
  cases ho : t.hasOpen line with
  | true =>
    rw [lines_putLine_open ho]
    refine overByte_of_all b ?_ ?_
    · intro v hv hvl
      obtain ⟨w, hw, rfl⟩ := List.mem_map.1 hv
      unfold VLine.merged at hvl ⊢
      by_cases hc : w.line = line ∧ w.mark = t.openMark
      · rw [if_pos hc]
        dsimp only
        rw [BitVec.getLsbD_or, hm, Bool.or_true, lineByte_mergeLine _ _ _ h64, if_pos hm]
        exact ⟨rfl, rfl⟩
      · rw [if_neg hc] at hvl
        exact absurd ⟨hvl.trans hl.symm, hopen w hw⟩ hc
    · obtain ⟨w, hw, hwo⟩ := List.any_eq_true.1 ho
      obtain ⟨hwl, hwm⟩ := Bool.and_eq_true_iff.1 hwo
      refine ⟨_, List.mem_map_of_mem hw, ?_⟩
      unfold VLine.merged
      rw [if_pos ⟨beq_iff_eq.1 hwl, beq_iff_eq.1 hwm⟩]
      exact (beq_iff_eq.1 hwl).trans hl
  | false =>
    obtain ⟨v, hv, hline, -, hnew, -⟩ := lines_putLine_new (dat := dat) (mask := mask) (swm := swm) ho
    obtain ⟨hvm, hvd⟩ := hnew (a % 64) h64 hm
    rw [hv, overByte_append, if_pos ⟨hline.trans hl, hvm⟩, hvd]

@[simp] theorem openMark_putLine : (t.putLine line dat mask swm).openMark = t.openMark := by
  unfold Task.putLine
  dsimp only
  split <;> rfl

@[simp] theorem uid_putLine : (t.putLine line dat mask swm).uid = t.uid := by
  unfold Task.putLine
  dsimp only
  split <;> rfl

theorem marks_putLine (hopen : ∀ v ∈ t.lines, v.mark = t.openMark) : ∀ v ∈ (t.putLine line dat mask swm).lines, v.mark = t.openMark := by
  intro v hv
  cases ho : t.hasOpen line with
  | true =>
    rw [lines_putLine_open ho] at hv
    obtain ⟨w, hw, rfl⟩ := List.mem_map.1 hv
    unfold VLine.merged
    split
    · exact hopen w hw
    · exact hopen w hw
  | false =>
    obtain ⟨x, hx, -, hmark, -⟩ := lines_putLine_new (dat := dat) (mask := mask) (swm := swm) ho
    rw [hx, List.mem_append, List.mem_singleton] at hv
    rcases hv with hv | rfl
    · exact hopen v hv
    · exact hmark

end

end Sys2Proof.Machine
end

section

/-! What a store changes of what its task reads (R82, R84, R107, R126, R297, R323). -/

namespace Sys2Proof.Machine
open Sys2Proof

/-! ## The lines of a range of bytes -/

theorem leNat_byte (l : List Byte) (i : Nat) : leNat l / 2 ^ (8 * i) % 256 = (l.getD i 0#8).toNat := by
  induction l generalizing i with
  | nil => simp [leNat]
  | cons b r ih =>
    cases i with
    | zero =>
      have := b.isLt
      simp only [leNat, Nat.mul_zero, Nat.pow_zero, Nat.div_one, List.getD_cons_zero]
      omega
    | succ i =>
      have h8 : 2 ^ (8 * (i + 1)) = 256 * 2 ^ (8 * i) := by
        rw [Nat.mul_succ, Nat.pow_add, Nat.mul_comm]
      have hb := b.isLt
      have hdiv : (b.toNat + 256 * leNat r) / 256 = leNat r := by omega
      rw [leNat, h8, ← Nat.div_div_eq_div_mul, hdiv, ih, List.getD_cons_succ]

theorem getLsbD_maskRange {lo n i : Nat} (hi : i < 64) : (maskRange lo n).getLsbD i = decide (lo ≤ i ∧ i < lo + n) := by
  unfold maskRange
  rw [BitVec.getLsbD_ofNat, decide_eq_true hi, Bool.true_and, Nat.testBit_shiftLeft, Nat.testBit_two_pow_sub_one, ← Bool.decide_and]
  exact decide_eq_decide.2 (by omega)

/-- A byte of the bytes placed in a line. -/
theorem lineByte_bytes (l : List Byte) {c i : Nat} (hc : c ≤ i) (hi : i < 64) :
    lineByte (BitVec.ofNat 512 (leNat l <<< (8 * c))) i = l.getD (i - c) 0#8 := by
  refine BitVec.eq_of_getLsbD_eq fun j hj => ?_
  have hn : 8 * i + j < 512 := by omega
  have hge : 8 * c ≤ 8 * i + j := by omega
  have hsub : 8 * i + j - 8 * c = j + 8 * (i - c) := by omega
  have hbit : (l.getD (i - c) 0#8).getLsbD j = (leNat l).testBit (j + 8 * (i - c)) := by
    show (l.getD (i - c) 0#8).toNat.testBit j = _
    rw [← leNat_byte, show 256 = 2 ^ 8 from rfl, Nat.testBit_mod_two_pow, decide_eq_true hj, Bool.true_and, Nat.testBit_div_two_pow]
  rw [getLsbD_lineByte, BitVec.getLsbD_ofNat, decide_eq_true hj, decide_eq_true hn, Nat.testBit_shiftLeft, decide_eq_true hge, hsub, hbit]
  rfl

/-- A line of a range of bytes: its mask marks the bytes of the range, and its bytes are theirs. -/
theorem of_mem_splitLines {pa : Nat} {data : List Byte} {x : Nat × BitVec 512 × BitVec 64} (h : x ∈ splitLines pa data) {a : Nat}
    (ha : x.1 = a / 64) :
    x.2.2.getLsbD (a % 64) = decide (pa ≤ a ∧ a < pa + data.length) ∧
      (pa ≤ a → a < pa + data.length → lineByte x.2.1 (a % 64) = data.getD (a - pa) 0#8) := by
  have h64 : a % 64 < 64 := Nat.mod_lt a (by decide)
  unfold splitLines at h
  dsimp only at h
  split at h
  · cases h
  · obtain ⟨k, hk, rfl⟩ := List.mem_map.1 h
    dsimp only at ha ⊢
    rw [List.mem_range] at hk
    rw [ha]
    refine ⟨?_, fun h1 h2 => ?_⟩
    · rw [getLsbD_maskRange h64]
      exact decide_eq_decide.2 (by omega)
    · have hlo : max pa (a / 64 * 64) - a / 64 * 64 ≤ a % 64 := by omega
      have hin : a % 64 - (max pa (a / 64 * 64) - a / 64 * 64) < min (pa + data.length) (a / 64 * 64 + 64) - max pa (a / 64 * 64) := by
        omega
      have hat : max pa (a / 64 * 64) - pa + (a % 64 - (max pa (a / 64 * 64) - a / 64 * 64)) = a - pa := by omega
      rw [lineByte_bytes _ hlo h64, List.getD_eq_getElem?_getD, List.getD_eq_getElem?_getD, List.getElem?_take, if_pos hin, List.getElem?_drop, hat]

/-- Each byte of a range lies in one of its lines. -/
theorem exists_mem_splitLines {pa a : Nat} {data : List Byte} (h1 : pa ≤ a) (h2 : a < pa + data.length) :
    ∃ x ∈ splitLines pa data, x.1 = a / 64 := by
  unfold splitLines
  dsimp only
  rw [if_neg (by omega)]
  refine ⟨_, List.mem_map_of_mem (List.mem_range.2 (?_ : a / 64 - pa / 64 < _)), ?_⟩
  · omega
  · dsimp only
    omega

/-! ## A version written -/

/-- A task's version with the lines of a store put in. -/
def Task.putLines (t : Task) (swm : Bool) (l : List (Nat × BitVec 512 × BitVec 64)) : Task :=
  l.foldl (fun t x => t.putLine x.1 x.2.1 x.2.2 swm) t

@[simp] theorem uid_putLines (t : Task) (swm : Bool) (l : List (Nat × BitVec 512 × BitVec 64)) : (t.putLines swm l).uid = t.uid :=
  foldl_keeps Task.uid _ (fun _ _ => uid_putLine) l t

/-- Bytes outside a store read as before. -/
theorem overByte_putLines_out (t : Task) (swm : Bool) {l : List (Nat × BitVec 512 × BitVec 64)} {a : Nat} (b : Byte)
    (h : ∀ x ∈ l, x.1 = a / 64 → x.2.2.getLsbD (a % 64) = false) : overByte (t.putLines swm l).lines a b = overByte t.lines a b := by
  induction l generalizing t with
  | nil => rfl
  | cons x l ih =>
    obtain ⟨hx, hl⟩ := List.forall_mem_cons.1 h
    exact (ih _ hl).trans (overByte_putLine_out b hx)

section
variable {swm : Bool} {l : List (Nat × BitVec 512 × BitVec 64)} {a : Nat} {y b : Byte}

/-- A byte that stands is kept by lines that give it again. -/
theorem overByte_putLines_kept {t : Task} (ht : overByte t.lines a b = y) (hopen : ∀ v ∈ t.lines, v.mark = t.openMark)
    (h : ∀ x ∈ l, x.1 = a / 64 → x.2.2.getLsbD (a % 64) = true ∧ lineByte x.2.1 (a % 64) = y) : overByte (t.putLines swm l).lines a b = y := by
  induction l generalizing t with
  | nil => exact ht
  | cons x l ih =>
    obtain ⟨hx, hl⟩ := List.forall_mem_cons.1 h
    refine ih ?_ (by rw [openMark_putLine]; exact marks_putLine hopen) hl
    by_cases hxa : x.1 = a / 64
    · obtain ⟨hm, hy⟩ := hx hxa
      rw [overByte_putLine_in b hxa hm hopen, hy]
    · rw [overByte_putLine_out b (fun hc => absurd hc hxa), ht]

/-- A byte of a store is read back, over a version that has entries of its open mark alone. -/
theorem overByte_putLines_in {t : Task} (h : ∀ x ∈ l, x.1 = a / 64 → x.2.2.getLsbD (a % 64) = true ∧ lineByte x.2.1 (a % 64) = y)
    (hex : ∃ x ∈ l, x.1 = a / 64) (hopen : ∀ v ∈ t.lines, v.mark = t.openMark) : overByte (t.putLines swm l).lines a b = y := by
  induction l generalizing t with
  | nil =>
    obtain ⟨x, hx, -⟩ := hex
    cases hx
  | cons x l ih =>
    obtain ⟨hx, hl⟩ := List.forall_mem_cons.1 h
    have ho : ∀ v ∈ (t.putLine x.1 x.2.1 x.2.2 swm).lines, v.mark = (t.putLine x.1 x.2.1 x.2.2 swm).openMark := by
      rw [openMark_putLine]
      exact marks_putLine hopen
    by_cases hxa : x.1 = a / 64
    · obtain ⟨hm, hy⟩ := hx hxa
      exact overByte_putLines_kept (t := t.putLine x.1 x.2.1 x.2.2 swm) ((overByte_putLine_in b hxa hm hopen).trans hy) ho hl
    · obtain ⟨z, hz, hza⟩ := hex
      rcases List.mem_cons.1 hz with rfl | hz
      · exact absurd hza hxa
      · exact ih hl ⟨z, hz, hza⟩ ho

end

section
variable {s : State} {uid : Nat} {f : Task → Task}

theorem taskOf_modTask (hf : ∀ t, (f t).uid = t.uid) (s : State) (uid i : Nat) :
    (s.modTask uid f).taskOf i = if i = uid then (s.taskOf i).map f else s.taskOf i := by
  unfold State.modTask State.taskOf
  dsimp only
  rw [List.find?_map]
  have hp : ((fun t => t.uid == i) ∘ fun u => if u.uid = uid then f u else u) = fun t : Task => t.uid == i := by
    funext t
    show ((if t.uid = uid then f t else t).uid == i) = (t.uid == i)
    split
    · rw [hf]
    · rfl
  rw [hp]
  cases ht : s.tasks.find? fun t => t.uid == i with
  | none => split <;> rfl
  | some t =>
    have hu : t.uid = i := by
      have := List.find?_some ht
      exact beq_iff_eq.1 this
    rw [Option.map_some, hu]
    by_cases hi : i = uid
    · rw [if_pos hi, if_pos hi]
      rfl
    · rw [if_neg hi, if_neg hi]

end

/-- One line of a store: room is made for it, it enters the version, and its cluster's copy goes. -/
def State.putVersionLine (s : State) (k : Nat) (swm : Bool) (x : Nat × BitVec 512 × BitVec 64) : State :=
  let uid := (s.thread k).task
  let s := if ((s.taskOf uid).map fun t => t.hasOpen x.1).getD true then s else (s.llcRoom (thrDie k) x.1).1
  let s := s.modTask uid fun t => t.putLine x.1 x.2.1 x.2.2 swm
  s.modCluster (thrCluster k) fun c => { c with l1 := c.l1.filter fun e => e.line != x.1 }

theorem versionWrite_eq (s : State) (k : Nat) (swm : Bool) (pa : Nat) (data : List Byte) :
    s.versionWrite k swm pa data = (splitLines (s.localPa pa) data).foldl (fun s x => s.putVersionLine k swm x) s := rfl

theorem putVersionLine_frame (s : State) (k : Nat) (swm : Bool) (x : Nat × BitVec 512 × BitVec 64) :
    (s.putVersionLine k swm x).thr = s.thr ∧ ∀ i, (s.putVersionLine k swm x).taskOf i =
      if i = (s.thread k).task then (s.taskOf i).map fun t => t.putLine x.1 x.2.1 x.2.2 swm else s.taskOf i := by
  unfold State.putVersionLine
  dsimp only
  generalize hu : (if ((s.taskOf (s.thread k).task).map fun t => t.hasOpen x.1).getD true then s else (s.llcRoom (thrDie k) x.1).1) = u
  have hrun : SameRun s u := by
    rw [← hu]
    split
    · exact SameRun.refl s
    · exact (SameRun.refl s).llcRoom _ _
  obtain ⟨hthr, htasks, -⟩ := hrun
  refine ⟨hthr, fun i => ?_⟩
  have hof : u.taskOf i = s.taskOf i := by
    unfold State.taskOf
    rw [htasks]
  rw [modCluster_taskOf, taskOf_modTask (fun _ => uid_putLine), hof]

/-- A store changes no register, and of the tasks its own alone, which takes its lines. -/
theorem versionWrite_frame (s : State) (k : Nat) (swm : Bool) (pa : Nat) (data : List Byte) :
    (s.versionWrite k swm pa data).thr = s.thr ∧ ∀ i, (s.versionWrite k swm pa data).taskOf i =
      if i = (s.thread k).task then (s.taskOf i).map fun t => t.putLines swm (splitLines (s.localPa pa) data) else s.taskOf i := by
  rw [versionWrite_eq]
  generalize splitLines (s.localPa pa) data = l
  induction l generalizing s with
  | nil =>
    refine ⟨rfl, fun i => ?_⟩
    rw [List.foldl_nil]
    have : (s.taskOf i).map (fun t => t.putLines swm []) = s.taskOf i := Option.map_id_apply
    rw [this, ite_self]
  | cons x l ih =>
    obtain ⟨hthr, htask⟩ := putVersionLine_frame s k swm x
    obtain ⟨ihthr, ihtask⟩ := ih (s.putVersionLine k swm x)
    have hk : ((s.putVersionLine k swm x).thread k).task = (s.thread k).task := by
      unfold State.thread
      rw [hthr]
    refine ⟨ihthr.trans hthr, fun i => (ihtask i).trans ?_⟩
    rw [hk, htask]
    split
    · rw [Option.map_map]
      rfl
    · rfl

/-- The byte that a task reads after a store. -/
theorem versionByte_versionWrite (s : State) (k : Nat) (swm : Bool) (pa : Nat) (data : List Byte) (a : Nat) (b : Byte) :
    (s.versionWrite k swm pa data).versionByte k a b = (match s.taskOf (s.thread k).task with
      | none => b
      | some t => overByte (t.putLines swm (splitLines (s.localPa pa) data)).lines a b) := by
  obtain ⟨hthr, htask⟩ := versionWrite_frame s k swm pa data
  have hk : ((s.versionWrite k swm pa data).thread k).task = (s.thread k).task := by
    unfold State.thread
    rw [hthr]
  rw [versionByte_eq, hk, htask, if_pos rfl]
  cases s.taskOf (s.thread k).task <;> rfl

theorem versionByte_versionWrite_out (s : State) (k : Nat) (swm : Bool) {pa : Nat} {data : List Byte} {a : Nat} (b : Byte)
    (ha : a < s.localPa pa ∨ s.localPa pa + data.length ≤ a) : (s.versionWrite k swm pa data).versionByte k a b = s.versionByte k a b := by
  rw [versionByte_versionWrite, versionByte_eq]
  cases s.taskOf (s.thread k).task with
  | none => rfl
  | some t =>
    refine overByte_putLines_out t swm b fun x hx hxa => ?_
    obtain ⟨hm, -⟩ := of_mem_splitLines hx hxa
    rw [hm, decide_eq_false]
    omega

theorem versionByte_versionWrite_in {s : State} {k : Nat} {t : Task} (swm : Bool) (pa : Nat) {data : List Byte} {i : Nat} (b : Byte)
    (ht : s.taskOf (s.thread k).task = some t) (hopen : ∀ v ∈ t.lines, v.mark = t.openMark) (hi : i < data.length) :
    (s.versionWrite k swm pa data).versionByte k (s.localPa pa + i) b = data.getD i 0#8 := by
  rw [versionByte_versionWrite, ht]
  refine overByte_putLines_in (fun x hx hxa => ?_) (exists_mem_splitLines (by omega) (by omega)) hopen
  obtain ⟨hm, hd⟩ := of_mem_splitLines hx hxa
  refine ⟨?_, ?_⟩
  · rw [hm, decide_eq_true]
    omega
  · rw [hd (by omega) (by omega), Nat.add_sub_cancel_left]

/-! ## The statement -/

/-- The offset of a scalar access frees at most a source. -/
theorem cmOfs_frees {s : State} {t t1 : Thread} {k : BitVec 1} {o : BitVec 10} {ofs : Nat} (h : cmOfs s t k o = .ok (ofs, t1)) :
    t1 = t ∨ ∃ l r, t1 = freeG t l r := by
  unfold cmOfs at h
  split at h
  · cases h
    exact .inl rfl
  · dsimp only at h
    cases hv : rdG s t (bits o.toNat 9 5) 2 with
    | error e =>
      rw [hv] at h
      cases h
    | ok v =>
      rw [hv] at h
      cases h
      exact .inr ⟨_, _, rfl⟩

/-- A scalar store leaves its access to be performed, and changes nothing else that programs see. -/
theorem sts_leaves_access {s : State} {d : BitVec 5} {h : BitVec 4} {z : BitVec 2} {k : BitVec 1} {o : BitVec 10} {ofs pa : Nat} {t1 : Thread}
    {v : W} (hgo : CtlGo s true) (hme : s.me ≠ agateThr) (hh : ctlHandle s.th h.toNat = .ok s.th) (ho : cmOfs s s.th k o = .ok (ofs, t1))
    (hroom : s.th.ctlAcc.length < 8) (hpa : checkMem s.th h.toNat ofs (2 ^ z.toNat) rightWR (2 ^ z.toNat) = .ok pa)
    (hver : s.versionRoom s.me (linesOf pa (2 ^ z.toNat)) = .ok ⟨⟩) (hv : rdG s s.th d.toNat 0 = .ok v) :
    Does (.sts d h z k o) s (s.setTh { t1 with ctlAcc := t1.ctlAcc ++
      [⟨true, 0, pa, 2 ^ z.toNat, false, v.toNat, s.th.swmOf h.toNat, s.th.unitPc, s.th.seq, none⟩] }) none := by
  obtain ⟨hacc, -⟩ := memoryAndHandleWords
  obtain ⟨-, -, hsts⟩ := hacc s d h z 0#1 k o ofs pa t1 hh ho
  exact hsts hme hroom hgo hpa hver v hv

theorem versionByte_congr {s t : State} {k : Nat} (h : t.taskOf (t.thread k).task = s.taskOf (s.thread k).task) (a : Nat) (b : Byte) :
    t.versionByte k a b = s.versionByte k a b := by
  unfold State.versionByte
  rw [h]

theorem length_leBytes (n x : Nat) : (leBytes n x).length = n := by
  induction n generalizing x with
  | zero => rfl
  | succ n ih => rw [leBytes, List.length_cons, ih]

/-- Settles O20: the lines of a store enter its task's version, byte by byte. -/
theorem storeFrame : Obligations.StoreFrame := by
  unfold Obligations.StoreFrame
  refine ⟨?_, ?_, ?_⟩
  · intro s k pa swm l t
    obtain ⟨hthr, htask⟩ := versionWrite_frame s k swm pa l
    exact ⟨hthr, fun uid hu => (htask uid).trans (if_neg hu), fun a b ha => versionByte_versionWrite_out s k swm b ha,
      fun x hx hopen i b hi => versionByte_versionWrite_in swm pa b hx hopen hi⟩
  · intro s d h z k o ofs pa t1 v hgo hme hh ho hroom hpa hver hv
    have hd := sts_leaves_access hgo hme hh ho hroom hpa hver hv
    obtain ⟨⟨-, hothers⟩, -, hth⟩ := frame_of_does hd hd
    have hfile : t1.g = s.th.g ∧ t1.p = s.th.p ∧ t1.h = s.th.h ∧ t1.status = s.th.status ∧ t1.task = s.th.task := by
      rcases cmOfs_frees ho with rfl | ⟨l, r, rfl⟩
      · exact ⟨rfl, rfl, rfl, rfl, rfl⟩
      · simp
    obtain ⟨hg, hp, hh', hst, htask⟩ := hfile
    refine ⟨_, hd, hothers, fun a b => versionByte_congr ?_ a b, ?_⟩
    · rw [hth, ctlDone_task]
      exact congrArg s.taskOf htask
    · intro u
      have hu : u = _ := hth
      rw [hu]
      refine ⟨(ctlDone_g _ _).trans hg, (ctlDone_p _ _).trans hp, (ctlDone_h _ _).trans hh', (ctlDone_status _ _).trans hst, ?_⟩
      exact ⟨_, ctlDone_ctlAcc _ _, rfl, rfl, rfl, rfl⟩
  · intro s k x r hx hs hf
    have hp := ctlPerform_store hx hf hs
    obtain ⟨hthr, htask⟩ := versionWrite_frame (s.modThread k fun t => { t with ctlAcc := r }) k x.swm x.pa (leBytes x.n x.dat)
    have hthread : ∀ j, (s.ctlPerform k 0).thread j = (s.modThread k fun t => { t with ctlAcc := r }).thread j := by
      intro j
      rw [hp]
      unfold State.thread
      rw [hthr]
    have hown : ((s.modThread k fun t => { t with ctlAcc := r }).thread k).task = (s.thread k).task := by
      rw [thread_modThread_self]
    refine ⟨s.ctlPerform k 0, rfl, fun j hj => (hthread j).trans (thread_modThread_ne s _ hj), (hthread k).trans (thread_modThread_self s k _),
      fun uid hu => ?_, fun a b ha => ?_⟩
    · rw [hp, htask, if_neg (by rw [hown]; exact hu)]
      rfl
    · rw [hp, versionByte_versionWrite_out _ _ _ _ (by rw [length_leBytes]; exact ha)]
      exact versionByte_congr (by rw [hown]; rfl) a b

end Sys2Proof.Machine
end

section

/-! What a step runs (R132, R261, R428, R465). -/

namespace Sys2Proof.Machine
open Sys2Proof

/-- A step whose turn comes to an instruction runs it; then time passes. -/
theorem step_run {s u : State} {i : Instr} {dt : Nat} {after : Out → Out} (h : prepare s = (.run i u, dt))
    (hn : ∀ t, after (.next t) = .next (t.elapse dt)) (hf : ∀ f, after (.fault f) = .fault f) (hr : ∀ x, after (.refused x) = .refused x) :
    step s = after (exec i u) := by
  unfold step
  rw [h]
  dsimp only
  cases exec i u with
  | next t => exact (hn t).symm
  | fault f => exact (hf f).symm
  | refused x => exact (hr x).symm

section
variable {s s0 : State} {k : Nat} {w : W32}

theorem secdedHit_turns (r : List Turn) (h : s.secdedHit k = none) : ({ s with turns := r } : State).secdedHit k = none := by
  unfold State.secdedHit at h ⊢
  dsimp only at h ⊢
  cases hl : s.latent.find? fun l => decide (6 ≤ l.str ∧ l.str ≤ 10) && l.unit == thrCore k with
  | none => rfl
  | some l =>
    rw [hl] at h
    dsimp only at h
    split at h
    · cases h
    · split at h
      · cases h
      · cases h

/-- A word at hand, with nothing before its fetch. -/
structure FetchGo (s : State) (k : Nat) : Prop where
  acts : s.canAct k = true
  noSave : (s.thread k).saveStop s.now = false
  noTrap : (s.thread k).trapPend = none
  noPoint : (s.thread k).pointDue s.now = false
  free : (s.thread k).heldByCommit .ctl = false
  awake : (s.thread k).idleUntil = none ∨ (s.thread k).ph.stage ≠ 0
  sound : s.secdedHit k = none

/-- The fetch gives a word: Agate's from its routine, another's at home. -/
theorem fetch_agate (h : agateFetch (s.thread agateThr).pc = some w) : s.fetch agateThr = (s, .word w) := by
  unfold State.fetch
  dsimp only
  rw [if_pos rfl, h]

theorem fetch_home {e : TlbE} (hk : k ≠ agateThr) (he : s.tlbHit k (s.thread k).pc rightRD = some e)
    (hp : s.atPeer (s.localPa (e.frame * 4096 + (s.thread k).pc % pageBytes e.psz) / 64) = false)
    (hr : (s.tlbFill (thrCore k) e).deviceRead (s.localPa (e.frame * 4096 + (s.thread k).pc % pageBytes e.psz) / 64) = .ok s0)
    (hb : s0.isPoison (s.localPa (e.frame * 4096 + (s.thread k).pc % pageBytes e.psz) / 64) = false) :
    s.fetch k = (s0, .word (BitVec.ofNat 32 (s0.homeNat (s.localPa (e.frame * 4096 + (s.thread k).pc % pageBytes e.psz)) 4))) := by
  have hpl : (s.tlbFill (thrCore k) e).localPa (e.frame * 4096 + (s.thread k).pc % pageBytes e.psz) =
      s.localPa (e.frame * 4096 + (s.thread k).pc % pageBytes e.psz) := rfl
  have hpp : (s.tlbFill (thrCore k) e).atPeer (s.localPa (e.frame * 4096 + (s.thread k).pc % pageBytes e.psz) / 64) = false := hp
  unfold State.fetch
  dsimp only
  rw [if_neg hk, he]
  dsimp only
  unfold State.fetchAt
  dsimp only
  rw [hpl, hpp, hr]
  dsimp only
  rw [hb]
  rfl

/-- A fetch turn with nothing before its fetch comes to the word that it fetches. -/
theorem prepFetch_word (hgo : FetchGo s k) (hw : s.fetch k = (s0, .word w)) :
    (∀ i, isPrefix w = true → decode w = .ok i → prepFetch k s = .run i { s0 with focus := some k, cur := none }) ∧
    (∀ i j p, isPrefix w = false → unitOf k (s.thread k).pfx w = .ok (j, p) → (s.thread k).repOver = false →
      (wordEng w ≠ some .control → wordEng w ≠ some .system → prepFetch k s = .run j { s0 with focus := some k, cur := none }) ∧
      (wordEng w = some .control ∨ wordEng w = some .system →
        decode (repWord w (s.thread k).repNow.2.1 (s.thread k).repNow.2.2 (s.thread k).repNow.1) = .ok i →
          prepFetch k s = .run i { s0 with focus := some k, cur := none })) := by
  obtain ⟨ha, hs, ht, hp, hf, hidle, hsec⟩ := hgo
  have hawake : ((s.thread k).idleUntil.isSome && decide ((s.thread k).ph.stage = 0)) = false := by
    rcases hidle with h | h
    · rw [h]
      rfl
    · rw [decide_eq_false h, Bool.and_false]
  unfold prepFetch
  dsimp only
  rw [ha, hs, ht, hp, hf, hawake, Bool.and_false, Bool.false_and]
  rw [if_neg Bool.false_ne_true, if_neg (by decide), if_neg (by decide), if_neg (by decide), hsec]
  dsimp only
  rw [hw]
  dsimp only
  refine ⟨fun i hpfx hd => ?_, fun i j p hpfx hu hrep => ⟨fun hc hy => ?_, fun he hd => ?_⟩⟩
  · rw [if_pos hpfx, hd]
  · rw [if_neg (by rw [hpfx]; decide), hu]
    dsimp only
    rw [if_neg (by rw [hrep]; decide)]
    split
    · next h => exact absurd h hc
    · next h => exact absurd h hy
    · rfl
  · rw [if_neg (by rw [hpfx]; decide), hu]
    dsimp only
    rw [if_neg (by rw [hrep]; decide)]
    rcases he with he | he <;> rw [he] <;> dsimp only <;> rw [hd]

end

/-- A sequencer's turn that may issue comes to the unit that it issues. -/
theorem prepSeq_issues {s : State} {k : Nat} {q : Sq} {u : QUnit} {loop : Bool} {i : Instr} (hk : k ≠ agateThr) (ha : s.canAct k = true)
    (hg : (s.thread k).mayGo q s.now = true) (hc : (s.thread k).skipCapture q = none) (hu : (s.thread k).nextUnit q = some (u, loop))
    (hi : (s.thread k).mayIssue q u loop = true) (hd : decode (repWord u.word u.n u.mask u.rep) = .ok i) :
    prepSeq k q s = .run i { s with focus := some k, cur := some ⟨q, loop, u⟩ } := by
  unfold prepSeq
  dsimp only
  rw [decide_eq_false hk, ha, hg, if_neg (by decide), hc]
  dsimp only
  rw [hu]
  dsimp only
  rw [if_pos hi, hd]

/-- Settles O1: an event, a fetch turn, and the turn of a sequencer. -/
theorem stepRunsTheDecodedInstruction : Obligations.StepRunsTheDecodedInstruction := by
  unfold Obligations.StepRunsTheDecodedInstruction
  intro s r dt after
  have hrun : ∀ {i u}, prepare s = (.run i u, dt) → step s = after (exec i u) := fun h =>
    step_run h (fun _ => rfl) (fun _ => rfl) (fun _ => rfl)
  refine ⟨fun i ht => hrun ?_, fun k i s0 w ht ha hs htrap hp hf hidle hsec hword => ?_, fun k q u loop i ht hk ha hg hc hu hi hd => hrun ?_⟩
  · unfold prepare
    rw [ht]
  · have hprep : prepare s = (prepFetch k { s with turns := r }, dt) := by
      unfold prepare
      rw [ht]
    have hgo : FetchGo { s with turns := r } k := ⟨ha, hs, htrap, hp, hf, hidle, secdedHit_turns r hsec⟩
    have hfetch : ({ s with turns := r } : State).fetch k = (s0, .word w) := by
      rcases hword with ⟨rfl, hw, rfl⟩ | ⟨hk, e, he, hpeer, hr, hb, rfl⟩
      · exact fetch_agate hw
      · exact fetch_home hk he hpeer hr hb
    obtain ⟨hpfx, hunit⟩ := prepFetch_word hgo hfetch
    intro s1
    refine ⟨fun h hd => hrun (hprep.trans (by rw [hpfx i h hd])), fun j p h hu hrep => ?_⟩
    obtain ⟨heng, hctl⟩ := hunit i j p h hu hrep
    exact ⟨fun hc hy => hrun (hprep.trans (by rw [heng hc hy])), fun he hd => hrun (hprep.trans (by rw [hctl he hd]))⟩
  · have hprep : prepare s = (prepSeq k q { s with turns := r }, dt) := by
      unfold prepare
      rw [ht]
    rw [hprep, prepSeq_issues (s := { s with turns := r }) hk ha hg hc hu hi hd]

end Sys2Proof.Machine
end

section
/-! What every step keeps (O5, O15): the canonical form of memory, and the ranges of the registers of every thread and image. -/

namespace Sys2Proof.Machine

open Sys2Proof

set_option autoImplicit true
set_option relaxedAutoImplicit true

/-- If `Q`, the registers of a thread are in their ranges. -/
def Thread.Fine (Q : Prop) (t : Thread) : Prop := Q → t.RegsOk

/-- If `Q`, an image holds registers in their ranges. -/
def Image.Fine (Q : Prop) (i : Image) : Prop := ∀ t ∈ i.t, t.Fine Q

/-- If `Q`, the images of a task hold registers in their ranges. -/
def Task.Fine (Q : Prop) (x : Task) : Prop :=
  (∀ i ∈ x.saved, i.Fine Q) ∧ (∀ i ∈ x.origins, i.Fine Q) ∧ ∀ e ∈ x.kept, e.2.Fine Q

/-- If `Q`, the images of a core hold registers in their ranges. -/
def Core.Fine (Q : Prop) (c : Core) : Prop :=
  (∀ i ∈ c.imgA, i.Fine Q) ∧ (∀ i ∈ c.imgB, i.Fine Q) ∧ ∀ i ∈ c.imgC, i.Fine Q

/-- If `Q`, the images that the save engine of a die writes hold registers in their ranges. -/
def Die.Fine (Q : Prop) (d : Die) : Prop := ∀ j ∈ d.imgs, j.img.Fine Q

/-- If `Q`, so do those of every die. -/
def Dies (Q : Prop) (v : Vector Die 8) : Prop := ∀ d, (vget v d Die.blank).Fine Q

/-- If `P`, memory is canonical. -/
def Mem (P : Prop) (m : List Host.Cell) : Prop := P → Memory.wf m = true

/-- If `P`, memory is canonical; if `Q`, all registers are in their ranges. The two halves of the invariant are kept by the same proof. -/
def State.Fine (P Q : Prop) (s : State) : Prop :=
  Mem P s.mem ∧ (∀ e ∈ s.thr, e.2.Fine Q) ∧ (∀ x ∈ s.tasks, x.Fine Q) ∧ (∀ e ∈ s.cores, e.2.Fine Q) ∧ Dies Q s.dies

variable {P Q : Prop}

/-! ## What a result carries -/

/-- The first component of a pair has the property. -/
def Fst (R : α → Prop) (r : α × β) : Prop := R r.1

/-- The second component of a pair has the property. -/
def Snd (R : β → Prop) (r : α × β) : Prop := R r.2

/-- Both components of a pair have their properties. -/
def Both (R : α → Prop) (R' : β → Prop) (r : α × β) : Prop := R r.1 ∧ R' r.2

/-- A value, where there is one, has the property. -/
inductive Yields (R : α → Prop) : Option α → Prop
  | some (h : R a) : Yields R (some a)
  | none : Yields R none

/-- A computation that succeeds gives a value with the property. -/
inductive Gives {α ε : Type} (R : α → Prop) : Except ε α → Prop
  | ok (h : R a) : Gives R (.ok a)
  | error : Gives R (.error e)

/-- The value or the error of a computation has its property. -/
inductive Ends (E : ε → Prop) (R : α → Prop) : Except ε α → Prop
  | ok (h : R a) : Ends E R (.ok a)
  | error (h : E e) : Ends E R (.error e)

/-- A step that goes on reaches a state with the property. -/
inductive Next (R : State → Prop) : Out → Prop
  | next (h : R s) : Next R (.next s)
  | fault : Next R (.fault f)
  | refused : Next R (.refused x)

/-- Every element of a list has the property. -/
def Each (R : α → Prop) (l : List α) : Prop := ∀ a ∈ l, R a

/-- The state of a control word's result. -/
def CtlRes.Fine (P Q : Prop) (r : CtlRes) : Prop := r.s.Fine P Q

/-- The state of an engine word's result. -/
def EngRes.Fine (P Q : Prop) (r : EngRes) : Prop := r.s.Fine P Q

/-- The image that a job of the save engine writes. -/
def ImgJob.Fine (Q : Prop) (j : ImgJob) : Prop := j.img.Fine Q

/-- What a vector word does to its thread keeps the registers in their ranges. -/
def VWord.Fine (Q : Prop) (v : VWord) : Prop := ∀ t, t.Fine Q → (v.post t).Fine Q

/-- The state that a commit or a release has reached. -/
inductive Going.Fine (P Q : Prop) : Going → Prop
  | busy (h : s.Fine P Q) : Going.Fine P Q (.busy s k)
  | done (h : s.Fine P Q) : Going.Fine P Q (.done s)

/-- The state after a look into the log of once-only effects. -/
inductive OnceAt.Fine (P Q : Prop) : OnceAt → Prop
  | replayed (h : s.Fine P Q) : OnceAt.Fine P Q (.replayed s ret)
  | fresh : OnceAt.Fine P Q .fresh
  | full : OnceAt.Fine P Q .full

/-- The state in which a turn ends or its instruction executes. -/
inductive Prep.Fine (P Q : Prop) : Prep → Prop
  | move (h : s.Fine P Q) : Prep.Fine P Q (.move s)
  | run (h : s.Fine P Q) : Prep.Fine P Q (.run i s)

theorem fst_of {R : α → Prop} {r : α × β} (e : r = (a, b)) (h : Fst R r) : R a := by subst e; exact h
theorem snd_of {R : β → Prop} {r : α × β} (e : r = (a, b)) (h : Snd R r) : R b := by subst e; exact h
theorem both_of {R : α → Prop} {R' : β → Prop} {r : α × β} (e : r = (a, b)) (h : Both R R' r) : R a ∧ R' b := by subst e; exact h
theorem some_of {R : α → Prop} {o : Option α} (e : o = some a) (h : Yields R o) : R a := by subst e; cases h; assumption
theorem ok_of {R : α → Prop} {m : Except ε α} (e : m = .ok a) (h : Gives R m) : R a := by subst e; cases h; assumption
theorem ends_ok_of {E : ε → Prop} {R : α → Prop} {m : Except ε α} (e : m = .ok a) (h : Ends E R m) : R a := by subst e; cases h; assumption
theorem ends_error_of {E : ε → Prop} {R : α → Prop} {m : Except ε α} (e : m = .error a) (h : Ends E R m) : E a := by
  subst e; cases h; assumption
theorem next_of {R : State → Prop} {o : Out} (e : o = .next s) (h : Next R o) : R s := by subst e; cases h; assumption
theorem busy_of {g : Going} (e : g = .busy s k) (h : g.Fine P Q) : s.Fine P Q := by subst e; cases h; assumption
theorem done_of {g : Going} (e : g = .done s) (h : g.Fine P Q) : s.Fine P Q := by subst e; cases h; assumption
theorem replayed_of {g : OnceAt} (e : g = .replayed s ret) (h : g.Fine P Q) : s.Fine P Q := by subst e; cases h; assumption
theorem move_of {g : Prep} (e : g = .move s) (h : g.Fine P Q) : s.Fine P Q := by subst e; cases h; assumption
theorem run_of {g : Prep} (e : g = .run i s) (h : g.Fine P Q) : s.Fine P Q := by subst e; cases h; assumption

theorem gives_bind {R : α → Prop} {R' : β → Prop} {m : Except ε α} {f : α → Except ε β} (h : Gives R m) (hf : ∀ a, R a → Gives R' (f a)) :
    Gives R' (m >>= f) := by
  cases h with
  | error => exact .error
  | ok h => exact hf _ h

theorem gives_then {R : β → Prop} {m : Except ε α} {f : α → Except ε β} (hf : ∀ a, Gives R (f a)) : Gives R (m >>= f) := by
  cases m with
  | error e => exact .error
  | ok a => exact hf a

theorem gives_map {R : α → Prop} {R' : β → Prop} {m : Except ε α} {f : α → β} (h : Gives R m) (hf : ∀ a, R a → R' (f a)) :
    Gives R' (f <$> m) := by
  cases h with
  | error => exact .error
  | ok h => exact .ok (hf _ h)

theorem ends_bind {E : ε → Prop} {R : α → Prop} {R' : β → Prop} {m : Except ε α} {f : α → Except ε β} (h : Ends E R m)
    (hf : ∀ a, R a → Ends E R' (f a)) : Ends E R' (m >>= f) := by
  cases h with
  | error h => exact .error h
  | ok h => exact hf _ h

theorem ends_map {E : ε → Prop} {R : α → Prop} {R' : β → Prop} {m : Except ε α} {f : α → β} (h : Ends E R m) (hf : ∀ a, R a → R' (f a)) :
    Ends E R' (f <$> m) := by
  cases h with
  | error h => exact .error h
  | ok h => exact .ok (hf _ h)

theorem yields_bind {R : α → Prop} {R' : β → Prop} {o : Option α} {f : α → Option β} (h : Yields R o)
    (hf : ∀ a, R a → Yields R' (f a)) : Yields R' (o >>= f) := by
  cases h with
  | none => exact .none
  | some h => exact hf _ h

theorem yields_map {R : α → Prop} {R' : β → Prop} {o : Option α} {f : α → β} (h : Yields R o) (hf : ∀ a, R a → R' (f a)) :
    Yields R' (o.map f) := by
  cases h with
  | none => exact .none
  | some h => exact .some (hf _ h)

theorem yields_map_any {R : β → Prop} {o : Option α} {f : α → β} (hf : ∀ a, R (f a)) : Yields R (o.map f) := by
  cases o with
  | none => exact .none
  | some a => exact .some (hf a)

theorem getD_keeps {R : α → Prop} {o : Option α} (h : Yields R o) (hd : R d) : R (o.getD d) := by
  cases h with
  | none => exact hd
  | some h => exact h

theorem foldl_fine {R : α → Prop} {f : α → β → α} {l : List β} {a : α} (h : R a) (hf : ∀ a b, R a → R (f a b)) : R (l.foldl f a) := by
  induction l generalizing a with
  | nil => exact h
  | cons b l ih => exact ih (hf a b h)

theorem foldl_each {R : α → Prop} {R' : β → Prop} {f : α → β → α} {l : List β} {a : α} (h : R a) (hl : Each R' l)
    (hf : ∀ a b, R a → R' b → R (f a b)) : R (l.foldl f a) := by
  induction l generalizing a with
  | nil => exact h
  | cons b l ih =>
    obtain ⟨hb, hl⟩ := List.forall_mem_cons.mp hl
    exact ih (hf a b h hb) hl

theorem foldlM_fine {R : α → Prop} {f : α → β → Except ε α} {l : List β} {a : α} (h : R a) (hf : ∀ a b, R a → Gives R (f a b)) :
    Gives R (l.foldlM f a) := by
  induction l generalizing a with
  | nil => exact .ok h
  | cons b l ih => exact gives_bind (hf a b h) fun _ => ih

theorem foldlM_ends {E : ε → Prop} {R : α → Prop} {f : α → β → Except ε α} {l : List β} {a : α} (h : R a)
    (hf : ∀ a b, R a → Ends E R (f a b)) : Ends E R (l.foldlM f a) := by
  induction l generalizing a with
  | nil => exact .ok h
  | cons b l ih => exact ends_bind (hf a b h) fun _ => ih

theorem yields_of_mem {R : α → Prop} {o : Option α} (h : ∀ a ∈ o, R a) : Yields R o := by
  cases o with
  | none => exact .none
  | some a => exact .some (h a rfl)

theorem mem_of_yields {R : α → Prop} {o : Option α} (h : Yields R o) : ∀ a ∈ o, R a := fun _ e => some_of e h

theorem each_map {R : α → Prop} {R' : β → Prop} {l : List α} {f : α → β} (h : Each R l) (hf : ∀ a, R a → R' (f a)) : Each R' (l.map f) := by
  intro b hb
  obtain ⟨a, ha, rfl⟩ := List.mem_map.mp hb
  exact hf a (h a ha)

theorem each_filter {R : α → Prop} {l : List α} {f : α → Bool} (h : Each R l) : Each R (l.filter f) :=
  fun a ha => h a (List.mem_of_mem_filter ha)

theorem each_append {R : α → Prop} {l m : List α} (h : Each R l) (hm : Each R m) : Each R (l ++ m) := fun a ha =>
  (List.mem_append.mp ha).elim (h a) (hm a)

theorem each_cons {R : α → Prop} {a : α} {l : List α} (ha : R a) (h : Each R l) : Each R (a :: l) := List.forall_mem_cons.mpr ⟨ha, h⟩

theorem each_nil {R : α → Prop} : Each R [] := List.forall_mem_nil R

theorem each_take {R : α → Prop} {l : List α} {n : Nat} (h : Each R l) : Each R (l.take n) := fun a ha => h a (List.mem_of_mem_take ha)

theorem each_drop {R : α → Prop} {l : List α} {n : Nat} (h : Each R l) : Each R (l.drop n) := fun a ha => h a (List.mem_of_mem_drop ha)

theorem each_eraseIdx {R : α → Prop} {l : List α} {n : Nat} (h : Each R l) : Each R (l.eraseIdx n) := fun a ha => h a
    (List.mem_of_mem_eraseIdx ha)

theorem each_filterMap {R : α → Prop} {R' : β → Prop} {l : List α} {f : α → Option β} (h : Each R l) (hf : ∀ a, R a → Yields R' (f a)) :
    Each R' (l.filterMap f) := by
  intro b hb
  obtain ⟨a, ha, e⟩ := List.mem_filterMap.mp hb
  exact some_of e (hf a (h a ha))

theorem each_filterMap_any {R : β → Prop} {l : List α} {f : α → Option β} (hf : ∀ a, Yields R (f a)) : Each R (l.filterMap f) := by
  intro b hb
  obtain ⟨a, _, e⟩ := List.mem_filterMap.mp hb
  exact some_of e (hf a)

theorem each_map_any {R : β → Prop} {l : List α} {f : α → β} (hf : ∀ a, R (f a)) : Each R (l.map f) := by
  intro b hb
  obtain ⟨a, _, rfl⟩ := List.mem_map.mp hb
  exact hf a

theorem each_flatMap {R : α → Prop} {R' : β → Prop} {l : List α} {f : α → List β} (h : Each R l) (hf : ∀ a, R a → Each R' (f a)) :
    Each R' (l.flatMap f) := by
  intro b hb
  obtain ⟨a, ha, e⟩ := List.mem_flatMap.mp hb
  exact hf a (h a ha) b e

theorem yields_orElse {R : α → Prop} {o o' : Option α} (h : Yields R o) (h' : Yields R o') : Yields R (o <|> o') := by
  cases h with
  | none => exact h'
  | some h => exact .some h

theorem yields_find {R : α → Prop} {l : List α} {f : α → Bool} (h : Each R l) : Yields R (l.find? f) :=
  yields_of_mem fun _ e => h _ (List.mem_of_find?_eq_some e)

theorem yields_getElem {R : α → Prop} {l : List α} {n : Nat} (h : Each R l) : Yields R l[n]? :=
  yields_of_mem fun _ e => h _ (List.mem_of_getElem? e)

theorem each_find {R : α → Prop} {t : Tab α} {k : Nat} (h : Each (Snd R) t) : Yields R (Tab.find k t) := by
  induction t with
  | nil => exact .none
  | cons e t ih =>
    obtain ⟨h1, h2⟩ := List.forall_mem_cons.mp h
    unfold Tab.find
    split
    · exact .some h1
    · split
      · exact ih h2
      · exact .none

theorem getD_fine {R : α → Prop} {t : Tab α} {k : Nat} {d : α} (h : Each (Snd R) t) (hd : R d) : R (Tab.getD t k d) := getD_keeps
    (each_find h) hd

theorem put_fine {R : α → Prop} {t : Tab α} {k : Nat} {v : α} (h : Each (Snd R) t) (hv : R v) : Each (Snd R) (Tab.put k v t) := by
  induction t with
  | nil => exact each_cons hv each_nil
  | cons e t ih =>
    obtain ⟨h1, h2⟩ := List.forall_mem_cons.mp h
    unfold Tab.put
    split
    · exact each_cons hv h2
    · split
      · exact each_cons h1 (ih h2)
      · exact each_cons hv (each_cons h1 h2)

/-! ## Where the fields that count are, and where they stay as they are -/

theorem State.fine_set {b : State} (h : b.Fine P Q) :
    State.Fine P Q
      ⟨b.mem, x1, x2, b.thr, b.cores, x3, b.dies, x4, x5, x6, x7, x8, b.tasks, x9, x10, x11, x12, x13, x14, x15, x16, x17, x18,
      x19, x20, x21, x22, x23, x24, x25, x26, x27, x28, x29, x30, x31, x32, x33, x34, x35, x36, x37, x38, x39, x40, x41, x42, x43,
      x44, x45, x46⟩ := h

theorem State.fine_mem {b : State} (h : b.Fine P Q) (hm : Mem P y) :
    State.Fine P Q
      ⟨y, x1, x2, b.thr, b.cores, x3, b.dies, x4, x5, x6, x7, x8, b.tasks, x9, x10, x11, x12, x13, x14, x15, x16, x17, x18, x19,
      x20, x21, x22, x23, x24, x25, x26, x27, x28, x29, x30, x31, x32, x33, x34, x35, x36, x37, x38, x39, x40, x41, x42, x43, x44,
      x45, x46⟩ := ⟨hm, h.2⟩

theorem State.fine_thr {b : State} (h : b.Fine P Q) (ht : Each (Snd (Thread.Fine Q)) y) :
    State.Fine P Q
      ⟨b.mem, x1, x2, y, b.cores, x3, b.dies, x4, x5, x6, x7, x8, b.tasks, x9, x10, x11, x12, x13, x14, x15, x16, x17, x18, x19,
      x20, x21, x22, x23, x24, x25, x26, x27, x28, x29, x30, x31, x32, x33, x34, x35, x36, x37, x38, x39, x40, x41, x42, x43, x44,
      x45, x46⟩ := ⟨h.1, ht, h.2.2⟩

theorem State.fine_tasks {b : State} (h : b.Fine P Q) (ht : Each (Task.Fine Q) y) :
    State.Fine P Q
      ⟨b.mem, x1, x2, b.thr, b.cores, x3, b.dies, x4, x5, x6, x7, x8, y, x9, x10, x11, x12, x13, x14, x15, x16, x17, x18, x19, x20,
      x21, x22, x23, x24, x25, x26, x27, x28, x29, x30, x31, x32, x33, x34, x35, x36, x37, x38, x39, x40, x41, x42, x43, x44, x45,
      x46⟩ := ⟨h.1, h.2.1, ht, h.2.2.2⟩

theorem State.fine_cores {b : State} (h : b.Fine P Q) (ht : Each (Snd (Core.Fine Q)) y) :
    State.Fine P Q
      ⟨b.mem, x1, x2, b.thr, y, x3, b.dies, x4, x5, x6, x7, x8, b.tasks, x9, x10, x11, x12, x13, x14, x15, x16, x17, x18, x19, x20,
      x21, x22, x23, x24, x25, x26, x27, x28, x29, x30, x31, x32, x33, x34, x35, x36, x37, x38, x39, x40, x41, x42, x43, x44, x45,
      x46⟩ := ⟨h.1, h.2.1, h.2.2.1, ht, h.2.2.2.2⟩

theorem State.fine_dies {b : State} (h : b.Fine P Q) (ht : Dies Q y) :
    State.Fine P Q
      ⟨b.mem, x1, x2, b.thr, b.cores, x3, y, x4, x5, x6, x7, x8, b.tasks, x9, x10, x11, x12, x13, x14, x15, x16, x17, x18, x19,
      x20, x21, x22, x23, x24, x25, x26, x27, x28, x29, x30, x31, x32, x33, x34, x35, x36, x37, x38, x39, x40, x41, x42, x43, x44,
      x45, x46⟩ := ⟨h.1, h.2.1, h.2.2.1, h.2.2.2.1, ht⟩

theorem Thread.fine_set {b : Thread} (h : b.Fine Q) :
    Thread.Fine Q
      ⟨x1, x2, x3, x4, x5, x6, x7, x8, x9, x10, x11, x12, x13, b.vc, x14, x15, x16, x17, x18, x19, b.status, b.trapCause, b.trapPc,
      x20, x21, b.repState, b.handlerBase, x22, x23, b.roundMode, b.boundCtl, x24, b.fmtBase, b.ft, x25, x26, x27, x28, x29, x30,
      x31, x32, x33, x34, x35, x36, x37, x38, x39, x40, x41, x42, b.tok, x43, x44, x45, x46, x47, x48, x49, x50, x51, x52, x53,
      x54, x55, x56, x57, x58, x59, x60, x61, x62, x63, x64, x65, x66, x67, x68, x69, x70, x71, x72, x73, x74, x75, x76, x77, x78,
      x79, x80⟩ := h

theorem Thread.fine_tok {b : Thread} {y : Vector Nat 9} (h : b.Fine Q) (hy : Q → ∀ i, vget y i 0 ≤ 63) :
    Thread.Fine Q
      ⟨x1, x2, x3, x4, x5, x6, x7, x8, x9, x10, x11, x12, x13, b.vc, x14, x15, x16, x17, x18, x19, b.status, b.trapCause, b.trapPc,
      x20, x21, b.repState, b.handlerBase, x22, x23, b.roundMode, b.boundCtl, x24, b.fmtBase, b.ft, x25, x26, x27, x28, x29, x30,
      x31, x32, x33, x34, x35, x36, x37, x38, x39, x40, x41, x42, y, x43, x44, x45, x46, x47, x48, x49, x50, x51, x52, x53, x54,
      x55, x56, x57, x58, x59, x60, x61, x62, x63, x64, x65, x66, x67, x68, x69, x70, x71, x72, x73, x74, x75, x76, x77, x78, x79,
      x80⟩ := fun q =>
  let ⟨_, h2, h3, h4, h5, h6, h7, h8, h9, h10, h11, h12⟩ := h q
  ⟨hy q, h2, h3, h4, h5, h6, h7, h8, h9, h10, h11, h12⟩

theorem Thread.fine_vc {b : Thread} {y : BitVec 16} (h : b.Fine Q) (hy : Q → y ≠ 0#16) :
    Thread.Fine Q
      ⟨x1, x2, x3, x4, x5, x6, x7, x8, x9, x10, x11, x12, x13, y, x14, x15, x16, x17, x18, x19, b.status, b.trapCause, b.trapPc,
      x20, x21, b.repState, b.handlerBase, x22, x23, b.roundMode, b.boundCtl, x24, b.fmtBase, b.ft, x25, x26, x27, x28, x29, x30,
      x31, x32, x33, x34, x35, x36, x37, x38, x39, x40, x41, x42, b.tok, x43, x44, x45, x46, x47, x48, x49, x50, x51, x52, x53,
      x54, x55, x56, x57, x58, x59, x60, x61, x62, x63, x64, x65, x66, x67, x68, x69, x70, x71, x72, x73, x74, x75, x76, x77, x78,
      x79, x80⟩ := fun q =>
  let ⟨h1, _, h3, h4, h5, h6, h7, h8, h9, h10, h11, h12⟩ := h q
  ⟨h1, hy q, h3, h4, h5, h6, h7, h8, h9, h10, h11, h12⟩

theorem Thread.fine_status {b : Thread} {y : W32} (h : b.Fine Q) (hy : Q → y &&& statusReserved = 0#32) :
    Thread.Fine Q
      ⟨x1, x2, x3, x4, x5, x6, x7, x8, x9, x10, x11, x12, x13, b.vc, x14, x15, x16, x17, x18, x19, y, b.trapCause, b.trapPc, x20,
      x21, b.repState, b.handlerBase, x22, x23, b.roundMode, b.boundCtl, x24, b.fmtBase, b.ft, x25, x26, x27, x28, x29, x30, x31,
      x32, x33, x34, x35, x36, x37, x38, x39, x40, x41, x42, b.tok, x43, x44, x45, x46, x47, x48, x49, x50, x51, x52, x53, x54,
      x55, x56, x57, x58, x59, x60, x61, x62, x63, x64, x65, x66, x67, x68, x69, x70, x71, x72, x73, x74, x75, x76, x77, x78, x79,
      x80⟩ := fun q =>
  let ⟨h1, h2, _, h4, h5, h6, h7, h8, h9, h10, h11, h12⟩ := h q
  ⟨h1, h2, hy q, h4, h5, h6, h7, h8, h9, h10, h11, h12⟩

theorem Thread.fine_trapCause {b : Thread} {y : W} (h : b.Fine Q) (hy : Q → bits y.toNat 31 19 = 0) :
    Thread.Fine Q
      ⟨x1, x2, x3, x4, x5, x6, x7, x8, x9, x10, x11, x12, x13, b.vc, x14, x15, x16, x17, x18, x19, b.status, y, b.trapPc, x20, x21,
      b.repState, b.handlerBase, x22, x23, b.roundMode, b.boundCtl, x24, b.fmtBase, b.ft, x25, x26, x27, x28, x29, x30, x31, x32,
      x33, x34, x35, x36, x37, x38, x39, x40, x41, x42, b.tok, x43, x44, x45, x46, x47, x48, x49, x50, x51, x52, x53, x54, x55,
      x56, x57, x58, x59, x60, x61, x62, x63, x64, x65, x66, x67, x68, x69, x70, x71, x72, x73, x74, x75, x76, x77, x78, x79, x80⟩ :=
          fun q =>
  let ⟨h1, h2, h3, _, h5, h6, h7, h8, h9, h10, h11, h12⟩ := h q
  ⟨h1, h2, h3, hy q, h5, h6, h7, h8, h9, h10, h11, h12⟩

theorem Thread.fine_trapPc {b : Thread} {y : W} (h : b.Fine Q) (hy : Q → y.toNat < 2 ^ 57) :
    Thread.Fine Q
      ⟨x1, x2, x3, x4, x5, x6, x7, x8, x9, x10, x11, x12, x13, b.vc, x14, x15, x16, x17, x18, x19, b.status, b.trapCause, y, x20,
      x21, b.repState, b.handlerBase, x22, x23, b.roundMode, b.boundCtl, x24, b.fmtBase, b.ft, x25, x26, x27, x28, x29, x30, x31,
      x32, x33, x34, x35, x36, x37, x38, x39, x40, x41, x42, b.tok, x43, x44, x45, x46, x47, x48, x49, x50, x51, x52, x53, x54,
      x55, x56, x57, x58, x59, x60, x61, x62, x63, x64, x65, x66, x67, x68, x69, x70, x71, x72, x73, x74, x75, x76, x77, x78, x79,
      x80⟩ := fun q =>
  let ⟨h1, h2, h3, h4, _, h6, h7, h8, h9, h10, h11, h12⟩ := h q
  ⟨h1, h2, h3, h4, hy q, h6, h7, h8, h9, h10, h11, h12⟩

theorem Thread.fine_repState {b : Thread} {y : W32} (h : b.Fine Q) (hy : Q → y &&& 0x7FC0F8C0#32 = 0#32) :
    Thread.Fine Q
      ⟨x1, x2, x3, x4, x5, x6, x7, x8, x9, x10, x11, x12, x13, b.vc, x14, x15, x16, x17, x18, x19, b.status, b.trapCause, b.trapPc,
      x20, x21, y, b.handlerBase, x22, x23, b.roundMode, b.boundCtl, x24, b.fmtBase, b.ft, x25, x26, x27, x28, x29, x30, x31, x32,
      x33, x34, x35, x36, x37, x38, x39, x40, x41, x42, b.tok, x43, x44, x45, x46, x47, x48, x49, x50, x51, x52, x53, x54, x55,
      x56, x57, x58, x59, x60, x61, x62, x63, x64, x65, x66, x67, x68, x69, x70, x71, x72, x73, x74, x75, x76, x77, x78, x79, x80⟩ :=
          fun q =>
  let ⟨h1, h2, h3, h4, h5, _, h7, h8, h9, h10, h11, h12⟩ := h q
  ⟨h1, h2, h3, h4, h5, hy q, h7, h8, h9, h10, h11, h12⟩

theorem Thread.fine_handlerBase {b : Thread} {y : W} (h : b.Fine Q) (hy : Q → y &&& 0xFE00000000000FFE#64 = 0#64) :
    Thread.Fine Q
      ⟨x1, x2, x3, x4, x5, x6, x7, x8, x9, x10, x11, x12, x13, b.vc, x14, x15, x16, x17, x18, x19, b.status, b.trapCause, b.trapPc,
      x20, x21, b.repState, y, x22, x23, b.roundMode, b.boundCtl, x24, b.fmtBase, b.ft, x25, x26, x27, x28, x29, x30, x31, x32,
      x33, x34, x35, x36, x37, x38, x39, x40, x41, x42, b.tok, x43, x44, x45, x46, x47, x48, x49, x50, x51, x52, x53, x54, x55,
      x56, x57, x58, x59, x60, x61, x62, x63, x64, x65, x66, x67, x68, x69, x70, x71, x72, x73, x74, x75, x76, x77, x78, x79, x80⟩ :=
          fun q =>
  let ⟨h1, h2, h3, h4, h5, h6, _, h8, h9, h10, h11, h12⟩ := h q
  ⟨h1, h2, h3, h4, h5, h6, hy q, h8, h9, h10, h11, h12⟩

theorem Thread.fine_roundMode {b : Thread} {y : W32} (h : b.Fine Q) (hy : Q → y.toNat ≤ 4) :
    Thread.Fine Q
      ⟨x1, x2, x3, x4, x5, x6, x7, x8, x9, x10, x11, x12, x13, b.vc, x14, x15, x16, x17, x18, x19, b.status, b.trapCause, b.trapPc,
      x20, x21, b.repState, b.handlerBase, x22, x23, y, b.boundCtl, x24, b.fmtBase, b.ft, x25, x26, x27, x28, x29, x30, x31, x32,
      x33, x34, x35, x36, x37, x38, x39, x40, x41, x42, b.tok, x43, x44, x45, x46, x47, x48, x49, x50, x51, x52, x53, x54, x55,
      x56, x57, x58, x59, x60, x61, x62, x63, x64, x65, x66, x67, x68, x69, x70, x71, x72, x73, x74, x75, x76, x77, x78, x79, x80⟩ :=
          fun q =>
  let ⟨h1, h2, h3, h4, h5, h6, h7, _, h9, h10, h11, h12⟩ := h q
  ⟨h1, h2, h3, h4, h5, h6, h7, hy q, h9, h10, h11, h12⟩

theorem Thread.fine_boundCtl {b : Thread} {y : W32} (h : b.Fine Q) (hy : Q → y.toNat < 8 ∧ y.toNat % 4 ≠ 3) :
    Thread.Fine Q
      ⟨x1, x2, x3, x4, x5, x6, x7, x8, x9, x10, x11, x12, x13, b.vc, x14, x15, x16, x17, x18, x19, b.status, b.trapCause, b.trapPc,
      x20, x21, b.repState, b.handlerBase, x22, x23, b.roundMode, y, x24, b.fmtBase, b.ft, x25, x26, x27, x28, x29, x30, x31, x32,
      x33, x34, x35, x36, x37, x38, x39, x40, x41, x42, b.tok, x43, x44, x45, x46, x47, x48, x49, x50, x51, x52, x53, x54, x55,
      x56, x57, x58, x59, x60, x61, x62, x63, x64, x65, x66, x67, x68, x69, x70, x71, x72, x73, x74, x75, x76, x77, x78, x79, x80⟩ :=
          fun q =>
  let ⟨h1, h2, h3, h4, h5, h6, h7, h8, _, _, h11, h12⟩ := h q
  ⟨h1, h2, h3, h4, h5, h6, h7, h8, (hy q).1, (hy q).2, h11, h12⟩

theorem Thread.fine_fmtBase {b : Thread} {y : W32} (h : b.Fine Q) (hy : Q → y.toNat < 64) :
    Thread.Fine Q
      ⟨x1, x2, x3, x4, x5, x6, x7, x8, x9, x10, x11, x12, x13, b.vc, x14, x15, x16, x17, x18, x19, b.status, b.trapCause, b.trapPc,
      x20, x21, b.repState, b.handlerBase, x22, x23, b.roundMode, b.boundCtl, x24, y, b.ft, x25, x26, x27, x28, x29, x30, x31, x32,
      x33, x34, x35, x36, x37, x38, x39, x40, x41, x42, b.tok, x43, x44, x45, x46, x47, x48, x49, x50, x51, x52, x53, x54, x55,
      x56, x57, x58, x59, x60, x61, x62, x63, x64, x65, x66, x67, x68, x69, x70, x71, x72, x73, x74, x75, x76, x77, x78, x79, x80⟩ :=
          fun q =>
  let ⟨h1, h2, h3, h4, h5, h6, h7, h8, h9, h10, _, h12⟩ := h q
  ⟨h1, h2, h3, h4, h5, h6, h7, h8, h9, h10, hy q, h12⟩

theorem Thread.fine_ft {b : Thread} {y : Vector W32 16} (h : b.Fine Q) (hy : Q → ∀ i, bits (vget y i 0#32).toNat 11 0 = 0) :
    Thread.Fine Q
      ⟨x1, x2, x3, x4, x5, x6, x7, x8, x9, x10, x11, x12, x13, b.vc, x14, x15, x16, x17, x18, x19, b.status, b.trapCause, b.trapPc,
      x20, x21, b.repState, b.handlerBase, x22, x23, b.roundMode, b.boundCtl, x24, b.fmtBase, y, x25, x26, x27, x28, x29, x30, x31,
      x32, x33, x34, x35, x36, x37, x38, x39, x40, x41, x42, b.tok, x43, x44, x45, x46, x47, x48, x49, x50, x51, x52, x53, x54,
      x55, x56, x57, x58, x59, x60, x61, x62, x63, x64, x65, x66, x67, x68, x69, x70, x71, x72, x73, x74, x75, x76, x77, x78, x79,
      x80⟩ := fun q =>
  let ⟨h1, h2, h3, h4, h5, h6, h7, h8, h9, h10, h11, _⟩ := h q
  ⟨h1, h2, h3, h4, h5, h6, h7, h8, h9, h10, h11, hy q⟩

theorem Image.fine_set {b : Image} (h : b.Fine Q) :
    Image.Fine Q
      ⟨x1, x2, x3, x4, x5, x6, x7, x8, x9, x10, x11, x12, b.t, x13, x14, x15, x16⟩ := h

theorem Task.fine_set {b : Task} (h : b.Fine Q) :
    Task.Fine Q
      ⟨x1, x2, x3, x4, x5, x6, x7, x8, x9, x10, x11, x12, x13, x14, x15, x16, x17, x18, x19, x20, x21, x22, x23, x24, x25, x26,
      x27, x28, x29, x30, x31, x32, x33, x34, x35, x36, x37, x38, x39, x40, x41, x42, x43, b.saved, b.origins, x44, b.kept, x45,
      x46, x47, x48, x49⟩ := h

theorem Core.fine_set {b : Core} (h : b.Fine Q) :
    Core.Fine Q
      ⟨x1, x2, x3, x4, b.imgA, b.imgB, b.imgC, x5, x6, x7, x8, x9, x10, x11, x12, x13, x14⟩ := h

theorem Die.fine_set {b : Die} (h : b.Fine Q) :
    Die.Fine Q
      ⟨x1, x2, x3, x4, x5, x6, x7, b.imgs, x8, x9, x10, x11, x12, x13, x14, x15, x16, x17, x18, x19, x20, x21, x22, x23, x24, x25,
      x26⟩ := h

theorem State.fine_mk (hm : Mem P m) (ht : Each (Snd (Thread.Fine Q)) y1) (hx : Each (Task.Fine Q) y2)
    (hc : Each (Snd (Core.Fine Q)) y3) (hd : Dies Q y4) :
    State.Fine P Q
      ⟨m, x1, x2, y1, y3, x3, y4, x4, x5, x6, x7, x8, y2, x9, x10, x11, x12, x13, x14, x15, x16, x17, x18, x19, x20, x21, x22, x23,
      x24, x25, x26, x27, x28, x29, x30, x31, x32, x33, x34, x35, x36, x37, x38, x39, x40, x41, x42, x43, x44, x45, x46⟩ :=
          ⟨hm, ht, hx, hc, hd⟩

theorem Image.fine_mk (h : Yields (Thread.Fine Q) y) :
    Image.Fine Q
      ⟨x1, x2, x3, x4, x5, x6, x7, x8, x9, x10, x11, x12, y, x13, x14, x15, x16⟩ := mem_of_yields h

theorem Task.fine_mk (hs : Each (Image.Fine Q) y1) (ho : Each (Image.Fine Q) y2) (hk : Each (Snd (Image.Fine Q)) y3) :
    Task.Fine Q
      ⟨x1, x2, x3, x4, x5, x6, x7, x8, x9, x10, x11, x12, x13, x14, x15, x16, x17, x18, x19, x20, x21, x22, x23, x24, x25, x26,
      x27, x28, x29, x30, x31, x32, x33, x34, x35, x36, x37, x38, x39, x40, x41, x42, x43, y1, y2, x44, y3, x45, x46, x47, x48,
      x49⟩ := ⟨hs, ho, hk⟩

theorem Core.fine_mk (ha : Yields (Image.Fine Q) y1) (hb : Yields (Image.Fine Q) y2) (hc : Yields (Image.Fine Q) y3) :
    Core.Fine Q
      ⟨x1, x2, x3, x4, y1, y2, y3, x5, x6, x7, x8, x9, x10, x11, x12, x13, x14⟩ := ⟨mem_of_yields ha, mem_of_yields hb, mem_of_yields hc⟩

theorem Die.fine_mk (h : Each (ImgJob.Fine Q) y) :
    Die.Fine Q
      ⟨x1, x2, x3, x4, x5, x6, x7, y, x8, x9, x10, x11, x12, x13, x14, x15, x16, x17, x18, x19, x20, x21, x22, x23, x24, x25, x26⟩ := h

theorem mapVal_fine {R : α → Prop} {t : Tab α} {f : α → α} (h : Each (Snd R) t) (hf : ∀ a, R a → R (f a)) : Each (Snd R) (Tab.mapVal f t) :=
  each_map h fun e he => hf e.2 he

theorem CtlRes.fine_mk {s : State} (h : s.Fine P Q) : CtlRes.Fine P Q ⟨s, x1, x2, x3⟩ := h

theorem EngRes.fine_mk {s : State} (h : s.Fine P Q) :
    EngRes.Fine P Q ⟨s, x1, x2, x3, x4, x5, x6, x7, x8, x9, x10, x11, x12, x13, x14, x15, x16⟩ := h

theorem VWord.fine_mk {f : Thread → Thread} (h : ∀ t, t.Fine Q → (f t).Fine Q) : VWord.Fine Q
    ⟨x1, x2, x3, x4, x5, x6, x7, x8, f, x9⟩ := h

theorem VWord.post_fine {v : VWord} {t : Thread} (h : v.Fine Q) (ht : t.Fine Q) : (v.post t).Fine Q := h t ht

theorem ImgJob.fine_mk {i : Image} (h : i.Fine Q) : ImgJob.Fine Q ⟨x1, x2, x3, x4, i, x5⟩ := h

theorem State.mem_fine {s : State} (h : s.Fine P Q) : Mem P s.mem := h.1
theorem State.dies_fine {s : State} (h : s.Fine P Q) : Dies Q s.dies := h.2.2.2.2
theorem State.thr_fine {s : State} (h : s.Fine P Q) : Each (Snd (Thread.Fine Q)) s.thr := h.2.1
theorem State.tasks_fine {s : State} (h : s.Fine P Q) : Each (Task.Fine Q) s.tasks := h.2.2.1
theorem State.cores_fine {s : State} (h : s.Fine P Q) : Each (Snd (Core.Fine Q)) s.cores := h.2.2.2.1
theorem Task.saved_fine {x : Task} (h : x.Fine Q) : Each (Image.Fine Q) x.saved := h.1
theorem Task.origins_fine {x : Task} (h : x.Fine Q) : Each (Image.Fine Q) x.origins := h.2.1
theorem Task.kept_fine {x : Task} (h : x.Fine Q) : Each (Snd (Image.Fine Q)) x.kept := h.2.2
theorem Core.imgA_fine {c : Core} (h : c.Fine Q) : Yields (Image.Fine Q) c.imgA := yields_of_mem h.1
theorem Core.imgB_fine {c : Core} (h : c.Fine Q) : Yields (Image.Fine Q) c.imgB := yields_of_mem h.2.1
theorem Core.imgC_fine {c : Core} (h : c.Fine Q) : Yields (Image.Fine Q) c.imgC := yields_of_mem h.2.2
theorem Image.t_fine {i : Image} (h : i.Fine Q) : Yields (Thread.Fine Q) i.t := yields_of_mem h
theorem Die.imgs_fine {d : Die} (h : d.Fine Q) : Each (ImgJob.Fine Q) d.imgs := h
theorem ImgJob.img_fine {j : ImgJob} (h : j.Fine Q) : j.img.Fine Q := h
theorem CtlRes.s_fine {r : CtlRes} (h : r.Fine P Q) : r.s.Fine P Q := h
theorem EngRes.s_fine {r : EngRes} (h : r.Fine P Q) : r.s.Fine P Q := h

/-! ## Canonical memory -/

theorem memPut_mem {m : List Host.Cell} {a : Nat} {l : List Byte} (h : Mem P m) : Mem P (memPut m a l) := fun p => wf_memPut (h p) a l
theorem putMasked_mem {m : List Host.Cell} {a : Nat} {d : BitVec 512} {k : BitVec 64} (h : Mem P m) : Mem P (putMasked m a d k) := fun p =>
  wf_putMasked (h p) a d k
theorem putMapEntry_mem {m : List Host.Cell} {b i e f : Nat} (h : Mem P m) : Mem P (putMapEntry m b i e f) := fun p => wf_putMapEntry
    (h p) b i e f
theorem poolPush_mem {m : List Host.Cell} {a f : Nat} (h : Mem P m) : Mem P (poolPush m a f) := fun p => wf_poolPush (h p) a f
theorem restorePage_mem {m : List Host.Cell} {r : SnapRoot} {i : Nat} (h : Mem P m) : Mem P (restorePage r m i) := fun p =>
    wf_restorePage (h p) r i
theorem mem_of_poolPop {m m' : List Host.Cell} {a f : Nat} (e : poolPop m a = some (m', f)) (h : Mem P m) : Mem P m' := fun p =>
  wf_poolPop (h p) e

/-! ## The blank parts, and the operations of State -/

theorem Thread.blank_fine : Thread.blank.Fine Q := fun _ =>
  ⟨fun i => by rw [Thread.blank, vget_replicate]; decide, by decide, by decide, by decide, by decide, by decide, by decide, by decide,
    by decide, by decide, by decide, fun i => by rw [Thread.blank, vget_replicate]; decide⟩

theorem Core.blank_fine : Core.blank.Fine Q :=
  ⟨fun _ h => (nomatch h), fun _ h => (nomatch h), fun _ h => (nomatch h)⟩

theorem State.thread_fine {s : State} {k : Nat} (h : s.Fine P Q) : (s.thread k).Fine Q := getD_fine h.2.1 Thread.blank_fine

theorem State.th_fine {s : State} (h : s.Fine P Q) : s.th.Fine Q := State.thread_fine h

theorem State.setThread_fine {s : State} {k : Nat} {t : Thread} (h : s.Fine P Q) (ht : t.Fine Q) : (s.setThread k t).Fine P Q :=
  State.fine_thr h (put_fine (R := Thread.Fine Q) h.2.1 ht)

theorem State.setTh_fine {s : State} {t : Thread} (h : s.Fine P Q) (ht : t.Fine Q) : (s.setTh t).Fine P Q := State.setThread_fine h ht

theorem State.modThread_fine {s : State} {k : Nat} {f : Thread → Thread} (h : s.Fine P Q) (hf : ∀ t, t.Fine Q → (f t).Fine Q) :
    (s.modThread k f).Fine P Q := State.setThread_fine h (hf _ (State.thread_fine h))

theorem State.core_fine {s : State} {k : Nat} (h : s.Fine P Q) : (s.core k).Fine Q := getD_fine h.2.2.2.1 Core.blank_fine

theorem State.setCore_fine {s : State} {k : Nat} {c : Core} (h : s.Fine P Q) (hc : c.Fine Q) : (s.setCore k c).Fine P Q :=
  State.fine_cores h (put_fine (R := Core.Fine Q) h.2.2.2.1 hc)

theorem State.modCore_fine {s : State} {k : Nat} {f : Core → Core} (h : s.Fine P Q) (hf : ∀ c, c.Fine Q → (f c).Fine Q) :
    (s.modCore k f).Fine P Q := State.setCore_fine h (hf _ (State.core_fine h))

theorem State.die_fine {s : State} {d : Nat} (h : s.Fine P Q) : (s.die d).Fine Q := h.2.2.2.2 d

theorem vget_vset_fine {n : Nat} {R : α → Prop} {v : Vector α n} {i : Nat} {x b : α} (h : ∀ j, R (vget v j b)) (hx : R x) (hb : R b)
    (j : Nat) :
    R (vget (vset v i x) j b) := by
  unfold vget vset
  rw [Vector.getElem?_setIfInBounds]
  split
  · split
    · exact hx
    · exact hb
  · exact h j

theorem Die.blank_fine : Die.blank.Fine Q := fun _ h => nomatch h

theorem dies_map {v : Vector Die 8} {f : Die → Die} (h : Dies Q v) (hf : ∀ x, x.Fine Q → (f x).Fine Q) : Dies Q (v.map f) := by
  intro d
  unfold vget
  rw [Vector.getElem?_map]
  exact getD_keeps (yields_map (R := Die.Fine Q) (by
    have h1 := h d
    unfold vget at h1
    cases hv : v[d]? with
    | none => exact .none
    | some x => rw [hv] at h1; exact .some h1) hf) Die.blank_fine

theorem dies_mapIdx {v : Vector Die 8} {f : Nat → Die → Die} (h : Dies Q v) (hf : ∀ i x, x.Fine Q → (f i x).Fine Q) : Dies Q
    (v.mapIdx f) := by
  intro d
  unfold vget
  rw [Vector.getElem?_mapIdx]
  exact getD_keeps (yields_map (R := Die.Fine Q) (by
    have h1 := h d
    unfold vget at h1
    cases hv : v[d]? with
    | none => exact .none
    | some x => rw [hv] at h1; exact .some h1) (hf d)) Die.blank_fine

theorem dies_vset {v : Vector Die 8} {i : Nat} {x : Die} (h : Dies Q v) (hx : x.Fine Q) : Dies Q (vset v i x) :=
  vget_vset_fine (R := Die.Fine Q) h hx Die.blank_fine

theorem dies_replicate : Dies Q (Vector.replicate 8 Die.blank) := fun d => by
  rw [vget_replicate]
  exact Die.blank_fine

theorem State.setDie_fine {s : State} {d : Nat} {x : Die} (h : s.Fine P Q) (hx : x.Fine Q) : (s.setDie d x).Fine P Q :=
  State.fine_dies h (dies_vset h.2.2.2.2 hx)

theorem State.modDie_fine {s : State} {k : Nat} {f : Die → Die} (h : s.Fine P Q) (hf : ∀ d, d.Fine Q → (f d).Fine Q) :
    (s.modDie k f).Fine P Q := State.setDie_fine h (hf _ (State.die_fine h))

theorem State.setCluster_fine {s : State} {k : Nat} {c : Cluster} (h : s.Fine P Q) : (s.setCluster k c).Fine P Q := h
theorem State.modCluster_fine {s : State} {k : Nat} {f : Cluster → Cluster} (h : s.Fine P Q) : (s.modCluster k f).Fine P Q := h
theorem State.setStack_fine {s : State} {k : Nat} {c : Stack} (h : s.Fine P Q) : (s.setStack k c).Fine P Q := h
theorem State.modStack_fine {s : State} {k : Nat} {f : Stack → Stack} (h : s.Fine P Q) : (s.modStack k f).Fine P Q := h
theorem State.setPort_fine {s : State} {k : Nat} {c : Port} (h : s.Fine P Q) : (s.setPort k c).Fine P Q := h

theorem State.modTask_fine {s : State} {uid : Nat} {f : Task → Task} (h : s.Fine P Q) (hf : ∀ x, x.Fine Q → (f x).Fine Q) :
    (s.modTask uid f).Fine P Q :=
  State.fine_tasks h (each_map h.2.2.1 fun x hx => iteInduction (fun _ => hf x hx) fun _ => hx)

theorem State.setTask_fine {s : State} {x : Task} (h : s.Fine P Q) (hx : x.Fine Q) : (s.setTask x).Fine P Q :=
  State.fine_tasks h (each_map h.2.2.1 fun _ hy => iteInduction (fun _ => hx) fun _ => hy)

theorem State.taskOf_fine {s : State} {uid : Nat} (h : s.Fine P Q) : Yields (Task.Fine Q) (s.taskOf uid) := yields_find h.2.2.1

end Sys2Proof.Machine
end

section
/-! The ranges of the registers under the operations that write them (O15). -/

namespace Sys2Proof.Machine

open Sys2Proof

set_option autoImplicit true
set_option relaxedAutoImplicit true

variable {P Q : Prop}

/-! ## Reserved bits under a mask -/

theorem or_and_zero {a b r : BitVec n} (ha : a &&& r = 0#n) (hb : b &&& r = 0#n) : (a ||| b) &&& r = 0#n := by
  rw [BitVec.and_comm, BitVec.and_or_distrib_left, BitVec.and_comm r, BitVec.and_comm r, ha, hb, BitVec.or_self]

theorem and_and_zero {a b r : BitVec n} (ha : a &&& r = 0#n) : (a &&& b) &&& r = 0#n := by
  rw [BitVec.and_assoc, BitVec.and_comm b, ← BitVec.and_assoc, ha, BitVec.zero_and]

theorem and_and_zero_right {a b r : BitVec n} (hb : b &&& r = 0#n) : (a &&& b) &&& r = 0#n := by
  rw [BitVec.and_assoc, hb, BitVec.and_zero]

/-- A write under a mask keeps the bits outside it. -/
theorem masked_and_zero {old new m r : BitVec n} (ho : old &&& r = 0#n) (hm : m &&& r = 0#n) :
    ((old &&& ~~~m) ||| (new &&& m)) &&& r = 0#n :=
  or_and_zero (and_and_zero ho) (and_and_zero_right hm)

theorem bits_eq_zero {x hi lo : Nat} (h : ∀ i, lo ≤ i → i ≤ hi → x.testBit i = false) : bits x hi lo = 0 := by
  refine Nat.eq_of_testBit_eq fun i => ?_
  rw [bits, Nat.testBit_mod_two_pow, Nat.testBit_shiftRight, Nat.zero_testBit, Bool.and_eq_false_imp]
  intro hi'
  rw [decide_eq_true_eq] at hi'
  exact h _ (by omega) (by omega)

theorem testBit_of_bits_zero {x hi lo i : Nat} (h : bits x hi lo = 0) (h1 : lo ≤ i) (h2 : i ≤ hi) : x.testBit i = false := by
  have h3 := congrArg (Nat.testBit · (i - lo)) h
  simp only [bits, Nat.testBit_mod_two_pow, Nat.testBit_shiftRight, Nat.zero_testBit] at h3
  rw [Nat.add_sub_cancel' h1, decide_eq_true (by omega), Bool.true_and] at h3
  exact h3

/-- The bits of a field in a write under a mask that leaves the field out. -/
theorem bits_masked {old new m : BitVec n} {hi lo : Nat} (ho : bits old.toNat hi lo = 0) (hm : bits m.toNat hi lo = 0) :
    bits ((old &&& ~~~m) ||| (new &&& m)).toNat hi lo = 0 := by
  refine bits_eq_zero fun i h1 h2 => ?_
  have h3 := testBit_of_bits_zero ho h1 h2
  have h4 := testBit_of_bits_zero hm h1 h2
  rw [BitVec.toNat_or, BitVec.toNat_and, BitVec.toNat_and, Nat.testBit_or, Nat.testBit_and, Nat.testBit_and, h3, h4]
  simp

/-- A write of the low `k` bits alone of a register that has no others gives them. -/
theorem toNat_masked_low {old new m : BitVec n} {k : Nat} (ho : old.toNat < 2 ^ k) (hm : m.toNat = 2 ^ k - 1) :
    ((old &&& ~~~m) ||| (new &&& m)).toNat = new.toNat % 2 ^ k := by
  refine Nat.eq_of_testBit_eq fun i => ?_
  have hi : ∀ j, m.getLsbD j = decide (j < k) := fun j => by rw [BitVec.getLsbD, hm, Nat.testBit_two_pow_sub_one]
  rw [BitVec.testBit_toNat, BitVec.getLsbD_or, BitVec.getLsbD_and, BitVec.getLsbD_and, BitVec.getLsbD_not, hi, Nat.testBit_mod_two_pow,
    BitVec.testBit_toNat]
  by_cases h : i < k
  · simp [h]
  · have : old.getLsbD i = false := by
      rw [BitVec.getLsbD]
      exact Nat.testBit_lt_two_pow (lt_of_lt_of_le ho (Nat.pow_le_pow_right (by decide) (by omega)))
    simp [h, this]

theorem setBit32_reserved {w r : W32} {i : Nat} {b : Bool} (h : w &&& r = 0#32) (hi : 1#32 <<< i &&& r = 0#32) :
    setBit32 w i b &&& r = 0#32 := by
  cases b with
  | true => exact or_and_zero h hi
  | false => exact and_and_zero h

/-! ## The token counters, the trap registers, REP_STATE and the format table -/

theorem mkRepState_reserved (remain mask done : Nat) : mkRepState remain mask done &&& 0x7FC0F8C0#32 = 0#32 := by
  have h1 : ∀ n : Fin 64, BitVec.ofNat 32 (n.val <<< 16) &&& 0x7FC0F8C0#32 = 0#32 := by decide
  have h2 : ∀ n : Fin 8, BitVec.ofNat 32 (n.val <<< 8) &&& 0x7FC0F8C0#32 = 0#32 := by decide
  have h3 : ∀ n : Fin 64, BitVec.ofNat 32 n.val &&& 0x7FC0F8C0#32 = 0#32 := by decide
  have h4 : BitVec.ofNat 32 ((if done = 0 then 0 else 1) <<< 31) &&& 0x7FC0F8C0#32 = 0#32 := by split <;> decide
  rw [mkRepState, BitVec.ofNat_or, BitVec.ofNat_or, BitVec.ofNat_or]
  exact or_and_zero (or_and_zero (or_and_zero h4 (h1 ⟨remain % 64, Nat.mod_lt _ (by decide)⟩)) (h2 ⟨mask % 8, Nat.mod_lt _ (by decide)⟩))
    (h3 ⟨done % 64, Nat.mod_lt _ (by decide)⟩)

theorem Thread.repEnd_reserved {t : Thread} {pfx : List W32} (h : t.repState &&& 0x7FC0F8C0#32 = 0#32) :
    t.repEnd pfx &&& 0x7FC0F8C0#32 = 0#32 := by
  unfold Thread.repEnd
  split
  · exact and_and_zero h
  · exact h

theorem mkTrapCause_reserved (status : W32) (eng : Nat) (c : Cause) : bits (mkTrapCause status eng c).toNat 31 19 = 0 := by
  refine bits_eq_zero fun i h1 h2 => ?_
  rw [mkTrapCause, BitVec.toNat_ofNat, Nat.testBit_mod_two_pow, Nat.testBit_or, Nat.testBit_or, Nat.testBit_or, Nat.testBit_shiftLeft,
    Nat.testBit_shiftLeft, Nat.testBit_shiftLeft, show eng % 8 = eng % 2 ^ 3 from rfl, show c.sub % 256 = c.sub % 2 ^ 8 from rfl,
    show c.code % 256 = c.code % 2 ^ 8 from rfl, Nat.testBit_mod_two_pow, Nat.testBit_mod_two_pow, Nat.testBit_mod_two_pow,
    decide_eq_false (show ¬ i ≥ 32 by omega), decide_eq_false (show ¬ i - 16 < 3 by omega), decide_eq_false (show ¬ i - 8 < 8 by omega),
    decide_eq_false (show ¬ i < 8 by omega)]
  simp only [Bool.false_and, Bool.and_false, Bool.or_self]

theorem gives_require {R : α → Prop} {c : Bool} {a b n : Nat} {f : PUnit → M α} (h : c = true → Gives R (f ⟨⟩)) :
    Gives R (require c a b n >>= f) := by
  cases c with
  | true => exact h rfl
  | false => exact .error

/-- What the format table keeps of a word has its low bits clear. -/
theorem bits_mul_4096 (n : Nat) : bits (BitVec.ofNat 32 (n / 4096 * 4096)).toNat 11 0 = 0 := by
  rw [bits, BitVec.toNat_ofNat, Nat.shiftRight_zero]
  omega

theorem handlerBase_reserved (v : Nat) : BitVec.ofNat 64 (bits v 56 12 * 4096 + 1) &&& 0xFE00000000000FFE#64 = 0#64 := by
  have hm : ∀ j : Fin 64, (0xFE00000000000FFE#64).getLsbD j = true → j.val ≠ 0 ∧ (j.val < 12 ∨ 57 ≤ j.val) := by decide
  have hv : bits v 56 12 < 2 ^ 45 := Nat.mod_lt _ (by decide)
  refine BitVec.eq_of_getLsbD_eq fun i hi => ?_
  rw [BitVec.getLsbD_and, BitVec.getLsbD_zero, Bool.and_eq_false_imp, BitVec.getLsbD_ofNat, decide_eq_true hi, Bool.true_and]
  contrapose!
  intro h
  obtain ⟨h0, h1⟩ := hm ⟨i, hi⟩ (by simpa using h)
  rw [ne_eq, Bool.not_eq_true, show bits v 56 12 * 4096 + 1 = 2 ^ 12 * bits v 56 12 + 1 by omega, Nat.testBit_two_pow_mul_add _ (by decide)]
  split
  next h2 =>
    exact Bool.eq_false_iff.mpr fun hb => h0 (Nat.testBit_one_eq_true_iff_self_eq_zero.mp hb)
  next h2 =>
    exact Nat.testBit_lt_two_pow (lt_of_lt_of_le hv (Nat.pow_le_pow_right (by decide) (by simp only at h1; omega)))

theorem launchStatus_reserved (sys : Bool) (cls tenant : Nat) :
    BitVec.ofNat 32 (b01 sys <<< 24 ||| (cls % 4) <<< 20 ||| (tenant % 256) <<< 8) &&& statusReserved = 0#32 := by
  have h1 : ∀ b : Bool, BitVec.ofNat 32 (b01 b <<< 24) &&& statusReserved = 0#32 := by decide
  have h2 : ∀ n : Fin 4, BitVec.ofNat 32 (n.val <<< 20) &&& statusReserved = 0#32 := by decide
  have h3 : ∀ n m : Fin 16, BitVec.ofNat 32 ((16 * n.val + m.val) <<< 8) &&& statusReserved = 0#32 := by decide
  have h4 := h3 ⟨tenant % 256 / 16, by omega⟩ ⟨tenant % 256 % 16, Nat.mod_lt _ (by decide)⟩
  rw [Nat.div_add_mod] at h4
  rw [BitVec.ofNat_or, BitVec.ofNat_or]
  exact or_and_zero (or_and_zero (h1 sys) (h2 ⟨cls % 4, Nat.mod_lt _ (by decide)⟩)) h4

theorem setWidth_masked {old new m : W} : ((old &&& ~~~m) ||| (new &&& m)).setWidth 32 =
    ((old.setWidth 32 &&& ~~~(m.setWidth 32)) ||| (new.setWidth 32 &&& m.setWidth 32) : W32) := by
  rw [BitVec.setWidth_or, BitVec.setWidth_and, BitVec.setWidth_and, BitVec.setWidth_not (by decide)]

/-- A 32-bit register under a masked write keeps its reserved bits clear. -/
theorem masked_reserved {old : W32} {new m : W} {r : W32} (ho : old &&& r = 0#32) (hm : m.setWidth 32 &&& r = 0#32) :
    ((old.setWidth 64 &&& ~~~m) ||| (new &&& m)).setWidth 32 &&& r = 0#32 := by
  rw [setWidth_masked, BitVec.setWidth_setWidth_of_le _ (by decide), BitVec.setWidth_eq]
  exact masked_and_zero ho hm

/-- A 32-bit register of `k` bits alone takes them from the value. -/
theorem masked_low {old : W32} {new m : W} {k : Nat} (ho : old.toNat < 2 ^ k) (hm : (m.setWidth 32).toNat = 2 ^ k - 1) (hk : k ≤ 32) :
    (((old.setWidth 64 &&& ~~~m) ||| (new &&& m)).setWidth 32).toNat = new.toNat % 2 ^ k := by
  rw [setWidth_masked, BitVec.setWidth_setWidth_of_le _ (by decide), BitVec.setWidth_eq, toNat_masked_low ho hm, BitVec.toNat_setWidth,
    Nat.mod_mod_of_dvd _ (Nat.pow_dvd_pow 2 hk)]

theorem masked_lt {old new m : W} {k : Nat} (ho : old.toNat < 2 ^ k) (hm : m.toNat < 2 ^ k) :
    ((old &&& ~~~m) ||| (new &&& m)).toNat < 2 ^ k := by
  rw [BitVec.toNat_or, BitVec.toNat_and, BitVec.toNat_and]
  exact Nat.or_lt_two_pow (lt_of_le_of_lt Nat.and_le_left ho) (lt_of_le_of_lt Nat.and_le_right hm)

/-- An entry of the format table under a masked write keeps its reserved bits clear. -/
theorem masked_bits {old : W32} {new m : W} {hi lo : Nat} (ho : bits old.toNat hi lo = 0) (hm : bits (m.setWidth 32).toNat hi lo = 0) :
    bits (((old.setWidth 64 &&& ~~~m) ||| (new &&& m)).setWidth 32).toNat hi lo = 0 := by
  rw [setWidth_masked, BitVec.setWidth_setWidth_of_le _ (by decide), BitVec.setWidth_eq]
  exact bits_masked ho hm

/-- The entry of the format table that a CSR number names. -/
theorem State.csrValue_ft {s : State} {k n : Nat} (hn : 0x010 ≤ n ∧ n ≤ 0x01F) :
    s.csrValue k n = some ((vget (s.thread k).ft (n - 0x010) 0#32).setWidth 64) := by
  unfold State.csrValue
  simp only [hn, and_self, if_true]
  repeat rw [if_neg (by omega)]

theorem csrMask_ft {n : Nat} (hn : 0x010 ≤ n ∧ n ≤ 0x01F) : csrMask n = some (0x00000000FFFFF000#64, false) := by
  unfold csrMask
  simp only [hn, and_self, if_true]
  repeat rw [if_neg (by omega)]

/-- What a write of a CSR under its mask leaves in it keeps the thread's registers in their ranges. -/
theorem Thread.putCsr_fine {t : Thread} {s : State} {k n : Nat} {old new mask : W} {inh : Bool} (ht : Thread.Fine Q t)
    (h : Thread.Fine Q (s.thread k)) (ho : s.csrValue k n = some old) (hm : csrMask n = some (mask, inh)) (hl : csrLegal n new = true) :
    Thread.Fine Q (t.putCsr n ((old &&& ~~~mask) ||| (new &&& mask))) := by
  unfold Thread.putCsr
  refine iteInduction (fun e => Thread.fine_status ht fun q => ?_) fun _ => ?_
  · subst e; cases ho; cases hm
    exact masked_reserved (h q).2.2.1 (by decide)
  refine iteInduction (fun e => Thread.fine_trapCause ht fun q => ?_) fun _ => ?_
  · subst e; cases ho; cases hm
    exact bits_masked (h q).2.2.2.1 (by decide)
  refine iteInduction (fun e => Thread.fine_trapPc ht fun q => ?_) fun _ => ?_
  · subst e; cases ho; cases hm
    exact masked_lt (h q).2.2.2.2.1 (by decide)
  refine iteInduction (fun e => Thread.fine_repState ht fun q => ?_) fun _ => ?_
  · subst e; cases ho; cases hm
    exact masked_reserved (h q).2.2.2.2.2.1 (by decide)
  refine iteInduction (fun _ => ht) fun _ => ?_
  refine iteInduction (fun e => Thread.fine_roundMode ht fun q => ?_) fun _ => ?_
  · subst e; cases ho; cases hm
    rw [masked_low (k := 3) (lt_of_le_of_lt (h q).2.2.2.2.2.2.2.1 (by decide)) (by decide) (by decide)]
    exact of_decide_eq_true hl
  refine iteInduction (fun e => Thread.fine_boundCtl ht fun q => ?_) fun _ => ?_
  · subst e; cases ho; cases hm
    rw [masked_low (k := 3) (h q).2.2.2.2.2.2.2.2.1 (by decide) (by decide), Nat.mod_mod_of_dvd _ (by decide)]
    exact ⟨Nat.mod_lt _ (by decide), of_decide_eq_true hl⟩
  refine iteInduction (fun _ => ht) fun _ => ?_
  refine iteInduction (fun e => Thread.fine_fmtBase ht fun q => ?_) fun _ => ?_
  · subst e; cases ho; cases hm
    rw [masked_low (k := 6) (h q).2.2.2.2.2.2.2.2.2.2.1 (by decide) (by decide)]
    exact Nat.mod_lt _ (by decide)
  refine iteInduction (fun _ => ht) fun _ => ?_
  refine iteInduction (fun e => Thread.fine_ft ht fun q => ?_) fun _ => ht
  rw [State.csrValue_ft e] at ho
  rw [csrMask_ft e] at hm
  cases ho; cases hm
  exact vget_vset_fine (R := fun x : W32 => bits x.toNat 11 0 = 0) (ht q).2.2.2.2.2.2.2.2.2.2.2 (masked_bits ((h q).2.2.2.2.2.2.2.2.2.2.2 _) (by decide))
    (by decide)

end Sys2Proof.Machine
end

section
/-! Operations of memory, threads, tasks and images keep the invariant (O5, O15). -/

namespace Sys2Proof.Machine

open Sys2Proof

variable {P Q : Prop}

/-! ### The state after reset -/

theorem State.reset_fine : State.Fine P Q State.reset := by
  unfold State.reset
  exact State.fine_mk (fun _ => rfl) each_nil each_nil each_nil dies_replicate

/-! ### The event queue and the error counters (R164, R165, R231) -/

theorem State.post_fine {s : State} {kind src unit detail : ℕ} (h : State.Fine P Q s) : State.Fine P Q (s.post kind src unit detail) := by
  unfold State.post
  exact iteInduction (fun _ => h) fun _ => h

theorem State.countErr_fine {s : State} {i : ℕ} (h : State.Fine P Q s) : State.Fine P Q (s.countErr i) := h

/-! ### Registers with last use (R41, R42) -/

theorem Thread.dropPending_fine {t : Thread} {r : ℕ} (h : Thread.Fine Q t) : Thread.Fine Q (t.dropPending r) := h

theorem wrG_fine {t : Thread} {r : ℕ} {v : W} (h : Thread.Fine Q t) : Thread.Fine Q (wrG t r v) := by
  unfold wrG
  exact iteInduction (fun _ => h) fun _ => Thread.fine_set (Thread.dropPending_fine h)

theorem freeG_fine {t : Thread} {l : BitVec 1} {r : ℕ} (h : Thread.Fine Q t) : Thread.Fine Q (freeG t l r) := by
  unfold freeG
  exact iteInduction (fun _ => h) fun _ => h

theorem wrP_fine {t : Thread} {r : ℕ} {b : Bool} (h : Thread.Fine Q t) : Thread.Fine Q (wrP t r b) := by
  unfold wrP
  exact iteInduction (fun _ => h) fun _ => h

theorem wrX_fine {t : Thread} {ld : Bool} {r : ℕ} {v : W} (h : Thread.Fine Q t) : Thread.Fine Q (wrX t ld r v) := by
  unfold wrX
  exact iteInduction (fun _ => h) fun _ => h

theorem freeX_fine {t : Thread} {ld : Bool} {l : BitVec 1} {r : ℕ} (h : Thread.Fine Q t) : Thread.Fine Q (freeX t ld l r) := by
  unfold freeX
  exact iteInduction (fun _ => iteInduction (fun _ => h) fun _ => h) fun _ => h

theorem wrA_fine {t : Thread} {r : ℕ} {v : W} (h : Thread.Fine Q t) : Thread.Fine Q (wrA t r v) := h

theorem wrM_fine {t : Thread} {r : ℕ} {v : W} (h : Thread.Fine Q t) : Thread.Fine Q (wrM t r v) := h

theorem freeA_fine {t : Thread} {l : BitVec 1} {r : ℕ} (h : Thread.Fine Q t) : Thread.Fine Q (freeA t l r) := by
  unfold freeA
  exact iteInduction (fun _ => h) fun _ => h

theorem wrS_fine {t : Thread} {r : ℕ} {v : W} (h : Thread.Fine Q t) : Thread.Fine Q (wrS t r v) := h

theorem freeS_fine {t : Thread} {l : BitVec 1} {r : ℕ} (h : Thread.Fine Q t) : Thread.Fine Q (freeS t l r) := by
  unfold freeS
  exact iteInduction (fun _ => h) fun _ => h

/-! ### Tokens (R137 to R139) -/

theorem pushTok_fine {t : Thread} {pair n : ℕ} (h : Thread.Fine Q t) : Fst (Thread.Fine Q) (pushTok t pair n) := by
  unfold pushTok
  exact Thread.fine_tok h fun q => vget_vset_fine (R := (· ≤ 63)) (h q).1 (Nat.min_le_right _ _) (Nat.zero_le _)

theorem popTok_fine {t : Thread} {pair n : ℕ} (h : Thread.Fine Q t) : Thread.Fine Q (popTok t pair n) := by
  unfold popTok
  exact Thread.fine_tok h fun q => vget_vset_fine (R := (· ≤ 63)) (h q).1 (le_trans (Nat.sub_le _ _) ((h q).1 pair)) (Nat.zero_le _)

/-! ### The snapshot of the control state (R421) -/

theorem Thread.restoreSnap_fine {t : Thread} {n : Snap} (h : Thread.Fine Q t) : Thread.Fine Q (t.restoreSnap n) := h

theorem Thread.onSnap_fine {t : Thread} {f : Snap → Snap} (h : Thread.Fine Q t) : Thread.Fine Q (t.onSnap f) := by
  unfold Thread.onSnap
  exact Thread.restoreSnap_fine h

theorem Thread.mapSnaps_fine {t : Thread} {f : ℕ → Snap → Snap} (h : Thread.Fine Q t) : Thread.Fine Q (t.mapSnaps f) := h

theorem Thread.lateG_fine {t : Thread} {q : ℕ} {dead : Option ℕ} {r : ℕ} {v : W} (h : Thread.Fine Q t) :
    Thread.Fine Q (t.lateG q dead r v) := by
  unfold Thread.lateG
  exact Thread.mapSnaps_fine (iteInduction (fun _ => Thread.onSnap_fine h) fun _ => h)

/-! ### Taking an exception, and the return (R48, R49, R424, R397) -/

theorem enterHandler_fine {t : Thread} {tid cidx : ℕ} {eng : Eng} {c : Cause} {pc : ℕ} {rep : Option (ℕ × ℕ × ℕ)} {target : ℕ}
    (h : Thread.Fine Q t) : Thread.Fine Q (enterHandler t tid cidx eng c pc rep target) := fun q => by
  obtain ⟨htok, hvc, hstatus, -, -, hrep, hregs⟩ := h q
  refine ⟨htok, hvc, setBit32_reserved hstatus (by decide), mkTrapCause_reserved _ _ _, ?_, ?_, hregs⟩
  · exact lt_of_le_of_lt (Nat.mod_le _ _) (Nat.mod_lt _ (by decide))
  · unfold enterHandler
    dsimp only
    split
    · exact hrep
    · exact mkRepState_reserved _ _ _

theorem leaveHandler_fine {t : Thread} (h : Thread.Fine Q t)
    (hss : Q → BitVec.ofNat 32 (t.trapCause.toNat >>> 32) &&& statusReserved = 0#32) :
    Thread.Fine Q (leaveHandler t) := by
  unfold leaveHandler
  exact Thread.fine_status h fun q => setBit32_reserved (setBit32_reserved (hss q) (by decide)) (by decide)

/-! ### The SRAM and the registers (R465) -/

theorem State.bmcReply_fine {s : State} {a : Agate} (h : State.Fine P Q s) : State.Fine P Q (s.bmcReply a) := by
  unfold State.bmcReply
  split
  · exact h
  · exact h

/-! ### Measurements (R463) -/

theorem State.measure_fine {s : State} {n : ℕ} {d : List Byte} (h : State.Fine P Q s) : State.Fine P Q (s.measure n d) := h

/-! ### Agate's thread (R465) -/

theorem agateStart_fine : Thread.Fine Q agateStart := by
  unfold agateStart
  exact Thread.fine_set Thread.blank_fine

/-! ### Snapshot domains (R191, R192) -/

theorem State.writeAddr_fine {s : State} {pa0 : ℕ} (h : State.Fine P Q s) : Yields (Fst (State.Fine P Q)) (s.writeAddr pa0) := by
  unfold State.writeAddr
  refine iteInduction (fun _ => .none) fun _ => ?_
  split
  · exact .some h
  · refine iteInduction (fun _ => .some h) fun _ => ?_
    split
    · exact .none
    next e =>
      have hm := fun {a l} => memPut_mem (a := a) (l := l) (mem_of_poolPop e (State.mem_fine h))
      exact .some (State.fine_mem h (putMapEntry_mem (iteInduction (fun _ => hm) fun _ => poolPush_mem hm)))

/-! ### Poison (R100) -/

theorem State.setPoison_fine {s : State} {line : ℕ} (h : State.Fine P Q s) : State.Fine P Q (s.setPoison line) := by
  unfold State.setPoison
  exact iteInduction (fun _ => h) fun _ => h

theorem State.clearPoison_fine {s : State} {line : ℕ} (h : State.Fine P Q s) : State.Fine P Q (s.clearPoison line) := h

/-! ### The symbol code (R96 to R98) -/

theorem State.symCorrect_fine {s : State} {str unit bank loc : ℕ} (h : State.Fine P Q s) :
    State.Fine P Q (s.symCorrect str unit bank loc) := by
  unfold State.symCorrect
  split
  · exact iteInduction (fun _ => State.post_fine (State.countErr_fine h)) fun _ => iteInduction
        (fun _ => State.fine_set (State.post_fine (State.countErr_fine h))) fun _ => State.post_fine
        (State.countErr_fine (iteInduction (fun _ => State.fine_set (State.post_fine (State.countErr_fine h))) fun _ => State.fine_set
        (State.post_fine (State.countErr_fine h))))

theorem State.symFix_fine {s : State} {str unit : ℕ} {inside : Latent → Bool} (h : State.Fine P Q s) :
    State.Fine P Q (s.symFix str unit inside) := by
  unfold State.symFix
  exact foldl_fine h fun _ _ h3 => State.symCorrect_fine h3

/-! ### HBM4 errors met by a read (R88, R89) -/

theorem State.cellLog_fine {s : State} {st cls pch info : ℕ} (h : State.Fine P Q s) : State.Fine P Q (s.cellLog st cls pch info) := by
  unfold State.cellLog
  exact State.post_fine (State.countErr_fine (State.setStack_fine h))

theorem State.xferLog_fine {s : State} {st action pch beat lane tries : ℕ} (h : State.Fine P Q s) :
    State.Fine P Q (s.xferLog st action pch beat lane tries) := by
  unfold State.xferLog
  exact State.post_fine (iteInduction (fun _ => State.countErr_fine (State.countErr_fine (State.setStack_fine h))) fun _ =>
      State.countErr_fine (State.setStack_fine h))

theorem State.postPoison_fine {s : State} {src unit str loc : ℕ} (h : State.Fine P Q s) :
    State.Fine P Q (s.postPoison src unit str loc) := by
  unfold State.postPoison
  exact State.post_fine h

theorem State.dropLatent_fine {s : State} {l : List Latent} (h : State.Fine P Q s) : State.Fine P Q (s.dropLatent l) := h

theorem State.meetLine_fine {s : State} {line : ℕ} (h : State.Fine P Q s) : State.Fine P Q (s.meetLine line) := by
  unfold State.meetLine
  refine iteInduction (fun _ => h) fun _ => ?_
  split
  · exact foldl_fine (State.dropLatent_fine h) fun _ _ h6 => iteInduction (fun _ => State.cellLog_fine h6) fun _ => State.postPoison_fine
        (State.setPoison_fine (State.cellLog_fine h6))
  · exact foldl_fine (State.dropLatent_fine h) fun _ _ h12 => iteInduction (fun _ => State.post_fine (State.countErr_fine h12)) fun _ =>
        State.postPoison_fine (State.setPoison_fine h12)
  · exact h

theorem State.meetBursts_fine {s : State} {line : ℕ} (h : State.Fine P Q s) : State.Fine P Q (s.meetBursts line) := by
  unfold State.meetBursts
  split
  · exact foldl_fine (State.dropLatent_fine h) fun _ _ h6 => h6
  · exact h

theorem State.portUse_fine {s : State} {key n : ℕ} (h : State.Fine P Q s) : State.Fine P Q (s.portUse key n) := by
  unfold State.portUse
  dsimp only
  split
  · exact h
  · exact h

theorem State.deviceRead_fine {s : State} {line : ℕ} (h : State.Fine P Q s) : Gives (State.Fine P Q) (s.deviceRead line) := by
  unfold State.deviceRead
  refine iteInduction (fun _ => Gives.error) fun _ => ?_
  split
  · exact iteInduction (fun _ => Gives.error) fun _ => Gives.ok (State.meetLine_fine (State.portUse_fine (State.modStack_fine h)))
  · exact Gives.ok (State.meetLine_fine h)
  · exact Gives.ok h

/-! ### Valid-bit monitors (R71) -/

theorem State.refillReady_fine {s : State} {d : ℕ} (h : State.Fine P Q s) : State.Fine P Q (s.refillReady d) := by
  unfold State.refillReady
  exact State.setDie_fine (foldl_fine h fun _ _ h3 => State.modTask_fine h3 fun _ h5 => h5) (Die.fine_set (State.die_fine h))

theorem State.requeue_fine {s : State} {uid : ℕ} (h : State.Fine P Q s) : State.Fine P Q (s.requeue uid) := by
  unfold State.requeue
  split
  · exact h
  · exact iteInduction (fun _ => State.refillReady_fine (State.modTask_fine h fun _ h8 => h8)) fun _ => h

theorem State.fireMonitors_fine {s : State} {line : ℕ} (h : State.Fine P Q s) : State.Fine P Q (s.fireMonitors line) := by
  unfold State.fireMonitors
  exact iteInduction (fun _ => h) fun _ => foldl_fine (State.fine_dies h (dies_map (State.dies_fine h) fun _ h2 => h2)) fun _ _ h5 =>
      State.requeue_fine h5

/-! ### LLC and L1 order (R441) -/

theorem State.llcLeaves_fine {s : State} {d : ℕ} {v : LlcLine} (h : State.Fine P Q s) : State.Fine P Q (s.llcLeaves d v) := by
  unfold State.llcLeaves
  exact iteInduction (fun _ => iteInduction (fun _ => State.portUse_fine (State.setDie_fine h (Die.fine_set (State.die_fine h))))
      fun _ => State.setDie_fine h (Die.fine_set (State.die_fine h))) fun _ => State.fine_set
      (iteInduction (fun _ => State.portUse_fine (State.setDie_fine h (Die.fine_set (State.die_fine h)))) fun _ => State.setDie_fine h
      (Die.fine_set (State.die_fine h)))

theorem State.llcRoom_fine {s : State} {d line : ℕ} (h : State.Fine P Q s) : Fst (State.Fine P Q) (s.llcRoom d line) := by
  unfold State.llcRoom
  refine iteInduction (fun _ => h) fun _ => ?_
  refine iteInduction (fun _ => h) fun _ => ?_
  split
  · exact h
  · exact State.llcLeaves_fine h

theorem State.llcInsert_fine {s : State} {d : ℕ} {l : LlcLine} (h : State.Fine P Q s) : State.Fine P Q (s.llcInsert d l) := by
  unfold State.llcInsert
  exact iteInduction (fun _ => State.modDie_fine (State.llcRoom_fine (State.modDie_fine h fun _ h2 => h2)) fun _ h4 => h4) fun _ =>
      State.llcRoom_fine (State.modDie_fine h fun _ h6 => h6)

theorem State.homeTake_fine {s : State} {n line : ℕ} (h : State.Fine P Q s) : State.Fine P Q (s.homeTake n line) := by
  unfold State.homeTake
  exact iteInduction (fun _ => State.llcInsert_fine h) fun _ => h

theorem State.homeDirty_fine {s : State} {n line : ℕ} (h : State.Fine P Q s) : State.Fine P Q (s.homeDirty n line) := by
  unfold State.homeDirty
  exact iteInduction (fun _ => State.modDie_fine (State.homeTake_fine h) fun _ h2 => h2) fun _ => State.homeTake_fine h

/-! ### Errors of an LLC slice met by a read (R96, R97) -/

theorem State.llcMeet_fine {s : State} {d line : ℕ} (h : State.Fine P Q s) : Fst (State.Fine P Q) (s.llcMeet d line) := by
  unfold State.llcMeet
  refine iteInduction (fun _ => h) fun _ => ?_
  dsimp only
  split
  · exact State.symFix_fine h
  · exact State.post_fine h

theorem State.homeRead_fine {s : State} {line : ℕ} (h : State.Fine P Q s) : Gives (State.Fine P Q) (s.homeRead line) := by
  unfold State.homeRead
  dsimp only
  split
  · exact iteInduction (fun _ => Gives.ok (iteInduction (fun _ => State.setPoison_fine (State.homeTake_fine (State.llcMeet_fine h)))
        fun _ => State.homeTake_fine (State.llcMeet_fine h))) fun _ => gives_bind (State.deviceRead_fine h) fun _ h5 => Gives.ok
        (State.homeTake_fine h5)
  · exact State.deviceRead_fine h

/-! ### Writes at home -/

theorem State.homeWriteK_fine {s : State} {kind line : ℕ} {d : BitVec 512} {mask : BitVec 64} (h : State.Fine P Q s) :
    Yields (State.Fine P Q) (s.homeWriteK kind line d mask) := by
  unfold State.homeWriteK
  split
  · exact Yields.some h
  · split
    · exact Yields.none
    next e11 =>
      have h12 := some_of e11 (State.writeAddr_fine h)
      refine Yields.some ?_
      refine State.fireMonitors_fine ?_
      refine iteInduction (fun _ => ?_) fun _ => ?_
      · refine State.clearPoison_fine ?_
        refine State.fine_mem ?_ ?_
        · dsimp only
          split
          · exact State.homeDirty_fine h12
          · exact State.setPort_fine h12
          · exact h12
        · refine putMasked_mem ?_
          refine State.mem_fine (Q := Q) ?_
          dsimp only
          split
          · exact State.homeDirty_fine h12
          · exact State.setPort_fine h12
          · exact h12
      · refine State.fine_mem ?_ ?_
        · dsimp only
          split
          · exact State.homeDirty_fine h12
          · exact State.setPort_fine h12
          · exact h12
        · refine putMasked_mem ?_
          refine State.mem_fine (Q := Q) ?_
          dsimp only
          split
          · exact State.homeDirty_fine h12
          · exact State.setPort_fine h12
          · exact h12

theorem State.homeWrite_fine {s : State} {line : ℕ} {d : BitVec 512} {mask : BitVec 64} (h : State.Fine P Q s) :
    Yields (State.Fine P Q) (s.homeWrite line d mask) := by
  unfold State.homeWrite
  exact iteInduction (fun _ => Yields.none) fun _ => yields_map (State.homeWriteK_fine h) fun _ h2 => iteInduction (fun _ => h2) fun _ =>
      h2

theorem State.hold_fine {s : State} {w : HeldWrite} (h : State.Fine P Q s) : State.Fine P Q (s.hold w) := h

theorem State.homePut_fine {s : State} {kind line : ℕ} {d : BitVec 512} {mask : BitVec 64} {bad : optParam Bool false}
    (h : State.Fine P Q s) :
    State.Fine P Q (s.homePut kind line d mask bad) := by
  unfold State.homePut
  exact iteInduction (fun _ => State.hold_fine h) fun _ => getD_keeps
      (yields_map (State.homeWriteK_fine h) fun _ h2 => iteInduction (fun _ => State.setPoison_fine h2) fun _ => h2) (State.hold_fine h)

theorem State.dropCopies_fine {s : State} {line : ℕ} (h : State.Fine P Q s) : State.Fine P Q (s.dropCopies line) := by
  unfold State.dropCopies
  refine State.fine_dies ?_ ?_
  · refine foldl_fine h fun _ _ h3 => ?_
    split
    · exact h3
    · exact State.homePut_fine h3
  · refine dies_map ?_ fun _ h18 => h18
    refine State.dies_fine (P := P) ?_
    refine foldl_fine h fun _ _ h11 => ?_
    split
    · exact h11
    · exact State.homePut_fine h11

theorem State.engineWriteLine_fine {s : State} {line : ℕ} {d : BitVec 512} {mask : BitVec 64} (h : State.Fine P Q s) :
    Yields (State.Fine P Q) (s.engineWriteLine line d mask) := by
  unfold State.engineWriteLine
  exact iteInduction (fun _ => Yields.none) fun _ => State.homeWriteK_fine (State.dropCopies_fine h)

theorem State.snoopLine_fine {s : State} {line : ℕ} (h : State.Fine P Q s) : State.Fine P Q (s.snoopLine line) := by
  unfold State.snoopLine
  exact iteInduction (fun _ => h) fun _ => h

theorem State.snoopRange_fine {s : State} {pa : ℕ} {data : List Byte} (h : State.Fine P Q s) : State.Fine P Q (s.snoopRange pa data) := by
  unfold State.snoopRange
  exact foldl_fine h fun _ ⟨_, _, _⟩ h6 => State.snoopLine_fine h6

theorem State.enginePut_fine {s : State} {line : ℕ} {d : BitVec 512} {mask : BitVec 64} {port : optParam (Option ℕ) none}
    (h : State.Fine P Q s) :
    State.Fine P Q (s.enginePut line d mask port) := by
  unfold State.enginePut
  exact iteInduction (fun _ => getD_keeps (State.engineWriteLine_fine h) (State.hold_fine h)) fun _ => State.hold_fine
      (State.snoopLine_fine h)

theorem State.engineWriteBy_fine {s : State} {port : Option ℕ} {pa : ℕ} {data : List Byte} (h : State.Fine P Q s) :
    State.Fine P Q (s.engineWriteBy port pa data) := by
  unfold State.engineWriteBy
  exact foldl_fine h fun _ ⟨_, _, _⟩ h6 => State.enginePut_fine h6

theorem State.engineWrite_fine {s : State} {pa : ℕ} {data : List Byte} (h : State.Fine P Q s) :
    State.Fine P Q (s.engineWrite pa data) := by
  unfold State.engineWrite
  exact State.engineWriteBy_fine h

theorem State.recordWrite_fine {s : State} {pa : ℕ} {data : List Byte} (h : State.Fine P Q s) :
    State.Fine P Q (s.recordWrite pa data) := by
  unfold State.recordWrite
  exact State.engineWrite_fine h

theorem State.msix_fine {s : State} {p v : ℕ} (h : State.Fine P Q s) : State.Fine P Q (s.msix p v) := by
  unfold State.msix
  exact State.setPort_fine h

theorem State.recordMsi_fine {s : State} {pa : ℕ} {data : List Byte} {port : ℕ} (h : State.Fine P Q s) :
    State.Fine P Q (s.recordMsi pa data port) := by
  unfold State.recordMsi
  dsimp only
  split
  · exact iteInduction (fun _ => State.msix_fine (State.recordWrite_fine h)) fun _ => State.fine_set (State.recordWrite_fine h)
  · exact State.msix_fine (State.recordWrite_fine h)

theorem State.atomicWrite_fine {s : State} {pa : ℕ} {data : List Byte} (h : State.Fine P Q s) :
    State.Fine P Q (s.atomicWrite pa data) := by
  unfold State.atomicWrite
  exact foldl_fine h fun _ ⟨_, _, _⟩ h6 => State.homePut_fine h6

theorem State.landOne_fine {s : State} {w : HeldWrite} (h : State.Fine P Q s) : Yields (State.Fine P Q) (s.landOne w) := by
  unfold State.landOne
  refine yields_map (R := State.Fine P Q) (iteInduction (fun _ => iteInduction (fun _ => State.engineWriteLine_fine h) fun _ =>
      Yields.none) fun _ => iteInduction (fun _ => Yields.none) fun _ => State.homeWriteK_fine h) fun _ h2 => ?_
  dsimp only
  split
  · exact State.msix_fine (iteInduction (fun _ => State.setPoison_fine h2) fun _ => h2)
  · exact iteInduction (fun _ => State.setPoison_fine h2) fun _ => h2

theorem State.landHeld_fine {s : State} (h : State.Fine P Q s) : State.Fine P Q s.landHeld := by
  unfold State.landHeld
  refine iteInduction (fun _ => h) fun _ => ?_
  refine State.fine_set ?_
  refine foldl_fine (R := Fst (State.Fine P Q)) h fun ⟨_, _⟩ _ h5 => ?_
  refine iteInduction (fun _ => h5) fun _ => ?_
  split
  next e8 =>
    have h9 := some_of e8 (State.landOne_fine h5)
    exact h9
  · exact State.snoopLine_fine h5

/-! ### Loads (R82, R107, R111) -/

theorem State.llcRead_fine {s : State} {d line0 : ℕ} {swm : Bool} (h : State.Fine P Q s) :
    Gives (Fst (State.Fine P Q)) (s.llcRead d line0 swm) := by
  unfold State.llcRead
  dsimp only
  split
  · exact iteInduction (fun _ => Gives.ok (State.llcInsert_fine (State.llcMeet_fine h))) fun _ => iteInduction (fun _ => Gives.error)
        fun _ => gives_bind (State.homeRead_fine (State.llcMeet_fine h)) fun _ h5 => Gives.ok (State.llcInsert_fine h5)
  · exact iteInduction (fun _ => Gives.error) fun _ => gives_bind (State.homeRead_fine h) fun _ h9 => iteInduction (fun _ => Gives.ok h9)
        fun _ => Gives.ok (State.llcInsert_fine h9)

theorem State.loadLine_fine {s : State} {k line0 : ℕ} {swm : Bool} (h : State.Fine P Q s) :
    Gives (Fst (State.Fine P Q)) (s.loadLine k line0 swm) := by
  unfold State.loadLine
  refine gives_bind (R := Fst (State.Fine P Q)) ?_ fun ⟨_, _, _⟩ h21 => ?_
  · split
    · exact Gives.ok (State.modCluster_fine h)
    · refine gives_bind (State.llcRead_fine h) fun ⟨_, _, _⟩ h10 => ?_
      split
      next e15 =>
        have h16 := fst_of e15 h10
        exact Gives.ok (State.modCluster_fine h16)
  · split
    next e26 =>
      have h27 := fst_of e26 h21
      split
      · exact Gives.ok h27
      · refine iteInduction (fun _ => ?_) fun _ => Gives.ok h27
        split
        next e37 =>
          have h38 := fst_of e37 (State.llcMeet_fine h27)
          exact Gives.ok h38

theorem State.loadBytes_fine {s : State} {k pa n : ℕ} {swm : Bool} (h : State.Fine P Q s) :
    Gives (Fst (State.Fine P Q)) (s.loadBytes k pa n swm) := by
  unfold State.loadBytes
  refine foldlM_fine (R := Fst (State.Fine P Q)) h fun ⟨_, _, _⟩ ⟨_, _, _⟩ h9 => ?_
  refine gives_bind (State.loadLine_fine h9) fun ⟨_, _, _⟩ h14 => ?_
  split
  next e19 =>
    have h20 := fst_of e19 h14
    exact Gives.ok h20

theorem State.lineAt_fine {s : State} {who : ℕ × ℕ} {line : ℕ} (h : State.Fine P Q s) :
    Gives (Fst (State.Fine P Q)) (s.lineAt who line) := by
  unfold State.lineAt
  refine iteInduction (fun _ => ?_) fun _ => gives_bind (State.homeRead_fine h) fun _ h7 => Gives.ok h7
  split
  · exact Gives.error
  · exact Gives.ok h

theorem State.homeBytesFor_fine {s : State} {who : ℕ × ℕ} {pa n : ℕ} (h : State.Fine P Q s) :
    Gives (Fst (State.Fine P Q)) (s.homeBytesFor who pa n) := by
  unfold State.homeBytesFor
  refine foldlM_fine (R := Fst (State.Fine P Q)) h fun ⟨_, _, _⟩ ⟨_, _, _⟩ h9 => ?_
  refine gives_bind (State.lineAt_fine h9) fun ⟨_, _⟩ h13 => ?_
  split
  next e17 =>
    have h18 := fst_of e17 h13
    exact Gives.ok h18

theorem State.homeBytes_fine {s : State} {pa n : ℕ} (h : State.Fine P Q s) : Gives (Fst (State.Fine P Q)) (s.homeBytes pa n) := by
  unfold State.homeBytes
  exact State.homeBytesFor_fine h

theorem State.unitBytes_fine {s : State} {pa n : ℕ} (h : State.Fine P Q s) : Gives (Fst (State.Fine P Q)) (s.unitBytes pa n) := by
  unfold State.unitBytes
  exact State.homeBytesFor_fine h

/-! ### Copies brought up to date (R107) -/

theorem State.renewLine_fine {s : State} {k line0 : ℕ} (h : State.Fine P Q s) : State.Fine P Q (s.renewLine k line0) := by
  unfold State.renewLine
  exact State.modCluster_fine (State.modDie_fine h fun _ h2 => h2)

theorem State.patchLine_fine {s : State} {k pa : ℕ} {data : List Byte} (h : State.Fine P Q s) :
    State.Fine P Q (s.patchLine k pa data) := by
  unfold State.patchLine
  exact foldl_fine h fun _ ⟨_, _, _⟩ h6 => State.modCluster_fine (State.modDie_fine h6 fun _ h8 => h8)

theorem State.renewAll_fine {s : State} {d : ℕ} {die : Bool} {here lines : ℕ → Bool} (h : State.Fine P Q s) :
    State.Fine P Q (s.renewAll d die here lines) := by
  unfold State.renewAll
  exact foldl_fine (iteInduction (fun _ => State.modDie_fine h fun _ h2 => h2) fun _ => h) fun _ _ h5 => State.modCluster_fine h5

/-! ### Invalidation at acquires (R115) -/

theorem State.acquire_fine {s : State} {k scope : ℕ} (h : State.Fine P Q s) : State.Fine P Q (s.acquire k scope) := by
  unfold State.acquire
  exact iteInduction (fun _ => h) fun _ => iteInduction (fun _ => State.modCluster_fine h) fun _ => State.modDie_fine
      (State.modCluster_fine h) fun _ h2 => h2

/-! ### The page tree (R188 to R190) -/

theorem State.walkMeet_fine {s : State} {ctx va : ℕ} (h : State.Fine P Q s) : Gives (State.Fine P Q) (s.walkMeet ctx va) := by
  unfold State.walkMeet
  exact iteInduction (fun _ => Gives.ok h) fun _ => gives_map (R := Fst (State.Fine P Q))
      (foldlM_fine (R := Fst (State.Fine P Q)) h fun ⟨_, _⟩ _ h5 => iteInduction (fun _ => Gives.ok h5) fun _ => gives_bind
      (State.homeRead_fine h5) fun _ h7 => Gives.ok h7) fun ⟨_, _⟩ h11 => h11

theorem State.readWaits_fine {s : State} {e : Stop} (h : State.Fine P Q s) : State.Fine P Q (s.readWaits e) := by
  unfold State.readWaits
  split
  · exact State.meetBursts_fine (State.meetLine_fine h)
  · exact h

/-! ### The TLBs (R70) -/

theorem State.tlbFill_fine {s : State} {core : ℕ} {e : TlbE} (h : State.Fine P Q s) : State.Fine P Q (s.tlbFill core e) := by
  unfold State.tlbFill
  exact State.modCluster_fine (State.modCore_fine h fun _ h2 => h2)

theorem State.walkPoison_fine {s : State} {die line : ℕ} (h : State.Fine P Q s) : State.Fine P Q (s.walkPoison die line) := by
  unfold State.walkPoison
  exact State.postPoison_fine (State.countErr_fine h)

theorem State.armMonitor_fine {s : State} {die line0 task : ℕ} (h : State.Fine P Q s) : State.Fine P Q (s.armMonitor die line0 task) := by
  unfold State.armMonitor
  exact iteInduction (fun _ => h) fun _ => iteInduction (fun _ => State.setDie_fine h (Die.fine_set (State.die_fine h))) fun _ =>
      State.post_fine h

theorem State.translate_fine {s : State} {k va rights : ℕ} (h : State.Fine P Q s) : Fst (State.Fine P Q) (s.translate k va rights) := by
  unfold State.translate
  split
  · exact State.tlbFill_fine h
  · split
    · exact iteInduction (fun _ => State.tlbFill_fine h) fun _ => State.tlbFill_fine h
    · exact h
    · exact State.walkPoison_fine h

/-! ### Settles and walks (R28, R70, R299, R334) -/

theorem State.startSettle_fine {s : State} {k seq h : ℕ} {load : Bool} {st va rights : ℕ} (hs : State.Fine P Q s) :
    State.Fine P Q (s.startSettle k seq h load st va rights) := by
  unfold State.startSettle
  refine State.modThread_fine ?_ fun _ h7 => h7
  split
  · exact State.tlbFill_fine hs
  · exact hs

theorem State.startWalk_fine {s : State} {die : ℕ} {w : Walk} (h : State.Fine P Q s) : State.Fine P Q (s.startWalk die w) := by
  unfold State.startWalk
  exact State.modDie_fine h fun _ h2 => iteInduction (fun _ => h2) fun _ => h2

theorem Thread.writeHandle_fine {t : Thread} {h frame psz rights st : ℕ} (hs : Thread.Fine Q t) :
    Thread.Fine Q (t.writeHandle h frame psz rights st) := hs

theorem State.doSettle_fine {s : State} {k i : ℕ} (h : State.Fine P Q s) : State.Fine P Q (s.doSettle k i) := by
  unfold State.doSettle
  dsimp only
  split
  · exact h
  · refine iteInduction (fun _ => h) fun _ => ?_
    refine iteInduction (fun _ => State.setThread_fine h (Thread.fine_set (State.thread_fine h))) fun _ => ?_
    split
    · exact State.setThread_fine h (iteInduction (fun _ => wrX_fine
          (Thread.mapSnaps_fine (Thread.onSnap_fine (Thread.fine_set (State.thread_fine h))))) fun _ => Thread.lateG_fine
          (Thread.mapSnaps_fine (Thread.onSnap_fine (Thread.fine_set (State.thread_fine h)))))
    · exact State.startWalk_fine (State.setThread_fine h (iteInduction
          (fun _ => wrX_fine (Thread.mapSnaps_fine (Thread.onSnap_fine (Thread.fine_set (State.thread_fine h))))) fun _ =>
          Thread.lateG_fine (Thread.mapSnaps_fine (Thread.onSnap_fine (Thread.fine_set (State.thread_fine h))))))

theorem State.doWalkComplete_fine {s : State} {die i : ℕ} (h : State.Fine P Q s) : State.Fine P Q (s.doWalkComplete die i) := by
  unfold State.doWalkComplete
  extract_lets d
  split
  · exact h
  · split
    · exact State.readWaits_fine h
    next e =>
      have h1 := ok_of e (State.walkMeet_fine h)
      extract_lets d rest s1
      have h2 : State.Fine P Q s1 := State.setDie_fine h1 (by split <;> exact Die.fine_set (State.die_fine h1))
      clear_value s1
      split
      · exact h2
      · extract_lets hv live put fail
        have hput : ∀ s f p r st b m, State.Fine P Q s → State.Fine P Q (put s f p r st b m) := fun _ _ _ _ _ _ _ hs =>
          iteInduction (fun _ => State.modThread_fine hs fun _ ht => Thread.mapSnaps_fine (Thread.onSnap_fine ht)) fun _ => hs
        have hfail : ∀ s l, State.Fine P Q s → State.Fine P Q (fail s l) := fun _ l hs => by
          cases l with
          | none => exact hput _ _ _ _ _ _ _ hs
          | some l => exact iteInduction (fun _ => State.armMonitor_fine (hput _ _ _ _ _ _ _ hs)) fun _ => hput _ _ _ _ _ _ _ hs
        split
        · exact hput _ _ _ _ _ _ _ (State.walkPoison_fine h2)
        · exact hfail _ _ h2
        · exact iteInduction (fun _ => hput _ _ _ _ _ _ _ (State.tlbFill_fine h2)) fun _ => hfail _ (some _) (State.tlbFill_fine h2)

/-! ### The checks of an access (R29, R316) -/

theorem State.symRead_fine {s : State} {str unit lo hi : ℕ} (h : State.Fine P Q s) :
    Gives (State.Fine P Q) (s.symRead str unit lo hi) := by
  unfold State.symRead
  dsimp only
  split
  · exact Gives.error
  · exact Gives.ok (State.symFix_fine h)

theorem State.symWrite_fine {s : State} {str unit lo hi : ℕ} (h : State.Fine P Q s) : State.Fine P Q (s.symWrite str unit lo hi) := h

theorem State.noteConsumed_fine {s : State} {k : ℕ} {c : Cause} (h : State.Fine P Q s) : State.Fine P Q (s.noteConsumed k c) := by
  unfold State.noteConsumed
  exact iteInduction (fun _ => State.postPoison_fine (State.countErr_fine (iteInduction (fun _ => State.meetLine_fine h) fun _ => h)))
      fun _ => h

theorem State.freeze_fine {s : State} {core str loc : ℕ} (h : State.Fine P Q s) : State.Fine P Q (s.freeze core str loc) := by
  unfold State.freeze
  exact State.post_fine (State.countErr_fine (State.modCore_fine h fun _ h2 => h2))

/-! ### Subscriptions (R154, R158, R362, R363) -/

theorem State.armSub_fine {s : State} {cl tenant : ℕ} {b : BSub} (h : State.Fine P Q s) : State.Fine P Q (s.armSub cl tenant b) := by
  unfold State.armSub
  exact State.modCluster_fine h

/-! ### The lease (R161, R344, R345) -/

theorem State.leaseGrant_fine {s : State} {cl core : ℕ} {take : Bool} (h : State.Fine P Q s) :
    State.Fine P Q (s.leaseGrant cl core take) := by
  unfold State.leaseGrant
  exact State.setCluster_fine h

theorem State.leasePass_fine {s : State} {cl : ℕ} (h : State.Fine P Q s) : State.Fine P Q (s.leasePass cl) := by
  unfold State.leasePass
  refine iteInduction (fun _ => h) fun _ => ?_
  split
  · exact h
  · exact State.leaseGrant_fine h

theorem State.leaseRotate_fine {s : State} {cl : ℕ} (h : State.Fine P Q s) : State.Fine P Q (s.leaseRotate cl) := by
  unfold State.leaseRotate
  exact iteInduction (fun _ => h) fun _ => iteInduction (fun _ => iteInduction
      (fun _ => State.modCluster_fine (State.leasePass_fine (State.setCluster_fine h))) fun _ => State.leasePass_fine
      (State.setCluster_fine h)) fun _ => State.leasePass_fine h

theorem State.leaseWait_fine {s : State} {cl core : ℕ} (h : State.Fine P Q s) : State.Fine P Q (s.leaseWait cl core) := by
  unfold State.leaseWait
  exact iteInduction (fun _ => h) fun _ => State.leaseRotate_fine (State.setCluster_fine h)

theorem State.leaseLeave_fine {s : State} {k : ℕ} (h : State.Fine P Q s) : State.Fine P Q (s.leaseLeave k) := by
  unfold State.leaseLeave
  exact iteInduction (fun _ => State.leasePass_fine (State.setCluster_fine h)) fun _ => State.setCluster_fine h

theorem State.leaseSwap_fine {s : State} {out inc : ℕ} (h : State.Fine P Q s) : State.Fine P Q (s.leaseSwap out inc) := by
  unfold State.leaseSwap
  exact iteInduction (fun _ => iteInduction (fun _ => h) fun _ => State.setCluster_fine h) fun _ => State.leaseLeave_fine h

/-! ### Group objects (R306 to R311) -/

theorem State.leaveObj_fine {s : State} {e : Member} (h : State.Fine P Q s) : State.Fine P Q (s.leaveObj e) := by
  unfold State.leaveObj
  split
  · exact h
  · exact State.atomicWrite_fine h

theorem State.leaveAll_fine {s : State} {k : ℕ} (h : State.Fine P Q s) : State.Fine P Q (s.leaveAll k) := by
  unfold State.leaveAll
  exact State.modThread_fine (foldl_fine h fun _ _ h3 => State.leaveObj_fine h3) fun _ h5 => h5

theorem State.setSlot_fine {s : State} {n : ℕ} {x : Slot} (h : State.Fine P Q s) : State.Fine P Q (s.setSlot n x) := h

theorem State.completion_fine {s : State} {slot task kind gen cause sub cidx uj sat pc info port : ℕ} (h : State.Fine P Q s) :
    State.Fine P Q (s.completion slot task kind gen cause sub cidx uj sat pc info port) := by
  unfold State.completion
  split
  · exact h
  · exact State.setSlot_fine (State.recordMsi_fine h)

theorem State.taskRecord_fine {s : State} {t : Task} {kind cause sub pc info : ℕ} (h : State.Fine P Q s) :
    State.Fine P Q (s.taskRecord t kind cause sub pc info) := by
  unfold State.taskRecord
  exact State.completion_fine h

theorem State.faultEvent_fine {s : State} {die unit id cidx gen sub cause : ℕ} (h : State.Fine P Q s) :
    State.Fine P Q (s.faultEvent die unit id cidx gen sub cause) := by
  unfold State.faultEvent
  exact State.post_fine h

theorem State.nodeBack_fine {s : State} {slot n : ℕ} (h : State.Fine P Q s) : State.Fine P Q (s.nodeBack slot n) := by
  unfold State.nodeBack
  split
  · exact h
  · dsimp only
    split
    · exact h
    · exact State.recordWrite_fine h

theorem State.genBack_fine {s : State} {slot : ℕ} (h : State.Fine P Q s) : State.Fine P Q (s.genBack slot) := by
  unfold State.genBack
  split
  · exact h
  · split
    · exact h
    · exact State.recordWrite_fine h

/-! ### The choice of a die (R179, R182) -/

theorem State.wakeChosen_fine {s : State} {d : ℕ} (h : State.Fine P Q s) : State.Fine P Q (s.wakeChosen d) := by
  unfold State.wakeChosen
  exact iteInduction (fun _ => h) fun _ => h

/-! ### Readiness (R159, R172 to R174) -/

theorem State.newTask_fine {s : State} {slot : ℕ} {x : Slot} {n inst : ℕ} {kicked : Bool} :
    Task.Fine Q (s.newTask slot x n inst kicked) := by
  unfold State.newTask
  exact Task.fine_mk each_nil each_nil each_nil

theorem State.addTask_fine {s : State} {slot n inst : ℕ} {kicked : Bool} (h : State.Fine P Q s) :
    State.Fine P Q (s.addTask slot n inst kicked) := by
  unfold State.addTask
  split
  · exact h
  · exact State.refillReady_fine (State.wakeChosen_fine (State.fine_tasks (State.setSlot_fine h)
        (each_append (State.tasks_fine (State.setSlot_fine h)) (each_cons State.newTask_fine each_nil))))

theorem State.makeReady_fine {s : State} {slot n : ℕ} (h : State.Fine P Q s) : Fst (State.Fine P Q) (s.makeReady slot n) := by
  unfold State.makeReady
  split
  · exact h
  · refine iteInduction (fun _ => State.setSlot_fine h) fun _ => ?_
    refine iteInduction (fun _ => foldl_fine (R := State.Fine P Q) (State.setSlot_fine h) fun _ _ h8 => State.addTask_fine h8) fun _ => ?_
    split
    · exact State.faultEvent_fine (State.setSlot_fine h)
    · exact iteInduction (fun _ => iteInduction (fun _ => h) fun _ => foldl_fine (R := State.Fine P Q) (State.setSlot_fine h)
          fun _ _ h16 => State.addTask_fine h16) fun _ => iteInduction (fun _ => h) fun _ => iteInduction
          (fun _ => foldl_fine (R := State.Fine P Q) (State.setSlot_fine h) fun _ _ h19 => State.addTask_fine h19) fun _ =>
          State.faultEvent_fine (State.setSlot_fine h)

theorem State.arrive_fine {s : State} {slot m : ℕ} (h : State.Fine P Q s) : Fst (State.Fine P Q) (s.arrive slot m) := by
  unfold State.arrive
  split
  · exact h
  · exact State.nodeBack_fine (State.setSlot_fine h)

theorem State.completeNodes_fine {s : State} {slot n : ℕ} {l : List ℕ} (h : State.Fine P Q s) :
    State.Fine P Q (s.completeNodes slot n l) := by
  induction n generalizing s l with
  | zero =>
    cases l with
    | nil => exact h
    | cons => exact h
  | succ n ih =>
    cases l with
    | nil => exact h
    | cons m l =>
      unfold State.completeNodes
      split
      · exact h
      · exact ih (foldl_fine (R := Fst (State.Fine P Q)) (a := (_, _)) (State.nodeBack_fine (State.setSlot_fine h)) fun _ _ ha =>
          iteInduction (motive := Fst (State.Fine P Q)) (fun _ => State.makeReady_fine (State.arrive_fine ha)) fun _ => State.arrive_fine
              ha)

theorem State.retryPreds_fine {s : State} (h : State.Fine P Q s) : State.Fine P Q s.retryPreds := by
  unfold State.retryPreds
  refine foldl_fine h fun _ ⟨_, _⟩ h5 => ?_
  split
  · exact h5
  · refine foldl_fine h5 fun _ _ h13 => ?_
    split
    · exact h13
    · exact iteInduction (fun _ => State.completeNodes_fine (State.makeReady_fine (State.setSlot_fine h13))) fun _ =>
          State.makeReady_fine (State.setSlot_fine h13)

theorem State.startGen_fine {s : State} {slot gen : ℕ} (h : State.Fine P Q s) : State.Fine P Q (s.startGen slot gen) := by
  unfold State.startGen
  split
  · exact h
  · refine State.completeNodes_fine ?_
    refine foldl_fine (R := Fst (State.Fine P Q)) (State.genBack_fine (State.setSlot_fine h)) fun ⟨_, _⟩ _ h10 => ?_
    refine State.makeReady_fine ?_
    dsimp only
    split
    · exact h10
    · exact State.nodeBack_fine (State.setSlot_fine h10)

theorem State.slotCheck_fine {s : State} {slot : ℕ} (h : State.Fine P Q s) : State.Fine P Q (s.slotCheck slot) := by
  unfold State.slotCheck
  split
  · exact h
  · exact iteInduction (fun _ => h) fun _ => h

theorem State.instanceDone_fine {s : State} {t : Task} (h : State.Fine P Q s) : State.Fine P Q (s.instanceDone t) := by
  unfold State.instanceDone
  extract_lets slot n s1 s2 s3
  have h3 : State.Fine P Q s3 :=
    State.refillReady_fine (State.modDie_fine (State.fine_tasks h (each_filter (State.tasks_fine h))) fun _ hd => hd)
  clear_value s3
  refine iteInduction (fun _ => State.slotCheck_fine h3) fun _ => ?_
  split
  · exact h3
  · have hn := fun x => State.nodeBack_fine (slot := slot) (n := n) (State.setSlot_fine (n := slot) (x := x) h3)
    exact iteInduction (fun _ => State.slotCheck_fine h3) fun _ =>
      State.slotCheck_fine (iteInduction (fun _ => State.completeNodes_fine (hn _)) fun _ => hn _)

/-! ### Images (R63, R93) -/

theorem Thread.zeroFreed_fine {t : Thread} (h : Thread.Fine Q t) : Thread.Fine Q t.zeroFreed := h

theorem Thread.keepLive_fine {t : Thread} {e : LiveEntry} (h : Thread.Fine Q t) : Thread.Fine Q (t.keepLive e) := h

theorem Thread.atRest_fine {t : Thread} (h : Thread.Fine Q t) : Thread.Fine Q t.atRest := h

theorem Thread.untrapped_fine {t : Thread} (h : Thread.Fine Q t) : Thread.Fine Q t.untrapped := h

/-! ### Records (R93) -/

theorem State.capture_fine {s : State} {k : ℕ} {kind : ImgKind} {mark : ℕ} (h : State.Fine P Q s) :
    Image.Fine Q (s.capture k kind mark) := by
  unfold State.capture
  dsimp only
  split
  · exact Image.fine_mk (Yields.some (Thread.keepLive_fine (Thread.atRest_fine (Thread.zeroFreed_fine (State.thread_fine h)))))
  · exact Image.fine_mk (Yields.some (Thread.atRest_fine (Thread.zeroFreed_fine (State.thread_fine h))))
  · exact Image.fine_mk (Yields.some (Thread.fine_set (Thread.untrapped_fine
        (Thread.atRest_fine (Thread.zeroFreed_fine (State.thread_fine h))))))
  · exact Image.fine_mk (Yields.some (Thread.untrapped_fine (Thread.atRest_fine (Thread.zeroFreed_fine (State.thread_fine h)))))
  · exact Image.fine_mk (Yields.some (Thread.fine_set (Thread.untrapped_fine
        (Thread.atRest_fine (Thread.zeroFreed_fine (State.thread_fine h))))))

/-! ### Onyx: the map and its wear (R91, R92, R232) -/

theorem Die.wearWrites_fine {d : Die} {l : List (ℕ × ℕ)} (h : Die.Fine Q d) : Die.Fine Q (d.wearWrites l) := by
  unfold Die.wearWrites
  exact foldl_fine h fun _ ⟨_, _⟩ h5 => foldl_fine h5 fun _ _ h8 => h8

theorem State.wearImage_fine {s : State} {j : ImgJob} (h : State.Fine P Q s) : State.Fine P Q (s.wearImage j) := by
  unfold State.wearImage
  exact State.modDie_fine h fun _ h2 => Die.wearWrites_fine h2

/-! ### Images in Onyx (R92, R93, R110, R125) -/

theorem Core.putImage_fine {c : Core} {slot : ℕ} {i : Image} (h : Core.Fine Q c) (hi : Image.Fine Q i) :
    Core.Fine Q (c.putImage slot i) := by
  unfold Core.putImage
  exact iteInduction (fun _ => Core.fine_mk (Yields.some hi) (Core.imgB_fine h) (Core.imgC_fine h)) fun _ => iteInduction
      (fun _ => Core.fine_mk (Core.imgA_fine h) (Yields.some hi) (Core.imgC_fine h)) fun _ => iteInduction
      (fun _ => Core.fine_mk (Core.imgA_fine h) (Core.imgB_fine h) (Yields.some hi)) fun _ => h

theorem State.beginJob_fine {s : State} {d : ℕ} {j : ImgJob} (h : State.Fine P Q s) (hj : ImgJob.Fine Q j) :
    Both (State.Fine P Q) (ImgJob.Fine Q) (s.beginJob d j) := by
  unfold State.beginJob
  refine And.intro ?_ (ImgJob.fine_mk (Image.fine_set (ImgJob.img_fine hj)))
  refine State.modDie_fine ?_ fun _ h11 => Die.fine_mk (each_map (Die.imgs_fine h11) fun _ h13 => iteInduction
      (fun _ => ImgJob.fine_mk (Image.fine_set (ImgJob.img_fine hj))) fun _ => h13)
  split
  · exact State.modCore_fine h fun _ h4 => Core.putImage_fine h4 (Image.fine_set (ImgJob.img_fine hj))
  · exact State.modCluster_fine (State.modCore_fine h fun _ h9 => Core.putImage_fine h9 (Image.fine_set (ImgJob.img_fine hj)))

theorem State.nextImage_fine {s : State} {core : ℕ} (h : State.Fine P Q s) : State.Fine P Q (s.nextImage core) := by
  unfold State.nextImage
  split
  · exact h
  next e5 =>
    have h6 := some_of e5 (yields_find (Die.imgs_fine (State.die_fine h)))
    exact iteInduction (fun _ => h) fun _ => (State.beginJob_fine h h6).1

theorem State.startImage_fine {s : State} {k slot purpose : ℕ} {img : Image} (h : State.Fine P Q s) (himg : Image.Fine Q img) :
    State.Fine P Q (s.startImage k slot purpose img) := by
  unfold State.startImage
  exact State.nextImage_fine (State.modDie_fine (State.modTask_fine
      (iteInduction (fun _ => State.modCore_fine h fun _ h2 => Core.putImage_fine h2 himg) fun _ => h) fun _ h4 => h4) fun _ h6 =>
      Die.fine_mk (each_append (Die.imgs_fine h6) (each_cons (ImgJob.fine_mk himg) each_nil)))

theorem State.cutImages_fine {s : State} {d : ℕ} {cut : ImgJob → Bool} (h : State.Fine P Q s) : State.Fine P Q (s.cutImages d cut) := by
  unfold State.cutImages
  exact foldl_fine (foldl_each (R' := ImgJob.Fine Q) (State.modDie_fine h fun _ h2 => Die.fine_mk (each_filter (Die.imgs_fine h2)))
      (each_filter (Die.imgs_fine (State.die_fine h))) fun _ _ h5 _ => State.modDie_fine h5 fun _ h8 => Die.wearWrites_fine h8)
      fun _ _ h11 => State.nextImage_fine h11

theorem State.imageDone_fine {s : State} {j : ImgJob} (h : State.Fine P Q s) : State.Fine P Q (s.imageDone j) := by
  unfold State.imageDone
  extract_lets fin s1 s2
  have hfin : ∀ i, Yields (Image.Fine Q) i → Yields (Image.Fine Q) (fin i) := fun _ hi =>
    yields_map hi fun _ hx => iteInduction (fun _ => hx) fun _ => hx
  clear_value fin
  have h1 : State.Fine P Q s1 := State.modCore_fine h fun _ hc =>
    iteInduction (fun _ => Core.fine_mk (hfin _ (Core.imgA_fine hc)) (Core.imgB_fine hc) (Core.imgC_fine hc)) fun _ =>
    iteInduction (fun _ => Core.fine_mk (Core.imgA_fine hc) (hfin _ (Core.imgB_fine hc)) (Core.imgC_fine hc)) fun _ =>
    iteInduction (fun _ => Core.fine_mk (Core.imgA_fine hc) (Core.imgB_fine hc) (hfin _ (Core.imgC_fine hc))) fun _ => hc
  have h2 : State.Fine P Q s2 := State.modTask_fine h1 fun _ hx =>
    Task.fine_mk (Task.saved_fine hx) (Task.origins_fine hx) (each_map (Task.kept_fine hx) fun _ he =>
      iteInduction (motive := Snd (Image.Fine Q)) (fun _ => getD_keeps (yields_map (hfin _ (.some he)) fun _ hi => hi) he) fun _ => he)
  split
  · exact h2
  · exact State.modCluster_fine h2

/-! ### Errors of Onyx (R86, R93, R96) -/

theorem State.readImage_fine {s : State} {slot : ℕ} {i : Image} (hi : Image.Fine Q i) : Image.Fine Q (s.readImage slot i) := by
  unfold State.readImage
  exact hi

theorem State.readOnyx_fine {s : State} {uid : ℕ} (h : State.Fine P Q s) : State.Fine P Q (s.readOnyx uid) := by
  unfold State.readOnyx
  split
  · exact h
  · exact iteInduction (fun _ => h) fun _ => foldl_fine (State.modTask_fine h fun _ h8 => Task.fine_mk (Task.saved_fine h8)
        (Task.origins_fine h8) (each_map (Task.kept_fine h8) fun ⟨_, _⟩ h12 => State.readImage_fine h12)) fun _ _ h15 => State.post_fine
        h15

/-! ### Version records (R86) -/

theorem State.versDead_fine {s : State} {d : ℕ} (h : State.Fine P Q s) : State.Fine P Q (s.versDead d) := by
  unfold State.versDead
  exact State.modDie_fine h fun _ h2 => h2

theorem State.versOut_fine {s0 : State} {d : ℕ} {t : Task} (h : State.Fine P Q s0) (ht : Task.Fine Q t) :
    State.Fine P Q (s0.versOut d t) := by
  unfold State.versOut
  dsimp only
  split
  · exact State.versDead_fine h
  · exact State.modDie_fine (State.modTask_fine (State.versDead_fine h) fun _ h7 => Task.fine_mk (Task.saved_fine h7)
        (Task.origins_fine h7) (each_map (Task.kept_fine ht) fun ⟨_, _⟩ h11 => iteInduction (fun _ => h11) fun _ => h11)) fun _ h13 =>
        Die.wearWrites_fine h13

theorem State.versTake_fine {s : State} {uid : ℕ} (h : State.Fine P Q s) : Fst (State.Fine P Q) (s.versTake uid) := by
  unfold State.versTake
  exact State.fine_dies h (dies_map (State.dies_fine h) fun _ h2 => h2)

/-! ### Images in memory (R211, R435) -/

theorem State.writeSaved_fine {s : State} {ctx : ℕ} {img : Image} (h : State.Fine P Q s) (himg : Image.Fine Q img) :
    Both (State.Fine P Q) (Image.Fine Q) (s.writeSaved ctx img) := by
  unfold State.writeSaved
  split
  · exact ⟨h, himg⟩
  · dsimp only
    split
    · exact ⟨h, himg⟩
    · exact ⟨State.engineWrite_fine h, himg⟩

/-! ### Marks (R84) -/

theorem Task.seal_fine {t : Task} (h : Task.Fine Q t) : Task.Fine Q t.seal := h

theorem Task.sealCommit_fine {t : Task} (h : Task.Fine Q t) : Task.Fine Q t.sealCommit := h

/-! ### The commit instant (R110 steps 4 and 6, R111, R113, R120, R136, R146) -/

theorem State.retireLine_fine {s0 : State} {die uid : ℕ} {v : VLine} (h : State.Fine P Q s0) :
    State.Fine P Q (s0.retireLine die uid v) := by
  unfold State.retireLine
  split
  next e4 =>
    have h5 := fst_of e4 (State.llcMeet_fine h)
    refine iteInduction (fun _ => ?_) fun _ => ?_
    · split
      · exact State.llcInsert_fine h5
      · exact State.llcInsert_fine h5
    · dsimp only
      split
      · exact State.llcInsert_fine (State.modDie_fine h5 fun _ h15 => h15)
      · exact iteInduction (fun _ => State.modDie_fine h5 fun _ h19 => h19) fun _ => State.llcInsert_fine
            (State.modDie_fine h5 fun _ h21 => h21)

theorem State.refreshL1_fine {s : State} {cl : ℕ} {v : VLine} (h : State.Fine P Q s) : State.Fine P Q (s.refreshL1 cl v) := by
  unfold State.refreshL1
  exact State.modCluster_fine h

theorem State.publish_fine {s : State} {uid n : ℕ} (h : State.Fine P Q s) : State.Fine P Q (s.publish uid n) := by
  induction n generalizing s with
  | zero => exact h
  | succ n ih =>
    unfold State.publish
    split
    · exact h
    · split
      · exact h
      · exact ih (State.modTask_fine (State.fine_set (State.atomicWrite_fine h)) fun _ hx => hx)

theorem State.dropOrphans_fine {s : State} {uid : ℕ} (h : State.Fine P Q s) : State.Fine P Q (s.dropOrphans uid) := h

theorem State.commitInstant_fine {s : State} {k mark : ℕ} (h : State.Fine P Q s) : State.Fine P Q (s.commitInstant k mark) := by
  unfold State.commitInstant
  dsimp only
  split
  · exact h
  · exact State.publish_fine (foldl_fine (foldl_fine (State.dropOrphans_fine (State.modTask_fine h fun _ h8 => h8)) fun _ _ h11 =>
        State.retireLine_fine h11) fun _ _ h14 => State.modCluster_fine
        (State.modThread_fine (State.modCore_fine (foldl_fine h14 fun _ _ h17 => State.refreshL1_fine h17) fun _ h19 => h19) fun _ h21 =>
        h21))

/-! ### Abort of a region (R112, R114, R427) -/

theorem Image.noRecord_fine {i : Image} (h : Image.Fine Q i) : Image.Fine Q i.noRecord := by
  unfold Image.noRecord
  exact Image.fine_mk (yields_map (Image.t_fine h) fun _ h2 => h2)

theorem Task.dropRegion_fine {t : Task} (h : Task.Fine Q t) : Task.Fine Q t.dropRegion := by
  unfold Task.dropRegion
  exact Task.fine_mk (Task.saved_fine h) (Task.origins_fine h) (each_map (Task.kept_fine h) fun ⟨_, _⟩ h4 => Image.noRecord_fine h4)

theorem State.dropWalks_fine {s : State} {k : ℕ} (h : State.Fine P Q s) : State.Fine P Q (s.dropWalks k) := by
  unfold State.dropWalks
  exact State.modDie_fine h fun _ h2 => h2

theorem State.enterCore_fine {s : State} {core tenant : ℕ} (h : State.Fine P Q s) : State.Fine P Q (s.enterCore core tenant) := by
  unfold State.enterCore
  exact State.modCore_fine h fun _ h2 => iteInduction (fun _ => h2) fun _ => h2

theorem State.applyOwner_fine {s : State} {core : ℕ} (h : State.Fine P Q s) : State.Fine P Q (s.applyOwner core) := by
  unfold State.applyOwner
  split
  · exact h
  · exact iteInduction (fun _ => State.modCore_fine h fun _ h7 => h7) fun _ => h

theorem State.fixPlanes_fine {s : State} {core : ℕ} (h : State.Fine P Q s) : State.Fine P Q (s.fixPlanes core) := by
  unfold State.fixPlanes
  refine foldl_fine h fun _ _ hs => iteInduction (fun _ => ?_) fun _ => hs
  exact State.modThread_fine hs fun _ ht => Thread.fine_status ht fun q => setBit32_reserved (ht q).2.2.1 (by decide)

theorem State.keepImages_fine {s : State} {k : ℕ} (h : State.Fine P Q s) : State.Fine P Q (s.keepImages k) := by
  unfold State.keepImages
  extract_lets core t c own l coming done
  have hc : Core.Fine Q c := State.core_fine h
  have hl : Each (Snd (Yields (Image.Fine Q))) l :=
    each_filter (each_cons (Core.imgA_fine hc) (each_cons (Core.imgB_fine hc) (each_cons (Core.imgC_fine hc) each_nil)))
  have hdone : Each (Snd (Image.Fine Q)) done := each_filterMap hl fun _ he =>
    yields_bind he fun _ hx => iteInduction (motive := Yields (Snd (Image.Fine Q))) (fun _ => .some hx) fun _ => .none
  refine iteInduction (fun _ => h) fun _ => State.setCore_fine (State.modTask_fine h fun _ hx => ?_) (Core.fine_mk ?_ ?_ ?_)
  · exact Task.fine_mk (Task.saved_fine hx) (Task.origins_fine hx) (each_append (each_filter (Task.kept_fine hx)) hdone)
  · exact iteInduction (fun _ => .none) fun _ => Core.imgA_fine hc
  · exact iteInduction (fun _ => .none) fun _ => Core.imgB_fine hc
  · exact iteInduction (fun _ => .none) fun _ => Core.imgC_fine hc

theorem State.gangStart_fine {s : State} {uid : ℕ} (h : State.Fine P Q s) : State.Fine P Q (s.gangStart uid) := by
  unfold State.gangStart
  split
  · exact h
  · exact iteInduction (fun _ => h) fun _ => State.modTask_fine h fun _ h8 => h8

theorem State.spadRestore_fine {s : State} {core : ℕ} {ranges : List (ℕ × ℕ × List Host.Cell)} {bad : List ℕ} (h : State.Fine P Q s) :
    State.Fine P Q (s.spadRestore core ranges bad) := by
  unfold State.spadRestore
  exact iteInduction (fun _ => State.modCore_fine h fun _ h2 => h2) fun _ => State.fine_set (State.modCore_fine h fun _ h4 => h4)

theorem State.migrate_fine {s : State} {k : ℕ} (h : State.Fine P Q s) : State.Fine P Q (s.migrate k) := by
  unfold State.migrate
  dsimp only
  split
  · exact h
  · exact iteInduction (fun _ => h) fun _ => State.renewAll_fine h

theorem State.activate_fine {s : State} {core plane : ℕ} (h : State.Fine P Q s) : State.Fine P Q (s.activate core plane) := by
  unfold State.activate
  extract_lets k t task own img s1 s2 s3 s4 s5 s6 s7
  have himg : ∀ n, Yields (Image.Fine Q) (img n) := fun n =>
    yields_map (R := Snd (Image.Fine Q))
      (yields_find (getD_keeps (yields_map (State.taskOf_fine h) fun _ hx => each_filter (Task.kept_fine hx)) each_nil)) fun _ he => he
  have h3 : State.Fine P Q s3 := State.spadRestore_fine (State.enterCore_fine (State.modCore_fine h fun _ hc => hc))
  have h4 : State.Fine P Q s4 := State.modCore_fine h3 fun _ hc =>
    Core.fine_mk (yields_orElse (himg 0) (Core.imgA_fine hc)) (yields_orElse (himg 1) (Core.imgB_fine hc))
      (yields_orElse (himg 2) (Core.imgC_fine hc))
  have h5 : State.Fine P Q s5 := State.modTask_fine h4 fun _ hx =>
    Task.fine_mk (Task.saved_fine hx) (Task.origins_fine hx) (each_filter (Task.kept_fine hx))
  have h6 : State.Fine P Q s6 := by
    subst s6
    clear_value s5 img
    split
    next e _ => exact iteInduction (fun _ => State.startImage_fine h5 (Image.fine_set (some_of e (himg 2)))) fun _ => h5
    · exact h5
  exact State.gangStart_fine (State.fixPlanes_fine (State.modThread_fine (State.migrate_fine h6) fun _ ht => ht))

theorem State.clusterOff_fine {s : State} {cl : ℕ} (h : State.Fine P Q s) : State.Fine P Q (s.clusterOff cl) := by
  unfold State.clusterOff
  exact foldl_fine (State.modCluster_fine h) fun _ _ h3 => State.modCore_fine h3 fun _ h5 => h5

theorem State.gateIdle_fine {s : State} {cl : ℕ} (h : State.Fine P Q s) : State.Fine P Q (s.gateIdle cl) := by
  unfold State.gateIdle
  exact iteInduction (fun _ => State.clusterOff_fine h) fun _ => h

theorem State.releasePlane_fine {s : State} {k : ℕ} (h : State.Fine P Q s) : State.Fine P Q (s.releasePlane k) := by
  unfold State.releasePlane
  extract_lets core t s1 s2 s3 was other next s4 s5 s6
  have h3 : State.Fine P Q s3 := State.modCluster_fine (State.modTask_fine (State.keepImages_fine (State.dropWalks_fine h)) fun _ hx =>
      hx)
  have h4 : State.Fine P Q s4 :=
    iteInduction (fun _ => iteInduction (fun _ => State.leaseSwap_fine h3) fun _ => State.leaseLeave_fine h3) fun _ => h3
  have h5 : State.Fine P Q s5 := State.setThread_fine h4 Thread.blank_fine
  have h6 : State.Fine P Q s6 := iteInduction (fun _ => State.activate_fine h5) fun _ => h5
  exact State.gateIdle_fine (State.applyOwner_fine h6)

theorem State.releaseThreads_fine {s : State} {t : Task} (h : State.Fine P Q s) : State.Fine P Q (s.releaseThreads t) := by
  unfold State.releaseThreads
  exact foldl_fine h fun _ _ h3 => iteInduction (fun _ => State.releasePlane_fine h3) fun _ => h3

theorem State.dropTiles_fine {s : State} {t : Task} (h : State.Fine P Q s) : State.Fine P Q (s.dropTiles t) := by
  unfold State.dropTiles
  exact foldl_fine h fun _ _ h3 => State.modCluster_fine h3

theorem State.cutPeers_fine {s : State} {t : Task} (h : State.Fine P Q s) : State.Fine P Q (s.cutPeers t) := by
  unfold State.cutPeers
  exact State.fine_set (State.modTask_fine h fun _ h2 => h2)

theorem State.cutJobs_fine {s : State} {t : Task} (h : State.Fine P Q s) : State.Fine P Q (s.cutJobs t) := by
  unfold State.cutJobs
  exact foldl_fine (State.cutPeers_fine h) fun _ _ h3 => State.cutImages_fine h3

theorem State.abortRegion_fine {s : State} {uid due : ℕ} {armed : Bool} {avoid : Option ℕ} (h : State.Fine P Q s) :
    State.Fine P Q (s.abortRegion uid due armed avoid) := by
  unfold State.abortRegion
  split
  · exact h
  · exact State.refillReady_fine (State.modTask_fine (State.releaseThreads_fine (State.cutJobs_fine (State.dropTiles_fine h)))
        fun _ h8 => Task.fine_set (Task.dropRegion_fine h8))

/-! ### The end of a task (R175, R404, R405, R425) -/

theorem State.endThread_fine {s : State} {k : ℕ} {lastTiles : Bool} (h : State.Fine P Q s) :
    State.Fine P Q (s.endThread k lastTiles) := by
  unfold State.endThread
  exact State.releasePlane_fine (iteInduction (fun _ => State.modCluster_fine (State.leaveAll_fine h)) fun _ => State.leaveAll_fine h)

theorem State.finishTask_fine {s : State} {uid : ℕ} (h : State.Fine P Q s) : State.Fine P Q (s.finishTask uid) := by
  unfold State.finishTask
  split
  · exact h
  · split
    · exact h
    · exact iteInduction (fun _ => h) fun _ => State.instanceDone_fine
          (State.taskRecord_fine (iteInduction (fun _ => foldl_fine h fun _ _ h14 => iteInduction (fun _ => State.endThread_fine h14)
          fun _ => h14) fun _ => State.faultEvent_fine (foldl_fine h fun _ _ h17 => iteInduction (fun _ => State.endThread_fine h17)
          fun _ => h17)))

theorem State.stopMates_fine {s : State} {k : ℕ} (h : State.Fine P Q s) : State.Fine P Q (s.stopMates k) := by
  unfold State.stopMates
  exact foldl_fine (foldl_fine h fun _ _ h3 => State.modThread_fine h3 fun _ h5 => h5) fun _ _ h8 => State.cutImages_fine h8

theorem State.endTask_fine {s : State} {uid kind cause sub pc info : ℕ} (h : State.Fine P Q s) :
    State.Fine P Q (s.endTask uid kind cause sub pc info) := by
  unfold State.endTask
  split
  · exact h
  next e5 =>
    have h6 := some_of e5 (State.taskOf_fine h)
    exact State.finishTask_fine (State.setTask_fine (foldl_fine
        (foldl_fine (State.cutJobs_fine h) fun _ _ h9 => State.modThread_fine h9 fun _ h11 => Thread.fine_set
        (Thread.untrapped_fine (Thread.atRest_fine h11))) fun _ _ h14 => State.dropWalks_fine h14)
        (Task.fine_set (Task.dropRegion_fine h6)))

/-! ### Restore (R64, R79, R128, R158, R367) -/

theorem State.walkPending_fine {s : State} {k : ℕ} (h : State.Fine P Q s) : State.Fine P Q (s.walkPending k) := by
  unfold State.walkPending
  exact foldl_fine h fun _ _ h3 => iteInduction (fun _ => h3) fun _ => State.startWalk_fine h3

theorem State.rewalk_fine {s : State} {k : ℕ} (h : State.Fine P Q s) : State.Fine P Q (s.rewalk k) := by
  unfold State.rewalk
  exact State.walkPending_fine (State.modThread_fine h fun _ h2 => Thread.mapSnaps_fine (Thread.onSnap_fine h2))

theorem State.restoreImage_fine {s : State} {k : ℕ} {img : Image} {status : W32} (h : State.Fine P Q s) (himg : Image.Fine Q img)
    (hst : Q → status &&& statusReserved = 0#32) : State.Fine P Q (s.restoreImage k img status) := by
  unfold State.restoreImage
  split
  · exact h
  next e =>
    have hsub : ∀ {s : State} {c : ℕ} {f : Cluster → Cluster} {g : State → BSub → State} {l : List BSub}, State.Fine P Q s →
        (∀ s b, State.Fine P Q s → State.Fine P Q (g s b)) → State.Fine P Q (l.foldl g (s.modCluster c f)) := fun hs hg =>
      foldl_fine (State.modCluster_fine hs) hg
    refine State.rewalk_fine ?_
    refine iteInduction (fun _ => State.leaseWait_fine (hsub ?_ fun _ _ => State.armSub_fine)) fun _ => hsub ?_ fun _ _ =>
        State.armSub_fine
    all_goals
      exact iteInduction (fun _ => State.spadRestore_fine (State.setThread_fine h
          (Thread.fine_status (some_of e (Image.t_fine himg)) hst)))
        fun _ => State.modThread_fine (State.setThread_fine h (Thread.fine_status (some_of e (Image.t_fine himg)) hst)) fun _ ht => ht

end Sys2Proof.Machine
end

section
/-! What runs around a word keeps the invariant: sequencers, the trap point, commits, saves, the fetch and the turn (O5, O15). -/

namespace Sys2Proof.Machine

open Sys2Proof

variable {P Q : Prop}

/-! ### Sequencers -/

theorem Thread.setQueue_fine {t : Thread} {q : Sq} {l : List QUnit} (h : Thread.Fine Q t) : Thread.Fine Q (t.setQueue q l) := by
  unfold Thread.setQueue
  split
  · exact h
  · exact h
  · exact h
  · exact h

theorem Thread.setLoop_fine {t : Thread} {q : Sq} {l : LoopBuf} (h : Thread.Fine Q t) : Thread.Fine Q (t.setLoop q l) := by
  unfold Thread.setLoop
  split
  · exact h
  · exact h
  · exact h
  · exact h

theorem Thread.setRunAhead_fine {t : Thread} {q : Sq} {r : RunAhead} (h : Thread.Fine Q t) : Thread.Fine Q (t.setRunAhead q r) := by
  unfold Thread.setRunAhead
  split
  · exact h
  · exact h
  · exact h
  · exact h

theorem Thread.setWait_fine {t : Thread} {q : Sq} {w : Option Wait} (h : Thread.Fine Q t) : Thread.Fine Q (t.setWait q w) := by
  unfold Thread.setWait
  split
  · exact h
  · exact h
  · exact h
  · exact h

theorem Thread.setPhase_fine {t : Thread} {q : Sq} {p : Phase} (h : Thread.Fine Q t) : Thread.Fine Q (t.setPhase q p) := by
  unfold Thread.setPhase
  split
  · exact h
  · exact h

/-! ### The trap point (R421, R422, R478) -/

theorem Thread.atTrapPoint_fine {t : Thread} {p : TrapPend} (h : Thread.Fine Q t) : Thread.Fine Q (t.atTrapPoint p) := by
  unfold Thread.atTrapPoint
  exact Thread.fine_set (foldl_fine (Thread.restoreSnap_fine h) fun _ ⟨_, _⟩ h5 => Thread.setRunAhead_fine h5)

theorem State.squashWalks_fine {s : State} {k seq : ℕ} (h : State.Fine P Q s) : State.Fine P Q (s.squashWalks k seq) := by
  unfold State.squashWalks
  exact State.modDie_fine h fun _ h2 => h2

/-! ### Classes and delivery (R419, R424 to R430) -/

theorem State.handlerEntry_fine {s : State} {k code : ℕ} (h : State.Fine P Q s) : Fst (State.Fine P Q) (s.handlerEntry k code) := by
  unfold State.handlerEntry
  refine iteInduction (fun _ => h) fun _ => ?_
  dsimp only
  split
  · exact State.translate_fine h
  · exact iteInduction (fun _ => State.countErr_fine (State.translate_fine h)) fun _ => State.translate_fine h

theorem State.doubleFault_fine {s : State} {k : ℕ} {eng : Eng} {c : Cause} {pc : ℕ} (h : State.Fine P Q s) :
    State.Fine P Q (s.doubleFault k eng c pc) := by
  unfold State.doubleFault
  exact State.endTask_fine (State.fine_set (State.post_fine h))

theorem State.wAbort_fine {s : State} {k : ℕ} {c : Cause} {pc : ℕ} {avoid : Option ℕ} {counts : Bool} (h : State.Fine P Q s) :
    State.Fine P Q (s.wAbort k c pc avoid counts) := by
  unfold State.wAbort
  dsimp only
  split
  · exact h
  · exact iteInduction (fun _ => State.endTask_fine h) fun _ => State.abortRegion_fine (State.modTask_fine h fun _ h8 => h8)

theorem State.taken_fine {s : State} {k : ℕ} {c : Cause} (h : State.Fine P Q s) : State.Fine P Q (s.taken k c) := by
  unfold State.taken
  exact State.modThread_fine (State.noteConsumed_fine h) fun _ h2 => iteInduction (fun _ => h2) fun _ => h2

theorem State.deliver_fine {s : State} {k : ℕ} {eng : Eng} {c : Cause} {pc : ℕ} {rep : Option (ℕ × ℕ × ℕ)} (h : State.Fine P Q s) :
    State.Fine P Q (s.deliver k eng c pc rep) := by
  unfold State.deliver
  refine iteInduction (fun _ => State.modThread_fine h fun _ ht => ht) fun _ => ?_
  extract_lets t uid s1 s2 enter
  have h1 : State.Fine P Q s1 := State.taken_fine h
  have h2 : State.Fine P Q s2 := iteInduction (fun _ => State.post_fine h1) fun _ => iteInduction (fun _ => State.post_fine h1) fun _ =>
      h1
  have henter : ∀ s a, State.Fine P Q s → State.Fine P Q (enter s a) := fun _ _ hs => State.modThread_fine hs fun _ ht =>
      enterHandler_fine ht
  clear_value s2 enter
  refine iteInduction (fun _ => State.doubleFault_fine h2) fun _ => ?_
  split
  · split
    next e =>
    have h3 := fst_of e (State.handlerEntry_fine h2)
    split
    · exact henter _ _ h3
    · exact State.endTask_fine h3
  · split
    next e =>
    have h3 := fst_of e (iteInduction (motive := Fst (State.Fine P Q)) (fun _ => State.handlerEntry_fine h2) fun _ => h2)
    split
    · exact henter _ _ h3
    · exact State.abortRegion_fine h3
  · exact State.wAbort_fine (iteInduction (fun _ => State.modTask_fine h2 fun _ hx => hx) fun _ => h2)
  · exact State.doubleFault_fine h2
  · exact State.endTask_fine h2

theorem State.atPoint_fine {s : State} {k : ℕ} {p : TrapPend} (h : State.Fine P Q s) : State.Fine P Q (s.atPoint k p) := by
  unfold State.atPoint
  exact State.walkPending_fine (State.squashWalks_fine (State.setThread_fine h (Thread.atTrapPoint_fine (State.thread_fine h))))

theorem State.handlerReads_fine {s : State} {k : ℕ} {c : Cause} (h : State.Fine P Q s) :
    Ends (State.Fine P Q) (State.Fine P Q) (s.handlerReads k c) := by
  unfold State.handlerReads
  refine iteInduction (fun _ => Ends.ok h) fun _ => ?_
  dsimp only
  split
  next e3 =>
    have h17 := ok_of e3 (R := State.Fine P Q) (by
        split
        · exact State.homeRead_fine h
        · refine gives_bind (State.walkMeet_fine h) fun _ h10 => ?_
          split
          · exact State.homeRead_fine h10
          · exact Gives.ok h10)
    exact Ends.ok h17
  · exact Ends.error (State.readWaits_fine h)

theorem State.settleTrap_fine {s : State} {k : ℕ} (h : State.Fine P Q s) : State.Fine P Q (s.settleTrap k) := by
  unfold State.settleTrap
  dsimp only
  split
  · exact h
  · refine iteInduction (fun _ => ?_) fun _ => h
    split
    next e8 =>
      have h9 := ends_error_of e8 (State.handlerReads_fine h)
      exact h9
    next e12 =>
      have h13 := ends_ok_of e12 (State.handlerReads_fine h)
      exact State.deliver_fine (State.atPoint_fine h13)

theorem State.raiseAt_fine {s : State} {k : ℕ} {p : TrapPend} (h : State.Fine P Q s) : State.Fine P Q (s.raiseAt k p) := by
  unfold State.raiseAt
  refine State.settleTrap_fine ?_
  refine State.modThread_fine h fun _ h2 => ?_
  split
  · exact h2
  · exact iteInduction (fun _ => h2) fun _ => h2

theorem Thread.reloop_fine {t : Thread} {r : LoopResume} (h : Thread.Fine Q t) : Thread.Fine Q (t.reloop r) := by
  unfold Thread.reloop
  exact Thread.setLoop_fine h

theorem Thread.returnFrom_fine {t : Thread} (h : Thread.Fine Q t)
    (hss : Q → BitVec.ofNat 32 (t.trapCause.toNat >>> 32) &&& statusReserved = 0#32) : Thread.Fine Q t.returnFrom := by
  unfold Thread.returnFrom
  exact foldl_fine (Thread.fine_set (leaveHandler_fine h hss)) fun _ _ h4 =>
    iteInduction (fun _ => iteInduction (fun _ => Thread.reloop_fine h4) fun _ => Thread.fine_set (Thread.reloop_fine h4)) fun _ => h4

/-! ### Run-ahead (R421) -/

theorem Thread.pruneHist_fine {t : Thread} (h : Thread.Fine Q t) : Thread.Fine Q t.pruneHist := by
  unfold Thread.pruneHist
  split
  · exact h
  · exact h

theorem Thread.steer_fine {t : Thread} {q : Sq} {u : QUnit} (h : Thread.Fine Q t) : Yields (Fst (Thread.Fine Q)) (t.steer q u) := by
  unfold Thread.steer
  exact iteInduction (fun _ => iteInduction (fun _ => Yields.some (Thread.setRunAhead_fine h)) fun _ => Yields.some
      (Thread.setRunAhead_fine h)) fun _ => iteInduction (fun _ => Yields.none) fun _ => Yields.some
      (iteInduction (motive := Thread.Fine Q) (fun _ => Thread.fine_set (Thread.setQueue_fine h)) fun _ => Thread.setQueue_fine h)

theorem Thread.pastUnit_fine {t : Thread} (h : Thread.Fine Q t) : Thread.Fine Q t.pastUnit := h

/-! ### Waits and the watchdog (R439) -/

theorem Thread.standIn_fine {t : Thread} {q : Sq} {k : WaitKind} {now : ℕ} (h : Thread.Fine Q t) : Thread.Fine Q (t.standIn q k now) := by
  unfold Thread.standIn
  split
  · exact iteInduction (fun _ => h) fun _ => Thread.setWait_fine h
  · exact Thread.setWait_fine h

/-! ### Accesses of a peer's memory (R455) -/

theorem State.askPeer_fine {s : State} {k seq : ℕ} {q : Sq} {kind pa : ℕ} (h : State.Fine P Q s) :
    State.Fine P Q (s.askPeer k seq q kind pa) := by
  unfold State.askPeer
  exact iteInduction (fun _ => h) fun _ => State.fine_set (iteInduction (fun _ => h) fun _ => h)

/-! ### Accesses that have passed their check (R72) -/

theorem Thread.pass_fine {t : Thread} {seq : ℕ} {q : Sq} (h : Thread.Fine Q t) : Thread.Fine Q (t.pass seq q) := by
  unfold Thread.pass
  exact iteInduction (fun _ => h) fun _ => h

theorem State.borrow_fine {s : State} {k seq : ℕ} {q : Sq} (h : State.Fine P Q s) : State.Fine P Q (s.borrow k seq q) := by
  unfold State.borrow
  split
  · exact h
  · exact State.modThread_fine h fun _ h7 => h7

theorem State.giveBack_fine {s s0 : State} {k seq : ℕ} {q : Sq} {waits : Bool} (h : State.Fine P Q s) :
    State.Fine P Q (s.giveBack s0 k seq q waits) := by
  unfold State.giveBack
  exact iteInduction (fun _ => State.modThread_fine h fun _ h2 => h2) fun _ => h

/-! ### Control and system words -/

theorem Thread.ctlDone_fine {t : Thread} {pc : Option ℕ} (h : Thread.Fine Q t) : Thread.Fine Q (t.ctlDone pc) := by
  unfold Thread.ctlDone
  exact iteInduction (fun _ => h) fun _ => Thread.fine_repState h fun q => Thread.repEnd_reserved (h q).2.2.2.2.2.1

theorem ctlOwn_fine {eng : Eng} {horizon : Bool} {w : W32} {body : State → M CtlRes} {s : State}
    (h : ∀ s, State.Fine P Q s → Gives (CtlRes.Fine P Q) (body s)) (hs : State.Fine P Q s) :
    Fst (Next (State.Fine P Q)) (ctlOwn eng horizon w body s) := by
  unfold ctlOwn
  have ht : Thread.Fine Q s.th := State.th_fine hs
  refine iteInduction (fun _ => .next (State.setTh_fine hs (Thread.ctlDone_fine ht))) fun _ => ?_
  extract_lets stand
  have hstand : ∀ kd, Fst (Next (State.Fine P Q)) (stand kd) := fun kd => by
    subst stand
    dsimp only
    split
    · exact .next (State.raiseAt_fine (State.setTh_fine hs (Thread.fine_set ht)))
    · exact .next (State.setTh_fine hs (Thread.standIn_fine ht))
  clear_value stand
  refine iteInduction (fun _ => hstand _) fun _ => iteInduction (fun _ => hstand _) fun _ => ?_
  split
  next e =>
    have h1 := CtlRes.s_fine (ok_of e (h _ (State.borrow_fine hs)))
    refine iteInduction (fun _ => .next (State.giveBack_fine h1)) fun _ => ?_
    dsimp only
    split
    · exact .next (State.modThread_fine (State.giveBack_fine h1) fun _ ht => Thread.ctlDone_fine ht)
    · exact .next (State.raiseAt_fine (State.modThread_fine (State.giveBack_fine h1) fun _ ht => Thread.ctlDone_fine ht))
  · exact .next (State.setTh_fine hs (Thread.standIn_fine (Thread.pass_fine ht)))
  · exact hstand _
  · exact .next (State.setTh_fine (State.askPeer_fine hs) (Thread.standIn_fine (Thread.pass_fine ht)))
  · exact .next (State.setTh_fine (State.meetBursts_fine (State.meetLine_fine hs)) (Thread.standIn_fine (Thread.pass_fine ht)))
  · exact .next (State.raiseAt_fine hs)
  · exact .next (State.raiseAt_fine hs)

theorem ctl_fine {eng : Eng} {horizon : Bool} {w : W32} {body : State → M CtlRes} {s : State}
    (h : ∀ (a : State), State.Fine P Q a → Gives (CtlRes.Fine P Q) (body a)) (hs : State.Fine P Q s) :
    Next (State.Fine P Q) (ctl eng horizon w body s) := by
  unfold ctl
  dsimp only
  split
  · exact iteInduction (fun _ => ctlOwn_fine (fun _ h5 => h _ h5) hs) fun _ => Next.next (State.raiseAt_fine hs)
  · exact ctlOwn_fine (fun _ h9 => h _ h9) hs

/-! ### Loops (R36, R134, R320) -/

theorem Thread.setLc_fine {t : Thread} {q : Sq} {i : ℕ} {v : W32} (h : Thread.Fine Q t) : Thread.Fine Q (t.setLc q i v) := by
  unfold Thread.setLc
  split
  · exact h
  · exact h
  · exact h
  · exact h

theorem Thread.loopNorm_fine {t : Thread} {q : Sq} {n : ℕ} (h : Thread.Fine Q t) : Thread.Fine Q (t.loopNorm q n) := by
  induction n generalizing t with
  | zero => exact h
  | succ n ih =>
    unfold Thread.loopNorm
    dsimp only
    split
    · exact Thread.setLoop_fine h
    · refine iteInduction (fun _ => iteInduction (fun _ => h) fun _ => ih (Thread.setLoop_fine h)) fun _ => ?_
      refine iteInduction (fun _ => h) fun _ => ?_
      exact iteInduction (fun _ => Thread.setLoop_fine (Thread.setLc_fine h)) fun _ => ih (Thread.setLoop_fine (Thread.setLc_fine h))

theorem Thread.putUnit_fine {t : Thread} {q : Sq} {loop : Bool} {u : QUnit} (h : Thread.Fine Q t) :
    Thread.Fine Q (t.putUnit q loop u) := by
  unfold Thread.putUnit
  exact iteInduction (fun _ => Thread.setLoop_fine h) fun _ => Thread.setQueue_fine h

theorem Thread.retire_fine {t : Thread} {q : Sq} {loop : Bool} {u : QUnit} {new : Option LoopRec} (h : Thread.Fine Q t) :
    Thread.Fine Q (t.retire q loop u new) := by
  unfold Thread.retire
  refine iteInduction (fun _ => Thread.loopNorm_fine (Thread.setLoop_fine h)) fun _ => ?_
  refine iteInduction (fun _ => Thread.loopNorm_fine (Thread.setLoop_fine (Thread.setQueue_fine h))) fun _ => ?_
  split
  · exact Thread.setQueue_fine h
  · exact Thread.loopNorm_fine (Thread.setLoop_fine (Thread.setQueue_fine h))

theorem Thread.skipCapture_fine {t : Thread} {q : Sq} (h : Thread.Fine Q t) : Yields (Thread.Fine Q) (t.skipCapture q) := by
  unfold Thread.skipCapture
  dsimp only
  split
  · exact Yields.none
  · exact iteInduction (fun _ => yields_map_any fun _ => Thread.loopNorm_fine (Thread.setLoop_fine (Thread.setQueue_fine h))) fun _ =>
        Yields.none

/-! ### Tokens (R137 to R139, R266) -/

theorem Thread.popTokens_fine {t : Thread} {q : Sq} {tw : ℕ} (h : Thread.Fine Q t) : Thread.Fine Q (t.popTokens q tw) := by
  unfold Thread.popTokens
  exact iteInduction (fun _ => popTok_fine (iteInduction (fun _ => popTok_fine h) fun _ => h)) fun _ => iteInduction
      (fun _ => popTok_fine h) fun _ => h

theorem Thread.pushTokens_fine {t : Thread} {q : Sq} {ts : ℕ} (h : Thread.Fine Q t) : Fst (Thread.Fine Q) (t.pushTokens q ts) := by
  unfold Thread.pushTokens
  split
  next e4 =>
    have h5 := fst_of e4 (iteInduction (fun _ => pushTok_fine h) fun _ => h)
    exact iteInduction (motive := Thread.Fine Q) (fun _ => Thread.fine_set
        (iteInduction (motive := Fst (Thread.Fine Q)) (fun _ => pushTok_fine h5) fun _ => h5)) fun _ => iteInduction
        (motive := Fst (Thread.Fine Q)) (fun _ => pushTok_fine h5) fun _ => h5

/-! ### Permits (R224, R225) -/

theorem State.takePermit_fine {s : State} {k : ℕ} {q : Sq} {cls : ℕ} (h : State.Fine P Q s) : State.Fine P Q (s.takePermit k q cls) := by
  unfold State.takePermit
  exact State.modThread_fine (State.modCluster_fine h) fun _ h2 => h2

/-! ### Engine words -/

theorem Thread.record_fine {t : Thread} {q : Sq} {e : WinEntry} (h : Thread.Fine Q t) : Thread.Fine Q (t.record q e) := by
  unfold Thread.record
  dsimp only
  split
  · exact h
  · exact h
  · exact h
  · exact h

theorem State.countWhole_fine {s : State} {k : ℕ} {q : Sq} (h : State.Fine P Q s) : State.Fine P Q (s.countWhole k q) := by
  unfold State.countWhole
  exact iteInduction (fun _ => h) fun _ => State.modCluster_fine h

theorem State.touchLease_fine {s : State} {k : ℕ} (h : State.Fine P Q s) : State.Fine P Q (s.touchLease k) := by
  unfold State.touchLease
  exact iteInduction (fun _ => State.modCluster_fine h) fun _ => h

theorem State.finishWord_fine {s : State} {k : ℕ} {eng : Eng} {q : Sq} {u : QUnit} {ts : ℕ} {late : Option Cause} (h : State.Fine P Q s) :
    State.Fine P Q (s.finishWord k eng q u ts late) := by
  unfold State.finishWord
  dsimp only
  split
  · exact State.raiseAt_fine (State.setThread_fine h (iteInduction (motive := Fst (Thread.Fine Q)) (fun _ => State.thread_fine h)
        fun _ => Thread.pushTokens_fine (State.thread_fine h)))
  · exact State.raiseAt_fine (State.setThread_fine h (iteInduction (motive := Fst (Thread.Fine Q)) (fun _ => State.thread_fine h)
        fun _ => Thread.pushTokens_fine (State.thread_fine h)))
  · exact State.setThread_fine h (iteInduction (motive := Fst (Thread.Fine Q)) (fun _ => State.thread_fine h) fun _ =>
        Thread.pushTokens_fine (State.thread_fine h))

theorem Thread.beginUnit_fine {t : Thread} {cur : Cur} {w : W32} (h : Thread.Fine Q t) : Thread.Fine Q (t.beginUnit cur w) := by
  unfold Thread.beginUnit
  exact Thread.fine_set (Thread.putUnit_fine (Thread.popTokens_fine h))

theorem Thread.issuedUnit_fine {t : Thread} {cur : Cur} {w : W32} {r : EngRes} (h : Thread.Fine Q t) : Thread.Fine Q
    (t.issuedUnit cur w r) := by
  unfold Thread.issuedUnit
  extract_lets q u t1 t2 t3 lastRep t4 t5
  have h3 : Thread.Fine Q t3 := Thread.record_fine (Thread.setPhase_fine (Thread.setWait_fine (Thread.popTokens_fine h)))
  have h4 : Thread.Fine Q t4 := iteInduction (fun _ => Thread.fine_set h3) fun _ => h3
  have h5 : Thread.Fine Q t5 := iteInduction (fun _ => Thread.retire_fine h4) fun _ => Thread.putUnit_fine h4
  exact iteInduction (fun _ => Thread.fine_repState h5 fun q => Thread.repEnd_reserved (h5 q).2.2.2.2.2.1) fun _ => h5

theorem EngRes.issued_fine {r : EngRes} {k : ℕ} {eng : Eng} {cur : Cur} {w : W32} (h : EngRes.Fine P Q r) :
    State.Fine P Q (r.issued k eng cur w) := by
  unfold EngRes.issued
  extract_lets q u ts s1 s2 s3 t t1 s4
  have h2 : State.Fine P Q s2 := State.countWhole_fine (State.takePermit_fine (EngRes.s_fine h))
  have h3 : State.Fine P Q s3 := iteInduction (fun _ => State.touchLease_fine h2) fun _ => h2
  have ht : Thread.Fine Q t := Thread.issuedUnit_fine (State.thread_fine h3)
  have h4 : State.Fine P Q s4 := State.finishWord_fine (State.setThread_fine h3 (Thread.fine_set ht))
  exact iteInduction (fun _ => State.settleTrap_fine (State.setThread_fine h3 (Thread.pruneHist_fine (Thread.fine_set ht)))) fun _ =>
    State.settleTrap_fine (State.modThread_fine h4 fun _ ht => Thread.pruneHist_fine ht)

theorem State.issuing_fine {s : State} {c : Cur} (h : State.Fine P Q s) : State.Fine P Q (s.issuing c) := h

theorem EngRes.holding_fine {r : EngRes} {q : Sq} {t : Thread} (h : EngRes.Fine P Q r) : EngRes.Fine P Q (r.holding q t) := by
  unfold EngRes.holding
  exact iteInduction (fun _ => EngRes.fine_mk (EngRes.s_fine h)) fun _ => h

theorem issueUnit_fine {eng : Eng} {cur : Cur} {w : W32} {body : QUnit → State → M EngRes} {s : State}
    (h : ∀ u s, State.Fine P Q s → Gives (EngRes.Fine P Q) (body u s)) (hs : State.Fine P Q s) :
    Next (State.Fine P Q) (issueUnit eng cur w body s) := by
  unfold issueUnit
  extract_lets k t q u s1 stand
  have h1 : State.Fine P Q s1 := State.issuing_fine hs
  have ht : Thread.Fine Q t := State.th_fine hs
  have hstand : ∀ kd, Next (State.Fine P Q) (stand kd) := fun kd => by
    subst stand
    dsimp only
    split
    · exact .next (State.raiseAt_fine (State.setTh_fine h1 (Thread.setWait_fine ht)))
    · exact .next (State.setTh_fine h1 (Thread.standIn_fine ht))
  clear_value s1 stand t
  refine iteInduction (fun _ => hstand _) fun _ => iteInduction (fun _ => hstand _) fun _ => ?_
  split
  next e =>
    have h2 := EngRes.s_fine (ok_of e (h _ _ (State.borrow_fine h1)))
    refine iteInduction (fun _ => hstand _) fun _ => ?_
    split
    · exact .next (State.modThread_fine (State.giveBack_fine h2) fun _ ht =>
        have hb := iteInduction (fun _ => Thread.beginUnit_fine ht) fun _ => ht
        Thread.standIn_fine (Thread.setWait_fine (iteInduction (fun _ => Thread.pass_fine hb) fun _ => hb)))
    · exact .next (EngRes.issued_fine (EngRes.holding_fine (EngRes.fine_mk (State.giveBack_fine h2))))
  · exact .next (State.setTh_fine h1 (Thread.standIn_fine (Thread.pass_fine ht)))
  · exact hstand _
  · exact .next (State.setTh_fine (State.askPeer_fine h1) (Thread.standIn_fine (Thread.pass_fine ht)))
  · exact .next (State.setTh_fine (State.meetBursts_fine (State.meetLine_fine h1)) (Thread.standIn_fine (Thread.pass_fine ht)))
  · exact .next (State.raiseAt_fine h1)
  · exact .next (State.raiseAt_fine h1)

theorem State.resteerMismatch_fine {s : State} {k : ℕ} {w : W32} {pc : ℕ} (h : State.Fine P Q s) :
    State.Fine P Q (s.resteerMismatch k w pc) := by
  unfold State.resteerMismatch
  exact State.deliver_fine (State.faultEvent_fine h)

theorem engWord_fine {eng : Eng} {w : W32} {body : QUnit → State → M EngRes} {s : State}
    (h : ∀ (a : QUnit) (a_1 : State), State.Fine P Q a_1 → Gives (EngRes.Fine P Q) (body a a_1)) (hs : State.Fine P Q s) :
    Next (State.Fine P Q) (engWord eng w body s) := by
  unfold engWord
  split
  · exact issueUnit_fine (fun _ _ h6 => h _ _ h6) hs
  · dsimp only
    split
    · exact Next.next (State.setTh_fine hs (Thread.standIn_fine (State.th_fine hs)))
    next e15 =>
      have h16 := some_of e15 (Thread.steer_fine (State.th_fine hs))
      exact iteInduction (fun _ => Next.next (State.resteerMismatch_fine (State.setTh_fine hs (Thread.pastUnit_fine h16)))) fun _ =>
          iteInduction (fun _ => Next.next (State.setTh_fine hs (Thread.pastUnit_fine h16))) fun _ => iteInduction
          (fun _ => issueUnit_fine (fun _ _ h19 => h _ _ h19) (State.setTh_fine hs (Thread.pastUnit_fine h16))) fun _ => Next.next
          (State.setTh_fine hs (Thread.pastUnit_fine h16))

/-! ### Prefix words -/

theorem collectPrefix_fine {w : W32} {s : State} (h : State.Fine P Q s) : Next (State.Fine P Q) (collectPrefix w s) := by
  unfold collectPrefix
  dsimp only
  split
  · exact Next.next (State.raiseAt_fine h)
  · exact Next.next (State.setTh_fine h (Thread.fine_set (State.th_fine h)))

/-! ### Queue heads (R141, R143) -/

theorem State.queueArrive_fine {s : State} {k i : ℕ} (h : State.Fine P Q s) : State.Fine P Q (s.queueArrive k i) := by
  unfold State.queueArrive
  dsimp only
  split
  · exact h
  · exact iteInduction (fun _ => h) fun _ => State.settleTrap_fine (State.setThread_fine h (Thread.fine_set (State.thread_fine h)))

theorem Thread.sendQ_fine {t : Thread} {q : ℕ} {vals : List W} {seq : ℕ} (h : Thread.Fine Q t) : Thread.Fine Q (t.sendQ q vals seq) := h

/-! ### Engine words (R138, R317) -/

theorem State.wordFinish_fine {s : State} {k i : ℕ} (h : State.Fine P Q s) : State.Fine P Q (s.wordFinish k i) := by
  unfold State.wordFinish
  dsimp only
  split
  · exact h
  · exact iteInduction (fun _ => h) fun _ => State.settleTrap_fine
        (State.modThread_fine (State.finishWord_fine (State.setThread_fine h (Thread.fine_set (State.thread_fine h)))) fun _ h7 =>
        Thread.pruneHist_fine h7)

/-! ### Write-throughs (R110, R111, R118, R444) -/

theorem State.wtAcked_fine {s : State} {d i line : ℕ} (h : State.Fine P Q s) : State.Fine P Q (s.wtAcked d i line) := by
  unfold State.wtAcked
  exact foldl_each (R' := Task.Fine Q) (State.modDie_fine h fun d1 h2 => h2)
      (each_filter (State.tasks_fine (State.modDie_fine h fun d1 h2 => h2))) fun _ _ h5 _ => State.finishTask_fine h5

theorem State.writeThrough_fine {s : State} {d i : ℕ} (h : State.Fine P Q s) : State.Fine P Q (s.writeThrough d i) := by
  unfold State.writeThrough
  dsimp only
  split
  · exact h
  · refine iteInduction (fun _ => h) fun _ => ?_
    refine iteInduction (fun _ => State.snoopLine_fine h) fun _ => ?_
    split
    · exact h
    next e10 =>
      have h11 := some_of e10 (State.homeWrite_fine h)
      exact iteInduction (fun _ => State.modDie_fine h11 fun _ h13 => h13) fun _ => State.wtAcked_fine
          (iteInduction (fun _ => State.setPoison_fine h11) fun _ => h11)

theorem State.flushAck_fine {s : State} {k dest : ℕ} (h : State.Fine P Q s) : State.Fine P Q (s.flushAck k dest) := by
  unfold State.flushAck
  exact iteInduction (fun _ => h) fun _ => State.modThread_fine h fun _ h2 => h2

/-! ### Images (R93, R110, R126) -/

theorem Task.orFlags_fine {t : Task} {pos : ℕ} {f : W32} (h : Task.Fine Q t) : Task.Fine Q (t.orFlags pos f) := h

theorem State.leaveSaved_fine {s : State} {k state : ℕ} (h : State.Fine P Q s) : State.Fine P Q (s.leaveSaved k state) := by
  unfold State.leaveSaved
  dsimp only
  split
  · exact h
  · exact iteInduction (fun _ => State.refillReady_fine (State.modTask_fine
        (State.releasePlane_fine (State.modCluster_fine (State.modTask_fine h fun _ h8 => Task.fine_set (Task.orFlags_fine h8))))
        fun _ h10 => h10)) fun _ => State.releasePlane_fine
        (State.modCluster_fine (State.modTask_fine h fun _ h12 => Task.fine_set (Task.orFlags_fine h12)))

theorem State.imageEnds_fine {s : State} {d i : ℕ} {j : ImgJob} (h : State.Fine P Q s) (hj : ImgJob.Fine Q j) :
    State.Fine P Q (s.imageEnds d i j) := by
  have hd : State.Fine P Q (s.imageDone j) := State.imageDone_fine h
  have hi : Image.Fine Q j.img := ImgJob.img_fine hj
  have hw : ∀ c, Both (State.Fine P Q) (Image.Fine Q) (s.writeSaved c { j.img with done := true }) := fun _ =>
    State.writeSaved_fine h (Image.fine_set hi)
  unfold State.imageEnds
  dsimp only
  split
  · exact hd
  · refine State.modDie_fine (State.modCore_fine (State.modThread_fine (State.commitInstant_fine hd) fun _ ht => ?_) fun _ hx => ?_)
      fun _ hx => ?_
    · exact iteInduction (fun _ => Thread.fine_set (iteInduction (fun _ => ht) fun _ => ht)) fun _ => iteInduction (fun _ => ht) fun _ =>
          ht
    · exact Core.fine_mk (Core.imgA_fine hx) (Core.imgB_fine hx) (.some hi)
    · exact Die.fine_mk (each_append (each_take (Die.imgs_fine hx)) (each_cons (ImgJob.fine_mk hi) (each_drop (Die.imgs_fine hx))))
  · exact State.leaveSaved_fine (State.modTask_fine (hw _).1 fun _ hx =>
      Task.fine_mk (each_append (each_filter (Task.saved_fine hx)) (each_cons (hw _).2 each_nil)) (Task.origins_fine hx)
          (Task.kept_fine hx))
  · exact State.modCore_fine (State.modTask_fine (State.leaveSaved_fine hd) fun _ hx => hx) fun _ hc => hc
  · exact hd

theorem State.imageComplete_fine {s : State} {d i : ℕ} (h : State.Fine P Q s) : State.Fine P Q (s.imageComplete d i) := by
  unfold State.imageComplete
  dsimp only
  split
  · exact h
  next e5 =>
    have h6 := some_of e5 (yields_getElem (Die.imgs_fine (State.die_fine h)))
    exact iteInduction (fun _ => h) fun _ => State.nextImage_fine
        (State.imageEnds_fine (State.wearImage_fine (State.setDie_fine h
        (Die.fine_mk (each_eraseIdx (Die.imgs_fine (State.die_fine h)))))) h6)

theorem State.copyDone_fine {s : State} {d i : ℕ} (h : State.Fine P Q s) : State.Fine P Q (s.copyDone d i) := by
  unfold State.copyDone
  split
  · exact h
  · exact iteInduction (fun _ => State.imageComplete_fine h) fun _ => h

/-! ### Commits (R109, R110) -/

theorem Image.atCommit_fine {i : Image} {q : Sq} {ph : Phase} (h : Image.Fine Q i) : Image.Fine Q (i.atCommit q ph) := by
  unfold Image.atCommit
  exact Image.fine_mk (yields_map (Image.t_fine h) fun _ h2 => Thread.setPhase_fine h2)

theorem State.commitGo_fine {s : State} {q : Sq} (h : State.Fine P Q s) : Going.Fine P Q (s.commitGo q) := by
  unfold State.commitGo
  refine iteInduction (fun _ => ?_) fun _ => iteInduction (fun _ => Going.Fine.busy h) fun _ => Going.Fine.done h
  refine iteInduction (fun _ => Going.Fine.busy (State.setTh_fine h (Thread.setPhase_fine (State.th_fine h)))) fun _ => ?_
  dsimp only
  split
  · exact Going.Fine.done (State.setTh_fine h (Thread.setPhase_fine (State.th_fine h)))
  · exact Going.Fine.busy (State.modThread_fine (State.startImage_fine
        (State.modThread_fine (State.modTask_fine h fun _ h8 => Task.sealCommit_fine h8) fun _ h10 => h10)
        (Image.fine_set (Image.atCommit_fine (State.capture_fine
        (State.modThread_fine (State.modTask_fine h fun _ h12 => Task.sealCommit_fine h12) fun _ h14 => h14))))) fun _ h16 =>
        Thread.setPhase_fine h16)

theorem State.releaseGo_fine {s : State} {q : Sq} {scope : ℕ} (h : State.Fine P Q s) : Going.Fine P Q (s.releaseGo q scope) := by
  unfold State.releaseGo
  refine iteInduction (fun _ => iteInduction (fun _ => Going.Fine.done h) fun _ => Going.Fine.busy h) fun _ => ?_
  split
  next e4 =>
    have h5 := busy_of e4 (State.commitGo_fine h)
    exact Going.Fine.busy h5
  next e8 =>
    have h9 := done_of e8 (State.commitGo_fine h)
    exact iteInduction (fun _ => Going.Fine.busy h9) fun _ => iteInduction (fun _ => Going.Fine.done h9) fun _ => iteInduction
        (fun _ => Going.Fine.busy (State.modThread_fine h9 fun _ h11 => Thread.setPhase_fine h11)) fun _ => iteInduction
        (fun _ => Going.Fine.busy h9) fun _ => iteInduction (fun _ => Going.Fine.done h9) fun _ => iteInduction
        (fun _ => Going.Fine.busy h9) fun _ => Going.Fine.done h9

/-! ### Persist points (R84, R125 to R127) -/

theorem State.persistPoint_fine {s : State} {k scope : ℕ} (h : State.Fine P Q s) : State.Fine P Q (s.persistPoint k scope) := by
  unfold State.persistPoint
  split
  · exact h
  · exact State.startImage_fine (State.modThread_fine (State.modTask_fine h fun _ h8 => Task.seal_fine h8) fun _ h10 => h10)
        (State.capture_fine (State.modThread_fine (State.modTask_fine h fun _ h12 => Task.seal_fine h12) fun _ h14 => h14))

theorem State.takePending_fine {s0 : State} {k : ℕ} (h : State.Fine P Q s0) : State.Fine P Q (s0.takePending k) := by
  unfold State.takePending
  dsimp only
  split
  · exact h
  · refine iteInduction (fun _ => h) fun _ => ?_
    refine iteInduction (fun _ => ?_) fun _ => iteInduction (fun _ => State.persistPoint_fine (State.modThread_fine h fun _ h18 => h18))
        fun _ => h
    split
    next e9 =>
      have h10 := busy_of e9 (State.commitGo_fine (State.setThread_fine h (Thread.setPhase_fine (State.thread_fine h))))
      exact h10
    next e13 =>
      have h14 := done_of e13 (State.commitGo_fine (State.setThread_fine h (Thread.setPhase_fine (State.thread_fine h))))
      exact State.persistPoint_fine (State.modThread_fine h14 fun _ h16 => h16)

/-! ### Saves (R285, R318, R367, R394, R400, R434, R435) -/

theorem Thread.keepRepeat_fine {t : Thread} (h : Thread.Fine Q t) : Thread.Fine Q t.keepRepeat := by
  unfold Thread.keepRepeat
  exact iteInduction (fun _ => h) fun _ => Thread.fine_repState h fun _ => mkRepState_reserved _ _ _

theorem State.beginSave_fine {s : State} {k purpose : ℕ} {kind : ImgKind} {next : Thread → Thread} (h : State.Fine P Q s)
    (hnext : ∀ (a : Thread), Thread.Fine Q a → Thread.Fine Q (next a)) :
    State.Fine P Q (s.beginSave k purpose kind next) := by
  unfold State.beginSave
  split
  · exact h
  · exact State.modThread_fine (State.startImage_fine (State.modTask_fine
        (State.modThread_fine h fun _ h8 => Thread.fine_set (hnext _ h8)) fun _ h10 => Task.seal_fine h10)
        (State.capture_fine (State.modTask_fine (State.modThread_fine h fun _ h12 => Thread.fine_set (hnext _ h12)) fun _ h14 =>
        Task.seal_fine h14))) fun _ h16 => h16

theorem State.takeSave_fine {s : State} {k : ℕ} (h : State.Fine P Q s) : State.Fine P Q (s.takeSave k) := by
  unfold State.takeSave
  exact State.beginSave_fine h fun _ h2 => Thread.keepRepeat_fine h2

/-! ### The version (R84, R85, R126) -/

theorem Task.putLine_fine {t : Task} {line : ℕ} {dat : BitVec 512} {mask : BitVec 64} {swm : Bool} (h : Task.Fine Q t) :
    Task.Fine Q (t.putLine line dat mask swm) := by
  unfold Task.putLine
  exact iteInduction (fun _ => h) fun _ => h

theorem State.versionWrite_fine {s : State} {k : ℕ} {swm : Bool} {pa : ℕ} {data : List Byte} (h : State.Fine P Q s) :
    State.Fine P Q (s.versionWrite k swm pa data) := by
  unfold State.versionWrite
  exact foldl_fine h fun _ ⟨_, _, _⟩ h6 => State.modCluster_fine
      (State.modTask_fine (iteInduction (fun _ => h6) fun _ => State.llcRoom_fine h6) fun _ h8 => Task.putLine_fine h8)

/-! ### The control path (R104, R298) -/

theorem State.ctlPerform_fine {s : State} {k i : ℕ} (h : State.Fine P Q s) : State.Fine P Q (s.ctlPerform k i) := by
  unfold State.ctlPerform
  refine iteInduction (fun _ => h) fun _ => ?_
  split
  · exact h
  · refine iteInduction (fun _ => State.versionWrite_fine (State.modThread_fine h fun _ h8 => h8)) fun _ => ?_
    refine iteInduction (fun _ => State.modThread_fine (State.modThread_fine h fun _ h10 => h10) fun _ h12 => Thread.lateG_fine h12)
        fun _ => ?_
    split
    next e17 =>
      have h18 := ok_of e17 (State.loadBytes_fine h)
      exact iteInduction (fun _ => State.raiseAt_fine (State.modThread_fine h18 fun _ h20 => h20)) fun _ => State.modThread_fine
          (State.modThread_fine h18 fun _ h22 => h22) fun _ h24 => Thread.lateG_fine h24
    · exact State.askPeer_fine h
    · exact State.meetBursts_fine (State.meetLine_fine h)
    · exact h

/-! ### The once-only log (R113, R114) -/

theorem State.onceLog_fine {s : State} {k kind pa : ℕ} {ops : List ℕ} {ret : ℕ} (h : State.Fine P Q s) :
    State.Fine P Q (s.onceLog k kind pa ops ret) := by
  unfold State.onceLog
  exact State.modTask_fine h fun _ h2 => h2

theorem State.onceAt_fine {s : State} {k kind pa : ℕ} {ops : List ℕ} (h : State.Fine P Q s) :
    Gives (OnceAt.Fine P Q) (s.onceAt k kind pa ops) := by
  unfold State.onceAt
  split
  · exact Gives.ok OnceAt.Fine.fresh
  · split
    · exact iteInduction (fun _ => Gives.ok (OnceAt.Fine.replayed (State.onceLog_fine (State.modTask_fine h fun _ h12 => h12)))) fun _ =>
          Gives.error
    · exact iteInduction (fun _ => Gives.error) fun _ => Gives.ok (iteInduction (fun _ => OnceAt.Fine.full) fun _ => OnceAt.Fine.fresh)

/-! ### Atomic steps at home (R103, R117) -/

theorem State.atomicRead_fine {s : State} {pa n : ℕ} (h : State.Fine P Q s) : Gives (Fst (State.Fine P Q)) (s.atomicRead pa n) := by
  unfold State.atomicRead
  refine iteInduction (fun _ => Gives.error) fun _ => ?_
  refine gives_bind (State.unitBytes_fine h) fun ⟨_, _, _⟩ h5 => ?_
  split
  next e10 =>
    have h11 := fst_of e10 h5
    exact iteInduction (fun _ => Gives.error) fun _ => Gives.ok (State.renewLine_fine h11)

/-! ### Barrier objects (R122, R227) -/

theorem State.barAddAt_fine {s : State} {pa n : ℕ} (h : State.Fine P Q s) : State.Fine P Q (s.barAddAt pa n) := by
  unfold State.barAddAt
  exact State.atomicWrite_fine h

theorem State.barrierAdd_fine {s : State} {pa n : ℕ} (h : State.Fine P Q s) : State.Fine P Q (s.barrierAdd pa n) := by
  unfold State.barrierAdd
  refine iteInduction (fun _ => ?_) fun _ => State.barAddAt_fine h
  split
  · exact State.postPoison_fine (State.countErr_fine h)
  · exact State.postPoison_fine (State.countErr_fine h)
  · exact State.postPoison_fine (State.countErr_fine h)

/-! ### The scratchpad (R73 to R79) -/

theorem State.spadRead_fine {s : State} {k o n : ℕ} (h : State.Fine P Q s) : Gives (Fst (State.Fine P Q)) (s.spadRead k o n) := by
  unfold State.spadRead
  dsimp only
  split
  · exact Gives.error
  · exact gives_bind (R := State.Fine P Q) (iteInduction (fun _ => Gives.ok h) fun _ => State.symRead_fine h) fun _ h7 => Gives.ok h7

theorem State.touchGuard_fine {s : State} {core o n : ℕ} (h : State.Fine P Q s) : State.Fine P Q (s.touchGuard core o n) := by
  unfold State.touchGuard
  exact iteInduction (fun _ => State.setCluster_fine h) fun _ => h

theorem State.spadWrite_fine {s : State} {k o : ℕ} {data : List Byte} (h : State.Fine P Q s) : State.Fine P Q (s.spadWrite k o data) := by
  unfold State.spadWrite
  exact State.touchGuard_fine (iteInduction (fun _ => State.modCore_fine h fun _ h2 => h2) fun _ => foldl_fine
      (State.modCore_fine h fun _ h4 => h4) fun _ _ h7 => State.symWrite_fine h7)

/-! ### Queue heads (R37, R142, R145) -/

theorem State.consAdvance_fine {s : State} {k q n : ℕ} (h : State.Fine P Q s) : State.Fine P Q (s.consAdvance k q n) := by
  induction n generalizing s with
  | zero => exact h
  | succ n ih =>
    unfold State.consAdvance
    dsimp only
    split
    · exact h
    · exact iteInduction (fun _ => h) fun _ => ih (State.modThread_fine (State.atomicWrite_fine h) fun _ ht => ht)

theorem State.popQ_fine {s : State} {k q n : ℕ} (h : State.Fine P Q s) : Gives (Fst (State.Fine P Q)) (s.popQ k q n) := by
  unfold State.popQ
  exact gives_then fun _ => iteInduction (fun _ => Gives.error) fun _ => Gives.ok
      (State.consAdvance_fine (State.modThread_fine h fun _ h3 => h3))

/-! ### Time -/

theorem State.elapse_fine {dt : ℕ} {s0 : State} (h : State.Fine P Q s0) : State.Fine P Q (State.elapse dt s0) := by
  unfold State.elapse
  exact State.fine_thr (State.landHeld_fine h) (each_map (State.thr_fine (State.landHeld_fine h)) fun ⟨_, _⟩ h4 => iteInduction
      (motive := Thread.Fine Q) (fun _ => h4) fun _ => h4)

/-! ### Fetch (R259, R428) -/

theorem State.fetchAt_fine {s : State} {k pa0 : ℕ} (h : State.Fine P Q s) : Fst (State.Fine P Q) (s.fetchAt k pa0) := by
  unfold State.fetchAt
  refine iteInduction (fun _ => ?_) fun _ => ?_
  · split
    · exact h
    · exact h
  · split
    · exact State.readWaits_fine h
    next e11 =>
      have h12 := ok_of e11 (State.deviceRead_fine h)
      exact h12

theorem State.fetch_fine {s : State} {k : ℕ} (h : State.Fine P Q s) : Fst (State.Fine P Q) (s.fetch k) := by
  unfold State.fetch
  refine iteInduction (fun _ => h) fun _ => ?_
  split
  · exact State.fetchAt_fine (State.tlbFill_fine h)
  · split
    · exact State.readWaits_fine h
    next e11 =>
      have h12 := ok_of e11 (State.walkMeet_fine h)
      split
      · exact iteInduction (fun _ => State.fetchAt_fine (State.tlbFill_fine h12)) fun _ => State.armMonitor_fine (State.tlbFill_fine h12)
      · exact h12
      · exact State.armMonitor_fine h12
      · exact State.walkPoison_fine h12

/-! ### Errors of the core's own memories (R96, R99, R430) -/

theorem State.secdedHit_fine {s : State} {k : ℕ} (h : State.Fine P Q s) : Yields (State.Fine P Q) (s.secdedHit k) := by
  unfold State.secdedHit
  dsimp only
  split
  · exact Yields.none
  · refine iteInduction (fun _ => Yields.some (State.freeze_fine h)) fun _ => ?_
    refine iteInduction (fun _ => ?_) fun _ => Yields.some (State.raiseAt_fine h)
    refine Yields.some ?_
    refine State.modThread_fine h fun _ h7 => ?_
    split
    · exact h7
    · exact h7
    · exact h7

/-! ### What a turn comes to -/

theorem State.frozenHit_fine {s : State} {k : ℕ} (h : State.Fine P Q s) : State.Fine P Q (s.frozenHit k) := by
  unfold State.frozenHit
  split
  · exact h
  · exact State.freeze_fine h

theorem prepFetch_fine {k : ℕ} {s : State} (h : State.Fine P Q s) : Prep.Fine P Q (prepFetch k s) := by
  unfold prepFetch
  refine iteInduction (fun _ => Prep.Fine.move (State.takeSave_fine h)) fun _ => ?_
  refine iteInduction (fun _ => Prep.Fine.move (State.settleTrap_fine h)) fun _ => ?_
  refine iteInduction (fun _ => Prep.Fine.move (State.takePending_fine h)) fun _ => ?_
  refine iteInduction (fun _ => Prep.Fine.move (State.frozenHit_fine h)) fun _ => ?_
  split
  next e3 =>
    have h4 := some_of e3 (State.secdedHit_fine h)
    exact Prep.Fine.move h4
  · split
    next e9 =>
      have h10 := fst_of e9 (State.fetch_fine h)
      exact Prep.Fine.move h10
    next e14 =>
      have h15 := fst_of e14 (State.fetch_fine h)
      exact Prep.Fine.move (State.askPeer_fine h15)
    next e19 =>
      have h20 := fst_of e19 (State.fetch_fine h)
      exact Prep.Fine.move (State.raiseAt_fine h20)
    next e24 =>
      have h25 := fst_of e24 (State.fetch_fine h)
      refine iteInduction (fun _ => ?_) fun _ => ?_
      · split
        · exact Prep.Fine.run h25
        · exact Prep.Fine.move (State.raiseAt_fine h25)
      · split
        · exact Prep.Fine.move (State.raiseAt_fine h25)
        · refine iteInduction (fun _ => ?_) fun _ => ?_
          · refine Prep.Fine.move ?_
            refine State.setThread_fine h25 ?_
            exact Thread.fine_repState (Thread.pastUnit_fine (State.thread_fine h)) fun q =>
              Thread.repEnd_reserved (State.thread_fine h q).2.2.2.2.2.1
          · split
            · dsimp only
              split
              · exact Prep.Fine.run h25
              · exact Prep.Fine.move (State.raiseAt_fine h25)
            · dsimp only
              split
              · exact Prep.Fine.run h25
              · exact Prep.Fine.move (State.raiseAt_fine h25)
            · exact Prep.Fine.run h25

theorem prepSeq_fine {k : ℕ} {q : Sq} {s : State} (h : State.Fine P Q s) : Prep.Fine P Q (prepSeq k q s) := by
  unfold prepSeq
  refine iteInduction (fun _ => Prep.Fine.move h) fun _ => ?_
  split
  next e3 =>
    have h4 := some_of e3 (Thread.skipCapture_fine (State.thread_fine h))
    exact Prep.Fine.move (State.setThread_fine h h4)
  · split
    · refine iteInduction (fun _ => ?_) fun _ => Prep.Fine.move (State.settleTrap_fine h)
      split
      · exact Prep.Fine.run h
      · exact Prep.Fine.move (State.raiseAt_fine h)
    · split
      · exact iteInduction (fun _ => Prep.Fine.move (State.setThread_fine h (Thread.setQueue_fine (State.thread_fine h)))) fun _ =>
            Prep.Fine.move h
      · exact Prep.Fine.move (State.settleTrap_fine h)

theorem State.defaultEnd_fine {s : State} {k : ℕ} (h : State.Fine P Q s) : Yields (State.Fine P Q) (s.defaultEnd k) := by
  unfold State.defaultEnd
  exact iteInduction (fun _ => Yields.some (State.ctlPerform_fine h)) fun _ => iteInduction
      (fun _ => Yields.some (State.doSettle_fine h)) fun _ => iteInduction (fun _ => Yields.some (State.doWalkComplete_fine h)) fun _ =>
      iteInduction (fun _ => Yields.some (State.queueArrive_fine h)) fun _ => iteInduction
      (fun _ => Yields.some (State.wordFinish_fine h)) fun _ => Yields.none

theorem State.defaultLate_fine {s : State} {k : ℕ} (h : State.Fine P Q s) : Yields (State.Fine P Q) (s.defaultLate k) := by
  unfold State.defaultLate
  refine iteInduction (fun _ => Yields.some (State.writeThrough_fine h)) fun _ => ?_
  refine iteInduction (fun _ => Yields.some (State.imageComplete_fine h)) fun _ => ?_
  split
  · exact Yields.some (State.flushAck_fine h)
  · exact Yields.none

theorem prepDefault_fine {s : State} (h : State.Fine P Q s) : Prep.Fine P Q (prepDefault s) := by
  unfold prepDefault
  split
  · exact Prep.Fine.move h
  · dsimp only
    split
    next e8 =>
      have h9 := some_of e8 (State.defaultEnd_fine h)
      exact Prep.Fine.move h9
    · split
      · exact prepSeq_fine h
      · split
        next e19 =>
          have h20 := some_of e19 (iteInduction (fun _ => State.defaultLate_fine h) fun _ => Yields.none)
          exact Prep.Fine.move h20
        · split
          · exact prepSeq_fine h
          · exact prepFetch_fine h

theorem prepare_fine {s : State} (h : State.Fine P Q s) : Fst (Prep.Fine P Q) (prepare s) := by
  unfold prepare
  split
  · exact prepDefault_fine h
  · dsimp only
    split
    · exact prepFetch_fine h
    · exact prepSeq_fine h
    · exact Prep.Fine.run h

/-! ### Placing an instruction where the next step fetches it -/

theorem State.withThread_fine {s : State} (h : State.Fine P Q s) : State.Fine P Q s.withThread := by
  unfold State.withThread
  exact State.setThread_fine (State.modDie_fine (State.modCluster_fine
      (State.modCore_fine (State.fine_tasks h (each_append (State.tasks_fine h) (each_cons (Task.fine_set State.newTask_fine) each_nil)))
      fun _ h2 => h2)) fun _ h4 => h4) (Thread.fine_set Thread.blank_fine)

theorem State.placeWord_fine {s : State} {w : W32} (h : State.Fine P Q s) : State.Fine P Q (s.placeWord w) := by
  unfold State.placeWord
  dsimp only
  split
  · exact iteInduction (fun _ => h) fun _ => State.withThread_fine h
  · exact State.setThread_fine (State.fine_mem (iteInduction (fun _ => h) fun _ => State.withThread_fine h)
        (memPut_mem (State.mem_fine (iteInduction (fun _ => h) fun _ => State.withThread_fine h))))
        (Thread.fine_set (State.thread_fine (iteInduction (fun _ => h) fun _ => State.withThread_fine h)))

end Sys2Proof.Machine
end

section
/-! Reads and writes of CSRs, vector words and special functions keep the invariant (O5, O15). -/

namespace Sys2Proof.Machine

open Sys2Proof

variable {P Q : Prop}

/-! ### Control words -/

theorem ctlHandle_fine {t : Thread} {h : ℕ} (hs : Thread.Fine Q t) : Gives (Thread.Fine Q) (ctlHandle t h) := by
  unfold ctlHandle
  exact iteInduction (fun _ => Gives.error) fun _ => Gives.ok hs

theorem cmOfs_fine {s : State} {t : Thread} {k : BitVec 1} {o : BitVec 10} (ht : Thread.Fine Q t) :
    Gives (Snd (Thread.Fine Q)) (cmOfs s t k o) := by
  unfold cmOfs
  exact iteInduction (fun _ => Gives.ok ht) fun _ => gives_then fun _ => Gives.ok (freeG_fine ht)

/-! ### Engine words -/

theorem memX_fine {s : State} {t : Thread} {ld : Bool} {x : BitVec 3} {y : BitVec 1} {k : ℕ} (ht : Thread.Fine Q t) :
    Gives (Snd (Thread.Fine Q)) (memX s t ld x y k) := by
  unfold memX
  exact gives_then fun _ => Gives.ok (freeX_fine ht)

/-! ### Elements of queue heads, and ranges of the scratchpad, as engine words move them (R141, R142, R316) -/

theorem Thread.setDone_fine {t : Thread} {u : QUnit} {n : ℕ} (h : Thread.Fine Q t) : Thread.Fine Q (t.setDone u n) := h

theorem deliver_fine {s : State} {u : QUnit} {q : ℕ} {vals : List W} {done : State → EngRes} (h : State.Fine P Q s)
    (hdone : ∀ (a : State), State.Fine P Q a → EngRes.Fine P Q (done a)) :
    Gives (EngRes.Fine P Q) (deliver s u q vals done) := by
  unfold deliver
  exact iteInduction (fun _ => Gives.ok (hdone _ (State.setTh_fine h (Thread.setDone_fine (Thread.sendQ_fine (State.th_fine h))))))
      fun _ => iteInduction (fun _ => Gives.error) fun _ => Gives.ok
      (EngRes.fine_mk (State.setTh_fine h (Thread.setDone_fine (Thread.sendQ_fine (State.th_fine h)))))

theorem State.loadData_fine {s : State} {pa n : ℕ} {swm : Bool} (h : State.Fine P Q s) :
    Gives (Fst (State.Fine P Q)) (s.loadData pa n swm) := by
  unfold State.loadData
  refine gives_bind (State.loadBytes_fine h) fun ⟨_, _, _⟩ h5 => ?_
  split
  next e10 =>
    have h11 := fst_of e10 h5
    exact iteInduction (fun _ => Gives.error) fun _ => Gives.ok h11

theorem postInc_fine {t : Thread} {ld : Bool} {i : BitVec 1} {x : BitVec 3} {o n : ℕ} (h : Thread.Fine Q t) :
    Thread.Fine Q (postInc t ld i x o n) := by
  unfold postInc
  exact iteInduction (fun _ => wrX_fine h) fun _ => h

/-! ### Words that go on element by element (R324) -/

theorem runElems_fine {u : QUnit} {one : ℕ → State → Elem} {fin : State → EngRes} {n i : ℕ} {b : Bool} {s : State}
    (h : ∀ i s, State.Fine P Q s → Gives (Fst (State.Fine P Q)) (one i s)) (hfin : ∀ s, State.Fine P Q s → EngRes.Fine P Q (fin s))
    (hs : State.Fine P Q s) : Gives (EngRes.Fine P Q) (runElems u one fin n i b s) := by
  have hd : ∀ {s : State} i, State.Fine P Q s → State.Fine P Q (s.setTh (s.th.setDone u i)) := fun _ hs =>
    State.setTh_fine hs (Thread.setDone_fine (State.th_fine hs))
  induction n generalizing i b s with
  | zero => exact .ok (hfin _ (hd 0 hs))
  | succ n ih =>
    unfold runElems
    split
    next e => exact ih (ok_of (R := Fst (State.Fine P Q)) e (h i s hs))
    next e => exact .ok (EngRes.fine_mk (EngRes.s_fine (hfin _ (hd 0 (ok_of (R := Fst (State.Fine P Q)) e (h i s hs))))))
    · exact iteInduction (fun _ => .ok (EngRes.fine_mk (hd i hs))) fun _ => .error
    · exact iteInduction (fun _ => .ok (EngRes.fine_mk (hd i hs))) fun _ => .error
    · exact iteInduction (fun _ => .ok (EngRes.fine_mk (hd i hs))) fun _ => .error
    · exact .error

/-! ### Regions (R32, R33, R74, R235, R371) -/

theorem State.readElems_fine {s : State} {offs : List ℤ} {p : Span} (h : State.Fine P Q s) :
    Gives (Fst (State.Fine P Q)) (s.readElems offs p) := by
  unfold State.readElems
  refine gives_bind (R := State.Fine P Q) ?_ fun _ h14 => Gives.ok h14
  refine iteInduction (fun _ => Gives.ok h) fun _ => ?_
  refine foldlM_fine (R := State.Fine P Q) h fun _ _ h3 => ?_
  refine gives_bind (State.spadRead_fine h3) fun ⟨_, _⟩ h7 => ?_
  split
  next e11 =>
    have h12 := fst_of e11 h7
    exact Gives.ok h12

theorem State.writeElems_fine {s : State} {p : Span} {l : List ℤ} {l2 : List ℕ} (h : State.Fine P Q s) :
    State.Fine P Q (s.writeElems p l l2) := by
  induction l generalizing s l2 with
  | nil =>
    unfold State.writeElems
    exact h
  | cons o l ih =>
    unfold State.writeElems
    split
    · exact h
    · exact h
    next e =>
      cases e
      refine iteInduction (fun _ => ?_) fun _ => ih (State.spadWrite_fine h)
      split
      · exact State.spadWrite_fine h
      · exact ih (State.spadWrite_fine h)

theorem Thread.wrapOf_fine {t : Thread} {r : ℕ} {m : W} {wrap : Bool} (h : Thread.Fine Q t) :
    Fst (Thread.Fine Q) (t.wrapOf r m wrap) := by
  unfold Thread.wrapOf
  exact iteInduction (fun _ => wrM_fine h) fun _ => h

theorem Thread.postUpdate_fine {t : Thread} {r : ℕ} {a m : W} (h : Thread.Fine Q t) : Fst (Thread.Fine Q) (t.postUpdate r a m) := by
  unfold Thread.postUpdate
  split
  · split
    next e8 =>
      have h9 := fst_of e8 (Thread.wrapOf_fine h)
      exact h9
  · split
    next e17 =>
      have h18 := fst_of e17 (Thread.wrapOf_fine (wrA_fine h))
      exact h18

theorem Thread.postAll_fine {t : Thread} {l : List (ℕ × W × W)} (h : Thread.Fine Q t) : Fst (Thread.Fine Q) (t.postAll l) := by
  unfold Thread.postAll
  refine foldl_fine (R := Snd (Fst (Thread.Fine Q))) h fun ⟨_, _, _, _⟩ ⟨_, _, _⟩ h10 => ?_
  refine iteInduction (fun _ => h10) fun _ => ?_
  split
  next e15 =>
    have h16 := fst_of e15 (Thread.postUpdate_fine h10)
    exact h16

/-! ### Loops (R274, R320, R366, R388) -/

theorem loopBody_fine {q : Sq} {n : BitVec 6} {c : BitVec 2} {i : BitVec 11} {u : QUnit} {st : State} (h : State.Fine P Q st) :
    Gives (EngRes.Fine P Q) (loopBody q n c i u st) := by
  unfold loopBody
  exact gives_then fun _ => Gives.ok (EngRes.fine_mk (State.setTh_fine h (Thread.setLc_fine (State.th_fine h))))

/-! ### Reads (R38, R313) -/

theorem qpopBody_fine {d : BitVec 5} {q : ℕ} {st : State} (h : State.Fine P Q st) : Gives (CtlRes.Fine P Q) (qpopBody d q st) := by
  unfold qpopBody
  refine gives_then fun _ => ?_
  refine gives_bind (State.popQ_fine h) fun ⟨_, _⟩ h5 => ?_
  split
  next e9 =>
    have h10 := fst_of e9 h5
    exact Gives.ok (CtlRes.fine_mk (State.setTh_fine h10 (wrG_fine (State.th_fine h10))))

theorem rdcsrBody_fine {d : BitVec 5} {c : BitVec 12} {st : State} (h : State.Fine P Q st) :
    Gives (CtlRes.Fine P Q) (rdcsrBody d c st) := by
  unfold rdcsrBody
  refine iteInduction (fun _ => qpopBody_fine h) fun _ => ?_
  split
  · exact Gives.error
  · exact Gives.ok (CtlRes.fine_mk (State.setTh_fine h (wrG_fine (State.th_fine h))))

theorem execRdcsr_fine {d : BitVec 5} {c : BitVec 12} {st : State} (h : State.Fine P Q st) :
    Next (State.Fine P Q) (execRdcsr d c st) := by
  unfold execRdcsr
  exact ctl_fine (fun _ h2 => rdcsrBody_fine h2) h

theorem execQpopRead_fine {d : BitVec 5} {n : BitVec 4} {st : State} (h : State.Fine P Q st) :
    Next (State.Fine P Q) (execQpopRead d n st) := by
  unfold execQpopRead
  exact ctl_fine (fun _ h2 => qpopBody_fine h2) h

/-! ### Writes (R44, R314) -/

theorem csrBody_fine {op : CsrOp} {s : BitVec 5} {l : BitVec 1} {c : BitVec 12} {st : State} (h : State.Fine P Q st) :
    Gives (CtlRes.Fine P Q) (csrBody op s l c st) := by
  unfold csrBody
  refine gives_then fun v => ?_
  split
  · exact .error
  next ho =>
    refine iteInduction (fun _ => ?_) fun _ => gives_then fun _ => ?_
    · split
      · exact .error
      · exact .ok (CtlRes.fine_mk (State.setTh_fine (State.bmcReply_fine (State.fine_set h)) (freeG_fine (State.th_fine h))))
    · split
      · exact .error
      next hm =>
        refine gives_then fun _ => gives_require fun hl => ?_
        exact .ok (CtlRes.fine_mk (State.setTh_fine h
          (Thread.putCsr_fine (freeG_fine (State.th_fine h)) (State.thread_fine h) ho hm hl)))

theorem execWrcsr_fine {s : BitVec 5} {l : BitVec 1} {c : BitVec 12} {st : State} (h : State.Fine P Q st) :
    Next (State.Fine P Q) (execWrcsr s l c st) := by
  unfold execWrcsr
  exact ctl_fine (fun _ h2 => csrBody_fine h2) h

theorem execCsrs_fine {s : BitVec 5} {l : BitVec 1} {c : BitVec 12} {st : State} (h : State.Fine P Q st) :
    Next (State.Fine P Q) (execCsrs s l c st) := by
  unfold execCsrs
  exact ctl_fine (fun _ h2 => csrBody_fine h2) h

theorem execCsrc_fine {s : BitVec 5} {l : BitVec 1} {c : BitVec 12} {st : State} (h : State.Fine P Q st) :
    Next (State.Fine P Q) (execCsrc s l c st) := by
  unfold execCsrc
  exact ctl_fine (fun _ h2 => csrBody_fine h2) h

/-! ### The course of a vector or special-function word (R370 to R374) -/

theorem VSrc.free_fine {v : VSrc} {t : Thread} (h : Thread.Fine Q t) : Thread.Fine Q (v.free t) := by
  unfold VSrc.free
  split
  · exact freeA_fine h
  · exact h

theorem VSrc.read_fine {v : VSrc} {s : State} {r : Option VReg} (h : State.Fine P Q s) : Gives (Fst (State.Fine P Q)) (v.read s r) := by
  unfold VSrc.read
  split
  · refine gives_bind (State.popQ_fine h) fun ⟨_, _⟩ h8 => ?_
    split
    next e12 =>
      have h13 := fst_of e12 h8
      exact Gives.ok h13
  · exact State.readElems_fine h
  · exact Gives.ok h

theorem VWord.reads_fine {v : VWord} {o : VOps} {st : State} (hst : State.Fine P Q st) : Gives (Fst (State.Fine P Q)) (v.reads o st) := by
  unfold VWord.reads
  refine gives_bind (VSrc.read_fine hst) fun ⟨_, _⟩ h4 => ?_
  split
  next e8 =>
    have h9 := fst_of e8 h4
    refine gives_bind (R := Fst (State.Fine P Q)) ?_ fun ⟨_, _⟩ h18 => ?_
    · split
      · exact iteInduction (fun _ => State.readElems_fine h9) fun _ => Gives.ok h9
      · exact Gives.ok h9
    · split
      next e22 =>
        have h23 := fst_of e22 h18
        refine gives_bind (VSrc.read_fine h23) fun ⟨_, _⟩ h27 => ?_
        split
        next e31 =>
          have h32 := fst_of e31 h27
          exact Gives.ok h32

theorem VWord.finish_fine {v : VWord} {o : VOps} {res : List ℕ} {fl : Fl} {b : W32} {s : State} (h : VWord.Fine Q v)
    (hs : State.Fine P Q s) :
    EngRes.Fine P Q (v.finish o res fl b s) := by
  unfold VWord.finish
  refine EngRes.fine_mk ?_
  refine State.setTh_fine ?_ ?_
  · split
    · exact State.writeElems_fine hs
    · exact hs
  · refine VWord.post_fine h ?_
    refine iteInduction (motive := Fst (Thread.Fine Q)) (fun _ => ?_) fun _ => ?_
    · refine Thread.postAll_fine ?_
      split
      · refine Thread.fine_set ?_
        refine VSrc.free_fine ?_
        refine VSrc.free_fine ?_
        refine State.th_fine (P := P) ?_
        split
        · exact State.writeElems_fine hs
        · exact hs
      · refine wrS_fine ?_
        refine VSrc.free_fine ?_
        refine VSrc.free_fine ?_
        refine State.th_fine (P := P) ?_
        split
        · exact State.writeElems_fine hs
        · exact hs
    · split
      · refine Thread.fine_set ?_
        refine VSrc.free_fine ?_
        refine VSrc.free_fine ?_
        refine State.th_fine (P := P) ?_
        split
        · exact State.writeElems_fine hs
        · exact hs
      · refine wrS_fine ?_
        refine VSrc.free_fine ?_
        refine VSrc.free_fine ?_
        refine State.th_fine (P := P) ?_
        split
        · exact State.writeElems_fine hs
        · exact hs

theorem vecRun_fine {v : VWord} {f : VIn → List ℕ × Fl} {bnd : VIn → List ℕ → Fl → W32} {st : State} (h : VWord.Fine Q v)
    (hst : State.Fine P Q st) :
    Gives (EngRes.Fine P Q) (vecRun v f bnd st) := by
  unfold vecRun
  refine gives_then fun _ => ?_
  refine gives_bind (VWord.reads_fine hst) fun ⟨_, _⟩ h5 => ?_
  split
  next e9 =>
    have h10 := fst_of e9 h5
    exact Gives.ok (EngRes.fine_mk (EngRes.s_fine (VWord.finish_fine h h10)))

/-! ### Set-up (R35, R386, R387, R388) -/

theorem vsetcBody_fine {i : BitVec 10} {u : QUnit} {st : State} (h : State.Fine P Q st) : Gives (EngRes.Fine P Q) (vsetcBody i u st) := by
  unfold vsetcBody
  refine gives_require fun hn => ?_
  simp only [Bool.and_eq_true, bne_iff_ne, decide_eq_true_eq] at hn
  refine .ok (EngRes.fine_mk (State.setTh_fine h (Thread.fine_vc (State.th_fine h) fun _ e => hn.1 ?_)))
  have h1 := congrArg BitVec.toNat e
  rw [BitVec.toNat_ofNat, Nat.mod_eq_of_lt (by omega)] at h1
  exact h1

theorem execVsetc_fine {w e : BitVec 2} {i : BitVec 10} {st : State} (h : State.Fine P Q st) :
    Next (State.Fine P Q) (execVsetc w e i st) := by
  unfold execVsetc
  exact engWord_fine (fun _ _ h3 => vsetcBody_fine h3) h

theorem asetBody_fine {d : BitVec 4} {s : BitVec 3} {l z : BitVec 1} {_u : QUnit} {st : State} (h : State.Fine P Q st) :
    Gives (EngRes.Fine P Q) (asetBody d s l z _u st) := by
  unfold asetBody
  exact gives_then fun _ => gives_then fun _ => Gives.ok (EngRes.fine_mk
      (State.setTh_fine h (Thread.fine_set (wrA_fine (freeS_fine (State.th_fine h))))))

theorem execAset_fine {w e : BitVec 2} {d : BitVec 4} {s : BitVec 3} {l z : BitVec 1} {st : State} (h : State.Fine P Q st) :
    Next (State.Fine P Q) (execAset w e d s l z st) := by
  unfold execAset
  exact engWord_fine (fun _ _ h3 => asetBody_fine h3) h

theorem amodBody_fine {d : BitVec 4} {s : BitVec 3} {l : BitVec 1} {_u : QUnit} {st : State} (h : State.Fine P Q st) :
    Gives (EngRes.Fine P Q) (amodBody d s l _u st) := by
  unfold amodBody
  exact gives_then fun _ => gives_then fun _ => Gives.ok (EngRes.fine_mk (State.setTh_fine h (wrM_fine (freeS_fine (State.th_fine h)))))

theorem execAmod_fine {w e : BitVec 2} {d : BitVec 4} {s : BitVec 3} {l : BitVec 1} {st : State} (h : State.Fine P Q st) :
    Next (State.Fine P Q) (execAmod w e d s l st) := by
  unfold execAmod
  exact engWord_fine (fun _ _ h3 => amodBody_fine h3) h

theorem copyPair_fine {d s : ℕ} {l : BitVec 1} {n : ℤ} {st : State} (h : State.Fine P Q st) :
    Gives (EngRes.Fine P Q) (copyPair d s l n st) := by
  unfold copyPair
  exact gives_then fun _ => gives_then fun _ => gives_then fun _ => Gives.ok
      (EngRes.fine_mk (State.setTh_fine h (iteInduction (fun _ => wrM_fine (wrA_fine (freeA_fine (State.th_fine h)))) fun _ =>
      Thread.fine_set (wrM_fine (wrA_fine (freeA_fine (State.th_fine h)))))))

theorem execAstep_fine {w e : BitVec 2} {d s : BitVec 4} {l : BitVec 1} {i : BitVec 10} {st : State} (h : State.Fine P Q st) :
    Next (State.Fine P Q) (execAstep w e d s l i st) := by
  unfold execAstep
  exact engWord_fine (fun _ _ h3 => copyPair_fine h3) h

theorem amovBody_fine {d s : BitVec 4} {l : BitVec 1} {m : BitVec 2} {_u : QUnit} {st : State} (h : State.Fine P Q st) :
    Gives (EngRes.Fine P Q) (amovBody d s l m _u st) := by
  unfold amovBody
  exact iteInduction (fun _ => copyPair_fine h) fun _ => gives_then fun _ => Gives.ok
      (EngRes.fine_mk (State.setTh_fine h (wrS_fine (freeA_fine (State.th_fine h)))))

theorem execAmov_fine {w e : BitVec 2} {d s : BitVec 4} {l : BitVec 1} {m : BitVec 2} {st : State} (h : State.Fine P Q st) :
    Next (State.Fine P Q) (execAmov w e d s l m st) := by
  unfold execAmov
  exact engWord_fine (fun _ _ h3 => amovBody_fine h3) h

theorem vmovsBody_fine {d s : BitVec 4} {l q r : BitVec 1} {z : BitVec 2} {_u : QUnit} {st : State} (h : State.Fine P Q st) :
    Gives (EngRes.Fine P Q) (vmovsBody d s l q r z _u st) := by
  unfold vmovsBody
  refine iteInduction (fun _ => gives_then fun _ => gives_then fun _ => Gives.ok
      (EngRes.fine_mk (State.setTh_fine (State.writeElems_fine h)
      (Thread.fine_set (freeS_fine (State.th_fine (State.writeElems_fine h))))))) fun _ => ?_
  refine iteInduction (fun _ => ?_) fun _ => ?_
  · refine gives_then fun _ => ?_
    refine gives_bind (State.popQ_fine h) fun ⟨_, _⟩ h7 => ?_
    split
    next e11 =>
      have h12 := fst_of e11 h7
      exact Gives.ok (EngRes.fine_mk (State.setTh_fine h12 (wrS_fine (State.th_fine h12))))
  · refine gives_then fun _ => ?_
    refine gives_bind (State.readElems_fine h) fun ⟨_, _⟩ h17 => ?_
    split
    next e21 =>
      have h22 := fst_of e21 h17
      exact Gives.ok (EngRes.fine_mk (State.setTh_fine h22 (wrS_fine (freeA_fine (State.th_fine h22)))))

theorem execVmovs_fine {w e : BitVec 2} {d s : BitVec 4} {l q r : BitVec 1} {z : BitVec 2} {st : State} (h : State.Fine P Q st) :
    Next (State.Fine P Q) (execVmovs w e d s l q r z st) := by
  unfold execVmovs
  exact engWord_fine (fun _ _ h3 => vmovsBody_fine h3) h

theorem execVloop_fine {n : BitVec 6} {c : BitVec 2} {i : BitVec 11} {st : State} (h : State.Fine P Q st) :
    Next (State.Fine P Q) (execVloop n c i st) := by
  unfold execVloop
  exact engWord_fine (fun _ _ h3 => loopBody_fine h3) h

theorem execVnop_fine {w e : BitVec 2} {st : State} (h : State.Fine P Q st) : Next (State.Fine P Q) (execVnop w e st) := by
  unfold execVnop
  exact engWord_fine (fun _ _ h3 => Gives.ok (EngRes.fine_mk h3)) h

/-! ### Floating-point words (R376, R378, R379) -/

theorem vec2_fine {d s : BitVec 4} {l : BitVec 1} {t : BitVec 4} {m k p q : BitVec 1} {rd : Bool} {f : RMode → VIn → List ℕ × Fl}
    {bnd : RMode → VIn → List ℕ → W32} {_u : QUnit} {st : State} (h : State.Fine P Q st) :
    Gives (EngRes.Fine P Q) (vec2 d s l t m k p q rd f bnd _u st) := by
  unfold vec2
  exact vecRun_fine (VWord.fine_mk fun _ h2 => h2) h

theorem vec1_fine {d s : BitVec 4} {l k p q : BitVec 1} {f : RMode → VIn → List ℕ × Fl} {bnd : RMode → VIn → List ℕ → W32} {_u : QUnit}
    {st : State} (h : State.Fine P Q st) :
    Gives (EngRes.Fine P Q) (vec1 d s l k p q f bnd _u st) := by
  unfold vec1
  exact vecRun_fine (VWord.fine_mk fun _ h2 => h2) h

theorem vsclBody_fine {d s : BitVec 4} {l : BitVec 1} {t : BitVec 3} {m k p q : BitVec 1} {_u : QUnit} {st : State}
    (h : State.Fine P Q st) :
    Gives (EngRes.Fine P Q) (vsclBody d s l t m k p q _u st) := by
  unfold vsclBody
  exact gives_then fun _ => vecRun_fine (VWord.fine_mk fun _ h3 => freeS_fine h3) h

theorem execVadd_fine {w e : BitVec 2} {d s : BitVec 4} {l : BitVec 1} {t : BitVec 4} {u k p q : BitVec 1} {st : State}
    (h : State.Fine P Q st) :
    Next (State.Fine P Q) (execVadd w e d s l t u k p q st) := by
  unfold execVadd
  exact engWord_fine (fun _ _ h3 => vec2_fine h3) h

theorem execVsub_fine {w e : BitVec 2} {d s : BitVec 4} {l : BitVec 1} {t : BitVec 4} {u k p q : BitVec 1} {st : State}
    (h : State.Fine P Q st) :
    Next (State.Fine P Q) (execVsub w e d s l t u k p q st) := by
  unfold execVsub
  exact engWord_fine (fun _ _ h3 => vec2_fine h3) h

theorem execVmul_fine {w e : BitVec 2} {d s : BitVec 4} {l : BitVec 1} {t : BitVec 4} {u k p q : BitVec 1} {st : State}
    (h : State.Fine P Q st) :
    Next (State.Fine P Q) (execVmul w e d s l t u k p q st) := by
  unfold execVmul
  exact engWord_fine (fun _ _ h3 => vec2_fine h3) h

theorem execVfma_fine {w e : BitVec 2} {d s : BitVec 4} {l : BitVec 1} {t : BitVec 4} {u k p q : BitVec 1} {st : State}
    (h : State.Fine P Q st) :
    Next (State.Fine P Q) (execVfma w e d s l t u k p q st) := by
  unfold execVfma
  exact engWord_fine (fun _ _ h3 => vec2_fine h3) h

theorem execVmin_fine {w e : BitVec 2} {d s : BitVec 4} {l : BitVec 1} {t : BitVec 4} {u k p q : BitVec 1} {st : State}
    (h : State.Fine P Q st) :
    Next (State.Fine P Q) (execVmin w e d s l t u k p q st) := by
  unfold execVmin
  exact engWord_fine (fun _ _ h3 => vec2_fine h3) h

theorem execVmax_fine {w e : BitVec 2} {d s : BitVec 4} {l : BitVec 1} {t : BitVec 4} {u k p q : BitVec 1} {st : State}
    (h : State.Fine P Q st) :
    Next (State.Fine P Q) (execVmax w e d s l t u k p q st) := by
  unfold execVmax
  exact engWord_fine (fun _ _ h3 => vec2_fine h3) h

theorem execVabs_fine {w e : BitVec 2} {d s : BitVec 4} {l k p q : BitVec 1} {st : State} (h : State.Fine P Q st) :
    Next (State.Fine P Q) (execVabs w e d s l k p q st) := by
  unfold execVabs
  exact engWord_fine (fun _ _ h3 => vec1_fine h3) h

theorem execVneg_fine {w e : BitVec 2} {d s : BitVec 4} {l k p q : BitVec 1} {st : State} (h : State.Fine P Q st) :
    Next (State.Fine P Q) (execVneg w e d s l k p q st) := by
  unfold execVneg
  exact engWord_fine (fun _ _ h3 => vec1_fine h3) h

theorem execVscl_fine {w e : BitVec 2} {d s : BitVec 4} {l : BitVec 1} {t : BitVec 3} {u k p q : BitVec 1} {st : State}
    (h : State.Fine P Q st) :
    Next (State.Fine P Q) (execVscl w e d s l t u k p q st) := by
  unfold execVscl
  exact engWord_fine (fun _ _ h3 => vsclBody_fine h3) h

theorem execVcmp_fine {w e : BitVec 2} {d s : BitVec 4} {l : BitVec 1} {t : BitVec 4} {u k p q : BitVec 1} {v : BitVec 2} {st : State}
    (h : State.Fine P Q st) :
    Next (State.Fine P Q) (execVcmp w e d s l t u k p q v st) := by
  unfold execVcmp
  exact engWord_fine (fun _ _ h3 => vec2_fine h3) h

theorem execVselm_fine {w e : BitVec 2} {d s : BitVec 4} {l : BitVec 1} {t : BitVec 4} {u k p q : BitVec 1} {st : State}
    (h : State.Fine P Q st) :
    Next (State.Fine P Q) (execVselm w e d s l t u k p q st) := by
  unfold execVselm
  exact engWord_fine (fun _ _ h3 => vec2_fine h3) h

/-! ### Integer and bitwise words (R377) -/

theorem vintBody_fine {op : VInt} {d s : BitVec 4} {l : BitVec 1} {t : BitVec 4} {m k p q byte : BitVec 1} {sat : Bool} {_u : QUnit}
    {st : State} (h : State.Fine P Q st) :
    Gives (EngRes.Fine P Q) (vintBody op d s l t m k p q byte sat _u st) := by
  unfold vintBody
  exact vecRun_fine (VWord.fine_mk fun _ h2 => h2) h

theorem execViadd_fine {w e : BitVec 2} {d s : BitVec 4} {l : BitVec 1} {t : BitVec 4} {u k p q : BitVec 1} {v : BitVec 2} {st : State}
    (h : State.Fine P Q st) :
    Next (State.Fine P Q) (execViadd w e d s l t u k p q v st) := by
  unfold execViadd
  exact engWord_fine (fun _ _ h3 => vintBody_fine h3) h

theorem execVisub_fine {w e : BitVec 2} {d s : BitVec 4} {l : BitVec 1} {t : BitVec 4} {u k p q : BitVec 1} {v : BitVec 2} {st : State}
    (h : State.Fine P Q st) :
    Next (State.Fine P Q) (execVisub w e d s l t u k p q v st) := by
  unfold execVisub
  exact engWord_fine (fun _ _ h3 => vintBody_fine h3) h

theorem execVimul_fine {w e : BitVec 2} {d s : BitVec 4} {l : BitVec 1} {t : BitVec 4} {u k p q : BitVec 1} {v : BitVec 2} {st : State}
    (h : State.Fine P Q st) :
    Next (State.Fine P Q) (execVimul w e d s l t u k p q v st) := by
  unfold execVimul
  exact engWord_fine (fun _ _ h3 => vintBody_fine h3) h

theorem execVimin_fine {w e : BitVec 2} {d s : BitVec 4} {l : BitVec 1} {t : BitVec 4} {u k p q : BitVec 1} {v : BitVec 2} {st : State}
    (h : State.Fine P Q st) :
    Next (State.Fine P Q) (execVimin w e d s l t u k p q v st) := by
  unfold execVimin
  exact engWord_fine (fun _ _ h3 => vintBody_fine h3) h

theorem execVimax_fine {w e : BitVec 2} {d s : BitVec 4} {l : BitVec 1} {t : BitVec 4} {u k p q : BitVec 1} {v : BitVec 2} {st : State}
    (h : State.Fine P Q st) :
    Next (State.Fine P Q) (execVimax w e d s l t u k p q v st) := by
  unfold execVimax
  exact engWord_fine (fun _ _ h3 => vintBody_fine h3) h

theorem execVand_fine {w e : BitVec 2} {d s : BitVec 4} {l : BitVec 1} {t : BitVec 4} {u k p q v : BitVec 1} {st : State}
    (h : State.Fine P Q st) :
    Next (State.Fine P Q) (execVand w e d s l t u k p q v st) := by
  unfold execVand
  exact engWord_fine (fun _ _ h3 => vintBody_fine h3) h

theorem execVor_fine {w e : BitVec 2} {d s : BitVec 4} {l : BitVec 1} {t : BitVec 4} {u k p q v : BitVec 1} {st : State}
    (h : State.Fine P Q st) :
    Next (State.Fine P Q) (execVor w e d s l t u k p q v st) := by
  unfold execVor
  exact engWord_fine (fun _ _ h3 => vintBody_fine h3) h

theorem execVxor_fine {w e : BitVec 2} {d s : BitVec 4} {l : BitVec 1} {t : BitVec 4} {u k p q v : BitVec 1} {st : State}
    (h : State.Fine P Q st) :
    Next (State.Fine P Q) (execVxor w e d s l t u k p q v st) := by
  unfold execVxor
  exact engWord_fine (fun _ _ h3 => vintBody_fine h3) h

theorem execVshl_fine {w e : BitVec 2} {d s : BitVec 4} {l : BitVec 1} {t : BitVec 4} {u k p q v : BitVec 1} {st : State}
    (h : State.Fine P Q st) :
    Next (State.Fine P Q) (execVshl w e d s l t u k p q v st) := by
  unfold execVshl
  exact engWord_fine (fun _ _ h3 => vintBody_fine h3) h

theorem execVshr_fine {w e : BitVec 2} {d s : BitVec 4} {l : BitVec 1} {t : BitVec 4} {u k p q v : BitVec 1} {st : State}
    (h : State.Fine P Q st) :
    Next (State.Fine P Q) (execVshr w e d s l t u k p q v st) := by
  unfold execVshr
  exact engWord_fine (fun _ _ h3 => vintBody_fine h3) h

theorem execVsar_fine {w e : BitVec 2} {d s : BitVec 4} {l : BitVec 1} {t : BitVec 4} {u k p q v : BitVec 1} {st : State}
    (h : State.Fine P Q st) :
    Next (State.Fine P Q) (execVsar w e d s l t u k p q v st) := by
  unfold execVsar
  exact engWord_fine (fun _ _ h3 => vintBody_fine h3) h

/-! ### Reductions (R253, R380) -/

theorem reduceBody_fine {d : BitVec 4} {s1 s2 : ℕ → VSrc} {k p v : BitVec 1} {f : RMode → VIn → ℕ × Fl} {bnd : RMode → VIn → W32}
    {_u : QUnit} {st : State} (h : State.Fine P Q st) :
    Gives (EngRes.Fine P Q) (reduceBody d s1 s2 k p v f bnd _u st) := by
  unfold reduceBody
  exact vecRun_fine (VWord.fine_mk fun _ h2 => h2) h

theorem execVrsum_fine {w e : BitVec 2} {d s : BitVec 4} {l k p q v : BitVec 1} {st : State} (h : State.Fine P Q st) :
    Next (State.Fine P Q) (execVrsum w e d s l k p q v st) := by
  unfold execVrsum
  exact engWord_fine (fun _ _ h3 => reduceBody_fine h3) h

theorem execVrmax_fine {w e : BitVec 2} {d s : BitVec 4} {l k p q v : BitVec 1} {st : State} (h : State.Fine P Q st) :
    Next (State.Fine P Q) (execVrmax w e d s l k p q v st) := by
  unfold execVrmax
  exact engWord_fine (fun _ _ h3 => reduceBody_fine h3) h

theorem execVrmin_fine {w e : BitVec 2} {d s : BitVec 4} {l k p q v : BitVec 1} {st : State} (h : State.Fine P Q st) :
    Next (State.Fine P Q) (execVrmin w e d s l k p q v st) := by
  unfold execVrmin
  exact engWord_fine (fun _ _ h3 => reduceBody_fine h3) h

theorem execVdot_fine {w e : BitVec 2} {d s : BitVec 4} {l : BitVec 1} {t : BitVec 4} {u k p q v : BitVec 1} {st : State}
    (h : State.Fine P Q st) :
    Next (State.Fine P Q) (execVdot w e d s l t u k p q v st) := by
  unfold execVdot
  exact engWord_fine (fun _ _ h3 => reduceBody_fine h3) h

/-! ### Conversions (R381, R382) -/

theorem cvBody_fine {op : VCv} {d s : BitVec 4} {l : BitVec 1} {t : BitVec 2} {m k p q : BitVec 1} {_u : QUnit} {st : State}
    (h : State.Fine P Q st) :
    Gives (EngRes.Fine P Q) (cvBody op d s l t m k p q _u st) := by
  unfold cvBody
  refine gives_then fun _ => gives_then fun _ => ?_
  split
  · exact Gives.error
  · exact vecRun_fine (VWord.fine_mk fun _ h9 => freeS_fine h9) h

theorem execVcvt_fine {w e : BitVec 2} {d s : BitVec 4} {l : BitVec 1} {t : BitVec 2} {u k p q : BitVec 1} {st : State}
    (h : State.Fine P Q st) :
    Next (State.Fine P Q) (execVcvt w e d s l t u k p q st) := by
  unfold execVcvt
  exact engWord_fine (fun _ _ h3 => cvBody_fine h3) h

theorem execVqnt_fine {w e : BitVec 2} {d s : BitVec 4} {l : BitVec 1} {t : BitVec 2} {u k p q : BitVec 1} {st : State}
    (h : State.Fine P Q st) :
    Next (State.Fine P Q) (execVqnt w e d s l t u k p q st) := by
  unfold execVqnt
  exact engWord_fine (fun _ _ h3 => cvBody_fine h3) h

theorem execVdqnt_fine {w e : BitVec 2} {d s : BitVec 4} {l : BitVec 1} {t : BitVec 2} {u k p q : BitVec 1} {st : State}
    (h : State.Fine P Q st) :
    Next (State.Fine P Q) (execVdqnt w e d s l t u k p q st) := by
  unfold execVdqnt
  exact engWord_fine (fun _ _ h3 => cvBody_fine h3) h

/-! ### Data movement (R383) -/

theorem execVcopy_fine {w e : BitVec 2} {d s : BitVec 4} {l k p q : BitVec 1} {v : BitVec 2} {st : State} (h : State.Fine P Q st) :
    Next (State.Fine P Q) (execVcopy w e d s l k p q v st) := by
  unfold execVcopy
  exact engWord_fine (fun _ _ h3 => vecRun_fine (VWord.fine_mk fun _ h5 => h5) h3) h

theorem execVbcast_fine {w e : BitVec 2} {d s : BitVec 4} {l k p : BitVec 1} {v : BitVec 2} {st : State} (h : State.Fine P Q st) :
    Next (State.Fine P Q) (execVbcast w e d s l k p v st) := by
  unfold execVbcast
  exact engWord_fine (fun _ _ h3 => vecRun_fine (VWord.fine_mk fun _ h5 => h5) h3) h

theorem moveEnd_fine {s : State} {d : ℕ} {k u : BitVec 1} {e1 : W32} {regs : List (ℕ × W × W)} {free : Thread → Thread}
    (h : State.Fine P Q s) (hfree : ∀ (a : Thread), Thread.Fine Q a → Thread.Fine Q (free a)) :
    EngRes.Fine P Q (moveEnd s d k u e1 regs free) := by
  unfold moveEnd
  exact EngRes.fine_mk (State.setTh_fine h (iteInduction (motive := Fst (Thread.Fine Q))
      (fun _ => Thread.postAll_fine (Thread.fine_set (hfree _ (State.th_fine h)))) fun _ => Thread.fine_set (hfree _ (State.th_fine h))))

theorem EngRes.moved_fine {r : EngRes} {src dst : List ℤ} {e : ℕ} (h : EngRes.Fine P Q r) : EngRes.Fine P Q (r.moved src dst e) := by
  unfold EngRes.moved
  exact EngRes.fine_mk (EngRes.s_fine h)

theorem vtrnBody_fine {d s : BitVec 4} {l : BitVec 1} {t : BitVec 3} {m k p : BitVec 1} {v : BitVec 2} {_u : QUnit} {st : State}
    (h : State.Fine P Q st) :
    Gives (EngRes.Fine P Q) (vtrnBody d s l t m k p v _u st) := by
  unfold vtrnBody
  refine gives_then fun _ => gives_then fun _ => gives_then fun _ => ?_
  refine gives_then fun ⟨_, _⟩ => ?_
  split
  · refine gives_then fun _ => ?_
    refine gives_then fun ⟨_, _⟩ => ?_
    split
    · refine gives_then fun _ => ?_
      refine gives_bind (State.readElems_fine h) fun ⟨_, _⟩ h23 => ?_
      split
      next e27 =>
        have h28 := fst_of e27 h23
        exact Gives.ok (EngRes.moved_fine (EngRes.fine_mk (EngRes.s_fine
            (moveEnd_fine (State.writeElems_fine h28) fun _ h30 => freeS_fine (freeA_fine h30)))))

theorem execVtrn_fine {w e : BitVec 2} {d s : BitVec 4} {l : BitVec 1} {t : BitVec 3} {u k p : BitVec 1} {v : BitVec 2} {st : State}
    (h : State.Fine P Q st) :
    Next (State.Fine P Q) (execVtrn w e d s l t u k p v st) := by
  unfold execVtrn
  exact engWord_fine (fun _ _ h3 => vtrnBody_fine h3) h

theorem vgathBody_fine {d s : BitVec 4} {l : BitVec 1} {t : BitVec 4} {m k p : BitVec 1} {v : BitVec 2} {_u : QUnit} {st : State}
    (h : State.Fine P Q st) :
    Gives (EngRes.Fine P Q) (vgathBody d s l t m k p v _u st) := by
  unfold vgathBody
  refine gives_then fun _ => gives_then fun _ => ?_
  refine gives_then fun ⟨_, _⟩ => ?_
  split
  · refine gives_then fun _ => gives_then fun _ => ?_
    refine gives_bind (State.readElems_fine h) fun ⟨_, _⟩ h15 => ?_
    split
    next e19 =>
      have h20 := fst_of e19 h15
      refine gives_then fun _ => ?_
      refine gives_bind (State.readElems_fine h20) fun ⟨_, _⟩ h25 => ?_
      split
      next e29 =>
        have h30 := fst_of e29 h25
        exact Gives.ok (EngRes.moved_fine (EngRes.fine_mk (EngRes.s_fine
            (moveEnd_fine (State.writeElems_fine h30) fun _ h32 => freeA_fine (freeA_fine h32)))))

theorem execVgath_fine {w e : BitVec 2} {d s : BitVec 4} {l : BitVec 1} {t : BitVec 4} {u k p : BitVec 1} {v : BitVec 2} {st : State}
    (h : State.Fine P Q st) :
    Next (State.Fine P Q) (execVgath w e d s l t u k p v st) := by
  unfold execVgath
  exact engWord_fine (fun _ _ h3 => vgathBody_fine h3) h

theorem vscatBody_fine {d s : BitVec 4} {l : BitVec 1} {t : BitVec 4} {m k p q : BitVec 1} {v : BitVec 2} {_u : QUnit} {st : State}
    (h : State.Fine P Q st) : Gives (EngRes.Fine P Q) (vscatBody d s l t m k p q v _u st) := by
  unfold vscatBody
  dsimp only
  split
  all_goals
    refine gives_then fun _ => gives_then fun ⟨_, _⟩ => gives_then fun _ => gives_then fun _ => gives_then fun _ => gives_then fun _ => ?_
    refine gives_bind (State.readElems_fine h) fun ⟨_, _⟩ h1 => gives_then fun _ => gives_bind (VSrc.read_fine h1) fun ⟨_, _⟩ h2 => ?_
    exact .ok (EngRes.moved_fine (EngRes.fine_mk (EngRes.s_fine
      (moveEnd_fine (State.writeElems_fine h2) fun _ ht => freeA_fine (VSrc.free_fine ht)))))

theorem execVscat_fine {w e : BitVec 2} {d s : BitVec 4} {l : BitVec 1} {t : BitVec 4} {u k p q : BitVec 1} {v : BitVec 2} {st : State}
    (h : State.Fine P Q st) :
    Next (State.Fine P Q) (execVscat w e d s l t u k p q v st) := by
  unfold execVscat
  exact engWord_fine (fun _ _ h3 => vscatBody_fine h3) h

/-! ### Random numbers and dropout (R256, R257, R384, R385) -/

theorem vrandBody_fine {d : BitVec 4} {t : BitVec 3} {m k p v : BitVec 1} {_u : QUnit} {st : State} (h : State.Fine P Q st) :
    Gives (EngRes.Fine P Q) (vrandBody d t m k p v _u st) := by
  unfold vrandBody
  exact gives_then fun _ => vecRun_fine (VWord.fine_mk fun _ h3 => freeS_fine h3) h

theorem execVrand_fine {w e : BitVec 2} {d : BitVec 4} {t : BitVec 3} {u k p v : BitVec 1} {st : State} (h : State.Fine P Q st) :
    Next (State.Fine P Q) (execVrand w e d t u k p v st) := by
  unfold execVrand
  exact engWord_fine (fun _ _ h3 => vrandBody_fine h3) h

theorem vdropBody_fine {d s : BitVec 4} {l : BitVec 1} {t : BitVec 2} {m k p q : BitVec 1} {_u : QUnit} {st : State}
    (h : State.Fine P Q st) :
    Gives (EngRes.Fine P Q) (vdropBody d s l t m k p q _u st) := by
  unfold vdropBody
  exact gives_then fun _ => gives_then fun _ => vecRun_fine (VWord.fine_mk fun _ h4 => freeS_fine h4) h

theorem execVdrop_fine {w e : BitVec 2} {d s : BitVec 4} {l : BitVec 1} {t : BitVec 2} {u k p q : BitVec 1} {st : State}
    (h : State.Fine P Q st) :
    Next (State.Fine P Q) (execVdrop w e d s l t u k p q st) := by
  unfold execVdrop
  exact engWord_fine (fun _ _ h3 => vdropBody_fine h3) h

end Sys2Proof.Machine
end

section
/-! Matrix words keep the invariant (O5, O15). -/

namespace Sys2Proof.Machine

open Sys2Proof

variable {P Q : Prop}

/-! ### The lease (R344, R345) -/

theorem arrayBody_fine {f : QUnit → State → M EngRes} {u : QUnit} {s : State}
    (h : ∀ (a : QUnit) (a_1 : State), State.Fine P Q a_1 → Gives (EngRes.Fine P Q) (f a a_1)) (hs : State.Fine P Q s) :
    Gives (EngRes.Fine P Q) (arrayBody f u s) := by
  unfold arrayBody
  exact gives_then fun _ => iteInduction (fun _ => Gives.ok (EngRes.fine_mk (State.leaseWait_fine hs))) fun _ => gives_bind
      (R := EngRes.Fine P Q) (h _ _ hs) fun _ h3 => iteInduction (fun _ => Gives.ok h3) fun _ => Gives.ok
      (EngRes.fine_mk (State.leaseRotate_fine (State.modCluster_fine (EngRes.s_fine h3))))

theorem leaseBody_fine {u : QUnit} {s : State} (h : State.Fine P Q s) : Gives (EngRes.Fine P Q) (leaseBody u s) := by
  unfold leaseBody
  exact iteInduction (fun _ => Gives.ok (EngRes.fine_mk h)) fun _ => iteInduction
      (fun _ => Gives.ok (EngRes.fine_mk (State.setTh_fine
      (State.leaseWait_fine (State.setTh_fine h (Thread.fine_set (State.th_fine h))))
      (Thread.setDone_fine (State.th_fine (State.leaseWait_fine (State.setTh_fine h (Thread.fine_set (State.th_fine h))))))))) fun _ =>
      Gives.ok (EngRes.fine_mk (State.setTh_fine (State.leaseWait_fine (State.setTh_fine h (Thread.fine_set (State.th_fine h))))
      (Thread.setDone_fine (State.th_fine (State.leaseWait_fine (State.setTh_fine h (Thread.fine_set (State.th_fine h))))))))

theorem unleaseBody_fine {_u : QUnit} {s : State} (h : State.Fine P Q s) : Gives (EngRes.Fine P Q) (unleaseBody _u s) := by
  unfold unleaseBody
  exact iteInduction (fun _ => Gives.ok (EngRes.fine_mk h)) fun _ => Gives.ok
      (EngRes.fine_mk (State.leaseRotate_fine (State.modCluster_fine (State.setTh_fine h (Thread.fine_set (State.th_fine h))))))

theorem execLease_fine {w e : BitVec 2} {st : State} (h : State.Fine P Q st) : Next (State.Fine P Q) (execLease w e st) := by
  unfold execLease
  exact engWord_fine (fun _ _ h3 => leaseBody_fine h3) h

theorem execUnlease_fine {w e : BitVec 2} {st : State} (h : State.Fine P Q st) : Next (State.Fine P Q) (execUnlease w e st) := by
  unfold execUnlease
  exact engWord_fine (fun _ _ h3 => unleaseBody_fine h3) h

/-! ### Errors of the accumulator memory and the B-store (R360, R430) -/

theorem State.absorbLatent_fine {s : State} {l : Latent} {die : ℕ} (h : State.Fine P Q s) : State.Fine P Q (s.absorbLatent l die) := by
  unfold State.absorbLatent
  split
  · exact State.fine_set (State.postPoison_fine (State.countErr_fine h))

/-! ### What an MMA does (R353) -/

theorem State.mmaApply_fine {s : State} {k : ℕ} {p : MmaArgs} (h : State.Fine P Q s) : State.Fine P Q (s.mmaApply k p) := by
  unfold State.mmaApply
  exact State.modThread_fine (State.setCluster_fine h) fun _ h2 => h2

/-! ### Tile replay and AUTO re-issue (R358, R359) -/

theorem State.reissue_fine {s : State} {k acc : ℕ} {e : WinEntry} (h : State.Fine P Q s) : State.Fine P Q (s.reissue k acc e) := by
  unfold State.reissue
  dsimp only
  split
  · exact State.modCluster_fine h
  · exact State.modCluster_fine h
  · exact State.mmaApply_fine h
  · exact h

theorem State.resetTile_fine {s : State} {k acc : ℕ} {auto : Bool} (h : State.Fine P Q s) : State.Fine P Q (s.resetTile k acc auto) := by
  unfold State.resetTile
  exact State.modCluster_fine h

theorem State.startReplay_fine {s : State} {k acc : ℕ} {auto : Bool} (h : State.Fine P Q s) :
    Gives (State.Fine P Q) (s.startReplay k acc auto) := by
  unfold State.startReplay
  exact gives_then fun _ => gives_then fun _ => Gives.ok (State.modThread_fine (State.resetTile_fine h) fun _ h4 => h4)

theorem State.replayNext_fine {s : State} {k : ℕ} (h : State.Fine P Q s) : Gives (Yields (State.Fine P Q)) (s.replayNext k) := by
  unfold State.replayNext
  split
  · exact Gives.ok Yields.none
  · split
    · exact Gives.ok Yields.none
    · exact gives_then fun _ => Gives.ok (Yields.some (State.modThread_fine (State.takePermit_fine (State.reissue_fine h)) fun _ h14 =>
          h14))

theorem State.replayOver_fine {s : State} {k : ℕ} (h : State.Fine P Q s) : State.Fine P Q (s.replayOver k) := by
  unfold State.replayOver
  exact State.modThread_fine h fun _ h2 => h2

theorem State.accRead_fine {s : State} {k n : ℕ} (h : State.Fine P Q s) : Gives (Fst (State.Fine P Q)) (s.accRead k n) := by
  unfold State.accRead
  refine iteInduction (fun _ => Gives.ok h) fun _ => ?_
  dsimp only
  split
  · exact gives_then fun _ => gives_bind (State.startReplay_fine (State.absorbLatent_fine h)) fun _ h6 => Gives.ok h6
  · exact gives_bind (R := State.Fine P Q) (foldlM_fine (R := State.Fine P Q) h fun _ _ h11 => State.symRead_fine h11) fun _ h13 =>
        Gives.ok h13

/-! ### Tiles (R347 to R350) -/

theorem mtstartOpen_fine {d s : BitVec 3} {l : BitVec 1} {cl : ℕ} {thr : W32} {st : State} (h : State.Fine P Q st) :
    State.Fine P Q (mtstartOpen d s l cl thr st) := by
  unfold mtstartOpen
  exact State.setTh_fine (State.modCluster_fine h) (Thread.fine_set (freeS_fine (State.th_fine (State.modCluster_fine h))))

theorem mtstartBody_fine {d s : BitVec 3} {l : BitVec 1} {_u : QUnit} {st : State} (h : State.Fine P Q st) :
    Gives (EngRes.Fine P Q) (mtstartBody d s l _u st) := by
  unfold mtstartBody
  exact gives_then fun _ => gives_then fun _ => gives_then fun _ => iteInduction
      (fun _ => Gives.ok (EngRes.fine_mk (State.leaseRotate_fine
      (State.modCluster_fine (State.setTh_fine h (Thread.fine_set (State.th_fine h))))))) fun _ => Gives.ok
      (EngRes.fine_mk (mtstartOpen_fine (State.setTh_fine h (Thread.fine_set (State.th_fine h)))))

theorem execMtstart_fine {w e : BitVec 2} {d s : BitVec 3} {l : BitVec 1} {st : State} (h : State.Fine P Q st) :
    Next (State.Fine P Q) (execMtstart w e d s l st) := by
  unfold execMtstart
  exact engWord_fine (fun _ _ h3 => arrayBody_fine (fun _ _ h6 => mtstartBody_fine h6) h3) h

theorem mzeroBody_fine {d : BitVec 3} {_u : QUnit} {s : State} (h : State.Fine P Q s) : Gives (EngRes.Fine P Q) (mzeroBody d _u s) := by
  unfold mzeroBody
  exact gives_then fun _ => Gives.ok (EngRes.fine_mk (State.modCluster_fine h))

theorem execMzero_fine {w e : BitVec 2} {d : BitVec 3} {st : State} (h : State.Fine P Q st) :
    Next (State.Fine P Q) (execMzero w e d st) := by
  unfold execMzero
  exact engWord_fine (fun _ _ h3 => arrayBody_fine (fun _ _ h6 => mzeroBody_fine h6) h3) h

theorem mxmodeBody_fine {d : BitVec 3} {m : BitVec 1} {_u : QUnit} {s : State} (h : State.Fine P Q s) :
    Gives (EngRes.Fine P Q) (mxmodeBody d m _u s) := by
  unfold mxmodeBody
  refine gives_then fun _ => gives_then fun _ => ?_
  refine gives_bind (State.replayNext_fine h) fun _ h4 => ?_
  split
  · exact Gives.ok (EngRes.fine_mk (some_of rfl h4))
  · refine gives_bind (R := Fst (State.Fine P Q)) (iteInduction (fun _ => State.accRead_fine h) fun _ => Gives.ok h) fun ⟨_, _⟩ h11 => ?_
    split
    next e15 =>
      have h16 := fst_of e15 h11
      exact iteInduction (fun _ => Gives.ok (EngRes.fine_mk h16)) fun _ => Gives.ok
          (EngRes.fine_mk (State.modCluster_fine (State.replayOver_fine h16)))

theorem execMxmode_fine {w e : BitVec 2} {d : BitVec 3} {m : BitVec 1} {st : State} (h : State.Fine P Q st) :
    Next (State.Fine P Q) (execMxmode w e d m st) := by
  unfold execMxmode
  exact engWord_fine (fun _ _ h3 => arrayBody_fine (fun _ _ h6 => mxmodeBody_fine h6) h3) h

theorem msettBody_fine {d s : BitVec 3} {l : BitVec 1} {_u : QUnit} {st : State} (h : State.Fine P Q st) :
    Gives (EngRes.Fine P Q) (msettBody d s l _u st) := by
  unfold msettBody
  exact gives_then fun _ => gives_then fun _ => Gives.ok (EngRes.fine_mk
      (State.setTh_fine (State.modCluster_fine h) (freeS_fine (State.th_fine (State.modCluster_fine h)))))

theorem execMsett_fine {w e : BitVec 2} {d s : BitVec 3} {l : BitVec 1} {st : State} (h : State.Fine P Q st) :
    Next (State.Fine P Q) (execMsett w e d s l st) := by
  unfold execMsett
  exact engWord_fine (fun _ _ h3 => arrayBody_fine (fun _ _ h6 => msettBody_fine h6) h3) h

theorem mrdbBody_fine {d s : BitVec 3} {_u : QUnit} {st : State} (h : State.Fine P Q st) :
    Gives (EngRes.Fine P Q) (mrdbBody d s _u st) := by
  unfold mrdbBody
  exact Gives.ok (EngRes.fine_mk (State.setTh_fine h (wrS_fine (State.th_fine h))))

theorem execMrdb_fine {w e : BitVec 2} {d s : BitVec 3} {st : State} (h : State.Fine P Q st) :
    Next (State.Fine P Q) (execMrdb w e d s st) := by
  unfold execMrdb
  exact engWord_fine (fun _ _ h3 => arrayBody_fine (fun _ _ h6 => mrdbBody_fine h6) h3) h

/-! ### MMA (R351 to R354) -/

theorem State.reboard_fine {s : State} {cl n : ℕ} (h : State.Fine P Q s) : State.Fine P Q (s.reboard cl n) := by
  unfold State.reboard
  exact State.modCluster_fine h

theorem State.checkSlot_fine {s : State} {k acc n : ℕ} {scale : Bool} {f : FtE} {whole : Bool} (h : State.Fine P Q s) :
    Gives (Fst (State.Fine P Q)) (s.checkSlot k acc n scale f whole) := by
  unfold State.checkSlot
  refine gives_then fun _ => ?_
  split
  · exact Gives.ok h
  · exact Gives.ok (State.reboard_fine h)
  · refine gives_then fun _ => gives_then fun _ => ?_
    refine iteInduction (fun _ => ?_) fun _ => ?_
    · refine gives_then fun _ => gives_then fun _ => ?_
      split
      · refine gives_then fun _ => ?_
        refine iteInduction (fun _ => Gives.ok h) fun _ => ?_
        split
        · exact gives_then fun _ => gives_bind (State.startReplay_fine
              (iteInduction (fun _ => State.reboard_fine (State.absorbLatent_fine h)) fun _ => State.modCluster_fine
              (State.absorbLatent_fine h))) fun _ h19 => Gives.ok h19
        · exact gives_bind (State.symRead_fine h) fun _ h23 => Gives.ok h23
      · refine gives_then fun _ => ?_
        refine iteInduction (fun _ => Gives.ok h) fun _ => ?_
        split
        · exact gives_then fun _ => gives_bind (State.startReplay_fine
              (iteInduction (fun _ => State.reboard_fine (State.absorbLatent_fine h)) fun _ => State.modCluster_fine
              (State.absorbLatent_fine h))) fun _ h32 => Gives.ok h32
        · exact gives_bind (State.symRead_fine h) fun _ h36 => Gives.ok h36
    · refine gives_then fun _ => ?_
      refine iteInduction (fun _ => Gives.ok h) fun _ => ?_
      split
      · exact gives_then fun _ => gives_bind (State.startReplay_fine
            (iteInduction (fun _ => State.reboard_fine (State.absorbLatent_fine h)) fun _ => State.modCluster_fine
            (State.absorbLatent_fine h))) fun _ h43 => Gives.ok h43
      · exact gives_bind (State.symRead_fine h) fun _ h47 => Gives.ok h47

theorem State.checkSlots_fine {s : State} {k acc : ℕ} {f : FtE} {whole : Bool} {l : List (ℕ × Bool)} (h : State.Fine P Q s) :
    Gives (Fst (State.Fine P Q)) (s.checkSlots k acc f whole l) := by
  induction l generalizing s with
  | nil => exact .ok h
  | cons x l ih =>
    unfold State.checkSlots
    refine gives_bind (State.checkSlot_fine h) fun ⟨_, _⟩ h1 => ?_
    dsimp only
    split
    · exact .ok h1
    · exact ih h1

theorem State.spadCheck_fine {s : State} {k : ℕ} {l : List (ℕ × ℕ)} (h : State.Fine P Q s) :
    Gives (State.Fine P Q) (s.spadCheck k l) := by
  unfold State.spadCheck
  refine iteInduction (fun _ => Gives.ok h) fun _ => ?_
  refine foldlM_fine (R := State.Fine P Q) h fun _ ⟨_, _⟩ h5 => ?_
  refine gives_bind (State.spadRead_fine h5) fun ⟨_, _⟩ h9 => ?_
  split
  next e13 =>
    have h14 := fst_of e13 h9
    exact Gives.ok h14

theorem mmaBody_fine {acc : BitVec 3} {g : BitVec 4} {b : BitVec 9} {f k : BitVec 1} {u : QUnit} {st : State} (h : State.Fine P Q st) :
    Gives (EngRes.Fine P Q) (mmaBody acc g b f k u st) := by
  unfold mmaBody
  refine gives_then fun _ => gives_then fun _ => ?_
  refine gives_then fun _ => gives_then fun _ => ?_
  refine gives_then fun _ => gives_then fun _ => ?_
  refine gives_bind (State.checkSlots_fine h) fun ⟨_, _⟩ h10 => ?_
  split
  next e14 =>
    have h15 := fst_of e14 h10
    split
    · exact iteInduction (fun _ => Gives.error) fun _ => Gives.ok (EngRes.fine_mk h15)
    · refine gives_bind (State.replayNext_fine h15) fun _ h20 => ?_
      split
      · exact Gives.ok (EngRes.fine_mk (some_of rfl h20))
      · refine gives_bind (State.spadCheck_fine h15) fun _ h25 => ?_
        refine gives_then fun _ => gives_then fun _ => ?_
        refine gives_bind (State.accRead_fine h25) fun ⟨_, _⟩ h31 => ?_
        split
        next e35 =>
          have h36 := fst_of e35 h31
          exact iteInduction (fun _ => Gives.ok (EngRes.fine_mk h36)) fun _ => Gives.ok
              (EngRes.fine_mk (State.mmaApply_fine (State.replayOver_fine h36)))

theorem execMma_fine {w e : BitVec 2} {a : BitVec 3} {g : BitVec 4} {b : BitVec 9} {f k : BitVec 1} {st : State} (h : State.Fine P Q st) :
    Next (State.Fine P Q) (execMma w e a g b f k st) := by
  unfold execMma
  exact engWord_fine (fun _ _ h3 => arrayBody_fine (fun _ _ h6 => mmaBody_fine h6) h3) h

/-! ### MDRAIN (R355 to R357) -/

theorem drainOut_fine {s : State} {k acc : ℕ} {p : DrainP} {rd : VReg} {rr : Option VReg} {sw : Bool} {side : ℕ} {bnd : Bool}
    (h : State.Fine P Q s) :
    Gives (State.Fine P Q) (drainOut s k acc p rd rr sw side bnd) := by
  unfold drainOut
  refine gives_bind (R := Fst (State.Fine P Q)) ?_ fun ⟨_, _⟩ h7 => ?_
  · split
    · exact State.readElems_fine h
    · exact Gives.ok h
  · split
    next e11 =>
      have h12 := fst_of e11 h7
      exact Gives.ok (State.modCluster_fine (State.setTh_fine
          (iteInduction (fun _ => State.spadWrite_fine (State.writeElems_fine h12)) fun _ => State.writeElems_fine h12)
          (Thread.fine_set (State.th_fine (iteInduction (fun _ => State.spadWrite_fine (State.writeElems_fine h12)) fun _ =>
          State.writeElems_fine h12)))))

theorem mdrainBody_fine {acc : BitVec 3} {ad ar : BitVec 4} {r d sb : BitVec 1} {u : QUnit} {st : State} (h : State.Fine P Q st) :
    Gives (EngRes.Fine P Q) (mdrainBody acc ad ar r d sb u st) := by
  have hdone : ∀ {s : State} {n}, State.Fine P Q s → State.Fine P Q (s.setTh (s.th.setDone u n)) := fun hs =>
    State.setTh_fine hs (Thread.setDone_fine (State.th_fine hs))
  have hagain : ∀ {s : State} {n}, State.Fine P Q s → Gives (EngRes.Fine P Q)
      (s.startReplay st.me acc.toNat false >>= fun s => .ok { s := s.setTh (s.th.setDone u n), more := some .permit }) := fun hs =>
    gives_bind (State.startReplay_fine hs) fun _ h1 => .ok (EngRes.fine_mk (hdone h1))
  unfold mdrainBody
  iterate 8 refine gives_then fun _ => ?_
  refine iteInduction (fun _ => gives_then fun _ => ?_) fun _ => gives_then fun _ => ?_
  all_goals
    refine gives_bind (State.replayNext_fine h) fun _ h1 => ?_
    split
    · exact .ok (EngRes.fine_mk (some_of rfl h1))
    · refine gives_bind (State.accRead_fine h) fun ⟨_, _⟩ h2 => iteInduction (fun _ => .ok (EngRes.fine_mk h2)) fun _ => ?_
      split
      · refine gives_then fun _ => iteInduction (fun _ => gives_then fun _ => ?_) fun _ => gives_then fun _ => ?_
        · exact iteInduction (fun _ => .ok (EngRes.fine_mk (hdone (State.post_fine h2)))) fun _ => hagain (State.post_fine h2)
        · exact iteInduction (fun _ => .ok (EngRes.fine_mk (hdone (State.post_fine h2)))) fun _ => hagain (State.post_fine h2)
      · dsimp only
        split
        · exact .error
        · exact gives_bind (State.startReplay_fine h2) fun _ h3 => .ok (EngRes.fine_mk h3)
        · exact gives_bind (drainOut_fine (hdone (State.replayOver_fine h2))) fun _ h3 => .ok (EngRes.fine_mk h3)

theorem execMdrain_fine {w e : BitVec 2} {a : BitVec 3} {g r : BitVec 4} {k j s : BitVec 1} {st : State} (h : State.Fine P Q st) :
    Next (State.Fine P Q) (execMdrain w e a g r k j s st) := by
  unfold execMdrain
  exact engWord_fine (fun _ _ h3 => arrayBody_fine (fun _ _ h6 => mdrainBody_fine h6) h3) h

/-! ### Format-table words (R361) -/

theorem mfteBody_fine {d : BitVec 4} {s : BitVec 3} {l : BitVec 1} {_u : QUnit} {st : State} (h : State.Fine P Q st) :
    Gives (EngRes.Fine P Q) (mfteBody d s l _u st) := by
  unfold mfteBody
  refine gives_then fun v => gives_then fun _ => ?_
  refine .ok (EngRes.fine_mk (State.setTh_fine h (freeS_fine (Thread.fine_ft (State.th_fine h) fun q => ?_))))
  exact vget_vset_fine (R := fun x : W32 => bits x.toNat 11 0 = 0) (State.th_fine h q).2.2.2.2.2.2.2.2.2.2.2 (bits_mul_4096 _) (by decide)

theorem execMfte_fine {w e : BitVec 2} {d : BitVec 4} {s : BitVec 3} {l : BitVec 1} {st : State} (h : State.Fine P Q st) :
    Next (State.Fine P Q) (execMfte w e d s l st) := by
  unfold execMfte
  exact engWord_fine (fun _ _ h3 => mfteBody_fine h3) h

theorem mftbBody_fine {c : BitVec 2} {b : BitVec 4} {_u : QUnit} {st : State} (h : State.Fine P Q st) :
    Gives (EngRes.Fine P Q) (mftbBody c b _u st) := by
  unfold mftbBody
  refine .ok (EngRes.fine_mk (State.setTh_fine h (Thread.fine_fmtBase (State.th_fine h) fun _ => ?_)))
  rw [BitVec.toNat_ofNat]
  omega

theorem execMftb_fine {w e c : BitVec 2} {b : BitVec 4} {st : State} (h : State.Fine P Q st) :
    Next (State.Fine P Q) (execMftb w e c b st) := by
  unfold execMftb
  exact engWord_fine (fun _ _ h3 => mftbBody_fine h3) h

/-! ### Loop and no-operation (R366) -/

theorem execMloop_fine {n : BitVec 6} {c : BitVec 2} {i : BitVec 11} {st : State} (h : State.Fine P Q st) :
    Next (State.Fine P Q) (execMloop n c i st) := by
  unfold execMloop
  exact engWord_fine (fun _ _ h3 => loopBody_fine h3) h

theorem execMnop_fine {w e : BitVec 2} {st : State} (h : State.Fine P Q st) : Next (State.Fine P Q) (execMnop w e st) := by
  unfold execMnop
  exact engWord_fine (fun _ _ h3 => Gives.ok (EngRes.fine_mk h3)) h

theorem boardBody_fine {s : BitVec 3} {bs : BitVec 9} {_u : QUnit} {st : State} (h : State.Fine P Q st) :
    Gives (EngRes.Fine P Q) (boardBody s bs _u st) := by
  unfold boardBody
  refine gives_then fun _ => gives_then fun _ => ?_
  split
  · exact Gives.error
  · exact gives_then fun _ => Gives.ok (EngRes.fine_mk (State.armSub_fine h))

theorem execBoard_fine {w e : BitVec 2} {s : BitVec 3} {b : BitVec 9} {st : State} (h : State.Fine P Q st) :
    Next (State.Fine P Q) (execBoard w e s b st) := by
  unfold execBoard
  exact engWord_fine (fun _ _ h3 => boardBody_fine h3) h

theorem boardStatBody_fine {wait : Bool} {s : BitVec 3} {bs : BitVec 9} {_u : QUnit} {st : State} (h : State.Fine P Q st) :
    Gives (EngRes.Fine P Q) (boardStatBody wait s bs _u st) := by
  unfold boardStatBody
  exact iteInduction (fun _ => Gives.error) fun _ => Gives.ok (EngRes.fine_mk (State.setTh_fine h (wrS_fine (State.th_fine h))))

theorem execBwait_fine {w e : BitVec 2} {s : BitVec 3} {b : BitVec 9} {st : State} (h : State.Fine P Q st) :
    Next (State.Fine P Q) (execBwait w e s b st) := by
  unfold execBwait
  exact engWord_fine (fun _ _ h3 => boardStatBody_fine h3) h

theorem execBquery_fine {w e : BitVec 2} {s : BitVec 3} {b : BitVec 9} {st : State} (h : State.Fine P Q st) :
    Next (State.Fine P Q) (execBquery w e s b st) := by
  unfold execBquery
  exact engWord_fine (fun _ _ h3 => boardStatBody_fine h3) h

theorem bdropBody_fine {bs : BitVec 9} {_u : QUnit} {st : State} (h : State.Fine P Q st) :
    Gives (EngRes.Fine P Q) (bdropBody bs _u st) := by
  unfold bdropBody
  dsimp only
  split
  · exact Gives.ok (EngRes.fine_mk h)
  · exact gives_then fun _ => Gives.ok (EngRes.fine_mk (State.modCluster_fine h))

theorem execBdrop_fine {w e : BitVec 2} {b : BitVec 9} {st : State} (h : State.Fine P Q st) :
    Next (State.Fine P Q) (execBdrop w e b st) := by
  unfold execBdrop
  exact engWord_fine (fun _ _ h3 => bdropBody_fine h3) h

end Sys2Proof.Machine
end

section
/-! Load and store words keep the invariant (O5, O15). -/

namespace Sys2Proof.Machine

open Sys2Proof

variable {P Q : Prop}

/-! ### Index words (R319) -/

theorem atIssue_fine {s : State} {vals : optParam (List ℕ) []} (h : State.Fine P Q s) : Gives (EngRes.Fine P Q) (atIssue s vals) := by
  unfold atIssue
  exact Gives.ok (EngRes.fine_mk h)

theorem xmovBody_fine {ld : Bool} {d s : BitVec 3} {l m : BitVec 1} {_u : QUnit} {st : State} (h : State.Fine P Q st) :
    Gives (EngRes.Fine P Q) (xmovBody ld d s l m _u st) := by
  unfold xmovBody
  exact iteInduction (fun _ => atIssue_fine (State.setTh_fine h (wrX_fine (State.th_fine h)))) fun _ => gives_then fun _ => atIssue_fine
      (State.setTh_fine h (wrX_fine (freeX_fine (State.th_fine h))))

theorem xaddBody_fine {ld : Bool} {d s : BitVec 3} {l : BitVec 1} {t : BitVec 3} {m : BitVec 1} {_u : QUnit} {st : State}
    (h : State.Fine P Q st) :
    Gives (EngRes.Fine P Q) (xaddBody ld d s l t m _u st) := by
  unfold xaddBody
  exact gives_then fun _ => gives_then fun _ => atIssue_fine (State.setTh_fine h (wrX_fine (freeX_fine (freeX_fine (State.th_fine h)))))

theorem xaddiBody_fine {ld : Bool} {d s : BitVec 3} {l : BitVec 1} {i : BitVec 10} {u : QUnit} {st : State} (h : State.Fine P Q st) :
    Gives (EngRes.Fine P Q) (xaddiBody ld d s l i u st) := by
  unfold xaddiBody
  exact gives_then fun _ => atIssue_fine (State.setTh_fine h (wrX_fine (freeX_fine (State.th_fine h))))

theorem xshlBody_fine {ld : Bool} {d s : BitVec 3} {l : BitVec 1} {i : BitVec 10} {u : QUnit} {st : State} (h : State.Fine P Q st) :
    Gives (EngRes.Fine P Q) (xshlBody ld d s l i u st) := by
  unfold xshlBody
  exact gives_then fun _ => gives_then fun _ => atIssue_fine (State.setTh_fine h (wrX_fine (freeX_fine (State.th_fine h))))

theorem execXmov_fine {w e : BitVec 2} {d s : BitVec 3} {l m : BitVec 1} {st : State} (h : State.Fine P Q st) :
    Next (State.Fine P Q) (execXmov w e d s l m st) := by
  unfold execXmov
  exact engWord_fine (fun _ _ h3 => xmovBody_fine h3) h

theorem execXadd_fine {w e : BitVec 2} {d s : BitVec 3} {l : BitVec 1} {t : BitVec 3} {u : BitVec 1} {st : State} (h : State.Fine P Q st)
    :
    Next (State.Fine P Q) (execXadd w e d s l t u st) := by
  unfold execXadd
  exact engWord_fine (fun _ _ h3 => xaddBody_fine h3) h

theorem execXaddi_fine {w e : BitVec 2} {d s : BitVec 3} {l : BitVec 1} {i : BitVec 10} {st : State} (h : State.Fine P Q st) :
    Next (State.Fine P Q) (execXaddi w e d s l i st) := by
  unfold execXaddi
  exact engWord_fine (fun _ _ h3 => xaddiBody_fine h3) h

theorem execXshl_fine {w e : BitVec 2} {d s : BitVec 3} {l : BitVec 1} {i : BitVec 10} {st : State} (h : State.Fine P Q st) :
    Next (State.Fine P Q) (execXshl w e d s l i st) := by
  unfold execXshl
  exact engWord_fine (fun _ _ h3 => xshlBody_fine h3) h

theorem execLnop_fine {w e : BitVec 2} {st : State} (h : State.Fine P Q st) : Next (State.Fine P Q) (execLnop w e st) := by
  unfold execLnop
  exact engWord_fine (fun _ _ h3 => atIssue_fine h3) h

theorem execXmovSt_fine {w e : BitVec 2} {d s : BitVec 3} {l m : BitVec 1} {st : State} (h : State.Fine P Q st) :
    Next (State.Fine P Q) (execXmovSt w e d s l m st) := by
  unfold execXmovSt
  exact engWord_fine (fun _ _ h3 => xmovBody_fine h3) h

theorem execXaddSt_fine {w e : BitVec 2} {d s : BitVec 3} {l : BitVec 1} {t : BitVec 3} {u : BitVec 1} {st : State}
    (h : State.Fine P Q st) :
    Next (State.Fine P Q) (execXaddSt w e d s l t u st) := by
  unfold execXaddSt
  exact engWord_fine (fun _ _ h3 => xaddBody_fine h3) h

theorem execXaddiSt_fine {w e : BitVec 2} {d s : BitVec 3} {l : BitVec 1} {i : BitVec 10} {st : State} (h : State.Fine P Q st) :
    Next (State.Fine P Q) (execXaddiSt w e d s l i st) := by
  unfold execXaddiSt
  exact engWord_fine (fun _ _ h3 => xaddiBody_fine h3) h

theorem execXshlSt_fine {w e : BitVec 2} {d s : BitVec 3} {l : BitVec 1} {i : BitVec 10} {st : State} (h : State.Fine P Q st) :
    Next (State.Fine P Q) (execXshlSt w e d s l i st) := by
  unfold execXshlSt
  exact engWord_fine (fun _ _ h3 => xshlBody_fine h3) h

theorem execSnop_fine {w e : BitVec 2} {st : State} (h : State.Fine P Q st) : Next (State.Fine P Q) (execSnop w e st) := by
  unfold execSnop
  exact engWord_fine (fun _ _ h3 => atIssue_fine h3) h

/-! ### Loops (R274, R320, R366, R388) -/

theorem execLloop_fine {n : BitVec 6} {c : BitVec 2} {i : BitVec 11} {st : State} (h : State.Fine P Q st) :
    Next (State.Fine P Q) (execLloop n c i st) := by
  unfold execLloop
  exact engWord_fine (fun _ _ h3 => loopBody_fine h3) h

theorem execSloop_fine {n : BitVec 6} {c : BitVec 2} {i : BitVec 11} {st : State} (h : State.Fine P Q st) :
    Next (State.Fine P Q) (execSloop n c i st) := by
  unfold execSloop
  exact engWord_fine (fun _ _ h3 => loopBody_fine h3) h

theorem lmarkBody_fine {d : BitVec 4} {s : BitVec 3} {l : BitVec 1} {i : BitVec 10} {u : QUnit} {st : State} (h : State.Fine P Q st) :
    Gives (EngRes.Fine P Q) (lmarkBody d s l i u st) := by
  unfold lmarkBody
  exact gives_then fun _ => gives_then fun _ => deliver_fine h fun _ h4 => EngRes.fine_mk
      (State.setTh_fine h4 (freeX_fine (State.th_fine h4)))

theorem execLmark_fine {w e : BitVec 2} {d : BitVec 4} {s : BitVec 3} {l : BitVec 1} {i : BitVec 10} {st : State} (h : State.Fine P Q st)
    :
    Next (State.Fine P Q) (execLmark w e d s l i st) := by
  unfold execLmark
  exact engWord_fine (fun _ _ h3 => lmarkBody_fine h3) h

/-! ### Block loads (R323, R325, R326) -/

theorem ldBody_fine {h : BitVec 4} {x : BitVec 3} {y : BitVec 1} {t : BitVec 4} {k : BitVec 1} {z : BitVec 3} {i : BitVec 1} {u : QUnit}
    {st : State} (hs : State.Fine P Q st) :
    Gives (EngRes.Fine P Q) (ldBody h x y t k z i u st) := by
  unfold ldBody
  refine gives_bind (memX_fine (State.th_fine hs)) fun ⟨_, _⟩ _ => ?_
  split
  · refine gives_then fun _ => ?_
    refine iteInduction (fun _ => ?_) fun _ => ?_
    · refine gives_then fun _ => ?_
      refine gives_bind (State.loadData_fine hs) fun ⟨_, _⟩ h15 => ?_
      split
      next e19 =>
        have h20 := fst_of e19 h15
        exact deliver_fine h20 fun _ h22 => EngRes.fine_mk (State.setTh_fine h22 (postInc_fine (freeX_fine (State.th_fine h22))))
    · refine gives_then fun _ => gives_then fun _ => gives_then fun _ => ?_
      refine gives_bind (State.loadData_fine hs) fun ⟨_, _⟩ h29 => ?_
      split
      next e33 =>
        have h34 := fst_of e33 h29
        exact Gives.ok (EngRes.fine_mk (State.setTh_fine (State.spadWrite_fine h34)
            (postInc_fine (freeX_fine (State.th_fine (State.spadWrite_fine h34))))))

theorem execLd_fine {w e : BitVec 2} {h : BitVec 4} {x : BitVec 3} {y : BitVec 1} {t : BitVec 4} {k : BitVec 1} {z : BitVec 3}
    {i : BitVec 1} {st : State} (hs : State.Fine P Q st) :
    Next (State.Fine P Q) (execLd w e h x y t k z i st) := by
  unfold execLd
  exact engWord_fine (fun _ _ h3 => ldBody_fine h3) hs

theorem pfetchBody_fine {h : BitVec 4} {x : BitVec 3} {y : BitVec 1} {z : BitVec 3} {m : BitVec 1} {_u : QUnit} {st : State}
    (hs : State.Fine P Q st) :
    Gives (EngRes.Fine P Q) (pfetchBody h x y z m _u st) := by
  unfold pfetchBody
  refine Gives.ok ?_
  refine EngRes.fine_mk ?_
  refine iteInduction (fun _ => State.setTh_fine hs (freeX_fine (State.th_fine hs))) fun _ => ?_
  refine foldl_fine (State.setTh_fine hs (freeX_fine (State.th_fine hs))) fun _ _ h3 => ?_
  refine iteInduction (fun _ => ?_) fun _ => ?_
  · split
    next e6 =>
      have h7 := ok_of e6 (State.loadLine_fine h3)
      exact h7
    · exact h3
  · split
    next e13 =>
      have h14 := ok_of e13 (State.llcRead_fine h3)
      exact h14
    · exact h3

theorem execPfetch_fine {w e : BitVec 2} {h : BitVec 4} {x : BitVec 3} {y : BitVec 1} {z : BitVec 3} {m : BitVec 1} {st : State}
    (hs : State.Fine P Q st) :
    Next (State.Fine P Q) (execPfetch w e h x y z m st) := by
  unfold execPfetch
  exact engWord_fine (fun _ _ h3 => pfetchBody_fine h3) hs

theorem splkBody_fine {h : BitVec 4} {x : BitVec 3} {y : BitVec 1} {t z : BitVec 3} {nl i : BitVec 1} {_u : QUnit} {st : State}
    (hs : State.Fine P Q st) :
    Gives (EngRes.Fine P Q) (splkBody h x y t z nl i _u st) := by
  unfold splkBody
  refine gives_bind (memX_fine (State.th_fine hs)) fun ⟨_, _⟩ _ => ?_
  split
  · refine gives_then fun _ => gives_then fun _ => gives_then fun _ => ?_
    refine gives_bind (R := State.Fine P Q) ?_ fun _ h23 => Gives.ok
        (EngRes.fine_mk (State.setTh_fine h23 (postInc_fine (freeX_fine (Thread.fine_set (State.th_fine h23))))))
    refine iteInduction (fun _ => Gives.ok hs) fun _ => ?_
    refine gives_bind (State.loadData_fine hs) fun ⟨_, _⟩ h16 => ?_
    split
    next e20 =>
      have h21 := fst_of e20 h16
      exact Gives.ok (State.spadWrite_fine h21)

theorem execSplk_fine {w e : BitVec 2} {h : BitVec 4} {x : BitVec 3} {y : BitVec 1} {t z : BitVec 3} {n i : BitVec 1} {st : State}
    (hs : State.Fine P Q st) :
    Next (State.Fine P Q) (execSplk w e h x y t z n i st) := by
  unfold execSplk
  exact engWord_fine (fun _ _ h3 => splkBody_fine h3) hs

/-! ### Gathers (R324) -/

theorem ldxElem_fine {h q qi : ℕ} {x : W} {u : QUnit} {i : ℕ} {s : State} (hs : State.Fine P Q s) :
    Gives (Fst (State.Fine P Q)) (ldxElem h q qi x u i s) := by
  unfold ldxElem
  dsimp only
  split
  · exact Gives.error
  · split
    · exact gives_bind (State.popQ_fine hs) fun ⟨_, _⟩ h13 => Gives.ok h13
    · exact Gives.error
    · exact gives_bind (State.popQ_fine hs) fun ⟨_, _⟩ h24 => iteInduction (fun _ => Gives.error) fun _ => gives_bind
          (State.loadData_fine h24) fun ⟨_, _⟩ h28 => Gives.ok (State.setTh_fine h28 (Thread.sendQ_fine (State.th_fine h28)))

theorem ldxBody_fine {h : BitVec 4} {x : BitVec 3} {y : BitVec 1} {t q : BitVec 4} {c : BitVec 3} {u : QUnit} {st : State}
    (hs : State.Fine P Q st) :
    Gives (EngRes.Fine P Q) (ldxBody h x y t q c u st) := by
  unfold ldxBody
  exact gives_then fun _ => gives_then fun _ => gives_then fun _ => runElems_fine (fun _ _ h6 => ldxElem_fine h6)
      (fun _ h8 => EngRes.fine_mk (State.setTh_fine h8 (freeX_fine (State.th_fine h8)))) hs

theorem execLdx_fine {w e : BitVec 2} {h : BitVec 4} {x : BitVec 3} {y : BitVec 1} {t q : BitVec 4} {c : BitVec 3} {st : State}
    (hs : State.Fine P Q st) :
    Next (State.Fine P Q) (execLdx w e h x y t q c st) := by
  unfold execLdx
  exact engWord_fine (fun _ _ h3 => ldxBody_fine h3) hs

/-! ### Scale tiles and bound words (R332, R333) -/

theorem ldscBody_fine {h : BitVec 4} {x : BitVec 3} {y : BitVec 1} {t z m : BitVec 3} {_u : QUnit} {st : State} (hs : State.Fine P Q st) :
    Gives (EngRes.Fine P Q) (ldscBody h x y t z m _u st) := by
  unfold ldscBody
  refine gives_bind (memX_fine (State.th_fine hs)) fun ⟨_, _⟩ _ => ?_
  split
  · refine gives_then fun _ => ?_
    split
    · exact Gives.error
    · refine gives_then fun _ => gives_then fun _ => ?_
      refine gives_then fun _ => gives_then fun _ => gives_then fun _ => ?_
      refine gives_bind (State.loadData_fine hs) fun ⟨_, _⟩ h25 => ?_
      split
      next e29 =>
        have h30 := fst_of e29 h25
        split
        · exact Gives.error
        · exact Gives.ok (EngRes.fine_mk (State.setTh_fine (State.spadWrite_fine h30)
              (freeX_fine (State.th_fine (State.spadWrite_fine h30)))))

theorem execLdsc_fine {w e : BitVec 2} {h : BitVec 4} {x : BitVec 3} {y : BitVec 1} {t z m : BitVec 3} {st : State}
    (hs : State.Fine P Q st) :
    Next (State.Fine P Q) (execLdsc w e h x y t z m st) := by
  unfold execLdsc
  exact engWord_fine (fun _ _ h3 => ldscBody_fine h3) hs

theorem ldbdBody_fine {h : BitVec 4} {x : BitVec 3} {y : BitVec 1} {t : BitVec 4} {_u : QUnit} {st : State} (hs : State.Fine P Q st) :
    Gives (EngRes.Fine P Q) (ldbdBody h x y t _u st) := by
  unfold ldbdBody
  refine gives_bind (memX_fine (State.th_fine hs)) fun ⟨_, _⟩ _ => ?_
  split
  · refine gives_then fun _ => ?_
    refine gives_bind (State.loadData_fine hs) fun ⟨_, _⟩ h14 => ?_
    split
    next e18 =>
      have h19 := fst_of e18 h14
      exact Gives.ok (EngRes.fine_mk (State.setTh_fine h19 (Thread.fine_set (freeX_fine (State.th_fine h19)))))

theorem execLdbd_fine {w e : BitVec 2} {h : BitVec 4} {x : BitVec 3} {y : BitVec 1} {t : BitVec 4} {st : State} (hs : State.Fine P Q st) :
    Next (State.Fine P Q) (execLdbd w e h x y t st) := by
  unfold execLdbd
  exact engWord_fine (fun _ _ h3 => ldbdBody_fine h3) hs

/-! ### Queue heads and slot rings (R327 to R330) -/

theorem lsubBody_fine {h : BitVec 4} {x : BitVec 3} {y : BitVec 1} {t : BitVec 4} {_u : QUnit} {st : State} (hs : State.Fine P Q st) :
    Gives (EngRes.Fine P Q) (lsubBody h x y t _u st) := by
  unfold lsubBody
  refine gives_bind (memX_fine (State.th_fine hs)) fun ⟨_, _⟩ _ => ?_
  split
  · refine gives_then fun _ => gives_then fun _ => gives_then fun _ => ?_
    refine gives_bind (State.unitBytes_fine hs) fun ⟨_, _, _⟩ h17 => ?_
    split
    next e22 =>
      have h23 := fst_of e22 h17
      refine iteInduction (fun _ => Gives.error) fun _ => ?_
      split
      · exact Gives.error
      · exact iteInduction (fun _ => Gives.error) fun _ => iteInduction (fun _ => Gives.error) fun _ => Gives.ok
            (EngRes.fine_mk (State.setTh_fine h23 (Thread.fine_set (freeX_fine (State.th_fine h23)))))

theorem execLsub_fine {w e : BitVec 2} {h : BitVec 4} {x : BitVec 3} {y : BitVec 1} {t : BitVec 4} {st : State} (hs : State.Fine P Q st) :
    Next (State.Fine P Q) (execLsub w e h x y t st) := by
  unfold execLsub
  exact engWord_fine (fun _ _ h3 => lsubBody_fine h3) hs

theorem Thread.dropFlights_fine {t : Thread} {q : ℕ} (h : Thread.Fine Q t) : Thread.Fine Q (t.dropFlights q) := h

theorem Thread.endSub_fine {t : Thread} {q : ℕ} (h : Thread.Fine Q t) : Thread.Fine Q (t.endSub q) := by
  unfold Thread.endSub
  exact iteInduction (fun _ => Thread.fine_set (Thread.dropFlights_fine h)) fun _ => h

theorem lunsubBody_fine {d : BitVec 4} {_u : QUnit} {st : State} (h : State.Fine P Q st) :
    Gives (EngRes.Fine P Q) (lunsubBody d _u st) := by
  unfold lunsubBody
  exact atIssue_fine (State.setTh_fine h (Thread.endSub_fine (State.th_fine h)))

theorem execLunsub_fine {w e : BitVec 2} {d : BitVec 4} {st : State} (h : State.Fine P Q st) :
    Next (State.Fine P Q) (execLunsub w e d st) := by
  unfold execLunsub
  exact engWord_fine (fun _ _ h3 => lunsubBody_fine h3) h

theorem qbindBody_fine {d : BitVec 4} {s : BitVec 3} {l : BitVec 1} {z : BitVec 2} {_u : QUnit} {st : State} (h : State.Fine P Q st) :
    Gives (EngRes.Fine P Q) (qbindBody d s l z _u st) := by
  unfold qbindBody
  exact gives_then fun _ => gives_then fun _ => gives_then fun _ => gives_then fun _ => atIssue_fine
      (State.setTh_fine h (Thread.fine_set (freeX_fine (State.th_fine h))))

theorem execQbind_fine {w e : BitVec 2} {d : BitVec 4} {s : BitVec 3} {l : BitVec 1} {z : BitVec 2} {st : State} (h : State.Fine P Q st) :
    Next (State.Fine P Q) (execQbind w e d s l z st) := by
  unfold execQbind
  exact engWord_fine (fun _ _ h3 => qbindBody_fine h3) h

theorem qfreeBody_fine {d : BitVec 4} {_u : QUnit} {st : State} (h : State.Fine P Q st) :
    Gives (EngRes.Fine P Q) (qfreeBody d _u st) := by
  unfold qfreeBody
  exact atIssue_fine (State.setTh_fine h (Thread.fine_set (Thread.dropFlights_fine (Thread.endSub_fine (State.th_fine h)))))

theorem execQfree_fine {w e : BitVec 2} {d : BitVec 4} {st : State} (h : State.Fine P Q st) :
    Next (State.Fine P Q) (execQfree w e d st) := by
  unfold execQfree
  exact engWord_fine (fun _ _ h3 => qfreeBody_fine h3) h

/-! ### Translation from the load sequencer (R334) -/

theorem xlatlBody_fine {h : BitVec 4} {s : BitVec 3} {l : BitVec 1} {t r : BitVec 3} {u : QUnit} {st : State} (hs : State.Fine P Q st) :
    Gives (EngRes.Fine P Q) (xlatlBody h s l t r u st) := by
  unfold xlatlBody
  exact gives_then fun _ => gives_then fun _ => atIssue_fine
      (State.startSettle_fine (State.setTh_fine hs (freeX_fine (State.th_fine hs))))

theorem execXlatl_fine {w e : BitVec 2} {h : BitVec 4} {s : BitVec 3} {l : BitVec 1} {t r : BitVec 3} {st : State}
    (hs : State.Fine P Q st) :
    Next (State.Fine P Q) (execXlatl w e h s l t r st) := by
  unfold execXlatl
  exact engWord_fine (fun _ _ h3 => xlatlBody_fine h3) hs

/-! ### Stores into the version (R323, R324, R326, R333) -/

theorem State.storeRange_fine {s : State} {h so pa n : ℕ} (hs : State.Fine P Q s) : Gives (State.Fine P Q) (s.storeRange h so pa n) := by
  unfold State.storeRange
  refine gives_then fun _ => ?_
  refine gives_bind (State.spadRead_fine hs) fun ⟨_, _⟩ h5 => ?_
  split
  next e9 =>
    have h10 := fst_of e9 h5
    exact Gives.ok (State.versionWrite_fine h10)

theorem stBody_fine {h : BitVec 4} {x : BitVec 3} {y : BitVec 1} {t z : BitVec 3} {i : BitVec 1} {_u : QUnit} {st : State}
    (hs : State.Fine P Q st) :
    Gives (EngRes.Fine P Q) (stBody h x y t z i _u st) := by
  unfold stBody
  refine gives_bind (memX_fine (State.th_fine hs)) fun ⟨_, _⟩ _ => ?_
  split
  · exact gives_then fun _ => gives_then fun _ => gives_then fun _ => gives_bind (State.storeRange_fine hs) fun _ h14 => Gives.ok
        (EngRes.fine_mk (State.setTh_fine h14 (postInc_fine (freeX_fine (State.th_fine h14)))))

theorem execSt_fine {w e : BitVec 2} {h : BitVec 4} {x : BitVec 3} {y : BitVec 1} {t z : BitVec 3} {i : BitVec 1} {st : State}
    (hs : State.Fine P Q st) :
    Next (State.Fine P Q) (execSt w e h x y t z i st) := by
  unfold execSt
  exact engWord_fine (fun _ _ h3 => stBody_fine h3) hs

theorem sunlkBody_fine {h : BitVec 4} {x : BitVec 3} {y : BitVec 1} {t z : BitVec 3} {ns i : BitVec 1} {_u : QUnit} {st : State}
    (hs : State.Fine P Q st) :
    Gives (EngRes.Fine P Q) (sunlkBody h x y t z ns i _u st) := by
  unfold sunlkBody
  refine gives_bind (memX_fine (State.th_fine hs)) fun ⟨_, _⟩ _ => ?_
  split
  · exact gives_then fun _ => gives_then fun _ => gives_then fun _ => gives_bind (R := State.Fine P Q)
        (iteInduction (fun _ => Gives.ok hs) fun _ => State.storeRange_fine hs) fun _ h14 => Gives.ok
        (EngRes.fine_mk (State.setTh_fine h14 (postInc_fine (freeX_fine (State.th_fine h14)))))

theorem execSunlk_fine {w e : BitVec 2} {h : BitVec 4} {x : BitVec 3} {y : BitVec 1} {t z : BitVec 3} {n i : BitVec 1} {st : State}
    (hs : State.Fine P Q st) :
    Next (State.Fine P Q) (execSunlk w e h x y t z n i st) := by
  unfold execSunlk
  exact engWord_fine (fun _ _ h3 => sunlkBody_fine h3) hs

theorem stbdBody_fine {h : BitVec 4} {x : BitVec 3} {y : BitVec 1} {t : BitVec 4} {_u : QUnit} {st : State} (hs : State.Fine P Q st) :
    Gives (EngRes.Fine P Q) (stbdBody h x y t _u st) := by
  unfold stbdBody
  refine gives_bind (memX_fine (State.th_fine hs)) fun ⟨_, _⟩ _ => ?_
  split
  · exact gives_then fun _ => gives_then fun _ => Gives.ok (EngRes.fine_mk
        (State.setTh_fine (State.versionWrite_fine hs) (freeX_fine (State.th_fine (State.versionWrite_fine hs)))))

theorem execStbd_fine {w e : BitVec 2} {h : BitVec 4} {x : BitVec 3} {y : BitVec 1} {t : BitVec 4} {st : State} (hs : State.Fine P Q st) :
    Next (State.Fine P Q) (execStbd w e h x y t st) := by
  unfold execStbd
  exact engWord_fine (fun _ _ h3 => stbdBody_fine h3) hs

theorem stxElem_fine {h q qi : ℕ} {x : W} {i : ℕ} {s : State} (hs : State.Fine P Q s) :
    Gives (Fst (State.Fine P Q)) (stxElem h q qi x i s) := by
  unfold stxElem
  dsimp only
  split
  · exact Gives.error
  · split
    · exact gives_bind (State.popQ_fine hs) fun ⟨_, _⟩ h13 => Gives.ok h13
    · exact Gives.error
    · exact gives_bind (State.popQ_fine hs) fun ⟨_, _⟩ h24 => gives_bind (State.popQ_fine h24) fun ⟨_, _⟩ h28 => Gives.ok
          (State.versionWrite_fine h28)

theorem stxBody_fine {h : BitVec 4} {x : BitVec 3} {y : BitVec 1} {t q : BitVec 4} {c : BitVec 3} {u : QUnit} {st : State}
    (hs : State.Fine P Q st) :
    Gives (EngRes.Fine P Q) (stxBody h x y t q c u st) := by
  unfold stxBody
  exact gives_then fun _ => gives_then fun _ => gives_then fun _ => gives_then fun _ => gives_then fun _ => iteInduction
      (fun _ => Gives.error) fun _ => iteInduction (fun _ => Gives.error) fun _ => gives_then fun _ => runElems_fine
      (fun _ _ h9 => stxElem_fine h9) (fun _ h11 => EngRes.fine_mk (State.setTh_fine h11 (freeX_fine (State.th_fine h11)))) hs

theorem execStx_fine {w e : BitVec 2} {h : BitVec 4} {x : BitVec 3} {y : BitVec 1} {t q : BitVec 4} {c : BitVec 3} {st : State}
    (hs : State.Fine P Q st) :
    Next (State.Fine P Q) (execStx w e h x y t q c st) := by
  unfold execStx
  exact engWord_fine (fun _ _ h3 => stxBody_fine h3) hs

/-! ### The drain (R322) -/

theorem smarkBody_fine {d s : BitVec 3} {l : BitVec 1} {i : BitVec 10} {u : QUnit} {st : State} (h : State.Fine P Q st) :
    Gives (EngRes.Fine P Q) (smarkBody d s l i u st) := by
  unfold smarkBody
  exact gives_then fun _ => iteInduction (fun _ => Gives.error) fun _ => Gives.ok
      (EngRes.fine_mk (State.setTh_fine h (wrX_fine (freeX_fine (State.th_fine h)))))

theorem execSmark_fine {w e : BitVec 2} {d s : BitVec 3} {l : BitVec 1} {i : BitVec 10} {st : State} (h : State.Fine P Q st) :
    Next (State.Fine P Q) (execSmark w e d s l i st) := by
  unfold execSmark
  exact engWord_fine (fun _ _ h3 => smarkBody_fine h3) h

/-! ### Atomics (R113, R117, R335 to R337) -/

theorem State.peerOld_fine {s : State} {k seq pa : ℕ} (h : State.Fine P Q s) : Yields (Fst (State.Fine P Q)) (s.peerOld k seq pa) := by
  unfold State.peerOld
  exact yields_map_any fun _ => h

theorem State.atomic8_fine {s : State} {k seq pa : ℕ} {f : W → W × Fl} (h : State.Fine P Q s) :
    Gives (Fst (State.Fine P Q)) (s.atomic8 k seq pa f) := by
  unfold State.atomic8
  refine iteInduction (fun _ => ?_) fun _ => ?_
  · split
    next e4 =>
      have h5 := some_of e4 (State.peerOld_fine h)
      split
      · exact Gives.ok (State.patchLine_fine h5)
    · exact Gives.error
  · refine gives_bind (State.atomicRead_fine h) fun ⟨_, _⟩ h15 => ?_
    split
    next e19 =>
      have h20 := fst_of e19 h15
      split
      · exact Gives.ok (State.renewLine_fine (State.atomicWrite_fine h20))

theorem State.askAtomic_fine {s : State} {k seq kind a : ℕ} {ops : List ℕ} (h : State.Fine P Q s) :
    State.Fine P Q (s.askAtomic k seq kind a ops) := by
  unfold State.askAtomic
  exact State.fine_set (State.askPeer_fine h)

theorem onceNow_fine {st : State} {seq kind pa : ℕ} {ops : List ℕ} {fin : State → W → EngRes} {now : State → M (State × W)}
    (h : State.Fine P Q st) (hfin : ∀ (a : State) (a_1 : W), State.Fine P Q a → EngRes.Fine P Q (fin a a_1))
    (hnow : ∀ (a : State), State.Fine P Q a → Gives (Fst (State.Fine P Q)) (now a)) :
    Gives (EngRes.Fine P Q) (onceNow st seq kind pa ops fin now) := by
  unfold onceNow
  split
  next e4 =>
    have h5 := ok_of e4 (hnow _ h)
    exact Gives.ok (hfin _ _ (State.onceLog_fine h5))
  · exact Gives.ok (EngRes.fine_mk (State.askAtomic_fine h))
  · exact Gives.error

theorem onceStore_fine {st : State} {seq kind pa : ℕ} {ops : List ℕ} {fin : State → W → EngRes} {now : State → M (State × W)}
    (h : State.Fine P Q st) (hfin : ∀ (a : State) (a_1 : W), State.Fine P Q a → EngRes.Fine P Q (fin a a_1))
    (hnow : ∀ (a : State), State.Fine P Q a → Gives (Fst (State.Fine P Q)) (now a)) :
    Gives (EngRes.Fine P Q) (onceStore st seq kind pa ops fin now) := by
  unfold onceStore
  refine gives_bind (State.onceAt_fine h) fun _ h2 => ?_
  split
  · exact Gives.ok (hfin _ _ (replayed_of rfl h2))
  · exact onceNow_fine h (fun _ _ h9 => hfin _ _ h9) fun _ h11 => hnow _ h11
  · split
    next e16 =>
      have h17 := busy_of e16 (State.commitGo_fine h)
      exact Gives.ok (EngRes.fine_mk h17)
    next e20 =>
      have h21 := done_of e20 (State.commitGo_fine h)
      exact onceNow_fine h21 (fun _ _ h24 => hfin _ _ h24) fun _ h26 => hnow _ h26

theorem atomicBody_fine {sem : BitVec 2} {h : BitVec 4} {x : BitVec 3} {y : BitVec 1} {q : BitVec 4} {rv : BitVec 1} {k : BitVec 3}
    {ops : List ℕ} {f : W → W × Fl} {u : QUnit} {st : State} (hs : State.Fine P Q st) :
    Gives (EngRes.Fine P Q) (atomicBody sem h x y q rv k ops f u st) := by
  unfold atomicBody
  refine gives_bind (memX_fine (State.th_fine hs)) fun ⟨_, _⟩ _ => ?_
  split
  · refine gives_then fun _ => gives_then fun _ => gives_then fun _ => ?_
    refine iteInduction (fun _ => Gives.error) fun _ => ?_
    refine iteInduction (fun _ => Gives.error) fun _ => ?_
    split
    next e16 =>
      have h17 := busy_of e16 (iteInduction (fun _ => State.releaseGo_fine hs) fun _ => Going.Fine.done hs)
      exact Gives.ok (EngRes.fine_mk h17)
    next e20 =>
      have h21 := done_of e20 (iteInduction (fun _ => State.releaseGo_fine hs) fun _ => Going.Fine.done hs)
      refine onceStore_fine h21 (fun _ _ h24 => EngRes.fine_mk
          (iteInduction (fun _ => State.acquire_fine (State.modThread_fine h24 fun _ h26 => iteInduction
          (fun _ => Thread.sendQ_fine (freeX_fine h26)) fun _ => freeX_fine h26)) fun _ => State.modThread_fine h24 fun _ h28 =>
          iteInduction (fun _ => Thread.sendQ_fine (freeX_fine h28)) fun _ => freeX_fine h28)) fun _ h30 => ?_
      refine gives_bind (State.atomic8_fine h30) fun ⟨_, _, _⟩ h35 => ?_
      split
      next e40 =>
        have h41 := fst_of e40 h35
        exact Gives.ok (State.modThread_fine h41 fun _ h43 => h43)

theorem amoBody_fine {op : AmoOp} {sem : BitVec 2} {h : BitVec 4} {x : BitVec 3} {y : BitVec 1} {v : BitVec 3} {q : BitVec 4}
    {rv : BitVec 1} {k : BitVec 3} {u : QUnit} {st : State} (hs : State.Fine P Q st) :
    Gives (EngRes.Fine P Q) (amoBody op sem h x y v q rv k u st) := by
  unfold amoBody
  exact gives_then fun _ => atomicBody_fine hs

theorem acasBody_fine {sem : BitVec 2} {h : BitVec 4} {x : BitVec 3} {y : BitVec 1} {v : BitVec 2} {q : BitVec 4} {rv : BitVec 1}
    {k : BitVec 3} {u : QUnit} {st : State} (hs : State.Fine P Q st) :
    Gives (EngRes.Fine P Q) (acasBody sem h x y v q rv k u st) := by
  unfold acasBody
  exact gives_then fun _ => gives_then fun _ => atomicBody_fine hs

theorem execAcas_fine {s w e : BitVec 2} {h : BitVec 4} {x : BitVec 3} {y : BitVec 1} {v : BitVec 2} {q : BitVec 4} {r : BitVec 1}
    {k : BitVec 3} {st : State} (hs : State.Fine P Q st) :
    Next (State.Fine P Q) (execAcas s w e h x y v q r k st) := by
  unfold execAcas
  exact engWord_fine (fun _ _ h3 => acasBody_fine h3) hs

theorem execAmoAdd_fine {s w e : BitVec 2} {h : BitVec 4} {x : BitVec 3} {y : BitVec 1} {v : BitVec 3} {q : BitVec 4} {r : BitVec 1}
    {k : BitVec 3} {st : State} (hs : State.Fine P Q st) :
    Next (State.Fine P Q) (execAmoAdd s w e h x y v q r k st) := by
  unfold execAmoAdd
  exact engWord_fine (fun _ _ h3 => amoBody_fine h3) hs

theorem execAmoFadd_fine {s w e : BitVec 2} {h : BitVec 4} {x : BitVec 3} {y : BitVec 1} {v : BitVec 3} {q : BitVec 4} {r : BitVec 1}
    {k : BitVec 3} {st : State} (hs : State.Fine P Q st) :
    Next (State.Fine P Q) (execAmoFadd s w e h x y v q r k st) := by
  unfold execAmoFadd
  exact engWord_fine (fun _ _ h3 => amoBody_fine h3) hs

theorem execAmoMin_fine {s w e : BitVec 2} {h : BitVec 4} {x : BitVec 3} {y : BitVec 1} {v : BitVec 3} {q : BitVec 4} {r : BitVec 1}
    {k : BitVec 3} {st : State} (hs : State.Fine P Q st) :
    Next (State.Fine P Q) (execAmoMin s w e h x y v q r k st) := by
  unfold execAmoMin
  exact engWord_fine (fun _ _ h3 => amoBody_fine h3) hs

theorem execAmoMax_fine {s w e : BitVec 2} {h : BitVec 4} {x : BitVec 3} {y : BitVec 1} {v : BitVec 3} {q : BitVec 4} {r : BitVec 1}
    {k : BitVec 3} {st : State} (hs : State.Fine P Q st) :
    Next (State.Fine P Q) (execAmoMax s w e h x y v q r k st) := by
  unfold execAmoMax
  exact engWord_fine (fun _ _ h3 => amoBody_fine h3) hs

theorem execAmoAnd_fine {s w e : BitVec 2} {h : BitVec 4} {x : BitVec 3} {y : BitVec 1} {v : BitVec 3} {q : BitVec 4} {r : BitVec 1}
    {k : BitVec 3} {st : State} (hs : State.Fine P Q st) :
    Next (State.Fine P Q) (execAmoAnd s w e h x y v q r k st) := by
  unfold execAmoAnd
  exact engWord_fine (fun _ _ h3 => amoBody_fine h3) hs

theorem execAmoOr_fine {s w e : BitVec 2} {h : BitVec 4} {x : BitVec 3} {y : BitVec 1} {v : BitVec 3} {q : BitVec 4} {r : BitVec 1}
    {k : BitVec 3} {st : State} (hs : State.Fine P Q st) :
    Next (State.Fine P Q) (execAmoOr s w e h x y v q r k st) := by
  unfold execAmoOr
  exact engWord_fine (fun _ _ h3 => amoBody_fine h3) hs

theorem execAmoXor_fine {s w e : BitVec 2} {h : BitVec 4} {x : BitVec 3} {y : BitVec 1} {v : BitVec 3} {q : BitVec 4} {r : BitVec 1}
    {k : BitVec 3} {st : State} (hs : State.Fine P Q st) :
    Next (State.Fine P Q) (execAmoXor s w e h x y v q r k st) := by
  unfold execAmoXor
  exact engWord_fine (fun _ _ h3 => amoBody_fine h3) hs

theorem execAmoSwap_fine {s w e : BitVec 2} {h : BitVec 4} {x : BitVec 3} {y : BitVec 1} {v : BitVec 3} {q : BitVec 4} {r : BitVec 1}
    {k : BitVec 3} {st : State} (hs : State.Fine P Q st) :
    Next (State.Fine P Q) (execAmoSwap s w e h x y v q r k st) := by
  unfold execAmoSwap
  exact engWord_fine (fun _ _ h3 => amoBody_fine h3) hs

/-! ### Barrier additions (R338) -/

theorem baraddBody_fine {h : BitVec 4} {x : BitVec 3} {y : BitVec 1} {c : BitVec 3} {u : QUnit} {st : State} (hs : State.Fine P Q st) :
    Gives (EngRes.Fine P Q) (baraddBody h x y c u st) := by
  unfold baraddBody
  refine gives_bind (memX_fine (State.th_fine hs)) fun ⟨_, _⟩ _ => ?_
  split
  · refine gives_then fun _ => gives_then fun _ => gives_then fun _ => ?_
    refine onceStore_fine hs (fun _ _ h15 => EngRes.fine_mk (State.modThread_fine h15 fun _ h17 => freeX_fine h17)) fun _ h19 => ?_
    refine iteInduction (fun _ => ?_) fun _ => ?_
    · split
      next e23 =>
        have h24 := some_of e23 (State.peerOld_fine h19)
        exact Gives.ok h24
      · exact Gives.error
    · refine gives_bind (State.atomicRead_fine h19) fun ⟨_, _⟩ h30 => ?_
      split
      next e34 =>
        have h35 := fst_of e34 h30
        exact Gives.ok (State.barAddAt_fine h35)

theorem execBaradd_fine {w e : BitVec 2} {h : BitVec 4} {x : BitVec 3} {y : BitVec 1} {c : BitVec 3} {st : State}
    (hs : State.Fine P Q st) :
    Next (State.Fine P Q) (execBaradd w e h x y c st) := by
  unfold execBaradd
  exact engWord_fine (fun _ _ h3 => baraddBody_fine h3) hs

/-! ### Slot staging (R331) -/

theorem spullBody_fine {h : BitVec 4} {x : BitVec 3} {y : BitVec 1} {g : BitVec 2} {b : BitVec 4} {k : BitVec 3} {_u : QUnit}
    {st : State} (hs : State.Fine P Q st) :
    Gives (EngRes.Fine P Q) (spullBody h x y g b k _u st) := by
  unfold spullBody
  refine gives_bind (memX_fine (State.th_fine hs)) fun ⟨_, _⟩ _ => ?_
  split
  · refine gives_then fun _ => gives_then fun _ => ?_
    refine gives_then fun _ => gives_then fun _ => ?_
    refine gives_bind (State.unitBytes_fine hs) fun ⟨_, _, _⟩ h18 => ?_
    split
    next e23 =>
      have h24 := fst_of e23 h18
      refine iteInduction (fun _ => Gives.error) fun _ => ?_
      split
      · exact Gives.error
      · refine gives_then fun _ => gives_then fun _ => gives_then fun _ => ?_
        refine iteInduction (fun _ => Gives.error) fun _ => ?_
        refine gives_bind (State.spadRead_fine h24) fun ⟨_, _⟩ h37 => ?_
        split
        next e41 =>
          have h42 := fst_of e41 h37
          exact Gives.ok (EngRes.fine_mk (State.setTh_fine (State.modTask_fine h42 fun _ h44 => h44)
              (freeX_fine (State.th_fine (State.modTask_fine h42 fun _ h46 => h46)))))

theorem execSpull_fine {w e : BitVec 2} {h : BitVec 4} {x : BitVec 3} {y : BitVec 1} {g : BitVec 2} {b : BitVec 4} {k : BitVec 3}
    {st : State} (hs : State.Fine P Q st) :
    Next (State.Fine P Q) (execSpull w e h x y g b k st) := by
  unfold execSpull
  exact engWord_fine (fun _ _ h3 => spullBody_fine h3) hs

/-! ### Cache range control (R339, R340) -/

theorem State.writeBack_fine {s : State} {die uid : ℕ} {lines : List ℕ} (h : State.Fine P Q s) :
    State.Fine P Q (s.writeBack die uid lines) := by
  unfold State.writeBack
  exact iteInduction (fun _ => State.setDie_fine h (Die.fine_set (State.die_fine h))) fun _ => h

theorem cwbrBody_fine {h : BitVec 4} {x : BitVec 3} {y : BitVec 1} {z : BitVec 3} {_u : QUnit} {st : State} (hs : State.Fine P Q st) :
    Gives (EngRes.Fine P Q) (cwbrBody h x y z _u st) := by
  unfold cwbrBody
  refine gives_then fun ⟨_, _⟩ => ?_
  split
  · exact iteInduction (fun _ => Gives.ok (EngRes.fine_mk (State.modThread_fine hs fun _ h9 => freeX_fine h9))) fun _ => iteInduction
        (fun _ => Gives.ok (EngRes.fine_mk (State.writeBack_fine (State.modTask_fine hs fun _ h11 => h11)))) fun _ => Gives.ok
        (EngRes.fine_mk (State.modThread_fine (State.writeBack_fine (State.modTask_fine hs fun _ h13 => h13)) fun _ h15 => freeX_fine
        h15))

theorem execCwbr_fine {w e : BitVec 2} {h : BitVec 4} {x : BitVec 3} {y : BitVec 1} {z : BitVec 3} {st : State} (hs : State.Fine P Q st) :
    Next (State.Fine P Q) (execCwbr w e h x y z st) := by
  unfold execCwbr
  exact engWord_fine (fun _ _ h3 => cwbrBody_fine h3) hs

theorem State.dropRange_fine {s : State} {die : ℕ} {lines : List ℕ} (h : State.Fine P Q s) : State.Fine P Q (s.dropRange die lines) := by
  unfold State.dropRange
  exact State.modDie_fine h fun _ h2 => h2

theorem cinvrBody_fine {h : BitVec 4} {x : BitVec 3} {y : BitVec 1} {z : BitVec 3} {_u : QUnit} {st : State} (hs : State.Fine P Q st) :
    Gives (EngRes.Fine P Q) (cinvrBody h x y z _u st) := by
  unfold cinvrBody
  refine gives_then fun ⟨_, _⟩ => ?_
  split
  · exact iteInduction (fun _ => Gives.ok (EngRes.fine_mk (State.writeBack_fine hs))) fun _ => Gives.ok
        (EngRes.fine_mk (State.modThread_fine (State.dropRange_fine (State.writeBack_fine hs)) fun _ h9 => freeX_fine h9))

theorem execCinvr_fine {w e : BitVec 2} {h : BitVec 4} {x : BitVec 3} {y : BitVec 1} {z : BitVec 3} {st : State} (hs : State.Fine P Q st)
    :
    Next (State.Fine P Q) (execCinvr w e h x y z st) := by
  unfold execCinvr
  exact engWord_fine (fun _ _ h3 => cinvrBody_fine h3) hs

/-! ### Copy submission (R341, R342) -/

theorem xcopyBody_fine {h : BitVec 4} {x : BitVec 3} {y : BitVec 1} {t : BitVec 3} {u : QUnit} {st : State} (hs : State.Fine P Q st) :
    Gives (EngRes.Fine P Q) (xcopyBody h x y t u st) := by
  unfold xcopyBody
  refine gives_bind (memX_fine (State.th_fine hs)) fun ⟨_, _⟩ _ => ?_
  split
  · refine gives_then fun _ => gives_then fun _ => gives_then fun _ => ?_
    refine gives_bind (State.spadRead_fine hs) fun ⟨_, _⟩ h16 => ?_
    split
    next e20 =>
      have h21 := fst_of e20 h16
      exact gives_then fun _ => gives_then fun _ => gives_then fun _ => iteInduction (fun _ => Gives.error) fun _ => onceStore_fine h21
          (fun _ _ h27 => EngRes.fine_mk (State.modThread_fine h27 fun _ h29 => freeX_fine h29)) fun _ h31 => Gives.ok
          (State.modTask_fine h31 fun _ h33 => h33)

theorem execXcopy_fine {w e : BitVec 2} {h : BitVec 4} {x : BitVec 3} {y : BitVec 1} {t : BitVec 3} {st : State} (hs : State.Fine P Q st)
    :
    Next (State.Fine P Q) (execXcopy w e h x y t st) := by
  unfold execXcopy
  exact engWord_fine (fun _ _ h3 => xcopyBody_fine h3) hs

theorem stay_fine {s : State} {kd : WaitKind} (h : State.Fine P Q s) : CtlRes.Fine P Q (stay s kd) := by
  unfold stay
  exact CtlRes.fine_mk (State.modThread_fine h fun _ h2 => Thread.standIn_fine h2)

theorem groupOperand_fine {h : BitVec 4} {k : BitVec 1} {o : BitVec 10} {right : ℕ} {st : State} (hs : State.Fine P Q st) :
    Gives (Snd (Snd (Thread.Fine Q))) (groupOperand h k o right st) := by
  unfold groupOperand
  refine gives_bind (ctlHandle_fine (State.th_fine hs)) fun _ h2 => ?_
  refine gives_bind (cmOfs_fine h2) fun ⟨_, _⟩ h6 => ?_
  split
  next e10 =>
    have h11 := snd_of e10 h6
    exact gives_then fun _ => Gives.ok h11

theorem State.groupAt_fine {s : State} {pa ofs : ℕ} (h : State.Fine P Q s) : Gives (Fst (State.Fine P Q)) (s.groupAt pa ofs) := by
  unfold State.groupAt
  refine gives_bind (State.atomicRead_fine h) fun ⟨_, _⟩ h4 => ?_
  split
  next e8 =>
    have h9 := fst_of e8 h4
    split
    · exact Gives.error
    · exact Gives.ok h9

theorem Thread.sendCtl_fine {t : Thread} {d v : ℕ} (h : Thread.Fine Q t) : Thread.Fine Q (t.sendCtl d v) := by
  unfold Thread.sendCtl
  exact Thread.fine_set (Thread.dropPending_fine h)

theorem Thread.addMember_fine {t : Thread} {e : Member} (h : Thread.Fine Q t) : Thread.Fine Q (t.addMember e) := h

theorem Thread.joined_fine {t : Thread} {d pa ret : ℕ} (h : Thread.Fine Q t) : Thread.Fine Q (t.joined d pa ret) := by
  unfold Thread.joined
  exact Thread.sendCtl_fine (iteInduction (fun _ => h) fun _ => Thread.addMember_fine h)

theorem onceCtl_fine {st : State} {kind pa : ℕ} {ops : List ℕ} {again : State → ℕ → M CtlRes} {now : State → M CtlRes}
    (h : State.Fine P Q st) (hagain : ∀ (a : State) (a_1 : ℕ), State.Fine P Q a → Gives (CtlRes.Fine P Q) (again a a_1))
    (hnow : ∀ (a : State), State.Fine P Q a → Gives (CtlRes.Fine P Q) (now a)) :
    Gives (CtlRes.Fine P Q) (onceCtl st kind pa ops again now) := by
  unfold onceCtl
  refine gives_bind (State.onceAt_fine h) fun _ h2 => ?_
  split
  · exact hagain _ _ (replayed_of rfl h2)
  · exact hnow _ h
  · split
    next e11 =>
      have h12 := busy_of e11 (State.commitGo_fine h)
      exact Gives.ok (stay_fine h12)
    next e15 =>
      have h16 := done_of e15 (State.commitGo_fine h)
      exact hnow _ h16

theorem joinBody_fine {d : BitVec 5} {h : BitVec 4} {k : BitVec 1} {o : BitVec 10} {st : State} (hs : State.Fine P Q st) :
    Gives (CtlRes.Fine P Q) (joinBody d h k o st) := by
  unfold joinBody
  refine gives_bind (groupOperand_fine hs) fun ⟨_, _, _⟩ h5 => ?_
  split
  next e10 =>
    have h11 := snd_of e10 h5
    refine iteInduction (fun _ => Gives.error) fun _ => ?_
    refine onceCtl_fine hs (fun _ _ h14 => Gives.ok (CtlRes.fine_mk (State.setTh_fine h14 (Thread.joined_fine h11)))) fun _ h16 => ?_
    refine gives_bind (State.groupAt_fine h16) fun ⟨_, _⟩ h20 => ?_
    split
    next e24 =>
      have h25 := fst_of e24 h20
      split
      · exact Gives.ok (CtlRes.fine_mk (State.onceLog_fine (State.setTh_fine
            (iteInduction (fun _ => h25) fun _ => State.atomicWrite_fine h25) (Thread.joined_fine h11))))

theorem execJoin_fine {d : BitVec 5} {h : BitVec 4} {k : BitVec 1} {o : BitVec 10} {st : State} (hs : State.Fine P Q st) :
    Next (State.Fine P Q) (execJoin d h k o st) := by
  unfold execJoin
  exact ctl_fine (fun _ h2 => joinBody_fine h2) hs

theorem leaveBody_fine {h : BitVec 4} {k : BitVec 1} {o : BitVec 10} {st : State} (hs : State.Fine P Q st) :
    Gives (CtlRes.Fine P Q) (leaveBody h k o st) := by
  unfold leaveBody
  refine gives_bind (groupOperand_fine hs) fun ⟨_, _, _⟩ h5 => ?_
  split
  next e10 =>
    have h11 := snd_of e10 h5
    split
    next e15 =>
      have h16 := busy_of e15 (State.releaseGo_fine hs)
      exact Gives.ok (stay_fine h16)
    next e19 =>
      have h20 := done_of e19 (State.releaseGo_fine hs)
      dsimp only
      split
      · exact Gives.ok (CtlRes.fine_mk (State.setTh_fine h20 h11))
      · refine gives_bind (State.onceAt_fine h20) fun _ h27 => ?_
        split
        · exact Gives.ok (CtlRes.fine_mk (State.setTh_fine (replayed_of rfl h27) h11))
        · exact gives_bind (State.groupAt_fine h20) fun ⟨_, _⟩ h36 => Gives.ok
              (CtlRes.fine_mk (State.onceLog_fine (State.setTh_fine (State.atomicWrite_fine h36) h11)))

theorem execLeave_fine {h : BitVec 4} {k : BitVec 1} {o : BitVec 10} {st : State} (hs : State.Fine P Q st) :
    Next (State.Fine P Q) (execLeave h k o st) := by
  unfold execLeave
  exact ctl_fine (fun _ h2 => leaveBody_fine h2) hs

theorem Thread.arrived_fine {t : Thread} {pa p : ℕ} (h : Thread.Fine Q t) : Thread.Fine Q (t.arrived pa p) := h

theorem gbarBody_fine {h : BitVec 4} {k : BitVec 1} {o : BitVec 10} {st : State} (hs : State.Fine P Q st) :
    Gives (CtlRes.Fine P Q) (gbarBody h k o st) := by
  unfold gbarBody
  refine gives_bind (groupOperand_fine hs) fun ⟨_, _, _⟩ h5 => ?_
  split
  next e10 =>
    have h11 := snd_of e10 h5
    refine iteInduction (fun _ => ?_) fun _ => ?_
    · refine gives_bind (State.groupAt_fine hs) fun ⟨_, _⟩ h15 => ?_
      split
      next e19 =>
        have h20 := fst_of e19 h15
        exact iteInduction (fun _ => Gives.error) fun _ => Gives.ok (CtlRes.fine_mk (State.acquire_fine (State.setTh_fine h20 h11)))
    · split
      · exact Gives.error
      · split
        next e29 =>
          have h30 := busy_of e29 (iteInduction (fun _ => Going.Fine.done hs) fun _ => State.releaseGo_fine hs)
          exact Gives.ok (stay_fine h30)
        next e33 =>
          have h34 := done_of e33 (iteInduction (fun _ => Going.Fine.done hs) fun _ => State.releaseGo_fine hs)
          refine gives_bind (State.onceAt_fine h34) fun _ h36 => ?_
          split
          · exact Gives.ok (stay_fine (State.setTh_fine (replayed_of rfl h36)
                (Thread.arrived_fine (State.th_fine (replayed_of rfl h36)))))
          · refine gives_bind (State.groupAt_fine h34) fun ⟨_, _⟩ h45 => ?_
            split
            next e49 =>
              have h50 := fst_of e49 h45
              exact iteInduction (fun _ => iteInduction (fun _ => Gives.error) fun _ => Gives.ok
                  (stay_fine (State.modThread_fine h50 fun _ h52 => h52))) fun _ => Gives.ok
                  (stay_fine (State.setTh_fine (State.onceLog_fine (State.atomicWrite_fine h50))
                  (Thread.arrived_fine (State.th_fine (State.onceLog_fine (State.atomicWrite_fine h50))))))

theorem execGbar_fine {h : BitVec 4} {k : BitVec 1} {o : BitVec 10} {st : State} (hs : State.Fine P Q st) :
    Next (State.Fine P Q) (execGbar h k o st) := by
  unfold execGbar
  exact ctl_fine (fun _ h2 => gbarBody_fine h2) hs

theorem ginfoBody_fine {d : BitVec 5} {h : BitVec 4} {k : BitVec 1} {o : BitVec 10} {st : State} (hs : State.Fine P Q st) :
    Gives (CtlRes.Fine P Q) (ginfoBody d h k o st) := by
  unfold ginfoBody
  refine gives_bind (groupOperand_fine hs) fun ⟨_, _, _⟩ h5 => ?_
  split
  next e10 =>
    have h11 := snd_of e10 h5
    refine iteInduction (fun _ => Gives.error) fun _ => ?_
    refine gives_bind (State.groupAt_fine hs) fun ⟨_, _⟩ h15 => ?_
    split
    next e19 =>
      have h20 := fst_of e19 h15
      exact Gives.ok (CtlRes.fine_mk (State.setTh_fine h20 (Thread.sendCtl_fine h11)))

theorem execGinfo_fine {d : BitVec 5} {h : BitVec 4} {k : BitVec 1} {o : BitVec 10} {st : State} (hs : State.Fine P Q st) :
    Next (State.Fine P Q) (execGinfo d h k o st) := by
  unfold execGinfo
  exact ctl_fine (fun _ h2 => ginfoBody_fine h2) hs

end Sys2Proof.Machine
end

section
/-! System words keep the invariant (O5, O15). -/

namespace Sys2Proof.Machine

open Sys2Proof

variable {P Q : Prop}

/-! ### Traps and handlers (R396 to R399) -/

theorem trapBody_fine {s : BitVec 5} {l : BitVec 1} {c : BitVec 7} {st : State} (h : State.Fine P Q st) :
    Gives (CtlRes.Fine P Q) (trapBody s l c st) := by
  unfold trapBody
  exact gives_then fun _ => Gives.ok (CtlRes.fine_mk (State.setTh_fine h (freeG_fine (State.th_fine h))))

theorem execTrap_fine {s : BitVec 5} {l : BitVec 1} {c : BitVec 7} {st : State} (h : State.Fine P Q st) :
    Next (State.Fine P Q) (execTrap s l c st) := by
  unfold execTrap
  exact ctl_fine (fun _ h2 => trapBody_fine h2) h

theorem afterCommit_fine {st : State} {f : State → M CtlRes} (h : State.Fine P Q st)
    (hf : ∀ (a : State), State.Fine P Q a → Gives (CtlRes.Fine P Q) (f a)) :
    Gives (CtlRes.Fine P Q) (afterCommit st f) := by
  unfold afterCommit
  split
  next e4 =>
    have h5 := busy_of e4 (State.commitGo_fine h)
    exact Gives.ok (stay_fine h5)
  next e8 =>
    have h9 := done_of e8 (State.commitGo_fine h)
    exact hf _ h9

theorem afterRelease_fine {scope : ℕ} {st : State} {f : State → M CtlRes} (h : State.Fine P Q st)
    (hf : ∀ (a : State), State.Fine P Q a → Gives (CtlRes.Fine P Q) (f a)) :
    Gives (CtlRes.Fine P Q) (afterRelease scope st f) := by
  unfold afterRelease
  split
  next e4 =>
    have h5 := busy_of e4 (State.releaseGo_fine h)
    exact Gives.ok (stay_fine h5)
  next e8 =>
    have h9 := done_of e8 (State.releaseGo_fine h)
    exact hf _ h9

theorem ecallBody_fine {s : BitVec 5} {l : BitVec 1} {c : BitVec 7} {st : State} (h : State.Fine P Q st) :
    Gives (CtlRes.Fine P Q) (ecallBody s l c st) := by
  unfold ecallBody
  exact gives_then fun _ => afterCommit_fine h fun _ h3 => Gives.ok (CtlRes.fine_mk (State.setTh_fine h3 (freeG_fine (State.th_fine h3))))

theorem execEcall_fine {s : BitVec 5} {l : BitVec 1} {c : BitVec 7} {st : State} (h : State.Fine P Q st) :
    Next (State.Fine P Q) (execEcall s l c st) := by
  unfold execEcall
  exact ctl_fine (fun _ h2 => ecallBody_fine h2) h

theorem trapretBody_fine {st : State} (h : State.Fine P Q st) : Gives (CtlRes.Fine P Q) (trapretBody st) := by
  unfold trapretBody
  refine gives_then fun _ => gives_require fun hr => ?_
  have hss := of_decide_eq_true (Bool.and_eq_true_iff.mp hr).1
  exact .ok (CtlRes.fine_mk (State.setTh_fine h (Thread.fine_set (Thread.returnFrom_fine (State.th_fine h) fun _ => hss))))

theorem execTrapret_fine {st : State} (h : State.Fine P Q st) : Next (State.Fine P Q) (execTrapret st) := by
  unfold execTrapret
  exact ctl_fine (fun _ h2 => trapretBody_fine h2) h

theorem State.pinned_fine {s : State} {ctx va rights : ℕ} {sys : Bool} (h : State.Fine P Q s) :
    Gives (Fst (State.Fine P Q)) (s.pinned ctx va rights sys) := by
  unfold State.pinned
  refine gives_bind (State.walkMeet_fine h) fun _ h2 => ?_
  split
  · exact Gives.ok h2
  · exact Gives.ok h2

theorem State.pinnedRange_fine {s : State} {ctx rights : ℕ} {sys : Bool} {stop n n2 : ℕ} (h : State.Fine P Q s) :
    Gives (Fst (State.Fine P Q)) (s.pinnedRange ctx rights sys stop n n2) := by
  induction n generalizing s n2 with
  | zero => exact .ok h
  | succ n ih =>
    unfold State.pinnedRange
    refine iteInduction (fun _ => .ok h) fun _ => gives_bind (State.pinned_fine h) fun ⟨_, _⟩ h1 => ?_
    dsimp only
    split
    · exact .ok h1
    · exact gives_bind (ih h1) fun ⟨_, _⟩ h2 => .ok h2

theorem State.installCheck_fine {s : State} {k va : ℕ} (h : State.Fine P Q s) : Gives (Fst (State.Fine P Q)) (s.installCheck k va) := by
  unfold State.installCheck
  refine iteInduction (fun _ => Gives.ok h) fun _ => ?_
  refine gives_bind (State.walkMeet_fine (State.acquire_fine h)) fun _ h2 => ?_
  split
  · refine iteInduction (fun _ => Gives.ok h2) fun _ => ?_
    refine gives_bind (State.loadBytes_fine h2) fun ⟨_, _, _⟩ h11 => ?_
    split
    next e16 =>
      have h17 := fst_of e16 h11
      refine iteInduction (fun _ => Gives.error) fun _ => ?_
      refine iteInduction (fun _ => Gives.ok h17) fun _ => ?_
      refine gives_bind (State.pinnedRange_fine h17) fun ⟨_, _⟩ h21 => ?_
      split
      next e25 =>
        have h26 := fst_of e25 h21
        refine gives_bind (State.pinnedRange_fine h26) fun ⟨_, _⟩ h30 => ?_
        split
        next e34 =>
          have h35 := fst_of e34 h30
          refine Gives.ok ?_
          split
          · exact h35
          · exact h35
  · exact Gives.ok h2

theorem installBody_fine {d s : BitVec 5} {l : BitVec 1} {st : State} (h : State.Fine P Q st) :
    Gives (CtlRes.Fine P Q) (installBody d s l st) := by
  unfold installBody
  refine gives_then fun _ => gives_then fun v => ?_
  have hf : ∀ {st : State}, State.Fine P Q st → Thread.Fine Q (freeG st.th l s.toNat) := fun h => freeG_fine (State.th_fine h)
  refine iteInduction (fun _ => ?_) fun _ => gives_bind (State.installCheck_fine h) fun ⟨_, _, _⟩ h1 => ?_
  · exact .ok (CtlRes.fine_mk (State.setTh_fine h (wrG_fine
        (Thread.fine_handlerBase (hf h) fun q => and_and_zero (hf h q).2.2.2.2.2.2.1))))
  · dsimp only
    split
    · exact .ok (CtlRes.fine_mk (State.setTh_fine h1 (wrG_fine (hf h1))))
    · exact .ok (CtlRes.fine_mk (State.setTh_fine h1 (wrG_fine (Thread.fine_handlerBase (hf h1) fun _ => handlerBase_reserved _))))

theorem execInstall_fine {d s : BitVec 5} {l : BitVec 1} {st : State} (h : State.Fine P Q st) :
    Next (State.Fine P Q) (execInstall d s l st) := by
  unfold execInstall
  exact ctl_fine (fun _ h2 => installBody_fine h2) h

/-! ### Hints, persistence, fences and commit (R400 to R403) -/

theorem phintBody_fine {i : BitVec 16} {st : State} (h : State.Fine P Q st) : Gives (CtlRes.Fine P Q) (phintBody i st) := by
  unfold phintBody
  exact iteInduction (fun _ => Gives.ok (CtlRes.fine_mk h)) fun _ => iteInduction (fun _ => Gives.error) fun _ => iteInduction
      (fun _ => Gives.error) fun _ => Gives.ok (CtlRes.fine_mk (State.beginSave_fine h fun _ h2 => Thread.pastUnit_fine h2))

theorem execPhint_fine {i : BitVec 16} {st : State} (h : State.Fine P Q st) : Next (State.Fine P Q) (execPhint i st) := by
  unfold execPhint
  exact ctl_fine (fun _ h2 => phintBody_fine h2) h

theorem pfenceBody_fine {c : BitVec 1} {st : State} (h : State.Fine P Q st) : Gives (CtlRes.Fine P Q) (pfenceBody c st) := by
  unfold pfenceBody
  exact gives_then fun _ => iteInduction (fun _ => Gives.ok (CtlRes.fine_mk (State.setTh_fine h (Thread.fine_set (State.th_fine h)))))
      fun _ => iteInduction (fun _ => afterCommit_fine h fun _ h3 => Gives.ok (CtlRes.fine_mk (State.persistPoint_fine h3))) fun _ =>
      iteInduction (fun _ => Gives.error) fun _ => Gives.ok (CtlRes.fine_mk (State.persistPoint_fine h))

theorem execPfence_fine {c : BitVec 1} {st : State} (h : State.Fine P Q st) : Next (State.Fine P Q) (execPfence c st) := by
  unfold execPfence
  exact ctl_fine (fun _ h2 => pfenceBody_fine h2) h

theorem fenceBody_fine {k : BitVec 3} {e : BitVec 2} {st : State} (h : State.Fine P Q st) :
    Gives (CtlRes.Fine P Q) (fenceBody k e st) := by
  unfold fenceBody
  exact iteInduction (fun _ => Gives.ok (CtlRes.fine_mk h)) fun _ => iteInduction (fun _ => Gives.error) fun _ => iteInduction
      (fun _ => afterRelease_fine (State.modThread_fine h fun _ h2 => h2) fun _ h4 => Gives.ok
      (CtlRes.fine_mk (iteInduction (fun _ => State.acquire_fine h4) fun _ => h4))) fun _ => Gives.ok
      (CtlRes.fine_mk (iteInduction (fun _ => State.acquire_fine h) fun _ => h))

theorem execFence_fine {k : BitVec 3} {e : BitVec 2} {st : State} (h : State.Fine P Q st) : Next (State.Fine P Q) (execFence k e st) := by
  unfold execFence
  exact ctl_fine (fun _ h2 => fenceBody_fine h2) h

theorem qsyncBody_fine {st : State} (h : State.Fine P Q st) : Gives (CtlRes.Fine P Q) (qsyncBody st) := by
  unfold qsyncBody
  exact iteInduction (fun _ => Gives.error) fun _ => iteInduction (fun _ => Gives.error) fun _ => Gives.ok
      (CtlRes.fine_mk (State.setTh_fine h (Thread.fine_set (State.th_fine h))))

theorem execQsync_fine {st : State} (h : State.Fine P Q st) : Next (State.Fine P Q) (execQsync st) := by
  unfold execQsync
  exact ctl_fine (fun _ h2 => qsyncBody_fine h2) h

theorem execTcommit_fine {st : State} (h : State.Fine P Q st) : Next (State.Fine P Q) (execTcommit st) := by
  unfold execTcommit
  exact ctl_fine (fun _ h2 => afterCommit_fine h2 fun _ h4 => Gives.ok (CtlRes.fine_mk h4)) h

/-! ### Ending a task (R404, R405) -/

theorem State.threadEnds_fine {s : State} {k : ℕ} (h : State.Fine P Q s) : State.Fine P Q (s.threadEnds k) := by
  unfold State.threadEnds
  dsimp only
  split
  · exact State.endThread_fine h
  · exact iteInduction (fun _ => State.finishTask_fine (State.modTask_fine (State.modThread_fine h fun _ h8 => h8) fun _ h10 => h10))
        fun _ => iteInduction (fun _ => State.refillReady_fine
        (State.modTask_fine (State.endThread_fine (State.modTask_fine h fun _ h12 => h12)) fun _ h14 => h14)) fun _ =>
        State.endThread_fine (State.modTask_fine h fun _ h16 => h16)

theorem endStays_fine {st : State} (h : State.Fine P Q st) : CtlRes.Fine P Q (endStays st) := by
  unfold endStays
  exact stay_fine (State.modThread_fine h fun _ h2 => h2)

theorem tendBody_fine {st : State} (h : State.Fine P Q st) : Gives (CtlRes.Fine P Q) (tendBody st) := by
  unfold tendBody
  exact iteInduction (fun _ => Gives.ok (endStays_fine h)) fun _ => iteInduction
      (fun _ => afterCommit_fine (State.modThread_fine h fun _ h2 => h2) fun _ h4 => Gives.ok
      (CtlRes.fine_mk (State.threadEnds_fine h4))) fun _ => afterRelease_fine (State.modThread_fine h fun _ h6 => h6) fun _ h8 =>
      Gives.ok (CtlRes.fine_mk (State.threadEnds_fine h8))

theorem execTend_fine {st : State} (h : State.Fine P Q st) : Next (State.Fine P Q) (execTend st) := by
  unfold execTend
  exact ctl_fine (fun _ h2 => tendBody_fine h2) h

theorem tabortBody_fine {c : BitVec 8} {st : State} (h : State.Fine P Q st) : Gives (CtlRes.Fine P Q) (tabortBody c st) := by
  unfold tabortBody
  exact Gives.ok (iteInduction (fun _ => CtlRes.fine_mk (State.endTask_fine (State.stopMates_fine h))) fun _ => endStays_fine
      (State.stopMates_fine h))

theorem execTabort_fine {c : BitVec 8} {st : State} (h : State.Fine P Q st) : Next (State.Fine P Q) (execTabort c st) := by
  unfold execTabort
  exact ctl_fine (fun _ h2 => tabortBody_fine h2) h

/-! ### Planes (R406, R407) -/

theorem State.swapOut_fine {s : State} {k i : ℕ} (h : State.Fine P Q s) : State.Fine P Q (s.swapOut k i) := by
  unfold State.swapOut
  exact State.activate_fine (State.leaseSwap_fine (State.keepImages_fine (State.modThread_fine h fun _ h2 => h2)))

theorem pswapBody_fine {d s : BitVec 5} {l : BitVec 1} {st : State} (h : State.Fine P Q st) :
    Gives (CtlRes.Fine P Q) (pswapBody d s l st) := by
  unfold pswapBody
  exact gives_then fun _ => iteInduction (fun _ => Gives.ok
      (CtlRes.fine_mk (State.setTh_fine h (wrG_fine (freeG_fine (State.th_fine h)))))) fun _ => iteInduction (fun _ => Gives.error)
      fun _ => Gives.ok (CtlRes.fine_mk (State.swapOut_fine (State.setTh_fine h (wrG_fine (freeG_fine (State.th_fine h))))))

theorem execPswap_fine {d s : BitVec 5} {l : BitVec 1} {st : State} (h : State.Fine P Q st) :
    Next (State.Fine P Q) (execPswap d s l st) := by
  unfold execPswap
  exact ctl_fine (fun _ h2 => pswapBody_fine h2) h

theorem idleBody_fine {i : BitVec 12} {st : State} (h : State.Fine P Q st) : Gives (CtlRes.Fine P Q) (idleBody i st) := by
  unfold idleBody
  refine iteInduction (fun _ => iteInduction (fun _ => Gives.ok (CtlRes.fine_mk h)) fun _ => iteInduction (fun _ => Gives.error) fun _ =>
      Gives.ok (stay_fine (State.setTh_fine h (Thread.fine_set (State.th_fine h))))) fun _ => ?_
  refine iteInduction (fun _ => iteInduction (fun _ => Gives.error) fun _ => Gives.ok
      (CtlRes.fine_mk (State.beginSave_fine h fun _ h2 => h2))) fun _ => ?_
  split
  · exact Gives.ok (CtlRes.fine_mk h)
  · exact iteInduction (fun _ => Gives.ok (CtlRes.fine_mk (State.setTh_fine h (Thread.fine_set (State.th_fine h))))) fun _ => Gives.error

theorem execIdle_fine {i : BitVec 12} {st : State} (h : State.Fine P Q st) : Next (State.Fine P Q) (execIdle i st) := by
  unfold execIdle
  exact ctl_fine (fun _ h2 => idleBody_fine h2) h

/-! ### Graphs (R408, R409) -/

theorem State.kickAt_fine {s : State} {replay : Bool} {v : W} (h : State.Fine P Q s) :
    Gives (Fst (State.Fine P Q)) (s.kickAt replay v) := by
  unfold State.kickAt
  split
  · exact Gives.ok h
  · exact iteInduction (fun _ => iteInduction (fun _ => Gives.ok h) fun _ => Gives.ok (State.setSlot_fine h)) fun _ => iteInduction
        (fun _ => Gives.ok h) fun _ => iteInduction (fun _ => Gives.error) fun _ => iteInduction (fun _ => Gives.error) fun _ => Gives.ok
        (State.addTask_fine h)

theorem kickBody_fine {replay : Bool} {d s : BitVec 5} {l : BitVec 1} {st : State} (h : State.Fine P Q st) :
    Gives (CtlRes.Fine P Q) (kickBody replay d s l st) := by
  unfold kickBody
  refine gives_then fun _ => ?_
  refine onceCtl_fine h (fun _ _ h4 => Gives.ok (CtlRes.fine_mk (State.setTh_fine h4 (wrG_fine (freeG_fine (State.th_fine h4))))))
      fun _ h6 => ?_
  refine gives_bind (State.kickAt_fine h6) fun ⟨_, _⟩ h10 => ?_
  split
  next e14 =>
    have h15 := fst_of e14 h10
    exact Gives.ok (CtlRes.fine_mk (State.setTh_fine (State.onceLog_fine h15)
        (wrG_fine (freeG_fine (State.th_fine (State.onceLog_fine h15))))))

theorem execKick_fine {d s : BitVec 5} {l : BitVec 1} {st : State} (h : State.Fine P Q st) :
    Next (State.Fine P Q) (execKick d s l st) := by
  unfold execKick
  exact ctl_fine (fun _ h2 => kickBody_fine h2) h

theorem execKickR_fine {d s : BitVec 5} {l : BitVec 1} {st : State} (h : State.Fine P Q st) :
    Next (State.Fine P Q) (execKickR d s l st) := by
  unfold execKickR
  exact ctl_fine (fun _ h2 => kickBody_fine h2) h

theorem nwaitBody_fine {d s : BitVec 5} {l : BitVec 1} {t : BitVec 5} {m : BitVec 1} {st : State} (h : State.Fine P Q st) :
    Gives (CtlRes.Fine P Q) (nwaitBody d s l t m st) := by
  unfold nwaitBody
  refine gives_then fun _ => gives_then fun _ => ?_
  dsimp only
  split
  · exact Gives.ok (CtlRes.fine_mk (State.setTh_fine h (wrG_fine (freeG_fine (freeG_fine (State.th_fine h))))))
  · exact iteInduction (fun _ => Gives.ok (CtlRes.fine_mk (State.setTh_fine h (wrG_fine (freeG_fine (freeG_fine (State.th_fine h)))))))
        fun _ => iteInduction (fun _ => Gives.ok (CtlRes.fine_mk
        (State.setTh_fine (State.acquire_fine h) (wrG_fine (freeG_fine (freeG_fine (State.th_fine (State.acquire_fine h)))))))) fun _ =>
        iteInduction (fun _ => Gives.ok (CtlRes.fine_mk (State.setTh_fine (State.acquire_fine h)
        (wrG_fine (freeG_fine (freeG_fine (State.th_fine (State.acquire_fine h)))))))) fun _ => Gives.error

theorem execNwait_fine {d s : BitVec 5} {l : BitVec 1} {t : BitVec 5} {m : BitVec 1} {st : State} (h : State.Fine P Q st) :
    Next (State.Fine P Q) (execNwait d s l t m st) := by
  unfold execNwait
  exact ctl_fine (fun _ h2 => nwaitBody_fine h2) h

/-! ### Barrier objects (R227, R410, R411) -/

theorem barSetBody_fine {keep : Bool} {d : BitVec 5} {h : BitVec 4} {k : BitVec 1} {o : BitVec 10} {st : State} (hs : State.Fine P Q st) :
    Gives (CtlRes.Fine P Q) (barSetBody keep d h k o st) := by
  unfold barSetBody
  refine gives_bind (ctlHandle_fine (State.th_fine hs)) fun _ h2 => ?_
  refine gives_bind (cmOfs_fine h2) fun ⟨_, _⟩ h6 => ?_
  split
  next e10 =>
    have h11 := snd_of e10 h6
    refine gives_then fun _ => gives_then fun _ => gives_then fun _ => ?_
    refine onceCtl_fine hs (fun _ _ h17 => Gives.ok (CtlRes.fine_mk (State.setTh_fine h17 h11))) fun _ h19 => ?_
    refine gives_bind (State.atomicRead_fine h19) fun ⟨_, _⟩ h23 => ?_
    split
    next e27 =>
      have h28 := fst_of e27 h23
      exact Gives.ok (CtlRes.fine_mk (State.setTh_fine (State.onceLog_fine (State.atomicWrite_fine h28)) h11))

theorem execBarinit_fine {d : BitVec 5} {h : BitVec 4} {k : BitVec 1} {o : BitVec 10} {st : State} (hs : State.Fine P Q st) :
    Next (State.Fine P Q) (execBarinit d h k o st) := by
  unfold execBarinit
  exact ctl_fine (fun _ h2 => barSetBody_fine h2) hs

theorem execBarexp_fine {d : BitVec 5} {h : BitVec 4} {k : BitVec 1} {o : BitVec 10} {st : State} (hs : State.Fine P Q st) :
    Next (State.Fine P Q) (execBarexp d h k o st) := by
  unfold execBarexp
  exact ctl_fine (fun _ h2 => barSetBody_fine h2) hs

theorem State.homeData_fine {s : State} {pa n : ℕ} (h : State.Fine P Q s) : Gives (Fst (State.Fine P Q)) (s.homeData pa n) := by
  unfold State.homeData
  refine gives_bind (State.unitBytes_fine h) fun ⟨_, _, _⟩ h5 => ?_
  split
  next e10 =>
    have h11 := fst_of e10 h5
    exact iteInduction (fun _ => Gives.error) fun _ => Gives.ok (State.renewLine_fine h11)

theorem barwaitBody_fine {d : BitVec 5} {h : BitVec 4} {k : BitVec 1} {o : BitVec 10} {st : State} (hs : State.Fine P Q st) :
    Gives (CtlRes.Fine P Q) (barwaitBody d h k o st) := by
  unfold barwaitBody
  refine gives_bind (ctlHandle_fine (State.th_fine hs)) fun _ h2 => ?_
  refine gives_bind (cmOfs_fine h2) fun ⟨_, _⟩ h6 => ?_
  split
  next e10 =>
    have h11 := snd_of e10 h6
    refine gives_then fun _ => gives_then fun _ => ?_
    refine gives_bind (State.homeData_fine hs) fun ⟨_, _⟩ h17 => ?_
    split
    next e21 =>
      have h22 := fst_of e21 h17
      exact iteInduction (fun _ => Gives.error) fun _ => Gives.ok (CtlRes.fine_mk (State.setTh_fine h22 h11))

theorem execBarwait_fine {d : BitVec 5} {h : BitVec 4} {k : BitVec 1} {o : BitVec 10} {st : State} (hs : State.Fine P Q st) :
    Next (State.Fine P Q) (execBarwait d h k o st) := by
  unfold execBarwait
  exact ctl_fine (fun _ h2 => barwaitBody_fine h2) hs

/-! ### Snapshots and collectives (R412, R413) -/

theorem State.snapRegister_fine {s : State} {ctx root : ℕ} (h : State.Fine P Q s) : State.Fine P Q (s.snapRegister ctx root) := by
  unfold State.snapRegister
  exact iteInduction (fun _ => h) fun _ => h

theorem snapcBody_fine {d : BitVec 5} {h : BitVec 4} {k : BitVec 1} {o : BitVec 10} {st : State} (hs : State.Fine P Q st) :
    Gives (CtlRes.Fine P Q) (snapcBody d h k o st) := by
  unfold snapcBody
  refine gives_bind (ctlHandle_fine (State.th_fine hs)) fun _ h2 => ?_
  refine gives_bind (cmOfs_fine h2) fun ⟨_, _⟩ h6 => ?_
  split
  next e10 =>
    have h11 := snd_of e10 h6
    refine gives_then fun _ => ?_
    refine gives_bind (State.homeData_fine hs) fun ⟨_, _⟩ h16 => ?_
    split
    next e20 =>
      have h21 := fst_of e20 h16
      refine gives_then fun _ => ?_
      refine afterRelease_fine h21 fun _ h24 => ?_
      refine gives_bind (State.onceAt_fine h24) fun _ h26 => ?_
      split
      · exact Gives.ok (CtlRes.fine_mk (State.setTh_fine (replayed_of rfl h26) (wrG_fine h11)))
      · refine gives_bind (State.atomicRead_fine h24) fun ⟨_, _⟩ h35 => ?_
        split
        next e39 =>
          have h40 := fst_of e39 h35
          exact iteInduction (fun _ => Gives.ok (CtlRes.fine_mk (State.setTh_fine (State.onceLog_fine h40) (wrG_fine h11)))) fun _ =>
              Gives.ok (CtlRes.fine_mk (State.setTh_fine (State.onceLog_fine (State.atomicWrite_fine (State.snapRegister_fine h40)))
              (wrG_fine h11)))

theorem execSnapc_fine {d : BitVec 5} {h : BitVec 4} {k : BitVec 1} {o : BitVec 10} {st : State} (hs : State.Fine P Q st) :
    Next (State.Fine P Q) (execSnapc d h k o st) := by
  unfold execSnapc
  exact ctl_fine (fun _ h2 => snapcBody_fine h2) hs

theorem State.collSubmit_fine {s : State} {c0 : Coll} (h : State.Fine P Q s) : State.Fine P Q (s.collSubmit c0) := h

theorem collBody_fine {d : BitVec 5} {h : BitVec 4} {k : BitVec 1} {o : BitVec 10} {st : State} (hs : State.Fine P Q st) :
    Gives (CtlRes.Fine P Q) (collBody d h k o st) := by
  unfold collBody
  refine gives_bind (ctlHandle_fine (State.th_fine hs)) fun _ h2 => ?_
  refine gives_bind (cmOfs_fine h2) fun ⟨_, _⟩ h6 => ?_
  split
  next e10 =>
    have h11 := snd_of e10 h6
    refine gives_then fun _ => ?_
    refine gives_bind (State.loadData_fine (State.acquire_fine hs)) fun ⟨_, _⟩ h16 => ?_
    split
    next e20 =>
      have h21 := fst_of e20 h16
      dsimp only
      split
      · exact Gives.error
      · exact onceCtl_fine h21 (fun _ _ h29 => Gives.ok (CtlRes.fine_mk (State.setTh_fine h29 (wrG_fine h11)))) fun _ h31 => iteInduction
            (fun _ => Gives.error) fun _ => Gives.ok (CtlRes.fine_mk
            (State.setTh_fine (State.onceLog_fine (State.modTask_fine (State.collSubmit_fine h31) fun _ h33 => h33)) (wrG_fine h11)))

theorem execColl_fine {d : BitVec 5} {h : BitVec 4} {k : BitVec 1} {o : BitVec 10} {st : State} (hs : State.Fine P Q st) :
    Next (State.Fine P Q) (execColl d h k o st) := by
  unfold execColl
  exact ctl_fine (fun _ h2 => collBody_fine h2) hs

/-! ### Energy, time and dies (R414 to R418) -/

theorem opreqBody_fine {d : BitVec 5} {i : BitVec 12} {st : State} (h : State.Fine P Q st) :
    Gives (CtlRes.Fine P Q) (opreqBody d i st) := by
  unfold opreqBody
  exact iteInduction (fun _ => Gives.ok (CtlRes.fine_mk (State.setTh_fine (State.modTask_fine h fun _ h2 => h2)
      (wrG_fine (State.th_fine (State.modTask_fine h fun _ h4 => h4)))))) fun _ => iteInduction
      (fun _ => Gives.ok (CtlRes.fine_mk (State.setTh_fine (State.modTask_fine h fun _ h6 => h6)
      (wrG_fine (State.th_fine (State.modTask_fine h fun _ h8 => h8)))))) fun _ => Gives.ok
      (CtlRes.fine_mk (State.setTh_fine h (wrG_fine (State.th_fine h))))

theorem execOpreq_fine {d : BitVec 5} {i : BitVec 12} {st : State} (h : State.Fine P Q st) :
    Next (State.Fine P Q) (execOpreq d i st) := by
  unfold execOpreq
  exact ctl_fine (fun _ h2 => opreqBody_fine h2) h

theorem execCurtq_fine {d : BitVec 5} {st : State} (h : State.Fine P Q st) : Next (State.Fine P Q) (execCurtq d st) := by
  unfold execCurtq
  exact ctl_fine (fun _ h2 => Gives.ok (CtlRes.fine_mk (State.setTh_fine h2 (wrG_fine (State.th_fine h2))))) h

theorem execRdtime_fine {d : BitVec 5} {st : State} (h : State.Fine P Q st) : Next (State.Fine P Q) (execRdtime d st) := by
  unfold execRdtime
  exact ctl_fine (fun _ h2 => Gives.ok (CtlRes.fine_mk (State.setTh_fine h2 (wrG_fine (State.th_fine h2))))) h

theorem rdengyBody_fine {d : BitVec 5} {i : BitVec 12} {st : State} (h : State.Fine P Q st) :
    Gives (CtlRes.Fine P Q) (rdengyBody d i st) := by
  unfold rdengyBody
  split
  · exact Gives.error
  · exact Gives.ok (CtlRes.fine_mk (State.setTh_fine h (wrG_fine (State.th_fine h))))

theorem execRdengy_fine {d : BitVec 5} {i : BitVec 12} {st : State} (h : State.Fine P Q st) :
    Next (State.Fine P Q) (execRdengy d i st) := by
  unfold execRdengy
  exact ctl_fine (fun _ h2 => rdengyBody_fine h2) h

theorem dhopsBody_fine {d s : BitVec 5} {l : BitVec 1} {t : BitVec 5} {m : BitVec 1} {st : State} (h : State.Fine P Q st) :
    Gives (CtlRes.Fine P Q) (dhopsBody d s l t m st) := by
  unfold dhopsBody
  exact gives_then fun _ => gives_then fun _ => Gives.ok (CtlRes.fine_mk
      (State.setTh_fine h (wrG_fine (freeG_fine (freeG_fine (State.th_fine h))))))

theorem execDhops_fine {d s : BitVec 5} {l : BitVec 1} {t : BitVec 5} {m : BitVec 1} {st : State} (h : State.Fine P Q st) :
    Next (State.Fine P Q) (execDhops d s l t m st) := by
  unfold execDhops
  exact ctl_fine (fun _ h2 => dhopsBody_fine h2) h

theorem vdmapBody_fine {d s : BitVec 5} {l : BitVec 1} {t : BitVec 5} {m : BitVec 1} {st : State} (h : State.Fine P Q st) :
    Gives (CtlRes.Fine P Q) (vdmapBody d s l t m st) := by
  unfold vdmapBody
  exact gives_then fun _ => gives_then fun _ => gives_then fun _ => Gives.ok
      (CtlRes.fine_mk (State.setTh_fine (iteInduction (fun _ => h) fun _ => h)
      (wrG_fine (freeG_fine (freeG_fine (State.th_fine (iteInduction (fun _ => h) fun _ => h)))))))

theorem execVdmap_fine {d s : BitVec 5} {l : BitVec 1} {t : BitVec 5} {m : BitVec 1} {st : State} (h : State.Fine P Q st) :
    Next (State.Fine P Q) (execVdmap d s l t m st) := by
  unfold execVdmap
  exact ctl_fine (fun _ h2 => vdmapBody_fine h2) h

/-! ### Prefix words (R267 to R271) -/

theorem execRep_fine {n : BitVec 6} {d s t : BitVec 1} {st : State} (h : State.Fine P Q st) :
    Next (State.Fine P Q) (execRep n d s t st) := by
  unfold execRep
  exact collectPrefix_fine h

theorem execPred_fine {p : BitVec 3} {v : BitVec 1} {st : State} (h : State.Fine P Q st) : Next (State.Fine P Q) (execPred p v st) := by
  unfold execPred
  exact collectPrefix_fine h

theorem execExti_fine {i : BitVec 24} {st : State} (h : State.Fine P Q st) : Next (State.Fine P Q) (execExti i st) := by
  unfold execExti
  exact collectPrefix_fine h

end Sys2Proof.Machine
end

section
/-! Events of threads, images, rings, launches, placement and energy keep the invariant (O5, O15). -/

namespace Sys2Proof.Machine

open Sys2Proof

variable {P Q : Prop}

/-! ### Translation (R28, R70, R71) -/

theorem execXlateSettle_fine {thr k : ℕ} {s : State} (h : State.Fine P Q s) : Next (State.Fine P Q) (execXlateSettle thr k s) := by
  unfold execXlateSettle
  exact Next.next (State.doSettle_fine h)

theorem execWalkComplete_fine {die k : ℕ} {s : State} (h : State.Fine P Q s) : Next (State.Fine P Q) (execWalkComplete die k s) := by
  unfold execWalkComplete
  exact Next.next (State.doWalkComplete_fine h)

theorem State.requeueDue_fine {s : State} {uid : ℕ} (h : State.Fine P Q s) : State.Fine P Q (s.requeueDue uid) := by
  unfold State.requeueDue
  split
  · exact h
  · split
    · exact h
    · exact iteInduction (fun _ => State.requeue_fine h) fun _ => h

theorem execMonitorRequeueTimeout_fine {task : ℕ} {s : State} (h : State.Fine P Q s) :
    Next (State.Fine P Q) (execMonitorRequeueTimeout task s) := by
  unfold execMonitorRequeueTimeout
  exact Next.next (State.requeueDue_fine h)

theorem execVersionOverflowRequeue_fine {task : ℕ} {s : State} (h : State.Fine P Q s) :
    Next (State.Fine P Q) (execVersionOverflowRequeue task s) := by
  unfold execVersionOverflowRequeue
  exact Next.next (State.requeueDue_fine h)

/-! ### Words, images and lines on their way -/

theorem execEngineWordFinish_fine {thr k : ℕ} {s : State} (h : State.Fine P Q s) :
    Next (State.Fine P Q) (execEngineWordFinish thr k s) := by
  unfold execEngineWordFinish
  exact Next.next (State.wordFinish_fine h)

theorem execPendingPersistPoint_fine {thr : ℕ} {s : State} (h : State.Fine P Q s) :
    Next (State.Fine P Q) (execPendingPersistPoint thr s) := by
  unfold execPendingPersistPoint
  exact Next.next (State.takePending_fine h)

theorem execImageComplete_fine {die k : ℕ} {s : State} (h : State.Fine P Q s) : Next (State.Fine P Q) (execImageComplete die k s) := by
  unfold execImageComplete
  split
  · exact Next.next h
  · exact Next.next (iteInduction (fun _ => h) fun _ => State.imageComplete_fine h)

theorem execCommitImageCopyDone_fine {die k : ℕ} {s : State} (h : State.Fine P Q s) :
    Next (State.Fine P Q) (execCommitImageCopyDone die k s) := by
  unfold execCommitImageCopyDone
  exact Next.next (State.copyDone_fine h)

theorem execWriteThroughArrival_fine {die k : ℕ} {s : State} (h : State.Fine P Q s) :
    Next (State.Fine P Q) (execWriteThroughArrival die k s) := by
  unfold execWriteThroughArrival
  exact Next.next (State.writeThrough_fine h)

theorem execFlushMarkerAck_fine {thr dest : ℕ} {s : State} (h : State.Fine P Q s) :
    Next (State.Fine P Q) (execFlushMarkerAck thr dest s) := by
  unfold execFlushMarkerAck
  exact Next.next (State.flushAck_fine h)

theorem execControlPathAccessPerforms_fine {thr k : ℕ} {s : State} (h : State.Fine P Q s) :
    Next (State.Fine P Q) (execControlPathAccessPerforms thr k s) := by
  unfold execControlPathAccessPerforms
  exact Next.next (State.ctlPerform_fine h)

/-! ### Barrier additions (R122, R124, R227) -/

theorem State.mergeFlags_fine {s : State} {uid pos : ℕ} {f : W32} (h : State.Fine P Q s) : State.Fine P Q (s.mergeFlags uid pos f) := by
  unfold State.mergeFlags
  split
  · exact State.modThread_fine h fun _ h5 => h5
  · exact iteInduction (fun _ => h) fun _ => State.modTask_fine h fun _ h9 => Task.orFlags_fine h9

theorem State.asyncDone_fine {s : State} {uid : ℕ} (h : State.Fine P Q s) : State.Fine P Q (s.asyncDone uid) := by
  unfold State.asyncDone
  exact State.finishTask_fine (State.modTask_fine h fun _ h2 => h2)

theorem State.barrierArrives_fine {s : State} {k : ℕ} (h : State.Fine P Q s) : State.Fine P Q (s.barrierArrives k) := by
  unfold State.barrierArrives
  split
  · exact h
  · refine iteInduction (fun _ => h) fun _ => ?_
    dsimp only
    split
    · exact State.barrierAdd_fine h
    · exact State.asyncDone_fine (State.barrierAdd_fine (State.mergeFlags_fine h))

theorem execBarrierAddition_fine {k : ℕ} {s : State} (h : State.Fine P Q s) : Next (State.Fine P Q) (execBarrierAddition k s) := by
  unfold execBarrierAddition
  exact Next.next (State.barrierArrives_fine h)

/-! ### Queue heads and slot rings (R141, R144 to R147) -/

theorem execQueueElementArrival_fine {thr k : ℕ} {s : State} (h : State.Fine P Q s) :
    Next (State.Fine P Q) (execQueueElementArrival thr k s) := by
  unfold execQueueElementArrival
  exact Next.next (State.queueArrive_fine h)

theorem State.tryHome_fine {s : State} {r : M (State × List Byte × Bool)} (h : State.Fine P Q s) (hr : Gives (Fst (State.Fine P Q)) r) :
    Ends (State.Fine P Q) (Fst (State.Fine P Q)) (s.tryHome r) := by
  unfold State.tryHome
  split
  · exact Ends.ok (ok_of rfl hr)
  · exact Ends.error (State.meetBursts_fine (State.meetLine_fine h))
  · exact Ends.error (State.askPeer_fine h)
  · exact Ends.error h

theorem State.loaderDeliver_fine {s : State} {k q : ℕ} (h : State.Fine P Q s) : State.Fine P Q (s.loaderDeliver k q) := by
  unfold State.loaderDeliver
  dsimp only
  split
  · exact h
  · refine iteInduction (fun _ => h) fun _ => ?_
    refine iteInduction (fun _ => h) fun _ => ?_
    split
    next e8 =>
      have h9 := ends_error_of e8 (State.tryHome_fine h (State.homeBytes_fine h))
      exact h9
    next e14 =>
      have h15 := ends_ok_of e14 (State.tryHome_fine h (State.homeBytes_fine h))
      exact iteInduction (fun _ => State.raiseAt_fine h15) fun _ => State.setThread_fine h15 (Thread.fine_set (State.thread_fine h))

theorem execLoaderSlotDelivery_fine {thr q : ℕ} {s : State} (h : State.Fine P Q s) :
    Next (State.Fine P Q) (execLoaderSlotDelivery thr q s) := by
  unfold execLoaderSlotDelivery
  exact Next.next (State.loaderDeliver_fine h)

theorem State.storerWrite_fine {s : State} {k : ℕ} (h : State.Fine P Q s) : State.Fine P Q (s.storerWrite k) := by
  unfold State.storerWrite
  split
  · exact h
  · exact iteInduction (fun _ => h) fun _ => iteInduction (fun _ => State.snoopRange_fine h) fun _ => State.publish_fine
        (State.modTask_fine (State.engineWrite_fine h) fun _ h9 => h9)

theorem execStorerSlotWrite_fine {k : ℕ} {s : State} (h : State.Fine P Q s) : Next (State.Fine P Q) (execStorerSlotWrite k s) := by
  unfold execStorerSlotWrite
  exact Next.next (State.storerWrite_fine h)

/-! ### Fetch faults, the checker, waits (R407, R428, R432, R439) -/

theorem execFetchFault_fine {thr : ℕ} {s : State} (h : State.Fine P Q s) : Next (State.Fine P Q) (execFetchFault thr s) := by
  unfold execFetchFault
  refine iteInduction (fun _ => Next.next h) fun _ => ?_
  split
  next e4 =>
    have h5 := fst_of e4 (State.fetch_fine h)
    exact Next.next (State.raiseAt_fine h5)
  · exact Next.next h

theorem State.checkerMiss_fine {s : State} {k : ℕ} (h : State.Fine P Q s) : State.Fine P Q (s.checkerMiss k) := by
  unfold State.checkerMiss
  dsimp only
  split
  · exact h
  · exact iteInduction (fun _ => h) fun _ => State.deliver_fine (State.modCore_fine h fun _ h8 => h8)

theorem execCheckerMismatch_fine {thr : ℕ} {s : State} (h : State.Fine P Q s) : Next (State.Fine P Q) (execCheckerMismatch thr s) := by
  unfold execCheckerMismatch
  exact Next.next (State.checkerMiss_fine h)

theorem State.watchdogFire_fine {s : State} {k : ℕ} (h : State.Fine P Q s) : State.Fine P Q (s.watchdogFire k) := by
  unfold State.watchdogFire
  refine iteInduction (fun _ => h) fun _ => ?_
  dsimp only
  split
  · exact State.raiseAt_fine (State.setThread_fine h (Thread.fine_set (State.thread_fine h)))
  · split
    · exact h
    · split
      · exact State.raiseAt_fine (State.setThread_fine h (Thread.setWait_fine (State.thread_fine h)))
      · exact h

theorem execWatchdog_fine {thr : ℕ} {s : State} (h : State.Fine P Q s) : Next (State.Fine P Q) (execWatchdog thr s) := by
  unfold execWatchdog
  exact Next.next (State.watchdogFire_fine h)

theorem execIdleTimeout_fine {thr : ℕ} {s : State} (h : State.Fine P Q s) : Next (State.Fine P Q) (execIdleTimeout thr s) := by
  unfold execIdleTimeout
  dsimp only
  split
  · exact Next.next h
  · exact Next.next (iteInduction (fun _ => State.setThread_fine h (Thread.fine_set (State.thread_fine h))) fun _ => h)

/-! ### Lanes (R148) -/

theorem State.mapSlots_fine {s : State} {f : ℕ → BSlot → BSlot} (h : State.Fine P Q s) : State.Fine P Q (s.mapSlots f) := h

/-! ### Lap boundaries (R148, R150, R154, R157, R229) -/

theorem State.lapForce_fine {s : State} (h : State.Fine P Q s) : State.Fine P Q s.lapForce := by
  unfold State.lapForce
  exact State.post_fine h

theorem State.nextLap_fine {s : State} (h : State.Fine P Q s) : State.Fine P Q s.nextLap := by
  unfold State.nextLap
  exact iteInduction (fun _ => State.lapForce_fine (State.mapSlots_fine h)) fun _ => State.mapSlots_fine h

theorem execLapBoundary_fine {s : State} (h : State.Fine P Q s) : Next (State.Fine P Q) (execLapBoundary s) := by
  unfold execLapBoundary
  exact Next.next (iteInduction (fun _ => State.nextLap_fine h) fun _ => h)

/-! ### Frames (R151 to R154) -/

theorem State.frameHeader_fine {s : State} {lane : ℕ} (h : State.Fine P Q s) : State.Fine P Q (s.frameHeader lane) := by
  unfold State.frameHeader
  refine iteInduction (fun _ => h) fun _ => ?_
  dsimp only
  split
  · exact h
  · refine iteInduction (fun _ => h) fun _ => ?_
    split
    next e8 =>
      have h9 := ends_error_of e8 (State.tryHome_fine h (State.homeBytes_fine h))
      exact h9
    next e14 =>
      have h15 := ends_ok_of e14 (State.tryHome_fine h (State.homeBytes_fine h))
      exact State.mapSlots_fine (State.fine_set (State.portUse_fine h15))

theorem execFrameHeaderArrival_fine {lane : ℕ} {s : State} (h : State.Fine P Q s) :
    Next (State.Fine P Q) (execFrameHeaderArrival lane s) := by
  unfold execFrameHeaderArrival
  exact Next.next (State.frameHeader_fine h)

theorem State.frameFailed_fine {s : State} {e : LapEntry} {reason : ℕ} (h : State.Fine P Q s) :
    State.Fine P Q (s.frameFailed e reason) := by
  unfold State.frameFailed
  exact State.post_fine (State.countErr_fine h)

theorem State.frameEnd_fine {s : State} {lane : ℕ} {badCrc badRes : Bool} (h : State.Fine P Q s) :
    State.Fine P Q (s.frameEnd lane badCrc badRes) := by
  unfold State.frameEnd
  dsimp only
  split
  · exact h
  · exact iteInduction (fun _ => State.frameFailed_fine (State.fine_set (State.mapSlots_fine h))) fun _ => State.fine_set
        (State.mapSlots_fine h)

theorem execFrameLastFlitArrival_fine {lane : ℕ} {badCrc badRes : Bool} {s : State} (h : State.Fine P Q s) :
    Next (State.Fine P Q) (execFrameLastFlitArrival lane badCrc badRes s) := by
  unfold execFrameLastFlitArrival
  exact Next.next (State.frameEnd_fine h)

/-! ### The lease timeout (R161, R346) -/

theorem State.leaseTimeout_fine {s : State} {cl : ℕ} (h : State.Fine P Q s) : State.Fine P Q (s.leaseTimeout cl) := by
  unfold State.leaseTimeout
  exact iteInduction (fun _ => h) fun _ => State.leasePass_fine
      (State.modCluster_fine (State.post_fine (State.modThread_fine h fun _ h2 => h2)))

theorem execLeaseTimeout_fine {cl : ℕ} {s : State} (h : State.Fine P Q s) : Next (State.Fine P Q) (execLeaseTimeout cl s) := by
  unfold execLeaseTimeout
  exact Next.next (State.leaseTimeout_fine h)

/-! ### The SRAM of the management window (R446) -/

theorem State.winPut_fine {s : State} {o : ℕ} {l : List Byte} (h : State.Fine P Q s) : State.Fine P Q (s.winPut o l) := h

/-! ### Launch records (R450, R452) -/

theorem State.refuseFree_fine {s : State} {r : LaunchRec} {code info port : ℕ} (h : State.Fine P Q s) :
    State.Fine P Q (s.refuseFree r code info port) := by
  unfold State.refuseFree
  exact iteInduction (fun _ => h) fun _ => State.recordMsi_fine h

theorem State.refuseLaunch_fine {s : State} {r : LaunchRec} {code info port : ℕ} (h : State.Fine P Q s) :
    State.Fine P Q (s.refuseLaunch r code info port) := by
  unfold State.refuseLaunch
  split
  · exact State.completion_fine h
  · exact State.refuseFree_fine h

theorem State.firstLaunch_fine {s : State} {r : LaunchRec} {port die : ℕ} {g : List Node × ℕ × ℕ} (h : State.Fine P Q s) :
    State.Fine P Q (s.firstLaunch r port die g) := by
  unfold State.firstLaunch
  exact State.slotCheck_fine (State.startGen_fine (State.completion_fine (State.setSlot_fine h)))

theorem State.launch_fine {s : State} {port : ℕ} {known : Bool} {r : LaunchRec} (h : State.Fine P Q s) :
    State.Fine P Q (s.launch port known r) := by
  unfold State.launch
  refine iteInduction (fun _ => State.refuseLaunch_fine h) fun _ => ?_
  refine iteInduction (fun _ => State.refuseLaunch_fine h) fun _ => ?_
  refine iteInduction (fun _ => ?_) fun _ => ?_
  · split
    · exact State.refuseLaunch_fine h
    · exact iteInduction (fun _ => State.refuseLaunch_fine h) fun _ => State.completion_fine (State.setSlot_fine h)
  · refine iteInduction (fun _ => State.refuseLaunch_fine h) fun _ => ?_
    split
    · exact State.refuseLaunch_fine h
    · split
      · exact State.refuseLaunch_fine h
      · exact State.firstLaunch_fine h

theorem State.takeLaunch_fine {s : State} {q : ℕ} (h : State.Fine P Q s) : State.Fine P Q (s.takeLaunch q) := by
  unfold State.takeLaunch
  exact iteInduction (fun _ => h) fun _ => State.launch_fine
      (iteInduction (fun _ => State.fine_set (State.winPut_fine h)) fun _ => State.winPut_fine h)

theorem execLaunchRecord_fine {queue : ℕ} {s : State} (h : State.Fine P Q s) : Next (State.Fine P Q) (execLaunchRecord queue s) := by
  unfold execLaunchRecord
  exact Next.next (State.takeLaunch_fine h)

theorem State.launchBell_fine {s : State} {port q tail : ℕ} (h : State.Fine P Q s) : State.Fine P Q (s.launchBell port q tail) := by
  unfold State.launchBell
  exact iteInduction (fun _ => h) fun _ => State.winPut_fine h

theorem execLaunchDoorbell_fine {port queue tail : ℕ} {s : State} (h : State.Fine P Q s) :
    Next (State.Fine P Q) (execLaunchDoorbell port queue tail s) := by
  unfold execLaunchDoorbell
  exact Next.next (State.launchBell_fine h)

/-! ### Replays (R171, R172) -/

theorem State.replayStart_fine {s : State} {n : ℕ} (h : State.Fine P Q s) : State.Fine P Q (s.replayStart n) := by
  unfold State.replayStart
  split
  · exact h
  · exact iteInduction (fun _ => h) fun _ => State.slotCheck_fine (State.startGen_fine (State.setSlot_fine h))

theorem execGraphReplayStart_fine {slot : ℕ} {s : State} (h : State.Fine P Q s) :
    Next (State.Fine P Q) (execGraphReplayStart slot s) := by
  unfold execGraphReplayStart
  exact Next.next (State.replayStart_fine h)

/-! ### The order of the ready queue (R159) -/

theorem rankInsert_fine {t : Task} {l : List Task} (h : Task.Fine Q t) (hl : Each (Task.Fine Q) l) :
    Each (Task.Fine Q) (rankInsert t l) := by
  induction l with
  | nil => exact each_cons h hl
  | cons u l ih =>
    obtain ⟨h1, h2⟩ := List.forall_mem_cons.mp hl
    unfold rankInsert
    exact iteInduction (fun _ => each_cons h hl) fun _ => each_cons h1 (ih h2)

theorem rankSort_fine {l : List Task} (h : Each (Task.Fine Q) l) : Each (Task.Fine Q) (rankSort l) := by
  unfold rankSort
  exact foldl_each (R' := Task.Fine Q) each_nil h fun _ _ h3 h4 => rankInsert_fine h4 h3

theorem State.ageTask_fine {s : State} {uid : ℕ} (h : State.Fine P Q s) : State.Fine P Q (s.ageTask uid) := by
  unfold State.ageTask
  split
  · exact h
  · exact iteInduction (fun _ => State.modTask_fine h fun _ h8 => h8) fun _ => h

theorem execEffectiveClassAging_fine {task : ℕ} {s : State} (h : State.Fine P Q s) :
    Next (State.Fine P Q) (execEffectiveClassAging task s) := by
  unfold execEffectiveClassAging
  exact Next.next (State.ageTask_fine h)

/-! ### What a launch puts on a plane (R24, R177, R185, R202) -/

theorem launchThread_fine {t : Task} {c : Ctx} {pos : ℕ} {h args : List Byte} {row : Option OpRow} {members : List Member} :
    Thread.Fine Q (launchThread t c pos h args row members) := fun q => by
  obtain ⟨h1, h2, -, h4, h5, h6, h7, h8, h9, h10, -, -⟩ := Thread.blank_fine q
  refine ⟨h1, h2, launchStatus_reserved _ _ _, h4, h5, h6, h7, h8, h9, h10, ?_, ?_⟩
  · unfold launchThread
    dsimp only
    rw [BitVec.toNat_ofNat]
    omega
  · exact foldl_fine (R := fun v : Vector W32 16 => ∀ i, bits (vget v i 0#32).toNat 11 0 = 0)
      (fun i => by rw [vget_replicate]; decide)
      fun _ _ hv => vget_vset_fine (R := fun x : W32 => bits x.toNat 11 0 = 0) hv (bits_mul_4096 _) (by decide)

theorem launchImage_fine {t : Task} {x : Thread} (hx : Thread.Fine Q x) : Image.Fine Q (launchImage t x) := by
  unfold launchImage
  exact Image.fine_mk (Yields.some hx)

theorem State.gangGroup_fine {s : State} {t : Task} {n group : ℕ} (h : State.Fine P Q s) :
    Gives (Fst (State.Fine P Q)) (s.gangGroup t n group) := by
  unfold State.gangGroup
  split
  · exact Gives.error
  · split
    · exact Gives.error
    · exact iteInduction (fun _ => Gives.error) fun _ => Gives.ok (State.atomicWrite_fine h)

theorem State.startImages_fine {s : State} {t : Task} {n : ℕ} {gang : Option (ℕ × ℕ)} (h : State.Fine P Q s) (ht : Task.Fine Q t) :
    Gives (Both (State.Fine P Q) (Both (Task.Fine Q) (Each (Image.Fine Q)))) (s.startImages t n gang) := by
  unfold State.startImages
  dsimp only
  split
  · exact Gives.error
  · exact Gives.error
  · refine iteInduction (fun _ => Gives.error) fun _ => ?_
    refine gives_bind (R := Fst (State.Fine P Q)) ?_ fun ⟨_, _⟩ h23 => Gives.ok
        ⟨h23, ⟨ht, each_map_any fun _ => launchImage_fine launchThread_fine⟩⟩
    split
    · exact Gives.ok h
    · exact State.gangGroup_fine h

/-! ### The image at resume (R128, R435) -/

theorem newest_fine {l : List Image} (h : Each (Image.Fine Q) l) : Yields (Image.Fine Q) (newest l) := by
  unfold newest
  refine foldl_each (R' := Image.Fine Q) Yields.none h fun _ _ h3 h4 => ?_
  split
  · exact Yields.some h4
  · exact iteInduction (fun _ => Yields.some h4) fun _ => h3

theorem Task.chooseImage_fine {t : Task} {pos : ℕ} (h : Task.Fine Q t) : Yields (Image.Fine Q) (t.chooseImage pos) := by
  unfold Task.chooseImage
  dsimp only
  split
  next e3 =>
    have h8 := some_of e3 (newest_fine (each_filter (each_append
        (each_map (R := Snd (Image.Fine Q)) (each_filter (each_filter (Task.kept_fine h))) fun ⟨_, _⟩ h7 => h7)
        (each_filter (Task.saved_fine h)))))
    exact Yields.some h8
  · exact yields_map (R := Snd (Image.Fine Q)) (yields_find (each_filter (Task.kept_fine h))) fun ⟨_, _⟩ h14 => h14

/-! ### Cores (R158, R160, R367, R427) -/

theorem State.seat_fine {s : State} {uid core : ℕ} {img : Image} (h : State.Fine P Q s) (himg : Image.Fine Q img) :
    State.Fine P Q (s.seat uid core img) := by
  have hst : Q → (Option.map (fun t => setBit32 t.status 19 !s.bothFree core) img.t).getD 0#32 &&& statusReserved = 0#32 := fun q =>
    getD_keeps (R := fun w : W32 => w &&& statusReserved = 0#32)
      (yields_map (Image.t_fine himg) fun _ ht => setBit32_reserved (ht q).2.2.1 (by decide)) (by decide)
  have h1 : ∀ f g, (∀ x, Task.Fine Q x → Task.Fine Q (f x)) → (∀ c, Core.Fine Q c → Core.Fine Q (g c)) →
      State.Fine P Q ((s.modTask uid f).modCore core g) := fun _ _ hf hg => State.modCore_fine (State.modTask_fine h hf) hg
  unfold State.seat
  refine iteInduction (fun _ => ?_) fun _ => ?_
  · exact State.activate_fine (State.restoreImage_fine (State.enterCore_fine (h1 _ _ (fun _ hx => hx) fun _ hc => hc)) himg hst)
  · exact State.restoreImage_fine (h1 _ _ (fun _ hx => hx) fun _ hc => hc) himg hst

/-! ### Placing a task -/

theorem State.handOver_fine {s : State} {uid : ℕ} (h : State.Fine P Q s) : State.Fine P Q (s.handOver uid) := by
  unfold State.handOver
  split
  · exact h
  · exact State.modTask_fine (foldl_fine h fun _ _ h9 => State.modThread_fine h9 fun _ h11 => h11) fun _ h13 => h13

theorem Task.keptFrom_fine {t : Task} {memory : List Image} (h : Task.Fine Q t) (hmemory : Each (Image.Fine Q) memory) :
    Each (Snd (Image.Fine Q)) (t.keptFrom memory) := by
  unfold Task.keptFrom
  exact each_append (each_filter (Task.kept_fine h)) (each_map (R := Image.Fine Q) hmemory fun _ h2 => h2)

theorem State.takeVersion_fine {t : Task} {s : State} {l : VLine} (hs : State.Fine P Q s) : State.Fine P Q (State.takeVersion t s l) := by
  unfold State.takeVersion
  exact State.modTask_fine (State.llcRoom_fine hs) fun _ h2 => h2

theorem State.seatAll_fine {s : State} {t : Task} {first : ℕ} {imgs : List Image} (h : State.Fine P Q s) (ht : Task.Fine Q t)
    (himgs : Each (Image.Fine Q) imgs) :
    State.Fine P Q (s.seatAll t first imgs) := by
  unfold State.seatAll
  exact State.refillReady_fine (State.gangStart_fine (State.handOver_fine
      (foldl_each (R' := Image.Fine Q) (foldl_fine (State.setTask_fine
      (foldl_fine (State.versTake_fine h) fun _ _ h3 => State.takeVersion_fine h3)
      (Task.fine_mk each_nil (each_append (each_filter himgs) (each_filter (Task.origins_fine ht)))
      (Task.keptFrom_fine ht (each_filter himgs)))) fun _ _ h6 => State.modDie_fine h6 fun _ h8 => h8) himgs fun _ _ h11 h12 =>
      State.seat_fine h11 h12)))

theorem State.tryPlace_fine {s : State} {t : Task} (h : State.Fine P Q s) (ht : Task.Fine Q t) :
    Yields (State.Fine P Q) (s.tryPlace t) := by
  unfold State.tryPlace
  refine iteInduction (fun _ => ?_) fun _ => iteInduction
      (fun _ => iteInduction (fun _ => Yields.none) fun _ => Yields.some (State.endTask_fine h)) fun _ => yields_map_any fun _ =>
      State.seatAll_fine (State.readOnyx_fine h) (getD_keeps (State.taskOf_fine (State.readOnyx_fine h)) ht)
      (each_filterMap (R := Yields (Image.Fine Q)) (each_map_any fun _ => Task.chooseImage_fine
      (getD_keeps (State.taskOf_fine (State.readOnyx_fine h)) ht)) fun _ h24 => h24)
  split
  · exact iteInduction (fun _ => Yields.none) fun _ => Yields.some (State.endTask_fine h)
  · dsimp only
    split
    · exact Yields.none
    · split
      · exact iteInduction (fun _ => Yields.none) fun _ => Yields.some (State.endTask_fine h)
      next e19 =>
        have h20 := ok_of e19 (State.startImages_fine h ht)
        exact Yields.some (State.seatAll_fine h20.1 h20.2.1 h20.2.2)

theorem Die.switchOn_fine {d : Die} {need : List ℕ} (h : Die.Fine Q d) : Die.Fine Q (d.switchOn need) := h

theorem State.askSwitchOn_fine {s : State} {t : Task} (h : State.Fine P Q s) : State.Fine P Q (s.askSwitchOn t) := by
  unfold State.askSwitchOn
  dsimp only
  split
  · exact h
  · exact State.modDie_fine h fun _ h7 => Die.switchOn_fine h7

theorem State.placeFirst_fine {s : State} {blocked : List ℕ} {l : List Task} (h : State.Fine P Q s) (hl : Each (Task.Fine Q) l) :
    State.Fine P Q (s.placeFirst blocked l) := by
  induction l generalizing s blocked with
  | nil => exact h
  | cons t l ih =>
    obtain ⟨h1, h2⟩ := List.forall_mem_cons.mp hl
    unfold State.placeFirst
    refine iteInduction (fun _ => ih h h2) fun _ => ?_
    split
    next e => exact some_of e (State.tryPlace_fine h h1)
    · exact ih (State.askSwitchOn_fine h) h2

theorem State.placeOn_fine {s : State} {d : ℕ} (h : State.Fine P Q s) : State.Fine P Q (s.placeOn d) := by
  unfold State.placeOn
  exact iteInduction (fun _ => State.refillReady_fine h) fun _ => State.placeFirst_fine (State.refillReady_fine h)
      (rankSort_fine (each_filterMap_any fun _ => State.taskOf_fine (State.refillReady_fine h)))

theorem execTaskPlacement_fine {die : ℕ} {s : State} (h : State.Fine P Q s) : Next (State.Fine P Q) (execTaskPlacement die s) := by
  unfold execTaskPlacement
  exact Next.next (State.placeOn_fine h)

/-! ### The shadow plane (R160, R436) -/

theorem State.fillDone_fine {s : State} {core : ℕ} (h : State.Fine P Q s) : State.Fine P Q (s.fillDone core) := by
  unfold State.fillDone
  refine iteInduction (fun _ => iteInduction (fun _ => h) fun _ => iteInduction
      (fun _ => State.activate_fine (State.setCore_fine h (Core.fine_set (State.core_fine h)))) fun _ => State.setCore_fine h
      (Core.fine_set (State.core_fine h))) fun _ => ?_
  dsimp only
  split
  · exact h
  · exact State.setCore_fine h (Core.fine_set (State.core_fine h))

theorem execShadowFillDone_fine {core : ℕ} {s : State} (h : State.Fine P Q s) : Next (State.Fine P Q) (execShadowFillDone core s) := by
  unfold execShadowFillDone
  exact Next.next (State.fillDone_fine h)

/-! ### Pre-emption (R434) -/

theorem State.askPreempt_fine {s : State} {t : Task} (h : State.Fine P Q s) : State.Fine P Q (s.askPreempt t) := by
  unfold State.askPreempt
  exact foldl_fine h fun _ _ h3 => State.modThread_fine h3 fun _ h5 => h5

theorem State.preemptFor_fine {s : State} {d : ℕ} {t : Task} (h : State.Fine P Q s) : State.Fine P Q (s.preemptFor d t) := by
  unfold State.preemptFor
  dsimp only
  split
  · exact h
  · exact iteInduction (fun _ => State.askPreempt_fine h) fun _ => h

theorem State.deadlinePreempt_fine {s : State} {d : ℕ} (h : State.Fine P Q s) : State.Fine P Q (s.deadlinePreempt d) := by
  unfold State.deadlinePreempt
  exact foldl_each h (rankSort_fine (each_filter (each_filterMap_any fun _ => State.taskOf_fine h))) fun _ _ h3 _ =>
      State.preemptFor_fine h3

theorem execDeadlinePreemption_fine {die : ℕ} {s : State} (h : State.Fine P Q s) :
    Next (State.Fine P Q) (execDeadlinePreemption die s) := by
  unfold execDeadlinePreemption
  exact Next.next (State.deadlinePreempt_fine h)

theorem State.saveShadow_fine {s : State} {k purpose : ℕ} (h : State.Fine P Q s) : State.Fine P Q (s.saveShadow k purpose) := by
  unfold State.saveShadow
  extract_lets t
  split
  · exact h
  · extract_lets s1 _ i1 i2 s2
    have h1 : State.Fine P Q s1 := State.modThread_fine (State.modTask_fine h fun _ hx => Task.seal_fine hx) fun _ ht =>
      Thread.fine_set (Thread.keepRepeat_fine ht)
    have hi : Image.Fine Q i2 := Image.fine_set (State.capture_fine h1)
    have h2 : State.Fine P Q s2 := State.modTask_fine h1 fun _ hx => hx
    clear_value i2 s2
    refine iteInduction (fun _ => ?_) fun _ => State.leaveSaved_fine (State.modTask_fine (State.wearImage_fine h2) fun _ hx =>
      Task.fine_mk (Task.saved_fine hx) (Task.origins_fine hx) (each_append (each_filter (Task.kept_fine hx)) (each_cons hi each_nil)))
    split
    next e =>
      obtain ⟨h3, h4⟩ := both_of e (State.writeSaved_fine h2 hi)
      exact State.leaveSaved_fine (State.modTask_fine h3 fun _ hx =>
        Task.fine_mk (each_append (each_filter (Task.saved_fine hx)) (each_cons h4 each_nil)) (Task.origins_fine hx) (Task.kept_fine hx))

theorem State.forceSave_fine {s : State} {k : ℕ} {since : Option ℕ} {limit : ℕ} (h : State.Fine P Q s) :
    State.Fine P Q (s.forceSave k since limit) := by
  unfold State.forceSave
  dsimp only
  split
  · exact h
  · exact iteInduction (fun _ => iteInduction (fun _ => State.takeSave_fine h) fun _ => State.saveShadow_fine h) fun _ => h

theorem execPreemptForcedSave_fine {thr : ℕ} {s : State} (h : State.Fine P Q s) :
    Next (State.Fine P Q) (execPreemptForcedSave thr s) := by
  unfold execPreemptForcedSave
  exact Next.next (State.forceSave_fine h)

theorem execParkStopTimeout_fine {thr : ℕ} {s : State} (h : State.Fine P Q s) : Next (State.Fine P Q) (execParkStopTimeout thr s) := by
  unfold execParkStopTimeout
  exact Next.next (State.forceSave_fine h)

/-! ### Tasks held for a gated die (R182, R213) -/

theorem State.rehomeTask_fine {s : State} {t : Task} (h : State.Fine P Q s) : State.Fine P Q (s.rehomeTask t) := by
  unfold State.rehomeTask
  refine iteInduction (fun _ => h) fun _ => ?_
  split
  · exact h
  · exact iteInduction (fun _ => h) fun _ => iteInduction (fun _ => State.wakeChosen_fine h) fun _ => State.refillReady_fine
        (State.modTask_fine (State.modDie_fine (State.wakeChosen_fine h) fun _ h7 => h7) fun _ h9 => h9)

theorem State.rehome_fine {s : State} (h : State.Fine P Q s) : State.Fine P Q s.rehome := by
  unfold State.rehome
  exact foldl_each h (State.tasks_fine h) fun _ _ h3 _ => State.rehomeTask_fine h3

/-! ### Grades (R206 to R212) -/

theorem State.refreshPend_fine {s : State} (h : State.Fine P Q s) : State.Fine P Q s.refreshPend := h

theorem execPendAnnounce_fine {s : State} (h : State.Fine P Q s) : Next (State.Fine P Q) (execPendAnnounce s) := by
  unfold execPendAnnounce
  exact Next.next (State.refreshPend_fine h)

theorem State.noteBand_fine {s : State} {low : Bool} (h : State.Fine P Q s) : State.Fine P Q (s.noteBand low) := h

theorem State.gateClusters_fine {s : State} {t : Task} (h : State.Fine P Q s) : State.Fine P Q (s.gateClusters t) := by
  unfold State.gateClusters
  exact foldl_fine h fun _ _ h3 => State.modCluster_fine h3

theorem State.shedTask_fine {s : State} {t : Task} (h : State.Fine P Q s) : State.Fine P Q (s.shedTask t) := by
  unfold State.shedTask
  dsimp only
  split
  · exact State.abortRegion_fine (State.gateClusters_fine h)
  · exact State.taskRecord_fine (State.abortRegion_fine (State.gateClusters_fine h))

theorem State.parkTask_fine {s : State} {t : Task} (h : State.Fine P Q s) : State.Fine P Q (s.parkTask t) := by
  unfold State.parkTask
  exact foldl_fine (State.gateClusters_fine h) fun _ _ h3 => State.modThread_fine h3 fun _ h5 => h5

theorem State.freeTask_fine {s : State} {t : Task} (h : State.Fine P Q s) : State.Fine P Q (s.freeTask t) := by
  unfold State.freeTask
  exact iteInduction (fun _ => State.refillReady_fine (State.modTask_fine h fun _ h2 => h2)) fun _ => iteInduction
      (fun _ => foldl_fine h fun _ _ h5 => State.modThread_fine h5 fun _ h7 => iteInduction (fun _ => h7) fun _ => h7) fun _ => h

theorem State.gradeTask_fine {s : State} {g : ℕ} {t : Task} (h : State.Fine P Q s) : State.Fine P Q (s.gradeTask g t) := by
  unfold State.gradeTask
  exact iteInduction (fun _ => iteInduction (fun _ => State.shedTask_fine h) fun _ => h) fun _ => iteInduction
      (fun _ => iteInduction (fun _ => State.parkTask_fine h) fun _ => h) fun _ => State.freeTask_fine h

theorem State.gradeClass_fine {s : State} {k g : ℕ} (h : State.Fine P Q s) : State.Fine P Q (s.gradeClass k g) := by
  unfold State.gradeClass
  exact State.post_fine h

theorem State.collStops_fine {s : State} (h : State.Fine P Q s) : State.Fine P Q s.collStops := by
  unfold State.collStops
  exact iteInduction (fun _ => h) fun _ => h

theorem State.setGrades_fine {s : State} {g : Vector ℕ 4} (h : State.Fine P Q s) : State.Fine P Q (s.setGrades g) := by
  unfold State.setGrades
  exact iteInduction (fun _ => State.refreshPend_fine h) fun _ => State.rehome_fine
      (State.refreshPend_fine (State.collStops_fine (foldl_each
      (State.noteBand_fine (State.fine_set (foldl_fine h fun a1 b2 h3 => State.gradeClass_fine h3)))
      (State.tasks_fine (State.noteBand_fine (State.fine_set (foldl_fine h fun a1 b2 h3 => State.gradeClass_fine h3)))) fun _ _ h6 _ =>
      iteInduction (fun _ => State.gradeTask_fine h6) fun _ => h6)))

/-! ### Suspend and resume (R216, R217) -/

theorem State.suspend_fine {s : State} (h : State.Fine P Q s) : State.Fine P Q s.suspend := by
  unfold State.suspend
  exact iteInduction (fun _ => h) fun _ => State.setGrades_fine h

theorem State.resume_fine {s : State} (h : State.Fine P Q s) : State.Fine P Q s.resume := by
  unfold State.resume
  exact iteInduction (fun _ => h) fun _ => State.retryPreds_fine (State.setGrades_fine h)

theorem State.curveAct_fine {s : State} {e : ℕ × ℕ × ℕ} (h : State.Fine P Q s) : State.Fine P Q (s.curveAct e) := by
  unfold State.curveAct
  exact iteInduction (fun _ => iteInduction (fun _ => State.refreshPend_fine h) fun _ => State.setGrades_fine h) fun _ => iteInduction
      (fun _ => State.suspend_fine h) fun _ => State.resume_fine h

theorem State.dueEvent_fine {s : State} {act : ℕ} (h : State.Fine P Q s) : State.Fine P Q (s.dueEvent act) := by
  unfold State.dueEvent
  split
  · exact h
  · exact iteInduction (fun _ => State.curveAct_fine h) fun _ => h

theorem execGradeEvent_fine {s : State} (h : State.Fine P Q s) : Next (State.Fine P Q) (execGradeEvent s) := by
  unfold execGradeEvent
  exact Next.next (State.dueEvent_fine h)

theorem execSuspendEvent_fine {s : State} (h : State.Fine P Q s) : Next (State.Fine P Q) (execSuspendEvent s) := by
  unfold execSuspendEvent
  exact Next.next (State.dueEvent_fine h)

theorem execResumeEvent_fine {s : State} (h : State.Fine P Q s) : Next (State.Fine P Q) (execResumeEvent s) := by
  unfold execResumeEvent
  exact Next.next (State.dueEvent_fine h)

theorem execExemptExpiry_fine {s : State} (h : State.Fine P Q s) : Next (State.Fine P Q) (execExemptExpiry s) := by
  unfold execExemptExpiry
  exact Next.next (iteInduction (fun _ => h) fun _ => h)

/-! ### Curves (R193 to R198, R454) -/

theorem State.enterCurve_fine {s : State} {c : Curve} (h : State.Fine P Q s) : State.Fine P Q (s.enterCurve c) := by
  unfold State.enterCurve
  dsimp only
  split
  · exact State.refreshPend_fine h
  · exact State.refreshPend_fine (State.curveAct_fine h)

theorem execCurveEntry_fine {s : State} (h : State.Fine P Q s) : Next (State.Fine P Q) (execCurveEntry s) := by
  unfold execCurveEntry
  refine Next.next ?_
  split
  · exact h
  · exact iteInduction (fun _ => State.enterCurve_fine h) fun _ => h

theorem State.curveBell_fine {s : State} {v : ℕ} (h : State.Fine P Q s) : State.Fine P Q (s.curveBell v) := by
  unfold State.curveBell
  exact iteInduction (fun _ => h) fun _ => h

theorem State.checkCurve_fine {s : State} (h : State.Fine P Q s) : State.Fine P Q s.checkCurve := by
  unfold State.checkCurve
  extract_lets l seq r s1 sc c s2
  have h1 : State.Fine P Q s1 := State.post_fine h
  clear_value s1
  clear_value r c
  have h2 : State.Fine P Q s2 := State.fine_dies h1 (dies_map (State.dies_fine h1) fun _ hd => iteInduction (fun _ => Die.fine_set hd)
      fun _ => hd)
  split
  · exact State.fine_set h1
  · split
    · exact State.enterCurve_fine h2
    · exact h2

theorem execCurveDoorbell_fine {val : ℕ} {s : State} (h : State.Fine P Q s) : Next (State.Fine P Q) (execCurveDoorbell val s) := by
  unfold execCurveDoorbell
  exact Next.next (iteInduction (fun _ => h) fun _ => iteInduction
      (fun _ => State.checkCurve_fine (State.fine_set (State.curveBell_fine h))) fun _ => State.curveBell_fine h)

/-! ### The park area (R210, R211) -/

theorem Task.resumeImages_fine {t : Task} (h : Task.Fine Q t) : Each (Image.Fine Q) t.resumeImages := by
  unfold Task.resumeImages
  exact each_filterMap_any fun _ => Task.chooseImage_fine h

theorem State.parkCopy_fine {s : State} {uid : ℕ} (h : State.Fine P Q s) : State.Fine P Q (s.parkCopy uid) := by
  unfold State.parkCopy
  split
  next _ _ _ _ _ e6 _ =>
    have h8 := some_of e6 (State.taskOf_fine h)
    refine iteInduction (fun _ => h) fun _ => ?_
    split
    · exact h
    · exact State.engineWrite_fine (State.modTask_fine (foldl_fine (State.versTake_fine h) fun _ ⟨_, _⟩ h18 => State.modCore_fine h18
          fun _ h20 => iteInduction (fun _ => h20) fun _ => h20) fun _ h22 => Task.fine_mk (Task.saved_fine h22) (Task.origins_fine h22)
          (each_map (Task.resumeImages_fine h8) fun _ h24 => h24))
  · exact h

theorem execParkCopyDone_fine {task : ℕ} {s : State} (h : State.Fine P Q s) : Next (State.Fine P Q) (execParkCopyDone task s) := by
  unfold execParkCopyDone
  exact Next.next (State.parkCopy_fine h)

/-! ### Energy accumulators (R220 to R223) -/

theorem Task.charge_fine {t : Task} {x : ℕ} (h : Task.Fine Q t) : Task.Fine Q (t.charge x) := h

theorem State.chargeCluster_fine {s : State} {cl share : ℕ} (h : State.Fine P Q s) : State.Fine P Q (s.chargeCluster cl share) := by
  unfold State.chargeCluster
  exact foldl_fine h fun _ _ h3 => State.modTask_fine h3 fun _ h5 => Task.charge_fine h5

theorem State.chargeDie_fine {s : State} {d units : ℕ} {w : List ℕ} (h : State.Fine P Q s) : State.Fine P Q (s.chargeDie d units w) := by
  unfold State.chargeDie
  exact foldl_fine h fun _ _ h3 => State.chargeCluster_fine h3

theorem State.energySample_fine {s : State} {vals : List ℕ} (h : State.Fine P Q s) : State.Fine P Q (s.energySample vals) := by
  unfold State.energySample
  exact iteInduction (fun _ => h) fun _ => State.fine_thr (foldl_fine h fun _ _ h3 => State.chargeDie_fine h3)
      (each_map (State.thr_fine (foldl_fine h fun _ _ h6 => State.chargeDie_fine h6)) fun ⟨_, _⟩ h10 => h10)

theorem execEnergySample_fine {vals : List ℕ} {s : State} (h : State.Fine P Q s) : Next (State.Fine P Q) (execEnergySample vals s) := by
  unfold execEnergySample
  exact Next.next (State.energySample_fine h)

theorem State.returns_fine {s : State} {req : ℕ} {l : List Byte} (h : State.Fine P Q s) : State.Fine P Q (s.returns req l) := by
  unfold State.returns
  exact iteInduction (fun _ => State.setPort_fine h) fun _ => h

theorem execEnergyLowHalfRead_fine {req n : ℕ} {s : State} (h : State.Fine P Q s) :
    Next (State.Fine P Q) (execEnergyLowHalfRead req n s) := by
  unfold execEnergyLowHalfRead
  refine Next.next ?_
  dsimp only
  split
  · exact h
  · exact State.returns_fine h

theorem execEnergyHighHalfRead_fine {req n : ℕ} {s : State} (h : State.Fine P Q s) :
    Next (State.Fine P Q) (execEnergyHighHalfRead req n s) := by
  unfold execEnergyHighHalfRead
  refine Next.next ?_
  split
  · exact h
  · exact State.returns_fine h

/-! ### Permits (R203, R215, R224 to R226) -/

theorem State.refill_fine {s : State} {cl : ℕ} {hot : Bool} (h : State.Fine P Q s) : State.Fine P Q (s.refill cl hot) := by
  unfold State.refill
  exact iteInduction (fun _ => h) fun _ => State.modCluster_fine h

theorem execPermitRefill_fine {cl : ℕ} {hot : Bool} {s : State} (h : State.Fine P Q s) :
    Next (State.Fine P Q) (execPermitRefill cl hot s) := by
  unfold execPermitRefill
  exact Next.next (State.refill_fine h)

/-! ### Operating points (R199, R200, R204 step 3) -/

theorem State.retuneCluster_fine {s : State} {d cl v : ℕ} (h : State.Fine P Q s) : State.Fine P Q (s.retuneCluster d cl v) := by
  unfold State.retuneCluster
  exact State.modCluster_fine h

theorem State.showRows_fine {s : State} {d : ℕ} (h : State.Fine P Q s) : State.Fine P Q (s.showRows d) := by
  unfold State.showRows
  exact iteInduction (fun _ => h) fun _ => foldl_fine h fun _ _ h3 => State.modCluster_fine h3

theorem State.retune_fine {s : State} {d : ℕ} (h : State.Fine P Q s) : State.Fine P Q (s.retune d) := by
  unfold State.retune
  refine iteInduction (fun _ => h) fun _ => ?_
  split
  · exact h
  · exact iteInduction (fun _ => foldl_fine h fun _ _ h8 => State.retuneCluster_fine h8) fun _ => iteInduction
        (fun _ => State.setDie_fine (foldl_fine h fun _ _ h11 => State.retuneCluster_fine h11)
        (Die.fine_set (State.die_fine (foldl_fine h fun _ _ h14 => State.retuneCluster_fine h14)))) fun _ => iteInduction
        (fun _ => State.setDie_fine (foldl_fine h fun _ _ h17 => State.retuneCluster_fine h17)
        (Die.fine_set (State.die_fine (foldl_fine h fun _ _ h20 => State.retuneCluster_fine h20)))) fun _ => State.showRows_fine
        (foldl_fine h fun _ _ h23 => State.retuneCluster_fine h23)

theorem execVcodeStepEnd_fine {die : ℕ} {s : State} (h : State.Fine P Q s) : Next (State.Fine P Q) (execVcodeStepEnd die s) := by
  unfold execVcodeStepEnd
  refine Next.next ?_
  split
  · exact h
  · exact State.retune_fine (State.modDie_fine h fun _ h7 => h7)

theorem execFcodeHopEnd_fine {cl : ℕ} {s : State} (h : State.Fine P Q s) : Next (State.Fine P Q) (execFcodeHopEnd cl s) := by
  unfold execFcodeHopEnd
  refine Next.next ?_
  dsimp only
  split
  · exact h
  · exact iteInduction (fun _ => h) fun _ => State.noteBand_fine (State.retune_fine (State.setCluster_fine h))

theorem execBiasSettle_fine {cl : ℕ} {s : State} (h : State.Fine P Q s) : Next (State.Fine P Q) (execBiasSettle cl s) := by
  unfold execBiasSettle
  refine Next.next ?_
  split
  · exact h
  · exact State.retune_fine (State.setCluster_fine h)

/-! ### Droops (R468, R469) -/

theorem execDroopTrip_fine {cl : ℕ} {s : State} (h : State.Fine P Q s) : Next (State.Fine P Q) (execDroopTrip cl s) := by
  unfold execDroopTrip
  exact Next.next (State.modCluster_fine h)

theorem execDroopRecovery_fine {cl : ℕ} {s : State} (h : State.Fine P Q s) : Next (State.Fine P Q) (execDroopRecovery cl s) := by
  unfold execDroopRecovery
  exact Next.next (State.modCluster_fine h)

theorem execHopRetry_fine {cl : ℕ} {s : State} (h : State.Fine P Q s) : Next (State.Fine P Q) (execHopRetry cl s) := by
  unfold execHopRetry
  exact Next.next (State.modCluster_fine h)

/-! ### The fast loop runs (R203) -/

theorem State.fastLoop_fine {s : State} (h : State.Fine P Q s) : State.Fine P Q s.fastLoop := by
  unfold State.fastLoop
  exact iteInduction (fun _ => h) fun _ => State.noteBand_fine h

theorem execFastLoop_fine {s : State} (h : State.Fine P Q s) : Next (State.Fine P Q) (execFastLoop s) := by
  unfold execFastLoop
  exact Next.next (State.fastLoop_fine h)

/-! ### The slow loop (R152, R166, R204, R205, R213) -/

theorem State.lowerRows_fine {s : State} {cap rest n : ℕ} {l : List (Task × List OpRow)} (hl : Each (Fst (Task.Fine Q)) l) :
    Each (Fst (Task.Fine Q)) (s.lowerRows cap rest n l) := by
  induction n generalizing l with
  | zero => exact hl
  | succ n ih =>
    unfold State.lowerRows
    refine iteInduction (fun _ => hl) fun _ => ?_
    dsimp only
    split
    · exact hl
    · exact ih (each_map hl fun _ h1 => iteInduction (motive := Fst (Task.Fine Q)) (fun _ => h1) fun _ => h1)

theorem State.telemetry_fine {s : State} {p : List ℕ} (h : State.Fine P Q s) : State.Fine P Q (s.telemetry p) := by
  unfold State.telemetry
  split
  · exact h
  · exact State.fine_set (State.recordWrite_fine h)

theorem State.wakeHeld_fine {s : State} (h : State.Fine P Q s) : State.Fine P Q s.wakeHeld := h

theorem State.slowRows_fine {s : State} {p : List ℕ} (h : State.Fine P Q s) : State.Fine P Q (s.slowRows p) := by
  unfold State.slowRows
  exact State.fine_set (foldl_fine (foldl_fine (foldl_each h
      (State.lowerRows_fine (each_map (R := Task.Fine Q) (each_filter (State.tasks_fine h)) fun _ h2 => h2)) fun _ ⟨_, _⟩ h5 _ =>
      State.modTask_fine h5 fun _ h8 => h8) fun _ _ h11 => State.modCluster_fine h11) fun _ _ h14 => State.retune_fine h14)

theorem State.slowLoop_fine {s : State} (h : State.Fine P Q s) : State.Fine P Q s.slowLoop := by
  unfold State.slowLoop
  exact iteInduction (fun _ => h) fun _ => State.fine_set
      (State.noteBand_fine (State.fine_set (State.rehome_fine
      (State.wakeHeld_fine (State.refreshPend_fine (State.slowRows_fine
      (State.telemetry_fine (iteInduction (fun _ => State.fine_set (State.noteBand_fine h)) fun _ => State.noteBand_fine h))))))))

theorem execSlowLoop_fine {s : State} (h : State.Fine P Q s) : Next (State.Fine P Q) (execSlowLoop s) := by
  unfold execSlowLoop
  exact Next.next (State.slowLoop_fine h)

/-! ### Voltage records (R59, R230) -/

theorem execVoltageSample_fine {die : ℕ} {mvs : List ℕ} {s : State} (h : State.Fine P Q s) :
    Next (State.Fine P Q) (execVoltageSample die mvs s) := by
  unfold execVoltageSample
  refine Next.next ?_
  dsimp only
  split
  · exact h
  · exact State.modDie_fine h fun _ h6 => iteInduction (fun _ => h6) fun _ => h6

theorem execVminRearm_fine {die : ℕ} {s : State} (h : State.Fine P Q s) : Next (State.Fine P Q) (execVminRearm die s) := by
  unfold execVminRearm
  exact Next.next (iteInduction (fun _ => h) fun _ => State.modDie_fine h fun _ h2 => h2)

end Sys2Proof.Machine
end

section
/-! Power, requests, errors, start-up, the host, the links and Agate keep the invariant (O5, O15). -/

namespace Sys2Proof.Machine

open Sys2Proof

variable {P Q : Prop}

/-! ### Gating a die (R86, R213) -/

theorem State.writeBackAll_fine {s : State} {d : ℕ} (h : State.Fine P Q s) : Yields (State.Fine P Q) (s.writeBackAll d) := by
  unfold State.writeBackAll
  exact foldl_fine (Yields.some h) fun _ _ h3 => yields_bind (R := State.Fine P Q) h3 fun _ h5 => iteInduction (fun _ => Yields.some h5)
      fun _ => yields_map (State.homeWrite_fine h5) fun _ h7 => iteInduction (fun _ => State.setPoison_fine h7) fun _ => h7

theorem State.versionsOut_fine {s : State} {d : ℕ} (h : State.Fine P Q s) : State.Fine P Q (s.versionsOut d) := by
  unfold State.versionsOut
  exact foldl_each (R' := Task.Fine Q) h (each_filter (State.tasks_fine h)) fun _ _ h3 h4 => State.versOut_fine h3 h4

theorem State.idleOff_fine {s : State} {d : ℕ} (h : State.Fine P Q s) : State.Fine P Q (s.idleOff d) := by
  unfold State.idleOff
  exact iteInduction (fun _ => h) fun _ => foldl_fine h fun _ _ h3 => iteInduction (fun _ => State.clusterOff_fine h3) fun _ => h3

theorem Die.goesOff_fine {x : Die} {now : ℕ} (h : Die.Fine Q x) : Die.Fine Q (x.goesOff now) := h

theorem State.dieGate_fine {s0 : State} {d : ℕ} (h : State.Fine P Q s0) : State.Fine P Q (s0.dieGate d) := by
  unfold State.dieGate
  refine iteInduction (fun _ => State.idleOff_fine h) fun _ => ?_
  split
  · exact State.idleOff_fine h
  next e5 =>
    have h6 := some_of e5 (State.writeBackAll_fine (State.idleOff_fine h))
    exact State.noteBand_fine (State.rehome_fine (State.fine_set
        (State.modStack_fine (State.modDie_fine (State.versionsOut_fine h6) fun _ h8 => Die.goesOff_fine h8))))

theorem execDieGate_fine {die : ℕ} {s : State} (h : State.Fine P Q s) : Next (State.Fine P Q) (execDieGate die s) := by
  unfold execDieGate
  exact Next.next (State.dieGate_fine h)

/-! ### The park list and the stacks (R87, R214, R216) -/

theorem State.copyRange_fine {s : State} {src dst n : ℕ} (h : State.Fine P Q s) : State.Fine P Q (s.copyRange src dst n) := by
  unfold State.copyRange
  exact foldl_fine h fun _ _ h3 => iteInduction (fun _ => State.setPoison_fine (State.engineWrite_fine h3)) fun _ =>
      State.engineWrite_fine h3

theorem State.parkListCopy_fine {s : State} {d : ℕ} (h : State.Fine P Q s) : State.Fine P Q (s.parkListCopy d) := by
  unfold State.parkListCopy
  exact iteInduction (fun _ => h) fun _ => State.modStack_fine (foldl_fine h fun _ ⟨_, _, _, _⟩ h7 => State.copyRange_fine h7)

theorem execParkListCopyDone_fine {die : ℕ} {s : State} (h : State.Fine P Q s) : Next (State.Fine P Q) (execParkListCopyDone die s) := by
  unfold execParkListCopyDone
  exact Next.next (State.parkListCopy_fine h)

theorem State.retain_fine {s : State} {d : ℕ} (h : State.Fine P Q s) : State.Fine P Q (s.retain d) := by
  unfold State.retain
  exact State.fine_set (iteInduction (fun _ => State.modStack_fine h) fun _ => h)

theorem execHbmRetentionEntry_fine {stack : ℕ} {s : State} (h : State.Fine P Q s) :
    Next (State.Fine P Q) (execHbmRetentionEntry stack s) := by
  unfold execHbmRetentionEntry
  exact Next.next (State.retain_fine h)

theorem State.loseStack_fine {s : State} {d : ℕ} (h : State.Fine P Q s) : State.Fine P Q (s.loseStack d) := by
  unfold State.loseStack
  exact State.fine_mem h (foldl_fine (State.mem_fine h) fun _ _ h3 => memPut_mem h3)

theorem State.stackOn_fine {s : State} {d : ℕ} (h : State.Fine P Q s) : State.Fine P Q (s.stackOn d) := by
  unfold State.stackOn
  exact iteInduction (fun _ => h) fun _ => iteInduction (fun _ => foldl_fine (State.modStack_fine (State.loseStack_fine h))
      fun _ ⟨_, _, _, _⟩ h7 => State.copyRange_fine h7) fun _ => State.modStack_fine h

/-! ### Switching on (R213, R215) -/

theorem State.dieOn_fine {s : State} {d : ℕ} (h : State.Fine P Q s) : State.Fine P Q (s.dieOn d) := by
  unfold State.dieOn
  exact iteInduction (fun _ => h) fun _ => State.retryPreds_fine
      (State.fine_set (State.noteBand_fine (State.modDie_fine (State.stackOn_fine h) fun _ h2 => h2)))

theorem execDieSwitchOn_fine {die : ℕ} {s : State} (h : State.Fine P Q s) : Next (State.Fine P Q) (execDieSwitchOn die s) := by
  unfold execDieSwitchOn
  exact Next.next (State.dieOn_fine h)

theorem State.clusterOn_fine {s : State} {cl : ℕ} (h : State.Fine P Q s) : State.Fine P Q (s.clusterOn cl) := by
  unfold State.clusterOn
  exact foldl_fine (State.modCluster_fine h) fun _ _ h3 => iteInduction (fun _ => h3) fun _ => State.modCore_fine h3 fun _ h5 => h5

theorem State.switchRoundEnd_fine {s : State} {d : ℕ} (h : State.Fine P Q s) : State.Fine P Q (s.switchRoundEnd d) := by
  unfold State.switchRoundEnd
  exact iteInduction (fun _ => h) fun _ => State.rehome_fine
      (State.modDie_fine (foldl_fine h fun _ _ h3 => State.clusterOn_fine h3) fun _ h5 => h5)

/-! ### Unplanned losses (R129, R437, R471) -/

theorem State.loseThreads_fine {s : State} {cl : ℕ} {t : Task} (h : State.Fine P Q s) : State.Fine P Q (s.loseThreads cl t) := by
  unfold State.loseThreads
  exact State.refillReady_fine (State.modTask_fine (State.releaseThreads_fine
      (State.cutJobs_fine (State.dropTiles_fine (State.faultEvent_fine h)))) fun _ h2 => h2)

theorem State.clusterLoss_fine {s : State} {cl : ℕ} (h : State.Fine P Q s) : State.Fine P Q (s.clusterLoss cl) := by
  unfold State.clusterLoss
  exact State.clusterOff_fine (foldl_each (R' := Task.Fine Q) (State.cutImages_fine h)
      (each_filter (State.tasks_fine (State.cutImages_fine h))) fun _ _ h3 _ => State.loseThreads_fine h3)

theorem execClusterPowerLoss_fine {cl : ℕ} {s : State} (h : State.Fine P Q s) : Next (State.Fine P Q) (execClusterPowerLoss cl s) := by
  unfold execClusterPowerLoss
  exact Next.next (State.clusterLoss_fine h)

theorem State.loseDirty_fine {s : State} {d : ℕ} (h : State.Fine P Q s) : State.Fine P Q (s.loseDirty d) := by
  unfold State.loseDirty
  exact State.fine_mem h (foldl_fine (State.mem_fine h) fun _ ⟨_, _⟩ h5 => putMasked_mem h5)

theorem State.dieLoss_fine {s : State} {d : ℕ} (h : State.Fine P Q s) : State.Fine P Q (s.dieLoss d) := by
  unfold State.dieLoss
  exact iteInduction (fun _ => h) fun _ => State.rehome_fine
      (foldl_fine (foldl_each (R' := Task.Fine Q) (State.modDie_fine (State.cutImages_fine (State.loseDirty_fine h)) fun d1 h2 =>
      Die.fine_mk each_nil) (each_filter (State.tasks_fine
      (State.modDie_fine (State.cutImages_fine (State.loseDirty_fine h)) fun d1 h2 => Die.fine_mk each_nil))) fun _ _ h5 _ =>
      State.endTask_fine h5) fun _ _ h9 => State.clusterOff_fine h9)

theorem execVcoreFault_fine {die : ℕ} {s : State} (h : State.Fine P Q s) : Next (State.Fine P Q) (execVcoreFault die s) := by
  unfold execVcoreFault
  exact Next.next (State.dieLoss_fine h)

theorem Die.kept_fine {d : Die} : Die.Fine Q d.kept := by
  unfold Die.kept
  exact Die.fine_set Die.blank_fine

theorem State.onyxCores_fine {s : State} (h : State.Fine P Q s) : Each (Snd (Core.Fine Q)) s.onyxCores := by
  unfold State.onyxCores
  exact foldl_each (R' := Snd (Image.Fine Q)) (each_map (State.cores_fine h) fun ⟨_, _⟩ h4 => h4)
      (each_flatMap (R := Task.Fine Q) (each_filter (State.tasks_fine h)) fun _ h2 => Task.kept_fine h2) fun _ ⟨_, _⟩ h9 h10 =>
      iteInduction (fun _ => h9) fun _ => put_fine h9 (iteInduction (fun _ => getD_fine h9 Core.blank_fine) fun _ => Core.putImage_fine
      (getD_fine h9 Core.blank_fine) h10)

theorem State.onyx_fine {s : State} (h : State.Fine P Q s) : State.Fine P Q s.onyx := by
  have hr : State.Fine P Q State.reset := State.reset_fine
  unfold State.onyx
  exact State.fine_mk (State.mem_fine hr) (State.thr_fine hr) (State.tasks_fine hr) (State.onyxCores_fine h)
    (dies_map (State.dies_fine h) fun _ _ => Die.kept_fine)

theorem State.moduleLoss_fine {s : State} (h : State.Fine P Q s) : State.Fine P Q s.moduleLoss := by
  unfold State.moduleLoss
  exact State.fine_set (State.onyx_fine h)

theorem execModulePowerLoss_fine {s : State} (h : State.Fine P Q s) : Next (State.Fine P Q) (execModulePowerLoss s) := by
  unfold execModulePowerLoss
  exact Next.next (State.moduleLoss_fine h)

/-! ### The request ring (R447) -/

theorem State.reqFinish_fine {s : State} {status : ℕ} (h : State.Fine P Q s) : State.Fine P Q (s.reqFinish status) := by
  unfold State.reqFinish
  exact State.msix_fine (State.msix_fine (State.winPut_fine (State.winPut_fine h)))

theorem State.serve_fine {s : State} {op : ℕ} {f : List Byte → State → State × Option ℕ} (h : State.Fine P Q s)
    (hf : ∀ (a : List Byte) (a_1 : State), State.Fine P Q a_1 → Fst (State.Fine P Q) (f a a_1)) :
    State.Fine P Q (s.serve op f) := by
  unfold State.serve
  split
  · exact h
  · refine iteInduction (fun _ => h) fun _ => ?_
    refine iteInduction (fun _ => State.reqFinish_fine (State.post_fine h)) fun _ => ?_
    refine iteInduction (fun _ => State.reqFinish_fine h) fun _ => ?_
    refine iteInduction (fun _ => h) fun _ => ?_
    split
    next e8 =>
      have h9 := fst_of e8 (hf _ _ h)
      exact h9
    next e13 =>
      have h14 := fst_of e13 (hf _ _ h)
      exact State.reqFinish_fine h14

theorem refused_fine {s : State} (h : State.Fine P Q s) : Fst (State.Fine P Q) (refused s) := h

theorem done_fine {s : State} (h : State.Fine P Q s) : Fst (State.Fine P Q) (done s) := h

theorem State.reqRead_fine {s : State} {pa n : ℕ} {f : List Byte → State → State × Option ℕ} (h : State.Fine P Q s)
    (hf : ∀ (a : List Byte) (a_1 : State), State.Fine P Q a_1 → Fst (State.Fine P Q) (f a a_1)) :
    Fst (State.Fine P Q) (s.reqRead pa n f) := by
  unfold State.reqRead
  split
  next e3 =>
    have h4 := ends_error_of e3 (State.tryHome_fine h (State.homeBytes_fine h))
    exact h4
  next e9 =>
    have h10 := ends_ok_of e9 (State.tryHome_fine h (State.homeBytes_fine h))
    exact iteInduction (fun _ => refused_fine h) fun _ => hf _ _ h10

/-! ### Contexts (R179, R447, R449) -/

theorem reqCreate_fine {l : List Byte} {s : State} (h : State.Fine P Q s) : Fst (State.Fine P Q) (reqCreate l s) := by
  unfold reqCreate
  exact iteInduction (fun _ => refused_fine h) fun _ => done_fine h

theorem execCreateContext_fine {s : State} (h : State.Fine P Q s) : Next (State.Fine P Q) (execCreateContext s) := by
  unfold execCreateContext
  exact Next.next (State.serve_fine h fun _ _ h3 => reqCreate_fine h3)

theorem reqDestroy_fine {l : List Byte} {s : State} (h : State.Fine P Q s) : Fst (State.Fine P Q) (reqDestroy l s) := by
  unfold reqDestroy
  exact iteInduction (fun _ => refused_fine h) fun _ => done_fine h

theorem execDestroyContext_fine {s : State} (h : State.Fine P Q s) : Next (State.Fine P Q) (execDestroyContext s) := by
  unfold execDestroyContext
  exact Next.next (State.serve_fine h fun _ _ h3 => reqDestroy_fine h3)

/-! ### Shootdown (R28, R51, R72) -/

theorem Thread.shotTable_fine {t : Thread} {lo hi : ℕ} (h : Thread.Fine Q t) : Thread.Fine Q (t.shotTable lo hi) := by
  unfold Thread.shotTable
  exact iteInduction (fun _ => Thread.fine_handlerBase h fun q => and_and_zero (h q).2.2.2.2.2.2.1) fun _ => h

theorem Thread.shot_fine {t : Thread} {lo hi : ℕ} (h : Thread.Fine Q t) : Thread.Fine Q (t.shot lo hi) := by
  unfold Thread.shot
  exact Thread.shotTable_fine (Thread.fine_set (Thread.mapSnaps_fine (Thread.onSnap_fine h)))

theorem Image.shot_fine {lo hi : ℕ} {i : Image} (h : Image.Fine Q i) : Image.Fine Q (Image.shot lo hi i) := by
  unfold Image.shot
  exact Image.fine_mk (yields_map (Image.t_fine h) fun _ h2 => Thread.shotTable_fine h2)

theorem State.shootImages_fine {s : State} {ctx lo hi : ℕ} (h : State.Fine P Q s) : State.Fine P Q (s.shootImages ctx lo hi) := by
  unfold State.shootImages
  extract_lets own f
  have hf : ∀ i, Image.Fine Q i → Image.Fine Q (f i) := fun _ hi => iteInduction (fun _ => Image.shot_fine hi) fun _ => hi
  clear_value f
  have ht : ∀ x, Task.Fine Q x → Task.Fine Q { x with
      saved := x.saved.map (·.shot lo hi), origins := x.origins.map (·.shot lo hi), kept := x.kept.map fun e => (e.1, e.2.shot lo hi) } :=
    fun _ hx => Task.fine_mk (each_map (Task.saved_fine hx) fun _ => Image.shot_fine)
        (each_map (Task.origins_fine hx) fun _ => Image.shot_fine)
      (each_map (Task.kept_fine hx) fun _ he => Image.shot_fine (i := _) he)
  refine State.fine_mk (State.mem_fine h) (State.thr_fine h) ?_ ?_ ?_
  · exact each_map (State.tasks_fine h) fun x hx => iteInduction (fun _ => ht x hx) fun _ => hx
  · exact mapVal_fine (State.cores_fine h) fun _ hc => Core.fine_mk (yields_map (Core.imgA_fine hc) hf)
        (yields_map (Core.imgB_fine hc) hf)
      (yields_map (Core.imgC_fine hc) hf)
  · exact dies_map (State.dies_fine h) fun _ hd => Die.fine_mk
        (each_map (Die.imgs_fine hd) fun _ hj => ImgJob.fine_mk (hf _ (ImgJob.img_fine hj)))

theorem State.shootTlbs_fine {s : State} {ctx lo hi : ℕ} (h : State.Fine P Q s) : State.Fine P Q (s.shootTlbs ctx lo hi) := by
  unfold State.shootTlbs
  exact State.fine_cores h (mapVal_fine (State.cores_fine h) fun _ h2 => h2)

theorem reqShootdown_fine {l : List Byte} {s : State} (h : State.Fine P Q s) : Fst (State.Fine P Q) (reqShootdown l s) := by
  unfold reqShootdown
  exact iteInduction (fun _ => refused_fine h) fun _ => iteInduction (fun _ => h) fun _ => State.fine_set
      (State.shootImages_fine (foldl_fine (State.shootTlbs_fine h) fun _ _ h3 => State.modThread_fine h3 fun _ h5 => Thread.shot_fine h5))

theorem execShootdown_fine {s : State} (h : State.Fine P Q s) : Next (State.Fine P Q) (execShootdown s) := by
  unfold execShootdown
  exact Next.next (State.serve_fine h fun _ _ h3 => reqShootdown_fine h3)

theorem State.shootDone_fine {s : State} (h : State.Fine P Q s) : State.Fine P Q s.shootDone := by
  unfold State.shootDone
  split
  · exact h
  · exact iteInduction (fun _ => h) fun _ => State.reqFinish_fine h

theorem execShootdownCompletion_fine {s : State} (h : State.Fine P Q s) : Next (State.Fine P Q) (execShootdownCompletion s) := by
  unfold execShootdownCompletion
  exact Next.next (State.shootDone_fine h)

/-! ### The lap table (R149, R150) -/

theorem State.lapRefused_fine {s : State} {index reason : ℕ} (h : State.Fine P Q s) :
    Fst (State.Fine P Q) (s.lapRefused index reason) := by
  unfold State.lapRefused
  exact refused_fine (State.post_fine h)

theorem State.lapAccept_fine {s : State} {t : List LapEntry} (h : State.Fine P Q s) : State.Fine P Q (s.lapAccept t) := by
  unfold State.lapAccept
  split
  · exact State.post_fine h
  · exact State.lapForce_fine (State.mapSlots_fine h)

theorem reqLap_fine {l : List Byte} {s : State} (h : State.Fine P Q s) : Fst (State.Fine P Q) (reqLap l s) := by
  unfold reqLap
  refine iteInduction (fun _ => State.lapRefused_fine h) fun _ => ?_
  split
  next e3 =>
    have h4 := ends_error_of e3 (State.tryHome_fine h (State.homeBytes_fine h))
    exact h4
  · exact State.lapRefused_fine h
  next e13 =>
    have h14 := ends_ok_of e13 (State.tryHome_fine h (State.homeBytes_fine h))
    refine iteInduction (fun _ => State.lapRefused_fine h14) fun _ => ?_
    refine iteInduction (fun _ => State.lapRefused_fine h14) fun _ => ?_
    split
    next e17 =>
      have h18 := ends_error_of e17 (State.tryHome_fine h14 (State.homeBytes_fine h14))
      exact h18
    · exact State.lapRefused_fine h14
    next e27 =>
      have h28 := ends_ok_of e27 (State.tryHome_fine h14 (State.homeBytes_fine h14))
      split
      · exact State.lapRefused_fine h28
      · exact done_fine (State.lapAccept_fine h28)

theorem execInstallLapTable_fine {s : State} (h : State.Fine P Q s) : Next (State.Fine P Q) (execInstallLapTable s) := by
  unfold execInstallLapTable
  exact Next.next (State.serve_fine h fun _ _ h3 => reqLap_fine h3)

/-! ### The park list, the park area, the telemetry buffer (R166, R211, R214) -/

theorem reqParkList_fine {l : List Byte} {s : State} (h : State.Fine P Q s) : Fst (State.Fine P Q) (reqParkList l s) := by
  unfold reqParkList
  exact iteInduction (fun _ => refused_fine h) fun _ => State.reqRead_fine h fun _ _ h3 => iteInduction (fun _ => done_fine h3) fun _ =>
      refused_fine h3

theorem execParkList_fine {s : State} (h : State.Fine P Q s) : Next (State.Fine P Q) (execParkList s) := by
  unfold execParkList
  exact Next.next (State.serve_fine h fun _ _ h3 => reqParkList_fine h3)

theorem reqTelemetry_fine {l : List Byte} {s : State} (h : State.Fine P Q s) : Fst (State.Fine P Q) (reqTelemetry l s) := by
  unfold reqTelemetry
  exact iteInduction (fun _ => refused_fine h) fun _ => done_fine h

theorem execTelemetryBuffer_fine {s : State} (h : State.Fine P Q s) : Next (State.Fine P Q) (execTelemetryBuffer s) := by
  unfold execTelemetryBuffer
  exact Next.next (State.serve_fine h fun _ _ h3 => reqTelemetry_fine h3)

theorem reqParkArea_fine {l : List Byte} {s : State} (h : State.Fine P Q s) : Fst (State.Fine P Q) (reqParkArea l s) := by
  unfold reqParkArea
  exact iteInduction (fun _ => refused_fine h) fun _ => iteInduction (fun _ => h) fun _ => done_fine h

theorem execRegisterParkArea_fine {s : State} (h : State.Fine P Q s) : Next (State.Fine P Q) (execRegisterParkArea s) := by
  unfold execRegisterParkArea
  exact Next.next (State.serve_fine h fun _ _ h3 => reqParkArea_fine h3)

/-! ### Slot tables, ownership, save pools (R183, R435, R448) -/

theorem State.putSlotTable_fine {s : State} {kind index : ℕ} {tab : List ℕ} (h : State.Fine P Q s) :
    Yields (State.Fine P Q) (s.putSlotTable kind index tab) := by
  unfold State.putSlotTable
  exact iteInduction (fun _ => Yields.some h) fun _ => iteInduction (fun _ => Yields.some h) fun _ => iteInduction
      (fun _ => Yields.some (State.modCluster_fine h)) fun _ => Yields.none

theorem reqSlotTable_fine {l : List Byte} {s : State} (h : State.Fine P Q s) : Fst (State.Fine P Q) (reqSlotTable l s) := by
  unfold reqSlotTable
  refine iteInduction (fun _ => refused_fine h) fun _ => ?_
  refine State.reqRead_fine h fun _ _ h3 => ?_
  split
  · exact refused_fine h3
  next e8 =>
    have h9 := some_of e8 (State.putSlotTable_fine h3)
    exact done_fine h9

theorem execWriteSlotTable_fine {s : State} (h : State.Fine P Q s) : Next (State.Fine P Q) (execWriteSlotTable s) := by
  unfold execWriteSlotTable
  exact Next.next (State.serve_fine h fun _ _ h3 => reqSlotTable_fine h3)

theorem reqSavePool_fine {l : List Byte} {s : State} (h : State.Fine P Q s) : Fst (State.Fine P Q) (reqSavePool l s) := by
  unfold reqSavePool
  dsimp only
  split
  · exact refused_fine h
  · exact iteInduction (fun _ => refused_fine h) fun _ => done_fine h

theorem execSavePool_fine {s : State} (h : State.Fine P Q s) : Next (State.Fine P Q) (execSavePool s) := by
  unfold execSavePool
  exact Next.next (State.serve_fine h fun _ _ h3 => reqSavePool_fine h3)

theorem State.setOwners_fine {s : State} {b : List Byte} (h : State.Fine P Q s) : State.Fine P Q (s.setOwners b) := by
  unfold State.setOwners
  exact foldl_fine h fun _ _ h3 => State.applyOwner_fine (State.modCore_fine h3 fun _ h5 => h5)

theorem reqOwners_fine {l : List Byte} {s : State} (h : State.Fine P Q s) : Fst (State.Fine P Q) (reqOwners l s) := by
  unfold reqOwners
  exact iteInduction (fun _ => refused_fine h) fun _ => State.reqRead_fine h fun _ _ h3 => done_fine (State.setOwners_fine h3)

theorem execWriteCoreOwnership_fine {s : State} (h : State.Fine P Q s) : Next (State.Fine P Q) (execWriteCoreOwnership s) := by
  unfold execWriteCoreOwnership
  exact Next.next (State.serve_fine h fun _ _ h3 => reqOwners_fine h3)

/-! ### Tasks and cores (R432, R434) -/

theorem reqPreempt_fine {l : List Byte} {s : State} (h : State.Fine P Q s) : Fst (State.Fine P Q) (reqPreempt l s) := by
  unfold reqPreempt
  split
  · exact refused_fine h
  · exact done_fine (State.askPreempt_fine h)

theorem execPreEmptTask_fine {s : State} (h : State.Fine P Q s) : Next (State.Fine P Q) (execPreEmptTask s) := by
  unfold execPreEmptTask
  exact Next.next (State.serve_fine h fun _ _ h3 => reqPreempt_fine h3)

theorem reqClearDegraded_fine {l : List Byte} {s : State} (h : State.Fine P Q s) : Fst (State.Fine P Q) (reqClearDegraded l s) := by
  unfold reqClearDegraded
  exact iteInduction (fun _ => refused_fine h) fun _ => done_fine (State.modCore_fine h fun _ h2 => h2)

theorem execClearDegradedCore_fine {s : State} (h : State.Fine P Q s) : Next (State.Fine P Q) (execClearDegradedCore s) := by
  unfold execClearDegradedCore
  exact Next.next (State.serve_fine h fun _ _ h3 => reqClearDegraded_fine h3)

/-! ### Snapshot domains (R191, R451) -/

theorem reqRestore_fine {l : List Byte} {s : State} (h : State.Fine P Q s) : Fst (State.Fine P Q) (reqRestore l s) := by
  unfold reqRestore
  exact iteInduction (fun _ => refused_fine h) fun _ => State.reqRead_fine h fun _ _ h3 => iteInduction (fun _ => refused_fine h3)
      fun _ => done_fine (foldl_fine (State.fine_mem (iteInduction (fun _ => h3) fun _ => h3)
      (foldl_fine (State.mem_fine (iteInduction (fun _ => h3) fun _ => h3)) fun _ _ h6 => restorePage_mem h6)) fun _ _ h9 =>
      State.renewAll_fine h9)

theorem execRestoreSnapshotDomain_fine {s : State} (h : State.Fine P Q s) : Next (State.Fine P Q) (execRestoreSnapshotDomain s) := by
  unfold execRestoreSnapshotDomain
  exact Next.next (State.serve_fine h fun _ _ h3 => reqRestore_fine h3)

/-! ### Communicators and collectives (R457, R459, R461) -/

theorem reqComm_fine {l : List Byte} {s : State} (h : State.Fine P Q s) : Fst (State.Fine P Q) (reqComm l s) := by
  unfold reqComm
  exact iteInduction (fun _ => refused_fine h) fun _ => State.reqRead_fine h fun _ _ h3 => iteInduction (fun _ => refused_fine h3)
      fun _ => State.reqRead_fine h3 fun _ _ h6 => done_fine h6

theorem execSetUpCommunicator_fine {s : State} (h : State.Fine P Q s) : Next (State.Fine P Q) (execSetUpCommunicator s) := by
  unfold execSetUpCommunicator
  exact Next.next (State.serve_fine h fun _ _ h3 => reqComm_fine h3)

theorem State.collCount_fine {s : State} {c : Coll} (h : State.Fine P Q s) : State.Fine P Q (s.collCount c) := by
  unfold State.collCount
  split
  · exact State.asyncDone_fine (State.mergeFlags_fine h)
  · exact h

theorem State.collEvent_fine {s : State} {c : Coll} {rank kind : ℕ} (h : State.Fine P Q s) :
    State.Fine P Q (s.collEvent c rank kind) := by
  unfold State.collEvent
  exact State.post_fine h

theorem State.collWrite_fine {s : State} {c : Coll} {va : ℕ} {l : List Byte} (h : State.Fine P Q s) :
    State.Fine P Q (s.collWrite c va l) := by
  unfold State.collWrite
  refine foldl_fine h fun _ ⟨_, _⟩ h5 => ?_
  split
  · exact h5
  · exact State.engineWrite_fine h5

theorem reqCancel_fine {l : List Byte} {s : State} (h : State.Fine P Q s) : Fst (State.Fine P Q) (reqCancel l s) := by
  unfold reqCancel
  split
  · exact refused_fine h
  · exact done_fine (State.collEvent_fine (State.collCount_fine (State.fine_set (State.collWrite_fine h))))

theorem execCancelCollective_fine {s : State} (h : State.Fine P Q s) : Next (State.Fine P Q) (execCancelCollective s) := by
  unfold execCancelCollective
  exact Next.next (State.serve_fine h fun _ _ h3 => reqCancel_fine h3)

/-! ### Suspend and resume (R216, R217) -/

theorem reqSuspend_fine {l : List Byte} {s : State} (h : State.Fine P Q s) : Fst (State.Fine P Q) (reqSuspend l s) := by
  unfold reqSuspend
  split
  · exact done_fine (State.suspend_fine h)
  · exact h
  · exact refused_fine h

theorem execSuspendRequest_fine {s : State} (h : State.Fine P Q s) : Next (State.Fine P Q) (execSuspendRequest s) := by
  unfold execSuspendRequest
  exact Next.next (State.serve_fine h fun _ _ h3 => reqSuspend_fine h3)

theorem reqResume_fine {l : List Byte} {s : State} (h : State.Fine P Q s) : Fst (State.Fine P Q) (reqResume l s) := by
  unfold reqResume
  split
  · exact h
  · exact done_fine (State.resume_fine h)
  · exact refused_fine h

theorem execResumeRequest_fine {s : State} (h : State.Fine P Q s) : Next (State.Fine P Q) (execResumeRequest s) := by
  unfold execResumeRequest
  exact Next.next (State.serve_fine h fun _ _ h3 => reqResume_fine h3)

/-! ### Freezes and rebuilds (R98, R99) -/

theorem execSecdedFreezeEnd_fine {core : ℕ} {s : State} (h : State.Fine P Q s) : Next (State.Fine P Q) (execSecdedFreezeEnd core s) := by
  unfold execSecdedFreezeEnd
  exact Next.next (State.modCore_fine h fun _ h2 => h2)

theorem State.rebuildEnd_fine {s : State} {str unit : ℕ} (h : State.Fine P Q s) : State.Fine P Q (s.rebuildEnd str unit) := by
  unfold State.rebuildEnd
  split
  · exact h
  · exact State.post_fine h

theorem execBankRebuildEnd_fine {str unit : ℕ} {s : State} (h : State.Fine P Q s) :
    Next (State.Fine P Q) (execBankRebuildEnd str unit s) := by
  unfold execBankRebuildEnd
  exact Next.next (State.rebuildEnd_fine h)

/-! ### HBM4 transfers (R88, R89) -/

theorem State.burstPoison_fine {s : State} {b : Burst} (h : State.Fine P Q s) : State.Fine P Q (s.burstPoison b) := by
  unfold State.burstPoison
  exact State.postPoison_fine (State.setPoison_fine (State.xferLog_fine h))

theorem State.reread_fine {s : State} {k : ℕ} {ok : Bool} (h : State.Fine P Q s) : State.Fine P Q (s.reread k ok) := by
  unfold State.reread
  split
  · exact h
  · exact iteInduction (fun _ => h) fun _ => iteInduction (fun _ => State.xferLog_fine h) fun _ => iteInduction (fun _ => h) fun _ =>
        iteInduction (fun _ => State.burstPoison_fine h) fun _ => State.setStack_fine h

theorem execHbmParityReread_fine {k : ℕ} {ok : Bool} {s : State} (h : State.Fine P Q s) :
    Next (State.Fine P Q) (execHbmParityReread k ok s) := by
  unfold execHbmParityReread
  exact Next.next (State.reread_fine h)

theorem State.laneSwapRead_fine {s : State} {k : ℕ} {ok : Bool} (h : State.Fine P Q s) : State.Fine P Q (s.laneSwapRead k ok) := by
  unfold State.laneSwapRead
  split
  · exact h
  · exact iteInduction (fun _ => h) fun _ => iteInduction (fun _ => State.xferLog_fine h) fun _ => State.burstPoison_fine h

theorem execHbmLaneSwapResume_fine {k : ℕ} {ok : Bool} {s : State} (h : State.Fine P Q s) :
    Next (State.Fine P Q) (execHbmLaneSwapResume k ok s) := by
  unfold execHbmLaneSwapResume
  exact Next.next (State.laneSwapRead_fine h)

theorem execHbmScrub_fine {stack pch bank row col : ℕ} {s : State} (h : State.Fine P Q s) :
    Next (State.Fine P Q) (execHbmScrub stack pch bank row col s) := by
  unfold execHbmScrub
  exact Next.next (iteInduction (fun _ => State.cellLog_fine h) fun _ => h)

/-! ### Error counters and the event queue (R165, R231) -/

theorem State.clearErr_fine {s : State} {idx val : ℕ} (h : State.Fine P Q s) : State.Fine P Q (s.clearErr idx val) := by
  unfold State.clearErr
  split
  · exact h
  · exact h

theorem execErrorCounterClear_fine {idx : ℕ} {val : BitVec 64} {s : State} (h : State.Fine P Q s) :
    Next (State.Fine P Q) (execErrorCounterClear idx val s) := by
  unfold execErrorCounterClear
  exact Next.next (iteInduction (fun _ => h) fun _ => State.clearErr_fine h)

theorem execEventQueueHeadWrite_fine {val : BitVec 32} {s : State} (h : State.Fine P Q s) :
    Next (State.Fine P Q) (execEventQueueHeadWrite val s) := by
  unfold execEventQueueHeadWrite
  exact Next.next (iteInduction (fun _ => h) fun _ => h)

/-! ### Onyx wear (R232) -/

theorem Die.moveBlock_fine {d : Die} {b : ℕ} (h : Die.Fine Q d) : Die.Fine Q (d.moveBlock b) := by
  unfold Die.moveBlock
  exact iteInduction (fun _ => h) fun _ => iteInduction (fun _ => h) fun _ => h

theorem execOnyxBlockMove_fine {die block : ℕ} {s : State} (h : State.Fine P Q s) :
    Next (State.Fine P Q) (execOnyxBlockMove die block s) := by
  unfold execOnyxBlockMove
  exact Next.next (iteInduction (fun _ => State.modDie_fine h fun _ h2 => Die.moveBlock_fine h2) fun _ => h)

/-! ### The copy engines (R183, R342) -/

theorem State.copySlotDone_fine {s : State} {iod : ℕ} (h : State.Fine P Q s) : State.Fine P Q (s.copySlotDone iod) := by
  unfold State.copySlotDone
  dsimp only
  split
  · exact h
  · exact h

theorem State.copyMeets_fine {s : State} {iod line : ℕ} (h : State.Fine P Q s) : State.Fine P Q (s.copyMeets iod line) := by
  unfold State.copyMeets
  dsimp only
  split
  · exact State.postPoison_fine (State.countErr_fine h)
  · exact State.postPoison_fine (State.countErr_fine h)

theorem State.copyChunk_fine {s : State} {k : ℕ} (h : State.Fine P Q s) : State.Fine P Q (s.copyChunk k) := by
  unfold State.copyChunk
  split
  · exact h
  · refine iteInduction (fun _ => h) fun _ => ?_
    split
    next e8 =>
      have h9 := ends_error_of e8 (State.tryHome_fine h (State.homeBytes_fine h))
      exact h9
    next e14 =>
      have h15 := ends_ok_of e14 (State.tryHome_fine h (State.homeBytes_fine h))
      exact iteInduction (fun _ => State.snoopRange_fine h15) fun _ => iteInduction
          (fun _ => State.fine_set (State.copySlotDone_fine (iteInduction
          (fun _ => foldl_fine (foldl_fine (State.engineWrite_fine h15) fun _ _ h18 => State.setPoison_fine h18) fun _ _ h21 =>
          State.copyMeets_fine h21) fun _ => State.engineWrite_fine h15))) fun _ => State.fine_set
          (State.copySlotDone_fine (iteInduction (fun _ => foldl_fine
          (foldl_fine (State.engineWrite_fine h15) fun _ _ h24 => State.setPoison_fine h24) fun _ _ h27 => State.copyMeets_fine h27)
          fun _ => State.engineWrite_fine h15))

theorem execCopyChunkDone_fine {k : ℕ} {s : State} (h : State.Fine P Q s) : Next (State.Fine P Q) (execCopyChunkDone k s) := by
  unfold execCopyChunkDone
  exact Next.next (State.copyChunk_fine h)

/-! ### Rails (R466) -/

theorem State.railsUp_fine {s : State} {r : BitVec 21} {step : ℕ} (h : State.Fine P Q s) : State.Fine P Q (s.railsUp r step) := h

/-! ### Boot records (R233, R475, R476) -/

theorem State.modRecords_fine {s : State} {f : Die → Die} (h : State.Fine P Q s) (hf : ∀ (a : Die), Die.Fine Q a → Die.Fine Q (f a)) :
    State.Fine P Q (s.modRecords f) := by
  unfold State.modRecords
  exact foldl_fine h fun _ _ h3 => State.modDie_fine h3 fun _ h5 => hf _ h5

/-! ### A start begins, and fails (R474 step 1, R476) -/

theorem State.powerBase_fine {s : State} (h : State.Fine P Q s) : State.Fine P Q s.powerBase := by
  unfold State.powerBase
  exact State.fine_set (State.onyx_fine h)

theorem State.startBoot_fine {s : State} (h : State.Fine P Q s) : State.Fine P Q s.startBoot := by
  unfold State.startBoot
  exact State.railsUp_fine (State.measure_fine (State.fine_set (State.powerBase_fine h)))

theorem State.bootFail_fine {s : State} {code : ℕ} (h : State.Fine P Q s) : State.Fine P Q (s.bootFail code) := by
  unfold State.bootFail
  exact State.startBoot_fine (State.modRecords_fine h fun _ h2 => h2)

/-! ### The configuration applied (R20, R473, R474 step 5) -/

theorem State.applyHarvest_fine {s : State} (h : State.Fine P Q s) : State.Fine P Q s.applyHarvest := by
  unfold State.applyHarvest
  exact State.fine_dies h (dies_mapIdx (State.dies_fine h) fun _ _ h3 => h3)

theorem State.lockIdentity_fine {s : State} (h : State.Fine P Q s) : State.Fine P Q s.lockIdentity := h

theorem State.writeIdentity_fine {s : State} {d o v : ℕ} (h : State.Fine P Q s) : State.Fine P Q (s.writeIdentity d o v) := by
  unfold State.writeIdentity
  exact iteInduction (fun _ => h) fun _ => State.modDie_fine h fun _ h2 => h2

theorem State.verifyAll_fine {s : State} (h : State.Fine P Q s) : State.Fine P Q s.verifyAll := by
  unfold State.verifyAll
  split
  · exact State.bootFail_fine h
  next fw _ =>
    have h1 : State.Fine P Q ((s.lockIdentity).measure 1 (sha3 (imageBody fw ++ imageSig fw))) := State.measure_fine
        (State.lockIdentity_fine h)
    dsimp only
    split
    · exact State.bootFail_fine (State.fine_set h1)
    · exact State.bootFail_fine (State.fine_set h1)
    · have hm : ∀ {s : State} {a b c d e}, State.Fine P Q s →
          State.Fine P Q (((((s.measure 2 a).measure 3 b).measure 4 c).measure 5 d).measure 6 e) := fun hs =>
        State.measure_fine (State.measure_fine (State.measure_fine (State.measure_fine (State.measure_fine hs))))
      have hd : ∀ {s : State} {b : Boot}, State.Fine P Q s → State.Fine P Q
          { s with dies := s.dies.map fun (d : Die) => if d.present then d else { d with on := false }, boot := b } := fun hs =>
        State.fine_dies hs (dies_map (State.dies_fine hs) fun _ hx => iteInduction (fun _ => hx) fun _ => hx)
      exact iteInduction (fun _ => State.bootFail_fine (hd (State.applyHarvest_fine (State.fine_set (hm (State.fine_set h1)))))) fun _ =>
        State.railsUp_fine (hd (State.applyHarvest_fine (State.fine_set (hm (State.fine_set h1)))))

theorem State.minimalMode_fine {s : State} (h : State.Fine P Q s) : State.Fine P Q s.minimalMode := by
  unfold State.minimalMode
  exact State.fine_set (State.powerBase_fine h)

theorem State.romChecks_fine {s : State} (h : State.Fine P Q s) : State.Fine P Q s.romChecks := by
  unfold State.romChecks
  generalize s.answering = l
  refine iteInduction (fun _ => State.bootFail_fine h) fun _ => ?_
  refine iteInduction (fun _ => State.minimalMode_fine (State.modRecords_fine (State.fine_set (State.modRecords_fine h fun _ hd => hd))
      fun _ hd => hd)) fun _ => ?_
  rcases l with _ | ⟨a, _ | ⟨b, l⟩⟩
  · exact State.verifyAll_fine (State.fine_set (State.modRecords_fine (State.fine_set (State.modRecords_fine h fun _ hd => hd))
        fun _ hd => hd))
  · exact State.verifyAll_fine (State.fine_set (State.modRecords_fine (State.fine_set (State.modRecords_fine h fun _ hd => hd))
        fun _ hd => hd))
  · exact iteInduction
      (fun _ => State.bootFail_fine (State.fine_set (State.fine_set
          (State.modRecords_fine (State.fine_set (State.modRecords_fine h fun _ hd => hd)) fun _ hd => hd))))
      fun _ => State.verifyAll_fine (State.fine_set (State.modRecords_fine (State.fine_set (State.modRecords_fine h fun _ hd => hd))
          fun _ hd => hd))

/-! ### The end of a start (R474 steps 6 and 7) -/

theorem State.bootDone_fine {s : State} (h : State.Fine P Q s) : State.Fine P Q s.bootDone := by
  unfold State.bootDone
  exact State.fine_thr (State.modRecords_fine h fun _ h2 => h2)
      (put_fine (State.thr_fine (State.modRecords_fine h fun _ h4 => h4)) agateStart_fine)

theorem State.trainAll_fine {s : State} (h : State.Fine P Q s) : State.Fine P Q s.trainAll := by
  unfold State.trainAll
  exact iteInduction (fun _ => State.bootFail_fine h) fun _ => iteInduction (fun _ => State.bootFail_fine h) fun _ => iteInduction
      (fun _ => State.bootFail_fine h) fun _ => State.fine_dies h
      (dies_mapIdx (State.dies_fine h) fun _ _ h3 => iteInduction (fun _ => Die.switchOn_fine h3) fun _ => h3)

theorem State.clustersGood_fine {s : State} (h : State.Fine P Q s) : State.Fine P Q s.clustersGood := by
  unfold State.clustersGood
  exact iteInduction (fun _ => h) fun _ => iteInduction (fun _ => State.bootFail_fine h) fun _ => State.bootDone_fine h

theorem execClusterSwitchOnRound_fine {die : ℕ} {s : State} (h : State.Fine P Q s) :
    Next (State.Fine P Q) (execClusterSwitchOnRound die s) := by
  unfold execClusterSwitchOnRound
  exact Next.next (State.clustersGood_fine (State.switchRoundEnd_fine h))

theorem State.railsGood_fine {s : State} (h : State.Fine P Q s) : State.Fine P Q s.railsGood := by
  unfold State.railsGood
  exact iteInduction (fun _ => iteInduction (fun _ => State.railsUp_fine h) fun _ => State.romChecks_fine h) fun _ => iteInduction
      (fun _ => iteInduction (fun _ => State.clustersGood_fine (State.trainAll_fine h)) fun _ => State.railsUp_fine h) fun _ => h

theorem State.railGood_fine {s : State} {rail : ℕ} (h : State.Fine P Q s) : State.Fine P Q (s.railGood rail) := by
  unfold State.railGood
  exact iteInduction (fun _ => h) fun _ => iteInduction (fun _ => State.railsGood_fine h) fun _ => h

theorem execRailPowerGood_fine {rail : ℕ} {s : State} (h : State.Fine P Q s) : Next (State.Fine P Q) (execRailPowerGood rail s) := by
  unfold execRailPowerGood
  exact Next.next (State.railGood_fine h)

theorem execRailPowerGoodTimeout_fine {rail : ℕ} {s : State} (h : State.Fine P Q s) :
    Next (State.Fine P Q) (execRailPowerGoodTimeout rail s) := by
  unfold execRailPowerGoodTimeout
  exact Next.next (iteInduction (fun _ => State.bootFail_fine h) fun _ => h)

theorem execVauxPowerGood_fine {s : State} (h : State.Fine P Q s) : Next (State.Fine P Q) (execVauxPowerGood s) := by
  unfold execVauxPowerGood
  exact Next.next (iteInduction (fun _ => h) fun _ => State.startBoot_fine h)

theorem execBootTimeout_fine {s : State} (h : State.Fine P Q s) : Next (State.Fine P Q) (execBootTimeout s) := by
  unfold execBootTimeout
  exact Next.next (iteInduction (fun _ => State.bootFail_fine h) fun _ => h)

/-! ### Minimal mode (R477) -/

theorem State.recover_fine {s : State} (h : State.Fine P Q s) : State.Fine P Q s.recover := by
  unfold State.recover
  refine iteInduction (fun _ => h) fun _ => ?_
  dsimp only
  split
  · exact h
  · exact State.startBoot_fine (State.modRecords_fine h fun _ h7 => h7)

theorem execRecoveryDoorbell_fine {_val : ℕ} {s : State} (h : State.Fine P Q s) :
    Next (State.Fine P Q) (execRecoveryDoorbell _val s) := by
  unfold execRecoveryDoorbell
  exact Next.next (State.recover_fine h)

/-! ### Module reset (R165, R219, R220, R229, R463, R475) -/

theorem State.moduleReset_fine {s : State} (h : State.Fine P Q s) : State.Fine P Q s.moduleReset := by
  unfold State.moduleReset
  exact iteInduction (fun _ => State.startBoot_fine (State.fine_set (State.powerBase_fine h))) fun _ => State.fine_set
      (State.powerBase_fine h)

theorem execModuleReset_fine {s : State} (h : State.Fine P Q s) : Next (State.Fine P Q) (execModuleReset s) := by
  unfold execModuleReset
  exact Next.next (State.moduleReset_fine h)

/-! ### What the window reads (R446) -/

theorem State.winRead_fine {s : State} {req o n : ℕ} (h : State.Fine P Q s) : Fst (State.Fine P Q) (s.winRead req o n) := by
  unfold State.winRead
  dsimp only
  split
  · exact h
  · exact iteInduction (fun _ => h) fun _ => h

/-! ### What a write of the window does (R446) -/

theorem State.winRecovery_fine {s : State} {o : ℕ} {d : List Byte} (h : State.Fine P Q s) : State.Fine P Q (s.winRecovery o d) := by
  simp only [State.winRecovery]
  generalize writtenAt (o - 0x320000) d 0x4000000 = l
  refine iteInduction (fun _ => h) fun _ => ?_
  cases l with
  | none =>
    exact iteInduction (fun _ => State.recover_fine (iteInduction (fun _ => h) fun _ => h)) fun _ => iteInduction (fun _ => h) fun _ => h
  | some v =>
    exact iteInduction (fun _ => State.recover_fine (State.fine_set (iteInduction (fun _ => h) fun _ => h))) fun _ =>
      State.fine_set (iteInduction (fun _ => h) fun _ => h)

theorem State.winTrigger_fine {s : State} {req o : ℕ} {d : List Byte} (h : State.Fine P Q s) : State.Fine P Q (s.winTrigger req o d) := by
  unfold State.winTrigger
  refine foldl_fine ?_ fun _ _ h58 => iteInduction (fun _ => State.modDie_fine h58 fun _ h60 => h60) fun _ => h58
  refine foldl_fine ?_ fun _ _ h50 => ?_
  · split
    · refine State.curveBell_fine ?_
      split
      · refine State.fine_set ?_
        refine foldl_fine h fun _ _ h9 => ?_
        split
        · exact State.launchBell_fine h9
        · exact h9
      · refine foldl_fine h fun _ _ h19 => ?_
        split
        · exact State.launchBell_fine h19
        · exact h19
    · split
      · refine State.fine_set ?_
        refine foldl_fine h fun _ _ h32 => ?_
        split
        · exact State.launchBell_fine h32
        · exact h32
      · refine foldl_fine h fun _ _ h42 => ?_
        split
        · exact State.launchBell_fine h42
        · exact h42
  · dsimp only
    split
    · exact State.clearErr_fine h50
    · exact h50

theorem State.winWrite_fine {s : State} {req o : ℕ} {d : List Byte} (h : State.Fine P Q s) : State.Fine P Q (s.winWrite req o d) := by
  unfold State.winWrite
  exact iteInduction (fun _ => iteInduction (fun _ => State.winRecovery_fine h) fun _ => h) fun _ => iteInduction (fun _ => h) fun _ =>
      State.winTrigger_fine (foldl_fine h fun _ _ h3 => iteInduction (fun _ => State.winPut_fine h3) fun _ => h3)

theorem execRegisterWrite_fine {req ofs : ℕ} {val : BitVec 64} {s : State} (h : State.Fine P Q s) :
    Next (State.Fine P Q) (execRegisterWrite req ofs val s) := by
  unfold execRegisterWrite
  refine Next.next ?_
  refine iteInduction (fun _ => iteInduction (fun _ => State.writeIdentity_fine h) fun _ => h) fun _ => ?_
  refine iteInduction (fun _ => ?_) fun _ => State.winWrite_fine h
  split
  · exact h
  · exact h

/-! ### Host accesses (R443 to R445) -/

theorem State.hostDrops_fine {s : State} {port pa : ℕ} {d : List Byte} (h : State.Fine P Q s) :
    State.Fine P Q (s.hostDrops port pa d) := by
  unfold State.hostDrops
  exact State.setPort_fine h

theorem State.hostStore_fine {s : State} {port pa : ℕ} {d : List Byte} (h : State.Fine P Q s) :
    State.Fine P Q (s.hostStore port pa d) := by
  unfold State.hostStore
  exact State.engineWriteBy_fine (State.hostDrops_fine h)

theorem execHostWrite_fine {port pa : ℕ} {data : List Byte} {s : State} (h : State.Fine P Q s) :
    Next (State.Fine P Q) (execHostWrite port pa data s) := by
  unfold execHostWrite
  split
  · exact Next.next h
  · exact iteInduction (fun _ => Next.next h) fun _ => iteInduction (fun _ => Next.next (State.winWrite_fine h)) fun _ => iteInduction
        (fun _ => Next.next h) fun _ => iteInduction (fun _ => Next.fault) fun _ => Next.next (State.hostStore_fine h)

theorem State.hostLoad_fine {s : State} {port pa n : ℕ} (h : State.Fine P Q s) : State.Fine P Q (s.hostLoad port pa n) := by
  unfold State.hostLoad
  split
  next e3 =>
    have h4 := ends_error_of e3 (State.tryHome_fine h (State.homeBytes_fine h))
    exact h4
  next e9 =>
    have h10 := ends_ok_of e9 (State.tryHome_fine h (State.homeBytes_fine h))
    exact iteInduction (fun _ => h) fun _ => State.setPort_fine h10

theorem execHostRead_fine {port pa len : ℕ} {s : State} (h : State.Fine P Q s) : Next (State.Fine P Q) (execHostRead port pa len s) := by
  unfold execHostRead
  refine iteInduction (fun _ => ?_) fun _ => ?_
  · refine iteInduction (fun _ => ?_) fun _ => Next.next h
    split
    next e4 =>
      have h5 := fst_of e4 (State.winRead_fine h)
      exact Next.next (State.returns_fine h5)
  · split
    · exact Next.next h
    · refine iteInduction (fun _ => Next.next h) fun _ => ?_
      refine iteInduction (fun _ => ?_) fun _ => iteInduction (fun _ => Next.next h) fun _ => iteInduction (fun _ => Next.fault) fun _ =>
          Next.next (State.hostLoad_fine h)
      split
      next e14 =>
        have h15 := fst_of e14 (State.winRead_fine h)
        exact Next.next (State.setPort_fine h15)

theorem State.portReset_fine {s : State} {port : ℕ} (h : State.Fine P Q s) : State.Fine P Q (s.portReset port) := by
  unfold State.portReset
  exact foldl_each (R' := Task.Fine Q) h (each_filter (State.tasks_fine h)) fun _ _ h3 _ => State.endTask_fine h3

theorem execFlr_fine {port : ℕ} {s : State} (h : State.Fine P Q s) : Next (State.Fine P Q) (execFlr port s) := by
  unfold execFlr
  exact Next.next (State.portReset_fine h)

theorem execHostCompletion_fine {port : ℕ} {s : State} (h : State.Fine P Q s) : Next (State.Fine P Q) (execHostCompletion port s) := by
  unfold execHostCompletion
  exact Next.next (State.setPort_fine h)

theorem execBirspArrival_fine {port line : ℕ} {s : State} (h : State.Fine P Q s) :
    Next (State.Fine P Q) (execBirspArrival port line s) := by
  unfold execBirspArrival
  exact Next.next (iteInduction (fun _ => State.setPort_fine h) fun _ => h)

/-! ### Accesses from a peer (R455) -/

theorem State.peerArrives_fine {s : State} {kind pa0 mask : ℕ} {d : List Byte} (h : State.Fine P Q s) :
    State.Fine P Q (s.peerArrives kind pa0 mask d) := by
  unfold State.peerArrives
  refine iteInduction (fun _ => h) fun _ => ?_
  refine iteInduction (fun _ => ?_) fun _ => ?_
  · split
    next e3 =>
      have h4 := ends_error_of e3 (State.tryHome_fine h (State.homeBytes_fine h))
      exact h4
    next e9 =>
      have h10 := ends_ok_of e9 (State.tryHome_fine h (State.homeBytes_fine h))
      exact h10
  · refine iteInduction (fun _ => State.enginePut_fine h) fun _ => ?_
    refine iteInduction (fun _ => ?_) fun _ => iteInduction (fun _ => State.enginePut_fine h) fun _ => h
    refine iteInduction (fun _ => h) fun _ => ?_
    split
    next e13 =>
      have h14 := ends_error_of e13 (State.tryHome_fine h (State.homeBytes_fine h))
      exact h14
    next e19 =>
      have h20 := ends_ok_of e19 (State.tryHome_fine h (State.homeBytes_fine h))
      exact iteInduction (fun _ => h20) fun _ => iteInduction (fun _ => iteInduction (fun _ => State.barAddAt_fine h20) fun _ => h20)
          fun _ => State.atomicWrite_fine h20

theorem execPeerAccessArrival_fine {_peer kind pa mask : ℕ} {data : List Byte} {s : State} (h : State.Fine P Q s) :
    Next (State.Fine P Q) (execPeerAccessArrival _peer kind pa mask data s) := by
  unfold execPeerAccessArrival
  exact Next.next (State.peerArrives_fine h)

/-! ### Answers from a peer (R455) -/

theorem State.peerFill_fine {s : State} {d line : ℕ} {dat : BitVec 512} (h : State.Fine P Q s) :
    State.Fine P Q (s.peerFill d line dat) := by
  unfold State.peerFill
  split
  · exact State.llcInsert_fine h
  · exact State.llcInsert_fine h

theorem State.peerAcked_fine {s : State} {line : ℕ} (h : State.Fine P Q s) : State.Fine P Q (s.peerAcked line) := by
  unfold State.peerAcked
  split
  · exact h
  · exact State.wtAcked_fine h

theorem State.homeAnswer_fine {s : State} {k : ℕ} {d : BitVec 512} {bad : Bool} (h : State.Fine P Q s) :
    State.Fine P Q (s.homeAnswer k d bad) := by
  unfold State.homeAnswer
  split
  · exact h
  · exact iteInduction (fun _ => State.setPoison_fine h) fun _ => State.clearPoison_fine h

theorem State.peerAnswers_fine {s : State} {k : ℕ} {d : List Byte} (h : State.Fine P Q s) : State.Fine P Q (s.peerAnswers k d) := by
  unfold State.peerAnswers
  split
  · exact h
  · refine iteInduction (fun _ => h) fun _ => ?_
    refine iteInduction (fun _ => State.homeAnswer_fine h) fun _ => ?_
    refine iteInduction (fun _ => State.peerFill_fine h) fun _ => ?_
    refine iteInduction (fun _ => ?_) fun _ => iteInduction (fun _ => State.peerAcked_fine h) fun _ => h
    refine iteInduction (fun _ => h) fun _ => ?_
    refine iteInduction (fun _ => ?_) fun _ => h
    split
    · exact h
    · exact State.modTask_fine h fun _ h14 => h14

theorem execPeerResponse_fine {k : ℕ} {data : List Byte} {s : State} (h : State.Fine P Q s) :
    Next (State.Fine P Q) (execPeerResponse k data s) := by
  unfold execPeerResponse
  exact Next.next (State.peerAnswers_fine h)

theorem State.peerEvent_fine {s : State} {p : PeerAcc} {refused : Bool} (h : State.Fine P Q s) :
    State.Fine P Q (s.peerEvent p refused) := by
  unfold State.peerEvent
  exact State.post_fine h

theorem State.peerPoison_fine {s : State} {p : PeerAcc} (h : State.Fine P Q s) : State.Fine P Q (s.peerPoison p) := by
  unfold State.peerPoison
  refine iteInduction (fun _ => h) fun _ => ?_
  refine iteInduction (fun _ => iteInduction (fun _ => State.raiseAt_fine h) fun _ => h) fun _ => ?_
  split
  · exact h
  · split
    · exact iteInduction (fun _ => State.raiseAt_fine (State.setThread_fine h (Thread.putUnit_fine (State.thread_fine h)))) fun _ => h
    · exact h

theorem State.peerFails_fine {s : State} {k : ℕ} {refused : Bool} (h : State.Fine P Q s) : State.Fine P Q (s.peerFails k refused) := by
  unfold State.peerFails
  split
  · exact h
  · exact iteInduction (fun _ => h) fun _ => iteInduction (fun _ => State.homeAnswer_fine (State.peerEvent_fine h)) fun _ => iteInduction
        (fun _ => State.peerEvent_fine h) fun _ => iteInduction (fun _ => State.peerPoison_fine (State.peerEvent_fine h)) fun _ =>
        iteInduction (fun _ => State.peerAcked_fine (State.peerEvent_fine h)) fun _ => State.peerEvent_fine h

theorem execPeerTimeout_fine {k : ℕ} {s : State} (h : State.Fine P Q s) : Next (State.Fine P Q) (execPeerTimeout k s) := by
  unfold execPeerTimeout
  exact Next.next (iteInduction (fun _ => State.peerFails_fine h) fun _ => h)

theorem execPeerRefusal_fine {k : ℕ} {s : State} (h : State.Fine P Q s) : Next (State.Fine P Q) (execPeerRefusal k s) := by
  unfold execPeerRefusal
  exact Next.next (State.peerFails_fine h)

/-! ### Collectives: what a rank contributes (R457, R458) -/

theorem State.postAsync_fine {s : State} {uid pos : ℕ} {c : Cause} (h : State.Fine P Q s) : State.Fine P Q (s.postAsync uid pos c) := by
  unfold State.postAsync
  split
  · exact State.modThread_fine h fun _ h5 => h5
  · exact State.modTask_fine h fun _ h9 => h9

theorem State.collRead_fine {s : State} {c : Coll} {va n : ℕ} (h : State.Fine P Q s) :
    Ends (State.Fine P Q) (Fst (State.Fine P Q)) (s.collRead c va n) := by
  unfold State.collRead
  refine foldlM_ends (R := Fst (State.Fine P Q)) h fun ⟨_, _, _⟩ ⟨_, _⟩ h8 => ?_
  split
  · exact Ends.ok h8
  · split
    next e16 =>
      have h17 := ends_error_of e16 (State.tryHome_fine h8 (State.homeBytes_fine h8))
      exact Ends.error h17
    next e22 =>
      have h23 := ends_ok_of e22 (State.tryHome_fine h8 (State.homeBytes_fine h8))
      exact Ends.ok h23

theorem State.collInput_fine {s : State} {c : Coll} {m : Comm} {rank ofs n : ℕ} (h : State.Fine P Q s) :
    Ends (State.Fine P Q) (Fst (State.Fine P Q)) (s.collInput c m rank ofs n) := by
  unfold State.collInput
  exact iteInduction (fun _ => ends_map (State.collRead_fine h) fun ⟨_, _, _⟩ h5 => h5) fun _ => Ends.ok h

theorem State.collInputs_fine {s : State} {c : Coll} {m : Comm} {ofs n : ℕ} (h : State.Fine P Q s) :
    Ends (State.Fine P Q) (Fst (State.Fine P Q)) (s.collInputs c m ofs n) := by
  unfold State.collInputs
  refine foldlM_ends (R := Fst (State.Fine P Q)) h fun ⟨_, _, _⟩ _ h6 => ?_
  refine ends_bind (State.collInput_fine h6) fun ⟨_, _, _⟩ h11 => ?_
  split
  next e16 =>
    have h17 := fst_of e16 h11
    exact Ends.ok h17

theorem State.collOutput_fine {s : State} {c : Coll} {m : Comm} {lo n : ℕ} (h : State.Fine P Q s) :
    Ends (State.Fine P Q) (Fst (State.Fine P Q)) (s.collOutput c m lo n) := by
  unfold State.collOutput
  refine iteInduction (fun _ => ?_) fun _ => ?_
  · refine ends_bind (State.collInputs_fine h) fun ⟨_, _, _⟩ h5 => ?_
    split
    next e10 =>
      have h11 := fst_of e10 h5
      exact Ends.ok h11
  · refine iteInduction (fun _ => ?_) fun _ => ?_
    · refine ends_bind (State.collInput_fine h) fun ⟨_, _, _⟩ h16 => ?_
      split
      next e21 =>
        have h22 := fst_of e21 h16
        exact Ends.ok h22
    · refine iteInduction (fun _ => Ends.ok h) fun _ => ?_
      refine foldlM_ends (R := Fst (State.Fine P Q)) h fun ⟨_, _, _⟩ _ h28 => ?_
      refine iteInduction (fun _ => Ends.ok h28) fun _ => ?_
      refine ends_bind (State.collInput_fine h28) fun ⟨_, _, _⟩ h33 => ?_
      split
      next e38 =>
        have h39 := fst_of e38 h33
        exact Ends.ok h39

/-! ### Chunks (R458, R460, R461) -/

theorem State.collEnds_fine {s : State} {c : Coll} (h : State.Fine P Q s) : State.Fine P Q (s.collEnds c) := by
  unfold State.collEnds
  exact State.collCount_fine h

theorem State.collSend_fine {s : State} {c : Coll} {m : Comm} (h : State.Fine P Q s) :
    Ends (State.Fine P Q) (State.Fine P Q) (s.collSend c m) := by
  unfold State.collSend
  refine foldlM_ends (R := State.Fine P Q) h fun _ _ h3 => ?_
  refine ends_bind (State.collRead_fine h3) fun ⟨_, _, _⟩ h8 => ?_
  split
  next e13 =>
    have h14 := fst_of e13 h8
    exact Ends.ok h14

theorem State.collSnoop_fine {s : State} {c : Coll} {va : ℕ} {l : List Byte} (h : State.Fine P Q s) :
    State.Fine P Q (s.collSnoop c va l) := by
  unfold State.collSnoop
  refine foldl_fine h fun _ ⟨_, _⟩ h5 => ?_
  split
  · exact h5
  · exact State.snoopRange_fine h5

theorem State.collPoison_fine {s : State} {c : Coll} {va : ℕ} {bad : List (ℕ × ℕ × ℕ)} (h : State.Fine P Q s) :
    State.Fine P Q (s.collPoison c va bad) := by
  unfold State.collPoison
  refine foldl_fine h fun _ ⟨_, _, _⟩ h6 => ?_
  refine foldl_fine (State.copyMeets_fine h6) fun _ ⟨_, _⟩ h11 => ?_
  split
  · exact h11
  · exact foldl_fine h11 fun _ _ h19 => State.setPoison_fine h19

theorem State.collOut_fine {s : State} {k : ℕ} {c : Coll} {m : Comm} (h : State.Fine P Q s) : State.Fine P Q (s.collOut k c m) := by
  unfold State.collOut
  split
  · refine iteInduction (fun _ => h) fun _ => ?_
    split
    next e7 =>
      have h8 := ends_error_of e7 (State.collOutput_fine h)
      exact h8
    · exact h
    next e19 =>
      have h20 := ends_ok_of e19 (State.collOutput_fine h)
      exact iteInduction (fun _ => State.collSnoop_fine h20) fun _ => iteInduction
          (fun _ => State.fine_set (State.collPoison_fine (State.collWrite_fine h20))) fun _ => State.collEnds_fine
          (State.fine_set (State.collPoison_fine (State.collWrite_fine h20)))

theorem State.collChunk_fine {s : State} {k : ℕ} (h : State.Fine P Q s) : State.Fine P Q (s.collChunk k) := by
  unfold State.collChunk
  split
  · exact h
  · split
    · exact h
    · refine iteInduction (fun _ => h) fun _ => ?_
      refine iteInduction (fun _ => State.collOut_fine h) fun _ => ?_
      split
      next e13 =>
        have h14 := ends_error_of e13 (State.collSend_fine h)
        exact h14
      next e17 =>
        have h18 := ends_ok_of e17 (State.collSend_fine h)
        exact State.collOut_fine h18

theorem execCollectiveChunkDone_fine {k : ℕ} {s : State} (h : State.Fine P Q s) :
    Next (State.Fine P Q) (execCollectiveChunkDone k s) := by
  unfold execCollectiveChunkDone
  exact Next.next (State.collChunk_fine h)

theorem execCollectiveStall_fine {k rank : ℕ} {s : State} (h : State.Fine P Q s) :
    Next (State.Fine P Q) (execCollectiveStall k rank s) := by
  unfold execCollectiveStall
  refine Next.next ?_
  dsimp only
  split
  · exact h
  · exact iteInduction (fun _ => h) fun _ => State.collEvent_fine h

/-! ### Ethernet (R456, R458) -/

theorem State.collDisagree_fine {s : State} {c : Coll} (h : State.Fine P Q s) : State.Fine P Q (s.collDisagree c) := by
  unfold State.collDisagree
  exact State.postAsync_fine (State.collEnds_fine h)

theorem State.ethPlace_fine {s : State} {msg pkt ofs : ℕ} {d : List Byte} (h : State.Fine P Q s) :
    State.Fine P Q (s.ethPlace msg pkt ofs d) := by
  unfold State.ethPlace
  dsimp only
  split
  · exact h
  · exact iteInduction (fun _ => h) fun _ => iteInduction (fun _ => State.collDisagree_fine h) fun _ => h

theorem execEthPacketArrival_fine {_port msg pkt ofs : ℕ} {data : List Byte} {s : State} (h : State.Fine P Q s) :
    Next (State.Fine P Q) (execEthPacketArrival _port msg pkt ofs data s) := by
  unfold execEthPacketArrival
  exact Next.next (iteInduction (fun _ => State.ethPlace_fine h) fun _ => h)

theorem execEthAckArrival_fine {msg : ℕ} {pkts : List ℕ} {s : State} (h : State.Fine P Q s) :
    Next (State.Fine P Q) (execEthAckArrival msg pkts s) := by
  unfold execEthAckArrival
  exact Next.next h

theorem execEthRetransmitTimeout_fine {msg pkt : ℕ} {s : State} (h : State.Fine P Q s) :
    Next (State.Fine P Q) (execEthRetransmitTimeout msg pkt s) := by
  unfold execEthRetransmitTimeout
  exact Next.next h

/-! ### Agate's own accesses (R465) -/

theorem execMboxSend_fine {len : BitVec 13} {s : State} (h : State.Fine P Q s) : Next (State.Fine P Q) (execMboxSend len s) := by
  unfold execMboxSend
  exact Next.next h

theorem State.engDo_fine {s : State} {op cx cy len : ℕ} (h : State.Fine P Q s) : Next (State.Fine P Q) (s.engDo op cx cy len) := by
  unfold State.engDo
  exact Next.next h

theorem execEngInit_fine {cx : BitVec 4} {s : State} (h : State.Fine P Q s) : Next (State.Fine P Q) (execEngInit cx s) := by
  unfold execEngInit
  exact State.engDo_fine h

theorem execEngAbsorb_fine {cx : BitVec 4} {len : BitVec 13} {s : State} (h : State.Fine P Q s) :
    Next (State.Fine P Q) (execEngAbsorb cx len s) := by
  unfold execEngAbsorb
  exact State.engDo_fine h

theorem execEngDigest_fine {cx : BitVec 4} {s : State} (h : State.Fine P Q s) : Next (State.Fine P Q) (execEngDigest cx s) := by
  unfold execEngDigest
  exact State.engDo_fine h

theorem execEngClone_fine {cx cy : BitVec 4} {s : State} (h : State.Fine P Q s) : Next (State.Fine P Q) (execEngClone cx cy s) := by
  unfold execEngClone
  exact State.engDo_fine h

theorem execEngExtend_fine {cx : BitVec 4} {s : State} (h : State.Fine P Q s) : Next (State.Fine P Q) (execEngExtend cx s) := by
  unfold execEngExtend
  exact State.engDo_fine h

theorem execEngSign_fine {cy : BitVec 4} {s : State} (h : State.Fine P Q s) : Next (State.Fine P Q) (execEngSign cy s) := by
  unfold execEngSign
  exact State.engDo_fine h

theorem execEngRand_fine {len : BitVec 13} {s : State} (h : State.Fine P Q s) : Next (State.Fine P Q) (execEngRand len s) := by
  unfold execEngRand
  exact State.engDo_fine h

theorem execEngMblock_fine {cx : BitVec 4} {s : State} (h : State.Fine P Q s) : Next (State.Fine P Q) (execEngMblock cx s) := by
  unfold execEngMblock
  exact State.engDo_fine h

theorem execEngMove_fine {len : BitVec 13} {s : State} (h : State.Fine P Q s) : Next (State.Fine P Q) (execEngMove len s) := by
  unfold execEngMove
  exact State.engDo_fine h

/-! ### The responder (R462, R464, R465) -/

theorem State.spdm_fine {s : State} {path : ℕ} {req : List Byte} {own : Bool} (h : State.Fine P Q s) :
    Next (State.Fine P Q) (s.spdm path req own) := by
  unfold State.spdm
  exact iteInduction (fun _ => Next.next h) fun _ => Next.next
      (State.bmcReply_fine (State.fine_set (iteInduction (fun _ => State.winPut_fine h) fun _ => h)))

theorem execGetVersion_fine {path : ℕ} {req : List Byte} {s : State} (h : State.Fine P Q s) :
    Next (State.Fine P Q) (execGetVersion path req s) := by
  unfold execGetVersion
  exact State.spdm_fine h

theorem execGetCapabilities_fine {path : ℕ} {req : List Byte} {s : State} (h : State.Fine P Q s) :
    Next (State.Fine P Q) (execGetCapabilities path req s) := by
  unfold execGetCapabilities
  exact State.spdm_fine h

theorem execNegotiateAlgorithms_fine {path : ℕ} {req : List Byte} {s : State} (h : State.Fine P Q s) :
    Next (State.Fine P Q) (execNegotiateAlgorithms path req s) := by
  unfold execNegotiateAlgorithms
  exact State.spdm_fine h

theorem execGetDigests_fine {path : ℕ} {req : List Byte} {s : State} (h : State.Fine P Q s) :
    Next (State.Fine P Q) (execGetDigests path req s) := by
  unfold execGetDigests
  exact State.spdm_fine h

theorem execGetCertificate_fine {path : ℕ} {req : List Byte} {s : State} (h : State.Fine P Q s) :
    Next (State.Fine P Q) (execGetCertificate path req s) := by
  unfold execGetCertificate
  exact State.spdm_fine h

theorem execChallenge_fine {path : ℕ} {req : List Byte} {s : State} (h : State.Fine P Q s) :
    Next (State.Fine P Q) (execChallenge path req s) := by
  unfold execChallenge
  exact State.spdm_fine h

theorem execGetMeasurements_fine {path : ℕ} {req : List Byte} {s : State} (h : State.Fine P Q s) :
    Next (State.Fine P Q) (execGetMeasurements path req s) := by
  unfold execGetMeasurements
  exact State.spdm_fine h

theorem execSpdmUnsupportedRequest_fine {path : ℕ} {req : List Byte} {s : State} (h : State.Fine P Q s) :
    Next (State.Fine P Q) (execSpdmUnsupportedRequest path req s) := by
  unfold execSpdmUnsupportedRequest
  exact State.spdm_fine h

end Sys2Proof.Machine
end

section
/-! Control words keep the invariant, and so does every step (O5, O15). -/

namespace Sys2Proof.Machine

open Sys2Proof

variable {P Q : Prop}

/-! ### Integer arithmetic and logic (R286 to R288) -/

theorem aluRR_fine {f : W → W → W} {d s : BitVec 5} {l : BitVec 1} {t : BitVec 5} {m : BitVec 1} {st : State} (h : State.Fine P Q st) :
    Gives (CtlRes.Fine P Q) (aluRR f d s l t m st) := by
  unfold aluRR
  exact gives_then fun _ => gives_then fun _ => Gives.ok (CtlRes.fine_mk
      (State.setTh_fine h (wrG_fine (freeG_fine (freeG_fine (State.th_fine h))))))

theorem aluR_fine {f : W → W} {d s : BitVec 5} {l : BitVec 1} {st : State} (h : State.Fine P Q st) :
    Gives (CtlRes.Fine P Q) (aluR f d s l st) := by
  unfold aluR
  exact gives_then fun _ => Gives.ok (CtlRes.fine_mk (State.setTh_fine h (wrG_fine (freeG_fine (State.th_fine h)))))

theorem aluRI_fine {f : W → W → W} {d s : BitVec 5} {l : BitVec 1} {i : BitVec 12} {st : State} (h : State.Fine P Q st) :
    Gives (CtlRes.Fine P Q) (aluRI f d s l i st) := by
  unfold aluRI
  exact aluR_fine h

theorem aluShiftI_fine {f : W → ℕ → W} {d s : BitVec 5} {l : BitVec 1} {i : BitVec 12} {st : State} (h : State.Fine P Q st) :
    Gives (CtlRes.Fine P Q) (aluShiftI f d s l i st) := by
  unfold aluShiftI
  exact gives_then fun _ => aluR_fine h

theorem execAdd_fine {d s : BitVec 5} {l : BitVec 1} {t : BitVec 5} {m : BitVec 1} {st : State} (h : State.Fine P Q st) :
    Next (State.Fine P Q) (execAdd d s l t m st) := by
  unfold execAdd
  exact ctl_fine (fun _ h2 => aluRR_fine h2) h

theorem execAddi_fine {d s : BitVec 5} {l : BitVec 1} {i : BitVec 12} {st : State} (h : State.Fine P Q st) :
    Next (State.Fine P Q) (execAddi d s l i st) := by
  unfold execAddi
  exact ctl_fine (fun _ h2 => aluRI_fine h2) h

theorem execSub_fine {d s : BitVec 5} {l : BitVec 1} {t : BitVec 5} {m : BitVec 1} {st : State} (h : State.Fine P Q st) :
    Next (State.Fine P Q) (execSub d s l t m st) := by
  unfold execSub
  exact ctl_fine (fun _ h2 => aluRR_fine h2) h

theorem execMul_fine {d s : BitVec 5} {l : BitVec 1} {t : BitVec 5} {m : BitVec 1} {st : State} (h : State.Fine P Q st) :
    Next (State.Fine P Q) (execMul d s l t m st) := by
  unfold execMul
  exact ctl_fine (fun _ h2 => aluRR_fine h2) h

theorem execMulhs_fine {d s : BitVec 5} {l : BitVec 1} {t : BitVec 5} {m : BitVec 1} {st : State} (h : State.Fine P Q st) :
    Next (State.Fine P Q) (execMulhs d s l t m st) := by
  unfold execMulhs
  exact ctl_fine (fun _ h2 => aluRR_fine h2) h

theorem execMulhu_fine {d s : BitVec 5} {l : BitVec 1} {t : BitVec 5} {m : BitVec 1} {st : State} (h : State.Fine P Q st) :
    Next (State.Fine P Q) (execMulhu d s l t m st) := by
  unfold execMulhu
  exact ctl_fine (fun _ h2 => aluRR_fine h2) h

theorem execDivs_fine {d s : BitVec 5} {l : BitVec 1} {t : BitVec 5} {m : BitVec 1} {st : State} (h : State.Fine P Q st) :
    Next (State.Fine P Q) (execDivs d s l t m st) := by
  unfold execDivs
  exact ctl_fine (fun _ h2 => aluRR_fine h2) h

theorem execDivu_fine {d s : BitVec 5} {l : BitVec 1} {t : BitVec 5} {m : BitVec 1} {st : State} (h : State.Fine P Q st) :
    Next (State.Fine P Q) (execDivu d s l t m st) := by
  unfold execDivu
  exact ctl_fine (fun _ h2 => aluRR_fine h2) h

theorem execRems_fine {d s : BitVec 5} {l : BitVec 1} {t : BitVec 5} {m : BitVec 1} {st : State} (h : State.Fine P Q st) :
    Next (State.Fine P Q) (execRems d s l t m st) := by
  unfold execRems
  exact ctl_fine (fun _ h2 => aluRR_fine h2) h

theorem execRemu_fine {d s : BitVec 5} {l : BitVec 1} {t : BitVec 5} {m : BitVec 1} {st : State} (h : State.Fine P Q st) :
    Next (State.Fine P Q) (execRemu d s l t m st) := by
  unfold execRemu
  exact ctl_fine (fun _ h2 => aluRR_fine h2) h

theorem execAnd_fine {d s : BitVec 5} {l : BitVec 1} {t : BitVec 5} {m : BitVec 1} {st : State} (h : State.Fine P Q st) :
    Next (State.Fine P Q) (execAnd d s l t m st) := by
  unfold execAnd
  exact ctl_fine (fun _ h2 => aluRR_fine h2) h

theorem execAndi_fine {d s : BitVec 5} {l : BitVec 1} {i : BitVec 12} {st : State} (h : State.Fine P Q st) :
    Next (State.Fine P Q) (execAndi d s l i st) := by
  unfold execAndi
  exact ctl_fine (fun _ h2 => aluRI_fine h2) h

theorem execOr_fine {d s : BitVec 5} {l : BitVec 1} {t : BitVec 5} {m : BitVec 1} {st : State} (h : State.Fine P Q st) :
    Next (State.Fine P Q) (execOr d s l t m st) := by
  unfold execOr
  exact ctl_fine (fun _ h2 => aluRR_fine h2) h

theorem execOri_fine {d s : BitVec 5} {l : BitVec 1} {i : BitVec 12} {st : State} (h : State.Fine P Q st) :
    Next (State.Fine P Q) (execOri d s l i st) := by
  unfold execOri
  exact ctl_fine (fun _ h2 => aluRI_fine h2) h

theorem execXor_fine {d s : BitVec 5} {l : BitVec 1} {t : BitVec 5} {m : BitVec 1} {st : State} (h : State.Fine P Q st) :
    Next (State.Fine P Q) (execXor d s l t m st) := by
  unfold execXor
  exact ctl_fine (fun _ h2 => aluRR_fine h2) h

theorem execXori_fine {d s : BitVec 5} {l : BitVec 1} {i : BitVec 12} {st : State} (h : State.Fine P Q st) :
    Next (State.Fine P Q) (execXori d s l i st) := by
  unfold execXori
  exact ctl_fine (fun _ h2 => aluRI_fine h2) h

theorem execShl_fine {d s : BitVec 5} {l : BitVec 1} {t : BitVec 5} {m : BitVec 1} {st : State} (h : State.Fine P Q st) :
    Next (State.Fine P Q) (execShl d s l t m st) := by
  unfold execShl
  exact ctl_fine (fun _ h2 => aluRR_fine h2) h

theorem execShli_fine {d s : BitVec 5} {l : BitVec 1} {i : BitVec 12} {st : State} (h : State.Fine P Q st) :
    Next (State.Fine P Q) (execShli d s l i st) := by
  unfold execShli
  exact ctl_fine (fun _ h2 => aluShiftI_fine h2) h

theorem execShr_fine {d s : BitVec 5} {l : BitVec 1} {t : BitVec 5} {m : BitVec 1} {st : State} (h : State.Fine P Q st) :
    Next (State.Fine P Q) (execShr d s l t m st) := by
  unfold execShr
  exact ctl_fine (fun _ h2 => aluRR_fine h2) h

theorem execShri_fine {d s : BitVec 5} {l : BitVec 1} {i : BitVec 12} {st : State} (h : State.Fine P Q st) :
    Next (State.Fine P Q) (execShri d s l i st) := by
  unfold execShri
  exact ctl_fine (fun _ h2 => aluShiftI_fine h2) h

theorem execSar_fine {d s : BitVec 5} {l : BitVec 1} {t : BitVec 5} {m : BitVec 1} {st : State} (h : State.Fine P Q st) :
    Next (State.Fine P Q) (execSar d s l t m st) := by
  unfold execSar
  exact ctl_fine (fun _ h2 => aluRR_fine h2) h

theorem execSari_fine {d s : BitVec 5} {l : BitVec 1} {i : BitVec 12} {st : State} (h : State.Fine P Q st) :
    Next (State.Fine P Q) (execSari d s l i st) := by
  unfold execSari
  exact ctl_fine (fun _ h2 => aluShiftI_fine h2) h

theorem execMin_fine {d s : BitVec 5} {l : BitVec 1} {t : BitVec 5} {m : BitVec 1} {st : State} (h : State.Fine P Q st) :
    Next (State.Fine P Q) (execMin d s l t m st) := by
  unfold execMin
  exact ctl_fine (fun _ h2 => aluRR_fine h2) h

theorem execMax_fine {d s : BitVec 5} {l : BitVec 1} {t : BitVec 5} {m : BitVec 1} {st : State} (h : State.Fine P Q st) :
    Next (State.Fine P Q) (execMax d s l t m st) := by
  unfold execMax
  exact ctl_fine (fun _ h2 => aluRR_fine h2) h

theorem execMinu_fine {d s : BitVec 5} {l : BitVec 1} {t : BitVec 5} {m : BitVec 1} {st : State} (h : State.Fine P Q st) :
    Next (State.Fine P Q) (execMinu d s l t m st) := by
  unfold execMinu
  exact ctl_fine (fun _ h2 => aluRR_fine h2) h

theorem execMaxu_fine {d s : BitVec 5} {l : BitVec 1} {t : BitVec 5} {m : BitVec 1} {st : State} (h : State.Fine P Q st) :
    Next (State.Fine P Q) (execMaxu d s l t m st) := by
  unfold execMaxu
  exact ctl_fine (fun _ h2 => aluRR_fine h2) h

theorem execClz_fine {d s : BitVec 5} {l : BitVec 1} {st : State} (h : State.Fine P Q st) : Next (State.Fine P Q) (execClz d s l st) := by
  unfold execClz
  exact ctl_fine (fun _ h2 => aluR_fine h2) h

theorem execCtz_fine {d s : BitVec 5} {l : BitVec 1} {st : State} (h : State.Fine P Q st) : Next (State.Fine P Q) (execCtz d s l st) := by
  unfold execCtz
  exact ctl_fine (fun _ h2 => aluR_fine h2) h

theorem execPopc_fine {d s : BitVec 5} {l : BitVec 1} {st : State} (h : State.Fine P Q st) :
    Next (State.Fine P Q) (execPopc d s l st) := by
  unfold execPopc
  exact ctl_fine (fun _ h2 => aluR_fine h2) h

/-! ### Constants, select, compare and predicates (R289 to R292) -/

theorem execLdi_fine {d : BitVec 5} {i : BitVec 18} {st : State} (h : State.Fine P Q st) : Next (State.Fine P Q) (execLdi d i st) := by
  unfold execLdi
  exact ctl_fine (fun _ h2 => Gives.ok (CtlRes.fine_mk (State.setTh_fine h2 (wrG_fine (State.th_fine h2))))) h

theorem ldhiBody_fine {d : BitVec 5} {i : BitVec 18} {st : State} (h : State.Fine P Q st) :
    Gives (CtlRes.Fine P Q) (ldhiBody d i st) := by
  unfold ldhiBody
  exact gives_then fun _ => gives_then fun _ => Gives.ok (CtlRes.fine_mk (State.setTh_fine h (wrG_fine (State.th_fine h))))

theorem execLdhi_fine {d : BitVec 5} {i : BitVec 18} {st : State} (h : State.Fine P Q st) : Next (State.Fine P Q) (execLdhi d i st) := by
  unfold execLdhi
  exact ctl_fine (fun _ h2 => ldhiBody_fine h2) h

theorem execSel_fine {d s : BitVec 5} {l : BitVec 1} {t : BitVec 5} {m : BitVec 1} {p : BitVec 3} {st : State} (h : State.Fine P Q st) :
    Next (State.Fine P Q) (execSel d s l t m p st) := by
  unfold execSel
  exact ctl_fine (fun _ h2 => aluRR_fine h2) h

theorem cmpBody_fine {p : BitVec 3} {s : BitVec 5} {l : BitVec 1} {t : BitVec 5} {m : BitVec 1} {c : BitVec 4} {st : State}
    (h : State.Fine P Q st) :
    Gives (CtlRes.Fine P Q) (cmpBody p s l t m c st) := by
  unfold cmpBody
  refine gives_then fun _ => gives_then fun _ => ?_
  split
  · exact Gives.error
  · exact Gives.ok (CtlRes.fine_mk (State.setTh_fine h (wrP_fine (freeG_fine (freeG_fine (State.th_fine h))))))

theorem execCmp_fine {p : BitVec 3} {s : BitVec 5} {l : BitVec 1} {t : BitVec 5} {m : BitVec 1} {c : BitVec 4} {st : State}
    (h : State.Fine P Q st) :
    Next (State.Fine P Q) (execCmp p s l t m c st) := by
  unfold execCmp
  exact ctl_fine (fun _ h2 => cmpBody_fine h2) h

theorem cmpiBody_fine {p : BitVec 3} {c : BitVec 4} {s : BitVec 5} {l : BitVec 1} {i : BitVec 10} {st : State} (h : State.Fine P Q st) :
    Gives (CtlRes.Fine P Q) (cmpiBody p c s l i st) := by
  unfold cmpiBody
  refine gives_then fun _ => ?_
  split
  · exact Gives.error
  · exact Gives.ok (CtlRes.fine_mk (State.setTh_fine h (wrP_fine (freeG_fine (State.th_fine h)))))

theorem execCmpi_fine {p : BitVec 3} {c : BitVec 4} {s : BitVec 5} {l : BitVec 1} {i : BitVec 10} {st : State} (h : State.Fine P Q st) :
    Next (State.Fine P Q) (execCmpi p c s l i st) := by
  unfold execCmpi
  exact ctl_fine (fun _ h2 => cmpiBody_fine h2) h

theorem psetBody_fine {d s t o : BitVec 3} {st : State} (h : State.Fine P Q st) : Gives (CtlRes.Fine P Q) (psetBody d s t o st) := by
  unfold psetBody
  exact gives_then fun _ => Gives.ok (CtlRes.fine_mk (State.setTh_fine h (wrP_fine (State.th_fine h))))

theorem execPset_fine {d s t o : BitVec 3} {st : State} (h : State.Fine P Q st) : Next (State.Fine P Q) (execPset d s t o st) := by
  unfold execPset
  exact ctl_fine (fun _ h2 => psetBody_fine h2) h

/-! ### Control transfer (R293 to R295) -/

theorem execBr_fine {p : BitVec 3} {n : BitVec 1} {o : BitVec 19} {st : State} (h : State.Fine P Q st) :
    Next (State.Fine P Q) (execBr p n o st) := by
  unfold execBr
  exact ctl_fine (fun _ h2 => Gives.ok (CtlRes.fine_mk h2)) h

theorem jumpReg_fine {s : BitVec 5} {l : BitVec 1} {st : State} (h : State.Fine P Q st) : Gives (CtlRes.Fine P Q) (jumpReg s l st) := by
  unfold jumpReg
  exact gives_then fun _ => gives_then fun _ => Gives.ok (CtlRes.fine_mk (State.setTh_fine h (freeG_fine (State.th_fine h))))

theorem execJmp_fine {s : BitVec 5} {l : BitVec 1} {st : State} (h : State.Fine P Q st) : Next (State.Fine P Q) (execJmp s l st) := by
  unfold execJmp
  exact ctl_fine (fun _ h2 => jumpReg_fine h2) h

theorem execRet_fine {s : BitVec 5} {l : BitVec 1} {st : State} (h : State.Fine P Q st) : Next (State.Fine P Q) (execRet s l st) := by
  unfold execRet
  exact ctl_fine (fun _ h2 => jumpReg_fine h2) h

theorem execCall_fine {d : BitVec 5} {o : BitVec 18} {st : State} (h : State.Fine P Q st) : Next (State.Fine P Q) (execCall d o st) := by
  unfold execCall
  exact ctl_fine (fun _ h2 => Gives.ok (CtlRes.fine_mk (State.setTh_fine h2 (wrG_fine (State.th_fine h2))))) h

theorem dbnzBody_fine {d : BitVec 5} {o : BitVec 18} {st : State} (h : State.Fine P Q st) :
    Gives (CtlRes.Fine P Q) (dbnzBody d o st) := by
  unfold dbnzBody
  exact gives_then fun _ => gives_then fun _ => Gives.ok (CtlRes.fine_mk (State.setTh_fine h (wrG_fine (State.th_fine h))))

theorem execDbnz_fine {d : BitVec 5} {o : BitVec 18} {st : State} (h : State.Fine P Q st) : Next (State.Fine P Q) (execDbnz d o st) := by
  unfold execDbnz
  exact ctl_fine (fun _ h2 => dbnzBody_fine h2) h

/-! ### Scalar memory access (R297, R298) -/

theorem ldsBody_fine {d : BitVec 5} {h : BitVec 4} {z : BitVec 2} {x k : BitVec 1} {o : BitVec 10} {st : State} (hs : State.Fine P Q st) :
    Gives (CtlRes.Fine P Q) (ldsBody d h z x k o st) := by
  unfold ldsBody
  refine gives_bind (ctlHandle_fine (State.th_fine hs)) fun _ h2 => ?_
  refine gives_bind (cmOfs_fine h2) fun ⟨_, _⟩ h6 => ?_
  split
  next e10 =>
    have h11 := snd_of e10 h6
    exact gives_then fun _ => iteInduction (fun _ => Gives.ok (CtlRes.fine_mk (State.setTh_fine hs (wrG_fine h11)))) fun _ => gives_then
        fun _ => Gives.ok (CtlRes.fine_mk (State.setTh_fine hs (Thread.fine_set (Thread.dropPending_fine h11))))

theorem execLds_fine {d : BitVec 5} {h : BitVec 4} {z : BitVec 2} {x k : BitVec 1} {o : BitVec 10} {st : State} (hs : State.Fine P Q st) :
    Next (State.Fine P Q) (execLds d h z x k o st) := by
  unfold execLds
  exact ctl_fine (fun _ h2 => ldsBody_fine h2) hs

theorem stsBody_fine {d : BitVec 5} {h : BitVec 4} {z : BitVec 2} {k : BitVec 1} {o : BitVec 10} {st : State} (hs : State.Fine P Q st) :
    Gives (CtlRes.Fine P Q) (stsBody d h z k o st) := by
  unfold stsBody
  refine gives_bind (ctlHandle_fine (State.th_fine hs)) fun _ h2 => ?_
  refine gives_bind (cmOfs_fine h2) fun ⟨_, _⟩ h6 => ?_
  split
  next e10 =>
    have h11 := snd_of e10 h6
    exact gives_then fun _ => gives_then fun _ => iteInduction (fun _ => Gives.ok (CtlRes.fine_mk (State.setTh_fine hs h11))) fun _ =>
        gives_then fun _ => gives_then fun _ => Gives.ok (CtlRes.fine_mk (State.setTh_fine hs h11))

theorem execSts_fine {d : BitVec 5} {h : BitVec 4} {z : BitVec 2} {k : BitVec 1} {o : BitVec 10} {st : State} (hs : State.Fine P Q st) :
    Next (State.Fine P Q) (execSts d h z k o st) := by
  unfold execSts
  exact ctl_fine (fun _ h2 => stsBody_fine h2) hs

/-! ### Handles (R299 to R301) -/

theorem xlateBody_fine {h : BitVec 4} {s : BitVec 5} {l : BitVec 1} {t : BitVec 5} {r : BitVec 3} {st : State} (hs : State.Fine P Q st) :
    Gives (CtlRes.Fine P Q) (xlateBody h s l t r st) := by
  unfold xlateBody
  exact gives_then fun _ => gives_then fun _ => Gives.ok (CtlRes.fine_mk
      (State.startSettle_fine (State.setTh_fine hs (Thread.dropPending_fine (freeG_fine (State.th_fine hs))))))

theorem execXlate_fine {h : BitVec 4} {s : BitVec 5} {l : BitVec 1} {t : BitVec 5} {r : BitVec 3} {st : State} (hs : State.Fine P Q st) :
    Next (State.Fine P Q) (execXlate h s l t r st) := by
  unfold execXlate
  exact ctl_fine (fun _ h2 => xlateBody_fine h2) hs

theorem hwaitBody_fine {h : BitVec 4} {st : State} (hs : State.Fine P Q st) : Gives (CtlRes.Fine P Q) (hwaitBody h st) := by
  unfold hwaitBody
  exact gives_bind (ctlHandle_fine (State.th_fine hs)) fun _ _ => iteInduction (fun _ => Gives.error) fun _ => Gives.ok
      (CtlRes.fine_mk hs)

theorem execHwait_fine {h : BitVec 4} {st : State} (hs : State.Fine P Q st) : Next (State.Fine P Q) (execHwait h st) := by
  unfold execHwait
  exact ctl_fine (fun _ h2 => hwaitBody_fine h2) hs

theorem hrelBody_fine {h : BitVec 4} {st : State} (hs : State.Fine P Q st) : Gives (CtlRes.Fine P Q) (hrelBody h st) := by
  unfold hrelBody
  exact gives_bind (ctlHandle_fine (State.th_fine hs)) fun _ h2 => Gives.ok
      (CtlRes.fine_mk (State.setTh_fine hs (Thread.fine_set (Thread.writeHandle_fine h2))))

theorem execHrel_fine {h : BitVec 4} {st : State} (hs : State.Fine P Q st) : Next (State.Fine P Q) (execHrel h st) := by
  unfold execHrel
  exact ctl_fine (fun _ h2 => hrelBody_fine h2) hs

/-! ### Building engine words, and tokens (R272, R302 to R305) -/

theorem emitBody_fine {pfx : List W32} {w : W32} {freed : Thread → Thread} {st : State}
    (h : ∀ (a : Thread), Thread.Fine Q a → Thread.Fine Q (freed a)) (hst : State.Fine P Q st) :
    Gives (CtlRes.Fine P Q) (emitBody pfx w freed st) := by
  unfold emitBody
  split
  · exact Gives.error
  · dsimp only
    split
    · exact Gives.error
    next e15 =>
      have h16 := some_of e15 (Thread.steer_fine (h _ (State.th_fine hst)))
      exact iteInduction (fun _ => Gives.ok (CtlRes.fine_mk (State.resteerMismatch_fine (State.setTh_fine hst h16)))) fun _ => Gives.ok
          (CtlRes.fine_mk (State.setTh_fine hst h16))

theorem execEmit_fine {s : BitVec 5} {l : BitVec 1} {st : State} (h : State.Fine P Q st) : Next (State.Fine P Q) (execEmit s l st) := by
  unfold execEmit
  exact ctl_fine (fun _ h2 => gives_then fun _ => emitBody_fine (fun _ h5 => freeG_fine h5) h2) h

theorem execEmitWithPrefix_fine {s : BitVec 5} {l : BitVec 1} {t : BitVec 5} {m : BitVec 1} {st : State} (h : State.Fine P Q st) :
    Next (State.Fine P Q) (execEmitWithPrefix s l t m st) := by
  unfold execEmitWithPrefix
  exact ctl_fine (fun _ h2 => gives_then fun _ => gives_then fun _ => emitBody_fine (fun _ h6 => freeG_fine (freeG_fine h6)) h2) h

theorem waittBody_fine {c : BitVec 6} {p : BitVec 4} {st : State} (h : State.Fine P Q st) :
    Gives (CtlRes.Fine P Q) (waittBody c p st) := by
  unfold waittBody
  exact gives_then fun _ => iteInduction (fun _ => Gives.error) fun _ => Gives.ok
      (CtlRes.fine_mk (State.setTh_fine h (popTok_fine (State.th_fine h))))

theorem execWaitt_fine {c : BitVec 6} {p : BitVec 4} {st : State} (h : State.Fine P Q st) : Next (State.Fine P Q) (execWaitt c p st) := by
  unfold execWaitt
  exact ctl_fine (fun _ h2 => waittBody_fine h2) h

theorem sigtBody_fine {c : BitVec 6} {p : BitVec 4} {st : State} (h : State.Fine P Q st) : Gives (CtlRes.Fine P Q) (sigtBody c p st) := by
  unfold sigtBody
  exact gives_then fun _ => Gives.ok (CtlRes.fine_mk (State.setTh_fine h (pushTok_fine (State.th_fine h))))

theorem execSigt_fine {c : BitVec 6} {p : BitVec 4} {st : State} (h : State.Fine P Q st) : Next (State.Fine P Q) (execSigt c p st) := by
  unfold execSigt
  exact ctl_fine (fun _ h2 => sigtBody_fine h2) h

theorem tkcntBody_fine {d : BitVec 5} {p : BitVec 4} {st : State} (h : State.Fine P Q st) :
    Gives (CtlRes.Fine P Q) (tkcntBody d p st) := by
  unfold tkcntBody
  exact gives_then fun _ => Gives.ok (CtlRes.fine_mk (State.setTh_fine h (wrG_fine (State.th_fine h))))

theorem execTkcnt_fine {d : BitVec 5} {p : BitVec 4} {st : State} (h : State.Fine P Q st) : Next (State.Fine P Q) (execTkcnt d p st) := by
  unfold execTkcnt
  exact ctl_fine (fun _ h2 => tkcntBody_fine h2) h

theorem sfnBody_fine {f : SFn} {d s : BitVec 4} {l k p q : BitVec 1} {u : QUnit} {st : State} (h : State.Fine P Q st) :
    Gives (EngRes.Fine P Q) (sfnBody f d s l k p q u st) := by
  unfold sfnBody
  exact vec1_fine h

theorem execSexp2_fine {w e : BitVec 2} {d s : BitVec 4} {l k p q : BitVec 1} {st : State} (h : State.Fine P Q st) :
    Next (State.Fine P Q) (execSexp2 w e d s l k p q st) := by
  unfold execSexp2
  exact engWord_fine (fun _ _ h3 => sfnBody_fine h3) h

theorem execSlog2_fine {w e : BitVec 2} {d s : BitVec 4} {l k p q : BitVec 1} {st : State} (h : State.Fine P Q st) :
    Next (State.Fine P Q) (execSlog2 w e d s l k p q st) := by
  unfold execSlog2
  exact engWord_fine (fun _ _ h3 => sfnBody_fine h3) h

theorem execSexp_fine {w e : BitVec 2} {d s : BitVec 4} {l k p q : BitVec 1} {st : State} (h : State.Fine P Q st) :
    Next (State.Fine P Q) (execSexp w e d s l k p q st) := by
  unfold execSexp
  exact engWord_fine (fun _ _ h3 => sfnBody_fine h3) h

theorem execSln_fine {w e : BitVec 2} {d s : BitVec 4} {l k p q : BitVec 1} {st : State} (h : State.Fine P Q st) :
    Next (State.Fine P Q) (execSln w e d s l k p q st) := by
  unfold execSln
  exact engWord_fine (fun _ _ h3 => sfnBody_fine h3) h

theorem execSrcp_fine {w e : BitVec 2} {d s : BitVec 4} {l k p q : BitVec 1} {st : State} (h : State.Fine P Q st) :
    Next (State.Fine P Q) (execSrcp w e d s l k p q st) := by
  unfold execSrcp
  exact engWord_fine (fun _ _ h3 => sfnBody_fine h3) h

theorem execSsqrt_fine {w e : BitVec 2} {d s : BitVec 4} {l k p q : BitVec 1} {st : State} (h : State.Fine P Q st) :
    Next (State.Fine P Q) (execSsqrt w e d s l k p q st) := by
  unfold execSsqrt
  exact engWord_fine (fun _ _ h3 => sfnBody_fine h3) h

theorem execSrsq_fine {w e : BitVec 2} {d s : BitVec 4} {l k p q : BitVec 1} {st : State} (h : State.Fine P Q st) :
    Next (State.Fine P Q) (execSrsq w e d s l k p q st) := by
  unfold execSrsq
  exact engWord_fine (fun _ _ h3 => sfnBody_fine h3) h

theorem execStanh_fine {w e : BitVec 2} {d s : BitVec 4} {l k p q : BitVec 1} {st : State} (h : State.Fine P Q st) :
    Next (State.Fine P Q) (execStanh w e d s l k p q st) := by
  unfold execStanh
  exact engWord_fine (fun _ _ h3 => sfnBody_fine h3) h

theorem execSsigm_fine {w e : BitVec 2} {d s : BitVec 4} {l k p q : BitVec 1} {st : State} (h : State.Fine P Q st) :
    Next (State.Fine P Q) (execSsigm w e d s l k p q st) := by
  unfold execSsigm
  exact engWord_fine (fun _ _ h3 => sfnBody_fine h3) h

theorem execSsin_fine {w e : BitVec 2} {d s : BitVec 4} {l k p q : BitVec 1} {st : State} (h : State.Fine P Q st) :
    Next (State.Fine P Q) (execSsin w e d s l k p q st) := by
  unfold execSsin
  exact engWord_fine (fun _ _ h3 => sfnBody_fine h3) h

theorem execScos_fine {w e : BitVec 2} {d s : BitVec 4} {l k p q : BitVec 1} {st : State} (h : State.Fine P Q st) :
    Next (State.Fine P Q) (execScos w e d s l k p q st) := by
  unfold execScos
  exact engWord_fine (fun _ _ h3 => sfnBody_fine h3) h

theorem execSerf_fine {w e : BitVec 2} {d s : BitVec 4} {l k p q : BitVec 1} {st : State} (h : State.Fine P Q st) :
    Next (State.Fine P Q) (execSerf w e d s l k p q st) := by
  unfold execSerf
  exact engWord_fine (fun _ _ h3 => sfnBody_fine h3) h

theorem execSdiv_fine {w e : BitVec 2} {d s : BitVec 4} {l : BitVec 1} {t : BitVec 4} {u k p q : BitVec 1} {st : State}
    (h : State.Fine P Q st) :
    Next (State.Fine P Q) (execSdiv w e d s l t u k p q st) := by
  unfold execSdiv
  exact engWord_fine (fun _ _ h3 => vec2_fine h3) h

theorem execSfnop_fine {w e : BitVec 2} {st : State} (h : State.Fine P Q st) : Next (State.Fine P Q) (execSfnop w e st) := by
  unfold execSfnop
  exact engWord_fine (fun _ _ h3 => Gives.ok (EngRes.fine_mk h3)) h

theorem exec_fine {i : Instr} {s : State} (h : State.Fine P Q s) : Next (State.Fine P Q) (exec i s) := by
  cases i with
  | add => exact execAdd_fine h
  | addi => exact execAddi_fine h
  | sub => exact execSub_fine h
  | mul => exact execMul_fine h
  | mulhs => exact execMulhs_fine h
  | mulhu => exact execMulhu_fine h
  | divs => exact execDivs_fine h
  | divu => exact execDivu_fine h
  | rems => exact execRems_fine h
  | remu => exact execRemu_fine h
  | and => exact execAnd_fine h
  | andi => exact execAndi_fine h
  | or => exact execOr_fine h
  | ori => exact execOri_fine h
  | xor => exact execXor_fine h
  | xori => exact execXori_fine h
  | shl => exact execShl_fine h
  | shli => exact execShli_fine h
  | shr => exact execShr_fine h
  | shri => exact execShri_fine h
  | sar => exact execSar_fine h
  | sari => exact execSari_fine h
  | min => exact execMin_fine h
  | max => exact execMax_fine h
  | minu => exact execMinu_fine h
  | maxu => exact execMaxu_fine h
  | clz => exact execClz_fine h
  | ctz => exact execCtz_fine h
  | popc => exact execPopc_fine h
  | ldi => exact execLdi_fine h
  | ldhi => exact execLdhi_fine h
  | sel => exact execSel_fine h
  | cmp => exact execCmp_fine h
  | cmpi => exact execCmpi_fine h
  | pset => exact execPset_fine h
  | br => exact execBr_fine h
  | jmp => exact execJmp_fine h
  | call => exact execCall_fine h
  | ret => exact execRet_fine h
  | dbnz => exact execDbnz_fine h
  | lds => exact execLds_fine h
  | sts => exact execSts_fine h
  | xlate => exact execXlate_fine h
  | hwait => exact execHwait_fine h
  | hrel => exact execHrel_fine h
  | emit => exact execEmit_fine h
  | emitWithPrefix => exact execEmitWithPrefix_fine h
  | waitt => exact execWaitt_fine h
  | sigt => exact execSigt_fine h
  | tkcnt => exact execTkcnt_fine h
  | join => exact execJoin_fine h
  | leave => exact execLeave_fine h
  | gbar => exact execGbar_fine h
  | ginfo => exact execGinfo_fine h
  | rdcsr => exact execRdcsr_fine h
  | wrcsr => exact execWrcsr_fine h
  | csrs => exact execCsrs_fine h
  | csrc => exact execCsrc_fine h
  | trap => exact execTrap_fine h
  | trapret => exact execTrapret_fine h
  | install => exact execInstall_fine h
  | phint => exact execPhint_fine h
  | pfence => exact execPfence_fine h
  | fence => exact execFence_fine h
  | qsync => exact execQsync_fine h
  | tcommit => exact execTcommit_fine h
  | tend => exact execTend_fine h
  | tabort => exact execTabort_fine h
  | pswap => exact execPswap_fine h
  | kick => exact execKick_fine h
  | kickR => exact execKickR_fine h
  | nwait => exact execNwait_fine h
  | barinit => exact execBarinit_fine h
  | barexp => exact execBarexp_fine h
  | barwait => exact execBarwait_fine h
  | snapc => exact execSnapc_fine h
  | opreq => exact execOpreq_fine h
  | curtq => exact execCurtq_fine h
  | rdtime => exact execRdtime_fine h
  | rdengy => exact execRdengy_fine h
  | dhops => exact execDhops_fine h
  | vdmap => exact execVdmap_fine h
  | coll => exact execColl_fine h
  | idle => exact execIdle_fine h
  | ecall => exact execEcall_fine h
  | rep => exact execRep_fine h
  | pred => exact execPred_fine h
  | exti => exact execExti_fine h
  | ld => exact execLd_fine h
  | ldx => exact execLdx_fine h
  | ldsc => exact execLdsc_fine h
  | ldbd => exact execLdbd_fine h
  | lsub => exact execLsub_fine h
  | lunsub => exact execLunsub_fine h
  | qbind => exact execQbind_fine h
  | qfree => exact execQfree_fine h
  | splk => exact execSplk_fine h
  | pfetch => exact execPfetch_fine h
  | xlatl => exact execXlatl_fine h
  | lmark => exact execLmark_fine h
  | lloop => exact execLloop_fine h
  | xmov => exact execXmov_fine h
  | xadd => exact execXadd_fine h
  | xaddi => exact execXaddi_fine h
  | xshl => exact execXshl_fine h
  | lnop => exact execLnop_fine h
  | st => exact execSt_fine h
  | stx => exact execStx_fine h
  | stbd => exact execStbd_fine h
  | sunlk => exact execSunlk_fine h
  | spull => exact execSpull_fine h
  | cwbr => exact execCwbr_fine h
  | cinvr => exact execCinvr_fine h
  | xcopy => exact execXcopy_fine h
  | baradd => exact execBaradd_fine h
  | smark => exact execSmark_fine h
  | sloop => exact execSloop_fine h
  | xmovSt => exact execXmovSt_fine h
  | xaddSt => exact execXaddSt_fine h
  | xaddiSt => exact execXaddiSt_fine h
  | xshlSt => exact execXshlSt_fine h
  | snop => exact execSnop_fine h
  | acas => exact execAcas_fine h
  | amoAdd => exact execAmoAdd_fine h
  | amoFadd => exact execAmoFadd_fine h
  | amoMin => exact execAmoMin_fine h
  | amoMax => exact execAmoMax_fine h
  | amoAnd => exact execAmoAnd_fine h
  | amoOr => exact execAmoOr_fine h
  | amoXor => exact execAmoXor_fine h
  | amoSwap => exact execAmoSwap_fine h
  | lease => exact execLease_fine h
  | unlease => exact execUnlease_fine h
  | mtstart => exact execMtstart_fine h
  | mma => exact execMma_fine h
  | mzero => exact execMzero_fine h
  | mdrain => exact execMdrain_fine h
  | mrdb => exact execMrdb_fine h
  | msett => exact execMsett_fine h
  | mfte => exact execMfte_fine h
  | mftb => exact execMftb_fine h
  | board => exact execBoard_fine h
  | bwait => exact execBwait_fine h
  | bdrop => exact execBdrop_fine h
  | bquery => exact execBquery_fine h
  | mloop => exact execMloop_fine h
  | mnop => exact execMnop_fine h
  | mxmode => exact execMxmode_fine h
  | vsetc => exact execVsetc_fine h
  | vadd => exact execVadd_fine h
  | vsub => exact execVsub_fine h
  | vmul => exact execVmul_fine h
  | vfma => exact execVfma_fine h
  | vmin => exact execVmin_fine h
  | vmax => exact execVmax_fine h
  | vabs => exact execVabs_fine h
  | vneg => exact execVneg_fine h
  | vscl => exact execVscl_fine h
  | vrsum => exact execVrsum_fine h
  | vrmax => exact execVrmax_fine h
  | vrmin => exact execVrmin_fine h
  | vdot => exact execVdot_fine h
  | vcmp => exact execVcmp_fine h
  | vselm => exact execVselm_fine h
  | viadd => exact execViadd_fine h
  | visub => exact execVisub_fine h
  | vimul => exact execVimul_fine h
  | vimin => exact execVimin_fine h
  | vimax => exact execVimax_fine h
  | vand => exact execVand_fine h
  | vor => exact execVor_fine h
  | vxor => exact execVxor_fine h
  | vshl => exact execVshl_fine h
  | vshr => exact execVshr_fine h
  | vsar => exact execVsar_fine h
  | vcvt => exact execVcvt_fine h
  | vqnt => exact execVqnt_fine h
  | vdqnt => exact execVdqnt_fine h
  | vcopy => exact execVcopy_fine h
  | vbcast => exact execVbcast_fine h
  | vtrn => exact execVtrn_fine h
  | vgath => exact execVgath_fine h
  | vscat => exact execVscat_fine h
  | vrand => exact execVrand_fine h
  | vdrop => exact execVdrop_fine h
  | aset => exact execAset_fine h
  | amod => exact execAmod_fine h
  | astep => exact execAstep_fine h
  | amov => exact execAmov_fine h
  | vmovs => exact execVmovs_fine h
  | vloop => exact execVloop_fine h
  | vnop => exact execVnop_fine h
  | sexp2 => exact execSexp2_fine h
  | slog2 => exact execSlog2_fine h
  | sexp => exact execSexp_fine h
  | sln => exact execSln_fine h
  | srcp => exact execSrcp_fine h
  | sdiv => exact execSdiv_fine h
  | ssqrt => exact execSsqrt_fine h
  | srsq => exact execSrsq_fine h
  | stanh => exact execStanh_fine h
  | ssigm => exact execSsigm_fine h
  | ssin => exact execSsin_fine h
  | scos => exact execScos_fine h
  | serf => exact execSerf_fine h
  | sfnop => exact execSfnop_fine h
  | qpopRead => exact execQpopRead_fine h
  | xlateSettle => exact execXlateSettle_fine h
  | walkComplete => exact execWalkComplete_fine h
  | monitorRequeueTimeout => exact execMonitorRequeueTimeout_fine h
  | shootdown => exact execShootdown_fine h
  | shootdownCompletion => exact execShootdownCompletion_fine h
  | engineWordFinish => exact execEngineWordFinish_fine h
  | pendingPersistPoint => exact execPendingPersistPoint_fine h
  | imageComplete => exact execImageComplete_fine h
  | commitImageCopyDone => exact execCommitImageCopyDone_fine h
  | writeThroughArrival => exact execWriteThroughArrival_fine h
  | flushMarkerAck => exact execFlushMarkerAck_fine h
  | barrierAddition => exact execBarrierAddition_fine h
  | queueElementArrival => exact execQueueElementArrival_fine h
  | loaderSlotDelivery => exact execLoaderSlotDelivery_fine h
  | storerSlotWrite => exact execStorerSlotWrite_fine h
  | lapBoundary => exact execLapBoundary_fine h
  | frameHeaderArrival => exact execFrameHeaderArrival_fine h
  | frameLastFlitArrival => exact execFrameLastFlitArrival_fine h
  | leaseTimeout => exact execLeaseTimeout_fine h
  | taskPlacement => exact execTaskPlacement_fine h
  | shadowFillDone => exact execShadowFillDone_fine h
  | effectiveClassAging => exact execEffectiveClassAging_fine h
  | deadlinePreemption => exact execDeadlinePreemption_fine h
  | preemptForcedSave => exact execPreemptForcedSave_fine h
  | graphReplayStart => exact execGraphReplayStart_fine h
  | launchDoorbell => exact execLaunchDoorbell_fine h
  | launchRecord => exact execLaunchRecord_fine h
  | checkerMismatch => exact execCheckerMismatch_fine h
  | fetchFault => exact execFetchFault_fine h
  | watchdog => exact execWatchdog_fine h
  | idleTimeout => exact execIdleTimeout_fine h
  | secdedFreezeEnd => exact execSecdedFreezeEnd_fine h
  | bankRebuildEnd => exact execBankRebuildEnd_fine h
  | hbmParityReread => exact execHbmParityReread_fine h
  | hbmLaneSwapResume => exact execHbmLaneSwapResume_fine h
  | eventQueueHeadWrite => exact execEventQueueHeadWrite_fine h
  | copyChunkDone => exact execCopyChunkDone_fine h
  | curveDoorbell => exact execCurveDoorbell_fine h
  | curveEntry => exact execCurveEntry_fine h
  | gradeEvent => exact execGradeEvent_fine h
  | pendAnnounce => exact execPendAnnounce_fine h
  | parkStopTimeout => exact execParkStopTimeout_fine h
  | parkCopyDone => exact execParkCopyDone_fine h
  | suspendEvent => exact execSuspendEvent_fine h
  | resumeEvent => exact execResumeEvent_fine h
  | fastLoop => exact execFastLoop_fine h
  | slowLoop => exact execSlowLoop_fine h
  | exemptExpiry => exact execExemptExpiry_fine h
  | vcodeStepEnd => exact execVcodeStepEnd_fine h
  | fcodeHopEnd => exact execFcodeHopEnd_fine h
  | biasSettle => exact execBiasSettle_fine h
  | permitRefill => exact execPermitRefill_fine h
  | dieGate => exact execDieGate_fine h
  | dieSwitchOn => exact execDieSwitchOn_fine h
  | clusterSwitchOnRound => exact execClusterSwitchOnRound_fine h
  | parkListCopyDone => exact execParkListCopyDone_fine h
  | hbmRetentionEntry => exact execHbmRetentionEntry_fine h
  | energySample => exact execEnergySample_fine h
  | energyLowHalfRead => exact execEnergyLowHalfRead_fine h
  | energyHighHalfRead => exact execEnergyHighHalfRead_fine h
  | voltageSample => exact execVoltageSample_fine h
  | vminRearm => exact execVminRearm_fine h
  | errorCounterClear => exact execErrorCounterClear_fine h
  | onyxBlockMove => exact execOnyxBlockMove_fine h
  | droopTrip => exact execDroopTrip_fine h
  | droopRecovery => exact execDroopRecovery_fine h
  | hopRetry => exact execHopRetry_fine h
  | vcoreFault => exact execVcoreFault_fine h
  | clusterPowerLoss => exact execClusterPowerLoss_fine h
  | modulePowerLoss => exact execModulePowerLoss_fine h
  | vauxPowerGood => exact execVauxPowerGood_fine h
  | bootTimeout => exact execBootTimeout_fine h
  | railPowerGoodTimeout => exact execRailPowerGoodTimeout_fine h
  | recoveryDoorbell val => exact execRecoveryDoorbell_fine (_val := val) h
  | hostWrite => exact execHostWrite_fine h
  | hostRead =>
    unfold exec
    exact execHostRead_fine h
  | flr => exact execFlr_fine h
  | registerWrite => exact execRegisterWrite_fine h
  | createContext => exact execCreateContext_fine h
  | destroyContext => exact execDestroyContext_fine h
  | installLapTable => exact execInstallLapTable_fine h
  | parkList => exact execParkList_fine h
  | telemetryBuffer => exact execTelemetryBuffer_fine h
  | writeSlotTable => exact execWriteSlotTable_fine h
  | savePool => exact execSavePool_fine h
  | preEmptTask => exact execPreEmptTask_fine h
  | clearDegradedCore => exact execClearDegradedCore_fine h
  | restoreSnapshotDomain => exact execRestoreSnapshotDomain_fine h
  | setUpCommunicator => exact execSetUpCommunicator_fine h
  | cancelCollective => exact execCancelCollective_fine h
  | suspendRequest => exact execSuspendRequest_fine h
  | resumeRequest => exact execResumeRequest_fine h
  | writeCoreOwnership => exact execWriteCoreOwnership_fine h
  | registerParkArea => exact execRegisterParkArea_fine h
  | peerAccessArrival peer => exact execPeerAccessArrival_fine (_peer := peer) h
  | peerResponse => exact execPeerResponse_fine h
  | peerTimeout => exact execPeerTimeout_fine h
  | peerRefusal => exact execPeerRefusal_fine h
  | ethPacketArrival port => exact execEthPacketArrival_fine (_port := port) h
  | ethAckArrival => exact execEthAckArrival_fine h
  | ethRetransmitTimeout => exact execEthRetransmitTimeout_fine h
  | collectiveChunkDone => exact execCollectiveChunkDone_fine h
  | collectiveStall => exact execCollectiveStall_fine h
  | getVersion => exact execGetVersion_fine h
  | getCapabilities => exact execGetCapabilities_fine h
  | negotiateAlgorithms => exact execNegotiateAlgorithms_fine h
  | getDigests => exact execGetDigests_fine h
  | getCertificate => exact execGetCertificate_fine h
  | challenge => exact execChallenge_fine h
  | getMeasurements => exact execGetMeasurements_fine h
  | spdmUnsupportedRequest => exact execSpdmUnsupportedRequest_fine h
  | mboxSend => exact execMboxSend_fine h
  | engInit => exact execEngInit_fine h
  | engAbsorb => exact execEngAbsorb_fine h
  | engDigest => exact execEngDigest_fine h
  | engClone => exact execEngClone_fine h
  | engExtend => exact execEngExtend_fine h
  | engSign => exact execEngSign_fine h
  | engRand => exact execEngRand_fine h
  | engMblock => exact execEngMblock_fine h
  | engMove => exact execEngMove_fine h
  | controlPathAccessPerforms => exact execControlPathAccessPerforms_fine h
  | hostCompletion => exact execHostCompletion_fine h
  | birspArrival => exact execBirspArrival_fine h
  | hbmScrub => exact execHbmScrub_fine h
  | versionOverflowRequeue => exact execVersionOverflowRequeue_fine h
  | moduleReset => exact execModuleReset_fine h
  | railPowerGood => exact execRailPowerGood_fine h

theorem step_fine {s : State} (h : State.Fine P Q s) : Next (State.Fine P Q) (step s) := by
  unfold step
  split
  next e4 =>
    have h5 := fst_of e4 (prepare_fine h)
    exact Next.next (State.elapse_fine (move_of rfl h5))
  next e10 =>
    have h11 := fst_of e10 (prepare_fine h)
    split
    next e14 =>
      have h15 := next_of e14 (exec_fine (run_of rfl h11))
      exact Next.next (State.elapse_fine h15)
    · exact Next.fault
    · exact Next.refused

end Sys2Proof.Machine
end

section
/-! # What every step keeps: memory stays canonical (O5), and the registers of every thread and image stay in their ranges (O15) -/

namespace Sys2Proof.Machine

open Sys2Proof

/-! ## O15 -/

theorem Image.fine_of_regsOk {i : Image} (h : i.RegsOk) : i.Fine True := fun t ht _ => h t ht

theorem Image.regsOk_of_fine {i : Image} (h : i.Fine True) : i.RegsOk := fun t ht => h t ht trivial

/-- The ranges alone, as the invariant says them. -/
theorem State.fine_iff_regsOk {s : State} : s.Fine False True ↔ s.RegsOk := by
  constructor
  · rintro ⟨-, hthr, htasks, hcores, hdies⟩
    refine ⟨fun e he => hthr e he trivial, fun x hx i hi => ?_, fun e he i hi => ?_, fun d j hj => Image.regsOk_of_fine (hdies d j hj)⟩
    · obtain ⟨hsaved, horigins, hkept⟩ := htasks x hx
      rcases hi with hi | hi | ⟨n, hi⟩
      · exact Image.regsOk_of_fine (hsaved i hi)
      · exact Image.regsOk_of_fine (horigins i hi)
      · exact Image.regsOk_of_fine (hkept _ hi)
    · obtain ⟨ha, hb, hc⟩ := hcores e he
      rcases hi with hi | hi | hi
      · exact Image.regsOk_of_fine (ha i hi)
      · exact Image.regsOk_of_fine (hb i hi)
      · exact Image.regsOk_of_fine (hc i hi)
  · rintro ⟨hthr, htasks, hcores, hdies⟩
    refine ⟨False.elim, fun e he _ => hthr e he, fun x hx => ?_, fun e he => ?_, fun d j hj => Image.fine_of_regsOk (hdies d j hj)⟩
    · exact ⟨fun i hi => Image.fine_of_regsOk (htasks x hx i (.inl hi)), fun i hi => Image.fine_of_regsOk (htasks x hx i (.inr (.inl hi))),
        fun k hk => Image.fine_of_regsOk (htasks x hx _ (.inr (.inr ⟨k.1, hk⟩)))⟩
    · exact ⟨fun i hi => Image.fine_of_regsOk (hcores e he i (.inl hi)), fun i hi => Image.fine_of_regsOk (hcores e he i (.inr (.inl hi))),
        fun i hi => Image.fine_of_regsOk (hcores e he i (.inr (.inr hi)))⟩

/-- Settles O15: the ranges hold after reset, and `step_fine` says that every step keeps them. -/
theorem registersKeepTheirRanges : Obligations.RegistersKeepTheirRanges :=
  ⟨State.fine_iff_regsOk.mp State.reset_fine, fun _ _ h e => State.fine_iff_regsOk.mp (next_of e (step_fine (State.fine_iff_regsOk.mpr h)))⟩

/-! ## O5: the canonical form alone -/

theorem Image.fine_false (i : Image) : i.Fine False := fun _ _ => False.elim

/-- The canonical form alone, as the invariant says it. -/
theorem State.fine_iff_wf {s : State} : s.Fine True False ↔ Memory.wf s.mem = true :=
  ⟨fun h => h.1 trivial, fun h => ⟨fun _ => h, fun _ _ => False.elim,
    fun _ _ => ⟨fun i _ => Image.fine_false i, fun i _ => Image.fine_false i, fun e _ => Image.fine_false e.2⟩,
    fun _ _ => ⟨fun i _ => Image.fine_false i, fun i _ => Image.fine_false i, fun i _ => Image.fine_false i⟩,
    fun _ j _ => Image.fine_false j.img⟩⟩

theorem mem_foldl_restorePage {P : Prop} {m : List Host.Cell} {r : SnapRoot} {l : List Nat} (h : Mem P m) : Mem P
    (l.foldl (restorePage r) m) :=
  foldl_fine h fun _ _ hm => restorePage_mem hm

/-! ## O5: what a masked write at home leaves in memory -/

theorem State.refillReady_mem (s : State) (d : Nat) : (s.refillReady d).mem = s.mem :=
  foldl_fine (R := fun t : State => t.mem = s.mem) rfl fun _ _ h => h

theorem State.requeue_mem (s : State) (uid : Nat) : (s.requeue uid).mem = s.mem := by
  unfold State.requeue
  split
  · rfl
  · exact iteInduction (motive := fun t : State => t.mem = s.mem) (fun _ => State.refillReady_mem _ _) fun _ => rfl

theorem State.fireMonitors_mem (s : State) (line : Nat) : (s.fireMonitors line).mem = s.mem :=
  iteInduction (motive := fun t : State => t.mem = s.mem) (fun _ => rfl) fun _ =>
    foldl_fine (R := fun t : State => t.mem = s.mem) rfl fun t _ h => (State.requeue_mem t _).trans h

theorem State.portUse_mem (s : State) (i n : Nat) : (s.portUse i n).mem = s.mem := by
  unfold State.portUse
  dsimp only
  split
  · rfl
  · rfl

theorem State.llcLeaves_mem (s : State) (d : Nat) (v : LlcLine) : (s.llcLeaves d v).mem = s.mem := by
  unfold State.llcLeaves
  have h (c : Prop) [Decidable c] (t : State) (i n : Nat) (ht : t.mem = s.mem) : (if c then t.portUse i n else t).mem = s.mem :=
    iteInduction (motive := fun t : State => t.mem = s.mem) (fun _ => (State.portUse_mem _ _ _).trans ht) fun _ => ht
  exact iteInduction (motive := fun t : State => t.mem = s.mem) (fun _ => h _ _ _ _ rfl) fun _ => h _ _ _ _ rfl

theorem State.llcRoom_mem (s : State) (d line : Nat) : (s.llcRoom d line).1.mem = s.mem := by
  unfold State.llcRoom
  refine iteInduction (motive := fun r : State × Bool => r.1.mem = s.mem) (fun _ => rfl) fun _ => ?_
  refine iteInduction (motive := fun r : State × Bool => r.1.mem = s.mem) (fun _ => rfl) fun _ => ?_
  split
  · rfl
  · exact State.llcLeaves_mem _ _ _

theorem State.llcInsert_mem (s : State) (d : Nat) (l : LlcLine) : (s.llcInsert d l).mem = s.mem :=
  iteInduction (motive := fun t : State => t.mem = s.mem) (fun _ => State.llcRoom_mem _ _ _) fun _ => State.llcRoom_mem _ _ _

theorem State.homeTake_mem (s : State) (n line : Nat) : (s.homeTake n line).mem = s.mem :=
  iteInduction (motive := fun t : State => t.mem = s.mem) (fun _ => State.llcInsert_mem _ _ _) fun _ => rfl

theorem State.homeDirty_mem (s : State) (n line : Nat) : (s.homeDirty n line).mem = s.mem :=
  iteInduction (motive := fun t : State => t.mem = s.mem) (fun _ => State.homeTake_mem _ _ _) fun _ => State.homeTake_mem _ _ _

/-- What a write at home marks before it writes. -/
theorem State.homeMarked_mem (s : State) (a : Nat) :
    (match s.homeOf a with
      | .die n => s.homeDirty n (a / 64)
      | .hostWin p => s.setPort p { s.port p with out := (s.port p).out + 1 }
      | _ => s).mem = s.mem := by
  split
  · exact State.homeDirty_mem _ _ _
  · rfl
  · rfl

/-- A masked write of a line puts the bytes that its mask names, and no others. -/
theorem memByte_putMasked {m : List Host.Cell} (h : Memory.wf m = true) (a : Nat) (d : BitVec 512) (k : BitVec 64) (b : Nat) :
    memByte (putMasked m a d k) b = if a ≤ b ∧ b < a + 64 ∧ k.getLsbD (b - a) = true then lineByte d (b - a) else memByte m b := by
  have key : ∀ n, Memory.wf ((List.range n).foldl (fun m i => if k.getLsbD i then memSet m (a + i) (lineByte d i) else m) m) = true ∧
      memByte ((List.range n).foldl (fun m i => if k.getLsbD i then memSet m (a + i) (lineByte d i) else m) m) b =
        if a ≤ b ∧ b < a + n ∧ k.getLsbD (b - a) = true then lineByte d (b - a) else memByte m b := by
    intro n
    induction n with
    | zero => exact ⟨h, (if_neg (by omega)).symm⟩
    | succ n ih =>
      obtain ⟨hw, hb⟩ := ih
      rw [List.range_succ, List.foldl_append, List.foldl_cons, List.foldl_nil]
      by_cases hk : k.getLsbD n = true
      · rw [if_pos hk]
        refine ⟨wf_memSet hw _ _, ?_⟩
        by_cases e : b = a + n
        · rw [e, memByte_memSet_self hw, Nat.add_sub_cancel_left, if_pos ⟨by omega, by omega, hk⟩]
        · rw [memByte_memSet_ne hw e, hb]
          exact if_congr ⟨fun ⟨h1, h2, h3⟩ => ⟨h1, by omega, h3⟩, fun ⟨h1, h2, h3⟩ => ⟨h1, by omega, h3⟩⟩ rfl rfl
      · rw [if_neg hk]
        refine ⟨hw, hb.trans (if_congr ⟨fun ⟨h1, h2, h3⟩ => ⟨h1, by omega, h3⟩, fun ⟨h1, h2, h3⟩ => ⟨h1, ?_, h3⟩⟩ rfl rfl)⟩
        have : b - a ≠ n := fun e => hk (e ▸ h3)
        omega
  exact (key 64).2

theorem State.writeAddr_local {s t : State} {pa a : Nat} (hp : s.snapPage (s.localPa pa) = none) (h : s.writeAddr pa = some (t, a)) :
    t = s ∧ a = s.localPa pa := by
  unfold State.writeAddr at h
  dsimp only at h
  split at h
  · cases h
  · rw [hp] at h
    cases h
    exact ⟨rfl, rfl⟩

/-- A write at home of a line whose home is here and that no snapshot maps is the masked write at its own address. -/
theorem State.homeWriteK_mem {s t : State} {kind line : Nat} {d : BitVec 512} {m : BitVec 64} (hq : s.atPeer line = false)
    (hp : s.snapPage (s.localPa (line * 64)) = none) (h : s.homeWriteK kind line d m = some t) :
    t.mem = putMasked s.mem (s.localPa (line * 64)) d m := by
  unfold State.homeWriteK at h
  unfold State.atPeer at hq
  split at h
  next e =>
    rw [e] at hq
    cases hq
  · split at h
    · cases h
    next e =>
      obtain ⟨ht, ha⟩ := State.writeAddr_local hp e
      rw [ht, ha] at h
      have hs := congrArg (putMasked · (s.localPa (line * 64)) d m) (State.homeMarked_mem s (s.localPa (line * 64)))
      rw [← Option.some.inj h, State.fireMonitors_mem]
      exact iteInduction (motive := fun u : State => u.mem = putMasked s.mem (s.localPa (line * 64)) d m) (fun _ => hs) fun _ => hs

theorem State.homeWrite_mem {s t : State} {line : Nat} {d : BitVec 512} {m : BitVec 64} (hq : s.atPeer line = false)
    (hp : s.snapPage (s.localPa (line * 64)) = none) (h : s.homeWrite line d m = some t) :
    t.mem = putMasked s.mem (s.localPa (line * 64)) d m := by
  unfold State.homeWrite at h
  split at h
  · cases h
  · obtain ⟨u, hu, rfl⟩ := Option.map_eq_some_iff.mp h
    have hm := State.homeWriteK_mem hq hp hu
    exact iteInduction (motive := fun t : State => t.mem = putMasked s.mem (s.localPa (line * 64)) d m) (fun _ => hm) fun _ => hm

/-- Settles O5: every operation, and the step that runs them, keeps `State.Fine`; at an ordinary line the write is `putMasked`. -/
theorem memoryOperationsKeepTheCanonicalForm : Obligations.MemoryOperationsKeepTheCanonicalForm := by
  refine ⟨rfl, fun s t h e => State.fine_iff_wf.mp (next_of e (step_fine (State.fine_iff_wf.mpr h))), fun s h => ?_⟩
  have hs : s.Fine True False := State.fine_iff_wf.mpr h
  refine ⟨fun _ _ _ _ e => State.fine_iff_wf.mp (some_of e (State.homeWrite_fine hs)),
    fun _ _ _ _ e => State.fine_iff_wf.mp (some_of e (State.engineWriteLine_fine hs)),
    fun _ _ => ⟨State.fine_iff_wf.mp (State.engineWrite_fine hs), State.fine_iff_wf.mp (State.atomicWrite_fine hs),
      State.fine_iff_wf.mp (State.recordWrite_fine hs)⟩,
    fun _ _ _ e => State.fine_iff_wf.mp (some_of (R := Fst (State.Fine True False)) e (State.writeAddr_fine hs)),
    fun _ => State.fine_iff_wf.mp (State.dropCopies_fine hs), fun _ _ => State.fine_iff_wf.mp (State.llcRoom_fine hs),
    fun _ _ => State.fine_iff_wf.mp (State.llcInsert_fine hs), fun _ _ _ => State.fine_iff_wf.mp (State.copyRange_fine hs),
    fun _ => ⟨State.fine_iff_wf.mp (State.loseDirty_fine hs), State.fine_iff_wf.mp (State.stackOn_fine hs)⟩,
    fun _ _ => mem_foldl_restorePage (P := True) (fun _ => h) trivial, fun _ => State.fine_iff_wf.mp (State.placeWord_fine hs), ?_⟩
  intro line d m t hq hp e a
  rw [State.homeWrite_mem hq hp e]
  exact memByte_putMasked h _ d m a

end Sys2Proof.Machine
end
